-- ==== Sys2Proof/Word.lean ====
section
/-!
DEFINITION. Word.lean: the word types of the T8 and their plainest arithmetic.
-/
namespace Sys2Proof

abbrev W8 := BitVec 8
abbrev W16 := BitVec 16
abbrev W32 := BitVec 32
abbrev W64 := BitVec 64

/-- A byte of any memory. -/
abbrev Byte := BitVec 8

end Sys2Proof
end

