-- ==== Sys2Proof/Syntax.lean ====
section
/-!
DEFINITION. Syntax.lean: the commands the block takes, one constructor per row of spec/opcode_table.json. An opcode's row
names the issued command it performs; its descriptor stands in State. Verdicts of physics, of a pin or of a peer that no
rule computes are operands.
-/
namespace Sys2Proof

/-- A command of a submission queue: context, queue and submission position (SEQUENCE of Table 10-4). -/
structure CmdId where
  ctx : Nat
  q : Nat
  seq : Nat
  deriving DecidableEq, Repr

/-- The host's stores to its own memory that precede a row: addresses and bytes. -/
abbrev HostStores := List Host.Cell

/-- What a receiver finds in one slot of a port: whether every codeword of it was correctable (R321), how many codewords
were corrected, and its 544 bytes: header in clear, payload as sent and tag (R322, R328). -/
structure RxSlot where
  fecOk : Bool
  corrected : Nat
  bytes : List Byte
  deriving DecidableEq, Repr

/-- What a stage of the start-up sequence finds (R525, R526). `firmware`: the flash image verifies under R508.
`selfTests`: the power-up self-tests of R502 pass. `dieFails`: dies whose self-test or training fails in this stage.
`cellFails`: physical cells (die × 104 + number) whose self-test fails. `fused`: fuses read in stage ROM, as die × 104 +
number of each cell fused out. `linksDown`: die-to-die links out of service (R25). -/
structure StageReport where
  firmware : Bool
  selfTests : Bool
  dieFails : List Nat
  cellFails : List Nat
  fused : List Nat
  linksDown : List Nat
  deriving DecidableEq, Repr

/-- A unit under targeted self-test (Table 18-3): the UNIT_KIND code of Table 18-2, its die and its index. -/
structure UnitId where
  kind : Nat
  die : Nat
  index : Nat
  deriving DecidableEq, Repr

inductive Instr where
  -- commands of Table 10-6
  | nop (id : CmdId)
  | descCreate (id : CmdId)
  | descDestroy (id : CmdId)
  | allocSet (id : CmdId)
  | allocClear (id : CmdId)
  | product (id : CmdId)
  | elementwise (id : CmdId)
  | reduce (id : CmdId)
  | rowForward (id : CmdId)
  | rowBackward (id : CmdId)
  | topiary (id : CmdId)
  | topiaryBufferWrite (id : CmdId)
  | layout (id : CmdId)
  | gather (id : CmdId)
  | scatter (id : CmdId)
  | scatterAdd (id : CmdId)
  | dmaCopy (id : CmdId)
  | syncAdd (id : CmdId)
  /-- the arrivals of one CCLK at one barrier (R238) -/
  | arrive (ids : List CmdId)
  | watchWrite (id : CmdId)
  | watchAdd (id : CmdId)
  | syncRead (id : CmdId)
  | syncMap (id : CmdId)
  | syncUnmap (id : CmdId)
  | topk (id : CmdId)
  | dispatchSend (id : CmdId)
  | dispatchReceive (id : CmdId)
  | combineReturn (id : CmdId)
  | combineSum (id : CmdId)
  | batchCancel (id : CmdId)
  | batchGenerationAdvance (die ctx tag : Nat)
  | fabricSend (id : CmdId)
  | collective (id : CmdId)
  | slotTableLoad (id : CmdId)
  | slotTableSwitch (id : CmdId)
  | groupDefine (id : CmdId)
  | groupRetire (id : CmdId)
  | setCounters (id : CmdId)
  | refresh (id : CmdId)
  | query (id : CmdId)
  | stepOpen (id : CmdId)
  | stepClose (id : CmdId)
  | vote (id : CmdId)
  | stepWait (id : CmdId)
  | participants (id : CmdId)
  | evaluateBegin (id : CmdId)
  | evaluateEnd (id : CmdId)
  | evalWindowExpiry
  | snap (id : CmdId)
  | blocks (id : CmdId)
  | repair (id : CmdId)
  | rollback (id : CmdId)
  | freezeAt (id : CmdId)
  | thaw (id : CmdId)
  | counterClear (id : CmdId)
  | arm (id : CmdId)
  | disarm (id : CmdId)
  | snapshot (id : CmdId)
  | groupForm (id : CmdId)
  | dissolve (id : CmdId)
  /-- `pass`: the cell's targeted self-test passes (R285) -/
  | cellReturn (id : CmdId) (pass : Bool)
  | cellFence (id : CmdId)
  | pageRetire (id : CmdId)
  -- security services, on the request the mailbox holds (R490)
  | getStatus
  | getCerts
  | attest
  | sessionOpen
  | sessionRekey
  | sessionClose
  | ownerChallenge
  | ownerAuth
  | ownerEnrol
  | contextKeyNew
  | contextKeyErase
  /-- `pass`: the self-tests of R502 pass -/
  | selfTest (pass : Bool)
  | zeroise
  | decommission
  | zeroiseNow (secure : Bool)
  | challengeExpiry
  | entropyTestFailure
  -- firmware and repair mailboxes; `ok`: the image's digest and signature verify (R508)
  | fwMailboxGo (secure : Bool) (persist : Bool) (ok : Bool) (stores : HostStores)
  | flashWriteDone
  | repairQuery (secure : Bool) (die stack channel pseudo : Nat)
  | softPpr (secure : Bool) (die stack channel pseudo : Nat)
  | hardPpr (secure : Bool) (die stack channel pseudo : Nat)
  /-- RESULT and SPARE_ROWS as the repair engine finds them -/
  | repairOperationEnd (die result spareRows : Nat)
  -- host queue events; a register write carries whether it came in the secure stream (R500)
  | nudge (secure : Bool) (ctx value : Nat)
  | doorbellScan (ctx : Nat) (stores : HostStores)
  | sqEnable (secure : Bool) (ctx q value : Nat) (stores : HostStores)
  | sqDisable (secure : Bool) (ctx q value : Nat)
  | cqEnable (secure : Bool) (ctx r value : Nat)
  | cqDisable (secure : Bool) (ctx r value : Nat)
  | commandIssue (ctx q : Nat)
  | commandComplete (id : CmdId)
  | cqRecordRelease (ctx r : Nat)
  | holdoffExpiry (ctx r : Nat)
  -- cells: `cell` is die × 104 + physical number
  | cellDraw (cell : Nat) (id : CmdId)
  | taskComplete (cell : Nat) (id : CmdId) (task : Nat)
  | partialTileArrival (id : CmdId) (tile segment : Nat)
  | ownerRegisterWrite (secure : Bool) (cell bank value : Nat)
  | handoverScrubStart (cell bank : Nat)
  | handoverDone (cell bank : Nat)
  /-- `flips`: flipped bits of the word read; `raced`: another write reached the word since (R77) -/
  | sramPatrolScrub (cell word flips : Nat) (raced : Bool)
  | commonsPatrolScrub (die word flips : Nat) (raced : Bool)
  /-- `word`: the key / 8 of a word of a stack or channel, the reserved regions' among them -/
  | memoryPatrolScrub (word flips : Nat) (raced : Bool)
  /-- `ctrl`: 0, 1 the die's HBM4 controllers, 2–4 its GDDR7 controllers; `ns`: nanoseconds credited -/
  | tokenCredit (die part ctrl ns : Nat)
  | watchFire (die entry : Nat)
  /-- the update messages, by their place among those in flight, that reach one die's counters in one CCLK -/
  | counterUpdate (die : Nat) (msgs : List Nat)
  | watchRegistrationResume (die k : Nat)
  -- fabric
  | frameStart
  | slotTransmit (port slot : Nat)
  | slotPresent (port slot : Nat) (rx : RxSlot)
  | signalApply (flow epoch : Nat)
  | stagedBlockApply (die k : Nat)
  /-- `tRx`: local time of arrival of byte 0 (R336) -/
  | controlSlotReceive (port : Nat) (rx : RxSlot) (tRx : Nat)
  | retentionEnd
  | flowLoss (flow epoch frame : Nat)
  | departureCutoff
  | tableSwitch
  | failoverSwitch
  | retiredTableDiscard
  | batchDeadline (id : CmdId)
  | portEnable (secure : Bool) (port value : Nat)
  | linkTrained (port : Nat)
  | frameAligned (port : Nat)
  /-- what the exchange of R501 with the peer of this NODE and port proved: whether its certificate chain verifies to the Vexmer
  root key, and whether its signature and FINISHED message verify -/
  | peerAuthenticated (port peerNode peerPort : Nat) (chainOk signatureOk : Bool)
  /-- the delay in pips that the exchanges measured -/
  | delayMeasured (port delay : Nat)
  | bringUpTimeout (port : Nat)
  | retryInterval (port : Nat)
  | portDirectionFailure (port : Nat)
  | rekey (secure : Bool) (port value : Nat)
  | rekeyStart (port : Nat)
  | keySwitch (port : Nat)
  | previousKeyExpiry (port : Nat)
  | nonceExhausted (port : Nat)
  | roleChange
  | timeSet (secure : Bool) (value : Nat)
  | backupSwitch
  | lockLoss
  -- step commit
  | stepCommit
  | stepSkip
  | recordDrain (die : Nat)
  | consensusStall
  | exportRelease (secure : Bool) (die value : Nat)
  | foreignRelease (secure : Bool) (die value : Nat)
  -- faults
  /-- `id`: the command the unit was executing; `word`: an uncorrectable word the error rests on, by device address, and
  whether the reading task wrote it itself (R562) -/
  | unitError (u : UnitId) (id : Option CmdId) (word : Option Nat) (own : Bool)
  | targetedSelfTestEnd (u : UnitId) (pass : Bool)
  | drainMarkerArrival (cell : Nat)
  | dieLoss (die : Nat)
  | pcieLinkLoss
  | stewardWatchdogMiss (die : Nat)
  -- power and thermal; temperatures in °C × 16, power in watts, voltages in millivolts
  /-- each die's hottest sensor (none: no valid value), input power averaged over 10 ms and now, input voltage, and the
  point the steward's estimate allows (R519) -/
  | controlLoopTick (temps : List (Option Nat)) (avgPower power millivolts estimate : Nat)
  | operatingPointChange
  | powerSample (watts avg10ms : Nat) (above5kFor1ms : Bool)
  | thermalThrottle (temp16 : Nat)
  | thermalTrip (temp16 : Nat)
  | droopStretch (die : Nat)
  | overvoltage (die : Nat)
  | powerApplied
  | coldStageEnd (r : StageReport)
  /-- microseconds for which MOD_RESET# has been held low -/
  | modReset (us : Nat)
  | perst
  | perstDeassert
  /-- `flr`: Function Level Reset; otherwise a hot reset -/
  | functionReset (flr : Bool)
  /-- input voltage and the microseconds it has held -/
  | vinFault (millivolts us : Nat)
  -- register writes with rows of their own, and the rest
  | coldReset (secure : Bool) (key : Nat)
  | warmReset (secure : Bool) (key : Nat)
  | lock (secure : Bool) (die value : Nat)
  | qcounterReset (secure : Bool) (ctx value : Nat)
  | freezeNow (secure : Bool) (value : Nat)
  | freezeEffect
  | snapshotTrigger (secure : Bool) (value : Nat)
  | snapshotCapture
  | faultRingBase (secure : Bool) (value : Nat)
  | logRingBase (secure : Bool) (value : Nat)
  | registerWrite (secure : Bool) (offset size value : Nat)
  | registerRead (secure : Bool) (offset size : Nat)
  | powerStageFault
  | throttleRelease (temp16 : Nat)
  | stretchEnd
  | modResetRelease
  | suppliesOff (millivolts us : Nat)
  deriving DecidableEq, Repr

end Sys2Proof
end

