-- ==== Sys2Proof/Decode.lean ====
section
/-!
DEFINITION. Decode.lean: the block takes commands, not words. No row of the table gives bits, so no word spells a command.
-/
namespace Sys2Proof

/-- The command a table word spells: none, since no row of the table has bits. -/
def decodeTableWord (_nbits _w : Nat) : Option Instr := none

end Sys2Proof
end

