-- ==== Sys2Proof/Machine/Bytes.lean ====
section
/-!
DEFINITION. Machine/Bytes.lean: byte order (R5), bit fields (Table 0-1), and the sorted association lists that hold
every sparse collection of the machine.
-/
namespace Sys2Proof.Machine

/-- Bits `hi` down to `lo` of `v`, both included (Table 0-1, "Bit range"). -/
def bitsOf (v hi lo : Nat) : Nat := (v >>> lo) % 2 ^ (hi + 1 - lo)

/-- Bit `i` of `v`, as a truth value. -/
def bitOf (v i : Nat) : Bool := v.testBit i

/-- `v` with bits `hi` down to `lo` replaced by the low bits of `x`. -/
def putBits (v hi lo x : Nat) : Nat :=
  v - (bitsOf v hi lo) * 2 ^ lo + (x % 2 ^ (hi + 1 - lo)) * 2 ^ lo

def b2n (b : Bool) : Nat := if b then 1 else 0

/-- The value of a run of bytes, least significant byte first (R5). -/
def leValue : List Byte → Nat
  | [] => 0
  | b :: bs => b.toNat + 256 * leValue bs

/-- `v` as `n` bytes, least significant byte first (R5). -/
def leBytes : Nat → Nat → List Byte
  | 0, _ => []
  | n + 1, v => BitVec.ofNat 8 v :: leBytes n (v / 256)

/-- `n` bytes of a record from byte `off` on; bytes past its end read 0. -/
def sliceB (bs : List Byte) (off n : Nat) : List Byte :=
  let t := (bs.drop off).take n
  t ++ List.replicate (n - t.length) 0

/-- The `n`-byte field at byte `off` of a record (R5). -/
def fieldN (bs : List Byte) (off n : Nat) : Nat := leValue (sliceB bs off n)

def u8 (bs : List Byte) (off : Nat) : Nat := fieldN bs off 1
def u16 (bs : List Byte) (off : Nat) : Nat := fieldN bs off 2
def u32 (bs : List Byte) (off : Nat) : Nat := fieldN bs off 4
def u64 (bs : List Byte) (off : Nat) : Nat := fieldN bs off 8

/-- `n` zero bytes. -/
def zeros (n : Nat) : List Byte := List.replicate n 0

/-- `bs` cut or padded with zeros to exactly `n` bytes. -/
def padTo (n : Nat) (bs : List Byte) : List Byte := sliceB bs 0 n

/-- A record of `n` bytes with the fields `(offset, width, value)` written into zeros. -/
def record (n : Nat) (fs : List (Nat × Nat × Nat)) : List Byte :=
  fs.foldl (fun acc f => acc.take f.1 ++ leBytes f.2.1 f.2.2 ++ acc.drop (f.1 + f.2.1)) (zeros n)

/-- Round `a / b` up. -/
def ceilDiv (a b : Nat) : Nat := (a + b - 1) / b

/-- Two's-complement reading of the low `w` bits of `v`. -/
def signedOf (w v : Nat) : Int :=
  let x := v % 2 ^ w
  if x < 2 ^ (w - 1) then Int.ofNat x else Int.ofNat x - Int.ofNat (2 ^ w)

/-- The `w`-bit code of an integer, modulo `2 ^ w`. -/
def unsignedOf (w : Nat) (x : Int) : Nat := (x % Int.ofNat (2 ^ w)).toNat

/-! ### Sorted association lists -/

/-- A sparse collection: entries `(key, value)`, keys rising. -/
abbrev Tab (α : Type) := List (Nat × α)

namespace Tab

def get? {α : Type} : Tab α → Nat → Option α
  | [], _ => none
  | (k, v) :: t, i => if i = k then some v else if i < k then none else get? t i

/-- The entry at `i`, or `d` where the collection lists none. -/
def getD {α : Type} (t : Tab α) (i : Nat) (d : α) : α := (get? t i).getD d

def set {α : Type} : Tab α → Nat → α → Tab α
  | [], i, x => [(i, x)]
  | (k, v) :: t, i, x =>
    if i = k then (i, x) :: t
    else if i < k then (i, x) :: (k, v) :: t
    else (k, v) :: set t i x

def erase {α : Type} : Tab α → Nat → Tab α
  | [], _ => []
  | (k, v) :: t, i => if i = k then t else if i < k then (k, v) :: t else (k, v) :: erase t i

/-- The entry at `i` (or `d`) replaced by its image under `f`. -/
def upd {α : Type} (t : Tab α) (i : Nat) (d : α) (f : α → α) : Tab α := t.set i (f (t.getD i d))

def vals {α : Type} (t : Tab α) : List α := t.map (fun e => e.2)

def keys {α : Type} (t : Tab α) : List Nat := t.map (fun e => e.1)

/-- Every listed value replaced by its image under `f`. -/
def mapVals {α : Type} (t : Tab α) (f : Nat → α → α) : Tab α := t.map (fun e => (e.1, f e.1 e.2))

end Tab

/-- Sorted insertion of a key into a list of keys without repeats. -/
def insertKey : List Nat → Nat → List Nat
  | [], k => [k]
  | x :: t, k => if k = x then x :: t else if k < x then k :: x :: t else x :: insertKey t k

def removeKey (l : List Nat) (k : Nat) : List Nat := l.filter (fun x => x != k)

/-- The list `0, 1, …, n − 1`. -/
def upTo (n : Nat) : List Nat := List.range n

/-- The least `i < n` for which `p i` holds. -/
def firstIdx (n : Nat) (p : Nat → Bool) : Option Nat := (upTo n).find? p

end Sys2Proof.Machine
end

