-- ==== Sys2Proof/Machine/Float.lean ====
section
/-!
DEFINITION. Machine/Float.lean: exact binary values, the scalar formats of Table 2-2, the three rounding modes
(R50–R52) and conversion between values and codes (R30–R32, R48, R49).
-/
namespace Sys2Proof.Machine

/-- An exact value: NaN, an infinity, or `(−1)^neg · m · 2^e`. Zero keeps its sign (R32). -/
inductive FVal where
  | nan
  | inf (neg : Bool)
  | fin (neg : Bool) (m : Nat) (e : Int)
  deriving DecidableEq, Repr

/-- How one element is rounded (R50): nearest even, toward zero, or stochastic with its 16 Dice bits. -/
inductive Rnd where
  | rne
  | rtz
  | sto (r : Nat)
  deriving DecidableEq, Repr

namespace FVal

def zero : FVal := .fin false 0 0
def one : FVal := .fin false 1 0
def ofNat (n : Nat) : FVal := .fin false n 0
def ofInt (i : Int) : FVal := .fin (decide (i < 0)) i.natAbs 0
/-- `2 ^ k`. -/
def pow2 (k : Int) : FVal := .fin false 1 k

def isNan : FVal → Bool
  | .nan => true
  | _ => false

def isFinite : FVal → Bool
  | .fin _ _ _ => true
  | _ => false

def isZero : FVal → Bool
  | .fin _ 0 _ => true
  | _ => false

def isNeg : FVal → Bool
  | .fin n _ _ => n
  | .inf n => n
  | .nan => false

def neg : FVal → FVal
  | .nan => .nan
  | .inf n => .inf (!n)
  | .fin n m e => .fin (!n) m e

def abs : FVal → FVal
  | .nan => .nan
  | .inf _ => .inf false
  | .fin _ m e => .fin false m e

/-- The integer `(−1)^n · m · 2^(e − e0)`, for `e0 ≤ e`. -/
def scaledInt (n : Bool) (m : Nat) (e e0 : Int) : Int :=
  let v : Int := Int.ofNat (m <<< (e - e0).toNat)
  if n then -v else v

/-- The exact sum; an exact zero sum is −0 only when both terms are −0 (IEEE 754, nearest even). -/
def add : FVal → FVal → FVal
  | .nan, _ => .nan
  | _, .nan => .nan
  | .inf a, .inf b => if a = b then .inf a else .nan
  | .inf a, _ => .inf a
  | _, .inf b => .inf b
  | .fin n1 m1 e1, .fin n2 m2 e2 =>
    if m1 = 0 ∧ m2 = 0 then .fin (n1 && n2) 0 0
    else if m1 = 0 then .fin n2 m2 e2
    else if m2 = 0 then .fin n1 m1 e1
    else
      let e0 := min e1 e2
      let s := scaledInt n1 m1 e1 e0 + scaledInt n2 m2 e2 e0
      .fin (decide (s < 0)) s.natAbs e0

def sub (x y : FVal) : FVal := add x (neg y)

/-- The exact product. -/
def mul : FVal → FVal → FVal
  | .nan, _ => .nan
  | _, .nan => .nan
  | .inf a, .inf b => .inf (a != b)
  | .inf a, .fin n m _ => if m = 0 then .nan else .inf (a != n)
  | .fin n m _, .inf b => if m = 0 then .nan else .inf (n != b)
  | .fin n1 m1 e1, .fin n2 m2 e2 => .fin (n1 != n2) (m1 * m2) (e1 + e2)

/-- The quotient with at least 96 bits and, below them, one bit set when the quotient is inexact: no rounding to a
format of the part tells it from the exact quotient. -/
def div : FVal → FVal → FVal
  | .nan, _ => .nan
  | _, .nan => .nan
  | .inf _, .inf _ => .nan
  | .inf a, .fin n _ _ => .inf (a != n)
  | .fin n _ _, .inf b => .fin (n != b) 0 0
  | .fin n1 m1 e1, .fin n2 m2 e2 =>
    if m2 = 0 then (if m1 = 0 then .nan else .inf (n1 != n2))
    else if m1 = 0 then .fin (n1 != n2) 0 0
    else
      let k := 96 + m2.log2
      let a := m1 <<< k
      let q := a / m2
      .fin (n1 != n2) (2 * q + (if a % m2 = 0 then 0 else 1)) (e1 - e2 - Int.ofNat k - 1)

/-- `⌊log2 |x|⌋` of a non-zero finite value; 0 otherwise. -/
def expo : FVal → Int
  | .fin _ m e => if m = 0 then 0 else Int.ofNat m.log2 + e
  | _ => 0

/-- `x < y`; false when either is NaN. -/
def lt : FVal → FVal → Bool
  | .nan, _ => false
  | _, .nan => false
  | .inf a, .inf b => a && !b
  | .inf a, _ => a
  | _, .inf b => !b
  | .fin n1 m1 e1, .fin n2 m2 e2 =>
    let e0 := min e1 e2
    decide (scaledInt n1 m1 e1 e0 < scaledInt n2 m2 e2 e0)

/-- `x ≤ y`; false when either is NaN. -/
def le (x y : FVal) : Bool := !x.isNan && !y.isNan && !lt y x

/-- Equal as numbers (−0 = +0); false when either is NaN. -/
def numEq (x y : FVal) : Bool := le x y && le y x

/-- The larger of two magnitudes, non-finite values left out. -/
def amax2 (a x : FVal) : FVal := if x.isFinite && lt a x.abs then x.abs else a

/-- The largest magnitude of the finite elements of a list; +0 for none. -/
def amax (xs : List FVal) : FVal := xs.foldl amax2 zero

end FVal

/-! ### Rounding (R50–R52) -/

/-- `m / 2^k` rounded to an integer magnitude in mode `r`. -/
def roundShift (r : Rnd) (m k : Nat) : Nat :=
  let q := m >>> k
  let rem := m % 2 ^ k
  match r with
  | .rtz => q
  | .rne => if 2 * rem > 2 ^ k ∨ (2 * rem = 2 ^ k ∧ q % 2 = 1) then q + 1 else q
  | .sto d => if (rem * 65536) >>> k + d ≥ 65536 then q + 1 else q

/-- `m · 2^e` in units of `2^q`, rounded. -/
def roundUnits (r : Rnd) (m : Nat) (e q : Int) : Nat :=
  if q ≤ e then m <<< (e - q).toNat else roundShift r m (q - e).toNat

/-- A floating-point field of Table 2-2. `signBit` is the sign's place; `maxCode` the magnitude code of the largest
finite value; `infCode` that of infinity where the format has one; `nanCode` the canonical NaN (R31). -/
structure FFmt where
  mant : Nat
  bias : Nat
  signBit : Nat
  maxCode : Nat
  infCode : Option Nat
  nanCode : Nat
  deriving DecidableEq, Repr

def fmtFP32 : FFmt := ⟨23, 127, 31, 0x7F7FFFFF, some 0x7F800000, 0x7FC00000⟩
def fmtBF16 : FFmt := ⟨7, 127, 15, 0x7F7F, some 0x7F80, 0x7FC0⟩
def fmtFP16 : FFmt := ⟨10, 15, 15, 0x7BFF, some 0x7C00, 0x7E00⟩
def fmtE4M3 : FFmt := ⟨3, 7, 7, 0x7E, none, 0x7F⟩
def fmtE5M2 : FFmt := ⟨2, 15, 7, 0x7B, some 0x7C, 0x7E⟩
/-- E2M1 has neither infinity nor NaN. -/
def fmtE2M1 : FFmt := ⟨1, 1, 3, 7, none, 0⟩

/-- The value of a code (R30–R32). Every NaN encoding is NaN (R31). -/
def decodeF (f : FFmt) (code : Nat) : FVal :=
  let neg := code.testBit f.signBit
  let mag := code % 2 ^ f.signBit
  let ex := mag >>> f.mant
  let fr := mag % 2 ^ f.mant
  if mag ≤ f.maxCode then
    if ex = 0 then .fin neg fr (1 - Int.ofNat f.bias - Int.ofNat f.mant)
    else .fin neg (2 ^ f.mant + fr) (Int.ofNat ex - Int.ofNat f.bias - Int.ofNat f.mant)
  else if f.infCode = some mag then .inf neg
  else .nan

/-- The magnitude code of `m · 2^e` rounded to `f` as though its exponent range were unbounded above (R49). -/
def magCode (f : FFmt) (r : Rnd) (m : Nat) (e : Int) : Nat :=
  if m = 0 then 0
  else
    let l := Int.ofNat m.log2 + e
    let emin := 1 - Int.ofNat f.bias
    let lo := max l emin
    let n := roundUnits r m e (lo - Int.ofNat f.mant)
    if emin ≤ l then (l + Int.ofNat f.bias).toNat * 2 ^ f.mant + (n - 2 ^ f.mant) else n

/-- The code of a value in `f` (R49, Table 2-4); for a format without infinity, NaN and infinity take its NaN code. -/
def encodeF (f : FFmt) (r : Rnd) : FVal → Nat
  | .nan => f.nanCode
  | .inf n =>
    match f.infCode with
    | some c => c + b2n n * 2 ^ f.signBit
    | none => f.nanCode
  | .fin n m e =>
    let c := magCode f r m e
    let c' :=
      if c ≤ f.maxCode then c
      else
        match f.infCode, r with
        | some i, .rne => i
        | some i, .sto _ => i
        | _, _ => f.maxCode
    c' + b2n n * 2 ^ f.signBit

/-- A finite value saturated to the largest finite of `f`, rounded (R38, R43). -/
def encodeSat (f : FFmt) (r : Rnd) : FVal → Nat
  | .fin n m e => min (magCode f r m e) f.maxCode + b2n n * 2 ^ f.signBit
  | .inf n => f.maxCode + b2n n * 2 ^ f.signBit
  | .nan => 0

/-- The value rounded once, to nearest even, into FP32 (R48, R69). -/
def toF32 (x : FVal) : FVal := decodeF fmtFP32 (encodeF fmtFP32 .rne x)

/-- The FP32 value of 32 stored bits, and back. -/
def ofBits32 (w : Nat) : FVal := decodeF fmtFP32 w
def toBits32 (x : FVal) : Nat := encodeF fmtFP32 .rne x

/-- One operation of a vector lane: exact, then rounded once to nearest even. -/
def add32 (x y : FVal) : FVal := toF32 (x.add y)
def sub32 (x y : FVal) : FVal := toF32 (x.sub y)
def mul32 (x y : FVal) : FVal := toF32 (x.mul y)
def div32 (x y : FVal) : FVal := toF32 (x.div y)
/-- Fused multiply-add with a single rounding. -/
def fma32 (x y z : FVal) : FVal := toF32 ((x.mul y).add z)

/-- The larger of two values: NaN if either is NaN, +0 between +0 and −0 (Table 4-7). -/
def max32 (x y : FVal) : FVal :=
  if x.isNan || y.isNan then .nan
  else if x.isZero && y.isZero then .fin (x.isNeg && y.isNeg) 0 0
  else if x.lt y then y else x

/-- The smaller of two values: NaN if either is NaN, −0 between +0 and −0 (Table 4-7). -/
def min32 (x y : FVal) : FVal :=
  if x.isNan || y.isNan then .nan
  else if x.isZero && y.isZero then .fin (x.isNeg || y.isNeg) 0 0
  else if y.lt x then y else x

/-- A value rounded to an integer in mode `r`. -/
def roundInt (r : Rnd) : FVal → Int
  | .fin n m e => let u : Int := Int.ofNat (roundUnits r m e 0); if n then -u else u
  | _ => 0

/-- Conversion into an integer of limits `lo` to `hi` (Table 2-4): the integer and SATURATED. -/
def toIntSat (lo hi : Int) (r : Rnd) (x : FVal) : Int × Bool :=
  match x with
  | .nan => (0, true)
  | .inf n => (if n then lo else hi, true)
  | .fin _ _ _ =>
    let v := roundInt r x
    if v < lo then (lo, true) else if hi < v then (hi, true) else (v, false)

/-- E8M0 scale (R30): `2^(e − 127)`, or NaN for 0xFF. -/
def e8m0 (c : Nat) : FVal := if c = 255 then .nan else .pow2 (Int.ofNat c - 127)

end Sys2Proof.Machine
end

