-- ==== Sys2Proof/Machine/Special.lean ====
section
/-!
DEFINITION. Machine/Special.lean: the special-function unit (R71, Table 3-4). Each function is evaluated in fixed
point with 320 fraction bits, far more than any FP32 input needs, and its last bit marks an inexact value, so that
the single rounding to FP32 is the correct one.
-/
namespace Sys2Proof.Machine

/-- Fraction bits of the evaluation. -/
def fixBits : Nat := 320

/-- `⌊√v⌋`, one bit at a time from bit `n − 1` down. -/
def isqrtFrom (v : Nat) : Nat → Nat → Nat
  | 0, r => r
  | n + 1, r => isqrtFrom v n (if (r + 2 ^ n) * (r + 2 ^ n) ≤ v then r + 2 ^ n else r)

def isqrt (v : Nat) : Nat := isqrtFrom v (v.log2 / 2 + 1) 0

/-- `Σ z^(2i+1) / (2i+1)` from term `i` on, `t` being `z^(2i+1)` and `z2` being `z²`, in fixed point. -/
def atanhTerms (z2 : Nat) : Nat → Nat → Nat → Nat
  | 0, _, _ => 0
  | n + 1, i, t => t / (2 * i + 1) + atanhTerms z2 n (i + 1) ((t * z2) >>> fixBits)

/-- Inverse hyperbolic tangent of a fixed-point `z` below 0.4. -/
def atanhFix (z : Nat) : Nat := atanhTerms ((z * z) >>> fixBits) 140 0 z

/-- `ln 2 = 2 · atanh(1/3)`. -/
def ln2Fix : Nat := 2 * atanhFix (2 ^ fixBits / 3)

/-- `Σ r^i / i!` from term `i` on, `t` being the term `r^i / i!`. -/
def expTerms (r : Nat) : Nat → Nat → Nat → Nat
  | 0, _, _ => 0
  | n + 1, i, t => t + expTerms r n (i + 1) (((t * r) >>> fixBits) / (i + 1))

/-- `m · 2^e` in fixed point, rounded down. -/
def toFix (m : Nat) (e : Int) : Nat :=
  let k := e + Int.ofNat fixBits
  if 0 ≤ k then m <<< k.toNat else m >>> (-k).toNat

/-- `e^x` of the fixed-point `x` (negated when `n`): a fraction in [1, 2) of fixed point and a power of two. -/
def expParts (n : Bool) (x : Nat) : Nat × Int :=
  let xi : Int := if n then -(Int.ofNat x) else Int.ofNat x
  let k := xi / Int.ofNat ln2Fix
  let r := (xi - k * Int.ofNat ln2Fix).toNat
  (expTerms r 90 0 (2 ^ fixBits), k)

/-- `e^x`. -/
def expSF (x : FVal) : FVal :=
  match x with
  | .nan => .nan
  | .inf n => if n then .zero else .inf false
  | .fin n m e =>
    if m = 0 then .one
    else if x.expo ≥ 8 then (if n then .zero else .inf false)
    else
      let p := expParts n (toFix m e)
      toF32 (.fin false (2 * p.1 + 1) (p.2 - Int.ofNat fixBits - 1))

/-- `1 / x`. -/
def recipSF (x : FVal) : FVal :=
  match x with
  | .fin n 0 _ => .inf n
  | _ => div32 .one x

/-- `1 / √x`. -/
def rsqrtSF (x : FVal) : FVal :=
  match x with
  | .nan => .nan
  | .inf n => if n then .nan else .zero
  | .fin n m e =>
    if m = 0 then .inf n
    else if n then .nan
    else
      let odd := decide (e % 2 ≠ 0)
      let m' := if odd then 2 * m else m
      let e' := if odd then e - 1 else e
      let k := 128 + m'.log2
      let a := 2 ^ (2 * k)
      let s := isqrt (a / m')
      toF32 (.fin false (2 * s + (if s * s * m' = a then 0 else 1)) (-Int.ofNat k - e' / 2 - 1))

/-- Natural logarithm. -/
def logSF (x : FVal) : FVal :=
  match x with
  | .nan => .nan
  | .inf n => if n then .nan else .inf false
  | .fin n m e =>
    if m = 0 then .inf true
    else if n then .nan
    else
      -- x = f · 2^k with f in [3/4, 3/2)
      let l := m.log2
      let up := decide (2 * m ≥ 3 * 2 ^ l)
      let k := Int.ofNat l + e + (if up then 1 else 0)
      let f := toFix m (-(Int.ofNat l + (if up then 1 else 0)))
      let one := 2 ^ fixBits
      let below := decide (f < one)
      let z := ((if below then one - f else f - one) <<< fixBits) / (f + one)
      let t : Int := 2 * Int.ofNat (atanhFix z)
      let v := k * Int.ofNat ln2Fix + (if below then -t else t)
      if v = 0 then .zero
      else toF32 (.fin (decide (v < 0)) (2 * v.natAbs + 1) (-Int.ofNat fixBits - 1))

/-- Hyperbolic tangent. Below `2^−13` its correctly rounded value is its argument. -/
def tanhSF (x : FVal) : FVal :=
  match x with
  | .nan => .nan
  | .inf n => .fin n 1 0
  | .fin n m e =>
    if m = 0 then x
    else if x.expo < -13 then x
    else if x.expo ≥ 5 then .fin n 1 0
    else
      let p := expParts false (toFix m (e + 1))
      let y := p.1 <<< p.2.toNat
      let one := 2 ^ fixBits
      toF32 (.fin n (2 * (((y - one) <<< fixBits) / (y + one)) + 1) (-Int.ofNat fixBits - 1))

end Sys2Proof.Machine
end

