-- ==== Sys2Proof/Machine/Dice.lean ====
section
/-!
DEFINITION. Machine/Dice.lean: the Dice random bits, Philox4x32-10 (R53, R54), and the per-element rounding they feed.
-/
namespace Sys2Proof.Machine

/-- One Philox4x32 round on counter `(c0, c1, c2, c3)` with key `(k0, k1)`, with the published multipliers. -/
def philoxRound (k0 k1 : Nat) (c : Nat × Nat × Nat × Nat) : Nat × Nat × Nat × Nat :=
  let (c0, c1, c2, c3) := c
  let p0 := 0xD2511F53 * c0
  let p1 := 0xCD9E8D57 * c2
  (((p1 >>> 32) ^^^ c1) ^^^ k0, p1 % 2 ^ 32, ((p0 >>> 32) ^^^ c3) ^^^ k1, p0 % 2 ^ 32)

/-- `n` rounds, the key raised by the published Weyl constants between rounds. -/
def philoxRounds : Nat → Nat → Nat → Nat × Nat × Nat × Nat → Nat × Nat × Nat × Nat
  | 0, _, _, c => c
  | n + 1, k0, k1, c =>
    philoxRounds n ((k0 + 0x9E3779B9) % 2 ^ 32) ((k1 + 0xBB67AE85) % 2 ^ 32) (philoxRound k0 k1 c)

/-- The Dice purposes of R54. -/
inductive Purpose where
  | convert
  | updater
  deriving DecidableEq, Repr

def Purpose.code : Purpose → Nat
  | .convert => 0
  | .updater => 1

/-- What keys the random bits of one tensor's conversion (R53). -/
structure DiceKey where
  seed : Nat
  step : Nat
  tensorId : Nat
  purpose : Purpose
  deriving DecidableEq, Repr

/-- The 16 bits element `n` draws (R53). -/
def dice (k : DiceKey) (n : Nat) : Nat :=
  let b := n >>> 3
  let (x0, x1, x2, x3) := philoxRounds 10 (k.seed % 2 ^ 32) ((k.seed >>> 32) % 2 ^ 32)
    (k.step % 2 ^ 32, k.tensorId % 2 ^ 32, b % 2 ^ 32, (b >>> 32) % 2 ^ 29 + k.purpose.code * 2 ^ 29)
  let w := x0 + x1 * 2 ^ 32 + x2 * 2 ^ 64 + x3 * 2 ^ 96
  bitsOf w (16 * (n % 8) + 15) (16 * (n % 8))

/-- The rounding of element `n` under the 2-bit mode code of R50. -/
def rndOf (mode : Nat) (k : DiceKey) (n : Nat) : Rnd :=
  if mode = 1 then .rtz else if mode = 2 then .sto (dice k n) else .rne

end Sys2Proof.Machine
end

