-- ==== Sys2Proof/Machine/Blocks.lean ====
section
/-!
DEFINITION. Machine/Blocks.lean: the number formats of Table 2-1 as stored: MX blocks (R36–R38), EB4 superblocks
(R39–R43), TB40 blocks (R44–R46), scalar elements, tensor scales (R56, R57) and gradient error terms (R64, R65).
-/
namespace Sys2Proof.Machine

/-- The format codes of Table 2-1. -/
inductive Fmt where
  | fp32 | bf16 | fp16 | e4m3 | e5m2 | mxfp8 | mxfp4 | eb4 | tb40 | int8 | int4 | int32 | uint32
  deriving DecidableEq, Repr

/-- The format a 4-bit code names; 0x0D to 0x0F are reserved (R29). -/
def Fmt.ofCode : Nat → Option Fmt
  | 0 => some .fp32 | 1 => some .bf16 | 2 => some .fp16 | 3 => some .e4m3 | 4 => some .e5m2
  | 5 => some .mxfp8 | 6 => some .mxfp4 | 7 => some .eb4 | 8 => some .tb40 | 9 => some .int8
  | 10 => some .int4 | 11 => some .int32 | 12 => some .uint32 | _ => none

def Fmt.code : Fmt → Nat
  | .fp32 => 0 | .bf16 => 1 | .fp16 => 2 | .e4m3 => 3 | .e5m2 => 4 | .mxfp8 => 5 | .mxfp4 => 6 | .eb4 => 7
  | .tb40 => 8 | .int8 => 9 | .int4 => 10 | .int32 => 11 | .uint32 => 12

/-- Elements of one block; 1 for a scalar format, 2 for INT4 whose byte is written whole (R564). -/
def Fmt.block : Fmt → Nat
  | .mxfp8 => 32 | .mxfp4 => 32 | .eb4 => 64 | .tb40 => 40 | .int4 => 2 | _ => 1

/-- Bytes of one block in the element plane. -/
def Fmt.blockBytes : Fmt → Nat
  | .fp32 => 4 | .bf16 => 2 | .fp16 => 2 | .e4m3 => 1 | .e5m2 => 1 | .mxfp8 => 32 | .mxfp4 => 16
  | .eb4 => 40 | .tb40 => 10 | .int8 => 1 | .int4 => 1 | .int32 => 4 | .uint32 => 4

/-- A format with a scale plane of one E8M0 byte per block (R36). -/
def Fmt.isMX (f : Fmt) : Bool := f = .mxfp8 || f = .mxfp4

def Fmt.isInt (f : Fmt) : Bool := f = .int8 || f = .int4 || f = .int32 || f = .uint32

/-- A format that carries a SCALE_MODE (R56). -/
def Fmt.hasScaleMode (f : Fmt) : Bool := f = .e4m3 || f = .e5m2 || f = .eb4

/-- Bytes a row of `n` elements takes in the element plane. -/
def Fmt.rowBytes (f : Fmt) (n : Nat) : Nat := ceilDiv n f.block * f.blockBytes

/-- The nibble of element `i` of a packed run (R33). -/
def nibble (bs : List Byte) (i : Nat) : Nat := (u8 bs (i / 2) >>> (4 * (i % 2))) % 16

/-- 4-bit codes packed two per byte (R33); an odd last code leaves the high nibble 0. -/
def packNibbles : List Nat → List Byte
  | [] => []
  | [a] => [BitVec.ofNat 8 (a % 16)]
  | a :: b :: t => BitVec.ofNat 8 (a % 16 + 16 * (b % 16)) :: packNibbles t

/-! ### MXFP8 and MXFP4 -/

/-- The element field of an MX format and its `E` of R38. -/
def mxField (f : Fmt) : FFmt := if f = .mxfp4 then fmtE2M1 else fmtE4M3
def mxE (f : Fmt) : Int := if f = .mxfp4 then 2 else 8

def mxCodeAt (f : Fmt) (bs : List Byte) (i : Nat) : Nat :=
  if f = .mxfp4 then nibble bs i else u8 bs i

/-- The 32 values of a block with scale code `e`, exact (R37). -/
def decodeMX (f : Fmt) (bs : List Byte) (e : Nat) : List FVal :=
  (upTo 32).map fun i => (e8m0 e).mul (decodeF (mxField f) (mxCodeAt f bs i))

/-- Whether rounding a finite value to `f` passes its largest finite magnitude. -/
def saturates (f : FFmt) (r : Rnd) : FVal → Bool
  | .fin _ m e => magCode f r m e > f.maxCode
  | _ => false

/-- Encode a block (R38): element bytes, scale code and whether an element saturated. `xs` holds the elements within the
extent. A block with A = 0 takes scale code 0x7F, and its zeros keep their signs (R32). -/
def encodeMX (f : Fmt) (rnd : Nat → Rnd) (xs : List FVal) : List Byte × Nat × Bool :=
  let pack (cs : List Nat) : List Byte :=
    padTo f.blockBytes (if f = .mxfp4 then packNibbles cs else cs.map (BitVec.ofNat 8))
  if xs.any (fun x => !x.isFinite) then (pack [], 255, false)
  else
    let a := FVal.amax xs
    let x := if a.isZero then 0 else max (-127) (min 127 (a.expo - mxE f))
    let ys := xs.map fun v => v.mul (.pow2 (-x))
    (pack ((upTo ys.length).map fun i => encodeSat (mxField f) (rnd i) (ys.getD i .zero)), (x + 127).toNat,
      (upTo ys.length).any fun i => saturates (mxField f) (rnd i) (ys.getD i .zero))

/-! ### EB4 -/

/-- Whether a superblock is invalid (R42). -/
def eb4Invalid (bs : List Byte) : Bool :=
  let w := u16 bs 36
  let n := bitsOf w 1 0
  n = 3 || (n = 2 && bitsOf w 7 2 = bitsOf w 13 8)

/-- The 64 values of a superblock under tensor scale `sT`, exact (R41). -/
def decodeEB4 (sT : FVal) (bs : List Byte) : List FVal :=
  let w := u16 bs 36
  let n := bitsOf w 1 0
  (upTo 64).map fun i =>
    let v :=
      if n ≥ 1 ∧ bitsOf w 7 2 = i then decodeF fmtE4M3 (u8 bs 38)
      else if n ≥ 2 ∧ bitsOf w 13 8 = i then decodeF fmtE4M3 (u8 bs 39)
      else (decodeF fmtE4M3 (u8 bs (32 + i / 16))).mul (decodeF fmtE2M1 (nibble bs i))
    sT.mul v

/-- Sorted insertion of a position by falling magnitude, ties by the lower position. -/
def insertByMag (xs : List FVal) (p : Nat) : List Nat → List Nat
  | [] => [p]
  | q :: t =>
    if (xs.getD q .zero).abs.lt (xs.getD p .zero).abs then p :: q :: t else q :: insertByMag xs p t

def subBad (xs : List FVal) (k : Nat) : Bool := ((xs.drop (16 * k)).take 16).any (fun x => !x.isFinite)

/-- Amax of sub-block `k` with the positions of `out` left out. -/
def subAmax (xs : List FVal) (k : Nat) (out : List Nat) : FVal :=
  FVal.amax (((upTo 16).filter fun i => !out.contains (16 * k + i)).map fun i => xs.getD (16 * k + i) .zero)

def eb4Qualifies (xs : List FVal) (esc : List Nat) (p : Nat) : Bool :=
  let a := subAmax xs (p / 16) (p :: esc)
  !a.isZero && ((FVal.pow2 1).mul a).le (xs.getD p .zero).abs

/-- The escape walk of R43: the escapes in order and ESCAPE_SPILL. -/
def eb4Walk (xs : List FVal) : List Nat → List Nat → List Nat × Bool
  | [], esc => (esc, false)
  | p :: t, esc =>
    if esc.length = 2 then (esc, eb4Qualifies xs esc p)
    else eb4Walk xs t (if eb4Qualifies xs esc p then esc ++ [p] else esc)

/-- The smallest E4M3 code whose value is at least `a / (6 · sT)`, at most 448. -/
def eb4Scale (sT a : FVal) : Nat :=
  ((upTo 0x7F).find? fun c => a.le (((decodeF fmtE4M3 c).mul (.ofNat 6)).mul sT)).getD 0x7E

/-- Encode a superblock (R43): its 40 bytes and whether it is strained (R123). The zeros of a sub-block of amax 0 keep their
signs (R32). -/
def encodeEB4 (sT : FVal) (rnd : Nat → Rnd) (xs0 : List FVal) : List Byte × Bool :=
  let n := xs0.length
  let xs := xs0 ++ List.replicate (64 - n) .zero
  let order := ((upTo n).filter fun p => !subBad xs (p / 16)).foldl (fun l p => insertByMag xs p l) []
  let (esc, spill) := eb4Walk xs order []
  let scales := (upTo 4).map fun k =>
    if subBad xs k then 0x7F
    else
      let a := subAmax xs k esc
      if a.isZero then 0 else eb4Scale sT a
  let codes := (upTo 64).map fun i =>
    let sc := scales.getD (i / 16) 0
    if subBad xs (i / 16) || esc.contains i then 0
    else if sc = 0 then encodeF fmtE2M1 .rne (xs.getD i .zero)
    else encodeSat fmtE2M1 (rnd i) ((xs.getD i .zero).div (sT.mul (decodeF fmtE4M3 sc)))
  let escVal (j : Nat) : Nat :=
    match esc[j]? with
    | some p => encodeSat fmtE4M3 (rnd p) ((xs.getD p .zero).div sT)
    | none => 0
  let w := esc.length + 4 * esc.getD 0 0 + 256 * esc.getD 1 0
  (packNibbles codes ++ scales.map (BitVec.ofNat 8) ++ leBytes 2 w
    ++ [BitVec.ofNat 8 (escVal 0), BitVec.ofNat 8 (escVal 1)],
    spill || (upTo 4).any fun k => !subBad xs k && !(subAmax xs k esc).le (((FVal.ofNat 448).mul (.ofNat 6)).mul sT))

/-! ### TB40 -/

def tb40Invalid (bs : List Byte) : Bool := (upTo 8).any fun j => u8 bs j ≥ 243

/-- The trit of element `i`: 0, +1 or −1 as a digit 0, 1, 2 (R44). -/
def tb40Digit (bs : List Byte) (i : Nat) : Nat := (u8 bs (i / 5) / 3 ^ (i % 5)) % 3

def tritVal : Nat → FVal
  | 0 => .zero
  | 1 => .one
  | _ => .fin true 1 0

def decodeTB40 (bs : List Byte) : List FVal :=
  (upTo 40).map fun i => (decodeF fmtE4M3 (u8 bs 8)).mul (tritVal (tb40Digit bs i))

/-- The block bytes of 40 digits and a scale code. -/
def packTB40 (ds : List Nat) (scale : Nat) : List Byte :=
  ((upTo 8).map fun j =>
    BitVec.ofNat 8 ((upTo 5).foldl (fun acc k => acc + ds.getD (5 * j + k) 0 * 3 ^ k) 0))
    ++ [BitVec.ofNat 8 scale, 0]

/-- Encode a block (R46). `xs` holds the elements within the extent. -/
def encodeTB40 (xs : List FVal) : List Byte :=
  if xs.any (fun x => !x.isFinite) then packTB40 [] 0x7F
  else
    let sum := xs.foldl (fun (a x : FVal) => a.add x.abs) FVal.zero
    let sc := encodeF fmtE4M3 .rne (sum.div (.ofNat xs.length))
    if sc = 0 then packTB40 [] 0
    else
      let digit (x : FVal) : Nat :=
        let v := roundInt .rne (x.div (decodeF fmtE4M3 sc))
        if v > 0 then 1 else if v < 0 then 2 else 0
      packTB40 (xs.map digit) sc

/-! ### One block of any format -/

/-- The exact values of one block of the element plane, with scale code `e` (MX) and tensor scale `sT` (R56, R69). -/
def decodeExact (f : Fmt) (sT : FVal) (bs : List Byte) (e : Nat) : List FVal :=
  match f with
  | .fp32 => [decodeF fmtFP32 (u32 bs 0)]
  | .bf16 => [decodeF fmtBF16 (u16 bs 0)]
  | .fp16 => [decodeF fmtFP16 (u16 bs 0)]
  | .e4m3 => [sT.mul (decodeF fmtE4M3 (u8 bs 0))]
  | .e5m2 => [sT.mul (decodeF fmtE5M2 (u8 bs 0))]
  | .mxfp8 => decodeMX .mxfp8 bs e
  | .mxfp4 => decodeMX .mxfp4 bs e
  | .eb4 => decodeEB4 sT bs
  | .tb40 => decodeTB40 bs
  | .int8 => [.ofInt (signedOf 8 (u8 bs 0))]
  | .int4 => [.ofInt (signedOf 4 (nibble bs 0)), .ofInt (signedOf 4 (nibble bs 1))]
  | .int32 => [.ofInt (signedOf 32 (u32 bs 0))]
  | .uint32 => [.ofNat (u32 bs 0)]

/-- Formats whose decoding can round: the three of R48, and FP8 under a FIXED tensor scale that is no power of two, whose
product with an element FP32 may not hold (DEDUCED, log entry 145). -/
def Fmt.rounds (f : Fmt) : Bool := f.isMX || f.hasScaleMode

/-- An exact value of a format as it decodes to FP32, rounded once to nearest even (R48). An INT32 or UINT32 beyond 2^24 is
taken exactly (DESIGN CHOICE, log entry 146). -/
def Fmt.toFP32 (f : Fmt) (x : FVal) : FVal := if f.rounds then toF32 x else x

/-- The values of one block decoded to FP32 (R48). -/
def decodeBlock (f : Fmt) (sT : FVal) (bs : List Byte) (e : Nat) : List FVal := (decodeExact f sT bs e).map f.toFP32

/-- One encoded block: its bytes, its MX scale code, SATURATED and whether it is strained (R123). -/
structure Encoded where
  bytes : List Byte
  scale : Nat
  saturated : Bool
  strained : Bool
  deriving DecidableEq, Repr

def encInt (w : Nat) (lo hi : Int) (r : Rnd) (x : FVal) : Nat × Bool :=
  let p := toIntSat lo hi r x
  (unsignedOf w p.1, p.2)

/-- Encode the values within the extent of one block (R49, R564). `rnd i` is element `i`'s rounding. -/
def encodeBlock (f : Fmt) (sT : FVal) (rnd : Nat → Rnd) (xs : List FVal) : Encoded :=
  let x := xs.getD 0 .zero
  let fl (ff : FFmt) (n : Nat) (v : FVal) : Encoded := ⟨leBytes n (encodeF ff (rnd 0) v), 0, false, false⟩
  let int (w n : Nat) (lo hi : Int) : Encoded :=
    let p := encInt w lo hi (rnd 0) x
    ⟨leBytes n p.1, 0, p.2, false⟩
  match f with
  | .fp32 => fl fmtFP32 4 x
  | .bf16 => fl fmtBF16 2 x
  | .fp16 => fl fmtFP16 2 x
  | .e4m3 => fl fmtE4M3 1 (x.div sT)
  | .e5m2 => fl fmtE5M2 1 (x.div sT)
  | .mxfp8 => let p := encodeMX .mxfp8 rnd xs; ⟨p.1, p.2.1, false, false⟩
  | .mxfp4 => let p := encodeMX .mxfp4 rnd xs; ⟨p.1, p.2.1, false, p.2.2⟩
  | .eb4 => let p := encodeEB4 sT rnd xs; ⟨p.1, 0, false, p.2⟩
  | .tb40 => ⟨encodeTB40 xs, 0, false, false⟩
  | .int8 => int 8 1 (-127) 127
  | .int4 =>
    let ps := (upTo xs.length).map fun i => encInt 4 (-7) 7 (rnd i) (xs.getD i .zero)
    ⟨padTo 1 (packNibbles (ps.map (fun p => p.1))), 0, ps.any (fun p => p.2), false⟩
  | .int32 => int 32 4 (-(2 ^ 31 - 1)) (2 ^ 31 - 1)
  | .uint32 => int 32 4 0 (2 ^ 32 - 1)

/-- Whether a block's bytes are an invalid EB4 superblock or TB40 block (R42, R45). -/
def blockInvalid (f : Fmt) (bs : List Byte) : Bool :=
  match f with
  | .eb4 => eb4Invalid bs
  | .tb40 => tb40Invalid bs
  | _ => false

/-- `2^ceil(log2(2H / M))` clamped to `2^−126` … `2^127`; 1.0 when `H` is 0 (R57). -/
def historyScale (f : Fmt) (h : FVal) : FVal :=
  if h.isZero then .one
  else
    let m := FVal.ofNat (if f = .e5m2 then 57344 else 448)
    let h2 := (FVal.pow2 1).mul h
    let k0 := h2.expo - m.expo - 1
    let k := (([0, 1, 2, 3] : List Int).find? fun d => h2.le ((FVal.pow2 (k0 + d)).mul m)).getD 3 + k0
    .pow2 (max (-126) (min 127 k))

/-! ### Gradient error terms (R64, R65) -/

/-- The exponent of `u`, the spacing of E4M3 codes at element code `c` times the block scale `2^x` (R64). -/
def errorExp (c : Nat) (x : Int) : Int :=
  let ex := (c % 128) >>> 3
  if ex = 0 then x - 9 else x + Int.ofNat ex - 7 - 3

/-- `u` itself, a power of two. -/
def errorUnit (c : Nat) (x : Int) : FVal := .pow2 (errorExp c x)

/-- The value of an error term (R65): `t · u / 128`. -/
def errorValue (t : Int) (u : FVal) : FVal := ((FVal.ofInt t).mul u).mul (.pow2 (-7))

/-- The error term that keeps `r` in units of `u / 128` (R64). -/
def errorTerm (r u : FVal) : Int :=
  match r with
  | .fin _ _ _ => (toIntSat (-127) 127 .rne ((r.mul (.pow2 7)).div u)).1
  | _ => 0

end Sys2Proof.Machine
end

