-- ==== Sys2Proof/Config.lean ====
section
/-!
DEFINITION. Config.lean: what the manual leaves open. Each constant has no body, so nothing in the model can tell which
value it takes: a statement that mentions one holds for every value (log entries 1 and 2).
-/
namespace Sys2Proof.Config

/-- The fresh value the step supplies where a rule leaves a value undefined; its argument is the counter that State
keeps and advances (log entry 1). -/
opaque freeValue : Nat → Nat

/-- The 16 bytes that an XTS block holding `data`, sealed under key `writer` for page `page`, decrypts to under key
`reader` for page `page'` (R305, R307): unrelated bytes, which no rule gives (log entry 2). -/
opaque unrelated : (reader : Nat) → (page' : Nat) → (writer : Nat) → (page : Nat) → (data : List Byte) → (i : Nat) → Byte

/-- FP32 bits that a drain operand gives at a place past its end, by the vector read and the place (log entry 12). -/
opaque pastEnd : (vector : List Nat) → (place : Nat) → Nat

/-- EXPERTS, less 1 and modulo 64, in the header to a home that the expert map gives no expert (log entry 116). -/
opaque unmappedExperts : (home : Nat) → Nat

/-- The role that the reserved ROLE encoding 11b comes to, modulo 3 (log entry 66). -/
opaque reservedRole : Nat

/-- Falcon-1024: whether `sig` is a signature over `msg` under public key `key` (R488). -/
opaque falconVerify : (key msg sig : List Byte) → Bool

/-- Falcon-1024 signature of `msg` by the private key numbered `key` (R488). -/
opaque falconSign : (key : Nat) → (msg : List Byte) → List Byte

/-- ML-KEM-1024 encapsulation to `key` with randomness `r`: ciphertext and 32-byte shared secret (R488). -/
opaque kemEncap : (key r : List Byte) → List Byte × List Byte

/-- ML-KEM-1024 decapsulation by the private key numbered `key` (R488). -/
opaque kemDecap : (key : Nat) → (ct : List Byte) → List Byte

/-- The encapsulation key of the part's `k`-th ML-KEM key pair (R488, R501). -/
opaque kemKey : (k : Nat) → List Byte

/-- Byte `i` of the AES-256 counter keystream that GCM lays over a payload, by key and 96-bit IV (R328, R488). -/
opaque gcmStream : (key iv : List Byte) → (i : Nat) → Byte

/-- The AES-256-GCM tag of additional data `aad` and ciphertext `ct` (R328, R488). -/
opaque gcmTag : (key iv aad ct : List Byte) → List Byte

/-- The FINISHED message of a link exchange, by the shared secret, the transcript before it and the end that sends it: R333
names the message and gives it no content (log entry 158). -/
opaque finished : (secret transcript : List Byte) → (endL : Bool) → List Byte

/-- SHAKE256 of a message, taken to `n` bytes (R488). -/
opaque shake256 : (n : Nat) → (msg : List Byte) → List Byte

/-- Output of the part's random bit generator: `n` bytes of draw number `k` (R488, R503). -/
opaque drbg : (k n : Nat) → List Byte

/-- The LEVEL with which the firmware logs a trace point (R485 gives none; log entry 7). -/
opaque traceLevel : (code : Nat) → Nat

/-- The device certificate chain and the identity public key that the manufacturer wrote (R496). -/
opaque certChain : List Byte
opaque identityKey : List Byte

/-- The boot ROM image, and the fuse map with the HUK left out, by the fuses that the model holds: the owner slots, FW_FLOOR,
SETUP_SIGNED_REQUIRED, the kill fuse and the serial number (R496). -/
opaque bootRom : List Byte
opaque fuseMap : (owners : List (List Byte)) → (floor : Nat) → (signedRequired killed : Bool) → (serial : Nat) → List Byte

/-- Whether Vexmer lists a firmware security version for the evaluation (R505). -/
opaque listedVersion : (version : Nat) → Bool

/-- The firmware public key whose hash the boot ROM holds (R508). -/
opaque firmwareKey : List Byte

/-- Offsets, within its stack, of the bytes of an HBM4 row named by REPAIR_CMD [9:3] and REPAIR_ROW: the manual gives no
mapping of rows to addresses (R315, R316; log entry 44). -/
opaque rowBytes : (cmd row : Nat) → List Nat

/-- Byte `i` of bytes 2–31 of a snapshot entry: Table 19-4 lists the fields of each kind and gives them no places (R484, log
entry 45). -/
opaque snapshotByte : (kind : Nat) → (fields : List Nat) → (i : Nat) → Byte

end Sys2Proof.Config
end

