-- ==== Sys2Proof/Machine/Memory.lean ====
section
/-!
DEFINITION. Machine/Memory.lean: memory contents as one canonical list of (address, byte) pairs, and the decoding of
device addresses (R72, R73, R291–R297).
-/
namespace Sys2Proof.Machine

/-! ### Contents -/

/-- What an unlisted byte reads as: zero with valid check bits (R525, stages SELF_TEST and MEMORY; log entry 6). -/
def unlisted : Byte := 0

/-- The byte at an address. -/
def memGet : List Host.Cell → Nat → Byte
  | [], _ => unlisted
  | (k, b) :: t, a => if a = k then b else if a < k then unlisted else memGet t a

/-- One byte stored. Storing what an unlisted byte reads as removes the entry, so equal memories are equal lists. -/
def memSet : List Host.Cell → Nat → Byte → List Host.Cell
  | [], a, v => if v = unlisted then [] else [(a, v)]
  | (k, b) :: t, a, v =>
    if a = k then (if v = unlisted then t else (a, v) :: t)
    else if a < k then (if v = unlisted then (k, b) :: t else (a, v) :: (k, b) :: t)
    else (k, b) :: memSet t a v

/-- A run of bytes. -/
def memRead (m : List Host.Cell) (a : Nat) : Nat → List Byte
  | 0 => []
  | n + 1 => memGet m a :: memRead m (a + 1) n

/-- A run of bytes stored from `a` on. -/
def memWrite (m : List Host.Cell) (a : Nat) : List Byte → List Host.Cell
  | [] => m
  | b :: bs => memWrite (memSet m a b) (a + 1) bs

/-- `n` bytes from `a` on made zero. -/
def memClear (m : List Host.Cell) (a n : Nat) : List Host.Cell := m.filter fun c => c.1 < a || a + n ≤ c.1

/-- Addresses above `lo` and strictly rising, no listed byte equal to an unlisted one. -/
def sortedFrom : Nat → List Host.Cell → Bool
  | _, [] => true
  | lo, (k, b) :: t => decide (lo ≤ k) && (b != unlisted) && sortedFrom (k + 1) t

/-- The canonical form of a memory. -/
def Memory.wf (m : List Host.Cell) : Bool := sortedFrom 0 m

/-! ### Places -/

/-- Where a device address leads. Offsets are those of the stack, channel, cell or commons. -/
inductive Place where
  | hbm (stack off : Nat)
  | gddr (chan off : Nat)
  /-- the 4 MiB window of a global logical cell (R73) -/
  | sram (logical off : Nat)
  | commons (die off : Nat)
  | host (addr : Nat)
  | unassigned
  deriving DecidableEq, Repr

def gib : Nat := 2 ^ 30

/-- The HBM4 layout in force: GLOBAL_SIZE and the reserved units (R294, R296). -/
structure Layout where
  globalSize : Nat
  reservedUnits : Nat
  deriving DecidableEq, Repr

/-- Bytes of a stack that commands can address (R294). -/
def Layout.perStack (l : Layout) : Nat := 48 * gib - l.reservedUnits * 64 * 2 ^ 20

def Layout.global (l : Layout) : Nat := 16 * gib * l.globalSize
def Layout.share (l : Layout) : Nat := l.global / 16
def Layout.local (l : Layout) : Nat := 2 * (l.perStack - l.share)

/-- XOR of the lowest `k` 4-bit fields. -/
def foldNibbles : Nat → Nat → Nat
  | 0, _ => 0
  | k + 1, m => (m % 16) ^^^ foldNibbles k (m / 16)

/-- HBM4 decoding (R295). -/
def hbmDecode (l : Layout) (a : Nat) : Option (Nat × Nat) :=
  if a < l.global then
    let n := a / 4096
    some (foldNibbles 16 n, n / 16 * 4096 + a % 4096)
  else if a < l.global + 8 * l.local then
    let r := a - l.global
    let n := r % l.local / 4096
    some (2 * (r / l.local) + n % 2, l.share + (n / 2 * 4096 + a % 4096))
  else none

def gddrBase : Nat := 0x10000000000
def sramBase : Nat := 0x20000000000
def hostBase : Nat := 0x8000000000000

/-- GDDR7 decoding (R297). -/
def gddrDecode (r : Nat) : Nat × Nat :=
  let d := r / 2 ^ 35
  let r' := r % 2 ^ 35
  let n := r' / 4096
  (3 * d + n % 3, n / 3 * 4096 + r' % 4096)

/-- The window and place of a device address (Table 12-1, R73). -/
def placeOf (l : Layout) (a : Nat) : Place :=
  if a < gddrBase then
    match hbmDecode l a with
    | some (s, o) => .hbm s o
    | none => .unassigned
  else if a < gddrBase + 8 * 2 ^ 35 then
    let (c, o) := gddrDecode (a - gddrBase)
    .gddr c o
  else if sramBase ≤ a ∧ a < sramBase + 8 * 2 ^ 29 then
    let r := a - sramBase
    let d := r / 2 ^ 29
    let o := r % 2 ^ 29
    if o < 96 * 2 ^ 22 then .sram (d * 96 + o / 2 ^ 22) (o % 2 ^ 22)
    else if o < 0x18000000 + 48 * 2 ^ 20 then .commons d (o - 0x18000000)
    else .unassigned
  else if hostBase ≤ a ∧ a < 2 * hostBase then .host (a - hostBase)
  else .unassigned

/-- The die that owns a place; host memory and unassigned addresses stand on none. -/
def Place.die? : Place → Option Nat
  | .hbm s _ => some (s / 2)
  | .gddr c _ => some (c / 3)
  | .sram l _ => some (l / 96)
  | .commons d _ => some d
  | .host _ => none
  | .unassigned => none

/-- Whether `n` bytes from `a` on are addressable memory of one window (R293); `up`: dies in service. The
cell and commons windows of a die follow one another (R73), unassigned local addresses among them (R72), and stay addressable
while their slot or die is out (R560). -/
def wholly (l : Layout) (up : Nat → Bool) (a n : Nat) : Bool :=
  let meets (lo size : Nat) : Bool := decide (a < lo + size ∧ lo < a + n)
  if a < gddrBase then
    decide (a + n ≤ l.global + 8 * l.local) && (List.range 8).all fun d => up d || !meets (l.global + d * l.local) l.local
  else if a < sramBase then
    decide (a + n ≤ gddrBase + 8 * 2 ^ 35) && (List.range 8).all fun d => up d || !meets (gddrBase + d * 2 ^ 35) (2 ^ 35)
  else if a < hostBase then
    let d := (a - sramBase) / 2 ^ 29
    let o := (a - sramBase) % 2 ^ 29
    decide (d < 8 ∧ o + n ≤ 0x18000000 + 48 * 2 ^ 20)
  else decide (a + n ≤ 2 * hostBase)

/-! ### Keys of the device's own memories -/

def hbmKey (stack off : Nat) : Nat := stack * 2 ^ 36 + off
def gddrKey (chan off : Nat) : Nat := 2 ^ 40 + chan * 2 ^ 36 + off
/-- The memories of physical cell `die × 104 + number` (R273: contents stay with the cell). -/
def cellKey (cell off : Nat) : Nat := 2 ^ 43 + cell * 2 ^ 22 + off
def commonsKey (die off : Nat) : Nat := 2 ^ 44 + die * 2 ^ 26 + off

/-- The bank of a cell-local address (Table 3-5): a scratchpad bank 0–23, an accumulator slot 24–31, or none. -/
def bankOfLocal (off : Nat) : Option Nat :=
  if off < 0x300000 then some (off / 2 ^ 17)
  else if off < 0x380000 then some (24 + (off - 0x300000) / 2 ^ 16)
  else none

/-- The device address of the page of HBM4 or GDDR7 kept at key `4096 × k` (R295, R297, inverted). -/
def pageAddr (l : Layout) (k : Nat) : Nat :=
  let a := 4096 * k
  if a < 2 ^ 40 then
    let s := a / 2 ^ 36
    let o := a % 2 ^ 36
    if o < l.share then (o / 4096 * 16 + (s ^^^ foldNibbles 16 (o / 4096))) * 4096
    else l.global + s / 2 * l.local + ((o - l.share) / 4096 * 2 + s % 2) * 4096
  else
    let c := (a - 2 ^ 40) / 2 ^ 36
    let o := (a - 2 ^ 40) % 2 ^ 36
    gddrBase + c / 3 * 2 ^ 35 + (o / 4096 * 3 + c % 3) * 4096

end Sys2Proof.Machine
end

