-- ==== Sys2Proof/Machine/Regs.lean ====
section
/-!
DEFINITION. Machine/Regs.lean: the register map: every register of the manual's register tables with its block, offset,
width, fields, access types and defaults (R15, R84, R241, R242, R290, R317, R342, R374, R399, R425, R455, R470, R485,
R507, R524, R534, R535–R537, R544), and the decoding of a BAR0 offset.
-/
namespace Sys2Proof.Machine

/-- Access types of Table 0-2. -/
inductive Access where
  | ro | rw | rwl | w1c | wo | ros
  deriving DecidableEq, Repr

/-- One field of a register: bits `hi` down to `lo`, access and factory default. -/
structure RegField where
  hi : Nat
  lo : Nat
  acc : Access
  dflt : Nat
  deriving DecidableEq, Repr

/-- The block a register stands in (Tables 23-1 and 23-2). -/
inductive Block where
  | die | die0 | cell | port | partition | context
  deriving DecidableEq, Repr

/-- One row of the map: `count` registers, `stride` bytes apart, from `off` in the block, each of `bytes` bytes. -/
structure RegInfo where
  block : Block
  off : Nat
  stride : Nat
  count : Nat
  bytes : Nat
  fields : List RegField
  deriving DecidableEq, Repr

/-- The registers, by the manual's names. -/
inductive RegName where
  | cellId | cellState | bankOwner | accSlotOwner | spareColMap | sramCeCount | syncStatus | syncBarriers
  | syncWatchQuota | syncWatchWaits | barrierExcess | staleDrops | ctxInfo | ctxControl | doorbellBase
  | nudge | ctxArithFlags | diceSeed | sqBase | sqConfig | cqBase | cqConfig | cqFullStalls | lcellMap
  | pleachStatus | incarnationDrops | dieEnable | hbmLayout | memScrub | hbmCeCount | gddrCeCount
  | memUeCount | memUeLast | retireSpares | commonsCeCount | repairCmd | repairRow | repairStatus | partHbm
  | partGddr | partHbmBytes | partGddrBytes | partThrottled | portControl | portStatus | portPeer | portDelay
  | fecCorrected | fecUncorrected | tagFails | txFrameCtr | rxFrameCtr | rekeys | timeControl | timeStatus
  | nodeReg | timeNow | timeSet | timeLockLosses | slotTableStatus | switchPending | failoverControl
  | repairRequests | resends | flowLosses | duplicateDrops | remoteDenied | switchDrops | slotMismatch
  | tableMismatch | beLost | dispatchPlaced | dispatchDrops | dispatchRedirects | cancelledReturns
  | updControl | updStatus | updStaged | updBlocksApplied | updSlowBlocks | updStagingOverflows
  | updNormClips | updDiscards | stepStatus | stepFlags | stepsCommitted | stepsSkipped | lateDecisions
  | consensusStalls | journalUsed | journalSeq | exportHead | exportRelease | foreignHead | foreignRelease
  | exportDrops | updParked | tallyUpdates | faultControl | faultRingBase | faultSeq | faultState
  | transientFaults | lastingFaults | tasksReplayed | nonReplayableFaults | qcounterMode | qcounterReset
  | qcBytesRead | qcBytesWritten | qcMac | qcStall | pmcSelect | pmcValue | freezeControl | freezeStatus
  | freezeTime | snapshotControl | snapshotTime | snapshotAddr | snapshotLength | logRingBase | logControl
  | logDrops | secCmd | secReqAddr | secRespAddr | secStatus | secKeySlots | secPolicy | secZeroise
  | ideRejects | bootStatus | fwVersion | fwMailboxAddr | fwMailboxControl | fwMailboxLength | setupLock
  | dieTemp | powerControl | opStatus | inputPower | throttleEvents | powerCapEvents | startStatus
  | startElapsed | resetControl | resetsSinceCold | dieInfo | mapInfo | moduleSerial | lockedWrites
  | setupApplied
  deriving DecidableEq, Repr

/-- The row of a register. A default the tables give as fused or set at start-up is 0, or the value a log entry names. -/
def RegName.info : RegName → RegInfo
  | .cellId => ⟨.cell, 0x0, 0, 1, 4, [⟨3, 0, .ro, 0⟩, ⟨6, 4, .ro, 0⟩, ⟨9, 7, .ro, 0⟩, ⟨23, 16, .ro, 0xff⟩]⟩
  | .cellState => ⟨.cell, 0x8, 0, 1, 4, [⟨1, 0, .ro, 0⟩, ⟨2, 2, .ro, 0⟩]⟩
  | .bankOwner => ⟨.cell, 0x40, 4, 24, 4, [⟨5, 0, .rw, 0⟩, ⟨6, 6, .rw, 0⟩, ⟨16, 16, .ro, 0⟩, ⟨17, 17, .ro, 0⟩]⟩
  | .accSlotOwner => ⟨.cell, 0xA0, 4, 8, 4, [⟨5, 0, .rw, 0⟩, ⟨6, 6, .rw, 0⟩, ⟨16, 16, .ro, 0⟩, ⟨17, 17, .ro, 0⟩]⟩
  | .spareColMap => ⟨.cell, 0xC0, 4, 12, 4, [⟨6, 0, .ro, 0x7f⟩, ⟨14, 8, .ro, 0x7f⟩, ⟨22, 16, .ro, 0x7f⟩, ⟨30, 24, .ro, 0x7f⟩]⟩
  | .sramCeCount => ⟨.cell, 0x100, 0, 1, 8, [⟨63, 0, .ro, 0⟩]⟩
  | .syncStatus => ⟨.die, 0x30000, 0, 1, 4, [⟨14, 0, .ro, 0⟩, ⟨28, 16, .ro, 0⟩]⟩
  | .syncBarriers => ⟨.die, 0x30004, 0, 1, 4, [⟨8, 0, .ro, 0⟩]⟩
  | .syncWatchQuota => ⟨.die, 0x30100, 4, 64, 4, [⟨12, 0, .rw, 0x40⟩]⟩
  | .syncWatchWaits => ⟨.die, 0x30200, 0, 1, 8, [⟨63, 0, .ro, 0⟩]⟩
  | .barrierExcess => ⟨.die, 0x30208, 0, 1, 8, [⟨63, 0, .ro, 0⟩]⟩
  | .staleDrops => ⟨.context, 0x80, 0, 1, 8, [⟨63, 0, .ro, 0⟩]⟩
  | .ctxInfo => ⟨.context, 0x0, 0, 1, 4, [⟨3, 0, .ro, 1⟩, ⟨9, 4, .ro, 0⟩]⟩
  | .ctxControl => ⟨.context, 0x8, 0, 1, 4, [⟨0, 0, .rw, 0⟩, ⟨6, 1, .rw, 4⟩]⟩
  | .doorbellBase => ⟨.context, 0x10, 0, 1, 8, [⟨63, 0, .rw, 0⟩]⟩
  | .nudge => ⟨.context, 0x18, 0, 1, 4, [⟨31, 0, .wo, 0⟩]⟩
  | .ctxArithFlags => ⟨.context, 0x20, 0, 1, 4, [⟨0, 0, .w1c, 0⟩]⟩
  | .diceSeed => ⟨.context, 0x40, 0, 1, 8, [⟨63, 0, .rw, 0⟩]⟩
  | .sqBase => ⟨.context, 0x100, 16, 64, 8, [⟨63, 0, .rw, 0⟩]⟩
  | .sqConfig => ⟨.context, 0x108, 16, 64, 4, [⟨0, 0, .rw, 0⟩, ⟨5, 1, .rw, 4⟩, ⟨6, 6, .rw, 0⟩, ⟨8, 7, .rw, 0⟩, ⟨13, 9, .rw, 0⟩, ⟨21, 14, .rw, 0⟩, ⟨29, 29, .ro, 0⟩, ⟨30, 30, .w1c, 0⟩, ⟨31, 31, .ro, 1⟩]⟩
  | .cqBase => ⟨.context, 0x500, 16, 32, 8, [⟨63, 0, .rw, 0⟩]⟩
  | .cqConfig => ⟨.context, 0x508, 16, 32, 4, [⟨0, 0, .rw, 0⟩, ⟨5, 1, .rw, 4⟩, ⟨6, 6, .rw, 0⟩, ⟨14, 7, .rw, 0⟩, ⟨31, 31, .ro, 0⟩]⟩
  | .cqFullStalls => ⟨.context, 0x700, 0, 1, 8, [⟨63, 0, .ro, 0⟩]⟩
  | .lcellMap => ⟨.die, 0x40000, 4, 96, 4, [⟨3, 0, .ro, 0⟩, ⟨6, 4, .ro, 0⟩, ⟨15, 8, .ro, 0⟩, ⟨16, 16, .ro, 0⟩]⟩
  | .pleachStatus => ⟨.die, 0x40200, 0, 1, 4, [⟨3, 0, .ro, 0⟩, ⟨10, 4, .ro, 0⟩, ⟨11, 11, .ro, 0⟩, ⟨12, 12, .ro, 0⟩]⟩
  | .incarnationDrops => ⟨.die, 0x40208, 0, 1, 8, [⟨63, 0, .ro, 0⟩]⟩
  | .dieEnable => ⟨.die0, 0x40300, 0, 1, 4, [⟨0, 0, .ro, 1⟩, ⟨7, 1, .rwl, 0x7f⟩]⟩
  | .hbmLayout => ⟨.die0, 0x50000, 0, 1, 4, [⟨5, 0, .rwl, 0x2f⟩, ⟨11, 8, .rwl, 4⟩]⟩
  | .memScrub => ⟨.die, 0x50008, 0, 1, 4, [⟨7, 0, .rw, 0x18⟩]⟩
  | .hbmCeCount => ⟨.die, 0x50100, 8, 2, 8, [⟨63, 0, .ro, 0⟩]⟩
  | .gddrCeCount => ⟨.die, 0x50110, 8, 3, 8, [⟨63, 0, .ro, 0⟩]⟩
  | .memUeCount => ⟨.die, 0x50128, 0, 1, 8, [⟨63, 0, .ro, 0⟩]⟩
  | .memUeLast => ⟨.die, 0x50130, 0, 1, 8, [⟨51, 0, .ro, 0⟩]⟩
  | .retireSpares => ⟨.die, 0x50138, 0, 1, 8, [⟨10, 0, .ro, 0x400⟩, ⟨21, 11, .ro, 0x400⟩, ⟨32, 22, .ro, 0x400⟩, ⟨43, 33, .ro, 0x400⟩, ⟨54, 44, .ro, 0x400⟩]⟩
  | .commonsCeCount => ⟨.die, 0x50140, 0, 1, 8, [⟨63, 0, .ro, 0⟩]⟩
  | .repairCmd => ⟨.die, 0x50200, 0, 1, 4, [⟨2, 0, .rwl, 0⟩, ⟨3, 3, .rwl, 0⟩, ⟨8, 4, .rwl, 0⟩, ⟨9, 9, .rwl, 0⟩]⟩
  | .repairRow => ⟨.die, 0x50204, 0, 1, 4, [⟨17, 0, .rwl, 0⟩, ⟨25, 18, .rwl, 0⟩]⟩
  | .repairStatus => ⟨.die, 0x50208, 0, 1, 4, [⟨0, 0, .ro, 0⟩, ⟨2, 1, .ro, 0⟩, ⟨10, 3, .ro, 0⟩]⟩
  | .partHbm => ⟨.partition, 0x0, 0, 1, 4, [⟨11, 0, .rw, 0⟩, ⟨25, 16, .rw, 0x40⟩, ⟨31, 31, .rw, 0⟩]⟩
  | .partGddr => ⟨.partition, 0x4, 0, 1, 4, [⟨11, 0, .rw, 0⟩, ⟨25, 16, .rw, 0x40⟩, ⟨31, 31, .rw, 0⟩]⟩
  | .partHbmBytes => ⟨.partition, 0x10, 0, 1, 8, [⟨63, 0, .ro, 0⟩]⟩
  | .partGddrBytes => ⟨.partition, 0x18, 0, 1, 8, [⟨63, 0, .ro, 0⟩]⟩
  | .partThrottled => ⟨.partition, 0x20, 0, 1, 8, [⟨63, 0, .ro, 0⟩]⟩
  | .portControl => ⟨.port, 0x0, 0, 1, 4, [⟨0, 0, .rw, 0⟩, ⟨1, 1, .wo, 0⟩, ⟨15, 8, .rw, 0xa⟩]⟩
  | .portStatus => ⟨.port, 0x4, 0, 1, 4, [⟨2, 0, .ro, 0⟩, ⟨11, 8, .ro, 1⟩, ⟨12, 12, .ro, 0⟩]⟩
  | .portPeer => ⟨.port, 0x8, 0, 1, 4, [⟨15, 0, .ro, 0xffff⟩, ⟨21, 16, .ro, 0x3f⟩]⟩
  | .portDelay => ⟨.port, 0xC, 0, 1, 4, [⟨15, 0, .ro, 0⟩]⟩
  | .fecCorrected => ⟨.port, 0x10, 0, 1, 8, [⟨63, 0, .ro, 0⟩]⟩
  | .fecUncorrected => ⟨.port, 0x18, 0, 1, 8, [⟨63, 0, .ro, 0⟩]⟩
  | .tagFails => ⟨.port, 0x20, 0, 1, 8, [⟨63, 0, .ro, 0⟩]⟩
  | .txFrameCtr => ⟨.port, 0x28, 0, 1, 8, [⟨63, 0, .ro, 0⟩]⟩
  | .rxFrameCtr => ⟨.port, 0x30, 0, 1, 8, [⟨63, 0, .ro, 0⟩]⟩
  | .rekeys => ⟨.port, 0x38, 0, 1, 8, [⟨63, 0, .ro, 0⟩]⟩
  | .timeControl => ⟨.die0, 0x60000, 0, 1, 4, [⟨1, 0, .rw, 0⟩, ⟨7, 2, .rw, 0x3f⟩, ⟨13, 8, .rw, 0x3f⟩]⟩
  | .timeStatus => ⟨.die0, 0x60004, 0, 1, 4, [⟨0, 0, .ro, 0⟩, ⟨1, 1, .ro, 0⟩, ⟨2, 2, .ro, 0⟩, ⟨15, 8, .ro, 0xff⟩, ⟨23, 16, .ro, 0⟩]⟩
  | .nodeReg => ⟨.die0, 0x60008, 0, 1, 4, [⟨15, 0, .rwl, 0xffff⟩]⟩
  | .timeNow => ⟨.die0, 0x60010, 0, 1, 8, [⟨63, 0, .ro, 0⟩]⟩
  | .timeSet => ⟨.die0, 0x60018, 0, 1, 8, [⟨63, 0, .wo, 0⟩]⟩
  | .timeLockLosses => ⟨.die0, 0x60020, 0, 1, 8, [⟨63, 0, .ro, 0⟩]⟩
  | .slotTableStatus => ⟨.die0, 0x60100, 0, 1, 8, [⟨31, 0, .ro, 0⟩, ⟨63, 32, .ro, 0⟩]⟩
  | .switchPending => ⟨.die0, 0x60108, 0, 1, 8, [⟨63, 0, .ro, 0⟩]⟩
  | .failoverControl => ⟨.die0, 0x60110, 0, 1, 4, [⟨0, 0, .rw, 1⟩, ⟨8, 1, .rw, 0x40⟩]⟩
  | .repairRequests => ⟨.die0, 0x60120, 0, 1, 8, [⟨63, 0, .ro, 0⟩]⟩
  | .resends => ⟨.die0, 0x60128, 0, 1, 8, [⟨63, 0, .ro, 0⟩]⟩
  | .flowLosses => ⟨.die0, 0x60130, 0, 1, 8, [⟨63, 0, .ro, 0⟩]⟩
  | .duplicateDrops => ⟨.die0, 0x60138, 0, 1, 8, [⟨63, 0, .ro, 0⟩]⟩
  | .remoteDenied => ⟨.die0, 0x60140, 0, 1, 8, [⟨63, 0, .ro, 0⟩]⟩
  | .switchDrops => ⟨.die0, 0x60148, 0, 1, 8, [⟨63, 0, .ro, 0⟩]⟩
  | .slotMismatch => ⟨.port, 0x40, 0, 1, 8, [⟨63, 0, .ro, 0⟩]⟩
  | .tableMismatch => ⟨.port, 0x48, 0, 1, 8, [⟨63, 0, .ro, 0⟩]⟩
  | .beLost => ⟨.port, 0x50, 0, 1, 8, [⟨63, 0, .ro, 0⟩]⟩
  | .dispatchPlaced => ⟨.die, 0x70000, 0, 1, 8, [⟨63, 0, .ro, 0⟩]⟩
  | .dispatchDrops => ⟨.die, 0x70008, 0, 1, 8, [⟨63, 0, .ro, 0⟩]⟩
  | .dispatchRedirects => ⟨.die, 0x70010, 0, 1, 8, [⟨63, 0, .ro, 0⟩]⟩
  | .cancelledReturns => ⟨.context, 0x88, 0, 1, 8, [⟨63, 0, .ro, 0⟩]⟩
  | .updControl => ⟨.die, 0x80000, 0, 1, 4, [⟨3, 0, .rwl, 2⟩]⟩
  | .updStatus => ⟨.die, 0x80004, 0, 1, 4, [⟨12, 0, .ro, 0⟩]⟩
  | .updStaged => ⟨.die, 0x80008, 0, 1, 8, [⟨15, 0, .ro, 0⟩, ⟨63, 16, .ro, 0⟩]⟩
  | .updBlocksApplied => ⟨.die, 0x80010, 0, 1, 8, [⟨63, 0, .ro, 0⟩]⟩
  | .updSlowBlocks => ⟨.die, 0x80018, 0, 1, 8, [⟨63, 0, .ro, 0⟩]⟩
  | .updStagingOverflows => ⟨.die, 0x80020, 0, 1, 8, [⟨63, 0, .ro, 0⟩]⟩
  | .updNormClips => ⟨.die, 0x80028, 0, 1, 8, [⟨63, 0, .ro, 0⟩]⟩
  | .updDiscards => ⟨.die, 0x80030, 0, 1, 8, [⟨63, 0, .ro, 0⟩]⟩
  | .stepStatus => ⟨.die0, 0x60200, 0, 1, 8, [⟨31, 0, .ro, 0⟩, ⟨63, 32, .ro, 0⟩]⟩
  | .stepFlags => ⟨.die0, 0x60208, 0, 1, 4, [⟨0, 0, .ro, 0⟩, ⟨1, 1, .ro, 0⟩, ⟨2, 2, .w1c, 0⟩, ⟨3, 3, .ro, 0⟩, ⟨4, 4, .ro, 0⟩, ⟨31, 16, .ro, 0⟩]⟩
  | .stepsCommitted => ⟨.die0, 0x60210, 0, 1, 8, [⟨63, 0, .ro, 0⟩]⟩
  | .stepsSkipped => ⟨.die0, 0x60218, 0, 1, 8, [⟨63, 0, .ro, 0⟩]⟩
  | .lateDecisions => ⟨.die0, 0x60220, 0, 1, 8, [⟨63, 0, .ro, 0⟩]⟩
  | .consensusStalls => ⟨.die0, 0x60228, 0, 1, 8, [⟨63, 0, .ro, 0⟩]⟩
  | .journalUsed => ⟨.die, 0x90000, 0, 1, 8, [⟨63, 0, .ro, 0⟩]⟩
  | .journalSeq => ⟨.die, 0x90008, 0, 1, 8, [⟨63, 0, .ro, 0⟩]⟩
  | .exportHead => ⟨.die, 0x90010, 0, 1, 8, [⟨63, 0, .ro, 0⟩]⟩
  | .exportRelease => ⟨.die, 0x90018, 0, 1, 8, [⟨63, 0, .rw, 0⟩]⟩
  | .foreignHead => ⟨.die, 0x90020, 0, 1, 8, [⟨63, 0, .ro, 0⟩]⟩
  | .foreignRelease => ⟨.die, 0x90028, 0, 1, 8, [⟨63, 0, .rw, 0⟩]⟩
  | .exportDrops => ⟨.die, 0x90030, 0, 1, 8, [⟨63, 0, .ro, 0⟩]⟩
  | .updParked => ⟨.die, 0x90038, 0, 1, 8, [⟨63, 0, .ro, 0⟩]⟩
  | .tallyUpdates => ⟨.die, 0x90040, 0, 1, 8, [⟨63, 0, .ro, 0⟩]⟩
  | .faultControl => ⟨.die0, 0xA0000, 0, 1, 4, [⟨0, 0, .rw, 1⟩, ⟨5, 1, .rw, 0⟩, ⟨9, 6, .rw, 8⟩]⟩
  | .faultRingBase => ⟨.die0, 0xA0008, 0, 1, 8, [⟨63, 0, .rw, 0⟩]⟩
  | .faultSeq => ⟨.die0, 0xA0010, 0, 1, 8, [⟨63, 0, .ro, 0⟩]⟩
  | .faultState => ⟨.die0, 0xA0018, 0, 1, 4, [⟨0, 0, .ro, 0⟩, ⟨1, 1, .ro, 0⟩]⟩
  | .transientFaults => ⟨.die, 0xA0100, 0, 1, 8, [⟨63, 0, .ro, 0⟩]⟩
  | .lastingFaults => ⟨.die, 0xA0108, 0, 1, 8, [⟨63, 0, .ro, 0⟩]⟩
  | .tasksReplayed => ⟨.die, 0xA0110, 0, 1, 8, [⟨63, 0, .ro, 0⟩]⟩
  | .nonReplayableFaults => ⟨.die, 0xA0118, 0, 1, 8, [⟨63, 0, .ro, 0⟩]⟩
  | .qcounterMode => ⟨.context, 0xC0, 0, 1, 8, [⟨63, 0, .rw, 0⟩]⟩
  | .qcounterReset => ⟨.context, 0xC8, 0, 1, 8, [⟨63, 0, .wo, 0⟩]⟩
  | .qcBytesRead => ⟨.context, 0x800, 32, 64, 8, [⟨63, 0, .ro, 0⟩]⟩
  | .qcBytesWritten => ⟨.context, 0x808, 32, 64, 8, [⟨63, 0, .ro, 0⟩]⟩
  | .qcMac => ⟨.context, 0x810, 32, 64, 8, [⟨63, 0, .ro, 0⟩]⟩
  | .qcStall => ⟨.context, 0x818, 32, 64, 8, [⟨63, 0, .ro, 0⟩]⟩
  | .pmcSelect => ⟨.die, 0xB0000, 8, 64, 8, [⟨3, 0, .rw, 0⟩, ⟨15, 4, .rw, 0⟩, ⟨23, 16, .rw, 0⟩, ⟨29, 24, .rw, 0⟩, ⟨30, 30, .rw, 0⟩, ⟨31, 31, .rw, 0⟩]⟩
  | .pmcValue => ⟨.die, 0xB0200, 8, 64, 8, [⟨63, 0, .ro, 0⟩]⟩
  | .freezeControl => ⟨.die0, 0xB0800, 0, 1, 4, [⟨0, 0, .wo, 0⟩, ⟨1, 1, .rw, 0⟩]⟩
  | .freezeStatus => ⟨.die0, 0xB0804, 0, 1, 4, [⟨0, 0, .ro, 0⟩, ⟨1, 1, .ro, 0⟩, ⟨2, 2, .ro, 0⟩, ⟨3, 3, .ro, 0⟩]⟩
  | .freezeTime => ⟨.die0, 0xB0808, 0, 1, 8, [⟨63, 0, .ro, 0⟩]⟩
  | .snapshotControl => ⟨.die0, 0xB0900, 0, 1, 4, [⟨0, 0, .wo, 0⟩, ⟨1, 1, .rw, 0⟩, ⟨2, 2, .w1c, 0⟩, ⟨3, 3, .ro, 0⟩]⟩
  | .snapshotTime => ⟨.die0, 0xB0908, 0, 1, 8, [⟨63, 0, .rw, 0⟩]⟩
  | .snapshotAddr => ⟨.die0, 0xB0910, 0, 1, 8, [⟨63, 0, .rw, 0⟩]⟩
  | .snapshotLength => ⟨.die0, 0xB0918, 0, 1, 8, [⟨63, 0, .rw, 0⟩]⟩
  | .logRingBase => ⟨.die0, 0xB0A00, 0, 1, 8, [⟨63, 0, .rw, 0⟩]⟩
  | .logControl => ⟨.die0, 0xB0A08, 0, 1, 4, [⟨15, 0, .rw, 0xff⟩, ⟨17, 16, .rw, 1⟩, ⟨21, 18, .rw, 8⟩]⟩
  | .logDrops => ⟨.die0, 0xB0A10, 0, 1, 8, [⟨63, 0, .ro, 0⟩]⟩
  | .secCmd => ⟨.die0, 0xC0000, 0, 1, 4, [⟨7, 0, .rw, 0⟩, ⟨8, 8, .wo, 0⟩]⟩
  | .secReqAddr => ⟨.die0, 0xC0008, 0, 1, 8, [⟨63, 0, .rw, 0⟩]⟩
  | .secRespAddr => ⟨.die0, 0xC0010, 0, 1, 8, [⟨63, 0, .rw, 0⟩]⟩
  | .secStatus => ⟨.die0, 0xC0018, 0, 1, 4, [⟨0, 0, .ro, 0⟩, ⟨3, 1, .ro, 0⟩, ⟨4, 4, .ro, 0⟩, ⟨5, 5, .ro, 0⟩, ⟨6, 6, .ro, 0⟩, ⟨7, 7, .ro, 0⟩, ⟨8, 8, .ro, 0⟩]⟩
  | .secKeySlots => ⟨.die0, 0xC0020, 0, 1, 8, [⟨63, 0, .ro, 0⟩]⟩
  | .secPolicy => ⟨.die0, 0xC0028, 0, 1, 4, [⟨0, 0, .rwl, 0⟩, ⟨1, 1, .rwl, 0⟩, ⟨2, 2, .rwl, 0⟩]⟩
  | .secZeroise => ⟨.die0, 0xC0030, 0, 1, 4, [⟨0, 0, .wo, 0⟩]⟩
  | .ideRejects => ⟨.die0, 0xC0038, 0, 1, 8, [⟨63, 0, .ro, 0⟩]⟩
  | .bootStatus => ⟨.die0, 0xD0000, 0, 1, 4, [⟨2, 0, .ro, 0⟩, ⟨3, 3, .ro, 0⟩, ⟨4, 4, .ro, 0⟩, ⟨5, 5, .ro, 0⟩, ⟨12, 6, .ro, 0⟩]⟩
  | .fwVersion => ⟨.die0, 0xD0004, 0, 1, 4, [⟨31, 0, .ro, 0⟩]⟩
  | .fwMailboxAddr => ⟨.die0, 0xD0008, 0, 1, 8, [⟨63, 0, .rw, 0⟩]⟩
  | .fwMailboxControl => ⟨.die0, 0xD0010, 0, 1, 4, [⟨0, 0, .wo, 0⟩, ⟨1, 1, .rw, 0⟩, ⟨2, 2, .ro, 0⟩, ⟨4, 3, .ro, 0⟩]⟩
  | .fwMailboxLength => ⟨.die0, 0xD0014, 0, 1, 4, [⟨31, 0, .rw, 0⟩]⟩
  | .setupLock => ⟨.die, 0xD0100, 0, 1, 4, [⟨0, 0, .rwl, 0⟩]⟩
  | .dieTemp => ⟨.die, 0xD0110, 0, 1, 4, [⟨11, 0, .ro, 0⟩, ⟨23, 12, .ro, 0⟩]⟩
  | .powerControl => ⟨.die0, 0xD0200, 0, 1, 4, [⟨12, 0, .rw, 0x1388⟩, ⟨23, 16, .rw, 0x5f⟩]⟩
  | .opStatus => ⟨.die0, 0xD0204, 0, 1, 4, [⟨5, 0, .ro, 0x1c⟩, ⟨7, 6, .ro, 0⟩]⟩
  | .inputPower => ⟨.die0, 0xD0208, 0, 1, 4, [⟨15, 0, .ro, 0⟩, ⟨31, 16, .ro, 0⟩]⟩
  | .throttleEvents => ⟨.die0, 0xD0210, 0, 1, 8, [⟨63, 0, .ro, 0⟩]⟩
  | .powerCapEvents => ⟨.die0, 0xD0218, 0, 1, 8, [⟨63, 0, .ro, 0⟩]⟩
  | .startStatus => ⟨.die0, 0xE0000, 0, 1, 4, [⟨2, 0, .ro, 0⟩, ⟨6, 3, .ro, 0⟩, ⟨14, 7, .ro, 0⟩, ⟨17, 15, .ro, 0⟩]⟩
  | .startElapsed => ⟨.die0, 0xE0004, 0, 1, 4, [⟨31, 0, .ro, 0⟩]⟩
  | .resetControl => ⟨.die0, 0xE0008, 0, 1, 4, [⟨0, 0, .wo, 0⟩, ⟨1, 1, .wo, 0⟩, ⟨31, 16, .wo, 0⟩]⟩
  | .resetsSinceCold => ⟨.die0, 0xE0010, 0, 1, 8, [⟨63, 0, .ros, 0⟩]⟩
  | .dieInfo => ⟨.die, 0x0, 0, 1, 4, [⟨2, 0, .ro, 0⟩, ⟨3, 3, .ro, 0⟩, ⟨15, 8, .ro, 1⟩, ⟨31, 16, .ro, 0x7e08⟩]⟩
  | .mapInfo => ⟨.die, 0x4, 0, 1, 4, [⟨7, 0, .ro, 1⟩, ⟨15, 8, .ro, 1⟩]⟩
  | .moduleSerial => ⟨.die0, 0x8, 0, 1, 8, [⟨63, 0, .ro, 0⟩]⟩
  | .lockedWrites => ⟨.die, 0x10, 0, 1, 8, [⟨63, 0, .ros, 0⟩]⟩
  | .setupApplied => ⟨.die, 0x18, 0, 1, 4, [⟨15, 0, .ro, 0⟩]⟩

/-- The registers, part 1. -/
def allRegs1 : List RegName :=
  [.cellId, .cellState, .bankOwner, .accSlotOwner, .spareColMap, .sramCeCount, .syncStatus, .syncBarriers,
  .syncWatchQuota, .syncWatchWaits, .barrierExcess, .staleDrops, .ctxInfo, .ctxControl, .doorbellBase,
  .nudge, .ctxArithFlags, .diceSeed, .sqBase, .sqConfig, .cqBase, .cqConfig, .cqFullStalls, .lcellMap,
  .pleachStatus, .incarnationDrops]
/-- The registers, part 2. -/
def allRegs2 : List RegName :=
  [.dieEnable, .hbmLayout, .memScrub, .hbmCeCount, .gddrCeCount, .memUeCount, .memUeLast, .retireSpares,
  .commonsCeCount, .repairCmd, .repairRow, .repairStatus, .partHbm, .partGddr, .partHbmBytes,
  .partGddrBytes, .partThrottled, .portControl, .portStatus, .portPeer, .portDelay, .fecCorrected,
  .fecUncorrected, .tagFails, .txFrameCtr, .rxFrameCtr]
/-- The registers, part 3. -/
def allRegs3 : List RegName :=
  [.rekeys, .timeControl, .timeStatus, .nodeReg, .timeNow, .timeSet, .timeLockLosses, .slotTableStatus,
  .switchPending, .failoverControl, .repairRequests, .resends, .flowLosses, .duplicateDrops, .remoteDenied,
  .switchDrops, .slotMismatch, .tableMismatch, .beLost, .dispatchPlaced, .dispatchDrops,
  .dispatchRedirects, .cancelledReturns, .updControl, .updStatus, .updStaged]
/-- The registers, part 4. -/
def allRegs4 : List RegName :=
  [.updBlocksApplied, .updSlowBlocks, .updStagingOverflows, .updNormClips, .updDiscards, .stepStatus,
  .stepFlags, .stepsCommitted, .stepsSkipped, .lateDecisions, .consensusStalls, .journalUsed, .journalSeq,
  .exportHead, .exportRelease, .foreignHead, .foreignRelease, .exportDrops, .updParked, .tallyUpdates,
  .faultControl, .faultRingBase, .faultSeq, .faultState, .transientFaults, .lastingFaults]
/-- The registers, part 5. -/
def allRegs5 : List RegName :=
  [.tasksReplayed, .nonReplayableFaults, .qcounterMode, .qcounterReset, .qcBytesRead, .qcBytesWritten,
  .qcMac, .qcStall, .pmcSelect, .pmcValue, .freezeControl, .freezeStatus, .freezeTime, .snapshotControl,
  .snapshotTime, .snapshotAddr, .snapshotLength, .logRingBase, .logControl, .logDrops, .secCmd,
  .secReqAddr, .secRespAddr, .secStatus, .secKeySlots, .secPolicy]
/-- The registers, part 6. -/
def allRegs6 : List RegName :=
  [.secZeroise, .ideRejects, .bootStatus, .fwVersion, .fwMailboxAddr, .fwMailboxControl, .fwMailboxLength,
  .setupLock, .dieTemp, .powerControl, .opStatus, .inputPower, .throttleEvents, .powerCapEvents,
  .startStatus, .startElapsed, .resetControl, .resetsSinceCold, .dieInfo, .mapInfo, .moduleSerial,
  .lockedWrites, .setupApplied]

/-- Every register of the map. -/
def allRegs : List RegName := allRegs1 ++ allRegs2 ++ allRegs3 ++ allRegs4 ++ allRegs5 ++ allRegs6

/-- The registers the setup image may set (Table 23-4). -/
def RegName.isSetup : RegName → Bool
  | .syncWatchQuota | .dieEnable | .hbmLayout | .memScrub | .partHbm | .partGddr | .portControl | .timeControl | .nodeReg | .failoverControl | .updControl | .faultControl | .pmcSelect | .freezeControl | .logControl | .secPolicy | .setupLock | .powerControl => true
  | _ => false

/-- One register of the module: its name, the unit of its block (die, context, port Pn, die × 16 + partition,
die × 104 + physical cell) and its place in its row. -/
structure Reg where
  name : RegName
  unit : Nat
  idx : Nat
  deriving DecidableEq, Repr

/-- Bytes of one die block. -/
def dieStride : Nat := 0x400000

/-- The BAR0 offset of the block of a unit (R535, R536). -/
def Block.base (b : Block) (u : Nat) : Nat :=
  match b with
  | .die => u * dieStride
  | .die0 => 0
  | .cell => (u / 104) * dieStride + 0x100000 + (u % 104) * 0x1000
  | .port => (u / 5) * dieStride + 0x200000 + (u % 5) * 0x1000
  | .partition => (u / 16) * dieStride + 0x280000 + (u % 16) * 0x1000
  | .context => 0x2000000 + u * 0x1000

/-- The BAR0 offset of a register; also the key under which its value is kept. -/
def Reg.addr (r : Reg) : Nat :=
  let i := r.name.info
  i.block.base r.unit + i.off + i.stride * r.idx

/-- Units of each kind of block. -/
def Block.units : Block → Nat
  | .die => 8 | .die0 => 1 | .cell => 832 | .port => 40 | .partition => 128 | .context => 64

/-- A register the map holds: its unit and its index exist. -/
def Reg.inMap (r : Reg) : Prop := r.unit < r.name.info.block.units ∧ r.idx < r.name.info.count

/-- Where a BAR0 offset falls: the block, its unit and the offset within the block; `.die` stands for either kind of
die register. `none` for the MSI-X structures and unassigned ranges. -/
def locate (a : Nat) : Option (Block × Nat × Nat) :=
  if a < 0x2000000 then
    let d := a / dieStride
    let o := a % dieStride
    if 0x100000 ≤ o ∧ o < 0x100000 + 104 * 0x1000 then
      some (.cell, d * 104 + (o - 0x100000) / 0x1000, o % 0x1000)
    else if 0x200000 ≤ o ∧ o < 0x205000 then some (.port, d * 5 + (o - 0x200000) / 0x1000, o % 0x1000)
    else if 0x280000 ≤ o ∧ o < 0x290000 then some (.partition, d * 16 + (o - 0x280000) / 0x1000, o % 0x1000)
    else if 0x100000 ≤ o then none
    else some (.die, d, o)
  else if a < 0x2040000 then some (.context, (a - 0x2000000) / 0x1000, a % 0x1000)
  else none

/-- Whether a row of the map stands in block `b` of unit `u` (R537). -/
def RegInfo.standsIn (i : RegInfo) (b : Block) (u : Nat) : Bool :=
  i.block = b || (i.block = .die0 && b = .die && u = 0)

/-- The register that holds block offset `o`, if this row does. -/
def RegName.at? (n : RegName) (b : Block) (u o : Nat) : Option Reg :=
  let i := n.info
  if i.standsIn b u ∧ i.off ≤ o then
    let k := if i.stride = 0 then 0 else (o - i.off) / i.stride
    if k < i.count ∧ o < i.off + i.stride * k + i.bytes then some ⟨n, u, k⟩ else none
  else none

/-- The register to which a BAR0 offset is assigned (R19, R536, R537). -/
def regAt (a : Nat) : Option Reg :=
  match locate a with
  | none => none
  | some (b, u, o) => allRegs.findSome? fun n => n.at? b u o

/-- The factory default of a register, as a whole word. -/
def RegName.dflt (n : RegName) : Nat := n.info.fields.foldl (fun v f => v + f.dflt * 2 ^ f.lo) 0

/-- The default of one register: a few name their own unit. -/
def Reg.dflt (r : Reg) : Nat :=
  match r.name with
  | .ctxInfo => 1 + 16 * r.unit
  | .dieInfo => r.name.dflt + r.unit
  | n => n.dflt

/-- The die whose block holds a register; contexts stand on no die. -/
def Reg.die? (r : Reg) : Option Nat :=
  match r.name.info.block with
  | .die => some r.unit
  | .die0 => some 0
  | .cell => some (r.unit / 104)
  | .port => some (r.unit / 5)
  | .partition => some (r.unit / 16)
  | .context => none

/-- The bits of a word that its fields of the access types `p` cover. -/
def RegInfo.mask (i : RegInfo) (p : Access → Bool) : Nat :=
  i.fields.foldl (fun m f => if p f.acc then m + (2 ^ (f.hi + 1) - 2 ^ f.lo) else m) 0

end Sys2Proof.Machine
end

