-- ==== Sys2Proof/Machine/State.lean ====
section
/-!
DEFINITION. Machine/State.lean: the state of the module as plain data. The registers of Regs.lean are held as one sparse
list by BAR0 offset; what lies behind them stands in the structures below, one per subsystem.
-/
namespace Sys2Proof.Machine

/-! ### Time (chapter 13, 21) -/

/-- The roles of R335. -/
inductive Role where
  | free | master | follower
  deriving DecidableEq, Repr

structure TimeSt where
  /-- fabric time, in pips (R12, R334) -/
  pips : W64
  /-- CCLK edges of the package clock, and 64ths of an edge still to come (R14; log entry 4) -/
  cclk : W64
  phase : Nat
  /-- the role in force, beside the one written (R335) -/
  role : Role
  locked : Bool
  holdover : Bool
  onBackup : Bool
  masterHops : Nat
  masterNode : Nat
  lastOffset : Int
  /-- the last 16 offsets, newest first; the step of R337 stage 1 done; valid slots in a row with |O| ≤ 2 -/
  offsets : List Int
  stepped : Bool
  goodRun : Nat
  /-- PLL correction in ppm × 1000 (R337 stage 2) -/
  freqPpb : Int
  /-- frame of the last valid locked control slot, and of the start of holdover (R339) -/
  lastLockedFrame : Nat
  holdoverFrame : Nat
  /-- the last frame whose boundary FRAME_START has handled -/
  frameDone : Nat
  /-- the value a TIME_SET loads at the next pip (R342), and the first frame in which the written ROLE is in force (R335) -/
  load : Option Nat
  roleAt : Nat
  deriving DecidableEq, Repr

/-! ### Start-up, power and pins (chapters 21, 22, 24) -/

/-- Stages of Table 22-1. -/
inductive Stage where
  | power | rom | setup | selfTest | memory | map | ready | failed
  deriving DecidableEq, Repr

def Stage.code : Stage → Nat
  | .power => 0 | .rom => 1 | .setup => 2 | .selfTest => 3 | .memory => 4 | .map => 5 | .ready => 6 | .failed => 7

structure BootSt where
  stage : Stage
  failReason : Nat
  resetCause : Nat
  /-- fabric time at the start of the running or last sequence, and elapsed µs shown after READY -/
  seqStart : Nat
  elapsed : Nat
  /-- a cold sequence runs (it trains and clears memory); a warm one does not -/
  coldSeq : Bool
  /-- READY has been reached since cold reset (R528) -/
  wasReady : Bool
  /-- BOOT_STATUS: RECOVERY, FIRMWARE, FROM_HOST and an invalid setup image -/
  recovery : Bool
  firmwareOn : Bool
  fromHost : Bool
  setupInvalid : Bool
  fwVersion : Nat
  /-- fused: FW_FLOOR, SETUP_SIGNED_REQUIRED, kill fuse (R509, R515, R504) -/
  fwFloor : Nat
  signedRequired : Bool
  killed : Bool
  /-- the module flash: firmware image and setup image, as stored bytes; an image being written -/
  flash : List Byte
  setupImage : List Byte
  flashWriting : Option (List Byte)
  /-- a write of the flash image was cut off: the copy fails R508 (R510) -/
  flashTorn : Bool
  /-- the image that runs -/
  running : List Byte
  serial : Nat
  /-- outcome of the power-up self-tests (R502) -/
  selfTestsPassed : Bool
  /-- dies that failed self-test or training in this sequence (R299, R526) -/
  failedDies : List Nat
  deriving DecidableEq, Repr

structure PowerSt where
  /-- die supplies on; input within limits; MOD_RESET# released -/
  supplies : Bool
  inputOk : Bool
  modResetHigh : Bool
  /-- no input power at all: the always-on domain stands still (R334) -/
  removed : Bool
  /-- stopped by a MODULE fault until cold reset (R466, R521, R523) -/
  stopped : Bool
  /-- operating point in force, the firmware's, and the comparators' and throttle's requests (R518) -/
  point : Nat
  fwPoint : Nat
  /-- conditions 0–2 of R520 that hold a request, each with the point it requests -/
  caps : Tab Nat
  throttled : Bool
  /-- the loops held at the start point by a silent package steward (R511) -/
  loopsHeld : Bool
  /-- droop: dies whose supply droops, and lengthened edges since the stretch began (R522) -/
  drooping : List Nat
  stretching : Bool
  stretchedEdges : Nat
  /-- loop history: whether every die and the power stage have reported (R519) -/
  tempReports : List Nat
  /-- dies whose sensor reports nothing valid, each with the pip it fell silent at -/
  silent : Tab Nat
  powerReports : Nat
  pwrGood : Bool
  thermTrip : Bool
  deriving DecidableEq, Repr

structure PcieSt where
  linkUp : Bool
  perstAsserted : Bool
  /-- MSI-X table: address, data and mask of each vector that differs from its default; pending bits (R265) -/
  table : Tab (Nat × Nat × Bool)
  pba : List Nat
  /-- high halves latched by R18, by register offset -/
  latch : Tab Nat
  /-- the value the last register read returned; `none`: completed as an Unsupported Request or with no completer (R559) -/
  lastRead : Option Nat
  /-- MSI-X messages sent: vector, address, data; newest first -/
  sent : List (Nat × Nat × Nat)
  deriving DecidableEq, Repr

/-! ### Host command interface (chapter 10) -/

/-- A START watch of a fetched command (R231). -/
inductive StartSt where
  | none | waiting | armed | met | stale
  deriving DecidableEq, Repr

/-- A command fetched and not yet issued. -/
structure Fetched where
  seq : Nat
  desc : List Byte
  /-- its START watches have been registered -/
  atHead : Bool
  start0 : StartSt
  start1 : StartSt
  /-- the tensor whose generation it waited for at issue when the Topiary command writing it failed (R163 step 4) -/
  genFailed : Option Nat
  deriving DecidableEq, Repr

structure QueueSt where
  base : Nat
  log2 : Nat
  deferrable : Bool
  prio : Nat
  cq : Nat
  group : Nat
  head : Nat
  seenTail : Nat
  /-- oldest first -/
  fetched : List Fetched
  /-- ENABLE has been cleared and records are still due (R267) -/
  closing : Bool
  deriving DecidableEq, Repr

def QueueSt.init : QueueSt := ⟨0, 4, false, 0, 0, 0, 0, 0, [], false⟩

structure CqSt where
  base : Nat
  log2 : Nat
  intAll : Bool
  holdoff : Nat
  w : Nat
  cqHead : Nat
  /-- records waiting for room: bytes with PHASE clear, and whether each requests the vector -/
  waiting : List (List Byte × Bool)
  holdoffRunning : Bool
  merged : Bool
  deriving DecidableEq, Repr

def CqSt.init : CqSt := ⟨0, 4, false, 0, 0, 0, [], false, false⟩

/-! ### Descriptors and allocations (chapter 8) -/

structure Alloc where
  base : Nat
  size : Nat
  read : Bool
  write : Bool
  partition : Nat
  deriving DecidableEq, Repr

structure DescSlot where
  gen : Nat
  valid : Bool
  destroying : Bool
  record : List Byte
  ext : List Byte
  selfOverlap : Bool
  /-- commands in flight that use buffer 0 and buffer 1 of an N:8 tensor (R162), and the Topiary command that writes it -/
  uses0 : Nat
  uses1 : Nat
  writer : Option CmdId
  /-- while it is being destroyed: the allocation that the commands in flight go on under (R187) -/
  frozen : Option Alloc
  deriving DecidableEq, Repr

def DescSlot.init : DescSlot := ⟨0, false, false, [], [], false, 0, 0, none, none⟩

/-! ### Sync (chapter 9) -/

/-- A virtual identifier's mapping. -/
structure VMap where
  gen : Nat
  mapped : Bool
  unmapping : Bool
  die : Nat
  phys : Nat
  deriving DecidableEq, Repr

def VMap.init : VMap := ⟨0, false, false, 0, 0⟩

/-- A physical counter that a mapping holds. -/
structure Counter where
  value : Nat
  ctx : Nat
  vid : Nat
  deriving DecidableEq, Repr

structure Barrier where
  ctx : Nat
  vid : Nat
  gen : Nat
  round : Nat
  arrK : Nat
  arrK1 : Nat
  participants : Nat
  release : Nat
  deriving DecidableEq, Repr

/-- Table 9-3. -/
inductive WatchAct where
  | start (id : CmdId) (which : Nat)
  | write (addr data : Nat)
  | add (chain value : Nat)
  deriving DecidableEq, Repr

structure Watch where
  ctx : Nat
  ref : Nat
  phys : Nat
  target : Nat
  act : WatchAct
  /-- the counter has reached the target; the message is still to be sent -/
  reached : Bool
  deriving DecidableEq, Repr

/-- A registration that waits for an entry or for quota (R232); `id` is the SYNC command that waits with it. -/
structure WaitingReg where
  watch : Watch
  id : Option CmdId
  deriving DecidableEq, Repr

/-- An update message in flight within the package: a barrier release, a fired WATCH_ADD or a remote signal (R226). -/
structure SyncMsg where
  ctx : Nat
  ref : Nat
  add : Nat
  deriving DecidableEq, Repr

structure Ctx where
  /-- a NUDGE asks for a scan that has not started (R251), and the pip at which the next periodic one is due (R250) -/
  scanWanted : Bool
  nextScan : Nat
  queues : Tab QueueSt
  cqs : Tab CqSt
  slots : Tab DescSlot
  allocs : Tab Alloc
  counters : Tab VMap
  barriers : Tab VMap
  deriving DecidableEq, Repr

def Ctx.init : Ctx := ⟨false, 0, [], [], [], [], [], []⟩

/-! ### Cells and Pleach (chapters 3, 11) -/

/-- CELL_STATE.STATE. -/
inductive CellMode where
  | idle | running | fenced | selfTest
  deriving DecidableEq, Repr

def CellMode.code : CellMode → Nat
  | .idle => 0 | .running => 1 | .fenced => 2 | .selfTest => 3

/-- A handover in progress (R80): the previous owner, its commands still to finish, and whether the scrub runs. -/
structure Handover where
  prev : Option Nat
  waitFor : List CmdId
  scrubbing : Bool
  deriving DecidableEq, Repr

/-- A task held by a cell: its command, its number, and the first task of the run it was drawn in (R91). -/
structure TaskRef where
  id : CmdId
  task : Nat
  run : Nat
  deriving DecidableEq, Repr

structure Cell where
  mode : CellMode
  fusedOut : Bool
  /-- global logical cell it fills -/
  logical : Option Nat
  inPool : Bool
  portsClosed : Bool
  /-- substitution between steps 3 and 5 of R280 is placing it -/
  placing : Bool
  /-- tasks in flight, oldest first (at most 2) -/
  tasks : List TaskRef
  /-- by bank: 0–23 scratchpad banks, 24–31 accumulator slots -/
  handovers : Tab Handover
  /-- the slot it filled, while its messages may still be in the networks (R283) -/
  formerly : Option Nat
  /-- the task whose operand tiles its staging buffers still hold (R91) -/
  staged : Option TaskRef
  deriving DecidableEq, Repr

def Cell.init : Cell := ⟨.idle, false, none, false, false, false, [], [], none, none⟩

/-- A logical slot of the map: its physical cell (number on its die) and incarnation. -/
structure LSlot where
  phys : Option Nat
  inc : Nat
  /-- filled and in service: step 5 of R280 done -/
  inService : Bool
  /-- owners recorded for the slot, by bank (R275); unlisted: 0 with ASSIGNED clear -/
  owners : Tab Nat
  /-- messages of the previous occupant may still be in the networks (R283) -/
  draining : Bool
  deriving DecidableEq, Repr

def LSlot.init : LSlot := ⟨none, 0, false, [], false⟩

/-- A cell group (R274). -/
structure Group where
  ctx : Nat
  deferrable : Bool
  members : List Nat
  bankMask : Nat
  slotMask : Nat
  /-- queues (context × 64 + queue) that the present round of its draw list has served (R256) -/
  served : List Nat
  deriving DecidableEq, Repr

structure Die where
  inService : Bool
  slots : Tab LSlot
  counters : Tab Counter
  barriers : Tab Barrier
  watches : Tab Watch
  waiting : List WaitingReg
  deriving DecidableEq, Repr

def Die.init : Die := ⟨false, [], [], [], [], []⟩

/-! ### Memory (chapter 12, 20) -/

/-- How an XTS block was sealed: the key's number and the device page (R305). -/
structure Seal where
  key : Nat
  page : Nat
  deriving DecidableEq, Repr

structure MemSt where
  /-- every device memory, by the keys of Memory.lean, as decrypted under the key that wrote it -/
  cells : List Host.Cell
  /-- host memory as the part sees it -/
  host : List Host.Cell
  /-- the seal of every written 16-byte block of HBM4 and GDDR7, by key / 16; unlisted: stored zero -/
  seals : Tab Seal
  /-- uncorrectable words, by key / 8 -/
  poison : List Nat
  /-- the remap table, by key / 4096 of a retired page: the spare page that holds it, or none where no spare was left (R313) -/
  retired : Tab (Option Nat)
  layout : Layout
  /-- key number in each of the 64 memory key slots; unlisted: empty (R489) -/
  keySlots : Tab Nat
  packageKey : Nat
  nextKey : Nat
  /-- tokens of partition p at controller c of die d, by (d × 16 + p) × 8 + c, in bytes; unlisted: full -/
  tokens : Tab Nat
  /-- repaired rows, and the repair running on each die: operation and the fields of REPAIR_CMD and REPAIR_ROW -/
  repaired : List (Nat × Nat × Nat)
  repairing : Tab (Nat × Nat × Nat)
  deriving DecidableEq, Repr

/-! ### Issued commands -/

structure Latches where
  cycles : Nat
  pips : Nat
  rd : Nat
  wr : Nat
  mac : Nat
  stall : Nat
  deriving DecidableEq, Repr

/-- A tensor watch (R479): whether it is armed, the number of its arming, mode, handle, ring and records written. An entry
outlives its DISARM for the commands that took it (R480). -/
structure TWatch where
  armed : Bool
  serial : Nat
  mode : Nat
  handle : Nat
  ring : Nat
  log2 : Nat
  n : Nat
  deriving DecidableEq, Repr

/-- How a command ended: status, AUX and detail bytes 16–31. -/
structure Ending where
  status : Nat
  aux : Nat
  detail : List Byte
  deriving DecidableEq, Repr

/-- A tile of a split reduction that a command has opened (R104–R107). -/
structure TileSt where
  /-- the home cell (die × 104 + number) and its partial place in REDUCE_BUF -/
  home : Option Nat
  place : Nat
  /-- the home cell's accumulator so far, row-major; partials may reach it before its own segment ends -/
  acc : List Nat
  ownDone : Bool
  /-- segments whose partials have been added, and segments present in REDUCE_BUF -/
  added : List Nat
  present : List Nat
  /-- raw partials on their way to the home cell, by segment: sending slot, its incarnation and values (R105, R282) -/
  flying : Tab (Nat × Nat × List Nat)
  /-- taken and not yet drained (R104) -/
  opened : Bool
  /-- cells that have taken one of its segments (R461) -/
  parts : List Nat
  /-- cells whose drain markers it waits for before it is rebuilt (R461) -/
  rebuild : List Nat
  deriving DecidableEq, Repr

def TileSt.init : TileSt := ⟨none, 0, [], false, [], [], [], false, [], []⟩

/-- A held tile (R99, R100): its logical cell, its accumulator slots and its first quantum. Its values lie there (R72). -/
structure HeldTile where
  cell : Nat
  slots : List Nat
  quantum : Nat
  deriving DecidableEq, Repr

/-- The progress of a product command. -/
structure Run where
  tiles : Tab TileSt
  /-- elements of blocks that more than one tile completes (R564): by row and block, element number and FP32 bits -/
  parts : Tab (Tab Nat)
  /-- the tensor scale it encodes with -/
  scale : Nat
  /-- lowest tile number in which a saturation was seen under FAULT_ON_SATURATE -/
  satTile : Option Nat
  /-- why the command stops, once its tasks in flight have finished -/
  stop : Option Ending
  /-- finished tiles it will hold -/
  holds : Tab HeldTile
  deriving DecidableEq, Repr

def Run.init : Run := ⟨[], [], 0, none, none, []⟩

/-- What a command has received from the fabric. -/
structure RxRun where
  /-- COLLECTIVE: result slots delivered, and whether one fell short of EXPECTED -/
  seqs : List Nat
  short : Bool
  /-- a missed slot of its flow is lost, or a row came too early -/
  lost : Bool
  /-- batch headers by source or home index, and the bytes of rows delivered -/
  heads : Tab (List Byte)
  got : Tab (List Nat)
  deriving DecidableEq, Repr

def RxRun.init : RxRun := ⟨[], false, false, [], []⟩

/-- A command issued and not yet complete. -/
structure Cmd where
  id : CmdId
  desc : List Byte
  /-- set once the command has done, or been refused, what it does; COMMAND_COMPLETE then completes it -/
  ending : Option Ending
  start : Latches
  unlocked : Bool
  nonfinite : Bool
  saturated : Bool
  promoted : Bool
  replayed : Bool
  nonReplayable : Bool
  /-- in-service member slots of the group at issue (R279) -/
  cells : List Nat
  /-- descriptor slots it names, with the handle's generation, and the buffers whose use it counts -/
  handles : List Nat
  /-- handles it names as destinations (R480, R531) -/
  outs : List Nat
  buffers : List (Nat × Nat)
  /-- tensor watches taken at issue (R480) -/
  watches : Tab TWatch
  /-- records copied at issue, by number (R565) -/
  records : Tab (List Byte)
  /-- STORED_SCALE of each HISTORY tensor read, by descriptor slot (R567) -/
  scales : Tab Nat
  /-- whether its own effect has begun (a waiting command acts once) -/
  begun : Bool
  /-- task cursor, tasks offered again, tasks done, of a command that runs in tasks (R90, R460) -/
  cursor : Nat
  reoffered : List Nat
  done : List Nat
  /-- tasks a cell has taken and not completed -/
  taken : List Nat
  run : Run
  rx : RxRun
  /-- SEQ of the fault record that ended it: of its loss (R463), or of the error of the cell whose word it read (R562) -/
  lossSeq : Option Nat
  /-- handovers it waits for, as cell × 32 + bank (R275, R286) -/
  awaits : List Nat
  deriving DecidableEq, Repr

/-- The tiles held under one (context, HOLD_TAG), with what R100 compares. -/
structure HoldSet where
  ctx : Nat
  tag : Nat
  group : Nat
  m : Nat
  n : Nat
  mt : Nat
  nt : Nat
  plist : Nat
  /-- the group's members, and those in service, at the HOLD_OUT command's issue (R279) -/
  roster : List Nat
  cells : List Nat
  /-- the originating outputs' bytes (R126) -/
  outs : List (Nat × Nat)
  tiles : Tab HeldTile
  deriving DecidableEq, Repr

/-! ### Faults and observation (chapters 18, 19) -/

structure FaultSt where
  seq : Nat
  w : Nat
  /-- RING_LOG2 taken at the last write of FAULT_RING_BASE -/
  log2 : Nat
  base : Nat
  /-- self-tests running: the unit, the command the unit was executing, and the SEQ of the error's record -/
  tests : List (UnitId × Option CmdId × Nat)
  /-- R465 or R466 in force; fetching stopped until a reset -/
  degraded : Bool
  fetchStopped : Bool
  linksDown : List Nat
  /-- R465 in force -/
  dieLost : Bool
  deriving DecidableEq, Repr

structure LogSt where
  seq : Nat
  w : Nat
  log2 : Nat
  base : Nat
  /-- records held until the ring has a base, oldest first, PHASE clear -/
  held : List (List Byte)
  deriving DecidableEq, Repr

structure FreezeSt where
  /-- T of an armed FREEZE_AT and the command that waits on it; the pip of a freeze by FREEZE_NOW or ON_FAULT -/
  armedT : Option Nat
  armedBy : Option CmdId
  nextAt : Option Nat
  frozen : Bool
  late : Bool
  unlocked : Bool
  deriving DecidableEq, Repr

structure SnapSt where
  busy : Bool
  atTime : Option Nat
  by' : Option CmdId
  deriving DecidableEq, Repr

/-! ### Hedgerow (chapters 13 and 14) -/

/-- States of Table 13-5. -/
inductive PortMode where
  | down | training | aligning | authenticating | measuring | up
  deriving DecidableEq, Repr

def PortMode.code : PortMode → Nat
  | .down => 0 | .training => 1 | .aligning => 2 | .authenticating => 3 | .measuring => 4 | .up => 5

/-- A slot's header fields (Table 13-3) and its payload in clear. -/
structure Slot where
  kind : Nat
  type : Nat
  flow : Nat
  epoch : Nat
  hops : Nat
  flags : Nat
  node : Nat
  seq : Nat
  sent : Nat
  payload : List Byte
  deriving DecidableEq, Repr

/-- The key of one direction of a link and its 32-bit salt (R327). -/
structure LinkKey where
  key : List Byte
  salt : Nat
  deriving DecidableEq, Repr

/-- A superseded receive key (R331): the key, FRAME_CTR of its direction, which goes on counting, and the frame it is dropped
in. -/
structure OldKey where
  key : LinkKey
  ctr : Nat
  until' : Nat
  deriving DecidableEq, Repr

/-- A slot as it last left a port: its place, the key it was sealed under, FRAME_CTR and KEY_PHASE, what it carries, and its
544 bytes (R322, R328). -/
structure SentSlot where
  frame : Nat
  index : Nat
  key : Option LinkKey
  ctr : Nat
  phase : Bool
  slot : Slot
  bytes : List Byte
  deriving DecidableEq, Repr

/-- A rekey in progress (R330, R331): at end L the number of its ML-KEM key pair and the REKEY_KEY message; whether its keys are
derived, and the frame its SWITCH message names. -/
structure RekeySt where
  kem : Option Nat
  keyMsg : List Byte
  derived : Bool
  switchFrame : Option Nat
  deriving DecidableEq, Repr

/-- A management message on its way out (R325): its type, its fragments as far as they are known, and how many it has. -/
structure MgmtOut where
  type : Nat
  frags : List (List Byte)
  count : Nat
  deriving DecidableEq, Repr

/-- The exchange of R501 on a port in AUTHENTICATING: this end's nonce; the nonce and owner hash of the peer's fragment 0; the
management data sent and received so far; whether the peer's IDENTITY is whole; end L's ML-KEM key pair; the shared secret;
whether the peer's FINISHED has come. -/
structure AuthSt where
  nonce : List Byte
  peer : Option (List Byte × List Byte)
  sent : List Byte
  got : List Byte
  identity : Bool
  kem : Option Nat
  secret : Option (List Byte)
  finished : Bool
  deriving DecidableEq, Repr

/-- A frame control slot as it arrived: the local frame, whether it was valid, and its ACTIVE_ID. -/
structure CtlRec where
  frame : Nat
  ok : Bool
  active : Nat
  deriving DecidableEq, Repr

/-- The CONSENSUS field of one control slot, without its decisions (Table 17-4). -/
structure ConsField where
  valid : Bool
  parent : Bool
  step : Nat
  ready : Nat
  reasons : Nat
  deriving DecidableEq, Repr

def ConsField.none : ConsField := ⟨false, false, 0, 0, 0⟩

/-- A repair entry waiting for a control slot (Table 14-11), and the first frame it may travel in. -/
structure RepEnt where
  kind : Nat
  slot : Nat
  run : Nat
  frameLo : Nat
  flow : Nat
  epoch : Nat
  due : Nat
  deriving DecidableEq, Repr

structure PortSt where
  mode : PortMode
  reason : Nat
  /-- fabric time at which the state was entered -/
  since : Nat
  keyPhase : Bool
  peerNode : Nat
  peerPort : Nat
  delay : Nat
  /-- NODE and port that the last valid control slot named as its sender (R325) -/
  sender : Option (Nat × Nat)
  auth : Option AuthSt
  /-- link keys: transmit, receive, and the superseded receive key (R327, R331) -/
  txKey : Option LinkKey
  rxKey : Option LinkKey
  rxPhase : Bool
  /-- a slot has been opened under the receive key, so that its FRAME_CTR runs -/
  rxLive : Bool
  oldRx : Option OldKey
  newTx : Option LinkKey
  newRx : Option LinkKey
  rekey : Option RekeySt
  /-- a rekey has been asked for, and the frame in which the last attempt began (R330) -/
  asked : Bool
  attempt : Option Nat
  /-- consecutive invalid control slots; consecutive frames with uncorrectable codewords; whether this frame had one -/
  badControls : Nat
  fecFrames : Nat
  fecNow : Bool
  /-- ECHO_TX and ECHO_RX of the next control slot; valid exchanges of the present measurement -/
  echoTx : Nat
  echoRx : Nat
  exchanges : Nat
  /-- the last two control slots, newest first (R353) -/
  ctl : List CtlRec
  /-- TX_TIMEs of the last 64 control slots sent, newest first (R336) -/
  txTimes : List Nat
  /-- what the last valid control slot said of time and consensus -/
  peerLocked : Bool
  peerMaster : Nat
  peerHops : Nat
  cons : ConsField
  /-- best-effort credits to spend, and to return (R367) -/
  credit : Nat
  creditBack : Nat
  /-- repair entries waiting, oldest first -/
  repair : List RepEnt
  /-- management messages to send, oldest first, and the fragment of the first that the next control slot carries -/
  mgmt : List MgmtOut
  mgmtNext : Nat
  /-- a management message being received: type, next fragment, bytes so far -/
  mgmtRx : Option (Nat × Nat × List Byte)
  sent : Option SentSlot
  /-- the slots of the present frame that have left, as bytes, by slot (R320) -/
  wire : Tab (List Byte)
  /-- the last slot presented: 128 × frame + slot -/
  seen : Nat
  deriving DecidableEq, Repr

def PortSt.init : PortSt :=
  { mode := .down, reason := 1, since := 0, keyPhase := false, peerNode := 0xFFFF, peerPort := 0x3F, delay := 0,
    sender := none, auth := none, txKey := none, rxKey := none, rxPhase := false, rxLive := false, oldRx := none, newTx := none,
    newRx := none, rekey := none, asked := false, attempt := none,
    badControls := 0, fecFrames := 0, fecNow := false, echoTx := 0, echoRx := 0, exchanges := 0, ctl := [],
    txTimes := [], peerLocked := false, peerMaster := 0xFFFF, peerHops := 0xFF, cons := ConsField.none,
    credit := 64, creditBack := 0, repair := [], mgmt := [], mgmtNext := 0, mgmtRx := none, sent := none, wire := [], seen := 0 }

/-- A flow record (Table 14-2). -/
structure FlowRec where
  flow : Nat
  epoch : Nat
  ctx : Nat
  hops : Nat
  unit : Nat
  repairFlow : Nat
  deriving DecidableEq, Repr

/-- A transmit entry (Table 14-3). -/
structure TxEnt where
  kind : Nat
  repair : Bool
  local' : Bool
  inPort : Nat
  inSlot : Nat
  flow : Nat
  deriving DecidableEq, Repr

/-- A receive entry (Table 14-4). -/
structure RxEnt where
  action : Nat
  repair : Bool
  outPort : Nat
  outSlot : Nat
  flow : Nat
  order : Nat
  deriving DecidableEq, Repr

/-- A slot table: its entries other than UNUSED and NONE, by entry number e of Table 14-1. -/
structure SlotTable where
  id : Nat
  frames : Nat
  flows : List FlowRec
  tx : Tab TxEnt
  rx : Tab RxEnt
  deriving DecidableEq, Repr

/-- A pending switch (R348, R350). -/
structure PendingSwitch where
  frame : Nat
  failover : Bool
  by' : Option CmdId
  deriving DecidableEq, Repr

/-- Cancellation data of a SEND: die, tag and the generation it stamped (R397). -/
structure BatchKey where
  die : Nat
  tag : Nat
  gen : Nat
  deriving DecidableEq, Repr

/-- A message at its source: MSG_FLAGS and payload of the slots still to depart (R367). -/
structure OutMsg where
  id : Option CmdId
  ctx : Nat
  flow : Nat
  epoch : Nat
  type : Nat
  slots : List (Nat × List Byte)
  /-- the first slot yet to depart, and the later ones that have left before it in entries of the same frame (R367) -/
  next : Nat
  ahead : List Nat
  sentFrame : Nat
  /-- best effort: the port -/
  be : Option Nat
  /-- batch window: W0 and WINDOW_FRAMES (R378) -/
  window : Option (Nat × Nat)
  batch : Option BatchKey
  deriving DecidableEq, Repr

/-- A reserved slot kept for a resend (R370), and whether one has been requested. -/
structure Retained where
  id : Option CmdId
  port : Nat
  index : Nat
  frame : Nat
  hops : Nat
  repairFlow : Nat
  requested : Bool
  /-- where its last resend left: port, slot and frame -/
  resent : Option (Nat × Nat × Nat)
  slot : Slot
  deriving DecidableEq, Repr

/-- A slot missed at a destination: the frame it left its origin, the port, slot and frame it was presented in, and the message
(SENT_FRAME) and SEQ it had, as far as its neighbours tell; `opened`: no slot of the flow has been delivered since. -/
structure Missed where
  frame : Nat
  port : Nat
  index : Nat
  presented : Nat
  msg : Option Nat
  seq : Option Nat
  opened : Bool
  deriving DecidableEq, Repr

/-- A delivered SIGNAL that waits (R358): its payload, the places (port, slot, frame presented) of the missed slots that stand
before it, and whether an earlier message is lost. -/
structure WaitSignal where
  payload : List Byte
  before : List (Nat × Nat × Nat)
  doomed : Bool
  deriving DecidableEq, Repr

/-- A gradient bucket being received (R406). -/
structure Bucket where
  sent : Nat
  die : Nat
  group : Nat
  step : Nat
  first : Nat
  count : Nat
  scale : Nat
  expected : Nat
  accepted : Bool
  deriving DecidableEq, Repr

/-- A batch message being received: the command and source or home index it serves, or none where it is discarded. -/
structure BatchRx where
  sent : Nat
  id : Option CmdId
  index : Nat
  /-- its header named a generation no longer current (R398) -/
  stale : Bool
  deriving DecidableEq, Repr

/-- A difference record being received (R445): its slots by SEQ. -/
structure ExportRx where
  sent : Nat
  die : Nat
  parts : Tab (List Byte)
  deriving DecidableEq, Repr

/-- What a module receives of one flow and epoch. -/
structure RxFlow where
  epoch : Nat
  lost : Bool
  missed : List Missed
  /-- slots accepted, with the frame of acceptance (R371) -/
  accepted : List (Nat × Slot)
  signals : List WaitSignal
  buckets : List Bucket
  batches : List BatchRx
  exports : List ExportRx
  /-- data slots that arrived before the SEQ 0 slot of their message -/
  early : List Slot
  /-- SENT_FRAME of a message whose rest is discarded (R372); SENT_FRAME and last SEQ of the one under way -/
  dropping : Option Nat
  cur : Option (Nat × Nat)
  deriving DecidableEq, Repr

def RxFlow.init : RxFlow := ⟨0, false, [], [], [], [], [], [], [], none, none⟩

/-- A slot presented in the present frame, for FORWARD and REDUCE entries. -/
structure InSlot where
  port : Nat
  index : Nat
  slot : Slot
  deriving DecidableEq, Repr

/-- An access from the fabric that meets a bank under handover to its own context, and waits there (R81): a slot accepted on a
port, or the write of a fired watch. -/
inductive Waiter where
  | slot (port : Nat) (flow : FlowRec) (sl : Slot)
  | watch (ctx addr value : Nat)
  deriving DecidableEq, Repr

/-- A batch header delivered before a command took it (R387): flow, die of delivery and slot. -/
structure WaitHeader where
  flow : Nat
  die : Nat
  slot : Slot
  deriving DecidableEq, Repr

/-- A cancel that waits for the next frame (R396). -/
structure Cancel where
  die : Nat
  ctx : Nat
  tag : Nat
  frame : Nat
  by' : CmdId
  deriving DecidableEq, Repr

structure FabricSt where
  ports : Tab PortSt
  active : Option SlotTable
  standby : Option SlotTable
  retired : Option SlotTable
  /-- SWITCH_FRAME of the active table, and of the retired one -/
  switchFrame : Nat
  retiredFrame : Nat
  /-- the last switch was a failover (R351) -/
  lastFailover : Bool
  pendingSwitch : Option PendingSwitch
  /-- frame whose slots `inSlots` holds -/
  inFrame : Nat
  inSlots : List InSlot
  out : List OutMsg
  retained : List Retained
  rx : Tab RxFlow
  headers : List WaitHeader
  /-- batch generations, by (die × 64 + context) × 256 + tag -/
  batchGen : Tab Nat
  cancels : List Cancel
  /-- REDUCE outputs of which an input has answered EMPTY: frame, port, slot and REDUCE_ORDER; 16 is the local contribution -/
  empties : List (Nat × Nat × Nat × Nat)
  /-- DATA slots that this module has sent as an origin in the last 64 frames: port, slot and frame (R369) -/
  departed : List (Nat × Nat × Nat)
  /-- accesses that wait for a handover, oldest first (R81) -/
  waiters : List Waiter
  deriving DecidableEq, Repr

def FabricSt.init : FabricSt :=
  { ports := [], active := none, standby := none, retired := none, switchFrame := 0, retiredFrame := 0,
    lastFailover := false, pendingSwitch := none, inFrame := 0, inSlots := [], out := [], retained := [], rx := [],
    headers := [], batchGen := [], cancels := [], empties := [], departed := [], waiters := [] }

/-! ### The updater (chapter 16) -/

/-- The schedule as read at a step's first block: learning rate, decay, and the change map of its entry (R411). -/
structure SchedRead where
  eta : Nat
  lambda : Nat
  changeMap : Nat
  changeGen : Nat
  deriving DecidableEq, Repr

/-- A 4 KiB block of state under change: its device address and its content before the step (R419). -/
structure Before where
  addr : Nat
  old : List Byte
  deriving DecidableEq, Repr

/-- What a group holds of one step. -/
structure UStep where
  step : Nat
  /-- a bucket of the step has been accepted (R408) -/
  accepted : Bool
  /-- element ranges `[lo, hi)` covered, and applied -/
  covered : List (Nat × Nat)
  applied : List (Nat × Nat)
  sched : Option SchedRead
  mapped : Bool
  amax : Nat
  clips : Nat
  /-- reasons this group raised, by bit -/
  reasons : Nat
  /-- blocks changed and not yet journalled, by plane × 2^48 + block of the plane -/
  before : Tab Before
  /-- BLOCK_PRECOND: FP32 bits of the checked gradients that have arrived, by tile and element; idle elements listed apart -/
  tiles : Tab (Tab Nat)
  idle : List Nat
  deriving DecidableEq, Repr

def UStep.init (t : Nat) : UStep := ⟨t, false, [], [], none, false, 0, 0, 0, [], [], []⟩

structure UGroup where
  record : List Byte
  slow : Bool
  collect : Nat
  bc : Nat
  position : Nat
  appliedGen : Nat
  mismatch : Bool
  bcLong : Bool
  lastStatus : Nat
  lastStep : Nat
  stepAmax : Nat
  normClips : Nat
  refreshStep : Nat
  /-- FROM_STEP of each REFRESH, oldest first -/
  refreshes : List Nat
  steps : List UStep
  deriving DecidableEq, Repr

/-- A block that waits in staging: checked gradients as FP32 bits (R407 stage 5, R422). -/
structure Staged where
  group : Nat
  step : Nat
  first : Nat
  vals : List Nat
  zero : Bool
  inSram : Bool
  /-- the commit protocol parked it (R437) -/
  parked : Bool
  deriving DecidableEq, Repr

/-- A difference record in the journal (Table 17-5), and how its block is reached. -/
structure DiffRec where
  seq : Nat
  step : Nat
  group : Nat
  plane : Nat
  repair : Bool
  tensorId : Nat
  block : Nat
  addr : Nat
  ctx : Nat
  delta : List Byte
  committed : Bool
  deriving DecidableEq, Repr

structure UpdDie where
  groups : Tab UGroup
  staged : List Staged
  /-- in SEQ order -/
  journal : List DiffRec
  journalSize : Nat
  ringBase : Nat
  ringSize : Nat
  foreignBase : Nat
  foreignSize : Nat
  /-- tracked region digests of Tally, by (TENSOR_ID × 4 + plane) × 2^30 + region; unlisted: UNSET (R447) -/
  digests : Tab Nat
  /-- STEP of the last record that EXPORT_RELEASE has passed (R452) -/
  releasedStep : Option Nat
  deriving DecidableEq, Repr

def UpdDie.init : UpdDie := ⟨[], [], [], 0, 0, 0, 0, 0, [], none⟩

/-! ### Step commit (chapter 17) -/

/-- A decision (R432), and whether this module has applied it. -/
structure Decision where
  step : Nat
  commit : Bool
  span2 : Bool
  reasons : Nat
  frame : Nat
  applied : Bool
  deriving DecidableEq, Repr

/-- A pending swap of error-term buffers, and the terms of one buffer (R442). -/
structure Swap where
  step : Nat
  ctx : Nat
  handle : Nat
  terms : Nat
  deriving DecidableEq, Repr

/-- The exponents of the code spacings u of R64 in which the terms of one error-term buffer are expressed, by its context and
address; `none`: the quantisation that stored the term had no spacing (a non-finite block). -/
structure ErrUnits where
  ctx : Nat
  addr : Nat
  units : List (Option Int)
  deriving DecidableEq, Repr

structure StepSt where
  opened : Bool
  applyAhead : Bool
  oldest : Nat
  participants : Nat
  newParticipants : Option Nat
  lead : Nat
  timeout : Nat
  exportFlow : Nat
  last : Option Decision
  prev : Option Decision
  /-- the last step committed -/
  committed : Option Nat
  /-- steps for which context 0 has voted without DRIVER_SKIP -/
  votes : List Nat
  /-- own reasons, by step -/
  reasons : Tab Nat
  /-- the field that this frame's control slots carry (R431) -/
  field : ConsField
  /-- frame in which the vote for the oldest undecided step became clean or skip, and whether its stall is reported -/
  voteFrame : Option Nat
  reported : Bool
  stalled : Bool
  /-- an open evaluation window: its step and the pip it closes at (R453) -/
  window : Option (Nat × Nat)
  swaps : List Swap
  /-- the spacings of the error terms stored (R64) -/
  errUnits : List ErrUnits
  deriving DecidableEq, Repr

def StepSt.init : StepSt :=
  { opened := false, applyAhead := false, oldest := 0, participants := 0, newParticipants := none, lead := 0, timeout := 0,
    exportFlow := 0xFFFF, last := none, prev := none, committed := none, votes := [], reasons := [], field := ConsField.none, voteFrame := none,
    reported := false, stalled := false, window := none, swaps := [], errUnits := [] }

/-! ### Security (chapter 20) -/

structure SecSt where
  /-- the service the mailbox runs, and the RESULT of the last one -/
  running : Option Nat
  result : Nat
  errorState : Bool
  zeroised : Bool
  owner : Bool
  session : Bool
  /-- the owner challenge and the pip it expires at -/
  challenge : Option (List Byte × Nat)
  ownerSlots : List (List Byte)
  reports : Nat
  /-- draws of the DRBG so far -/
  draws : Nat
  /-- the 768 derived bytes of key sets 0 and 1 (R497), and the set in use -/
  ide0 : List Byte
  ide1 : List Byte
  ideSet : Nat
  /-- the policy bits came from a user setup image signed by the owner (R505) -/
  policySigned : Bool
  /-- the kill fuse was blown at the last cold reset (R504) -/
  dead : Bool
  deriving DecidableEq, Repr

def SecSt.init : SecSt :=
  { running := none, result := 0, errorState := false, zeroised := false, owner := false, session := false,
    challenge := none, ownerSlots := [], reports := 0, draws := 0, ide0 := [], ide1 := [], ideSet := 0, policySigned := false,
    dead := false }

/-! ### The module -/

structure State where
  /-- the commands waiting, first in first out -/
  pending : List Instr
  /-- registers that differ from their defaults, by BAR0 offset -/
  regs : Tab Nat
  time : TimeSt
  boot : BootSt
  power : PowerSt
  pcie : PcieSt
  ctxs : Tab Ctx
  dies : Tab Die
  cells : Tab Cell
  groups : Tab Group
  mem : MemSt
  cmds : List Cmd
  held : List HoldSet
  /-- update messages in flight -/
  msgs : List SyncMsg
  faults : FaultSt
  log : LogSt
  freeze : FreezeSt
  snap : SnapSt
  /-- tensor watches, by context × 16 + watch -/
  twatches : Tab TWatch
  /-- the latest step whose reduced gradient block has reached an updater (R257) -/
  gradStep : Option Nat
  fabric : FabricSt
  upd : Tab UpdDie
  step : StepSt
  sec : SecSt
  /-- free values drawn so far (log entry 1) -/
  freeCount : Nat
  deriving DecidableEq, Repr

/-! ### Reset -/

/-- Time at t0: fabric time 0, role FREE, unlocked (R334, R335, R339). -/
def TimeSt.init : TimeSt := ⟨0, 0, 0, .free, false, false, false, 0xFF, 0xFFFF, 0, [], false, 0, 0, 0, 0, 0, none, 0⟩

/-- The start of a cold sequence (R525): stage POWER, caused by power applied. -/
def BootSt.init : BootSt :=
  { stage := .power, failReason := 0, resetCause := 0, seqStart := 0, elapsed := 0, coldSeq := true, wasReady := false,
    recovery := false, firmwareOn := false, fromHost := false, setupInvalid := false, fwVersion := 0, fwFloor := 0,
    signedRequired := false, killed := false, flash := [], setupImage := [], flashWriting := none, flashTorn := false,
    running := [], serial := 0, selfTestsPassed := false, failedDies := [] }

def PowerSt.init : PowerSt :=
  { supplies := true, inputOk := true, modResetHigh := true, removed := false, stopped := false, point := 28, fwPoint := 28,
    caps := [], throttled := false, loopsHeld := false, drooping := [], stretching := false,
    stretchedEdges := 0, tempReports := [], silent := [], powerReports := 0, pwrGood := true, thermTrip := false }

def PcieSt.init : PcieSt := ⟨false, true, [], [], [], none, []⟩

def MemSt.init : MemSt :=
  { cells := [], host := [], seals := [], poison := [], retired := [], layout := ⟨47, 4⟩, keySlots := [], packageKey := 0,
    nextKey := 1, tokens := [], repaired := [], repairing := [] }

def FaultSt.init : FaultSt := ⟨0, 0, 8, 0, [], false, false, [], false⟩
def LogSt.init : LogSt := ⟨0, 0, 8, 0, []⟩
def FreezeSt.init : FreezeSt := ⟨none, none, none, false, false, false⟩
def SnapSt.init : SnapSt := ⟨false, none, none⟩

/-- The module at t0 of the cold sequence (R525, R526, R545): every register at its factory default, no memory listed. -/
def State.reset : State :=
  { pending := [], regs := [], time := TimeSt.init, boot := BootSt.init, power := PowerSt.init, pcie := PcieSt.init,
    ctxs := [], dies := [], cells := [], groups := [], mem := MemSt.init, cmds := [], held := [], msgs := [], faults := FaultSt.init,
    log := LogSt.init, freeze := FreezeSt.init, snap := SnapSt.init, twatches := [],
    gradStep := none,
    fabric := FabricSt.init, upd := [], step := StepSt.init, sec := SecSt.init,
    freeCount := 0 }

/-- Why a step could stop the machine: no step of this model does, so the type has no constructor. -/
inductive Fault where
  deriving DecidableEq, Repr

/-- Why a command has no meaning. -/
inductive Refusal where
  /-- Raised by the arms of Dispatch.lean for a row that has no meaning yet; safe. -/
  | notModelled (mnemonic : String)
  deriving DecidableEq, Repr

end Sys2Proof.Machine
end

