-- ==== Sys2Proof/Machine/Ops.lean ====
section
/-!
DEFINITION. Machine/Ops.lean: the operations every meaning is built from: registers, time, memory, MSI-X, fault and log
records, event counters, sync updates and watches, and the ending of a command.
-/
namespace Sys2Proof.Machine

/-! ### Registers -/

/-- The stored word of a register. -/
def State.rd (s : State) (r : Reg) : Nat := s.regs.getD r.addr r.dflt

/-- The stored word of a register replaced; a word equal to its default is not listed. -/
def State.wr (s : State) (r : Reg) (v : Nat) : State :=
  { s with regs := if v = r.dflt then s.regs.erase r.addr else s.regs.set r.addr v }

/-- Bits `hi` down to `lo` of a register. -/
def State.fld (s : State) (r : Reg) (hi lo : Nat) : Nat := bitsOf (s.rd r) hi lo

def State.setFld (s : State) (r : Reg) (hi lo x : Nat) : State := s.wr r (putBits (s.rd r) hi lo x)

/-- A 64-bit counter raised by `n`, modulo 2^64. -/
def State.bump (s : State) (r : Reg) (n : Nat) : State := s.wr r ((s.rd r + n) % 2 ^ 64)

def regDie0 (n : RegName) : Reg := ⟨n, 0, 0⟩
def regDie (n : RegName) (d : Nat) : Reg := ⟨n, d, 0⟩
def regCtx (n : RegName) (c : Nat) : Reg := ⟨n, c, 0⟩
def sqConfig (c q : Nat) : Reg := ⟨.sqConfig, c, q⟩
def cqConfig (c r : Nat) : Reg := ⟨.cqConfig, c, r⟩
/-- The owner register of bank 0–23, or of accumulator slot 24–31, of a physical cell. -/
def ownerReg (cell bank : Nat) : Reg :=
  if bank < 24 then ⟨.bankOwner, cell, bank⟩ else ⟨.accSlotOwner, cell, bank - 24⟩

/-! ### Time -/

def State.now (s : State) : Nat := s.time.pips.toNat
/-- The frame number of the present pip (R12). -/
def State.frame (s : State) : Nat := s.now / 1024
def State.ready (s : State) : Bool := s.boot.stage = .ready

/-! ### Parts of the state -/

def State.ctx (s : State) (c : Nat) : Ctx := s.ctxs.getD c Ctx.init
def State.updCtx (s : State) (c : Nat) (f : Ctx → Ctx) : State := { s with ctxs := s.ctxs.upd c Ctx.init f }
def State.die (s : State) (d : Nat) : Die := s.dies.getD d Die.init
def State.updDie (s : State) (d : Nat) (f : Die → Die) : State := { s with dies := s.dies.upd d Die.init f }
def State.cell (s : State) (c : Nat) : Cell := s.cells.getD c Cell.init
def State.updCell (s : State) (c : Nat) (f : Cell → Cell) : State := { s with cells := s.cells.upd c Cell.init f }
def State.queue (s : State) (c q : Nat) : QueueSt := (s.ctx c).queues.getD q QueueSt.init
def State.updQueue (s : State) (c q : Nat) (f : QueueSt → QueueSt) : State :=
  s.updCtx c fun x => { x with queues := x.queues.upd q QueueSt.init f }
def State.cq (s : State) (c r : Nat) : CqSt := (s.ctx c).cqs.getD r CqSt.init
def State.updCq (s : State) (c r : Nat) (f : CqSt → CqSt) : State :=
  s.updCtx c fun x => { x with cqs := x.cqs.upd r CqSt.init f }
def State.slot (s : State) (c i : Nat) : DescSlot := (s.ctx c).slots.getD i DescSlot.init
def State.updSlot (s : State) (c i : Nat) (f : DescSlot → DescSlot) : State :=
  s.updCtx c fun x => { x with slots := x.slots.upd i DescSlot.init f }
def State.lslot (s : State) (l : Nat) : LSlot := (s.die (l / 96)).slots.getD (l % 96) LSlot.init
def State.updLslot (s : State) (l : Nat) (f : LSlot → LSlot) : State :=
  s.updDie (l / 96) fun x => { x with slots := x.slots.upd (l % 96) LSlot.init f }

/-- The physical cell that fills a logical slot, as die × 104 + number. -/
def State.cellOf (s : State) (l : Nat) : Option Nat := (s.lslot l).phys.map fun p => l / 96 * 104 + p

def State.cmd? (s : State) (i : CmdId) : Option Cmd := s.cmds.find? fun c => c.id = i
def State.updCmd (s : State) (i : CmdId) (f : Cmd → Cmd) : State :=
  { s with cmds := s.cmds.map fun c => if c.id = i then f c else c }

/-- A free value, and the state with the counter behind it advanced (log entry 1). -/
def State.free (s : State) : Nat × State := (Config.freeValue s.freeCount, { s with freeCount := s.freeCount + 1 })

/-! ### Event counters (R474, R475) -/

/-- A unit of a die, by its UNIT_KIND, is in targeted self-test: it is quiesced and sends nothing (R459). -/
def State.underTest (s : State) (die kind : Nat) : Bool := s.faults.tests.any fun t => t.1.kind == kind && t.1.die == die

/-- The updater or Tally of a die works: the die is in service, and the unit is not under test (R287, R459). -/
def State.unitOn (s : State) (die kind : Nat) : Bool := (s.die die).inService && !s.underTest die kind

/-- `n` added to every enabled event counter of a die that selects the event. -/
def State.pmc (s : State) (die kind inst ev : Nat) (ctx : Option Nat) (n : Nat) : State :=
  if s.freeze.frozen then s
  else
    let base := (⟨.pmcSelect, die, 0⟩ : Reg).addr
    s.regs.foldl (fun t e =>
      let (k, v) := e
      if base ≤ k ∧ k < base + 512 ∧ bitsOf v 3 0 = kind ∧ bitsOf v 23 16 = ev ∧ bitOf v 31
          ∧ (bitsOf v 15 4 = inst ∨ bitsOf v 15 4 = 0xFFF)
          ∧ (!bitOf v 30 ∨ ctx = some (bitsOf v 29 24)) then
        t.bump ⟨.pmcValue, die, (k - base) / 8⟩ n
      else t) s

/-! ### Host memory -/

def State.hostRead (s : State) (a n : Nat) : List Byte := memRead s.mem.host a n
def State.hostWrite (s : State) (a : Nat) (bs : List Byte) : State :=
  { s with mem := { s.mem with host := memWrite s.mem.host a bs } }
/-- The host's own stores. -/
def State.hostStores (s : State) (l : HostStores) : State :=
  l.foldl (fun t c => t.hostWrite c.1 [c.2]) s

/-! ### MSI-X (R265, R266) -/

/-- The table entry of a vector: address, data, masked. The mask bit resets to 1 (log entry 5). -/
def State.vector (s : State) (v : Nat) : Nat × Nat × Bool := s.pcie.table.getD v (0, 0, true)

/-- A message of vector `v`, or its pending bit while it is masked. Nothing leaves while the link is down (R466). -/
def State.sendVector (s : State) (v : Nat) : State :=
  let (a, d, masked) := s.vector v
  if masked then { s with pcie := { s.pcie with pba := insertKey s.pcie.pba v } }
  else if s.pcie.linkUp then { s with pcie := { s.pcie with sent := (v, a, d) :: s.pcie.sent } }
  else s

/-- A message of ring `r` of context `c` begins a HOLDOFF interval, where none runs. -/
def State.startHoldoff (s : State) (c r : Nat) : State :=
  if (s.cq c r).holdoff = 0 ∨ (s.cq c r).holdoffRunning then s else s.updCq c r fun x => { x with holdoffRunning := true }

/-- A request for the vector of completion ring `r` of context `c`: sent, or merged into the running interval (R266). -/
def State.requestVector (s : State) (c r : Nat) : State :=
  let q := s.cq c r
  if q.holdoffRunning then s.updCq c r fun x => { x with merged := true }
  else
    (s.sendVector (c * 32 + r)).startHoldoff c r

/-! ### Fault records (R456–R458, Table 18-2) -/

/-- Error classes of Table 18-1. -/
inductive ErrClass where
  | dataLost | unit | slot | port | flow | consensus | die | module
  deriving DecidableEq, Repr

def ErrClass.code : ErrClass → Nat
  | .dataLost => 1 | .unit => 2 | .slot => 3 | .port => 4 | .flow => 5 | .consensus => 6 | .die => 7 | .module => 8

def noWhere : Nat := 0xFFFFFFFFFFFFFFFF

/-- WHERE of the command a unit was executing (Table 18-2). -/
def whereOf : Option CmdId → Nat
  | some i => i.seq % 2 ^ 52 + i.q % 64 * 2 ^ 52 + i.ctx % 64 * 2 ^ 58
  | none => noWhere

structure FaultRec where
  cls : ErrClass
  outcome : Nat
  unit : UnitId
  /-- global logical cell and incarnation, where the unit is a cell that fills a slot -/
  logical : Option (Nat × Nat)
  place : Nat
  deriving DecidableEq, Repr

/-- Write a fault record and request the vector of VECTOR_RING of context 0 (R457). With no ring set the record is lost
and SEQ still counts (R458). A record written freezes the event counters under ON_FAULT (R478). -/
def State.faultRecord (s : State) (f : FaultRec) : State :=
  let seq := s.faults.seq
  let s1 := { s with faults := { s.faults with seq := seq + 1 } }
  let s2 :=
    if s.faults.base = 0 ∨ !s.pcie.linkUp then s1
    else
      let w := s.faults.w
      let size := 2 ^ s.faults.log2
      let phase := if w / size % 2 = 0 then 128 else 0
      let unlocked := if s.time.locked then 0 else 64
      let (lg, inc) := f.logical.getD (0xFFFF, 0)
      let rec' := record 32 [(0, 8, seq), (8, 8, s.now), (16, 1, f.cls.code + f.outcome * 16 + unlocked + phase),
        (17, 1, f.unit.kind + f.unit.die * 16), (18, 2, f.unit.index), (20, 2, lg), (22, 1, inc), (24, 8, f.place)]
      let t := s1.hostWrite (s.faults.base + w % size * 32) rec'
      let t := { t with faults := { t.faults with w := w + 1 } }
      if f.cls.code ≥ 2 ∧ t.fld (regDie0 .freezeControl) 1 1 = 1 ∧ !t.freeze.frozen then
        { t with freeze := { t.freeze with nextAt := some ((t.freeze.nextAt).getD (t.now + 1)) } }
      else t
  s2.requestVector 0 (s.fld (regDie0 .faultControl) 5 1)

/-! ### The firmware log (R485) -/

/-- A record's PHASE and place in a ring of `2^log2` slots of `bytes` bytes at position `w` (R458). -/
def ringPut (s : State) (base log2 w bytes phaseByte : Nat) (r : List Byte) : State :=
  let size := 2 ^ log2
  let ph := if w / size % 2 = 0 then 128 else 0
  s.hostWrite (base + w % size * bytes)
    (r.take phaseByte ++ [BitVec.ofNat 8 (u8 r phaseByte + ph)] ++ r.drop (phaseByte + 1))

def State.logPut (s : State) (r : List Byte) : State :=
  if s.log.base = 0 then
    let held := s.log.held ++ [r]
    if held.length > 256 then
      ({ s with log := { s.log with held := held.drop 1 } }).bump (regDie0 .logDrops) 1
    else { s with log := { s.log with held := held } }
  else
    let t := ringPut s s.log.base s.log.log2 s.log.w 64 16 r
    { t with log := { t.log with w := t.log.w + 1 } }

/-- Log a trace point of Table 19-5. Its LEVEL is a free constant (log entry 7). -/
def State.logTrace (s : State) (die code arg0 arg1 : Nat) : State :=
  let cat := code / 256
  let level := Config.traceLevel code % 4
  let ctl := s.rd (regDie0 .logControl)
  if bitOf ctl cat ∧ bitsOf ctl 17 16 ≤ level then
    let unlocked := if s.time.locked then 0 else 8
    let r := record 64 [(0, 8, s.log.seq), (8, 8, s.now), (16, 1, die + unlocked), (17, 1, cat + level * 16),
      (18, 2, code), (24, 8, arg0), (32, 8, arg1)]
    ({ s with log := { s.log with seq := s.log.seq + 1 } }).logPut r
  else s

/-! ### Device memory -/

/-- Why an access fails. `wait` is no failure: the command waits there (R81). -/
inductive AccErr where
  | range
  | denied
  | ecc (word : Nat)
  | wait
  deriving DecidableEq, Repr

/-- Who accesses: the context whose key and banks are used, the command, and the memory partition of the allocation. -/
structure Acc where
  ctx : Nat
  id : Option CmdId
  part : Nat
  deriving DecidableEq, Repr

/-- The owner recorded for a bank: none, or a context. -/
def ownerOf (w : Nat) : Option Nat := if bitOf w 6 then some (bitsOf w 5 0) else none

/-- Whether a command of a context may use a bank (R79–R81). -/
def State.bankJudge (s : State) (x : Acc) (cell bank : Nat) : Option AccErr :=
  let owner := ownerOf (s.rd (ownerReg cell bank))
  match (s.cell cell).handovers.get? bank with
  | none => if owner = some x.ctx then none else some .denied
  | some h =>
    if !h.scrubbing ∧ h.prev = some x.ctx ∧ (x.id.any fun i => h.waitFor.contains i) then none
    else if owner = some x.ctx then some .wait
    else some .denied

/-- The page of HBM4 or GDDR7 that holds a page of the address map, by key / 4096: a spare once it is retired (R313). -/
def State.remapPage (s : State) (k : Nat) : Nat :=
  match s.mem.retired.get? k with
  | some (some j) => j
  | _ => k

/-- Where a place's contents lie: a retired page's in the reserved region of a stack (R294). -/
def State.held? (s : State) (p : Place) : Place :=
  let moved (k o : Nat) : Place :=
    if s.remapPage (k / 4096) = k / 4096 then p else .hbm (s.remapPage (k / 4096) / 2 ^ 24) (s.remapPage (k / 4096) % 2 ^ 24 * 4096 + o % 4096)
  match p with
  | .hbm k o => moved (hbmKey k o) o
  | .gddr k o => moved (gddrKey k o) o
  | _ => p

/-- The key under which a place's contents are kept. -/
def State.keyOf (s : State) (p : Place) : Option Nat :=
  match s.held? p with
  | .hbm k o => some (hbmKey k o)
  | .gddr k o => some (gddrKey k o)
  | .sram l o => (s.cellOf l).map fun c => cellKey c o
  | .commons d o => some (commonsKey d o)
  | .host _ => none
  | .unassigned => none

def Place.sealed : Place → Bool
  | .hbm _ _ => true
  | .gddr _ _ => true
  | _ => false

/-- The key of a context's memory key slot; 0 while it is empty. -/
def State.memKey (s : State) (c : Nat) : Nat := s.mem.keySlots.getD c 0

/-- Whether one byte may be reached, and where its content lies: a key of device memory (R72, R79, R287, R308, R313,
R560). -/
def State.reach (s : State) (x : Acc) (a : Nat) : Except AccErr (Place × Nat) :=
  let p := placeOf s.mem.layout a
  match p with
  | .unassigned => .error .range
  | .host h => .ok (p, h)
  | _ =>
    if !(s.die (p.die?.getD 0)).inService then .error .range
    else
      match s.keyOf p with
      | none => .error .range
      | some k =>
        let bad :=
          match p with
          | .sram l o =>
            match bankOfLocal o, s.cellOf l with
            | some b, some c => s.bankJudge x c b
            | _, _ => some .range
          | _ => if s.mem.retired.get? (k / 4096) = some none ∧ p.sealed then some (.ecc (a / 8 * 8)) else none
        match bad with
        | some e => .error e
        | none => .ok (p, k)

/-- The content of one byte of a sealed block as it decrypts for context `c` (R305, R307). -/
def State.unsealed (s : State) (key page k : Nat) : Byte :=
  match s.mem.seals.get? (k / 16) with
  | some sl =>
    if sl.key = key ∧ sl.page = page then memGet s.mem.cells k
    else Config.unrelated key page sl.key sl.page (memRead s.mem.cells (k / 16 * 16) 16) (k % 16)
  | none => Config.unrelated key page 0 0 [] (k % 16)

/-- One byte read. An uncorrectable word is an error of the access (R308). -/
def State.readByte (s : State) (x : Acc) (a : Nat) : Except AccErr Byte :=
  match s.reach x a with
  | .error e => .error e
  | .ok (p, k) =>
    match p with
    | .host h => .ok (memGet s.mem.host h)
    | _ =>
      if s.mem.poison.contains (k / 8) then .error (.ecc (a / 8 * 8))
      else if p.sealed then .ok (s.unsealed (s.memKey x.ctx) (a / 4096) k)
      else .ok (memGet s.mem.cells k)

def State.setCells (s : State) (k : Nat) (bs : List Byte) : State :=
  { s with mem := { s.mem with cells := memWrite s.mem.cells k bs } }
def State.setSeal (s : State) (b : Nat) (sl : Seal) : State :=
  { s with mem := { s.mem with seals := s.mem.seals.set b sl } }
def State.setPoison (s : State) (w : Nat) (bad : Bool) : State :=
  { s with mem := { s.mem with poison := if bad then insertKey s.mem.poison w else removeKey s.mem.poison w } }

/-- Bytes within one word of an SRAM or commons bank (R76): a partial write into an uncorrectable word leaves it. -/
def State.writeWord (s : State) (a k : Nat) (bs : List Byte) : State × Option AccErr :=
  if bs.length = 8 then ((s.setCells k bs).setPoison (k / 8) false, none)
  else if s.mem.poison.contains (k / 8) then (s, some (.ecc (a / 8 * 8)))
  else (s.setCells k bs, none)

/-- Bytes within one XTS block (R306): a partial write is a read-modify-write under the writer's key. -/
def State.writeBlock (s : State) (key a k : Nat) (bs : List Byte) : State × Option AccErr :=
  let b := k / 16
  let page := a / 4096
  if bs.length = 16 then
    ((((s.setCells k bs).setSeal b ⟨key, page⟩).setPoison (2 * b) false).setPoison (2 * b + 1) false, none)
  else if s.mem.poison.contains (2 * b) then (s, some (.ecc (a / 16 * 16)))
  else if s.mem.poison.contains (2 * b + 1) then (s, some (.ecc (a / 16 * 16 + 8)))
  else
    let old := (upTo 16).map fun i => s.unsealed key page (16 * b + i)
    let o := k % 16
    ((s.setCells (16 * b) (old.take o ++ bs ++ old.drop (o + bs.length))).setSeal b ⟨key, page⟩, none)

/-- Bytes that lie within one aligned run of 16, at a reachable address. -/
def State.writePiece (s : State) (x : Acc) (a : Nat) (bs : List Byte) : State × Option AccErr :=
  match s.reach x a with
  | .error e => (s, some e)
  | .ok (p, k) =>
    match p with
    | .host h => (s.hostWrite h bs, none)
    | _ =>
      if p.sealed then s.writeBlock (s.memKey x.ctx) a k bs
      else
        let n := 8 - a % 8
        let r := s.writeWord a k (bs.take n)
        if bs.length ≤ n then r
        else
          let r2 := r.1.writeWord (a + n) (k + n) (bs.drop n)
          (r2.1, if r.2.isSome then r.2 else r2.2)

/-- A run of bytes cut at multiples of 16; `fuel` bounds the pieces. -/
def cut16 : Nat → Nat → List Byte → List (Nat × List Byte)
  | 0, _, _ => []
  | fuel + 1, a, bs =>
    if bs.isEmpty then []
    else
      let n := 16 - a % 16
      (a, bs.take n) :: cut16 fuel (a + n) (bs.drop n)

/-- The pieces of a write, each on its own (R76, R306): the first error is kept, the other pieces are written. Only an
uncorrectable word is met there: `writeBytes` has found every piece reachable. -/
def State.writePieces (s : State) (x : Acc) : List (Nat × List Byte) → State × Option AccErr
  | [] => (s, none)
  | (a, bs) :: t =>
    let r := s.writePiece x a bs
    let r2 := r.1.writePieces x t
    (r2.1, if r.2.isSome then r.2 else r2.2)

/-- Why a write cannot be made at all: the first piece in a place that does not exist, or in a bank of another owner or
under handover (R72, R79, R81). -/
def State.unreachable (s : State) (x : Acc) (ps : List (Nat × List Byte)) : Option AccErr :=
  ps.findSome? fun p => match s.reach x p.1 with
    | .error (.ecc _) => none
    | .error e => some e
    | .ok _ => none

/-- A run of bytes written: none of it where a part of it cannot be reached (R79, R560). -/
def State.writeBytes (s : State) (x : Acc) (a : Nat) (bs : List Byte) : State × Option AccErr :=
  let ps := cut16 (bs.length / 16 + 2) a bs
  match s.unreachable x ps with
  | some e => (s, some e)
  | none => s.writePieces x ps

/-- A run of bytes read, or the first error. -/
def State.readBytes (s : State) (x : Acc) (a : Nat) : Nat → Except AccErr (List Byte)
  | 0 => .ok []
  | n + 1 =>
    match s.readByte x a with
    | .error e => .error e
    | .ok b =>
      match s.readBytes x (a + 1) n with
      | .error e => .error e
      | .ok bs => .ok (b :: bs)

/-- The word a run of reads meets first, if it cannot be corrected. -/
def AccErr.word? : AccErr → Option Nat
  | .ecc w => some w
  | _ => none

/-! ### Bandwidth regulators (R300–R303) -/

/-- The controller of a place on its die: 0 and 1 the HBM4 stacks, 2–4 the GDDR7 channels. -/
def Place.ctrl? : Place → Option Nat
  | .hbm k _ => some (k % 2)
  | .gddr k _ => some (2 + k % 3)
  | _ => none

/-- RATE in GB/s and BURST in bytes in force for a partition at a controller; a RATE of 0 is unregulated, and so is one
above the controller's bandwidth (2,048 and 144 GB/s). -/
def State.regulator (s : State) (die part ctrl : Nat) : Nat × Nat × Bool :=
  let w := s.rd ⟨if ctrl < 2 then .partHbm else .partGddr, die * 16 + part, 0⟩
  let rate := bitsOf w 11 0
  let burst := max 1 (bitsOf w 25 16) * 1024
  (if rate > (if ctrl < 2 then 2048 else 144) then 0 else rate, burst, bitOf w 31)

def tokenKey (die part ctrl : Nat) : Nat := (die * 16 + part) * 8 + ctrl

/-- An access of `n` bytes at a controller: counted, and taken from its bucket. One that finds the bucket short leaves once the
bucket holds its bytes and takes them all; under WORK_CONSERVING it leaves without a wait, since no other access stands at the
controller in the same row (R302); only the first has waited for tokens (log entry 8). -/
def State.charge (s : State) (ctx part : Nat) (p : Place) (n : Nat) (write : Bool) : State :=
  match p.die?, p.ctrl? with
  | some d, some c =>
    let (kind, inst) := if c < 2 then (9, c) else (10, c - 2)
    let s := s.bump ⟨if c < 2 then .partHbmBytes else .partGddrBytes, d * 16 + part, 0⟩ n
    let s := s.pmc d kind inst (if write then 2 else 1) (some ctx) n
    let (rate, burst, conserving) := s.regulator d part c
    if rate = 0 then s
    else
      let k := tokenKey d part c
      let have' := min burst (s.mem.tokens.getD k burst)
      if n ≤ have' then { s with mem := { s.mem with tokens := s.mem.tokens.set k (have' - n) } }
      else
        let s := { s with mem := { s.mem with tokens := s.mem.tokens.set k 0 } }
        if conserving then s else (s.bump ⟨.partThrottled, d * 16 + part, 0⟩ 1).pmc d kind inst 3 (some ctx) 1
  | _, _ => s

/-- The pages of a range, each charged at its controller. -/
def State.chargeRange (s : State) (ctx part : Nat) (write : Bool) : Nat → Nat → Nat → State
  | 0, _, _ => s
  | fuel + 1, a, n =>
    if n = 0 then s
    else
      let k := min n (4096 - a % 4096)
      (s.charge ctx part (s.held? (placeOf s.mem.layout a)) k write).chargeRange ctx part write fuel (a + k) (n - k)

/-! ### Allocations (R187, R565) -/

/-- Whether an allocation holds a whole range. -/
def Alloc.spans (x : Alloc) (a n : Nat) : Bool := x.base ≤ a && a + n ≤ x.base + x.size

/-- The partition of an allocation of a context that holds a whole range with the permissions asked for: index order decides
among several. -/
def State.allocJudge (s : State) (c a n : Nat) (read write : Bool) : Except AccErr Acc :=
  match (s.ctx c).allocs.vals.find? fun x => x.spans a n && (!read || x.read) && (!write || x.write) with
  | some x => .ok ⟨c, none, x.partition⟩
  | none => .error (if (s.ctx c).allocs.vals.any fun x => x.spans a n then .denied else .range)

/-- Access of the part itself to memory of a context, under the partition of the allocation that holds the range. -/
def State.accAt (s : State) (c a n : Nat) : Acc :=
  ⟨c, none, ((s.ctx c).allocs.vals.find? fun x => x.spans a n).elim 0 fun x => x.partition⟩

/-- Whether a record at a device address may be reached by a context, and under which partition (R565). -/
def State.addrJudge (s : State) (c a n : Nat) (read write : Bool) : Except AccErr Acc :=
  match placeOf s.mem.layout a with
  | .host _ => .ok ⟨c, none, 0⟩
  | _ => s.allocJudge c a n read write

/-! ### Sync (chapter 9) -/

/-- Parts of a counter reference (Table 9-1). -/
def refVid (r : Nat) : Nat := bitsOf r 11 0
def refGen (r : Nat) : Nat := bitsOf r 19 12
def refEnabled (r : Nat) : Bool := bitOf r 20

/-- The counter a reference names, if it is mapped with that generation (R226). -/
def State.counterOf (s : State) (c r : Nat) : Option (Nat × Nat) :=
  let m := (s.ctx c).counters.getD (refVid r) VMap.init
  if m.mapped ∧ m.gen = refGen r then some (m.die, m.phys) else none

/-- The barrier a reference names. -/
def State.barrierOf (s : State) (c r : Nat) : Option (Nat × Nat) :=
  let m := (s.ctx c).barriers.getD (bitsOf r 7 0) VMap.init
  if m.mapped ∧ m.gen = bitsOf r 15 8 then some (m.die, m.phys) else none

/-- `v` has reached `t` (R220). -/
def reachedTarget (v t : Nat) : Bool := decide ((v + 2 ^ 32 - t % 2 ^ 32) % 2 ^ 32 < 2 ^ 31)

/-- Evaluate every watch on a die against its counter's value (R229, R230). -/
def evalWatches (d : Die) : Die :=
  { d with watches := d.watches.mapVals fun _ w =>
      match d.counters.get? w.phys with
      | some c => if reachedTarget c.value w.target then { w with reached := true } else w
      | none => w }

/-- One addition to a counter, modulo 2^32 (R219); the watches are left for `evalWatches`. -/
def State.addRaw (s : State) (die phys n : Nat) : State :=
  (s.updDie die fun d =>
    match d.counters.get? phys with
    | some c => { d with counters := d.counters.set phys { c with value := (c.value + n) % 2 ^ 32 } }
    | none => d).pmc die 6 0 1 (((s.die die).counters.get? phys).map fun c => c.ctx) 1

/-- An addition and the evaluation of the watches in its CCLK. -/
def State.addCounter (s : State) (die phys n : Nat) : State := (s.addRaw die phys n).updDie die evalWatches

def State.staleDrop (s : State) (c : Nat) : State := s.bump (regCtx .staleDrops c) 1

/-- The quota of a context on a die (R232, Table 9-6). -/
def State.quota (s : State) (die c : Nat) : Nat := min 4096 (s.fld ⟨.syncWatchQuota, die, c⟩ 12 0)

/-- The least entry of a die not in use, if the context may take it. -/
def State.watchEntry (s : State) (die c : Nat) : Option Nat :=
  let d := s.die die
  if (d.watches.vals.filter fun w => w.ctx = c).length < s.quota die c ∧ d.watches.length < 4096 then
    firstIdx 4096 fun i => (d.watches.get? i).isNone
  else none

/-- Register a watch, or make it wait for an entry (R230, R232). -/
def State.registerWatch (s : State) (die : Nat) (w : Watch) (id : Option CmdId) : State :=
  match s.watchEntry die w.ctx with
  | some i => s.updDie die fun d => evalWatches { d with watches := d.watches.set i w }
  | none => (s.updDie die fun d => { d with waiting := d.waiting ++ [⟨w, id⟩] }).bump (regDie .syncWatchWaits die) 1

/-- A write that meets a bank under handover waits (R81). -/
def State.addWaiter (s : State) (w : Waiter) : State := { s with fabric := { s.fabric with waiters := s.fabric.waiters ++ [w] } }

/-- Send an update message into the package's sync network. -/
def State.sendMsg (s : State) (m : SyncMsg) : State := { s with msgs := s.msgs ++ [m] }

/-! ### Endings -/

/-- Status codes of Table 10-7. -/
inductive Status where
  | ok | descFormat | tensorRange | alignInner | formatCode | accumSaturated | tileCapacity | bufferCapacity
  | sparseGroupCount | sparseIndexRange | maskNotTransposable | maskGeneration | gatherIndexRange | destOverlap
  | barrierRunahead | slotAdmission | flowLost | cancelled | stepMismatch | stepSkipped | nonfiniteBlock | evalOverrun
  | deadlinePassed | eccUncorrectable | accessDenied | replayed | nonReplayable | aborted
  deriving DecidableEq, Repr

def Status.code : Status → Nat
  | .ok => 0x0000 | .descFormat => 0x0101 | .tensorRange => 0x0102 | .alignInner => 0x0103 | .formatCode => 0x0104
  | .accumSaturated => 0x0105 | .tileCapacity => 0x0201 | .bufferCapacity => 0x0202 | .sparseGroupCount => 0x0301
  | .sparseIndexRange => 0x0302 | .maskNotTransposable => 0x0303 | .maskGeneration => 0x0304
  | .gatherIndexRange => 0x0401 | .destOverlap => 0x0402 | .barrierRunahead => 0x0502 | .slotAdmission => 0x0601
  | .flowLost => 0x0602 | .cancelled => 0x0603 | .stepMismatch => 0x0701 | .stepSkipped => 0x0702
  | .nonfiniteBlock => 0x0703 | .evalOverrun => 0x0704 | .deadlinePassed => 0x0705 | .eccUncorrectable => 0x0801
  | .accessDenied => 0x0901 | .replayed => 0x0A01 | .nonReplayable => 0x0A02 | .aborted => 0x0A03

/-- Detail bytes 16–31 from four words (Table 10-5). -/
def detail4 (a b c d : Nat) : List Byte := leBytes 4 a ++ leBytes 4 b ++ leBytes 4 c ++ leBytes 4 d
def detail64 (a b : Nat) : List Byte := leBytes 8 a ++ leBytes 8 b

def Status.plain (st : Status) : Ending := ⟨st.code, 0, zeros 16⟩
def okAux (aux : Nat) : Ending := ⟨0, aux, zeros 16⟩

def noHandle : Nat := 0xFFFFFFFF

/-- A refusal that names a handle and a byte offset (Table 10-5). -/
def refusal (st : Status) (handle off : Nat) : Ending := ⟨st.code, 0, detail4 handle off 0 0⟩

/-- How an access error ends a command. What stands for `wait` is the ending of none: its status is no code of Table 10-7. -/
def AccErr.ending : AccErr → Ending
  | .range => refusal .tensorRange noHandle 0
  | .denied => refusal .accessDenied noHandle 0
  | .ecc w => ⟨Status.eccUncorrectable.code, 0, detail64 0 w⟩
  | .wait => ⟨0xFFFF, 0, []⟩

/-- Values latched at issue and at completion (Table 10-4). -/
def State.latches (s : State) (i : CmdId) : Latches :=
  ⟨s.time.cclk.toNat, s.now, s.rd ⟨.qcBytesRead, i.ctx, i.q⟩, s.rd ⟨.qcBytesWritten, i.ctx, i.q⟩, s.rd ⟨.qcMac, i.ctx, i.q⟩,
    s.rd ⟨.qcStall, i.ctx, i.q⟩⟩

/-- A command just taken from its queue. -/
def State.freshCmd (s : State) (id : CmdId) (desc : List Byte) : Cmd :=
  { id, desc, ending := none, start := s.latches id, unlocked := !s.time.locked, nonfinite := false, saturated := false,
    promoted := false, replayed := false, nonReplayable := false, cells := [], handles := [], outs := [], buffers := [], watches := [],
    records := [], scales := [], begun := false, cursor := 0, reoffered := [], done := [], taken := [], run := Run.init,
    rx := RxRun.init, lossSeq := none, awaits := [] }

/-- Fetched commands of a queue, not yet issued, complete with ABORTED (R267, R465). -/
def State.abortQueue (s : State) (c q : Nat) : State :=
  let fs := (s.queue c q).fetched
  let aborted := fs.map fun f => { s.freshCmd ⟨c, q, f.seq⟩ f.desc with ending := some Status.aborted.plain }
  if fs.isEmpty then s else { s.updQueue c q fun x => { x with fetched := [] } with cmds := s.cmds ++ aborted }

/-- Every fetched command, not yet issued, completes with ABORTED. -/
def State.abortAll (s : State) : State :=
  s.ctxs.foldl (fun t e => e.2.queues.foldl (fun t q => t.abortQueue e.1 q.1) t) s

/-- Give an issued command its ending; the first one stands. -/
def State.finish (s : State) (i : CmdId) (e : Ending) : State :=
  s.updCmd i fun c => match c.ending with | none => { c with ending := some e } | some _ => c

/-- End a command that did all it describes, with a value in AUX: OK, or REPLAYED where it ran again after a fault (R462). -/
def State.finishOkAux (s : State) (i : CmdId) (aux : Nat) : State :=
  s.updCmd i fun c => match c.ending with
    | none => { c with ending := some ⟨if c.replayed then Status.replayed.code else Status.ok.code, aux, zeros 16⟩ }
    | some _ => c
def State.finishOk (s : State) (i : CmdId) : State := s.finishOkAux i 0

/-- The queue counters of R471 raised by what a command did. -/
def State.qcount (s : State) (i : CmdId) (rd wr mac stall : Nat) : State :=
  let up (t : State) (n : RegName) (k : Nat) : State := if k = 0 then t else t.bump ⟨n, i.ctx, i.q⟩ k
  up (up (up (up s .qcBytesRead rd) .qcBytesWritten wr) .qcMac mac) .qcStall stall

/-- An uncorrectable word met in place `p`, at device address `a`: MEM_UE_LAST and MEM_UE_COUNT in HBM4 and GDDR7, and a fault record with
`place` in WHERE (R75, R308, R561). -/
def State.ueReportOf (s : State) (p : Place) (a place : Nat) : State :=
  let report (t : State) (kind die idx : Nat) : State := t.faultRecord ⟨.dataLost, 0, ⟨kind, die, idx⟩, none, place⟩
  let mem (d : Nat) : State := (s.wr (regDie .memUeLast d) (a % 2 ^ 52)).bump (regDie .memUeCount d) 1
  match p with
  | .hbm k _ => report (mem (k / 2)) 9 (k / 2) (k % 2)
  | .gddr k _ => report (mem (k / 3)) 10 (k / 3) (k % 3)
  | .commons d _ => report s 14 d 0
  | .sram l _ =>
    s.faultRecord ⟨.dataLost, 0, ⟨0, l / 96, (s.cellOf l).getD 0 % 104⟩, some (l, (s.lslot l).inc), place⟩
  | _ => s

def State.ueReportAt (s : State) (a place : Nat) : State := s.ueReportOf (s.held? (placeOf s.mem.layout a)) a place

def State.ueReport (s : State) (a : Nat) : State := s.ueReportAt a a

/-- End a command with an access error, reporting an uncorrectable word. -/
def State.failAcc (s : State) (i : CmdId) (e : AccErr) : State :=
  match e with
  | .wait => s
  | .ecc w => (s.ueReport w).finish i e.ending
  | _ => s.finish i e.ending

end Sys2Proof.Machine
end

