-- ==== Sys2Proof/Machine/Flags.lean ====
section
/-!
DEFINITION. Machine/Flags.lean: the flags a command raises: those of its completion record (Table 10-4) and the sticky
SATURATED bit of its context (R102). The block has no processor status flags.
-/
namespace Sys2Proof.Machine

/-- A saturating addition or conversion: the record's SATURATED and the context's CTX_ARITH_FLAGS (R102). -/
def State.flagSaturated (s : State) (id : CmdId) (b : Bool) : State :=
  if b then (s.updCmd id fun c => { c with saturated := true }).wr (regCtx .ctxArithFlags id.ctx) 1 else s

/-- The record's NONFINITE. -/
def State.flagNonfinite (s : State) (id : CmdId) (b : Bool) : State :=
  if b then s.updCmd id fun c => { c with nonfinite := true } else s

/-- The record's PROMOTED (R124). -/
def State.flagPromoted (s : State) (id : CmdId) : State := s.updCmd id fun c => { c with promoted := true }

/-- Byte 2 of the completion record with PHASE clear; TIME_UNLOCKED also counts the lock at its end. -/
def Cmd.recordFlags (c : Cmd) (locked : Bool) : Nat :=
  2 * b2n c.nonfinite + 4 * b2n c.saturated + 8 * b2n c.promoted + 16 * b2n (c.unlocked || !locked)

end Sys2Proof.Machine
end

