-- ==== Sys2Proof/Machine/Operands.lean ====
section
/-!
DEFINITION. Machine/Operands.lean: the operands of commands: descriptor headers and bodies (Table 10-3), reserved fields
and the offsets that details report (R22, R558), tensor descriptors (Tables 8-3 and 8-5) with the places of their rows,
and pointer lists (Table 4-3).
-/
namespace Sys2Proof.Machine

/-! ### Headers -/

def hOpcode (d : List Byte) : Nat := u16 d 0
def isOpcode (code : Nat) (d : List Byte) : Bool := hOpcode d == code
def hInterrupt (d : List Byte) : Bool := bitOf (u16 d 2) 0
def hFence (d : List Byte) : Bool := bitOf (u16 d 2) 1
/-- 0 none, 1 NOT_BEFORE, 2 DEADLINE, 3 reserved. -/
def hWhenKind (d : List Byte) : Nat := bitsOf (u16 d 2) 3 2
def hWaitRef (d : List Byte) (k : Nat) : Nat := u32 d (4 + 8 * k)
def hWaitTarget (d : List Byte) (k : Nat) : Nat := u32 d (8 + 8 * k)
def hSignalRef (d : List Byte) : Nat := u32 d 20
def hSignalAdd (d : List Byte) : Nat := u32 d 24
def hWhen (d : List Byte) : Nat := u32 d 28

/-- The deadline of a command, if it has one (R257). -/
def deadlineOf (d : List Byte) : Option Nat := if hWhenKind d = 2 then some (hWhen d) else none

/-! ### Fields and reserved fields -/

/-- A field of a record: byte offset, and bits `hi` to `lo` counted from there. -/
structure Span where
  off : Nat
  hi : Nat
  lo : Nat
  deriving DecidableEq, Repr

/-- Whole bytes `off` to `off + n - 1`; no bit where `n` is 0. -/
def bytesSpan (off n : Nat) : Span := ⟨off, 8 * n - 1, if n = 0 then 1 else 0⟩

def Span.mask (p : Span) : Nat := (2 ^ (p.hi + 1) - 2 ^ p.lo) <<< (8 * p.off)

/-- The least byte that holds a bit set outside every span (R22, R558). -/
def rsvdOff (spans : List Span) (bs : List Byte) : Option Nat :=
  let x := leValue bs
  let y := x - (x &&& spans.foldl (fun m p => m ||| p.mask) 0)
  if y = 0 then none else firstIdx bs.length fun i => (y >>> (8 * i)) % 256 != 0

/-- The spans of the common header of Table 10-3, counter references as in Table 9-1. -/
def headerSpans : List Span :=
  [bytesSpan 0 2, ⟨2, 3, 0⟩, ⟨4, 20, 0⟩, bytesSpan 8 4, ⟨12, 20, 0⟩, bytesSpan 16 4, ⟨20, 20, 0⟩, bytesSpan 24 8]

/-- A breach found by a check: its status, the handle concerned, the offset of the field and the rest of the detail. -/
structure Viol where
  status : Status
  handle : Nat
  off : Nat
  tail : Nat
  /-- breaches of a lower rank are reported first -/
  rank : Nat
  /-- which of what the check reads holds the field: 0 the descriptor, else a record -/
  place : Nat
  deriving DecidableEq, Repr

/-- Ranks among breaches of one command (log entry 10): malformed fields, then alignment, range and the unnamed rest of
R566, then the others. -/
def Status.rank : Status → Nat
  | .descFormat => 0
  | .alignInner => 1
  | .tensorRange => 2
  | .accessDenied => 3
  | _ => 4

def viol (st : Status) (h off : Nat) : Viol := ⟨st, h, off, 0, st.rank, 0⟩
def formatViol (off : Nat) : Viol := viol .descFormat noHandle off
/-- A breach that R566 leaves to DESC_FORMAT once alignment and range are in order. -/
def restViol (off : Nat) : Viol := ⟨.descFormat, noHandle, off, 0, 3, 0⟩
/-- A breach in record `k` and not in the descriptor. -/
def Viol.inRec (k : Nat) (v : Viol) : Viol := { v with place := k }
def violIf (c : Bool) (v : Viol) : List Viol := if c then [v] else []

/-- The first breach by an order. -/
def firstBy (lt : Viol → Viol → Bool) : List Viol → Option Viol
  | [] => none
  | v :: t =>
    match firstBy lt t with
    | none => some v
    | some w => if lt w v then some w else some v

/-- The statuses whose detail names the byte of the first field at fault. -/
def Viol.located (v : Viol) : Bool := decide (v.status.rank ≤ 3)

/-- The breach reported among several. The status is that of the lowest rank; the byte, with the handle concerned there, is the
lowest at fault in the same descriptor or record, whichever check found it (R558, log entry 10). -/
def worst (vs : List Viol) : Option Viol :=
  (firstBy (fun w v => decide (w.rank < v.rank ∨ (w.rank = v.rank ∧ w.off < v.off))) vs).map fun v =>
    if v.located then
      match firstBy (fun a b => decide (a.off < b.off)) (vs.filter fun w => w.located && w.place == v.place) with
      | some w => { v with off := w.off, handle := w.handle }
      | none => v
    else v

def Viol.ending (v : Viol) : Ending := ⟨v.status.code, 0, leBytes 4 v.handle ++ leBytes 4 v.off ++ leBytes 8 v.tail⟩

/-- Reserved bits of a command whose body has the given spans. -/
def bodyViols (d : List Byte) (body : List Span) : List Viol :=
  match rsvdOff (headerSpans ++ body) d with
  | some o => [formatViol o]
  | none => []

/-! ### Tensors -/

/-- A tensor as its descriptor record and extension record give it. -/
structure Tens where
  handle : Nat
  fmt : Fmt
  rank : Nat
  raw : Bool
  sparseN : Nat
  scaleMode : Nat
  signed : Bool
  promote : Bool
  distributed : Bool
  tensorId : Nat
  alloc : Nat
  scaleBits : Nat
  extent : List Nat
  pad : List Nat
  stride : List Nat
  base : Nat
  aux : Nat
  maskHandle : Nat
  padValue : Nat
  history : Nat
  promoMap : Nat
  shadow : Nat
  shadowScale : Nat
  globalExtent : Nat
  globalOffset : Nat
  distAxis : Nat
  selfOverlap : Bool
  deriving DecidableEq, Repr

/-- A tensor from its 128-byte record and its extension record (Tables 8-3, 8-5). `stride` holds a 0 for dimension 0. -/
def tensOf (handle : Nat) (r ext : List Byte) (selfOverlap : Bool) : Tens :=
  let w0 := u8 r 0
  let w1 := u8 r 1
  { handle, fmt := (Fmt.ofCode (bitsOf w0 3 0)).getD .fp32, rank := bitsOf w0 6 4, raw := bitOf w0 7,
    sparseN := bitsOf w1 3 0, scaleMode := bitsOf w1 5 4, signed := bitOf w1 6, promote := bitOf (u8 r 2) 0,
    distributed := bitOf (u8 r 2) 1, tensorId := u32 r 4, alloc := u16 r 8, scaleBits := u32 r 12,
    extent := (upTo 5).map fun d => u32 r (16 + 4 * d), pad := (upTo 5).map fun d => u16 r (36 + 2 * d),
    stride := 0 :: (upTo 4).map fun d => u64 r (48 + 8 * d), base := u64 r 80, aux := u64 r 88, maskHandle := u32 r 104,
    padValue := u32 r 108, history := u64 ext 0, promoMap := u64 ext 8, shadow := u64 ext 16, shadowScale := u64 ext 24,
    globalExtent := u64 ext 32, globalOffset := u64 ext 40, distAxis := bitsOf (u8 ext 56) 2 0, selfOverlap }

def Tens.ext (t : Tens) (d : Nat) : Nat := t.extent.getD d 0
/-- The logical extent of a dimension: EXTENT + PAD; 1 at and above RANK. -/
def Tens.log (t : Tens) (d : Nat) : Nat := if d < t.rank then t.ext d + t.pad.getD d 0 else 1
def Tens.shape (t : Tens) : List Nat := (upTo 5).map t.log
def Tens.elems (t : Tens) : Nat := t.shape.foldl (· * ·) 1
/-- Rows: the outer dimensions flattened (R94). -/
def Tens.rows (t : Tens) : Nat := (t.shape.drop 1).foldl (· * ·) 1
def Tens.cols (t : Tens) : Nat := t.log 0

/-- Row alignment (Table 8-4). -/
def Tens.rowAlign (t : Tens) : Nat := if t.sparseN ≠ 0 then 64 else if t.fmt = .mxfp8 then 32 else 16

/-- The coordinates of row `r` in the outer dimensions, dimension 1 fastest. -/
def Tens.outer (t : Tens) (r : Nat) : List Nat :=
  let l1 := t.log 1
  let l2 := t.log 2
  let l3 := t.log 3
  [r % l1, r / l1 % l2, r / (l1 * l2) % l3, r / (l1 * l2 * l3)]

/-- Whether outer coordinates lie within the extent. -/
def Tens.outerIn (t : Tens) (cs : List Nat) : Bool :=
  (upTo 4).all fun k => k + 1 ≥ t.rank || cs.getD k 0 < t.ext (k + 1)

def Tens.rowOffset (t : Tens) (cs : List Nat) : Nat :=
  (upTo 4).foldl (fun a k => a + cs.getD k 0 * t.stride.getD (k + 1) 0) 0

/-- Byte address of block `b` of the row at outer coordinates `cs`, the planes moved by `off` (R563). -/
def Tens.blockAddr (t : Tens) (off : Nat) (cs : List Nat) (b : Nat) : Nat :=
  t.base + off + t.rowOffset cs + b * t.fmt.blockBytes

/-- Address of its scale byte, for MXFP8 and MXFP4 (R192, R563). -/
def Tens.scaleAddr (t : Tens) (off : Nat) (cs : List Nat) (b : Nat) : Nat :=
  let bb := t.fmt.blockBytes
  t.aux + off / bb + (upTo 4).foldl (fun a k => a + cs.getD k 0 * (t.stride.getD (k + 1) 0 / bb)) 0 + b

/-- The linear index of an element (R53, R211): row-major over the logical, or the global, shape. -/
def Tens.linear (t : Tens) (cs : List Nat) (i0 : Nat) : Nat :=
  let coord (d : Nat) : Nat :=
    let c := if d = 0 then i0 else cs.getD (d - 1) 0
    if t.distributed ∧ d = t.distAxis then c + t.globalOffset else c
  let size (d : Nat) : Nat := if t.distributed ∧ d = t.distAxis then t.globalExtent else t.log d
  (((coord 4 * size 3 + coord 3) * size 2 + coord 2) * size 1 + coord 1) * size 0 + coord 0

/-! ### N:8 storage tiles (R130, Table 5-3) -/

/-- Bytes of one format's codes for `n` elements, without block scales. -/
def codeBytes (f : Fmt) (n : Nat) : Nat :=
  match f with
  | .int4 => n / 2
  | .mxfp4 => n / 2
  | .eb4 => n / 2
  | .bf16 => 2 * n
  | .fp16 => 2 * n
  | _ => n

/-- Scale bytes of a tile of 16 × 256 (Table 5-2). -/
def tileScaleBytes (f : Fmt) : Nat := if f.isMX then 128 else if f = .eb4 then 512 else 0
def tileDense (f : Fmt) : Nat := 16 + codeBytes f 4096 + tileScaleBytes f
def tileCompressed (f : Fmt) (n : Nat) : Nat := 16 + 512 + codeBytes f (512 * n) + tileScaleBytes f
/-- A tile is stored DENSE when its compressed size would be at least its dense size (R134). -/
def storedDense (f : Fmt) (n : Nat) : Bool := tileDense f ≤ tileCompressed f n

def Tens.tileCols (t : Tens) : Nat := ceilDiv (t.log 0) 256
def Tens.tileRows (t : Tens) : Nat := ceilDiv t.rows 16
/-- Address of storage tile (r, c) in buffer `g & 1` (R129, R130). -/
def Tens.tileAddr (t : Tens) (off g r c : Nat) : Nat :=
  (if g % 2 = 0 then t.base else t.aux) + off + (r * t.tileCols + c) * tileDense t.fmt

/-! ### Footprints -/

/-- A run of bytes. -/
abbrev Rng := Nat × Nat

def Rng.meets (a b : Rng) : Bool := a.1 < b.1 + b.2 && b.1 < a.1 + a.2 && a.2 != 0 && b.2 != 0

/-- Bytes of one stored innermost row in the element plane (Table 8-4). -/
def Tens.rowBytes (t : Tens) : Nat := t.fmt.rowBytes t.cols

/-- The outer coordinates of every row of a box of rows. -/
def Tens.rowBox (t : Tens) : List (List Nat) := (upTo t.rows).map t.outer

/-- The runs of bytes that a tensor's logical shape reaches, the planes moved by `off`, by row: element plane and scale
plane, both buffers under N:8, the range under RAW (R192). -/
def Tens.ranges (t : Tens) (off : Nat) : List Rng :=
  if t.raw then [(t.base + off, t.ext 0)]
  else if t.sparseN ≠ 0 then
    let n := t.tileRows * t.tileCols * tileDense t.fmt
    [(t.base + off, n), (t.aux + off, n)]
  else
    t.rowBox.map (fun cs => (t.blockAddr off cs 0, t.rowBytes))
      ++ (if t.fmt.isMX then t.rowBox.map fun cs => (t.scaleAddr off cs 0, ceilDiv t.cols 32) else [])

/-- Lowest and one past the highest byte reached over the logical shape in each plane, without listing rows. -/
def Tens.hull (t : Tens) (off : Nat) : List Rng :=
  if t.raw ∨ t.sparseN ≠ 0 then t.ranges off
  else
    let last := (upTo 4).map fun k => t.log (k + 1) - 1
    let e := t.blockAddr off last 0 + t.rowBytes
    (t.base + off, e - (t.base + off))
      :: (if t.fmt.isMX then
            let e2 := t.scaleAddr off last 0 + ceilDiv t.cols 32
            [(t.scaleAddr off [] 0, e2 - t.scaleAddr off [] 0)]
          else [])

def rangesMeet (a b : List Rng) : Bool := a.any fun x => b.any fun y => x.meets y

/-- The tensor with one EXTENT replaced and no pad there (R201). -/
def Tens.withExtent (t : Tens) (d m : Nat) : Tens :=
  { t with extent := t.extent.set d m, pad := t.pad.set d 0 }

/-- The tensor with one logical extent replaced: what lies at or beyond its EXTENT stays padding (R94). -/
def Tens.withLogical (t : Tens) (d m : Nat) : Tens :=
  { t with extent := t.extent.set d (min (t.ext d) m), pad := t.pad.set d (m - t.ext d) }

/-- The outermost dimension. -/
def Tens.outermost (t : Tens) : Nat := t.rank - 1

/-! ### Handles -/

def handleSlot (h : Nat) : Nat := bitsOf h 23 0
def handleGen (h : Nat) : Nat := bitsOf h 31 24

/-- The tensor a handle names, if its slot is valid and of its generation (R182, R184, R186). -/
def State.tens? (s : State) (c h : Nat) : Option Tens :=
  if handleSlot h < 16384 then
    let d := s.slot c (handleSlot h)
    if d.valid ∧ d.gen = handleGen h then some (tensOf h d.record d.ext d.selfOverlap) else none
  else none

/-- The tensor a command in flight names: a slot being destroyed keeps its record (R185). -/
def State.tensRun (s : State) (c h : Nat) : Option Tens :=
  let d := s.slot c (handleSlot h)
  if d.gen = handleGen h ∧ !d.record.isEmpty then some (tensOf h d.record d.ext d.selfOverlap) else none

/-- The allocation of a descriptor. It stands while the descriptor is valid; the commands that still name a slot being destroyed
go on under the one it had (R187). -/
def State.allocOf (s : State) (c : Nat) (t : Tens) : Alloc :=
  let d := s.slot c (handleSlot t.handle)
  (if d.gen = handleGen t.handle then d.frozen else none).getD ((s.ctx c).allocs.getD t.alloc ⟨0, 0, false, false, 0⟩)

/-- How a command uses a tensor. -/
structure HUse where
  handle : Nat
  /-- offset of the field that names it, in the record that holds it -/
  off : Nat
  optional : Bool
  raw : Bool
  reads : Bool
  writes : Bool
  deriving DecidableEq, Repr

def useIn (h off : Nat) : HUse := ⟨h, off, false, false, true, false⟩
def useOut (h off : Nat) : HUse := ⟨h, off, false, false, false, true⟩
def useRaw (h off : Nat) (optional : Bool) : HUse := ⟨h, off, optional, true, true, false⟩
def HUse.opt (u : HUse) : HUse := { u with optional := true }

def HUse.absent (u : HUse) : Bool := u.optional && u.handle == noHandle

/-- Checks of one named tensor at issue: stale handle (R186), RAW or not (R568), permission (R188), SELF_OVERLAP (R193). -/
def State.useViols (s : State) (c : Nat) (u : HUse) : List Viol :=
  if u.absent then []
  else
    match s.tens? c u.handle with
    | none => [viol .descFormat u.handle u.off]
    | some t =>
      let a := s.allocOf c t
      violIf (t.raw != u.raw) (viol .descFormat u.handle u.off)
        ++ violIf ((u.reads && !a.read) || (u.writes && !a.write)) (viol .accessDenied u.handle u.off)
        ++ violIf (u.writes && t.selfOverlap) (viol .destOverlap u.handle 0)

/-- Whether a command names a stale handle (STALE_DROPS, R186). -/
def State.staleUse (s : State) (c : Nat) (us : List HUse) : Bool :=
  us.any fun u => u.handle != noHandle && (s.tens? c u.handle).isNone

/-- Ownership as judged at issue over runs of bytes (R79): the first bank of another owner, or of none, refuses. -/
def State.gate (s : State) (x : Acc) (rs : List Rng) : Bool :=
  rs.any fun r =>
    (upTo (r.2 / 65536 + 2)).any fun k =>
      let a := if k = 0 then r.1 else r.1 / 65536 * 65536 + 65536 * k
      if a ≥ r.1 + r.2 then false
      else
        match s.reach x a with
        | .error .denied => true
        | _ => false

/-- The refusal of the first tensor a bank of which refuses: its handle, the offset of the field that names it, its runs. -/
def State.gateEnding (s : State) (x : Acc) (ts : List (Nat × Nat × List Rng)) : Option Ending :=
  (ts.find? fun t => s.gate x t.2.2).map fun t => refusal .accessDenied t.1 t.2.1

/-- The bytes of each named tensor, with its handle and the field that names it. -/
def State.usedRanges (s : State) (c : Nat) (us : List HUse) : List (Nat × Nat × List Rng) :=
  us.filterMap fun u => if u.absent then none else (s.tens? c u.handle).map fun t => (u.handle, u.off, t.ranges 0)

/-- Whether runs of bytes lie in an allocation. -/
def Alloc.holds (a : Alloc) (rs : List Rng) : Bool := rs.all fun r => a.base ≤ r.1 && r.1 + r.2 ≤ a.base + a.size

/-- Free bytes over runs of a destination whose contents a rule leaves undefined (log entry 1). -/
def State.undefined (s : State) (x : Acc) (rs : List Rng) : State :=
  rs.foldl (fun t r =>
    (({ t with freeCount := t.freeCount + r.2 }).writeBytes x r.1
      ((upTo r.2).map fun i => BitVec.ofNat 8 (Config.freeValue (t.freeCount + i)))).1) s

/-- What the checks at issue find: a refusal, the handles the command names, the records it copies (R565), and whether
it is non-replayable. -/
structure Verdict where
  ending : Option Ending
  uses : List HUse
  records : Tab (List Byte)
  nonReplayable : Bool
  deriving DecidableEq, Repr

def Verdict.of (vs : List Viol) (uses : List HUse) : Verdict := ⟨(worst vs).map Viol.ending, uses, [], false⟩

/-- The breach of a field at `off` whose range does not lie in one allocation of context `c`, or lacks a permission. -/
def reachOf (off : Nat) : Except AccErr Acc → List Viol
  | .ok _ => []
  | .error .range => [viol .tensorRange noHandle off]
  | .error _ => [viol .accessDenied noHandle off]

/-- A range that must lie in an allocation, host memory included. -/
def State.allocReach (s : State) (c a n off : Nat) (read write : Bool) : List Viol := reachOf off (s.allocJudge c a n read write)

/-- A range reached by device address (R565). -/
def State.addrReach (s : State) (c a n off : Nat) (read write : Bool) : List Viol := reachOf off (s.addrJudge c a n read write)

/-- A record of `n` bytes that a command reads at issue by device address, aligned to `al`; `off` is the offset of the field
that names it (R565, R566): breaches, its bytes, and an uncorrectable word, or a bank under handover (R81). -/
def State.recordAt (s : State) (id : CmdId) (a n al off : Nat) : List Viol × List Byte × Option AccErr :=
  if a % al ≠ 0 then ([viol .alignInner noHandle off], [], none)
  else
    match s.addrJudge id.ctx a n true false with
    | .error .range => ([viol .tensorRange noHandle off], [], none)
    | .error _ => ([viol .accessDenied noHandle off], [], none)
    | .ok x =>
      match s.readBytes { x with id := some id } a n with
      | .ok bs => ([], bs, none)
      | .error .range => ([viol .tensorRange noHandle off], [], none)
      | .error .denied => ([viol .accessDenied noHandle off], [], none)
      | .error e => ([], [], some e)

/-- A verdict over breaches, then over an uncorrectable word met while reading a record. -/
def Verdict.ofRead (vs : List Viol) (err : Option AccErr) (uses : List HUse) (recs : Tab (List Byte)) : Verdict :=
  match worst vs, err with
  | some v, _ => ⟨some v.ending, uses, [], false⟩
  | none, some e => ⟨some e.ending, uses, [], false⟩
  | none, none => ⟨none, uses, recs, false⟩

/-! ### Pointer lists (Table 4-3) -/

structure PEntry where
  left : Nat
  right : Nat
  out : Nat
  m : Nat
  vec : Nat
  deriving DecidableEq, Repr

def pEntry (bs : List Byte) : PEntry := ⟨u64 bs 0, u64 bs 8, u64 bs 16, u32 bs 24, u32 bs 28⟩

/-- The entries in the bytes of a pointer list. -/
def pEntries (bs : List Byte) : List PEntry := (upTo (bs.length / 32)).map fun i => pEntry (sliceB bs (32 * i) 32)

end Sys2Proof.Machine
end

