-- ==== Sys2Proof/Machine/Tensor.lean ====
section
/-!
DEFINITION. Machine/Tensor.lean: reading and writing tensors in memory: rows of dense tensors with their padding (R196,
R197), format checks (R47), amax history records (R58–R63, R567), and the counting of what a command moves.
-/
namespace Sys2Proof.Machine

/-- Who accesses a tensor of a command: its context, itself, and the partition of the tensor's allocation. -/
def State.accOf (s : State) (id : CmdId) (t : Tens) : Acc := ⟨id.ctx, some id, (s.allocOf id.ctx t).partition⟩

/-- The first finding of a reader over a list, which looks no further than it, or than the first error. -/
def findE {α β : Type} (f : α → Except AccErr (Option β)) : List α → Except AccErr (Option β)
  | [] => .ok none
  | a :: t =>
    match f a with
    | .ok none => findE f t
    | r => r

/-- Run a reader over a list, stopping at the first error. -/
def mapE {α β : Type} (f : α → Except AccErr β) : List α → Except AccErr (List β)
  | [] => .ok []
  | a :: t =>
    match f a with
    | .error e => .error e
    | .ok b =>
      match mapE f t with
      | .error e => .error e
      | .ok bs => .ok (b :: bs)

/-- Whether values are taken exactly, as array products take them, or decoded to FP32. -/
inductive Take where
  | exact | fp32
  deriving DecidableEq, Repr

def Tens.padVal (t : Tens) : FVal := ofBits32 t.padValue

/-- One block of a dense tensor. -/
def State.readBlock (s : State) (x : Acc) (tk : Take) (t : Tens) (sT : FVal) (off : Nat) (cs : List Nat) (b : Nat) :
    Except AccErr (List FVal) :=
  match s.readBytes x (t.blockAddr off cs b) t.fmt.blockBytes with
  | .error e => .error e
  | .ok bs =>
    let dec (e : Nat) : List FVal :=
      match tk with
      | .exact => decodeExact t.fmt sT bs e
      | .fp32 => decodeBlock t.fmt sT bs e
    if t.fmt.isMX then
      match s.readByte x (t.scaleAddr off cs b) with
      | .error e => .error e
      | .ok e => .ok (dec e.toNat)
    else .ok (dec 0)

/-- A whole innermost row over the logical shape: padded positions read PAD_VALUE and touch no memory (R196). -/
def State.readRow (s : State) (x : Acc) (tk : Take) (t : Tens) (sT : FVal) (off : Nat) (cs : List Nat) :
    Except AccErr (List FVal) :=
  if !t.outerIn cs then .ok (List.replicate t.cols t.padVal)
  else
    match mapE (s.readBlock x tk t sT off cs) (upTo (ceilDiv (t.ext 0) t.fmt.block)) with
    | .error e => .error e
    | .ok bs => .ok (bs.flatten.take (t.ext 0) ++ List.replicate (t.cols - t.ext 0) t.padVal)

/-- The place of a granule's promotion bit and of row `r` in the shadow planes (R195). -/
def Tens.granule (t : Tens) (r g : Nat) : Nat := (r / 16) * ceilDiv t.cols 64 + g
def Tens.shadowRow (t : Tens) (r : Nat) : Nat := t.shadow + r * ((32 * ceilDiv t.cols 32 + 63) / 64 * 64)
def Tens.shadowScaleRow (t : Tens) (r : Nat) : Nat := t.shadowScale + r * ceilDiv t.cols 32

/-- Whether granule `g` of row `r` is promoted. -/
def State.promotedAt (s : State) (x : Acc) (t : Tens) (r g : Nat) : Except AccErr Bool :=
  if !t.promote then .ok false
  else
    let k := t.granule r g
    match s.readByte x (t.promoMap + k / 8) with
    | .error e => .error e
    | .ok b => .ok (bitOf b.toNat (k % 8))

/-- The 64 elements of one granule of a row, from the shadow planes as MXFP8 (R125). -/
def State.readShadow (s : State) (x : Acc) (t : Tens) (r g : Nat) : Except AccErr (List FVal) :=
  let half (k : Nat) : Except AccErr (List FVal) :=
    let b := 2 * g + k
    if b ≥ ceilDiv t.cols 32 then .ok []
    else
      match s.readBytes x (t.shadowRow r + 32 * b) 32, s.readByte x (t.shadowScaleRow r + b) with
      | .ok bs, .ok e => .ok (decodeExact .mxfp8 .one bs e.toNat)
      | .error e, _ => .error e
      | _, .error e => .error e
  match half 0, half 1 with
  | .ok a, .ok b => .ok (a ++ b)
  | .error e, _ => .error e
  | _, .error e => .error e

/-- Which row of the descriptor's own numbering the first row of an entry is, for the promotion map (log entry 11). -/
def Tens.rowShift (t : Tens) (off : Nat) : Nat :=
  let p := t.stride.getD 1 0
  if t.sparseN ≠ 0 then off / (t.tileCols * tileDense t.fmt) * 16 else if p = 0 then 0 else off / p

/-- A row's values with those of its promoted granules taken from the shadow planes; and which granules those are (R125). A row
of the padded tail is PAD_VALUE throughout (R196). -/
def State.overlayShadow (s : State) (x : Acc) (t : Tens) (off r : Nat) (xs : List FVal) : Except AccErr (List FVal × List Nat) :=
  if !t.promote ∨ !t.outerIn (t.outer r) then .ok (xs, [])
  else
    let rr := r + t.rowShift off
    let one (g : Nat) : Except AccErr (List FVal × List Nat) :=
      match s.promotedAt x t rr g with
      | .error e => .error e
      | .ok false => .ok ((xs.drop (64 * g)).take 64, [])
      | .ok true =>
        match s.readShadow x t rr g with
        | .error e => .error e
        | .ok ys => .ok (ys, [g])
    match mapE one (upTo (ceilDiv t.cols 64)) with
    | .error e => .error e
    | .ok gs => .ok ((gs.map fun g => g.1).flatten.take t.cols, (gs.map fun g => g.2).flatten)

/-- A row as a product operand takes it: exact, promoted granules from the shadow planes; and which were promoted. -/
def State.readOperandRow (s : State) (x : Acc) (t : Tens) (sT : FVal) (off : Nat) (r : Nat) :
    Except AccErr (List FVal × List Nat) :=
  match s.readRow x .exact t sT off (t.outer r) with
  | .error e => .error e
  | .ok xs => s.overlayShadow x t off r xs

/-- Every row of a tensor, in row-major order. -/
def State.readAll (s : State) (x : Acc) (tk : Take) (t : Tens) (sT : FVal) (off : Nat) : Except AccErr (List (List FVal)) :=
  mapE (fun r => s.readRow x tk t sT off (t.outer r)) (upTo t.rows)

/-- The first invalid EB4 or TB40 block of a dense tensor, by row and block (R47). -/
def State.badBlock (s : State) (x : Acc) (t : Tens) (off : Nat) : Except AccErr (Option (Nat × Nat)) :=
  if t.fmt ≠ .eb4 ∧ t.fmt ≠ .tb40 then .ok none
  else
    let row (r : Nat) : Except AccErr (Option (Nat × Nat)) :=
      let cs := t.outer r
      if !t.outerIn cs then .ok none
      else
        findE (fun b => match s.readBytes x (t.blockAddr off cs b) t.fmt.blockBytes with
          | .error e => .error e
          | .ok bs => .ok (if blockInvalid t.fmt bs then some (r, b) else none)) (upTo (ceilDiv (t.ext 0) t.fmt.block))
    findE row (upTo t.rows)

/-- Bytes read for one row: the stored blocks of its extent and their scales. -/
def Tens.rowReadBytes (t : Tens) : Nat :=
  ceilDiv (t.ext 0) t.fmt.block * (t.fmt.blockBytes + if t.fmt.isMX then 1 else 0)

/-! ### Writing -/

/-- What a write of elements reports. -/
structure WOut where
  saturated : Bool
  strained : Nat
  bytes : Nat
  err : Option AccErr
  deriving DecidableEq, Repr

def WOut.zero : WOut := ⟨false, 0, 0, .none⟩
def WOut.join (a b : WOut) : WOut :=
  ⟨a.saturated || b.saturated, a.strained + b.strained, a.bytes + b.bytes, if a.err.isSome then a.err else b.err⟩

/-- A list cut into runs of `n`; `fuel` bounds the runs. -/
def chunks {α : Type} (n : Nat) : Nat → List α → List (List α)
  | 0, _ => []
  | fuel + 1, xs => if xs.isEmpty then [] else xs.take n :: chunks n fuel (xs.drop n)

/-- Encode a run of a row from column `c0` (a block boundary) on: element bytes, scale bytes, SATURATED, strained blocks. -/
def Tens.encodeRun (t : Tens) (sT : FVal) (rnd : Nat → Rnd) (c0 : Nat) (vals : List FVal) :
    List Byte × List Byte × Bool × Nat :=
  let b := t.fmt.block
  let cs := chunks b (vals.length / b + 1) vals
  let es := (upTo cs.length).map fun k => encodeBlock t.fmt sT (fun i => rnd (c0 + b * k + i)) (cs.getD k [])
  ((es.map fun e => padTo t.fmt.blockBytes e.bytes).flatten,
    if t.fmt.isMX then es.map fun e => BitVec.ofNat 8 e.scale else [],
    es.any fun e => e.saturated, (es.filter fun e => e.strained).length)

/-- A second plane is written only where the first met no error (R216). -/
def State.thenWrite (w : State × Option AccErr) (x : Acc) (a : Nat) (bs : List Byte) : State × Option AccErr :=
  if w.2.isSome ∨ bs.isEmpty then w else w.1.writeBytes x a bs

/-- Write a run of elements of one row, from column `c0` (a block boundary) on. -/
def State.writeRun (s : State) (x : Acc) (t : Tens) (sT : FVal) (off : Nat) (cs : List Nat) (c0 : Nat)
    (rnd : Nat → Rnd) (vals : List FVal) : State × WOut :=
  if vals.isEmpty then (s, WOut.zero)
  else
    let (eb, sb, sat, st) := t.encodeRun sT rnd c0 vals
    let b := c0 / t.fmt.block
    let r := State.thenWrite (s.writeBytes x (t.blockAddr off cs b) eb) x (t.scaleAddr off cs b) sb
    (r.1, ⟨sat, st, eb.length + sb.length, r.2⟩)

/-- Apply writers one after another, stopping after the first error (R216). -/
def State.writeEach {α : Type} (f : State → α → State × WOut) (s : State) : List α → State × WOut
  | [] => (s, WOut.zero)
  | a :: t =>
    let r := f s a
    if r.2.err.isSome then r
    else
      let r2 := State.writeEach f r.1 t
      (r2.1, r.2.join r2.2)

/-! ### What a command moves (R471, R300) -/

/-- Bytes read and written through a tensor, counted on the queue and charged at the controllers of its range. -/
def State.moved (s : State) (id : CmdId) (t : Tens) (off rd wr : Nat) : State :=
  let s := s.qcount id rd wr 0 0
  let part := (s.allocOf id.ctx t).partition
  let a := t.base + off
  let s := if rd = 0 then s else s.chargeRange id.ctx part false (rd / 4096 + 2) a rd
  if wr = 0 then s else s.chargeRange id.ctx part true (wr / 4096 + 2) a wr

/-! ### Amax history (R58–R63, R567) -/

def histFlags (r : List Byte) : Nat := u32 r 104

/-- H of step `t` (R61): the largest AMAX among the valid entries of steps `t − 16` to `t − 1`; none if none qualifies. -/
def histMax (r : List Byte) (t : Nat) : Option FVal :=
  let ok (i : Nat) : Bool :=
    bitOf (histFlags r) (1 + i) && (upTo 16).any fun k => u16 r (64 + 2 * i) == (t + 65536 - (k + 1)) % 65536
  let xs := ((upTo 16).filter ok).map fun i => ofBits32 (u32 r (4 * i))
  if xs.isEmpty then none else some (FVal.amax xs)

/-- The SCALE in force for step `t`, if it has been set (R60). -/
def histCurrent (r : List Byte) (t : Nat) : Option FVal :=
  if bitOf (histFlags r) 0 ∧ u32 r 100 = t then some (ofBits32 (u32 r 96)) else none

/-- A record with `n` bytes at `off` replaced. -/
def patch (r : List Byte) (off n v : Nat) : List Byte := r.take off ++ leBytes n v ++ r.drop (off + n)

/-- A record as the part writes it: FLAGS[31:17] and bytes 120 to 127 are 0 (Table 2-5). -/
def histClean (r : List Byte) : List Byte := patch (patch r 104 4 (histFlags r % 2 ^ 17)) 120 8 0

/-- The record with SCALE set for step `t`. -/
def histSet (r : List Byte) (t : Nat) (sc : FVal) : List Byte :=
  patch (patch (patch r 96 4 (toBits32 sc)) 100 4 t) 104 4 (putBits (histFlags r) 0 0 1)

/-- The record with a step's amax and non-finite count merged (R59). -/
def histMerge (r : List Byte) (t : Nat) (amax : FVal) (nonfinite : Nat) : List Byte :=
  let i := t % 16
  let same := bitOf (histFlags r) (1 + i) && u16 r (64 + 2 * i) == t % 65536
  let old := ofBits32 (u32 r (4 * i))
  let a := if same && !old.lt amax then old else amax
  let r := patch r (4 * i) 4 (toBits32 a)
  let r := patch r (64 + 2 * i) 2 t
  let r := patch r 104 4 (putBits (histFlags r) (1 + i) (1 + i) 1)
  patch r 108 4 (min 0xFFFFFFFF (u32 r 108 + nonfinite))

/-- The record after a command's writes: STORED_SCALE and STORED_STEP (R567). -/
def histStored (r : List Byte) (t : Nat) (sc : FVal) : List Byte :=
  patch (patch r 112 4 (toBits32 sc)) 116 4 t

def Tens.usesHistory (t : Tens) : Bool := t.fmt.hasScaleMode && t.scaleMode == 2

/-- The history record of a tensor. -/
def State.histRead (s : State) (id : CmdId) (t : Tens) : Except AccErr (List Byte) :=
  s.readBytes (s.accOf id t) t.history 128
def State.histWrite (s : State) (id : CmdId) (t : Tens) (r : List Byte) : State :=
  (s.writeBytes (s.accOf id t) t.history (histClean r)).1

/-- The tensor scale with which a command reads a tensor: STORED_SCALE as at issue under HISTORY (R56, R567). -/
def State.readScale (s : State) (id : CmdId) (t : Tens) : FVal :=
  if !t.fmt.hasScaleMode then .one
  else if t.scaleMode = 1 then ofBits32 t.scaleBits
  else if t.scaleMode = 2 then
    let w := (s.cmd? id).elim 0 fun c => c.scales.getD (handleSlot t.handle) 0
    if w = 0 then .one else ofBits32 w
  else .one

/-- The tensor scale with which a command of step `t` writes, once it is set; `none` asks for a measurement pass (R60,
R62). -/
def State.writeScale (s : State) (id : CmdId) (t : Tens) (step : Nat) : Except AccErr (Option FVal × State) :=
  if !t.fmt.hasScaleMode then .ok (some .one, s)
  else if t.scaleMode = 1 then .ok (some (ofBits32 t.scaleBits), s)
  else if t.scaleMode = 2 then
    match s.histRead id t with
    | .error e => .error e
    | .ok r =>
      match histCurrent r step with
      | some sc => .ok (some sc, s)
      | none =>
        match histMax r step with
        | none => .ok (none, s)
        | some h =>
          let sc := historyScale t.fmt h
          .ok (some sc, s.histWrite id t (histSet r step sc))
  else .ok (some .one, s)

/-- Set SCALE from a measured amax, unless another command has set it for the step meanwhile (R62, R63). -/
def State.measuredScale (s : State) (id : CmdId) (t : Tens) (step : Nat) (amax : FVal) : Except AccErr (FVal × State) :=
  match s.histRead id t with
  | .error e => .error e
  | .ok r =>
    match histCurrent r step with
    | some sc => .ok (sc, s)
    | none =>
      let sc := historyScale t.fmt amax
      .ok (sc, s.histWrite id t (histSet r step sc))

/-- Merge a write's amax into the history of its tensor (R59). -/
def State.mergeAmax (s : State) (id : CmdId) (t : Tens) (step : Nat) (xs : List FVal) : State :=
  if !t.usesHistory then s
  else
    match s.histRead id t with
    | .error _ => s
    | .ok r => s.histWrite id t (histMerge r step (FVal.amax xs) ((xs.filter fun v => !v.isFinite).length))

/-- Set STORED_SCALE and STORED_STEP after a command's writes (R567). -/
def State.setStored (s : State) (id : CmdId) (t : Tens) (step : Nat) (sc : FVal) : State :=
  if !t.usesHistory then s
  else
    match s.histRead id t with
    | .error _ => s
    | .ok r => s.histWrite id t (histStored r step sc)

/-- DICE_SEED of a context. -/
def State.seed (s : State) (c : Nat) : Nat := s.rd (regCtx .diceSeed c)

/-- The linear index of element `i0` of row `r` (R53, R211). Under a pointer list a PRODUCT and a LAYOUT number the rows of
their output on through the entries, as R94 numbers row-indexed operands, a GATHER or SCATTER numbers them within each entry,
and no entry's offset counts (DESIGN CHOICE, log entry 26). -/
def Tens.linearRow (t : Tens) (r i0 : Nat) : Nat :=
  if t.distributed then t.linear (t.outer r) i0 else r * t.cols + i0

/-- The rounding of an element of a written tensor (R50, R53, R54). -/
def State.rndAt (s : State) (id : CmdId) (t : Tens) (mode step r i0 : Nat) : Rnd :=
  rndOf mode ⟨s.seed id.ctx, step, t.tensorId, .convert⟩ (t.linearRow r i0)

end Sys2Proof.Machine
end

