-- ==== Sys2Proof/Machine/Drain.lean ====
section
/-!
DEFINITION. Machine/Drain.lean: the drain chain (R109–R116): the drain program, its stages on one value, SILU_GLU pairing
and the statistics record.
-/
namespace Sys2Proof.Machine

/-! ### The program (Table 4-6) -/

structure EwOp where
  opcode : Nat
  kind : Nat
  value : Nat
  deriving DecidableEq, Repr

structure Prog where
  alpha : Nat
  scaleVec : Nat
  bias : Nat
  scaleAxis : Bool
  biasAxis : Bool
  ew : List EwOp
  act : Nat
  outFmt : Nat
  mode : Nat
  scatter : Bool
  scatterHandle : Nat
  deriving DecidableEq, Repr

def progOf (r : List Byte) : Prog :=
  let w := u32 r 12
  { alpha := u32 r 0, scaleVec := u32 r 4, bias := u32 r 8, scaleAxis := bitOf w 0, biasAxis := bitOf w 1,
    ew := (upTo (bitsOf w 4 2)).map fun k =>
      ⟨u8 r (16 + 8 * k), bitsOf (u32 r (16 + 8 * k)) 9 8, u32 r (20 + 8 * k)⟩,
    act := bitsOf w 11 8, outFmt := bitsOf w 15 12, mode := bitsOf w 17 16, scatter := bitOf w 18,
    scatterHandle := u32 r 64 }

/-- Without a program the drain converts to the output's format, to nearest even, and stores (Tables 4-1, 4-10). -/
def Prog.plain (f : Fmt) : Prog := ⟨0x3F800000, noHandle, noHandle, false, false, [], 0, f.code, 0, false, noHandle⟩

/-- A program that leaves an INT32 accumulator to be copied exactly (R109). -/
def Prog.empty (p : Prog) : Bool :=
  p.alpha == 0x3F800000 && p.scaleVec == noHandle && p.bias == noHandle && p.ew.isEmpty && p.act == 0

def progSpans : List Span :=
  [bytesSpan 0 12, ⟨12, 4, 0⟩, ⟨12, 18, 8⟩] ++ (upTo 6).map (fun k => ⟨16 + 8 * k, 9, 0⟩)
    ++ (upTo 6).map (fun k => bytesSpan (20 + 8 * k) 4) ++ [bytesSpan 64 4]

/-- Breaches of a program record (R110, R111): reserved bits and encodings, reported against the drain handle. -/
def progViols (h : Nat) (r : List Byte) : List Viol :=
  let w := u32 r 12
  let v (o : Nat) : Viol := (viol .descFormat h o).inRec 2
  (match rsvdOff progSpans r with
    | some o => [v o]
    | none => [])
    ++ violIf (bitsOf w 4 2 == 7) (v 12) ++ violIf (bitsOf w 11 8 > 6) (v 13) ++ violIf (bitsOf w 15 12 > 12) (v 13)
    ++ violIf (bitsOf w 17 16 == 3) (v 14)
    ++ ((upTo (min 6 (bitsOf w 4 2))).map fun k =>
        violIf (u8 r (16 + 8 * k) == 0 || u8 r (16 + 8 * k) > 5) (v (16 + 8 * k))).flatten

/-- The tensors a program names, with the offset of the field and the kind of use: 1 column, 2 row, 3 tensor. -/
def Prog.operands (p : Prog) : List (HUse × Nat) :=
  let vec (h off kind : Nat) : List (HUse × Nat) := if h = noHandle then [] else [(useIn h off, kind)]
  vec p.scaleVec 4 (if p.scaleAxis then 2 else 1) ++ vec p.bias 8 (if p.biasAxis then 2 else 1)
    ++ ((upTo p.ew.length).map fun k =>
        match p.ew[k]? with
        | some e => if e.kind = 0 then [] else [(useIn e.value (20 + 8 * k), e.kind)]
        | none => []).flatten

/-! ### Operand values -/

/-- An operand of a stage: a scalar, a vector by column or row, or a tensor by row and column. -/
inductive Arg where
  | scalar (v : FVal)
  | col (xs : List FVal)
  | row (xs : List FVal)
  | tens (rows : List (List FVal))
  deriving DecidableEq, Repr

/-- Where an element stands: its column and its row for vectors, and its row and column in the tile's tensor operands. -/
structure Pos where
  vecCol : Nat
  vecRow : Nat
  tileRow : Nat
  tileCol : Nat
  deriving DecidableEq, Repr

/-- An element of a vector; a place past its end gives a free value (log entry 12). -/
def vecAt (xs : List FVal) (k : Nat) : FVal := xs.getD k (ofBits32 (Config.pastEnd (xs.map toBits32) k % 2 ^ 32))

/-- The operand's value. -/
def Arg.at (a : Arg) (p : Pos) : FVal :=
  match a with
  | .scalar v => v
  | .col xs => vecAt xs p.vecCol
  | .row xs => vecAt xs p.vecRow
  | .tens rs => vecAt (rs.getD p.tileRow []) p.tileCol

structure Stages where
  alpha : FVal
  scale : Option Arg
  bias : Option Arg
  ew : List (Nat × Arg)
  act : Nat
  deriving DecidableEq, Repr

/-! ### Stages 1 to 4 -/

/-- An element-wise operation (Table 4-7). -/
def ewOp (op : Nat) (x y : FVal) : FVal :=
  match op with
  | 1 => add32 x y
  | 2 => sub32 x y
  | 3 => mul32 x y
  | 4 => max32 x y
  | _ => min32 x y

def sigmoidF (x : FVal) : FVal := recipSF (add32 .one (expSF x.neg))
def siluF (x : FVal) : FVal := mul32 x (sigmoidF x)

/-- `√(2/π)` and 0.044715 as R112 gives them. -/
def geluC1 : FVal := ofBits32 0x3F4C422A
def geluC2 : FVal := div32 (.ofNat 44715) (.ofNat 1000000)

def geluF (x : FVal) : FVal :=
  let t := mul32 x x
  let t := mul32 t x
  let t := mul32 geluC2 t
  let t := add32 x t
  let t := mul32 geluC1 t
  let t := tanhSF t
  let t := add32 .one t
  let t := mul32 x t
  mul32 (.pow2 (-1)) t

/-- An activation of one value (Table 4-8). -/
def activate (act : Nat) (x : FVal) : FVal :=
  match act with
  | 1 => max32 x .zero
  | 2 => sigmoidF x
  | 3 => siluF x
  | 4 => tanhSF x
  | 5 => geluF x
  | _ => x

/-- Stages 1 to 3 of one value (R109). -/
def Stages.pre (st : Stages) (p : Pos) (v : FVal) : FVal :=
  let x := mul32 (toF32 v) st.alpha
  let x := st.scale.elim x fun a => mul32 x (a.at p)
  let x := st.bias.elim x fun a => add32 x (a.at p)
  st.ew.foldl (fun x e => ewOp e.1 x (e.2.at p)) x

/-- Product columns of output column `o` under SILU_GLU: gate and up (R113). -/
def gluCols (o : Nat) : Nat × Nat := (128 * (o / 64) + o % 64, 128 * (o / 64) + 64 + o % 64)

/-- One row of a tile through stages 1 to 4: `vals` are its product columns, `pos j` where column `j` stands. -/
def Stages.row (st : Stages) (pos : Nat → Pos) (vals : List FVal) : List FVal :=
  let ys := (upTo vals.length).map fun j => st.pre (pos j) (vals.getD j .zero)
  if st.act = 6 then
    (upTo (vals.length / 2)).map fun o =>
      let g := gluCols o
      mul32 (siluF (ys.getD g.1 .zero)) (ys.getD g.2 .zero)
  else ys.map (activate st.act)

/-! ### Statistics (R115) -/

/-- The 64 lane results added in a balanced binary tree; `fuel` bounds the levels. -/
def treeSum : Nat → List FVal → FVal
  | 0, xs => xs.getD 0 .zero
  | k + 1, xs =>
    treeSum k ((upTo (xs.length / 2)).map fun i => add32 (xs.getD (2 * i) .zero) (xs.getD (2 * i + 1) .zero))

/-- What a tap forms over the elements of a tile, each with its column, in row-major order. -/
structure Stats where
  amax : FVal
  sum : FVal
  sumSq : FVal
  nonfinite : Nat
  deriving DecidableEq, Repr

def lanesOf (xs : List (Nat × FVal)) (f : FVal → FVal) : List FVal :=
  (upTo 64).map fun j => (xs.filter fun e => e.1 % 64 = j).foldl (fun a e => add32 a (f e.2)) .zero

/-- A square is rounded, then added (log entry 13). -/
def statsOf (xs : List (Nat × FVal)) : Stats :=
  let fin := xs.filter fun e => e.2.isFinite
  { amax := FVal.amax (fin.map fun e => e.2), sum := treeSum 6 (lanesOf fin id),
    sumSq := treeSum 6 (lanesOf fin fun v => mul32 v v), nonfinite := xs.length - fin.length }

/-- The 32-byte record of Table 4-9. -/
def statsRecord (st : Stats) (strained : Nat) (promoted : Bool) : List Byte :=
  record 32 [(0, 4, toBits32 st.amax), (4, 4, toBits32 st.sum), (8, 4, toBits32 st.sumSq), (12, 4, st.nonfinite),
    (16, 4, strained), (20, 4, 1 + 2 * b2n promoted)]

/-! ### Reading operands -/

/-- A vector operand: every element of its tensor, in row-major order. -/
def State.readVec (s : State) (id : CmdId) (h : Nat) : Except AccErr (List FVal) :=
  match s.tensRun id.ctx h with
  | none => .ok []
  | some t =>
    match s.readAll (s.accOf id t) .fp32 t (s.readScale id t) 0 with
    | .error e => .error e
    | .ok rs => .ok rs.flatten

/-- An operand of kind 1 column, 2 row, 3 tensor; `rows` reads the tensor rows of the tile. -/
def State.readArg (s : State) (id : CmdId) (kind h : Nat) (rows : Tens → Except AccErr (List (List FVal))) :
    Except AccErr Arg :=
  if kind = 0 then .ok (.scalar (ofBits32 h))
  else if kind = 3 then
    match s.tensRun id.ctx h with
    | none => .ok (.tens [])
    | some t =>
      match rows t with
      | .error e => .error e
      | .ok rs => .ok (.tens rs)
  else
    match s.readVec id h with
    | .error e => .error e
    | .ok xs => .ok (if kind = 1 then .col xs else .row xs)

/-- The stages of a program with their operands read. -/
def State.readStages (s : State) (id : CmdId) (p : Prog) (rows : Tens → Except AccErr (List (List FVal))) :
    Except AccErr Stages :=
  let opt (h : Nat) (byRow : Bool) : Except AccErr (Option Arg) :=
    if h = noHandle then .ok none
    else
      match s.readArg id (if byRow then 2 else 1) h rows with
      | .error e => .error e
      | .ok a => .ok (some a)
  let ew (e : EwOp) : Except AccErr (Nat × Arg) :=
    match s.readArg id e.kind e.value rows with
    | .error x => .error x
    | .ok a => .ok (e.opcode, a)
  match opt p.scaleVec p.scaleAxis, opt p.bias p.biasAxis, mapE ew p.ew with
  | .ok sc, .ok bi, .ok es => .ok ⟨ofBits32 p.alpha, sc, bi, es, p.act⟩
  | .error e, _, _ => .error e
  | _, .error e, _ => .error e
  | _, _, .error e => .error e

end Sys2Proof.Machine
end

