-- ==== Sys2Proof/Machine/Index.lean ====
section
/-!
DEFINITION. Machine/Index.lean: index tensors (R205, R206, R208, R210): what one index of a gather or scatter names.
-/
namespace Sys2Proof.Machine

/-- What an index names: a local row, nothing, a row of another shard, or a row that does not exist. -/
inductive Idx where
  | row (r : Nat)
  | skip
  | foreign
  | bad
  deriving DecidableEq, Repr

/-- Read an index against the indexed tensor. -/
def idxOf (t : Tens) (signed : Bool) (v : Nat) : Idx :=
  if v = 0xFFFFFFFF then .skip
  else if signed ∧ v ≥ 2 ^ 31 then .bad
  else if t.distributed ∧ t.distAxis = t.outermost then
    if t.globalOffset ≤ v ∧ v < t.globalOffset + t.log t.outermost then .row (v - t.globalOffset)
    else if v < t.globalExtent then .foreign
    else .bad
  else if v < t.log t.outermost then .row v
  else .bad

/-- The 32-bit codes of an index tensor, in order, padded positions taken from PAD_VALUE. -/
def State.readIndex (s : State) (id : CmdId) (t : Tens) : Except AccErr (List Nat) :=
  match s.readAll (s.accOf id t) .exact t .one 0 with
  | .error e => .error e
  | .ok rs => .ok (rs.flatten.map fun v => unsignedOf 32 (roundInt .rtz v))

/-- Position of the first index that fails R206. -/
def firstBad (t : Tens) (signed : Bool) (vs : List Nat) : Option Nat :=
  vs.findIdx? fun v => idxOf t signed v == .bad

def idxEnding (handle pos : Nat) : Ending := ⟨Status.gatherIndexRange.code, 0, detail4 handle pos 0 0⟩

/-- The first pair of positions that name one index twice, the sentinel left out (R208). -/
def firstRepeat (vs : List Nat) : Option (Nat × Nat) :=
  (upTo vs.length).findSome? fun i =>
    let v := vs.getD i 0
    if v = 0xFFFFFFFF then none
    else ((upTo vs.length).find? fun j => i < j && vs.getD j 0 == v).map fun j => (i, j)

/-- Indices that name rows of another shard (FOREIGN_INDICES, R210). -/
def foreignCount (t : Tens) (signed : Bool) (vs : List Nat) : Nat :=
  (vs.filter fun v => idxOf t signed v == .foreign).length

def isIndexFmt (t : Tens) : Bool := t.fmt == .uint32 || t.fmt == .int32

end Sys2Proof.Machine
end

