-- ==== Sys2Proof/Machine/Sparse.lean ====
section
/-!
DEFINITION. Machine/Sparse.lean: N:8 tensors: storage tiles decoded and encoded (R130–R134) and the operand check pass
(R141, R142).
-/
namespace Sys2Proof.Machine

/-! ### Codes -/

/-- Code `i` of a packed run of codes of a format. -/
def codeAt (f : Fmt) (bs : List Byte) (i : Nat) : Nat :=
  match f with
  | .int4 => nibble bs i
  | .mxfp4 => nibble bs i
  | .eb4 => nibble bs i
  | .bf16 => u16 bs (2 * i)
  | .fp16 => u16 bs (2 * i)
  | _ => u8 bs i

/-- Codes packed as a format stores them. -/
def packCodes (f : Fmt) (cs : List Nat) : List Byte :=
  match f with
  | .int4 => packNibbles cs
  | .mxfp4 => packNibbles cs
  | .eb4 => packNibbles cs
  | .bf16 => (cs.map (leBytes 2)).flatten
  | .fp16 => (cs.map (leBytes 2)).flatten
  | _ => cs.map (BitVec.ofNat 8)

/-- Scale bytes of one row of a tile: 8 E8M0 bytes, or 4 times the 8 bytes of an EB4 superblock. -/
def rowScaleBytes (f : Fmt) : Nat := if f.isMX then 8 else if f = .eb4 then 32 else 0

/-- The exact values of one row of 256 from its codes and scale bytes (R132, R133). -/
def rowValues (f : Fmt) (sT : FVal) (codes : List Nat) (sc : List Byte) : List FVal :=
  if f.isMX then
    ((upTo 8).map fun b => decodeExact f sT (packCodes f ((codes.drop (32 * b)).take 32)) (u8 sc b)).flatten
  else if f = .eb4 then
    ((upTo 4).map fun b =>
      decodeExact f sT (packCodes f ((codes.drop (64 * b)).take 64) ++ sliceB sc (8 * b) 8) 0).flatten
  else if f = .int4 then codes.map fun c => .ofInt (signedOf 4 c)
  else (codes.map fun c => decodeExact f sT (packCodes f [c]) 0).flatten

/-- Positions of a row of 256 that hold EB4 escapes. -/
def rowEscapes (f : Fmt) (sc : List Byte) : List Nat :=
  if f ≠ .eb4 then []
  else
    ((upTo 4).map fun b =>
      let w := u16 sc (8 * b + 4)
      let n := bitsOf w 1 0
      (if n ≥ 1 then [64 * b + bitsOf w 7 2] else []) ++ (if n ≥ 2 then [64 * b + bitsOf w 13 8] else [])).flatten

/-- Invalid superblocks of a row, by position of their first element. -/
def rowBadBlocks (f : Fmt) (sc : List Byte) : List Nat :=
  if f ≠ .eb4 then []
  else ((upTo 4).filter fun b => eb4Invalid (zeros 32 ++ sliceB sc (8 * b) 8)).map fun b => 64 * b

/-! ### Tiles -/

/-- A decoded storage tile: its header, 512 bitmaps, and by row the 256 values, EB4 escapes and invalid superblocks. -/
structure STile where
  fmt : Nat
  n : Nat
  gen : Nat
  row : Nat
  col : Nat
  maps : List Nat
  vals : List (List FVal)
  escapes : List (List Nat)
  bad : List (List Nat)
  deriving DecidableEq, Repr

/-- Kept positions of a bitmap, ascending. -/
def keptOf (m : Nat) : List Nat := (upTo 8).filter fun p => bitOf m p

/-- Codes of one row of a compressed tile, unkept positions 0: group `g`'s kept values stand in slots `gN` on. -/
def spreadRow (f : Fmt) (n : Nat) (plane : List Byte) (maps : List Nat) (i : Nat) : List Nat :=
  ((upTo 32).map fun j =>
    let q := 32 * i + j
    let kept := keptOf (maps.getD q 0)
    (upTo 8).map fun p =>
      match kept.findIdx? (· == p) with
      | some k => if k < n then codeAt f plane (q * n + k) else 0
      | none => 0).flatten

/-- Decode the bytes of a tile slot under tensor scale `sT` (R131–R133). -/
def decodeTile (f : Fmt) (sT : FVal) (bs : List Byte) : STile :=
  let n := bitsOf (u8 bs 1) 3 0
  let body := bs.drop 16
  let rs := rowScaleBytes f
  let mk (maps : List Nat) (vals : List (List FVal)) (scales : List (List Byte)) : STile :=
    { fmt := bitsOf (u8 bs 0) 3 0, n, gen := u16 bs 2, row := u32 bs 4, col := u16 bs 8, maps, vals,
      escapes := scales.map (rowEscapes f), bad := scales.map (rowBadBlocks f) }
  if bitOf (u8 bs 0) 4 then
    let maps := (upTo 512).map (u8 body)
    let plane := body.drop 512
    let sb := body.drop (512 + codeBytes f (512 * n))
    let scales := (upTo 16).map fun i => sliceB sb (rs * i) rs
    let vals := (upTo 16).map fun i =>
      let xs := rowValues f sT (spreadRow f n plane maps i) (scales.getD i [])
      (upTo 256).map fun p => if bitOf (maps.getD (32 * i + p / 8) 0) (p % 8) then xs.getD p .zero else .zero
    mk maps vals scales
  else
    let codes (i : Nat) : List Nat :=
      if f = .eb4 then ((upTo 4).map fun b => (upTo 64).map fun k => nibble (sliceB body (160 * i + 40 * b) 40) k).flatten
      else (upTo 256).map fun p => codeAt f body (256 * i + p)
    let scales := (upTo 16).map fun i =>
      if f = .eb4 then ((upTo 4).map fun b => sliceB body (160 * i + 40 * b + 32) 8).flatten
      else sliceB body (codeBytes f 4096 + rs * i) rs
    let vals := (upTo 16).map fun i => rowValues f sT (codes i) (scales.getD i [])
    let escs := scales.map (rowEscapes f)
    let maps := (upTo 512).map fun q =>
      let i := q / 32
      (upTo 8).foldl (fun m p =>
        let pos := 8 * (q % 32) + p
        let nz := !((vals.getD i []).getD pos .zero).isZero || (escs.getD i []).contains pos
        m + b2n nz * 2 ^ p) 0
    mk maps vals scales

/-- What is encoded into a tile: the values by row (256 each, zero where unkept or outside), the bitmaps, and a rounding
for each position. -/
structure TileSrc where
  maps : List Nat
  vals : List (List FVal)
  deriving DecidableEq, Repr

/-- The bytes of a tile (R131–R134), whether a conversion saturated, and its strained blocks (R123). -/
def encodeTile (f : Fmt) (n gen r c : Nat) (sT : FVal) (rnd : Nat → Nat → Rnd) (src : TileSrc) :
    List Byte × Bool × Nat :=
  let dense := storedDense f n
  let b := f.block
  let row (i : Nat) : List Encoded :=
    (upTo (256 / b)).map fun k =>
      encodeBlock f sT (fun j => rnd i (b * k + j)) (((src.vals.getD i []).drop (b * k)).take b)
  let rows := (upTo 16).map row
  let hdr := record 16 [(0, 1, f.code + if dense then 0 else 16),
    (1, 1, n), (2, 2, gen), (4, 4, r), (8, 2, c)]
  let rowCodes (es : List Encoded) : List Nat :=
    if f = .eb4 then (es.map fun e => (upTo 64).map (nibble e.bytes)).flatten
    else (upTo 256).map (codeAt f ((es.map fun e => e.bytes).flatten))
  let rowScales (es : List Encoded) : List Byte :=
    if f.isMX then es.map fun e => BitVec.ofNat 8 e.scale
    else if f = .eb4 then (es.map fun e => sliceB e.bytes 32 8).flatten
    else []
  let body :=
    if dense then
      if f = .eb4 then (rows.map fun es => (es.map fun e => e.bytes).flatten).flatten
      else packCodes f (rows.map rowCodes).flatten ++ (rows.map rowScales).flatten
    else
      let kept := (upTo 512).map fun q =>
        let codes := rowCodes (rows.getD (q / 32) [])
        let ks := (keptOf (src.maps.getD q 0)).map fun p => codes.getD (8 * (q % 32) + p) 0
        (ks ++ List.replicate n 0).take n
      (src.maps.map (BitVec.ofNat 8)) ++ packCodes f kept.flatten ++ (rows.map rowScales).flatten
  (hdr ++ body, rows.any fun es => es.any fun e => e.saturated,
    (rows.map fun es => (es.filter fun e => e.strained).length).foldl (· + ·) 0)

/-- Bytes of a tile as stored. -/
def tileStored (f : Fmt) (n : Nat) : Nat := if storedDense f n then tileDense f else tileCompressed f n

/-- Bytes of a tile in the form that its header states (R131–R133), within its slot. -/
def storedOf (f : Fmt) (hdr : List Byte) : Nat :=
  if bitOf (u8 hdr 0) 4 then min (tileDense f) (tileCompressed f (bitsOf (u8 hdr 1) 3 0)) else tileDense f

/-- The bytes of one storage tile of buffer `g & 1`, in its stored form (R135). -/
def State.tileBytes (s : State) (x : Acc) (t : Tens) (off g r c : Nat) : Except AccErr (List Byte) :=
  let a := t.tileAddr off g r c
  match s.readBytes x a 16 with
  | .error e => .error e
  | .ok h =>
    match s.readBytes x (a + 16) (storedOf t.fmt h - 16) with
    | .error e => .error e
    | .ok body => .ok (h ++ body)

/-- Read and decode one storage tile. -/
def State.readTile (s : State) (x : Acc) (t : Tens) (sT : FVal) (off g r c : Nat) : Except AccErr STile :=
  match s.tileBytes x t off g r c with
  | .error e => .error e
  | .ok bs => .ok (decodeTile t.fmt sT bs)

/-- The row of 256-position tiles as one row of values over the extent: row `i` of tile row `r`, with its kept positions. -/
def tileRowOf (ts : List STile) (i cols : Nat) : List FVal × List Nat :=
  (((ts.map fun t => t.vals.getD i []).flatten).take cols,
    ((upTo ts.length).map fun c =>
      ((upTo 32).map fun j =>
        (keptOf ((ts.getD c ⟨0, 0, 0, 0, 0, [], [], [], []⟩).maps.getD (32 * i + j) 0)).map
          fun p => 256 * c + 8 * j + p).flatten).flatten.filter (· < cols))

/-- A row of an N:8 tensor: its values over the extent and its kept positions, ascending. A row of the padded tail reads
PAD_VALUE at every position and no memory (R196); it carries no bitmaps, so every position of it is taken (DESIGN CHOICE, log
entry 147). -/
def State.readSparseRow (s : State) (x : Acc) (t : Tens) (sT : FVal) (off g r : Nat) :
    Except AccErr (List FVal × Option (List Nat)) :=
  if r ≥ t.ext 1 then .ok (List.replicate (t.ext 0) t.padVal, none)
  else
    match mapE (fun c => s.readTile x t sT off g (r / 16) c) (upTo t.tileCols) with
    | .error e => .error e
    | .ok ts =>
      let p := tileRowOf ts (r % 16) (t.ext 0)
      .ok (p.1, some p.2)

/-! ### The operand check pass (R141, R142) -/

/-- A failure of the pass: its status and the fields of Table 5-6. -/
structure SparseFault where
  status : Status
  row : Nat
  group : Nat
  deriving DecidableEq, Repr

/-- Bits set in a byte. -/
def popcount8 (m : Nat) : Nat := (keptOf m).length

/-- The header checks of a tile (Table 5-5, orders 1 and 2). -/
def checkHeader (t : Tens) (gen r c : Nat) (hdr : List Byte) : Option SparseFault :=
  if Fmt.ofCode (bitsOf (u8 hdr 0) 3 0) ≠ some t.fmt ∨ bitsOf (u8 hdr 1) 3 0 ≠ t.sparseN ∨ u32 hdr 4 ≠ r ∨ u16 hdr 8 ≠ c then
    some ⟨.formatCode, 16 * r, 32 * c⟩
  else if u16 hdr 2 ≠ gen % 65536 then some ⟨.maskGeneration, 16 * r, 32 * c⟩
  else none

/-- The first failure among the groups of a tile, in the order of Table 5-5; and whether it is an invalid superblock. -/
def checkGroups (t : Tens) (rows r c : Nat) (st : STile) : Option (SparseFault × Bool) :=
  (upTo 512).findSome? fun q =>
    let i := q / 32
    let j := q % 32
    let m := st.maps.getD q 0
    let bad (status : Status) : SparseFault := ⟨status, 16 * r + i, 32 * c + j⟩
    let beyond := (keptOf m).any fun p => 256 * c + 8 * j + p ≥ t.ext 0 || 16 * r + i ≥ rows
    if (st.bad.getD i []).any (fun b => b / 8 = j) then some (bad .formatCode, true)
    else if beyond then some (bad .sparseIndexRange, false)
    else if popcount8 m > t.sparseN
        ∨ (st.escapes.getD i []).any (fun e => e / 8 = j ∧ !bitOf m (e % 8)) then some (bad .sparseGroupCount, false)
    else none

/-- What the pass reads of a tile whose header it has read: the whole body of a DENSE tile; of a compressed one the metadata
plane, and under EB4 the scale plane. Values it does not read stand as 0. -/
def State.readMeta (s : State) (x : Acc) (t : Tens) (off gen r c : Nat) (hdr : List Byte) : Except AccErr STile :=
  let a := t.tileAddr off gen r c + 16
  if bitOf (u8 hdr 0) 4 then
    let vb := codeBytes t.fmt (512 * t.sparseN)
    match s.readBytes x a 512, s.readBytes x (a + 512 + vb) (if t.fmt = .eb4 then 512 else 0) with
    | .ok m, .ok sc => .ok (decodeTile t.fmt .one (hdr ++ m ++ zeros vb ++ sc))
    | .error e, _ => .error e
    | _, .error e => .error e
  else
    match s.readBytes x a (tileDense t.fmt - 16) with
    | .error e => .error e
    | .ok body => .ok (decodeTile t.fmt .one (hdr ++ body))

/-- The pass over the first `tiles` tile rows of a tensor of `rows` rows whose planes are moved by `off`: the first failure,
and whether it is an invalid superblock. It reads no further than what fails first. -/
def State.checkSparse (s : State) (x : Acc) (t : Tens) (off gen rows tiles : Nat) :
    Except AccErr (Option (SparseFault × Bool)) :=
  findE (fun k =>
    let r := k / t.tileCols
    let c := k % t.tileCols
    match s.readBytes x (t.tileAddr off gen r c) 16 with
    | .error e => .error e
    | .ok hdr =>
      match checkHeader t gen r c hdr with
      | some f => .ok (some (f, false))
      | none =>
        match s.readMeta x t off gen r c hdr with
        | .error e => .error e
        | .ok st => .ok (checkGroups t rows r c st)) (upTo (tiles * t.tileCols))

/-- The ending of a command that fails the pass (Tables 10-5, 5-6). -/
def sparseEnding (f : SparseFault) (handle entry role : Nat) : Ending :=
  ⟨f.status.code, 0, leBytes 4 handle ++ leBytes 4 f.row ++ leBytes 3 entry ++ leBytes 3 f.group
    ++ [BitVec.ofNat 8 role, 0]⟩

/-- The ending under R47: an invalid block of a dense operand. -/
def badBlockEnding (handle row block entry role : Nat) : Ending :=
  ⟨Status.formatCode.code, 0, leBytes 4 handle ++ leBytes 4 row ++ leBytes 3 entry ++ leBytes 3 block
    ++ [BitVec.ofNat 8 role, 0]⟩

/-- Write one storage tile. -/
def State.writeTile (s : State) (x : Acc) (t : Tens) (off gen r c : Nat) (bs : List Byte) : State × Option AccErr :=
  s.writeBytes x (t.tileAddr off gen r c) bs

end Sys2Proof.Machine
end

