-- ==== Sys2Proof/Machine/Product.lean ====
section
/-!
DEFINITION. Machine/Product.lean: what a PRODUCT command is (R86–R100, R121–R126, R137–R148): its body, its geometry, the
checks at issue, its tiles and tasks.
-/
namespace Sys2Proof.Machine

/-! ### The body (Table 4-1) -/

structure PBody where
  left : Nat
  right : Nat
  out : Nat
  plist : Nat
  drain : Nat
  mt : Nat
  nt : Nat
  aRight : Bool
  nm : Bool
  leftInner : Bool
  rightInner : Bool
  outInner : Bool
  mode : Nat
  segs : Nat
  holdIn : Bool
  holdOut : Bool
  faultSat : Bool
  rotL : Nat
  rotR : Nat
  rotW : Nat
  kt : Nat
  budget : Nat
  openTiles : Nat
  holdTag : Nat
  drawRun : Nat
  step : Nat
  reduceBuf : Nat
  maskGen : Nat
  stats : Nat
  deriving DecidableEq, Repr

def pBody (d : List Byte) : PBody :=
  let w := u32 d 52
  let v := u32 d 56
  let run := u16 d 62
  { left := u32 d 32, right := u32 d 36, out := u32 d 40, plist := u32 d 44, drain := u32 d 48,
    mt := 16 * 2 ^ bitsOf w 2 0, nt := 64 * 2 ^ bitsOf w 4 3, aRight := bitOf w 5, nm := bitOf w 6,
    leftInner := bitOf w 7, mode := bitsOf w 9 8, segs := bitsOf w 15 10 + 1, holdIn := bitOf w 16,
    holdOut := bitOf w 17, faultSat := bitOf w 18, rightInner := bitOf w 19, rotL := bitsOf w 21 20,
    rotR := bitsOf w 23 22, rotW := if bitOf w 24 then 64 else 16, outInner := bitOf w 25, kt := bitsOf v 15 0,
    budget := bitsOf v 23 16, openTiles := bitsOf v 27 24 + 1, holdTag := u16 d 60,
    drawRun := if run = 0 then 1 else run, step := u32 d 64, reduceBuf := u32 d 68, maskGen := u32 d 72, stats := u32 d 76 }

def pSpans : List Span :=
  [bytesSpan 32 20, ⟨52, 25, 0⟩, ⟨56, 27, 0⟩, bytesSpan 60 20]

/-- Reserved encodings of the body (R22, R86). -/
def pEncodings (d : List Byte) : List Viol :=
  let w := u32 d 52
  violIf (bitsOf w 2 0 > 4) (formatViol 52) ++ violIf (bitsOf w 4 3 == 3) (formatViol 52)
    ++ violIf (bitsOf w 9 8 == 3) (formatViol 53) ++ violIf (bitsOf w 21 20 == 3) (formatViol 54)
    ++ violIf (bitsOf w 23 22 == 3) (formatViol 54)

/-- The tensors the body names. -/
def pUses (b : PBody) : List HUse :=
  [useIn b.left 32, useIn b.right 36, useOut b.out 40, useRaw b.plist 44 true, useRaw b.drain 48 true,
    ⟨b.reduceBuf, 68, true, false, true, true⟩, (useOut b.stats 76).opt]

/-! ### Operand pairs (Tables 3-2, 3-3) -/

inductive Fam where
  | tb40 | fp4 | fp8 | f16 | int4 | int8 | none
  deriving DecidableEq, Repr

def Fmt.fam : Fmt → Fam
  | .tb40 => .tb40 | .mxfp4 => .fp4 | .eb4 => .fp4 | .e4m3 => .fp8 | .e5m2 => .fp8 | .mxfp8 => .fp8
  | .bf16 => .f16 | .fp16 => .f16 | .int4 => .int4 | .int8 => .int8 | _ => .none

/-- Element pairs per dot unit per CCLK of a pair of formats, if the pair may meet (R68); and whether it accumulates in
INT32. -/
def pairRow (a b : Fmt) : Option (Nat × Bool) :=
  match a.fam, b.fam with
  | .tb40, .fp4 => some (32, false) | .fp4, .tb40 => some (32, false)
  | .fp4, .fp4 => some (16, false)
  | .int4, .int4 => some (16, true)
  | .fp8, .fp8 => some (8, false)
  | .int8, .int8 => some (8, true) | .int4, .int8 => some (8, true) | .int8, .int4 => some (8, true)
  | .f16, .f16 => some (2, false)
  | .tb40, .fp8 => some (8, false) | .fp8, .tb40 => some (8, false)
  | .fp4, .fp8 => some (8, false) | .fp8, .fp4 => some (8, false)
  | .fp4, .f16 => some (2, false) | .f16, .fp4 => some (2, false)
  | .fp8, .f16 => some (2, false) | .f16, .fp8 => some (2, false)
  | _, _ => none

/-- The format in which an operand enters the array: MXFP4 when it is rotated in staging (R122). -/
def arrayFmt (t : Tens) (rot : Nat) : Fmt := if rot = 1 then .mxfp4 else t.fmt

/-! ### Geometry -/

/-- A product as its tensors, program and pointer list give it. -/
structure Geo where
  b : PBody
  l : Tens
  r : Tens
  o : Tens
  prog : Prog
  entries : List PEntry
  m : Nat
  n : Nat
  k : Nat
  kt : Nat
  deriving DecidableEq, Repr

def Geo.useList (g : Geo) : Bool := g.b.plist != noHandle
def Geo.glu (g : Geo) : Bool := g.prog.act == 6
/-- The A operand, and whether it is the right one (R87). -/
def Geo.a (g : Geo) : Tens := if g.b.aRight then g.r else g.l
def Geo.sparse (g : Geo) : Bool := g.a.sparseN != 0
def Geo.sampled (g : Geo) : Bool := g.o.sparseN != 0
/-- Without a program the drain converts with nearest-even rounding; an INT32 output of an integer product is then copied
exactly (R109). -/
def Geo.pair (g : Geo) : Nat × Bool :=
  (pairRow (arrayFmt g.l g.b.rotL) (arrayFmt g.r g.b.rotR)).getD (8, false)
def Geo.exact (g : Geo) : Bool := g.pair.2 && g.o.fmt == .int32 && g.prog.empty

def kOf (t : Tens) (inner : Bool) : Nat := if inner then t.log 1 else t.cols
def mOf (t : Tens) (inner : Bool) : Nat := if inner then t.log 0 else t.rows

/-- A tensor as an entry views it: its M replaced along the outermost dimension, or dimension 0 (R94). -/
def entryView (t : Tens) (inner : Bool) (m : Nat) : Tens :=
  if inner then t.withLogical 0 m else if t.rank ≤ 1 then t else t.withLogical t.outermost m

/-- The entries of a product: its pointer list, or one entry of its own. -/
def geoOf (b : PBody) (l r o : Tens) (prog : Prog) (list : List PEntry) : Geo :=
  let k := kOf l b.leftInner
  { b, l, r, o, prog, entries := list, m := mOf l b.leftInner, n := mOf r b.rightInner, k,
    kt := if b.kt = 0 then ceilDiv k 64 * 64 else 64 * b.kt }

/-- Rows that entry `e` covers in the product (R94). -/
def Geo.entryRows (g : Geo) (e : PEntry) : Nat :=
  if !g.useList then g.m
  else if e.m = 0 then 0
  else mOf (entryView g.l g.b.leftInner e.m) g.b.leftInner

def Geo.chunks (g : Geo) : Nat := ceilDiv g.k (max 1 g.kt)
/-- Positions of K that segment `s` covers (R104). -/
def Geo.segK (g : Geo) (s : Nat) : Nat × Nat :=
  let c := g.chunks
  (s * c / g.b.segs * g.kt, min ((s + 1) * c / g.b.segs * g.kt) g.k)

/-! ### Tiles and tasks (R90, R93, R95) -/

structure TileInfo where
  entry : PEntry
  entryNo : Nat
  /-- rows of the entry, and rows of the entries before it -/
  rows : Nat
  rowBase : Nat
  r0 : Nat
  c0 : Nat
  /-- row-major number within the command (R115) -/
  num : Nat
  deriving DecidableEq, Repr

/-- The tiles of one entry in the order LOOP_ORDER selects. -/
def entryTiles (g : Geo) (e : PEntry) (no rows rowBase numBase : Nat) : List TileInfo :=
  let mtl := ceilDiv rows g.b.mt
  let ntl := ceilDiv g.n g.b.nt
  let mk (a c : Nat) : TileInfo := ⟨e, no, rows, rowBase, a * g.b.mt, c * g.b.nt, numBase + a * ntl + c⟩
  if g.b.nm then ((upTo ntl).map fun c => (upTo mtl).map fun a => mk a c).flatten
  else ((upTo mtl).map fun a => (upTo ntl).map fun c => mk a c).flatten

def tilesFrom (g : Geo) : List PEntry → Nat → Nat → Nat → List TileInfo
  | [], _, _, _ => []
  | e :: t, no, rowBase, numBase =>
    let rows := g.entryRows e
    entryTiles g e no rows rowBase numBase
      ++ tilesFrom g t (no + 1) (rowBase + rows) (numBase + ceilDiv rows g.b.mt * ceilDiv g.n g.b.nt)

/-- Every tile of a product, in the order it offers them. -/
def Geo.tiles (g : Geo) : List TileInfo := tilesFrom g g.entries 0 0 0

def Geo.tasks (g : Geo) : Nat := g.tiles.length * g.b.segs

/-! ### The product of a command -/

/-- The geometry of an issued command, from its descriptor and the records it copied: 0 the pointer list, 1 the program. -/
def State.geo (s : State) (id : CmdId) (d : List Byte) (recs : Tab (List Byte)) : Option Geo :=
  let b := pBody d
  match s.tensRun id.ctx b.left, s.tensRun id.ctx b.right, s.tensRun id.ctx b.out with
  | some l, some r, some o =>
    let prog := if b.drain = noHandle then Prog.plain o.fmt else progOf (recs.getD 1 [])
    let list := if b.plist = noHandle then [⟨0, 0, 0, 0, 0⟩] else pEntries (recs.getD 0 [])
    some (geoOf b l r o prog list)
  | _, _, _ => none

/-! ### Checks at issue -/

def shapeViol (t : Tens) (off : Nat) : Viol := viol .descFormat t.handle off

/-- The cases of R68, R87, R89, R113, R122, R137, R143 and R147 that need no pointer list. Under a pointer list M is judged
entry by entry, over the extents it replaces (`entryViols`), and not between the left and output descriptors' own extents
(DESIGN CHOICE, log entry 149). -/
def geoViols (g : Geo) (mask : Option Tens) : List Viol :=
  let b := g.b
  let blocked (t : Tens) : Bool := t.fmt.block > 2 || t.sparseN != 0
  let bSide := if b.aRight then g.l else g.r
  let bOff := if b.aRight then 32 else 36
  let oN := if b.outInner then g.o.log 1 else g.o.cols
  let oM := if b.outInner then g.o.log 0 else g.o.rows
  violIf (bSide.sparseN != 0 || bSide.fmt == .tb40) (shapeViol bSide bOff)
    ++ violIf (b.leftInner && (blocked g.l || g.l.rank != 2)) (formatViol 52)
    ++ violIf (b.rightInner && (blocked g.r || g.r.rank != 2)) (formatViol 54)
    ++ violIf (b.outInner && (blocked g.o || g.o.rank != 2)) (formatViol 55)
    ++ violIf (kOf g.r b.rightInner != g.k) (shapeViol g.r 36)
    ++ violIf (oN != if g.glu then g.n / 2 else g.n) (shapeViol g.o 40)
    ++ violIf (!g.useList && oM != g.m) (shapeViol g.o 40)
    ++ violIf (b.mode == 0 && b.segs != 1) (formatViol 53)
    ++ violIf (b.holdOut && b.mode != 0) (formatViol 53)
    ++ violIf (pairRow (arrayFmt g.l b.rotL) (arrayFmt g.r b.rotR)).isNone (shapeViol g.l 32)
    ++ violIf (g.a.fmt == .tb40 && g.kt % 320 != 0) (formatViol 56)
    ++ violIf (g.sparse && g.kt % 256 != 0) (formatViol 56)
    ++ violIf ((b.rotL != 0 || b.rotR != 0) && g.k % b.rotW != 0) (formatViol 55)
    ++ violIf (b.mode != 0 && g.chunks < b.segs) (formatViol 53)
    ++ violIf ((b.rotL == 0) != (b.rotR == 0)) (formatViol 54)
    ++ violIf (b.rotL == 1 && !rotatable g.l) (formatViol 54)
    ++ violIf (b.rotR == 1 && !rotatable g.r) (formatViol 54)
    ++ violIf (g.glu && (b.nt == 64 || g.n % 128 != 0)) (formatViol 52)
    ++ violIf ((g.sparse || g.sampled) && b.maskGen ≥ 65536) (formatViol 74)
    ++ violIf (g.sampled && (g.l.sparseN != 0 || g.r.sparseN != 0 || b.nt != 256)) (shapeViol g.o 40)
    ++ violIf (g.sampled && !maskFits g.o mask) (shapeViol g.o 40)
    ++ violIf (g.prog.outFmt != g.o.fmt.code) ((viol .descFormat b.drain 13).inRec 2)
    ++ violIf (u16Run > 64) (formatViol 62)
where
  rotatable (t : Tens) : Bool :=
    t.sparseN == 0 && (t.fmt == .e4m3 || t.fmt == .e5m2 || t.fmt == .bf16 || t.fmt == .fp16)
  maskFits (o : Tens) : Option Tens → Bool
    | none => false
    | some t => t.sparseN == o.sparseN && t.shape == o.shape
  u16Run : Nat := if g.b.holdIn || g.b.holdOut then 1 else g.b.drawRun

/-- Checks of the pointer list's entries (R94, R96, R563). An entry skipped by an M of 0 is not checked at all, its offsets'
alignment included (DESIGN CHOICE, log entry 150). Under SCATTER an entry may store to any row of the output at its offset, so
the whole output there must lie in the allocation. -/
def entryViols (g : Geo) (la ra oa : Alloc) : List Viol :=
  if !g.useList then
    violIf (!oa.holds (g.o.hull 0)) (viol .tensorRange g.o.handle 40)
  else
    ((upTo g.entries.length).map fun i =>
      match g.entries[i]? with
      | none => []
      | some e =>
        if e.m = 0 then []
        else
          let v (st : Status) (o : Nat) : Viol := (viol st g.b.plist (32 * i + o)).inRec 1
          let cap (t : Tens) (inner : Bool) : Nat := if inner then t.log 0 else if t.rank ≤ 1 then 1 else t.log t.outermost
          let lv := entryView g.l g.b.leftInner e.m
          let ov := entryView g.o g.b.outInner e.m
          violIf (e.left % g.l.rowAlign != 0) (v .alignInner 0)
            ++ violIf (e.right % g.r.rowAlign != 0) (v .alignInner 8)
            ++ violIf (e.out % g.o.rowAlign != 0) (v .alignInner 16)
            ++ violIf (e.m > cap g.l g.b.leftInner || e.m > cap g.o g.b.outInner) (v .tensorRange 24)
            ++ violIf (!la.holds (lv.hull e.left)) (v .tensorRange 0)
            ++ violIf (!ra.holds (g.r.hull e.right)) (v .tensorRange 8)
            ++ violIf (!oa.holds ((if g.prog.scatter then g.o else ov).hull e.out)) (v .tensorRange 16)
            ++ violIf (mOf lv g.b.leftInner != mOf ov g.b.outInner) (shapeViol g.l 32)).flatten

/-- The destination of an entry as R96 compares it, and the bytes it reads. -/
def Geo.outRanges (g : Geo) (e : PEntry) : List Rng :=
  if g.useList then (if e.m = 0 then [] else (entryView g.o g.b.outInner e.m).ranges e.out) else g.o.ranges 0
def Geo.leftRanges (g : Geo) (e : PEntry) : List Rng :=
  if g.useList then (if e.m = 0 then [] else (entryView g.l g.b.leftInner e.m).ranges e.left) else g.l.ranges 0
def Geo.rightRanges (g : Geo) (e : PEntry) : List Rng :=
  if g.useList then (if e.m = 0 then [] else g.r.ranges e.right) else g.r.ranges 0
def Geo.inRanges (g : Geo) (e : PEntry) : List Rng := g.leftRanges e ++ g.rightRanges e
/-- The bytes an entry may store to: under SCATTER any row of the output at its offset (R208). -/
def Geo.storeRanges (g : Geo) (e : PEntry) : List Rng :=
  if g.prog.scatter ∧ !(g.useList ∧ e.m = 0) then g.o.ranges (if g.useList then e.out else 0) else g.outRanges e

/-- The first two entries whose destinations overlap (R96, R201). -/
def firstOverlap (rs : List (List Rng)) : Option (Nat × Nat) :=
  (upTo rs.length).findSome? fun i =>
    ((upTo rs.length).find? fun j => i < j && rangesMeet (rs.getD i []) (rs.getD j [])).map fun j => (i, j)

def overlapEnding (handle i j : Nat) : Ending := ⟨Status.destOverlap.code, 0, detail4 handle 0 i j⟩

/-! ### Capacity (R97) -/

/-- Banks and accumulator slots of a physical cell that a context owns with ASSIGNED set. -/
def State.ownsBank (s : State) (c cell bank : Nat) : Bool := ownerOf (s.rd (ownerReg cell bank)) == some c
def State.banksOwned (s : State) (c cell : Nat) : Nat := ((upTo 24).filter fun b => s.ownsBank c cell b).length
def State.slotsOwned (s : State) (c cell : Nat) : List Nat := (upTo 8).filter fun k => s.ownsBank c cell (24 + k)

/-- Accumulator slots of a logical cell that held tiles of a context occupy, of every tag or of all but one. -/
def State.heldSlots (s : State) (c l : Nat) (but : Option Nat) : List Nat :=
  (upTo 8).filter fun k =>
    s.held.any fun h => h.ctx == c && some h.tag != but
      && h.tiles.vals.any fun t => t.cell == l && t.slots.contains k

/-- Bytes that `rows` rows of `k` elements of an operand take in staging, in its source format: a sparse tile counts at its slot
size, whatever its stored form (R97). -/
def stagedBytes (t : Tens) (rows k : Nat) : Nat :=
  if t.sparseN ≠ 0 then ceilDiv rows 16 * ceilDiv k 256 * tileDense t.fmt
  else rows * (t.fmt.rowBytes k + if t.fmt.isMX then ceilDiv k 32 else 0)

/-- Bytes of the drain's operands for one tile (R97); element bytes are the format's block bytes over its elements. -/
def State.drainBytes (s : State) (c : Nat) (g : Geo) : Nat :=
  (g.prog.operands.map fun u =>
    if u.2 = 1 then g.b.nt * 4
    else if u.2 = 2 then g.b.mt * 4
    else (s.tens? c u.1.handle).elim 0 fun t => ceilDiv (g.b.mt * g.b.nt * t.fmt.blockBytes) t.fmt.block).foldl (· + ·) 0

/-- Bytes that a task stages: both operand tiles over a chunk of Kt, and the drain's operands (R97). -/
def State.taskBytes (s : State) (c : Nat) (g : Geo) : Nat :=
  stagedBytes g.l g.b.mt g.kt + stagedBytes g.r g.b.nt g.kt + s.drainBytes c g

/-- Tiles of the static assignment on member `i` of `n` (R99). -/
def staticTiles (g : Geo) (n i : Nat) : List TileInfo :=
  let ts := g.tiles
  ((upTo ts.length).filter fun k => k % max 1 n == i).filterMap fun k => ts[k]?

/-- The capacity check of one cell: `l` logical, `i` its place among the group's `n` cells (R97). -/
def State.checkCell (s : State) (c : Nat) (g : Geo) (rbBytes : Nat) (l n i : Nat) : Option Status :=
  let cell := (s.cellOf l).getD 0
  let q := g.b.mt * g.b.nt / 1024
  let slots (k : Nat) : Nat := ceilDiv (k * q) 16
  let hold := g.b.holdIn || g.b.holdOut
  let held := (s.heldSlots c l (if g.b.holdIn then some g.b.holdTag else none)).length
  let need := if hold then slots (staticTiles g n i).length else slots 1
  if need + held > (s.slotsOwned c cell).length then some .tileCapacity
  else if ceilDiv (s.taskBytes c g) 131072 > s.banksOwned c cell then some .bufferCapacity
  else if g.b.mode = 2 ∧ rbBytes < g.b.openTiles * (g.b.segs - 1) * g.b.mt * g.b.nt * 4 then some .bufferCapacity
  else none

/-- Bytes of a tensor's extent. -/
def Tens.extentBytes (t : Tens) : Nat := if t.raw then t.ext 0 else t.rows * t.rowBytes

/-- The hold set of a (context, HOLD_TAG). -/
def State.heldSet (s : State) (c tag : Nat) : Option HoldSet := s.held.find? fun h => h.ctx = c && h.tag = tag

/-- Every member of a cell group. -/
def State.roster (s : State) (group : Nat) : List Nat := (s.groups.get? group).elim [] fun x => x.members

/-- A command that holds its tiles under a tag at its completion has not completed (R170). -/
def State.holding (s : State) (c tag : Nat) : Bool :=
  s.cmds.any fun x => x.id.ctx == c && isOpcode 0x20 x.desc && (pBody x.desc).holdOut && (pBody x.desc).holdTag == tag

/-- Breaches of R100, R170 and R279. -/
def State.holdViols (s : State) (c group : Nat) (members : List Nat) (g : Geo) : List Viol :=
  match s.heldSet c g.b.holdTag with
  | none => violIf g.b.holdIn (formatViol 54)
  | some h =>
    if g.b.holdIn then
      violIf (s.holding c g.b.holdTag || h.group != group || h.m != g.m || h.n != g.n || h.mt != g.b.mt || h.nt != g.b.nt || h.plist != g.b.plist
          || h.roster != s.roster group || h.cells != members)
        (formatViol 54)
        ++ violIf (g.tiles.any fun t => (h.tiles.get? t.num).isNone) (formatViol 54)
    else violIf g.b.holdOut (formatViol 60)

/-- Read a RAW record in full, at issue. -/
def State.readRaw (s : State) (id : CmdId) (t : Tens) (n : Nat) : Except AccErr (List Byte) :=
  s.readBytes (s.accOf id t) t.base n

/-- Checks of a drain program's descriptor and record (R110, R568); the record when it can be read. -/
def State.drainCheck (s : State) (id : CmdId) (h off : Nat) : List Viol × List Byte × Option AccErr :=
  if h = noHandle then ([], [], none)
  else
    match s.tens? id.ctx h with
    | none => ([], [], none)
    | some t =>
      if t.ext 0 < 128 then ([viol .descFormat h off], [], none)
      else if t.base % 64 ≠ 0 then ([viol .alignInner h off], [], none)
      else
        match s.readRaw id t 128 with
        | .error e => ([], [], some e)
        | .ok r => (progViols h r, r, none)

/-- The bytes of a pointer list, read at issue (R94, R96). -/
def State.listCheck (s : State) (id : CmdId) (h off : Nat) : List Viol × List Byte × Option AccErr :=
  if h = noHandle then ([], [], none)
  else
    match s.tens? id.ctx h with
    | none => ([], [], none)
    | some t =>
      if t.ext 0 % 32 ≠ 0 ∨ t.ext 0 / 32 > 2 ^ 24 then ([viol .descFormat h off], [], none)
      else
        match s.readRaw id t (t.ext 0) with
        | .error e => ([], [], some e)
        | .ok r => ([], r, none)

/-- Formats and shapes of a program's operands (Table 4-6): the scale vector is FP32, a tensor operand has the output's shape
unless columns are paired under SILU_GLU. -/
def State.operandViols (s : State) (c : Nat) (p : Prog) (o : Tens) : List Viol :=
  (p.operands.map fun u =>
    match s.tens? c u.1.handle with
    | none => []
    | some t =>
      violIf (u.1.off == 4 && t.fmt != .fp32) (viol .descFormat u.1.handle u.1.off)
        ++ violIf (u.2 == 3 && p.act != 6 && t.shape != o.shape) (viol .descFormat u.1.handle u.1.off)
        ++ violIf (t.sparseN != 0) (viol .descFormat u.1.handle u.1.off)).flatten.map (·.inRec 2)

/-- The index tensor of a drain under SCATTER, judged at issue (R208). -/
def State.scatterCheck (s : State) (id : CmdId) (p : Prog) (o : Tens) : Option Ending :=
  if !p.scatter then none
  else
    match s.tens? id.ctx p.scatterHandle with
    | none => none
    | some t =>
      if t.fmt ≠ .uint32 then some (refusal .descFormat p.scatterHandle 64)
      else
        match s.readIndex id t with
        | .error e => some e.ending
        | .ok vs =>
          match firstBad o t.signed vs with
          | some k => some (idxEnding p.scatterHandle k)
          | none => (firstRepeat vs).map fun ij => overlapEnding o.handle ij.1 ij.2

/-- The bytes of a tensor that the drain reads tile by tile at the output's place, over every entry. -/
def State.entryRanges (s : State) (c : Nat) (g : Geo) (h : Nat) (off : Tens → Nat → Nat) : List Rng :=
  match s.tens? c h with
  | none => []
  | some t =>
    (g.entries.map fun e =>
      if !g.useList then t.ranges (off t 0)
      else if e.m = 0 then [] else (entryView t g.b.outInner e.m).ranges (off t e.out)).flatten

/-- The mask tensor's offset that goes with an entry of the output (R131). -/
def maskOff (o m : Tens) (off : Nat) : Nat := off / tileDense o.fmt * tileDense m.fmt

/-- What a product reads besides its operands: tensor operands of the drain and the mask as its entries place them, every
other tensor whole. -/
def State.otherReads (s : State) (c : Nat) (g : Geo) (uses : List HUse) : List (Nat × Nat × List Rng) :=
  let tens := (g.prog.operands.filter fun u => u.2 == 3).map fun u => u.1
  let isMask (u : HUse) : Bool := g.sampled && u.handle == g.o.maskHandle && u.off == 40
  s.usedRanges c (uses.filter fun u => u.reads && u.off != 32 && u.off != 36 && !tens.contains u && !isMask u)
    ++ (tens.map fun u => (u.handle, u.off, s.entryRanges c g u.handle fun _ o => o))
    ++ (if g.sampled then [(g.o.maskHandle, 40, s.entryRanges c g g.o.maskHandle (maskOff g.o))] else [])

/-- The statistics records a product writes (R115). -/
def State.statsRanges (s : State) (c : Nat) (g : Geo) : List (Nat × Nat × List Rng) :=
  if g.b.stats = noHandle ∨ g.exact ∨ g.b.holdOut then []
  else ((s.tens? c g.b.stats).map fun t => (g.b.stats, 76, [((t.base, 32 * g.tiles.length) : Rng)])).toList

/-- The checks that need the whole product: entries, overlaps, ownership, holds and capacity. -/
def State.productLate (s : State) (id : CmdId) (members : List Nat) (g : Geo) (uses : List HUse)
    (recs : Tab (List Byte)) : Verdict :=
  let c := id.ctx
  let vs := entryViols g (s.allocOf c g.l) (s.allocOf c g.r) (s.allocOf c g.o) 
  let outs := g.entries.map g.outRanges
  let stores := (g.entries.map g.storeRanges).flatten
  let others := s.otherReads c g uses
  let reads := (g.entries.map g.inRanges).flatten ++ (others.map fun t => t.2.2).flatten
    ++ (if g.b.holdIn then ((s.heldSet c g.b.holdTag).map fun h => h.outs).getD [] else [])
  let nr := g.b.holdIn || rangesMeet stores reads
  let x := s.accOf id g.o
  let rb := ((s.tens? c g.b.reduceBuf).map Tens.extentBytes).getD 0
  let ending :=
    match worst vs with
    | some v => some v.ending
    | none =>
      match firstOverlap outs with
      | some (i, j) => some (overlapEnding g.o.handle i j)
      | none =>
        match s.gateEnding x ((g.l.handle, 32, (g.entries.map g.leftRanges).flatten)
            :: (g.r.handle, 36, (g.entries.map g.rightRanges).flatten) :: (g.o.handle, 40, stores) :: others ++ s.statsRanges c g) with
        | some e => some e
        | none =>
          match s.scatterCheck id g.prog g.o with
          | some e => some e
          | none =>
          ((upTo members.length).findSome? fun i =>
            s.checkCell c g rb (members.getD i 0) members.length i).map Status.plain
  ⟨ending, uses, recs, nr⟩

/-- The tensors a product's drain program names. -/
def Geo.progUses (g : Geo) : List HUse :=
  (g.prog.operands.map fun u => u.1) ++ (if g.prog.scatter then [useIn g.prog.scatterHandle 64] else [])

/-- The mask tensor of a sampled product, which its output names. -/
def Geo.maskUses (g : Geo) : List HUse := if g.sampled then [useIn g.o.maskHandle 40] else []

/-- Breaches by a product whose operands, program and list could be read: of the tensors these name, of its shapes, and of what it
holds (R87, R100, R147). -/
def State.shapeViols (s : State) (c : Nat) (g : Geo) (group : Nat) (members : List Nat) : List Viol :=
  (g.progUses.map (s.useViols c)).flatten.map (·.inRec 2) ++ (g.maskUses.map (s.useViols c)).flatten
    ++ geoViols g (if g.sampled then s.tens? c g.o.maskHandle else none)
    ++ s.operandViols c g.prog g.o ++ violIf (g.prog.scatter && g.b.outInner) (formatViol 55) ++ s.holdViols c group members g

/-- The checks at issue of a PRODUCT (R86–R100, R110, R122, R143, R147, R563, R566, R568). `members` are the group's cells
in service, ascending. -/
def State.checkProduct (s : State) (id : CmdId) (d : List Byte) (group : Nat) (members : List Nat) : Verdict :=
  let c := id.ctx
  let b := pBody d
  let uses := pUses b
  let v1 := bodyViols d pSpans ++ pEncodings d ++ (uses.map (s.useViols c)).flatten
  let (dv, prec, derr) := s.drainCheck id b.drain 48
  let (lv, lrec, lerr) := s.listCheck id b.plist 44
  let recs : Tab (List Byte) := [(0, lrec), (1, prec)]
  let clean := (pEncodings d).isEmpty && dv.isEmpty && lv.isEmpty && derr.isNone && lerr.isNone
  let v2 := match clean, s.geo id d recs with
    | true, some g => s.shapeViols c g group members
    | _, _ => []
  match worst (v1 ++ dv ++ lv ++ v2) with
  | some v => ⟨some v.ending, uses, [], false⟩
  | none =>
    match derr, lerr with
    | some e, _ => ⟨some e.ending, uses, [], false⟩
    | none, some e => ⟨some e.ending, uses, [], false⟩
    | none, none =>
      match s.geo id d recs with
      | none => ⟨some (refusal .descFormat noHandle 32), uses, [], false⟩
      | some g =>
        let all := uses ++ g.progUses ++ g.maskUses
        s.productLate id members g all recs

end Sys2Proof.Machine
end

