-- ==== Sys2Proof/Machine/Array.lean ====
section
/-!
DEFINITION. Machine/Array.lean: the dot-unit array (R69, R70, R102, R121, R136): operand rows as staged, groups of k and
their accumulation.
-/
namespace Sys2Proof.Machine

/-! ### Accumulation -/

/-- A magnitude truncated toward zero to a multiple of `2^q`. -/
def truncTo (q : Int) : FVal → FVal
  | .fin n m e => if q ≤ e then .fin n m e else .fin n (m >>> (q - e).toNat) q
  | x => x

/-- One group of exact products added into a floating-point accumulator element (R69). -/
def dotGroup (acc : FVal) (ps : List FVal) : FVal :=
  let nz := ps.filter fun p => p.isFinite && !p.isZero
  let sum :=
    if ps.any fun p => !p.isFinite then ps.foldl (fun a p => a.add p) FVal.zero
    else
      match nz with
      | [] => FVal.zero
      | p :: t =>
        let e := t.foldl (fun (a : Int) x => max a x.expo) p.expo
        let r := nz.foldl (fun a x => a.add (truncTo (e - 48) x)) FVal.zero
        if r.isZero then FVal.zero else r
  toF32 (acc.add sum)

/-- The limits of INT32 accumulation. -/
def int32Max : Int := 2 ^ 31 - 1

/-- An addition into an INT32 accumulator element, and whether it saturated (R70, R102). -/
def satAdd (acc add : Int) : Int × Bool :=
  let v := acc + add
  if v > int32Max then (int32Max, true) else if v < -int32Max then (-int32Max, true) else (v, false)

/-- The integer a value holds. -/
def intOf (x : FVal) : Int := roundInt .rtz x

/-- One group of one element: its lanes name positions of K; an empty lane carries a zero. -/
def groupStep (isInt : Bool) (a b : List FVal) (acc : FVal × Bool) (lanes : List (Option Nat)) : FVal × Bool :=
  let ps := lanes.filterMap fun l => l.map fun k => (a.getD k .zero).mul (b.getD k .zero)
  if isInt then
    let s := ps.foldl (fun (t : Int) p => t + intOf p) 0
    let r := satAdd (intOf acc.1) s
    (.ofInt r.1, acc.2 || r.2)
  else (dotGroup acc.1 ps, acc.2)

/-- An element over every group of a segment, ascending (R92). -/
def dotElem (isInt : Bool) (a b : List FVal) (groups : List (List (Option Nat))) (acc : FVal) : FVal × Bool :=
  groups.foldl (groupStep isInt a b) (acc, false)

/-! ### Rotation (R121, R122) -/

/-- One butterfly stage of pairs `d` apart. -/
def butterfly (d : Nat) (xs : List FVal) : List FVal :=
  (upTo xs.length).map fun i =>
    if i / d % 2 = 0 then add32 (xs.getD i .zero) (xs.getD (i + d) .zero)
    else sub32 (xs.getD (i - d) .zero) (xs.getD i .zero)

/-- A run of `w` elements, 16 or 64, rotated. -/
def rotateRun (w : Nat) (xs : List FVal) : List FVal :=
  let ys := (if w = 16 then [1, 2, 4, 8] else [1, 2, 4, 8, 16, 32]).foldl (fun a d => butterfly d a) xs
  ys.map fun y => mul32 y (.pow2 (if w = 16 then -2 else -3))

/-- A row rotated in staging and quantised to MXFP4 in blocks of 32 (R122). -/
def rotateRow (w : Nat) (xs : List FVal) : List FVal :=
  let ys := ((chunks w (xs.length / w + 1) (xs.map toF32)).map (rotateRun w)).flatten
  let bs := chunks 32 (ys.length / 32 + 1) ys
  ((bs.map fun b =>
    let e := encodeMX .mxfp4 (fun _ => .rne) b
    decodeExact .mxfp4 .one e.1 e.2.1).flatten).take xs.length

/-! ### Staged rows -/

/-- A row of an operand along K as the array takes it, with the kept positions of an N:8 row. -/
structure OpRow where
  vals : List FVal
  kept : Option (List Nat)
  deriving DecidableEq, Repr

/-- Row `r` of an operand (a row of M, or of N), and its promoted granules. -/
def State.stageRow (s : State) (id : CmdId) (t : Tens) (inner : Bool) (off rot rotW gen r : Nat) :
    Except AccErr (OpRow × List Nat) :=
  let x := s.accOf id t
  let sT := s.readScale id t
  if t.sparseN ≠ 0 then
    match s.readSparseRow x t sT off gen r with
    | .error e => .error e
    | .ok (vs, ks) =>
      match s.overlayShadow x t off r vs with
      | .error e => .error e
      | .ok (ys, gs) => .ok (⟨ys, ks⟩, gs)
  else if inner then
    match mapE (fun k => s.readRow x .exact t sT off (t.outer k)) (upTo t.rows) with
    | .error e => .error e
    | .ok rows =>
      let vs := rows.map fun row => row.getD r .zero
      .ok (⟨if rot = 1 then rotateRow rotW vs else vs, none⟩, [])
  else
    match s.readOperandRow x t sT off r with
    | .error e => .error e
    | .ok (vs, p) => .ok (⟨if rot = 1 then rotateRow rotW vs else vs, none⟩, p)

/-- Rows `lo` to `lo + n - 1`, and whether they cover a promoted granule within positions `ka` to `kb - 1` of K (R125). -/
def State.stageRows (s : State) (id : CmdId) (t : Tens) (inner : Bool) (off rot rotW gen lo n ka kb : Nat) :
    Except AccErr (List OpRow × Bool) :=
  match mapE (fun i => s.stageRow id t inner off rot rotW gen (lo + i)) (upTo n) with
  | .error e => .error e
  | .ok rs => .ok (rs.map fun r => r.1, rs.any fun r => r.2.any fun g => decide (64 * g < kb) && decide (ka < 64 * g + 64))

/-- Lanes of one row over positions `ka` to `kb - 1`, cut into groups of `k`: every position of a dense row; the kept
positions of each group of 8 of an N:8 row, filled up with zeros to `max N 2` lanes (R136). -/
def lanesIn (n : Nat) (row : OpRow) (k ka kb : Nat) : List (List (Option Nat)) :=
  let lanes : List (Option Nat) :=
    match row.kept with
    | none => (upTo (kb - ka)).map fun i => some (ka + i)
    | some ks =>
      ((upTo (ceilDiv (kb - ka) 8)).map fun g =>
        let here := (ks.filter fun p => ka + 8 * g ≤ p && p < min kb (ka + 8 * g + 8)).map some
        (here ++ List.replicate (max n 2) none).take (max n 2)).flatten
  chunks k (lanes.length / k + 1) lanes

/-! ### Tiles -/

/-- The tile of one segment added onto `start` (row-major): its rows of values, and whether an addition saturated. A pass of
16 × 64 outputs that `skip` names by row and column is not made: its outputs keep what `start` gives (R149). -/
def tileSum (g : Geo) (k : Nat) (ls rs : List OpRow) (seg : Nat) (start : List FVal) (nc : Nat) (skip : Nat → Nat → Bool) :
    List (List FVal) × Bool :=
  let (ka, kb) := g.segK seg
  let isInt := g.pair.2
  let n := g.a.sparseN
  let lanes (r : OpRow) : List (List (Option Nat)) := lanesIn n r k ka kb
  let out := (upTo ls.length).map fun i =>
    let l := ls.getD i ⟨[], none⟩
    let ll := lanes l
    (upTo rs.length).map fun j =>
      let r := rs.getD j ⟨[], none⟩
      if skip (i / 16) (j / 64) then (start.getD (i * nc + j) .zero, false)
      else dotElem isInt l.vals r.vals (if g.b.aRight then lanes r else ll) (start.getD (i * nc + j) .zero)
  (out.map fun row => row.map fun e => e.1, out.any fun row => row.any fun e => e.2)

/-- Bits of accumulator values, as they are kept: FP32 codes, or INT32 codes. R105 and R106 speak of partials in FP32: those of
an integer product are carried as INT32 codes, as its accumulator holds them (DESIGN CHOICE, log entry 148). -/
def accBits (isInt : Bool) (x : FVal) : Nat := if isInt then unsignedOf 32 (intOf x) else toBits32 x
def accVal (isInt : Bool) (w : Nat) : FVal := if isInt then .ofInt (signedOf 32 w) else ofBits32 w

/-- Raw partials added in (R105, R106): one rounding per addition; those of an integer product saturate as R102 says of every
addition into its accumulator (log entry 148). -/
def addPartial (isInt : Bool) (a p : List Nat) : List Nat × Bool :=
  let rs := (upTo (max a.length p.length)).map fun i =>
    if isInt then
      let r := satAdd (signedOf 32 (a.getD i 0)) (signedOf 32 (p.getD i 0))
      (unsignedOf 32 r.1, r.2)
    else (toBits32 (add32 (ofBits32 (a.getD i 0)) (ofBits32 (p.getD i 0))), false)
  (rs.map fun r => r.1, rs.any fun r => r.2)

end Sys2Proof.Machine
end

