-- ==== Sys2Proof/Machine/Draws.lean ====
section
/-!
DEFINITION. Machine/Draws.lean: the draw list (R91, R99, R104, R107, R256, R257) and the life of a tile: staging,
accumulation, drain, store (R92–R95, R103–R116, R123–R125, R148).
-/
namespace Sys2Proof.Machine

def State.updRun (s : State) (id : CmdId) (f : Run → Run) : State := s.updCmd id fun c => { c with run := f c.run }
def State.updTile (s : State) (id : CmdId) (k : Nat) (f : TileSt → TileSt) : State :=
  s.updRun id fun r => { r with tiles := r.tiles.upd k TileSt.init f }

/-- Run a command's own row: only on an issued command of the right kind that has no ending yet. -/
def State.onCmd (s : State) (id : CmdId) (p : List Byte → Bool) (f : Cmd → State) : State :=
  match s.cmd? id with
  | none => s
  | some c => if c.ending.isNone ∧ p c.desc then f c else s

/-- The logical cell a physical cell fills, where it is in service there. -/
def State.logicalOf (s : State) (cell : Nat) : Option Nat :=
  match (s.cell cell).logical with
  | none => none
  | some l => if (s.lslot l).inService then some l else none

/-! ### What a command offers -/

/-- Tiles of a command that are open: segment 0 taken, not drained (R104). -/
def Run.openTiles (r : Run) : Nat := (r.tiles.vals.filter fun t => t.opened).length

/-- The next tasks from the cursor, at most `n`, stopping where OPEN_TILES allows no further tile (R91, R104). -/
def nextRun (g : Geo) (openNow : Nat) : Nat → Nat → List Nat
  | 0, _ => []
  | n + 1, k =>
    if k ≥ g.tasks then []
    else if g.b.segs > 1 ∧ k % g.b.segs = 0 then
      if openNow ≥ g.b.openTiles then [] else k :: nextRun g (openNow + 1) n (k + 1)
    else k :: nextRun g openNow n (k + 1)

/-- The tasks a logical cell would be handed by one draw from a command: tasks offered again first (R460), then its
static tiles under a hold (R99), or a run from the cursor. -/
def Cmd.runFor (c : Cmd) (g : Geo) (l : Nat) : List Nat :=
  if !c.begun ∨ c.run.stop.isSome ∨ c.ending.isSome ∨ !c.cells.contains l then []
  else
    let hold := g.b.holdIn || g.b.holdOut
    let i := c.cells.findIdx fun x => x == l
    let mine (k : Nat) : Bool := !hold || k / g.b.segs % max 1 c.cells.length == i
    match c.reoffered.filter mine with
    | k :: _ => [k]
    | [] =>
      if hold then
        match (upTo g.tasks).find? fun k => mine k && c.cursor ≤ k && !c.done.contains k && !c.taken.contains k with
        | some k => if g.b.segs > 1 ∧ k % g.b.segs = 0 ∧ c.run.openTiles ≥ g.b.openTiles then [] else [k]
        | none => []
      else nextRun g c.run.openTiles (min 64 g.b.drawRun) c.cursor

/-- Class of a command's runs (R256, R257): 2 promoted, 1 FOREGROUND, 0 other DEFERRABLE. -/
def State.runClass (s : State) (c : Cmd) : Nat :=
  if !(s.queue c.id.ctx c.id.q).deferrable then 1
  else
    match deadlineOf c.desc, s.gradStep with
    | some t, some g => if reachedTarget g t then 2 else 0
    | _, _ => 0

/-- Rank of a command among those that offer runs: class, then PRIORITY. -/
def State.runRank (s : State) (c : Cmd) : Nat := s.runClass c * 4 + (s.queue c.id.ctx c.id.q).prio

def queueKey (i : CmdId) : Nat := i.ctx * 64 + i.q

/-- The commands that offer a run to a logical cell: products, and the vector commands whose tasks the draw list hands out
(R118, R178, R181). -/
def State.offering (s : State) (l : Nat) : List Cmd :=
  s.cmds.filter fun c =>
    if hOpcode c.desc = 0x20 then ((s.geo c.id c.desc c.records).map fun g => !(c.runFor g l).isEmpty) == some true
    else [0x21, 0x22, 0x23].contains (hOpcode c.desc) && c.ending.isNone && c.cells.contains l

/-- The queues of the highest class and priority that offer runs to a logical cell, whichever group they serve (R256). -/
def State.turnQueues (s : State) (l : Nat) : List Nat :=
  let all := s.offering l
  let best := all.foldl (fun m x => max m (s.runRank x)) 0
  (all.filter fun x => s.runRank x == best).map fun x => queueKey x.id

/-- The queues that the draw lists of a logical cell's groups have served in their present round, as one list (R256). -/
def State.servedAt (s : State) (l : Nat) : List Nat :=
  ((s.groups.vals.filter fun g => g.members.contains l).map fun g => g.served).flatten

/-- Whether R256 lets a logical cell take a run of `c` now; and whether a new round of turns begins with it. -/
def State.mayDraw (s : State) (l : Nat) (c : Cmd) : Option Bool :=
  let qs := s.turnQueues l
  let renew := qs.all fun k => (s.servedAt l).contains k
  if qs.contains (queueKey c.id) ∧ (s.offering l).all (fun x => s.runRank x ≤ s.runRank c)
      ∧ (renew ∨ !(s.servedAt l).contains (queueKey c.id)) then some renew
  else none

/-- A run of `c` is handed to a logical cell: its queue has had its turn on the draw list of its group. -/
def State.serve (s : State) (l : Nat) (c : Cmd) (renew : Bool) : State :=
  let qs := s.turnQueues l
  { s with groups := s.groups.mapVals fun k g =>
      let old := if renew ∧ g.members.contains l then g.served.filter fun q => !qs.contains q else g.served
      { g with served := if k = (s.queue c.id.ctx c.id.q).group then queueKey c.id :: old else old } }

/-- The first member of a vector command's group that may take a run of it now. -/
def State.turnOf (s : State) (c : Cmd) : Option (Nat × Bool) :=
  c.cells.findSome? fun l => (s.mayDraw l c).map fun r => (l, r)

/-! ### Staging checks (R144) -/

/-- The first storage tile of a task's sparse operand whose MASK_GEN is not the command's (R144). -/
def State.staleTile (s : State) (id : CmdId) (g : Geo) (t : TileInfo) (seg : Nat) : Option Ending :=
  let (ka, kb) := g.segK seg
  let one (u : Tens) (off r0 rows role : Nat) : Option Ending :=
    (upTo (ceilDiv rows 16)).findSome? fun i =>
      (upTo (ceilDiv kb 256 - ka / 256)).findSome? fun j =>
        let r := r0 / 16 + i
        let c := ka / 256 + j
        match s.readBytes (s.accOf id u) (u.tileAddr off g.b.maskGen r c) 4 with
        | .error _ => none
        | .ok bs =>
          if u16 bs 2 = g.b.maskGen % 65536 then none
          else some (sparseEnding ⟨.maskGeneration, 16 * r, 32 * c⟩ u.handle t.entryNo role)
  if g.sparse then
    let in' (e lo n : Nat) : Nat := min n (e - lo)
    if g.b.aRight then one g.r t.entry.right t.c0 (in' (g.r.ext 1) t.c0 (min g.b.nt (g.n - t.c0))) 1
    else
      let v := if g.useList then entryView g.l g.b.leftInner t.entry.m else g.l
      one g.l t.entry.left t.r0 (in' (v.ext 1) t.r0 (min g.b.mt (t.rows - t.r0))) 0
  else none

/-! ### The output of a tile -/

/-- The output as the tile's entry views it, its offset, and the first output column. -/
def Geo.outView (g : Geo) (t : TileInfo) : Tens :=
  if g.useList then entryView g.o g.b.outInner t.entry.m else g.o
def Geo.outOff (g : Geo) (t : TileInfo) : Nat := if g.useList then t.entry.out else 0
def Geo.outCol (g : Geo) (t : TileInfo) : Nat := if g.glu then t.c0 / 2 else t.c0
/-- The column within the output tile that column `j` of the product tile goes into (R113). -/
def Geo.outIdx (g : Geo) (j : Nat) : Nat := if g.glu then j / 128 * 64 + j % 64 else j

/-- Bitmaps of the mask over the storage tiles a tile is stored to: one list of 512 for each 16 rows (R148). -/
def State.maskMaps (s : State) (id : CmdId) (g : Geo) (t : TileInfo) (nrows : Nat) : Except AccErr (List (List Nat)) :=
  if !g.sampled then .ok []
  else
    match s.tensRun id.ctx g.o.maskHandle with
    | none => .ok []
    | some m =>
      mapE (fun k =>
        match s.readTile (s.accOf id m) m .one (maskOff g.o m (g.outOff t)) g.b.maskGen (t.r0 / 16 + k) (g.outCol t / 256) with
        | .error e => .error e
        | .ok st => .ok st.maps) (upTo (ceilDiv nrows 16))

/-- Whether an output element of the tile lies inside the extent, and is kept (R93, R148). -/
def Geo.inside (g : Geo) (t : TileInfo) (maps : List (List Nat)) (i j : Nat) : Bool :=
  let v := g.outView t
  let c := g.outCol t + j
  if g.b.outInner then t.r0 + i < v.ext 0 && c < v.ext 1
  else
    v.outerIn (v.outer (t.r0 + i)) && c < v.ext 0
      && (!g.sampled || bitOf ((maps.getD (i / 16) []).getD (32 * (i % 16) + c % 256 / 8) 0) (c % 8))

/-- Whether a product element counts as a MAC output: the output element it goes into is inside, and kept (R93, R149). -/
def Geo.counts (g : Geo) (t : TileInfo) (maps : List (List Nat)) (i j : Nat) : Bool := g.inside t maps i (g.outIdx j)

/-- The array passes of a sampled product whose 16 × 64 outputs are all unkept, by row and column of the pass (R149). -/
def Geo.skips (g : Geo) (t : TileInfo) (maps : List (List Nat)) (i j : Nat) : Bool :=
  g.sampled && (upTo 16).all fun a => (upTo 64).all fun b => !g.counts t maps (16 * i + a) (64 * j + b)

/-- The rows of a tile through the drain's stages 1 to 4 (R109). A tensor operand is read at the output's place: under a
pointer list at the entry's OUT_OFFSET, its extent replaced by the entry's M as the output's is, whatever its own format; and
under SILU_GLU stage 3 takes it by product column, its shape not judged against the output's (DESIGN CHOICES, log entries 151
and 152). -/
def State.drainTile (s : State) (id : CmdId) (g : Geo) (t : TileInfo) (rows : List (List FVal)) :
    Except AccErr (List (List FVal)) :=
  if g.exact then .ok rows
  else
    let nc := (rows.getD 0 []).length
    let tens (u : Tens) : Except AccErr (List (List FVal)) :=
      let v := if g.useList then entryView u g.b.outInner t.entry.m else u
      let x := s.accOf id u
      let sT := s.readScale id u
      if g.b.outInner then
        match mapE (fun j => s.readRow x .fp32 v sT (g.outOff t) (v.outer (t.c0 + j))) (upTo nc) with
        | .error e => .error e
        | .ok cs => .ok ((upTo rows.length).map fun i => cs.map fun c => c.getD (t.r0 + i) .zero)
      else
        match mapE (fun i => s.readRow x .fp32 v sT (g.outOff t) (v.outer (t.r0 + i))) (upTo rows.length) with
        | .error e => .error e
        | .ok rs => .ok (rs.map fun r => (r.drop t.c0).take nc)
    match s.readStages id g.prog tens with
    | .error e => .error e
    | .ok st =>
      .ok ((upTo rows.length).map fun i =>
        st.row (fun j => ⟨t.entry.vec * g.n + t.c0 + j, t.rowBase + t.r0 + i, i, j⟩) (rows.getD i []))

/-- The elements of a drained tile that count, with their columns, row-major. -/
def Geo.counted (g : Geo) (t : TileInfo) (maps : List (List Nat)) (rows : List (List FVal)) : List (Nat × FVal) :=
  ((upTo rows.length).map fun i =>
    let row := rows.getD i []
    ((upTo row.length).filter fun j => g.inside t maps i j).map fun j => (g.outCol t + j, row.getD j .zero)).flatten

/-! ### Storing a tile -/

/-- Blocks of a TB40 row that more than one tile completes (R564): elements are kept until the block is whole. -/
def State.storeParts (s : State) (id : CmdId) (x : Acc) (o : Tens) (off : Nat) (cs : List Nat) (key c0 : Nat)
    (vals : List FVal) : State × WOut :=
  let blk := o.fmt.block
  let b0 := c0 / blk
  let nb := ceilDiv (c0 + vals.length) blk - b0
  s.writeEach (fun t i =>
    let b := b0 + i
    let lo := max c0 (blk * b)
    let hi := min (c0 + vals.length) (blk * b + blk)
    let k := key * 2 ^ 32 + b
    let old : Tab Nat := ((t.cmd? id).map fun c => c.run.parts.getD k []).getD []
    let now : Tab Nat := (upTo (hi - lo)).foldl (fun (m : Tab Nat) j => Tab.set m (lo + j) (toBits32 (vals.getD (lo + j - c0) .zero))) old
    let want := min (o.ext 0) (blk * b + blk) - blk * b
    if now.length = want then
      (t.updRun id fun r => { r with parts := r.parts.erase k }).writeRun x o .one off cs (blk * b) (fun _ => .rne)
        (now.vals.map ofBits32)
    else (t.updRun id fun r => { r with parts := r.parts.set k now }, WOut.zero)) (upTo nb)

/-- Where the tile's rows go and how its elements round. -/
structure Dest where
  x : Acc
  sT : FVal
  mode : Nat
  step : Nat
  deriving DecidableEq, Repr

/-- Row `i` of a tile in the ordinary layout. A Dice draw numbers the row among the rows of all entries, not by the row that the
entry's OUT_OFFSET reaches (DESIGN CHOICE, log entry 26). -/
def State.storeRow (s : State) (id : CmdId) (g : Geo) (t : TileInfo) (dst : Dest) (outRow i : Nat) (row : List FVal) :
    State × WOut :=
  let v := g.outView t
  let c0 := g.outCol t
  let cs := v.outer outRow
  if !v.outerIn cs then (s, WOut.zero)
  else
    let vals := row.take (v.ext 0 - c0)
    let r := t.rowBase + t.r0 + i
    if v.fmt = .tb40 then s.storeParts id dst.x v (g.outOff t) cs r c0 vals
    else s.writeRun dst.x v dst.sT (g.outOff t) cs c0 (fun j => s.rndAt id g.o dst.mode dst.step r j) vals

/-- A tile stored with M along dimension 0 (R87, OUT_INNER). -/
def State.storeCols (s : State) (id : CmdId) (g : Geo) (t : TileInfo) (dst : Dest) (rows : List (List FVal)) :
    State × WOut :=
  let v := g.outView t
  let nc := (rows.getD 0 []).length
  s.writeEach (fun st j =>
    let n := g.outCol t + j
    if n ≥ v.ext 1 then (st, WOut.zero)
    else
      st.writeRun dst.x v dst.sT (g.outOff t) [n] t.r0 (fun m => s.rndAt id g.o dst.mode dst.step n (t.rowBase + m))
        ((rows.map fun r => r.getD j .zero).take (v.ext 0 - t.r0))) (upTo nc)

/-- The promotion bits of every granule that `nr` rows from `rr` on and `nc` columns from `c0` on meet, set or cleared (R124,
R195). -/
def State.markRun (s : State) (x : Acc) (v : Tens) (rr nr c0 nc : Nat) (on : Bool) : State × WOut :=
  if nr = 0 ∨ nc = 0 then (s, WOut.zero)
  else
    s.writeEach (fun st i =>
      st.writeEach (fun st j =>
        let k := v.granule (16 * (rr / 16 + i)) (c0 / 64 + j)
        match st.readByte x (v.promoMap + k / 8) with
        | .error e => (st, ⟨false, 0, 0, some e⟩)
        | .ok b =>
          let w := st.writeBytes x (v.promoMap + k / 8) [BitVec.ofNat 8 (putBits b.toNat (k % 8) (k % 8) (b2n on))]
          (w.1, ⟨false, 0, 1, w.2⟩)) (upTo ((c0 + nc - 1) / 64 - c0 / 64 + 1))) (upTo ((rr + nr - 1) / 16 - rr / 16 + 1))

/-- Set or clear the promotion bits of every granule a tile covers (R124). -/
def State.markGranules (s : State) (g : Geo) (t : TileInfo) (dst : Dest) (nr c0 nc : Nat) (on : Bool) : State × WOut :=
  let v := g.outView t
  s.markRun dst.x v (t.r0 + v.rowShift (g.outOff t)) nr c0 nc on

/-- A promoted tile: its rows from column `c0` on as MXFP8 in the shadow planes (R124, R195). -/
def State.storeShadow (s : State) (id : CmdId) (g : Geo) (t : TileInfo) (dst : Dest) (c0 : Nat) (rows : List (List FVal)) :
    State × WOut :=
  let v := g.outView t
  let sh : Tens := { v with fmt := .mxfp8, rank := 1, sparseN := 0 }
  s.writeEach (fun st i =>
    let r := t.r0 + i
    if !v.outerIn (v.outer r) then (st, WOut.zero)
    else
      let rr := r + v.rowShift (g.outOff t)
      let row : Tens := { sh with base := v.shadowRow rr, aux := v.shadowScaleRow rr }
      st.writeRun dst.x row .one 0 [] c0
        (fun j => s.rndAt id g.o dst.mode dst.step (t.rowBase + r) j) ((rows.getD i []).take (v.ext 0 - c0)))
    (upTo rows.length)

/-- Whether a tile with `strained` strained blocks is promoted (R124). -/
def Geo.promotes (g : Geo) (strained : Nat) : Bool := g.o.promote && g.b.budget != 0xFF && decide (strained > g.b.budget)

/-- The elements of a tile that lie in one column of storage tiles, row-major over 256 columns, with those that earlier parts
of the command left for it; and whether they are all there (R564): under SILU_GLU a tile fills half a storage tile. -/
def State.sampledPart (s : State) (id : CmdId) (g : Geo) (t : TileInfo) (maps : List (List Nat)) (rows : List (List FVal)) :
    Nat × Tab Nat × Bool :=
  let c := g.outCol t / 256
  let cc := g.outCol t % 256
  let key := 2 ^ 80 + (t.rowBase + t.r0) * 2 ^ 32 + c
  let old : Tab Nat := ((s.cmd? id).map fun x => x.run.parts.getD key []).getD []
  let now := (upTo rows.length).foldl (fun (m : Tab Nat) i =>
    let row := rows.getD i []
    (upTo row.length).foldl (fun m j =>
      m.set (256 * i + cc + j) (toBits32 (if g.inside t maps i j then row.getD j .zero else .zero))) m) old
  (key, now, decide (now.length = rows.length * min 256 (g.o.cols - 256 * c)))

/-- The storage tiles of a sampled product (R148), promoted as R124 says of any tile in EB4 or MXFP4; and whether they were. -/
def State.storeSampled (s : State) (id : CmdId) (g : Geo) (t : TileInfo) (dst : Dest) (maps : List (List Nat))
    (rows : List (List FVal)) : State × WOut × Bool :=
  let c := g.outCol t / 256
  let (key, now, whole) := s.sampledPart id g t maps rows
  if !whole then (s.updRun id fun r => { r with parts := r.parts.set key now }, WOut.zero, false)
  else
    let s := s.updRun id fun r => { r with parts := r.parts.erase key }
    let full := (upTo rows.length).map fun i => (upTo 256).map fun j => ofBits32 (now.getD (256 * i + j) 0)
    let enc := (upTo (ceilDiv rows.length 16)).map fun k =>
      encodeTile g.o.fmt g.o.sparseN g.b.maskGen (t.r0 / 16 + k) c dst.sT
        (fun i j => s.rndAt id g.o dst.mode dst.step (t.rowBase + t.r0 + 16 * k + i) (256 * c + j))
        ⟨maps.getD k [], (upTo 16).map fun i => full.getD (16 * k + i) (List.replicate 256 .zero)⟩
    let strained := (enc.map fun e => e.2.2).foldl (· + ·) 0
    let nc := min 256 (g.o.cols - 256 * c)
    if g.promotes strained then
      let r := s.storeShadow id g t dst (256 * c) full
      let m := r.1.markGranules g t dst rows.length (256 * c) nc true
      (m.1, { r.2.join m.2 with strained := strained }, true)
    else
      let r := s.writeEach (fun st k =>
        let e := enc.getD k ([], false, 0)
        let w := st.writeTile dst.x g.o (g.outOff t) g.b.maskGen (t.r0 / 16 + k) c e.1
        (w.1, ⟨e.2.1, e.2.2, e.1.length, w.2⟩)) (upTo enc.length)
      if g.o.promote ∧ r.2.err.isNone then
        let m := r.1.markGranules g t dst rows.length (256 * c) nc false
        (m.1, { r.2.join m.2 with strained := strained }, false)
      else (r.1, r.2, false)

/-- Strained blocks of a tile as it would be encoded (R123). -/
def State.strainedOf (s : State) (id : CmdId) (g : Geo) (t : TileInfo) (dst : Dest) (rows : List (List FVal)) : Nat :=
  let v := g.outView t
  ((upTo rows.length).map fun i =>
    if !v.outerIn (v.outer (t.r0 + i)) then 0
    else
      (v.encodeRun dst.sT (fun j => s.rndAt id g.o dst.mode dst.step (t.rowBase + t.r0 + i) j) (g.outCol t)
        ((rows.getD i []).take (v.ext 0 - g.outCol t))).2.2.2).foldl (· + ·) 0

/-- Rows of a tile scattered to the output rows their indices name (R116, R208). -/
def State.storeScatter (s : State) (id : CmdId) (g : Geo) (t : TileInfo) (dst : Dest) (idx : List Nat) (signed : Bool)
    (rows : List (List FVal)) : State × WOut :=
  s.writeEach (fun st i =>
    match idxOf g.o signed (idx.getD (t.rowBase + t.r0 + i) 0xFFFFFFFF) with
    | .row r =>
      let cs := g.o.outer r
      if !g.o.outerIn cs then (st, WOut.zero)
      else if g.o.fmt = .tb40 then
        st.storeParts id dst.x g.o (g.outOff t) cs r (g.outCol t) ((rows.getD i []).take (g.o.ext 0 - g.outCol t))
      else
        st.writeRun dst.x g.o dst.sT (g.outOff t) cs (g.outCol t)
          (fun j => s.rndAt id g.o dst.mode dst.step r j) ((rows.getD i []).take (g.o.ext 0 - g.outCol t))
    | _ => (st, WOut.zero)) (upTo rows.length)

/-- Stages 6 and 7: encode and store; and whether the tile was promoted. A drain under SCATTER covers no whole granules of its
output: it promotes nothing and leaves the promotion bits as they are (DESIGN CHOICE, log entry 153). -/
def State.storeTile (s : State) (id : CmdId) (g : Geo) (t : TileInfo) (dst : Dest) (maps : List (List Nat))
    (rows : List (List FVal)) : State × WOut × Bool :=
  let plain (r : State × WOut) : State × WOut × Bool := (r.1, r.2, false)
  if g.sampled then s.storeSampled id g t dst maps rows
  else if g.prog.scatter then
    match s.tensRun id.ctx g.prog.scatterHandle with
    | none => (s, WOut.zero, false)
    | some u =>
      match s.readIndex id u with
      | .error e => (s, ⟨false, 0, 0, some e⟩, false)
      | .ok idx => plain (s.storeScatter id g t dst idx u.signed rows)
  else if g.b.outInner then plain (s.storeCols id g t dst rows)
  else
    let nc := (rows.getD 0 []).length
    let strained := s.strainedOf id g t dst rows
    if g.promotes strained then
      let r := s.storeShadow id g t dst (g.outCol t) rows
      let m := r.1.markGranules g t dst rows.length (g.outCol t) nc true
      (m.1, { r.2.join m.2 with strained := strained }, true)
    else
      let r := s.writeEach (fun st i => st.storeRow id g t dst (t.r0 + i) i (rows.getD i [])) (upTo rows.length)
      if g.o.promote ∧ r.2.err.isNone then
        let m := r.1.markGranules g t dst rows.length (g.outCol t) nc false
        (m.1, { r.2.join m.2 with strained := strained }, false)
      else (r.1, { r.2 with strained := strained }, false)

/-- The first invalid EB4 or TB40 block of the dense tensors a command reads (R47). -/
def State.badOperand (s : State) (id : CmdId) : List Tens → Except AccErr (Option Ending)
  | [] => .ok none
  | t :: rest =>
    match s.badBlock (s.accOf id t) t 0 with
    | .error e => .error e
    | .ok (some (r, b)) => .ok (some (badBlockEnding t.handle r b 0 0))
    | .ok none => s.badOperand id rest

/-- Write a tile's statistics record (R115). -/
def State.writeStats (s : State) (id : CmdId) (h num : Nat) (rec' : List Byte) : State × Option AccErr :=
  if h = noHandle then (s, none)
  else
    match s.tensRun id.ctx h with
    | none => (s, none)
    | some t =>
      if !(s.allocOf id.ctx t).holds [(t.base + 32 * num, 32)] then (s, some .range)
      else s.writeBytes (s.accOf id t) (t.base + 32 * num) rec'

/-- Why a tile's statistics record could not be written: judged before the tile is stored (R79). -/
def State.statsError (s : State) (id : CmdId) (h num : Nat) : Option AccErr := (s.writeStats id h num (zeros 32)).2

end Sys2Proof.Machine
end

