-- ==== Sys2Proof/Machine/Matrix.lean ====
section
/-!
DEFINITION. Machine/Matrix.lean: the rows PRODUCT, CELL_DRAW, TASK_COMPLETE and PARTIAL_TILE_ARRIVAL.
-/
namespace Sys2Proof.Machine

/-! ### Ending a product -/

/-- The runs of bytes a product may have written. -/
def Geo.allOuts (g : Geo) : List Rng := (g.entries.map g.storeRanges).flatten

/-- The ending of a product that stops, and its destination left undefined (R103, R144). -/
def State.stopProduct (s : State) (c : Cmd) (g : Geo) (e : Ending) : State :=
  let e := if e.status = Status.accumSaturated.code then
      { e with detail := detail4 0 (c.run.satTile.getD 0) 0 0 } else e
  let s := if [Status.accumSaturated.code, Status.maskGeneration.code, Status.nonReplayable.code].contains e.status then
      s.undefined (s.accOf c.id g.o) g.allOuts else s
  s.finish c.id e

/-- FOREIGN_INDICES of a drain under SCATTER into a DISTRIBUTED output (R210). -/
def State.foreignRows (s : State) (id : CmdId) (g : Geo) : Nat :=
  if !g.prog.scatter then 0
  else
    match s.tensRun id.ctx g.prog.scatterHandle with
    | none => 0
    | some u =>
      match s.readIndex id u with
      | .error _ => 0
      | .ok idx => foreignCount g.o u.signed idx

/-- Physical cells hold a task of a command, or a partial tile of it is on its way (R105). -/
def State.inFlight (s : State) (id : CmdId) : Bool :=
  (s.cells.vals.any fun c => c.tasks.any fun t => t.id == id)
    || (s.cmd? id).any fun c => c.run.tiles.vals.any fun t => !t.flying.isEmpty

/-- The tiles that a command with HOLD_OUT leaves become held under its tag at its completion (R100, R170). -/
def State.publishHolds (s : State) (c : Cmd) (g : Geo) : State :=
  let group := (s.queue c.id.ctx c.id.q).group
  let rest := s.held.filter fun h => !(h.ctx == c.id.ctx && h.tag == g.b.holdTag)
  { s with held := ⟨c.id.ctx, g.b.holdTag, group, g.m, g.n, g.b.mt, g.b.nt, g.b.plist, s.roster group, c.cells, g.allOuts, c.run.holds⟩ :: rest }

/-- End a product once every task is done, or once a stopped one has none in flight (R103, R462, R567). -/
def State.settleProduct (s : State) (id : CmdId) (g : Geo) : State :=
  match s.cmd? id with
  | none => s
  | some c =>
    match c.run.stop with
    | some e => if s.inFlight id then s else s.stopProduct c g e
    | none =>
      if c.done.length < g.tasks then s
      else
        let s := if g.b.holdIn ∧ !g.b.holdOut then
            { s with held := s.held.filter fun h => !(h.ctx == id.ctx && h.tag == g.b.holdTag) } else s
        let s := if g.b.holdOut then s else s.setStored id g.o g.b.step (ofBits32 c.run.scale)
        s.finishOkAux id (s.foreignRows id g)

/-- Stop a command: it offers no further runs (R103, R144). -/
def State.stopRun (s : State) (id : CmdId) (e : Ending) : State :=
  s.updRun id fun r => { r with stop := if r.stop.isSome then r.stop else some e }

/-- An access error met by a task. -/
def State.taskError (s : State) (id : CmdId) (e : AccErr) : State :=
  match e with
  | .ecc w => (s.ueReport w).stopRun id e.ending
  | _ => s.stopRun id e.ending

/-- A saturating accumulation: flags, and the stop under FAULT_ON_SATURATE (R102, R103). -/
def State.accSaturated (s : State) (id : CmdId) (g : Geo) (num : Nat) (sat : Bool) : State :=
  if !sat then s
  else
    let s := s.flagSaturated id true
    if g.b.faultSat then
      (s.updRun id fun r => { r with satTile := some (min num (r.satTile.getD num)) }).stopRun id
        Status.accumSaturated.plain
    else s

/-! ### The command's own row -/

/-- The first failure found, or the first error met before one. -/
def firstEnding : List (Except AccErr (Option Ending)) → Except AccErr (Option Ending)
  | [] => .ok none
  | .ok none :: rest => firstEnding rest
  | x :: _ => x

/-- The operand check pass and the format checks (R47, R141, R148): the first failure, left before right before mask, then
the drain's own operands. Where the pass finds an invalid superblock of a sparse right operand, an invalid block of a dense left
operand is named in its place (R47). -/
def State.productPass (s : State) (id : CmdId) (g : Geo) : Except AccErr (Option Ending) :=
  let ents := (upTo g.entries.length).filterMap fun i => (g.entries[i]?).bind fun e =>
    if g.useList ∧ e.m = 0 then none else some (i, e)
  let view (t : Tens) (inner : Bool) (e : PEntry) : Tens := if g.useList then entryView t inner e.m else t
  let dense (t : Tens) (v : PEntry → Tens) (off : PEntry → Nat) (role : Nat) : Except AccErr (Option Ending) :=
    if t.sparseN ≠ 0 then .ok none
    else
      findE (fun (ie : Nat × PEntry) =>
        match s.badBlock (s.accOf id t) (v ie.2) (off ie.2) with
        | .error e => .error e
        | .ok r => .ok (r.map fun rb => badBlockEnding t.handle rb.1 rb.2 ie.1 role)) ents
  let sparse (t : Tens) (v : PEntry → Tens) (off : PEntry → Nat) (role : Nat) : Except AccErr (Option (Ending × Bool)) :=
    findE (fun (ie : Nat × PEntry) =>
      let u := v ie.2
      match s.checkSparse (s.accOf id t) u (off ie.2) g.b.maskGen (u.ext 1) (ceilDiv (u.ext 1) 16) with
      | .error e => .error e
      | .ok r => .ok (r.map fun f => (sparseEnding f.1 t.handle ie.1 role, f.2))) ents
  let lv (e : PEntry) := view g.l g.b.leftInner e
  let first := if g.l.sparseN ≠ 0 then sparse g.l lv (fun e => e.left) 0
    else if g.r.sparseN ≠ 0 then sparse g.r (fun _ => g.r) (fun e => e.right) 1
    else if g.sampled then
      match s.tensRun id.ctx g.o.maskHandle with
      | none => .ok none
      | some m => sparse m (fun e => view m g.b.outInner e) (fun e => maskOff g.o m (if g.useList then e.out else 0)) 2
    else .ok none
  let drains := g.prog.operands.filterMap fun u => s.tensRun id.ctx u.1.handle
  let left := dense g.l lv (fun e => e.left) 0
  let pass : List (Except AccErr (Option Ending)) :=
    match first with
    | .error e => [.error e]
    | .ok none => [.ok none, left]
    | .ok (some (e, block)) => if block then [left, .ok (some e)] else [.ok (some e)]
  firstEnding (pass ++ [dense g.r (fun _ => g.r) (fun e => e.right) 1,
    if g.exact then .ok none else s.badOperand id drains])

/-- What staging and accumulating one segment of a tile gives. -/
structure SegOut where
  rows : List (List FVal)
  saturated : Bool
  /-- CCLK of array progress (R67, R138), bytes staged, and MAC (R93, R140, R149) -/
  cclk : Nat
  staged : Nat
  mac : Nat
  deriving DecidableEq, Repr

/-- Stored bytes of `rows` rows of an operand from `r0` on over positions `ka` to `kb - 1` of K, as port 0 delivers them (R139):
rows and positions of the padded tail read no memory (R196). -/
def State.storedBytes (s : State) (id : CmdId) (t : Tens) (inner : Bool) (off gen r0 rows ka kb : Nat) : Nat :=
  let per (n : Nat) : Nat := t.fmt.rowBytes n + if t.fmt.isMX then ceilDiv n 32 else 0
  if t.sparseN ≠ 0 then
    let n := ceilDiv (min rows (t.ext 1 - r0)) 16
    let tile (r c : Nat) : Nat :=
      match s.readBytes (s.accOf id t) (t.tileAddr off gen r c) 16 with
      | .error _ => 0
      | .ok h => storedOf t.fmt h
    ((upTo n).map fun i =>
      ((upTo (ceilDiv kb 256 - ka / 256)).map fun j => tile (r0 / 16 + i) (ka / 256 + j)).foldl (· + ·) 0).foldl (· + ·) 0
  else if inner then (min kb (t.ext 1) - ka) * per (min (r0 + rows) (t.ext 0) - r0)
  else
    ((upTo rows).filter fun i => t.outerIn (t.outer (r0 + i))).length * per (min kb (t.ext 0) - ka)

/-- Stored bytes of both operand tiles of a task; a tile that the cell's staging buffers still hold from `prev`, the task of the
same run before it, is not fetched again (R91). -/
def State.taskStaged (s : State) (id : CmdId) (g : Geo) (t : TileInfo) (seg : Nat) (prev : Option (TileInfo × Nat)) : Nat :=
  let (ka, kb) := g.segK seg
  let lv := if g.useList then entryView g.l g.b.leftInner t.entry.m else g.l
  let keptL := prev.any fun p => p.2 == seg && p.1.entry.left == t.entry.left && p.1.entry.m == t.entry.m && p.1.r0 == t.r0
  let keptR := prev.any fun p => p.2 == seg && p.1.entry.right == t.entry.right && p.1.c0 == t.c0
  (if keptL then 0
    else s.storedBytes id lv g.b.leftInner t.entry.left g.b.maskGen t.r0 (min g.b.mt (t.rows - t.r0)) ka kb)
    + if keptR then 0
      else s.storedBytes id g.r g.b.rightInner t.entry.right g.b.maskGen t.c0 (min g.b.nt (g.n - t.c0)) ka kb

/-- Stage and accumulate segment `seg` of a tile onto `start` (R92, R136, R149). A task whose own operand tiles cover a promoted
granule runs at the FP8 × FP8 rate (R125), or at its pair's own rate of Table 3-3 where that is lower: a promoted operand that
meets a BF16 or FP16 one keeps the rate of that pair (DESIGN CHOICE, log entry 154). -/
def State.segment (s : State) (id : CmdId) (g : Geo) (t : TileInfo) (seg : Nat) (prev : Option (TileInfo × Nat))
    (start : List FVal) : Except AccErr SegOut :=
  let (ka, kb) := g.segK seg
  let mr := min g.b.mt (t.rows - t.r0)
  let nc := min g.b.nt (g.n - t.c0)
  let lv := if g.useList then entryView g.l g.b.leftInner t.entry.m else g.l
  match s.stageRows id lv g.b.leftInner t.entry.left g.b.rotL g.b.rotW g.b.maskGen t.r0 mr ka kb,
      s.stageRows id g.r g.b.rightInner t.entry.right g.b.rotR g.b.rotW g.b.maskGen t.c0 nc ka kb,
      s.maskMaps id g t mr with
  | .ok (ls, p1), .ok (rs, p2), .ok maps =>
    let k := if p1 || p2 then min g.pair.1 8 else g.pair.1
    let r := tileSum g k ls rs seg start nc (g.skips t maps)
    let kept := ((upTo mr).map fun i => ((upTo nc).filter (g.counts t maps i)).length).foldl (· + ·) 0
    let passes := ((upTo (g.b.mt / 16)).map fun i => ((upTo (g.b.nt / 64)).filter fun j => !g.skips t maps i j).length).foldl
      (· + ·) 0
    let per := if g.sparse then ceilDiv (kb - ka) 8 * g.a.sparseN else kb - ka
    let dense := passes * ceilDiv (kb - ka) k
    .ok { rows := r.1, saturated := r.2,
          cclk := if g.sparse then ceilDiv (dense * max 2 g.a.sparseN) 8 else dense,
          staged := s.taskStaged id g t seg prev, mac := kept * per }
  | .error e, _, _ => .error e
  | _, .error e, _ => .error e
  | _, _, .error e => .error e

/-- The device address of byte `o` of a held tile: MT × NT values row-major in its slots, from its first quantum on (R72, R88,
R100; DESIGN CHOICE, log entry 34). -/
def HeldTile.addr (h : HeldTile) (o : Nat) : Nat :=
  sramBase + h.cell / 96 * 2 ^ 29 + h.cell % 96 * 2 ^ 22 + 0x300000 + h.slots.getD (o / 2 ^ 16) 0 * 2 ^ 16 + h.quantum * 4096
    + o % 2 ^ 16

/-- The values of a held tile, as accumulator codes, row-major over the tile's extent. -/
def State.readHeld (s : State) (id : CmdId) (g : Geo) (t : TileInfo) (h : HeldTile) : Except AccErr (List Nat) :=
  let nc := min g.b.nt (g.n - t.c0)
  match mapE (fun i => s.readBytes ⟨id.ctx, some id, 0⟩ (h.addr (4 * i * g.b.nt)) (4 * nc)) (upTo (min g.b.mt (t.rows - t.r0))) with
  | .error e => .error e
  | .ok rs => .ok (rs.map fun b => (upTo nc).map fun j => u32 b (4 * j)).flatten

/-- A tile's accumulator at the start of segment 0: zero, or the held tile (R92). -/
def State.startOf (s : State) (id : CmdId) (g : Geo) (t : TileInfo) : Except AccErr (List Nat) :=
  if g.b.holdIn then
    match (s.heldSet id.ctx g.b.holdTag).bind fun h => h.tiles.get? t.num with
    | none => .ok []
    | some h => s.readHeld id g t h
  else .ok []

/-- The measurement pass (R62): every tile through the statistics tap without storing. Its amax, and what it moved. -/
def State.measure (s : State) (id : CmdId) (g : Geo) : Except AccErr (FVal × Nat × Nat) :=
  let one (t : TileInfo) : Except AccErr (FVal × Nat × Nat) :=
    let start : Except AccErr (List FVal × Nat × Nat) :=
      match s.startOf id g t with
      | .error e => .error e
      | .ok v => .ok (v.map (accVal g.pair.2), 0, 0)
    let segs := (upTo g.b.segs).foldl (fun acc k =>
      match acc with
      | .error e => .error e
      | .ok (v, mac, rd) =>
        match s.segment id g t k none v with
        | .error e => .error e
        | .ok o => .ok (o.rows.flatten, mac + o.mac, rd + o.staged)) start
    match segs with
    | .error e => .error e
    | .ok (v, mac, rd) =>
      let nc := min g.b.nt (g.n - t.c0)
      match s.drainTile id g t (chunks nc (v.length / max 1 nc + 1) v), s.maskMaps id g t (min g.b.mt (t.rows - t.r0)) with
      | .ok rows, .ok maps => .ok (FVal.amax ((g.counted t maps rows).map fun e => e.2), mac, rd)
      | .error e, _ => .error e
      | _, .error e => .error e
  match mapE one g.tiles with
  | .error e => .error e
  | .ok l => .ok (l.foldl (fun (a : FVal × Nat × Nat) x => (FVal.amax2 a.1 x.1, a.2.1 + x.2.1, a.2.2 + x.2.2)) (.zero, 0, 0))

/-- Start an issued product: the passes, its tensor scale, and its tasks on the draw list (R62, R90, R141). -/
def State.startProduct (s : State) (c : Cmd) (g : Geo) : State :=
  let id := c.id
  match s.productPass id g with
  | .error .wait => s
  | .error e => s.failAcc id e
  | .ok (some e) => s.finish id e
  | .ok none =>
    let go (t : State) (sc : FVal) : State :=
      (t.updCmd id fun c => { c with begun := true, run := { c.run with scale := toBits32 sc } }).settleProduct id g
    if g.b.holdOut then go s .one
    else
      match s.writeScale id g.o g.b.step with
      | .error e => s.failAcc id e
      | .ok (some sc, s) => go s sc
      | .ok (none, s) =>
        match s.measure id g with
        | .error .wait => s
        | .error e => s.failAcc id e
        | .ok (h, mac, rd) =>
          match (s.qcount id rd 0 mac 0).measuredScale id g.o g.b.step h with
          | .error e => s.failAcc id e
          | .ok (sc, s) => go s sc

/-- PRODUCT (R86). -/
def execProduct (id : CmdId) (s : State) : Host.Outcome State Fault Refusal :=
  .next (s.onCmd id (isOpcode 0x20) fun c =>
    if c.begun then s
    else
      match s.geo id c.desc c.records with
      | none => s
      | some g => s.startProduct c g)

/-! ### CELL_DRAW -/

/-- The lowest of `n` partial places that no open tile holds (R107). -/
def Run.freePlace (r : Run) (n : Nat) : Nat :=
  (firstIdx n fun q => !(r.tiles.vals.any fun t => t.opened && t.place == q)).getD 0

/-- Hand tasks to a cell: cursor, tiles opened, and the tasks in its sequencer. -/
def State.takeTasks (s : State) (c : Cmd) (g : Geo) (cell : Nat) (ts : List Nat) : State :=
  let s := ts.foldl (fun (t : State) k =>
    if g.b.segs > 1 then
      t.updRun c.id fun r =>
        { r with tiles := r.tiles.upd (k / g.b.segs) TileSt.init fun x =>
            let x := { x with parts := insertKey x.parts cell }
            if k % g.b.segs = 0 then
              { x with home := some cell, opened := true, place := if x.opened then x.place else r.freePlace g.b.openTiles }
            else x }
    else t) s
  let s := s.updCmd c.id fun x =>
    { x with cursor := ts.foldl (fun m k => if x.reoffered.contains k ∨ g.b.holdIn ∨ g.b.holdOut then m else max m (k + 1)) x.cursor,
             reoffered := x.reoffered.filter fun k => !ts.contains k, taken := x.taken ++ ts }
  s.updCell cell fun x => { x with tasks := x.tasks ++ ts.map fun k => ⟨c.id, k, ts.headD k⟩, mode := .running }

/-- Whether a command may use the accumulator slots and scratchpad banks of a cell that a task takes, and none that it needs is
under handover (R81): every slot of its own under a hold, or as many as one tile takes; banks for one task. -/
def State.cellReady (s : State) (c : Cmd) (g : Geo) (cell l : Nat) : Bool :=
  let judge (b : Nat) : Option AccErr := s.bankJudge ⟨c.id.ctx, some c.id, 0⟩ cell b
  let count (lo hi : Nat) : Nat := ((upTo (hi - lo)).filter fun k => (judge (lo + k)).isNone).length
  let waits (lo hi : Nat) : Bool := (upTo (hi - lo)).any fun k => judge (lo + k) == some .wait
  let held := (s.heldSlots c.id.ctx l (if g.b.holdIn then some g.b.holdTag else none)).length
  let slotsOk := if g.b.holdIn || g.b.holdOut then !waits 24 32
    else !waits 24 32 || decide (ceilDiv (g.b.mt * g.b.nt / 1024) 16 + held ≤ count 24 32)
  slotsOk && (!waits 0 24 || decide (ceilDiv (s.taskBytes c.id.ctx g) 131072 ≤ count 0 24))

/-- CELL_DRAW (R81, R91, R99, R104, R144, R256): a cell in service with room takes the next run. -/
def State.cellDraw (s : State) (cell : Nat) (c : Cmd) (g : Geo) : State :=
  match s.logicalOf cell with
  | none => s
  | some l =>
    let x := s.cell cell
    if x.tasks.length ≥ 2 ∨ x.portsClosed ∨ x.mode = .fenced ∨ x.mode = .selfTest ∨ !s.cellReady c g cell l then s
    else
      let ts := c.runFor g l
      if ts.isEmpty then s
      else
        match s.mayDraw l c with
        | none => s
        | some renew =>
          let s := s.serve l c renew
          let stale := ts.findSome? fun k => (g.tiles[k / g.b.segs]?).bind fun t => s.staleTile c.id g t (k % g.b.segs)
          match stale with
          | some e => (s.stopRun c.id e).settleProduct c.id g
          | none => s.takeTasks c g cell ts

def execCellDraw (cell : Nat) (id : CmdId) (s : State) : Host.Outcome State Fault Refusal :=
  .next (s.onCmd id (isOpcode 0x20) fun c =>
    match s.geo id c.desc c.records with
    | none => s
    | some g => s.cellDraw cell c g)

/-! ### TASK_COMPLETE and PARTIAL_TILE_ARRIVAL -/

/-- A task is completed (R460). -/
def State.taskDone (s : State) (id : CmdId) (k : Nat) : State :=
  s.updCmd id fun c => { c with done := if c.done.contains k then c.done else k :: c.done, taken := c.taken.filter (· != k) }

/-- The sequencer drops a task, whose operand tiles its staging buffers hold until another is staged (R91). -/
def State.dropTask (s : State) (cell : Nat) (id : CmdId) (k : Nat) : State :=
  s.updCell cell fun x =>
    let ts := x.tasks.filter fun t => !(t.id == id && t.task == k)
    { x with tasks := ts, mode := if ts.isEmpty ∧ x.mode = .running then .idle else x.mode,
             staged := x.tasks.find? fun t => t.id == id && t.task == k }

/-- Slots and first quantum of the next held tile on a cell (R100). -/
def State.placeHeld (s : State) (c : Cmd) (g : Geo) (cell l : Nat) : List Nat × Nat :=
  let q := g.b.mt * g.b.nt / 1024
  let other := s.heldSlots c.id.ctx l (some g.b.holdTag)
  let free := (upTo 8).filter fun k => (s.bankJudge ⟨c.id.ctx, some c.id, 0⟩ cell (24 + k)).isNone && !other.contains k
  let mine := c.run.holds.vals.filter fun h => h.cell == l
  if q < 16 then
    let usedIn (k : Nat) : Nat := (mine.filter fun h => h.slots.contains k).length * q
    match free.find? fun k => usedIn k + q ≤ 16 with
    | some k => ([k], usedIn k)
    | none => ([], 0)
  else ((free.filter fun k => !(mine.any fun h => h.slots.contains k)).take (q / 16), 0)

/-- Accumulator codes written to a held tile's place, `nc` to a row. -/
def State.writeHeld (s : State) (id : CmdId) (g : Geo) (h : HeldTile) (nc : Nat) (bits : List Nat) : State × WOut :=
  s.writeEach (fun st i =>
    let bs := (((bits.drop (i * nc)).take nc).map (leBytes 4)).flatten
    let r := st.writeBytes ⟨id.ctx, some id, 0⟩ (h.addr (4 * i * g.b.nt)) bs
    (r.1, ⟨false, 0, 0, r.2⟩)) (upTo (bits.length / max 1 nc))

/-- Keep a finished tile under HOLD_OUT; a chain's tile keeps its first place (R99, R100). -/
def State.holdTile (s : State) (c : Cmd) (g : Geo) (t : TileInfo) (cell : Nat) (vals : List FVal) : State :=
  let l := (s.logicalOf cell).getD 0
  let old := if g.b.holdIn then (s.heldSet c.id.ctx g.b.holdTag).bind fun h => h.tiles.get? t.num else none
  let place := old.elim (s.placeHeld c g cell l) fun h => (h.slots, h.quantum)
  let h : HeldTile := ⟨l, place.1, place.2⟩
  let w := s.writeHeld c.id g h (min g.b.nt (g.n - t.c0)) (vals.map (accBits g.pair.2))
  match w.2.err with
  | some e => w.1.taskError c.id e
  | none => w.1.updRun c.id fun r => { r with holds := r.holds.set t.num h }

/-- A held tile that a command with HOLD_IN and without HOLD_OUT has drained frees its slots (R100). -/
def State.releaseHeld (s : State) (id : CmdId) (g : Geo) (num : Nat) : State :=
  if g.b.holdIn ∧ !g.b.holdOut then
    { s with held := s.held.map fun h =>
        if h.ctx == id.ctx && h.tag == g.b.holdTag then { h with tiles := h.tiles.erase num } else h }
  else s

/-- Drain a finished tile and store it (R109–R116, R124, R148): nothing of it where its statistics record could not be written
(R79). -/
def State.drainStore (s : State) (c : Cmd) (g : Geo) (t : TileInfo) (cell : Nat) (rows : List (List FVal)) : State :=
  let id := c.id
  match (if g.exact then none else s.statsError id g.b.stats t.num) with
  | some e => s.taskError id e
  | none =>
  match s.drainTile id g t rows, s.maskMaps id g t rows.length with
  | .ok out, .ok maps =>
    let counted := g.counted t maps out
    let st := statsOf counted
    let dst : Dest := ⟨s.accOf id g.o, ofBits32 c.run.scale, if g.exact then 0 else g.prog.mode, g.b.step⟩
    let s := if g.exact then s else
      ((s.flagNonfinite id (st.nonfinite != 0)).mergeAmax id g.o g.b.step (counted.map fun e => e.2))
    let (s, w, promoted) := s.storeTile id g t dst maps out
    let r := if g.exact then (s, none) else s.writeStats id g.b.stats t.num (statsRecord st w.strained promoted)
    let s := (r.1.flagSaturated id w.saturated).moved id g.o (g.outOff t) 0 w.bytes
    let d := cell / 104
    let s := (s.pmc d 0 (cell % 104) 5 (some id.ctx) counted.length)
    let s := if promoted then
        (s.flagPromoted id).pmc d 0 (cell % 104) 7 (some id.ctx) 1 else s
    match (if w.err.isSome then w.err else r.2) with
    | some e => s.taskError id e
    | none => s
  | .error e, _ => s.taskError id e
  | _, .error e => s.taskError id e

/-- A tile's last addition is in: hold it, or drain it, and close it. -/
def State.finishTile (s : State) (id : CmdId) (g : Geo) (k : Nat) (t : TileInfo) (cell : Nat) (vals : List FVal) : State :=
  match s.cmd? id with
  | none => s
  | some c =>
    let nc := min g.b.nt (g.n - t.c0)
    let s := if c.run.stop.isSome then s
      else if g.b.holdOut then s.holdTile c g t cell vals
      else (s.drainStore c g t cell (chunks nc (vals.length / max 1 nc + 1) vals)).releaseHeld id g t.num
    if g.b.segs > 1 then s.updTile id k fun x => { x with opened := false } else s

/-- Place of a partial in REDUCE_BUF (R107). -/
def Geo.partPlace (g : Geo) (x : TileSt) (seg : Nat) : Nat := (x.place * (g.b.segs - 1) + seg - 1) * g.b.mt * g.b.nt * 4

/-- Write a partial tile's rows, MT × NT row-major. -/
def State.writePartial (s : State) (id : CmdId) (g : Geo) (x : TileSt) (seg nc : Nat) (vals : List Nat) :
    State × WOut :=
  match s.tensRun id.ctx g.b.reduceBuf with
  | none => (s, WOut.zero)
  | some t =>
    s.writeEach (fun st i =>
      let bs := (((vals.drop (i * nc)).take nc).map (leBytes 4)).flatten
      let w := st.writeBytes (s.accOf id t) (t.base + g.partPlace x seg + 4 * i * g.b.nt) bs
      (w.1, ⟨false, 0, bs.length, w.2⟩)) (upTo (vals.length / max 1 nc))

def State.readPartial (s : State) (id : CmdId) (g : Geo) (x : TileSt) (seg mr nc : Nat) : Except AccErr (List Nat) :=
  match s.tensRun id.ctx g.b.reduceBuf with
  | none => .ok []
  | some t =>
    match mapE (fun i => s.readBytes (s.accOf id t) (t.base + g.partPlace x seg + 4 * i * g.b.nt) (4 * nc)) (upTo mr) with
    | .error e => .error e
    | .ok rs => .ok ((rs.map fun b => (upTo nc).map fun j => u32 b (4 * j)).flatten)

/-- Under ORDERED the home cell adds the partials that are present, in segment order (R106); `fuel` bounds the segments. -/
def State.advance (s : State) (id : CmdId) (g : Geo) (k : Nat) (t : TileInfo) : Nat → State
  | 0 => s
  | fuel + 1 =>
    match (s.cmd? id).map fun c => c.run.tiles.getD k TileSt.init with
    | none => s
    | some x =>
      if !x.ownDone ∨ !x.opened then s
      else
        let next := x.added.length + 1
        if next = g.b.segs then
          s.finishTile id g k t (x.home.getD 0) (x.acc.map (accVal g.pair.2))
        else if x.present.contains next then
          match s.readPartial id g x next (min g.b.mt (t.rows - t.r0)) (min g.b.nt (g.n - t.c0)) with
          | .error e => s.taskError id e
          | .ok p =>
            let r := addPartial g.pair.2 x.acc p
            ((s.updTile id k fun y => { y with acc := r.1, added := next :: y.added }).accSaturated id g t.num r.2).advance
              id g k t fuel
        else s

/-- Under ARRIVAL the home cell drains the tile once every partial has been added and its own segment is done (R105). -/
def State.arriveDone (s : State) (id : CmdId) (g : Geo) (k : Nat) (t : TileInfo) : State :=
  match (s.cmd? id).map fun c => c.run.tiles.getD k TileSt.init with
  | none => s
  | some x =>
    if x.ownDone ∧ x.opened ∧ x.rebuild.isEmpty ∧ x.added.length + 1 = g.b.segs then
      s.finishTile id g k t (x.home.getD 0) (x.acc.map (accVal g.pair.2))
    else s

/-- What one completed segment does in each mode (R105, R106). -/
def State.segmentDone (s : State) (c : Cmd) (g : Geo) (cell task : Nat) (t : TileInfo) (o : SegOut) : State :=
  let id := c.id
  let k := task / g.b.segs
  let seg := task % g.b.segs
  let vals := o.rows.flatten
  let bits := vals.map (accBits g.pair.2)
  if g.b.segs = 1 then (s.finishTile id g k t cell vals).taskDone id task
  else if seg = 0 then
    let s := (s.updTile id k fun x => { x with acc := bits, ownDone := true }).taskDone id task
    if g.b.mode = 2 then s.advance id g k t g.b.segs else s.arriveDone id g k t
  else if g.b.mode = 2 then
    let x := c.run.tiles.getD k TileSt.init
    let w := s.writePartial id g x seg (min g.b.nt (g.n - t.c0)) bits
    match w.2.err with
    | some e => w.1.taskError id e
    | none =>
      (((w.1.qcount id 0 w.2.bytes 0 0).updTile id k fun x => { x with present := seg :: x.present }).taskDone id task).advance
        id g k t g.b.segs
  else
    let l := (s.logicalOf cell).getD 0
    s.updTile id k fun x => { x with flying := x.flying.set seg (l, (s.lslot l).inc, bits) }

/-- The accumulator onto which a task adds its groups: nothing, the held tile, or what partials have made of it (R92, R105). -/
def State.taskStart (s : State) (id : CmdId) (g : Geo) (t : TileInfo) (x : TileSt) (seg : Nat) : Except AccErr (List Nat) :=
  if seg ≠ 0 then .ok []
  else if x.acc.isEmpty then s.startOf id g t
  else .ok x.acc

/-- The task of the same run that a cell staged before task `task`, by tile and segment (R91). -/
def State.stagedBefore (s : State) (id : CmdId) (g : Geo) (cell task : Nat) : Option (TileInfo × Nat) :=
  match (s.cell cell).staged, (s.cell cell).tasks.find? fun t => t.id == id && t.task == task with
  | some p, some t =>
    if p.id = id ∧ p.run = t.run ∧ p.task + 1 = task then (g.tiles[p.task / g.b.segs]?).map fun x => (x, p.task % g.b.segs)
    else none
  | _, _ => none

/-- TASK_COMPLETE (R109): the task's tiles are staged, their MASK_GEN compared again (R144), and its groups are in the
accumulator; what follows depends on the reduction. A task of a command that has stopped finishes without storing (R103). -/
def State.completeTask (s : State) (c : Cmd) (g : Geo) (cell task : Nat) (t : TileInfo) : State :=
  let id := c.id
  let seg := task % g.b.segs
  let x := c.run.tiles.getD (task / g.b.segs) TileSt.init
  let out (e : State) : State := (e.dropTask cell id task).settleProduct id g
  match s.staleTile id g t seg with
  | some e => out (s.stopRun id e)
  | none =>
  match s.taskStart id g t x seg with
  | .error .wait => s
  | .error e => out (s.taskError id e)
  | .ok start =>
    match s.segment id g t seg (s.stagedBefore id g cell task) (start.map (accVal g.pair.2)) with
    | .error .wait => s
    | .error e => out (s.taskError id e)
    | .ok o =>
      let d := cell / 104
      let i := cell % 104
      let s := ((s.moved id g.l t.entry.left o.staged 0).qcount id 0 0 o.mac 0).dropTask cell id task
      let s := ((((s.pmc d 0 i 1 (some id.ctx) o.cclk).pmc d 0 i 3 (some id.ctx) o.mac).pmc d 0 i 4 (some id.ctx)
        o.staged).pmc d 0 i 6 (some id.ctx) 1)
      let s := s.accSaturated id g t.num o.saturated
      let stopped := ((s.cmd? id).map fun c => c.run.stop.isSome).getD true
      (if stopped then s else s.segmentDone c g cell task t o).settleProduct id g

/-- The step `s` to `t` of a product, unless the bytes it needs stand in a bank that is being handed over: then it waits (R81). -/
def State.unlessWaits (s : State) (id : CmdId) (t : State) : State :=
  if (t.cmd? id).any fun c => c.run.stop == some AccErr.wait.ending then s else t

def execTaskComplete (cell : Nat) (id : CmdId) (task : Nat) (s : State) : Host.Outcome State Fault Refusal :=
  .next (s.onCmd id (isOpcode 0x20) fun c =>
    if !((s.cell cell).tasks.any fun t => t.id == id && t.task == task) ∨ (s.cell cell).portsClosed then s
    else
      match s.geo id c.desc c.records with
      | none => s
      | some g =>
        match g.tiles[task / g.b.segs]? with
        | none => s
        | some t => s.unlessWaits id (s.completeTask c g cell task t))

/-- PARTIAL_TILE_ARRIVAL (R105, R282): a partial of a stale incarnation is discarded and counted. -/
def State.partialArrives (s : State) (c : Cmd) (g : Geo) (k seg : Nat) (t : TileInfo) : State :=
  let id := c.id
  let x := c.run.tiles.getD k TileSt.init
  match x.flying.get? seg with
  | none => s
  | some (l, inc, p) =>
    let s := s.updTile id k fun y => { y with flying := y.flying.erase seg }
    if (s.lslot l).inc ≠ inc then (s.bump (regDie .incarnationDrops (x.home.getD 0 / 104)) 1).staleDrop id.ctx |>.settleProduct id g
    else if !x.opened ∨ !x.rebuild.isEmpty then s.settleProduct id g
    else
      match s.taskStart id g t x 0 with
      | .error e => (s.taskError id e).settleProduct id g
      | .ok acc =>
        let r := addPartial g.pair.2 acc p
        let s := (s.updTile id k fun y => { y with acc := r.1, added := seg :: y.added }).taskDone id (k * g.b.segs + seg)
        ((s.accSaturated id g t.num r.2).arriveDone id g k t).settleProduct id g

def execPartialTileArrival (id : CmdId) (tile segment : Nat) (s : State) : Host.Outcome State Fault Refusal :=
  .next (s.onCmd id (isOpcode 0x20) fun c =>
    match s.geo id c.desc c.records with
    | none => s
    | some g =>
      match g.tiles[tile]? with
      | none => s
      | some t => s.unlessWaits id (s.partialArrives c g tile segment t))

end Sys2Proof.Machine
end

