-- ==== Sys2Proof/Machine/Rows.lean ====
section
/-!
DEFINITION. Machine/Rows.lean: the vector-unit commands ELEMENTWISE, REDUCE, ROW_FORWARD and ROW_BACKWARD (R117–R120,
R174–R181).
-/
namespace Sys2Proof.Machine

/-! ### Writing whole tensors -/

/-- Elements of rows that lie inside an extent, row-major. -/
def insideOf (o : Tens) (rows : List (List FVal)) : List FVal :=
  ((upTo rows.length).map fun r => if o.outerIn (o.outer r) then (rows.getD r []).take (o.ext 0) else []).flatten

/-- The tensor scale a command encodes with, measured from what it writes where no history entry qualifies (R60, R62). -/
def State.scaleFor (s : State) (id : CmdId) (o : Tens) (step : Nat) (xs : List FVal) : Except AccErr (FVal × State) :=
  match s.writeScale id o step with
  | .error e => .error e
  | .ok (some sc, s) => .ok (sc, s)
  | .ok (none, s) => s.measuredScale id o step (FVal.amax xs)

/-- Write the rows of an output inside its extent, with its tensor scale and record flags. -/
def State.writeAll (s : State) (id : CmdId) (o : Tens) (mode step : Nat) (rows : List (List FVal)) : State × WOut × FVal :=
  let xs := insideOf o rows
  match s.scaleFor id o step xs with
  | .error e => (s, ⟨false, 0, 0, some e⟩, .one)
  | .ok (sc, s) =>
    let r := s.writeEach (fun t r =>
      let cs := o.outer r
      if !o.outerIn cs then (t, WOut.zero)
      else
        t.writeRun (t.accOf id o) o sc 0 cs 0 (fun j => t.rndAt id o mode step r j) ((rows.getD r []).take (o.ext 0)))
      (upTo rows.length)
    ((r.1.flagSaturated id r.2.saturated).moved id o 0 0 r.2.bytes, r.2, sc)

/-- End a command after its write: an error, or OK with STORED_SCALE set (R567). It waits as it stood, in `s0`, where a bank it
writes is under handover (R81). -/
def State.wrote (s0 s : State) (id : CmdId) (o : Tens) (step : Nat) (r : WOut) (sc : FVal) : State :=
  match r.err with
  | some .wait => s0
  | some e => s.failAcc id e
  | none => (s.setStored id o step sc).finish id Status.ok.plain

/-- Run a command body that reads first: an error or an invalid block ends it. `retry` is the state kept while it waits. -/
def State.afterReads {α : Type} (s : State) (id : CmdId) (bad : Except AccErr (Option Ending)) (r : Except AccErr α)
    (f : α → State) : State :=
  match bad, r with
  | .ok (some e), _ => s.finish id e
  | .error .wait, _ => s
  | .error e, _ => s.failAcc id e
  | .ok none, .error .wait => s
  | .ok none, .error e => s.failAcc id e
  | .ok none, .ok a => f a

def flagNon (s : State) (id : CmdId) (o : Tens) (rows : List (List FVal)) : State :=
  s.flagNonfinite id ((insideOf o rows).any fun v => !v.isFinite)

/-- Whether an output's bytes overlap what a command reads (R126). -/
def overlapsReads (o : Tens) (ins : List Tens) : Bool := rangesMeet (o.ranges 0) (ins.map fun t => t.ranges 0).flatten

/-- Tensors named by uses, where they resolve. -/
def State.tensors (s : State) (c : Nat) (us : List HUse) : List Tens :=
  us.filterMap fun u => if u.absent then none else s.tens? c u.handle

/-- The verdict of checks, then of ownership over what is read and written (R79). -/
def State.verdict (s : State) (id : CmdId) (vs : List Viol) (uses : List HUse) (recs : Tab (List Byte)) : Verdict :=
  match worst vs with
  | some v => ⟨some v.ending, uses, [], false⟩
  | none =>
    let x : Acc := ⟨id.ctx, some id, 0⟩
    let outs := s.tensors id.ctx (uses.filter fun u => u.writes)
    let ins := s.tensors id.ctx (uses.filter fun u => u.reads)
    match s.gateEnding x (s.usedRanges id.ctx uses) with
    | some e => ⟨some e, uses, [], false⟩
    | none => ⟨none, uses, recs, outs.any fun o => overlapsReads o ins⟩

/-! ### ELEMENTWISE (R117, R118) -/

def ewUses (d : List Byte) : List HUse :=
  [useIn (u32 d 32) 32, useOut (u32 d 36) 36, useRaw (u32 d 40) 40 true, (useOut (u32 d 44) 44).opt]

def State.checkElementwise (s : State) (id : CmdId) (d : List Byte) : Verdict :=
  let c := id.ctx
  let uses := ewUses d
  let (dv, prec, derr) := s.drainCheck id (u32 d 40) 40
  let v1 := bodyViols d [bytesSpan 32 20] ++ (uses.map (s.useViols c)).flatten ++ dv
  match worst v1, derr, s.tens? c (u32 d 32), s.tens? c (u32 d 36) with
  | some v, _, _, _ => ⟨some v.ending, uses, [], false⟩
  | none, some e, _, _ => ⟨some e.ending, uses, [], false⟩
  | none, none, some i, some o =>
    let p := if u32 d 40 = noHandle then Prog.plain o.fmt else progOf prec
    let ops := p.operands.map fun u => u.1
    let v2 := (ops.map (s.useViols c)).flatten.map (·.inRec 2) ++ s.operandViols c p o
      ++ violIf (i.shape != o.shape) (viol .descFormat o.handle 36)
      ++ violIf (i.sparseN != 0) (viol .descFormat i.handle 32) ++ violIf (o.sparseN != 0) (viol .descFormat o.handle 36)
      ++ violIf (p.act == 6) ((viol .descFormat (u32 d 40) 13).inRec 2) ++ violIf p.scatter ((viol .descFormat (u32 d 40) 14).inRec 2)
      ++ violIf (p.outFmt != o.fmt.code) ((viol .descFormat (u32 d 40) 13).inRec 2)
    s.verdict id v2 (uses ++ ops) [(1, prec)]
  | none, none, _, _ => ⟨some (refusal .descFormat noHandle 32), uses, [], false⟩

/-- The statistics records of an ELEMENTWISE: tiles of 128 rows by 256 columns, row-major (R115, R118). -/
def State.ewStats (s : State) (id : CmdId) (h : Nat) (o : Tens) (rows : List (List FVal)) (strained : Nat → Nat → Nat) :
    State × WOut :=
  let cols := ceilDiv o.cols 256
  s.writeEach (fun t k =>
    let r0 := 128 * (k / cols)
    let c0 := 256 * (k % cols)
    let xs := ((upTo (min 128 (rows.length - r0))).map fun i =>
      if o.outerIn (o.outer (r0 + i)) then
        let row := ((rows.getD (r0 + i) []).take (o.ext 0)).drop c0
        (upTo (min 256 row.length)).map fun j => (c0 + j, row.getD j .zero)
      else []).flatten
    let w := t.writeStats id h k (statsRecord (statsOf xs) (strained r0 c0) false)
    (w.1, ⟨false, 0, 32, w.2⟩)) (upTo (ceilDiv rows.length 128 * cols))

/-- Strained blocks of the tile at (r0, c0). -/
def State.ewStrained (s : State) (id : CmdId) (o : Tens) (sc : FVal) (mode step : Nat) (rows : List (List FVal))
    (r0 c0 : Nat) : Nat :=
  ((upTo (min 128 (rows.length - r0))).map fun i =>
    if o.outerIn (o.outer (r0 + i)) then
      (o.encodeRun sc (fun j => s.rndAt id o mode step (r0 + i) j) c0
        ((((rows.getD (r0 + i) []).take (o.ext 0)).drop c0).take 256)).2.2.2
    else 0).foldl (· + ·) 0

/-- ELEMENTWISE (R118): the amax of what it writes joins the history after the scale has been chosen from it (R61), and the
granules it writes lose their promotion bits (R124). -/
def State.runElementwise (s0 : State) (c : Cmd) (i o : Tens) : State :=
  match s0.turnOf c with
  | none => s0
  | some (l, renew) =>
  let s := s0.serve l c renew
  let id := c.id
  let d := c.desc
  let p := if u32 d 40 = noHandle then Prog.plain o.fmt else progOf (c.records.getD 1 [])
  let step := u32 d 48
  let sT := s.readScale id i
  let exact := i.fmt == .int32 && o.fmt == .int32 && p.empty
  let opT := s.tensRun id.ctx
  let tens (u : Tens) : Except AccErr (List (List FVal)) := s.readAll (s.accOf id u) .fp32 u (s.readScale id u) 0
  let bad := s.badOperand id (i :: (p.operands.filterMap fun u => opT u.1.handle))
  s.afterReads id bad (s.readAll (s.accOf id i) .fp32 i sT 0) fun xs =>
    s.afterReads id (.ok none) (s.readStages id p tens) fun st =>
      let out := if exact then xs
        else (upTo xs.length).map fun r => st.row (fun j => ⟨j, r, r, j⟩) (xs.getD r [])
      let s := s.moved id i 0 (i.rowReadBytes * i.rows) 0
      let (s, w, sc) := (if exact then s else flagNon s id o out).writeAll id o p.mode step out
      let s := if exact then s else s.mergeAmax id o step (insideOf o out)
      let (s, w2) := if w.err.isSome ∨ exact then (s, WOut.zero)
        else s.ewStats id (u32 d 44) o out (s.ewStrained id o sc p.mode step out)
      let w := w.join w2
      let (s, w3) := if w.err.isSome ∨ !o.promote then (s, WOut.zero)
        else s.markRun (s.accOf id o) o 0 o.rows 0 o.cols false
      s0.wrote s id o step (w.join w3) sc

def execElementwise (id : CmdId) (s : State) : Host.Outcome State Fault Refusal :=
  .next (s.onCmd id (fun d => hOpcode d == 0x23) fun c =>
    match s.tensRun id.ctx (u32 c.desc 32), s.tensRun id.ctx (u32 c.desc 36) with
    | some i, some o => s.runElementwise c i o
    | _, _ => s)

/-! ### REDUCE (R119, R120) -/

def redAxis (d : List Byte) : Nat := bitsOf (u8 d 40) 2 0
def redOp (d : List Byte) : Nat := bitsOf (u8 d 40) 4 3
def redMode (d : List Byte) : Nat := bitsOf (u8 d 40) 6 5

def State.checkReduce (s : State) (id : CmdId) (d : List Byte) : Verdict :=
  let c := id.ctx
  let uses := [useIn (u32 d 32) 32, useOut (u32 d 36) 36]
  let v1 := bodyViols d [bytesSpan 32 8, ⟨40, 6, 0⟩, bytesSpan 44 8] ++ violIf (redOp d == 3) (formatViol 40)
    ++ violIf (redMode d == 3) (formatViol 40) ++ (uses.map (s.useViols c)).flatten
  match s.tens? c (u32 d 32), s.tens? c (u32 d 36) with
  | some i, some o =>
    let a := redAxis d
    let refused := [Fmt.mxfp8, .mxfp4, .eb4, .tb40, .int4, .uint32]
    let v2 := violIf (a ≥ i.rank) (formatViol 40)
      ++ violIf (i.sparseN != 0 || refused.contains i.fmt) (viol .descFormat i.handle 32)
      ++ violIf (o.sparseN != 0 || (o.fmt == .int32 && i.fmt != .int32)) (viol .descFormat o.handle 36)
      ++ violIf (o.shape != i.shape.set a 1 || o.pad.getD a 0 != 0) (viol .descFormat o.handle 36)
    s.verdict id (v1 ++ v2) uses []
  | _, _ => s.verdict id v1 uses []

/-- Combine the elements of one output element, in ascending order (R120); and whether an addition saturated. -/
def reduceElems (isInt : Bool) (op : Nat) : List FVal → FVal × Bool
  | [] => (.zero, false)
  | x :: xs =>
    if op = 0 then
      if isInt then
        xs.foldl (fun (a : FVal × Bool) v =>
          let r := satAdd (intOf a.1) (intOf v)
          (.ofInt r.1, a.2 || r.2)) (x, false)
      else (xs.foldl add32 (toF32 x), false)
    else if op = 1 then (xs.foldl max32 x, false)
    else (xs.foldl min32 x, false)

/-- The input elements an output element combines: coordinates that differ only along the axis, inside the extent. -/
def reduceGroup (i : Tens) (a : Nat) (rows : List (List FVal)) (cs : List Nat) (c : Nat) : List FVal :=
  let rowOf (cs : List Nat) : Nat :=
    ((cs.getD 3 0 * i.log 3 + cs.getD 2 0) * i.log 2 + cs.getD 1 0) * i.log 1 + cs.getD 0 0
  if a = 0 then (if i.outerIn cs then (rows.getD (rowOf cs) []).take (i.ext 0) else [])
  else if c ≥ i.ext 0 then []
  else
    ((upTo (i.ext a)).filter fun k => i.outerIn (cs.set (a - 1) k)).map fun k =>
      (rows.getD (rowOf (cs.set (a - 1) k)) []).getD c .zero

def State.runReduce (s0 : State) (c : Cmd) (i o : Tens) : State :=
  let id := c.id
  let d := c.desc
  let op := redOp d
  let isInt := i.fmt == .int32
  let scale := ofBits32 (u32 d 44)
  let exact := o.fmt == .int32 && u32 d 44 == 0x3F800000
  let s := s0
  s.afterReads id (.ok none) (s.readAll (s.accOf id i) .fp32 i (s.readScale id i) 0) fun xs =>
    let (fv, s) := s.free
    let res := (upTo o.rows).map fun r => (upTo o.cols).map fun col =>
      match reduceGroup i (redAxis d) xs (o.outer r) col with
      | [] => (ofBits32 (fv % 2 ^ 32), false)
      | g => reduceElems isInt op g
    let out := res.map fun row => row.map fun e => if exact then e.1 else mul32 (toF32 e.1) scale
    let s := (s.moved id i 0 (i.rowReadBytes * i.rows) 0).flagSaturated id (res.any fun row => row.any fun e => e.2)
    let s := if exact then s else flagNon s id o out
    let (s, w, sc) := s.writeAll id o (redMode d) (u32 d 48) out
    s0.wrote s id o (u32 d 48) w sc

def execReduce (id : CmdId) (s : State) : Host.Outcome State Fault Refusal :=
  .next (s.onCmd id (fun d => hOpcode d == 0x24) fun c =>
    match s.tensRun id.ctx (u32 c.desc 32), s.tensRun id.ctx (u32 c.desc 36) with
    | some i, some o => s.runReduce c i o
    | _, _ => s)

/-! ### Row statistics (R176, R177) -/

/-- Σ over a row in the lane order of R115. -/
def rowSum (xs : List FVal) : FVal :=
  treeSum 6 ((upTo 64).map fun j =>
    ((upTo (ceilDiv xs.length 64)).filterMap fun k => xs[64 * k + j]?).foldl add32 .zero)

def rowMean (xs : List FVal) : FVal := mul32 (rowSum xs) (recipSF (.ofNat xs.length))

def zip2 (f : FVal → FVal → FVal) (a b : List FVal) : List FVal :=
  (upTo a.length).map fun i => f (a.getD i .zero) (b.getD i .zero)

/-- What the forward pass of a row gives: the normalised row or the probabilities, and its two statistics. -/
structure RowFwd where
  vals : List FVal
  st0 : FVal
  st1 : FVal
  deriving DecidableEq, Repr

/-- The "Recomputed forward" column of R176; `masked c` says which columns a SOFTMAX masks. Where it masks all of them the
probabilities are 0 (R177), and the sum of e is what the expressions give, a NaN (DEDUCED, log entry 144). -/
def rowForward (kind : Nat) (param : FVal) (masked : Nat → Bool) (x : List FVal) : RowFwd :=
  match kind with
  | 1 =>
    let mu := rowMean x
    let d := x.map fun v => sub32 v mu
    let v := rowMean (d.map fun e => mul32 e e)
    let r := rsqrtSF (add32 v param)
    ⟨d.map fun e => mul32 e r, mu, r⟩
  | 2 =>
    let r := rsqrtSF (add32 (rowMean (x.map fun v => mul32 v v)) param)
    ⟨x.map fun v => mul32 v r, .zero, r⟩
  | _ =>
    let z := (upTo x.length).map fun c => if masked c then FVal.inf true else mul32 param (x.getD c .zero)
    let m := z.foldl max32 (.inf true)
    let e := z.map fun v => expSF (sub32 v m)
    let se := rowSum e
    if (upTo x.length).all masked then ⟨x.map fun _ => .zero, m, se⟩
    else
      let rc := recipSF se
      ⟨e.map fun v => mul32 v rc, m, se⟩

def causalMask (causal : Bool) (q : Nat) (off : Int) (c : Nat) : Bool :=
  causal && decide (Int.ofNat c > Int.ofNat q + off)

/-- Element bytes of a format in 320ths of a byte: the bytes of its block over its elements, scales in a plane of their own left
out. -/
def elem320 (t : Tens) : Nat := t.fmt.blockBytes * (320 / t.fmt.block)

/-- Whether D × the element bytes of `ts` fit half the scratchpad a context owns on every cell of the group (R175, R181). -/
def State.rowFits (s : State) (c : Nat) (members : List Nat) (d : Nat) (ts : List Tens) : Bool :=
  members.all fun l =>
    d * (ts.map elem320).foldl (· + ·) 0 * 2 ≤ s.banksOwned c ((s.cellOf l).getD 0) * 131072 * 320

/-- A vector operand of length `n`, or a constant where none is named. -/
def State.vecOr (s : State) (id : CmdId) (h : Nat) (n : Nat) (v : FVal) : Except AccErr (List FVal) :=
  if h = noHandle then .ok (List.replicate n v) else s.readVec id h

/-! ### ROW_FORWARD (R180, R181) -/

def rfKind (d : List Byte) : Nat := bitsOf (u32 d 52) 1 0
def rfCausal (d : List Byte) : Bool := bitOf (u32 d 52) 2

def State.checkRowForward (s : State) (id : CmdId) (d : List Byte) (members : List Nat) : Verdict :=
  let c := id.ctx
  let uses := [useIn (u32 d 32) 32, useOut (u32 d 36) 36, (useIn (u32 d 40) 40).opt, (useIn (u32 d 44) 44).opt,
    (useOut (u32 d 48) 48).opt]
  let k := rfKind d
  let some' (o : Nat) : Bool := u32 d o != noHandle
  let v1 := bodyViols d [bytesSpan 32 20, ⟨52, 4, 0⟩, bytesSpan 56 12] ++ (uses.map (s.useViols c)).flatten
    ++ violIf (k == 3) (formatViol 52) ++ violIf (bitsOf (u32 d 52) 4 3 == 3) (formatViol 52)
    ++ violIf (k == 0 && some' 40) (formatViol 40) ++ violIf (k == 0 && some' 44) (formatViol 44)
    ++ violIf (k == 2 && some' 44) (formatViol 44) ++ violIf (rfCausal d && k != 0) (formatViol 52)
  match s.tens? c (u32 d 32), s.tens? c (u32 d 36) with
  | some x, some y =>
    let vec (o : Nat) : List Viol :=
      match s.tens? c (u32 d o) with
      | some t => violIf (t.elems != x.cols || t.sparseN != 0) (viol .descFormat t.handle o)
      | none => []
    let st := match s.tens? c (u32 d 48) with
      | some t => violIf (t.fmt != .fp32 || t.cols != 2 || t.rows != x.rows) (viol .descFormat t.handle 48)
      | none => []
    let v2 := violIf (x.shape != y.shape) (viol .descFormat y.handle 36)
      ++ violIf (x.cols > 65536 || x.sparseN != 0) (viol .descFormat x.handle 32)
      ++ violIf (y.sparseN != 0) (viol .descFormat y.handle 36) ++ vec 40 ++ vec 44 ++ st
    let r := s.verdict id (v1 ++ v2) uses []
    if r.ending.isNone ∧ !s.rowFits c members x.cols [x, y] then
      { r with ending := some Status.bufferCapacity.plain }
    else r
  | _, _ => s.verdict id v1 uses []

def State.runRowForward (s0 : State) (c : Cmd) (x y : Tens) : State :=
  match s0.turnOf c with
  | none => s0
  | some (l, renew) =>
  let s := s0.serve l c renew
  let id := c.id
  let d := c.desc
  let k := rfKind d
  let n := x.cols
  let param := ofBits32 (u32 d 56)
  let off := signedOf 32 (u32 d 60)
  let ins := x :: ([u32 d 40, u32 d 44].filterMap fun h => s.tensRun id.ctx h)
  s.afterReads id (s.badOperand id ins) (s.readAll (s.accOf id x) .fp32 x (s.readScale id x) 0) fun xs =>
    s.afterReads id (.ok none) (s.vecOr id (u32 d 40) n .one) fun gamma =>
      s.afterReads id (.ok none) (s.vecOr id (u32 d 44) n .zero) fun beta =>
        let f (r : Nat) : RowFwd :=
          rowForward k param (causalMask (rfCausal d) ((x.outer r).getD 0 0) off) ((xs.getD r []).map toF32)
        let fs := (upTo xs.length).map f
        let out := fs.map fun w =>
          if k = 1 then zip2 add32 (zip2 mul32 w.vals gamma) beta
          else if k = 2 then zip2 mul32 w.vals gamma
          else w.vals
        let s := flagNon (s.moved id x 0 (x.rowReadBytes * x.rows) 0) id y out
        let (s, w, sc) := s.writeAll id y (bitsOf (u32 d 52) 4 3) (u32 d 64) out
        let (s, w2) :=
          match s.tensRun id.ctx (u32 d 48) with
          | some t =>
            if w.err.isSome then (s, WOut.zero)
            else
              let r := s.writeAll id t 0 0 (fs.map fun (q : RowFwd) => [q.st0, q.st1])
              (r.1, r.2.1)
          | none => (s, WOut.zero)
        s0.wrote s id y (u32 d 64) (w.join w2) sc

def execRowForward (id : CmdId) (s : State) : Host.Outcome State Fault Refusal :=
  .next (s.onCmd id (fun d => hOpcode d == 0x21) fun c =>
    match s.tensRun id.ctx (u32 c.desc 32), s.tensRun id.ctx (u32 c.desc 36) with
    | some x, some y => s.runRowForward c x y
    | _, _ => s)

/-! ### ROW_BACKWARD (R174–R178) -/

def State.checkRowBackward (s : State) (id : CmdId) (d : List Byte) (members : List Nat) : Verdict :=
  let c := id.ctx
  let uses := [useIn (u32 d 32) 32, useIn (u32 d 36) 36, useOut (u32 d 40) 40, (useIn (u32 d 44) 44).opt,
    (useOut (u32 d 48) 48).opt]
  let k := rfKind d
  let some' (o : Nat) : Bool := u32 d o != noHandle
  let v1 := bodyViols d [bytesSpan 32 20, ⟨52, 2, 0⟩, bytesSpan 56 8] ++ (uses.map (s.useViols c)).flatten
    ++ violIf (k == 3) (formatViol 52) ++ violIf (k == 0 && some' 44) (formatViol 44)
    ++ violIf (k == 0 && some' 48) (formatViol 48) ++ violIf (rfCausal d && k != 0) (formatViol 52)
  match s.tens? c (u32 d 32), s.tens? c (u32 d 36), s.tens? c (u32 d 40) with
  | some x, some dy, some dx =>
    let gam := match s.tens? c (u32 d 44) with
      | some t => violIf (t.elems != x.cols || t.sparseN != 0) (viol .descFormat t.handle 44)
      | none => []
    let par := match s.tens? c (u32 d 48) with
      | some t => violIf (t.fmt != .fp32 || t.rows != ceilDiv x.rows 128 || t.cols != x.cols * (if k = 1 then 2 else 1))
          (viol .descFormat t.handle 48)
      | none => []
    let v2 := violIf (x.shape != dy.shape) (viol .descFormat dy.handle 36)
      ++ violIf (x.shape != dx.shape) (viol .descFormat dx.handle 40)
      ++ violIf (x.cols > 65536 || x.sparseN != 0) (viol .descFormat x.handle 32)
      ++ violIf (dy.sparseN != 0) (viol .descFormat dy.handle 36) ++ violIf (dx.sparseN != 0) (viol .descFormat dx.handle 40)
      ++ gam ++ par
    let r := s.verdict id (v1 ++ v2) uses []
    if r.ending.isNone ∧ !s.rowFits c members x.cols [x, dy, dx] then
      { r with ending := some Status.bufferCapacity.plain }
    else r
  | _, _, _ => s.verdict id v1 uses []

/-- "Gradient written to DX" of R176. -/
def rowBackward (k : Nat) (param : FVal) (f : RowFwd) (dy gamma : List FVal) : List FVal :=
  if k = 0 then
    let sdp := rowSum (zip2 mul32 dy f.vals)
    zip2 (fun p v => mul32 param (mul32 p (sub32 v sdp))) f.vals dy
  else
    let g := zip2 mul32 dy gamma
    let mgx := rowMean (zip2 mul32 g f.vals)
    if k = 1 then
      let mg := rowMean g
      zip2 (fun gv xh => mul32 f.st1 (sub32 (sub32 gv mg) (mul32 xh mgx))) g f.vals
    else zip2 (fun gv xh => mul32 f.st1 (sub32 gv (mul32 xh mgx))) g f.vals

/-- Row sums down a task's rows, column by column, in ascending row order. -/
def columnSums (rows : List (List FVal)) : List FVal :=
  match rows with
  | [] => []
  | r :: t => t.foldl (fun a x => zip2 add32 a x) r

def State.runRowBackward (s0 : State) (c : Cmd) (x dy dx : Tens) : State :=
  match s0.turnOf c with
  | none => s0
  | some (l, renew) =>
  let s := s0.serve l c renew
  let id := c.id
  let d := c.desc
  let k := rfKind d
  let n := x.cols
  let param := ofBits32 (u32 d 56)
  let off := signedOf 32 (u32 d 60)
  let ins := x :: dy :: ([u32 d 44].filterMap fun h => s.tensRun id.ctx h)
  s.afterReads id (s.badOperand id ins) (s.readAll (s.accOf id x) .fp32 x (s.readScale id x) 0) fun xs =>
    s.afterReads id (.ok none) (s.readAll (s.accOf id dy) .fp32 dy (s.readScale id dy) 0) fun dys0 =>
      s.afterReads id (.ok none) (s.vecOr id (u32 d 44) n .one) fun gamma =>
        let dys := dys0.map fun r => r.map toF32
        let mask (r : Nat) : Nat → Bool := causalMask (rfCausal d) ((x.outer r).getD 0 0) off
        let fs := (upTo xs.length).map fun r => rowForward k param (mask r) ((xs.getD r []).map toF32)
        let out := (upTo xs.length).map fun r =>
          if k = 0 ∧ (upTo n).all (mask r) then (xs.getD r []).map fun _ => FVal.zero
          else rowBackward k param (fs.getD r ⟨[], .zero, .zero⟩) (dys.getD r []) gamma
        let s := flagNon ((s.moved id x 0 (x.rowReadBytes * x.rows) 0).moved id dy 0 (dy.rowReadBytes * dy.rows) 0) id dx out
        let (step, s) := s.free
        let (s, w, sc) := s.writeAll id dx 0 (step % 2 ^ 32) out
        let (s, w2) :=
          match s.tensRun id.ctx (u32 d 48) with
          | some t =>
            if w.err.isSome then (s, WOut.zero)
            else
              let part (b : Nat) : List FVal :=
                let rs := (upTo (min 128 (xs.length - 128 * b))).map fun i => 128 * b + i
                columnSums (rs.map fun r => zip2 mul32 (dys.getD r []) (fs.getD r ⟨[], .zero, .zero⟩).vals)
                  ++ (if k = 1 then columnSums (rs.map fun r => dys.getD r []) else [])
              let r := s.writeAll id t 0 0 ((upTo t.rows).map part)
              (r.1, r.2.1)
          | none => (s, WOut.zero)
        s0.wrote s id dx (step % 2 ^ 32) (w.join w2) sc

def execRowBackward (id : CmdId) (s : State) : Host.Outcome State Fault Refusal :=
  .next (s.onCmd id (fun d => hOpcode d == 0x22) fun c =>
    match s.tensRun id.ctx (u32 c.desc 32), s.tensRun id.ctx (u32 c.desc 36), s.tensRun id.ctx (u32 c.desc 40) with
    | some x, some dy, some dx => s.runRowBackward c x dy dx
    | _, _, _ => s)

end Sys2Proof.Machine
end

