-- ==== Sys2Proof/Machine/Desc.lean ====
section
/-!
DEFINITION. Machine/Desc.lean: NOP, and the descriptor and allocation commands DESC_CREATE, DESC_DESTROY, ALLOC_SET and
ALLOC_CLEAR (R183–R195, R209, R566).
-/
namespace Sys2Proof.Machine

/-! ### NOP -/

def execNop (id : CmdId) (s : State) : Host.Outcome State Fault Refusal :=
  .next (s.onCmd id (isOpcode 0x0001) fun _ => s.finish id Status.ok.plain)

/-! ### The descriptor record -/

def recordSpans : List Span :=
  [⟨0, 14, 0⟩, ⟨2, 1, 0⟩, bytesSpan 4 4, ⟨8, 15, 0⟩, bytesSpan 12 34, bytesSpan 48 64]
def extSpans : List Span := [bytesSpan 0 56, ⟨56, 2, 0⟩]

def rsvdViols (spans : List Span) (r : List Byte) : List Viol :=
  match rsvdOff spans r with
  | some o => [formatViol o]
  | none => []

/-- A breach in each listed place whose value is not 0. -/
def nonZeros (r : List Byte) (fs : List (Nat × Nat)) : List Viol :=
  (fs.map fun f => violIf (fieldN r f.1 f.2 != 0) (formatViol f.1)).flatten

/-- Malformed fields of a descriptor record of format `f`, reserved bits apart (R128, R189, R190). -/
def fieldViols (f : Fmt) (r : List Byte) : List Viol :=
  let w0 := u8 r 0
  let w1 := u8 r 1
  let rank := bitsOf w0 6 4
  let raw := bitOf w0 7
  let n := bitsOf w1 3 0
  let mode := bitsOf w1 5 4
  let promote := bitOf (u8 r 2) 0
  let distributed := bitOf (u8 r 2) 1
  let scale := ofBits32 (u32 r 12)
  let above := (upTo 5).filter fun d => d ≥ rank
  let log (d : Nat) : Nat := u32 r (16 + 4 * d) + u16 r (36 + 2 * d)
  violIf (rank == 0 || rank > 5) (formatViol 0) ++ violIf (n > 8) (formatViol 1) ++ violIf (mode == 3) (formatViol 1)
    ++ ((upTo rank).map fun d => violIf (u32 r (16 + 4 * d) == 0) (formatViol (16 + 4 * d))).flatten
    ++ nonZeros r (above.map fun d => (16 + 4 * d, 4)) ++ nonZeros r (above.map fun d => (36 + 2 * d, 2))
    ++ nonZeros r ((above.filter fun d => d ≥ 1).map fun d => (40 + 8 * d, 8))
    ++ violIf (n != 0 && [Fmt.fp32, .int32, .uint32, .tb40].contains f) (formatViol 1)
    ++ violIf (u16 r 36 != 0 && (n != 0 || [Fmt.int4, .mxfp8, .mxfp4, .eb4, .tb40].contains f)) (formatViol 36)
    ++ violIf (n != 0 && rank != 2) (formatViol 0)
    ++ (if n != 0 then nonZeros r [(48, 8), (56, 8), (64, 8), (72, 8)] else [])
    ++ (if raw then
          violIf (f != .fp32 || rank != 1) (formatViol 0) ++ violIf (w1 != 0) (formatViol 1)
            ++ violIf (promote || distributed) (formatViol 2) ++ nonZeros r [(36, 2)]
        else [])
    ++ violIf (promote && !(f == .eb4 || f == .mxfp4)) (formatViol 2)
    ++ violIf ((promote || distributed || mode == 2) && u64 r 96 == 0) (formatViol 96)
    ++ violIf (mode == 1 && !(scale.isFinite && FVal.zero.lt scale)) (formatViol 12)
    ++ violIf ((upTo rank).foldl (fun p d => p * log d) 1 ≥ 2 ^ 64) (formatViol 16)
    ++ violIf (!f.isMX && n == 0 && u64 r 88 != 0) (formatViol 88)

/-- Malformed fields of a descriptor record, reserved bits among them. -/
def recordViols (r : List Byte) : List Viol :=
  match Fmt.ofCode (bitsOf (u8 r 0) 3 0) with
  | none => [formatViol 0]
  | some f => rsvdViols recordSpans r ++ fieldViols f r

/-- Malformed fields of an extension record (R194, R209, R190). -/
def extViols (t : Tens) (e : List Byte) : List Viol :=
  let axis := bitsOf (u8 e 56) 2 0
  let size := (upTo t.rank).foldl (fun p d => p * (if d = axis then t.globalExtent else t.log d)) 1
  rsvdViols extSpans e
    ++ violIf (t.scaleMode == 2 && (t.history == 0 || t.history % 128 != 0)) (formatViol 0)
    ++ violIf (t.scaleMode != 2 && t.history != 0) (formatViol 0)
    ++ (if t.promote then [] else nonZeros e [(8, 8), (16, 8), (24, 8)])
    ++ (if t.distributed then
          violIf (axis ≥ t.rank) (formatViol 56) ++ violIf (u32 e 48 ≥ u32 e 52) (formatViol 48)
            ++ violIf (t.globalOffset + t.log axis > t.globalExtent) (formatViol 40)
            ++ violIf (axis < t.rank && size ≥ 2 ^ 64) (formatViol 32)
        else [])

/-- Alignment (R191). -/
def alignViols (t : Tens) : List Viol :=
  let al := t.rowAlign
  violIf (t.base % al != 0) (viol .alignInner noHandle 80)
    ++ violIf (t.sparseN != 0 && t.aux % 64 != 0) (viol .alignInner noHandle 88)
    ++ ((upTo t.rank).map fun d =>
        violIf (d ≥ 1 && t.stride.getD d 0 % al != 0) (viol .alignInner noHandle (40 + 8 * d))).flatten

/-- The promotion map and the shadow planes (R195). -/
def promoRanges (t : Tens) : List (Nat × Rng) :=
  if !t.promote then []
  else
    let g := ceilDiv t.rows 16 * ceilDiv t.cols 64
    [(8, (t.promoMap, ceilDiv g 8)), (16, (t.shadow, t.rows * ((32 * ceilDiv t.cols 32 + 63) / 64 * 64))),
      (24, (t.shadowScale, t.rows * ceilDiv t.cols 32))]

/-- Reach outside the allocation (R192, R195), and the history record's own (R565). The record is 1, its extension 2. -/
def State.reachViols (s : State) (c : Nat) (t : Tens) : List Viol :=
  match (s.ctx c).allocs.get? t.alloc with
  | none => [(viol .tensorRange noHandle 8).inRec 1]
  | some a =>
    let planes := t.hull 0
    ((upTo planes.length).map fun k =>
        violIf (!a.holds [planes.getD k (0, 0)]) ((viol .tensorRange noHandle (80 + 8 * k)).inRec 1)).flatten
      ++ ((promoRanges t).map fun p => violIf (!a.holds [p.2]) ((viol .tensorRange noHandle p.1).inRec 2)).flatten
      ++ (if t.scaleMode = 2 then (s.allocReach c t.history 128 0 true true).map (·.inRec 2) else [])

/-- Insert a dimension by stride. -/
def insertDim (d : Nat × Nat) : List (Nat × Nat) → List (Nat × Nat)
  | [] => [d]
  | e :: t => if d.1 < e.1 then d :: e :: t else e :: insertDim d t

/-- SELF_OVERLAP (R193): `span` is that of the row and of the dimensions before. -/
def overlapDims (span : Nat) : List (Nat × Nat) → Bool
  | [] => false
  | (st, n) :: t => decide (st < span) || overlapDims (span + st * (n - 1)) t

def Tens.overlaps (t : Tens) : Bool :=
  if t.raw ∨ t.sparseN ≠ 0 then false
  else
    let dims := ((upTo t.rank).filter fun d => d ≥ 1 && t.log d ≥ 2).map fun d => (t.stride.getD d 0, t.log d)
    overlapDims t.rowBytes (dims.foldl (fun l d => insertDim d l) [])

/-! ### DESC_CREATE -/

/-- Checks at issue: the body, and the records it reads, copied then (R183, R194, R565). A malformed record is judged whole, since
the detail names the lowest byte at fault (R558). -/
def State.checkDescCreate (s : State) (id : CmdId) (d : List Byte) : Verdict :=
  let (v1, r, e1) := s.recordAt id (u64 d 40) 128 64 40
  let v0 := bodyViols d [⟨32, 23, 0⟩, bytesSpan 40 8] ++ violIf (u32 d 32 % 2 ^ 24 ≥ 16384) (formatViol 32)
  let ext := u64 r 96
  let bad := if !v1.isEmpty ∨ e1.isSome then [] else (recordViols r).map (·.inRec 1)
  let more := if bad.isEmpty then [] else
    match Fmt.ofCode (bitsOf (u8 r 0) 3 0) with
    | none => []
    | some f =>
      let t := tensOf noHandle r [] false
      (alignViols t).map (·.inRec 1) ++ (if (fieldViols f r).isEmpty ∧ !t.promote ∧ t.scaleMode ≠ 2 then s.reachViols id.ctx t else [])
  let (v2, x, e2) := if v1.isEmpty ∧ e1.isNone ∧ ext ≠ 0 ∧ (recordViols r).isEmpty then s.recordAt id ext 64 64 96 else ([], [], none)
  Verdict.ofRead (v0 ++ v1 ++ bad ++ more ++ v2.map (·.inRec 1)) (if e1.isSome then e1 else e2) []
    [(1, r), (2, x)]

/-- Validate the copied records and fill the slot (R183–R195). -/
def State.descCreate (s : State) (c : Cmd) : State :=
  let id := c.id
  let i := u32 c.desc 32 % 2 ^ 24
  let r := c.records.getD 1 []
  let x := c.records.getD 2 []
  let sl := s.slot id.ctx i
  let t := tensOf noHandle r x false
  let vs := violIf (sl.valid || sl.destroying) (formatViol 32) ++ (extViols t (padTo 64 x)).map (·.inRec 2)
    ++ (alignViols t).map (·.inRec 1) ++ s.reachViols id.ctx t
  match worst vs with
  | some v => s.finish id v.ending
  | none =>
    let g := (sl.gen + 1) % 256
    (s.updSlot id.ctx i fun _ =>
      { DescSlot.init with gen := g, valid := true, record := r, ext := x, selfOverlap := t.overlaps }).finish id
        ⟨0, 0, detail4 (i + g * 2 ^ 24) 0 0 0⟩

def execDescCreate (id : CmdId) (s : State) : Host.Outcome State Fault Refusal :=
  .next (s.onCmd id (isOpcode 0x0010) fun c => s.descCreate c)

/-! ### DESC_DESTROY -/

def State.checkDescDestroy (s : State) (id : CmdId) (d : List Byte) : Verdict :=
  let h := u32 d 32
  Verdict.of (bodyViols d [bytesSpan 32 4] ++ violIf (s.tens? id.ctx h).isNone (viol .descFormat h 32)) [useIn h 32]

/-- Whether a command in flight, other than a DESC_DESTROY, names a handle (R185). -/
def State.namesHandle (s : State) (ctx h : Nat) : Bool :=
  s.cmds.any fun c => c.id.ctx == ctx && !isOpcode 0x0011 c.desc && c.handles.contains h

/-- Mark the slot invalid, and complete once no command in flight names the handle (R185). -/
def State.descDestroy (s : State) (c : Cmd) : State :=
  let id := c.id
  let h := u32 c.desc 32
  let i := handleSlot h
  let s := if (s.slot id.ctx i).gen = handleGen h ∧ (s.slot id.ctx i).valid then
      s.updSlot id.ctx i fun x =>
        { x with valid := false, destroying := true, frozen := (s.ctx id.ctx).allocs.get? (tensOf h x.record x.ext false).alloc } else s
  if s.namesHandle id.ctx h then s
  else
    (if (s.slot id.ctx i).gen = handleGen h then
        s.updSlot id.ctx i fun x => { DescSlot.init with gen := x.gen } else s).finish id Status.ok.plain

def execDescDestroy (id : CmdId) (s : State) : Host.Outcome State Fault Refusal :=
  .next (s.onCmd id (isOpcode 0x0011) fun c => s.descDestroy c)

/-! ### ALLOC_SET and ALLOC_CLEAR -/

/-- The addressable memory an ALLOC_SET names (R293), and the key slot of its TARGET (R495). -/
def State.allocViols (s : State) (d : List Byte) : List Viol :=
  let a := u64 d 40
  let n := u64 d 48
  let l := s.mem.layout
  violIf (!wholly l (fun k => (s.die k).inService) a n
      || s.mem.retired.any fun e => e.2.isNone && decide (a ≤ pageAddr l e.1 ∧ pageAddr l e.1 < a + n)) (viol .tensorRange noHandle 40)
    ++ violIf (s.memKey (bitsOf (u32 d 36) 5 0) == 0) (viol .accessDenied noHandle 36)

def State.checkAllocSet (s : State) (d : List Byte) : Verdict :=
  Verdict.of (bodyViols d [⟨32, 15, 0⟩, ⟨36, 5, 0⟩, bytesSpan 40 16, ⟨56, 1, 0⟩, ⟨57, 3, 0⟩]
    ++ violIf (u64 d 40 % 4096 != 0) (viol .alignInner noHandle 40)
    ++ violIf (u64 d 48 == 0 || u64 d 48 % 4096 != 0) (restViol 48) ++ s.allocViols d) []

def checkAllocClear (d : List Byte) : Verdict := Verdict.of (bodyViols d [⟨32, 15, 0⟩, ⟨36, 5, 0⟩]) []

/-- Whether a valid descriptor of a context names an allocation (R187). -/
def State.allocNamed (s : State) (ctx i : Nat) : Bool :=
  (s.ctx ctx).slots.vals.any fun x => x.valid && (tensOf 0 x.record x.ext false).alloc == i

/-- Change an allocation that no valid descriptor names. -/
def State.allocChange (s : State) (c : Cmd) (f : Tab Alloc → Nat → Tab Alloc) : State :=
  let i := u16 c.desc 32
  let t := bitsOf (u32 c.desc 36) 5 0
  if s.allocNamed t i then s.finish c.id (formatViol 32).ending
  else (s.updCtx t fun x => { x with allocs := f x.allocs i }).finish c.id Status.ok.plain

def allocOfBody (d : List Byte) : Alloc := ⟨u64 d 40, u64 d 48, bitOf (u8 d 56) 0, bitOf (u8 d 56) 1, bitsOf (u8 d 57) 3 0⟩

def execAllocSet (id : CmdId) (s : State) : Host.Outcome State Fault Refusal :=
  .next (s.onCmd id (isOpcode 0x0012) fun c => s.allocChange c fun t i => t.set i (allocOfBody c.desc))

def execAllocClear (id : CmdId) (s : State) : Host.Outcome State Fault Refusal :=
  .next (s.onCmd id (isOpcode 0x0013) fun c => s.allocChange c fun t i => t.erase i)

end Sys2Proof.Machine
end

