-- ==== Sys2Proof/Machine/DataMove.lean ====
section
/-!
DEFINITION. Machine/DataMove.lean: LAYOUT, GATHER, SCATTER, SCATTER_ADD and DMA_COPY (R196–R216, R571).
-/
namespace Sys2Proof.Machine

/-! ### The body (Table 8-6) -/

def mvPerm (d : List Byte) (k : Nat) : Nat := bitsOf (u32 d 52) (3 * k + 2) (3 * k)
def mvMode (d : List Byte) : Nat := bitsOf (u32 d 52) 16 15
def mvOp (d : List Byte) : Nat := bitsOf (u32 d 52) 18 17
def mvAllow (d : List Byte) : Bool := bitOf (u32 d 52) 19
def mvKeep (d : List Byte) : Bool := bitOf (u32 d 52) 20
def mvStep (d : List Byte) : Nat := u32 d 48
def mvGen (d : List Byte) : Nat := u32 d 56

def mvUses (d : List Byte) : List HUse :=
  [useIn (u32 d 32) 32, ⟨u32 d 36, 36, false, false, mvOp d == 3, true⟩, useRaw (u32 d 40) 40 true]
    ++ (if mvOp d = 0 then [] else [useIn (u32 d 44) 44])

/-- One entry of the move: the views of source and destination, their offsets and the entry's number (R201). -/
structure MoveEnt where
  no : Nat
  src : Tens
  so : Nat
  dst : Tens
  dof : Nat
  deriving DecidableEq, Repr

/-- A tensor with one EXTENT replaced, its pad there kept. -/
def Tens.cutExtent (t : Tens) (d m : Nat) : Tens := { t with extent := t.extent.set d m }

/-- The entry's views: M replaces the outermost extent of the destination, and the source dimension mapped to it. A GATHER
maps no source dimension to it (log entry 14). -/
def moveEnt (d : List Byte) (i o : Tens) (no : Nat) (e : PEntry) : MoveEnt :=
  let src := match mvOp d with
    | 0 => i.withExtent (mvPerm d o.outermost) e.m
    | 1 => i
    | _ => i.withExtent i.outermost e.m
  ⟨no, src, e.left, o.cutExtent o.outermost e.m, e.out⟩

/-- The entries of a move; an entry with M = 0 moves nothing (R95). -/
def moveEnts (d : List Byte) (i o : Tens) (list : List Byte) : List MoveEnt :=
  if u32 d 40 = noHandle then [⟨0, i, 0, o, 0⟩]
  else
    let es := pEntries list
    ((upTo es.length).filterMap fun k => (es[k]?).map fun e => (k, e)).filterMap fun ke =>
      if ke.2.m = 0 then none else some (moveEnt d i o ke.1 ke.2)

/-- A tensor of rank 1 in a format of one-element blocks as rows of one element each: a row of a gather or scatter is then a
row of storage. -/
def Tens.asRows (t : Tens) : Tens :=
  if t.rank = 1 ∧ t.fmt.block = 1 then
    { t with rank := 2, extent := [1, t.ext 0, 0, 0, 0], pad := [0, t.pad.getD 0 0, 0, 0, 0],
             stride := [0, t.fmt.blockBytes, 0, 0, 0], distAxis := if t.distAxis = 0 then 1 else t.distAxis }
  else t

/-! ### Checks at issue -/

def moveEntryViols (d : List Byte) (i o : Tens) (ia oa : Alloc) (list : List Byte) : List Viol :=
  if u32 d 40 = noHandle then []
  else
    let es := pEntries list
    ((upTo es.length).map fun k =>
      match es[k]? with
      | none => []
      | some e =>
        if e.m = 0 then []
        else
          let v (st : Status) (f : Nat) : Viol := (viol st (u32 d 40) (32 * k + f)).inRec 1
          let m := moveEnt d i o k e
          let cap := match mvOp d with
            | 0 => i.ext (mvPerm d o.outermost)
            | 1 => e.m
            | _ => i.ext i.outermost
          violIf (e.left % i.rowAlign != 0) (v .alignInner 0) ++ violIf (e.out % o.rowAlign != 0) (v .alignInner 16)
            ++ violIf (e.m > o.ext o.outermost || e.m > cap) (v .tensorRange 24)
            ++ violIf (!ia.holds (m.src.hull m.so)) (v .tensorRange 0)
            ++ violIf (!oa.holds (m.dst.hull m.dof)) (v .tensorRange 16)).flatten

/-- Conditions of a LAYOUT on its tensors (R199, R200). -/
def layoutViols (d : List Byte) (i o : Tens) : List Viol :=
  let perm := (upTo o.rank).map (mvPerm d)
  let ident := perm == upTo o.rank
  violIf (i.rank != o.rank || !((upTo o.rank).all fun k => perm.contains k)) (formatViol 52)
    ++ violIf ((upTo o.rank).any fun k => o.ext k != i.log (mvPerm d k)) (viol .descFormat o.handle 36)
    ++ violIf ((i.sparseN != 0 || o.sparseN != 0) && (i.sparseN != o.sparseN || !ident)) (viol .descFormat i.handle 32)

/-- Conditions of GATHER, SCATTER and SCATTER_ADD ("Gather and scatter", R207). -/
def indexedViols (d : List Byte) (i o x : Tens) : List Viol :=
  let (t, y) := if mvOp d = 1 then (i, o) else (o, i)
  violIf (x.rank != 1 || !isIndexFmt x || x.sparseN != 0) (viol .descFormat x.handle 44)
    ++ violIf (i.fmt != o.fmt) (viol .descFormat o.handle 36)
    ++ violIf (i.sparseN != 0) (viol .descFormat i.handle 32) ++ violIf (o.sparseN != 0) (viol .descFormat o.handle 36)
    ++ violIf (t.rank != y.rank || (upTo t.outermost).any fun k => t.log k != y.log k) (viol .descFormat y.handle 36)
    ++ violIf (y.log y.outermost != x.cols) (viol .descFormat x.handle 44)
    ++ violIf (mvOp d == 3 && !([Fmt.fp32, .bf16, .fp16, .int32].contains o.fmt)) (viol .descFormat o.handle 36)

/-- What a move reads and writes. -/
def MoveEnt.reads (e : MoveEnt) : List Rng := e.src.ranges e.so
def MoveEnt.writes (e : MoveEnt) : List Rng := e.dst.ranges e.dof

/-- Checks of the whole move: entries, overlapping destinations, ownership (R79, R201, R203). -/
def State.moveLate (s : State) (id : CmdId) (d : List Byte) (uses : List HUse) (i o : Tens) (list : List Byte) : Verdict :=
  let vs := moveEntryViols d i o (s.allocOf id.ctx i) (s.allocOf id.ctx o) list
  match worst vs with
  | some v => ⟨some v.ending, uses, [], false⟩
  | none =>
    let es := moveEnts d i o list
    let ws := es.map MoveEnt.writes
    let rs := (es.map MoveEnt.reads).flatten
    let overlap := if mvAllow d ∨ u32 d 40 = noHandle then none else firstOverlap ws
    match overlap with
    | some (a, b) => ⟨some (overlapEnding o.handle ((es[a]?).elim 0 (·.no)) ((es[b]?).elim 0 (·.no))), uses, [], false⟩
    | none =>
      let idx := (s.tens? id.ctx (u32 d 44)).elim [] fun x => if mvOp d = 0 then [] else x.ranges 0
      match s.gateEnding (s.accOf id o) [(i.handle, 32, rs), (o.handle, 36, ws.flatten), (u32 d 44, 44, idx)] with
      | some e => ⟨some e, uses, [], false⟩
      | none => ⟨none, uses, [(0, list)], mvOp d == 3 || rangesMeet ws.flatten rs⟩

/-- The checks at issue of a DATA_MOVE. -/
def State.checkDataMove (s : State) (id : CmdId) (d : List Byte) : Verdict :=
  let uses := mvUses d
  let (lv, list, lerr) := s.listCheck id (u32 d 40) 40
  let v1 := bodyViols d [bytesSpan 32 20, ⟨52, 20, 0⟩, bytesSpan 56 4] ++ violIf (mvMode d == 3) (formatViol 53)
    ++ violIf (mvGen d ≥ 65536) (restViol 56) ++ violIf (mvOp d == 0 && u32 d 44 != noHandle) (restViol 44)
    ++ (uses.map (s.useViols id.ctx)).flatten ++ lv
  let moveShape (i o : Tens) : List Viol := if mvOp d = 0 then layoutViols d i o
    else (s.tens? id.ctx (u32 d 44)).elim [formatViol 44] fun x => indexedViols d i o x
  let v2 := match s.tens? id.ctx (u32 d 32), s.tens? id.ctx (u32 d 36) with
    | some i, some o => if lv.isEmpty ∧ lerr.isNone then moveShape i o else []
    | _, _ => []
  match worst (v1 ++ v2), lerr, s.tens? id.ctx (u32 d 32), s.tens? id.ctx (u32 d 36) with
  | some v, _, _, _ => ⟨some v.ending, uses, [], false⟩
  | none, some e, _, _ => ⟨some e.ending, uses, [], false⟩
  | none, none, some i, some o =>
    match worst (moveShape i o) with
    | some v => ⟨some v.ending, uses, [], false⟩
    | none => s.moveLate id d uses i o list
  | none, none, _, _ => ⟨some (refusal .descFormat noHandle 32), uses, [], false⟩

/-! ### One row -/

/-- A row on its way: the stored bytes, element and scale plane, of its first `col` elements where those are copied unchanged,
and the values of the elements after them. -/
structure RowData where
  raw : Option (List Byte × List Byte)
  col : Nat
  vals : List FVal
  deriving DecidableEq, Repr

def RowData.of (vs : List FVal) : RowData := ⟨none, 0, vs⟩

/-- How a move reads and writes: scales, rounding mode, step, and whether bytes are copied. -/
structure MoveHow where
  sS : FVal
  dS : FVal
  mode : Nat
  step : Nat
  copy : Bool
  deriving DecidableEq, Repr

/-- The stored bytes of the first `m` elements of a row. -/
def State.rawRow (s : State) (x : Acc) (t : Tens) (off : Nat) (cs : List Nat) (m : Nat) : Except AccErr (List Byte × List Byte) :=
  match s.readBytes x (t.blockAddr off cs 0) (t.fmt.rowBytes m),
      (if t.fmt.isMX then s.readBytes x (t.scaleAddr off cs 0) (ceilDiv m 32) else .ok []) with
  | .ok a, .ok b => .ok (a, b)
  | .error e, _ => .error e
  | _, .error e => .error e

/-- Row `r` of a source, as `n` elements of a destination row take it (R571): the stored bytes of the elements inside the
extent, and PAD_VALUE for those of its padded tail (R196), which only formats of one-element blocks have. -/
def State.fetchRow (s : State) (id : CmdId) (h : MoveHow) (t : Tens) (off r n : Nat) : Except AccErr RowData :=
  let x := s.accOf id t
  let cs := t.outer r
  let m := min (t.ext 0) n
  if h.copy ∧ t.outerIn cs then
    match s.rawRow x t off cs m with
    | .error e => .error e
    | .ok b => .ok ⟨some b, m, List.replicate (n - m) t.padVal⟩
  else
    match s.readRow x .fp32 t h.sS off cs with
    | .error e => .error e
    | .ok vs => .ok (RowData.of (vs.take n))

/-- Write a row's data from column `c0` on at row `r` of a destination, numbered `rn` for Dice. -/
def State.putRow (s : State) (id : CmdId) (h : MoveHow) (t : Tens) (off r rn c0 : Nat) (v : RowData) : State × WOut :=
  let x := s.accOf id t
  let cs := t.outer r
  let rest (t' : State) : State × WOut :=
    t'.writeRun x t h.dS off cs (c0 + v.col) (fun j => s.rndAt id t h.mode h.step rn j) v.vals
  match v.raw with
  | some (a, b) =>
    let w := State.thenWrite (s.writeBytes x (t.blockAddr off cs 0) a) x (t.scaleAddr off cs 0) b
    if w.2.isSome then (w.1, ⟨false, 0, a.length + b.length, w.2⟩)
    else
      let r := rest w.1
      (r.1, (⟨false, 0, a.length + b.length, none⟩ : WOut).join r.2)
  | none => rest s

/-- End a move: an error, or OK with AUX and STORED_SCALE (R210, R216, R567). It waits as it stood, in `s0`, where a bank it
reaches is under handover (R81). -/
def State.moveEnd (s0 s : State) (id : CmdId) (o : Tens) (h : MoveHow) (aux : Nat) (w : WOut) : State :=
  let s := s.flagSaturated id w.saturated
  match w.err with
  | some .wait => s0
  | some e => s.failAcc id e
  | none => (s.setStored id o h.step h.dS).finish id (okAux aux)

/-- The destination's scale, measured from `xs` where no history entry qualifies (R60, R62). -/
def State.moveHow (s : State) (id : CmdId) (d : List Byte) (i o : Tens) (xs : Unit → Except AccErr (List FVal)) :
    Except AccErr (MoveHow × State) :=
  let sS := s.readScale id i
  let how (dS : FVal) : MoveHow := ⟨sS, dS, mvMode d, mvStep d, i.fmt == o.fmt && toBits32 sS == toBits32 dS⟩
  match s.writeScale id o (mvStep d) with
  | .error e => .error e
  | .ok (some dS, s) => .ok (how dS, s)
  | .ok (none, s) =>
    match xs () with
    | .error e => .error e
    | .ok vs =>
      match s.measuredScale id o (mvStep d) (FVal.amax vs) with
      | .error e => .error e
      | .ok (dS, s) => .ok (how dS, s)

/-! ### LAYOUT (R199–R202) -/

/-- Source coordinates of the destination element at coordinates `c` (PERM). -/
def srcCoords (d : List Byte) (rank : Nat) (c : List Nat) : List Nat :=
  (upTo 5).map fun k => match (upTo rank).find? fun j => mvPerm d j == k with
    | some j => c.getD j 0
    | none => 0

/-- The elements inside the extent of a destination row, read from the rows they come from. -/
def State.layoutRow (s : State) (id : CmdId) (d : List Byte) (h : MoveHow) (e : MoveEnt) (r : Nat) : Except AccErr (List FVal) :=
  let cs := e.dst.outer r
  let one (i0 : Nat) : Except AccErr (List FVal × Nat) :=
    let sc := srcCoords d e.dst.rank (i0 :: cs)
    match s.readRow (s.accOf id e.src) .fp32 e.src h.sS e.so (sc.drop 1) with
    | .error e => .error e
    | .ok vs => .ok (vs, sc.getD 0 0)
  if mvPerm d 0 = 0 then
    match one 0 with
    | .error e => .error e
    | .ok v => .ok (v.1.take (e.dst.ext 0))
  else
    match mapE one (upTo (e.dst.ext 0)) with
    | .error e => .error e
    | .ok l => .ok (l.map fun v => v.1.getD v.2 .zero)

/-- Whether a LAYOUT copies bytes and checks nothing: one format, scale and shape, identity PERM, no pad (R199). -/
def layoutCopies (d : List Byte) (h : MoveHow) (e : MoveEnt) : Bool :=
  h.copy && (upTo e.dst.rank).all (fun k => mvPerm d k == k) && e.dst.pad.all (· == 0) && e.src.pad.all (· == 0)

/-- Which part of a destination's logical shape is written: all, the pad, or the valid elements (R202). -/
inductive Part where
  | all | pad | valid
  deriving DecidableEq, Repr

def State.layoutPut (s : State) (id : CmdId) (d : List Byte) (h : MoveHow) (part : Part) (base : Nat) (e : MoveEnt) (r : Nat) :
    State × WOut :=
  let n := e.dst.ext 0
  let tail := e.dst.cols - n
  let padV (k : Nat) : RowData := RowData.of (List.replicate k e.dst.padVal)
  if !e.dst.outerIn (e.dst.outer r) then
    if part = .valid then (s, WOut.zero) else s.putRow id h e.dst e.dof r (base + r) 0 (padV e.dst.cols)
  else if part = .pad then
    if tail = 0 then (s, WOut.zero) else s.putRow id h e.dst e.dof r (base + r) n (padV tail)
  else if layoutCopies d h e then
    match s.fetchRow id h e.src e.so r n with
    | .error er => (s, ⟨false, 0, 0, some er⟩)
    | .ok v => s.putRow id h e.dst e.dof r (base + r) 0 v
  else
    match s.layoutRow id d h e r with
    | .error er => (s, ⟨false, 0, 0, some er⟩)
    | .ok vs =>
      s.putRow id h e.dst e.dof r (base + r) 0 (RowData.of (vs ++ if part = .all then List.replicate tail e.dst.padVal else []))

/-- Rows of the entries before each, for the numbering of rows. -/
def entBases (base : Nat) : List MoveEnt → List (Nat × MoveEnt)
  | [] => []
  | e :: t => (base, e) :: entBases (base + e.dst.rows) t

def State.layoutPart (s : State) (id : CmdId) (d : List Byte) (h : MoveHow) (part : Part) (es : List MoveEnt) : State × WOut :=
  s.writeEach (fun t (be : Nat × MoveEnt) =>
    t.writeEach (fun t r => t.layoutPut id d h part be.1 be.2 r) (upTo be.2.dst.rows)) (entBases 0 es)

/-- Every value a dense LAYOUT will write, for the measurement pass. -/
def State.layoutValues (s : State) (id : CmdId) (d : List Byte) (h : MoveHow) (es : List MoveEnt) : Except AccErr (List FVal) :=
  match mapE (fun (e : MoveEnt) =>
      mapE (fun r => if e.dst.outerIn (e.dst.outer r) then s.layoutRow id d h e r else .ok []) (upTo e.dst.rows)) es with
  | .error e => .error e
  | .ok l => .ok (l.map fun x => x.flatten).flatten

/-- The first invalid block of a dense source that is converted (R47). -/
def State.layoutBad (s : State) (id : CmdId) (d : List Byte) (h : MoveHow) (es : List MoveEnt) : Except AccErr (Option Ending) :=
  findE (fun (e : MoveEnt) =>
    if layoutCopies d h e then .ok none
    else
      match s.badBlock (s.accOf id e.src) e.src e.so with
      | .error er => .error er
      | .ok r => .ok (r.map fun rb => badBlockEnding e.src.handle rb.1 rb.2 e.no 0)) es

/-- Tile rows of a source that hold rows of its extent. -/
def MoveEnt.tileRows (e : MoveEnt) : Nat := ceilDiv (e.src.ext 1) 16

/-- The check pass over an N:8 source (R200). -/
def State.layoutSparseBad (s : State) (id : CmdId) (d : List Byte) (es : List MoveEnt) : Except AccErr (Option Ending) :=
  findE (fun (e : MoveEnt) =>
    match s.checkSparse (s.accOf id e.src) e.src e.so (mvGen d) (e.src.ext 1) e.tileRows with
    | .error er => .error er
    | .ok r => .ok (r.map fun f => sparseEnding f.1 e.src.handle e.no 0)) es

/-- One storage tile of the destination (R200): a checked tile's bytes unchanged, or its kept values decoded to FP32 and encoded
again; a tile that no checked tile goes to keeps nothing. With its bytes, SATURATED and strained blocks. -/
def State.layoutTile (s : State) (id : CmdId) (d : List Byte) (h : MoveHow) (base : Nat) (e : MoveEnt) (r c : Nat) :
    Except AccErr (List Byte × Bool × Nat) :=
  let g := mvGen d
  let x := s.accOf id e.src
  let enc (src : TileSrc) : List Byte × Bool × Nat :=
    encodeTile e.dst.fmt e.dst.sparseN g r c h.dS (fun i j => s.rndAt id e.dst h.mode h.step (base + 16 * r + i) (256 * c + j)) src
  if r ≥ e.tileRows then .ok (enc ⟨List.replicate 512 0, []⟩)
  else if e.src.fmt = e.dst.fmt then
    match s.tileBytes x e.src e.so g r c with
    | .error er => .error er
    | .ok bs => .ok (bs, false, 0)
  else
    match s.readTile x e.src h.sS e.so g r c with
    | .error er => .error er
    | .ok st => .ok (enc ⟨st.maps, st.vals.map fun row => row.map e.src.fmt.toFP32⟩)

/-- The tiles of one tile row: all are read before any is written (R203). -/
def State.layoutTiles (s : State) (id : CmdId) (d : List Byte) (h : MoveHow) (part : Part) (base : Nat) (e : MoveEnt) (r : Nat) :
    State × WOut :=
  let isPad := decide (r ≥ e.tileRows)
  if (part = .pad ∧ !isPad) ∨ (part = .valid ∧ isPad) then (s, WOut.zero)
  else
    match mapE (s.layoutTile id d h base e r) (upTo e.dst.tileCols) with
    | .error er => (s, ⟨false, 0, 0, some er⟩)
    | .ok ts =>
      s.writeEach (fun t c =>
        let b := ts.getD c ([], false, 0)
        let w := t.writeTile (t.accOf id e.dst) e.dst e.dof (mvGen d) r c b.1
        (w.1, ⟨b.2.1, b.2.2, b.1.length, w.2⟩)) (upTo ts.length)

/-- Stored bytes of the checked tiles of an N:8 source. -/
def State.layoutRead (s : State) (id : CmdId) (d : List Byte) (es : List MoveEnt) : Nat :=
  (es.map fun e =>
    ((upTo (e.tileRows * e.src.tileCols)).map fun k =>
      match s.tileBytes (s.accOf id e.src) e.src e.so (mvGen d) (k / e.src.tileCols) (k % e.src.tileCols) with
      | .error _ => 0
      | .ok bs => bs.length).foldl (· + ·) 0).foldl (· + ·) 0

/-- Every kept value of an N:8 source, for the measurement pass. -/
def State.sparseValues (s : State) (id : CmdId) (d : List Byte) (sS : FVal) (es : List MoveEnt) : Except AccErr (List FVal) :=
  match mapE (fun (e : MoveEnt) =>
      mapE (fun k => match s.readTile (s.accOf id e.src) e.src sS e.so (mvGen d) (k / e.src.tileCols) (k % e.src.tileCols) with
        | .error er => .error er
        | .ok st => .ok (st.vals.flatten.map e.src.fmt.toFP32)) (upTo (e.tileRows * e.src.tileCols))) es with
  | .error e => .error e
  | .ok l => .ok (l.map fun x => x.flatten).flatten

/-- Bytes a move reads and writes, on its queue and at the controllers. -/
def State.moveCount (s : State) (id : CmdId) (i o : Tens) (rd wr : Nat) : State := (s.moved id i 0 rd 0).moved id o 0 0 wr

/-- The two passes of ALLOW_OVERLAP, every pad write before every valid one (R202), or the one pass without it. -/
def State.layoutPasses (s : State) (d : List Byte) (f : Part → State → State × WOut) : State × WOut :=
  if mvAllow d then
    let a := f .pad s
    if a.2.err.isSome then a
    else
      let b := f .valid a.1
      (b.1, a.2.join b.2)
  else f .all s

/-- A LAYOUT between N:8 tensors takes the scale of its step and stores it as any other writer does, though tiles of one format
are copied as they are (R200, R567; DEDUCED, log entry 156). -/
def State.runLayout (s0 : State) (c : Cmd) (i o : Tens) : State :=
  let s := s0
  let id := c.id
  let d := c.desc
  let es := moveEnts d i o (c.records.getD 0 [])
  let how0 : MoveHow := ⟨s.readScale id i, .one, 0, 0, false⟩
  if o.sparseN ≠ 0 then
    match s.layoutSparseBad id d es with
    | .error .wait => s
    | .error e => s.failAcc id e
    | .ok (some e) => s.finish id e
    | .ok none =>
      match s.moveHow id d i o fun _ => s.sparseValues id d how0.sS es with
      | .error .wait => s0
      | .error e => s.failAcc id e
      | .ok (h, s) =>
        let w := s.layoutPasses d fun part t => t.writeEach (fun t (be : Nat × MoveEnt) =>
          t.writeEach (fun t r => t.layoutTiles id d h part be.1 be.2 r) (upTo be.2.dst.tileRows)) (entBases 0 es)
        s0.moveEnd (w.1.moveCount id i o (s.layoutRead id d es) w.2.bytes) id o h 0 w.2
  else
    match s.moveHow id d i o fun _ => s.layoutValues id d how0 es with
    | .error .wait => s
    | .error e => s.failAcc id e
    | .ok (h, s) =>
      match s.layoutBad id d h es with
      | .error .wait => s0
      | .error e => s.failAcc id e
      | .ok (some e) => s.finish id e
      | .ok none =>
        let w := s.layoutPasses d fun part t => t.layoutPart id d h part es
        let rd := (es.map fun e => e.src.rowReadBytes * e.src.rows).foldl (· + ·) 0
        s0.moveEnd (w.1.moveCount id i o rd w.2.bytes) id o h 0 w.2

def State.onMove (s : State) (id : CmdId) (op : Nat) (f : Cmd → Tens → Tens → State) : State :=
  s.onCmd id (fun d => isOpcode 0x0040 d && mvOp d == op) fun c =>
    match s.tensRun id.ctx (u32 c.desc 32), s.tensRun id.ctx (u32 c.desc 36) with
    | some i, some o => f c i o
    | _, _ => s

def execLayout (id : CmdId) (s : State) : Host.Outcome State Fault Refusal :=
  .next (s.onMove id 0 fun c i o => s.runLayout c i o)

/-! ### GATHER, SCATTER and SCATTER_ADD (R204–R210, R571) -/

/-- Rows of storage in one slice below the outermost dimension. -/
def Tens.slice (t : Tens) : Nat := t.rows / max 1 (t.log t.outermost)

/-- The values a gather or scatter may move, for the measurement pass. -/
def State.rowsValues (s : State) (id : CmdId) (sS : FVal) (es : List MoveEnt) : Except AccErr (List FVal) :=
  match mapE (fun (e : MoveEnt) => s.readAll (s.accOf id e.src) .fp32 e.src sS e.so) es with
  | .error e => .error e
  | .ok l => .ok (l.map fun x => x.flatten).flatten

/-- Slice `i` of a source, row by row. -/
def State.fetchSlice (s : State) (id : CmdId) (h : MoveHow) (e : MoveEnt) (i : Nat) : Except AccErr (List RowData) :=
  mapE (fun k => s.fetchRow id h e.src e.so (i * e.src.slice + k) (e.dst.ext 0)) (upTo e.src.slice)

/-- Slice `j` of a destination written, inside its extent only (R197). -/
def State.putSlice (s : State) (id : CmdId) (h : MoveHow) (e : MoveEnt) (j : Nat) (vs : List RowData) : State × WOut :=
  s.writeEach (fun t k =>
    let r := j * e.dst.slice + k
    if !e.dst.outerIn (e.dst.outer r) then (t, WOut.zero)
    else t.putRow id h e.dst e.dof r r 0 (vs.getD k (RowData.of []))) (upTo e.dst.slice)

/-- A zero slice. -/
def zeroSlice (e : MoveEnt) : List RowData :=
  List.replicate e.dst.slice (RowData.of (List.replicate (e.dst.ext 0) .zero))

/-- GATHER over the indices from position `j` on; `last` is the slice fetched for the position before (R204, R205). -/
def State.gatherFrom (s : State) (id : CmdId) (keep : Bool) (h : MoveHow) (e : MoveEnt) (idx : Nat → Idx) :
    Nat → Nat → Option (Nat × List RowData) → State × WOut × Nat
  | 0, _, _ => (s, WOut.zero, 0)
  | fuel + 1, j, last =>
    let next (r : State × WOut) (l : Option (Nat × List RowData)) (rd : Nat) : State × WOut × Nat :=
      if r.2.err.isSome then (r.1, r.2, rd)
      else
        let t := r.1.gatherFrom id keep h e idx fuel (j + 1) l
        (t.1, r.2.join t.2.1, rd + t.2.2)
    match idx j with
    | .row i =>
      match last with
      | some (k, vs) =>
        if k = i then next (s.putSlice id h e j vs) last 0
        else
          match s.fetchSlice id h e i with
          | .error er => (s, ⟨false, 0, 0, some er⟩, 0)
          | .ok vs => next (s.putSlice id h e j vs) (some (i, vs)) (e.src.rowReadBytes * e.src.slice)
      | none =>
        match s.fetchSlice id h e i with
        | .error er => (s, ⟨false, 0, 0, some er⟩, 0)
        | .ok vs => next (s.putSlice id h e j vs) (some (i, vs)) (e.src.rowReadBytes * e.src.slice)
    | _ => next (if keep then (s, WOut.zero) else s.putSlice id h e j (zeroSlice e)) none 0

/-- Positions of `n` indices that name slice `i`, in order. -/
def namersOf (idx : Nat → Idx) (n i : Nat) : List Nat := (upTo n).filter fun j => idx j == .row i

/-- SCATTER: each destination slice, ascending, takes the last source slice that names it (R203, R207). -/
def State.scatterTo (s : State) (id : CmdId) (h : MoveHow) (e : MoveEnt) (idx : Nat → Idx) (n : Nat) : State × WOut :=
  s.writeEach (fun t i =>
    match (namersOf idx n i).getLast? with
    | none => (t, WOut.zero)
    | some j =>
      match t.fetchSlice id h e j with
      | .error er => (t, ⟨false, 0, 0, some er⟩)
      | .ok vs => t.putSlice id h e i vs) (upTo (e.dst.log e.dst.outermost))

/-- One element of a SCATTER_ADD: an INT32 sum saturates (R207). -/
def addElem (isInt : Bool) (a : FVal × Bool) (v : FVal) : FVal × Bool :=
  if isInt then
    let r := satAdd (intOf a.1) (intOf v)
    (.ofInt r.1, a.2 || r.2)
  else (add32 a.1 v, a.2)

/-- SCATTER_ADD: each named destination row is decoded once, summed in index order and encoded once. -/
def State.scatterAddTo (s : State) (id : CmdId) (h : MoveHow) (e : MoveEnt) (idx : Nat → Idx) (n : Nat) : State × WOut :=
  s.writeEach (fun t i =>
    let js := namersOf idx n i
    if js.isEmpty then (t, WOut.zero)
    else
      t.writeEach (fun t k =>
        let r := i * e.dst.slice + k
        if !e.dst.outerIn (e.dst.outer r) then (t, WOut.zero)
        else
          match t.readRow (t.accOf id e.dst) .fp32 e.dst h.dS e.dof (e.dst.outer r),
              mapE (fun j => t.readRow (t.accOf id e.src) .fp32 e.src h.sS e.so (e.src.outer (j * e.src.slice + k))) js with
          | .ok old, .ok rows =>
            let out := (upTo (e.dst.ext 0)).map fun c =>
              rows.foldl (fun a row => addElem (e.dst.fmt == .int32) a (row.getD c .zero)) (old.getD c .zero, false)
            let w := t.putRow id h e.dst e.dof r r 0 (RowData.of (out.map fun v => v.1))
            (w.1, { w.2 with saturated := w.2.saturated || out.any fun v => v.2 })
          | .error er, _ => (t, ⟨false, 0, 0, some er⟩)
          | _, .error er => (t, ⟨false, 0, 0, some er⟩)) (upTo e.dst.slice)) (upTo (e.dst.log e.dst.outermost))

/-- The source elements that the destination elements of a move over one row of packed blocks take, by destination element. -/
def blockedFrom (d : List Byte) (idx : Nat → Idx) (n j : Nat) : Option Nat :=
  if mvOp d = 1 then
    match idx j with
    | .row i => some i
    | _ => none
  else (namersOf idx n j).getLast?

/-- Fetches of a GATHER of single elements: one for each run of equal consecutive indices (R204). -/
def gatherRuns (idx : Nat → Idx) (n : Nat) : Nat :=
  ((upTo n).filter fun j => match idx j with
    | .row i => j = 0 || idx (j - 1) != .row i
    | _ => false).length

/-- A gather or scatter over one row of packed blocks, element by element: the destination row is changed and written whole, and
only the source blocks it takes elements from are read; with the bytes read. INT4 codes are copied unchanged (R571); an element
of a format with block scales has no bytes of its own, so it is decoded and its block encoded again (DESIGN CHOICE, log entry
155). -/
def State.blockedRow (s : State) (id : CmdId) (d : List Byte) (h : MoveHow) (e : MoveEnt) (idx : Nat → Idx) (n : Nat) :
    State × WOut × Nat :=
  let b := e.src.fmt.block
  let froms := (upTo (e.dst.ext 0)).map (blockedFrom d idx n)
  let blocks := (upTo (ceilDiv (e.src.ext 0) b)).filter fun k => froms.any fun f => f.any fun i => i / b == k
  let rd := (if mvOp d = 1 then gatherRuns idx n else blocks.length) * (e.src.fmt.blockBytes + if e.src.fmt.isMX then 1 else 0)
  let zeroRest := decide (mvOp d = 1) && !mvKeep d
  let xs' := mapE (fun k =>
    match s.readBlock (s.accOf id e.src) .fp32 e.src h.sS e.so [] k, s.readBytes (s.accOf id e.src) (e.src.blockAddr e.so [] k) 1 with
    | .ok vs, .ok bs => .ok (k, vs, bs)
    | .error er, _ => .error er
    | _, .error er => .error er) blocks
  match xs', s.readRow (s.accOf id e.dst) .fp32 e.dst h.dS e.dof [], s.rawRow (s.accOf id e.dst) e.dst e.dof [] (e.dst.ext 0) with
  | .ok xs, .ok old, .ok raw =>
    let block (i : Nat) : Nat × List FVal × List Byte := (xs.find? fun x => x.1 == i / b).getD (0, [], [])
    let data : RowData :=
      if e.src.fmt = .int4 then
        let codes := (upTo froms.length).map fun j => match froms.getD j none with
          | some i => nibble (block i).2.2 (i % b)
          | none => if zeroRest then 0 else nibble raw.1 j
        ⟨some (packNibbles codes, []), froms.length, []⟩
      else
        RowData.of ((upTo froms.length).map fun j => match froms.getD j none with
          | some i => (block i).2.1.getD (i % b) .zero
          | none => if zeroRest then .zero else old.getD j .zero)
    let w := s.putRow id h e.dst e.dof 0 0 0 data
    (w.1, w.2, rd)
  | .error er, _, _ => (s, ⟨false, 0, 0, some er⟩, 0)
  | _, .error er, _ => (s, ⟨false, 0, 0, some er⟩, 0)
  | _, _, .error er => (s, ⟨false, 0, 0, some er⟩, 0)

/-- The tensor an entry's indices number, and how many of the index tensor the entry uses. -/
def MoveEnt.named (d : List Byte) (e : MoveEnt) : Tens := if mvOp d = 1 then e.src else e.dst
def MoveEnt.count (d : List Byte) (e : MoveEnt) : Nat :=
  if mvOp d = 1 then e.dst.log e.dst.outermost else e.src.log e.src.outermost

/-- One entry of a GATHER, SCATTER or SCATTER_ADD, with the bytes read; `e0` is the entry as named, `e` its rows. -/
def State.moveEntry (s : State) (id : CmdId) (d : List Byte) (h : MoveHow) (signed : Bool) (vs : List Nat) (e e0 : MoveEnt) :
    State × WOut × Nat :=
  let n := e0.count d
  let idx (j : Nat) : Idx := idxOf (e0.named d) signed (vs.getD j 0xFFFFFFFF)
  let all := e.src.rowReadBytes * e.src.rows
  if e.dst.rank = 1 then s.blockedRow id d h e idx n
  else if mvOp d = 1 then s.gatherFrom id (mvKeep d) h e idx n 0 none
  else if mvOp d = 2 then
    let w := s.scatterTo id h e idx n
    (w.1, w.2, all)
  else
    let w := s.scatterAddTo id h e idx n
    (w.1, w.2, all + w.2.bytes)

/-- The entries in order, up to the first error. -/
def State.moveIndexed (s : State) (id : CmdId) (d : List Byte) (h : MoveHow) (signed : Bool) (vs : List Nat) (es0 : List MoveEnt) :
    State × WOut × Nat :=
  es0.foldl (fun (a : State × WOut × Nat) e =>
    if a.2.1.err.isSome then a
    else
      let b := a.1.moveEntry id d h signed vs { e with src := e.src.asRows, dst := e.dst.asRows } e
      (b.1, a.2.1.join b.2.1, a.2.2 + b.2.2)) (s, WOut.zero, 0)

/-- The first invalid block of a source that is decoded (R47). -/
def State.indexedBad (s : State) (id : CmdId) (d : List Byte) (h : MoveHow) (es0 : List MoveEnt) : Except AccErr (Option Ending) :=
  if mvOp d = 3 ∨ !h.copy then
    s.layoutBad id d { h with copy := false } (es0.map fun e => { e with src := e.src.asRows, dst := e.dst.asRows })
  else .ok none

/-- The first index that fails R206: the whole index tensor is judged against the indexed tensor, and the part that each entry
uses against the tensor as the entry cuts it. -/
def indexFault (d : List Byte) (i o : Tens) (signed : Bool) (vs : List Nat) (es0 : List MoveEnt) : Option Nat :=
  let bads := (firstBad (if mvOp d = 1 then i else o) signed vs).toList
    ++ es0.filterMap fun e => firstBad (e.named d) signed (vs.take (e.count d))
  bads.foldl (fun (m : Option Nat) k => some (min k (m.getD k))) none

/-- GATHER, SCATTER and SCATTER_ADD: the whole index tensor is read and judged first (R206). -/
def State.runIndexed (s0 : State) (c : Cmd) (i o : Tens) : State :=
  let s := s0
  let id := c.id
  let d := c.desc
  match s.tensRun id.ctx (u32 d 44) with
  | none => s
  | some x =>
    match s.readIndex id x with
    | .error .wait => s
    | .error e => s.failAcc id e
    | .ok vs =>
      let es0 := moveEnts d i o (c.records.getD 0 [])
      match indexFault d i o x.signed vs es0 with
      | some k => s.finish id (idxEnding x.handle k)
      | none =>
        let aux := (es0.map fun e => foreignCount (e.named d) x.signed (vs.take (e.count d))).foldl (· + ·) 0
        match s.moveHow id d i o fun _ => s.rowsValues id (s.readScale id i)
            (es0.map fun e => { e with src := e.src.asRows, dst := e.dst.asRows }) with
        | .error .wait => s
        | .error e => s.failAcc id e
        | .ok (h, s) =>
          match s.indexedBad id d h es0 with
          | .error .wait => s0
          | .error e => s.failAcc id e
          | .ok (some e) => s.finish id e
          | .ok none =>
            let r := s.moveIndexed id d h x.signed vs es0
            s0.moveEnd (r.1.moveCount id i o r.2.2 r.2.1.bytes) id o h aux r.2.1

def execGather (id : CmdId) (s : State) : Host.Outcome State Fault Refusal :=
  .next (s.onMove id 1 fun c i o => s.runIndexed c i o)

def execScatter (id : CmdId) (s : State) : Host.Outcome State Fault Refusal :=
  .next (s.onMove id 2 fun c i o => s.runIndexed c i o)

def execScatterAdd (id : CmdId) (s : State) : Host.Outcome State Fault Refusal :=
  .next (s.onMove id 3 fun c i o => s.runIndexed c i o)

/-! ### DMA_COPY (R212, R213, R216) -/

def dmaUses (d : List Byte) : List HUse :=
  [useRaw (u32 d 32) 32 false, ⟨u32 d 36, 36, false, true, false, true⟩]

def State.checkDmaCopy (s : State) (id : CmdId) (d : List Byte) : Verdict :=
  let uses := dmaUses d
  let len := u64 d 56
  let v1 := bodyViols d [bytesSpan 32 32, ⟨64, 20, 0⟩, bytesSpan 68 4] ++ (uses.map (s.useViols id.ctx)).flatten
    ++ violIf (len == 0) (restViol 56) ++ violIf (bitOf (u32 d 64) 20 && u32 d 68 ≥ 2 ^ 31) (formatViol 68)
  match s.tens? id.ctx (u32 d 32), s.tens? id.ctx (u32 d 36) with
  | some i, some o =>
    let v2 := violIf (u64 d 40 + len > i.ext 0) (viol .tensorRange i.handle 40)
      ++ violIf (u64 d 48 + len > o.ext 0) (viol .tensorRange o.handle 48)
    match worst (v1 ++ v2) with
    | some v => ⟨some v.ending, uses, [], false⟩
    | none =>
      let rd := (i.base + u64 d 40, len)
      let wr := (o.base + u64 d 48, len)
      match s.gateEnding (s.accOf id o) [(i.handle, 32, [rd]), (o.handle, 36, [wr])] with
      | some e => ⟨some e, uses, [], false⟩
      | none => ⟨none, uses, [], Rng.meets rd wr⟩
  | _, _ => Verdict.of v1 uses

/-- The requests of a copy: runs of at most 256 bytes aligned to the destination (R213); `fuel` bounds them. -/
def dmaCuts (dst : Nat) : Nat → Nat → Nat → List (Nat × Nat)
  | 0, _, _ => []
  | fuel + 1, o, len =>
    if len = 0 then []
    else
      let n := min len (256 - (dst + o) % 256)
      (o, n) :: dmaCuts dst fuel (o + n) (len - n)

/-- Run a copy in requests (R213): an overlapping one reads the whole of its one row before it writes it (R203); an uncorrectable
word stops it with the requests before it written (R216, log entry 15). -/
def State.runDma (s : State) (c : Cmd) (i o : Tens) : State :=
  let id := c.id
  let d := c.desc
  let a := i.base + u64 d 40
  let b := o.base + u64 d 48
  let len := u64 d 56
  let ai := s.accOf id i
  let ao := s.accOf id o
  let requests (get : State → Nat × Nat → Except AccErr (List Byte)) : State × WOut :=
    s.writeEach (fun t (k : Nat × Nat) =>
      match get t k with
      | .error e => (t, ⟨false, 0, 0, some e⟩)
      | .ok bs =>
        let w := t.writeBytes ao (b + k.1) bs
        (w.1, ⟨false, 0, k.2, w.2⟩)) (dmaCuts b (len / 256 + 2) 0 len)
  let r :=
    if Rng.meets (a, len) (b, len) then
      match s.readBytes ai a len with
      | .error e => (s, (⟨false, 0, 0, some e⟩ : WOut))
      | .ok bs => requests fun _ k => .ok (sliceB bs k.1 k.2)
    else requests fun t k => t.readBytes ai (a + k.1) k.2
  let s0 := s
  let s := (r.1.moved id i (u64 d 40) r.2.bytes 0).moved id o (u64 d 48) 0 r.2.bytes
  match r.2.err with
  | some .wait => s0
  | some e => s.failAcc id e
  | none => s.finish id Status.ok.plain

def execDmaCopy (id : CmdId) (s : State) : Host.Outcome State Fault Refusal :=
  .next (s.onCmd id (isOpcode 0x0041) fun c =>
    match s.tensRun id.ctx (u32 c.desc 32), s.tensRun id.ctx (u32 c.desc 36) with
    | some i, some o => s.runDma c i o
    | _, _ => s)

end Sys2Proof.Machine
end

