-- ==== Sys2Proof/Machine/Sync.lean ====
section
/-!
DEFINITION. Machine/Sync.lean: the SYNC operations, SYNC_MAP, and the steps of the sync units (R217–R238, R572).
-/
namespace Sys2Proof.Machine

/-! ### Checks at issue -/

def syOp (d : List Byte) : Nat := bitsOf (u32 d 32) 2 0
def syRef (d : List Byte) : Nat := u32 d 36

/-- A counter reference in a command field at `off`: enabled, and current (R226, R233). -/
def State.refViols (s : State) (c r off : Nat) : List Viol :=
  if !refEnabled r then [formatViol off]
  else violIf (s.counterOf c r).isNone (viol .descFormat r off)

/-- Whether a SYNC names a stale reference. -/
def State.syncStale (s : State) (c : Nat) (d : List Byte) : Bool :=
  if syOp d = 1 then (s.barrierOf c (syRef d)).isNone
  else (refEnabled (syRef d) && (s.counterOf c (syRef d)).isNone)
    || (syOp d == 3 && refEnabled (u32 d 44) && (s.counterOf c (u32 d 44)).isNone)

/-- ADDRESS of WATCH_WRITE and READ (R233). -/
def State.wordViols (s : State) (c a : Nat) : List Viol :=
  if a % 8 ≠ 0 then [viol .alignInner noHandle 56]
  else s.allocReach c a 8 56 false true

def State.checkSync (s : State) (id : CmdId) (d : List Byte) : Verdict :=
  let c := id.ctx
  let op := syOp d
  let ref : Span := if op = 1 then ⟨36, 15, 0⟩ else ⟨36, 20, 0⟩
  Verdict.of (bodyViols d [⟨32, 2, 0⟩, ref, bytesSpan 40 4, ⟨44, 20, 0⟩, bytesSpan 48 4, bytesSpan 56 16]
    ++ violIf (op > 4) (formatViol 32)
    ++ (if op = 1 then violIf (s.barrierOf c (syRef d)).isNone (viol .descFormat (syRef d) 36) else s.refViols c (syRef d) 36)
    ++ violIf (op == 0 && u32 d 40 ≥ 2 ^ 31) (formatViol 40)
    ++ (if op = 3 then s.refViols c (u32 d 44) 44 else violIf (u32 d 44 != 0) (restViol 44))
    ++ (if op = 3 then violIf (u32 d 48 ≥ 2 ^ 31) (formatViol 48) else violIf (u32 d 48 != 0) (restViol 48))
    ++ (if op = 2 ∨ op = 4 then s.wordViols c (u64 d 56) else [])) []

def State.onSync (s : State) (id : CmdId) (op : Nat) (f : Cmd → State) : State :=
  s.onCmd id (fun d => isOpcode 0x0050 d && syOp d == op) f

/-- A message discarded at the home unit: counted, and its SYNC command completes with DESC_FORMAT (R226). -/
def State.discarded (s : State) (id : CmdId) (ref off : Nat) : State :=
  (s.staleDrop id.ctx).finish id (refusal .descFormat ref off)

/-! ### ADD and READ -/

def execSyncAdd (id : CmdId) (s : State) : Host.Outcome State Fault Refusal :=
  .next (s.onSync id 0 fun c =>
    match s.counterOf id.ctx (syRef c.desc) with
    | none => s.discarded id (syRef c.desc) 36
    | some (die, p) => (s.addCounter die p (u32 c.desc 40)).finish id Status.ok.plain)

/-- Write a counter's value and the reference (R234). -/
def State.syncRead (s : State) (c : Cmd) (v : Nat) : State :=
  let id := c.id
  let a := u64 c.desc 56
  match s.allocJudge id.ctx a 8 false true with
  | .error .range => s.finish id (refusal .tensorRange noHandle 56)
  | .error _ => s.finish id (refusal .accessDenied noHandle 56)
  | .ok x =>
    let w := s.writeBytes { x with id := some id } a (leBytes 4 v ++ leBytes 4 (syRef c.desc))
    match w.2 with
    | some .wait => s
    | some e => w.1.failAcc id e
    | none => w.1.finish id Status.ok.plain

def execSyncRead (id : CmdId) (s : State) : Host.Outcome State Fault Refusal :=
  .next (s.onSync id 4 fun c =>
    match s.counterOf id.ctx (syRef c.desc) with
    | none => s.discarded id (syRef c.desc) 36
    | some (die, p) => s.syncRead c (((s.die die).counters.get? p).elim 0 (·.value)))

/-! ### Watches -/

/-- Register the watch of a SYNC command, or leave it waiting (R230, R232, R234). -/
def State.syncWatch (s : State) (c : Cmd) (act : WatchAct) : State :=
  let id := c.id
  if c.begun then s
  else
    match s.counterOf id.ctx (syRef c.desc) with
    | none => s.discarded id (syRef c.desc) 36
    | some (die, p) =>
      let room := (s.watchEntry die id.ctx).isSome
      let s := s.registerWatch die ⟨id.ctx, syRef c.desc, p, u32 c.desc 40, act, false⟩ (some id)
      if room then s.finish id Status.ok.plain else s.updCmd id fun x => { x with begun := true }

def execWatchWrite (id : CmdId) (s : State) : Host.Outcome State Fault Refusal :=
  .next (s.onSync id 2 fun c => s.syncWatch c (.write (u64 c.desc 56) (u64 c.desc 64)))

def execWatchAdd (id : CmdId) (s : State) : Host.Outcome State Fault Refusal :=
  .next (s.onSync id 3 fun c => s.syncWatch c (.add (u32 c.desc 44) (u32 c.desc 48)))

/-- Set a START watch's mark on the fetched command it belongs to. -/
def State.setStart (s : State) (id : CmdId) (k : Nat) (v : StartSt) : State :=
  s.updQueue id.ctx id.q fun q =>
    { q with fetched := q.fetched.map fun f =>
        if f.seq = id.seq then (if k = 0 then { f with start0 := v } else { f with start1 := v }) else f }

/-- The write of a fired WATCH_WRITE (R572). One that meets a bank under handover to its context waits (R81); one that a bank's
owner or a vacant window denies stores nothing, and nothing reports it (log entry 162). -/
def State.watchWrite (s : State) (ctx a v : Nat) : State :=
  match s.allocJudge ctx a 8 false true with
  | .error _ => s.staleDrop ctx
  | .ok x =>
    let w := s.writeBytes x a (leBytes 8 v)
    match w.2 with
    | some (.ecc k) => w.1.ueReportAt k a
    | some .wait => s.addWaiter (.watch ctx a v)
    | some _ => s
    | none => w.1

/-- The message of a fired watch (Table 9-3). -/
def State.fire (s : State) (w : Watch) : State :=
  match w.act with
  | .start id k => s.setStart id k .met
  | .write a v => s.watchWrite w.ctx a v
  | .add r v => s.sendMsg ⟨w.ctx, r, v⟩

/-- WATCH_FIRE: a watch whose counter has reached its target sends its message and frees its entry (R230). -/
def execWatchFire (die entry : Nat) (s : State) : Host.Outcome State Fault Refusal :=
  .next (match (s.die die).watches.get? entry with
    | some w =>
      if w.reached then
        ((s.updDie die fun d => { d with watches := d.watches.erase entry }).fire w).pmc die 6 0 2 (some w.ctx) 1
      else s
    | none => s)

/-- A waiting registration proceeds (R232), or is discarded where its reference is no longer current (R226). -/
def State.resume (s : State) (die k : Nat) (r : WaitingReg) : State :=
  let drop (t : State) : State := t.updDie die fun d => { d with waiting := d.waiting.eraseIdx k }
  match s.counterOf r.watch.ctx r.watch.ref with
  | none =>
    let s := drop s
    match r.watch.act, r.id with
    | .start id w, _ => (s.staleDrop r.watch.ctx).setStart id w .stale
    | _, some id => s.discarded id r.watch.ref 36
    | _, none => s.staleDrop r.watch.ctx
  | some _ =>
    match s.watchEntry die r.watch.ctx with
    | none => s
    | some i =>
      let s := (drop s).updDie die fun d => evalWatches { d with watches := d.watches.set i r.watch }
      match r.watch.act with
      | .start id w => s.setStart id w .armed
      | _ => r.id.elim s fun id => s.finish id Status.ok.plain

/-- WATCH_REGISTRATION_RESUME, of the `k`-th registration that waits on a die. -/
def execWatchRegistrationResume (die k : Nat) (s : State) : Host.Outcome State Fault Refusal :=
  .next (match (s.die die).waiting[k]? with
    | some r => s.resume die k r
    | none => s)

/-! ### COUNTER_UPDATE (R226, R229) -/

/-- One update message at a home unit of die `die`. -/
def State.applyMsg (s : State) (die : Nat) (m : SyncMsg) : State :=
  match s.counterOf m.ctx m.ref with
  | some (_, p) => s.addRaw die p m.add
  | none => s.staleDrop m.ctx

/-- Whether a message in flight goes to a die: its counter's home, or any die when it is stale. -/
def State.msgHome (s : State) (die : Nat) (m : SyncMsg) : Bool :=
  match s.counterOf m.ctx m.ref with
  | some (d, _) => d == die
  | none => ((s.ctx m.ctx).counters.getD (refVid m.ref) VMap.init).die == die

def execCounterUpdate (die : Nat) (msgs : List Nat) (s : State) : Host.Outcome State Fault Refusal :=
  let hit (k : Nat) : Bool := msgs.contains k && (s.msgs[k]?).any fun m => s.msgHome die m
  let take := (upTo s.msgs.length).filter hit
  let s1 := { s with msgs := ((upTo s.msgs.length).filter fun k => !hit k).filterMap fun k => s.msgs[k]? }
  .next ((take.foldl (fun t k => (s.msgs[k]?).elim t fun m => t.applyMsg die m) s1).updDie die evalWatches)

/-! ### ARRIVE (R235–R238) -/

/-- Count one arrival against the barriers as they stood at the start of the CCLK, `s0`. -/
def State.arriveOne (s0 s : State) (id : CmdId) : State :=
  s.onSync id 1 fun c =>
    let ref := syRef c.desc
    match s.barrierOf id.ctx ref with
    | none => s.discarded id ref 36
    | some (die, p) =>
      match (s0.die die).barriers.get? p with
      | none => s.discarded id ref 36
      | some b =>
        let count (f : Barrier → Barrier) : State :=
          ((s.updDie die fun d => { d with barriers := match d.barriers.get? p with
            | some x => d.barriers.set p (f x)
            | none => d.barriers }).pmc die 6 0 3 (some id.ctx) 1).finish id Status.ok.plain
        let r := u32 c.desc 40
        if r = b.round then count fun x => { x with arrK := x.arrK + 1 }
        else if r = (b.round + 1) % 2 ^ 32 then count fun x => { x with arrK1 := x.arrK1 + 1 }
        else s.finish id ⟨Status.barrierRunahead.code, 0, detail4 ref r 0 0⟩

/-- Close a barrier's rounds as far as its arrivals go (R237, R238): at most two. -/
def State.closeRounds (s : State) (die p : Nat) : Nat → State
  | 0 => s
  | fuel + 1 =>
    match (s.die die).barriers.get? p with
    | none => s
    | some b =>
      if b.arrK < b.participants then s
      else
        let b' := { b with round := (b.round + 1) % 2 ^ 32, arrK := b.arrK1, arrK1 := 0 }
        let s := (s.updDie die fun d => { d with barriers := d.barriers.set p b' }).bump (regDie .barrierExcess die)
          (b.arrK - b.participants)
        (s.sendMsg ⟨b.ctx, b.release, 1⟩).closeRounds die p fuel

/-- ARRIVE: the arrivals of one CCLK. -/
def execArrive (ids : List CmdId) (s : State) : Host.Outcome State Fault Refusal :=
  let t := ids.foldl (fun t i => s.arriveOne t i) s
  .next ((upTo 8).foldl (fun t d => ((t.die d).barriers.keys).foldl (fun t p => t.closeRounds d p 2) t) t)

/-! ### SYNC_MAP (R223–R225) -/

def smTarget (d : List Byte) : Nat := bitsOf (u32 d 32) 5 0
def smBarrier (d : List Byte) : Bool := bitOf (u32 d 32) 6
def smUnmap (d : List Byte) : Bool := bitOf (u32 d 32) 7
def smVid (d : List Byte) : Nat := bitsOf (u32 d 36) 11 0
def smDie (d : List Byte) : Nat := bitsOf (u32 d 40) 2 0
def smPhys (d : List Byte) : Nat := bitsOf (u32 d 40) 16 3
def smParticipants (d : List Byte) : Nat := bitsOf (u32 d 48) 15 0

/-- A barrier's RELEASE that is enabled and stale (R226). -/
def State.releaseStale (s : State) (d : List Byte) : Bool :=
  smBarrier d && !smUnmap d && refEnabled (u32 d 52) && (s.counterOf (smTarget d) (u32 d 52)).isNone

def State.checkSyncMap (s : State) (d : List Byte) : Verdict :=
  Verdict.of (violIf (s.releaseStale d) (formatViol 52) ++ bodyViols d [⟨32, 7, 0⟩, ⟨36, 11, 0⟩, ⟨40, 16, 0⟩, bytesSpan 44 4, ⟨48, 15, 0⟩, ⟨52, 20, 0⟩]
    ++ violIf (smBarrier d && smVid d ≥ 256) (restViol 36)
    ++ violIf (smBarrier d && !smUnmap d && smPhys d ≥ 256) (restViol 40)
    ++ violIf (!smBarrier d && smParticipants d != 0) (restViol 48)) []

/-- The mapping of the identifier a SYNC_MAP names. -/
def State.smMap (s : State) (d : List Byte) : VMap :=
  let x := s.ctx (smTarget d)
  if smBarrier d then x.barriers.getD (smVid d) VMap.init else x.counters.getD (smVid d) VMap.init
def State.setMap (s : State) (d : List Byte) (m : VMap) : State :=
  s.updCtx (smTarget d) fun x =>
    if smBarrier d then { x with barriers := x.barriers.set (smVid d) m } else { x with counters := x.counters.set (smVid d) m }

/-- Refusals of a mapping (R224). -/
def State.mapViols (s : State) (d : List Byte) : List Viol :=
  let m := s.smMap d
  let die := s.die (smDie d)
  violIf (m.mapped || m.unmapping) (formatViol 36)
    ++ violIf (!die.inService) (formatViol 40)
    ++ violIf (if smBarrier d then (die.barriers.get? (smPhys d)).isSome else (die.counters.get? (smPhys d)).isSome) (formatViol 40)
    ++ violIf (smBarrier d && smParticipants d == 0) (formatViol 48)
    ++ violIf (smBarrier d && (!refEnabled (u32 d 52) || (s.counterOf (smTarget d) (u32 d 52)).isNone)) (formatViol 52)

/-- Map an identifier (R224); a new counter reference is returned with ENABLE set (log entry 16). -/
def State.syncMap (s : State) (c : Cmd) : State :=
  let d := c.desc
  match worst (s.mapViols d) with
  | some v => s.finish c.id v.ending
  | none =>
    let g := ((s.smMap d).gen + 1) % 256
    let t := smTarget d
    let s := s.setMap d ⟨g, true, false, smDie d, smPhys d⟩
    let s := s.updDie (smDie d) fun x =>
      if smBarrier d then
        { x with barriers := x.barriers.set (smPhys d) ⟨t, smVid d, g, u32 d 44, 0, 0, smParticipants d, u32 d 52⟩ }
      else { x with counters := x.counters.set (smPhys d) ⟨u32 d 44, t, smVid d⟩ }
    s.finish c.id ⟨0, 0, detail4 (if smBarrier d then smVid d + g * 256 else smVid d + g * 4096 + 2 ^ 20) 0 0 0⟩

def execSyncMap (id : CmdId) (s : State) : Host.Outcome State Fault Refusal :=
  .next (s.onCmd id (fun d => isOpcode 0x0051 d && !smUnmap d) fun c => s.syncMap c)

/-- Whether a physical barrier, or counter, is mapped, and not only held by an unmapping (R225). -/
def State.barrierMapped (s : State) (b : Barrier) : Bool :=
  let m := (s.ctx b.ctx).barriers.getD b.vid VMap.init
  m.mapped && m.gen == b.gen
def State.counterMapped (s : State) (c : Counter) : Bool := ((s.ctx c.ctx).counters.getD c.vid VMap.init).mapped

/-- A counter that a mapped barrier of its context uses as release counter (R225). -/
def State.isRelease (s : State) (ctx vid : Nat) : Bool :=
  s.dies.vals.any fun d => d.barriers.vals.any fun b => s.barrierMapped b && b.ctx == ctx && refVid b.release == vid

/-- A SYNC command, issued and not ended, whose message bears the generation being unmapped. -/
def syncBears (d : List Byte) (m : VMap) (c : Cmd) : Bool :=
  let r := syRef c.desc
  c.id.ctx == smTarget d && c.ending.isNone && isOpcode 0x0050 c.desc && (syOp c.desc == 1) == smBarrier d
    && (if smBarrier d then bitsOf r 7 0 == smVid d && bitsOf r 15 8 == m.gen else refVid r == smVid d && refGen r == m.gen)

/-- Whether an unmapping must still wait: a watch on the counter, or a message of its generation in flight (R225). -/
def State.unmapWaits (s : State) (d : List Byte) (m : VMap) : Bool :=
  s.cmds.any (syncBears d m) || if smBarrier d then false
  else
    ((s.die m.die).watches.vals.any fun w => w.phys == m.phys)
      || ((s.die m.die).waiting.any fun w => w.watch.phys == m.phys)
      || s.msgs.any fun x => x.ctx == smTarget d && refVid x.ref == smVid d && refGen x.ref == m.gen

/-- Unmap an identifier: at once, and complete when nothing of the old generation is left (R225). -/
def State.syncUnmap (s : State) (c : Cmd) : State :=
  let d := c.desc
  let m := s.smMap d
  if c.begun then
    if s.unmapWaits d m then s
    else
      let s := s.setMap d { m with unmapping := false }
      (s.updDie m.die fun x =>
        if smBarrier d then { x with barriers := x.barriers.erase m.phys } else { x with counters := x.counters.erase m.phys }).finish
          c.id Status.ok.plain
  else if !m.mapped ∨ (!smBarrier d ∧ s.isRelease (smTarget d) (smVid d)) then s.finish c.id (formatViol 36).ending
  else (s.setMap d { m with mapped := false, unmapping := true }).updCmd c.id fun x => { x with begun := true }

/-- SYNC_UNMAP: the row that marks the identifier also completes where nothing is left to wait for. -/
def execSyncUnmap (id : CmdId) (s : State) : Host.Outcome State Fault Refusal :=
  let one (s : State) : State := s.onCmd id (fun d => isOpcode 0x0051 d && smUnmap d) fun c => s.syncUnmap c
  .next (one (one s))

end Sys2Proof.Machine
end

