-- ==== Sys2Proof/Machine/Topiary.lean ====
section
/-!
DEFINITION. Machine/Topiary.lean: the Topiary command (R150–R167): mask blocks of 8 × 8, their pruning, regrowth, check and
transposition, and the writing of a generation.
-/
namespace Sys2Proof.Machine

/-! ### The body (Table 6-1) -/

structure TBody where
  src : Nat
  dest : Nat
  trans : Nat
  wscore : Nat
  gscore : Nat
  value : Nat
  change : Nat
  prune : Bool
  regrow : Bool
  check : Bool
  transpose : Bool
  n : Nat
  pruneCount : Nat
  regrowCount : Nat
  regrowPruned : Bool
  gen : Nat
  deriving DecidableEq, Repr

def tBody (d : List Byte) : TBody :=
  let w := u32 d 60
  { src := u32 d 32, dest := u32 d 36, trans := u32 d 40, wscore := u32 d 44, gscore := u32 d 48, value := u32 d 52,
    change := u32 d 56, prune := bitOf w 0, regrow := bitOf w 1, check := bitOf w 2, transpose := bitOf w 3,
    n := bitsOf w 7 4, pruneCount := bitsOf w 14 8, regrowCount := bitsOf w 21 15, regrowPruned := bitOf w 22, gen := u16 d 64 }

/-- The generation the command writes (R159). -/
def TBody.target (b : TBody) : Nat := if b.dest = noHandle then b.gen else (b.gen + 1) % 65536

def tUses (b : TBody) : List HUse :=
  [(useIn b.src 32).opt, (useOut b.dest 36).opt, (useOut b.trans 40).opt, (useIn b.wscore 44).opt, (useIn b.gscore 48).opt,
    (useIn b.value 52).opt, (useOut b.change 56).opt]

/-! ### Checks at issue (R151) -/

def scoreFmts : List Fmt := [.fp32, .bf16, .fp16, .e4m3, .e5m2, .mxfp8]

/-- The combinations a body may not hold. -/
def topiaryBodyViols (b : TBody) : List Viol :=
  let none' (h : Nat) : Bool := h == noHandle
  let edits := b.prune || b.regrow
  violIf (!(edits || b.check || b.transpose)) (formatViol 60) ++ violIf (edits == none' b.dest) (formatViol 36)
    ++ violIf (b.prune && none' b.wscore) (formatViol 44) ++ violIf (b.regrow && none' b.gscore) (formatViol 48)
    ++ violIf (none' b.src && !b.prune) (formatViol 32) ++ violIf (b.transpose && none' b.trans) (formatViol 40)
    ++ violIf (b.n == 0 || b.n > 8) (formatViol 60) ++ violIf (b.pruneCount > 64) (formatViol 61)
    ++ violIf (b.regrowCount > 64 && b.regrowCount != 0x7F) (formatViol 61)
    ++ violIf ((edits || b.transpose) && none' b.src && none' b.value) (formatViol 52)

/-- Formats and shapes of the tensors named; `f` gives the forward logical shape. -/
def State.topiaryShapeViols (s : State) (c : Nat) (b : TBody) : List Viol :=
  match (if b.src ≠ noHandle then s.tens? c b.src else s.tens? c b.dest) with
  | none => []
  | some f =>
    let on (h off : Nat) (p : Tens → Bool) : List Viol :=
      match s.tens? c h with
      | none => []
      | some t => violIf (p t) (viol .descFormat h off)
    let score (t : Tens) : Bool := t.sparseN != 0 || t.shape != f.shape || !scoreFmts.contains t.fmt
    on b.src 32 (fun t => t.sparseN == 0)
      ++ on b.dest 36 (fun t => t.sparseN != b.n || t.shape != f.shape || t.scaleMode == 2)
      ++ on b.trans 40 (fun t => t.sparseN != b.n || t.log 0 != f.log 1 || t.log 1 != f.log 0 || t.scaleMode == 2)
      ++ on b.wscore 44 score ++ on b.gscore 48 score ++ on b.value 52 score

/-- Another Topiary command in flight that writes a tensor this one writes (R163 step 1). -/
def State.topiaryConflict (s : State) (c : Nat) (b : TBody) : Option Nat :=
  let busy (h : Nat) : Bool := h != noHandle && (s.slot c (handleSlot h)).writer.isSome
  if busy b.dest then some b.dest else if b.transpose && busy b.trans then some b.trans else none

def genEnding (h : Nat) : Ending := sparseEnding ⟨.maskGeneration, 0, 0⟩ h 0 0

def State.checkTopiary (s : State) (id : CmdId) (d : List Byte) : Verdict :=
  let b := tBody d
  let uses := tUses b
  let v := s.verdict id (bodyViols d [bytesSpan 32 28, ⟨60, 22, 0⟩, bytesSpan 64 2] ++ topiaryBodyViols b
    ++ (uses.map (s.useViols id.ctx)).flatten ++ s.topiaryShapeViols id.ctx b) uses []
  match v.ending, s.topiaryConflict id.ctx b with
  | none, some h => { v with ending := some (genEnding h) }
  | _, _ => v

/-! ### One block (R154–R157) -/

/-- The magnitude a position is scored by: a NaN counts as 0 (R154). -/
def scoreOf (v : FVal) : FVal := if v.isNan then .zero else v.abs

/-- Positions of a block, row × 8 + column. -/
abbrev Pos8 := Nat

/-- Insert a position by ascending, or descending, score; earlier positions stay first among equals (R155). -/
def insertPos (f : Pos8 → FVal) (down : Bool) (p : Pos8) : List Pos8 → List Pos8
  | [] => [p]
  | q :: t =>
    if (if down then (f q).lt (f p) else (f p).lt (f q)) then p :: q :: t else q :: insertPos f down p t

/-- Positions in order of score; the list given is in ascending order of position. -/
def sortPos (f : Pos8 → FVal) (down : Bool) (ps : List Pos8) : List Pos8 :=
  ps.foldl (fun l p => insertPos f down p l) []

def rowCount (kept : List Pos8) (p : Pos8) : Nat := (kept.filter fun q => q / 8 == p / 8).length
def colCount (kept : List Pos8) (p : Pos8) : Nat := (kept.filter fun q => q % 8 == p % 8).length

/-- Step 2 of PRUNE: while a line is over-full, its lowest-scored position goes; `order` is the ascending order of score. -/
def thin (n : Nat) (order : List Pos8) : Nat → List Pos8 → List Pos8
  | 0, kept => kept
  | fuel + 1, kept =>
    match order.find? fun p => kept.contains p && (rowCount kept p > n || colCount kept p > n) with
    | none => kept
    | some p => thin n order fuel (kept.filter (· != p))

/-- PRUNE: the positions left, ascending. -/
def pruneBlock (b : TBody) (w : Pos8 → FVal) (kept : List Pos8) : List Pos8 :=
  let order := sortPos w false kept
  let first := order.take b.pruneCount
  thin b.n order 64 (kept.filter fun p => !first.contains p)

/-- REGROW: walk the candidates, adding where both lines have room; the kept set and the positions grown. -/
def growBlock (b : TBody) (want : Nat) (removed : List Pos8) : List Pos8 → List Pos8 → List Pos8 → List Pos8 × List Pos8
  | [], kept, grown => (kept, grown)
  | p :: t, kept, grown =>
    if grown.length = want then (kept, grown)
    else if removed.contains p ∧ !b.regrowPruned then growBlock b want removed t kept grown
    else if rowCount kept p < b.n ∧ colCount kept p < b.n then growBlock b want removed t (p :: kept) (p :: grown)
    else growBlock b want removed t kept grown

/-- What becomes of a block: kept, removed and grown positions (R156). -/
structure Block8 where
  kept : List Pos8
  removed : List Pos8
  grown : List Pos8
  deriving DecidableEq, Repr

/-- `inside`: positions of the block inside the extent; `w`, `g`: its scores. -/
def editBlock (b : TBody) (inside kept : List Pos8) (w g : Pos8 → FVal) : Block8 :=
  let k1 := if b.prune then pruneBlock b w kept else kept
  let removed := kept.filter fun p => !k1.contains p
  if !b.regrow then ⟨k1, removed, []⟩
  else
    let want := if b.regrowCount = 0x7F then removed.length else b.regrowCount
    let r := growBlock b want removed (sortPos g true (inside.filter fun p => !k1.contains p)) k1 []
    ⟨r.1, removed, r.2⟩

/-- CHECK: no line holds more than TARGET_N (R157). -/
def transposable (n : Nat) (kept : List Pos8) : Bool := kept.all fun p => rowCount kept p ≤ n && colCount kept p ≤ n

/-! ### The whole tensor -/

/-- The source of a command: kept bytes and values by row, read before anything is written. -/
structure TSource where
  maps : List (List Nat)
  vals : List (List FVal)
  deriving DecidableEq, Repr

/-- Rows of an N:8 tensor: bitmap bytes by group, and values by position, decoded to FP32 (R48). -/
def State.sparseRows (s : State) (id : CmdId) (t : Tens) (gen : Nat) : Except AccErr TSource :=
  let sT := s.readScale id t
  match mapE (fun r => mapE (fun c => s.readTile (s.accOf id t) t sT 0 gen r c) (upTo t.tileCols)) (upTo t.tileRows) with
  | .error e => .error e
  | .ok rows =>
    .ok ⟨(upTo t.rows).map fun i =>
        ((rows.getD (i / 16) []).map fun st => (st.maps.drop (32 * (i % 16))).take 32).flatten,
      (upTo t.rows).map fun i => ((rows.getD (i / 16) []).map fun st => (st.vals.getD (i % 16) []).map t.fmt.toFP32).flatten⟩

/-- A dense tensor read in full, or nothing where none is named. -/
def State.denseOr (s : State) (id : CmdId) (h : Nat) : Except AccErr (List (List FVal)) :=
  match (if h = noHandle then none else s.tensRun id.ctx h) with
  | none => .ok []
  | some t => s.readAll (s.accOf id t) .fp32 t (s.readScale id t) 0

def at2 (m : List (List FVal)) (r c : Nat) : FVal := (m.getD r []).getD c .zero

/-- The blocks of a forward tensor `f`, in row-major order. A position outside the extent is never kept (R154). -/
def editBlocks (b : TBody) (f : Tens) (src : Option TSource) (w g : List (List FVal)) : List Block8 :=
  let nc := ceilDiv (f.log 0) 8
  (upTo (ceilDiv (f.log 1) 8 * nc)).map fun k =>
    let r0 := 8 * (k / nc)
    let c0 := 8 * (k % nc)
    let inside := (upTo 64).filter fun p => r0 + p / 8 < f.ext 1 && c0 + p % 8 < f.ext 0
    let kept := match src with
      | none => inside
      | some x => inside.filter fun p => bitOf ((x.maps.getD (r0 + p / 8) []).getD (k % nc) 0) (p % 8)
    editBlock b inside kept (fun p => scoreOf (at2 w (r0 + p / 8) (c0 + p % 8))) (fun p => scoreOf (at2 g (r0 + p / 8) (c0 + p % 8)))

/-- A set of positions of one row of a block, as a bitmap (Table 5-2). -/
def rowMap (ps : List Pos8) (i : Nat) : Nat := (ps.filter fun p => p / 8 == i).foldl (fun m p => m + 2 ^ (p % 8)) 0

/-- The bitmap byte of row `r`, group `j` of a block list of `nc` blocks to a block row, by one of its sets. -/
def groupMap (nc : Nat) (bs : List Block8) (f : Block8 → List Pos8) (r j : Nat) : Nat :=
  if j < nc then (bs[r / 8 * nc + j]?).elim 0 fun x => rowMap (f x) (r % 8) else 0

/-- The forward value of a kept position (R160). -/
def forwardVal (nc : Nat) (bs : List Block8) (value : Option (List (List FVal))) (src : Option TSource) (r c : Nat) : FVal :=
  let p := 8 * (r % 8) + c % 8
  if (bs[r / 8 * nc + c / 8]?).any fun x => x.grown.contains p then .zero
  else
    match value, src with
    | some v, _ => at2 v r c
    | none, some x => at2 x.vals r c
    | none, none => .zero

/-- Write every storage tile of generation `h` of a tensor, from its kept bytes and its values. -/
def State.writeGen (s : State) (id : CmdId) (t : Tens) (h : Nat) (map : Nat → Nat → Nat) (val : Nat → Nat → FVal) :
    State × WOut :=
  let sT := s.readScale id t
  s.writeEach (fun st k =>
    let r := k / t.tileCols
    let c := k % t.tileCols
    let maps := (upTo 512).map fun q => map (16 * r + q / 32) (32 * c + q % 32)
    let vals := (upTo 16).map fun i =>
      (upTo 256).map fun j =>
        if bitOf (maps.getD (32 * i + j / 8) 0) (j % 8) then val (16 * r + i) (256 * c + j) else .zero
    let e := encodeTile t.fmt t.sparseN h r c sT (fun _ _ => .rne) ⟨maps, vals⟩
    let w := st.writeTile (st.accOf id t) t 0 h r c e.1
    (w.1, ⟨e.2.1, e.2.2, e.1.length, w.2⟩)) (upTo (t.tileRows * t.tileCols))

/-- Whether the buffers a command writes are free of commands that use them (R163 step 3). -/
def State.buffersFree (s : State) (c : Nat) (b : TBody) : Bool :=
  let free (h : Nat) : Bool :=
    h == noHandle ||
      (if b.target % 2 = 0 then (s.slot c (handleSlot h)).uses0 else (s.slot c (handleSlot h)).uses1) == 0
  free b.dest && (!b.transpose || free b.trans)

/-- The first failing block of CHECK, as R158 reports it. -/
def checkEnding (b : TBody) (nc : Nat) (bs : List Block8) : Option Ending :=
  if !b.check then none
  else
    (firstIdx bs.length fun k => (bs[k]?).any fun x => !transposable b.n x.kept).map fun k =>
      sparseEnding ⟨.maskNotTransposable, 8 * (k / nc), k % nc⟩ (if b.dest ≠ noHandle then b.dest else b.src) 0 0

/-- The bytes of the buffers a command writes, left undefined by a failing CHECK (R158). -/
def State.spoil (s : State) (id : CmdId) (b : TBody) : State :=
  let one (s : State) (h : Nat) : State :=
    match (if h = noHandle then none else s.tensRun id.ctx h) with
    | none => s
    | some t => s.undefined (s.accOf id t) [(t.tileAddr 0 b.target 0 0, t.tileRows * t.tileCols * tileDense t.fmt)]
  let s := one s b.dest
  if b.transpose then one s b.trans else s

/-- Write the generation, the transposed copy and the change map (R159–R161). -/
def State.topiaryWrite (s : State) (id : CmdId) (b : TBody) (f : Tens) (src : Option TSource) (bs : List Block8)
    (value : Option (List (List FVal))) : State × WOut :=
  let nc := ceilDiv (f.log 0) 8
  let map := groupMap nc bs (·.kept)
  let val := forwardVal nc bs value src
  let dest (s : State) : State × WOut :=
    match (if b.dest = noHandle then none else s.tensRun id.ctx b.dest) with
    | none => (s, WOut.zero)
    | some t => s.writeGen id t b.target map val
  let trans (s : State) : State × WOut :=
    match (if b.transpose then s.tensRun id.ctx b.trans else none) with
    | none => (s, WOut.zero)
    | some t =>
      s.writeGen id t b.target
        (fun r j => (upTo 8).foldl (fun m i => m + b2n (bitOf (map (8 * j + i) (r / 8)) (r % 8)) * 2 ^ i) 0)
        (fun r c => val c r)
  let change (s : State) : State × WOut :=
    match (if b.change = noHandle ∨ !(b.prune || b.regrow) then none else s.tensRun id.ctx b.change) with
    | none => (s, WOut.zero)
    | some t =>
      s.writeEach (fun st r =>
        let bytes := ((upTo nc).map fun j =>
          [BitVec.ofNat 8 (groupMap nc bs (·.removed) r j), BitVec.ofNat 8 (groupMap nc bs (·.grown) r j)]).flatten
        if !(st.allocOf id.ctx t).holds [(t.base + 2 * nc * r, 2 * nc)] then (st, ⟨false, 0, 0, some .range⟩)
        else
          let w := st.writeBytes (st.accOf id t) (t.base + 2 * nc * r) bytes
          (w.1, ⟨false, 0, bytes.length, w.2⟩)) (upTo f.rows)
  s.writeEach (fun st k => if k = 0 then dest st else if k = 1 then trans st else change st) [0, 1, 2]

/-- Bytes a command reads: each tensor it names once (R161). -/
def State.topiaryReads (s : State) (c : Nat) (b : TBody) : Nat :=
  let hs := ([b.src, b.wscore, b.gscore, b.value].filter (· != noHandle)).eraseDups
  (hs.map fun h => (s.tensRun c h).elim 0 fun t =>
    if t.sparseN ≠ 0 then t.tileRows * t.tileCols * tileStored t.fmt t.sparseN else t.rowReadBytes * t.rows).foldl (· + ·) 0

/-- The whole of a command once its buffers are free. -/
def State.topiaryRun (s0 : State) (id : CmdId) (b : TBody) (f : Tens) (src : Option TSource) : State :=
  let s := s0
  match s.denseOr id b.wscore, s.denseOr id b.gscore, s.denseOr id b.value with
  | .ok w, .ok g, .ok v =>
    let bs := editBlocks b f src w g
    match checkEnding b (ceilDiv (f.log 0) 8) bs with
    | some e => (s.spoil id b).finish id e
    | none =>
      let r := s.topiaryWrite id b f src bs (if b.value = noHandle then none else some v)
      let s := (r.1.flagSaturated id r.2.saturated).qcount id (s.topiaryReads id.ctx b) r.2.bytes 0 0
      match r.2.err with
      | some .wait => s0
      | some e => s.failAcc id e
      | none => s.finishOk id
  | .error .wait, _, _ => s
  | .error e, _, _ => s.failAcc id e
  | _, .error .wait, _ => s
  | _, .error e, _ => s.failAcc id e
  | _, _, .error .wait => s
  | _, _, .error e => s.failAcc id e

/-- Read the source, after the check of every storage tile of it (R152). -/
def State.topiarySource (s : State) (id : CmdId) (b : TBody) : Except AccErr (Option Ending × Option TSource) :=
  match (if b.src = noHandle then none else s.tensRun id.ctx b.src) with
  | none => .ok (none, none)
  | some t =>
    match s.checkSparse (s.accOf id t) t 0 b.gen (t.ext 1) t.tileRows with
    | .error e => .error e
    | .ok (some f) => .ok (some (sparseEnding f.1 b.src 0 0), none)
    | .ok none =>
      match s.sparseRows id t b.gen with
      | .error e => .error e
      | .ok x => .ok (none, some x)

/-- Run a Topiary command as far as its buffers allow. -/
def State.topiaryStep (s : State) (c : Cmd) : State :=
  let id := c.id
  let b := tBody c.desc
  match s.tensRun id.ctx (if b.src ≠ noHandle then b.src else b.dest) with
  | none => s
  | some f =>
    match s.topiarySource id b with
    | .error .wait => s
    | .error e => s.failAcc id e
    | .ok (some e, _) => s.finish id e
    | .ok (none, src) =>
      if s.buffersFree id.ctx b then s.topiaryRun id b f src else s.updCmd id fun x => { x with begun := true }

/-- The dies whose engines run a command: those that carry its queue's group (R150). -/
def State.engineDies (s : State) (id : CmdId) : List Nat :=
  (s.groups.get? (s.queue id.ctx id.q).group).elim [] fun g => g.members.map (· / 96)

/-- An engine that runs a command is under self-test (R459). -/
def State.topiaryTested (s : State) (id : CmdId) : Bool :=
  s.faults.tests.any fun t => t.1.kind == 1 && (t.2.1 == some id || (s.engineDies id).contains t.1.die)

def execTopiary (id : CmdId) (s : State) : Host.Outcome State Fault Refusal :=
  .next (s.onCmd id (isOpcode 0x0030) fun c => if c.begun ∨ s.topiaryTested id then s else s.topiaryStep c)

/-- TOPIARY_BUFFER_WRITE: a command that waited for its target buffer writes it (R163 step 3). -/
def execTopiaryBufferWrite (id : CmdId) (s : State) : Host.Outcome State Fault Refusal :=
  .next (s.onCmd id (isOpcode 0x0030) fun c => if c.begun ∧ !s.topiaryTested id then s.topiaryStep c else s)

end Sys2Proof.Machine
end

