-- ==== Sys2Proof/Machine/Steps.lean ====
section
/-!
DEFINITION. Machine/Steps.lean: what several subsystems share of ports (R318, R333, R339) and of the step sequence
(R427, R429, R467).
-/
namespace Sys2Proof.Machine

/-! ### Ports -/

def State.port (s : State) (p : Nat) : PortSt := s.fabric.ports.getD p PortSt.init
def State.updPort (s : State) (p : Nat) (f : PortSt → PortSt) : State :=
  { s with fabric := { s.fabric with ports := s.fabric.ports.upd p PortSt.init f } }
def State.setFabric (s : State) (f : FabricSt → FabricSt) : State := { s with fabric := f s.fabric }
def State.portUp (s : State) (p : Nat) : Bool := (s.port p).mode = .up
def portReg (n : RegName) (p : Nat) : Reg := ⟨n, p, 0⟩

/-- The port a follower takes time from: BACKUP_PORT after a switch (R335, R339). -/
def State.timeParent (s : State) : Nat :=
  let w := s.rd (regDie0 .timeControl)
  if s.time.onBackup then bitsOf w 13 8 else bitsOf w 7 2

/-- A locked follower whose parent is gone keeps its frequency and its lock (R339). -/
def State.holdover (s : State) : State :=
  if s.time.role = .follower ∧ s.time.locked ∧ !s.time.holdover then
    { s with time := { s.time with holdover := true, holdoverFrame := s.frame } }
  else s

/-- Trace point 0x0501; STATE and DOWN_REASON stand as in PORT_STATUS. -/
def State.logPort (s : State) (p : Nat) : State :=
  s.logTrace (p / 5) 0x0501 p ((s.port p).mode.code + 256 * (s.port p).reason)

/-- A port enters a state of bring-up. -/
def State.setMode (s : State) (p : Nat) (m : PortMode) : State :=
  (s.updPort p fun x => { x with mode := m, reason := 0, since := s.now }).logPort p

/-- A port goes DOWN with a reason: its keys are destroyed (R489) and it stops counting (R431). -/
def State.portDown (s : State) (p reason : Nat) : State :=
  let s := (s.updPort p fun x => { PortSt.init with reason, since := s.now, sent := x.sent, delay := x.delay }).logPort p
  if s.time.role = .follower ∧ s.timeParent = p then s.holdover else s

/-- Ports of a die. -/
def portsOf (d : Nat) : List Nat := (upTo 5).map fun k => 5 * d + k

/-! ### The step sequence -/

def State.setSteps (s : State) (f : StepSt → StepSt) : State := { s with step := f s.step }
def State.updUpd (s : State) (d : Nat) (f : UpdDie → UpdDie) : State := { s with upd := s.upd.upd d UpdDie.init f }
def State.updDieOf (s : State) (d : Nat) : UpdDie := s.upd.getD d UpdDie.init

/-- Step numbers compare as R220 compares counters: `t` is at or after `u`. -/
def stepAtOrAfter (t u : Nat) : Bool := reachedTarget t u
def stepAfter (t u : Nat) : Bool := reachedTarget t u && t % 2 ^ 32 != u % 2 ^ 32

/-- A step this module has decided. -/
def State.decided (s : State) (t : Nat) : Bool := !stepAtOrAfter t s.step.oldest

/-- Reason bits of Table 17-3. -/
def bitNonfinite : Nat := 0
def bitNorm : Nat := 1
def bitMismatch : Nat := 2
def bitConflict : Nat := 3
def bitCoverage : Nat := 4
def bitSchedule : Nat := 5
def bitOverflow : Nat := 6
def bitEcc : Nat := 7
def bitDriver : Nat := 8
def bitJournalFull : Nat := 9
def bitCascade : Nat := 10
def bitFault : Nat := 11

/-- Raise a reason for a step; one raised for a decided step counts for the oldest undecided one (R467). -/
def State.raise (s : State) (t bit : Nat) : State :=
  if !s.step.opened then s
  else
    let u := if s.decided t then s.step.oldest else t
    s.setSteps fun x => { x with reasons := x.reasons.upd u 0 fun m => m ||| 2 ^ bit }

/-- FAULT for the oldest undecided step. -/
def State.raiseFault (s : State) : State := s.raise s.step.oldest bitFault

/-- A step the module has begun and not decided: a vote, a reason, or an accepted bucket (R427). -/
def State.begunSteps (s : State) : List Nat :=
  let buckets := (s.upd.vals.map fun u => (u.groups.vals.map fun g => g.steps.map (·.step)).flatten).flatten
  (s.step.votes ++ s.step.reasons.keys ++ buckets).filter fun t => !s.decided t

def State.anyUndecided (s : State) : Bool := s.step.opened && !s.begunSteps.isEmpty

end Sys2Proof.Machine
end

