-- ==== Sys2Proof/Machine/Ports.lean ====
section
/-!
DEFINITION. Machine/Ports.lean: link bring-up (R318, R333), rekeying (R330–R332), direction failure (R329, R350) and the
roles of fabric time (R335, R339).
-/
namespace Sys2Proof.Machine

/-! ### Bring-up -/

/-- This module's NODE. -/
def State.node (s : State) : Nat := s.rd (regDie0 .nodeReg)

/-- Pips in a number of microseconds. -/
def usPips (us : Nat) : Nat := us * 800

/-- Why a port may not begin bring-up, if it may not (R318, R333, R503). -/
def State.barred (s : State) (p : Nat) : Option Nat :=
  if !(s.die (p / 5)).inService then some 8
  else if s.fld (portReg .portControl p) 0 0 = 0 then some 1
  else if s.node = 0xFFFF then some 9
  else if s.sec.errorState then some 4
  else none

/-- Begin bring-up from TRAINING, or stay DOWN with the reason. -/
def State.bringUp (s : State) (p : Nat) : State :=
  match s.barred p with
  | some r => if (s.port p).mode = .down ∧ (s.port p).reason = r then s else s.portDown p r
  | none => if s.ready then s.setMode p .training else s

/-- ENABLE written (R333): set from 0, bring-up begins; cleared, the port goes DOWN with reason 1. -/
def State.portEnable (s : State) (p : Nat) (was on : Bool) : State :=
  if on = was then s else if on then s.bringUp p else if (s.die (p / 5)).inService then s.portDown p 1 else s

/-- NODE written: ports that waited for an identity begin bring-up, or every port goes DOWN (R333). -/
def State.nodeEffect (s : State) (old : Nat) : State :=
  if s.node = old then s
  else
    (upTo 40).foldl (fun t p =>
      if t.node = 0xFFFF then
        if (t.port p).mode = .down ∧ (t.barred p) ≠ some 9 then t else t.bringUp p
      else if (t.port p).mode = .down ∧ (t.port p).reason = 9 then t.bringUp p
      else t) s

def State.inMode (s : State) (p : Nat) (m : PortMode) (f : State) : State := if (s.port p).mode = m then f else s

def execLinkTrained (port : Nat) (s : State) : Host.Outcome State Fault Refusal :=
  .next (s.inMode port .training (s.setMode port .aligning))

/-! ### Authentication (R327, R501) -/

/-- The next draw of the random bit generator. -/
def State.nextDraw (s : State) : Nat × State := (s.sec.draws, { s with sec := { s.sec with draws := s.sec.draws + 1 } })

/-- The module's owner hash; zeros for none. -/
def State.ownerHash (s : State) : List Byte := (s.sec.ownerSlots.getLast?).getD (zeros 64)

/-- Fragments of at most 280 bytes. -/
def fragsOf (bs : List Byte) : List (List Byte) := chunks 280 (bs.length / 280 + 1) bs

/-- A management message whose data is known whole. -/
def mgmtOf (type : Nat) (bs : List Byte) : MgmtOut := ⟨type, fragsOf bs, max 1 (ceilDiv bs.length 280)⟩

/-- Queue a management message on a port. -/
def State.sendMgmt (s : State) (p : Nat) (m : MgmtOut) : State := s.updPort p fun x => { x with mgmt := x.mgmt ++ [m] }

/-- IDENTITY before its signature: the nonce and owner hash, then the certificate chain. The signature of 1,280 bytes is longer
than a fragment's 280: it takes the last five (R501; log entry 158). -/
def State.identityHead (s : State) (nonce : List Byte) : MgmtOut :=
  let fs := (nonce ++ s.ownerHash) :: fragsOf Config.certChain
  ⟨1, fs, fs.length + 5⟩

/-- A port enters AUTHENTICATING and begins its IDENTITY. -/
def State.beginAuth (s : State) (p : Nat) : State :=
  let (k, s) := s.nextDraw
  let nonce := Config.drbg k 32
  ((s.updPort p fun x => { x with auth := some ⟨nonce, none, [], [], false, none, none, false⟩, mgmt := [], mgmtNext := 0,
                                  mgmtRx := none }).sendMgmt p (s.identityHead nonce)).setMode p .authenticating

def execFrameAligned (port : Nat) (s : State) : Host.Outcome State Fault Refusal :=
  .next (s.inMode port .aligning (s.beginAuth port))

/-- End L of a link: the lower (NODE, port) (R327); until keys are installed the peer is the one its control slots name. -/
def State.isEndL (s : State) (p : Nat) : Bool :=
  let x := s.port p
  let (n, q) := if x.txKey.isSome then (x.peerNode, x.peerPort) else x.sender.getD (0xFFFF, 0x3F)
  decide (s.node < n) || (s.node == n && decide (p < q))

/-- The management data of an exchange in one order at both ends: end L's, then end H's (log entry 158). -/
def State.transcript (s : State) (p : Nat) (a : AuthSt) : List Byte :=
  if s.isEndL p then a.sent ++ a.got else a.got ++ a.sent

/-- The transmit and receive keys of R327; the transcript's hash is taken to 64 bytes (log entry 158). -/
def linkKeys (endL : Bool) (secret transcript : List Byte) : LinkKey × LinkKey :=
  let k := Config.shake256 72 (secret ++ Config.shake256 64 transcript)
  let lh : LinkKey := ⟨sliceB k 0 32, u32 k 64⟩
  let hl : LinkKey := ⟨sliceB k 32 32, u32 k 68⟩
  if endL then (lh, hl) else (hl, lh)

/-- Install the keys of R327; FRAME_CTR starts at 0 in both directions (R328). -/
def State.installKeys (s : State) (p : Nat) (k : LinkKey × LinkKey) : State :=
  let s := s.updPort p fun x =>
    { x with txKey := some k.1, rxKey := some k.2, rxLive := false, keyPhase := false, rxPhase := false, auth := none }
  (s.wr (portReg .txFrameCtr p) 0).wr (portReg .rxFrameCtr p) 0

/-- Whether the exchange of a port is whole: the secret is known, the peer's FINISHED has come and nothing is left to send. -/
def AuthSt.whole (a : AuthSt) (x : PortSt) : Bool := a.secret.isSome && a.finished && x.mgmt.isEmpty

/-- PEER_AUTHENTICATED (R501): with the exchange whole and the peer accepted, the keys are installed. The peer is the one that
the control slots of the exchange name; of another there is nothing to prove. -/
def State.authenticate (s : State) (p : Nat) (peer : Nat × Nat) (verified : Bool) : State :=
  let x := s.port p
  let need := s.fld (regDie0 .secPolicy) 0 0 = 1
  match x.auth with
  | none => s
  | some a =>
    if x.sender ≠ some peer then s
    else if !verified then s.portDown p 4
    else if !a.whole x then s
    else if need ∧ a.peer.map (·.2) ≠ some s.ownerHash then s.portDown p 4
    else
      ((s.installKeys p (linkKeys (s.isEndL p) (a.secret.getD []) (s.transcript p a))).updPort p fun x =>
        { x with peerNode := peer.1, peerPort := peer.2, exchanges := 0 }).setMode p .measuring

def execPeerAuthenticated (port peerNode peerPort : Nat) (chainOk signatureOk : Bool) (s : State) :
    Host.Outcome State Fault Refusal :=
  .next (s.inMode port .authenticating (s.authenticate port (peerNode, peerPort) (chainOk && signatureOk)))

/-- DELAY_MEASURED: after 16 exchanges, a delay within 768 pips takes the port UP, with 64 best-effort credits (R333, R367). The
delay is the last one measured (log entry 160); of another the row says nothing. -/
def State.measured (s : State) (p delay : Nat) : State :=
  let x := s.port p
  if x.exchanges < 16 ∨ x.delay ≠ delay then s
  else if delay ≤ 768 then
    (s.updPort p fun x => { x with credit := 64, creditBack := 0, badControls := 0, fecFrames := 0 }).setMode p .up
  else s.portDown p 5

def execDelayMeasured (port delay : Nat) (s : State) : Host.Outcome State Fault Refusal :=
  .next (s.inMode port .measuring (s.measured port delay))

/-- Longest stay in a state, in pips, and the reason on failure (Table 13-5). -/
def PortMode.limit : PortMode → Option (Nat × Nat)
  | .training => some (usPips 500000, 2)
  | .aligning => some (usPips 1000, 3)
  | .authenticating => some (usPips 20000, 4)
  | .measuring => some (64 * 1024, 5)
  | .down => none
  | .up => none

def execBringUpTimeout (port : Nat) (s : State) : Host.Outcome State Fault Refusal :=
  let x := s.port port
  .next (match x.mode.limit with
    | some (n, r) => if x.since + n ≤ s.now then s.portDown port r else s
    | none => s)

/-- RETRY_INTERVAL: a DOWN port starts again, except after reason 4 (R333). -/
def execRetryInterval (port : Nat) (s : State) : Host.Outcome State Fault Refusal :=
  let x := s.port port
  let wait := usPips 10000 * max 1 (s.fld (portReg .portControl port) 15 8)
  .next (if x.mode = .down ∧ [2, 3, 5, 6, 7].contains x.reason ∧ x.since + wait ≤ s.now then s.bringUp port else s)

/-! ### Direction failure and failover (R329, R350) -/

/-- Frames of LEAD. -/
def State.failLead (s : State) : Nat := max 16 (s.fld (regDie0 .failoverControl) 8 1)

/-- Adopt a failover switch frame: the earlier of it and any pending switch (R350). -/
def State.adoptFailover (s : State) (frame : Nat) : State :=
  match s.fabric.pendingSwitch with
  | some q =>
    if q.frame ≤ frame then s
    else s.setFabric fun f => { f with pendingSwitch := some ⟨frame, true, q.by'⟩ }
  | none => s.setFabric fun f => { f with pendingSwitch := some ⟨frame, true, none⟩ }

/-- A failing port proposes a switch to a valid standby table; while a failover pends, no second one (R467). -/
def State.propose (s : State) : State :=
  if s.fld (regDie0 .failoverControl) 0 0 = 0 ∨ s.fabric.standby.isNone ∨ (s.fabric.pendingSwitch.any fun q => q.failover) then s
  else s.adoptFailover (s.frame + s.failLead)

def State.portFailed (s : State) (p : Nat) : State :=
  ((s.portDown p 6).faultRecord ⟨.port, 0, ⟨8, p / 5, p⟩, none, noWhere⟩).propose

def execPortDirectionFailure (port : Nat) (s : State) : Host.Outcome State Fault Refusal :=
  let x := s.port port
  .next (if x.mode = .up ∧ (x.badControls ≥ 8 ∨ x.fecFrames ≥ 64) then s.portFailed port else s)

/-! ### Rekeying -/

/-- A write of 1 to PORT_CONTROL.REKEY; end L starts the rekey in REKEY_START. No message carries the request from end H to end
L: it stands at end H until a rekey begins (log entry 161). -/
def State.askRekey (s : State) (p : Nat) : State :=
  if (s.port p).mode = .up then s.updPort p fun x => { x with asked := true } else s

/-- Whether FRAME_CTR of either direction has reached `n`. -/
def State.ctrReached (s : State) (p n : Nat) : Bool :=
  decide (n ≤ s.rd (portReg .txFrameCtr p)) || decide (n ≤ s.rd (portReg .rxFrameCtr p))

/-- Whether end L starts a rekey now (R330). One that is asked for while the last has derived no keys takes its place (log
entry 161). -/
def State.mayRekey (s : State) (p : Nat) : Bool :=
  let x := s.port p
  x.mode == .up && s.isEndL p
    && ((x.asked && !(x.rekey.any fun k => k.derived))
      || (s.ctrReached p (2 ^ 47) && match x.attempt, x.rekey with
        | none, none => true
        | some f, r => decide (f + 2 ^ 20 ≤ s.frame) && !(r.any fun k => k.derived)
        | none, some _ => false))

def execRekeyStart (port : Nat) (s : State) : Host.Outcome State Fault Refusal :=
  .next (if s.mayRekey port then
      let (k, t) := s.nextDraw
      t.updPort port fun x =>
        { x with rekey := some ⟨some k, Config.kemKey k, false, none⟩, asked := false, attempt := some s.frame,
                 mgmt := [mgmtOf 5 (Config.kemKey k)], mgmtNext := 0 }
    else s)

/-- Both keys of a rekey derived from its own secret and transcript (R330), in use from the switch on, with the message that
follows. -/
def State.deriveRekey (s : State) (p : Nat) (secret transcript : List Byte) (switch : Option Nat) (m : MgmtOut) : State :=
  let k := linkKeys (s.isEndL p) secret transcript
  (s.updPort p fun x =>
    { x with newTx := some k.1, newRx := some k.2, rekey := some ⟨none, [], true, switch⟩, asked := false }).sendMgmt p m

/-- A slot of the present frame has left a port. -/
def State.midFrame (s : State) (p : Nat) : Bool := (s.port p).sent.any fun q => q.frame == s.frame

/-- KEY_SWITCH (R331): at a frame that no slot of has left yet. -/
def State.keySwitch (s : State) (p : Nat) : State :=
  match (s.port p).rekey with
  | some ⟨_, _, true, some f⟩ =>
    if s.frame < f ∨ s.midFrame p then s
    else
      let s := s.updPort p fun x => { x with txKey := x.newTx, newTx := none, keyPhase := !x.keyPhase, rekey := none, attempt := none }
      ((s.wr (portReg .txFrameCtr p) 0).bump (portReg .rekeys p) 1).logTrace (p / 5) 0x0502 p (b2n (s.port p).keyPhase)
  | _ => s

def execKeySwitch (port : Nat) (s : State) : Host.Outcome State Fault Refusal := .next (s.keySwitch port)

/-- PREVIOUS_KEY_EXPIRY: 1,024 frames after the first slot under the new key. -/
def execPreviousKeyExpiry (port : Nat) (s : State) : Host.Outcome State Fault Refusal :=
  .next (match (s.port port).oldRx with
    | some k => if k.until' ≤ s.frame then s.updPort port fun x => { x with oldRx := none } else s
    | none => s)

/-- NONCE_EXHAUSTED (R332). -/
def execNonceExhausted (port : Nat) (s : State) : Host.Outcome State Fault Refusal :=
  .next (if (s.port port).mode ≠ .down ∧ s.ctrReached port (2 ^ 48) then s.portDown port 7 else s)

/-! ### Fabric time -/

/-- The role a ROLE field names; which one the reserved 11b comes to is free (log entry 66). -/
def roleOf : Nat → Role
  | 1 => .master
  | 2 => .follower
  | 0 => .free
  | _ => if Config.reservedRole % 3 = 0 then .free else if Config.reservedRole % 3 = 1 then .master else .follower

/-- ROLE_CHANGE: the written role comes into force at the frame boundary after the write (R335). -/
def State.roleChange (s : State) : State :=
  let r := roleOf (s.fld (regDie0 .timeControl) 1 0)
  if r = s.time.role ∨ s.frame < s.time.roleAt then s
  else
    let t := s.time
    { s with time := { t with
        role := r, locked := decide (r = .master), holdover := false, onBackup := false, offsets := [], goodRun := 0,
        lastLockedFrame := s.frame, masterHops := if r = .master then 0 else 0xFF,
        masterNode := if r = .master then s.node else 0xFFFF } }

def execRoleChange (s : State) : Host.Outcome State Fault Refusal := .next s.roleChange

/-- TIME_SET: taken while the role in force is FREE, and loaded at the next pip (R342). -/
def State.timeSetTo (s : State) (v : Nat) : State :=
  if s.time.role = .free then { s with time := { s.time with load := some v } } else s

/-- BACKUP_SWITCH (R339). -/
def execBackupSwitch (s : State) : Host.Outcome State Fault Refusal :=
  let b := s.fld (regDie0 .timeControl) 13 8
  .next (if s.time.role = .follower ∧ s.time.holdover ∧ !s.time.onBackup ∧ s.portUp b ∧ (s.port b).peerLocked then
      { s with time := { s.time with onBackup := true, holdover := false } }
    else s)

/-- A written PARENT_PORT acts as a switch without a step (R342). -/
def State.parentChange (s : State) (old : Nat) : State :=
  let p := s.fld (regDie0 .timeControl) 7 2
  if p = old ∨ s.time.role ≠ .follower then s
  else
    let s := { s with time := { s.time with onBackup := false } }
    if s.portUp p ∧ (s.port p).peerLocked then { s with time := { s.time with holdover := false } } else s.holdover

/-- LOCK_LOSS: 32,768 frames without a valid locked control slot (R339). -/
def execLockLoss (s : State) : Host.Outcome State Fault Refusal :=
  .next (if s.time.role = .follower ∧ s.time.locked ∧ s.time.lastLockedFrame + 32768 ≤ s.frame then
      ({ s with time := { s.time with locked := false, holdover := false, goodRun := 0 } }).bump (regDie0 .timeLockLosses) 1
    else s)

end Sys2Proof.Machine
end

