-- ==== Sys2Proof/Machine/Fabric.lean ====
section
/-!
DEFINITION. Machine/Fabric.lean: slot tables and their switching (R343–R351), sending on flows (R361, R364–R367) with
sender error terms (R64, R65, R442), and the end of retention (R370).
-/
namespace Sys2Proof.Machine

/-! ### The slot-table image (Tables 14-1 to 14-4) -/

/-- `n` words of 8 bytes. -/
def words64 : Nat → List Byte → List Nat
  | 0, _ => []
  | n + 1, bs => leValue (bs.take 8) :: words64 n (bs.drop 8)

def flowRec (w : Nat) : FlowRec :=
  ⟨bitsOf w 15 0, bitsOf w 31 16, bitsOf w 37 32, bitsOf w 40 38, bitsOf w 44 41, bitsOf w 60 45⟩
def txEnt (w : Nat) : TxEnt := ⟨bitsOf w 2 0, bitOf w 3, bitOf w 4, bitsOf w 13 8, bitsOf w 20 14, bitsOf w 39 24⟩
def rxEnt (w : Nat) : RxEnt := ⟨bitsOf w 2 0, bitOf w 3, bitsOf w 13 8, bitsOf w 20 14, bitsOf w 39 24, bitsOf w 43 40⟩

/-- The entries of an image, by number. -/
def numbered (ws : List Nat) : Tab Nat := (upTo ws.length).zip ws

def imgFrames (img : List Byte) : Nat := u16 img 4
def imgFlows (img : List Byte) : Nat := u16 img 6
/-- Offset of TX[0] and of RX[0]. -/
def imgTx (img : List Byte) : Nat := 64 + 8 * imgFlows img
def imgRx (img : List Byte) : Nat := imgTx img + 35840 * imgFrames img
def imgBytes (img : List Byte) : Nat := imgTx img + 71680 * imgFrames img
def imgRecords (img : List Byte) : Tab Nat := numbered (words64 (imgFlows img) (img.drop 64))
def imgTxWords (img : List Byte) : Tab Nat := numbered (words64 (4480 * imgFrames img) (img.drop (imgTx img)))
def imgRxWords (img : List Byte) : Tab Nat := numbered (words64 (4480 * imgFrames img) (img.drop (imgRx img)))

/-- The table an image holds. -/
def imgTable (img : List Byte) : SlotTable :=
  { id := u32 img 0, frames := imgFrames img, flows := (imgRecords img).vals.map flowRec,
    tx := (imgTxWords img).filterMap fun e => if e.2 % 8 = 0 then none else some (e.1, txEnt e.2),
    rx := (imgRxWords img).filterMap fun e => if e.2 % 8 = 0 then none else some (e.1, rxEnt e.2) }

/-- Entry number of frame index `i`, port `p` and slot `n`. -/
def entryNo (i p n : Nat) : Nat := (i * 40 + p) * 112 + n - 1
def entryIdx (e : Nat) : Nat := e / 4480
def entryPort (e : Nat) : Nat := e / 112 % 40
def entrySlot (e : Nat) : Nat := e % 112 + 1

def SlotTable.flow? (t : SlotTable) (f : Nat) : Option FlowRec := t.flows.find? fun r => r.flow == f
def SlotTable.txAt (t : SlotTable) (i p n : Nat) : Option TxEnt := if n = 0 ∨ n > 112 ∨ p ≥ 40 then none else t.tx.get? (entryNo i p n)
def SlotTable.rxAt (t : SlotTable) (i p n : Nat) : Option RxEnt := if n = 0 ∨ n > 112 ∨ p ≥ 40 then none else t.rx.get? (entryNo i p n)

/-! ### Checks of an image (R345) -/

def rsvdWord (w mask : Nat) : List Nat :=
  let x := w - (w &&& mask)
  if x = 0 then [] else (firstIdx 8 fun i => (x >>> (8 * i)) % 256 != 0).toList

/-- Offsets at fault within one flow record. -/
def recordFaults (t : SlotTable) (j : Nat) (w : Nat) : List Nat :=
  let r := flowRec w
  (rsvdWord w (2 ^ 61 - 1) ++ (if r.flow = 0xFFFF ∨ (t.flows.take j).any (fun q => q.flow == r.flow) then [0] else [])
    ++ (if r.hops = 0 ∨ r.hops = 7 then [4] else []) ++ (if 7 ≤ r.unit ∧ r.unit ≤ 14 then [5] else [])
    ++ (if (t.flow? r.repairFlow).isNone then [5] else [])).map fun o => 64 + 8 * j + o

/-- Whether a flow has an ORIGIN entry with REPAIR set among three consecutive frame indices from `i` on. -/
def SlotTable.repairOrigin (t : SlotTable) (f i : Nat) : Bool :=
  t.tx.any fun e => e.2.kind == 1 && e.2.repair && e.2.flow == f && (upTo 3).any fun k => entryIdx e.1 == (i + k) % t.frames

/-- Records whose flow originates here and cannot be resent in time. -/
def repairFaults (t : SlotTable) (j : Nat) (r : FlowRec) : List Nat :=
  if t.tx.any (fun e => e.2.kind == 1 && !e.2.repair && e.2.flow == r.flow)
      && (upTo t.frames).any (fun i => !t.repairOrigin r.repairFlow i) then [64 + 8 * j + 5]
  else []

/-- The REDUCE_IN entries that feed transmit entry `e`. -/
def SlotTable.inputs (t : SlotTable) (e : Nat) : Tab RxEnt :=
  t.rx.filter fun x => x.2.action == 3 && entryIdx x.1 == entryIdx e && x.2.outPort == entryPort e && x.2.outSlot == entrySlot e

/-- The FORWARD entries that take receive entry `e`. -/
def SlotTable.takers (t : SlotTable) (e : Nat) : Tab TxEnt :=
  t.tx.filter fun x => x.2.kind == 2 && entryIdx x.1 == entryIdx e && x.2.inPort == entryPort e && x.2.inSlot == entrySlot e

def txFaults (dies : Nat → Bool) (t : SlotTable) (base e w : Nat) : List Nat :=
  let x := txEnt w
  (rsvdWord w (0xF + 0x10 + 0x3F00 + 0x1FC000 + 0xFFFF000000)
    ++ (if x.kind > 4 ∨ (x.kind ≠ 0 ∧ !dies (entryPort e / 5)) then [0] else [])
    ++ (if x.kind ≠ 0 ∧ (t.flow? x.flow).isNone then [3] else [])
    ++ (if x.kind = 2 then
          match t.rxAt (entryIdx e) x.inPort x.inSlot with
          | some r => if r.action = 2 ∧ r.flow = x.flow ∧ r.repair = x.repair ∧ x.inSlot + 4 ≤ entrySlot e then [] else [1]
          | none => [1]
        else [])
    ++ (if x.kind = 3 ∧ (t.inputs e).length + b2n x.local' < 2 then [0] else [])).map fun o => base + 8 * e + o

def rxFaults (dies : Nat → Bool) (t : SlotTable) (base e w : Nat) : List Nat :=
  let x := rxEnt w
  (rsvdWord w (0xF + 0x3F00 + 0x1FC000 + 0xFFFFF000000)
    ++ (if x.action > 4 ∨ (x.action ≠ 0 ∧ !dies (entryPort e / 5)) then [0] else [])
    ++ (if x.action ≠ 0 ∧ (t.flow? x.flow).isNone then [3] else [])
    ++ (if x.action = 2 ∧ (t.takers e).length ≠ 1 then [0] else [])
    ++ (if x.action = 1 ∧ (t.flow? x.flow).any (fun (r : FlowRec) => r.unit == 15) then [0] else [])
    ++ (if x.action = 3 then
          (match t.txAt (entryIdx e) x.outPort x.outSlot with
            | some r => if r.kind = 3 ∧ r.flow = x.flow ∧ r.repair = x.repair ∧ entrySlot e + 4 ≤ x.outSlot then [] else [1]
            | none => [1])
            ++ (if (t.inputs (entryNo (entryIdx e) x.outPort x.outSlot)).any
                  (fun y => decide (y.1 < e) && y.2.order == x.order) then [5] else [])
        else [])).map fun o => base + 8 * e + o

/-- The first field at fault of an image's head. -/
def headFaults (img : List Byte) : List Nat :=
  (if u32 img 0 = 0 then [0] else []) ++ (if imgFrames img = 0 ∨ imgFrames img > 256 then [4] else [])
    ++ (if imgFlows img > 4096 then [6] else []) ++ (rsvdOff [bytesSpan 0 8] (img.take 64)).toList

/-- Every offset at fault (R345, R558). -/
def imageFaults (dies : Nat → Bool) (img : List Byte) : List Nat :=
  let h := headFaults img
  if !h.isEmpty then h
  else
    let t := imgTable img
    ((imgRecords img).map fun e => recordFaults t e.1 e.2 ++ repairFaults t e.1 (flowRec e.2)).flatten
      ++ ((imgTxWords img).map fun e => if e.2 = 0 then [] else txFaults dies t (imgTx img) e.1 e.2).flatten
      ++ ((imgRxWords img).map fun e => if e.2 = 0 then [] else rxFaults dies t (imgRx img) e.1 e.2).flatten

def leastOf (l : List Nat) : Option Nat := l.foldl (fun m x => match m with
  | none => some x
  | some y => some (min x y)) none

/-! ### Receive space (R346, Table 14-5) -/

def unitB : Nat → Nat
  | 0 => 2048 | 1 => 256 | 2 => 32768 | 3 => 8192 | 4 => 8192 | 5 => 1024 | _ => 2048
def unitD : Nat → Nat
  | 1 => 112 | 2 => 170 | _ => 280

/-- The DELIVER entries of a unit on a die, by frame index, in the order of R360. -/
def SlotTable.deliveries (t : SlotTable) (d u i : Nat) : List Nat :=
  let here (e : Nat × RxEnt) : Bool :=
    e.2.action == 1 && entryIdx e.1 == i && entryPort e.1 / 5 == d && (t.flow? e.2.flow).any fun (r : FlowRec) => r.unit == u
  let es : List Nat := (t.rx.filter here).map fun e => e.1
  ((upTo 112).map fun k => es.filter fun e => entrySlot e == k + 1).flatten

/-- Walk `n` frames from index `i`: the frame number and entry at which occupancy first passes the receive space. -/
def overflowAt (t : SlotTable) (d u : Nat) : Nat → Nat → Nat → Option (Nat × Nat)
  | 0, _, _ => none
  | n + 1, i, o =>
    let a := t.deliveries d u (i % t.frames)
    let o' := o + a.length - unitD u
    if o' > unitB u then some (i, a.getD (unitB u + unitD u - o) 0)
    else overflowAt t d u n (i + 1) o'

/-- The receive entry at which the excess first appears. -/
def SlotTable.excess (t : SlotTable) (dies : Nat → Bool) : Option Nat :=
  let xs := (((upTo 8).filter dies).map fun d => (upTo 7).filterMap fun u => overflowAt t d u (2 * t.frames) 0 0).flatten
  match leastOf (xs.map fun x => x.1) with
  | none => none
  | some i => leastOf ((xs.filter fun x => x.1 == i).map fun x => x.2)

/-! ### SLOT_TABLE_LOAD and SLOT_TABLE_SWITCH -/

def State.checkSlotTableLoad (s : State) (id : CmdId) (d : List Byte) : Verdict :=
  let uses := [useRaw (u32 d 32) 32 false]
  s.verdict id (bodyViols d [bytesSpan 32 4] ++ (uses.map (s.useViols id.ctx)).flatten
    ++ violIf s.fabric.pendingSwitch.isSome (viol .descFormat (u32 d 32) 32)) uses []

/-- Check an image and make it the standby table. -/
def State.loadTable (s : State) (id : CmdId) (h : Nat) (img : List Byte) : State :=
  let dies (d : Nat) : Bool := (s.die d).inService
  match leastOf (imageFaults dies img) with
  | some o => s.finish id (refusal .descFormat h o)
  | none =>
    let t := imgTable img
    match t.excess dies with
    | some e => s.finish id ⟨Status.slotAdmission.code, 0, detail4 0 (imgRx img + 8 * e) 0 0⟩
    | none => (s.setFabric fun f => { f with standby := some t }).finish id Status.ok.plain

def State.slotTableLoad (s : State) (c : Cmd) : State :=
  let id := c.id
  let h := u32 c.desc 32
  match s.tensRun id.ctx h with
  | none => s
  | some t =>
    let x := s.accOf id t
    if s.fabric.pendingSwitch.isSome then s.finish id (refusal .descFormat h 32)
    else if t.ext 0 < 64 then s.finish id (refusal .tensorRange h 32)
    else
      match s.readBytes x t.base 64 with
      | .error e => s.failAcc id e
      | .ok head =>
        let n := if (headFaults head).isEmpty then imgBytes head else 64
        if t.ext 0 < n then s.finish id (refusal .tensorRange h 32)
        else
          match s.readBytes x t.base n with
          | .error e => s.failAcc id e
          | .ok img => (s.moved id t 0 n 0).loadTable id h img

def execSlotTableLoad (id : CmdId) (s : State) : Host.Outcome State Fault Refusal :=
  .next (s.onCmd id (isOpcode 0x0072) fun c => s.slotTableLoad c)

def checkSlotTableSwitch (d : List Byte) : Verdict := Verdict.of (bodyViols d [bytesSpan 32 12]) []

/-- Schedule the standby table (R348). A command that meets a pending switch waits for it (log entry 40). -/
def State.slotTableSwitch (s : State) (c : Cmd) : State :=
  let at' := u64 c.desc 32
  if c.begun ∨ s.fabric.pendingSwitch.isSome then s
  else
    match s.fabric.standby with
    | none => s.finish c.id (formatViol 40).ending
    | some t =>
      if at' < s.frame + 24 then s.finish c.id (formatViol 32).ending
      else if t.id ≠ u32 c.desc 40 then s.finish c.id (formatViol 40).ending
      else (s.setFabric fun f => { f with pendingSwitch := some ⟨at', false, some c.id⟩ }).updCmd c.id fun x => { x with begun := true }

def execSlotTableSwitch (id : CmdId) (s : State) : Host.Outcome State Fault Refusal :=
  .next (s.onCmd id (isOpcode 0x0073) fun c => s.slotTableSwitch c)

/-! ### Ending sends -/

/-- Whether a command's own slots have left and their retention has ended. -/
def State.sendsDone (s : State) (id : CmdId) : Bool :=
  !(s.fabric.out.any fun m => m.id == some id) && !(s.fabric.retained.any fun r => r.id == some id)

def isCollective (d : List Byte) : Bool := isOpcode 0x0071 d
def cSrc (d : List Byte) : Nat := u32 d 32
def cDst (d : List Byte) : Nat := u32 d 36
def cErr (d : List Byte) : Nat := u32 d 40
def cHeader (d : List Byte) : Nat := u32 d 44
def cTx (d : List Byte) : Nat := u16 d 48
def cRx (d : List Byte) : Nat := u16 d 50
def cExpected (d : List Byte) : Nat := u16 d 52
def cZero (d : List Byte) : Bool := bitOf (u8 d 54) 0
def cUpdate (d : List Byte) : Bool := bitOf (u8 d 54) 1

/-- Blocks of 32 in a tensor's rows, and the result slots of a COLLECTIVE. -/
def Tens.gradBlocks (t : Tens) : Nat := t.rows * ceilDiv t.cols 32
def State.resultSlots (s : State) (c : Cmd) : Nat :=
  if cRx c.desc = 0xFFFF then 0 else (s.tensRun c.id.ctx (cDst c.desc)).elim 0 fun t => ceilDiv t.gradBlocks 15

/-- CURRENT of an error-term header flips and PENDING clears, or PENDING alone clears (R442). -/
def State.errSwap (s : State) (ctx h : Nat) (flip : Bool) : State :=
  match s.tensRun ctx h with
  | none => s
  | some t =>
    let x : Acc := ⟨ctx, none, (s.allocOf ctx t).partition⟩
    match s.readBytes x t.base 1 with
    | .error _ => s
    | .ok b =>
      let w := u8 b 0
      let w := if flip then w ^^^ 1 else w
      (s.writeBytes x t.base [BitVec.ofNat 8 (putBits w 1 1 0)]).1

/-- A send completes once its slots have left, their retention has ended and, for a COLLECTIVE, its result is whole. -/
def State.settleSend (s : State) (id : CmdId) : State :=
  match s.cmd? id with
  | none => s
  | some c =>
    if c.ending.isSome ∨ !c.begun ∨ !(0x0061 ≤ hOpcode c.desc ∧ hOpcode c.desc ≤ 0x0071) ∨ !s.sendsDone id then s
    else if isCollective c.desc then
      if c.rx.seqs.length < s.resultSlots c then s
      else
        let s := s.finish id Status.ok.plain
        if cUpdate c.desc ∨ cErr c.desc = noHandle ∨ cZero c.desc ∨ cTx c.desc = 0xFFFF then s else s.errSwap id.ctx (cErr c.desc) true
    else match c.run.stop with
      | some e => s.finish id e
      | none => if isOpcode 0x0070 c.desc then s.finish id Status.ok.plain else s

def State.settleSends (s : State) : State := s.cmds.foldl (fun t c => t.settleSend c.id) s

/-- Drop every slot a command has still to send, and end it. -/
def State.stopSend (s : State) (id : CmdId) (e : Ending) : State :=
  (s.setFabric fun f => { f with out := f.out.filter fun m => m.id != some id }).finish id e

/-! ### Switching (R348–R351) -/

/-- Whether a slot of a message has departed. -/
def OutMsg.begun (m : OutMsg) : Bool := m.next != 0 || !m.ahead.isEmpty

/-- Whether slot `k` of a message has departed. -/
def OutMsg.gone (m : OutMsg) (k : Nat) : Bool := decide (k < m.next) || m.ahead.contains k

/-- Whether a planned switch holds departures back in the present frame (R349). -/
def State.cutOff (s : State) : Bool := s.fabric.pendingSwitch.any fun q => !q.failover && decide (q.frame ≤ s.frame + 22)

/-- Unfinished messages whose flow does not keep its epoch in `t` end with SLOT_ADMISSION; with `begun`, only those under way. -/
def State.dropStale (s : State) (t : SlotTable) (begun : Bool) : State :=
  s.fabric.out.foldl (fun u m =>
    if m.be.isSome ∨ (begun ∧ !m.begun) then u
    else
      let keeps := match t.flow? m.flow with
        | some r => !m.begun || r.epoch = m.epoch
        | none => false
      match m.id with
      | some id => if keeps then u else u.stopSend id Status.slotAdmission.plain
      | none => if keeps then u else u.setFabric fun f => { f with out := f.out.filter fun x => x != m }) s

def execDepartureCutoff (s : State) : Host.Outcome State Fault Refusal :=
  .next (match s.fabric.standby with
    | some t => if s.cutOff then s.dropStale t true else s
    | none => s)

/-- The standby table becomes active. -/
def State.switchNow (s : State) (q : PendingSwitch) (t : SlotTable) : State :=
  let s := s.setFabric fun f =>
    { f with active := some t, standby := none, retired := f.active, retiredFrame := f.switchFrame, switchFrame := q.frame,
             pendingSwitch := none, lastFailover := q.failover,
             out := f.out.map fun m => if !m.begun ∧ m.be.isNone then { m with epoch := (t.flow? m.flow).elim m.epoch (·.epoch) } else m }
  let s := (s.dropStale t false).logTrace 0 0x0601 t.id q.frame
  match q.by' with
  | some id => s.finish id (okAux (q.frame % 2 ^ 32))
  | none => s

def State.tableSwitch (s : State) (failover : Bool) : State :=
  match s.fabric.pendingSwitch, s.fabric.standby with
  | some q, some t => if q.failover = failover ∧ q.frame ≤ s.frame then s.switchNow q t else s
  | _, _ => s

def execTableSwitch (s : State) : Host.Outcome State Fault Refusal := .next (s.tableSwitch false)

/-- FAILOVER_SWITCH: no drain; every incomplete FABRIC_SEND and COLLECTIVE ends with FLOW_LOST (R351). -/
def execFailoverSwitch (s : State) : Host.Outcome State Fault Refusal :=
  let due := s.fabric.pendingSwitch.any fun q => q.failover && decide (q.frame ≤ s.frame)
  .next (if due ∧ s.fabric.standby.isSome then
      (s.cmds.foldl (fun t c =>
        if c.ending.isNone ∧ (isOpcode 0x0070 c.desc ∨ isOpcode 0x0071 c.desc) then t.stopSend c.id Status.flowLost.plain else t)
        s).tableSwitch true
    else s)

def execRetiredTableDiscard (s : State) : Host.Outcome State Fault Refusal :=
  .next (if s.fabric.retired.isSome ∧ s.fabric.switchFrame + 22 ≤ s.frame then
      s.setFabric fun f => { f with retired := none }
    else s)

/-- RETENTION_END: copies older than 2h + 3 frames go (R370); one asked for stays through the last frame of its resend. -/
def execRetentionEnd (s : State) : Host.Outcome State Fault Refusal :=
  let late (r : Retained) : Bool :=
    decide (r.frame + 2 * r.hops + 3 < s.frame) || (r.frame + 2 * r.hops + 3 == s.frame && !r.requested)
  .next (s.setFabric fun f => { f with retained := f.retained.filter fun r => !late r }).settleSends

/-- The table in force in a frame, and its index there. -/
def State.tableIn (s : State) (frame : Nat) : Option (SlotTable × Nat) :=
  let f := s.fabric
  if f.switchFrame ≤ frame then f.active.map fun t => (t, (frame - f.switchFrame) % max 1 t.frames)
  else if f.retiredFrame ≤ frame then f.retired.map fun t => (t, (frame - f.retiredFrame) % max 1 t.frames)
  else none

/-! ### Admission (R366) -/

def State.activeFlow (s : State) (f : Nat) : Option FlowRec := s.fabric.active.elim none fun t => t.flow? f

/-- An entry outside repair routes in which this module sends a flow as an origin: ORIGIN, or the local contribution of a
REDUCE entry. -/
def TxEnt.originates (x : TxEnt) (f : Nat) : Bool := x.flow == f && !x.repair && (x.kind == 1 || (x.kind == 3 && x.local'))
def SlotTable.hasOrigin (t : SlotTable) (f : Nat) : Bool := t.tx.any fun e => e.2.originates f

/-- Whether a flow admits a context. -/
def State.flowAdmits (s : State) (ctx f : Nat) : Bool := (s.activeFlow f).any fun r => r.ctx == ctx
/-- Whether a reserved send on a flow is admitted. -/
def State.reservedAdmits (s : State) (ctx f : Nat) : Bool :=
  s.time.locked && s.flowAdmits ctx f && s.fabric.active.any fun t => t.hasOrigin f

def admissionViol : Viol := ⟨.slotAdmission, 0, 0, 0, 4, 0⟩

/-! ### Messages -/

/-- MSG_FLAGS of the slot at `k` of `n`. -/
def firstLast (k n : Nat) : Nat := b2n (k == 0) + 2 * b2n (k + 1 == n)

/-- A message of payloads, with flags of their own beside FIRST and LAST. -/
def flagged (ps : List (Nat × List Byte)) : List (Nat × List Byte) :=
  (upTo ps.length).map fun k =>
    let p := ps.getD k (0, [])
    (p.1 + firstLast k ps.length, padTo 512 p.2)

def State.enqueue (s : State) (id : CmdId) (flow type : Nat) (be : Option Nat) (window : Option (Nat × Nat)) (batch : Option BatchKey)
    (ps : List (Nat × List Byte)) : State :=
  let m : OutMsg := { id := some id, ctx := id.ctx, flow, epoch := (s.activeFlow flow).elim 0 (·.epoch), type, slots := flagged ps,
                      next := 0, ahead := [], sentFrame := 0, be, window, batch }
  if ps.isEmpty then s else s.setFabric fun f => { f with out := f.out ++ [m] }

/-- The flow on which a FABRIC_SEND or COLLECTIVE sends in reserved slots. -/
def sendFlow (d : List Byte) : Option Nat :=
  if isOpcode 0x0070 d then (if bitOf (u8 d 39) 0 then none else some (u16 d 36))
  else if isOpcode 0x0071 d then (if cTx d = 0xFFFF then none else some (cTx d))
  else none

/-- A command issued earlier on the same flow has yet to place its message (R367). -/
def State.sendsBefore (s : State) (c : Cmd) : Bool :=
  (sendFlow c.desc).isSome && (s.cmds.takeWhile fun x => x.id != c.id).any fun x =>
    sendFlow x.desc == sendFlow c.desc && x.ending.isNone && !x.begun

/-- A SIGNAL payload of one entry (R358). -/
def signalPayload (ref add : Nat) : List Byte := record 512 [(0, 1, 1), (16, 4, ref), (20, 4, add)]

/-- The payloads of a WRITE or ATOMIC_ADD (R357). -/
def writePayloads (dest fmt : Nat) : Nat → List Byte → List (List Byte)
  | 0, _ => []
  | n + 1, bs =>
    (record 16 [(0, 8, dest), (8, 2, min 496 bs.length), (10, 1, fmt)] ++ bs.take 496) :: writePayloads (dest + 496) fmt n (bs.drop 496)

/-! ### FABRIC_SEND (R364) -/

def fsFlow (d : List Byte) : Nat := u16 d 36
def fsType (d : List Byte) : Nat := u8 d 38
def fsBe (d : List Byte) : Option Nat := if bitOf (u8 d 39) 0 then some (bitsOf (u8 d 39) 6 1) else none
def fsLength (d : List Byte) : Nat := u64 d 56
def fsSignal (d : List Byte) : Bool := refEnabled (u32 d 64)

def fsUses (d : List Byte) : List HUse := if fsType d = 3 then [] else [useRaw (u32 d 32) 32 false]

def State.checkFabricSend (s : State) (id : CmdId) (d : List Byte) : Verdict :=
  let ty := fsType d
  let len := fsLength d
  let reach := (if ty = 3 then none else s.tens? id.ctx (u32 d 32)).elim [] fun t =>
    violIf (u64 d 48 + len > t.ext 0) (viol .tensorRange (u32 d 32) 48)
  let admitted := s.flowAdmits id.ctx (fsFlow d) && ceilDiv len 496 ≤ 65536
    && match fsBe d with
      | some p => s.portUp p
      | none => s.reservedAdmits id.ctx (fsFlow d)
  s.verdict id (bodyViols d [bytesSpan 32 7, ⟨39, 6, 0⟩, bytesSpan 40 24, ⟨64, 20, 0⟩, bytesSpan 68 4, ⟨72, 3, 0⟩]
    ++ violIf (ty == 0 || ty > 3) (formatViol 38) ++ violIf ((fsBe d).any fun p => p > 39) (restViol 39)
    ++ (if ty = 3 then violIf (u32 d 32 != noHandle) (restViol 32) ++ violIf (len != 0) (restViol 56) else [])
    ++ violIf (fsSignal d && u32 d 68 ≥ 2 ^ 31) (formatViol 68)
    ++ violIf (u8 d 72 != 0 && !(ty == 2 && u8 d 72 == 0x0B)) (restViol 72)
    ++ ((fsUses d).map (s.useViols id.ctx)).flatten ++ reach ++ violIf (!admitted) admissionViol) (fsUses d) []

/-- Place the messages of a FABRIC_SEND at the source. -/
def State.fabricSend (s : State) (c : Cmd) : State :=
  let id := c.id
  let d := c.desc
  let put (s : State) (ty : Nat) (ps : List (List Byte)) : State := s.enqueue id (fsFlow d) ty (fsBe d) none none (ps.map fun p => (0, p))
  let signal (s : State) : State := if fsSignal d then put s 3 [signalPayload (u32 d 64) (u32 d 68)] else s
  let start (s : State) : State := (s.updCmd id fun x => { x with begun := true }).settleSend id
  if c.begun ∨ s.sendsBefore c then s
  else if fsType d = 3 then start (signal s)
  else
    match s.tensRun id.ctx (u32 d 32) with
    | none => s
    | some t =>
      match s.readBytes (s.accOf id t) (t.base + u64 d 48) (fsLength d) with
      | .error .wait => s
      | .error e => s.failAcc id e
      | .ok bs =>
        let s := s.moved id t (u64 d 48) bs.length 0
        start (signal (put s (fsType d) (writePayloads (u64 d 40) (u8 d 72) (ceilDiv bs.length 496) bs)))

def execFabricSend (id : CmdId) (s : State) : Host.Outcome State Fault Refusal :=
  .next (s.onCmd id (isOpcode 0x0070) fun c => s.fabricSend c)

/-! ### COLLECTIVE (R361, R365) -/

/-- One MXFP8 block on its way: element bytes and scale. -/
abbrev GBlock := List Byte × Nat

/-- The payload of a REDUCE or UPDATE data slot (R361). -/
def gradPayload (bs : List GBlock) (contributors : Nat) (nonfinite : Bool) : List Byte :=
  padTo 480 (bs.map fun b => padTo 32 b.1).flatten ++ padTo 16 (bs.map fun b => BitVec.ofNat 8 b.2)
    ++ leBytes 2 contributors ++ leBytes 1 (b2n nonfinite)

/-- Data slots of a contribution: 15 blocks each; CONTRIBUTORS 1. -/
def gradSlots (bs : List GBlock) : List (Nat × List Byte) :=
  (chunks 15 (bs.length / 15 + 1) bs).map fun g => (0, gradPayload g 1 (g.any fun b => b.2 == 255))

/-- Slots of the zero-block marker (R173): they count as a contribution. -/
def zeroSlots (n : Nat) : List (Nat × List Byte) := (upTo n).map fun _ => (8, gradPayload [] 1 false)

/-- Place of error-term buffer `k` of `e` terms (R442). -/
def errBuffer (k e : Nat) : Nat := 4096 + k * 4096 * ceilDiv e 4096

/-- A stored error term with the exponent of the spacing it is expressed in. -/
abbrev ErrTerm := Int × Option Int

/-- The value of a stored error term (R64): its unit is that of the quantisation that stored it. Where no quantisation stored
it, or that quantisation had no spacing, the power of two is a free value (log entry 41). -/
def errValue (t : ErrTerm) (k : Nat) : FVal :=
  if t.1 = 0 then .zero
  else errorValue t.1 (.pow2 (t.2.getD (Int.ofNat (Config.freeValue k % 269) - 136)))

/-- Quantise a block of a row under error terms (R64): the block, and the new terms with their units. A non-finite block's
terms are free. DESIGN CHOICE (log entry 157): `x + e_prev` is rounded once, to FP32, before it is quantised, and the residual
is taken from that sum. -/
def quantise (xs : List FVal) (es : List ErrTerm) (k : Nat) : GBlock × List ErrTerm :=
  let ys := (upTo xs.length).map fun i => add32 (xs.getD i .zero) (errValue (es.getD i (0, none)) (k + i))
  let (bs, e, _) := encodeMX .mxfp8 (fun _ => .rne) ys
  let qs := decodeMX .mxfp8 bs e
  ((bs, e), (upTo xs.length).map fun i =>
    if e = 255 then (Int.ofNat (Config.freeValue (k + i) % 255) - 127, none)
    else
      let u := errorExp (mxCodeAt .mxfp8 bs i) (Int.ofNat e - 127)
      (errorTerm ((ys.getD i .zero).sub (qs.getD i .zero)) (.pow2 u), some u))

/-- Quantise every block, drawing free values in order. -/
def quantiseAll (k0 : Nat) : List (List FVal) → List ErrTerm → List GBlock × List ErrTerm
  | [], _ => ([], [])
  | xs :: t, es =>
    let q := quantise xs (es.take xs.length) k0
    let r := quantiseAll (k0 + xs.length) t (es.drop xs.length)
    (q.1 :: r.1, q.2 ++ r.2)

/-- The spacings recorded for the error-term buffer at an address. -/
def State.errUnitsAt (s : State) (ctx addr : Nat) : List (Option Int) :=
  ((s.step.errUnits.find? fun u => u.ctx == ctx && u.addr == addr).map (·.units)).getD []

/-- Record the spacings of the terms just stored in the buffer at an address. -/
def State.setErrUnits (s : State) (ctx addr : Nat) (us : List (Option Int)) : State :=
  s.setSteps fun y => { y with errUnits := ⟨ctx, addr, us⟩ :: y.errUnits.filter fun u => !(u.ctx == ctx && u.addr == addr) }

/-- The blocks of a tensor's rows as FP32 values. -/
def blocksOf (rows : List (List FVal)) : List (List FVal) := (rows.map fun r => chunks 32 (r.length / 32 + 1) r).flatten

/-- The stored blocks of an MXFP8 tensor, sent as they are. -/
def State.storedBlocks (s : State) (x : Acc) (t : Tens) : Except AccErr (List GBlock) :=
  let one (r b : Nat) : Except AccErr GBlock :=
    let cs := t.outer r
    if !t.outerIn cs ∨ 32 * b ≥ t.ext 0 then .ok (((encodeMX .mxfp8 (fun _ => .rne) (List.replicate 32 t.padVal)).1, (encodeMX .mxfp8 (fun _ => .rne) (List.replicate 32 t.padVal)).2.1))
    else
      match s.readBytes x (t.blockAddr 0 cs b) 32, s.readByte x (t.scaleAddr 0 cs b) with
      | .ok bs, .ok e => .ok (bs, e.toNat)
      | .error e, _ => .error e
      | _, .error e => .error e
  let nc := ceilDiv t.cols 32
  mapE (fun k => one (k / nc) (k % nc)) (upTo (t.rows * nc))

/-- Bytes of the bucket header's COUNT, in data slots. -/
def headerSlots (h : List Byte) : Nat := ceilDiv (u64 h 16) 480

def cUses (d : List Byte) : List HUse :=
  (if cZero d ∨ cTx d = 0xFFFF then [] else [useIn (cSrc d) 32])
    ++ (if cRx d = 0xFFFF then [] else [useOut (cDst d) 36])
    ++ [⟨cErr d, 40, true, true, true, true⟩]
    ++ (if cUpdate d then [useRaw (cHeader d) 44 false] else [])

/-- An error-term header as a COLLECTIVE finds it, and the breaches in it (R22, R442). -/
def State.errHead (s : State) (id : CmdId) (t : Tens) : Except AccErr (List Byte) :=
  s.readBytes (s.accOf id t) t.base 64

def errHeadSpans : List Span := [⟨0, 1, 0⟩, bytesSpan 4 16]

/-- Whether a COLLECTIVE with UPDATE waits at issue: a swap is pending, or 1,024 are (R442). -/
def State.collectiveWaits (s : State) (id : CmdId) (d : List Byte) : Bool :=
  isCollective d && cUpdate d && cErr d != noHandle && (decide (1024 ≤ s.step.swaps.length) ||
    match s.tensRun id.ctx (cErr d) with
    | some t => match s.errHead id t with
      | .ok h => bitOf (u8 h 0) 1
      | .error _ => false
    | none => false)

def State.checkCollective (s : State) (id : CmdId) (d : List Byte) : Verdict :=
  let on (h off : Nat) (p : Tens → Bool) : List Viol := (s.tens? id.ctx h).elim [] fun t => violIf (p t) (viol .descFormat h off)
  let sends := cTx d != 0xFFFF
  let src := if cZero d ∨ !sends then none else s.tens? id.ctx (cSrc d)
  let errs := if cErr d = noHandle then [] else
    (s.tens? id.ctx (cErr d)).elim [] fun t =>
      violIf (src.any fun x => t.ext 0 < errBuffer 2 x.elems) (viol .tensorRange (cErr d) 40)
        ++ (match s.errHead id t with
          | .ok h => (rsvdOff errHeadSpans h).elim [] fun o => [(viol .descFormat (cErr d) o).inRec 1]
          | .error _ => [])
  let big := src.any fun x => ceilDiv x.gradBlocks 15 + b2n (cUpdate d) > 65536
  let admitted := (!sends || s.reservedAdmits id.ctx (cTx d)) && (cRx d == 0xFFFF || s.flowAdmits id.ctx (cRx d))
  s.verdict id (bodyViols d [bytesSpan 32 22, ⟨54, 1, 0⟩]
    ++ violIf (cZero d && cSrc d != noHandle) (restViol 32)
    ++ violIf (cRx d == 0xFFFF && cDst d != noHandle) (restViol 36)
    ++ violIf (!cUpdate d && cHeader d != noHandle) (restViol 44)
    ++ ((cUses d).map (s.useViols id.ctx)).flatten
    ++ (if src.isSome then on (cSrc d) 32 (fun t => t.sparseN != 0 || t.fmt.isInt || (cErr d == noHandle && t.fmt != .mxfp8)) else [])
    ++ (if cRx d = 0xFFFF then [] else on (cDst d) 36 fun t => t.fmt != .mxfp8 || t.sparseN != 0)
    ++ (if cUpdate d then on (cHeader d) 44 fun t => t.ext 0 < 512 else [])
    ++ errs ++ violIf (big || !admitted) admissionViol) (cUses d) []

/-- Write the new error terms and, under UPDATE, mark the pending swap (R442). -/
def State.storeTerms (s : State) (id : CmdId) (e : Tens) (cur elems : Nat) (terms : List ErrTerm) (upd : Option Nat) : State × Option AccErr :=
  let x := s.accOf id e
  let at' := e.base + errBuffer (1 - cur) elems
  let w0 := s.writeBytes x at' (terms.map fun t => BitVec.ofInt 8 t.1)
  let w := if w0.2.isSome then w0 else (w0.1.setErrUnits id.ctx at' (terms.map (·.2)), none)
  match upd, w.2 with
  | some step, none =>
    let r := w.1.readBytes x e.base 1
    let b := match r with
      | .ok b => u8 b 0
      | .error _ => 0
    let v := (w.1.writeBytes x e.base [BitVec.ofNat 8 (putBits b 1 1 1)])
    let v2 := v.1.writeBytes x (e.base + 4) (leBytes 4 step)
    (v2.1.setSteps fun y => { y with swaps := y.swaps ++ [⟨step, id.ctx, e.handle, elems⟩] }, if v.2.isSome then v.2 else v2.2)
  | _, _ => w

/-- The contribution of a COLLECTIVE as blocks, with the state after its error terms are stored. -/
def State.contribution (s : State) (c : Cmd) (src : Tens) (step : Option Nat) : Except AccErr (List GBlock × State) :=
  let id := c.id
  match (if cErr c.desc = noHandle then none else s.tensRun id.ctx (cErr c.desc)) with
  | none =>
    match s.storedBlocks (s.accOf id src) src with
    | .error e => .error e
    | .ok bs => .ok (bs, s)
  | some e =>
    match s.readAll (s.accOf id src) .fp32 src (s.readScale id src) 0, s.errHead id e with
    | .ok rows, .ok h =>
      let cur := b2n (bitOf (u8 h 0) 0)
      match s.readBytes (s.accOf id e) (e.base + errBuffer cur src.elems) src.elems with
      | .error x => .error x
      | .ok ts =>
        let us := s.errUnitsAt id.ctx (e.base + errBuffer cur src.elems)
        let q := quantiseAll s.freeCount (blocksOf rows) ((upTo ts.length).map fun i => ((ts.getD i 0).toInt, us.getD i none))
        let r := ({ s with freeCount := s.freeCount + src.elems }).storeTerms id e cur src.elems q.2 step
        match r.2 with
        | some x => .error x
        | none => .ok (q.1, r.1)
    | .error x, _ => .error x
    | _, .error x => .error x

/-- Place the contribution of a COLLECTIVE at the source. -/
def State.collective (s : State) (c : Cmd) : State :=
  let id := c.id
  let d := c.desc
  let start (s : State) : State := (s.updCmd id fun x => { x with begun := true }).settleSend id
  if c.begun ∨ s.sendsBefore c ∨ s.collectiveWaits id d then s
  else if cTx d = 0xFFFF then start s
  else
    let head : Except AccErr (List Byte) :=
      match (if cUpdate d then s.tensRun id.ctx (cHeader d) else none) with
      | none => .ok []
      | some t => s.readBytes (s.accOf id t) t.base 512
    match head with
    | .error .wait => s
    | .error e => s.failAcc id e
    | .ok h =>
      let ty := if cUpdate d then 5 else 4
      let lead := if cUpdate d then [(0, h)] else []
      let put (s : State) (ps : List (Nat × List Byte)) : State :=
        if (lead ++ ps).length > 65536 then s.finish id Status.slotAdmission.plain
        else start (s.enqueue id (cTx d) ty none none none (lead ++ ps))
      if cZero d then
        put s (zeroSlots (if cUpdate d then headerSlots h else max 1 (s.resultSlots c)))
      else
        match s.tensRun id.ctx (cSrc d) with
        | none => s
        | some src =>
          match s.contribution c src (if cUpdate d then some (u32 h 4) else none) with
          | .error .wait => s
          | .error e => s.failAcc id e
          | .ok (bs, t) => put (t.moved id src 0 (src.rowReadBytes * src.rows) 0) (gradSlots bs)

def execCollective (id : CmdId) (s : State) : Host.Outcome State Fault Refusal :=
  .next (s.onCmd id isCollective fun c => s.collective c)

/-! ### Error-term swaps at a decision (R442) -/

/-- Terms a change map names as removed or added, zeroed in the buffer that has become current. -/
def State.zeroTerms (s : State) (x : Acc) (base buf n : Nat) (map : List Byte) : State :=
  (upTo n).foldl (fun t i =>
    let g := i / 8
    if bitOf (u8 map (2 * g)) (i % 8) ∨ bitOf (u8 map (2 * g + 1)) (i % 8) then (t.writeBytes x (base + buf + i) [0]).1 else t) s

/-- The swap of one error-term descriptor. -/
def State.swapTerms (s : State) (w : Swap) (commit : Bool) : State :=
  match s.tensRun w.ctx w.handle with
  | none => s
  | some t =>
    let x : Acc := ⟨w.ctx, none, (s.allocOf w.ctx t).partition⟩
    let s1 := s.errSwap w.ctx w.handle commit
    match commit, s1.readBytes x t.base 64 with
    | true, .ok h =>
      let addr := u64 h 8
      let gen := u16 h 16
      if addr = 0 ∨ gen = u16 h 18 then s1
      else
        let n := w.terms
        match s1.addrJudge w.ctx addr (2 * ceilDiv n 8) true false with
        | .error _ => s1
        | .ok y =>
          match s1.readBytes y addr (2 * ceilDiv n 8) with
          | .error _ => s1
          | .ok map => ((s1.zeroTerms x t.base (errBuffer (b2n (bitOf (u8 h 0) 0)) n) n map).writeBytes x (t.base + 18) (leBytes 2 gen)).1
    | _, _ => s1

/-- The swaps of step `t`, at its decision. -/
def State.swapAll (s : State) (t : Nat) (commit : Bool) : State :=
  ((s.step.swaps.filter fun w => w.step == t).foldl (fun u w => u.swapTerms w commit) s).setSteps fun x =>
    { x with swaps := x.swaps.filter fun w => w.step != t }

end Sys2Proof.Machine
end

