-- ==== Sys2Proof/Machine/Updater.lean ====
section
/-!
DEFINITION. Machine/Updater.lean: parameter groups and GROUP_SET (R400–R405), the update pipeline (R406–R418), journalling
of differences (R419, R437, R438), staging (R422, R423) and the counters at a decision (R421).
-/
namespace Sys2Proof.Machine

/-! ### The group record (Table 16-2) -/

structure GRec where
  rule : Nat
  bf16 : Bool
  skipIdle : Bool
  advance : Bool
  normSkip : Bool
  passive : Bool
  ctx : Nat
  tensorId : Nat
  elements : Nat
  param : Nat
  m : Nat
  v : Nat
  freeze : Nat
  sched : Nat
  precond : Nat
  stats : Nat
  rows : Nat
  cols : Nat
  beta1 : FVal
  beta2 : FVal
  eps : FVal
  limit : FVal
  interval : Nat
  offset : Nat
  deriving DecidableEq, Repr

def gRec (r : List Byte) : GRec :=
  let w := u8 r 0
  { rule := bitsOf w 1 0, bf16 := bitOf w 2, skipIdle := bitOf w 3, advance := bitOf w 4, normSkip := bitOf w 5,
    passive := bitOf w 6, ctx := bitsOf (u8 r 1) 5 0, tensorId := u32 r 4, elements := u64 r 8, param := u64 r 16, m := u64 r 24,
    v := u64 r 32, freeze := u64 r 40, sched := u64 r 48, precond := u64 r 56, stats := u64 r 64, rows := u32 r 72,
    cols := u32 r 76, beta1 := ofBits32 (u32 r 80), beta2 := ofBits32 (u32 r 84), eps := ofBits32 (u32 r 88),
    limit := ofBits32 (u32 r 92), interval := u32 r 96, offset := u64 r 104 }

def GRec.isPre (g : GRec) : Bool := g.rule == 3
def GRec.hasV (g : GRec) : Bool := g.rule == 1 || g.rule == 3

/-- Written planes: number, address, bytes of an element, and the record field that gives the address. -/
def GRec.planes (g : GRec) : List (Nat × Nat × Nat × Nat) :=
  [(0, g.param, if g.bf16 then 2 else 4, 16), (1, g.m, 4, 24)]
    ++ (if g.hasV then [(2, g.v, 4, 32)] else []) ++ (if g.isPre then [(3, g.stats, 8, 64)] else [])

/-- Read-only planes: address, bytes and field. -/
def GRec.readOnly (g : GRec) : List (Nat × Nat × Nat) :=
  (if g.freeze = 0 then [] else [(g.freeze, ceilDiv g.elements 8, 40)]) ++ [(g.sched, 272, 48)]
    ++ (if g.isPre then [(g.precond, 2 * (g.elements / 4096 * 16384), 56)] else [])

/-- Tier of an address: 0 HBM4, 1 GDDR7, 2 neither. -/
def tierOf (l : Layout) (a : Nat) : Nat :=
  match placeOf l a with
  | .hbm _ _ => 0
  | .gddr _ _ => 1
  | _ => 2

/-! ### Schedules (R411, R412) -/

/-- A segment: START, SHAPE, V0, V1. -/
structure Seg where
  start : Nat
  shape : Nat
  v0 : FVal
  v1 : FVal
  deriving DecidableEq, Repr

/-- The used segments of a curve. -/
def curve (c : List Byte) : List Seg :=
  ((upTo 8).map fun k => (⟨u32 c (16 * k), u8 c (16 * k + 4), ofBits32 (u32 c (16 * k + 8)), ofBits32 (u32 c (16 * k + 12))⟩ : Seg)).takeWhile
    fun g => g.shape != 0

def ascending : List Nat → Bool
  | a :: b :: t => decide (a < b) && ascending (b :: t)
  | _ => true

def curveBad (c : List Byte) : Bool :=
  let segs := curve c
  segs.isEmpty || (segs.head?).any (fun g => g.start != 0) || !ascending (segs.map fun g => g.start)
    || (upTo 8).any fun k => u8 c (16 * k + 4) > 4 || (u64 c (16 * k) >>> 40) != 0

def scheduleBad (e : List Byte) (pre : Bool) : Bool :=
  curveBad (sliceB e 16 128) || curveBad (sliceB e 144 128) || fieldN e 10 6 != 0 || (pre && u64 e 0 != 0)

/-- The value of a curve at position `p`. -/
def curveAt (segs : List Seg) (p : Nat) : FVal :=
  match (segs.filter fun g => g.start ≤ p).getLast? with
  | none => .zero
  | some g =>
    let next := ((segs.map fun x => x.start).find? fun x => g.start < x).getD (2 ^ 32)
    let u := toF32 (.ofNat (p - g.start))
    let l := toF32 (.ofNat (next - g.start))
    match g.shape with
    | 2 => add32 g.v0 (mul32 (sub32 g.v1 g.v0) (mul32 u (recipSF l)))
    | 3 => mul32 g.v0 (expSF (mul32 g.v1 u).neg)
    | 4 => mul32 g.v0 (rsqrtSF (add32 .one (mul32 g.v1 u)))
    | _ => g.v0

/-! ### Groups -/

def State.ugroup (s : State) (d g : Nat) : Option UGroup := (s.updDieOf d).groups.get? g
def State.updGroup (s : State) (d g : Nat) (f : UGroup → UGroup) : State :=
  s.updUpd d fun u => match u.groups.get? g with
    | some x => { u with groups := u.groups.set g (f x) }
    | none => u

def UGroup.step? (g : UGroup) (t : Nat) : Option UStep := g.steps.find? fun x => x.step == t
def UGroup.updStep (g : UGroup) (t : Nat) (f : UStep → UStep) : UGroup :=
  if g.steps.any fun x => x.step == t then { g with steps := g.steps.map fun x => if x.step = t then f x else x }
  else { g with steps := g.steps ++ [f (UStep.init t)] }
def State.updUStep (s : State) (d g t : Nat) (f : UStep → UStep) : State := s.updGroup d g fun x => x.updStep t f

/-- Raise a reason of the updater, on its group too (Table 16-8). -/
def State.updRaise (s : State) (d g t bit : Nat) : State :=
  (s.updUStep d g t fun x => { x with reasons := x.reasons ||| 2 ^ bit }).raise t bit

/-- Access of the updater to state of a group's context (R420). -/
def State.groupAcc (s : State) (ctx a n : Nat) : Acc := s.accAt ctx a n

/-- The group's undecided steps before `t` (R409). -/
def State.undecidedBefore (s : State) (t : Nat) : Nat := (t + 2 ^ 32 - s.step.oldest) % 2 ^ 32

/-! ### Blocks and regions (R446, R447) -/

/-- Elements in one 4 KiB block of a plane, and the plane's address. -/
def GRec.planeOf (g : GRec) (plane : Nat) : Nat × Nat :=
  match g.planes.find? fun p => p.1 == plane with
  | some p => (p.2.1, 4096 / p.2.2.1)
  | none => (0, 4096)

/-- Blocks of a plane that elements `[lo, hi)` touch. -/
def blocksTouched (per lo hi : Nat) : List Nat := (upTo ((hi - 1) / per + 1 - lo / per)).map fun k => lo / per + k

/-- Number of a block within the whole parameter tensor (R446). -/
def GRec.blockNo (g : GRec) (plane j : Nat) : Nat :=
  let per := (g.planeOf plane).2
  g.offset / per + j

/-- The number of a region among the digests of Tally (R447). -/
def regionKey (tensorId plane region : Nat) : Nat := (tensorId * 4 + plane) * 2 ^ 30 + region

/-- Blocks a group holds of a plane: first BLOCK, count and address of the first. -/
def GRec.blocksOf (g : GRec) (plane : Nat) : Option (Nat × Nat × Nat) :=
  (g.planes.find? fun p => p.1 == plane).map fun p => (g.blockNo plane 0, ceilDiv (g.elements * p.2.2.1) 4096, p.2.1)

/-- Every region of the groups of a die: TENSOR_ID, plane and region. -/
def State.regionsOf (s : State) (d : Nat) : List (Nat × Nat × Nat) :=
  ((s.updDieOf d).groups.vals.map fun x =>
    let g := gRec x.record
    (g.planes.map fun p => match g.blocksOf p.1 with
      | none => []
      | some (b0, n, _) => (blocksTouched 256 b0 (b0 + n)).map fun r => (g.tensorId, p.1, r)).flatten).flatten

/-- Tally keeps digests for the planes of defined groups only (R447). -/
def State.dropDigests (s : State) (d : Nat) : State :=
  let keys := (s.regionsOf d).map fun k => regionKey k.1 k.2.1 k.2.2
  s.updUpd d fun u => { u with digests := u.digests.filter fun e => keys.contains e.1 }

/-! ### GROUP_SET (R401–R405) -/

def gsGroup (d : List Byte) : Nat := bitsOf (u16 d 32) 11 0
def gsOp (d : List Byte) : Nat := bitsOf (u8 d 34) 2 0
def gsDie (d : List Byte) : Nat := bitsOf (u8 d 34) 5 3
def gsZero (d : List Byte) : Bool := bitOf (u8 d 34) 6

def recordSpansG : List Span := [⟨0, 6, 0⟩, ⟨1, 5, 0⟩, bytesSpan 4 96, bytesSpan 104 8]

/-- Offsets of a group record's fields that DESC_FORMAT refuses (R402). -/
def groupFaults (l : Layout) (r : List Byte) : List Nat :=
  let g := gRec r
  let beta (b : FVal) : Bool := (b.isZero || (b.isFinite && !b.isNeg)) && b.lt .one
  let t0 := tierOf l g.param
  let nz (c : Bool) (off n : Nat) : List Nat := if c ∧ fieldN r off n ≠ 0 then [off] else []
  (rsvdOff recordSpansG r).toList
    ++ (if g.elements = 0 ∨ g.elements > 2 ^ 34 then [8] else [])
    ++ nz (!g.hasV) 32 8 ++ nz (!g.isPre) 56 8 ++ nz (!g.isPre) 64 8 ++ nz (!g.isPre) 72 4 ++ nz (!g.isPre) 76 4
    ++ (if g.isPre then
          (if g.rows = 0 ∨ g.rows % 64 ≠ 0 then [72] else []) ++ (if g.cols = 0 ∨ g.cols % 64 ≠ 0 then [76] else [])
            ++ (if g.rows * g.cols ≠ g.elements then [8] else [])
        else [])
    ++ (if beta g.beta1 then [] else [80]) ++ (if beta g.beta2 then [] else [84]) ++ nz (g.rule == 0) 84 4
    ++ (if g.hasV then (if FVal.zero.lt g.eps then [] else [88]) else nz true 88 4)
    ++ (if g.offset % (if g.isPre then 4096 else if g.bf16 then 2048 else 1024) ≠ 0 then [104] else [])
    ++ ((g.planes.filter fun p => tierOf l p.2.1 != t0 || tierOf l p.2.1 == 2).map fun p => p.2.2.2)

def groupViols (l : Layout) (r : List Byte) : List Viol :=
  let g := gRec r
  ((groupFaults l r).map formatViol)
    ++ ((g.planes.map fun p => violIf (p.2.1 % 4096 != 0) (viol .alignInner noHandle p.2.2.2)).flatten)
    ++ violIf (g.freeze % 4096 != 0) (viol .alignInner noHandle 40) ++ violIf (g.precond % 4096 != 0) (viol .alignInner noHandle 56)
    ++ violIf (g.sched % 16 != 0) (viol .alignInner noHandle 48)

/-- Reach of the planes (R402). -/
def State.groupReach (s : State) (r : List Byte) : List Viol :=
  let g := gRec r
  let one (a n off : Nat) (w : Bool) : List Viol :=
    s.allocReach g.ctx a n off true w
  ((g.planes.map fun p => one p.2.1 (p.2.2.1 * g.elements) p.2.2.2 true).flatten)
    ++ ((g.readOnly.map fun p => one p.1 p.2.1 p.2.2 false).flatten)

def State.checkGroupSet (s : State) (id : CmdId) (d : List Byte) : Verdict :=
  let op := gsOp d
  let body := bodyViols d [bytesSpan 32 2, ⟨34, 6, 0⟩, bytesSpan 40 20] ++ violIf (bitsOf (u16 d 32) 15 12 != 0) (formatViol 33)
    ++ violIf (op > 4) (formatViol 34) ++ violIf (op != 0 && op != 4 && u64 d 40 != 0) (restViol 40)
  if op = 0 then
    let (v, r, e) := s.recordAt id (u64 d 40) 256 64 40
    Verdict.ofRead (body ++ v ++ (if v.isEmpty ∧ e.isNone then (groupViols s.mem.layout r ++ s.groupReach r).map (·.inRec 1) else [])) e [] [(1, r)]
  else if op = 4 then
    let v := if u64 d 40 % 64 ≠ 0 then [viol .alignInner noHandle 40] else
      s.addrReach id.ctx (u64 d 40) 64 40 false true
    Verdict.of (body ++ v) []
  else Verdict.of body []

/-- A bucket of an undecided step of the group has been accepted (R404). -/
def UGroup.inUse (g : UGroup) : Bool := g.steps.any fun x => x.accepted

def State.onGroupSet (s : State) (id : CmdId) (op : Nat) (f : Cmd → State) : State :=
  s.onCmd id (fun d => isOpcode 0x0080 d && gsOp d == op) f

/-- DEFINE. -/
def State.groupDefine (s : State) (c : Cmd) : State :=
  let d := c.desc
  let die := gsDie d
  let r := c.records.getD 1 []
  let g := gRec r
  if !(s.die die).inService then s.finish c.id (formatViol 34).ending
  else if (s.ugroup die (gsGroup d)).any UGroup.inUse then s.finish c.id (formatViol 32).ending
  else
    match worst (s.groupReach r) with
    | some v => s.finish c.id v.ending
    | none =>
      match s.readBytes (s.groupAcc g.ctx g.sched 272) g.sched 272 with
      | .error e => s.failAcc c.id e
      | .ok e =>
        if scheduleBad e g.isPre then s.finish c.id (formatViol 48).ending
        else
          let x : UGroup :=
            { record := r, slow := tierOf s.mem.layout g.param == 1, collect := u32 d 48, bc := u32 d 52, position := u32 d 56,
              appliedGen := u16 e 8, mismatch := false, bcLong := false, lastStatus := 0, lastStep := 0, stepAmax := 0,
              normClips := 0, refreshStep := 0, refreshes := [], steps := [] }
          let s := s.updUpd die fun u => { u with groups := u.groups.set (gsGroup d) x }
          let zero (t : State) (p : Nat × Nat × Nat × Nat) : State :=
            (t.writeBytes (t.groupAcc g.ctx p.2.1 (p.2.2.1 * g.elements)) p.2.1 (zeros (p.2.2.1 * g.elements))).1
          let s := if gsZero d then (g.planes.filter fun p => p.1 != 0).foldl zero s else s
          s.finish c.id Status.ok.plain

def execGroupDefine (id : CmdId) (s : State) : Host.Outcome State Fault Refusal :=
  .next (s.onGroupSet id 0 fun c => s.groupDefine c)

/-- Run an operation on a defined group that no bucket of an undecided step uses. -/
def State.onFreeGroup (s : State) (c : Cmd) (f : UGroup → State) : State :=
  match s.ugroup (gsDie c.desc) (gsGroup c.desc) with
  | none => s.finish c.id (formatViol 32).ending
  | some g => if g.inUse then s.finish c.id (formatViol 32).ending else f g

def execGroupRetire (id : CmdId) (s : State) : Host.Outcome State Fault Refusal :=
  .next (s.onGroupSet id 1 fun c => s.onFreeGroup c fun _ =>
    ((s.updUpd (gsDie c.desc) fun u => { u with groups := u.groups.erase (gsGroup c.desc) }).dropDigests (gsDie c.desc)).finish id
      Status.ok.plain)

def execSetCounters (id : CmdId) (s : State) : Host.Outcome State Fault Refusal :=
  .next (s.onGroupSet id 2 fun c => s.onFreeGroup c fun _ =>
    let d := c.desc
    (s.updGroup (gsDie d) (gsGroup d) fun g =>
      { g with collect := u32 d 48, bc := u32 d 52, position := u32 d 56, mismatch := false,
               bcLong := decide (2 ^ 24 ≤ u32 d 52) }).finish id Status.ok.plain)

/-- REFRESH (R414). -/
def execRefresh (id : CmdId) (s : State) : Host.Outcome State Fault Refusal :=
  .next (s.onGroupSet id 3 fun c => s.onFreeGroup c fun g =>
    let f := u32 c.desc 48
    if !(gRec g.record).isPre then s.finish id (formatViol 32).ending
    else if !stepAfter f g.collect then s.finish id (formatViol 48).ending
    else
      (s.updGroup (gsDie c.desc) (gsGroup c.desc) fun x =>
        { x with refreshStep := f, refreshes := x.refreshes ++ [f] }).finish id Status.ok.plain)

/-- REFRESHes in force at step `t`: their parity names the buffer, and any makes it valid. -/
def UGroup.reached (g : UGroup) (t : Nat) : Nat := (g.refreshes.filter fun f => stepAtOrAfter t f).length

/-- The status record of Table 16-3. -/
def statusRecord (g : UGroup) : List Byte :=
  let n := g.reached g.collect
  record 64 [(0, 4, g.collect), (4, 4, g.bc), (8, 4, g.position), (12, 2, g.appliedGen), (14, 2, g.lastStatus), (16, 4, g.lastStep),
    (20, 1, b2n g.mismatch + 2 * b2n g.bcLong + 4 * (n % 2) + 8 * b2n (n != 0) + 16 * b2n g.slow), (24, 4, g.stepAmax),
    (28, 4, g.normClips), (32, 4, g.refreshStep)]

def execQuery (id : CmdId) (s : State) : Host.Outcome State Fault Refusal :=
  .next (s.onGroupSet id 4 fun c =>
    match s.ugroup (gsDie c.desc) (gsGroup c.desc), s.addrJudge id.ctx (u64 c.desc 40) 64 false true with
    | none, _ => s.finish id (formatViol 32).ending
    | _, .error e => s.failAcc id e
    | some g, .ok x =>
      let w := s.writeBytes { x with id := some id } (u64 c.desc 40) (statusRecord g)
      match w.2 with
      | some .wait => s
      | some e => w.1.failAcc id e
      | none => w.1.finish id Status.ok.plain)

/-! ### Digests (R446) -/

/-- Multiplication over GF(2). -/
def clmul (a : Nat) : Nat → Nat → Nat
  | 0, _ => 0
  | n + 1, b => (if b % 2 = 1 then a else 0) ^^^ (2 * clmul a n (b / 2))

/-- Reduce a polynomial of degree below `128 + n` modulo P. -/
def polyMod : Nat → Nat → Nat
  | 0, x => x
  | n + 1, x => polyMod n (if x.testBit (128 + n) then x ^^^ ((2 ^ 128 + 0x87) * 2 ^ n) else x)

/-- CRC(B): bytes taken from the first, the most significant power, on. -/
def crcOf (bs : List Byte) : Nat := polyMod 128 ((bs.foldl (fun a b => polyMod 8 (a * 256) ^^^ b.toNat) 0) * 2 ^ 128)

/-- The block digest `d_p(B)`. -/
def blockDigest (tensorId plane block : Nat) (bs : List Byte) : Nat :=
  let h := 2 ^ 64 + tensorId % 2 ^ 32 * 2 ^ 32 + plane % 4 * 2 ^ 30 + block % 2 ^ 30
  polyMod 128 (clmul (crcOf bs) 65 h)

/-! ### Writing and journalling (R419) -/

def beforeKey (plane j : Nat) : Nat := plane * 2 ^ 48 + j

/-- Keep a block's content before a step first changes it. -/
def State.keepBefore (s : State) (d gi t : Nat) (g : GRec) (plane j : Nat) : Except AccErr State :=
  match (s.ugroup d gi).bind fun x => x.step? t with
  | none => .ok s
  | some u =>
    if (u.before.get? (beforeKey plane j)).isSome then .ok s
    else
      let a := (g.planeOf plane).1 + 4096 * j
      match s.readBytes (s.groupAcc g.ctx a 4096) a 4096 with
      | .error e => .error e
      | .ok bs => .ok (s.updUStep d gi t fun x => { x with before := x.before.set (beforeKey plane j) ⟨a, bs⟩ })

/-- Keep every block that a change of elements `[lo, hi)` touches. -/
def State.keepAll (s : State) (d gi t : Nat) (g : GRec) (lo hi : Nat) : Except AccErr State :=
  g.planes.foldl (fun r p =>
    (blocksTouched (4096 / p.2.2.1) lo hi).foldl (fun r j => match r with
      | .error e => .error e
      | .ok s => s.keepBefore d gi t g p.1 j) r) (.ok s)

/-- Bytes XORed. -/
def xorBytes (a b : List Byte) : List Byte := (upTo a.length).map fun i => a.getD i 0 ^^^ b.getD i 0

/-- Elements of a list of ranges within `[lo, hi)`. -/
def coveredIn (rs : List (Nat × Nat)) (lo hi : Nat) : Nat := (rs.map fun r => min r.2 hi - max r.1 lo).foldl (· + ·) 0

/-- Append a difference record. -/
def State.journalPut (s : State) (d : Nat) (f : Nat → DiffRec) : State :=
  let seq := s.rd (regDie .journalSeq d)
  (s.updUpd d fun u => { u with journal := u.journal ++ [f seq] }).bump (regDie .journalSeq d) 1

/-- Emit the records of blocks whose every element of the step is written. -/
def State.emit (s : State) (d gi t : Nat) (g : GRec) : State :=
  match (s.ugroup d gi).bind fun x => x.step? t with
  | none => s
  | some u =>
    u.before.foldl (fun s e =>
      let plane := e.1 / 2 ^ 48
      let j := e.1 % 2 ^ 48
      let per := (g.planeOf plane).2
      let lo := per * j
      let hi := min g.elements (per * (j + 1))
      if coveredIn u.applied lo hi < hi - lo then s
      else
        let s := s.updUStep d gi t fun x => { x with before := x.before.erase e.1 }
        match s.readBytes (s.groupAcc g.ctx e.2.addr 4096) e.2.addr 4096 with
        | .error _ => s
        | .ok now =>
          if now = e.2.old then s
          else s.journalPut d fun seq =>
            { seq, step := t, group := gi, plane, repair := false, tensorId := g.tensorId, block := g.blockNo plane j,
              addr := e.2.addr, ctx := g.ctx, delta := xorBytes e.2.old now, committed := false }) s

/-- Records a die's journal holds room for: all, and those in use or owed to open blocks. -/
def UpdDie.capacity (u : UpdDie) : Nat := u.journalSize / 4160
def UpdDie.owed (u : UpdDie) : Nat :=
  u.journal.length + (u.groups.vals.map fun g => (g.steps.map fun x => x.before.length).foldl (· + ·) 0).foldl (· + ·) 0

/-- Blocks a change of `[lo, hi)` would open; a change map still to be applied may open every block of the group. -/
def UStep.opens (u : UStep) (g : GRec) (mapDue : Bool) (lo hi : Nat) : Nat :=
  (g.planes.map fun p =>
    let per := 4096 / p.2.2.1
    let js := if mapDue then upTo (ceilDiv g.elements per) else blocksTouched per lo hi
    (js.filter fun j => (u.before.get? (beforeKey p.1 j)).isNone).length).foldl (· + ·) 0

/-! ### Stage 4: the schedule -/

/-- The schedule entry of a group read for step `t`; none: invalid or unreadable. -/
def State.schedFor (s : State) (g : UGroup) (t : Nat) : Except AccErr (Option SchedRead) :=
  let r := gRec g.record
  match s.readBytes (s.groupAcc r.ctx r.sched 272) r.sched 272 with
  | .error e => .error e
  | .ok e =>
    if scheduleBad e r.isPre then .ok none
    else
      let p := min (2 ^ 32 - 1) (g.position + s.undecidedBefore t)
      .ok (some ⟨toBits32 (curveAt (curve (sliceB e 16 128)) p), toBits32 (curveAt (curve (sliceB e 144 128)) p), u64 e 0, u16 e 8⟩)

/-- Read the schedule once for group and step. Answers whether it is in force. -/
def State.readSched (s : State) (d gi t : Nat) : State × Bool :=
  match s.ugroup d gi with
  | none => (s, false)
  | some g =>
    match g.step? t with
    | none => (s, false)
    | some u =>
      if u.sched.isSome then (s, true)
      else
        match s.schedFor g t with
        | .error (.ecc w) => ((s.ueReport w).updRaise d gi g.collect bitEcc, false)
        | .error _ => (s.updRaise d gi g.collect bitSchedule, false)
        | .ok none => (s.updRaise d gi g.collect bitSchedule, false)
        | .ok (some x) => (s.updUStep d gi t fun y => { y with sched := some x }, true)

/-! ### Stages 6 and 7: the rule (R413–R417) -/

/-- `x × rsqrt(x)`, and 0 for 0. -/
def sqrtU (x : FVal) : FVal := if x.isZero then .zero else mul32 x (rsqrtSF x)

/-- The bias correction `1 − exp(t_b × log β)`. -/
def biasCorrection (tb : Nat) (beta : FVal) : FVal := sub32 .one (expSF (mul32 (toF32 (.ofNat tb)) (logSF beta)))

/-- What a rule is evaluated with. -/
structure RuleIn where
  eta : FVal
  lambda : FVal
  c1 : FVal
  c2 : FVal
  deriving DecidableEq, Repr

/-- sign(x); of a NaN, which no rule gives, a free choice among its values. -/
def signU (x : FVal) (free : Nat) : FVal :=
  if x.isNan then (if free % 3 = 0 then .zero else if free % 3 = 1 then .one else FVal.one.neg)
  else if x.isZero then .zero else if x.isNeg then FVal.one.neg else .one

/-- New parameter, first and second moment (Table 16-7). -/
def ruleOf (g : GRec) (r : RuleIn) (free : Nat) (w m v x : FVal) : FVal × FVal × FVal :=
  let om (b : FVal) : FVal := sub32 .one b
  let decay (d : FVal) : FVal := sub32 w (mul32 r.eta (add32 d (mul32 r.lambda w)))
  match g.rule with
  | 0 =>
    let m' := add32 (mul32 g.beta1 m) x
    (decay m', m', v)
  | 2 =>
    let d := signU (add32 (mul32 g.beta1 m) (mul32 (om g.beta1) x)) free
    (decay d, add32 (mul32 g.beta2 m) (mul32 (om g.beta2) x), v)
  | _ =>
    let m' := add32 (mul32 g.beta1 m) (mul32 (om g.beta1) x)
    let v' := add32 (mul32 g.beta2 v) (mul32 (om g.beta2) (mul32 x x))
    let d := mul32 (mul32 m' (recipSF r.c1)) (recipSF (add32 (sqrtU (mul32 v' (recipSF r.c2))) g.eps))
    (decay d, m', v')

/-- Values of elements `[lo, lo + n)` of an FP32 or BF16 plane. -/
def State.planeVals (s : State) (ctx a bytes lo n : Nat) : Except AccErr (List FVal) :=
  match s.readBytes (s.groupAcc ctx (a + bytes * lo) (bytes * n)) (a + bytes * lo) (bytes * n) with
  | .error e => .error e
  | .ok bs =>
    .ok ((upTo n).map fun i => if bytes = 2 then decodeF fmtBF16 (u16 bs (2 * i)) else ofBits32 (u32 bs (4 * i)))

/-- Freeze bits of elements `[lo, lo + n)`. -/
def State.freezeBits (s : State) (g : GRec) (lo n : Nat) : Except AccErr (List Bool) :=
  if g.freeze = 0 then .ok (List.replicate n false)
  else
    let a := g.freeze + lo / 8
    let k := ceilDiv (lo % 8 + n) 8
    match s.readBytes (s.groupAcc g.ctx a k) a k with
    | .error e => .error e
    | .ok bs => .ok ((upTo n).map fun i => bitOf (u8 bs ((lo % 8 + i) / 8)) ((lo + i) % 8))

/-- Write bytes of a plane, keeping the first error. -/
def State.putPlane (s : State) (ctx a : Nat) (bs : List Byte) : State × Option AccErr :=
  s.writeBytes (s.groupAcc ctx a bs.length) a bs

/-- Zero parameter and moments at the positions a change map names (R416). -/
def State.applyMap (s : State) (d gi t : Nat) (g : GRec) (addr : Nat) : State × Option AccErr :=
  let n := 2 * ceilDiv g.elements 8
  match s.readBytes (s.groupAcc g.ctx addr n) addr n with
  | .error e => (s, some e)
  | .ok map =>
    let hit := (upTo g.elements).filter fun i => bitOf (u8 map (2 * (i / 8))) (i % 8) || bitOf (u8 map (2 * (i / 8) + 1)) (i % 8)
    hit.foldl (fun r i =>
      if r.2.isSome then r
      else
        match r.1.keepAll d gi t g i (i + 1) with
        | .error e => (r.1, some e)
        | .ok s => (g.planes.filter fun p => p.1 != 3).foldl (fun r p =>
            let w := r.1.putPlane g.ctx (p.2.1 + p.2.2.1 * i) (zeros p.2.2.1)
            (w.1, if r.2.isSome then r.2 else w.2)) (s, none)) (s, none)

/-- Whether an undecided step of the group has applied the change map of a generation. -/
def UGroup.mappedFor (g : UGroup) (gen : Nat) : Bool := g.steps.any fun v => v.mapped && v.sched.any fun y => y.changeGen == gen

/-- Whether the change map must be applied at this update: once for a generation, unless a skip has undone it (R166). -/
def UGroup.mapDue (g : UGroup) (u : UStep) : Bool :=
  u.sched.any fun x => x.changeMap != 0 && x.changeGen != g.appliedGen && !u.mapped && !g.mappedFor x.changeGen

/-- The rule of one run of elements from `lo` on; `idle` positions stay (R418). -/
def State.runRule (s : State) (d gi t : Nat) (g : UGroup) (u : UStep) (lo : Nat) (xs : List FVal) (idle : Nat → Bool) :
    State × Option AccErr :=
  let r := gRec g.record
  let n := xs.length
  let sc := u.sched.getD ⟨0, 0, 0, 0⟩
  let tc := g.bc + s.undecidedBefore t + 1
  let tb := if g.bcLong ∨ tc ≥ 2 ^ 24 then 2 ^ 24 else tc
  let inp : RuleIn := ⟨ofBits32 sc.eta, ofBits32 sc.lambda, biasCorrection tb r.beta1, biasCorrection tb r.beta2⟩
  let pb := if r.bf16 then 2 else 4
  match s.freezeBits r lo n, s.planeVals r.ctx r.param pb lo n, s.planeVals r.ctx r.m 4 lo n,
      (if r.hasV then s.planeVals r.ctx r.v 4 lo n else .ok (List.replicate n .zero)) with
  | .ok fz, .ok ws, .ok ms, .ok vs =>
    let one (i : Nat) : FVal × FVal × FVal :=
      let w := ws.getD i .zero
      let m := ms.getD i .zero
      let v := vs.getD i .zero
      if fz.getD i false ∨ idle (lo + i) then (w, m, v) else ruleOf r inp (Config.freeValue (s.freeCount + i)) w m v (xs.getD i .zero)
    let keep (i : Nat) : Bool := fz.getD i false || idle (lo + i)
    let new := (upTo n).map one
    let key : DiceKey := ⟨s.seed r.ctx, t, r.tensorId, .updater⟩
    let s := { s with freeCount := s.freeCount + n }
    match s.keepAll d gi t r lo (lo + n) with
    | .error e => (s, some e)
    | .ok s =>
      let bytes (p : Nat × Nat × Nat × Nat) (i : Nat) : List Byte :=
        let x := new.getD i (.zero, .zero, .zero)
        match p.1 with
        | 0 => if r.bf16 then leBytes 2 (encodeF fmtBF16 (.sto (dice key (r.offset + lo + i))) x.1) else leBytes 4 (toBits32 x.1)
        | 1 => leBytes 4 (toBits32 x.2.1)
        | _ => leBytes 4 (toBits32 x.2.2)
      (r.planes.filter fun p => p.1 != 3).foldl (fun acc p =>
        (upTo n).foldl (fun acc i =>
          if keep i then acc
          else
            let w := acc.1.putPlane r.ctx (p.2.1 + p.2.2.1 * (lo + i)) (bytes p i)
            (w.1, if acc.2.isSome then acc.2 else w.2)) acc) (s, none)
  | .error e, _, _, _ => (s, some e)
  | _, .error e, _, _ => (s, some e)
  | _, _, .error e, _ => (s, some e)
  | _, _, _, .error e => (s, some e)

/-! ### BLOCK_PRECOND (R414) -/

/-- A 64 × 64 matrix by row and column. -/
abbrev Mat := List (List FVal)

def matAt (m : Mat) (i j : Nat) : FVal := (m.getD i []).getD j .zero
/-- A product in FP32, 64 terms in ascending index, one rounding per operation. -/
def matMul (a b : Mat) : Mat :=
  (upTo 64).map fun i => (upTo 64).map fun j => (upTo 64).foldl (fun acc k => add32 acc (mul32 (matAt a i k) (matAt b k j))) .zero
def matT (a : Mat) : Mat := (upTo 64).map fun i => (upTo 64).map fun j => matAt a j i
def matOf (xs : List FVal) : Mat := chunks 64 65 xs

/-- `g̃` of tile `j` (R414). -/
def State.precondition (s : State) (r : GRec) (g : UGroup) (t j : Nat) (gm : Mat) : Except AccErr Mat :=
  let n := g.reached t
  if n = 0 then .ok gm
  else
    let a := r.precond + (n % 2) * (r.elements / 4096) * 16384 + j * 16384
    match s.planeVals r.ctx a 2 0 4096, s.planeVals r.ctx (a + 8192) 2 0 4096 with
    | .ok l, .ok q => .ok (matMul (matOf l) (matMul gm (matOf q)))
    | .error e, _ => .error e
    | _, .error e => .error e

/-- The statistics of tile `j`, where the step updates them. -/
def State.tileStats (s : State) (r : GRec) (g : UGroup) (t j : Nat) (gm : Mat) : State × Option AccErr :=
  let p := min (2 ^ 32 - 1) (g.position + s.undecidedBefore t)
  if r.interval = 0 ∨ p % r.interval ≠ 0 then (s, none)
  else
    let a := r.stats + j * 32768
    match s.planeVals r.ctx a 4 0 4096, s.planeVals r.ctx (a + 16384) 4 0 4096 with
    | .ok l, .ok q =>
      let mix (old : List FVal) (x : Mat) : List Byte :=
        ((upTo 4096).map fun i =>
          leBytes 4 (toBits32 (add32 (mul32 r.beta2 (old.getD i .zero)) (mul32 (sub32 .one r.beta2) (matAt x (i / 64) (i % 64)))))).flatten
      let w := s.putPlane r.ctx a (mix l (matMul gm (matT gm)))
      let w2 := w.1.putPlane r.ctx (a + 16384) (mix q (matMul (matT gm) gm))
      (w2.1, if w.2.isSome then w.2 else w2.2)
    | .error e, _ => (s, some e)
    | _, .error e => (s, some e)

/-- Apply a whole tile. -/
def State.applyTile (s : State) (d gi t : Nat) (g : UGroup) (u : UStep) (j : Nat) (idle : Nat → Bool) : State × Option AccErr :=
  let r := gRec g.record
  let lo := 4096 * j
  let bits := u.tiles.getD j []
  match s.freezeBits r lo 4096 with
  | .error e => (s, some e)
  | .ok fz =>
    let gm := matOf ((upTo 4096).map fun i => if fz.getD i false then .zero else ofBits32 (bits.getD i 0))
    match s.precondition r g t j gm, s.keepAll d gi t r lo (lo + 4096) with
    | .ok q, .ok s =>
      let a := s.runRule d gi t g u lo q.flatten idle
      match a.2 with
      | some e => (a.1, some e)
      | none => a.1.tileStats r g t j gm
    | .error e, _ => (s, some e)
    | _, .error e => (s, some e)

/-! ### One block from stage 6 on -/

/-- COLLECT advances once every element of its step has passed stage 8 (R408). -/
def State.settleReady (s : State) (d gi : Nat) : State :=
  s.updGroup d gi fun g =>
    match g.step? g.collect with
    | some u => if coveredIn u.applied 0 (gRec g.record).elements = (gRec g.record).elements then { g with collect := (g.collect + 1) % 2 ^ 32 } else g
    | none => g

/-- Tiles that elements `[lo, hi)` complete, once their bits are added. -/
def UStep.withTile (u : UStep) (lo : Nat) (bits : List Nat) : UStep :=
  { u with tiles := (upTo bits.length).foldl (fun m i =>
      m.upd ((lo + i) / 4096) [] fun x => x.set ((lo + i) % 4096) (bits.getD i 0)) u.tiles }

/-- Blocks of the step that pass stage 8 once further ranges of elements are applied: under BLOCK_PRECOND a block is held until
every tile it touches is whole (R414). -/
def UStep.passes (u : UStep) (more : List (Nat × Nat)) : Nat :=
  let through (rs : List (Nat × Nat)) : Nat := (u.covered.filter fun r => coveredIn rs r.1 r.2 == r.2 - r.1).length
  through (u.applied ++ more) - through u.applied

/-- Stages 6 to 8 of elements `[lo, lo + n)` with checked gradients `bits`. -/
def State.applyBlock (s : State) (d gi t lo : Nat) (bits : List Nat) (zero : Bool) : State :=
  match s.readSched d gi t with
  | (s, false) => s
  | (s, true) =>
    match s.ugroup d gi with
    | none => s
    | some g =>
      let r := gRec g.record
      let u := (g.step? t).getD (UStep.init t)
      let fail (s : State) (e : AccErr) : State := ((match e.word? with
        | some w => s.ueReport w
        | none => s)).updRaise d gi t bitEcc
      let mapped := if g.mapDue u then
          let m := s.applyMap d gi t r ((u.sched.getD ⟨0, 0, 0, 0⟩).changeMap)
          (m.1.updUStep d gi t fun x => { x with mapped := true }, m.2)
        else (s, none)
      match mapped with
      | (s, some e) => fail s e
      | (s, none) =>
        let n := bits.length
        let skip := zero && r.skipIdle
        let idleNow (i : Nat) : Bool := skip || u.idle.contains i
        let res : State × Option AccErr × List (Nat × Nat) :=
          if r.isPre then
            let s := s.updUStep d gi t fun x =>
              let y := x.withTile lo bits
              if skip then { y with idle := (upTo n).foldl (fun l i => insertKey l (lo + i)) y.idle } else y
            let u2 := ((s.ugroup d gi).bind fun x => x.step? t).getD (UStep.init t)
            let full := (blocksTouched 4096 lo (lo + n)).filter fun j => (u2.tiles.getD j []).length == 4096
            full.foldl (fun acc j =>
              if acc.2.1.isSome then acc
              else
                let a := acc.1.applyTile d gi t g u2 j fun i => u2.idle.contains i
                (a.1.updUStep d gi t fun x => { x with tiles := x.tiles.erase j }, a.2, acc.2.2 ++ [(4096 * j, 4096 * (j + 1))]))
              (s, none, [])
          else if skip then (s, none, [(lo, lo + n)])
          else
            let a := s.runRule d gi t g u lo (bits.map ofBits32) idleNow
            (a.1, a.2, [(lo, lo + n)])
        match res with
        | (s, some e, _) => fail s e
        | (s, none, done) =>
          let k := if r.isPre then ((g.step? t).getD (UStep.init t)).passes done else 1
          let s := (s.updUStep d gi t fun x => { x with applied := x.applied ++ done }).emit d gi t r
          let s := (s.bump (regDie .updBlocksApplied d) k).pmc d 4 0 2 (some r.ctx) k
          let s := if g.slow then s.bump (regDie .updSlowBlocks d) k else s
          s.settleReady d gi

/-! ### Stage 5: staging and parking (R422, R423, R437, R438) -/

/-- The evaluation window that is open: WINDOW_FRAMES after it opened it is closed (R453). -/
def State.openWindow (s : State) : Option (Nat × Nat) := s.step.window.filter fun w => decide (s.now < w.2)

/-- An open evaluation window parks blocks of later steps (R453). -/
def State.parksLater (s : State) (t : Nat) : Bool := s.openWindow.any fun w => stepAfter t w.1

/-- Whether step `t` may be applied now (R437, R453). -/
def State.mayApply (s : State) (t : Nat) : Bool :=
  stepAtOrAfter ((s.step.oldest + b2n s.step.applyAhead) % 2 ^ 32) t && !s.parksLater t

/-- Whether the journal has room for what a block can produce. -/
def State.journalRoom (s : State) (d gi t lo n : Nat) : Bool :=
  match s.ugroup d gi with
  | none => true
  | some g =>
    let u := (g.step? t).getD (UStep.init t)
    let r := gRec g.record
    let (a, b) := if r.isPre then (lo / 4096 * 4096, ((lo + n - 1) / 4096 + 1) * 4096) else (lo, lo + n)
    let x := s.updDieOf d
    decide (x.owed + u.opens r (g.mapDue u) a b ≤ x.capacity)

/-- Staging slots of a die's HBM4 region. -/
def State.stagingUnits (s : State) (d : Nat) : Nat :=
  min (s.fld (regDie .updControl d) 3 0) (s.mem.layout.reservedUnits - 1) * 131072

/-- Put a block in staging, or discard it (R423). -/
def State.stage (s : State) (d : Nat) (b : Staged) : State :=
  let u := s.updDieOf d
  let sram := (u.staged.filter fun x => x.inSram).length
  if sram < 32768 then s.updUpd d fun x => { x with staged := x.staged ++ [{ b with inSram := true }] }
  else if u.staged.length - sram < s.stagingUnits d then
    s.updUpd d fun x => { x with staged := x.staged ++ [{ b with inSram := false }] }
  else (s.bump (regDie .updStagingOverflows d) 1).updRaise d b.group (((u.groups.get? b.group).map (·.collect)).getD b.step) bitOverflow

/-- A parked block whose two conditions hold: it goes ahead of every block that has arrived later (R437). -/
def State.parkedReady (s : State) (d : Nat) (b : Staged) : Bool :=
  b.parked && s.mayApply b.step && (s.ugroup d b.group).any (fun g => !stepAfter b.step g.collect)
    && s.journalRoom d b.group b.step b.first b.vals.length

/-- Whether the first `k` staged blocks hold one that goes ahead of a block of a group (R422, R437). -/
def State.behind (s : State) (d gi k : Nat) : Bool :=
  ((s.updDieOf d).staged.take k).any fun x => x.group == gi || s.parkedReady d x

/-- Stage 5: apply at once, or wait (R437, R438). -/
def State.stage5 (s : State) (d gi t lo : Nat) (bits : List Nat) (zero : Bool) : State :=
  match s.ugroup d gi with
  | none => s
  | some g =>
    let b : Staged := ⟨gi, t, lo, bits, zero, true, false⟩
    let room := s.journalRoom d gi t lo bits.length
    let waiting := s.behind d gi (s.updDieOf d).staged.length
    if !room ∧ t = s.step.oldest then s.raise t bitJournalFull
    else if !s.mayApply t ∨ !room then ((s.bump (regDie .updParked d) 1).pmc d 4 0 3 (some (gRec g.record).ctx) 1).stage d { b with parked := true }
    else if g.slow ∨ waiting ∨ t ≠ g.collect ∨ s.underTest d 4 then s.stage d b
    else s.applyBlock d gi t lo bits zero

/-- STAGED_BLOCK_APPLY: the `k`-th staged block of a die, in arrival order within its group and after the parked blocks before
it that may be applied. -/
def State.stagedApply (s : State) (d k : Nat) : State :=
  match (s.updDieOf d).staged[k]? with
  | none => s
  | some b =>
    let n := b.vals.length
    if !s.unitOn d 4 ∨ s.behind d b.group k ∨ !s.mayApply b.step then s
    else
      match s.ugroup d b.group with
      | none => s.updUpd d fun u => { u with staged := u.staged.eraseIdx k }
      | some g =>
        if stepAfter b.step g.collect then s
        else if !s.journalRoom d b.group b.step b.first n then
          if b.step = s.step.oldest then (s.updUpd d fun u => { u with staged := u.staged.eraseIdx k }).raise b.step bitJournalFull
          else s
        else (s.updUpd d fun u => { u with staged := u.staged.eraseIdx k }).applyBlock d b.group b.step b.first b.vals b.zero

def execStagedBlockApply (die k : Nat) (s : State) : Host.Outcome State Fault Refusal := .next (s.stagedApply die k)

/-! ### Stages 1 to 3 -/

/-- Stage 1 of a bucket header (R406–R408): the bucket, and whether it is accepted. -/
def State.takeHeader (s : State) (d ctx : Nat) (sl : Slot) : State × Bucket :=
  let p := sl.payload
  let gi := bitsOf (u16 p 0) 11 0
  let t := u32 p 4
  let b : Bucket := ⟨sl.sent, d, gi, t, u64 p 8, u64 p 16, u32 p 24, u16 p 28, false⟩
  match s.ugroup d gi with
  | none => (s.raise s.step.oldest bitCoverage, b)
  | some g =>
    let r := gRec g.record
    let refuse (s : State) (bit : Nat) : State × Bucket := (s.updRaise d gi g.collect bit, b)
    if r.passive then (s.raise s.step.oldest bitCoverage, b)
    else if r.ctx ≠ ctx then refuse (s.bump (regDie0 .remoteDenied) 1) bitCoverage
    else if b.count = 0 ∨ b.count > 31456800 ∨ b.first + b.count > r.elements then refuse s bitCoverage
    else if bitOf sl.flags 1 then refuse s bitCoverage
    else if bitOf sl.flags 4 then refuse s bitConflict
    else if g.mismatch ∨ !(t = g.collect ∨ t = (g.collect + 1) % 2 ^ 32) then
      refuse (s.updGroup d gi fun x => { x with mismatch := true }) bitMismatch
    else (s.updUStep d gi t fun x => { x with accepted := true }, { b with accepted := true })

/-- Checked gradients of a block: FP32 bits, a reason, whether it was clipped, and the largest finite magnitude (R410). -/
structure Checked where
  bits : List Nat
  reason : Option Nat
  clipped : Bool
  amax : FVal
  deriving DecidableEq, Repr

def normCheck (r : GRec) (scale : FVal) (payload : List Byte) (n : Nat) : Checked :=
  let vals := (upTo n).map fun i =>
    mul32 (toF32 ((e8m0 (u8 payload (480 + i / 32))).mul (decodeF (mxField .mxfp8) (u8 payload i)))) scale
  let badScale := (upTo (ceilDiv n 32)).any fun k => u8 payload (480 + k) == 255
  let sumsq := vals.foldl (fun a x => add32 a (mul32 x x)) .zero
  let amax := FVal.amax vals
  if bitOf (u8 payload 498) 0 ∨ badScale ∨ !(vals.all FVal.isFinite) ∨ !sumsq.isFinite then ⟨[], some bitNonfinite, false, amax⟩
  else if FVal.zero.lt r.limit ∧ (mul32 r.limit r.limit).lt sumsq then
    if r.normSkip then ⟨[], some bitNorm, false, amax⟩
    else
      let k := mul32 r.limit (rsqrtSF sumsq)
      ⟨vals.map fun x => toBits32 (mul32 x k), none, true, amax⟩
  else ⟨vals.map toBits32, none, false, amax⟩

/-- A gradient block of step `t` has reached an updater, whatever becomes of it there (R257). -/
def State.noteGradient (s : State) (t : Nat) : State :=
  { s with gradStep := match s.gradStep with
    | some u => some (if stepAfter t u then t else u)
    | none => some t }

/-- A data slot of a bucket through the pipeline (R407). -/
def State.takeBlock (s : State) (d : Nat) (b : Bucket) (sl : Slot) : State :=
  let s := s.noteGradient b.step
  let gi := b.group
  let discard (s : State) : State := s.bump (regDie .updDiscards d) 1
  match s.ugroup d gi with
  | none => discard s
  | some g =>
    let t := b.step
    let last := ceilDiv b.count 480
    if !b.accepted ∨ s.decided t then discard s
    else if sl.seq > last ∨ bitOf sl.flags 1 != (sl.seq == last) then discard (s.updRaise d gi g.collect bitCoverage)
    else
      let lo := b.first + 480 * (sl.seq - 1)
      let hi := min (lo + 480) (b.first + b.count)
      let u := (g.step? t).getD (UStep.init t)
      if u16 sl.payload 496 ≠ b.expected ∨ coveredIn u.covered lo hi ≠ 0 then discard (s.updRaise d gi g.collect bitCoverage)
      else
        let s := s.updUStep d gi t fun x => { x with covered := x.covered ++ [(lo, hi)] }
        let zero := bitOf sl.flags 3
        let ck : Checked := if zero then ⟨List.replicate (hi - lo) 0, none, false, .zero⟩
          else normCheck (gRec g.record) (ofBits32 b.scale) sl.payload (hi - lo)
        let s := s.updUStep d gi t fun x => { x with amax := toBits32 (FVal.amax2 (ofBits32 x.amax) ck.amax) }
        match ck.reason with
        | some bit => discard (s.updRaise d gi g.collect bit)
        | none =>
          let s := s.updUStep d gi t fun x => { x with clips := x.clips + b2n ck.clipped }
          let s := if ck.clipped then s.bump (regDie .updNormClips d) 1 else s
          match s.readSched d gi t with
          | (s, false) => s
          | (s, true) => s.stage5 d gi t lo ck.bits zero

/-! ### Counters at a decision (R421) -/

/-- LAST_STATUS of a skipped step (Table 16-8). -/
def skipStatus (reasons : Nat) : Nat :=
  if bitOf reasons bitNonfinite ∨ bitOf reasons bitNorm then Status.nonfiniteBlock.code
  else if bitOf reasons bitMismatch then Status.stepMismatch.code
  else if bitOf reasons bitConflict ∨ bitOf reasons bitCoverage ∨ bitOf reasons bitSchedule ∨ bitOf reasons bitOverflow then
    Status.stepSkipped.code
  else if bitOf reasons bitEcc then Status.eccUncorrectable.code
  else Status.stepSkipped.code

def UGroup.atDecision (g : UGroup) (t : Nat) (commit : Bool) : UGroup :=
  let r := gRec g.record
  if r.passive then g
  else
    let u := (g.step? t).getD (UStep.init t)
    let rest := g.steps.filter fun x => x.step != t
    let g := { g with lastStep := t, stepAmax := u.amax, normClips := u.clips,
                      steps := if commit then rest else rest.map fun (x : UStep) => if x.applied.isEmpty then { x with sched := none } else x }
    if commit then
      let bc := g.bc + 1
      { g with bc := bc % 2 ^ 32, bcLong := g.bcLong || decide (2 ^ 24 ≤ bc), position := min (2 ^ 32 - 1) (g.position + 1),
               appliedGen := if u.mapped then (u.sched.elim g.appliedGen (·.changeGen)) else g.appliedGen, lastStatus := 0 }
    else
      { g with collect := if g.collect = t then (t + 1) % 2 ^ 32 else g.collect,
               position := if r.advance then min (2 ^ 32 - 1) (g.position + 1) else g.position, lastStatus := skipStatus u.reasons }

/-- Restore every block that a group's unfinished step has changed and not journalled (R440). -/
def State.restoreOpen (s : State) (g : UGroup) (t : Nat) : State :=
  match g.step? t with
  | none => s
  | some u => u.before.vals.foldl (fun s b => (s.writeBytes (s.groupAcc (gRec g.record).ctx b.addr 4096) b.addr b.old).1) s

/-- The groups of a die at the decision of step `t`: staged blocks of a skipped step are discarded. -/
def State.decideDie (s : State) (d t : Nat) (commit : Bool) : State :=
  let s := if commit then s else (s.updDieOf d).groups.vals.foldl (fun s g => s.restoreOpen g t) s
  s.updUpd d fun u => { u with groups := u.groups.mapVals fun _ g => g.atDecision t commit,
                               staged := if commit then u.staged else u.staged.filter fun b => b.step != t }

/-- Every group that is not PASSIVE is ready for step `t` (R408, R429). -/
def State.groupsReady (s : State) (t : Nat) : Bool :=
  (upTo 8).all fun d => !(s.die d).inService || (s.updDieOf d).groups.vals.all fun g =>
    (gRec g.record).passive || stepAfter g.collect t

end Sys2Proof.Machine
end

