-- ==== Sys2Proof/Machine/Routing.lean ====
section
/-!
DEFINITION. Machine/Routing.lean: expert routing (R375–R399): TOPK, DISPATCH, COMBINE and the cancelling of batches.
-/
namespace Sys2Proof.Machine

/-! ### TOPK (R375–R377) -/

def tkK (d : List Byte) : Nat := bitsOf (u8 d 48) 3 0
def tkC (d : List Byte) : Nat := u8 d 49
def tkGate (d : List Byte) : Nat := bitsOf (u8 d 50) 1 0

def tkUses (d : List Byte) : List HUse :=
  [useIn (u32 d 32) 32, (useIn (u32 d 36) 36).opt, useOut (u32 d 40) 40, useOut (u32 d 44) 44]

def State.checkTopk (s : State) (id : CmdId) (d : List Byte) : Verdict :=
  let on (o : Nat) (p : Tens → Bool) : List Viol :=
    (s.tens? id.ctx (u32 d o)).elim [] fun t => violIf (t.sparseN != 0 || p t) (viol .descFormat (u32 d o) o)
  let l := s.tens? id.ctx (u32 d 32)
  let m := l.elim 0 (·.rows)
  let e := l.elim 0 (·.cols)
  s.verdict id (bodyViols d [bytesSpan 32 16, ⟨48, 3, 0⟩, bytesSpan 49 1, ⟨50, 1, 0⟩]
    ++ ((tkUses d).map (s.useViols id.ctx)).flatten
    ++ violIf (tkK d == 0 || tkK d > 8) (formatViol 48)
    ++ violIf (tkC d < tkK d || tkC d > 16 || (l.isSome && tkC d > e)) (formatViol 49) ++ violIf (tkGate d == 3) (formatViol 50)
    ++ on 32 (fun t => (t.fmt != .fp32 && t.fmt != .bf16) || t.cols < 2 || t.cols > 16384)
    ++ (if u32 d 36 = noHandle then [] else on 36 fun t => t.fmt != .fp32 || t.elems != e)
    ++ on 40 (fun t => t.fmt != .uint32 || t.rows != m || t.cols != tkC d)
    ++ on 44 (fun t => t.fmt != .fp32 || t.rows != m || t.cols != tkC d)) (tkUses d) []

/-- Whether a score ranks above another; a NaN ranks below every other score. -/
def ranksAbove (a b : FVal) : Bool := if b.isNan then !a.isNan else b.lt a

/-- Insert an expert behind those of at least its score. -/
def rankInsert (x : Nat × FVal) : List (Nat × FVal) → List (Nat × FVal)
  | [] => [x]
  | y :: t => if ranksAbove x.2 y.2 then x :: y :: t else y :: rankInsert x t

/-- The `c` best experts of a token, best first, ties by lower index (R376). -/
def bestOf (c : Nat) (scores : List FVal) : List Nat :=
  ((upTo scores.length).foldl (fun l i => (rankInsert (i, scores.getD i .zero) l).take c) []).map fun x => x.1

/-- Gate weights of a token's candidates (R377). -/
def gateWeights (gate : Nat) (logits : List FVal) (cands : List Nat) : List FVal :=
  let soft (xs : List FVal) : List FVal := (rowForward 0 .one (fun _ => false) xs).vals
  let at' (xs : List FVal) : List FVal := cands.map fun i => xs.getD i .zero
  match gate with
  | 0 => at' (soft logits)
  | 1 => soft (at' logits)
  | _ => (at' logits).map sigmoidF

def State.runTopk (s0 : State) (c : Cmd) (l o w : Tens) : State :=
  let s := s0
  let id := c.id
  let d := c.desc
  s.afterReads id (.ok none) (s.readAll (s.accOf id l) .fp32 l (s.readScale id l) 0) fun rows =>
    s.afterReads id (.ok none) (s.vecOr id (u32 d 36) l.cols .zero) fun bias =>
      let cands := rows.map fun r => bestOf (tkC d) (if u32 d 36 = noHandle then r else zip2 add32 r bias)
      let ws := (upTo rows.length).map fun i => gateWeights (tkGate d) (rows.getD i []) (cands.getD i [])
      let s := (s.flagNonfinite id (rows.any fun r => r.any FVal.isNan)).moved id l 0 (l.rowReadBytes * l.rows) 0
      let a := s.writeAll id o 0 0 (cands.map fun r => r.map FVal.ofNat)
      if a.2.1.err.isSome then s0.wrote a.1 id o 0 a.2.1 a.2.2
      else
        let b := a.1.writeAll id w 0 0 ws
        s0.wrote b.1 id w 0 b.2.1 b.2.2

def execTopk (id : CmdId) (s : State) : Host.Outcome State Fault Refusal :=
  .next (s.onCmd id (isOpcode 0x0060) fun c =>
    match s.tensRun id.ctx (u32 c.desc 32), s.tensRun id.ctx (u32 c.desc 40), s.tensRun id.ctx (u32 c.desc 44) with
    | some l, some o, some w => s.runTopk c l o w
    | _, _, _ => s)

/-! ### Tables and fields of DISPATCH and COMBINE (Tables 15-2, 15-3, 15-5) -/

/-- What stops a command: an access error, or a breach. -/
inductive Halt where
  | acc (e : AccErr)
  | viol (v : Viol)
  deriving DecidableEq, Repr

def State.halted (s : State) (id : CmdId) : Halt → State
  | .acc .wait => s
  | .acc e => s.failAcc id e
  | .viol v => s.finish id v.ending

/-- What a halt found at issue makes of a verdict; a command that must wait for a record is not issued yet (R81). -/
def Verdict.orHalt {α : Type} (v : Verdict) (r : Except Halt α) : Verdict :=
  if v.ending.isSome then v
  else match r with
    | .error (.acc e) => { v with ending := some e.ending }
    | .error (.viol x) => { v with ending := some x.ending }
    | .ok _ => v

def haltOf {α : Type} : Except AccErr α → Except Halt α
  | .error e => .error (.acc e)
  | .ok a => .ok a

def refuse (vs : List Viol) : Except Halt Unit :=
  match worst vs with
  | some v => .error (.viol v)
  | none => .ok ()

def btRole (d : List Byte) : Nat := bitsOf (u8 d 32) 0 0
def btTag (d : List Byte) : Nat := u8 d 33
def btK (d : List Byte) : Nat := bitsOf (u8 d 34) 3 0
def btExperts (d : List Byte) : Nat := u8 d 34
def btWindow (d : List Byte) : Nat := u32 d 56
def btStart (d : List Byte) : Nat := u64 d 64
/-- The first frame for rows, and one past the last (R378). -/
def btRows (d : List Byte) : Nat := btStart d + 24
def btEnd (d : List Byte) : Nat := btStart d + btWindow d
def sumRound (d : List Byte) : Nat := bitsOf (u8 d 32) 2 1
def sumRenorm (d : List Byte) : Bool := bitOf (u8 d 32) 3

def isSend (d : List Byte) : Bool := isOpcode 0x0061 d && btRole d == 0
def isReceive (d : List Byte) : Bool := isOpcode 0x0061 d && btRole d == 1
def isReturn (d : List Byte) : Bool := isOpcode 0x0062 d && btRole d == 0
def isSum (d : List Byte) : Bool := isOpcode 0x0062 d && btRole d == 1

/-- The die whose dispatcher and combiner a command uses: that of the first member of its queue's group. -/
def State.cmdDie (s : State) (id : CmdId) : Nat :=
  ((s.groups.get? (s.queue id.ctx id.q).group).bind fun g => g.members.head?).elim 0 fun l => l / 96

/-- The dispatcher or combiner of a command is under test: the command neither begins nor ends (R459). -/
def State.batchTested (s : State) (c : Cmd) : Bool := s.underTest (s.cmdDie c.id) (if isOpcode 0x0061 c.desc then 2 else 3)

/-- Token and returned rows (R381). -/
def batchFmt (t : Tens) : Bool :=
  [Fmt.fp32, .bf16, .fp16, .e4m3, .e5m2].contains t.fmt && t.scaleMode == 0 && t.sparseN == 0 && t.pad.getD 0 0 == 0
def Tens.batchRow (t : Tens) : Nat := t.ext 0 * t.fmt.blockBytes

def homeFlow (w : Nat) : Nat := bitsOf w 15 0
def srcNode (w : Nat) : Nat := bitsOf w 15 0
def srcDie (w : Nat) : Nat := bitsOf w 18 16
def srcReturn (w : Nat) : Nat := bitsOf w 47 32
def homeKeys (w : Nat) : Nat × Nat := (bitsOf w 31 16, bitsOf w 34 32)
def srcKeys (w : Nat) : Nat × Nat := (srcNode w, srcDie w)
def mapHome (w : Nat) : Nat := bitsOf w 11 0
def mapLocal (w : Nat) : Nat := bitsOf w 17 12

/-- The bytes of a RAW table. -/
def State.rawTable (s : State) (id : CmdId) (t : Tens) : Except Halt (List Byte) := haltOf (s.readBytes (s.accOf id t) t.base (t.ext 0))

/-- The tensor a field names, as its command runs. -/
def State.named (s : State) (id : CmdId) (d : List Byte) (o : Nat) : Except Halt Tens :=
  match s.tensRun id.ctx (u32 d o) with
  | some t => .ok t
  | none => .error (.viol (viol .descFormat (u32 d o) o))

/-- The entries of a list table of 8-byte entries whose defined bits are `mask`. -/
def State.listTable (s : State) (id : CmdId) (d : List Byte) (o mask most : Nat) : Except Halt (List Nat) := do
  let t ← s.named id d o
  refuse (violIf (t.ext 0 / 8 > most) (viol .descFormat t.handle o))
  let bs ← s.rawTable id t
  let ws := words64 (t.ext 0 / 8) bs
  refuse ((upTo ws.length).filterMap fun i =>
    (rsvdWord (ws.getD i 0) mask).head?.map fun k => viol .descFormat t.handle (8 * i + k))
  pure ws

def State.homeList (s : State) (id : CmdId) (d : List Byte) : Except Halt (List Nat) := s.listTable id d 48 (2 ^ 35 - 1) 4095
def State.sourceList (s : State) (id : CmdId) (d : List Byte) : Except Halt (List Nat) :=
  s.listTable id d 40 (0x7FFFF + 0xFFFF * 2 ^ 32) 32768

/-! ### Capacity and admission of a window (R380) -/

/-- ORIGIN entries of a flow, without REPAIR, at a frame index. -/
def SlotTable.origins (t : SlotTable) (f i : Nat) : Nat :=
  (t.tx.filter fun e => e.2.kind == 1 && !e.2.repair && e.2.flow == f && entryIdx e.1 == i).length

/-- S(p) over `n` frames from frame `a` on. -/
def State.slotsIn (s : State) (f a n : Nat) : Nat :=
  match s.fabric.active with
  | none => 0
  | some t =>
    let l := max 1 t.frames
    let i := (a - s.fabric.switchFrame) % l
    let all := ((upTo l).map fun k => t.origins f k).foldl (· + ·) 0
    min 65535 (n / l * all + ((upTo (n % l)).map fun k => t.origins f ((i + k) % l)).foldl (· + ·) 0)

def State.capacity (s : State) (f : Nat) (d : List Byte) (rowBytes : Nat) : Nat :=
  s.slotsIn f (btRows d) (btWindow d - 24) * 512 / max 1 rowBytes

/-- Cases of R380 and R366 over the flows of the peers. -/
def State.windowViols (s : State) (ctx : Nat) (d : List Byte) (flows : List Nat) : List Viol :=
  violIf (s.frame ≥ btStart d || (s.fabric.pendingSwitch.any fun q => decide (q.frame ≤ btEnd d))
    || flows.any fun f => s.slotsIn f (btStart d) 1 == 0 || !s.reservedAdmits ctx f) admissionViol

/-! ### DISPATCH SEND -/

/-- What the walk of R383 has placed: candidate position and home by t × K + j. -/
structure Walk where
  left : List Nat
  placed : Tab (Nat × Nat)
  redirected : Nat
  deriving DecidableEq, Repr

/-- One assignment of the walk. -/
def walkOne (k : Nat) (cands : List (List Nat)) (emap : List Nat) (w : Walk) (j t : Nat) : Walk :=
  let cs := cands.getD t []
  let used := (upTo k).filterMap fun i => (w.placed.get? (t * k + i)).map fun (x : Nat × Nat) => x.1
  let home (p : Nat) : Nat := (emap[cs.getD p 0]?).elim 0xFFF mapHome
  match (upTo cs.length).find? fun p => !used.contains p && home p != 0xFFF && w.left.getD (home p) 0 != 0 with
  | none => w
  | some p =>
    { left := w.left.set (home p) (w.left.getD (home p) 0 - 1), placed := w.placed.set (t * k + j) (p, home p),
      redirected := w.redirected + b2n (decide (k ≤ p)) }

/-- The overflow walk: rank by rank, tokens ascending. -/
def walk (k : Nat) (cands : List (List Nat)) (emap cap : List Nat) : Walk :=
  (upTo k).foldl (fun w j => (upTo cands.length).foldl (fun w t => walkOne k cands emap w j t) w) ⟨cap, [], 0⟩

/-- Local expert of an assignment. -/
def localOf (k : Nat) (cands : List (List Nat)) (emap : List Nat) (a : Nat) (p : Nat) : Nat :=
  mapLocal (emap.getD ((cands.getD (a / k) []).getD p 0) 0)

/-- Assignments on a home in message order: local expert, token, j (R384). -/
def messageOrder (k : Nat) (cands : List (List Nat)) (emap : List Nat) (w : Walk) (h : Nat) : List Nat :=
  let mine := w.placed.filter fun e => e.2.2 == h
  ((upTo 64).map fun x => (mine.filter fun e => localOf k cands emap e.1 e.2.1 == x).map fun e => e.1).flatten

/-- What a SEND does with its tables. -/
structure SendPlan where
  rows : Tens
  k : Nat
  homes : List Nat
  cands : List (List Nat)
  emap : List Nat
  walk : Walk
  place : Tens

def State.sendPlan (s : State) (id : CmdId) (d : List Byte) : Except Halt SendPlan := do
  let rows ← s.named id d 36
  let cand ← s.named id d 40
  let map ← s.named id d 44
  let place ← s.named id d 52
  let k := btK d
  let homes ← s.homeList id d
  let bs ← s.rawTable id map
  let emap := (upTo (map.ext 0 / 4)).map fun i => u32 bs (4 * i)
  refuse ((upTo emap.length).filterMap fun i =>
    let w := emap.getD i 0
    if mapHome w ≠ 0xFFF ∧ mapHome w ≥ homes.length then some (viol .descFormat map.handle (4 * i))
    else (rsvdWord w (2 ^ 18 - 1)).head?.map fun o => viol .descFormat map.handle (4 * i + o))
  refuse (violIf (place.ext 0 < 8 * rows.rows * k) (viol .tensorRange place.handle 52))
  let cs ← haltOf (s.readAll (s.accOf id cand) .fp32 cand (s.readScale id cand) 0)
  let cands := cs.map fun r => r.map fun x => (intOf x).toNat
  let rb := rows.batchRow
  let w := walk k cands emap (homes.map fun h => s.capacity (homeFlow h) d rb)
  refuse (s.windowViols id.ctx d (homes.map homeFlow)
    ++ violIf ((upTo homes.length).any fun h => 1 + ceilDiv ((w.placed.filter fun e => e.2.2 == h).length * rb) 512 > 65536) admissionViol)
  pure ⟨rows, k, homes, cands, emap, w, place⟩

def dispatchUses (d : List Byte) : List HUse :=
  if btRole d = 0 then
    [useIn (u32 d 36) 36, useIn (u32 d 40) 40, useRaw (u32 d 44) 44 false, useRaw (u32 d 48) 48 false, ⟨u32 d 52, 52, false, true, false, true⟩]
  else
    [useOut (u32 d 36) 36, useRaw (u32 d 40) 40 false, useRaw (u32 d 44) 44 false, ⟨u32 d 48, 48, false, true, false, true⟩,
      ⟨u32 d 52, 52, false, true, false, true⟩]

def batchSpans (d : List Byte) : List Span :=
  [⟨32, if isSum d then 3 else 0, 0⟩, bytesSpan 33 1, if isSend d || isSum d then ⟨34, 3, 0⟩ else bytesSpan 34 1, bytesSpan 36 12,
    bytesSpan 48 (if isReturn d then 0 else if isSum d then 4 else 8), bytesSpan 52 (if isSum d then 4 else 0), bytesSpan 56 4,
    bytesSpan 60 (if isReceive d || isSum d then 4 else 0), bytesSpan 64 8, bytesSpan 72 (if isSum d then 4 else 0)]

def batchFormat (d : List Byte) : List Viol :=
  (match rsvdOff (headerSpans ++ batchSpans d) d with
    | some o => [formatViol o]
    | none => [])
    ++ violIf (btWindow d < 25) (restViol 56)
    ++ (if isSend d || isSum d then violIf (btK d == 0 || btK d > 8) (restViol 34)
        else violIf (btExperts d == 0 || btExperts d > 64) (restViol 34))
    ++ violIf (isSum d && sumRound d == 3) (formatViol 32)

/-- The RECEIVE's tables. -/
def State.receivePlan (s : State) (id : CmdId) (d : List Byte) : Except Halt (List Nat) := do
  let tpl ← s.named id d 44
  let pl ← s.named id d 48
  let rec' ← s.named id d 52
  let srcs ← s.sourceList id d
  refuse (violIf (tpl.ext 0 < 32 * btExperts d) (viol .tensorRange tpl.handle 44)
    ++ violIf (pl.ext 0 < 32 * btExperts d) (viol .tensorRange pl.handle 48)
    ++ violIf (rec'.ext 0 < 272 * srcs.length) (viol .tensorRange rec'.handle 52))
  pure srcs

def State.checkDispatch (s : State) (id : CmdId) (d : List Byte) : Verdict :=
  let on (o : Nat) (p : Tens → Bool) : List Viol := (s.tens? id.ctx (u32 d o)).elim [] fun t => violIf (p t) (viol .descFormat (u32 d o) o)
  let m := (s.tens? id.ctx (u32 d 36)).elim 0 (·.rows)
  let v := s.verdict id (batchFormat d ++ ((dispatchUses d).map (s.useViols id.ctx)).flatten ++ on 36 (fun t => !batchFmt t)
    ++ (if isSend d then on 40 fun t => t.fmt != .uint32 || t.sparseN != 0 || t.rows != m || t.cols < btK d || t.cols > 16 else []))
    (dispatchUses d) []
  if v.ending.isSome then v
  else if isSend d then v.orHalt (s.sendPlan id d) else v.orHalt (s.receivePlan id d)

/-- Bytes of a token or output row. -/
def State.batchRowBytes (s : State) (id : CmdId) (t : Tens) (r : Nat) : Except AccErr (List Byte) :=
  let cs := t.outer r
  if t.outerIn cs then s.readBytes (s.accOf id t) (t.blockAddr 0 cs 0) t.batchRow
  else .ok ((upTo (t.ext 0)).map fun _ => padTo t.fmt.blockBytes (encodeBlock t.fmt .one (fun _ => .rne) [t.padVal]).bytes).flatten

/-- The header of Table 15-4. -/
def batchHeader (gen tag die total rowBytes experts : Nat) (counts : List Nat) : List Byte :=
  record 512 ([(0, 2, gen), (2, 1, tag), (3, 1, die), (4, 4, total), (8, 4, rowBytes), (12, 1, experts)]
    ++ (upTo counts.length).map fun e => (16 + 4 * e, 4, counts.getD e 0))

/-- A message of a header and packed rows (R381). -/
def batchSlots (header rows : List Byte) : List (Nat × List Byte) :=
  (0, header) :: (chunks 512 (rows.length / 512 + 1) rows).map fun p => (0, p)

def genKey (die ctx tag : Nat) : Nat := (die * 64 + ctx) * 256 + tag
def State.batchGenOf (s : State) (die ctx tag : Nat) : Nat := s.fabric.batchGen.getD (genKey die ctx tag) 0

/-- The placement record (R384); the fields of a dropped assignment are free. -/
def placement (p : SendPlan) (free : Nat) : List Byte :=
  let orders := (upTo p.homes.length).map fun h => messageOrder p.k p.cands p.emap p.walk h
  ((upTo (p.cands.length * p.k)).map fun a => leBytes 8 (match p.walk.placed.get? a with
    | some (c, h) => c + h * 2 ^ 16 + ((orders.getD h []).findIdx fun x => x == a) * 2 ^ 32
    | none => 0x1F + Config.freeValue (free + a) % 4096 * 2 ^ 16 + Config.freeValue (free + a) / 4096 % 2 ^ 32 * 2 ^ 32)).flatten

def cancelledEnding (tag gen : Nat) : Ending := ⟨Status.cancelled.code, 0, leBytes 2 tag ++ leBytes 2 gen ++ zeros 12⟩
def isCancelled (c : Cmd) : Bool := c.run.stop.any fun e => e.status == Status.cancelled.code

/-- The generation a SEND stamps: its tag's, as at issue (R396, R397). -/
def State.stampOf (s : State) (c : Cmd) : Nat :=
  match c.run.stop with
  | some e => u16 e.detail 2
  | none => s.batchGenOf (s.cmdDie c.id) c.id.ctx (btTag c.desc)

/-- The messages of a SEND, one to each home. -/
def State.sendMessages (s : State) (c : Cmd) (p : SendPlan) (die gen : Nat) : Except Halt State :=
  let id := c.id
  let d := c.desc
  (upTo p.homes.length).foldlM (fun t h => do
    let order := if isCancelled c then [] else messageOrder p.k p.cands p.emap p.walk h
    let loc (a : Nat) : Nat := localOf p.k p.cands p.emap a ((p.walk.placed.get? a).elim 0 fun (x : Nat × Nat) => x.1)
    let mapped := (p.emap.filter fun w => mapHome w == h).map mapLocal
    let experts := if mapped.isEmpty then 1 + Config.unmappedExperts h % 64 else mapped.foldl (fun n x => max n (x + 1)) 1
    let counts := (upTo experts).map fun e => (order.filter fun a => loc a == e).length
    let rows ← haltOf (mapE (fun a => t.batchRowBytes id p.rows (a / p.k)) order)
    pure (t.enqueue id (homeFlow (p.homes.getD h 0)) 6 none (some (btStart d, btWindow d)) (some ⟨die, btTag d, gen⟩)
      (batchSlots (batchHeader gen (btTag d) die order.length p.rows.batchRow experts counts) rows.flatten))) s

def State.dispatchSend (s : State) (c : Cmd) : State :=
  let id := c.id
  if c.begun ∨ s.batchTested c then s
  else match s.sendPlan id c.desc with
    | .error h => s.halted id h
    | .ok p =>
      let die := s.cmdDie id
      let gen := s.stampOf c
      let n := p.cands.length * p.k
      let w := ({ s with freeCount := s.freeCount + n }).writeBytes (s.accOf id p.place) p.place.base (placement p s.freeCount)
      match w.2 with
      | some .wait => s
      | some e => w.1.failAcc id e
      | none => match w.1.sendMessages c p die gen with
        | .error h => s.halted id h
        | .ok s =>
          let placed := p.walk.placed.length
          let s := ((s.bump (regDie .dispatchPlaced die) placed).bump (regDie .dispatchDrops die) (n - placed)).bump
            (regDie .dispatchRedirects die) p.walk.redirected
          (s.updCmd id fun x => { x with begun := true, run := { x.run with
            stop := if isCancelled c then x.run.stop else some ⟨0, n - placed, detail4 p.walk.redirected 0 0 0⟩ } }).settleSend id

def execDispatchSend (id : CmdId) (s : State) : Host.Outcome State Fault Refusal := .next (s.onCmd id isSend fun c => s.dispatchSend c)

/-! ### COMBINE RETURN (R391) -/

def recField (r : List Byte) (i off n : Nat) : Nat := fieldN r (272 * i + off) n
def recCount (r : List Byte) (i e : Nat) : Nat := recField r i (8 + 4 * e) 4

/-- Rows of source `i` for expert `e` begin at row base(e) + Σ COUNT(s′, e); `count` gives COUNT. -/
def firstRow (count : Nat → Nat → Nat) (n i e : Nat) : Nat :=
  ((upTo e).map fun e' => ((upTo n).map fun s => count s e').foldl (· + ·) 0).foldl (· + ·) 0
    + ((upTo i).map fun s => count s e).foldl (· + ·) 0

/-- Rows of source `i` in message order. -/
def rowsOfSource (count : Nat → Nat → Nat) (n experts i : Nat) : List Nat :=
  ((upTo experts).map fun e => (upTo (count i e)).map fun k => firstRow count n i e + k).flatten

structure ReturnPlan where
  out : Tens
  srcs : List Nat
  record : List Byte

def State.returnPlan (s : State) (id : CmdId) (d : List Byte) : Except Halt ReturnPlan := do
  let out ← s.named id d 36
  let rc ← s.named id d 44
  let srcs ← s.sourceList id d
  refuse (violIf (rc.ext 0 < 272 * srcs.length) (viol .tensorRange rc.handle 44))
  let r ← haltOf (s.readBytes (s.accOf id rc) rc.base (272 * srcs.length))
  refuse ((upTo srcs.length).filterMap fun i =>
    if bitOf (recField r i 3 1) 0 then none else some (viol .descFormat rc.handle (272 * i + 3)))
  refuse (violIf ((upTo srcs.length).any fun i => (rowsOfSource (recCount r) srcs.length (btExperts d) i).any fun k => k ≥ out.rows)
    (viol .tensorRange out.handle 36))
  refuse (s.windowViols id.ctx d (srcs.map srcReturn)
    ++ violIf ((upTo srcs.length).any fun i =>
        s.capacity (srcReturn (srcs.getD i 0)) d out.batchRow < recField r i 4 4
          || 1 + ceilDiv (recField r i 4 4 * out.batchRow) 512 > 65536) admissionViol)
  pure ⟨out, srcs, r⟩

def combineUses (d : List Byte) : List HUse :=
  if btRole d = 0 then [useIn (u32 d 36) 36, useRaw (u32 d 40) 40 false, useRaw (u32 d 44) 44 false]
  else
    [⟨u32 d 36, 36, false, false, true, true⟩, useRaw (u32 d 40) 40 false, useIn (u32 d 44) 44, useRaw (u32 d 48) 48 false,
      useOut (u32 d 52) 52, (useIn (u32 d 60) 60).opt]

/-- A SUM's home list and placement record. -/
def State.sumPlan (s : State) (id : CmdId) (d : List Byte) : Except Halt (List Nat × List Byte) := do
  let pl ← s.named id d 40
  let w ← s.named id d 44
  let out ← s.named id d 52
  let homes ← s.homeList id d
  let n := out.rows * btK d
  refuse (violIf (pl.ext 0 < 8 * n) (viol .tensorRange pl.handle 40))
  let bs ← haltOf (s.readBytes (s.accOf id pl) pl.base (8 * n))
  refuse ((upTo n).filterMap fun a =>
    let x := u64 bs (8 * a)
    if bitsOf x 4 0 = 0x1F then none
    else if bitsOf x 4 0 ≥ w.cols then some (viol .descFormat pl.handle (8 * a))
    else if bitsOf x 27 16 ≥ homes.length then some (viol .descFormat pl.handle (8 * a + 2))
    else none)
  pure (homes, bs)

def State.checkCombine (s : State) (id : CmdId) (d : List Byte) : Verdict :=
  let on (o : Nat) (p : Tens → Bool) : List Viol := (s.tens? id.ctx (u32 d o)).elim [] fun t => violIf (p t) (viol .descFormat (u32 d o) o)
  let out := s.tens? id.ctx (u32 d 52)
  let m := out.elim 0 (·.rows)
  let h := out.elim 0 (·.cols)
  let v := s.verdict id (batchFormat d ++ ((combineUses d).map (s.useViols id.ctx)).flatten ++ on 36 (fun t => !batchFmt t)
    ++ (if isReturn d then []
        else on 36 (fun t => t.rows != m * btK d || t.cols != h) ++ on 44 (fun t => t.fmt != .fp32 || t.sparseN != 0 || t.rows != m || t.cols < btK d || t.cols > 16)
          ++ on 52 (fun t => t.sparseN != 0)
          ++ (if u32 d 60 = noHandle then [] else on 60 fun t => t.sparseN != 0 || t.rows != m || t.cols != h))) (combineUses d) []
  if v.ending.isSome then v
  else if isReturn d then v.orHalt (s.returnPlan id d) else v.orHalt (s.sumPlan id d)

def State.combineReturn (s : State) (c : Cmd) : State :=
  let id := c.id
  let d := c.desc
  if c.begun ∨ s.batchTested c then s
  else match s.returnPlan id d with
    | .error h => s.halted id h
    | .ok p =>
      let die := s.cmdDie id
      let n := p.srcs.length
      let sent : Except Halt State := (upTo n).foldlM (fun t i => do
        let rows ← haltOf (mapE (fun r => t.batchRowBytes id p.out r) (rowsOfSource (recCount p.record) n (btExperts d) i))
        let head := batchHeader (recField p.record i 0 2) (btTag d) die (recField p.record i 4 4) p.out.batchRow (btExperts d)
          ((upTo (btExperts d)).map fun e => recCount p.record i e)
        pure (t.enqueue id (srcReturn (p.srcs.getD i 0)) 7 none (some (btStart d, btWindow d)) none (batchSlots head rows.flatten))) s
      match sent with
      | .error h => s.halted id h
      | .ok s => (s.updCmd id fun x => { x with begun := true, run := { x.run with stop := some Status.ok.plain } }).settleSend id

def execCombineReturn (id : CmdId) (s : State) : Host.Outcome State Fault Refusal :=
  .next (s.onCmd id isReturn fun c => s.combineReturn c)

/-! ### Receiving (R387–R389, R392–R394) -/

def State.rxFlow (s : State) (f : Nat) : RxFlow := s.fabric.rx.getD f RxFlow.init
def State.updRx (s : State) (f : Nat) (g : RxFlow → RxFlow) : State := s.setFabric fun x => { x with rx := x.rx.upd f RxFlow.init g }

def hdTag (p : List Byte) : Nat := u8 p 2
def hdKeys (sl : Slot) : Nat × Nat := (sl.node, u8 sl.payload 3)
def hdTotal (p : List Byte) : Nat := u32 p 4
def hdRow (p : List Byte) : Nat := u32 p 8
def hdCount (p : List Byte) (e : Nat) : Nat := u32 p (16 + 4 * e)

/-- Peers a RECEIVE or SUM awaits, in the order of its list. -/
def peerTable (c : Cmd) : List Nat := let b := c.records.getD 3 []; words64 (b.length / 8) b
def peers (c : Cmd) : List (Nat × Nat) := (peerTable c).map (if isReceive c.desc then srcKeys else homeKeys)

def headOf (c : Cmd) (i : Nat) : List Byte := c.rx.heads.getD i []
def allHeads (c : Cmd) : Bool := (upTo (peers c).length).all fun i => !(headOf c i).isEmpty
def rowSlots (h : List Byte) : Nat := ceilDiv (hdTotal h * hdRow h) 512
def allRows (c : Cmd) : Bool :=
  allHeads c && (upTo (peers c).length).all fun i => (c.rx.got.getD i []).length == rowSlots (headOf c i)

/-- The pointer list of a RECEIVE (R388). -/
def pointerList (count : Nat → Nat → Nat) (n experts stride pitch : Nat) (tpl : List Byte) : List Byte :=
  ((upTo experts).map fun e =>
    let b := firstRow count n 0 e
    let t := sliceB tpl (32 * e) 32
    leBytes 8 (b * stride) ++ sliceB t 8 8 ++ leBytes 8 (b * pitch)
      ++ leBytes 4 (((upTo n).map fun s => count s e).foldl (· + ·) 0) ++ sliceB t 28 4).flatten

/-- The batch record of one source. -/
def batchRecord (experts : Nat) (h : List Byte) : List Byte :=
  record 272 ([(0, 2, u16 h 0), (2, 1, hdTag h), (3, 1, 1), (4, 4, hdTotal h)] ++ (upTo experts).map fun e => (8 + 4 * e, 4, hdCount h e))

/-- A RECEIVE whose every row is written ends (R388). -/
def State.endReceive (s : State) (c : Cmd) : State :=
  let id := c.id
  let d := c.desc
  let n := (peers c).length
  let count (i e : Nat) : Nat := hdCount (headOf c i) e
  match s.tensRun id.ctx (u32 d 36), s.tensRun id.ctx (u32 d 44), s.tensRun id.ctx (u32 d 48), s.tensRun id.ctx (u32 d 52) with
  | some inT, some tpl, some pl, some rc =>
    match s.readBytes (s.accOf id tpl) tpl.base (32 * btExperts d) with
    | .error .wait => s
    | .error e => s.failAcc id e
    | .ok t =>
      let w := s.writeBytes (s.accOf id pl) pl.base (pointerList count n (btExperts d) (inT.stride.getD 1 0) (u32 d 60) t)
      let v := w.1.writeBytes (s.accOf id rc) rc.base ((upTo n).map fun i => batchRecord (btExperts d) (headOf c i)).flatten
      match (if w.2.isSome then w.2 else v.2) with
      | some .wait => s
      | some e => v.1.failAcc id e
      | none => v.1.finish id (okAux (((upTo n).map fun i => hdTotal (headOf c i)).foldl (· + ·) 0))
  | _, _, _, _ => s

/-- One token of a SUM (R393). `slots`: weight and returned row of each placed assignment, in rank order. -/
def combineRow (h : Nat) (renorm : Bool) (slots : List (FVal × List FVal)) (resid : Option (List FVal)) : List FVal :=
  let wsum := slots.foldl (fun a x => add32 a x.1) .zero
  (upTo h).map fun i =>
    let acc := slots.foldl (fun a x => add32 a (mul32 x.1 (x.2.getD i .zero))) .zero
    let acc := if renorm then (if wsum.isZero then .zero else mul32 acc (recipSF wsum)) else acc
    match resid with
    | some r => add32 (r.getD i .zero) acc
    | none => acc

/-- A SUM whose every row is stored computes its result and ends. -/
def State.endSum (s0 : State) (c : Cmd) : State :=
  let s := s0
  let id := c.id
  let d := c.desc
  let k := btK d
  let place := c.records.getD 2 []
  match s.tensRun id.ctx (u32 d 36), s.tensRun id.ctx (u32 d 44), s.tensRun id.ctx (u32 d 52) with
  | some ret, some wt, some out =>
    let res := if u32 d 60 = noHandle then none else s.tensRun id.ctx (u32 d 60)
    let rd (t : Tens) : Except AccErr (List (List FVal)) := s.readAll (s.accOf id t) .fp32 t (s.readScale id t) 0
    s.afterReads id (s.badOperand id res.toList) (rd ret) fun rs =>
      s.afterReads id (.ok none) (rd wt) fun ws =>
        s.afterReads id (.ok none) (match res with
          | some t => rd t
          | none => .ok []) fun xs =>
          let rows := (upTo out.rows).map fun t =>
            let slots := (upTo k).filterMap fun j =>
              let p := bitsOf (u64 place (8 * (t * k + j))) 4 0
              if p = 0x1F then none else some ((ws.getD t []).getD p .zero, rs.getD (t * k + j) [])
            combineRow out.cols (sumRenorm d) slots (res.map fun _ => xs.getD t [])
          let s := s.moved id ret 0 (ret.rowReadBytes * ret.rows) 0
          let a := s.writeAll id out (sumRound d) (u32 d 72) rows
          s0.wrote a.1 id out (u32 d 72) a.2.1 a.2.2
  | _, _, _ => s

/-- End a RECEIVE or SUM that has everything. -/
def State.settleBatch (s : State) (id : CmdId) : State :=
  s.onCmd id (fun d => isReceive d || isSum d) fun c =>
    if !c.begun ∨ !allRows c ∨ s.batchTested c then s else if isReceive c.desc then s.endReceive c else s.endSum c

/-- Placements of a SUM on home `h`. -/
def placementsOn (c : Cmd) (h : Nat) : Tab Nat :=
  let b := c.records.getD 2 []
  (upTo (b.length / 8)).filterMap fun a =>
    let x := u64 b (8 * a)
    if bitsOf x 4 0 ≠ 0x1F ∧ bitsOf x 27 16 = h then some (a, x / 2 ^ 32) else none

/-- Whether a header is one that its command cannot use (R389, R392). -/
def State.badHeader (s : State) (c : Cmd) (i : Nat) (p : List Byte) : Bool :=
  let rb := (s.tensRun c.id.ctx (u32 c.desc 36)).elim 0 Tens.batchRow
  hdRow p != rb || (if isReceive c.desc then u8 p 12 != btExperts c.desc else hdTotal p != (placementsOn c i).length)

/-- A command takes a header of peer `i`. -/
def State.takeHead (s : State) (c : Cmd) (i : Nat) (flow : Nat) (sl : Slot) : State :=
  if s.badHeader c i sl.payload then s.finish c.id Status.flowLost.plain
  else
    let s := s.updCmd c.id fun x => { x with rx := { x.rx with heads := x.rx.heads.set i sl.payload } }
    let rx : BatchRx := ⟨sl.sent, some c.id, i, false⟩
    (s.updRx flow fun x => { x with batches := (x.batches.filter fun b => b.sent != sl.sent) ++ [rx] }).settleBatch c.id

/-- Commands of one role that a header of a tag can serve on a die, oldest first. -/
def State.batchTakers (s : State) (die ctx tag : Nat) (recv : Bool) : List Cmd :=
  s.cmds.filter fun c => c.begun && c.ending.isNone && c.id.ctx == ctx && btTag c.desc == tag && s.cmdDie c.id == die
    && (if recv then isReceive c.desc else isSum c.desc)

/-- The peer of a command that a header names and that is still awaited. -/
def awaits (c : Cmd) (keys : Nat × Nat) : Option Nat :=
  firstIdx (peers c).length fun i => (peers c).getD i (0, 0) == keys && (headOf c i).isEmpty

/-- A batch header delivered on a die; `recv`: of a DISPATCH (R387, R392, R398). -/
def State.batchHead (s : State) (die : Nat) (f : FlowRec) (sl : Slot) (recv : Bool) : State :=
  let tag := hdTag sl.payload
  let note (s : State) (id : Option CmdId) (stale : Bool) : State := s.updRx f.flow fun x =>
    { x with batches := (x.batches.filter fun b => b.sent != sl.sent) ++ [⟨sl.sent, id, 0, stale⟩] }
  if !recv ∧ u16 sl.payload 0 ≠ s.batchGenOf die f.ctx tag then note (s.bump (regCtx .cancelledReturns f.ctx) 1) none true
  else
    let cs := s.batchTakers die f.ctx tag recv
    match cs.find? fun c => (awaits c (hdKeys sl)).isSome with
    | some c => s.takeHead c ((awaits c (hdKeys sl)).getD 0) f.flow sl
    | none =>
      if recv ∧ !cs.isEmpty ∧ !(cs.any fun c => (peers c).contains (hdKeys sl)) then note (s.bump (regDie0 .remoteDenied) 1) none false
      else note (s.setFabric fun x => { x with headers := x.headers ++ [⟨f.flow, die, sl⟩] }) none false

/-- Headers that wait are offered to a command that begins to take them. -/
def State.takeWaiting (s : State) (id : CmdId) : State :=
  s.fabric.headers.foldl (fun t w =>
    t.onCmd id (fun d => isReceive d || isSum d) fun c =>
      let mine := t.cmdDie id == w.die && hdTag w.slot.payload == btTag c.desc
        && w.slot.type == (if isReceive c.desc then 6 else 7) && (t.activeFlow w.flow).any fun r => r.ctx == id.ctx
      let drop (u : State) : State := u.setFabric fun x => { x with headers := x.headers.filter fun y => y != w }
      if !mine then t
      else match awaits c (hdKeys w.slot) with
        | some i => (drop t).takeHead c i w.flow w.slot
        | none => if isReceive c.desc ∧ !(peers c).contains (hdKeys w.slot) then (drop t).bump (regDie0 .remoteDenied) 1 else t) s

/-- Write the bytes of a row slot: each piece goes to the row its place in the message names. -/
def State.placeRows (s : State) (id : CmdId) (t : Tens) (rb : Nat) (dest : Nat → Option Nat) : Nat → Nat → List Byte → State × Option AccErr
  | 0, _, _ => (s, none)
  | fuel + 1, a, bs =>
    if bs.isEmpty ∨ rb = 0 then (s, none)
    else
      let n := rb - a % rb
      match dest (a / rb) with
      | none => s.placeRows id t rb dest fuel (a + n) (bs.drop n)
      | some r =>
        if r ≥ t.rows then (s, some .range)
        else
          let w := s.writeBytes (s.accOf id t) (t.blockAddr 0 (t.outer r) 0 + a % rb) (bs.take n)
          if w.2.isSome then w else w.1.placeRows id t rb dest fuel (a + n) (bs.drop n)

/-- A row slot for a command (R387, R392); none: it waits at a bank under handover (R81). -/
def State.batchRowSlot (s : State) (c : Cmd) (i : Nat) (sl : Slot) : Option State :=
  let id := c.id
  let h := headOf c i
  let got := c.rx.got.getD i []
  if isReceive c.desc ∧ !allHeads c then some (s.finish id Status.flowLost.plain)
  else if got.contains sl.seq ∨ sl.seq > rowSlots h then some s
  else match s.tensRun id.ctx (u32 c.desc 36) with
    | none => some s
    | some t =>
      let count (i e : Nat) : Nat := hdCount (headOf c i) e
      let order := if isReceive c.desc then rowsOfSource count (peers c).length (btExperts c.desc) i else []
      let place := if isReceive c.desc then [] else placementsOn c i
      let dest (k : Nat) : Option Nat :=
        if isReceive c.desc then order[k]? else (place.find? fun e => e.2 == k).map fun e => e.1
      let a := (sl.seq - 1) * 512
      let w := s.placeRows id t (hdRow h) dest 513 a (sl.payload.take (hdTotal h * hdRow h - a))
      match w.2 with
      | some .wait => none
      | some e => some (w.1.failAcc id e)
      | none => some ((w.1.updCmd id fun x => { x with rx := { x.rx with got := x.rx.got.set i (got ++ [sl.seq]) } }).settleBatch id)

/-- A DISPATCH or COMBINE slot that its unit takes. -/
def State.takeBatch (s : State) (die : Nat) (f : FlowRec) (sl : Slot) : Option State :=
  let recv := sl.type == 6
  if sl.seq = 0 then some (s.batchHead die f sl recv)
  else match (s.rxFlow f.flow).batches.find? fun b => b.sent == sl.sent with
    | none => some s
    | some b =>
      if b.stale then some (s.bump (regCtx .cancelledReturns f.ctx) 1)
      else match b.id.bind s.cmd? with
        | none => some s
        | some c => if c.ending.isSome then some s else s.batchRowSlot c b.index sl

def listBytes (ws : List Nat) : List Byte := (ws.map (leBytes 8)).flatten

/-- Begin taking headers, with the tables read. -/
def State.beginBatch (s : State) (c : Cmd) (recs : Tab (List Byte)) : State :=
  ((s.updCmd c.id fun x => { x with begun := true, records := recs }).takeWaiting c.id).settleBatch c.id

def execDispatchReceive (id : CmdId) (s : State) : Host.Outcome State Fault Refusal :=
  .next (s.onCmd id isReceive fun c =>
    if s.batchTested c then s
    else if c.begun then s.settleBatch id
    else match s.receivePlan id c.desc with
      | .error h => s.halted id h
      | .ok srcs => s.beginBatch c [(3, listBytes srcs)])

def execCombineSum (id : CmdId) (s : State) : Host.Outcome State Fault Refusal :=
  .next (s.onCmd id isSum fun c =>
    if s.batchTested c then s
    else if c.begun then s.settleBatch id
    else match s.sumPlan id c.desc with
      | .error h => s.halted id h
      | .ok (homes, place) => s.beginBatch c [(2, place), (3, listBytes homes)])

/-- BATCH_DEADLINE (R389, R394). -/
def execBatchDeadline (id : CmdId) (s : State) : Host.Outcome State Fault Refusal :=
  .next (s.onCmd id (fun d => isReceive d || isSum d) fun c =>
    let late := (decide (btStart c.desc + 22 ≤ s.frame) && !(c.begun && allHeads c))
      || (decide (btEnd c.desc + 21 ≤ s.frame) && !(c.begun && allRows c))
    if late then s.finish id Status.flowLost.plain else s)

/-! ### Cancelling (R396–R398) -/

def checkBatchCancel (d : List Byte) : Verdict := Verdict.of (bodyViols d [bytesSpan 32 1]) []

def execBatchCancel (id : CmdId) (s : State) : Host.Outcome State Fault Refusal :=
  .next (s.onCmd id (isOpcode 0x0063) fun c =>
    if c.begun then s
    else
      let k : Cancel := ⟨s.cmdDie id, id.ctx, u8 c.desc 32, s.frame + 1, id⟩
      (s.setFabric fun f => { f with cancels := f.cancels ++ [k] }).updCmd id fun x => { x with begun := true })

/-- A message of a cancelled SEND: a header alone, or zero rows for what is left (R397). -/
def OutMsg.cancelled (m : OutMsg) : OutMsg :=
  if !m.begun then
    let h := (m.slots.getD 0 (0, [])).2
    { m with slots := [(3, padTo 512 (h.take 4 ++ zeros 4 ++ sliceB h 8 8))] }
  else
    let zeroed (k : Nat) : Nat × List Byte :=
      if m.gone k then m.slots.getD k (0, []) else ((m.slots.getD k (0, [])).1 ||| 8, zeros 512)
    { m with slots := (upTo m.slots.length).map zeroed }

/-- The generation of a tag advances. -/
def State.advanceGen (s : State) (k : Cancel) : State :=
  let old := s.batchGenOf k.die k.ctx k.tag
  let new := (old + 1) % 65536
  let mine (c : Cmd) : Bool := c.ending.isNone && c.id.ctx == k.ctx && btTag c.desc == k.tag && s.cmdDie c.id == k.die
  let e := cancelledEnding k.tag old
  let sends := s.cmds.filter fun c => mine c && isSend c.desc && !isCancelled c
    && (!c.begun || s.fabric.out.any fun m => m.id == some c.id)
  let sums := s.cmds.filter fun c => mine c && isSum c.desc
  let sumIds : List (Option CmdId) := sums.map fun c => some c.id
  let gone := s.fabric.headers.filter fun w => w.die == k.die && w.slot.type == 7 && hdTag w.slot.payload == k.tag
    && (s.activeFlow w.flow).any fun r => r.ctx == k.ctx
  let s := s.setFabric fun f =>
    { f with
      batchGen := f.batchGen.set (genKey k.die k.ctx k.tag) new, cancels := f.cancels.erase k,
      out := f.out.map fun m => if sends.any (fun c => m.id == some c.id) then m.cancelled else m,
      headers := f.headers.filter fun w => !gone.contains w,
      rx := f.rx.mapVals fun flow x => { x with batches := x.batches.map fun b =>
        if (b.id.isSome && sumIds.contains b.id) || gone.any (fun w => w.flow == flow && w.slot.sent == b.sent) then { b with stale := true }
        else b } }
  let s := sends.foldl (fun t c => t.updCmd c.id fun x => { x with run := { x.run with stop := some e } }) s
  let s := sums.foldl (fun t c => t.finish c.id e) s
  s.finish k.by' (okAux new)

def execBatchGenerationAdvance (die ctx tag : Nat) (s : State) : Host.Outcome State Fault Refusal :=
  .next (match s.fabric.cancels.find? fun k => k.die == die && k.ctx == ctx && k.tag == tag with
    | some k => if k.frame ≤ s.frame then s.advanceGen k else s
    | none => s)

end Sys2Proof.Machine
end

