-- ==== Sys2Proof/Machine/Slots.lean ====
section
/-!
DEFINITION. Machine/Slots.lean: slots as they leave (R322–R325, R328, R352, R362, R363, R367, R371) and as they are presented
(R321, R324, R329, R331, R353–R360), the destination units, and the loss of slots (R369, R372).
-/
namespace Sys2Proof.Machine

/-! ### Slots -/

def idleSlot : Slot := ⟨0, 0, 0, 0, 0, 0, 0, 0, 0, zeros 512⟩
/-- A MISSED slot carries the entry's FLOW and zeros (R355). -/
def missedSlot (flow : Nat) : Slot := { idleSlot with kind := 2, flow }

/-- A slot from its header and payload (Table 13-3). -/
def slotOf (h pl : List Byte) : Slot :=
  { kind := bitsOf (u8 h 0) 3 0, type := u8 h 1, flow := u16 h 2, epoch := u16 h 4, hops := u8 h 6, flags := u8 h 7, node := u16 h 8,
    seq := u16 h 10, sent := u32 h 12, payload := padTo 512 pl }

def Slot.isLast (sl : Slot) : Bool := bitOf sl.flags 1
def Slot.isResend (sl : Slot) : Bool := bitOf sl.flags 2
def Slot.isZero (sl : Slot) : Bool := bitOf sl.flags 3

/-- The 16-byte header of a slot sealed under a key phase (Table 13-3). -/
def Slot.header (sl : Slot) (phase : Bool) : List Byte :=
  record 16 [(0, 1, sl.kind + 16 * b2n phase), (1, 1, sl.type), (2, 2, sl.flow), (4, 2, sl.epoch), (6, 1, sl.hops), (7, 1, sl.flags),
    (8, 2, sl.node), (10, 2, sl.seq), (12, 4, sl.sent)]

/-! ### Sealing (R327, R328) -/

/-- The 96-bit IV of a slot: salt, 48 bits of FRAME_CTR and slot number, most significant byte first. -/
def slotIv (k : LinkKey) (ctr n : Nat) : List Byte := (leBytes 4 k.salt).reverse ++ (leBytes 6 ctr).reverse ++ (leBytes 2 n).reverse

/-- A payload under the keystream of a slot: what enciphers it deciphers it. -/
def cipher (k : LinkKey) (ctr n : Nat) (pl : List Byte) : List Byte :=
  (upTo 512).map fun i => pl.getD i 0 ^^^ Config.gcmStream k.key (slotIv k ctr n) i

/-- The tag of a slot: GCM's over header and ciphertext, or, before keys are installed, the first 16 bytes of SHAKE256 over header
and payload (R328, R333). -/
def slotTag (k : Option LinkKey) (ctr n : Nat) (h body : List Byte) : List Byte :=
  padTo 16 (match k with
    | some k => Config.gcmTag k.key (slotIv k ctr n) h body
    | none => Config.shake256 16 (h ++ body))

/-- The payload as it is sent: ciphertext under a key, in clear before. -/
def slotBody (k : Option LinkKey) (ctr n : Nat) (pl : List Byte) : List Byte :=
  match k with
  | some k => cipher k ctr n pl
  | none => padTo 512 pl

/-- The 544 bytes of a slot (R322). -/
def sealBytes (k : Option LinkKey) (phase : Bool) (ctr n : Nat) (sl : Slot) : List Byte :=
  let h := sl.header phase
  let b := slotBody k ctr n sl.payload
  h ++ b ++ slotTag k ctr n h b

/-- The header and payload of received bytes, where their tag verifies under a key and FRAME_CTR. -/
def openBytes (k : Option LinkKey) (ctr n : Nat) (bs : List Byte) : Option (List Byte × List Byte) :=
  let h := sliceB bs 0 16
  let b := sliceB bs 16 512
  if slotTag k ctr n h b = sliceB bs 528 16 then some (h, slotBody k ctr n b) else none

/-! ### Origins (R367, R370, R371, R378) -/

/-- Whether slot `k` of a message may depart in frame `g`. -/
def OutMsg.departs (m : OutMsg) (k g : Nat) : Bool :=
  match m.window with
  | none => true
  | some (w0, n) => if k = 0 then decide (w0 ≤ g) else decide (w0 + 24 ≤ g) && decide (g < w0 + n)

/-- Slots retained on a die. -/
def State.retainedOn (s : State) (d : Nat) : Nat := (s.fabric.retained.filter fun r => r.port / 5 == d).length

/-- Slot `q` of a message, as it leaves in frame `g`. -/
def OutMsg.slotAt (m : OutMsg) (q node epoch g : Nat) : Slot :=
  let x := m.slots.getD q (0, [])
  { kind := 1, type := m.type, flow := m.flow, epoch, hops := 0, flags := x.1, node, seq := q,
    sent := (if m.begun then m.sentFrame else g) % 2 ^ 32, payload := padTo 512 x.2 }

/-- A message after its slot `q` has departed in frame `g`. -/
def OutMsg.depart (m : OutMsg) (q g : Nat) : OutMsg :=
  let next := ((upTo m.slots.length).find? fun i => !(m.gone i || i == q)).getD m.slots.length
  { m with next, ahead := (q :: m.ahead).filter fun i => decide (next < i), sentFrame := if m.begun then m.sentFrame else g }

/-- Message `k` of those waiting sends its slot `q`. -/
def State.advanceMsg (s : State) (k : Nat) (m : OutMsg) (q g : Nat) : State :=
  let m' := m.depart q g
  s.setFabric fun f => { f with out := if m'.next < m.slots.length then f.out.set k m' else f.out.eraseIdx k }

/-- Of the slots that wait on a flow in the order they are to leave, the one with `r` before it: its message and SEQ (R367). -/
def pickSlot (flow g : Nat) : List OutMsg → Nat → Nat → Option (Nat × Nat)
  | [], _, _ => none
  | m :: t, k, r =>
    if m.be.isSome ∨ m.flow ≠ flow then pickSlot flow g t (k + 1) r
    else
      let qs := (upTo m.slots.length).filter fun i => !m.gone i
      let now := qs.takeWhile fun i => m.departs i g
      if r < now.length then some (k, now.getD r 0)
      else if now.length < qs.length then none
      else pickSlot flow g t (k + 1) (r - qs.length)

/-- Entries of a flow's origin that stand before one in (port, slot) order and whose turn in this frame is still to come. -/
def State.entriesBefore (s : State) (t : SlotTable) (i p n flow : Nat) : Nat :=
  (t.tx.filter fun x =>
    let (q, m) := (entryPort x.1, entrySlot x.1)
    x.2.originates flow && entryIdx x.1 == i && decide (x.1 < entryNo i p n) && s.portUp q && decide (s.now % 1024 < 9 * m + 9)
      && !((s.port q).sent.any fun z => decide (s.frame * 128 + m ≤ z.frame * 128 + z.index))).length

/-- A message of a dispatcher or combiner under test: none of its slots leaves (R459). -/
def State.holdsBack (s : State) (m : OutMsg) : Bool :=
  m.id.any fun id => (m.type == 6 && s.underTest (s.cmdDie id) 2) || (m.type == 7 && s.underTest (s.cmdDie id) 3)

/-- A DATA slot of its own that this module sends, kept in mind for EMPTY answers (R369). -/
def State.noteDeparted (s : State) (p n : Nat) : State :=
  s.setFabric fun f =>
    { f with departed := (f.departed.filter fun e => decide (s.frame ≤ e.2.2 + 64)) ++ [(p, n, s.frame)] }

/-- The slot of its own that this module sends in an ORIGIN entry, or as the local contribution of a REDUCE entry: messages of
a flow in command order, their slots in SEQ order, over the flow's entries in (frame, port, slot) order (R367). -/
def State.originSlot (s : State) (p n flow : Nat) : State × Option Slot :=
  let g := s.frame
  match s.tableIn g, s.activeFlow flow with
  | some (t, i), some r =>
    if s.cutOff ∨ s.retainedOn (p / 5) ≥ 8192 then (s, none)
    else match pickSlot flow g s.fabric.out 0 (s.entriesBefore t i p n flow) with
      | none => (s, none)
      | some (k, q) =>
        match s.fabric.out[k]? with
        | none => (s, none)
        | some m =>
          if s.holdsBack m then (s, none) else
          let sl := m.slotAt q s.node r.epoch g
          let kept : Retained := ⟨m.id, p, n, g, r.hops, r.repairFlow, false, none, sl⟩
          (((s.advanceMsg k m q g).setFabric fun f => { f with retained := f.retained ++ [kept] }).noteDeparted p n, some sl)
  | _, _ => (s, none)

/-- A requested slot that leaves again on its repair route. -/
def State.resendSlot (s : State) (p n flow : Nat) : State × Option Slot :=
  let g := s.frame
  let due (r : Retained) : Bool :=
    r.requested && r.repairFlow == flow && decide (r.frame + 2 * r.hops + 1 ≤ g) && decide (g ≤ r.frame + 2 * r.hops + 3)
  let k := s.fabric.retained.findIdx due
  match s.fabric.retained[k]? with
  | some r =>
    (((s.setFabric fun f => { f with retained := f.retained.set k { r with requested := false, resent := some (p, n, g) } }).bump
      (regDie0 .resends) 1).noteDeparted p n, some { r.slot with flags := r.slot.flags ||| 4 })
  | none => (s, none)

def State.ownSlot (s : State) (p n : Nat) (e : TxEnt) : State × Option Slot :=
  if e.repair then s.resendSlot p n e.flow else s.originSlot p n e.flow

/-- A best-effort slot of a port and flow, for one credit (R367). -/
def State.bestEffort (s : State) (p flow : Nat) : State × Option Slot :=
  let k := s.fabric.out.findIdx fun m => m.be == some p && m.flow == flow
  match s.fabric.out[k]? with
  | none => (s, none)
  | some m =>
    if (s.port p).credit = 0 ∨ s.cutOff then (s, none)
    else
      let sl := m.slotAt m.next s.node ((s.activeFlow m.flow).elim m.epoch (·.epoch)) s.frame
      let s := (s.advanceMsg k m m.next s.frame).updPort p fun x => { x with credit := x.credit - 1 }
      ((m.id.elim s fun id => s.settleSend id), some sl)

/-! ### In-network reduce (R361–R363) -/

/-- The 480 values of a data slot, decoded to FP32. -/
def gradVals (pl : List Byte) : List FVal :=
  (upTo 480).map fun i => toF32 ((e8m0 (u8 pl (480 + i / 32))).mul (decodeF (mxField .mxfp8) (u8 pl i)))

/-- The output slot of a REDUCE entry from its contributions in order, each with whether it is the local one; the header is that of
the first counted contribution, with HOPS advanced where it came in on a port (log entry 42). -/
def reduceSlots (flow : Nat) (cs : List (Bool × Slot)) : Slot :=
  if cs.any fun c => c.2.kind == 2 then missedSlot flow
  else
    let ds := cs.filter fun c => c.2.kind == 1
    match ds with
    | [] => idleSlot
    | first :: _ =>
      let head := if first.1 then first.2 else { first.2 with hops := first.2.hops + 1 }
      if head.type = 5 ∧ head.seq = 0 then
        let conflict := ds.any fun c => c.2.payload != first.2.payload || bitOf c.2.flags 4
        { head with flags := if conflict then head.flags ||| 16 else head.flags }
      else
        let sum := (ds.foldl (fun a c => a + u16 c.2.payload 496) 0) % 65536
        let nonfinite := ds.any fun c => bitOf (u8 c.2.payload 498) 0
        let flags := head.flags &&& 0xF7
        match (ds.filter fun c => !c.2.isZero).map fun c => gradVals c.2.payload with
        | [] => { head with flags := flags ||| 8, payload := gradPayload [] sum false }
        | v :: vs =>
          let total := vs.foldl (zip2 add32) v
          let blocks := (chunks 32 16 total).map fun b => let e := encodeMX .mxfp8 (fun _ => .rne) b; (e.1, e.2.1)
          { head with flags, payload := gradPayload blocks sum nonfinite }

/-- The slot presented on a port in this frame; IDLE where none was. -/
def State.inAt (s : State) (p n : Nat) : Slot :=
  if s.fabric.inFrame = s.frame then
    ((s.fabric.inSlots.find? fun x => x.port == p && x.index == n).map fun x => x.slot).getD idleSlot
  else idleSlot

/-- The inputs of a REDUCE entry in ascending REDUCE_ORDER. -/
def SlotTable.ordered (t : SlotTable) (e : Nat) : Tab RxEnt :=
  let xs := t.inputs e
  ((upTo 16).map fun k => xs.filter fun x => x.2.order == k).flatten

/-! ### The frame control slot (R325, R352, R368, R430) -/

def decisionFields (o : Nat) : Option Decision → List (Nat × Nat × Nat)
  | none => []
  | some d => [(o, 4, d.step), (o + 4, 1, 1 + 2 * b2n d.commit + 4 * b2n d.span2), (o + 6, 2, d.reasons), (o + 8, 8, d.frame)]

/-- Repair entries that the control slot of frame `g` carries: at most eight. -/
def PortSt.repairNow (x : PortSt) (g : Nat) : List RepEnt := (x.repair.filter fun r => decide (r.due ≤ g)).take 8

def repWord (r : RepEnt) : Nat := r.kind + r.slot * 4 + r.run * 2 ^ 9 + r.frameLo % 65536 * 2 ^ 16 + r.flow * 2 ^ 32 + r.epoch * 2 ^ 48

/-- The fragment that the next control slot carries, with its message; none while it is not known yet. -/
def PortSt.nextFrag (x : PortSt) : Option (MgmtOut × List Byte) :=
  match x.mgmt with
  | [] => none
  | m :: _ => if m.count ≤ 1 ∧ m.frags.isEmpty then some (m, []) else m.frags[x.mgmtNext]?.map fun b => (m, b)

/-- The management queue after a control slot has left, with the data it carried. -/
def PortSt.fragSent (x : PortSt) : PortSt :=
  match x.nextFrag with
  | none => x
  | some (m, b) =>
    let x := { x with auth := x.auth.map fun (a : AuthSt) => { a with sent := a.sent ++ b } }
    if m.count ≤ x.mgmtNext + 1 then { x with mgmt := x.mgmt.drop 1, mgmtNext := 0 } else { x with mgmtNext := x.mgmtNext + 1 }

/-- The payload of the control slot of frame `g` on a port. -/
def State.controlPayload (s : State) (p g : Nat) : List Byte :=
  let x := s.port p
  let t := s.time
  let f := s.fabric
  let reps := x.repairNow g
  let c := s.step.field
  let parent := t.role = .follower ∧ s.timeParent = p
  let node := if t.role = .master then s.node else t.masterNode
  record 512 ([(0, 8, g * 1024), (8, 8, x.echoTx), (16, 8, x.echoRx), (24, 2, node), (26, 1, t.masterHops),
      (27, 1, b2n t.locked + 2 * b2n t.holdover), (28, 2, s.node), (30, 1, p),
      (32, 4, f.active.elim 0 (·.id)), (36, 4, f.standby.elim 0 (·.id)), (40, 8, f.pendingSwitch.elim 0 (·.frame)),
      (48, 1, b2n (f.pendingSwitch.any fun q => q.failover)), (49, 1, min 64 x.creditBack),
      (64, 4, c.step), (68, 4, c.ready), (72, 2, c.reasons), (74, 1, b2n c.valid + 2 * b2n parent)]
    ++ decisionFields 76 s.step.last ++ decisionFields 92 s.step.prev
    ++ ((upTo reps.length).map fun i => (128 + 8 * i, 8, repWord (reps.getD i ⟨0, 0, 0, 0, 0, 0, 0⟩)))
    ++ (match x.nextFrag with
      | none => []
      | some (m, b) => [(192, 1, m.type), (194, 2, x.mgmtNext), (196, 2, m.count), (198, 2, b.length), (200, 280, leValue b)]))

/-- What a sent control slot uses up. -/
def State.controlSent (s : State) (p g : Nat) : State :=
  s.updPort p fun x =>
    let later := (x.repair.filter fun r => decide (g < r.due)) ++ ((x.repair.filter fun r => decide (r.due ≤ g)).drop 8)
    { x.fragSent with repair := later, creditBack := x.creditBack - min 64 x.creditBack, txTimes := (g * 1024 :: x.txTimes).take 64 }

/-! ### SLOT_TRANSMIT -/

/-- What slot `n` of a port carries in this frame. -/
def State.chooseSlot (s : State) (p n : Nat) : State × Slot :=
  let g := s.frame
  let own (r : State × Option Slot) : State × Slot := (r.1, r.2.getD idleSlot)
  if n = 0 then
    (s.controlSent p g, { idleSlot with kind := 3, node := s.node, sent := g % 2 ^ 32, payload := s.controlPayload p g })
  else if !s.portUp p then (s, idleSlot)
  else match s.tableIn g with
    | none => (s, idleSlot)
    | some (t, i) =>
      match t.txAt i p n with
      | none => (s, idleSlot)
      | some e =>
        match e.kind with
        | 1 => own (s.ownSlot p n e)
        | 2 =>
          let sl := s.inAt e.inPort e.inSlot
          (s, if sl.kind = 1 then { sl with hops := sl.hops + 1 } else if sl.kind = 2 then missedSlot e.flow else idleSlot)
        | 3 =>
          let r := if e.local' then own (s.ownSlot p n e) else (s, idleSlot)
          let ins := (t.ordered (entryNo i p n)).map fun x => (false, s.inAt (entryPort x.1) (entrySlot x.1))
          (r.1, reduceSlots e.flow ((if e.local' then [(true, r.2)] else []) ++ ins))
        | 4 => own (s.bestEffort p e.flow)
        | _ => (s, idleSlot)

/-- A slot leaves a port, sealed under the transmit key (R328); after slot 112 FRAME_CTR advances. -/
def State.seal (s : State) (p n : Nat) (sl : Slot) : State :=
  let x := s.port p
  let ctr := s.rd (portReg .txFrameCtr p)
  let bs := sealBytes x.txKey x.keyPhase ctr n sl
  let s := s.updPort p fun y => { y with sent := some ⟨s.frame, n, x.txKey, ctr, x.keyPhase, sl, bs⟩, wire := y.wire.set n bs }
  let s := if sl.kind = 1 then s.pmc (p / 5) 8 (p % 5) 1 none 1 else if sl.kind = 0 then s.pmc (p / 5) 8 (p % 5) 3 none 1 else s
  if n = 112 ∧ x.txKey.isSome then s.bump (portReg .txFrameCtr p) 1 else s

/-- The pip interval of slot `n` in a frame: offsets 9n to 9n + 8 (R13). -/
def State.inSlotTime (s : State) (n : Nat) : Bool := decide (9 * n ≤ s.now % 1024) && decide (s.now % 1024 ≤ 9 * n + 8)

/-- Whether the present pip lies in the slot's interval, the port sends, and the slot has not left yet. -/
def State.sendsNow (s : State) (p n : Nat) : Bool :=
  let x := s.port p
  p < 40 && n ≤ 112 && x.mode != .down && s.inSlotTime n
    && (x.txKey.isNone || decide (s.rd (portReg .txFrameCtr p) < 2 ^ 48))
    && !(x.sent.any fun q => decide (s.frame * 128 + n ≤ q.frame * 128 + q.index))

def execSlotTransmit (port slot : Nat) (s : State) : Host.Outcome State Fault Refusal :=
  let s := s.keySwitch port
  .next (if s.sendsNow port slot then
      let r := s.chooseSlot port slot
      r.1.seal port slot r.2
    else s)

/-! ### The frame on the wire (R320) -/

/-- The 64,250 bytes of frame `f` from the bytes of its slots (Table 13-2). -/
def frameBytes (f : Nat) (slots : Tab (List Byte)) : List Byte :=
  ((upTo 113).map fun n => padTo 544 (slots.getD n []) ++ zeros 20).flatten
    ++ leBytes 8 0x4D5AC3A91E66B2F0 ++ leBytes 8 f ++ zeros 502

/-- The frame that a port is sending, as far as its slots have left. -/
def State.frameOnWire (s : State) (p : Nat) : List Byte := frameBytes s.frame (s.port p).wire

/-- Codewords (of 5,140 bits) that hold a byte of slot `n` (R320, R321). -/
def codewordsOf (n : Nat) : List Nat :=
  (upTo 100).filter fun k => decide (564 * n * 8 < 5140 * (k + 1)) && decide (5140 * k < (564 * n + 544) * 8)

/-! ### Destination units -/

/-- A remote write or addition of one slot (R357, R560); none: it waits at a bank under handover to its context (R81). -/
def State.takeWrite (s : State) (f : FlowRec) (sl : Slot) : Option State :=
  let p := sl.payload
  let a := u64 p 0
  let n := u16 p 8
  let fmt := u8 p 10
  let add := sl.type == 2
  let bad (s : State) : Option State := some (s.bump (regDie0 .remoteDenied) 1)
  if n = 0 ∨ n > 496 ∨ (add ∧ (a % 4 ≠ 0 ∨ n % 4 ≠ 0)) ∨ !(fmt = 0 ∨ (add ∧ fmt = 0x0B)) then bad s
  else match s.allocJudge f.ctx a n false true with
    | .error _ => bad s
    | .ok acc =>
        let bs := sliceB p 16 n
        let sum (old : List Byte) : List Byte := ((upTo (n / 4)).map fun i => leBytes 4 (
          let u := u32 old (4 * i)
          let v := u32 bs (4 * i)
          if fmt = 0 then toBits32 (add32 (ofBits32 u) (ofBits32 v)) else unsignedOf 32 (satAdd (signedOf 32 u) (signedOf 32 v)).1)).flatten
        let data : Except AccErr (List Byte) := if add then match s.readBytes acc a n with
          | .ok old => .ok (sum old)
          | .error e => .error e
        else .ok bs
        match data with
        | .error .wait => none
        | .error (.ecc w) => some (s.ueReport w)
        | .error _ => bad s
        | .ok bs =>
          let w := (s.writeBytes acc a bs)
          let t := w.1.chargeRange f.ctx acc.part true 2 a n
          match w.2 with
          | none => some t
          | some .wait => none
          | some (.ecc k) => some (t.ueReport k)
          | some _ => bad w.1

/-- A REDUCE result of a COLLECTIVE (R365); none: it waits at a bank under handover (R81). -/
def State.takeResult (s : State) (f : FlowRec) (sl : Slot) : Option State :=
  let wants (c : Cmd) : Bool := isCollective c.desc && c.ending.isNone && c.id.ctx == f.ctx && cRx c.desc == f.flow
    && decide (c.rx.seqs.length < s.resultSlots c) && !c.rx.seqs.contains sl.seq
  match s.cmds.find? wants with
  | none => some s
  | some c =>
    let id := c.id
    if u16 sl.payload 496 ≠ cExpected c.desc then some (s.finish id Status.flowLost.plain)
    else match s.tensRun id.ctx (cDst c.desc) with
      | none => some s
      | some t =>
        let nc := ceilDiv t.cols 32
        let put (s : State) (k : Nat) : State × WOut :=
          let b := 15 * sl.seq + k
          let cs := t.outer (b / nc)
          if b ≥ t.gradBlocks ∨ !t.outerIn cs ∨ 32 * (b % nc) ≥ t.ext 0 then (s, WOut.zero)
          else
            let w := s.writeBytes (s.accOf id t) (t.blockAddr 0 cs (b % nc)) (sliceB sl.payload (32 * k) 32)
            let v := w.1.writeBytes (s.accOf id t) (t.scaleAddr 0 cs (b % nc)) (sliceB sl.payload (480 + k) 1)
            (v.1, ⟨false, 0, 33, if w.2.isSome then w.2 else v.2⟩)
        let r := s.writeEach put (upTo 15)
        let s := r.1.moved id t 0 0 r.2.bytes
        match r.2.err with
        | some .wait => none
        | some e => some (s.failAcc id e)
        | none => some ((s.updCmd id fun x => { x with rx := { x.rx with seqs := x.rx.seqs ++ [sl.seq] } }).settleSend id)

/-- The foreign ring: append a whole record, with FOREIGN set (R445). -/
def State.foreignAppend (s : State) (d : Nat) (r : List Byte) : State :=
  let u := s.updDieOf d
  let cap := u.foreignSize / 4160
  let h := s.rd (regDie .foreignHead d)
  if h - s.rd (regDie .foreignRelease d) < cap then
    let a := u.foreignBase + h % cap * 4160
    let rec' := r.take 15 ++ [BitVec.ofNat 8 (u8 r 15 ||| 8)] ++ r.drop 16
    (s.writeBytes (s.groupAcc 0 a 4160) a rec').1.bump (regDie .foreignHead d) 1
  else s.bump (regDie .exportDrops d) 1

/-- A DIFF_EXPORT slot. -/
def State.takeExport (s : State) (d : Nat) (f : FlowRec) (sl : Slot) : State :=
  let old := ((s.rxFlow f.flow).exports.find? fun e => e.sent == sl.sent).getD ⟨sl.sent, d, []⟩
  let new : ExportRx := { old with parts := old.parts.set sl.seq sl.payload }
  let drop (s : State) : State := s.updRx f.flow fun x => { x with exports := x.exports.filter fun e => e.sent != sl.sent }
  if sl.seq > 8 then s
  else if new.parts.length = 9 then (drop s).foreignAppend d ((new.parts.vals.flatten).take 4160)
  else (drop s).updRx f.flow fun x => { x with exports := x.exports ++ [new] }

/-- An UPDATE slot (R406, R427): data slots that precede their header wait for it. -/
def State.takeUpdate (s : State) (d : Nat) (f : FlowRec) (sl : Slot) : State :=
  if !s.step.opened then s.bump (regDie .updDiscards d) 1
  else
    let s := s.pmc d 4 0 1 (some f.ctx) 1
    if sl.seq = 0 then
      let h := s.takeHeader d f.ctx sl
      let early := (s.rxFlow f.flow).early.filter fun e => e.sent == sl.sent
      let t := h.1.updRx f.flow fun x =>
        { x with buckets := (x.buckets.filter fun b => b.sent != sl.sent) ++ [h.2], early := x.early.filter fun e => e.sent != sl.sent }
      early.foldl (fun u e => u.takeBlock d h.2 e) t
    else match (s.rxFlow f.flow).buckets.find? fun b => b.sent == sl.sent with
      | some b => s.takeBlock d b sl
      | none => s.updRx f.flow fun x => { x with early := x.early ++ [sl] }

/-- Where a missed slot was presented. -/
def Missed.place (m : Missed) : Nat × Nat × Nat := (m.port, m.index, m.presented)

/-- A SIGNAL slot waits for the missed slots that stand before it; one that follows a loss is to be discarded (R358). -/
def State.takeSignal (s : State) (f : FlowRec) (sl : Slot) : State :=
  s.updRx f.flow fun x => { x with signals := x.signals ++ [⟨sl.payload, x.missed.map Missed.place, x.lost⟩] }

/-- Whether a unit receives a message type (Table 14-8). -/
def unitTakes (unit type : Nat) : Bool :=
  match unit with
  | 0 => type == 1 || type == 2
  | 1 => type == 3
  | 2 => type == 5
  | 3 => type == 6
  | 4 => type == 7
  | 5 => type == 8
  | 6 => type == 4
  | _ => false

/-- A slot to the unit of its flow; none: it waits there. -/
def State.toUnit (s : State) (p : Nat) (f : FlowRec) (sl : Slot) : Option State :=
  let d := p / 5
  match f.unit with
  | 0 => s.takeWrite f sl
  | 1 => some (s.takeSignal f sl)
  | 2 => some (s.takeUpdate d f sl)
  | 5 => some (s.takeExport d f sl)
  | 6 => s.takeResult f sl
  | _ => s.takeBatch d f sl

/-- Whether an access that waits stands before a slot of a unit of a die. -/
def Waiter.blocks (d unit : Nat) : Waiter → Bool
  | .slot p f _ => p / 5 == d && f.unit == unit
  | .watch _ _ _ => false

/-- A slot accepted for a unit: taken at once, or after those that wait there (R81, R360). -/
def State.acceptSlot (s : State) (p : Nat) (f : FlowRec) (sl : Slot) : State :=
  let wait : State := s.addWaiter (.slot p f sl)
  if s.fabric.waiters.any (Waiter.blocks (p / 5) f.unit) then wait else (s.toUnit p f sl).getD wait

/-- Every access that waits for a handover is tried again, in order. -/
def State.retryWaiters (s : State) : State :=
  s.fabric.waiters.foldl (fun t w => match w with
    | .slot p f sl => t.acceptSlot p f sl
    | .watch c a v => t.watchWrite c a v) (s.setFabric fun x => { x with waiters := [] })

/-! ### Delivery (R356, R359, R360, R371, R372) -/

/-- The state of a flow's reception under its present epoch. -/
def State.freshRx (s : State) (f : FlowRec) : State :=
  if (s.rxFlow f.flow).epoch = f.epoch then s else s.updRx f.flow fun _ => { RxFlow.init with epoch := f.epoch }

/-- What a delivered slot tells of the slots missed just before it: those that fit before it in its own message are that
message's; the earlier ones keep the place that the last slot before them gave them (log entry 110). -/
def numberMissed (sent seq : Nat) (ms : List Missed) : List Missed :=
  let n := (ms.filter fun m => m.opened).length
  let l := ms.length
  (upTo l).map fun i =>
    let m := ms.getD i ⟨0, 0, 0, 0, none, none, false⟩
    if l ≤ i + n ∧ l - i ≤ seq then { m with msg := some sent, seq := some (seq - (l - i)), opened := false }
    else { m with opened := false }

/-- Follow the message under way. -/
def RxFlow.follow (x : RxFlow) (sl : Slot) : RxFlow :=
  if sl.isResend then x
  else { x with cur := if sl.isLast then none else some (sl.sent, sl.seq), missed := numberMissed sl.sent sl.seq x.missed }

/-- A slot missed in frame `g` at a place, numbered after the slots before it. -/
def RxFlow.miss (x : RxFlow) (h p n g : Nat) : RxFlow :=
  let k := (x.missed.filter fun m => m.opened).length
  { x with missed := x.missed ++ [⟨g - h, p, n, g, x.cur.map (·.1), x.cur.map fun c => c.2 + 1 + k, true⟩] }

/-- A missed slot is no longer awaited. -/
def RxFlow.settle (x : RxFlow) (m : Missed) : RxFlow :=
  { x with missed := x.missed.filter fun y => y != m,
           signals := x.signals.map fun w => { w with before := w.before.filter fun y => y != m.place } }

/-- The missed slot that a resend of frame `g` restores: the one known to be it, else the oldest unidentified one, else the
oldest, of those whose repair window holds the frame (R371; log entry 110). -/
def RxFlow.restored (x : RxFlow) (sl : Slot) (g h : Nat) : Option Missed :=
  let due := x.missed.filter fun m => decide (m.frame + 3 * h + 1 ≤ g) && decide (g ≤ m.frame + 3 * h + 3)
  ((x.missed.find? fun m => m.msg == some sl.sent && m.seq == some sl.seq).orElse fun _ => due.find? fun m => m.msg.isNone).orElse
    fun _ => due.head?

def RxFlow.restore (x : RxFlow) (sl : Slot) (g h : Nat) : RxFlow := (x.restored sl g h).elim x x.settle

/-- Whether a slot is a further copy of one accepted: the same FLOW, epoch, SENT_FRAME and SEQ, and the same type and payload,
since two messages that a flow begins in one frame share the first four (R371; log entry 110). -/
def RxFlow.copyOf (x : RxFlow) (sl : Slot) : Bool :=
  x.accepted.any fun a => a.2.sent == sl.sent && a.2.seq == sl.seq && a.2.type == sl.type && a.2.payload == sl.payload

/-- Deliver a DATA slot on a port. -/
def State.deliver (s : State) (p : Nat) (sl : Slot) : State :=
  match s.activeFlow sl.flow with
  | none => s.bump (portReg .slotMismatch p) 1
  | some f =>
    if sl.epoch ≠ f.epoch then s.bump (regCtx .staleDrops f.ctx) 1
    else if !unitTakes f.unit sl.type then s.bump (portReg .slotMismatch p) 1
    else
      let s := s.freshRx f
      let x := s.rxFlow f.flow
      let g := s.frame
      if x.copyOf sl then s.bump (regDie0 .duplicateDrops) 1
      else
        let s := s.updRx f.flow fun x =>
          let x : RxFlow := { x with accepted := (x.accepted.filter fun a => decide (g ≤ a.1 + 24)) ++ [(g, sl)] }
          if sl.isResend then x.restore sl g f.hops else x.follow sl
        if x.dropping = some sl.sent then s else s.acceptSlot p f sl

/-! ### Repair requests (R368, R369) -/

/-- Add a repair entry; one that continues the last entry extends its RUN. -/
def addRep (l : List RepEnt) (r : RepEnt) : List RepEnt :=
  match l.getLast? with
  | some q =>
    if q.kind = r.kind ∧ q.frameLo = r.frameLo ∧ q.flow = r.flow ∧ q.epoch = r.epoch ∧ q.due = r.due ∧ q.slot + q.run = r.slot ∧ q.run < 112 then
      l.dropLast ++ [{ q with run := q.run + 1 }]
    else l ++ [r]
  | none => l ++ [r]

/-- Place a repair entry in the control slot of the next frame of a port. -/
def State.placeRep (s : State) (p kind slot frame flow epoch : Nat) : State :=
  s.updPort p fun x => { x with repair := addRep x.repair ⟨kind, slot, 1, frame % 65536, flow, epoch, s.frame + 1⟩ }

/-- A destination is presented with MISSED in a DELIVER entry (R369). One of a repair route is asked for again, and the slot it
may have carried stays awaited in its own place. -/
def State.missDelivered (s : State) (p n : Nat) (e : RxEnt) : State :=
  match s.activeFlow e.flow with
  | none => s
  | some f =>
    let g := s.frame
    let s := if e.repair then s else (s.freshRx f).updRx f.flow fun x => x.miss f.hops p n g
    (s.placeRep p 1 n (g - 1) f.flow f.epoch).bump (regDie0 .repairRequests) 1

/-! ### SLOT_PRESENT -/

/-- FRAME_CTR under which slot `n` presented or received now was sent: a control slot comes in the frame that its sender sends it
in, a slot from 1 on is presented one frame later (R324, R328). -/
def ctrOf (n ctr : Nat) : Nat := if n = 0 then ctr else ctr - 1

/-- A slot opened under the key that its KEY_PHASE names (R328, R331), with the receive keys moved on at the first slot under a
new one: header and payload, where the tag verifies. -/
def State.openPhase (s : State) (p n : Nat) (bs : List Byte) : State × Option (List Byte × List Byte) :=
  let x := s.port p
  let ctr := s.rd (portReg .rxFrameCtr p)
  let phase := bitOf (u8 bs 0) 4
  let first (s : State) : State := s.wr (portReg .rxFrameCtr p) (if n = 0 then 0 else 1)
  match x.rxKey with
  | none => (s, openBytes none 0 n bs)
  | some k =>
    if phase = x.rxPhase then
      match openBytes (some k) (ctrOf n ctr) n bs with
      | none => (s, none)
      | some o => (if x.rxLive then s else first (s.updPort p fun y => { y with rxLive := true }), some o)
    else match x.newRx, x.oldRx with
      | some k', _ =>
        match openBytes (some k') 0 n bs with
        | none => (s, none)
        | some o =>
          (first (s.updPort p fun y => { y with rxKey := some k', newRx := none, rxPhase := phase, rxLive := true,
                                                oldRx := some ⟨k, ctr, s.frame + 1024⟩ }), some o)
      | none, some k' => (s, openBytes (some k'.key) (ctrOf n k'.ctr) n bs)
      | none, none => (s, none)

/-- A received slot through FEC and tag (R321, R329): what forwarding is given. -/
def State.openSlot (s : State) (p n : Nat) (rx : RxSlot) : State × Slot :=
  let s := if rx.corrected = 0 then s else s.bump (portReg .fecCorrected p) rx.corrected
  if !rx.fecOk then ((s.bump (portReg .fecUncorrected p) 1).updPort p fun x => { x with fecNow := true }, missedSlot 0)
  else
    let o := s.openPhase p n rx.bytes
    let fail (s : State) : State × Slot := (s.bump (portReg .tagFails p) 1, missedSlot 0)
    match o.2 with
    | none => fail o.1
    | some (h, pl) =>
      if bitsOf (u8 h 0) 7 5 ≠ 0 then fail o.1
      else
        let sl := slotOf h pl
        (o.1, if sl.kind = 1 ∨ sl.kind = 0 then sl else missedSlot 0)

/-- The control slot of the frame that the slots presented in frame `g` were sent in was valid and named the table `own` (R353). -/
def PortSt.tableNamed (x : PortSt) (g own : Nat) : Bool := x.ctl.any fun c => c.frame + 1 == g && c.ok && c.active == own

/-- Checks of a slot before its entry handles it (R351, R353, R354). Of the slots that a failover discards, IDLE ones are not
counted (log entry 163). -/
def State.judge (s : State) (p : Nat) (e : Option RxEnt) (sl : Slot) : State × Slot :=
  let g := s.frame
  let x := s.port p
  let own := (s.tableIn (g - 1)).elim 0 fun t => t.1.id
  if s.fabric.lastFailover ∧ g = s.fabric.switchFrame then
    (if sl.kind = 0 then s else s.bump (regDie0 .switchDrops) 1, idleSlot)
  else if sl.kind ≠ 1 then (s, sl)
  else if !x.tableNamed g own then (s.bump (portReg .tableMismatch p) 1, missedSlot 0)
  else
    let fits := e.any fun r => r.action != 0 && (r.flow == sl.flow || (r.repair && sl.isResend))
    if !fits ∨ sl.hops ≥ 6 then (s.bump (portReg .slotMismatch p) 1, missedSlot 0) else (s, sl)

/-- Handle a presented slot by its entry (Table 14-7). -/
def State.handle (s : State) (p n : Nat) (e : RxEnt) (sl : Slot) : State :=
  let g := s.frame
  match e.action with
  | 1 => if sl.kind = 1 then s.deliver p sl else if sl.kind = 2 then s.missDelivered p n e else s
  | 4 =>
    if sl.kind = 1 then (s.deliver p sl).updPort p fun x => { x with creditBack := x.creditBack + 1 }
    else if sl.kind = 2 then (s.updPort p fun x => { x with creditBack := x.creditBack + 1 }).bump (portReg .beLost p) 1
    else s
  | 0 => s
  | _ => s.setFabric fun f =>
    { f with inFrame := g, inSlots := (if f.inFrame = g then f.inSlots else []) ++ [⟨p, n, sl⟩] }

/-- Present slot `n` of the sender's last frame. -/
def State.present (s : State) (p n : Nat) (rx : RxSlot) : State :=
  let s := s.updPort p fun x => { x with seen := s.frame * 128 + n }
  let o := s.openSlot p n rx
  let e := (o.1.tableIn o.1.frame).bind fun t => t.1.rxAt t.2 p n
  let j := o.1.judge p e o.2
  let s := if j.2.kind = 1 then j.1.pmc (p / 5) 8 (p % 5) 2 none 1 else if j.2.kind = 2 then j.1.pmc (p / 5) 8 (p % 5) 4 none 1 else j.1
  e.elim s fun r => s.handle p n r j.2

/-- Whether a slot is the next that the units of its die may take: ports of one slot in ascending order (R360). -/
def State.presentsNow (s : State) (p n : Nat) : Bool :=
  let at' := s.frame * 128 + n
  p < 40 && 1 ≤ n && n ≤ 112 && s.portUp p && s.inSlotTime n
    && (upTo 5).all fun k =>
      let q := p / 5 * 5 + k
      if p ≤ q then decide ((s.port q).seen < at') else decide ((s.port q).seen ≤ at')

/-- SLOT_PRESENT: at pip 9s of the frame after the sender's (R324). -/
def execSlotPresent (port slot : Nat) (rx : RxSlot) (s : State) : Host.Outcome State Fault Refusal :=
  .next (if s.presentsNow port slot then s.present port slot rx else s)

/-! ### SIGNAL_APPLY -/

/-- Entries of a SIGNAL payload: counter reference and increment. -/
def signalEntries (p : List Byte) : List (Nat × Nat) := (upTo (min 31 (u8 p 0))).map fun k => (u32 p (16 + 16 * k), u32 p (20 + 16 * k))

/-- Apply, or after a loss discard, the oldest waiting SIGNAL of a flow. -/
def State.signalApply (s : State) (flow epoch : Nat) : State :=
  let x := s.rxFlow flow
  match x.signals, s.activeFlow flow with
  | w :: t, some f =>
    if x.epoch ≠ epoch ∨ f.epoch ≠ epoch ∨ (!w.before.isEmpty ∧ !w.doomed) then s
    else
      let s := s.updRx flow fun y => { y with signals := t }
      if w.doomed then s
      else (signalEntries w.payload).foldl (fun u e =>
        if refEnabled e.1 then u.sendMsg ⟨f.ctx, e.1, e.2⟩ else u) s
  | _, _ => s

def execSignalApply (flow epoch : Nat) (s : State) : Host.Outcome State Fault Refusal := .next (s.signalApply flow epoch)

/-! ### FLOW_LOSS -/

/-- What a loss does to the consumer of a flow (R365, R389, R394, R407, R445). -/
def State.lossAt (s : State) (f : FlowRec) (m : Missed) : State :=
  let x := s.rxFlow f.flow
  let d := m.port / 5
  let hit (sent : Nat) : Bool := m.msg.isNone || m.msg == some sent
  match f.unit with
  | 2 =>
    let s := match (x.buckets.filter fun b => hit b.sent).getLast? with
      | some b => (match s.ugroup d b.group with
        | some g => s.updRaise d b.group g.collect bitCoverage
        | none => s.raise s.step.oldest bitCoverage)
      | none => s.raise s.step.oldest bitCoverage
    s.updRx f.flow fun y => { y with early := y.early.filter fun e => !hit e.sent }
  | 5 =>
    let es := x.exports.filter fun e => hit e.sent
    (s.updRx f.flow fun y => { y with exports := y.exports.filter fun e => !hit e.sent }).bump (regDie .exportDrops d) (max 1 es.length)
  | 6 =>
    match s.cmds.find? fun c => isCollective c.desc && c.ending.isNone && c.id.ctx == f.ctx && cRx c.desc == f.flow
        && decide (c.rx.seqs.length < s.resultSlots c) with
    | some c => s.finish c.id Status.flowLost.plain
    | none => s
  | _ => s

/-- A missed slot is lost (R372). -/
def State.flowLoss (s : State) (flow epoch frame : Nat) : State :=
  match s.activeFlow flow with
  | none => s
  | some f =>
    let x := s.rxFlow flow
    match x.missed.find? fun m => m.frame == frame with
    | none => s
    | some m =>
      if f.epoch ≠ epoch ∨ x.epoch ≠ epoch ∨ s.frame ≤ frame + 3 * f.hops + 3 then s
      else
        let s := (s.bump (regDie0 .flowLosses) 1).faultRecord
          ⟨.flow, 0, ⟨8, m.port / 5, m.port⟩, none, flow + epoch * 2 ^ 16 + frame % 2 ^ 32 * 2 ^ 32⟩
        (s.lossAt f m).updRx flow fun y =>
          { y with lost := true, missed := y.missed.filter fun z => z != m, dropping := if m.msg.isSome then m.msg else y.dropping,
                   signals := y.signals.map fun w => { w with doomed := w.doomed || w.before.contains m.place } }

def execFlowLoss (flow epoch frame : Nat) (s : State) : Host.Outcome State Fault Refusal := .next (s.flowLoss flow epoch frame)

end Sys2Proof.Machine
end

