-- ==== Sys2Proof/Machine/Cells.lean ====
section
/-!
DEFINITION. Machine/Cells.lean: bank ownership and handovers (R79–R82), cell groups (R274–R279), Quickset substitution
and incarnations (R280–R284), quiesce and replay (R460–R463), and the commands GROUP_FORM, DISSOLVE, CELL_RETURN and
CELL_FENCE (R275, R277, R285, R286).
-/
namespace Sys2Proof.Machine

/-! ### Handovers (R80, R82) -/

/-- Commands of a context issued and not complete. -/
def State.issuedOf (s : State) (ctx : Option Nat) : List CmdId :=
  match ctx with
  | none => []
  | some c => (s.cmds.filter fun x => x.id.ctx == c).map (·.id)

/-- A write to the owner register of a bank 0–23 or slot 24–31: a handover starts, or takes a new target. The owner is
recorded for the slot the cell fills (R275). -/
def State.ownerWrite (s : State) (cell bank value : Nat) : State :=
  let r := ownerReg cell bank
  let v := value % 128
  let h := (s.cell cell).handovers.getD bank ⟨ownerOf (s.rd r), s.issuedOf (ownerOf (s.rd r)), false⟩
  let s := (s.wr r v).updCell cell fun c => { c with handovers := c.handovers.set bank h }
  match (s.cell cell).logical with
  | some l => s.updLslot l fun x => { x with owners := if v = 0 then x.owners.erase bank else x.owners.set bank v }
  | none => s

/-- First byte and length of a bank's words in its cell (Table 3-5). -/
def bankSpan (bank : Nat) : Nat × Nat :=
  if bank < 24 then (bank * 2 ^ 17, 2 ^ 17) else (0x300000 + (bank - 24) * 2 ^ 16, 2 ^ 16)

/-- Words `k` to `k + n - 1` bytes made zero with valid check bits. -/
def State.scrub (s : State) (k n : Nat) : State :=
  { s with mem := { s.mem with cells := memClear s.mem.cells k n,
                               poison := s.mem.poison.filter fun w => 8 * w < k || k + n ≤ 8 * w } }

/-- Held tiles that occupy any part of an accumulator slot of a logical cell are discarded (R100). -/
def State.dropHeldIn (s : State) (l slot : Nat) : State :=
  { s with held := s.held.map fun h =>
      { h with tiles := h.tiles.filter fun e => !(e.2.cell == l && e.2.slots.contains slot) } }

/-- HANDOVER_SCRUB_START: the last command of the previous owner has completed (R80 step 2). -/
def State.scrubStart (s : State) (cell bank : Nat) : State :=
  match (s.cell cell).handovers.get? bank with
  | none => s
  | some h =>
    if h.scrubbing ∨ h.waitFor.any fun i => (s.cmd? i).isSome then s
    else
      let (o, n) := bankSpan bank
      let s := (s.scrub (cellKey cell o) n).updCell cell fun c =>
        { c with handovers := c.handovers.set bank { h with scrubbing := true } }
      match (s.cell cell).logical with
      | some l => if bank ≥ 24 then s.dropHeldIn l (bank - 24) else s
      | none => s

def execHandoverScrubStart (cell bank : Nat) (s : State) : Host.Outcome State Fault Refusal := .next (s.scrubStart cell bank)

/-- Commands that waited for handovers end once none of theirs is left (R275, R286). -/
def State.settleAwaits (s : State) : State :=
  s.cmds.foldl (fun t c =>
    if c.ending.isSome ∨ c.awaits.isEmpty then t
    else if c.awaits.any fun k => ((t.cell (k / 32)).handovers.get? (k % 32)).isSome then t
    else (t.updCmd c.id fun x => { x with awaits := [] }).finish c.id Status.ok.plain) s

/-- Step 5 of R280: the last handover of a cell that is being placed is done. -/
def State.placeDone (s : State) (cell : Nat) : State :=
  let c := s.cell cell
  match c.logical with
  | some l =>
    if c.placing ∧ c.handovers.isEmpty then
      let s := (s.updCell cell fun x => { x with placing := false }).updLslot l fun x => { x with inService := true }
      s.logTrace (l / 96) 0x0401 l (s.lslot l).inc
    else s
  | none => s

/-- HANDOVER_DONE: the scrub has ended and the new owner gains access (R80 step 3). -/
def State.handoverDone (s : State) (cell bank : Nat) : State :=
  match (s.cell cell).handovers.get? bank with
  | none => s
  | some h =>
    if !h.scrubbing then s
    else
      ((s.updCell cell fun c => { c with handovers := c.handovers.erase bank }).placeDone cell).settleAwaits.retryWaiters

def execHandoverDone (cell bank : Nat) (s : State) : Host.Outcome State Fault Refusal := .next (s.handoverDone cell bank)

/-! ### Substitution (R280, R281) -/

/-- Cells of a die's spare pool, lowest first. -/
def State.pool (s : State) (die : Nat) : List Nat :=
  ((upTo 104).map fun k => die * 104 + k).filter fun c => (s.cell c).inPool

/-- The spare that step 3 takes. -/
def State.spare (s : State) (die : Nat) : Option Nat := (s.pool die).find? fun c => (s.cell c).mode != .selfTest

/-- Steps 2 to 4: advance the incarnation, map the lowest spare and start its handovers; none: the slot is vacant. -/
def State.fillSlot (s : State) (l : Nat) : State × Option Nat :=
  let s := s.updLslot l fun x => { x with inc := (x.inc + 1) % 256, inService := false, phys := none }
  match s.spare (l / 96) with
  | none => (s, none)
  | some c =>
    let owners := (s.lslot l).owners
    let s := (s.updLslot l fun x => { x with phys := some (c % 104) }).updCell c fun x =>
      { x with logical := some l, inPool := false, placing := true, mode := .idle, portsClosed := false }
    ((upTo 32).foldl (fun t b => t.ownerWrite c b (owners.getD b 0)) s, some c)

/-- Step 1: the old cell is fenced, and a drain marker follows its messages (R283). -/
def State.fenceCell (s : State) (cell : Nat) : State :=
  let l := (s.cell cell).logical
  let s := s.updCell cell fun x =>
    { x with mode := .fenced, portsClosed := true, logical := none, inPool := false, placing := false, tasks := [],
             handovers := [], formerly := l }
  match l with
  | some l => s.updLslot l fun x => { x with draining := true }
  | none => s

/-- Tiles held on a slot that lost its cell are gone. -/
def State.dropHeldOn (s : State) (l : Nat) : State :=
  { s with held := s.held.map fun h => { h with tiles := h.tiles.filter fun e => e.2.cell != l } }

/-! ### Quiesce and replay (R460–R463) -/

/-- Count a command ended by NON_REPLAYABLE on a die, and raise FAULT (R463). -/
def State.countLoss (s : State) (die : Nat) : State := (s.bump (regDie .nonReplayableFaults die) 1).raiseFault

def lossEnding (seq : Nat) : Ending := ⟨Status.nonReplayable.code, 0, detail64 seq 0⟩

/-- A product command can no longer be completed: it stops, as the record numbered `seq` says (R463). -/
def State.loseProduct (s : State) (id : CmdId) (die seq : Nat) : State :=
  match s.cmd? id with
  | none => s
  | some c =>
    if c.ending.isSome ∨ c.run.stop.isSome then s
    else
      let s := ((s.countLoss die).updCmd id fun x => { x with lossSeq := some seq }).stopRun id (lossEnding seq)
      match s.geo id c.desc c.records with
      | some g => s.settleProduct id g
      | none => s.finish id (lossEnding seq)

/-- Offer tasks again, ahead of the cursor. -/
def State.reoffer (s : State) (id : CmdId) (die : Nat) (ts : List Nat) : State :=
  if ts.isEmpty then s
  else
    (s.updCmd id fun c =>
      { c with reoffered := ts.foldl insertKey c.reoffered, taken := c.taken.filter fun k => !ts.contains k,
               done := c.done.filter fun k => !ts.contains k, replayed := true }).bump (regDie .tasksReplayed die) ts.length

/-- What one product command loses with a cell's tasks, and how its open tiles are handled (R461). -/
def State.replayOn (s : State) (cell seq : Nat) (mine : List Nat) (c : Cmd) (g : Geo) : State :=
  let die := cell / 104
  let id := c.id
  let S := g.b.segs
  let tilesOn := c.run.tiles.filter fun e => e.2.opened && e.2.parts.contains cell
  if mine.isEmpty ∧ tilesOn.isEmpty then s
  else if c.nonReplayable then s.loseProduct id die seq
  else if S = 1 then s.reoffer id die mine
  else if g.b.mode = 2 then
    let homes := (tilesOn.filter fun e => e.2.home == some cell).map fun e => e.1
    let s := homes.foldl (fun t k => t.updTile id k fun x => { x with acc := [], ownDone := false, added := [] }) s
    s.reoffer id die ((homes.map fun k => k * S) ++ mine.filter fun k => !(k % S == 0 && homes.contains (k / S)))
  else
    let s := (tilesOn.map fun e => e.1).foldl (fun t k => t.updTile id k fun x => { x with rebuild := insertKey x.rebuild cell }) s
    s.reoffer id die (mine.filter fun k => !(tilesOn.any fun e => e.1 == k / S))

/-- Close a cell's ports, discard its tasks and offer them again (R460 steps 1 to 3, R461). -/
def State.quiesce (s : State) (cell seq : Nat) : State :=
  let mine := (s.cell cell).tasks
  let s := s.updCell cell fun x => { x with portsClosed := true, tasks := [] }
  s.cmds.foldl (fun t c =>
    if hOpcode c.desc ≠ 0x20 ∨ c.ending.isSome then t
    else
      match t.geo c.id c.desc c.records with
      | none => t
      | some g =>
        (t.replayOn cell seq ((mine.filter fun k => k.id == c.id).map fun k => k.task) c g).settleProduct c.id g) s

/-- Commands whose group has no member left in service (R461), and static commands whose slot was left vacant (R99). -/
def State.loseVacant (s : State) (l die seq : Nat) : State :=
  s.cmds.foldl (fun t c =>
    if hOpcode c.desc ≠ 0x20 ∨ c.ending.isSome ∨ !c.cells.contains l then t
    else
      match t.geo c.id c.desc c.records with
      | none => t
      | some g =>
        if g.b.holdIn ∨ g.b.holdOut then
          let t := { t with held := t.held.filter fun h => !(h.ctx == c.id.ctx && h.tag == g.b.holdTag) }
          t.loseProduct c.id die seq
        else if c.cells.all fun k => (t.lslot k).phys.isNone then t.loseProduct c.id die seq
        else t) s

/-- Tasks of a static command whose held tiles went with the slot's cell are offered again to the slot (R99). -/
def State.reholdOn (s : State) (l die : Nat) : State :=
  s.cmds.foldl (fun t c =>
    let gone := (c.run.holds.filter fun e => e.2.cell == l).map fun e => e.1
    if c.ending.isSome ∨ gone.isEmpty then t
    else
      match t.geo c.id c.desc c.records with
      | none => t
      | some g =>
        (t.updRun c.id fun r => { r with holds := r.holds.filter fun e => e.2.cell != l }).reoffer c.id die
          ((gone.map fun k => (upTo g.b.segs).map fun q => k * g.b.segs + q).flatten)) s

/-- A cell loses its slot for good: substitution, or a vacant slot (R280, R281). Answers the spare. -/
def State.replaceCell (s : State) (cell seq : Nat) (sparing : Bool) : State × Option Nat :=
  match (s.cell cell).logical with
  | none => (s.fenceCell cell, none)
  | some l =>
    let s := ((s.fenceCell cell).dropHeldOn l).reholdOn l (cell / 104)
    if sparing then
      match s.fillSlot l with
      | (s, some c) => (s, some c)
      | (s, none) => (s.loseVacant l (cell / 104) seq, none)
    else
      let s := s.updLslot l fun x => { x with inc := (x.inc + 1) % 256, inService := false, phys := none }
      (s.loseVacant l (cell / 104) seq, none)

/-- LOGICAL and INCARNATION of a cell's fault record. -/
def State.cellLogical (s : State) (cell : Nat) : Option (Nat × Nat) :=
  (s.cell cell).logical.map fun l => (l, (s.lslot l).inc)

/-- The command whose task entered a cell first (Table 18-2). -/
def State.cellWork (s : State) (cell : Nat) : Option CmdId := ((s.cell cell).tasks.head?).map fun t => t.id

def cellUnit (cell : Nat) : UnitId := ⟨0, cell / 104, cell % 104⟩

/-! ### DRAIN_MARKER_ARRIVAL (R283, R461) -/

/-- Rebuild an ARRIVAL tile: its home slots are cleared and all its segments offered again. -/
def State.rebuildTile (s : State) (c : Cmd) (g : Geo) (k die : Nat) : State :=
  let S := g.b.segs
  let mine (t : TaskRef) : Bool := t.id == c.id && t.task / S == k
  let s := { s with cells := s.cells.mapVals fun _ x => { x with tasks := x.tasks.filter fun t => !mine t } }
  let s := s.updTile c.id k fun x => { TileSt.init with opened := true, place := x.place }
  s.reoffer c.id die ((upTo S).map fun q => k * S + q)

/-- Every message a closed cell had injected has been delivered or discarded. -/
def State.drainMarker (s : State) (cell : Nat) : State :=
  let s := match (s.cell cell).formerly with
    | some l => (s.updLslot l fun x => { x with draining := false }).updCell cell fun x => { x with formerly := none }
    | none => s
  s.cmds.foldl (fun t c =>
    if hOpcode c.desc ≠ 0x20 ∨ c.ending.isSome then t
    else
      match t.geo c.id c.desc c.records with
      | none => t
      | some g =>
        c.run.tiles.foldl (fun t e =>
          if !e.2.rebuild.contains cell then t
          else
            let rest := removeKey e.2.rebuild cell
            if rest.isEmpty then t.rebuildTile c g e.1 (cell / 104)
            else t.updTile c.id e.1 fun x => { x with rebuild := rest }) t) s

def execDrainMarkerArrival (cell : Nat) (s : State) : Host.Outcome State Fault Refusal := .next (s.drainMarker cell)

/-! ### GROUP_FORM and DISSOLVE -/

def gfGroup (d : List Byte) : Nat := bitsOf (u32 d 32) 7 0
def gfCtx (d : List Byte) : Nat := bitsOf (u32 d 32) 13 8
def gfDefer (d : List Byte) : Bool := bitOf (u32 d 32) 14
def gfDissolve (d : List Byte) : Bool := bitOf (u32 d 32) 15
def gfBanks (d : List Byte) : List Nat := (upTo 32).filter fun b => bitOf (u32 d 36) b

/-- Members of a 96-byte bitmap. -/
def bitmapMembers (m : List Byte) : List Nat := (upTo 768).filter fun n => bitOf (u8 m (n / 8)) (n % 8)

/-- Owner recorded for a bank of a slot (R275). -/
def State.slotOwner (s : State) (l bank : Nat) : Option Nat := ownerOf ((s.lslot l).owners.getD bank 0)

/-- Enabled queues, as (context, queue). -/
def State.enabledQueues (s : State) : List (Nat × Nat) :=
  ((upTo 64).map fun c => ((upTo 64).filter fun q => bitOf (s.rd (sqConfig c q)) 0).map fun q => (c, q)).flatten

/-- Grounds of R276 on which a form with member bitmap `m` is refused, tested at issue and again when it acts. -/
def State.formViols (s : State) (d m : List Byte) : List Viol :=
  let ms := bitmapMembers m
  let absent := ms.filter fun l => !(s.die (l / 96)).inService
  let taken (lo hi : Nat) : Bool := ms.any fun l => (gfBanks d).any fun b =>
    decide (lo ≤ b ∧ b < hi) && (match s.slotOwner l b with | some c => c != gfCtx d | none => false)
  (violIf ms.isEmpty (formatViol 0) ++ (absent.take 1).map (fun l => formatViol (l / 8))).map (·.inRec 1)
    ++ violIf (taken 0 24) (formatViol 36) ++ violIf (taken 24 32) (formatViol 39)

/-- An enabled queue that names the group (R276). -/
def State.dissolveViols (s : State) (d : List Byte) : List Viol :=
  violIf (s.enabledQueues.any fun e => (s.queue e.1 e.2).group == gfGroup d) (formatViol 32)

def State.checkGroupForm (s : State) (id : CmdId) (d : List Byte) : Verdict :=
  let body := bodyViols d [⟨32, 15, 0⟩, bytesSpan 36 12]
  if gfDissolve d then
    Verdict.of (body ++ violIf (u32 d 32 / 256 != 128) (restViol 33) ++ violIf (u32 d 36 != 0) (restViol 36)
      ++ violIf (u64 d 40 != 0) (restViol 40)
      ++ s.dissolveViols d) []
  else
    let (v, m, err) := s.recordAt id (u64 d 40) 96 8 40
    Verdict.ofRead (body ++ v ++ (if v.isEmpty ∧ err.isNone then s.formViols d m else [])) err [] [(1, m)]

/-- Issued commands of a group that are incomplete, other than one and than other forms of groups (R277). -/
def State.groupBusy (s : State) (g : Nat) (me : CmdId) : Bool :=
  s.cmds.any fun c => c.id != me && (s.queue c.id.ctx c.id.q).group == g && hOpcode c.desc != 0xA0

/-- The owner register writes a GROUP_FORM makes: slot and bank. -/
def State.groupWrites (s : State) (d : List Byte) (ms : List Nat) : List (Nat × Nat) :=
  (ms.map fun l => ((gfBanks d).filter fun b => s.slotOwner l b != some (gfCtx d)).map fun b => (l, b)).flatten

/-- One member's bank given to the group's context; a vacant slot only records it (R275). -/
def State.giveBank (s : State) (ctx l bank : Nat) : State :=
  match s.cellOf l with
  | some c => s.ownerWrite c bank (64 + ctx)
  | none => s.updLslot l fun x => { x with owners := x.owners.set bank (64 + ctx) }

/-- Form a group, or replace it, and await the handovers this starts (R275, R277). -/
def State.formNow (s : State) (c : Cmd) (ms : List Nat) : State :=
  let d := c.desc
  let ws := s.groupWrites d ms
  let s := ws.foldl (fun t w => t.giveBank (gfCtx d) w.1 w.2) s
  let now : Group := ⟨gfCtx d, gfDefer d, ms, bitsOf (u32 d 36) 23 0, bitsOf (u32 d 36) 31 24, []⟩
  let s := { s with groups := s.groups.set (gfGroup d) now }
  let waits := ws.filterMap fun w => (s.cellOf w.1).map fun p => p * 32 + w.2
  if waits.isEmpty then s.finish c.id Status.ok.plain
  else s.updCmd c.id fun x => { x with begun := true, awaits := waits }

def State.groupForm (s : State) (c : Cmd) : State :=
  let d := c.desc
  let g := gfGroup d
  if c.begun ∨ ((s.groups.get? g).isSome ∧ s.groupBusy g c.id) then s
  else
    match worst (s.formViols d (c.records.getD 1 [])) with
    | some v => s.finish c.id v.ending
    | none => s.formNow c (bitmapMembers (c.records.getD 1 []))

def execGroupForm (id : CmdId) (s : State) : Host.Outcome State Fault Refusal :=
  .next (s.onCmd id (fun d => isOpcode 0x00A0 d && !gfDissolve d) fun c => s.groupForm c)

def State.dissolve (s : State) (c : Cmd) : State :=
  let g := gfGroup c.desc
  if (s.groups.get? g).isSome ∧ s.groupBusy g c.id then s
  else if !(s.dissolveViols c.desc).isEmpty then s.finish c.id (formatViol 32).ending
  else ({ s with groups := s.groups.erase g }).finish c.id Status.ok.plain

def execDissolve (id : CmdId) (s : State) : Host.Outcome State Fault Refusal :=
  .next (s.onCmd id (fun d => isOpcode 0x00A0 d && gfDissolve d) fun c => s.dissolve c)

/-! ### CELL_RETURN and CELL_FENCE -/

/-- The physical cell a body names: none where the die has no such cell. -/
def bodyCell (d : List Byte) : Option Nat :=
  let w := u32 d 32
  if bitsOf w 3 0 < 13 then some (bitsOf w 9 7 * 104 + bitsOf w 6 4 * 13 + bitsOf w 3 0) else none

def checkCellReturn (d : List Byte) : Verdict := Verdict.of (bodyViols d [⟨32, 9, 0⟩]) []
def checkCellFence (d : List Byte) : Verdict := Verdict.of (bodyViols d [⟨32, 10, 0⟩]) []

/-- A returned cell: cleared, without owners, in the pool. -/
def State.returnCell (s : State) (cell : Nat) : State :=
  let s := s.scrub (cellKey cell 0) 0x380000
  let s := (upTo 32).foldl (fun t b => t.setFld (ownerReg cell b) 6 6 0) s
  s.updCell cell fun x => { x with mode := .idle, inPool := true, portsClosed := false, handovers := [] }

def State.cellReturn (s : State) (c : Cmd) (pass : Bool) : State :=
  match bodyCell c.desc with
  | none => s.finish c.id (formatViol 32).ending
  | some cell =>
    if (s.cell cell).mode ≠ .fenced ∨ (s.cell cell).fusedOut ∨ !(s.die (cell / 104)).inService then
      s.finish c.id (formatViol 32).ending
    else if pass then (s.returnCell cell).finish c.id (okAux 0)
    else s.finish c.id (okAux 1)

def execCellReturn (id : CmdId) (pass : Bool) (s : State) : Host.Outcome State Fault Refusal :=
  .next (s.onCmd id (isOpcode 0x00A1) fun c => s.cellReturn c pass)

/-- After steps 2 to 4 of a substitution a CELL_FENCE waits for its handovers; a vacant slot ends it with AUX 1. -/
def State.fenceWait (s : State) (id : CmdId) (spare : Option Nat) : State :=
  match spare with
  | none => s.finish id (okAux 1)
  | some p => s.updCmd id fun x => { x with begun := true, awaits := (upTo 32).map fun b => p * 32 + b }

/-- Fence a cell that fills a slot. -/
def State.fenceFilled (s : State) (id : CmdId) (cell l : Nat) : State :=
  if (s.lslot l).draining then s
  else
    let seq := s.faults.seq
    let work := s.cellWork cell
    let (s, spare) := (s.quiesce cell seq).replaceCell cell seq true
    let s := { s with faults := { s.faults with tests := s.faults.tests.filter fun t => t.1 != cellUnit cell } }
    (s.faultRecord ⟨.unit, 3, cellUnit cell, some (l, (s.lslot l).inc), whereOf work⟩).fenceWait id spare

def State.cellFence (s : State) (c : Cmd) : State :=
  let id := c.id
  let w := u32 c.desc 32
  let bad := s.finish id (formatViol 32).ending
  if c.begun then s
  else if bitOf w 10 then
    let l := bitsOf w 9 0
    if l ≥ 768 ∨ !(s.die (l / 96)).inService ∨ (s.lslot l).phys.isSome then bad
    else if (s.lslot l).draining then s
    else if (s.spare (l / 96)).isNone then s.finish id (okAux 1)
    else
      let r := s.fillSlot l
      r.1.fenceWait id r.2
  else
    match bodyCell c.desc with
    | none => bad
    | some cell =>
      let x := s.cell cell
      if !(s.die (cell / 104)).inService ∨ x.fusedOut ∨ x.mode = .fenced then bad
      else if x.placing then s
      else if x.inPool then
        (({ s with faults := { s.faults with tests := s.faults.tests.filter fun t => t.1 != cellUnit cell } }).fenceCell
          cell).finish id (okAux 0)
      else
        match x.logical with
        | some l => s.fenceFilled id cell l
        | none => bad

def execCellFence (id : CmdId) (s : State) : Host.Outcome State Fault Refusal :=
  .next (s.onCmd id (isOpcode 0x00A2) fun c => s.cellFence c)

end Sys2Proof.Machine
end

