-- ==== Sys2Proof/Machine/Commit.lean ====
section
/-!
DEFINITION. Machine/Commit.lean: step control (R426–R429, R436), the effect of a decision (R434, R437–R442), the difference
stream (R443, R444, R447), replica comparison (R448–R452) and evaluation windows (R453).
-/
namespace Sys2Proof.Machine

/-! ### STEP_CONTROL -/

def scOp (d : List Byte) : Nat := bitsOf (u8 d 32) 2 0
def scSkip (d : List Byte) : Bool := bitOf (u8 d 32) 3
def scAhead (d : List Byte) : Bool := bitOf (u8 d 32) 4
def scStep (d : List Byte) : Nat := u32 d 36

def State.isMaster (s : State) : Bool := s.time.role = .master

/-- A range of the step configuration record: base, size, and the offset of its base. -/
def openRanges (r : List Byte) (d : Nat) : List (Nat × Nat × Nat) :=
  [16, 32, 48].map fun o => (u64 r (o + 48 * d), u64 r (o + 48 * d + 8), o + 48 * d)

/-- Grounds of R427 on which OPEN refuses its record. -/
def State.openViols (s : State) (r : List Byte) : List Viol :=
  let dies := (upTo 8).filter fun d => (s.die d).inService
  let ranges := (dies.map (openRanges r)).flatten.filter fun x => x.2.1 != 0
  violIf s.step.opened (formatViol 32) ++ (
    ((rsvdOff [bytesSpan 0 14, bytesSpan 16 384] r).toList.map formatViol)
    ++ violIf (s.isMaster == (u32 r 4 == 0)) (formatViol 4)
    ++ violIf (u16 r 8 < 2 || u16 r 8 > 1024) (formatViol 8) ++ violIf (u16 r 10 < 16) (formatViol 10)
    ++ (dies.map fun d => violIf (u64 r (24 + 48 * d) < 4160 * 1024) (formatViol (24 + 48 * d))
          ++ violIf (u64 r (40 + 48 * d) < 4160 * 1024) (formatViol (40 + 48 * d))).flatten
    ++ (ranges.map fun x => violIf (x.1 % 4096 != 0) (viol .alignInner noHandle x.2.2)
          ++ s.allocReach 0 x.1 x.2.1 x.2.2 true true).flatten).map (·.inRec 1)

def State.checkStepControl (s : State) (id : CmdId) (d : List Byte) : Verdict :=
  let op := scOp d
  let body := bodyViols d [⟨32, 4, 0⟩, bytesSpan 36 16] ++ violIf (op > 4) (formatViol 32)
    ++ violIf (op != 2 && op != 3 && scStep d != 0) (restViol 36) ++ violIf (op != 0 && u64 d 40 != 0) (restViol 40)
    ++ violIf (op != 4 && u32 d 48 != 0) (restViol 48)
  if op = 0 then
    let (v, r, e) := s.recordAt id (u64 d 40) 448 64 40
    Verdict.ofRead (body ++ v ++ (if v.isEmpty ∧ e.isNone then s.openViols r else [])) e [] [(1, r)]
  else Verdict.of (body ++ violIf (op == 4 && (!s.isMaster || !s.step.opened)) (formatViol 32)
    ++ violIf (op == 4 && u32 d 48 == 0) (formatViol 48)) []

def State.onStep (s : State) (id : CmdId) (op : Nat) (f : Cmd → State) : State :=
  s.onCmd id (fun d => isOpcode 0x0081 d && scOp d == op) f

/-- A valid OPEN. -/
def State.openSteps (s : State) (c : Cmd) (r : List Byte) : State :=
  let s := s.setSteps fun x =>
    { x with opened := true, applyAhead := scAhead c.desc, oldest := u32 r 0, participants := u32 r 4, newParticipants := none,
             lead := u16 r 8, timeout := u16 r 10, exportFlow := u16 r 12, votes := [], reasons := [], voteFrame := none,
             reported := false, field := ConsField.none }
  (upTo 8).foldl (fun t d =>
    if (t.die d).inService then
      t.updUpd d fun u => { u with journalSize := u64 r (24 + 48 * d), ringBase := u64 r (32 + 48 * d), ringSize := u64 r (40 + 48 * d),
                                   foreignBase := u64 r (48 + 48 * d), foreignSize := u64 r (56 + 48 * d) }
    else t) s

def execStepOpen (id : CmdId) (s : State) : Host.Outcome State Fault Refusal :=
  .next (s.onStep id 0 fun c =>
    match worst (s.openViols (c.records.getD 1 [])) with
    | some v => s.finish id v.ending
    | none => (s.openSteps c (c.records.getD 1 [])).finish id Status.ok.plain)

/-- CLOSE waits until no step is undecided. -/
def execStepClose (id : CmdId) (s : State) : Host.Outcome State Fault Refusal :=
  .next (s.onStep id 1 fun _ =>
    if s.anyUndecided then s.updCmd id fun c => { c with begun := true }
    else (s.setSteps fun x => { x with opened := false }).finish id Status.ok.plain)

/-- VOTE for a step; one for a step already decided counts for none, save as a reason (R467). -/
def execVote (id : CmdId) (s : State) : Host.Outcome State Fault Refusal :=
  .next (s.onStep id 2 fun c =>
    let t := scStep c.desc
    let s := if scSkip c.desc then s.raise t bitDriver
      else if s.step.opened ∧ !s.decided t then s.setSteps fun x => { x with votes := if x.votes.contains t then x.votes else t :: x.votes }
      else s
    s.finish id Status.ok.plain)

/-- The decision of a step among those the module holds, once applied: COMMIT and reasons (R434). -/
def Decision.of (d : Decision) (t : Nat) : Option (Bool × Nat) :=
  if !d.applied then none
  else if d.step = t then some (d.commit, d.reasons)
  else if d.span2 ∧ t = (d.step + 1) % 2 ^ 32 then some (false, 2 ^ bitCascade)
  else none

def State.decisionOf (s : State) (t : Nat) : Option (Bool × Nat) :=
  match s.step.last.bind fun d => d.of t with
  | some x => some x
  | none => s.step.prev.bind fun d => d.of t

/-- How a WAIT ends at a decision (R436). -/
def waitEnding (commit : Bool) (reasons : Nat) : Ending :=
  let st : Status :=
    if commit then .ok
    else if bitOf reasons bitMismatch then .stepMismatch
    else if bitOf reasons bitNonfinite ∨ bitOf reasons bitNorm then .nonfiniteBlock
    else if bitOf reasons bitEcc then .eccUncorrectable
    else .stepSkipped
  ⟨st.code, reasons % 65536, zeros 16⟩

def execStepWait (id : CmdId) (s : State) : Host.Outcome State Fault Refusal :=
  .next (s.onStep id 3 fun c =>
    let t := scStep c.desc
    match s.decisionOf t with
    | some (commit, reasons) => s.finish id (waitEnding commit reasons)
    | none =>
      if s.decided t then s.finish id (formatViol 36).ending else s.updCmd id fun x => { x with begun := true })

/-- PARTICIPANTS: from the next frame (R428). -/
def execParticipants (id : CmdId) (s : State) : Host.Outcome State Fault Refusal :=
  .next (s.onStep id 4 fun c =>
    if !s.isMaster ∨ !s.step.opened then s.finish id (formatViol 32).ending
    else (s.setSteps fun x => { x with newParticipants := some (u32 c.desc 48) }).finish id Status.ok.plain)

/-! ### The vote (R258, R429) -/

/-- A fetched command with deadline `t` or earlier is incomplete. -/
def State.deadlineOpen (s : State) (t : Nat) : Bool :=
  let due (d : List Byte) : Bool := (deadlineOf d).any fun u => stepAtOrAfter t u
  s.cmds.any (fun c => due c.desc) || s.ctxs.vals.any fun x => x.queues.vals.any fun q => q.fetched.any fun f => due f.desc

def State.reasonsFor (s : State) (t : Nat) : Nat := s.step.reasons.getD t 0

/-- A clean vote for step `t`. -/
def State.cleanVote (s : State) (t : Nat) : Bool :=
  s.step.opened && s.step.votes.contains t && s.groupsReady t && !s.deadlineOpen t && s.reasonsFor t == 0

/-! ### Decisions (R439, R440) -/

/-- Complete the WAITs of a step. -/
def State.endWaits (s : State) (t : Nat) (commit : Bool) (reasons : Nat) : State :=
  s.cmds.foldl (fun u c =>
    if c.begun ∧ isOpcode 0x0081 c.desc ∧ scOp c.desc = 3 ∧ scStep c.desc = t then u.finish c.id (waitEnding commit reasons) else u) s

/-- XOR a delta into a block of state. -/
def State.xorBlock (s : State) (ctx a : Nat) (delta : List Byte) : State :=
  let x := s.groupAcc ctx a 4096
  match s.readBytes x a 4096 with
  | .ok bs => (s.writeBytes x a (xorBytes bs delta)).1
  | .error (.ecc w) => s.ueReport w
  | .error _ => s

/-- Reverse and free the records of a skipped step on a die. -/
def State.reverse (s : State) (d t : Nat) : State :=
  let mine := (s.updDieOf d).journal.filter fun r => r.step == t && !r.committed
  (mine.foldl (fun u r => u.xorBlock r.ctx r.addr r.delta) s).updUpd d fun u =>
    { u with journal := u.journal.filter fun r => !(r.step == t && !r.committed) }

/-- One step decided, on every die. -/
def State.decideStep (s : State) (t : Nat) (commit : Bool) (reasons : Nat) : State :=
  let s := (upTo 8).foldl (fun u d =>
    if commit then
      (u.updUpd d fun x => { x with journal := x.journal.map fun r => if r.step = t then { r with committed := true } else r }).decideDie d t true
    else (u.decideDie d t false).reverse d t) s
  let s := (s.swapAll t commit).bump (regDie0 (if commit then .stepsCommitted else .stepsSkipped)) 1
  let s := s.setSteps fun x =>
    { x with oldest := (t + 1) % 2 ^ 32, votes := x.votes.filter fun u => u != t, reasons := x.reasons.erase t, voteFrame := none,
             reported := false, committed := if commit then some t else x.committed }
  (s.endWaits t commit reasons).logTrace 0 0x0701 t (reasons + b2n commit * 65536)

/-- The decision to be applied next: the older of those held and not applied, once its frame has come. -/
def State.dueDecision (s : State) : Option Decision :=
  let due (d : Decision) : Bool := !d.applied && decide (d.frame ≤ s.frame) && d.step == s.step.oldest && s.step.opened
  match s.step.prev.filter due with
  | some d => some d
  | none => s.step.last.filter due

/-- Apply a decision (R433, R434). -/
def State.applyDecision (s : State) (d : Decision) : State :=
  let mark (x : Decision) : Decision := if x.step = d.step then { x with applied := true } else x
  let s := s.setSteps fun x => { x with last := x.last.map mark, prev := x.prev.map mark }
  let s := s.decideStep d.step d.commit d.reasons
  if d.span2 then s.decideStep ((d.step + 1) % 2 ^ 32) false (2 ^ bitCascade) else s

def State.stepRow (s : State) (commit : Bool) : State :=
  match s.dueDecision with
  | some d => if d.commit = commit then s.applyDecision d else s
  | none => s

def execStepCommit (s : State) : Host.Outcome State Fault Refusal := .next (s.stepRow true)
def execStepSkip (s : State) : Host.Outcome State Fault Refusal := .next (s.stepRow false)

/-- A decision for the oldest undecided step has reached the module. -/
def State.decisionHeld (s : State) : Bool :=
  s.step.last.any (fun d => d.step == s.step.oldest && !d.applied) || s.step.prev.any fun d => d.step == s.step.oldest && !d.applied

/-- CONSENSUS_STALL (R435). -/
def execConsensusStall (s : State) : Host.Outcome State Fault Refusal :=
  .next (match s.step.voteFrame with
    | some f =>
      if s.step.opened ∧ !s.step.reported ∧ !s.decisionHeld ∧ f + s.step.timeout ≤ s.frame then
        ((s.setSteps fun x => { x with stalled := true, reported := true }).bump (regDie0 .consensusStalls) 1).faultRecord
          ⟨.consensus, 0, ⟨13, 0, 0⟩, none, noWhere⟩
      else s
    | none => s)

/-! ### The difference stream (R443, R444, R447) -/

/-- A difference record as stored (Table 17-5). -/
def diffBytes (node die : Nat) (r : DiffRec) : List Byte :=
  record 64 [(0, 8, r.seq), (8, 4, r.step), (12, 2, r.group), (14, 1, r.plane), (15, 1, die + 16 * b2n r.repair), (16, 4, r.tensorId),
    (20, 4, r.block), (24, 2, node), (32, 16, blockDigest r.tensorId r.plane r.block r.delta)] ++ padTo 4096 r.delta

/-- Tally takes one block digest; an UNSET region stays UNSET (R447). -/
def State.tally (s : State) (d tensorId plane block digest : Nat) : State :=
  let k := regionKey tensorId plane (block / 256)
  (s.updUpd d fun u => match u.digests.get? k with
    | some x => { u with digests := u.digests.set k (x ^^^ digest) }
    | none => u).bump (regDie .tallyUpdates d) 1

/-- Whether the export ring and EXPORT_FLOW can take a record. -/
def State.drainRoom (s : State) (d : Nat) : Bool :=
  let u := s.updDieOf d
  let f := s.step.exportFlow
  decide (s.rd (regDie .exportHead d) - s.rd (regDie .exportRelease d) < u.ringSize / 4160)
    && (f == 0xFFFF || ((s.fabric.active.any fun t => t.hasOrigin f) && !(s.fabric.out.any fun m => m.flow == f)))

/-- Put a difference record on EXPORT_FLOW as nine slots (R445). -/
def State.exportSend (s : State) (bs : List Byte) : State :=
  let f := s.step.exportFlow
  let m : OutMsg := { id := none, ctx := 0, flow := f, epoch := (s.activeFlow f).elim 0 (·.epoch), type := 8,
                      slots := flagged ((upTo 9).map fun k => (0, sliceB bs (512 * k) 512)), next := 0, ahead := [], sentFrame := 0, be := none,
                      window := none, batch := none }
  if f = 0xFFFF then s else s.setFabric fun x => { x with out := x.out ++ [m] }

/-- RECORD_DRAIN: the first committed record of a die (R439). -/
def State.drainRecord (s : State) (d : Nat) : State :=
  let u := s.updDieOf d
  match u.journal.find? fun r => r.committed with
  | none => s
  | some r =>
    if !s.unitOn d 5 ∨ !s.drainRoom d then s
    else
      let bs := diffBytes s.node d r
      let a := u.ringBase + s.rd (regDie .exportHead d) % (u.ringSize / 4160) * 4160
      let s := (s.writeBytes (s.groupAcc 0 a 4160) a bs).1.bump (regDie .exportHead d) 1
      ((s.tally d r.tensorId r.plane r.block (fieldN bs 32 16)).exportSend bs).updUpd d fun x =>
        { x with journal := x.journal.filter fun y => y.seq != r.seq }

def execRecordDrain (die : Nat) (s : State) : Host.Outcome State Fault Refusal := .next (s.drainRecord die)

/-! ### DIGEST_COMPARE (R448–R452) -/

def dcOp (d : List Byte) : Nat := bitsOf (u8 d 32) 2 0
def dcStep (d : List Byte) : Nat := u32 d 36
def dcGroup (d : List Byte) : Nat := bitsOf (u16 d 56) 11 0
def dcDie (d : List Byte) : Nat := bitsOf (u16 d 56) 14 12
def dcPlane (d : List Byte) : Nat := bitsOf (u8 d 58) 1 0
def dcIndex (d : List Byte) : Nat := u32 d 60

def State.checkDigestCompare (s : State) (d : List Byte) : Verdict :=
  let op := dcOp d
  Verdict.of (bodyViols d [⟨32, 2, 0⟩, bytesSpan 36 20, ⟨56, 14, 0⟩, ⟨58, 1, 0⟩, bytesSpan 60 12] ++ violIf (op > 3) (formatViol 32)
    ++ violIf (op < 2 && u64 d 40 % 64 != 0) (viol .alignInner noHandle 40)
    ++ (if op = 0 then s.allocReach 0 (u64 d 40) (u64 d 48) 40 false true else [])
    ++ (if op = 1 then s.allocReach 0 (u64 d 40) 4096 40 false true else [])
    ++ (if op = 2 then s.allocReach 0 (u64 d 64) 4096 64 true false else [])) []

def State.onCompare (s : State) (id : CmdId) (op : Nat) (f : Cmd → State) : State :=
  s.onCmd id (fun d => isOpcode 0x0083 d && dcOp d == op) f

/-- Access of a DIGEST_COMPARE to context 0's memory. -/
def State.dcAcc (s : State) (id : CmdId) (a n : Nat) : Acc := { s.groupAcc 0 a n with id := some id }

/-- The digest of the blocks of one region that a group holds. -/
def State.scanGroup (s : State) (g : GRec) (plane region : Nat) : Except AccErr Nat :=
  match g.blocksOf plane with
  | none => .ok 0
  | some (b0, n, a) =>
    ((upTo n).filter fun j => (b0 + j) / 256 == region).foldl (fun r j => match r with
      | .error e => .error e
      | .ok x => match s.readBytes (s.groupAcc g.ctx (a + 4096 * j) 4096) (a + 4096 * j) 4096 with
        | .error e => .error e
        | .ok bs => .ok (x ^^^ blockDigest g.tensorId plane (b0 + j) bs)) (.ok 0)

/-- Scan the UNSET regions of a die (R449). -/
def State.scanDie (s : State) (d : Nat) : Except AccErr State :=
  (s.regionsOf d).foldl (fun r k => match r with
    | .error e => .error e
    | .ok t =>
      let key := regionKey k.1 k.2.1 k.2.2
      if ((t.updDieOf d).digests.get? key).isSome then .ok t
      else
        let sum : Except AccErr Nat := ((t.updDieOf d).groups.vals.filter fun x => (gRec x.record).tensorId == k.1).foldl (fun a x => match a with
          | .error e => .error e
          | .ok v => match t.scanGroup (gRec x.record) k.2.1 k.2.2 with
            | .error e => .error e
            | .ok w => .ok (v ^^^ w)) (.ok 0)
        match sum with
        | .error e => .error e
        | .ok v => .ok (t.updUpd d fun u => { u with digests := u.digests.set key v })) (.ok s)

/-- Region digests of the module: those of the dies in service, XORed region by region. -/
def State.moduleDigests (s : State) : Tab Nat :=
  (((upTo 8).filter fun d => (s.die d).inService).map fun d =>
    ((s.regionsOf d).map fun k => regionKey k.1 k.2.1 k.2.2).eraseDups.map fun k => (k, (s.updDieOf d).digests.getD k 0)).flatten.foldl
    (fun (m : Tab Nat) e => m.upd e.1 0 fun x => x ^^^ e.2) []

def snapEntry (e : Nat × Nat) : List Byte :=
  leBytes 4 (e.1 / 2 ^ 32) ++ leBytes 4 (e.1 % 2 ^ 32) ++ leBytes 16 e.2

/-- Write the result of a SNAP. -/
def State.snapResult (s : State) (c : Cmd) : State :=
  let id := c.id
  let d := c.desc
  let es := s.moduleDigests
  let need := 64 + 24 * es.length
  if u64 d 48 < need then s.finish id ⟨Status.bufferCapacity.code, 0, detail64 0 need⟩
  else
    let head := record 64 [(0, 4, dcStep d), (8, 8, es.length), (16, 16, es.vals.foldl (fun a x => a ^^^ x) 0)]
    let w := s.writeBytes (s.dcAcc id (u64 d 40) need) (u64 d 40) (head ++ (es.map snapEntry).flatten)
    match w.2 with
    | some .wait => s
    | some e => w.1.failAcc id e
    | none => w.1.finish id Status.ok.plain

/-- Records of step `t` still to drain. -/
def State.drainsLeft (s : State) (t : Nat) : Bool := s.upd.vals.any fun u => u.journal.any fun r => r.committed && r.step == t

/-- A step after `t` has been committed. -/
def State.committedAfter (s : State) (t : Nat) : Bool := s.step.committed.any fun u => stepAfter u t

def State.snapStep (s : State) (c : Cmd) : State :=
  let id := c.id
  let t := dcStep c.desc
  match s.decisionOf t with
  | some (false, _) => s.finish id Status.stepSkipped.plain
  | some (true, _) =>
    if s.committedAfter t then s.finish id (formatViol 36).ending
    else if s.drainsLeft t then s.updCmd id fun x => { x with begun := true }
    else
      let scanned : Except AccErr State := ((upTo 8).filter fun d => (s.die d).inService).foldl (fun r d => match r with
        | .error e => .error e
        | .ok u => u.scanDie d) (.ok s)
      match scanned with
      | .error .wait => s
      | .error e => s.failAcc id e
      | .ok u => u.snapResult c
  | none =>
    if s.decided t ∨ s.committedAfter t then s.finish id (formatViol 36).ending else s.updCmd id fun x => { x with begun := true }

def execSnap (id : CmdId) (s : State) : Host.Outcome State Fault Refusal := .next (s.onCompare id 0 fun c => s.snapStep c)

/-- Run a command that waits until no step is undecided (R451). -/
def State.whenDecided (s : State) (id : CmdId) (f : State) : State :=
  if s.anyUndecided then s.updCmd id fun x => { x with begun := true } else f

/-- The group and plane a BLOCKS or REPAIR names: record, first BLOCK, count and address. -/
def State.dcPlaneOf (s : State) (d : List Byte) : Except Viol (GRec × Nat × Nat × Nat) :=
  match s.ugroup (dcDie d) (dcGroup d) with
  | none => .error (formatViol 56)
  | some g =>
    match (gRec g.record).blocksOf (dcPlane d) with
    | none => .error (formatViol 58)
    | some x => .ok (gRec g.record, x)

def State.blocks (s : State) (c : Cmd) : State :=
  let id := c.id
  let d := c.desc
  match s.dcPlaneOf d with
  | .error v => s.finish id v.ending
  | .ok (g, b0, n, a) =>
    let one (k : Nat) : Except AccErr Nat :=
      let b := 256 * dcIndex d + k
      if b < b0 ∨ b0 + n ≤ b then .ok 0
      else
        let p := a + 4096 * (b - b0)
        match s.readBytes (s.groupAcc g.ctx p 4096) p 4096 with
        | .error e => .error e
        | .ok bs => .ok (blockDigest g.tensorId (dcPlane d) b bs)
    match mapE one (upTo 256) with
    | .error .wait => s
    | .error e => s.failAcc id e
    | .ok ds =>
      let w := s.writeBytes (s.dcAcc id (u64 d 40) 4096) (u64 d 40) (ds.map (leBytes 16)).flatten
      match w.2 with
      | some .wait => s
      | some e => w.1.failAcc id e
      | none => w.1.finish id Status.ok.plain

def execBlocks (id : CmdId) (s : State) : Host.Outcome State Fault Refusal :=
  .next (s.onCompare id 1 fun c => s.whenDecided id (s.blocks c))

/-- REPAIR; its record carries the last committed step, or a free value where none was committed. -/
def State.repairBlock (s : State) (c : Cmd) : State :=
  let id := c.id
  let d := c.desc
  match s.dcPlaneOf d with
  | .error v => s.finish id v.ending
  | .ok (g, b0, n, a) =>
    let b := dcIndex d
    if b < b0 ∨ b0 + n ≤ b then s.finish id (formatViol 60).ending
    else if (s.updDieOf (dcDie d)).capacity ≤ (s.updDieOf (dcDie d)).owed then s.updCmd id fun x => { x with begun := true }
    else
      let p := a + 4096 * (b - b0)
      let x := s.groupAcc g.ctx p 4096
      match s.readBytes (s.dcAcc id (u64 d 64) 4096) (u64 d 64) 4096, s.readBytes x p 4096 with
      | .error .wait, _ => s
      | .error e, _ => s.failAcc id e
      | .ok new, old =>
        let w := s.writeBytes x p new
        let (fv, s) := w.1.free
        let r (seq : Nat) : DiffRec :=
          { seq, step := s.step.committed.getD (fv % 2 ^ 32), group := dcGroup d, plane := dcPlane d, repair := true,
            tensorId := g.tensorId, block := b, addr := p, ctx := g.ctx,
            delta := match old with
              | .ok o => xorBytes o new
              | .error _ => (upTo 4096).map fun i => BitVec.ofNat 8 (Config.freeValue (s.freeCount + i)),
            committed := true }
        let s := match old with
          | .ok _ => s
          | .error _ => { s with freeCount := s.freeCount + 4096 }
        match w.2 with
        | some e => s.failAcc id e
        | none => (s.journalPut (dcDie d) r).finish id Status.ok.plain

def execRepair (id : CmdId) (s : State) : Host.Outcome State Fault Refusal :=
  .next (s.onCompare id 2 fun c => s.whenDecided id (s.repairBlock c))

/-- Records of a die's export ring with STEP after `t`, newest first: their number and bytes. -/
def State.ringAfter (s : State) (d t : Nat) : Except AccErr (List (Nat × List Byte)) :=
  let u := s.updDieOf d
  let cap := u.ringSize / 4160
  let h := s.rd (regDie .exportHead d)
  let n := h - s.rd (regDie .exportRelease d)
  let one (k : Nat) : Except AccErr (Nat × List Byte) :=
    let i := h - 1 - k
    let a := u.ringBase + i % cap * 4160
    match s.readBytes (s.groupAcc 0 a 4160) a 4160 with
    | .error e => .error e
    | .ok bs => .ok (i, bs)
  match mapE one (upTo n) with
  | .error e => .error e
  | .ok rs => .ok (rs.filter fun r => stepAfter (u32 r.2 8) t)

/-- Reverse one exported record. -/
def State.unrecord (s : State) (d : Nat) (bs : List Byte) : State :=
  let plane := u8 bs 14
  let b := u32 bs 20
  let delta := sliceB bs 64 4096
  let s := match (s.ugroup d (bitsOf (u16 bs 12) 11 0)).bind fun g => ((gRec g.record).blocksOf plane).map fun x => ((gRec g.record).ctx, x) with
    | some (ctx, b0, n, a) => if b < b0 ∨ b0 + n ≤ b then s else s.xorBlock ctx (a + 4096 * (b - b0)) delta
    | none => s
  s.tally d (u32 bs 16) plane b (fieldN bs 32 16)

/-- ROLLBACK, once no step is undecided and every committed record has drained. -/
def State.rollback (s : State) (c : Cmd) : State :=
  let id := c.id
  let t := dcStep c.desc
  let dies := (upTo 8).filter fun d => (s.die d).inService
  if s.upd.vals.any fun u => u.journal.any fun r => r.committed then s.updCmd id fun x => { x with begun := true }
  else if dies.any fun d => (s.updDieOf d).releasedStep.any fun u => stepAfter u t then s.finish id (formatViol 36).ending
  else
    let go : Except AccErr State := dies.foldl (fun r d => match r with
      | .error e => .error e
      | .ok u => match u.ringAfter d t with
        | .error e => .error e
        | .ok rs =>
          let v := rs.foldl (fun v r => v.unrecord d r.2) u
          .ok (match rs.getLast? with
            | some r => v.wr (regDie .exportHead d) r.1
            | none => v)) (.ok s)
    match go with
    | .error .wait => s
    | .error e => s.failAcc id e
    | .ok s => (s.setSteps fun x => { x with oldest := (t + 1) % 2 ^ 32, committed := some t, voteFrame := none, reported := false }).finish id
        Status.ok.plain

def execRollback (id : CmdId) (s : State) : Host.Outcome State Fault Refusal :=
  .next (s.onCompare id 3 fun c => s.whenDecided id (s.rollback c))

/-! ### EVALUATE (R453) -/

def evOp (d : List Byte) : Nat := bitsOf (u8 d 32) 0 0

def checkEvaluate (d : List Byte) : Verdict :=
  Verdict.of (bodyViols d ([⟨32, 0, 0⟩, bytesSpan 36 4] ++ (if evOp d = 0 then [bytesSpan 40 4] else []))
    ++ violIf (evOp d == 0 && (u32 d 40 == 0 || u32 d 40 > 2 ^ 20)) (restViol 40)) []

/-- A block of a step after `t` has been applied. -/
def State.appliedAfter (s : State) (t : Nat) : Bool :=
  s.committedAfter t || s.upd.vals.any fun u => u.groups.vals.any fun g => g.steps.any fun x =>
    stepAfter x.step t && !(x.applied.isEmpty && x.before.isEmpty)

def State.evaluateBegin (s : State) (c : Cmd) : State :=
  let id := c.id
  let t := u32 c.desc 36
  if s.openWindow.isSome then s.finish id (formatViol 32).ending
  else match s.decisionOf t with
    | some (false, _) => s.finish id Status.stepSkipped.plain
    | some (true, _) =>
      if s.appliedAfter t then s.finish id Status.evalOverrun.plain
      else (s.setSteps fun x => { x with window := some (t, s.now + 1024 * u32 c.desc 40) }).finish id Status.ok.plain
    | none =>
      if s.decided t then s.finish id Status.evalOverrun.plain else s.updCmd id fun x => { x with begun := true }

def execEvaluateBegin (id : CmdId) (s : State) : Host.Outcome State Fault Refusal :=
  .next (s.onCmd id (fun d => isOpcode 0x0082 d && evOp d == 0) fun c => s.evaluateBegin c)

def execEvaluateEnd (id : CmdId) (s : State) : Host.Outcome State Fault Refusal :=
  .next (s.onCmd id (fun d => isOpcode 0x0082 d && evOp d == 1) fun c =>
    match s.openWindow with
    | some (t, _) =>
      if t = u32 c.desc 36 then (s.setSteps fun x => { x with window := none }).finish id Status.ok.plain
      else s.finish id (formatViol 36).ending
    | none => s.finish id Status.evalOverrun.plain)

def execEvalWindowExpiry (s : State) : Host.Outcome State Fault Refusal :=
  .next (match s.step.window with
    | some (_, close) => if close ≤ s.now then s.setSteps fun x => { x with window := none } else s
    | none => s)

end Sys2Proof.Machine
end

