-- ==== Sys2Proof/Machine/Control.lean ====
section
/-!
DEFINITION. Machine/Control.lean: the frame boundary (R343, R428–R432) and the frame control slot as received (R326, R329–R331,
R336–R339, R350, R367–R369, R431, R433).
-/
namespace Sys2Proof.Machine

/-! ### The frame boundary -/

/-- Ports whose last valid control slot votes in this module's subtree for step `t` (R431). -/
def State.voters (s : State) (t : Nat) : List ConsField :=
  ((upTo 40).map s.port).filterMap fun x =>
    if x.mode = .up ∧ x.cons.valid ∧ x.cons.parent ∧ x.cons.step = t then some x.cons else none

/-- The field for the oldest undecided step (R431). -/
def State.consField (s : State) : ConsField :=
  let t := s.step.oldest
  if !s.step.opened then ConsField.none
  else
    let vs := s.voters t
    { valid := true, parent := false, step := t,
      ready := vs.foldl (fun a v => a + v.ready) (b2n (s.cleanVote t)) % 2 ^ 32,
      reasons := vs.foldl (fun a v => a ||| v.reasons) (s.reasonsFor t) }

/-- A decision held and not yet applied. -/
def State.decisionPending (s : State) : Bool := s.step.last.any fun d => !d.applied

/-- The master's decision of frame `f` (R432, R434). -/
def State.masterDecides (s : State) (f : Nat) (c : ConsField) : State :=
  if !s.isMaster ∨ !s.step.opened ∨ s.decisionPending then s
  else if c.reasons ≠ 0 ∨ c.ready = s.step.participants then
    let d : Decision := ⟨c.step, decide (c.reasons = 0), decide (c.reasons ≠ 0) && s.step.applyAhead, c.reasons, f + s.step.lead, false⟩
    s.setSteps fun x => { x with prev := x.last, last := some d }
  else s

/-- Errors of a port's last frame: uncorrectable codewords, and a control slot that never came (R329). -/
def PortSt.endFrame (x : PortSt) (g : Nat) : PortSt :=
  if x.mode = .up then
    { x with fecFrames := if x.fecNow then x.fecFrames + 1 else 0, fecNow := false,
             badControls := if x.ctl.any fun c => decide (g ≤ c.frame + 1) then x.badControls else x.badControls + 1 }
  else x

/-- FRAME_CTR of a port's receive direction, and of its superseded key, after `n` frames (R328). -/
def State.countFrames (s : State) (n p : Nat) : State :=
  let s := if (s.port p).rxKey.isSome ∧ (s.port p).rxLive then s.bump (portReg .rxFrameCtr p) n else s
  s.updPort p fun x => { x with wire := [], oldRx := x.oldRx.map fun k => { k with ctr := k.ctr + n } }

/-- The boundary at which frame `g` begins: what frame `g − 1` has formed goes into the control slots of `g`. -/
def State.frameStart (s : State) (g : Nat) : State :=
  let n := g - s.time.frameDone
  let s := { s with time := { s.time with frameDone := g } }
  let s := (s.fabric.ports.map (·.1)).foldl (fun t p => t.countFrames n p) s.roleChange.retryWaiters
  let s := s.setFabric fun f => { f with ports := f.ports.mapVals fun _ x => x.endFrame g }
  let c := s.consField
  let voted := s.step.opened && (s.cleanVote s.step.oldest || s.reasonsFor s.step.oldest != 0)
  let s := s.setSteps fun x =>
    { x with field := c, voteFrame := if voted ∧ x.voteFrame.isNone then some (g - 1) else x.voteFrame }
  let s := s.masterDecides (g - 1) c
  s.setSteps fun x => { x with participants := x.newParticipants.getD x.participants, newParticipants := none }

def execFrameStart (s : State) : Host.Outcome State Fault Refusal :=
  .next (if s.time.frameDone < s.frame then s.frameStart s.frame else s)

/-! ### Time (R336–R339) -/

/-- The median of 16 offsets: a free value from the middle pair on, both included. -/
def State.median (s : State) (os : List Int) : Int × State :=
  let sorted := os.foldl (fun (l : List Int) x => (l.filter fun y => decide (y ≤ x)) ++ [x] ++ (l.filter fun y => decide (x < y))) []
  let a := sorted.getD (sorted.length / 2 - 1) 0
  let b := sorted.getD (sorted.length / 2) 0
  let (v, s) := s.free
  (a + Int.ofNat (v % ((b - a).toNat + 1)), s)

/-- Take one offset from the parent (R337). The gain of stage 2 is free. -/
def State.discipline (s : State) (o : Int) : State :=
  let t := s.time
  let os := (o :: t.offsets).take 16
  let s := { s with time := { t with lastOffset := o, offsets := os } }
  if !t.stepped then
    if os.length < 16 then s
    else
      let (m, s) := s.median os
      let now := (Int.ofNat s.now + m).toNat
      { s with time := { s.time with pips := BitVec.ofNat 64 now, frameDone := now / 1024, stepped := true, offsets := [], goodRun := 0 } }
  else
    let (v, s) := s.free
    let sum := os.foldl (· + ·) 0
    let freq : Int := if sum = 0 then 0 else Int.ofNat (v % 100001) * (if sum < 0 then -1 else 1)
    let run := if o.natAbs ≤ 2 then t.goodRun + 1 else 0
    let s := { s with time := { s.time with freqPpb := freq, goodRun := run } }
    if o.natAbs > 4 then
      if t.locked then ({ s with time := { s.time with locked := false } }).bump (regDie0 .timeLockLosses) 1 else s
    else if run ≥ 64 then { s with time := { s.time with locked := true } }
    else s

/-- A valid control slot on the port time is taken from. -/
def State.fromParent (s : State) (pl : List Byte) (offset : Option Int) : State :=
  if bitOf (u8 pl 27) 0 then
    let s := { s with time := { s.time with
      masterNode := u16 pl 24, masterHops := min 255 (u8 pl 26 + 1), holdover := false } }
    match offset with
    | some o => s.discipline o
    | none => s
  else s.holdover

/-- D and O of R336, where ECHO_TX is a TX_TIME that this port has sent. -/
def delayOffset (own : List Nat) (pl : List Byte) (tRx : Nat) : Option (Int × Int) :=
  let tx := Int.ofNat (u64 pl 0)
  let etx := u64 pl 8
  if etx = 0 ∨ !own.contains etx ∨ tRx < etx then none
  else
    let d := ((Int.ofNat tRx - Int.ofNat etx) - (tx - Int.ofNat (u64 pl 16))) / 2
    some (d, tx + d - Int.ofNat tRx)

/-! ### Decisions adopted (R433) -/

/-- A decision as a control slot carries it, at byte `o`. -/
def decisionAt (pl : List Byte) (o : Nat) : Option Decision :=
  let f := u8 pl (o + 4)
  if bitOf f 0 then some ⟨u32 pl o, bitOf f 1, bitOf f 2, u16 pl (o + 6), u64 pl (o + 8), false⟩ else none

/-- The step whose decision comes next: after those held and not applied. -/
def State.nextDecided (s : State) : Nat :=
  match s.step.last with
  | some d => if d.applied then s.step.oldest else (d.step + 1 + b2n d.span2) % 2 ^ 32
  | none => s.step.oldest

def State.holds (s : State) (d : Decision) : Bool :=
  s.step.last.any (fun x => x.step == d.step && x.frame == d.frame) || s.step.prev.any (fun x => x.step == d.step && x.frame == d.frame)

/-- Adopt a decision in step order; one that comes after its pip acts at once and is counted. -/
def State.adopt (s : State) (d : Decision) : State :=
  if s.holds d ∨ d.step ≠ s.nextDecided then s
  else
    let s := s.setSteps fun x => { x with prev := x.last, last := some d }
    if d.frame * 1024 < s.now ∧ d.step = s.step.oldest then (s.applyDecision d).bump (regDie0 .lateDecisions) 1 else s

/-- Decisions of the parent's control slot. -/
def State.takeDecisions (s : State) (pl : List Byte) : State :=
  if !s.step.opened then s
  else
    let ds := [decisionAt pl 92, decisionAt pl 76].filterMap id
    let s := ds.foldl (fun u d => u.adopt d) s
    let t := s.step.oldest
    let missed := ds.any (fun d => stepAfter d.step t && !s.holds d) && !(ds.any fun d => d.step == t)
      && !(s.step.last.any fun d => !d.applied)
    if missed ∧ !s.step.stalled then
      (s.setSteps fun x => { x with stalled := true }).faultRecord ⟨.consensus, 0, ⟨13, 0, 0⟩, none, noWhere⟩
    else s

/-! ### Repair (R368, R369) -/

/-- The frame whose low 16 bits an entry names. -/
def State.fullFrame (s : State) (lo : Nat) : Nat := s.frame - (s.frame + 65536 - lo % 65536) % 65536

/-- All contributions of a REDUCE output have answered EMPTY. -/
def State.noteEmpty (s : State) (frame port slot order flow epoch : Nat) : State :=
  let s := s.setFabric fun f =>
    { f with empties := ((f.empties.filter fun e => decide (s.frame ≤ e.1 + 64)).filter fun e => e != (frame, port, slot, order)) ++ [(frame, port, slot, order)] }
  match s.tableIn frame with
  | none => s
  | some (t, i) =>
    let es := s.fabric.empties.filter fun e => e.1 == frame && e.2.1 == port && e.2.2.1 == slot
    let loc := (t.txAt i port slot).any fun e => e.local'
    if es.length = (t.inputs (entryNo i port slot)).length + b2n loc then
      (s.placeRep port 2 slot frame flow epoch).setFabric fun f => { f with empties := f.empties.filter fun e => !es.contains e }
    else s

/-- A request at the origin: the retained slot is to be resent. Answers whether IDLE was sent there, which only the last 64
frames can tell. -/
def State.askOrigin (s : State) (port slot frame : Nat) : State × Bool :=
  let hit (r : Retained) : Bool := (r.port == port && r.index == slot && r.frame == frame) || r.resent == some (port, slot, frame)
  (s.setFabric fun f => { f with retained := f.retained.map fun r => if hit r then { r with requested := true } else r },
    decide (s.frame ≤ frame + 64) && !s.fabric.departed.contains (port, slot, frame))

/-- One slot named by a REQUEST that came in on a port. -/
def State.takeRequest (s : State) (p slot frame flow epoch : Nat) : State :=
  match s.tableIn frame with
  | none => s
  | some (t, i) =>
    match t.txAt i p slot with
    | none => s
    | some e =>
      match e.kind with
      | 1 =>
        let r := s.askOrigin p slot frame
        if r.2 then r.1.placeRep p 2 slot frame flow epoch else r.1
      | 2 => s.placeRep e.inPort 1 e.inSlot (frame - 1) flow epoch
      | 3 =>
        let s := (t.inputs (entryNo i p slot)).foldl (fun u x => u.placeRep (entryPort x.1) 1 (entrySlot x.1) (frame - 1) flow epoch) s
        if e.local' then
          let r := s.askOrigin p slot frame
          if r.2 then r.1.noteEmpty frame p slot 16 flow epoch else r.1
        else s
      | _ => s

/-- One slot that an EMPTY names: sent as IDLE by the neighbour in `frame` (log entry 43). -/
def State.takeEmpty (s : State) (p slot frame flow epoch : Nat) : State :=
  match s.tableIn (frame + 1) with
  | none => s
  | some (t, i) =>
    match t.rxAt i p slot with
    | none => s
    | some e =>
      match e.action with
      | 1 => s.updRx flow fun x =>
          (x.missed.find? fun m => m.place == (p, slot, frame + 1)).elim x x.settle
      | 2 => (t.takers (entryNo i p slot)).foldl (fun u x => u.placeRep (entryPort x.1) 2 (entrySlot x.1) (frame + 1) flow epoch) s
      | 3 => s.noteEmpty (frame + 1) e.outPort e.outSlot e.order flow epoch
      | _ => s

/-- A repair entry of a control slot. -/
def State.takeRepair (s : State) (p w : Nat) : State :=
  let kind := bitsOf w 1 0
  let slot := bitsOf w 8 2
  let frame := s.fullFrame (bitsOf w 31 16)
  (upTo (min 112 (bitsOf w 15 9))).foldl (fun u k =>
    if kind = 1 then u.takeRequest p (slot + k) frame (bitsOf w 47 32) (bitsOf w 63 48)
    else if kind = 2 then u.takeEmpty p (slot + k) frame (bitsOf w 47 32) (bitsOf w 63 48)
    else u) s

/-! ### Management messages (R325, R330, R331, R501) -/

/-- Change a port's exchange. -/
def State.updAuth (s : State) (p : Nat) (f : AuthSt → AuthSt) : State := s.updPort p fun x => { x with auth := x.auth.map f }

/-- This end's FINISHED, over the transcript so far. -/
def State.sendFinished (s : State) (p : Nat) (a : AuthSt) (secret : List Byte) : State :=
  s.sendMgmt p (mgmtOf 4 (Config.finished secret (s.transcript p a) (s.isEndL p)))

/-- A whole management message of the exchange of R501. -/
def State.takeAuth (s : State) (p type : Nat) (data : List Byte) (a : AuthSt) : State :=
  match type with
  | 1 =>
    let s := s.updAuth p fun a => { a with identity := true }
    if s.isEndL p ∧ a.kem.isNone then
      let (k, s) := s.nextDraw
      (s.updAuth p fun a => { a with kem := some k }).sendMgmt p (mgmtOf 2 (Config.kemKey k))
    else s
  | 2 =>
    if s.isEndL p ∨ !a.identity ∨ a.secret.isSome then s
    else
      let (k, s) := s.nextDraw
      let e := Config.kemEncap data (Config.drbg k 32)
      ((s.updAuth p fun a => { a with secret := some e.2 }).sendMgmt p (mgmtOf 3 e.1)).sendFinished p a e.2
  | 3 =>
    match a.kem, a.secret with
    | some k, none =>
      let z := Config.kemDecap k data
      (s.updAuth p fun a => { a with secret := some z }).sendFinished p a z
    | _, _ => s
  | 4 => s.updAuth p fun a => { a with finished := true }
  | _ => s

/-- A whole management message on a port that is UP. -/
def State.takeMgmt (s : State) (p type : Nat) (data : List Byte) : State :=
  let x := s.port p
  match type with
  | 5 =>
    if s.isEndL p then s
    else
      let (k, s) := s.nextDraw
      let e := Config.kemEncap data (Config.drbg k 32)
      s.deriveRekey p e.2 (data ++ e.1) none (mgmtOf 6 e.1)
  | 6 =>
    match x.rekey with
    | some ⟨some k, key, false, _⟩ =>
      let (v, s) := s.free
      let f := s.frame + 65 + v % 65536
      s.deriveRekey p (Config.kemDecap k data) (key ++ data) (some f) (mgmtOf 7 (leBytes 8 f))
    | _ => s
  | 7 =>
    if x.rekey.any fun r => r.derived && r.switchFrame.isNone then
      s.updPort p fun y => { y with rekey := some ⟨none, [], true, some (u64 data 0)⟩ }
    else s
  | _ => s

/-- Fragment 0 of the peer's IDENTITY: its nonce and owner hash. Only now is this end's signature made, over the peer's nonce, its
own owner hash and SHAKE256, taken to 64 bytes, of what has been exchanged (R501; log entry 158). -/
def State.takePeerNonce (s : State) (p : Nat) (a : AuthSt) (b : List Byte) : State :=
  let nonce := sliceB b 0 32
  let sig := padTo 1280 (Config.falconSign 0 (nonce ++ s.ownerHash ++ Config.shake256 64 (s.transcript p a)))
  s.updPort p fun x =>
    { x with auth := x.auth.map fun a => { a with peer := some (nonce, sliceB b 32 64) }
             mgmt := x.mgmt.map fun m => if m.type = 1 ∧ m.frags.length < m.count then { m with frags := m.frags ++ fragsOf sig } else m }

/-- A fragment as it comes in AUTHENTICATING. -/
def State.noteFragment (s : State) (p type k : Nat) (b : List Byte) : State :=
  match (s.port p).auth with
  | none => s
  | some a =>
    let a := { a with got := a.got ++ b }
    let s := s.updAuth p fun _ => a
    if type = 1 ∧ k = 0 ∧ a.peer.isNone then s.takePeerNonce p a b else s

/-- A whole management message, as the port's state takes it. -/
def State.takeMessage (s : State) (p type : Nat) (data : List Byte) : State :=
  match (s.port p).mode, (s.port p).auth with
  | .authenticating, some a => s.takeAuth p type data a
  | .up, _ => s.takeMgmt p type data
  | _, _ => s

/-- Join the fragments of a management message; one out of order is dropped. -/
def State.takeFragment (s : State) (p : Nat) (pl : List Byte) : State :=
  let type := u8 pl 192
  let k := u16 pl 194
  let bytes := (pl.drop 200).take (min 280 (u16 pl 198))
  if type = 0 then s
  else
    let s := s.noteFragment p type k bytes
    let have' : Option (List Byte) :=
      if k = 0 then some [] else match (s.port p).mgmtRx with
        | some (t, n, bs) => if t = type ∧ n = k then some bs else none
        | none => none
    match have' with
    | none => s.updPort p fun x => { x with mgmtRx := none }
    | some bs =>
      if k + 1 ≥ u16 pl 196 then (s.updPort p fun x => { x with mgmtRx := none }).takeMessage p type (bs ++ bytes)
      else s.updPort p fun x => { x with mgmtRx := some (type, k + 1, bs ++ bytes) }

/-! ### CONTROL_SLOT_RECEIVE -/

/-- Whether a control payload holds a reserved encoding (R326). -/
def controlReserved (pl : List Byte) : Bool :=
  u8 pl 192 > 7 || (upTo 8).any fun i => u8 pl (128 + 8 * i) % 4 == 3

/-- What a port that is UP takes from a valid control slot. -/
def State.takeControl (s : State) (p : Nat) (pl : List Byte) (offset : Option Int) : State :=
  let f := u8 pl 74
  let s := s.updPort p fun x =>
    { x with peerLocked := bitOf (u8 pl 27) 0, peerMaster := u16 pl 24, peerHops := u8 pl 26, credit := min 64 (x.credit + u8 pl 49),
             cons := ⟨bitOf f 0, bitOf f 1, u32 pl 64, u32 pl 68, u16 pl 72⟩ }
  let ports := s.rd (regDie0 .timeControl)
  let locks := s.time.role = .follower ∧ bitOf (u8 pl 27) 0 ∧ (p = bitsOf ports 7 2 ∨ p = bitsOf ports 13 8)
  let s := if locks then { s with time := { s.time with lastLockedFrame := s.frame } } else s
  let parent := s.time.role = .follower ∧ s.timeParent = p
  let s := if parent then (s.fromParent pl offset).takeDecisions pl else s
  let proposal := bitOf (u8 pl 48) 0 && (s.fabric.standby.any fun t => t.id == u32 pl 36) && decide (s.frame + 1 < u64 pl 40)
  let s := if proposal then s.adoptFailover (u64 pl 40) else s
  (words64 8 (pl.drop 128)).foldl (fun u w => u.takeRepair p w) s

/-- A control slot through FEC, tag and encodings: none where it is invalid (R326). -/
def State.openControl (s : State) (p : Nat) (rx : RxSlot) : State × Option (List Byte) :=
  let s := if rx.corrected = 0 then s else s.bump (portReg .fecCorrected p) rx.corrected
  if !rx.fecOk then ((s.bump (portReg .fecUncorrected p) 1).updPort p fun x => { x with fecNow := true }, none)
  else
    let o := s.openPhase p 0 rx.bytes
    match o.2 with
    | none => (o.1.bump (portReg .tagFails p) 1, none)
    | some (h, pl) =>
      if bitsOf (u8 h 0) 7 5 ≠ 0 then (o.1.bump (portReg .tagFails p) 1, none)
      else (o.1, if bitsOf (u8 h 0) 3 0 = 3 ∧ !controlReserved pl then some pl else none)

def State.controlReceive (s : State) (p : Nat) (rx : RxSlot) (tRx : Nat) : State :=
  let o := s.openControl p rx
  match o.2 with
  | none => o.1.updPort p fun x =>
      { x with badControls := x.badControls + 1, ctl := (⟨tRx / 1024, false, 0⟩ :: x.ctl).take 2 }
  | some pl =>
    let m := delayOffset (o.1.port p).txTimes pl tRx
    let s := o.1.updPort p fun x =>
      { x with badControls := 0, ctl := (⟨tRx / 1024, true, u32 pl 32⟩ :: x.ctl).take 2,
               sender := some (u16 pl 28, u8 pl 30), echoTx := u64 pl 0, echoRx := tRx,
               exchanges := if m.isSome ∧ x.mode = .measuring then x.exchanges + 1 else x.exchanges,
               delay := m.elim x.delay fun d => d.1.toNat % 65536 }
    (if s.portUp p then s.takeControl p pl (m.map fun d => d.2) else s).takeFragment p pl

def execControlSlotReceive (port : Nat) (rx : RxSlot) (tRx : Nat) (s : State) : Host.Outcome State Fault Refusal :=
  .next (if port < 40 ∧ (s.port port).mode.code ≥ 3 then s.controlReceive port rx tRx else s)

end Sys2Proof.Machine
end

