-- ==== Sys2Proof/Machine/Reset.lean ====
section
/-!
DEFINITION. Machine/Reset.lean: what each kind of reset keeps and clears (R530–R533, R546, R547), and the stop of the
module (R466, R521, R523, R554).
-/
namespace Sys2Proof.Machine

/-! ### What survives in the registers -/

/-- RO counters that keep their values through warm and function resets, and the fields that go with what those resets
keep (R547, Table 22-3). -/
def RegName.keptByWarm : RegName → Bool
  | .sramCeCount | .syncWatchWaits | .barrierExcess | .incarnationDrops | .hbmCeCount | .gddrCeCount | .memUeCount | .memUeLast
  | .retireSpares | .commonsCeCount | .partHbmBytes | .partGddrBytes | .partThrottled | .fecCorrected | .fecUncorrected
  | .tagFails | .rekeys | .timeLockLosses | .repairRequests | .resends | .flowLosses | .duplicateDrops | .remoteDenied
  | .switchDrops | .slotMismatch | .tableMismatch | .beLost | .dispatchPlaced | .dispatchDrops | .dispatchRedirects
  | .updBlocksApplied | .updSlowBlocks | .updStagingOverflows | .updNormClips | .updDiscards | .stepsCommitted
  | .stepsSkipped | .lateDecisions | .consensusStalls | .journalSeq | .exportHead | .foreignHead | .exportDrops | .updParked
  | .tallyUpdates | .transientFaults | .lastingFaults | .tasksReplayed | .nonReplayableFaults | .pmcValue | .logDrops
  | .ideRejects | .throttleEvents | .powerCapEvents | .resetsSinceCold | .lockedWrites => true
  | _ => false

/-- Registers a function reset returns to their defaults: context blocks, owner registers and the other operating fields
(R546, Table 23-4). -/
def RegName.clearedByFunction (n : RegName) : Bool :=
  n.info.block == .context
    || [RegName.bankOwner, .accSlotOwner, .repairCmd, .repairRow, .exportRelease, .foreignRelease, .faultRingBase, .logRingBase,
        .snapshotControl, .snapshotTime, .snapshotAddr, .snapshotLength, .secCmd, .secReqAddr, .secRespAddr, .fwMailboxAddr,
        .fwMailboxControl, .fwMailboxLength, .stepFlags].contains n

/-- The stored registers whose names satisfy `p`. -/
def State.keepRegs (s : State) (p : RegName → Bool) : State :=
  { s with regs := s.regs.filter fun e => match regAt e.1 with
      | some r => p r.name
      | none => false }

/-! ### Shared steps of R531 -/

/-- The destination of a command that is abandoned or lost: free bytes (R463, R531). -/
def State.undefineDest (s : State) (c : Cmd) : State :=
  if c.outs.isEmpty then s
  else if isOpcode 0x0020 c.desc then
    match s.geo c.id c.desc c.records with
    | some g => s.undefined (s.accOf c.id g.o) g.allOuts
    | none => s
  else
    c.outs.foldl (fun t h => match t.tensRun c.id.ctx h with
      | some x => t.undefined (t.accOf c.id x) (if x.raw then [(x.base, x.ext 0)] else x.ranges 0)
      | none => t) s

/-- Steps 1 and 2: fetching stops, and every issued command is abandoned without a record. -/
def State.abandon (s : State) : State :=
  let s := s.cmds.foldl State.undefineDest s
  { s with cmds := [], held := [], msgs := [], twatches := [], gradStep := none }

/-- A substitution under way finishes before the reset acts (R280). -/
def State.finishPlacing (s : State) : State :=
  (s.cells.filter fun e => e.2.placing).foldl (fun t e =>
    let t := e.2.handovers.foldl (fun u h => u.scrub (cellKey e.1 (bankSpan h.1).1) (bankSpan h.1).2) t
    (t.updCell e.1 fun c => { c with handovers := [] }).placeDone e.1) s

/-- Step 3: committed records go to Tally, and to the export ring while it has room (R444); none is sent. -/
def State.drainCommitted (s : State) (d : Nat) : State :=
  let mine := (s.updDieOf d).journal.filter fun r => r.committed
  (mine.foldl (fun t r =>
    let u := t.updDieOf d
    let bs := diffBytes t.node d r
    let cap := u.ringSize / 4160
    let h := t.rd (regDie .exportHead d)
    let t := if h - t.rd (regDie .exportRelease d) < cap then
        let a := u.ringBase + h % cap * 4160
        (t.writeBytes (t.groupAcc 0 a 4160) a bs).1.bump (regDie .exportHead d) 1
      else t
    t.tally d r.tensorId r.plane r.block (fieldN bs 32 16)) s).updUpd d fun u => { u with journal := u.journal.filter fun r => !r.committed }

/-- Step 4: the records and open blocks of every undecided step are reversed, newest first, without a decision. -/
def State.reverseAll (s : State) (d : Nat) : State :=
  let s := (s.updDieOf d).groups.vals.foldl (fun t g => g.steps.foldl (fun v u => v.restoreOpen g u.step) t) s
  let mine := (s.updDieOf d).journal.reverse
  (mine.foldl (fun t r => t.xorBlock r.ctx r.addr r.delta) s).updUpd d fun u => { u with journal := [] }

/-- Steps 1 to 4 of R531. -/
def State.quit (s : State) : State :=
  let s := s.finishPlacing.abandon
  let s := (upTo 8).foldl State.drainCommitted s
  (upTo 8).foldl State.reverseAll s

/-- A context as a warm or function reset leaves it: generations alone (Table 22-3). -/
def Ctx.generations (c : Ctx) : Ctx :=
  { Ctx.init with
    slots := c.slots.mapVals fun _ d => { DescSlot.init with gen := d.gen }
    counters := c.counters.mapVals fun _ m => { VMap.init with gen := m.gen }
    barriers := c.barriers.mapVals fun _ m => { VMap.init with gen := m.gen } }

/-- What every warm and function reset clears alike. -/
def State.clearWork (s : State) : State :=
  { s with
    ctxs := s.ctxs.mapVals fun _ c => c.generations
    groups := []
    mem := { s.mem with tokens := [], repairing := [] }
    faults := { s.faults with base := 0, w := 0 }
    log := { s.log with base := 0, w := 0 }
    snap := SnapSt.init
    upd := s.upd.mapVals fun _ u => { UpdDie.init with digests := u.digests }
    step := StepSt.init
    sec := { s.sec with running := none, owner := false, session := false, ide0 := [], ide1 := [], ideSet := 0 }
    pcie := { s.pcie with table := [], pba := [], latch := [] } }

/-- Every scratchpad, accumulator and commons word made zero with valid check bits. -/
def State.clearSram (s : State) : State := s.scrub (2 ^ 43) (2 ^ 44)

/-! ### The resets -/

/-- A cold or warm sequence runs. -/
def State.inSequence (s : State) : Bool := s.boot.stage ≠ .ready && s.boot.stage ≠ .failed

/-- What lies outside the reach of a cold reset: fuses, module flash, host memory, pins, and the numbering of what is
drawn; `soft`: soft repairs last, since power was not removed (R316). -/
def State.coldClear (s : State) (cause : Nat) (soft : Bool) : State :=
  let r := State.reset
  { r with
    pending := s.pending
    boot := { r.boot with resetCause := cause, fwFloor := s.boot.fwFloor, signedRequired := s.boot.signedRequired,
                          killed := s.boot.killed, flash := s.boot.flash, setupImage := s.boot.setupImage,
                          flashTorn := s.boot.flashTorn || s.boot.flashWriting.isSome, serial := s.boot.serial }
    power := { r.power with supplies := s.power.inputOk && s.power.modResetHigh, inputOk := s.power.inputOk,
                            modResetHigh := s.power.modResetHigh, removed := s.power.removed,
                            pwrGood := s.power.inputOk && s.power.modResetHigh }
    pcie := { r.pcie with perstAsserted := s.pcie.perstAsserted, lastRead := s.pcie.lastRead, sent := s.pcie.sent }
    mem := { r.mem with host := s.mem.host, nextKey := s.mem.nextKey,
                        repaired := s.mem.repaired.filter fun x => soft || x.1 == 3 }
    sec := { r.sec with ownerSlots := s.sec.ownerSlots, draws := s.sec.draws, errorState := s.sec.errorState,
                        dead := s.boot.killed }
    freeCount := s.freeCount }

/-- A cold reset (Table 22-2); one that finds a cold sequence running is merged into it (R532). -/
def State.coldReset (s : State) (cause : Nat) : State :=
  if s.inSequence ∧ s.boot.coldSeq then s else s.coldClear cause true

/-- A warm reset (R531): the later stages follow with COLD_STAGE_END. -/
def State.warmReset (s : State) (cause : Nat) : State :=
  if !s.ready then s
  else
    let s := (s.quit.bump (regDie0 .resetsSinceCold) 1).keepRegs RegName.keptByWarm
    let s := s.clearWork
    { s with
      boot := { s.boot with stage := .rom, failReason := 0, resetCause := cause, seqStart := s.now, elapsed := 0, coldSeq := false,
                            recovery := false, firmwareOn := false, fromHost := false, setupInvalid := false, running := [],
                            fwVersion := 0, flashTorn := s.boot.flashTorn || s.boot.flashWriting.isSome, flashWriting := none,
                            selfTestsPassed := false }
      power := { s.power with fwPoint := 28, loopsHeld := false, tempReports := [], silent := [], powerReports := 0 }
      time := { s.time with role := .free, locked := false, holdover := false, onBackup := false, masterHops := 0xFF,
                            masterNode := 0xFFFF, offsets := [], goodRun := 0, load := none, roleAt := 0 }
      dies := []
      cells := s.cells.mapVals fun _ c => { Cell.init with fusedOut := c.fusedOut, mode := if c.mode = .fenced then .fenced else .idle }
      faults := { s.faults with tests := [], degraded := false, fetchStopped := false, dieLost := false, linksDown := [] }
      freeze := FreezeSt.init
      fabric := { FabricSt.init with batchGen := s.fabric.batchGen }
      sec := { s.sec with result := 0, challenge := none, policySigned := false } }

/-- A function reset: the map, the ports and the active table stay (Table 22-3). -/
def State.functionReset (s : State) (flr : Bool) : State :=
  if !s.ready then s
  else
    let s := (s.quit.bump (regDie0 .resetsSinceCold) 1).keepRegs fun n => !n.clearedByFunction
    let s := s.clearWork.clearSram
    { s with
      boot := { s.boot with resetCause := if flr then 6 else 5 }
      dies := s.dies.mapVals fun _ d =>
        { d with counters := [], barriers := [], watches := [], waiting := [],
                 slots := d.slots.mapVals fun _ l => { l with owners := [] } }
      cells := s.cells.mapVals fun _ c =>
        { c with tasks := [], handovers := [], mode := if c.mode = .running then .idle else c.mode }
      faults := { s.faults with degraded := s.faults.dieLost, fetchStopped := s.faults.dieLost }
      freeze := { s.freeze with armedT := none, armedBy := none }
      fabric := { s.fabric with standby := none, pendingSwitch := none, out := [], retained := [], rx := [], headers := [],
                                cancels := [], empties := [], departed := [], waiters := [] } }

/-- The module stops until a cold reset (R466, R521, R523, R554). Nothing of it can be read before that reset, which
clears it, so what it held is cleared here; fabric time runs on (R334). `off`: the die supplies go. -/
def State.stopModule (s : State) (off : Bool) : State :=
  let c := s.coldClear s.boot.resetCause (!off)
  { c with
    time := { TimeSt.init with pips := s.time.pips, cclk := s.time.cclk, phase := s.time.phase }
    power := { c.power with stopped := true, supplies := c.power.supplies && !off, pwrGood := c.power.supplies && !off,
                            thermTrip := s.power.thermTrip } }

/-- A MODULE fault: its record is written, then the module stops. -/
def State.moduleFault (s : State) (u : UnitId) (off : Bool) : State :=
  (s.faultRecord ⟨.module, 0, u, none, noWhere⟩).stopModule off

end Sys2Proof.Machine
end

