-- ==== Sys2Proof/Machine/Faults.lean ====
section
/-!
DEFINITION. Machine/Faults.lean: unit errors and targeted self-tests (R456–R463, R562, Table 18-3), and the loss of a die,
of the PCI Express link and of the module (R287–R289, R465, R466, R511).
-/
namespace Sys2Proof.Machine

/-! ### The package's links (R25, R288) -/

/-- The two dies each die-to-die link joins, by its number. -/
def linkEnds : List (Nat × Nat) :=
  [(0, 1), (1, 2), (2, 3), (4, 5), (5, 6), (6, 7), (0, 4), (1, 5), (2, 6), (3, 7), (0, 3), (4, 7)]

/-- Dies that satisfy `ok` and are joined to the dies listed, over links not in `down`; `fuel` bounds the hops. -/
def spread (ok : Nat → Bool) (down : List Nat) : Nat → List Nat → List Nat
  | 0, ds => ds
  | fuel + 1, ds =>
    spread ok down fuel ((upTo 12).foldl (fun acc k =>
      let (a, b) := linkEnds.getD k (0, 0)
      if down.contains k ∨ !ok a ∨ !ok b then acc
      else if acc.contains a then insertKey acc b
      else if acc.contains b then insertKey acc a
      else acc) ds)

/-- Dies joined to die 0 through links whose both ends satisfy `ok` (R288). -/
def joined (ok : Nat → Bool) (down : List Nat) : List Nat := if ok 0 then spread ok down 8 [0] else []

/-! ### Loss of a die (R287, R465) -/

/-- Whether a run of bytes touches a die. -/
def Rng.onDie (l : Layout) (d : Nat) (r : Rng) : Bool :=
  (upTo (r.2 / 4096 + 2)).any fun k =>
    let a := if k = 0 then r.1 else (r.1 / 4096 + k) * 4096
    decide (a < r.1 + r.2) && (placeOf l a).die? == some d

/-- Every plane of a tensor: elements and scales, promotion map and shadow, history record. -/
def Tens.reaches (t : Tens) : List Rng :=
  t.hull 0 ++ (promoRanges t).map (fun p => p.2) ++ (if t.scaleMode = 2 then [(t.history, 128)] else [])

/-- The runs of bytes that a command's body names by address. -/
def bodyRanges (d : List Byte) : List Rng :=
  match hOpcode d with
  | 0x10 => [(u64 d 40, 128)]
  | 0x50 => if syOp d = 2 ∨ syOp d = 4 then [(u64 d 56, 8)] else []
  | 0x80 => if gsOp d = 0 then [(u64 d 40, 256)] else if gsOp d = 4 then [(u64 d 40, 64)] else []
  | 0x81 => if scOp d = 0 then [(u64 d 40, 448)] else []
  | 0x83 => if dcOp d = 0 then [(u64 d 40, u64 d 48)] else if dcOp d = 1 then [(u64 d 40, 4096)]
    else if dcOp d = 2 then [(u64 d 64, 4096)] else []
  | 0x91 => if bitsOf (u8 d 32) 1 0 = 0 then [(u64 d 40, 64 * 2 ^ bitsOf (u8 d 48) 4 0)] else []
  | 0x92 => [(u64 d 48, u64 d 56)]
  | 0xA0 => [(u64 d 40, 96)]
  | 0xB0 => [(u64 d 32, 4096)]
  | _ => []

/-- The runs that a command's records name: the entries of a pointer list, the planes of a group. -/
def State.recordRanges (s : State) (c : Cmd) : List Rng :=
  let r := c.records.getD 1 []
  match hOpcode c.desc with
  | 0x20 => (s.geo c.id c.desc c.records).elim [] fun g => (g.entries.map fun e => g.inRanges e ++ g.storeRanges e).flatten
  | 0x40 =>
    match s.tensRun c.id.ctx (u32 c.desc 32), s.tensRun c.id.ctx (u32 c.desc 36) with
    | some i, some o => ((moveEnts c.desc i o (c.records.getD 0 [])).map fun e => e.reads ++ e.writes).flatten
    | _, _ => []
  | 0x80 => if gsOp c.desc = 0 then
      let g := gRec r
      (g.planes.map fun p => (p.2.1, p.2.2.1 * g.elements)) ++ g.readOnly.map fun p => (p.1, p.2.1) else []
  | 0x81 => if scOp c.desc = 0 then ((upTo 8).map fun d => (openRanges r d).map fun x => (x.1, x.2.1)).flatten else []
  | _ => []

/-- The runs of bytes a command may reach: the tensors it names, the addresses in its body, its records. -/
def State.cmdRanges (s : State) (c : Cmd) : List Rng :=
  (c.handles.map fun h => (s.tensRun c.id.ctx h).elim [] Tens.reaches).flatten ++ bodyRanges c.desc ++ s.recordRanges c

/-- Counters that a command names in its header and, for SYNC, in its body. -/
def namedRefs (d : List Byte) : List Nat :=
  [hWaitRef d 0, hWaitRef d 1, hSignalRef d] ++ if isOpcode 0x0050 d then [syRef d] else []

/-- A command has a task, bank, counter or memory access on a die (R465). -/
def State.touches (s : State) (c : Cmd) (d : Nat) : Bool :=
  let ctx := c.id.ctx
  c.cells.any (fun l => l / 96 == d)
    || (s.cmdRanges c).any (Rng.onDie s.mem.layout d)
    || (namedRefs c.desc).any (fun r => refEnabled r && (s.counterOf ctx r).any fun (x : Nat × Nat) => x.1 == d)
    || (isOpcode 0x0050 c.desc && (s.barrierOf ctx (syRef c.desc)).any fun (x : Nat × Nat) => x.1 == d)
    || (isOpcode 0x0051 c.desc && smDie c.desc == d)
    || (isOpcode 0x0080 c.desc && gsDie c.desc == d)
    || (isOpcode 0x0083 c.desc && dcDie c.desc == d)
    || ((isOpcode 0x00A1 c.desc || isOpcode 0x00A2 c.desc) && bitsOf (u32 c.desc 32) 9 7 == d)
    || ((isSend c.desc || isReceive c.desc || isReturn c.desc || isSum c.desc) && s.cmdDie c.id == d)

/-- A command completes with NON_REPLAYABLE, as the record numbered `seq` says (R463). -/
def State.loseCommand (s : State) (c : Cmd) (die seq : Nat) : State :=
  if c.ending.isSome then s
  else if isOpcode 0x0020 c.desc then s.loseProduct c.id die seq
  else (((s.countLoss die).undefineDest c).setFabric fun f => { f with out := f.out.filter fun m => m.id != some c.id }).finish c.id
    (lossEnding seq)

/-- R465 for one die: its record, its commands, its ports, and the stop of fetching. -/
def State.loseOne (s : State) (d : Nat) : State :=
  let seq := s.faults.seq
  let s := s.faultRecord ⟨.die, 0, ⟨13, d, 0⟩, none, noWhere⟩
  let s := (s.updDie d fun x => { x with inService := false })
  let s := { s with
    cells := s.cells.mapVals fun k c => if k / 104 = d then { c with tasks := [], placing := false, portsClosed := true } else c
    faults := { s.faults with tests := s.faults.tests.filter fun t => t.1.die != d, degraded := true, fetchStopped := true,
                              dieLost := true } }
  let s := (portsOf d).foldl (fun t p => t.portDown p 8) s
  let s := s.cmds.foldl (fun t c => if s.touches c d then t.loseCommand c d seq else t) s
  (s.abortAll.raiseFault).setSteps fun x => { x with opened := false }

/-- Dies in service that are cut off from die 0. -/
def State.cutOffDies (s : State) : List Nat :=
  let ok (d : Nat) : Bool := (s.die d).inService
  (upTo 8).filter fun d => ok d && !(joined ok s.faults.linksDown).contains d

/-- Dies that a loss or a link fault has cut off are lost too. -/
def State.loseCutOff : Nat → State → State
  | 0, s => s
  | fuel + 1, s =>
    match s.cutOffDies with
    | [] => s
    | d :: _ => State.loseCutOff fuel (s.loseOne d)

/-- A DIE fault; one that would take die 0 is the loss of the module (R289). -/
def State.loseDie (s : State) (d : Nat) : State :=
  if d = 0 then s.moduleFault ⟨13, 0, 0⟩ false
  else if !(s.die d).inService then s
  else (s.loseOne d).loseCutOff 8

def execDieLoss (die : Nat) (s : State) : Host.Outcome State Fault Refusal :=
  .next (if s.ready ∧ die < 8 then s.loseDie die else s)

/-! ### Loss of the PCI Express link (R466) -/

/-- The session and the owner role end with the link (R489, R492). -/
def State.endSession (s : State) : State :=
  { s with sec := { s.sec with owner := false, session := false, ide0 := [], ide1 := [], ideSet := 0 } }

def State.linkLoss (s : State) : State :=
  let s := { s with pcie := { s.pcie with linkUp := false } }
  let s := (s.faultRecord ⟨.module, 0, ⟨11, 0, 0⟩, none, noWhere⟩).endSession
  let s := { s with faults := { s.faults with degraded := true, fetchStopped := true } }
  s.raiseFault.setSteps fun x => { x with opened := false }

def execPcieLinkLoss (s : State) : Host.Outcome State Fault Refusal :=
  .next (if !s.pcie.linkUp then s
    else if s.ready then s.linkLoss
    else { s with pcie := { s.pcie with linkUp := false } }.endSession)

/-! ### Watchdog and power stage (R511, R466) -/

def execStewardWatchdogMiss (die : Nat) (s : State) : Host.Outcome State Fault Refusal :=
  .next (if !s.boot.firmwareOn ∨ die ≥ 8 then s
    else if die ≠ 0 then (if s.ready then s.loseDie die else s)
    else
      let s := s.faultRecord ⟨.module, 0, ⟨13, 0, 0⟩, none, noWhere⟩
      { s with power := { s.power with loopsHeld := true, fwPoint := 28 } })

def execPowerStageFault (s : State) : Host.Outcome State Fault Refusal :=
  .next (if s.power.supplies then s.moduleFault ⟨12, 0, 0⟩ true else s)

/-! ### UNIT_ERROR (R459, R460, R562) -/

/-- Whether a unit is one that a targeted self-test covers, and in service. -/
def State.unitThere (s : State) (u : UnitId) : Bool :=
  (s.die u.die).inService && (if u.kind = 0 then
      decide (u.index < 104) && !(s.cell (u.die * 104 + u.index)).fusedOut && (s.cell (u.die * 104 + u.index)).mode != .fenced
    else if u.kind = 7 then
      decide (u.index < 12) && (linkEnds.getD u.index (0, 0)).1 == u.die && !s.faults.linksDown.contains u.index
        && (s.die (linkEnds.getD u.index (0, 0)).2).inService
    else decide (u.kind ≤ 6))

def State.tested (s : State) (u : UnitId) : Bool := s.faults.tests.any fun t => t.1 == u

/-- The word an error rests on is poisoned. -/
def State.poisonAt (s : State) (a : Nat) : State :=
  match s.keyOf (placeOf s.mem.layout a) with
  | some k => s.setPoison (k / 8) true
  | none => s

/-- End the command that read an uncorrectable word it had not written itself (R562). -/
def State.failReader (s : State) (id : CmdId) (a : Nat) : State :=
  match s.cmd? id with
  | none => s
  | some c =>
    let s := s.updCmd id fun x => { x with lossSeq := some s.faults.seq }
    if isOpcode 0x0020 c.desc then s.stopRun id (AccErr.ecc a).ending else s.finish id (AccErr.ecc a).ending

/-- A cell's UNIT error. -/
def State.cellError (s : State) (cell : Nat) (id : Option CmdId) (word : Option Nat) (own : Bool) : State :=
  let s := match word with
    | none => s
    | some a =>
      let s := s.poisonAt a
      if own then s
      else
        let s := s.ueReport a
        match id with
        | some i => s.failReader i a
        | none => s
  let seq := s.faults.seq
  let work := match s.cellWork cell with
    | some w => some w
    | none => id
  let s := s.faultRecord ⟨.unit, 0, cellUnit cell, s.cellLogical cell, whereOf work⟩
  let s := (s.quiesce cell seq).updCell cell fun x => { x with mode := .selfTest }
  { s with faults := { s.faults with tests := s.faults.tests ++ [(cellUnit cell, work, seq)] } }

/-- The cell that holds the uncorrectable word a completing command read is tested (R562), unless its test has been started. -/
def State.testHolder (s : State) (c : Cmd) (e : Ending) : State :=
  if e.status ≠ Status.eccUncorrectable.code ∨ c.lossSeq.isSome then s
  else
    match placeOf s.mem.layout (leValue (e.detail.drop 8)) with
    | .sram l _ =>
      match s.cellOf l with
      | some cell => if !s.ready ∨ s.tested (cellUnit cell) then s else s.cellError cell none none false
      | none => s
    | _ => s

def State.unitError (s : State) (u : UnitId) (id : Option CmdId) (word : Option Nat) (own : Bool) : State :=
  if !s.unitThere u ∨ s.tested u then s
  else if u.kind = 0 then s.cellError (u.die * 104 + u.index) id word own
  else if u.kind = 6 then s.loseDie u.die
  else
    let seq := s.faults.seq
    let s := s.faultRecord ⟨.unit, 0, u, none, whereOf id⟩
    { s with faults := { s.faults with tests := s.faults.tests ++ [(u, id, seq)] } }

def execUnitError (u : UnitId) (id : Option CmdId) (word : Option Nat) (own : Bool) (s : State) : Host.Outcome State Fault Refusal :=
  .next (if s.ready then s.unitError u id word own else s)

/-! ### TARGETED_SELF_TEST_END (R459, Table 18-3) -/

def State.endTest (s : State) (u : UnitId) : State :=
  { s with faults := { s.faults with tests := s.faults.tests.filter fun t => t.1 != u } }

/-- The record of a self-test's end, its trace point and its count; `outcome`: 1 TRANSIENT, 2 LASTING. -/
def State.testRecord (s : State) (u : UnitId) (logical : Option (Nat × Nat)) (id : Option CmdId) (outcome : Nat) : State :=
  let seq := s.faults.seq
  let s := s.bump (regDie (if outcome = 1 then .transientFaults else .lastingFaults) u.die) 1
  (s.faultRecord ⟨.unit, outcome, u, logical, whereOf id⟩).logTrace u.die 0x0301 seq outcome

/-- Commands in progress on a die's dispatcher or combiner complete with NON_REPLAYABLE; a SEND's rows still to depart go
as ZERO_BLOCK (R459). -/
def State.loseBatches (s : State) (die seq : Nat) (combiner : Bool) : State :=
  s.cmds.foldl (fun t c =>
    let mine := c.begun && c.ending.isNone && t.cmdDie c.id == die
      && (if combiner then isReturn c.desc || isSum c.desc else isSend c.desc || isReceive c.desc)
    if !mine then t
    else if isSend c.desc ∧ !t.sendsDone c.id then
      (((t.countLoss die).setFabric fun f => { f with out := f.out.map fun m => if m.id = some c.id then m.cancelled else m }).updCmd
        c.id fun x => { x with run := { x.run with stop := some (lossEnding seq) } })
    else t.loseCommand c die seq) s

/-- Every undecided step with a block past stage 1 on a die's updater is raised FAULT. -/
def State.faultUpdater (s : State) (die : Nat) : State :=
  let steps := ((s.updDieOf die).groups.vals.map fun g => (g.steps.filter fun u => !u.covered.isEmpty).map (·.step)).flatten
  (steps.filter fun t => !s.decided t).eraseDups.foldl (fun t k => t.raise k bitFault) s

/-- A unit passes. -/
def State.testPass (s : State) (u : UnitId) (id : Option CmdId) (seq : Nat) : State :=
  let s := s.endTest u
  let cell := u.die * 104 + u.index
  match u.kind with
  | 0 => (s.testRecord u (s.cellLogical cell) id 1).updCell cell fun x => { x with mode := .idle, portsClosed := false }
  | 1 =>
    let s := s.testRecord u none id 1
    match id with
    | some i => s.updCmd i fun c => if c.ending.isNone then { c with replayed := true, begun := false } else c
    | none => s
  | 2 => (s.testRecord u none id 1).loseBatches u.die seq false
  | 3 => (s.testRecord u none id 1).loseBatches u.die seq true
  | 4 => (s.testRecord u none id 1).faultUpdater u.die
  | 5 => (s.testRecord u none id 1).faultUpdater u.die
  | _ => s.testRecord u none id 1

/-- A unit fails: a cell is replaced, a link goes out of service, any other unit takes its die. -/
def State.testFail (s : State) (u : UnitId) (id : Option CmdId) : State :=
  let cell := u.die * 104 + u.index
  match u.kind with
  | 0 =>
    let l := (s.cell cell).logical
    if l.any fun k => (s.lslot k).draining then s
    else
      let s := ((s.endTest u).replaceCell cell s.faults.seq (s.fld (regDie0 .faultControl) 0 0 == 1)).1
      s.testRecord u (l.map fun k => (k, (s.lslot k).inc)) id 2
  | 7 =>
    let s := (s.endTest u).testRecord u none id 2
    { s with faults := { s.faults with linksDown := insertKey s.faults.linksDown u.index } }.loseCutOff 8
  | _ => ((s.endTest u).testRecord u none id 2).loseDie u.die

def execTargetedSelfTestEnd (u : UnitId) (pass : Bool) (s : State) : Host.Outcome State Fault Refusal :=
  .next (match s.faults.tests.find? fun t => t.1 == u with
    | none => s
    | some t => if pass then s.testPass u t.2.1 t.2.2 else s.testFail u t.2.1)

end Sys2Proof.Machine
end

