-- ==== Sys2Proof/Machine/MemRows.lean ====
section
/-!
DEFINITION. Machine/MemRows.lean: patrol scrubs (R77, R309, R561, R569), token buckets (R300), PAGE_RETIRE (R311–R314)
and post-package repair (R315, R316).
-/
namespace Sys2Proof.Machine

/-! ### Patrol scrubs -/

/-- What the check bits make of a word read with flipped bits (R569). -/
inductive WordRead where
  | good | corrected | lost
  /-- passed, or corrected into a wrong value that is counted -/
  | wrong (counted : Bool)
  deriving DecidableEq, Repr

/-- The reading of a word at key `8 × w` with `flips` flipped bits: free from three on. -/
def State.wordRead (s : State) (w flips : Nat) : WordRead × State :=
  if s.mem.poison.contains w ∨ flips = 2 then (.lost, s)
  else if flips = 0 then (.good, s)
  else if flips = 1 then (.corrected, s)
  else
    let (x, s) := s.free
    (if x % 3 = 0 then .lost else .wrong (x % 3 == 1), s)

/-- A patrol scrub of the word at key `8 × w`: a write-back or a poisoned word, unless another write has reached the word
since (R77); `count` counts a corrected error, `report` an uncorrectable word. -/
def State.patrol (s : State) (w flips : Nat) (raced : Bool) (count report : State → State) : State :=
  match s.wordRead w flips with
  | (.good, s) => s
  | (.corrected, s) => count s
  | (.lost, s) => report (if raced then s else s.setPoison w true)
  | (.wrong counted, s) =>
    let (x, s) := s.free
    let s := if raced then s else s.setCells (8 * w) (leBytes 8 x)
    if counted then count s else s

/-- SRAM_PATROL_SCRUB: word `word` of a cell's scratchpad and accumulator banks. -/
def execSramPatrolScrub (cell word flips : Nat) (raced : Bool) (s : State) : Host.Outcome State Fault Refusal :=
  .next (
    let x := s.cell cell
    if !s.ready ∨ cell ≥ 832 ∨ word ≥ 0x70000 ∨ x.fusedOut ∨ x.mode = .fenced ∨ !(s.die (cell / 104)).inService then s
    else s.patrol (cellKey cell 0 / 8 + word) flips raced (fun t => t.bump ⟨.sramCeCount, cell, 0⟩ 1)
      fun t => if t.tested (cellUnit cell) then t else t.cellError cell none none false)

/-- COMMONS_PATROL_SCRUB. -/
def execCommonsPatrolScrub (die word flips : Nat) (raced : Bool) (s : State) : Host.Outcome State Fault Refusal :=
  .next (
    if !s.ready ∨ die ≥ 8 ∨ word ≥ 6 * 2 ^ 20 ∨ !(s.die die).inService then s
    else s.patrol (commonsKey die 0 / 8 + word) flips raced (fun t => t.bump (regDie .commonsCeCount die) 1)
      fun t => t.faultRecord ⟨.dataLost, 0, ⟨14, die, 0⟩, none, sramBase + die * 2 ^ 29 + 0x18000000 + 8 * word⟩)

/-- The CE counter of a stack or channel. -/
def Place.ceReg : Place → Option Reg
  | .hbm k _ => some ⟨.hbmCeCount, k / 2, k % 2⟩
  | .gddr k _ => some ⟨.gddrCeCount, k / 3, k % 3⟩
  | _ => none

/-- The place of a word of HBM4 or GDDR7 by its key: a stack has 48 GiB, a channel 10 2/3 GiB of data. -/
def placeOfKey (k : Nat) : Option Place :=
  if k < 2 ^ 40 then (if k % 2 ^ 36 < 48 * gib then some (.hbm (k / 2 ^ 36) (k % 2 ^ 36)) else none)
  else if k < 2 ^ 40 + 24 * 2 ^ 36 ∧ (k - 2 ^ 40) % 2 ^ 36 < 32 * gib / 3 then
    some (.gddr ((k - 2 ^ 40) / 2 ^ 36) ((k - 2 ^ 40) % 2 ^ 36))
  else none

/-- The device address of a word by its key: none in the reserved region (R294), but for a spare page in use, which answers to
the address of the page it took over. -/
def State.addrOfKey (s : State) (k : Nat) : Option Nat :=
  match s.mem.retired.find? fun e => e.2 == some (k / 4096) with
  | some e => some (pageAddr s.mem.layout e.1 + k % 4096)
  | none =>
    match placeOfKey k with
    | some (.hbm _ o) => if o < s.mem.layout.perStack then some (pageAddr s.mem.layout (k / 4096) + k % 4096) else none
    | some (.gddr _ _) => some (pageAddr s.mem.layout (k / 4096) + k % 4096)
    | _ => none

/-- MEMORY_PATROL_SCRUB: a word of a stack or channel by its key / 8, the reserved region's among them (R309); a page that was
retired is read in its spare only. A word without a device address leaves a free one in MEM_UE_LAST (log entry 165). -/
def execMemoryPatrolScrub (word flips : Nat) (raced : Bool) (s : State) : Host.Outcome State Fault Refusal :=
  .next (
    match placeOfKey (8 * word) with
    | none => s
    | some p =>
      match p.ceReg with
      | none => s
      | some r =>
        if !s.ready ∨ !(s.die (p.die?.getD 0)).inService ∨ (s.mem.retired.get? (word / 512)).isSome then s
        else s.patrol word flips raced (fun t => t.bump r 1) fun t =>
          match t.addrOfKey (8 * word) with
          | some a => t.ueReportOf p a a
          | none => let (x, t) := t.free; t.ueReportOf p x (x % 2 ^ 52))

/-! ### TOKEN_CREDIT (R300) -/

def execTokenCredit (die part ctrl ns : Nat) (s : State) : Host.Outcome State Fault Refusal :=
  .next (
    let (rate, burst, _) := s.regulator die part ctrl
    if rate = 0 ∨ die ≥ 8 ∨ part ≥ 16 ∨ ctrl ≥ 5 ∨ !(s.die die).inService then s
    else
      let k := tokenKey die part ctrl
      let v := min burst (s.mem.tokens.getD k burst + rate * ns)
      { s with mem := { s.mem with tokens := if v = burst then s.mem.tokens.erase k else s.mem.tokens.set k v } })

/-! ### PAGE_RETIRE -/

/-- Where RETIRE_SPARES counts the spares of a place: its die and the lowest bit of the field. -/
def Place.spares : Place → Option (Nat × Nat)
  | .hbm k _ => some (k / 2, 11 * (k % 2))
  | .gddr k _ => some (k / 3, 22 + 11 * (k % 3))
  | _ => none

/-- The spare page of a stack or channel that is taken `i`-th: in the last 16 MiB of the stack that keeps it (R294, log
entry 166). -/
def Place.sparePage (p : Place) (i : Nat) : Nat :=
  match p with
  | .gddr k _ => hbmKey (2 * (k / 3) + 1) (48 * gib - 12 * 2 ^ 20 + k % 3 * 2 ^ 22) / 4096 + i
  | .hbm k _ => hbmKey k (48 * gib - 16 * 2 ^ 20) / 4096 + i
  | _ => i

/-- A page copied onto another: its words as stored, with their seals, and the uncorrectable ones poisoned (R313). -/
def State.copyPage (s : State) (k j : Nat) : State :=
  let m := s.mem
  let seals := (upTo 256).foldl (fun t b =>
    match m.seals.get? (256 * k + b) with
    | some x => t.set (256 * j + b) x
    | none => t.erase (256 * j + b)) m.seals
  let poison := (upTo 512).foldl (fun t w =>
    if m.poison.contains (512 * k + w) then insertKey t (512 * j + w) else removeKey t (512 * j + w)) m.poison
  let t := s.setCells (4096 * j) (memRead m.cells (4096 * k) 4096)
  { t with mem := { t.mem with seals, poison } }

/-- The page a PAGE_RETIRE names, if R312 does not refuse it: its place, its key, its die and its spare count's place. -/
def State.retirePage (s : State) (d : List Byte) : Option (Place × Nat × Nat × Nat) :=
  let a := u64 d 32
  let p := placeOf s.mem.layout a
  match p.spares, s.keyOf p with
  | some (die, lo), some k =>
    if a % 4096 ≠ 0 ∨ !(s.die die).inService ∨ (s.mem.retired.get? (k / 4096)).isSome ∨ s.held? p ≠ p then none
    else some (p, k / 4096, die, lo)
  | _, _ => none

def State.checkPageRetire (s : State) (d : List Byte) : Verdict :=
  Verdict.of (bodyViols d [bytesSpan 32 8] ++ violIf (s.retirePage d).isNone (formatViol 32)) []

def State.pageRetire (s : State) (c : Cmd) : State :=
  match s.retirePage c.desc with
  | none => s.finish c.id (formatViol 32).ending
  | some (p, k, die, lo) =>
    let r := regDie .retireSpares die
    let n := s.fld r (lo + 10) lo
    let mark (t : State) (spare : Option Nat) : State := { t with mem := { t.mem with retired := t.mem.retired.set k spare } }
    if n = 0 then (mark s none).finish c.id (okAux 0x10000)
    else
      let j := p.sparePage (1024 - n)
      ((mark (s.copyPage k j) (some j)).setFld r (lo + 10) lo (n - 1)).finish c.id (okAux (n - 1))

def execPageRetire (id : CmdId) (s : State) : Host.Outcome State Fault Refusal :=
  .next (s.onCmd id (isOpcode 0x00B0) fun c => s.pageRetire c)

/-! ### Post-package repair -/

/-- A run of bytes reaches a stack, pages of the run that were retired in the stack that holds them. -/
def State.onStack (s : State) (stack : Nat) (r : Rng) : Bool :=
  (upTo (r.2 / 4096 + 2)).any fun k =>
    let a := if k = 0 then r.1 else (r.1 / 4096 + k) * 4096
    decide (a < r.1 + r.2) && (match s.held? (placeOf s.mem.layout a) with
      | .hbm n _ => n == stack
      | _ => false)

/-- A command in flight reaches a stack: through a tensor it names, an address in its body, or a record (R316). -/
def State.reachesStack (s : State) (stack : Nat) : Bool :=
  s.cmds.any fun c => c.ending.isNone
    && (s.cmdRanges c).any (s.onStack stack)

/-- A write of REPAIR_CMD whose fields the set-up lock lets through: the operation starts, or is refused. -/
def State.repairStart (s : State) (die v : Nat) : State :=
  let stack := 2 * die + bitsOf v 3 3
  if s.reachesStack stack then s.setFld (regDie .repairStatus die) 2 1 2
  else { s with mem := { s.mem with repairing := s.mem.repairing.set die (bitsOf v 2 0, bitsOf v 9 3, s.rd (regDie .repairRow die)) } }

/-- The bytes of a repaired row are free (R316). -/
def State.loseRow (s : State) (die cmd row : Nat) : State :=
  let stack := 2 * die + cmd % 2
  (Config.rowBytes cmd row).foldl (fun t o =>
    let (x, t) := t.free
    t.setCells (hbmKey stack (o % 2 ^ 36)) [BitVec.ofNat 8 x]) s

def State.repairEnd (s : State) (die result spareRows : Nat) : State :=
  match s.mem.repairing.get? die with
  | none => s
  | some (op, cmd, row) =>
    let s := { s with mem := { s.mem with repairing := s.mem.repairing.erase die } }
    let s := s.setFld (regDie .repairStatus die) 2 1 result
    if op = 1 then s.setFld (regDie .repairStatus die) 10 3 spareRows
    else if result % 4 = 0 then
      ({ s with mem := { s.mem with repaired := s.mem.repaired ++ [(op, die * 128 + cmd, row)] } }).loseRow die cmd row
    else s

def execRepairOperationEnd (die result spareRows : Nat) (s : State) : Host.Outcome State Fault Refusal :=
  .next (s.repairEnd die result spareRows)

end Sys2Proof.Machine
end

