-- ==== Sys2Proof/Machine/Observe.lean ====
section
/-!
DEFINITION. Machine/Observe.lean: COUNTER_FREEZE (R475–R478), TENSOR_WATCH and its records (R479–R481), and the SNAPSHOT
command (R482, R483).
-/
namespace Sys2Proof.Machine

/-! ### COUNTER_FREEZE -/

def cfOp (d : List Byte) : Nat := bitsOf (u8 d 32) 1 0
def cfTime (d : List Byte) : Nat := u64 d 40

def State.freezeDue (s : State) : Bool := s.freeze.armedT.isSome || s.freeze.frozen

def State.checkFreeze (s : State) (d : List Byte) : Verdict :=
  Verdict.of (bodyViols d [⟨32, 1, 0⟩, bytesSpan 40 8] ++ violIf (cfOp d == 3) (formatViol 32)
    ++ violIf ((cfOp d == 0 && s.freezeDue) || (cfOp d == 1 && s.freeze.armedT.isSome)) (formatViol 32)) []

def State.onFreeze (s : State) (id : CmdId) (op : Nat) (f : Cmd → State) : State :=
  s.onCmd id (fun d => isOpcode 0x0090 d && cfOp d == op) f

/-- Arm a freeze at T, or at the next pip with LATE when T has passed. -/
def execFreezeAt (id : CmdId) (s : State) : Host.Outcome State Fault Refusal :=
  .next (s.onFreeze id 0 fun c =>
    if c.begun then s
    else if s.freezeDue then s.finish id (formatViol 32).ending
    else
      let t := cfTime c.desc
      let late := decide (t < s.now)
      ({ s with freeze := { s.freeze with armedT := some (if late then s.now + 1 else t), armedBy := some id, late } }).updCmd id
        fun x => { x with begun := true })

def execThaw (id : CmdId) (s : State) : Host.Outcome State Fault Refusal :=
  .next (s.onFreeze id 1 fun _ =>
    if s.freeze.armedT.isSome then s.finish id (formatViol 32).ending
    else ({ s with freeze := { s.freeze with frozen := false } }).finish id Status.ok.plain)

def execCounterClear (id : CmdId) (s : State) : Host.Outcome State Fault Refusal :=
  .next (s.onFreeze id 2 fun _ => (s.keepRegs fun n => n != .pmcValue).finish id Status.ok.plain)

/-- The counters freeze in this pip; an armed FREEZE_AT completes (R476, R478). -/
def State.freezeCounters (s : State) : State :=
  let t := s.now
  let by' := s.freeze.armedBy
  let s := { s with freeze := { s.freeze with armedT := none, armedBy := none, nextAt := none, frozen := true,
                                              unlocked := !s.time.locked } }
  let s := s.wr (regDie0 .freezeTime) t
  match by' with
  | some id => s.finish id ⟨0, 0, detail64 t 0⟩
  | none => s

/-- FREEZE_EFFECT. -/
def execFreezeEffect (s : State) : Host.Outcome State Fault Refusal :=
  .next (
    let due (t : Option Nat) : Bool := t.any fun x => decide (x ≤ s.now)
    if s.freeze.frozen then { s with freeze := { s.freeze with nextAt := none } }
    else if due s.freeze.nextAt then ({ s with freeze := { s.freeze with late := false } }).freezeCounters
    else if due s.freeze.armedT then s.freezeCounters
    else s)

/-- FREEZE_NOW: a freeze at the next pip, unless one is in force. -/
def State.freezeAtNextPip (s : State) : State :=
  if s.freeze.frozen then s else { s with freeze := { s.freeze with nextAt := some (s.freeze.nextAt.getD (s.now + 1)) } }

/-! ### TENSOR_WATCH -/

def twOp (d : List Byte) : Nat := bitsOf (u8 d 32) 1 0
def twMode (d : List Byte) : Nat := bitsOf (u8 d 32) 3 2
def twNo (d : List Byte) : Nat := bitsOf (u8 d 32) 7 4
def twHandle (d : List Byte) : Nat := u32 d 36
def twRing (d : List Byte) : Nat := u64 d 40
def twLog2 (d : List Byte) : Nat := bitsOf (u8 d 48) 4 0

def watchKey (ctx n : Nat) : Nat := ctx * 16 + n
def State.tw? (s : State) (ctx n : Nat) : Option TWatch := s.twatches.get? (watchKey ctx n)
def State.twArmed (s : State) (ctx n : Nat) : Bool := (s.tw? ctx n).any fun w => w.armed

/-- The conditions of R479 on an ARM. -/
def State.armViols (s : State) (ctx : Nat) (d : List Byte) : List Viol :=
  let t := s.tens? ctx (twHandle d)
  violIf (twMode d == 0 || s.twArmed ctx (twNo d)) (formatViol 32)
    ++ violIf t.isNone (viol .descFormat (twHandle d) 36)
    ++ violIf (t.any fun x => x.raw && bitOf (twMode d) 0) (viol .descFormat (twHandle d) 36)
    ++ violIf (twLog2 d < 4 || twLog2 d > 16) (formatViol 48)
    ++ violIf (twRing d % 64 != 0) (viol .alignInner noHandle 40)
    ++ violIf (!((s.ctx ctx).allocs.vals.any fun x =>
        x.write && decide (x.base ≤ twRing d ∧ twRing d + 64 * 2 ^ twLog2 d ≤ x.base + x.size))) (viol .accessDenied noHandle 40)

def State.checkTensorWatch (s : State) (id : CmdId) (d : List Byte) : Verdict :=
  Verdict.of (bodyViols d [⟨32, 7, 0⟩, bytesSpan 36 12, ⟨48, 4, 0⟩] ++ violIf (twOp d > 1) (formatViol 32)
    ++ (if twOp d = 0 then s.armViols id.ctx d else [])) (if twOp d = 0 then [⟨twHandle d, 36, false, false, false, false⟩] else [])

def State.onWatch (s : State) (id : CmdId) (op : Nat) (f : Cmd → State) : State :=
  s.onCmd id (fun d => isOpcode 0x0091 d && twOp d == op) f

def execArm (id : CmdId) (s : State) : Host.Outcome State Fault Refusal :=
  .next (s.onWatch id 0 fun c =>
    match worst (s.armViols id.ctx c.desc) with
    | some v => s.finish id v.ending
    | none =>
      let k := watchKey id.ctx (twNo c.desc)
      let w : TWatch := ⟨true, ((s.twatches.get? k).elim 0 fun x => x.serial) + 1, twMode c.desc, twHandle c.desc, twRing c.desc,
        twLog2 c.desc, 0⟩
      ({ s with twatches := s.twatches.set k w }).finish id Status.ok.plain)

def execDisarm (id : CmdId) (s : State) : Host.Outcome State Fault Refusal :=
  .next (s.onWatch id 1 fun c =>
    let k := watchKey id.ctx (twNo c.desc)
    (match s.twatches.get? k with
    | some w => { s with twatches := s.twatches.set k { w with armed := false } }
    | none => s).finish id Status.ok.plain)

/-- The watches a command takes at its issue: those armed on a handle it names as a destination (R480). -/
def State.watchesOn (s : State) (ctx : Nat) (outs : List Nat) : Tab TWatch :=
  (upTo 16).filterMap fun n => match s.tw? ctx n with
    | some w => if w.armed && outs.contains w.handle then some (n, w) else none
    | none => none

/-- The generation whose buffer a command wrote, where it wrote an N:8 tensor. -/
def writtenGen (d : List Byte) : Nat :=
  if isOpcode 0x0030 d then (tBody d).target else if isOpcode 0x0040 d then mvGen d else (pBody d).maskGen

/-- The elements of a tensor inside its extent, each with its linear index. -/
def State.watchValues (s : State) (x : Acc) (t : Tens) (sT : FVal) (gen : Nat) : Except AccErr (List (Nat × FVal)) :=
  let rows := (upTo t.rows).filter fun r => t.outerIn (t.outer r)
  match mapE (fun r =>
      match (if t.sparseN ≠ 0 then (s.readSparseRow x t sT 0 gen r).map (·.1) else s.readRow x .fp32 t sT 0 (t.outer r)) with
      | .error e => .error e
      | .ok vs => .ok ((upTo (t.ext 0)).map fun i => (t.linear (t.outer r) i, vs.getD i .zero))) rows with
  | .error e => .error e
  | .ok vs => .ok vs.flatten

/-- XOR of the chunk digests of a plane's bytes. -/
def planeDigest (tensorId plane : Nat) (bs : List Byte) : Nat :=
  let cs := chunks 4096 (bs.length / 4096 + 1) bs
  (upTo cs.length).foldl (fun a c => a ^^^ blockDigest tensorId plane c (padTo 4096 (cs.getD c []))) 0

/-- Rows of a tensor inside its extent. -/
def Tens.rowsIn (t : Tens) : List (List Nat) := t.rowBox.filter t.outerIn

/-- DIGEST of a tensor: of the bytes of its elements inside the extent, or of whole tile slots under N:8 (R481). -/
def State.watchDigest (s : State) (x : Acc) (t : Tens) (gen : Nat) : Except AccErr Nat :=
  let plane0 : Except AccErr (List Byte) :=
    if t.raw then s.readBytes x t.base (t.ext 0)
    else if t.sparseN ≠ 0 then s.readBytes x (t.tileAddr 0 gen 0 0) (t.tileRows * t.tileCols * tileDense t.fmt)
    else (mapE (fun cs => s.readBytes x (t.blockAddr 0 cs 0) (t.fmt.rowBytes (t.ext 0))) t.rowsIn).map List.flatten
  let plane1 : Except AccErr (List Byte) :=
    if t.raw ∨ t.sparseN ≠ 0 ∨ !t.fmt.isMX then .ok []
    else (mapE (fun cs => s.readBytes x (t.scaleAddr 0 cs 0) (ceilDiv (t.ext 0) 32)) t.rowsIn).map List.flatten
  match plane0, plane1 with
  | .ok a, .ok b => .ok (planeDigest t.tensorId 0 a ^^^ planeDigest t.tensorId 1 b)
  | .error e, _ => .error e
  | _, .error e => .error e

/-- Bytes that reading the whole of a watched tensor takes (R480). -/
def Tens.wholeBytes (t : Tens) : Nat :=
  if t.raw then t.ext 0
  else if t.sparseN ≠ 0 then t.tileRows * t.tileCols * tileDense t.fmt
  else t.rowsIn.length * t.rowReadBytes

/-- PROMOTED: a granule of the tensor has its bit set. -/
def State.anyPromoted (s : State) (x : Acc) (t : Tens) : Bool :=
  t.promote && (upTo t.rows).any fun r => (upTo (ceilDiv t.cols 64)).any fun g => match s.promotedAt x t r g with
    | .ok b => b
    | .error _ => false

/-- One watch record (Table 19-3), and the state after its reads and its write. -/
def State.watchRecord (s : State) (c : Cmd) (n : Nat) (w : TWatch) : State × Option AccErr :=
  match s.tensRun c.id.ctx w.handle with
  | none => (s, none)
  | some t =>
    let x := s.accOf c.id t
    let gen := writtenGen c.desc
    let vals := if bitOf w.mode 0 then s.watchValues x t (s.readScale c.id t) gen else .ok []
    let dig := if bitOf w.mode 1 then s.watchDigest x t gen else .ok 0
    match vals, dig with
    | .error e, _ => (s, some e)
    | _, .error e => (s, some e)
    | .ok vs, .ok dg =>
      let st := if bitOf w.mode 0 then statsOf vs else ⟨.zero, .zero, .zero, 0⟩
      let live := (s.tw? c.id.ctx n).filter fun (u : TWatch) => u.serial == w.serial
      let k := live.elim w.n fun (u : TWatch) => u.n
      let size := 2 ^ w.log2
      let flags := w.mode + 4 * b2n (!s.time.locked) + 8 * b2n (s.anyPromoted x t) + 128 * b2n (k / size % 2 == 0)
      let bs := record 64 [(0, 8, c.id.seq), (8, 8, s.now), (16, 4, w.handle), (20, 1, flags), (24, 4, toBits32 st.amax),
        (28, 4, toBits32 st.sum), (32, 4, toBits32 st.sumSq), (36, 4, min st.nonfinite (2 ^ 32 - 1)), (40, 8, (upTo t.rank).foldl (fun n k => n * t.ext k) 1), (48, 16, dg)]
      let s := s.moved c.id t 0 t.wholeBytes 0
      let a := w.ring + k % size * 64
      let r := s.writeBytes { s.accAt c.id.ctx a 64 with id := some c.id } a bs
      match live with
      | some u => ({ r.1 with twatches := r.1.twatches.set (watchKey c.id.ctx n) { u with n := u.n + 1 } }, r.2)
      | none => r

/-- The records of every watch a command took, before its signal (R480). -/
def State.watchRecords (s : State) (c : Cmd) : State × Option AccErr :=
  c.watches.foldl (fun p e =>
    if p.2.isSome then p else p.1.watchRecord c e.1 e.2) (s, none)

/-! ### SNAPSHOT -/

def snAt (d : List Byte) : Bool := bitOf (u8 d 32) 0

def State.checkSnapshot (s : State) (d : List Byte) : Verdict :=
  Verdict.of (bodyViols d [⟨32, 0, 0⟩, bytesSpan 40 24] ++ violIf (u64 d 48 % 64 != 0) (viol .alignInner noHandle 48)
    ++ violIf s.snap.busy (formatViol 32)
    ++ s.addrReach 0 (u64 d 48) (u64 d 56) 48 false true) []

/-- Start a snapshot, now or at T (R482). -/
def State.startSnapshot (s : State) (at' : Option Nat) (by' : Option CmdId) : State :=
  let t := match at' with
    | none => s.now
    | some t => if t < s.now then s.now + 1 else t
  { s with snap := ⟨true, some t, by'⟩ }

def execSnapshot (id : CmdId) (s : State) : Host.Outcome State Fault Refusal :=
  .next (s.onCmd id (isOpcode 0x0092) fun c =>
    if c.begun then s
    else if s.snap.busy then s.finish id (formatViol 32).ending
    else
      let s := (s.wr (regDie0 .snapshotAddr) (u64 c.desc 48)).wr (regDie0 .snapshotLength) (u64 c.desc 56)
      (s.startSnapshot (if snAt c.desc then some (u64 c.desc 40) else none) (some id)).updCmd id fun x => { x with begun := true })

end Sys2Proof.Machine
end

