-- ==== Sys2Proof/Machine/Queues.lean ====
section
/-!
DEFINITION. Machine/Queues.lean: the life of a command between its rings: scanning and fetching (R248–R250), the head of a
queue and its start conditions (R231, R254, R259), the checks at issue (R22, R85, R253, R278, R566), completion (R255, R260–R262)
and the vector (R266).
-/
namespace Sys2Proof.Machine

/-! ### The head of a queue -/

/-- Issued commands of a queue that are incomplete. -/
def State.queueCmds (s : State) (c q : Nat) : List Cmd := s.cmds.filter fun x => x.id.ctx == c && x.id.q == q

/-- A command that ends without being issued, or is refused at issue. -/
def State.refuse (s : State) (id : CmdId) (d : List Byte) (e : Ending) : State :=
  { s with cmds := s.cmds ++ [{ s.freshCmd id d with ending := some e }] }

/-- Register the watch of start condition `k` of a command at the head of its queue (R231); a stale reference is discarded at
the home unit (R226). -/
def State.startWatch (s : State) (id : CmdId) (d : List Byte) (k : Nat) : State :=
  let ref := hWaitRef d k
  if !refEnabled ref then s.setStart id k .none
  else
    match s.counterOf id.ctx ref with
    | none => (s.staleDrop id.ctx).setStart id k .stale
    | some (die, p) =>
      let room := (s.watchEntry die id.ctx).isSome
      (s.registerWatch die ⟨id.ctx, ref, p, hWaitTarget d k, .start id k, false⟩ none).setStart id k
        (if room then .armed else .waiting)

/-- A step that this part has decided (R259). -/
def State.deadlinePassed (s : State) (d : List Byte) : Bool :=
  (deadlineOf d).any fun t => (s.step.opened || s.step.last.isSome) && s.decided t

/-- The command next in a queue reaches its head (R254): one whose deadline step is decided completes at once (R259). -/
def State.reachHead (s : State) (c q : Nat) : Nat → State
  | 0 => s
  | fuel + 1 =>
    match (s.queue c q).fetched with
    | [] => s
    | f :: rest =>
      let id : CmdId := ⟨c, q, f.seq⟩
      if f.atHead ∨ (s.queueCmds c q).length > 15 then s
      else if (s.queue c q).deferrable ∧ s.deadlinePassed f.desc then
        ((s.updQueue c q fun x => { x with fetched := rest }).refuse id f.desc Status.deadlinePassed.plain).reachHead c q fuel
      else
        let s := s.updQueue c q fun x => { x with fetched := { f with atHead := true } :: rest }
        (s.startWatch id f.desc 0).startWatch id f.desc 1

def State.nextHead (s : State) (c q : Nat) : State := s.reachHead c q 17

/-! ### DOORBELL_SCAN (R248–R250) -/

/-- Whether the part fetches commands at all. -/
def State.fetching (s : State) : Bool :=
  s.ready && s.pcie.linkUp && !s.faults.fetchStopped && !s.sec.errorState && !s.sec.zeroised

/-- R248, in unsigned 64-bit arithmetic. -/
def tailValid (q : QueueSt) (tail : Nat) : Bool :=
  let sub (a b : Nat) : Nat := (a + 2 ^ 64 - b % 2 ^ 64) % 2 ^ 64
  decide (sub tail q.seenTail ≤ sub tail q.head) && decide (sub tail q.head ≤ 2 ^ q.log2)

/-- Fetch `n` descriptors from the head of a queue on. -/
def State.fetch (s : State) (c q : Nat) : Nat → State
  | 0 => s
  | n + 1 =>
    let x := s.queue c q
    let d := s.hostRead (x.base + x.head % 2 ^ x.log2 * 128) 128
    (s.updQueue c q fun x =>
      { x with head := (x.head + 1) % 2 ^ 64, fetched := x.fetched ++ [⟨x.head, d, false, .none, .none, none⟩] }).fetch c q n

/-- One line of the doorbell page, for its queue. -/
def State.scanQueue (s : State) (c q : Nat) : State :=
  let w := s.rd (sqConfig c q)
  if !bitOf w 0 ∨ !bitOf w 29 ∨ bitOf w 30 then s
  else
    let line := s.rd (regCtx .doorbellBase c) + 64 * q
    let x := s.queue c q
    let tail := leValue (s.hostRead line 8)
    if tailValid x tail then
      let room := 16 - x.fetched.length
      let n := min room ((tail + 2 ^ 64 - x.head) % 2 ^ 64)
      let s := (s.updQueue c q fun x => { x with seenTail := tail }).fetch c q n
      let s := if n = 0 then s else s.hostWrite (line + 8) (leBytes 8 (s.queue c q).head)
      s.nextHead c q
    else (s.setFld (sqConfig c q) 30 30 1).requestVector c x.cq

/-- One line of the doorbell page, for its completion ring. -/
def State.scanRing (s : State) (c r : Nat) : State :=
  if bitOf (s.rd (cqConfig c r)) 0 then
    let v := leValue (s.hostRead (s.rd (regCtx .doorbellBase c) + 64 * r + 16) 8)
    s.updCq c r fun x => { x with cqHead := v }
  else s

/-- SCAN_PERIOD in pips: units of 0.5 µs. -/
def State.scanPips (s : State) (c : Nat) : Nat := 400 * s.fld (regCtx .ctxControl c) 6 1

/-- A scan of a context is due: its period has passed, or a NUDGE asks for one (R250, R251). -/
def State.scanDue (s : State) (c : Nat) : Bool := (s.ctx c).scanWanted || decide ((s.ctx c).nextScan ≤ s.now)

def State.scan (s : State) (c : Nat) : State :=
  let periodic := decide ((s.ctx c).nextScan ≤ s.now)
  let next := s.now + s.scanPips c
  let s := s.updCtx c fun x => { x with scanWanted := false, nextScan := if periodic then next else x.nextScan }
  let s := (upTo 64).foldl (fun t q => t.scanQueue c q) s
  (upTo 32).foldl (fun t r => t.scanRing c r) s

/-- DOORBELL_SCAN, after the host's own stores. -/
def execDoorbellScan (ctx : Nat) (stores : HostStores) (s : State) : Host.Outcome State Fault Refusal :=
  let s := s.hostStores stores
  .next (if s.fetching ∧ bitOf (s.rd (regCtx .ctxControl ctx)) 0 ∧ s.scanDue ctx then s.scan ctx else s)

/-! ### What a command names -/

/-- The opcodes of Table 10-6. -/
def opcodes : List Nat :=
  [0x01, 0x10, 0x11, 0x12, 0x13, 0x20, 0x21, 0x22, 0x23, 0x24, 0x30, 0x40, 0x41, 0x50, 0x51, 0x60, 0x61, 0x62, 0x63, 0x70, 0x71,
    0x72, 0x73, 0x80, 0x81, 0x82, 0x83, 0x90, 0x91, 0x92, 0xA0, 0xA1, 0xA2, 0xB0]
def privilegedOps : List Nat := [0x12, 0x13, 0x51, 0x72, 0x73, 0x80, 0x81, 0x83, 0x90, 0x92, 0xA0, 0xA1, 0xA2, 0xB0]
/-- Opcodes whose work a cell group or the dies that carry it do (R278, log entry 53). -/
def groupOps : List Nat := [0x20, 0x21, 0x22, 0x23, 0x24, 0x30, 0x40, 0x41, 0x60, 0x61, 0x62, 0x63]

/-- The N:8 tensors of which a command names a generation, each with the generation (R162). -/
def State.genUses (s : State) (c : Nat) (d : List Byte) : List (Nat × Nat) :=
  let sparse (h : Nat) : Bool := (s.tens? c h).any fun t => t.sparseN != 0
  if isOpcode 0x20 d then
    let b := pBody d
    let m := (s.tens? c b.out).elim noHandle fun t => t.maskHandle
    (((if b.aRight then [b.right] else [b.left]) ++ (if sparse b.out then [b.out, m] else [])).filter sparse).map fun h =>
      (h, b.maskGen)
  else if isOpcode 0x30 d ∧ sparse (tBody d).src then [((tBody d).src, (tBody d).gen)]
  else []

/-- The generation that the Topiary command in flight on a tensor writes. -/
def State.writtenBy (s : State) (c h : Nat) : Option Nat :=
  match (s.slot c (handleSlot h)).writer with
  | none => none
  | some id => (s.cmd? id).map fun x => (tBody x.desc).target

/-- A generation still being written (R163 step 2). -/
def State.genWaits (s : State) (c : Nat) (d : List Byte) : Bool :=
  (s.genUses c d).any fun u => s.writtenBy c u.1 == some (u.2 % 65536)

/-- A buffer being rewritten under another generation than the one named (R163 step 2). -/
def State.genRefused (s : State) (c : Nat) (d : List Byte) : Option Ending :=
  ((s.genUses c d).find? fun u => (s.writtenBy c u.1).any fun h => h % 2 == u.2 % 2 && h != u.2).map fun u => genEnding u.1

/-- Members of a queue's group in service at issue, ascending (R279); none where the group is not the queue's (R278). -/
def State.membersOf (s : State) (c q : Nat) : List Nat :=
  let x := s.queue c q
  match s.groups.get? x.group with
  | none => []
  | some g => if g.ctx = c ∧ g.deferrable = x.deferrable then g.members.filter fun l => (s.lslot l).inService else []

/-! ### Start conditions (R254) -/

def StartSt.holds (x : StartSt) : Bool := x == .none || x == .met

/-- Why the command at the head of a queue waits, by the WAIT_ON codes of Table 19-4; 0 where the table names no code. -/
def State.waitOn (s : State) (c q : Nat) (f : Fetched) : Option Nat :=
  let x := s.queue c q
  let d := f.desc
  let first (p : Bool) (k : Nat) (rest : Option Nat) : Option Nat := if p then some k else rest
  first (!f.atHead) 8 <| first (!f.start0.holds) 1 <| first (!f.start1.holds) 2 <|
  first ((hFence d || bitOf (s.rd (regCtx .qcounterMode c)) q) && !(s.queueCmds c q).isEmpty) 3 <|
  first (hWhenKind d == 1 && !(s.time.locked && reachedTarget s.frame (hWhen d))) 4 <|
  first (s.cmds.any fun y => isOpcode 0xA0 y.desc && gfGroup y.desc == x.group) 5 <|
  first (s.genWaits c d) 6 <|
  first (decide (256 ≤ (s.cq c x.cq).waiting.length)) 7 <|
  first (s.collectiveWaits ⟨c, q, f.seq⟩ d) 0 none

/-! ### The checks at issue -/

/-- A counter reference of the header: none, or current (R226). -/
def State.headRef (s : State) (c r off : Nat) : List Viol :=
  violIf (refEnabled r && (s.counterOf c r).isNone) (viol .descFormat r off)

/-- Breaches of Table 10-3, R219 and R253. -/
def State.headViols (s : State) (c : Nat) (deferrable : Bool) (d : List Byte) : List Viol :=
  let k := hWhenKind d
  bodyViols d [bytesSpan 32 96] ++ violIf (k == 3 || (k == 2 && !deferrable)) (formatViol 2)
    ++ s.headRef c (hWaitRef d 0) 4 ++ s.headRef c (hWaitRef d 1) 12 ++ s.headRef c (hSignalRef d) 20
    ++ violIf (refEnabled (hSignalRef d) && hSignalAdd d ≥ 2 ^ 31) (formatViol 24)
    ++ violIf (k == 0 && hWhen d != 0) (restViol 28)

/-- A stale reference in the header. -/
def State.headStale (s : State) (c : Nat) (d : List Byte) : Bool :=
  [hWaitRef d 0, hWaitRef d 1, hSignalRef d].any fun r => refEnabled r && (s.counterOf c r).isNone

/-- A stale reference in the body of a SYNC, SYNC_MAP or DMA_COPY. -/
def State.bodyStale (s : State) (c : Nat) (d : List Byte) : Bool :=
  (isOpcode 0x50 d && s.syncStale c d) || (isOpcode 0x51 d && s.releaseStale d) || (isOpcode 0x41 d && refEnabled (u32 d 64) && (s.counterOf c (u32 d 64)).isNone)

/-- The checks that the chapter of an opcode makes. -/
def State.checkBody (s : State) (id : CmdId) (d : List Byte) (group : Nat) (members : List Nat) : Verdict :=
  match hOpcode d with
  | 0x10 => s.checkDescCreate id d
  | 0x11 => s.checkDescDestroy id d
  | 0x12 => s.checkAllocSet d
  | 0x13 => checkAllocClear d
  | 0x20 => s.checkProduct id d group members
  | 0x21 => s.checkRowForward id d members
  | 0x22 => s.checkRowBackward id d members
  | 0x23 => s.checkElementwise id d
  | 0x24 => s.checkReduce id d
  | 0x30 => s.checkTopiary id d
  | 0x40 => s.checkDataMove id d
  | 0x41 =>
    if s.bodyStale id.ctx d then Verdict.of [viol .descFormat (u32 d 64) 64] (dmaUses d) else s.checkDmaCopy id d
  | 0x50 => s.checkSync id d
  | 0x51 => s.checkSyncMap d
  | 0x60 => s.checkTopk id d
  | 0x61 => s.checkDispatch id d
  | 0x62 => s.checkCombine id d
  | 0x63 => checkBatchCancel d
  | 0x70 => s.checkFabricSend id d
  | 0x71 => s.checkCollective id d
  | 0x72 => s.checkSlotTableLoad id d
  | 0x73 => checkSlotTableSwitch d
  | 0x80 => s.checkGroupSet id d
  | 0x81 => s.checkStepControl id d
  | 0x82 => checkEvaluate d
  | 0x83 => s.checkDigestCompare d
  | 0x90 => s.checkFreeze d
  | 0x91 => s.checkTensorWatch id d
  | 0x92 => s.checkSnapshot d
  | 0xA0 => s.checkGroupForm id d
  | 0xA1 => checkCellReturn d
  | 0xA2 => checkCellFence d
  | 0xB0 => s.checkPageRetire d
  | _ => Verdict.of (bodyViols d []) []

/-- Privilege (R253, R494). -/
def State.unprivileged (s : State) (c : Nat) (d : List Byte) : Bool :=
  privilegedOps.contains (hOpcode d) && (c != 0 || (s.fld (regDie0 .secPolicy) 2 2 == 1 && !s.sec.owner))

/-- Every check at issue, in order; and whether the command counts in STALE_DROPS. -/
def State.issueJudge (s : State) (id : CmdId) (d : List Byte) (members : List Nat) : Verdict × Bool :=
  let x := s.queue id.ctx id.q
  let refuse (e : Ending) : Verdict := ⟨some e, [], [], false⟩
  if !opcodes.contains (hOpcode d) then (refuse (formatViol 0).ending, false)
  else if s.unprivileged id.ctx d then (refuse (refusal .accessDenied noHandle 0), false)
  else
    match worst (s.headViols id.ctx x.deferrable d) with
    | some v => (refuse v.ending, s.headStale id.ctx d)
    | none =>
      if groupOps.contains (hOpcode d) ∧ members.isEmpty then (refuse (refusal .accessDenied noHandle 0), false)
      else
        let v := s.checkBody id d x.group members
        let stale := s.staleUse id.ctx v.uses || s.bodyStale id.ctx d
        match v.ending, s.genRefused id.ctx d with
        | none, some e => ({ v with ending := some e }, stale)
        | _, _ => (v, stale)

/-! ### COMMAND_ISSUE -/

/-- STORED_SCALE of every HISTORY tensor a command reads (R567), by descriptor slot. -/
def State.storedScales (s : State) (id : CmdId) : List HUse → Except AccErr (Tab Nat)
  | [] => .ok []
  | u :: rest =>
    match s.storedScales id rest with
    | .error e => .error e
    | .ok t =>
      match (if u.reads ∧ !u.absent then s.tens? id.ctx u.handle else none) with
      | none => .ok t
      | some x =>
        if x.usesHistory then
          match s.histRead id x with
          | .error e => .error e
          | .ok r => .ok (t.set (handleSlot u.handle) (u32 r 112))
        else .ok t

/-- The queue counters of a queue at 0 (R472). -/
def State.clearQueueCounters (s : State) (c q : Nat) : State :=
  [RegName.qcBytesRead, .qcBytesWritten, .qcMac, .qcStall].foldl (fun t n => t.wr ⟨n, c, q⟩ 0) s

/-- A use count raised or lowered (R162). -/
def State.useCount (s : State) (c : Nat) (up : Bool) (u : Nat × Nat) : State :=
  let f (n : Nat) : Nat := if up then n + 1 else n - 1
  s.updSlot c u.1 fun x => if u.2 = 0 then { x with uses0 := f x.uses0 } else { x with uses1 := f x.uses1 }

/-- A Topiary command takes the tensors it writes (R163 step 1). -/
def State.takeWriters (s : State) (id : CmdId) (d : List Byte) : State :=
  if isOpcode 0x30 d then
    let b := tBody d
    let one (t : State) (h : Nat) : State :=
      if h = noHandle then t
      else
        t.updSlot id.ctx (handleSlot h) fun x => { x with writer := some id }
    let s := one s b.dest
    if b.transpose then one s b.trans else s
  else s

/-- A command that passes its checks. -/
def State.intake (s : State) (id : CmdId) (d : List Byte) (v : Verdict) (scales : Tab Nat) (members : List Nat) : State :=
  let s := if bitOf (s.rd (regCtx .qcounterMode id.ctx)) id.q then s.clearQueueCounters id.ctx id.q else s
  let named := v.uses.filter fun u => !u.absent
  let outs := (named.filter fun u => u.writes).map fun u => u.handle
  let buffers := (s.genUses id.ctx d).map fun u => (handleSlot u.1, u.2 % 2)
  let c : Cmd := { s.freshCmd id d with
    cells := members, handles := named.map fun u => u.handle, outs, buffers, watches := s.watchesOn id.ctx outs,
    records := v.records, scales, nonReplayable := v.nonReplayable }
  let s := buffers.foldl (fun t u => t.useCount id.ctx true u) s
  ({ s with cmds := s.cmds ++ [c] }).takeWriters id d

/-- The word an ECC_UNCORRECTABLE names is reported (R308). -/
def State.reportEnding (s : State) (e : Ending) : State :=
  if e.status = Status.eccUncorrectable.code then s.ueReport (leValue (e.detail.drop 8)) else s

/-- Issue a command: its checks, and what it takes; `none` while a record it reads lies in a bank being handed over (R81). -/
def State.issue (s : State) (id : CmdId) (d : List Byte) : Option State :=
  let members := s.membersOf id.ctx id.q
  let (v, stale) := s.issueJudge id d members
  let s := if stale then s.staleDrop id.ctx else s
  match v.ending with
  | some e => if e = AccErr.wait.ending then none else some ((s.reportEnding e).refuse id d e)
  | none =>
    match s.storedScales id v.uses with
    | .error .wait => none
    | .error e => some ((s.reportEnding e.ending).refuse id d e.ending)
    | .ok scales => some (s.intake id d v scales members)

/-- The command at the head of a queue: refused where a START registration was discarded (R226), issued where every start
condition holds. -/
def State.issueHead (s : State) (c q : Nat) : State :=
  match (s.queue c q).fetched with
  | [] => s
  | f :: rest =>
    let id : CmdId := ⟨c, q, f.seq⟩
    let drop (t : State) : State := t.updQueue c q fun x => { x with fetched := rest }
    if f.start0 = .stale then ((drop s).refuse id f.desc (refusal .descFormat (hWaitRef f.desc 0) 4)).nextHead c q
    else if f.start1 = .stale then ((drop s).refuse id f.desc (refusal .descFormat (hWaitRef f.desc 1) 12)).nextHead c q
    else if !s.pcie.linkUp ∨ (s.waitOn c q f).isSome then s
    else if f.genFailed.isSome then ((drop s).refuse id f.desc (genEnding (f.genFailed.getD 0))).nextHead c q
    else ((drop s).issue id f.desc).elim s fun t => t.nextHead c q

def execCommandIssue (ctx q : Nat) (s : State) : Host.Outcome State Fault Refusal := .next (s.issueHead ctx q)

/-! ### COMMAND_COMPLETE (R255, R260–R262) -/

/-- Apply an update at once, or count it as stale (R226, R261 step 1). -/
def State.signal (s : State) (ctx ref add : Nat) : State :=
  if !refEnabled ref then s
  else
    match s.counterOf ctx ref with
    | none => s.staleDrop ctx
    | some (die, p) => s.addCounter die p add

def Ending.success (e : Ending) : Bool := e.status == Status.ok.code || e.status == Status.replayed.code

/-- The completion record of Table 10-4, PHASE clear. -/
def State.completionRecord (s : State) (c : Cmd) (e : Ending) : List Byte :=
  let a := c.start
  let z := s.latches c.id
  record 16 [(0, 2, e.status), (2, 1, c.recordFlags s.time.locked), (3, 1, c.id.q), (4, 4, e.aux), (8, 8, c.id.seq)] ++ padTo 16 e.detail
    ++ ([a.cycles, z.cycles, a.pips, z.pips, a.rd, z.rd, a.wr, z.wr, a.mac, z.mac, a.stall, z.stall].map (leBytes 8)).flatten

/-- Whether a completion ring has room by the CQ_HEAD last scanned (R262). -/
def CqSt.room (x : CqSt) : Bool := decide ((x.w + 2 ^ 64 - x.cqHead % 2 ^ 64) % 2 ^ 64 < 2 ^ x.log2)

/-- Write a record at the ring's position w, and request its vector. -/
def State.putRecord (s : State) (c r : Nat) (rec' : List Byte) (vector : Bool) : State :=
  let x := s.cq c r
  let size := 2 ^ x.log2
  let phase := b2n (x.w / size % 2 == 0)
  let bs := rec'.take 2 ++ [BitVec.ofNat 8 (u8 rec' 2 + phase)] ++ rec'.drop 3
  let s := (s.hostWrite (x.base + x.w % size * 128) bs).updCq c r fun x => { x with w := x.w + 1 }
  if vector || x.intAll then s.requestVector c r else s

/-- A record leaves for its ring: written, kept waiting, or discarded without a link (R466). -/
def State.postRecord (s : State) (c r : Nat) (rec' : List Byte) (vector : Bool) : State :=
  let x := s.cq c r
  if !s.pcie.linkUp then s
  else if bitOf (s.rd (cqConfig c r)) 0 ∧ x.waiting.isEmpty ∧ x.room then s.putRecord c r rec' vector
  else (s.updCq c r fun x => { x with waiting := x.waiting ++ [(rec', vector)] }).bump (regCtx .cqFullStalls c) 1

/-- No fetched or issued command of a queue is incomplete, and under R267 its last record has been written. -/
def State.queueIdle (s : State) (c q : Nat) : Bool :=
  let x := s.queue c q
  x.fetched.isEmpty && (s.queueCmds c q).isEmpty
    && !(x.closing && (s.cq c x.cq).waiting.any fun w => u8 w.1 3 == q)

/-- A queue that was disabled has written its last record (R267). -/
def State.settleQueue (s : State) (c q : Nat) : State :=
  if (s.queue c q).closing ∧ s.queueIdle c q then
    (s.setFld (sqConfig c q) 29 29 0).updQueue c q fun x => { x with closing := false }
  else s

/-- The commands that wait at the heads of a context's queues for a generation that tensor `h` was to hold will be refused (R163
step 4). -/
def State.failWaiting (s : State) (c h gen : Nat) : State :=
  s.updCtx c fun x =>
    { x with queues := x.queues.mapVals fun q y =>
        match y.fetched with
        | [] => y
        | f :: rest =>
          if s.waitOn c q f = some 6 ∧ (s.genUses c f.desc).any (fun u => u.1 == h && u.2 % 65536 == gen) then
            { y with fetched := { f with genFailed := some h } :: rest }
          else y }

/-- What a command's completion gives back: use counts (R162) and the tensors a Topiary command wrote (R163 step 4). -/
def State.giveBack (s : State) (c : Cmd) (ok : Bool) : State :=
  let id := c.id
  let s := c.buffers.foldl (fun t u => t.useCount id.ctx false u) s
  if isOpcode 0x30 c.desc then
    let b := tBody c.desc
    let mine := [b.dest, b.trans].filter fun h => h != noHandle && (s.slot id.ctx (handleSlot h)).writer == some id
    let s := if ok then s else mine.foldl (fun t h => t.failWaiting id.ctx h b.target) s
    mine.foldl (fun t h => t.updSlot id.ctx (handleSlot h) fun x => { x with writer := none }) s
  else s

/-- Signals of a command that succeeded: its header's, and a DMA_COPY's own (R214, R255). -/
def State.signals (s : State) (c : Cmd) : State :=
  let s := if isOpcode 0x41 c.desc then s.signal c.id.ctx (u32 c.desc 64) (u32 c.desc 68) else s
  s.signal c.id.ctx (hSignalRef c.desc) (hSignalAdd c.desc)

/-- A product with HOLD_OUT that succeeds leaves its tiles held (R170). -/
def State.holdDone (s : State) (c : Cmd) : State :=
  if isOpcode 0x20 c.desc ∧ (pBody c.desc).holdOut then
    match s.geo c.id c.desc c.records with
    | some g => s.publishHolds c g
    | none => s
  else s

/-- Complete a command with an ending. -/
def State.completeWith (s : State) (c : Cmd) (e : Ending) : State :=
  let id := c.id
  let s := if e.success then (s.holdDone c).signals c else s
  let rec' := s.completionRecord c e
  let s := ({ s with cmds := s.cmds.filter fun x => x.id != id }).giveBack c e.success
  let s := s.postRecord id.ctx (s.queue id.ctx id.q).cq rec' (hInterrupt c.desc)
  ((s.testHolder c e).settleQueue id.ctx id.q).nextHead id.ctx id.q

/-- An earlier command of the queue that ends with ABORTED completes first (R267). -/
def State.abortedBefore (s : State) (c : Cmd) (e : Ending) : Bool :=
  e.status == Status.aborted.code && (s.queueCmds c.id.ctx c.id.q).any fun x =>
    (x.ending.any fun y => y.status == Status.aborted.code) && decide (x.id.seq < c.id.seq)

/-- Complete a command: the watch records of one that succeeded come first (R480), and an error in them is its ending. -/
def State.complete (s : State) (c : Cmd) (e : Ending) : State :=
  if s.abortedBefore c e then s
  else if e.success then
    match s.watchRecords c with
    | (t, none) => t.completeWith c e
    | (_, some .wait) => s
    | (t, some err) => (t.reportEnding err.ending).completeWith c err.ending
  else s.completeWith c e

def execCommandComplete (id : CmdId) (s : State) : Host.Outcome State Fault Refusal :=
  .next (match s.cmd? id with
    | none => s
    | some c => match c.ending with
      | none => s
      | some e => s.complete c e)

/-! ### CQ_RECORD_RELEASE and HOLDOFF_EXPIRY -/

/-- The oldest record that waits for a ring is written once there is room (R262). -/
def execCqRecordRelease (ctx r : Nat) (s : State) : Host.Outcome State Fault Refusal :=
  let x := s.cq ctx r
  .next (match x.waiting with
    | [] => s
    | (rec', v) :: rest =>
      let drop := s.updCq ctx r fun y => { y with waiting := rest }
      if !s.pcie.linkUp then drop.settleQueue ctx (u8 rec' 3)
      else if bitOf (s.rd (cqConfig ctx r)) 0 ∧ x.room then (drop.putRecord ctx r rec' v).settleQueue ctx (u8 rec' 3)
      else s)

/-- The HOLDOFF interval of a ring ends: merged requests leave as one message, which starts the next interval (R266). -/
def execHoldoffExpiry (ctx r : Nat) (s : State) : Host.Outcome State Fault Refusal :=
  let x := s.cq ctx r
  .next (if x.holdoffRunning then
      let s := s.updCq ctx r fun y => { y with holdoffRunning := false, merged := false }
      if x.merged then s.requestVector ctx r else s
    else s)

end Sys2Proof.Machine
end

