-- ==== Sys2Proof/Machine/Snapshot.lean ====
section
/-!
DEFINITION. Machine/Snapshot.lean: the stalemate snapshot as captured and written (R482–R484, Table 19-4).
-/
namespace Sys2Proof.Machine

/-- An entry before its fields are laid out: KIND, die, and the fields of Table 19-4 in order. -/
structure SnapEntry where
  kind : Nat
  die : Nat
  fields : List Nat
  deriving DecidableEq, Repr

/-- The 32 bytes of an entry; the places of the fields are open (log entry 45). -/
def SnapEntry.bytes (e : SnapEntry) : List Byte :=
  leBytes 1 e.kind ++ leBytes 1 e.die ++ (upTo 30).map (Config.snapshotByte e.kind e.fields)

def State.diesIn (s : State) : List Nat := (upTo 8).filter fun d => (s.die d).inService

/-- Kind 1: each enabled queue. -/
def State.snapQueues (s : State) : List SnapEntry :=
  s.enabledQueues.map fun e =>
    let x := s.queue e.1 e.2
    let (seq, wait) := match x.fetched with
      | [] => (x.head, 0)
      | f :: _ => (f.seq, (s.waitOn e.1 e.2 f).getD 0)
    ⟨1, 0, [e.1, e.2, x.head, x.seenTail, x.fetched.length, (s.queueCmds e.1 e.2).length, seq, wait]⟩

def WatchAct.code : WatchAct → Nat
  | .start _ _ => 0 | .write _ _ => 1 | .add _ _ => 2

/-- Kind 2: each occupied watch entry, then the registrations that wait. -/
def State.snapWatches (s : State) (d : Nat) : List SnapEntry :=
  let x := s.die d
  let one (w : Watch) (waits : Bool) : SnapEntry :=
    ⟨2, d, [w.ctx, w.ref, w.target, (x.counters.get? w.phys).elim 0 (·.value), w.act.code, b2n waits]⟩
  (x.watches.vals.map fun w => one w false) ++ x.waiting.map fun r => one r.watch true

/-- Kind 3: each mapped barrier. -/
def State.snapBarriers (s : State) (d : Nat) : List SnapEntry :=
  (s.die d).barriers.vals.map fun b =>
    ⟨3, d, [b.ctx, b.vid + b.gen * 256, b.round, b.arrK, b.arrK1, b.participants, b.release]⟩

/-- Kind 4: each port. -/
def State.snapPorts (s : State) (d : Nat) : List SnapEntry :=
  (portsOf d).map fun p =>
    let x := s.port p
    ⟨4, d, [x.mode.code, x.credit, x.creditBack, (s.fabric.retained.filter fun r => r.port == p).length, x.repair.length]⟩

/-- Batch headers that wait at a die for a unit. -/
def State.headersAt (s : State) (d u : Nat) : Nat :=
  (s.fabric.headers.filter fun h =>
    h.die == d && s.fabric.active.any fun t => (t.flow? h.flow).any fun (r : FlowRec) => r.unit == u).length

/-- Kind 5: each die and unit of Table 14-5. -/
def State.snapUnits (s : State) (d : Nat) : List SnapEntry :=
  let u := s.updDieOf d
  let sram := (u.staged.filter fun b => b.inSram).length
  (upTo 7).map fun k =>
    if k = 2 then
      ⟨5, d, [k, u.staged.length, unitB k, sram, u.staged.length - sram,
        (u.staged.filter fun b => b.parked).length]⟩
    else ⟨5, d, [k, if k = 3 ∨ k = 4 then s.headersAt d k else 0, unitB k]⟩

/-- Pending swaps of error-term tensors that lie on a die. -/
def State.swapsOn (s : State) (d : Nat) : Nat :=
  (s.step.swaps.filter fun w =>
    (s.tensRun w.ctx w.handle).any fun (t : Tens) => (placeOf s.mem.layout t.base).die? == some d).length

/-- Kind 6: each die. -/
def State.snapDie (s : State) (d : Nat) : SnapEntry :=
  let n (a b : RegName) : Nat := s.rd (regDie a d) - s.rd (regDie b d)
  ⟨6, d, [(s.updDieOf d).journal.length * 4160, n .exportHead .exportRelease, n .foreignHead .foreignRelease, s.swapsOn d]⟩

/-- Kind 7: the module. -/
def State.snapModule (s : State) : SnapEntry :=
  let f := s.fabric
  ⟨7, 0, [f.active.elim 0 (·.id), f.standby.elim 0 (·.id),
    f.active.elim 0 fun t => (s.frame - f.switchFrame) % max 1 t.frames, f.switchFrame, b2n f.lastFailover, s.step.oldest,
    b2n s.step.stalled]⟩

/-- Kind 8: each N:8 buffer in use or waited for, at most 4,096, the lowest handles first. -/
def State.snapBuffers (s : State) : List SnapEntry :=
  let all := (s.ctxs.map fun c => (c.2.slots.map fun e =>
    (upTo 2).filterMap fun b =>
      let uses := if b = 0 then e.2.uses0 else e.2.uses1
      let waits := match e.2.writer with
        | none => none
        | some id => (s.cmd? id).filter fun (x : Cmd) => x.begun && (tBody x.desc).target % 2 == b
      if uses ≠ 0 ∨ waits.isSome then
        some (e.1 + e.2.gen * 2 ^ 24, b, uses, waits.elim 0 fun (x : Cmd) => x.id.seq)
      else none).flatten).flatten
  let sorted := all.foldl (fun (l : List (Nat × Nat × Nat × Nat)) x =>
    (l.filter fun y => decide (y.1 ≤ x.1)) ++ [x] ++ l.filter fun y => decide (x.1 < y.1)) []
  (sorted.take 4096).map fun e => ⟨8, 0, [e.1, e.2.1, e.2.2.1, e.2.2.2]⟩

/-- Every entry, in the order of R484. -/
def State.snapEntries (s : State) : List SnapEntry :=
  let ds := s.diesIn
  let per (f : Nat → List SnapEntry) : List SnapEntry := (ds.map f).flatten
  s.snapQueues ++ per s.snapWatches ++ per s.snapBarriers ++ ((upTo 8).map s.snapPorts).flatten ++ per s.snapUnits
    ++ ds.map s.snapDie ++ [s.snapModule] ++ s.snapBuffers

/-- Capture, write and end the snapshot (R482, R483). -/
def State.capture (s : State) : State :=
  let es := s.snapEntries
  let addr := s.rd (regDie0 .snapshotAddr)
  let len := s.rd (regDie0 .snapshotLength)
  let n := min es.length ((len - 64) / 32)
  let head := record 64 [(0, 8, s.now), (8, 2, s.fld (regDie0 .nodeReg) 15 0),
    (10, 1, b2n (!s.time.locked) + 2 * b2n (decide (n < es.length))), (12, 4, n)]
  let bs := (head ++ ((es.take n).map SnapEntry.bytes).flatten).take len
  let w : State × Option AccErr := match s.addrJudge 0 addr bs.length false true with
    | .error e => (s, some e)
    | .ok x => s.writeBytes x addr bs
  let t := ({ w.1 with snap := SnapSt.init }).setFld (regDie0 .snapshotControl) 2 2 1
  match s.snap.by', w.2 with
  | _, some .wait => s
  | none, _ => t
  | some id, none => t.finish id (okAux n)
  | some id, some e => t.failAcc id e

def execSnapshotCapture (s : State) : Host.Outcome State Fault Refusal :=
  .next (if s.snap.busy ∧ s.snap.atTime.all fun t => decide (t ≤ s.now) then s.capture else s)

end Sys2Proof.Machine
end

