-- ==== Sys2Proof/Machine/Security.lean ====
section
/-!
DEFINITION. Machine/Security.lean: the services of the security mailbox (R490–R498, R502, R504), the error state (R503) and
zeroisation (R491, R504).
-/
namespace Sys2Proof.Machine

/-! ### Status (R505, Table 20-5) -/

/-- FW_SECURITY_VERSION of an image (Table 21-1). -/
def imageVersion (img : List Byte) : Nat := u32 img 12

/-- The module is in its evaluated configuration (R505); the test access port is fused closed in every shipped part (R488). -/
def State.approved (s : State) : Bool :=
  s.fld (regDie0 .secPolicy) 2 0 == 7 && s.sec.policySigned && !s.sec.ownerSlots.isEmpty && Config.listedVersion s.boot.fwVersion
    && !s.sec.errorState && !s.sec.zeroised

def State.secStatus (s : State) : Nat :=
  b2n s.sec.running.isSome + 2 * s.sec.result + 16 * b2n s.approved + 32 * b2n s.sec.errorState + 64 * b2n s.sec.owner
    + 128 * b2n s.sec.session + 256 * b2n s.sec.zeroised

/-- SEC_KEY_SLOTS. -/
def State.keySlotsFilled (s : State) : Nat := s.mem.keySlots.keys.foldl (fun m c => m ||| 2 ^ c) 0

/-! ### The mailbox (R490) -/

/-- A service ends: its response, of no payload unless RESULT is 0, then RESULT, then BUSY clears. -/
def State.endService (s : State) (result : Nat) (payload : List Byte) : State :=
  let p := if result = 0 then payload else []
  let s := s.hostWrite (s.rd (regDie0 .secRespAddr)) (leBytes 4 p.length ++ p)
  { s with sec := { s.sec with running := none, result } }

/-- Run service `code` on a request of `n` payload bytes that satisfies `mine`. `f` answers the payload of the response, or the
RESULT of a failure. -/
def State.service (s : State) (code n : Nat) (mine : List Byte → Bool) (f : State → List Byte → Except Nat (List Byte) × State) :
    State :=
  let addr := s.rd (regDie0 .secReqAddr)
  let req := s.hostRead (addr + 4) n
  if s.sec.running ≠ some code ∨ !s.pcie.linkUp ∨ !mine req then s
  else if s.sec.errorState ∧ code ≠ 1 then s.endService 4 []
  else if s.sec.dead ∧ code ≠ 1 ∧ code ≠ 2 then s.endService 2 []
  else if leValue (s.hostRead addr 4) ≠ n then s.endService 1 []
  else
    match f s req with
    | (.ok p, t) => t.endService 0 p
    | (.error r, t) => t.endService r []

def anyRequest (_ : List Byte) : Bool := true

/-- `n` fresh bytes of the DRBG. -/
def State.draw (s : State) (n : Nat) : List Byte × State :=
  (Config.drbg s.sec.draws n, { s with sec := { s.sec with draws := s.sec.draws + 1 } })

def State.serialBytes (s : State) : List Byte := leBytes 8 s.boot.serial

/-- A signature by the identity key, padded to 1,280 bytes. -/
def idSign (msg : List Byte) : List Byte := padTo 1280 (Config.falconSign 0 msg)

/-! ### GET_STATUS, GET_CERTS, ATTEST -/

def execGetStatus (s : State) : Host.Outcome State Fault Refusal :=
  .next (s.service 1 0 anyRequest fun s _ =>
    (.ok (leBytes 4 s.secStatus ++ leBytes 8 s.keySlotsFilled ++ leBytes 4 s.sec.ownerSlots.length), s))

def execGetCerts (s : State) : Host.Outcome State Fault Refusal :=
  .next (s.service 2 0 anyRequest fun s _ => (.ok Config.certChain, s))

/-- Bytes 0–511 of the attestation report (Table 20-3). -/
def State.reportBody (s : State) (nonce : List Byte) : List Byte :=
  let m (x : List Byte) : List Byte := padTo 64 (Config.shake256 64 x)
  let owner := match s.sec.ownerSlots.getLast? with
    | some h => padTo 64 h
    | none => zeros 64
  let cfg := b2n s.approved + 2 * b2n s.boot.setupInvalid + 4 * b2n s.sec.session + 8 * b2n s.sec.owner
  let dies := s.diesIn.foldl (fun a d => a + 2 ^ d) 0
  leBytes 2 1 ++ leBytes 2 512 ++ leBytes 4 s.sec.reports ++ s.serialBytes ++ padTo 64 nonce ++ m Config.bootRom
    ++ m s.boot.running ++ m (if s.boot.setupImage.isEmpty then zeros 64 else s.boot.setupImage)
    ++ m (Config.fuseMap s.sec.ownerSlots s.boot.fwFloor s.boot.signedRequired s.boot.killed s.boot.serial) ++ owner
    ++ leBytes 8 s.now ++ leBytes 1 (b2n s.time.locked) ++ leBytes 1 cfg ++ leBytes 1 dies ++ zeros 1
    ++ leBytes 4 (imageVersion s.boot.running) ++ leBytes 2 (s.fld (regDie0 .nodeReg) 15 0) ++ zeros 94

def execAttest (s : State) : Host.Outcome State Fault Refusal :=
  .next (s.service 3 64 anyRequest fun s nonce =>
    let s := { s with sec := { s.sec with reports := s.sec.reports + 1 } }
    let b := s.reportBody nonce
    (.ok (b ++ idSign b), s))

/-! ### Sessions (R497, R498) -/

/-- One encapsulation: the response, and the 768 bytes of keys. -/
def State.agree (s : State) (req : List Byte) : List Byte × List Byte × State :=
  let ek := req.take 1568
  let nonce := req.drop 1568
  let (r, s) := s.draw 32
  let (ct, secret) := Config.kemEncap ek r
  let sig := idSign (Config.shake256 64 (ek ++ nonce ++ ct ++ s.serialBytes))
  (ct ++ sig, Config.shake256 768 (secret ++ Config.shake256 64 (ek ++ nonce ++ ct)), s)

def execSessionOpen (s : State) : Host.Outcome State Fault Refusal :=
  .next (s.service 4 1600 anyRequest fun s req =>
    if s.sec.session then (.error 2, s)
    else
      let (p, keys, s) := s.agree req
      (.ok p, { s with sec := { s.sec with session := true, ide0 := keys, ide1 := [], ideSet := 0 } }))

/-- New keys into the set not in use, to which the host then switches. -/
def execSessionRekey (s : State) : Host.Outcome State Fault Refusal :=
  .next (s.service 5 1600 anyRequest fun s req =>
    if !s.sec.owner ∨ !s.sec.session then (.error 2, s)
    else
      let (p, keys, s) := s.agree req
      let x := s.sec
      (.ok p, { s with sec := if x.ideSet = 0 then { x with ide1 := keys, ideSet := 1 } else { x with ide0 := keys, ideSet := 0 } }))

def execSessionClose (s : State) : Host.Outcome State Fault Refusal :=
  .next (s.service 6 0 anyRequest fun s _ => if s.sec.owner then (.ok [], s.endSession) else (.error 2, s))

/-! ### The owner (R492, R493) -/

/-- Pips in one second. -/
def secondPips : Nat := 800000000

def execOwnerChallenge (s : State) : Host.Outcome State Fault Refusal :=
  .next (s.service 7 0 anyRequest fun s _ =>
    let (c, s) := s.draw 32
    (.ok c, { s with sec := { s.sec with challenge := some (c, s.now + secondPips) } }))

/-- The challenge lives for one second (Table 20-1). -/
def State.challengeDue (s : State) : Bool := s.sec.challenge.any fun (c : List Byte × Nat) => decide (c.2 ≤ s.now)

def execChallengeExpiry (s : State) : Host.Outcome State Fault Refusal :=
  .next (if s.challengeDue then { s with sec := { s.sec with challenge := none } } else s)

/-- OWNER_AUTH: the challenge is consumed whatever the outcome. -/
def execOwnerAuth (s : State) : Host.Outcome State Fault Refusal :=
  .next (s.service 8 3073 anyRequest fun s req =>
    let key := req.take 1793
    let sig := req.drop 1793
    let ok := match (if s.challengeDue then none else s.sec.challenge), s.sec.ownerSlots.getLast? with
      | some (c, _), some h => Config.falconVerify key (c ++ s.serialBytes) sig && Config.shake256 64 key == h
      | _, _ => false
    let s := { s with sec := { s.sec with challenge := none } }
    if ok then (.ok [], { s with sec := { s.sec with owner := true } }) else (.error 3, s))

def execOwnerEnrol (s : State) : Host.Outcome State Fault Refusal :=
  .next (s.service 9 1793 anyRequest fun s key =>
    let k := s.sec.ownerSlots.length
    if (k ≠ 0 ∧ !s.sec.owner) ∨ k ≥ 8 then (.error 2, s)
    else
      (.ok (leBytes 4 k), { s with sec := { s.sec with owner := false, ownerSlots := s.sec.ownerSlots ++ [Config.shake256 64 key] } }))

/-! ### CONTEXT_KEY (R495) -/

/-- The key slot of a context, filled afresh or erased. -/
def State.setKeySlot (s : State) (c : Nat) (fresh : Bool) : State :=
  if fresh then
    { s with mem := { s.mem with keySlots := s.mem.keySlots.set c s.mem.nextKey, nextKey := s.mem.nextKey + 1 } }
  else { s with mem := { s.mem with keySlots := s.mem.keySlots.erase c } }

def State.contextKey (s : State) (req : List Byte) : Except Nat (List Byte) × State :=
  let c := u8 req 0
  if c ≥ 64 ∨ u8 req 1 > 1 then (.error 1, s)
  else if !s.sec.owner ∨ !(s.ctx c).allocs.isEmpty then (.error 2, s)
  else (.ok [], s.setKeySlot c (u8 req 1 = 0))

/-- NEW, and every request whose OP is reserved. -/
def execContextKeyNew (s : State) : Host.Outcome State Fault Refusal :=
  .next (s.service 0x0A 2 (fun r => u8 r 1 != 1) State.contextKey)

def execContextKeyErase (s : State) : Host.Outcome State Fault Refusal :=
  .next (s.service 0x0A 2 (fun r => u8 r 1 == 1) State.contextKey)

/-! ### The error state (R502, R503) -/

def State.downAll (s : State) (reason : Nat) : State :=
  (upTo 40).foldl (fun t p => if (t.die (p / 5)).inService then t.portDown p reason else t) s

/-- Enter the error state: every port goes DOWN with reason 4; fetching stops by ERROR_STATE itself. -/
def State.enterError (s : State) : State := ({ s with sec := { s.sec with errorState := true } }).downAll 4

def execSelfTest (pass : Bool) (s : State) : Host.Outcome State Fault Refusal :=
  .next (s.service 0x0B 0 anyRequest fun s _ => if pass then (.ok [], s) else (.error 4, s.enterError))

def execEntropyTestFailure (s : State) : Host.Outcome State Fault Refusal :=
  .next (if s.boot.selfTestsPassed ∧ !s.sec.errorState then s.enterError else s)

/-! ### Zeroisation (R491, R504) -/

/-- Keys and secrets overwritten, ports DOWN, fetching stopped by ZEROISED itself. -/
def State.zeroise (s : State) : State :=
  let s := { s with
    mem := { s.mem with keySlots := [], packageKey := 0 }
    sec := { s.sec with owner := false, session := false, ide0 := [], ide1 := [], ideSet := 0, challenge := none, zeroised := true } }
  s.downAll 4

/-- ZEROISE, and every request whose SCOPE is reserved. -/
def execZeroise (s : State) : Host.Outcome State Fault Refusal :=
  .next (s.service 0x0C 1 (fun r => u8 r 0 != 1) fun s req => if u8 req 0 = 0 then (.ok [], s.zeroise) else (.error 1, s))

/-- DECOMMISSION also blows the kill fuse. -/
def execDecommission (s : State) : Host.Outcome State Fault Refusal :=
  .next (s.service 0x0C 1 (fun r => u8 r 0 == 1) fun s _ =>
    if s.sec.owner then
      let t := s.zeroise
      (.ok [], { t with boot := { t.boot with killed := true } })
    else (.error 2, s))

/-- ZEROISE_NOW: a service in progress ends with RESULT 2 and no response. -/
def State.zeroiseNow (s : State) : State :=
  (if s.sec.running.isSome then { s with sec := { s.sec with running := none, result := 2 } } else s).zeroise

end Sys2Proof.Machine
end

