-- ==== Sys2Proof/Machine/Power.lean ====
section
/-!
DEFINITION. Machine/Power.lean: operating points and the requests on CCLK (R517, R518), the control loops (R519), the fused
limits (R520–R523) and the supervision of the input (R554).
-/
namespace Sys2Proof.Machine

def State.setPower (s : State) (f : PowerSt → PowerSt) : State := { s with power := f s.power }

/-! ### Requests (Table 21-3) -/

/-- The point the power comparators request, if any holds. -/
def PowerSt.capPoint (p : PowerSt) : Option Nat := leastOf p.caps.vals

/-- The lowest request other than the droop stretch. -/
def PowerSt.lowest (p : PowerSt) : Nat :=
  if p.throttled then 0 else min p.fwPoint (p.capPoint.getD 60)

/-- OP_STATUS.LIMITER (R518). -/
def PowerSt.limiter (p : PowerSt) : Nat :=
  if p.stretching then 3 else if p.throttled then 2 else if p.capPoint.any fun c => decide (c ≤ p.fwPoint) then 1 else 0

/-- CCLK in kHz at a point. -/
def cclkKHz (n : Nat) : Nat := 500000 + 25000 * n

/-- OPERATING_POINT_CHANGE: CCLK steps to the lowest request in force. -/
def execOperatingPointChange (s : State) : Host.Outcome State Fault Refusal :=
  .next (if !s.power.supplies ∨ s.power.point = s.power.lowest then s
    else
      let s := s.setPower fun p => { p with point := p.lowest }
      if s.boot.firmwareOn then s.logTrace 0 0x0101 (cclkKHz s.power.point) s.power.limiter else s)

/-! ### The control loops (R519) -/

/-- POWER_LIMIT and THERMAL_TARGET as they act (Table 21-4), the target in °C × 16. -/
def State.powerLimit (s : State) : Nat := max 1500 (min 5000 (s.fld (regDie0 .powerControl) 12 0))
def State.thermalTarget (s : State) : Nat := 16 * max 60 (min 100 (s.fld (regDie0 .powerControl) 23 16))

/-- DIE_TEMP of a die: NOW, and PEAK where NOW passes it. -/
def State.setTemp (s : State) (d x : Nat) : State :=
  let w := s.rd (regDie .dieTemp d)
  s.wr (regDie .dieTemp d) (putBits (putBits w 11 0 x) 23 12 (max (bitsOf w 23 12) (x % 4096)))

/-- One die's report: DIE_TEMP, and since when its sensor is silent. -/
def State.takeTemp (s : State) (d : Nat) (t : Option Nat) : State :=
  match t with
  | some x =>
    (s.setTemp d x).setPower fun p => { p with tempReports := insertKey p.tempReports d, silent := p.silent.erase d }
  | none =>
    let s := s.setPower fun p => { p with silent := p.silent.set d (p.silent.getD d s.now) }
    if s.now ≥ s.power.silent.getD d s.now + usPips 1000 then s.setTemp d (105 * 16) else s

/-- Dies that report to the package steward: those in service, or all before the map is built. -/
def State.reporting (s : State) : List Nat := if s.diesIn.isEmpty then upTo 8 else s.diesIn

/-- The point the loops choose: at most one step up, and no lower than the estimate asks unless a bound is passed. -/
def State.loopPoint (s : State) (avgPower estimate : Nat) : Nat :=
  let n := s.power.fwPoint
  let above := decide (avgPower > s.powerLimit)
    || s.reporting.any fun d => decide (s.fld (regDie .dieTemp d) 11 0 > s.thermalTarget)
  let goal := min 60 (if above then min estimate (n - 1) else estimate)
  let mayRaise := s.reporting.all (fun d => s.power.tempReports.contains d) && decide (2 ≤ s.power.powerReports)
  if goal ≤ n then goal else if mayRaise then n + 1 else n

/-- CONTROL_LOOP_TICK. -/
def execControlLoopTick (temps : List (Option Nat)) (avgPower power millivolts estimate : Nat) (s : State) :
    Host.Outcome State Fault Refusal :=
  .next (if !s.boot.firmwareOn ∨ !s.power.supplies ∨ s.power.loopsHeld then s
    else
      let s := s.reporting.foldl (fun t d => t.takeTemp d (temps.getD d none)) s
      let s := s.wr (regDie0 .inputPower) (putBits (power % 65536) 31 16 (millivolts / 4))
      let s := s.setPower fun p => { p with powerReports := p.powerReports + 1 }
      s.setPower fun p => { p with fwPoint := s.loopPoint avgPower estimate })

/-! ### Fused limits (R520–R523) -/

/-- The highest point at or below half the CCLK of point `n`, point 0 at least. -/
def halfPoint (n : Nat) : Nat := (20 + n) / 2 - 20

/-- One comparator: engaged while `above`, released once `below`. -/
def State.comparator (s : State) (k : Nat) (above below : Bool) : State :=
  if (s.power.caps.get? k).isSome then
    if below then s.setPower fun p => { p with caps := p.caps.erase k } else s
  else if above then
    (s.setPower fun p => { p with caps := p.caps.set k (halfPoint p.point) }).bump (regDie0 .powerCapEvents) 1
  else s

def execPowerSample (watts avg10ms : Nat) (above5kFor1ms : Bool) (s : State) : Host.Outcome State Fault Refusal :=
  .next (if !s.power.supplies then s
    else
      ((s.comparator 0 (watts > 6500) (watts < 6000)).comparator 1 above5kFor1ms (watts < 5000)).comparator 2 (avg10ms > 5000)
        (avg10ms < 4900))

/-- Trace point 0x0201. -/
def State.logThrottle (s : State) (temp16 entered : Nat) : State :=
  if s.boot.firmwareOn then s.logTrace 0 0x0201 temp16 entered else s

def execThermalThrottle (temp16 : Nat) (s : State) : Host.Outcome State Fault Refusal :=
  .next (if s.power.supplies ∧ 105 * 16 ≤ temp16 ∧ !s.power.throttled then
      ((s.setPower fun p => { p with throttled := true }).bump (regDie0 .throttleEvents) 1).logThrottle temp16 1
    else s)

/-- THROTTLE_RELEASE: `temp16` is the hottest sensor. -/
def execThrottleRelease (temp16 : Nat) (s : State) : Host.Outcome State Fault Refusal :=
  .next (if s.power.throttled ∧ temp16 ≤ 100 * 16 then
      (s.setPower fun p => { p with throttled := false }).logThrottle temp16 0
    else s)

def execThermalTrip (temp16 : Nat) (s : State) : Host.Outcome State Fault Refusal :=
  .next (if s.power.supplies ∧ 115 * 16 ≤ temp16 then
      (s.setPower fun p => { p with thermTrip := true }).moduleFault ⟨12, 0, 0⟩ true
    else s)

def execDroopStretch (die : Nat) (s : State) : Host.Outcome State Fault Refusal :=
  .next (if s.power.supplies ∧ die < 8 then
      s.setPower fun p => { p with drooping := insertKey p.drooping die, stretching := true,
                                   stretchedEdges := if p.stretching then p.stretchedEdges else 0 }
    else s)

/-- STRETCH_END: the supply is within 2% again; at least 16 edges have been lengthened. -/
def execStretchEnd (s : State) : Host.Outcome State Fault Refusal :=
  .next (if s.power.stretching ∧ 16 ≤ s.power.stretchedEdges then
      s.setPower fun p => { p with drooping := [], stretching := false, stretchedEdges := 0 }
    else s)

def execOvervoltage (die : Nat) (s : State) : Host.Outcome State Fault Refusal :=
  .next (if s.power.supplies ∧ die < 8 then s.moduleFault ⟨12, die, 0⟩ true else s)

/-! ### The input (R554, Table 24-6) -/

/-- Below 46 V or above 62 V. -/
def hardVin (mv : Nat) : Bool := decide (mv < 46000 ∨ 62000 < mv)
def inputGood (mv : Nat) : Bool := decide (50000 ≤ mv ∧ mv ≤ 60000)

def State.inputLost (s : State) : State := s.setPower fun p => { p with inputOk := false }

/-- The supplies go: with a MODULE fault after READY, and before it with the sequence to start again when VIN returns. -/
def State.shutDown (s : State) : State :=
  let s := s.inputLost
  if s.ready then s.moduleFault ⟨12, 0, 0⟩ true else s.stopModule true

/-- VIN_FAULT. An input of 0 V is the removal of power, which stops the fabric-time counter (R334; log entry 159). -/
def execVinFault (millivolts us : Nat) (s : State) : Host.Outcome State Fault Refusal :=
  let s := if millivolts = 0 ∧ 20 ≤ us then s.setPower fun p => { p with removed := true } else s
  .next (if inputGood millivolts ∨ !s.power.inputOk then s
    else if hardVin millivolts ∧ 20 ≤ us then s.shutDown
    else if s.inSequence ∧ s.power.supplies then
      { s with boot := { s.boot with stage := .failed, failReason := 4 } }
    else s)

/-- SUPPLIES_OFF: after READY, 10 ms outside 50–60 V. -/
def execSuppliesOff (millivolts us : Nat) (s : State) : Host.Outcome State Fault Refusal :=
  .next (if s.ready ∧ s.power.inputOk ∧ !inputGood millivolts ∧ !hardVin millivolts ∧ 10000 ≤ us then s.shutDown else s)

end Sys2Proof.Machine
end

