-- ==== Sys2Proof/Machine/Boot.lean ====
section
/-!
DEFINITION. Machine/Boot.lean: the setup image (R512–R516), the start-up sequence (R525, R526, R528, R529), the Pleach map
(R271, R288), firmware (R508–R510), and the rows that cause resets from outside (R530–R532, R553, R554).
-/
namespace Sys2Proof.Machine

/-! ### Fields of the set-up registers -/

def isStored (a : Access) : Bool := a == .rw || a == .rwl
def isLocked (a : Access) : Bool := a == .rwl

/-- Bits of a set-up register that are RSVD of access RW: they read 0 and take only 0 (Table 23-4 and the tables it names). -/
def RegName.spareBits : RegName → Nat
  | .syncWatchQuota => 2 ^ 32 - 2 ^ 13
  | .partHbm | .partGddr => 0xF000 + 0x7C000000
  | .portControl => 0xFC + 0xFFFF0000
  | .timeControl => 2 ^ 32 - 2 ^ 14
  | .failoverControl => 2 ^ 32 - 2 ^ 9
  | .faultControl => 2 ^ 32 - 2 ^ 10
  | .pmcSelect => 2 ^ 64 - 2 ^ 32
  | .freezeControl => 2 ^ 32 - 4
  | .logControl => 2 ^ 32 - 2 ^ 22
  | .powerControl => 0xE000 + 0xFF000000
  | _ => 0

/-- Kinds of Table 19-1. -/
def pmcKinds : List Nat := [0, 4, 6, 7, 8, 9, 10, 13]

/-- A word whose fields within `mask` hold a reserved encoding. -/
def RegName.reservedIn (n : RegName) (mask w : Nat) : Bool :=
  match n with
  | .timeControl => bitsOf mask 1 0 != 0 && bitsOf w 1 0 == 3
  | .pmcSelect => bitsOf mask 3 0 != 0 && !pmcKinds.contains (bitsOf w 3 0)
  | _ => false

/-- `old` with the bits of `mask` taken from `v`. -/
def mergeBits (old mask v : Nat) : Nat := old - (old &&& mask) + (v &&& mask)

/-- Whether the set-up lock governs a register now (R543). -/
def State.lockOn (s : State) (r : Reg) : Bool :=
  r.die?.any fun d => s.fld (regDie .setupLock d) 0 0 == 1

/-- The RW and RWL fields of a register that lie in `mask` set from `v`; RWL fields under the lock are ignored, and that write is
counted (R15, R543). -/
def State.storeFields (s : State) (r : Reg) (mask v : Nat) : State :=
  let i := r.name.info
  let rwl := i.mask isLocked &&& mask
  let locked := s.lockOn r && rwl != 0
  let m := (i.mask isStored &&& mask) - (if locked then rwl else 0)
  let s := s.wr r (mergeBits (s.rd r) m v)
  if locked then s.bump (regDie .lockedWrites (r.die?.getD 0)) 1 else s

/-! ### The setup image (Table 21-2) -/

/-- One masked write of a record. -/
structure SetupWrite where
  reg : Reg
  mask : Nat
  val : Nat
  deriving DecidableEq, Repr

/-- A record: its writes, each set counted for its die, or one of the two tags without a value. -/
inductive SetupRec where
  | regs (ws : List SetupWrite)
  | ownerSigned
  | lock
  deriving DecidableEq, Repr

/-- A 4-byte piece of a record. -/
def setupPiece (off mask val : Nat) : Option SetupWrite :=
  if off % 4 ≠ 0 then none
  else
    match regAt off with
    | none => none
    | some r =>
      let sh := 8 * (off - r.addr)
      some ⟨r, mask * 2 ^ sh, val * 2 ^ sh⟩

/-- REG64: one 64-bit register, or two 32-bit registers, the lower first. -/
def setupWide (off mask val : Nat) : Option (List SetupWrite) :=
  if off % 8 ≠ 0 then none
  else
    match regAt off with
    | none => none
    | some r =>
      if r.name.info.bytes = 8 then some [⟨r, mask, val⟩]
      else
        let hi := mask / 2 ^ 32
        match setupPiece off (mask % 2 ^ 32) (val % 2 ^ 32), setupPiece (off + 4) hi (val / 2 ^ 32) with
        | some a, some b => some [a, b]
        | some a, none => if hi = 0 then some [a] else none
        | none, _ => none

def allSome {α : Type} : List (Option α) → Option (List α)
  | [] => some []
  | none :: _ => none
  | some a :: t => (allSome t).map fun l => a :: l

/-- One record by its tag and value; `none` where the tag is unknown, LEN is wrong or the offset is not assigned. -/
def setupRec (tag : Nat) (v : List Byte) : Option SetupRec :=
  if tag = 1 ∧ v.length = 12 then (setupPiece (u32 v 0) (u32 v 4) (u32 v 8)).map fun w => .regs [w]
  else if tag = 2 ∧ v.length = 12 then
    if u32 v 0 ≥ dieStride then none
    else (allSome ((upTo 8).map fun d => setupPiece (d * dieStride + u32 v 0) (u32 v 4) (u32 v 8))).map .regs
  else if tag = 3 ∧ v.length = 20 then (setupWide (u32 v 0) (u64 v 4) (u64 v 12)).map .regs
  else if tag = 0x10 ∧ v.length = 0 then some .ownerSigned
  else if tag = 0x11 ∧ v.length = 0 then some .lock
  else none

/-- The records in a run of bytes; `fuel` bounds them. -/
def setupRecs : Nat → List Byte → Option (List SetupRec)
  | 0, bs => if bs.isEmpty then some [] else none
  | fuel + 1, bs =>
    if bs.isEmpty then some []
    else
      let n := u16 bs 2
      if bs.length < 4 + n then none
      else
        match setupRec (u16 bs 0) (sliceB bs 4 n), setupRecs fuel (bs.drop (4 + n)) with
        | some r, some t => some (r :: t)
        | _, _ => none

/-- A write that R513 allows, on the values before it. -/
def State.setupOk (s : State) (w : SetupWrite) : Bool :=
  let n := w.reg.name
  let fields := n.info.mask isStored ||| n.spareBits
  n.isSetup && (w.mask &&& fields) == w.mask && (w.val &&& w.mask &&& n.spareBits) == 0
    && !n.reservedIn w.mask (mergeBits (s.rd w.reg) w.mask w.val)

/-- Dies on which a record acted, each once. -/
def setupDies (ws : List SetupWrite) : List Nat := ws.foldl (fun l w => insertKey l (w.reg.die?.getD 0)) []

def State.countApplied (s : State) (d : Nat) : State :=
  s.setFld (regDie .setupApplied d) 15 0 (min 0xFFFF (s.fld (regDie .setupApplied d) 15 0 + 1))

/-- Apply records in order; `none` where one is not allowed. The LOCK record waits for the end (R514, R516). -/
def State.applyRecs (signed : Bool) : List SetupRec → State → Option State
  | [], s => some s
  | .regs ws :: t, s =>
    if ws.all s.setupOk then
      let s := ws.foldl (fun u w => u.storeFields w.reg w.mask w.val) s
      State.applyRecs signed t ((setupDies ws).foldl State.countApplied s)
    else none
  | .ownerSigned :: t, s =>
    State.applyRecs signed t (if signed then { s with boot := { s.boot with signedRequired := true } } else s)
  | .lock :: t, s => State.applyRecs signed t s

/-- The header, key and signature of an image (R513). -/
def State.setupHeader (s : State) (img : List Byte) : Option (Bool × List Byte) :=
  let signed := bitOf (u16 img 6) 0
  let start := if signed then 3200 else 80
  let n := u32 img 8
  let recs := sliceB img start n
  let digest := sliceB img 16 64
  let key := sliceB img 80 1793
  let ok := u32 img 0 == 0x50555453 && u16 img 4 == 1 && decide (start + n ≤ 65536) && decide (start + n ≤ img.length)
    && digest == Config.shake256 64 (img.take 16 ++ recs)
    && (if signed then
          s.sec.ownerSlots.getLast? == some (Config.shake256 64 key)
            && Config.falconVerify key (digest ++ s.serialBytes) (sliceB img 1873 1280)
        else !s.boot.signedRequired)
  if ok then some (signed, recs) else none

/-- The image applied, or declared invalid as a whole (R512–R516). -/
def State.applySetup (s : State) : State :=
  let img := s.boot.setupImage
  let bad := { s with boot := { s.boot with setupInvalid := true } }
  if img.isEmpty then s
  else
    match s.setupHeader img with
    | none => bad
    | some (signed, bs) =>
      match setupRecs (bs.length / 4 + 1) bs with
      | none => bad
      | some rs =>
        match State.applyRecs signed rs s with
        | none => bad
        | some t =>
          let t := if rs.contains .lock then
              (upTo 8).foldl (fun u d => (u.setFld (regDie .setupLock d) 0 0 1).countApplied d) t
            else t
          { t with sec := { t.sec with policySigned := signed && t.fld (regDie0 .secPolicy) 2 0 == 7 } }

/-! ### Firmware (R508–R510) -/

/-- RAISE_FLOOR of an accepted image (R509). -/
def State.raiseFloor (s : State) (img : List Byte) : State :=
  let v := imageVersion img
  if bitOf (u16 img 6) 0 ∧ v > s.boot.fwFloor then
    { s with boot := { s.boot with fwFloor := max s.boot.fwFloor (min v 64) } }
  else s

/-- The stewards start from an accepted image. -/
def State.startFirmware (s : State) (img : List Byte) (fromHost : Bool) : State :=
  let s := s.raiseFloor img
  { s with boot := { s.boot with running := img, fwVersion := imageVersion img, firmwareOn := true, fromHost, recovery := false } }

/-- FLASH_WRITE_DONE. -/
def execFlashWriteDone (s : State) : Host.Outcome State Fault Refusal :=
  .next (match s.boot.flashWriting with
    | some img =>
      if s.boot.firmwareOn then
        { s with boot := { s.boot with flash := img, flashTorn := false, flashWriting := none } }
      else s
    | none => s)

/-! ### The Pleach map (R271, R288, R296) -/

/-- Dies in service at a reset that rebuilds the map. -/
def State.chooseDies (s : State) (linksDown : List Nat) : List Nat :=
  let ok (d : Nat) : Bool := (d == 0 || bitOf (s.rd (regDie0 .dieEnable)) d) && !s.boot.failedDies.contains d
  joined ok linksDown

/-- The map of one die. -/
def State.mapDie (s : State) (d : Nat) : State :=
  let good := (upTo 104).filter fun k => !(s.cell (d * 104 + k)).fusedOut && (s.cell (d * 104 + k)).mode != .fenced
  let slots : Tab LSlot := (upTo 96).map fun l =>
    (l, { LSlot.init with phys := good[l]?, inService := decide (l < good.length) })
  let s := { s with dies := s.dies.set d { Die.init with inService := true, slots } }
  (upTo good.length).foldl (fun t i =>
    t.updCell (d * 104 + good.getD i 0) fun c =>
      { c with mode := .idle, logical := if i < 96 then some (d * 96 + i) else none, inPool := decide (96 ≤ i) }) s

/-- The layout taken from HBM_LAYOUT; wholly die-local with a die out of service. -/
def State.takeLayout (s : State) : State :=
  let w := s.rd (regDie0 .hbmLayout)
  let g := if s.diesIn.length < 8 then 0 else min 47 (bitsOf w 5 0)
  { s with mem := { s.mem with layout := ⟨g, max 1 (bitsOf w 11 8)⟩ } }

/-! ### The sequence (R525, R526) -/

def State.elapsedUs (s : State) : Nat := (s.now - s.boot.seqStart) / 800

/-- Enter a stage, and log it. -/
def State.enterStage (s : State) (g : Stage) : State :=
  ({ s with boot := { s.boot with stage := g } }).logTrace 0 0x0001 g.code s.elapsedUs

def State.failStart (s : State) (reason : Nat) : State :=
  ({ s with boot := { s.boot with stage := .failed, failReason := reason } }).logTrace 0 0x0001 7 s.elapsedUs

/-- Stage POWER ends: die 0's supply is up, and the link trains unless PERST# holds it (R527). -/
def State.endPower (s : State) : State :=
  ({ s with pcie := { s.pcie with linkUp := !s.pcie.perstAsserted } }).enterStage .rom

/-- Stage ROM ends: fuses, self-tests and the firmware check; or it waits in RECOVERY (R502, R508, R510). -/
def State.endRom (s : State) (r : StageReport) : State :=
  if s.boot.firmwareOn then s.enterStage .setup
  else if s.boot.recovery then s
  else if !r.selfTests then s.failStart 2
  else
    let s := if s.boot.coldSeq then r.fused.foldl (fun t c => t.updCell c fun x => { x with fusedOut := true }) s else s
    let s := { s with boot := { s.boot with selfTestsPassed := true }, sec := { s.sec with errorState := false } }
    if r.firmware ∧ !s.boot.flashTorn ∧ s.boot.fwFloor ≤ imageVersion s.boot.flash then
      (s.startFirmware s.boot.flash false).enterStage .setup
    else { s with boot := { s.boot with recovery := true } }

/-- Dies that fail leave service, each with a DIE record. -/
def State.dropDies (s : State) (ds : List Nat) : State :=
  ds.foldl (fun t d =>
    if t.boot.failedDies.contains d then t
    else
      ({ t with boot := { t.boot with failedDies := insertKey t.boot.failedDies d } }).faultRecord
        ⟨.die, 0, ⟨13, d, 0⟩, none, noWhere⟩) s

/-- Stage SELF_TEST ends: cells that failed are fenced, and every scratchpad, accumulator and commons word is zero. -/
def State.endSelfTest (s : State) (r : StageReport) : State :=
  if r.dieFails.contains 0 then s.failStart 3
  else
    let s := (s.dropDies r.dieFails).clearSram
    let s := r.cellFails.foldl (fun t c => t.updCell c fun x => { x with mode := .fenced }) s
    s.enterStage (if s.boot.coldSeq then .memory else .map)

/-- Stage MEMORY ends: training, and every word of HBM4 and GDDR7 written as zero. -/
def State.endMemory (s : State) (r : StageReport) : State :=
  if r.dieFails.contains 0 then s.failStart 3 else (s.dropDies r.dieFails).enterStage .map

/-- READY: ports whose ENABLE resolved to 1 begin bring-up (R529). -/
def State.enterReady (s : State) : State :=
  let us := s.elapsedUs
  let s := s.enterStage .ready
  let s := { s with boot := { s.boot with elapsed := us, wasReady := true } }
  (upTo 40).foldl State.bringUp s

/-- Stage MAP ends: dies, maps, layout and package key. -/
def State.endMap (s : State) (r : StageReport) : State :=
  let ds := s.chooseDies r.linksDown
  if ds.length < 2 then s.failStart 1
  else
    let s := ds.foldl State.mapDie { s with dies := [], faults := { s.faults with linksDown := r.linksDown } }
    let s := s.takeLayout
    let s := if s.boot.coldSeq then
        { s with mem := { s.mem with packageKey := s.mem.nextKey, nextKey := s.mem.nextKey + 1 } } else s
    s.enterReady

/-- COLD_STAGE_END, of a cold or warm sequence. -/
def execColdStageEnd (r : StageReport) (s : State) : Host.Outcome State Fault Refusal :=
  .next (if !s.power.supplies ∨ !s.power.modResetHigh ∨ s.power.stopped then s
    else
      match s.boot.stage with
      | .power => s.endPower
      | .rom => s.endRom r
      | .setup => s.applySetup.enterStage .selfTest
      | .selfTest => s.endSelfTest r
      | .memory => s.endMemory r
      | .map => s.endMap r
      | .ready => s
      | .failed => s)

/-! ### Resets from outside -/

/-- POWER_APPLIED: input that had left its limits has been back for 1 ms (R525, R554). -/
def execPowerApplied (s : State) : Host.Outcome State Fault Refusal :=
  .next (if s.power.inputOk then s
    else
      let s := s.setPower fun p => { p with inputOk := true, removed := false }
      if !s.power.modResetHigh then s
      else if s.power.supplies then s
      else s.coldClear 0 false)

/-- MOD_RESET# low: the supplies are held off (R553). -/
def State.modReset (s : State) : State := (s.setPower fun p => { p with modResetHigh := false }).coldClear 1 false

def execModReset (us : Nat) (s : State) : Host.Outcome State Fault Refusal :=
  .next (if us < 1 then s
    else if us < 10 then
      let (v, s) := s.free
      if v % 2 = 0 then s else s.modReset
    else s.modReset)

/-- MOD_RESET_RELEASE: t0 at the rising edge, provided the input is within its limits. -/
def execModResetRelease (s : State) : Host.Outcome State Fault Refusal :=
  .next (if s.power.modResetHigh then s
    else (s.setPower fun p => { p with modResetHigh := true }).coldClear 1 false)

/-- PERST: the link goes; after the first READY the part resets warm (R528, R530). -/
def execPerst (s : State) : Host.Outcome State Fault Refusal :=
  .next (
    let s := { s with pcie := { s.pcie with perstAsserted := true, linkUp := false } }.endSession
    if s.boot.wasReady then s.warmReset 3 else s)

/-- PERST_DEASSERT: the link trains once die 0's supply is up (R527). -/
def execPerstDeassert (s : State) : Host.Outcome State Fault Refusal :=
  .next (
    let up := s.power.supplies && !s.power.stopped && s.boot.stage != .power
    { s with pcie := { s.pcie with perstAsserted := false, linkUp := s.pcie.linkUp || (s.pcie.perstAsserted && up) } })

/-- FUNCTION_RESET: an FLR comes over the link; a hot reset also brings a lost link back. -/
def execFunctionReset (flr : Bool) (s : State) : Host.Outcome State Fault Refusal :=
  .next (if flr then (if s.pcie.linkUp then s.functionReset true else s)
    else
      let up := s.power.supplies && !s.power.stopped && !s.pcie.perstAsserted && s.boot.stage != .power
      let t := s.endSession.functionReset false
      { t with pcie := { t.pcie with linkUp := up } })

end Sys2Proof.Machine
end

