-- ==== Sys2Proof/Machine/RegRead.lean ====
section
/-!
DEFINITION. Machine/RegRead.lean: reads of BAR0: what a register reads as where its value lies elsewhere in the state, the access
sizes and the latch (R15, R18, R19, R538), and who may read when (R500, R527, R541, R559).
-/
namespace Sys2Proof.Machine

/-! ### Values that lie elsewhere -/

/-- CELL_ID and CELL_STATE (Table 3-7). -/
def State.cellIdWord (s : State) (c : Nat) : Nat :=
  c % 13 + c % 104 / 13 * 16 + c / 104 * 128 + ((s.cell c).logical.elim 0xFF fun l => l % 96) * 65536
def State.cellStateWord (s : State) (c : Nat) : Nat := (s.cell c).mode.code + 4 * b2n (s.cell c).fusedOut

/-- An owner register: what was written, and the handover under way (Table 3-7). -/
def State.ownerWord (s : State) (c bank : Nat) : Nat :=
  s.rd (ownerReg c bank) + (match (s.cell c).handovers.get? bank with
    | some h => if h.scrubbing then 2 ^ 17 else 2 ^ 16
    | none => 0)

/-- LCELL_MAP (Table 11-2). -/
def State.lcellWord (s : State) (l : Nat) : Nat :=
  let x := s.lslot l
  (x.phys.elim 0 fun p => p % 13 + p / 13 * 16) + x.inc * 256 + b2n (x.phys.isSome && x.inService && (s.die (l / 96)).inService) * 65536

/-- A spare of the die is between steps 3 and 5 of R280. -/
def State.substitutingOn (s : State) (d : Nat) : Bool := s.cells.any fun e => e.1 / 104 == d && e.2.placing

/-- PLEACH_STATUS (R290): SPARES_FREE tells at most its 8, and a die out of service has no slots, vacant ones neither (R287). -/
def State.pleachWord (s : State) (d : Nat) : Nat :=
  let pool := min 8 (s.cells.filter fun e => e.1 / 104 == d && e.2.inPool).length
  let vacant := if (s.die d).inService then ((upTo 96).filter fun l => (s.lslot (d * 96 + l)).phys.isNone).length else 0
  pool + vacant * 16 + b2n (s.die d).inService * 2 ^ 11 + b2n (s.substitutingOn d) * 2 ^ 12

/-- PORT_STATUS (Table 13-6). -/
def State.portWord (s : State) (p : Nat) : Nat :=
  let x := s.port p
  x.mode.code + (if x.mode = .down then x.reason else 0) * 256 + b2n x.keyPhase * 4096

/-- An offset as int8, saturating at ±127. -/
def int8Of (o : Int) : Nat := unsignedOf 8 (max (-127) (min 127 o))

def State.timeWord (s : State) : Nat :=
  let t := s.time
  b2n t.locked + 2 * b2n t.holdover + 4 * b2n t.onBackup + t.masterHops * 256 + int8Of t.lastOffset * 65536

/-- The last decision applied: step, committed, reasons (R432, R434). -/
def State.lastDecided (s : State) : Option (Nat × Bool × Nat) :=
  let done (d : Option Decision) : Option Decision := d.filter fun (x : Decision) => x.applied
  match (match done s.step.last with
    | some d => some d
    | none => done s.step.prev) with
  | some d => some (if d.span2 then ((d.step + 1) % 2 ^ 32, false, 2 ^ bitCascade) else (d.step, d.commit, d.reasons % 65536))
  | none => none

def State.stepFlagsWord (s : State) : Nat :=
  let d := s.lastDecided
  b2n s.step.opened + 2 * b2n s.step.applyAhead + 4 * b2n s.step.stalled + 8 * b2n s.openWindow.isSome
    + 16 * b2n (d.any fun x => x.2.1) + (d.elim 0 fun x => x.2.2) * 65536

/-- UPD_STAGED: a staged block takes one slot. -/
def State.stagedWord (s : State) (d : Nat) : Nat :=
  let u := s.updDieOf d
  let n := (u.staged.filter fun b => b.inSram).length
  min 0xFFFF n + (u.staged.length - n) * 65536

/-- FAULT_STATE (Table 18-6). -/
def State.faultWord (s : State) : Nat :=
  let busy := !s.faults.tests.isEmpty || (upTo 8).any s.substitutingOn || (s.fabric.pendingSwitch.any fun q => q.failover)
  b2n busy + 2 * b2n s.faults.degraded

def State.bootWord (s : State) : Nat :=
  let b := s.boot
  (if b.firmwareOn then 2 else if b.recovery then 1 else 0) + 8 * b2n b.fromHost + 16 * b2n b.setupInvalid + 32 * b2n b.signedRequired
    + 64 * b.fwFloor

def State.startWord (s : State) : Nat :=
  s.boot.stage.code + s.boot.failReason * 8 + (s.diesIn.foldl (fun a d => a + 2 ^ d) 0) * 128 + s.boot.resetCause * 2 ^ 15

/-- What a register reads as. -/
def State.live (s : State) (r : Reg) : Nat :=
  let u := r.unit
  match r.name with
  | .cellId => s.cellIdWord u
  | .cellState => s.cellStateWord u
  | .bankOwner => s.ownerWord u r.idx
  | .accSlotOwner => s.ownerWord u (24 + r.idx)
  | .syncStatus => ((s.die u).counters.vals.filter s.counterMapped).length + (s.die u).watches.length * 65536
  | .syncBarriers => ((s.die u).barriers.vals.filter s.barrierMapped).length
  | .sqConfig => bitsOf (s.rd r) 30 0 + b2n (s.queueIdle u r.idx) * 2 ^ 31
  | .lcellMap => s.lcellWord (u * 96 + r.idx)
  | .pleachStatus => s.pleachWord u
  | .repairStatus => s.rd r + b2n (s.mem.repairing.get? u).isSome
  | .portStatus => s.portWord u
  | .portPeer => (s.port u).peerNode + (s.port u).peerPort * 65536
  | .portDelay => (s.port u).delay
  | .timeStatus => s.timeWord
  | .timeNow => s.now
  | .slotTableStatus => (s.fabric.active.elim 0 fun t => t.id) + (s.fabric.standby.elim 0 fun t => t.id) * 2 ^ 32
  | .switchPending => s.fabric.pendingSwitch.elim 0 fun q => q.frame
  | .updStatus => (s.updDieOf u).groups.length
  | .updStaged => s.stagedWord u
  | .stepStatus => s.step.oldest + (s.lastDecided.elim 0 fun d => d.1) * 2 ^ 32
  | .stepFlags => s.stepFlagsWord
  | .journalUsed => (s.updDieOf u).journal.length * 4160
  | .faultSeq => s.faults.seq
  | .faultState => s.faultWord
  | .freezeStatus => b2n s.freeze.armedT.isSome + 2 * b2n s.freeze.frozen + 4 * b2n s.freeze.late + 8 * b2n s.freeze.unlocked
  | .snapshotControl => s.rd r + 8 * b2n s.snap.busy
  | .secStatus => s.secStatus
  | .secKeySlots => s.keySlotsFilled
  | .bootStatus => s.bootWord
  | .fwVersion => s.boot.fwVersion
  | .opStatus => s.power.fwPoint + s.power.limiter * 64
  | .startStatus => s.startWord
  | .startElapsed => s.boot.elapsed
  | .dieInfo => s.rd r + 8 * b2n (s.die u).inService
  | .moduleSerial => s.boot.serial
  | _ => s.rd r

/-! ### MSI-X structures (R265, Table 23-1) -/

def msixTable : Nat := 0x3000000
def msixPba : Nat := 0x3008000
def msixVectors : Nat := 2048

/-- The vector and the word of its entry that a BAR0 offset names. -/
def msixAt (a : Nat) : Option (Nat × Nat) :=
  if msixTable ≤ a ∧ a < msixPba then some ((a - msixTable) / 16, (a - msixTable) % 16 / 4) else none

def State.msixWord (s : State) (v k : Nat) : Nat :=
  let (addr, data, masked) := s.vector v
  match k with
  | 0 => bitsOf addr 31 0
  | 1 => bitsOf addr 63 32
  | 2 => data
  | _ => b2n masked

/-- 32 pending bits from vector `v` on. -/
def State.pbaWord (s : State) (v : Nat) : Nat := (upTo 32).foldl (fun m i => if s.pcie.pba.contains (v + i) then m + 2 ^ i else m) 0

/-! ### Who may access -/

/-- The module answers its link at all (R559). -/
def State.answers (s : State) : Bool :=
  s.pcie.linkUp && s.power.supplies && !s.power.stopped && s.boot.stage != .power

/-- A request that R500 refuses. -/
def State.refuses (s : State) (secure : Bool) (a : Nat) : Bool :=
  s.fld (regDie0 .secPolicy) 1 1 == 1 && (if s.sec.session then !secure else !(decide (0xC0000 ≤ a ∧ a < 0xC1000)))

/-- Whether a register answers reads now (R526, R527). -/
def State.readable (s : State) (r : Reg) : Bool :=
  s.ready || r.name == .startStatus || r.name == .bootStatus || r.name == .secStatus

/-- Whether a register takes writes now (R526, R527, R541, R542). -/
def State.writable (s : State) (r : Reg) : Bool :=
  if s.ready then r.die?.all fun d => d == 0 || (s.die d).inService
  else
    match r.name with
    | .fwMailboxAddr => true
    | .fwMailboxControl => true
    | .fwMailboxLength => true
    | .resetControl => true
    | .secCmd => s.boot.selfTestsPassed
    | .secReqAddr => s.boot.selfTestsPassed
    | .secRespAddr => s.boot.selfTestsPassed
    | _ => false

/-! ### Reads -/

def State.setLatch (s : State) (r : Reg) (v : Option Nat) : State :=
  { s with pcie := { s.pcie with latch := match v with
      | some x => s.pcie.latch.set r.addr x
      | none => s.pcie.latch.erase r.addr } }

/-- The aligned 4-byte value at `a`, with what the read does to the latch (R18). -/
def State.read4 (s : State) (a : Nat) : Nat × State :=
  match regAt a with
  | some r =>
    if !s.readable r then (0, s)
    else
      let v := s.live r
      if r.name.info.bytes ≠ 8 then (v % 2 ^ 32, s)
      else if a = r.addr then (v % 2 ^ 32, s.setLatch r (some (v / 2 ^ 32)))
      else (s.pcie.latch.getD r.addr (v / 2 ^ 32), s.setLatch r none)
  | none =>
    if !s.ready then (0, s)
    else
      match msixAt a with
      | some (v, k) => (s.msixWord v k, s)
      | none => if msixPba ≤ a ∧ a < msixPba + 256 then (s.pbaWord ((a - msixPba) * 8), s) else (0, s)

/-- An accepted read of `size` bytes (R538). -/
def State.readAt (s : State) (a size : Nat) : Nat × State :=
  if size = 8 ∧ a % 8 = 0 then
    match (regAt a).filter fun (r : Reg) => r.name.info.bytes == 8 with
    | some r => (if s.readable r then s.live r else 0, s)
    | none =>
      let lo := s.read4 a
      let hi := lo.2.read4 (a + 4)
      (lo.1 + hi.1 * 2 ^ 32, hi.2)
  else if size = 4 ∧ a % 4 = 0 then s.read4 a
  else if (size = 1 ∨ size = 2) ∧ a % size = 0 then
    let w := s.read4 (a / 4 * 4)
    (w.1 / 2 ^ (8 * (a % 4)) % 2 ^ (8 * size), w.2)
  else (0, s)

/-- A read: refused, without a completer, or answered (R500, R559). -/
def State.barRead (s : State) (secure : Bool) (a size : Nat) : State :=
  let give (t : State) (v : Option Nat) : State := { t with pcie := { t.pcie with lastRead := v } }
  if !s.answers ∨ 2 ^ 26 ≤ a then give s none
  else if s.refuses secure a then give (s.bump (regDie0 .ideRejects) 1) none
  else
    let r := s.readAt a size
    give r.2 (some r.1)

/-- REGISTER_READ. -/
def execRegisterRead (secure : Bool) (offset size : Nat) (s : State) : Host.Outcome State Fault Refusal :=
  .next (s.barRead secure offset size)

end Sys2Proof.Machine
end

