-- ==== Sys2Proof/Machine/RegWrite.lean ====
section
/-!
DEFINITION. Machine/RegWrite.lean: writes of BAR0: access types, halves and sizes (R15, R538, R539), the effect of each field that has
one, and the rows of the opcode table that are register writes. Every such row is a write of its register by the one path.
-/
namespace Sys2Proof.Machine

/-! ### Storing -/

/-- The fields of a register stored as their access types say (Table 0-2): RW and RWL set, W1C cleared by 1, the rest ignored. -/
def State.storeAll (s : State) (r : Reg) (mask v : Nat) : State :=
  let s := s.storeFields r mask v
  let w := r.name.info.mask (fun a => a == .w1c) &&& mask &&& v
  if w = 0 then s else s.wr r (mergeBits (s.rd r) w 0)

/-- The bits of a register that a 4-byte write of the half at bit `lo` can set (R539). -/
def RegInfo.halfMask (i : RegInfo) (lo : Nat) : Nat :=
  i.fields.foldl (fun m f => if lo ≤ f.lo ∧ f.hi < lo + 32 then m + (2 ^ (f.hi + 1) - 2 ^ f.lo) else m) 0

/-! ### Context blocks (R243–R246, R251, R263, R267, Table 10-1) -/

/-- SCAN_PERIOD outside 1–32 is ignored. -/
def State.writeCtxControl (s : State) (r : Reg) (v : Nat) : State :=
  let p := bitsOf v 6 1
  s.storeAll r (if 1 ≤ p ∧ p ≤ 32 then 0x7F else 1) v

/-- ENABLE of a submission queue goes from 0 to 1 (R246, R472). -/
def State.enableQueue (s : State) (c q : Nat) : State :=
  let line := s.rd (regCtx .doorbellBase c) + 64 * q
  let tail := leValue (s.hostRead line 8)
  let w := s.rd (sqConfig c q)
  let s := s.hostWrite (line + 8) (leBytes 8 tail)
  let s := s.updQueue c q fun _ =>
    { base := s.rd ⟨.sqBase, c, q⟩, log2 := bitsOf w 5 1, deferrable := bitOf w 6, prio := bitsOf w 8 7, cq := bitsOf w 13 9,
      group := bitsOf w 21 14, head := tail, seenTail := tail, fetched := [], closing := false }
  (s.setFld (sqConfig c q) 29 29 1).clearQueueCounters c q

/-- ENABLE of a submission queue is cleared (R267). -/
def State.disableQueue (s : State) (c q : Nat) : State :=
  let s := (s.setFld (sqConfig c q) 0 0 0).updQueue c q fun x => { x with closing := true }
  (s.abortQueue c q).settleQueue c q

/-- A size that R244 lets a ring be enabled with. -/
def ringSizeOk (w : Nat) : Bool := decide (4 ≤ bitsOf w 5 1 ∧ bitsOf w 5 1 ≤ 16)

def State.writeSqConfig (s : State) (r : Reg) (v : Nat) : State :=
  let c := r.unit
  let q := r.idx
  let was := bitOf (s.rd r) 0
  let s := s.storeAll r (2 ^ 30) v
  if was then (if bitOf v 0 then s else s.disableQueue c q)
  else
    let s := s.storeAll r 0x3FFFFE v
    if bitOf v 0 ∧ ringSizeOk v then (s.setFld r 0 0 1).enableQueue c q else s

/-- A completion ring that may not be disabled: an enabled queue names it, or records wait for it (R267). -/
def State.ringHeld (s : State) (c k : Nat) : Bool :=
  !(s.cq c k).waiting.isEmpty || (upTo 64).any fun q =>
    (bitOf (s.rd (sqConfig c q)) 0 || bitOf (s.rd (sqConfig c q)) 29) && (s.queue c q).cq == k

def State.writeCqConfig (s : State) (r : Reg) (v : Nat) : State :=
  let c := r.unit
  let was := bitOf (s.rd r) 0
  if was then
    if bitOf v 0 ∨ s.ringHeld c r.idx then s else (s.setFld r 0 0 0).setFld r 31 31 0
  else
    let s := s.storeAll r 0x7FFE v
    if bitOf v 0 ∧ ringSizeOk v then
      let s := (s.setFld r 0 0 1).setFld r 31 31 1
      let w := s.rd r
      s.updCq c r.idx fun x =>
        { x with base := s.rd ⟨.cqBase, c, r.idx⟩, log2 := bitsOf w 5 1, intAll := bitOf w 6, holdoff := bitsOf w 14 7, w := 0,
                 cqHead := 0 }
    else s

/-- A ring's base is taken only while the ring is disabled (R243). -/
def State.writeBase (s : State) (r cfg : Reg) (mask v : Nat) : State :=
  if bitOf (s.rd cfg) 0 then s else s.storeAll r mask v

/-! ### Memory (R303, R315, R316) -/

/-- REPAIR_CMD: refused under the lock, ignored while one runs. -/
def State.writeRepairCmd (s : State) (r : Reg) (mask v : Nat) : State :=
  let d := r.unit
  if (s.mem.repairing.get? d).isSome then s
  else
    let op := bitsOf v 2 0
    let locked := s.lockOn r
    let s := s.storeAll r mask v
    if op = 0 ∨ 3 < op then s
    else if locked then s.setFld (regDie .repairStatus d) 2 1 2
    else s.repairStart d v

/-- A partition register: a bucket keeps its tokens up to the new BURST, and starts full when RATE leaves 0. -/
def State.writePartition (s : State) (r : Reg) (mask v : Nat) : State :=
  let d := r.unit / 16
  let p := r.unit % 16
  let new := s.storeAll r mask v
  (if r.name = .partHbm then [0, 1] else [2, 3, 4]).foldl (fun t c =>
    let k := tokenKey d p c
    let (rate, burst, _) := s.regulator d p c
    let (_, burst', _) := new.regulator d p c
    let tokens := if rate = 0 then t.mem.tokens.erase k else t.mem.tokens.set k (min burst' (t.mem.tokens.getD k burst))
    { t with mem := { t.mem with tokens } }) new

/-! ### Time and ports (R330, R333, R342) -/

def State.writePortControl (s : State) (r : Reg) (mask v : Nat) : State :=
  let was := bitOf (s.rd r) 0
  let s := (s.storeAll r mask v).portEnable r.unit was (bitOf v 0)
  if bitOf v 1 then s.askRekey r.unit else s

def State.writeTimeControl (s : State) (r : Reg) (mask v : Nat) : State :=
  let old := bitsOf (s.rd r) 7 2
  let s := { s with time := { s.time with roleAt := s.frame + 1 } }
  (s.storeAll r mask v).parentChange old

def State.writeNode (s : State) (r : Reg) (mask v : Nat) : State :=
  let old := s.node
  (s.storeAll r mask v).nodeEffect old

/-! ### Step commit (R435, R444, R445, R452) -/

/-- A release at or above its value and at or below the ring's head. -/
def State.releaseOk (s : State) (r : Reg) (head : RegName) (v : Nat) : Bool :=
  decide (s.rd r ≤ v) && decide (v ≤ s.rd (regDie head r.unit))

/-- EXPORT_RELEASE: the step of the last record released is kept for ROLLBACK. -/
def State.writeExportRelease (s : State) (r : Reg) (v : Nat) : State :=
  if !s.releaseOk r .exportHead v then s
  else if v = s.rd r then s
  else
    let u := s.updDieOf r.unit
    let cap := max 1 (u.ringSize / 4160)
    let a := u.ringBase + (v - 1) % cap * 4160 + 8
    let step := match s.readBytes (s.groupAcc 0 a 4) a 4 with
      | .ok bs => some (leValue bs)
      | .error _ => u.releasedStep
    (s.wr r v).updUpd r.unit fun x => { x with releasedStep := step }

def State.writeForeignRelease (s : State) (r : Reg) (v : Nat) : State := if s.releaseOk r .foreignHead v then s.wr r v else s

def State.writeStepFlags (s : State) (v : Nat) : State :=
  if bitOf v 2 then s.setSteps fun x => { x with stalled := false } else s

/-! ### Rings of records (R458, R485) -/

def ringLog2Ok (n : Nat) : Bool := decide (4 ≤ n ∧ n ≤ 12)

def State.writeFaultRing (s : State) (r : Reg) (mask v : Nat) : State :=
  let n := s.fld (regDie0 .faultControl) 9 6
  let s := s.storeAll r mask v
  { s with faults := { s.faults with base := if ringLog2Ok n then v else 0, log2 := n, w := 0 } }

/-- LOG_RING_BASE: records held until now leave for the ring. -/
def State.writeLogRing (s : State) (r : Reg) (mask v : Nat) : State :=
  let n := s.fld (regDie0 .logControl) 21 18
  let held := s.log.held
  let s := s.storeAll r mask v
  let base := if ringLog2Ok n then v else 0
  if base = 0 then { s with log := { s.log with base := 0, log2 := n, w := 0 } }
  else held.foldl State.logPut { s with log := { s.log with base := base, log2 := n, w := 0, held := [] } }

def State.writeSnapshotControl (s : State) (r : Reg) (mask v : Nat) : State :=
  let s := s.storeAll r mask v
  if bitOf v 0 ∧ !s.snap.busy then
    s.startSnapshot (if bitOf v 1 then some (s.rd (regDie0 .snapshotTime)) else none) none
  else s

def State.writeFreezeControl (s : State) (r : Reg) (mask v : Nat) : State :=
  let s := s.storeAll r mask v
  if bitOf v 0 then s.freezeAtNextPip else s

/-! ### Security and firmware (R490, R491, R505, R510) -/

/-- GO of the security mailbox; a reserved code ends at once. -/
def State.startService (s : State) (code : Nat) : State :=
  if 1 ≤ code ∧ code ≤ 0x0C then { s with sec := { s.sec with running := some code } }
  else s.endService (if s.sec.errorState then 4 else if s.sec.dead then 2 else 1) []

def State.writeSecCmd (s : State) (r : Reg) (mask v : Nat) : State :=
  if s.sec.running.isSome then s
  else
    let s := s.storeAll r mask v
    if bitOf v 8 then s.startService (bitsOf v 7 0) else s

/-- SEC_POLICY written by software is no longer the signed image's (R505). -/
def State.writeSecPolicy (s : State) (r : Reg) (mask v : Nat) : State :=
  let locked := s.lockOn r
  let s := s.storeAll r mask v
  if locked then s else { s with sec := { s.sec with policySigned := false } }

/-- R508 on an image from the host; `ok`: its digest and signature verify. -/
def State.imageAccepted (s : State) (img : List Byte) (len : Nat) (ok : Bool) : Bool :=
  u32 img 0 == 0x38574652 && u16 img 4 == 1 && u32 img 8 == len - 2048 && ok && decide (s.boot.fwFloor ≤ imageVersion img)

/-- GO of the firmware mailbox. Without a verdict on digest and signature, the verdict is free. -/
def State.fwGo (s : State) (ok : Option Bool) : State :=
  let ctl := regDie0 .fwMailboxControl
  let persist := s.fld ctl 1 1 == 1
  let len := s.rd (regDie0 .fwMailboxLength)
  if !s.boot.firmwareOn ∧ !s.boot.recovery then s
  else if len < 2048 ∨ 2048 + 2 ^ 24 < len then s.setFld ctl 4 3 2
  else
    let (good, s) := match ok with
      | some b => (b, s)
      | none => let f := s.free; (f.1 % 2 == 1, f.2)
    let img := s.hostRead (s.rd (regDie0 .fwMailboxAddr)) len
    if !s.imageAccepted img len good then s.setFld ctl 4 3 1
    else
      let s := s.setFld ctl 4 3 0
      let inRecovery := s.boot.recovery && !s.boot.firmwareOn
      let s := if inRecovery then s.startFirmware img true else s
      if persist ∨ !inRecovery then { s with boot := { s.boot with flashWriting := some img } } else s

def State.writeFwControl (s : State) (r : Reg) (mask v : Nat) (ok : Option Bool) : State :=
  let s := s.storeAll r mask v
  if bitOf v 0 then s.fwGo ok else s

/-- RESET_CONTROL: COLD wins over WARM (R530, R532). -/
def State.writeResetControl (s : State) (v : Nat) : State :=
  if bitsOf v 31 16 ≠ 0xA5A5 then s
  else if bitOf v 0 then s.coldReset 2
  else if bitOf v 1 then s.warmReset 4
  else s

/-! ### One register -/

/-- The bits of `mask` of a register written with `v`. -/
def State.writeReg (s : State) (r : Reg) (mask v : Nat) (ok : Option Bool) : State :=
  let u := r.unit
  if !s.writable r then s
  else
    match r.name with
    | .ctxControl => s.writeCtxControl r v
    | .doorbellBase => s.writeBase r (regCtx .ctxControl u) mask v
    | .nudge =>
      if s.fld (regCtx .ctxControl u) 0 0 = 1 then s.updCtx u fun x => { x with scanWanted := true } else s
    | .sqBase => s.writeBase r (sqConfig u r.idx) mask v
    | .sqConfig => s.writeSqConfig r v
    | .cqBase => s.writeBase r (cqConfig u r.idx) mask v
    | .cqConfig => s.writeCqConfig r v
    | .qcounterReset => if mask = 0 then s else (upTo 64).foldl (fun t q => if bitOf v q then t.clearQueueCounters u q else t) s
    | .bankOwner => s.ownerWrite u r.idx v
    | .accSlotOwner => s.ownerWrite u (24 + r.idx) v
    | .repairCmd => s.writeRepairCmd r mask v
    | .partHbm => s.writePartition r mask v
    | .partGddr => s.writePartition r mask v
    | .portControl => s.writePortControl r mask v
    | .timeControl => s.writeTimeControl r mask v
    | .timeSet => if mask = 0 then s else s.timeSetTo v
    | .nodeReg => s.writeNode r mask v
    | .exportRelease => if mask = 0 then s else s.writeExportRelease r v
    | .foreignRelease => if mask = 0 then s else s.writeForeignRelease r v
    | .stepFlags => s.writeStepFlags v
    | .faultRingBase => if mask = 0 then s else s.writeFaultRing r mask v
    | .freezeControl => s.writeFreezeControl r mask v
    | .snapshotControl => s.writeSnapshotControl r mask v
    | .logRingBase => if mask = 0 then s else s.writeLogRing r mask v
    | .secCmd => s.writeSecCmd r mask v
    | .secReqAddr => if s.sec.running.isSome then s else s.storeAll r mask v
    | .secRespAddr => if s.sec.running.isSome then s else s.storeAll r mask v
    | .secPolicy => s.writeSecPolicy r mask v
    | .secZeroise => if bitOf v 0 then s.zeroiseNow else s
    | .fwMailboxControl => s.writeFwControl r mask v ok
    | .resetControl => s.writeResetControl v
    | _ => s.storeAll r mask v

/-! ### BAR0 -/

/-- A word of the MSI-X table; a vector unmasked with its pending bit set leaves at once, in the HOLDOFF interval of its ring that
runs or in one that it begins (R266). -/
def State.writeMsix (s : State) (v k x : Nat) : State :=
  let (addr, data, masked) := s.vector v
  let put (t : State) (e : Nat × Nat × Bool) : State := { t with pcie := { t.pcie with table := t.pcie.table.set v e } }
  match k with
  | 0 => put s (addr / 2 ^ 32 * 2 ^ 32 + x, data, masked)
  | 1 => put s (addr % 2 ^ 32 + x * 2 ^ 32, data, masked)
  | 2 => put s (addr, x, masked)
  | _ =>
    let s := put s (addr, data, bitOf x 0)
    if !bitOf x 0 ∧ s.pcie.pba.contains v then
      (({ s with pcie := { s.pcie with pba := removeKey s.pcie.pba v } }).sendVector v).startHoldoff (v / 32) (v % 32)
    else s

/-- An aligned 4-byte write: a register, one half of a 64-bit register, or a word of the MSI-X table. -/
def State.write4 (s : State) (a v : Nat) (ok : Option Bool) : State :=
  match regAt a with
  | some r =>
    if r.name.info.bytes = 8 then
      let lo := 8 * (a - r.addr)
      s.writeReg r (r.name.info.halfMask lo) (v * 2 ^ lo) ok
    else s.writeReg r (2 ^ 32 - 1) v ok
  | none =>
    match msixAt a with
    | some (n, k) => if s.ready then s.writeMsix n k v else s
    | none => s

/-- An accepted write (R538). -/
def State.writeAt (s : State) (a size v : Nat) (ok : Option Bool) : State :=
  if size = 8 ∧ a % 8 = 0 then
    match (regAt a).filter fun (r : Reg) => r.name.info.bytes == 8 with
    | some r => s.writeReg r (2 ^ 64 - 1) (v % 2 ^ 64) ok
    | none => (s.write4 a (v % 2 ^ 32) ok).write4 (a + 4) (v / 2 ^ 32 % 2 ^ 32) ok
  else if size = 4 ∧ a % 4 = 0 then s.write4 a (v % 2 ^ 32) ok
  else s

/-- A write of BAR0: without a completer, refused (R500), or applied. -/
def State.barWrite (s : State) (secure : Bool) (a size v : Nat) (ok : Option Bool) : State :=
  if !s.answers ∨ 2 ^ 26 ≤ a then s
  else if s.refuses secure a then s.bump (regDie0 .ideRejects) 1
  else s.writeAt a size v ok

/-- A write of one register by the access of its own width; a register the map does not hold is none. -/
def State.writeOf (s : State) (secure : Bool) (r : Reg) (v : Nat) : State :=
  let i := r.name.info
  if r.unit < i.block.units ∧ r.idx < i.count then s.barWrite secure r.addr i.bytes v none else s

/-! ### The rows -/

/-- REGISTER_WRITE. -/
def execRegisterWrite (secure : Bool) (offset size value : Nat) (s : State) : Host.Outcome State Fault Refusal :=
  .next (s.barWrite secure offset size value none)

def execZeroiseNow (secure : Bool) (s : State) : Host.Outcome State Fault Refusal :=
  .next (s.writeOf secure (regDie0 .secZeroise) 1)

/-- FW_MAILBOX_GO, after the host's own stores. -/
def execFwMailboxGo (secure : Bool) (persist ok : Bool) (stores : HostStores) (s : State) : Host.Outcome State Fault Refusal :=
  .next ((s.hostStores stores).barWrite secure (regDie0 .fwMailboxControl).addr 4 (1 + 2 * b2n persist) (some ok))

/-- A write of REPAIR_CMD with an operation. -/
def State.repairRow (s : State) (secure : Bool) (op die stack channel pseudo : Nat) : State :=
  s.writeOf secure (regDie .repairCmd die) (op + stack % 2 * 8 + channel % 32 * 16 + pseudo % 2 * 512)

def execRepairQuery (secure : Bool) (die stack channel pseudo : Nat) (s : State) : Host.Outcome State Fault Refusal :=
  .next (s.repairRow secure 1 die stack channel pseudo)
def execSoftPpr (secure : Bool) (die stack channel pseudo : Nat) (s : State) : Host.Outcome State Fault Refusal :=
  .next (s.repairRow secure 2 die stack channel pseudo)
def execHardPpr (secure : Bool) (die stack channel pseudo : Nat) (s : State) : Host.Outcome State Fault Refusal :=
  .next (s.repairRow secure 3 die stack channel pseudo)

def execNudge (secure : Bool) (ctx value : Nat) (s : State) : Host.Outcome State Fault Refusal :=
  .next (s.writeOf secure (regCtx .nudge ctx) value)

/-- SQ_ENABLE, after the host's own stores: a write of SQ_CONFIG with ENABLE set. -/
def execSqEnable (secure : Bool) (ctx q value : Nat) (stores : HostStores) (s : State) : Host.Outcome State Fault Refusal :=
  let s := s.hostStores stores
  .next (if bitOf value 0 then s.writeOf secure (sqConfig ctx q) value else s)

def execSqDisable (secure : Bool) (ctx q value : Nat) (s : State) : Host.Outcome State Fault Refusal :=
  .next (if bitOf value 0 then s else s.writeOf secure (sqConfig ctx q) value)

def execCqEnable (secure : Bool) (ctx r value : Nat) (s : State) : Host.Outcome State Fault Refusal :=
  .next (if bitOf value 0 then s.writeOf secure (cqConfig ctx r) value else s)

def execCqDisable (secure : Bool) (ctx r value : Nat) (s : State) : Host.Outcome State Fault Refusal :=
  .next (if bitOf value 0 then s else s.writeOf secure (cqConfig ctx r) value)

/-- OWNER_REGISTER_WRITE: banks 0–23, then accumulator slots as 24–31. -/
def execOwnerRegisterWrite (secure : Bool) (cell bank value : Nat) (s : State) : Host.Outcome State Fault Refusal :=
  .next (s.writeOf secure (ownerReg cell bank) value)

def execPortEnable (secure : Bool) (port value : Nat) (s : State) : Host.Outcome State Fault Refusal :=
  .next (s.writeOf secure ⟨.portControl, port, 0⟩ value)

def execRekey (secure : Bool) (port value : Nat) (s : State) : Host.Outcome State Fault Refusal :=
  .next (if bitOf value 1 then s.writeOf secure ⟨.portControl, port, 0⟩ value else s)

def execTimeSet (secure : Bool) (value : Nat) (s : State) : Host.Outcome State Fault Refusal :=
  .next (s.writeOf secure (regDie0 .timeSet) value)

def execExportRelease (secure : Bool) (die value : Nat) (s : State) : Host.Outcome State Fault Refusal :=
  .next (s.writeOf secure (regDie .exportRelease die) value)

def execForeignRelease (secure : Bool) (die value : Nat) (s : State) : Host.Outcome State Fault Refusal :=
  .next (s.writeOf secure (regDie .foreignRelease die) value)

def execColdReset (secure : Bool) (key : Nat) (s : State) : Host.Outcome State Fault Refusal :=
  .next (s.writeOf secure (regDie0 .resetControl) (key % 65536 * 65536 + 1))

def execWarmReset (secure : Bool) (key : Nat) (s : State) : Host.Outcome State Fault Refusal :=
  .next (s.writeOf secure (regDie0 .resetControl) (key % 65536 * 65536 + 2))

/-- LOCK: a write of SETUP_LOCK. -/
def execLock (secure : Bool) (die value : Nat) (s : State) : Host.Outcome State Fault Refusal :=
  .next (s.writeOf secure (regDie .setupLock die) value)

def execQcounterReset (secure : Bool) (ctx value : Nat) (s : State) : Host.Outcome State Fault Refusal :=
  .next (s.writeOf secure (regCtx .qcounterReset ctx) value)

/-- FREEZE_NOW: a write of FREEZE_CONTROL with that bit set. -/
def execFreezeNow (secure : Bool) (value : Nat) (s : State) : Host.Outcome State Fault Refusal :=
  .next (if bitOf value 0 then s.writeOf secure (regDie0 .freezeControl) value else s)

/-- SNAPSHOT_TRIGGER: a write of SNAPSHOT_CONTROL with TRIGGER set. -/
def execSnapshotTrigger (secure : Bool) (value : Nat) (s : State) : Host.Outcome State Fault Refusal :=
  .next (if bitOf value 0 then s.writeOf secure (regDie0 .snapshotControl) value else s)

def execFaultRingBase (secure : Bool) (value : Nat) (s : State) : Host.Outcome State Fault Refusal :=
  .next (s.writeOf secure (regDie0 .faultRingBase) value)

def execLogRingBase (secure : Bool) (value : Nat) (s : State) : Host.Outcome State Fault Refusal :=
  .next (s.writeOf secure (regDie0 .logRingBase) value)

end Sys2Proof.Machine
end

