-- ==== Sys2Proof/Machine/Dispatch.lean ====
section
/-!
DEFINITION. Machine/Dispatch.lean: one arm per command.
-/
namespace Sys2Proof.Machine
open Sys2Proof

def exec (i : Instr) (s : State) : Host.Outcome State Fault Refusal :=
  match i with
  | .nop id => Sys2Proof.Machine.execNop id s
  | .descCreate id => Sys2Proof.Machine.execDescCreate id s
  | .descDestroy id => Sys2Proof.Machine.execDescDestroy id s
  | .allocSet id => Sys2Proof.Machine.execAllocSet id s
  | .allocClear id => Sys2Proof.Machine.execAllocClear id s
  | .product id => Sys2Proof.Machine.execProduct id s
  | .elementwise id => Sys2Proof.Machine.execElementwise id s
  | .reduce id => Sys2Proof.Machine.execReduce id s
  | .rowForward id => Sys2Proof.Machine.execRowForward id s
  | .rowBackward id => Sys2Proof.Machine.execRowBackward id s
  | .topiary id => Sys2Proof.Machine.execTopiary id s
  | .topiaryBufferWrite id => Sys2Proof.Machine.execTopiaryBufferWrite id s
  | .layout id => Sys2Proof.Machine.execLayout id s
  | .gather id => Sys2Proof.Machine.execGather id s
  | .scatter id => Sys2Proof.Machine.execScatter id s
  | .scatterAdd id => Sys2Proof.Machine.execScatterAdd id s
  | .dmaCopy id => Sys2Proof.Machine.execDmaCopy id s
  | .syncAdd id => Sys2Proof.Machine.execSyncAdd id s
  | .arrive ids => Sys2Proof.Machine.execArrive ids s
  | .watchWrite id => Sys2Proof.Machine.execWatchWrite id s
  | .watchAdd id => Sys2Proof.Machine.execWatchAdd id s
  | .syncRead id => Sys2Proof.Machine.execSyncRead id s
  | .syncMap id => Sys2Proof.Machine.execSyncMap id s
  | .syncUnmap id => Sys2Proof.Machine.execSyncUnmap id s
  | .topk id => Sys2Proof.Machine.execTopk id s
  | .dispatchSend id => Sys2Proof.Machine.execDispatchSend id s
  | .dispatchReceive id => Sys2Proof.Machine.execDispatchReceive id s
  | .combineReturn id => Sys2Proof.Machine.execCombineReturn id s
  | .combineSum id => Sys2Proof.Machine.execCombineSum id s
  | .batchCancel id => Sys2Proof.Machine.execBatchCancel id s
  | .batchGenerationAdvance die ctx tag => Sys2Proof.Machine.execBatchGenerationAdvance die ctx tag s
  | .fabricSend id => Sys2Proof.Machine.execFabricSend id s
  | .collective id => Sys2Proof.Machine.execCollective id s
  | .slotTableLoad id => Sys2Proof.Machine.execSlotTableLoad id s
  | .slotTableSwitch id => Sys2Proof.Machine.execSlotTableSwitch id s
  | .groupDefine id => Sys2Proof.Machine.execGroupDefine id s
  | .groupRetire id => Sys2Proof.Machine.execGroupRetire id s
  | .setCounters id => Sys2Proof.Machine.execSetCounters id s
  | .refresh id => Sys2Proof.Machine.execRefresh id s
  | .query id => Sys2Proof.Machine.execQuery id s
  | .stepOpen id => Sys2Proof.Machine.execStepOpen id s
  | .stepClose id => Sys2Proof.Machine.execStepClose id s
  | .vote id => Sys2Proof.Machine.execVote id s
  | .stepWait id => Sys2Proof.Machine.execStepWait id s
  | .participants id => Sys2Proof.Machine.execParticipants id s
  | .evaluateBegin id => Sys2Proof.Machine.execEvaluateBegin id s
  | .evaluateEnd id => Sys2Proof.Machine.execEvaluateEnd id s
  | .evalWindowExpiry => Sys2Proof.Machine.execEvalWindowExpiry s
  | .snap id => Sys2Proof.Machine.execSnap id s
  | .blocks id => Sys2Proof.Machine.execBlocks id s
  | .repair id => Sys2Proof.Machine.execRepair id s
  | .rollback id => Sys2Proof.Machine.execRollback id s
  | .freezeAt id => Sys2Proof.Machine.execFreezeAt id s
  | .thaw id => Sys2Proof.Machine.execThaw id s
  | .counterClear id => Sys2Proof.Machine.execCounterClear id s
  | .arm id => Sys2Proof.Machine.execArm id s
  | .disarm id => Sys2Proof.Machine.execDisarm id s
  | .snapshot id => Sys2Proof.Machine.execSnapshot id s
  | .groupForm id => Sys2Proof.Machine.execGroupForm id s
  | .dissolve id => Sys2Proof.Machine.execDissolve id s
  | .cellReturn id pass => Sys2Proof.Machine.execCellReturn id pass s
  | .cellFence id => Sys2Proof.Machine.execCellFence id s
  | .pageRetire id => Sys2Proof.Machine.execPageRetire id s
  | .getStatus => Sys2Proof.Machine.execGetStatus s
  | .getCerts => Sys2Proof.Machine.execGetCerts s
  | .attest => Sys2Proof.Machine.execAttest s
  | .sessionOpen => Sys2Proof.Machine.execSessionOpen s
  | .sessionRekey => Sys2Proof.Machine.execSessionRekey s
  | .sessionClose => Sys2Proof.Machine.execSessionClose s
  | .ownerChallenge => Sys2Proof.Machine.execOwnerChallenge s
  | .ownerAuth => Sys2Proof.Machine.execOwnerAuth s
  | .ownerEnrol => Sys2Proof.Machine.execOwnerEnrol s
  | .contextKeyNew => Sys2Proof.Machine.execContextKeyNew s
  | .contextKeyErase => Sys2Proof.Machine.execContextKeyErase s
  | .selfTest pass => Sys2Proof.Machine.execSelfTest pass s
  | .zeroise => Sys2Proof.Machine.execZeroise s
  | .decommission => Sys2Proof.Machine.execDecommission s
  | .zeroiseNow secure => Sys2Proof.Machine.execZeroiseNow secure s
  | .challengeExpiry => Sys2Proof.Machine.execChallengeExpiry s
  | .entropyTestFailure => Sys2Proof.Machine.execEntropyTestFailure s
  | .fwMailboxGo secure persist ok stores => Sys2Proof.Machine.execFwMailboxGo secure persist ok stores s
  | .flashWriteDone => Sys2Proof.Machine.execFlashWriteDone s
  | .repairQuery secure die stack channel pseudo => Sys2Proof.Machine.execRepairQuery secure die stack channel pseudo s
  | .softPpr secure die stack channel pseudo => Sys2Proof.Machine.execSoftPpr secure die stack channel pseudo s
  | .hardPpr secure die stack channel pseudo => Sys2Proof.Machine.execHardPpr secure die stack channel pseudo s
  | .repairOperationEnd die result spareRows => Sys2Proof.Machine.execRepairOperationEnd die result spareRows s
  | .nudge secure ctx value => Sys2Proof.Machine.execNudge secure ctx value s
  | .doorbellScan ctx stores => Sys2Proof.Machine.execDoorbellScan ctx stores s
  | .sqEnable secure ctx q value stores => Sys2Proof.Machine.execSqEnable secure ctx q value stores s
  | .sqDisable secure ctx q value => Sys2Proof.Machine.execSqDisable secure ctx q value s
  | .cqEnable secure ctx r value => Sys2Proof.Machine.execCqEnable secure ctx r value s
  | .cqDisable secure ctx r value => Sys2Proof.Machine.execCqDisable secure ctx r value s
  | .commandIssue ctx q => Sys2Proof.Machine.execCommandIssue ctx q s
  | .commandComplete id => Sys2Proof.Machine.execCommandComplete id s
  | .cqRecordRelease ctx r => Sys2Proof.Machine.execCqRecordRelease ctx r s
  | .holdoffExpiry ctx r => Sys2Proof.Machine.execHoldoffExpiry ctx r s
  | .cellDraw cell id => Sys2Proof.Machine.execCellDraw cell id s
  | .taskComplete cell id task => Sys2Proof.Machine.execTaskComplete cell id task s
  | .partialTileArrival id tile segment => Sys2Proof.Machine.execPartialTileArrival id tile segment s
  | .ownerRegisterWrite secure cell bank value => Sys2Proof.Machine.execOwnerRegisterWrite secure cell bank value s
  | .handoverScrubStart cell bank => Sys2Proof.Machine.execHandoverScrubStart cell bank s
  | .handoverDone cell bank => Sys2Proof.Machine.execHandoverDone cell bank s
  | .sramPatrolScrub cell word flips raced => Sys2Proof.Machine.execSramPatrolScrub cell word flips raced s
  | .commonsPatrolScrub die word flips raced => Sys2Proof.Machine.execCommonsPatrolScrub die word flips raced s
  | .memoryPatrolScrub word flips raced => Sys2Proof.Machine.execMemoryPatrolScrub word flips raced s
  | .tokenCredit die part ctrl ns => Sys2Proof.Machine.execTokenCredit die part ctrl ns s
  | .watchFire die entry => Sys2Proof.Machine.execWatchFire die entry s
  | .counterUpdate die msgs => Sys2Proof.Machine.execCounterUpdate die msgs s
  | .watchRegistrationResume die k => Sys2Proof.Machine.execWatchRegistrationResume die k s
  | .frameStart => Sys2Proof.Machine.execFrameStart s
  | .slotTransmit port slot => Sys2Proof.Machine.execSlotTransmit port slot s
  | .slotPresent port slot rx => Sys2Proof.Machine.execSlotPresent port slot rx s
  | .signalApply flow epoch => Sys2Proof.Machine.execSignalApply flow epoch s
  | .stagedBlockApply die k => Sys2Proof.Machine.execStagedBlockApply die k s
  | .controlSlotReceive port rx tRx => Sys2Proof.Machine.execControlSlotReceive port rx tRx s
  | .retentionEnd => Sys2Proof.Machine.execRetentionEnd s
  | .flowLoss flow epoch frame => Sys2Proof.Machine.execFlowLoss flow epoch frame s
  | .departureCutoff => Sys2Proof.Machine.execDepartureCutoff s
  | .tableSwitch => Sys2Proof.Machine.execTableSwitch s
  | .failoverSwitch => Sys2Proof.Machine.execFailoverSwitch s
  | .retiredTableDiscard => Sys2Proof.Machine.execRetiredTableDiscard s
  | .batchDeadline id => Sys2Proof.Machine.execBatchDeadline id s
  | .portEnable secure port value => Sys2Proof.Machine.execPortEnable secure port value s
  | .linkTrained port => Sys2Proof.Machine.execLinkTrained port s
  | .frameAligned port => Sys2Proof.Machine.execFrameAligned port s
  | .peerAuthenticated port peerNode peerPort chainOk signatureOk => Sys2Proof.Machine.execPeerAuthenticated port peerNode peerPort chainOk signatureOk s
  | .delayMeasured port delay => Sys2Proof.Machine.execDelayMeasured port delay s
  | .bringUpTimeout port => Sys2Proof.Machine.execBringUpTimeout port s
  | .retryInterval port => Sys2Proof.Machine.execRetryInterval port s
  | .portDirectionFailure port => Sys2Proof.Machine.execPortDirectionFailure port s
  | .rekey secure port value => Sys2Proof.Machine.execRekey secure port value s
  | .rekeyStart port => Sys2Proof.Machine.execRekeyStart port s
  | .keySwitch port => Sys2Proof.Machine.execKeySwitch port s
  | .previousKeyExpiry port => Sys2Proof.Machine.execPreviousKeyExpiry port s
  | .nonceExhausted port => Sys2Proof.Machine.execNonceExhausted port s
  | .roleChange => Sys2Proof.Machine.execRoleChange s
  | .timeSet secure value => Sys2Proof.Machine.execTimeSet secure value s
  | .backupSwitch => Sys2Proof.Machine.execBackupSwitch s
  | .lockLoss => Sys2Proof.Machine.execLockLoss s
  | .stepCommit => Sys2Proof.Machine.execStepCommit s
  | .stepSkip => Sys2Proof.Machine.execStepSkip s
  | .recordDrain die => Sys2Proof.Machine.execRecordDrain die s
  | .consensusStall => Sys2Proof.Machine.execConsensusStall s
  | .exportRelease secure die value => Sys2Proof.Machine.execExportRelease secure die value s
  | .foreignRelease secure die value => Sys2Proof.Machine.execForeignRelease secure die value s
  | .unitError u id word own => Sys2Proof.Machine.execUnitError u id word own s
  | .targetedSelfTestEnd u pass => Sys2Proof.Machine.execTargetedSelfTestEnd u pass s
  | .drainMarkerArrival cell => Sys2Proof.Machine.execDrainMarkerArrival cell s
  | .dieLoss die => Sys2Proof.Machine.execDieLoss die s
  | .pcieLinkLoss => Sys2Proof.Machine.execPcieLinkLoss s
  | .stewardWatchdogMiss die => Sys2Proof.Machine.execStewardWatchdogMiss die s
  | .controlLoopTick temps avgPower power millivolts estimate => Sys2Proof.Machine.execControlLoopTick temps avgPower power millivolts estimate s
  | .operatingPointChange => Sys2Proof.Machine.execOperatingPointChange s
  | .powerSample watts avg10ms above5kFor1ms => Sys2Proof.Machine.execPowerSample watts avg10ms above5kFor1ms s
  | .thermalThrottle temp16 => Sys2Proof.Machine.execThermalThrottle temp16 s
  | .thermalTrip temp16 => Sys2Proof.Machine.execThermalTrip temp16 s
  | .droopStretch die => Sys2Proof.Machine.execDroopStretch die s
  | .overvoltage die => Sys2Proof.Machine.execOvervoltage die s
  | .powerApplied => Sys2Proof.Machine.execPowerApplied s
  | .coldStageEnd r => Sys2Proof.Machine.execColdStageEnd r s
  | .modReset us => Sys2Proof.Machine.execModReset us s
  | .perst => Sys2Proof.Machine.execPerst s
  | .perstDeassert => Sys2Proof.Machine.execPerstDeassert s
  | .functionReset flr => Sys2Proof.Machine.execFunctionReset flr s
  | .vinFault millivolts us => Sys2Proof.Machine.execVinFault millivolts us s
  | .coldReset secure key => Sys2Proof.Machine.execColdReset secure key s
  | .warmReset secure key => Sys2Proof.Machine.execWarmReset secure key s
  | .lock secure die value => Sys2Proof.Machine.execLock secure die value s
  | .qcounterReset secure ctx value => Sys2Proof.Machine.execQcounterReset secure ctx value s
  | .freezeNow secure value => Sys2Proof.Machine.execFreezeNow secure value s
  | .freezeEffect => Sys2Proof.Machine.execFreezeEffect s
  | .snapshotTrigger secure value => Sys2Proof.Machine.execSnapshotTrigger secure value s
  | .snapshotCapture => Sys2Proof.Machine.execSnapshotCapture s
  | .faultRingBase secure value => Sys2Proof.Machine.execFaultRingBase secure value s
  | .logRingBase secure value => Sys2Proof.Machine.execLogRingBase secure value s
  | .registerWrite secure offset size value => Sys2Proof.Machine.execRegisterWrite secure offset size value s
  | .registerRead secure offset size => Sys2Proof.Machine.execRegisterRead secure offset size s
  | .powerStageFault => Sys2Proof.Machine.execPowerStageFault s
  | .throttleRelease temp16 => Sys2Proof.Machine.execThrottleRelease temp16 s
  | .stretchEnd => Sys2Proof.Machine.execStretchEnd s
  | .modResetRelease => Sys2Proof.Machine.execModResetRelease s
  | .suppliesOff millivolts us => Sys2Proof.Machine.execSuppliesOff millivolts us s

end Sys2Proof.Machine
end

