-- ==== Sys2Proof/Machine/Tick.lean ====
section
/-!
DEFINITION. Machine/Tick.lean: the passing of fabric time and of the package clock (R14, R66, R334, R517, R522).
-/
namespace Sys2Proof.Machine

/-- CCLK edges in 64ths per pip: `(20 + n) / 32` at operating point `n`, half of them under the droop stretch, none while
the supplies are off. -/
def State.edgeRate (s : State) : Nat :=
  if !s.power.supplies then 0 else if s.power.stretching then 20 + s.power.point else 2 * (20 + s.power.point)

/-- The event counters of one die after `edges` edges and one pip (Table 19-1, kind 13). -/
def State.tickDie (edges : Nat) (s : State) (d : Nat) : State :=
  if !(s.die d).inService then s
  else
    let s := (s.pmc d 13 0 1 none edges).pmc d 13 0 3 none 1
    if s.power.stretching ∧ s.power.drooping.contains d then s.pmc d 13 0 2 none edges else s

/-- The fabric-time counter at its next edge: a loaded value, or 1 more; it stands while power is removed or MOD_RESET# holds
the part in cold reset (R334, R342). -/
def State.nextPip (s : State) : State :=
  if s.power.removed ∨ !s.power.modResetHigh then s
  else match s.time.load with
    | some v => { s with time := { s.time with pips := BitVec.ofNat 64 v, frameDone := v % 2 ^ 64 / 1024, load := none } }
    | none => { s with time := { s.time with pips := s.time.pips + 1 } }

/-- One pip of fabric time. -/
def State.tick (s : State) : State :=
  let p := s.time.phase + s.edgeRate
  let edges := p / 64
  let s := s.nextPip
  let s := { s with
    time := { s.time with cclk := s.time.cclk + BitVec.ofNat 64 edges, phase := p % 64 },
    power := { s.power with
      stretchedEdges := if s.power.stretching then s.power.stretchedEdges + edges else s.power.stretchedEdges } }
  (upTo 8).foldl (State.tickDie edges) s

end Sys2Proof.Machine
end

