-- ==== Sys2Proof/Safety.lean ====
section
/-!
DEFINITION. Safety.lean: the terms in which claims are stated: the invariant of a run, what a step may never undo, what a command
leaves alone, and when a command, a register write or a security service runs.
-/
namespace Sys2Proof.Machine

/-- Both memories stand in their canonical form. -/
def State.memOk (s : State) : Prop := Memory.wf s.mem.cells = true ∧ Memory.wf s.mem.host = true

/-- Neither the operating point nor the one the loops request exceeds the fused maximum (R24, R517). -/
def State.pointsOk (s : State) : Prop := s.power.point ≤ 60 ∧ s.power.fwPoint ≤ 60

/-- Registers are listed once each, in address order. -/
def State.regsOk (s : State) : Prop := s.regs.Pairwise fun a b => a.1 < b.1

/-- What every step keeps. -/
structure State.Inv (s : State) : Prop where
  mem : s.memOk
  regs : s.regsOk
  points : s.pointsOk

/-- What the fuses record from `s` to `t` (R493, R504, R509, R515): the kill fuse, the floor, the signed-setup fuse and the
owner slots only ever gain, and the serial number is as it was. -/
structure State.FusesKept (s t : State) : Prop where
  killed : s.boot.killed = true → t.boot.killed = true
  floor : s.boot.fwFloor ≤ t.boot.fwFloor
  signedSetup : s.boot.signedRequired = true → t.boot.signedRequired = true
  owners : s.sec.ownerSlots <+: t.sec.ownerSlots
  serial : t.boot.serial = s.boot.serial

/-- The cell groups as they were formed, whose turn it is at their draw lists apart (R256). -/
def State.formed (s : State) : Tab Group := s.groups.mapVals fun _ g => { g with served := [] }

/-- The fabric, writes that wait for a handover apart (R81). -/
def State.fabricSet (s : State) : FabricSt := { s.fabric with waiters := [] }

/-- What commands on tensors, descriptors, counters and watches leave alone: time, start-up, power, security, the steps, the
updaters, the cell groups as formed and the fabric. -/
structure State.SamePlane (s t : State) : Prop where
  time : t.time = s.time
  boot : t.boot = s.boot
  power : t.power = s.power
  sec : t.sec = s.sec
  step : t.step = s.step
  upd : t.upd = s.upd
  groups : t.formed = s.formed
  fabric : t.fabricSet = s.fabricSet

/-- What a command that runs whole in its own row leaves alone besides: which commands are in flight, the cells and dies with
their tasks, counters and watches, held tiles, messages in flight, the snapshot and the tensor watches. -/
structure State.SameShell (s t : State) : Prop where
  ids : t.cmds.map (·.id) = s.cmds.map (·.id)
  cells : t.cells = s.cells
  dies : t.dies = s.dies
  held : t.held = s.held
  msgs : t.msgs = s.msgs
  snap : t.snap = s.snap
  twatches : t.twatches = s.twatches
  gradStep : t.gradStep = s.gradStep

/-- Commands that leave alone what `SamePlane` lists. -/
def onPlane : Instr → Bool
  | .nop _ | .descCreate _ | .descDestroy _ | .allocSet _ | .allocClear _ | .product _ | .elementwise _ | .reduce _
  | .rowForward _ | .rowBackward _ | .topiary _ | .topiaryBufferWrite _ | .layout _ | .gather _ | .scatter _ | .scatterAdd _
  | .dmaCopy _ | .syncAdd _ | .arrive _ | .watchWrite _ | .watchAdd _ | .syncRead _ | .syncMap _ | .syncUnmap _ | .topk _
  | .query _ | .stepWait _ | .blocks _ | .freezeAt _ | .thaw _ | .counterClear _ | .arm _ | .disarm _ | .snapshot _
  | .cellReturn _ _ | .pageRetire _ | .repairOperationEnd _ _ _ | .doorbellScan _ _ | .commandIssue _ _ | .cqRecordRelease _ _
  | .holdoffExpiry _ _ | .cellDraw _ _ | .taskComplete _ _ _ | .partialTileArrival _ _ _ | .handoverScrubStart _ _
  | .commonsPatrolScrub _ _ _ _ | .memoryPatrolScrub _ _ _ | .tokenCredit _ _ _ _ | .watchFire _ _
  | .counterUpdate _ _ | .watchRegistrationResume _ _ | .batchDeadline _ | .drainMarkerArrival _ | .perstDeassert
  | .freezeEffect | .snapshotCapture | .registerRead _ _ _ => true
  | _ => false

/-- Commands that leave alone what `SameShell` lists too. -/
def inShell : Instr → Bool
  | .nop _ | .descCreate _ | .descDestroy _ | .allocSet _ | .allocClear _ | .elementwise _ | .reduce _ | .rowForward _
  | .rowBackward _ | .topiary _ | .topiaryBufferWrite _ | .layout _ | .gather _ | .scatter _ | .scatterAdd _ | .dmaCopy _
  | .syncRead _ | .topk _ | .query _ | .stepWait _ | .blocks _ | .freezeAt _ | .thaw _ | .counterClear _ | .pageRetire _
  | .repairOperationEnd _ _ _ | .cqRecordRelease _ _ | .holdoffExpiry _ _ | .commonsPatrolScrub _ _ _ _
  | .memoryPatrolScrub _ _ _ | .tokenCredit _ _ _ _ | .batchDeadline _ | .perstDeassert | .freezeEffect | .registerRead _ _ _ => true
  | _ => false

/-- Command `c`, of opcode `op`, is in flight under `id` and has not ended. -/
structure State.Runs (s : State) (id : CmdId) (op : Nat) (c : Cmd) : Prop where
  found : s.cmd? id = some c
  live : c.ending = none
  opcode : hOpcode c.desc = op

/-- The command under `id` is in flight and has ended as `e` says: COMMAND_COMPLETE will report it. -/
def State.EndedAs (s : State) (id : CmdId) (e : Ending) : Prop := ∃ c, s.cmd? id = some c ∧ c.ending = some e

/-- The command under `id` is in flight and has ended. -/
def State.Ended (s : State) (id : CmdId) : Prop := ∃ e, s.EndedAs id e

/-- No bank of any cell is being handed over: no access waits (R81). -/
def State.Calm (s : State) : Prop := ∀ e ∈ s.cells, e.2.handovers = []

/-- A request for BAR0 offset `a` reaches the registers: the part answers (R559) and does not refuse it (R500). -/
structure State.Hears (s : State) (secure : Bool) (a : Nat) : Prop where
  answered : s.answers = true
  allowed : s.refuses secure a = false
  inside : a < 2 ^ 26

/-- No register, and nothing of the MSI-X structures, stands at the aligned word of offset `a` (R19, R265). -/
structure Hole (a : Nat) : Prop where
  noReg : regAt a = none
  noVector : msixAt a = none
  noPending : ¬(msixPba ≤ a ∧ a < msixPba + 256)

/-- Registers whose write does no more than store their fields. -/
def RegName.plain : RegName → Bool
  | .ctxControl | .doorbellBase | .nudge | .sqBase | .sqConfig | .cqBase | .cqConfig | .qcounterReset | .bankOwner | .accSlotOwner
  | .repairCmd | .partHbm | .partGddr | .portControl | .timeControl | .timeSet | .nodeReg | .exportRelease | .foreignRelease
  | .stepFlags | .faultRingBase | .freezeControl | .snapshotControl | .logRingBase | .secCmd | .secReqAddr | .secRespAddr
  | .secPolicy | .secZeroise | .fwMailboxControl | .resetControl => false
  | _ => true

/-- A write of a register that the part answers (R559), does not refuse (R500) and takes (R526, R527, R541, R542). -/
structure State.Accepts (s : State) (secure : Bool) (r : Reg) : Prop where
  exists' : r.inMap
  answered : s.answers = true
  allowed : s.refuses secure r.addr = false
  taken : s.writable r = true

/-- The mailbox runs service `code`, whose request lies in host memory with `n` payload bytes `req`, and neither the error
state (R503) nor the kill fuse (R504) stops it. -/
structure State.Serves (s : State) (code n : Nat) (req : List Byte) : Prop where
  running : s.sec.running = some code
  link : s.pcie.linkUp = true
  sound : s.sec.errorState = false
  alive : s.sec.dead = false
  length : leValue (s.hostRead (s.rd (regDie0 .secReqAddr)) 4) = n
  request : s.hostRead (s.rd (regDie0 .secReqAddr) + 4) n = req

end Sys2Proof.Machine
end

