-- ==== Sys2Proof/Certificates/Slice0/Obligations.lean ====
section
/-!
DEFINITION. Certificates/Slice0/Obligations.lean: the statements for the provers, one definition each. Statements about the whole
machine stand first, then those of each family of commands, in the order of the opcode table's families.
-/
open Sys2Proof Sys2Proof.Machine

/-- The command at the front of the queue runs on the machine with the queue's rest, and every step of this model answers a next state. -/
def Obligations.StepRunsTheFrontCommand : Prop :=
  ∀ (s : State),
    (∀ (c : Instr), step { s with pending := c :: s.pending } = exec c s)
    ∧ (∀ (c : Instr) (rest : List Instr), s.pending = c :: rest → step s = exec c { s with pending := rest })
    ∧ ∃ t, step s = .next t

/-- R14, R66, R334, R342, R517 and R522, and log entry 9: with no command waiting, one pip of fabric time passes. Global time
advances by 1, or takes the value that a TIME_SET loaded, and stands while power is removed or MOD_RESET# is held low; CCLK
advances by (20 + n) / 32 edges at operating point n, half of them under the droop stretch, none while the supplies are off; only
event counters change besides, and none of them while they are frozen. (That a step on an empty queue is one pip is this model's
choice.) -/
def Obligations.AnEmptyQueueLetsAPipPass : Prop :=
  ∀ (s : State), s.pending = [] →
    let rate := if s.power.supplies = false then 0 else if s.power.stretching then 20 + s.power.point else 2 * (20 + s.power.point)
    let held := s.power.removed || !s.power.modResetHigh
    ∃ t, step s = .next t
      ∧ (held = true → t.time.pips = s.time.pips ∧ t.time.load = s.time.load ∧ t.time.frameDone = s.time.frameDone)
      ∧ (held = false → s.time.load = none →
          t.time.pips = s.time.pips + 1 ∧ t.time.load = none ∧ t.time.frameDone = s.time.frameDone)
      ∧ (∀ v, held = false → s.time.load = some v →
          t.time.pips = BitVec.ofNat 64 v ∧ t.time.load = none ∧ t.time.frameDone = v % 2 ^ 64 / 1024)
      ∧ t.time.cclk = s.time.cclk + BitVec.ofNat 64 ((s.time.phase + rate) / 64) ∧ t.time.phase = (s.time.phase + rate) % 64
      ∧ { t.time with pips := s.time.pips, cclk := s.time.cclk, phase := s.time.phase, load := s.time.load,
                      frameDone := s.time.frameDone } = s.time
      ∧ { t.power with stretchedEdges := s.power.stretchedEdges } = s.power
      ∧ { t with time := s.time, power := s.power, regs := s.regs } = s
      ∧ (s.freeze.frozen = true → t.regs = s.regs)
      ∧ (∀ q : Reg, q.inMap → s.Inv → q.name ≠ .pmcValue → t.rd q = s.rd q)

/-- Every step keeps both memories in their canonical form, the registers listed once each in address order, and the operating points
within the fused maximum (R24, R517). -/
def Obligations.EveryStepKeepsTheInvariant : Prop := ∀ (s t : State), s.Inv → step s = .next t → t.Inv

/-- The state after reset: the invariant holds, nothing waits and no command is in flight, start-up stands before its first stage, no
memory is listed and every register holds the default of its fields (CTX_INFO and DIE_INFO with their own number). (What the spec gives no reset value holds the value of the log
entries.) -/
def Obligations.ResetStateHoldsTheDefaults : Prop :=
  State.reset.Inv ∧ State.reset.pending = [] ∧ State.reset.cmds = [] ∧ State.reset.boot.stage = .power ∧ State.reset.ready = false
    ∧ State.reset.mem.cells = [] ∧ State.reset.mem.host = [] ∧ State.reset.time.role = .free ∧ State.reset.time.locked = false
    ∧ State.reset.freeze.frozen = false ∧ State.reset.sec.session = false ∧ State.reset.power.point = 28
    ∧ (∀ c, State.reset.rd (regCtx .ctxInfo c) = 1 + 16 * c) ∧ (∀ d, State.reset.rd (regDie .dieInfo d) = d + 2 ^ 8 + 0x7E08 * 2 ^ 16)
    ∧ ∀ (r : Reg) (f : RegField), r.name ≠ .dieInfo → r.name ≠ .ctxInfo → f ∈ r.name.info.fields → r.inMap →
        ∀ i, f.lo ≤ i → i ≤ f.hi → (State.reset.rd r).testBit i = f.dflt.testBit (i - f.lo)

/-- R493, R504, R509, R515 and R516: what the fuses record is never undone. Whatever a step does, the kill fuse and the signed-setup fuse
stay blown, the firmware floor does not fall, owner slots only fill, and the serial number is as it was. -/
def Obligations.FusesOnlyGain : Prop := ∀ (s t : State), step s = .next t → s.FusesKept t

/-- A command leaves the queue of waiting commands alone. Commands on tensors, descriptors, counters and watches leave time, start-up,
power, security, the steps, the updaters, the cell groups as formed (whose turn it is at their draw lists apart) and the fabric (writes
that wait for a handover apart) alone; those that run whole in their own row leave the commands in flight, the cells and dies, held
tiles, messages, the snapshot and the tensor watches alone too. -/
def Obligations.CommandsLeaveAloneWhatTheyDoNotName : Prop :=
  ∀ (c : Instr) (s t : State), exec c s = .next t →
    t.pending = s.pending ∧ (onPlane c = true → s.SamePlane t) ∧ (inShell c = true → s.SameShell t)

/-- R18. A 64-bit register is read whole by one 8-byte access; a 4-byte read of its low half latches the high half, which the
next 4-byte read of the high half returns, whatever happened in between that left the latch alone. -/
def Obligations.SixtyFourBitReadsAreWhole : Prop :=
  ∀ (r : Reg), r.inMap → (r.name.info.bytes = 4 ∨ r.name.info.bytes = 8) ∧
    (r.name.info.bytes = 8 → ∀ (s : State) (secure : Bool), s.Hears secure r.addr → s.readable r = true →
      (∃ t, exec (.registerRead secure r.addr 8) s = .next t ∧ t.pcie.lastRead = some (s.live r) ∧ { t with pcie := s.pcie } = s) ∧
      ∃ u, exec (.registerRead secure r.addr 4) s = .next u ∧ u.pcie.lastRead = some (s.live r % 2 ^ 32)
        ∧ { u with pcie := s.pcie } = s
        ∧ ∀ (v : State) (secure' : Bool), v.pcie.latch.get? r.addr = u.pcie.latch.get? r.addr → v.Hears secure' (r.addr + 4) →
            v.readable r = true →
            ∃ w, exec (.registerRead secure' (r.addr + 4) 4) v = .next w ∧ w.pcie.lastRead = some (s.live r / 2 ^ 32))

/-- R19. An offset to which no register is assigned reads as 0 and takes no write. -/
def Obligations.UnassignedOffsetsReadZero : Prop :=
  ∀ (s : State) (secure : Bool) (a size value : Nat), (size = 1 ∨ size = 2 ∨ size = 4 ∨ size = 8) → a % size = 0 →
    s.Hears secure a → Hole (a / 4 * 4) → Hole ((a + size - 1) / 4 * 4) →
    exec (.registerRead secure a size) s = .next { s with pcie := { s.pcie with lastRead := some 0 } }
      ∧ exec (.registerWrite secure a size value) s = .next s

/-- R539. A 4-byte write to either half of a 64-bit field of access RW, RWL or WO changes nothing. -/
def Obligations.HalfWritesAreIgnored : Prop :=
  ∀ (s : State) (secure : Bool) (r : Reg) (acc : Access) (dflt half value : Nat), s.Inv → r.inMap →
    r.name.info.fields = [⟨63, 0, acc, dflt⟩] → (acc = .rw ∨ acc = .rwl ∨ acc = .wo) → (half = 0 ∨ half = 4) →
    s.Hears secure (r.addr + half) →
    ∃ t, exec (.registerWrite secure (r.addr + half) 4 value) s = .next t ∧ { t with regs := s.regs } = s
      ∧ ∀ q : Reg, q.inMap → t.rd q = s.rd q

/-- Table 0-2 and R543, over the registers whose write only stores fields: RW takes the value written, RWL too while the die's
lock is clear, W1C clears the bits written as 1, RO, ROS and WO keep what they hold; the lock's refusal is counted. -/
def Obligations.PlainWritesStoreFields : Prop :=
  ∀ (s : State) (secure : Bool) (r : Reg) (value : Nat), s.Inv → r.name.plain = true → s.Accepts secure r →
    value < 2 ^ (8 * r.name.info.bytes) →
    let locks := s.lockOn r && r.name.info.fields.any fun f => f.acc == .rwl
    let count := regDie .lockedWrites (r.die?.getD 0)
    ∃ t, exec (.registerWrite secure r.addr r.name.info.bytes value) s = .next t
      ∧ (∀ f ∈ r.name.info.fields, ∀ i, f.lo ≤ i → i ≤ f.hi → (t.rd r).testBit i =
          match f.acc with
          | .rw => value.testBit i
          | .rwl => if s.lockOn r then (s.rd r).testBit i else value.testBit i
          | .w1c => (s.rd r).testBit i && !value.testBit i
          | _ => (s.rd r).testBit i)
      ∧ (∀ q : Reg, q.inMap → q ≠ r → q ≠ count → t.rd q = s.rd q)
      ∧ (r ≠ count → t.rd count = if locks then (s.rd count + 1) % 2 ^ 64 else s.rd count)
      ∧ { t with regs := s.regs } = s

/-- R500 and R559. A refused request adds 1 to IDE_REJECTS; a refused read carries no data and a refused write is dropped. A request
that nothing answers changes no register.
R526, R527, R541 and R542. Before READY only the firmware mailbox, RESET_CONTROL and, once the self-tests have passed, the
security mailbox take writes; in READY every write to the block of a die out of service is ignored. -/
def Obligations.RefusedAndUnwritableRequestsKeepRegisters : Prop :=
  (∀ (s : State) (secure : Bool) (a size value : Nat),
    (s.answers = true → a < 2 ^ 26 → s.refuses secure a = true →
      (∃ t, exec (.registerRead secure a size) s = .next t ∧ t.pcie.lastRead = none ∧ t.regs = (s.bump (regDie0 .ideRejects) 1).regs
        ∧ { t with regs := s.regs, pcie := s.pcie } = s)
      ∧ exec (.registerWrite secure a size value) s = .next (s.bump (regDie0 .ideRejects) 1))
    ∧ (s.answers = false →
      exec (.registerRead secure a size) s = .next { s with pcie := { s.pcie with lastRead := none } }
        ∧ exec (.registerWrite secure a size value) s = .next s))
  ∧ (∀ (s : State) (secure : Bool) (r : Reg) (value : Nat), r.inMap → s.Hears secure r.addr →
    (s.ready = true → (∃ d, r.die? = some d ∧ d ≠ 0 ∧ (s.die d).inService = false) →
      exec (.registerWrite secure r.addr r.name.info.bytes value) s = .next s)
    ∧ (s.ready = false →
        r.name ∉ [RegName.fwMailboxAddr, .fwMailboxControl, .fwMailboxLength, .resetControl, .secCmd, .secReqAddr, .secRespAddr] →
        exec (.registerWrite secure r.addr r.name.info.bytes value) s = .next s))

/-- R244. A write of 1 to ENABLE of a ring whose LOG2_SIZE is written outside 4–16 leaves ENABLE and ENABLED as they were, keeps the
LOG2_SIZE written, and reads and writes nothing of the ring. -/
def Obligations.RingSizeOutOfRangeIsIgnored : Prop :=
  ∀ (s : State) (secure : Bool) (c k value : Nat) (stores : HostStores), s.Inv → s.ready = true →
    value < 2 ^ 32 → bitOf value 0 = true → (bitsOf value 5 1 < 4 ∨ 16 < bitsOf value 5 1) →
    (s.Accepts secure (sqConfig c k) → bitOf (s.rd (sqConfig c k)) 0 = false → bitOf (s.rd (sqConfig c k)) 29 = false →
      ∃ t, exec (.sqEnable secure c k value stores) s = .next t
        ∧ bitOf (t.rd (sqConfig c k)) 0 = false ∧ bitOf (t.rd (sqConfig c k)) 29 = false
        ∧ bitsOf (t.rd (sqConfig c k)) 5 1 = bitsOf value 5 1
        ∧ { t with regs := s.regs } = s.hostStores stores)
    ∧ (s.Accepts secure (cqConfig c k) → bitOf (s.rd (cqConfig c k)) 0 = false → bitOf (s.rd (cqConfig c k)) 31 = false →
      ∃ t, exec (.cqEnable secure c k value) s = .next t
        ∧ bitOf (t.rd (cqConfig c k)) 0 = false ∧ bitOf (t.rd (cqConfig c k)) 31 = false
        ∧ bitsOf (t.rd (cqConfig c k)) 5 1 = bitsOf value 5 1
        ∧ { t with regs := s.regs } = s)

/-- R243, R246 and R472. Enabling a submission queue takes its fields, reads the TAIL of its doorbell line as head and last-seen
tail, writes it to HEAD, sets ENABLED and clears the queue counters; nothing else of host memory or of any queue changes.
R243 and R263. Enabling a completion ring takes its fields, starts its write position at 0 and sets ENABLED. -/
def Obligations.EnablingARingTakesItsFields : Prop :=
  (∀ (s : State) (secure : Bool) (c q value : Nat) (stores : HostStores), s.Inv → s.ready = true →
    s.Accepts secure (sqConfig c q) → value < 2 ^ 32 → bitOf value 0 = true → ringSizeOk value = true →
    bitOf (s.rd (sqConfig c q)) 0 = false →
    let line := s.rd (regCtx .doorbellBase c) + 64 * q
    let tail := leValue ((s.hostStores stores).hostRead line 8)
    ∃ t, exec (.sqEnable secure c q value stores) s = .next t
      ∧ t.queue c q = { base := s.rd ⟨.sqBase, c, q⟩, log2 := bitsOf value 5 1, deferrable := bitOf value 6, prio := bitsOf value 8 7,
                        cq := bitsOf value 13 9, group := bitsOf value 21 14, head := tail, seenTail := tail, fetched := [],
                        closing := false }
      ∧ (∀ c' q', (c' ≠ c ∨ q' ≠ q) → t.queue c' q' = s.queue c' q')
      ∧ bitOf (t.rd (sqConfig c q)) 0 = true ∧ bitOf (t.rd (sqConfig c q)) 29 = true
      ∧ t.hostRead (line + 8) 8 = leBytes 8 tail
      ∧ (∀ a, a < line + 8 ∨ line + 16 ≤ a → memGet t.mem.host a = memGet (s.hostStores stores).mem.host a)
      ∧ (∀ n, n ∈ [RegName.qcBytesRead, .qcBytesWritten, .qcMac, .qcStall] → t.rd ⟨n, c, q⟩ = 0)
      ∧ { t with regs := s.regs, ctxs := s.ctxs, mem := s.mem } = s)
  ∧ (∀ (s : State) (secure : Bool) (c k value : Nat), s.Inv → s.ready = true →
    s.Accepts secure (cqConfig c k) → value < 2 ^ 32 → bitOf value 0 = true → ringSizeOk value = true →
    bitOf (s.rd (cqConfig c k)) 0 = false →
    ∃ t, exec (.cqEnable secure c k value) s = .next t
      ∧ t.cq c k = { s.cq c k with base := s.rd ⟨.cqBase, c, k⟩, log2 := bitsOf value 5 1, intAll := bitOf value 6,
                                   holdoff := bitsOf value 14 7, w := 0, cqHead := 0 }
      ∧ (∀ c' k', (c' ≠ c ∨ k' ≠ k) → t.cq c' k' = s.cq c' k')
      ∧ bitOf (t.rd (cqConfig c k)) 0 = true ∧ bitOf (t.rd (cqConfig c k)) 31 = true
      ∧ { t with regs := s.regs, ctxs := s.ctxs } = s)

/-- R267. Clearing a queue's ENABLE completes its fetched commands with ABORTED, in position order; a ring's ENABLE is cleared
unless an enabled queue names the ring or records wait for it. -/
def Obligations.DisablingAbortsFetchedCommands : Prop :=
  ∀ (s : State) (secure : Bool) (c k value : Nat), s.Inv → s.ready = true → value < 2 ^ 32 → bitOf value 0 = false →
    (s.Accepts secure (sqConfig c k) → bitOf (s.rd (sqConfig c k)) 0 = true →
      ∃ t, exec (.sqDisable secure c k value) s = .next t
        ∧ bitOf (t.rd (sqConfig c k)) 0 = false
        ∧ (t.queue c k).fetched = []
        ∧ t.cmds.take s.cmds.length = s.cmds
        ∧ (t.cmds.drop s.cmds.length).map (fun x => (x.id, x.desc, x.ending))
            = (s.queue c k).fetched.map (fun f => (⟨c, k, f.seq⟩, f.desc, some Status.aborted.plain))
        ∧ ((s.queue c k).fetched = [] → s.queueCmds c k = [] → (s.cq c (s.queue c k).cq).waiting = [] →
            bitOf (t.rd (sqConfig c k)) 29 = false ∧ (t.queue c k).closing = false)
        ∧ { t with regs := s.regs, ctxs := s.ctxs, cmds := s.cmds } = s)
    ∧ (s.Accepts secure (cqConfig c k) → bitOf (s.rd (cqConfig c k)) 0 = true →
      (s.ringHeld c k = true → exec (.cqDisable secure c k value) s = .next s)
      ∧ (s.ringHeld c k = false →
          ∃ t, exec (.cqDisable secure c k value) s = .next t
            ∧ bitOf (t.rd (cqConfig c k)) 0 = false ∧ bitOf (t.rd (cqConfig c k)) 31 = false ∧ { t with regs := s.regs } = s))

/-- R251, R342, R472 and R478: what a write of NUDGE, QCOUNTER_RESET, TIME_SET and FREEZE_CONTROL comes to. -/
def Obligations.TriggerWritesAct : Prop :=
  ∀ (s : State) (secure : Bool) (c value : Nat), s.ready = true → value < 2 ^ 64 →
    (s.Accepts secure (regCtx .nudge c) →
      exec (.nudge secure c value) s
        = .next (if s.fld (regCtx .ctxControl c) 0 0 = 1 then s.updCtx c fun x => { x with scanWanted := true } else s))
    ∧ (s.Inv → s.Accepts secure (regCtx .qcounterReset c) →
        ∃ t, exec (.qcounterReset secure c value) s = .next t
          ∧ (∀ n q, n ∈ [RegName.qcBytesRead, .qcBytesWritten, .qcMac, .qcStall] → q < 64 →
              t.rd ⟨n, c, q⟩ = if bitOf value q then 0 else s.rd ⟨n, c, q⟩)
          ∧ { t with regs := s.regs } = s)
    ∧ (s.Accepts secure (regDie0 .timeSet) →
        exec (.timeSet secure value) s
          = .next (if s.time.role = .free then { s with time := { s.time with load := some value } } else s))
    ∧ (s.Inv → value < 2 ^ 32 → s.Accepts secure (regDie0 .freezeControl) → bitOf value 0 = true → s.freeze.frozen = false → s.freeze.nextAt = none →
        ∃ t, exec (.freezeNow secure value) s = .next t ∧ t.freeze = { s.freeze with nextAt := some (s.now + 1) }
          ∧ bitOf (t.rd (regDie0 .freezeControl)) 1 = bitOf value 1 ∧ { t with regs := s.regs, freeze := s.freeze } = s)

/-- R80, R82 and R275. A write of an owner register stores the owner, starts a handover that waits for the previous owner's issued
commands, or gives one in progress a new target, and records the owner for the slot the cell fills. -/
def Obligations.OwnerWriteStartsHandover : Prop :=
  ∀ (s : State) (secure : Bool) (cell bank value : Nat), s.Inv → s.ready = true → bank < 32 →
    s.Accepts secure (ownerReg cell bank) → value < 2 ^ 32 →
    let old := ownerOf (s.rd (ownerReg cell bank))
    ∃ t, exec (.ownerRegisterWrite secure cell bank value) s = .next t
      ∧ t.rd (ownerReg cell bank) = value % 128
      ∧ (∀ r : Reg, r.inMap → r ≠ ownerReg cell bank → t.rd r = s.rd r)
      ∧ (t.cell cell).handovers.get? bank
          = some (match (s.cell cell).handovers.get? bank with
              | none => ⟨old, s.issuedOf old, false⟩
              | some h => h)
      ∧ (∀ b, b ≠ bank → (t.cell cell).handovers.get? b = (s.cell cell).handovers.get? b)
      ∧ (∀ k, k ≠ cell → t.cell k = s.cell k)
      ∧ (∀ l, (s.cell cell).logical = some l →
          t.lslot l = { s.lslot l with owners := if value % 128 = 0 then (s.lslot l).owners.erase bank
                                                 else (s.lslot l).owners.set bank (value % 128) })
      ∧ { t with regs := s.regs, cells := s.cells, dies := s.dies } = s

/-- R246, R248, R249, R250 and R251. A scan of a context with one enabled queue, due by its period or by a NUDGE, takes a valid
TAIL, fetches descriptors in position order into at most 16 places and writes HEAD; an invalid TAIL sets TAIL_INVALID and fetches
nothing. A scan that is not due does nothing. -/
def Obligations.ScanFetchesOnlyUnderValidTail : Prop :=
  ∀ (s : State) (c q : Nat) (stores : HostStores), s.Inv → c < 64 → q < 64 →
    let s0 := s.hostStores stores
    (s.fetching && bitOf (s.rd (regCtx .ctxControl c)) 0) = true →
    (∀ k, k < 64 → k ≠ q → bitOf (s.rd (sqConfig c k)) 0 = false) →
    (∀ k, k < 32 → bitOf (s.rd (cqConfig c k)) 0 = false) →
    bitOf (s.rd (sqConfig c q)) 0 = true → bitOf (s.rd (sqConfig c q)) 29 = true → bitOf (s.rd (sqConfig c q)) 30 = false →
    let x := s.queue c q
    x.head < 2 ^ 64 → x.deferrable = false → x.fetched.length ≤ 16 →
    let line := s.rd (regCtx .doorbellBase c) + 64 * q
    let tail := leValue (s0.hostRead line 8)
    let n := min (16 - x.fetched.length) ((tail + 2 ^ 64 - x.head) % 2 ^ 64)
    let shown (l : List Fetched) := l.map fun f => (f.seq, f.desc)
    (s.scanDue c = false → exec (.doorbellScan c stores) s = .next s0)
    ∧ (s.scanDue c = true → ∃ t, exec (.doorbellScan c stores) s = .next t ∧ (t.ctx c).scanWanted = false
      ∧ (t.ctx c).nextScan = (if (s.ctx c).nextScan ≤ s.now then s.now + s.scanPips c else (s.ctx c).nextScan)
      ∧ (tailValid x tail = false →
          bitOf (t.rd (sqConfig c q)) 30 = true ∧ t.queue c q = x ∧ t.mem = s0.mem ∧ t.cmds = s.cmds)
      ∧ (tailValid x tail = true →
          (t.queue c q).seenTail = tail ∧ (t.queue c q).head = (x.head + n) % 2 ^ 64
          ∧ shown (t.queue c q).fetched = shown x.fetched
              ++ (upTo n).map (fun i => ((x.head + i) % 2 ^ 64,
                  s0.hostRead (x.base + (x.head + i) % 2 ^ 64 % 2 ^ x.log2 * 128) 128))
          ∧ (n ≠ 0 → t.hostRead (line + 8) 8 = leBytes 8 ((x.head + n) % 2 ^ 64))
          ∧ t.cmds = s.cmds))

/-- R22, R85, R253, R268 and R278. The command at the head of a FOREGROUND queue whose start conditions hold is issued: it leaves
the queue and is in flight, with the ending its checks give or none, unless its checks meet a bank under handover to its own
context, which it waits for (R81). An opcode outside Table 10-6 ends with DESC_FORMAT, and a
privileged one of a context other than 0 with ACCESS_DENIED. -/
def Obligations.IssueGivesTheVerdict : Prop :=
  ∀ (s : State) (c q : Nat) (f : Fetched) (rest : List Fetched), s.Inv →
    (s.queue c q).fetched = f :: rest → (s.queue c q).deferrable = false → s.pcie.linkUp = true →
    f.start0 ≠ .stale → f.start1 ≠ .stale → s.waitOn c q f = none → f.genFailed = none →
    let id : CmdId := ⟨c, q, f.seq⟩
    let s' := s.updQueue c q fun x => { x with fetched := rest }
    let v := (s'.issueJudge id f.desc (s'.membersOf c q)).1
    (v.ending = none → ∃ scales, s'.storedScales id v.uses = .ok scales) →
    (v.ending = some AccErr.wait.ending → exec (.commandIssue c q) s = .next s)
    ∧ (v.ending ≠ some AccErr.wait.ending → ∃ t, exec (.commandIssue c q) s = .next t
      ∧ (t.queue c q).fetched.map (fun x => (x.seq, x.desc)) = rest.map (fun x => (x.seq, x.desc))
      ∧ (∃ x, t.cmds.map (fun y => (y.id, y.desc, y.ending, y.cells)) = s.cmds.map (fun y => (y.id, y.desc, y.ending, y.cells)) ++ [x]
          ∧ x = (id, f.desc, v.ending, if v.ending.isNone then s'.membersOf c q else [])))
    ∧ (hOpcode f.desc ∉ opcodes → v.ending = some (formatViol 0).ending)
    ∧ (hOpcode f.desc ∈ privilegedOps → c ≠ 0 → v.ending = some (refusal .accessDenied noHandle 0))

/-- R255, R260, R261 and R262. COMMAND_COMPLETE of a command of a FOREGROUND queue removes it and writes its record at the ring's
position while there is room, or keeps it waiting and counts the stall; the header's signal is applied only for a success.
R262 and R266. The oldest waiting record of a ring is written once the ring has room; the HOLDOFF interval of a ring ends, and
requests merged in it leave as one message, which starts the next interval. -/
def Obligations.RecordsAreWrittenWhenThereIsRoom : Prop :=
  (∀ (s : State) (id : CmdId) (c : Cmd) (e : Ending), s.Inv → s.cmd? id = some c → c.ending = some e →
    s.abortedBefore c e = false → c.watches = [] → e.status ≠ Status.eccUncorrectable.code → isOpcode 0x41 c.desc = false →
    (s.queue id.ctx id.q).deferrable = false → s.pcie.linkUp = true →
    e.status < 2 ^ 16 → id.ctx < 64 → id.q < 64 → id.seq < 2 ^ 64 → (s.queue id.ctx id.q).cq < 32 →
    let ring := (s.queue id.ctx id.q).cq
    let x := s.cq id.ctx ring
    let size := 2 ^ x.log2
    bitOf (s.rd (cqConfig id.ctx ring)) 0 = true → x.waiting = [] →
    ∃ t, exec (.commandComplete id) s = .next t ∧ t.cmd? id = none
      ∧ (x.room = true →
          let r := t.hostRead (x.base + x.w % size * 128) 128
          u16 r 0 = e.status ∧ bitOf (u8 r 2) 0 = (x.w / size % 2 == 0) ∧ u8 r 3 = id.q ∧ u64 r 8 = id.seq
            ∧ sliceB r 16 16 = padTo 16 e.detail ∧ (t.cq id.ctx ring).w = x.w + 1 ∧ (t.cq id.ctx ring).waiting = [])
      ∧ (x.room = false →
          (∃ r v, (t.cq id.ctx ring).waiting = [(r, v)] ∧ u16 r 0 = e.status ∧ u64 r 8 = id.seq) ∧ (t.cq id.ctx ring).w = x.w
            ∧ t.mem.host = s.mem.host ∧ (e.success = false → t.rd (regCtx .cqFullStalls id.ctx) = (s.rd (regCtx .cqFullStalls id.ctx) + 1) % 2 ^ 64))
      ∧ (∀ d p k, (s.die d).counters.get? p = some k →
          ((t.die d).counters.get? p).map (·.value)
            = some (if e.success = true ∧ refEnabled (hSignalRef c.desc) = true ∧ s.counterOf id.ctx (hSignalRef c.desc) = some (d, p)
                then (k.value + hSignalAdd c.desc) % 2 ^ 32 else k.value)))
  ∧ (∀ (s : State) (c r : Nat), s.Inv →
    (∀ rec' rest, (s.cq c r).waiting = (rec', false) :: rest → s.pcie.linkUp = true → bitOf (s.rd (cqConfig c r)) 0 = true →
      (s.cq c r).room = true → (s.cq c r).intAll = false →
      ∃ t, exec (.cqRecordRelease c r) s = .next t ∧ (t.cq c r).waiting = rest ∧ (t.cq c r).w = (s.cq c r).w + 1
        ∧ t.mem = (s.hostWrite ((s.cq c r).base + (s.cq c r).w % 2 ^ (s.cq c r).log2 * 128)
            (rec'.take 2 ++ [BitVec.ofNat 8 (u8 rec' 2 + b2n ((s.cq c r).w / 2 ^ (s.cq c r).log2 % 2 == 0))] ++ rec'.drop 3)).mem)
    ∧ ((s.cq c r).room = false → s.pcie.linkUp = true → exec (.cqRecordRelease c r) s = .next s)
    ∧ ((s.cq c r).holdoffRunning = true → (s.cq c r).merged = true → s.pcie.linkUp = true → (s.vector (c * 32 + r)).2.2 = false →
        (s.cq c r).holdoff ≠ 0 →
        ∃ t, exec (.holdoffExpiry c r) s = .next t
          ∧ t.pcie.sent = (c * 32 + r, (s.vector (c * 32 + r)).1, (s.vector (c * 32 + r)).2.1) :: s.pcie.sent
          ∧ t.cq c r = { s.cq c r with holdoffRunning := true, merged := false })
    ∧ ((s.cq c r).holdoffRunning = true → (s.cq c r).merged = false →
        exec (.holdoffExpiry c r) s = .next (s.updCq c r fun y => { y with holdoffRunning := false, merged := false })))

/-- R490, R496, R497 and R498. The mailbox services that report and that hold a session: each ends with its response, RESULT and
BUSY clear. -/
def Obligations.StatusAndSessionServicesRespond : Prop :=
  (∀ (s : State) (result : Nat) (payload : List Byte), s.Inv → payload.length < 2 ^ 32 →
    let t := s.endService result payload
    let sent := if result = 0 then payload else []
    t.sec.running = none ∧ t.sec.result = result
      ∧ t.hostRead (s.rd (regDie0 .secRespAddr)) (4 + sent.length) = leBytes 4 sent.length ++ sent
      ∧ { t with sec := s.sec, mem := s.mem } = s)
  ∧ ∀ (s : State) (req : List Byte),
    (s.Serves 1 0 req → exec .getStatus s
      = .next (s.endService 0 (leBytes 4 s.secStatus ++ leBytes 8 s.keySlotsFilled ++ leBytes 4 s.sec.ownerSlots.length)))
    ∧ (s.Serves 2 0 req → exec .getCerts s = .next (s.endService 0 Config.certChain))
    ∧ (s.Serves 3 64 req →
        let t := { s with sec := { s.sec with reports := s.sec.reports + 1 } }
        exec .attest s = .next (t.endService 0 (t.reportBody req ++ idSign (t.reportBody req))))
    ∧ (s.Serves 4 1600 req → s.sec.session = true → exec .sessionOpen s = .next (s.endService 2 []))
    ∧ (s.Serves 4 1600 req → s.sec.session = false →
        ∃ t, exec .sessionOpen s = .next t ∧ t.sec.session = true ∧ t.sec.ide0 = (s.agree req).2.1 ∧ t.sec.ide1 = []
          ∧ t.sec.ideSet = 0 ∧ t.sec.owner = s.sec.owner ∧ t.sec.draws = s.sec.draws + 1 ∧ t.sec.result = 0 ∧ t.sec.running = none)
    ∧ (s.Serves 5 1600 req → s.sec.owner = true → s.sec.session = true →
        ∃ t, exec .sessionRekey s = .next t ∧ t.sec.session = true ∧ t.sec.owner = true ∧ t.sec.result = 0 ∧ t.sec.running = none
          ∧ (s.sec.ideSet = 0 → t.sec.ideSet = 1 ∧ t.sec.ide1 = (s.agree req).2.1 ∧ t.sec.ide0 = s.sec.ide0)
          ∧ (s.sec.ideSet = 1 → t.sec.ideSet = 0 ∧ t.sec.ide0 = (s.agree req).2.1 ∧ t.sec.ide1 = s.sec.ide1))
    ∧ (s.Serves 6 0 req → s.sec.owner = true →
        ∃ t, exec .sessionClose s = .next t ∧ t.sec.session = false ∧ t.sec.owner = false ∧ t.sec.ide0 = [] ∧ t.sec.ide1 = []
          ∧ t.sec.result = 0 ∧ t.sec.running = none)

/-- R493. OWNER_ENROL writes the hash of the new key into the lowest unused slot and ends the role of the previous key; with all 8
slots used it ends with RESULT 2. OWNER_AUTH checks against the slot written last, and a challenge serves once, within a second. -/
def Obligations.OwnerEnrolAndAuth : Prop :=
  ∀ (s : State) (req : List Byte),
    (s.Serves 9 1793 req → s.sec.ownerSlots.length < 8 → (s.sec.ownerSlots = [] ∨ s.sec.owner = true) →
      ∃ t, exec .ownerEnrol s = .next t ∧ t.sec.ownerSlots = s.sec.ownerSlots ++ [Config.shake256 64 req] ∧ t.sec.owner = false
        ∧ t = ({ s with sec := { s.sec with owner := false, ownerSlots := s.sec.ownerSlots ++ [Config.shake256 64 req] } }).endService 0
            (leBytes 4 s.sec.ownerSlots.length))
    ∧ (s.Serves 9 1793 req → 8 ≤ s.sec.ownerSlots.length → exec .ownerEnrol s = .next (s.endService 2 []))
    ∧ (s.Serves 7 0 req →
        ∃ t, exec .ownerChallenge s = .next t ∧ t.sec.challenge = some (Config.drbg s.sec.draws 32, s.now + 800000000)
          ∧ t.sec.draws = s.sec.draws + 1 ∧ t.sec.result = 0 ∧ t.sec.running = none)
    ∧ (s.Serves 8 3073 req → ∀ c h, s.sec.challenge = some c → s.sec.ownerSlots.getLast? = some h →
        let good := decide (s.now < c.2) && Config.falconVerify (req.take 1793) (c.1 ++ s.serialBytes) (req.drop 1793)
                      && Config.shake256 64 (req.take 1793) == h
        ∃ t, exec .ownerAuth s = .next t ∧ t.sec.challenge = none ∧ t.sec.owner = (good || s.sec.owner)
          ∧ t.sec.result = (if good then 0 else 3) ∧ t.sec.running = none ∧ t.sec.ownerSlots = s.sec.ownerSlots)
    ∧ (∀ c, s.sec.challenge = some c →
        exec .challengeExpiry s = .next (if c.2 ≤ s.now then { s with sec := { s.sec with challenge := none } } else s))

/-- R495. CONTEXT_KEY NEW fills the slot of the context with a key not used before, ERASE empties it, and either ends with RESULT 2
while the context owns an allocation; an ALLOC_SET whose TARGET has an empty slot is refused with ACCESS_DENIED. -/
def Obligations.ContextKeysNeedNoAllocations : Prop :=
  (∀ (s : State) (req : List Byte) (c : Nat), s.Serves 0x0A 2 req → u8 req 0 = c → c < 64 → s.sec.owner = true →
    (u8 req 1 = 0 → (s.ctx c).allocs = [] →
      ∃ t, exec .contextKeyNew s = .next t ∧ t.mem.keySlots = s.mem.keySlots.set c s.mem.nextKey ∧ t.mem.nextKey = s.mem.nextKey + 1
        ∧ t.memKey c = s.mem.nextKey ∧ t.sec.result = 0 ∧ t.sec.running = none)
    ∧ (u8 req 1 = 1 → (s.ctx c).allocs = [] → s.mem.keySlots.Pairwise (fun a b => a.1 < b.1) →
      ∃ t, exec .contextKeyErase s = .next t ∧ t.mem.keySlots = s.mem.keySlots.erase c ∧ t.memKey c = 0 ∧ t.sec.result = 0
        ∧ t.sec.running = none)
    ∧ ((s.ctx c).allocs ≠ [] →
        (u8 req 1 = 0 → exec .contextKeyNew s = .next (s.endService 2 []))
        ∧ (u8 req 1 = 1 → exec .contextKeyErase s = .next (s.endService 2 []))))
  ∧ ∀ (s : State) (d : List Byte), s.memKey (bitsOf (u32 d 36) 5 0) = 0 →
      (({ s with mem := { s.mem with keySlots := s.mem.keySlots.set (bitsOf (u32 d 36) 5 0) 1 } }).checkAllocSet d).ending = none →
      (s.checkAllocSet d).ending = some (refusal .accessDenied noHandle 36)

/-- R491 with R503 and R504: ZEROISE_NOW acts at once and ends a service in progress with RESULT 2; ZEROISE and DECOMMISSION do the
same through the mailbox, DECOMMISSION blowing the kill fuse; a failed test puts the part into the error state. Ports of dies in
service go DOWN with reason 4. -/
def Obligations.ZeroiseNowActsAtOnce : Prop :=
  (∀ s : State, s.zeroise.mem.keySlots = [] ∧ s.zeroise.mem.packageKey = 0 ∧ s.zeroise.sec.owner = false
    ∧ s.zeroise.sec.session = false ∧ s.zeroise.sec.ide0 = [] ∧ s.zeroise.sec.ide1 = [] ∧ s.zeroise.sec.challenge = none
    ∧ s.zeroise.sec.zeroised = true ∧ s.zeroise.sec.running = s.sec.running ∧ s.zeroise.sec.result = s.sec.result)
  ∧ (∀ (s : State) (p : Nat), p < 40 → (s.die (p / 5)).inService = true →
      ((s.zeroise.port p).mode = .down ∧ (s.zeroise.port p).reason = 4 ∧ (s.zeroise.port p).txKey = none)
      ∧ ((s.enterError.port p).mode = .down ∧ (s.enterError.port p).reason = 4 ∧ s.enterError.sec.errorState = true))
  ∧ (∀ (s : State) (secure : Bool), s.ready = true → s.Accepts secure (regDie0 .secZeroise) →
      exec (.zeroiseNow secure) s = .next (if s.sec.running.isSome then
        ({ s with sec := { s.sec with running := none, result := 2 } }).zeroise else s.zeroise))
  ∧ ∀ (s : State) (req : List Byte),
      (s.Serves 0x0C 1 req → u8 req 0 = 0 → exec .zeroise s = .next (s.zeroise.endService 0 []))
      ∧ (s.Serves 0x0C 1 req → u8 req 0 = 1 → s.sec.owner = true →
          ∃ t, exec .decommission s = .next t ∧ t.boot.killed = true ∧ t.sec.zeroised = true ∧ t.mem.keySlots = [] ∧ t.sec.result = 0)
      ∧ (s.Serves 0x0B 0 req →
          exec (.selfTest true) s = .next (s.endService 0 []) ∧ exec (.selfTest false) s = .next (s.enterError.endService 4 []))
      ∧ (s.boot.selfTestsPassed = true → s.sec.errorState = false → exec .entropyTestFailure s = .next s.enterError)

/-- R183–R186, R190–R192. NOP ends with OK and changes nothing else. DESC_CREATE of a free slot with a record that breaches nothing
makes the slot valid under the next generation and names the new handle; a slot that is valid or being destroyed, a misaligned
record and one that reaches outside its allocation are refused by DESC_FORMAT, ALIGN_INNER and TENSOR_RANGE and change nothing.
DESC_DESTROY marks its slot invalid at once and ends once no command in flight names the handle.
R187 and R566. ALLOC_SET writes, and ALLOC_CLEAR removes, one allocation of the target context, unless a valid descriptor names
it, which refuses the command with DESC_FORMAT. -/
def Obligations.DescriptorsAndAllocationsAreKept : Prop :=
  (∀ (s : State) (id : CmdId) (c : Cmd),
    (s.Runs id 0x01 c → exec (.nop id) s = .next (s.finish id Status.ok.plain) ∧ (s.finish id Status.ok.plain).EndedAs id Status.ok.plain)
    ∧ (s.Runs id 0x10 c →
        let i := u32 c.desc 32 % 2 ^ 24
        let r := c.records.getD 1 []
        let x := c.records.getD 2 []
        let sl := s.slot id.ctx i
        let tn := tensOf noHandle r x false
        let free := !sl.valid && !sl.destroying
        (free = false → ∃ e, exec (.descCreate id) s = .next (s.finish id e) ∧ e.status = Status.descFormat.code)
        ∧ (free = true → extViols tn (padTo 64 x) = [] → alignViols tn ≠ [] →
            ∃ e, exec (.descCreate id) s = .next (s.finish id e) ∧ e.status = Status.alignInner.code)
        ∧ (free = true → extViols tn (padTo 64 x) = [] → alignViols tn = [] → (s.ctx id.ctx).allocs.get? tn.alloc = none →
            ∃ e, exec (.descCreate id) s = .next (s.finish id e) ∧ e.status = Status.tensorRange.code)
        ∧ (free = true → extViols tn (padTo 64 x) = [] → alignViols tn = [] → s.reachViols id.ctx tn = [] →
            let g := (sl.gen + 1) % 256
            ∃ t, exec (.descCreate id) s = .next t ∧ t.EndedAs id ⟨0, 0, detail4 (i + g * 2 ^ 24) 0 0 0⟩
              ∧ t.slot id.ctx i = { DescSlot.init with gen := g, valid := true, record := r, ext := x, selfOverlap := tn.overlaps }
              ∧ (∀ k j, (k ≠ id.ctx ∨ j ≠ i) → t.slot k j = s.slot k j)
              ∧ { t with ctxs := s.ctxs, cmds := s.cmds } = s))
    ∧ (s.Runs id 0x11 c →
        let h := u32 c.desc 32
        let i := handleSlot h
        (s.slot id.ctx i).gen = handleGen h → (s.slot id.ctx i).valid = true →
        ∃ t, exec (.descDestroy id) s = .next t
          ∧ (s.namesHandle id.ctx h = true → (t.slot id.ctx i).valid = false ∧ (t.slot id.ctx i).destroying = true
              ∧ t.cmds = s.cmds ∧ { t with ctxs := s.ctxs } = s)
          ∧ (s.namesHandle id.ctx h = false →
              t.slot id.ctx i = { DescSlot.init with gen := (s.slot id.ctx i).gen } ∧ t.EndedAs id Status.ok.plain
              ∧ { t with ctxs := s.ctxs, cmds := s.cmds } = s)
          ∧ (∀ k j, (k ≠ id.ctx ∨ j ≠ i) → t.slot k j = s.slot k j)))
  ∧ (∀ (s : State) (id : CmdId) (c : Cmd),
    let k := bitsOf (u32 c.desc 36) 5 0
    let i := u16 c.desc 32
    (s.allocNamed k i = true →
      (s.Runs id 0x12 c → exec (.allocSet id) s = .next (s.finish c.id (formatViol 32).ending))
      ∧ (s.Runs id 0x13 c → exec (.allocClear id) s = .next (s.finish c.id (formatViol 32).ending)))
    ∧ (s.allocNamed k i = false →
      (s.Runs id 0x12 c → ∃ t, exec (.allocSet id) s = .next t ∧ (t.ctx k).allocs.get? i = some (allocOfBody c.desc)
        ∧ (∀ j, j ≠ i → (t.ctx k).allocs.get? j = (s.ctx k).allocs.get? j) ∧ (∀ k', k' ≠ k → t.ctx k' = s.ctx k')
        ∧ t.EndedAs id Status.ok.plain ∧ { t with ctxs := s.ctxs, cmds := s.cmds } = s)
      ∧ (s.Runs id 0x13 c → (s.ctx k).allocs.Pairwise (fun a b => a.1 < b.1) →
          ∃ t, exec (.allocClear id) s = .next t ∧ (t.ctx k).allocs.get? i = none
            ∧ (∀ j, j ≠ i → (t.ctx k).allocs.get? j = (s.ctx k).allocs.get? j) ∧ (∀ k', k' ≠ k → t.ctx k' = s.ctx k')
            ∧ t.EndedAs id Status.ok.plain ∧ { t with ctxs := s.ctxs, cmds := s.cmds } = s)))

/-- R475–R478. While the counters are frozen no event is counted. FREEZE_AT arms a freeze at T, or at the next pip with LATE where T has
passed, and is refused while one is armed or in force; the freeze records FREEZE_TIME and completes the command; THAW ends it; CLEAR
zeroes every event counter and no other register.
R458, R479, R482, R483 and R485. ARM and DISARM of a watch; a snapshot by command and by register, one at a time, and its capture;
and the bases of the fault ring and the log ring. -/
def Obligations.ObservationCommandsAct : Prop :=
  ((∀ (s : State) (die kind inst ev n : Nat) (ctx : Option Nat), s.freeze.frozen = true → s.pmc die kind inst ev ctx n = s)
  ∧ ∀ (s : State) (id : CmdId) (c : Cmd), s.Inv →
    (s.Runs id 0x90 c → cfOp c.desc = 0 → c.begun = false →
      (s.freezeDue = true → exec (.freezeAt id) s = .next (s.finish id (formatViol 32).ending))
      ∧ (s.freezeDue = false →
          ∃ t, exec (.freezeAt id) s = .next t
            ∧ t.freeze = { s.freeze with armedT := some (if cfTime c.desc < s.now then s.now + 1 else cfTime c.desc), armedBy := some id,
                                         late := decide (cfTime c.desc < s.now) }
            ∧ t.cmd? id = some { c with begun := true } ∧ { t with freeze := s.freeze, cmds := s.cmds } = s))
    ∧ (s.cmd? id = some c → c.ending = none → s.freeze.frozen = false → s.freeze.nextAt = none → s.freeze.armedBy = some id →
        ∀ T, s.freeze.armedT = some T →
          (T ≤ s.now → ∃ t, exec .freezeEffect s = .next t ∧ t.freeze.frozen = true ∧ t.freeze.armedT = none
            ∧ t.freeze.unlocked = !s.time.locked ∧ t.freeze.late = s.freeze.late ∧ t.rd (regDie0 .freezeTime) = s.now
            ∧ t.EndedAs id ⟨0, 0, detail64 s.now 0⟩)
          ∧ (s.now < T → exec .freezeEffect s = .next s))
    ∧ (s.Runs id 0x90 c → cfOp c.desc = 1 →
        (s.freeze.armedT.isSome = true → exec (.thaw id) s = .next (s.finish id (formatViol 32).ending))
        ∧ (s.freeze.armedT = none →
            exec (.thaw id) s = .next (({ s with freeze := { s.freeze with frozen := false } }).finish id Status.ok.plain)))
    ∧ (s.Runs id 0x90 c → cfOp c.desc = 2 →
        ∃ t, exec (.counterClear id) s = .next t ∧ t.EndedAs id Status.ok.plain
          ∧ (∀ r : Reg, r.inMap → t.rd r = if r.name = .pmcValue then 0 else s.rd r)
          ∧ { t with regs := s.regs, cmds := s.cmds } = s))
  ∧ ((∀ (s : State) (id : CmdId) (c : Cmd), s.Inv →
    let k := watchKey id.ctx (twNo c.desc)
    (s.Runs id 0x91 c → twOp c.desc = 0 → s.armViols id.ctx c.desc = [] →
      let w : TWatch := ⟨true, ((s.twatches.get? k).elim 0 fun x => x.serial) + 1, twMode c.desc, twHandle c.desc, twRing c.desc, twLog2 c.desc, 0⟩
      exec (.arm id) s = .next (({ s with twatches := s.twatches.set k w }).finish id Status.ok.plain))
    ∧ (s.Runs id 0x91 c → twOp c.desc = 1 →
        (∀ w, s.twatches.get? k = some w → exec (.disarm id) s
          = .next (({ s with twatches := s.twatches.set k { w with armed := false } }).finish id Status.ok.plain))
        ∧ (s.twatches.get? k = none → exec (.disarm id) s = .next (s.finish id Status.ok.plain)))
    ∧ (s.Runs id 0x92 c → c.begun = false → s.snap.busy = true → exec (.snapshot id) s = .next (s.finish id (formatViol 32).ending))
    ∧ (s.Runs id 0x92 c → c.begun = false → s.snap.busy = false →
        ∃ t, exec (.snapshot id) s = .next t ∧ t.rd (regDie0 .snapshotAddr) = u64 c.desc 48 ∧ t.rd (regDie0 .snapshotLength) = u64 c.desc 56
          ∧ t.snap = ⟨true, some (if snAt c.desc = false then s.now else if u64 c.desc 40 < s.now then s.now + 1 else u64 c.desc 40), some id⟩
          ∧ t.cmd? id = some { c with begun := true } ∧ { t with regs := s.regs, snap := s.snap, cmds := s.cmds } = s)
    ∧ (s.Calm → s.snap.busy = true → ∀ T, s.snap.atTime = some T → T ≤ s.now →
        ∃ t, exec .snapshotCapture s = .next t ∧ t.snap = SnapSt.init ∧ bitOf (t.rd (regDie0 .snapshotControl)) 2 = true
          ∧ (s.snap.by' = some id → s.cmd? id = some c → c.ending = none → t.Ended id)))
  ∧ ∀ (s : State) (secure : Bool) (value : Nat), s.Inv → s.ready = true → value < 2 ^ 64 →
    (s.Accepts secure (regDie0 .snapshotControl) → value < 2 ^ 32 → bitOf value 0 = true →
      ∃ t, exec (.snapshotTrigger secure value) s = .next t
        ∧ t.snap = (if s.snap.busy then s.snap
            else ⟨true, some (if bitOf value 1 = false then s.now
                else if s.rd (regDie0 .snapshotTime) < s.now then s.now + 1 else s.rd (regDie0 .snapshotTime)), none⟩)
        ∧ { t with regs := s.regs, snap := s.snap } = s)
    ∧ (s.Accepts secure (regDie0 .faultRingBase) →
        let n := s.fld (regDie0 .faultControl) 9 6
        ∃ t, exec (.faultRingBase secure value) s = .next t ∧ t.rd (regDie0 .faultRingBase) % 2 ^ 64 = value
          ∧ t.faults = { s.faults with base := if ringLog2Ok n then value else 0, log2 := n, w := 0 }
          ∧ { t with regs := s.regs, faults := s.faults } = s)
    ∧ (s.Accepts secure (regDie0 .logRingBase) → value ≠ 0 → ringLog2Ok (s.fld (regDie0 .logControl) 21 18) = true →
        ∃ t, exec (.logRingBase secure value) s = .next t ∧ t.rd (regDie0 .logRingBase) % 2 ^ 64 = value ∧ t.log.base = value
          ∧ t.log.log2 = s.fld (regDie0 .logControl) 21 18 ∧ t.log.held = [] ∧ t.log.w = s.log.held.length ∧ t.log.seq = s.log.seq
          ∧ { t with regs := s.regs, log := s.log, mem := s.mem } = s))

/-- R220. A counter of value v has reached a target t when (v − t) mod 2^32 is less than 2^31; an evaluation of a die's watches marks
exactly those that their counters have reached, and keeps the marks of the others. -/
def Obligations.CounterReachesTarget : Prop :=
  (∀ v t : Nat, v < 2 ^ 32 → t < 2 ^ 32 → reachedTarget v t = decide (((v : Int) - (t : Int)) % 2 ^ 32 < 2 ^ 31))
  ∧ ∀ (d : Die) (i : Nat) (w : Watch) (k : Counter), d.watches.get? i = some w → d.counters.get? w.phys = some k →
      (evalWatches d).watches.get? i = some { w with reached := w.reached || reachedTarget k.value w.target }

/-- R219, R226, R229 and R234. ADD, READ and an update message: a current reference adds to, or reads, its counter; a stale one is
dropped and counted in STALE_DROPS. -/
def Obligations.CountersChangeByAddition : Prop :=
  ∀ (s : State) (id : CmdId) (c : Cmd), s.Inv → id.ctx < 64 →
    (∀ op, (op = 0 ∨ op = 4) → s.Runs id 0x50 c → syOp c.desc = op → s.counterOf id.ctx (syRef c.desc) = none →
      exec (if op = 0 then .syncAdd id else .syncRead id) s
        = .next ((s.staleDrop id.ctx).finish id (refusal .descFormat (syRef c.desc) 36))
      ∧ (s.staleDrop id.ctx).rd (regCtx .staleDrops id.ctx) = (s.rd (regCtx .staleDrops id.ctx) + 1) % 2 ^ 64)
    ∧ (∀ die p k, s.Runs id 0x50 c → syOp c.desc = 0 → s.counterOf id.ctx (syRef c.desc) = some (die, p) →
        (s.die die).counters.get? p = some k →
        ∃ t, exec (.syncAdd id) s = .next t ∧ t.EndedAs id Status.ok.plain
          ∧ (t.die die).counters.get? p = some { k with value := (k.value + u32 c.desc 40) % 2 ^ 32 }
          ∧ (∀ d q, (d ≠ die ∨ q ≠ p) → (t.die d).counters.get? q = (s.die d).counters.get? q)
          ∧ { t with dies := s.dies, regs := s.regs, cmds := s.cmds } = s)
    ∧ (∀ die p k x, s.Runs id 0x50 c → syOp c.desc = 4 → s.counterOf id.ctx (syRef c.desc) = some (die, p) →
        (s.die die).counters.get? p = some k → s.allocJudge id.ctx (u64 c.desc 56) 8 false true = .ok x →
        let w := s.writeBytes { x with id := some id } (u64 c.desc 56) (leBytes 4 k.value ++ leBytes 4 (syRef c.desc))
        w.2 = none → exec (.syncRead id) s = .next (w.1.finish id Status.ok.plain))
    ∧ (∀ die m p k, s.msgs = [m] → s.counterOf m.ctx m.ref = some (die, p) → (s.die die).counters.get? p = some k →
        ∃ t, exec (.counterUpdate die [0]) s = .next t ∧ t.msgs = []
          ∧ (t.die die).counters.get? p = some { k with value := (k.value + m.add) % 2 ^ 32 }
          ∧ (∀ d q, (d ≠ die ∨ q ≠ p) → (t.die d).counters.get? q = (s.die d).counters.get? q)
          ∧ { t with dies := s.dies, regs := s.regs, msgs := s.msgs } = s)

/-- R81, R230, R232 and R234. WATCH_WRITE and WATCH_ADD register a watch at the counter's home die and end with OK, or wait for an
entry; a watch whose counter has reached its target sends its message and frees its entry, a write that meets a bank under handover
to its own context waiting; a waiting registration takes an entry that frees. -/
def Obligations.WatchesRegisterAndFire : Prop :=
  (∀ (s : State) (id : CmdId) (c : Cmd) (op die p : Nat), (op = 2 ∨ op = 3) → s.Runs id 0x50 c → syOp c.desc = op → c.begun = false →
    s.counterOf id.ctx (syRef c.desc) = some (die, p) →
    let act := if op = 2 then WatchAct.write (u64 c.desc 56) (u64 c.desc 64) else .add (u32 c.desc 44) (u32 c.desc 48)
    let w : Watch := ⟨id.ctx, syRef c.desc, p, u32 c.desc 40, act, false⟩
    let i : Instr := if op = 2 then .watchWrite id else .watchAdd id
    (∀ e, s.watchEntry die id.ctx = some e →
      ∃ t, exec i s = .next t ∧ t.EndedAs id Status.ok.plain
        ∧ t.die die = evalWatches { s.die die with watches := (s.die die).watches.set e w }
        ∧ (∀ d, d ≠ die → t.die d = s.die d) ∧ { t with dies := s.dies, cmds := s.cmds } = s)
    ∧ (s.watchEntry die id.ctx = none →
        ∃ t, exec i s = .next t ∧ t.cmd? id = some { c with begun := true }
          ∧ (t.die die) = { s.die die with waiting := (s.die die).waiting ++ [⟨w, some id⟩] }
          ∧ { t with dies := s.dies, regs := s.regs, cmds := s.cmds } = s))
  ∧ (∀ (s : State) (die e : Nat) (w : Watch), (s.die die).watches.get? e = some w →
      (w.reached = false → exec (.watchFire die e) s = .next s)
      ∧ (w.reached = true → ∃ t, exec (.watchFire die e) s = .next t
          ∧ (t.die die).watches = (s.die die).watches.erase e
          ∧ (∀ r v, w.act = .add r v → t.msgs = s.msgs ++ [⟨w.ctx, r, v⟩] ∧ t.mem = s.mem)
          ∧ (∀ a v x, w.act = .write a v → s.allocJudge w.ctx a 8 false true = .ok x →
              (s.writeBytes x a (leBytes 8 v)).2 = none → t.mem = (s.writeBytes x a (leBytes 8 v)).1.mem)
          ∧ (∀ a v x, w.act = .write a v → s.allocJudge w.ctx a 8 false true = .ok x →
              (s.writeBytes x a (leBytes 8 v)).2 = some .wait →
              t.fabric.waiters = s.fabric.waiters ++ [.watch w.ctx a v] ∧ t.mem = s.mem)
          ∧ (∀ id, w.act = .start id 0 → t.queue id.ctx id.q = { s.queue id.ctx id.q with
              fetched := (s.queue id.ctx id.q).fetched.map fun f => if f.seq = id.seq then { f with start0 := .met } else f })))
  ∧ ∀ (s : State) (die k e : Nat) (r : WaitingReg), (s.die die).waiting[k]? = some r →
      (s.counterOf r.watch.ctx r.watch.ref).isSome = true →
      (s.watchEntry die r.watch.ctx = none → exec (.watchRegistrationResume die k) s = .next s)
      ∧ (s.watchEntry die r.watch.ctx = some e →
          ∃ t, exec (.watchRegistrationResume die k) s = .next t ∧ (t.die die).waiting = (s.die die).waiting.eraseIdx k
            ∧ (t.die die).watches = (evalWatches { s.die die with watches := (s.die die).watches.set e r.watch }).watches
            ∧ (∀ id c, r.id = some id → (∀ j n, r.watch.act ≠ .start j n) → s.cmd? id = some c → c.ending = none →
                t.EndedAs id Status.ok.plain))

/-- R235–R238. An arrival for round k or k + 1 is counted toward it; one for any other round is not counted and ends with
BARRIER_RUNAHEAD, naming the barrier reference and the round; a round with all its arrivals closes, and sends 1 to the release counter. -/
def Obligations.BarriersCountAndClose : Prop :=
  (∀ (s : State) (id : CmdId) (c : Cmd) (die p : Nat) (b : Barrier), s.Runs id 0x50 c → syOp c.desc = 1 →
    s.barrierOf id.ctx (syRef c.desc) = some (die, p) → (s.die die).barriers.get? p = some b → b.round < 2 ^ 32 →
    let r := u32 c.desc 40
    let counted (f : Barrier → Barrier) : State :=
      ((s.updDie die fun d => { d with barriers := d.barriers.set p (f b) }).pmc die 6 0 3 (some id.ctx) 1).finish id Status.ok.plain
    (r = b.round → exec (.arrive [id]) s = exec (.arrive []) (counted fun x => { x with arrK := x.arrK + 1 }))
    ∧ (r = (b.round + 1) % 2 ^ 32 → r ≠ b.round → exec (.arrive [id]) s = exec (.arrive []) (counted fun x => { x with arrK1 := x.arrK1 + 1 }))
    ∧ (r ≠ b.round → r ≠ (b.round + 1) % 2 ^ 32 →
        exec (.arrive [id]) s = exec (.arrive []) (s.finish id ⟨0x0502, 0, detail4 (syRef c.desc) r 0 0⟩)))
  ∧ (∀ (s : State) (die p : Nat) (b : Barrier), s.Inv → die < 8 → (s.die die).barriers = [(p, b)] →
      (∀ d, d ≠ die → (s.die d).barriers = []) → 0 < b.participants → b.arrK1 < b.participants →
      ∃ t, exec (.arrive []) s = .next t
        ∧ (b.arrK < b.participants → t = s)
        ∧ (b.participants ≤ b.arrK →
            (t.die die).barriers = [(p, { b with round := (b.round + 1) % 2 ^ 32, arrK := b.arrK1, arrK1 := 0 })]
            ∧ t.msgs = s.msgs ++ [⟨b.ctx, b.release, 1⟩]
            ∧ t.rd (regDie .barrierExcess die) = (s.rd (regDie .barrierExcess die) + (b.arrK - b.participants)) % 2 ^ 64))

/-- R223–R226. A mapping SYNC_MAP that breaches nothing advances the identifier's generation by 1 modulo 256, sets the counter or
barrier and returns the reference; an unmapping makes the reference stale at once, and frees the counter when nothing of the old
generation is left. -/
def Obligations.MappingAdvancesTheGeneration : Prop :=
  ∀ (s : State) (id : CmdId) (c : Cmd),
    let d := c.desc
    let x := smTarget d
    (s.Runs id 0x51 c → smUnmap d = false → s.mapViols d ≠ [] → ∃ e, exec (.syncMap id) s = .next (s.finish id e) ∧ e.status = 0x0101)
    ∧ (s.Runs id 0x51 c → smUnmap d = false → s.mapViols d = [] →
        let g := ((s.smMap d).gen + 1) % 256
        ∃ t, exec (.syncMap id) s = .next t ∧ t.smMap d = ⟨g, true, false, smDie d, smPhys d⟩
          ∧ (smBarrier d = false → (t.die (smDie d)).counters.get? (smPhys d) = some ⟨u32 d 44, x, smVid d⟩
              ∧ t.EndedAs id ⟨0, 0, detail4 (smVid d + g * 2 ^ 12 + 2 ^ 20) 0 0 0⟩)
          ∧ (smBarrier d = true →
              (t.die (smDie d)).barriers.get? (smPhys d) = some ⟨x, smVid d, g, u32 d 44, 0, 0, smParticipants d, u32 d 52⟩
              ∧ t.EndedAs id ⟨0, 0, detail4 (smVid d + g * 2 ^ 8) 0 0 0⟩)
          ∧ { t with ctxs := s.ctxs, dies := s.dies, cmds := s.cmds } = s)
    ∧ (s.Runs id 0x51 c → smUnmap d = true → c.begun = false → (s.smMap d).mapped = false →
        exec (.syncUnmap id) s = .next (s.finish id (formatViol 36).ending))
    ∧ (s.Runs id 0x51 c → smUnmap d = true → c.begun = false → (s.smMap d).mapped = true → smBarrier d = false →
        s.isRelease x (smVid d) = false →
        ∃ t, exec (.syncUnmap id) s = .next t ∧ (t.smMap d).mapped = false ∧ (t.smMap d).gen = (s.smMap d).gen
          ∧ (s.unmapWaits d (s.smMap d) = true → (t.smMap d).unmapping = true ∧ t.cmd? id = some { c with begun := true } ∧ t.dies = s.dies)
          ∧ (s.unmapWaits d (s.smMap d) = false → (s.die (s.smMap d).die).counters.Pairwise (fun a b => a.1 < b.1) →
              (t.smMap d).unmapping = false
              ∧ (t.die (s.smMap d).die).counters.get? (s.smMap d).phys = none ∧ t.EndedAs id Status.ok.plain))

/-- R80 and R275. The scrub of a handover starts once the previous owner's issued commands have completed: every byte of the bank reads
zero and no other byte changes. When the scrub has ended the handover is over, a command that waited for it alone ends with OK, and
the accesses of the fabric that wait are made again (R81). -/
def Obligations.HandoversScrubAndEnd : Prop :=
  ∀ (s : State) (cell bank : Nat) (h : Handover), s.Inv → bank < 32 → (s.cell cell).handovers.get? bank = some h →
    (h.scrubbing = false → (∃ i ∈ h.waitFor, (s.cmd? i).isSome = true) → exec (.handoverScrubStart cell bank) s = .next s)
    ∧ (h.scrubbing = false → (∀ i ∈ h.waitFor, s.cmd? i = none) →
        let lo := cellKey cell (bankSpan bank).1
        ∃ t, exec (.handoverScrubStart cell bank) s = .next t
          ∧ (t.cell cell).handovers.get? bank = some { h with scrubbing := true }
          ∧ (∀ a, lo ≤ a → a < lo + (bankSpan bank).2 → memGet t.mem.cells a = 0)
          ∧ (∀ a, (a < lo ∨ lo + (bankSpan bank).2 ≤ a) → memGet t.mem.cells a = memGet s.mem.cells a)
          ∧ { t with mem := s.mem, cells := s.cells, held := s.held } = s)
    ∧ (h.scrubbing = false → exec (.handoverDone cell bank) s = .next s)
    ∧ (h.scrubbing = true → (s.cell cell).placing = false → (s.cell cell).handovers.Pairwise (fun a b => a.1 < b.1) →
        ∃ t : State, exec (.handoverDone cell bank) s = .next t.retryWaiters ∧ (s.fabric.waiters = [] → t.retryWaiters = t)
          ∧ (t.cell cell).handovers.get? bank = none
          ∧ (∀ b, b ≠ bank → (t.cell cell).handovers.get? b = (s.cell cell).handovers.get? b)
          ∧ (∀ k, k ≠ cell → t.cell k = s.cell k)
          ∧ (∀ id c, s.cmd? id = some c → c.ending = none → c.awaits = [cell * 32 + bank] → t.EndedAs id Status.ok.plain)
          ∧ { t with cells := s.cells, cmds := s.cmds } = s)

/-- R275, R276 and R277. GROUP_FORM defines its group, gives each member's named banks to the context of the group and ends once their
handovers are over; DISSOLVE removes the group; either waits for the commands of the group that are issued and not complete, and
is refused where a ground of R276 holds when it acts. -/
def Obligations.GroupsFormAndDissolve : Prop :=
  ∀ (s : State) (id : CmdId) (c : Cmd), s.Inv → s.Runs id 0xA0 c →
    let d := c.desc
    let g := gfGroup d
    let ms := bitmapMembers (c.records.getD 1 [])
    let ws := s.groupWrites d ms
    let waits := ws.filterMap fun w => (s.cellOf w.1).map fun p => p * 32 + w.2
    let busy := (s.groups.get? g).isSome && s.groupBusy g id
    (c.begun = false → busy = true →
      exec (if gfDissolve d then .dissolve id else .groupForm id) s = .next s)
    ∧ (∀ v, gfDissolve d = false → c.begun = false → busy = false → worst (s.formViols d (c.records.getD 1 [])) = some v →
        exec (.groupForm id) s = .next (s.finish id v.ending))
    ∧ (gfDissolve d = false → c.begun = false → busy = false → s.formViols d (c.records.getD 1 []) = [] →
        ∃ t, exec (.groupForm id) s = .next t
          ∧ t.groups.get? g = some ⟨gfCtx d, gfDefer d, ms, bitsOf (u32 d 36) 23 0, bitsOf (u32 d 36) 31 24, []⟩
          ∧ (∀ k, k ≠ g → t.groups.get? k = s.groups.get? k)
          ∧ (∀ l ∈ ms, ∀ b ∈ gfBanks d, ∀ p, p < 832 → s.cellOf l = some p → s.slotOwner l b ≠ some (gfCtx d) →
              t.rd (ownerReg p b) = 64 + gfCtx d)
          ∧ (waits = [] → t.EndedAs id Status.ok.plain)
          ∧ (waits ≠ [] → t.cmd? id = some { c with begun := true, awaits := waits })
          ∧ { t with regs := s.regs, cells := s.cells, dies := s.dies, groups := s.groups, cmds := s.cmds } = s)
    ∧ (gfDissolve d = true → busy = false → s.dissolveViols d ≠ [] →
        exec (.dissolve id) s = .next (s.finish id (formatViol 32).ending))
    ∧ (gfDissolve d = true → busy = false → s.dissolveViols d = [] → s.groups.Pairwise (fun a b => a.1 < b.1) →
        ∃ t, exec (.dissolve id) s = .next t ∧ t.groups.get? g = none ∧ (∀ k, k ≠ g → t.groups.get? k = s.groups.get? k)
          ∧ t.EndedAs id Status.ok.plain ∧ { t with groups := s.groups, cmds := s.cmds } = s)

/-- R280, R281, R283, R285 and R286. CELL_RETURN puts a fenced cell, cleared and without owners, back into the pool, or ends with AUX 1
where its test fails; CELL_FENCE takes a pooled cell out, and fills the slot of a fenced cell with the lowest spare under the next
incarnation; the drain marker of a fenced cell ends the draining of its slot. -/
def Obligations.CellsReturnAndAreFenced : Prop :=
  ∀ (s : State) (id : CmdId) (c : Cmd) (cell : Nat), s.Inv →
    (s.Runs id 0xA1 c → bodyCell c.desc = some cell → (s.die (cell / 104)).inService = true → (s.cell cell).fusedOut = false →
      (s.cell cell).mode = .fenced →
      exec (.cellReturn id false) s = .next (s.finish id (okAux 1))
      ∧ ∃ t, exec (.cellReturn id true) s = .next t ∧ t.EndedAs id (okAux 0)
        ∧ t.cell cell = { s.cell cell with mode := .idle, inPool := true, portsClosed := false, handovers := [] }
        ∧ (∀ k, k ≠ cell → t.cell k = s.cell k)
        ∧ (∀ b, b < 32 → ownerOf (t.rd (ownerReg cell b)) = none)
        ∧ (∀ o, o < 0x380000 → memGet t.mem.cells (cellKey cell o) = 0)
        ∧ { t with regs := s.regs, cells := s.cells, mem := s.mem, cmds := s.cmds } = s)
    ∧ (s.Runs id 0xA1 c → bodyCell c.desc = some cell → (s.cell cell).mode ≠ .fenced →
        ∀ pass, exec (.cellReturn id pass) s = .next (s.finish id (formatViol 32).ending))
    ∧ (s.Runs id 0xA2 c → bitOf (u32 c.desc 32) 10 = false → c.begun = false → bodyCell c.desc = some cell →
        (s.die (cell / 104)).inService = true → (s.cell cell).fusedOut = false → (s.cell cell).mode ≠ .fenced →
        (s.cell cell).placing = false →
        ((s.cell cell).inPool = true →
          ∃ t, exec (.cellFence id) s = .next t ∧ t.EndedAs id (okAux 0) ∧ (t.cell cell).mode = .fenced ∧ (t.cell cell).inPool = false
            ∧ ∀ k, k ≠ cell → t.cell k = s.cell k)
        ∧ (∀ l, (s.cell cell).inPool = false → (s.cell cell).logical = some l → l / 96 = cell / 104 → (s.lslot l).draining = false →
            (∀ x ∈ s.cmds, hOpcode x.desc ≠ 0x20 ∧ x.run.holds = []) →
            ∃ t, exec (.cellFence id) s = .next t ∧ (t.cell cell).mode = .fenced ∧ (t.cell cell).logical = none
              ∧ (t.lslot l).inc = ((s.lslot l).inc + 1) % 256 ∧ (t.lslot l).draining = true ∧ (t.lslot l).inService = false
              ∧ (s.spare (l / 96) = none → (t.lslot l).phys = none ∧ t.EndedAs id (okAux 1))
              ∧ (∀ p, s.spare (l / 96) = some p → p ≠ cell → (t.lslot l).phys = some (p % 104) ∧ (t.cell p).logical = some l
                  ∧ (t.cell p).inPool = false ∧ ∃ x, t.cmd? id = some x ∧ x.ending = none ∧ x.begun = true
                    ∧ x.awaits = (upTo 32).map fun b => p * 32 + b)))
    ∧ (∀ l, (s.cell cell).formerly = some l →
        ∃ t, exec (.drainMarkerArrival cell) s = .next t ∧ (t.lslot l).draining = false ∧ (t.cell cell).formerly = none
          ∧ ((∀ x ∈ s.cmds, hOpcode x.desc ≠ 0x20) → { t with cells := s.cells, dies := s.dies } = s))

/-- R400–R405 and R414: the operations of GROUP_SET. DEFINE of a group that no accepted bucket uses stores its record and starting
counters; RETIRE, SET_COUNTERS and REFRESH act on a defined group that no accepted bucket uses, and are refused otherwise; QUERY writes
the status record. -/
def Obligations.GroupSetDefinesAndChangesGroups : Prop :=
  ∀ (s : State) (id : CmdId) (c : Cmd), s.Runs id 0x80 c →
    let d := c.desc
    let die := gsDie d
    let gi := gsGroup d
    let r := c.records.getD 1 []
    let refused := s.finish id (formatViol 32).ending
    (gsOp d = 0 → (s.die die).inService = true → (s.ugroup die gi).any UGroup.inUse = true → exec (.groupDefine id) s = .next refused)
    ∧ (∀ e, gsOp d = 0 → (s.die die).inService = true → (s.ugroup die gi).any UGroup.inUse = false → s.groupReach r = [] →
        s.readBytes (s.groupAcc (gRec r).ctx (gRec r).sched 272) (gRec r).sched 272 = .ok e → scheduleBad e (gRec r).isPre = false →
        ∃ t, exec (.groupDefine id) s = .next t ∧ t.EndedAs id Status.ok.plain
          ∧ (∃ x, t.ugroup die gi = some x ∧ x.record = r ∧ x.collect = u32 d 48 ∧ x.bc = u32 d 52 ∧ x.position = u32 d 56
              ∧ x.appliedGen = u16 e 8 ∧ x.mismatch = false ∧ x.refreshes = [] ∧ x.steps = [])
          ∧ (∀ k g, (k ≠ die ∨ g ≠ gi) → t.ugroup k g = s.ugroup k g)
          ∧ (gsZero d = false → { t with upd := s.upd, cmds := s.cmds } = s))
    ∧ ((∀ g, s.ugroup die gi = some g → g.inUse = true) →
        (gsOp d = 1 → exec (.groupRetire id) s = .next refused) ∧ (gsOp d = 2 → exec (.setCounters id) s = .next refused)
          ∧ (gsOp d = 3 → exec (.refresh id) s = .next refused))
    ∧ (∀ g, s.ugroup die gi = some g → g.inUse = false →
        (gsOp d = 1 → (s.updDieOf die).groups.Pairwise (fun a b => a.1 < b.1) →
          ∃ t, exec (.groupRetire id) s = .next t ∧ t.EndedAs id Status.ok.plain ∧ t.ugroup die gi = none
            ∧ (∀ k j, (k ≠ die ∨ j ≠ gi) → t.ugroup k j = s.ugroup k j) ∧ { t with upd := s.upd, cmds := s.cmds } = s)
        ∧ (gsOp d = 2 →
          ∃ t, exec (.setCounters id) s = .next t ∧ t.EndedAs id Status.ok.plain
            ∧ t.ugroup die gi = some { g with collect := u32 d 48, bc := u32 d 52, position := u32 d 56, mismatch := false,
                                              bcLong := decide (2 ^ 24 ≤ u32 d 52) }
            ∧ (∀ k j, (k ≠ die ∨ j ≠ gi) → t.ugroup k j = s.ugroup k j) ∧ { t with upd := s.upd, cmds := s.cmds } = s)
        ∧ (gsOp d = 3 → (gRec g.record).isPre = false → exec (.refresh id) s = .next refused)
        ∧ (gsOp d = 3 → (gRec g.record).isPre = true → stepAfter (u32 d 48) g.collect = false →
            exec (.refresh id) s = .next (s.finish id (formatViol 48).ending))
        ∧ (gsOp d = 3 → (gRec g.record).isPre = true → stepAfter (u32 d 48) g.collect = true →
          ∃ t, exec (.refresh id) s = .next t ∧ t.EndedAs id Status.ok.plain
            ∧ t.ugroup die gi = some { g with refreshStep := u32 d 48, refreshes := g.refreshes ++ [u32 d 48] }
            ∧ { t with upd := s.upd, cmds := s.cmds } = s))
    ∧ (∀ g x, gsOp d = 4 → s.ugroup die gi = some g → s.addrJudge id.ctx (u64 d 40) 64 false true = .ok x →
        let w := s.writeBytes { x with id := some id } (u64 d 40) (statusRecord g)
        w.2 = none → exec (.query id) s = .next (w.1.finish id Status.ok.plain))

/-- R407, R418, R422, R437 and R438. A staged block waits for the earlier blocks of its group, for the parked blocks before it that may
be applied, until its step may be applied, and while the updater is under test; then it leaves staging. A skipped zero block of a SKIP_IDLE group counts as applied and changes no byte of memory, and a group whose elements
have all passed goes on to the next step. -/
def Obligations.StagedBlocksLeaveInOrder : Prop :=
  ∀ (s : State) (d k : Nat) (b : Staged), s.Inv → (s.updDieOf d).staged[k]? = some b →
    let earlier := s.behind d b.group k
    ((earlier = true ∨ s.mayApply b.step = false ∨ s.unitOn d 4 = false) → exec (.stagedBlockApply d k) s = .next s)
    ∧ ∀ g, earlier = false → s.mayApply b.step = true → s.unitOn d 4 = true → s.ugroup d b.group = some g → stepAfter b.step g.collect = false →
        s.journalRoom d b.group b.step b.first b.vals.length = true →
        (∃ t, exec (.stagedBlockApply d k) s = .next t ∧ (t.updDieOf d).staged = (s.updDieOf d).staged.eraseIdx k)
        ∧ ∀ u, d < 8 → g.step? b.step = some u → u.sched.isSome = true → g.mapDue u = false → u.before = [] →
            (gRec g.record).isPre = false → (gRec g.record).skipIdle = true → b.zero = true →
            let u' := { u with applied := u.applied ++ [(b.first, b.first + b.vals.length)] }
            ∃ t x, exec (.stagedBlockApply d k) s = .next t ∧ t.mem = s.mem ∧ t.ugroup d b.group = some x
              ∧ x.step? b.step = some u'
              ∧ t.rd (regDie .updBlocksApplied d) = (s.rd (regDie .updBlocksApplied d) + 1) % 2 ^ 64
              ∧ (g.collect = b.step → x.collect = if coveredIn u'.applied 0 (gRec g.record).elements = (gRec g.record).elements
                  then (b.step + 1) % 2 ^ 32 else b.step)

/-- R426–R428, R436, R435 and R467: the operations of STEP_CONTROL and the stall report. OPEN takes the configuration record, CLOSE waits
until no step is undecided, VOTE counts for an undecided step or raises DRIVER, WAIT ends as the decision says, PARTICIPANTS is taken at
an OPEN master. -/
def Obligations.StepsOpenVoteWaitAndClose : Prop :=
  ∀ (s : State) (id : CmdId) (c : Cmd), (s.Runs id 0x81 c →
    let d := c.desc
    let t := scStep d
    let r := c.records.getD 1 []
    let refused := s.finish id (formatViol 32).ending
    (scOp d = 0 → s.step.opened = true → ∃ e, exec (.stepOpen id) s = .next (s.finish id e) ∧ e.status = Status.descFormat.code)
    ∧ (scOp d = 0 → s.openViols r = [] →
        ∃ u, exec (.stepOpen id) s = .next u ∧ u.EndedAs id Status.ok.plain ∧ u.step.opened = true ∧ u.step.oldest = u32 r 0
          ∧ u.step.participants = u32 r 4 ∧ u.step.lead = u16 r 8 ∧ u.step.timeout = u16 r 10 ∧ u.step.exportFlow = u16 r 12
          ∧ u.step.applyAhead = scAhead d ∧ u.step.votes = [] ∧ u.step.reasons = []
          ∧ (∀ k, k < 8 → (s.die k).inService = true → (u.updDieOf k).journalSize = u64 r (24 + 48 * k)
              ∧ (u.updDieOf k).ringBase = u64 r (32 + 48 * k) ∧ (u.updDieOf k).ringSize = u64 r (40 + 48 * k))
          ∧ { u with step := s.step, upd := s.upd, cmds := s.cmds } = s)
    ∧ (scOp d = 1 → s.anyUndecided = true →
        ∃ u, exec (.stepClose id) s = .next u ∧ u.cmd? id = some { c with begun := true } ∧ { u with cmds := s.cmds } = s)
    ∧ (scOp d = 1 → s.anyUndecided = false →
        exec (.stepClose id) s = .next (({ s with step := { s.step with opened := false } }).finish id Status.ok.plain))
    ∧ (scOp d = 2 → scSkip d = false → s.step.opened = true → s.decided t = false →
        ∃ u, exec (.vote id) s = .next u ∧ u.EndedAs id Status.ok.plain ∧ t ∈ u.step.votes ∧ u.step.reasons = s.step.reasons
          ∧ (∀ v, v ≠ t → (v ∈ u.step.votes ↔ v ∈ s.step.votes)) ∧ { u with step := s.step, cmds := s.cmds } = s)
    ∧ (scOp d = 2 → scSkip d = true → s.step.opened = true →
        ∃ u, exec (.vote id) s = .next u ∧ u.EndedAs id Status.ok.plain ∧ u.step.votes = s.step.votes
          ∧ u.reasonsFor (if s.decided t then s.step.oldest else t)
              = s.reasonsFor (if s.decided t then s.step.oldest else t) ||| 2 ^ 8
          ∧ { u with step := s.step, cmds := s.cmds } = s)
    ∧ (scOp d = 3 → ∀ commit reasons, s.decisionOf t = some (commit, reasons) →
        exec (.stepWait id) s = .next (s.finish id (waitEnding commit reasons)))
    ∧ (scOp d = 3 → s.decisionOf t = none →
        exec (.stepWait id) s = .next (if s.decided t then s.finish id (formatViol 36).ending
          else s.updCmd id fun x => { x with begun := true }))
    ∧ (scOp d = 4 → exec (.participants id) s = .next (if s.time.role = .master ∧ s.step.opened = true
        then ({ s with step := { s.step with newParticipants := some (u32 d 48) } }).finish id Status.ok.plain else refused)))
  ∧ (∀ m : Nat, (waitEnding true m).status = 0 ∧ (waitEnding true m).aux = m % 65536 ∧ (waitEnding false m).aux = m % 65536
      ∧ (waitEnding false m).status = (if m.testBit 2 then 0x0701 else if m.testBit 0 || m.testBit 1 then 0x0703
          else if m.testBit 7 then 0x0801 else 0x0702))
  ∧ (∀ f, s.Inv → s.step.voteFrame = some f → s.step.opened = true → s.step.reported = false →
      (s.decisionHeld = true → exec .consensusStall s = .next s) ∧ (s.frame < f + s.step.timeout → exec .consensusStall s = .next s)
      ∧ (f + s.step.timeout ≤ s.frame → s.decisionHeld = false →
        ∃ u, exec .consensusStall s = .next u ∧ u.step.stalled = true ∧ u.step.oldest = s.step.oldest
          ∧ u.rd (regDie0 .consensusStalls) = (s.rd (regDie0 .consensusStalls) + 1) % 2 ^ 64))

/-- R421, R433, R434, R436, R439 and R440. At its frame a decision takes effect once: the next step becomes the oldest undecided one, the
counter of commits or skips advances and WAIT commands of the step end. A commit marks every record of the step committed; a skip frees
every record of it; with SPAN2 the step after it is skipped in the same frame. -/
def Obligations.DecisionsCommitOrReverse : Prop :=
  ∀ (s : State) (d : Decision), s.Inv → s.dueDecision = some d →
    let takes (t : State) : Prop :=
      t.step.oldest = (d.step + (if d.span2 then 2 else 1)) % 2 ^ 32
      ∧ t.step.committed = (if d.commit then some d.step else s.step.committed)
      ∧ (∀ k, k < 8 → ∀ r ∈ (t.updDieOf k).journal, r.step = d.step → r.committed = true)
      ∧ (∀ r ∈ t.step.votes, r ∈ s.step.votes ∧ r ≠ d.step)
      ∧ (∀ id c, s.cmd? id = some c → c.ending = none → c.begun = true → isOpcode 0x0081 c.desc = true → scOp c.desc = 3 →
          scStep c.desc = d.step → t.EndedAs id (waitEnding d.commit d.reasons))
      ∧ (d.span2 = false → t.rd (regDie0 (if d.commit then .stepsCommitted else .stepsSkipped))
          = (s.rd (regDie0 (if d.commit then .stepsCommitted else .stepsSkipped)) + 1) % 2 ^ 64)
    (d.commit = true → ∃ t, exec .stepCommit s = .next t ∧ takes t)
    ∧ (d.commit = true → exec .stepSkip s = .next s)
    ∧ (d.commit = false → ∃ t, exec .stepSkip s = .next t ∧ takes t)
    ∧ (d.commit = false → exec .stepCommit s = .next s)

/-- R439, R443, R444 and R447. The oldest committed record of a die leaves its journal for the export ring while the ring has room, and
counts in Tally; a release outside what is appended and not released is ignored. -/
def Obligations.CommittedRecordsDrainIntoTheRing : Prop :=
  ∀ (s : State) (d : Nat) (r : DiffRec), s.Inv → d < 8 →
    let u := s.updDieOf d
    (u.journal.find? (fun x => x.committed) = some r → (s.drainRoom d = false ∨ s.unitOn d 5 = false) →
      exec (.recordDrain d) s = .next s)
    ∧ (u.journal.find? (fun x => x.committed) = some r → s.drainRoom d = true → s.unitOn d 5 = true →
        let a := u.ringBase + s.rd (regDie .exportHead d) % (u.ringSize / 4160) * 4160
        ∃ t, exec (.recordDrain d) s = .next t
          ∧ (t.updDieOf d).journal = u.journal.filter (fun x => x.seq != r.seq)
          ∧ t.mem = (s.writeBytes (s.groupAcc 0 a 4160) a (diffBytes s.node d r)).1.mem
          ∧ t.rd (regDie .exportHead d) = (s.rd (regDie .exportHead d) + 1) % 2 ^ 64
          ∧ t.rd (regDie .tallyUpdates d) = (s.rd (regDie .tallyUpdates d) + 1) % 2 ^ 64
          ∧ (∀ k, k ≠ d → t.updDieOf k = s.updDieOf k))
    ∧ (∀ (secure : Bool) (v : Nat) (n h : RegName) (i : Instr), s.ready = true → v < 2 ^ 64 →
        (n, h, i) ∈ [(RegName.exportRelease, RegName.exportHead, Instr.exportRelease secure d v),
                     (RegName.foreignRelease, RegName.foreignHead, Instr.foreignRelease secure d v)] →
        s.Accepts secure (regDie n d) →
        ((v < s.rd (regDie n d) ∨ s.rd (regDie h d) < v) → exec i s = .next s)
        ∧ (s.rd (regDie n d) ≤ v → v ≤ s.rd (regDie h d) →
            ∃ t, exec i s = .next t ∧ t.rd (regDie n d) = v ∧ (∀ q : Reg, q.inMap → q ≠ regDie n d → t.rd q = s.rd q)
              ∧ { t with regs := s.regs, upd := s.upd } = s))

/-- R449–R452: the operations of DIGEST_COMPARE. SNAP waits for its decision and writes the module digests; BLOCKS and REPAIR wait until no
step is undecided, and write the digests of a region and a block of the group's plane with its record; ROLLBACK goes back to its step or
is refused once a later record has been released. -/
def Obligations.ReplicasAreComparedAndRepaired : Prop :=
  ∀ (s : State) (id : CmdId) (c : Cmd), s.Inv → s.Runs id 0x83 c →
    let d := c.desc
    let t := dcStep d
    let i : Instr := match dcOp d with | 0 => .snap id | 1 => .blocks id | 2 => .repair id | _ => .rollback id
    let waits := s.updCmd id fun x => { x with begun := true }
    (dcOp d = 0 → ∀ reasons, s.decisionOf t = some (false, reasons) → exec i s = .next (s.finish id Status.stepSkipped.plain))
    ∧ (dcOp d = 0 → s.decisionOf t = none → s.decided t = false → s.committedAfter t = false → exec i s = .next waits)
    ∧ (dcOp d = 0 → ∀ reasons, s.decisionOf t = some (true, reasons) → s.committedAfter t = false →
        (s.drainsLeft t = true → exec i s = .next waits)
        ∧ (s.drainsLeft t = false →
            (∀ k, k < 8 → (s.die k).inService = true → ∀ x ∈ s.regionsOf k,
              ((s.updDieOf k).digests.get? (regionKey x.1 x.2.1 x.2.2)).isSome = true) →
            let es := s.moduleDigests
            let need := 64 + 24 * es.length
            (u64 d 48 < need → exec i s = .next (s.finish id ⟨0x0202, 0, detail64 0 need⟩))
            ∧ (need ≤ u64 d 48 →
                let head := record 64 [(0, 4, t), (8, 8, es.length), (16, 16, es.vals.foldl (fun a x => a ^^^ x) 0)]
                let w := s.writeBytes (s.dcAcc id (u64 d 40) need) (u64 d 40) (head ++ (es.map snapEntry).flatten)
                w.2 = none → exec i s = .next (w.1.finish id Status.ok.plain))))
    ∧ ((dcOp d = 1 ∨ dcOp d = 2 ∨ dcOp d = 3) → s.anyUndecided = true → exec i s = .next waits)
    ∧ (s.anyUndecided = false → (dcOp d = 1 ∨ dcOp d = 2) → ∀ g b0 n a, s.dcPlaneOf d = .ok (g, b0, n, a) →
        (dcOp d = 1 → ∀ held : Nat → List Byte,
          (∀ k, k < 256 → b0 ≤ 256 * dcIndex d + k → 256 * dcIndex d + k < b0 + n →
            let p := a + 4096 * (256 * dcIndex d + k - b0)
            s.readBytes (s.groupAcc g.ctx p 4096) p 4096 = .ok (held k)) →
          let digest (k : Nat) : Nat :=
            let b := 256 * dcIndex d + k
            if b0 ≤ b ∧ b < b0 + n then blockDigest g.tensorId (dcPlane d) b (held k) else 0
          let w := s.writeBytes (s.dcAcc id (u64 d 40) 4096) (u64 d 40) ((upTo 256).map fun k => leBytes 16 (digest k)).flatten
          w.2 = none → exec i s = .next (w.1.finish id Status.ok.plain))
        ∧ (dcOp d = 2 → (dcIndex d < b0 ∨ b0 + n ≤ dcIndex d) → exec i s = .next (s.finish id (formatViol 60).ending))
        ∧ (dcOp d = 2 → b0 ≤ dcIndex d → dcIndex d < b0 + n → (s.updDieOf (dcDie d)).owed < (s.updDieOf (dcDie d)).capacity →
            let p := a + 4096 * (dcIndex d - b0)
            ∀ new old, s.readBytes (s.dcAcc id (u64 d 64) 4096) (u64 d 64) 4096 = .ok new →
              s.readBytes (s.groupAcc g.ctx p 4096) p 4096 = .ok old →
              let w := s.writeBytes (s.groupAcc g.ctx p 4096) p new
              w.2 = none →
              ∃ u x, exec i s = .next u ∧ u.EndedAs id Status.ok.plain ∧ u.mem = w.1.mem
                ∧ (u.updDieOf (dcDie d)).journal = (s.updDieOf (dcDie d)).journal ++ [x]
                ∧ x.seq = s.rd (regDie .journalSeq (dcDie d)) ∧ x.group = dcGroup d ∧ x.plane = dcPlane d ∧ x.repair = true
                ∧ x.block = dcIndex d ∧ x.addr = p ∧ x.delta = xorBytes old new ∧ x.committed = true
                ∧ (∀ t0, s.step.committed = some t0 → x.step = t0)))
    ∧ (dcOp d = 3 → s.anyUndecided = false → (∀ u ∈ s.upd.vals, ∀ r ∈ u.journal, r.committed = false) →
        ((∃ k u, k < 8 ∧ (s.die k).inService = true ∧ (s.updDieOf k).releasedStep = some u ∧ stepAfter u t = true) →
          exec i s = .next (s.finish id (formatViol 36).ending))
        ∧ ((∀ k u, k < 8 → (s.die k).inService = true → (s.updDieOf k).releasedStep = some u → stepAfter u t = false) →
            (∀ k, k < 8 → (s.die k).inService = true → s.ringAfter k t = .ok []) →
            ∃ u, exec i s = .next u ∧ u.EndedAs id Status.ok.plain ∧ u.step.oldest = (t + 1) % 2 ^ 32 ∧ u.upd = s.upd ∧ u.mem = s.mem))

/-- R453. An evaluation window opens after the decision of its step, unless a window is open or a later block was applied, and closes at
its END or when its time is over; an END after that ends with EVAL_OVERRUN. -/
def Obligations.EvaluationWindowsOpenAndClose : Prop :=
  ∀ (s : State) (id : CmdId) (c : Cmd),
    let d := c.desc
    let t := u32 d 36
    (s.Runs id 0x82 c → evOp d = 0 → s.openWindow.isSome = true → exec (.evaluateBegin id) s = .next (s.finish id (formatViol 32).ending))
    ∧ (s.Runs id 0x82 c → evOp d = 0 → s.openWindow = none →
        (∀ m, s.decisionOf t = some (false, m) → exec (.evaluateBegin id) s = .next (s.finish id Status.stepSkipped.plain))
        ∧ (∀ m, s.decisionOf t = some (true, m) → s.appliedAfter t = true →
            exec (.evaluateBegin id) s = .next (s.finish id Status.evalOverrun.plain))
        ∧ (∀ m, s.decisionOf t = some (true, m) → s.appliedAfter t = false →
            exec (.evaluateBegin id) s
              = .next (({ s with step := { s.step with window := some (t, s.now + 1024 * u32 d 40) } }).finish id Status.ok.plain))
        ∧ (s.decisionOf t = none → s.decided t = false →
            exec (.evaluateBegin id) s = .next (s.updCmd id fun x => { x with begun := true })))
    ∧ (s.Runs id 0x82 c → evOp d = 1 →
        (∀ close, s.step.window = some (t, close) →
          (s.now < close →
            exec (.evaluateEnd id) s = .next (({ s with step := { s.step with window := none } }).finish id Status.ok.plain))
          ∧ (close ≤ s.now → exec (.evaluateEnd id) s = .next (s.finish id Status.evalOverrun.plain)))
        ∧ (s.step.window = none → exec (.evaluateEnd id) s = .next (s.finish id Status.evalOverrun.plain)))
    ∧ (∀ w, s.step.window = some w →
        exec .evalWindowExpiry s = .next (if w.2 ≤ s.now then { s with step := { s.step with window := none } } else s))

/-- R358, R364, R365, R367 and R370. FABRIC_SEND and COLLECTIVE place their messages at the source, one after another on a flow; a SIGNAL is
a message of one slot; a contribution without error terms is sent as it is stored, and the zero-block marker in its place counts too. The
command ends once its slots have left and the retention of each has ended. -/
def Obligations.SendsPlaceTheirMessages : Prop :=
  ∀ (s : State) (id : CmdId) (c : Cmd), s.Inv → c.begun = false → s.sendsBefore c = false →
    let d := c.desc
    let begun := some { c with begun := true }
    let shown (l : List OutMsg) := l.map fun m => (m.id, m.flow, m.type, m.slots.map (·.2), m.next)
    let signal := (some id, fsFlow d, 3, [signalPayload (u32 d 64) (u32 d 68)], 0)
    (s.Runs id 0x70 c → fsType d = 3 → fsSignal d = true →
      ∃ t, exec (.fabricSend id) s = .next t ∧ shown t.fabric.out = shown s.fabric.out ++ [signal] ∧ t.cmd? id = begun
        ∧ { t with fabric := s.fabric, cmds := s.cmds } = s)
    ∧ (∀ x bs, s.Runs id 0x70 c → fsType d ≠ 3 → s.tensRun id.ctx (u32 d 32) = some x →
        s.readBytes (s.accOf id x) (x.base + u64 d 48) (fsLength d) = .ok bs → bs ≠ [] →
        ∃ t, exec (.fabricSend id) s = .next t ∧ t.cmd? id = begun
          ∧ shown t.fabric.out = shown s.fabric.out
              ++ [(some id, fsFlow d, fsType d, (writePayloads (u64 d 40) (u8 d 72) (ceilDiv bs.length 496) bs).map (padTo 512), 0)]
              ++ (if fsSignal d then [signal] else []))
    ∧ (s.Runs id 0x71 c → cTx d ≠ 0xFFFF → cUpdate d = false → cZero d = true → s.resultSlots c ≤ 65536 →
        ∃ t, exec (.collective id) s = .next t ∧ t.cmd? id = begun
          ∧ shown t.fabric.out = shown s.fabric.out
              ++ [(some id, cTx d, 4, (zeroSlots (max 1 (s.resultSlots c))).map fun p => padTo 512 p.2, 0)])
    ∧ (∀ x bs, s.Runs id 0x71 c → cTx d ≠ 0xFFFF → cUpdate d = false → cZero d = false → cErr d = noHandle →
        s.tensRun id.ctx (cSrc d) = some x → s.storedBlocks (s.accOf id x) x = .ok bs → bs ≠ [] → (gradSlots bs).length ≤ 65536 →
        ∃ t, exec (.collective id) s = .next t ∧ t.cmd? id = begun
          ∧ shown t.fabric.out = shown s.fabric.out ++ [(some id, cTx d, 4, (gradSlots bs).map fun p => padTo 512 p.2, 0)])
    ∧ (∀ k b, s.Runs k 0x70 b → b.begun = true → b.run.stop = none → (∀ m ∈ s.fabric.out, m.id ≠ some k) →
        (∀ r ∈ s.fabric.retained, r.id = some k → r.frame + 2 * r.hops + 3 < s.frame) →
        ∃ t, exec .retentionEnd s = .next t ∧ t.EndedAs k Status.ok.plain
          ∧ ∀ r, r ∈ t.fabric.retained ↔ r ∈ s.fabric.retained ∧ (s.frame < r.frame + 2 * r.hops + 3
              ∨ (s.frame = r.frame + 2 * r.hops + 3 ∧ r.requested = true)))

/-- R345–R351. A valid image becomes the standby table, an image at fault is refused by the offset of its first fault and one whose
receive space overflows by SLOT_ADMISSION; a switch is pending from its command to its frame, when the standby table becomes active and
the active one is retired for 22 frames; a failover ends every incomplete FABRIC_SEND and COLLECTIVE with FLOW_LOST. -/
def Obligations.SlotTablesLoadAndSwitch : Prop :=
  ∀ (s : State) (id : CmdId) (c : Cmd),
    let f := s.fabric
    let dies (d : Nat) : Bool := (s.die d).inService
    (∀ x img, s.Runs id 0x72 c → s.tensRun id.ctx (u32 c.desc 32) = some x → f.pendingSwitch = none → 64 ≤ x.ext 0 →
      s.readBytes (s.accOf id x) x.base 64 = .ok (img.take 64) → headFaults img = [] → imgBytes img ≤ x.ext 0 →
      s.readBytes (s.accOf id x) x.base (imgBytes img) = .ok img →
      (∀ o, leastOf (imageFaults dies img) = some o →
        ∃ t, exec (.slotTableLoad id) s = .next t ∧ t.fabric = f ∧ t.EndedAs id (refusal .descFormat (u32 c.desc 32) o))
      ∧ (∀ e, leastOf (imageFaults dies img) = none → (imgTable img).excess dies = some e →
          ∃ t, exec (.slotTableLoad id) s = .next t ∧ t.fabric = f ∧ t.EndedAs id ⟨0x0601, 0, detail4 0 (imgRx img + 8 * e) 0 0⟩)
      ∧ (leastOf (imageFaults dies img) = none → (imgTable img).excess dies = none →
          ∃ t, exec (.slotTableLoad id) s = .next t ∧ t.fabric = { f with standby := some (imgTable img) } ∧ t.EndedAs id Status.ok.plain))
    ∧ (s.Runs id 0x73 c → c.begun = false → f.pendingSwitch = none → ∀ x, f.standby = some x →
        exec (.slotTableSwitch id) s = .next (
          if u64 c.desc 32 < s.frame + 24 then s.finish id (formatViol 32).ending
          else if x.id ≠ u32 c.desc 40 then s.finish id (formatViol 40).ending
          else ({ s with fabric := { f with pendingSwitch := some ⟨u64 c.desc 32, false, some id⟩ } }).updCmd id
            fun x => { x with begun := true }))
    ∧ (∀ x, f.standby = some x →
        (s.cutOff = false → exec .departureCutoff s = .next s)
        ∧ (s.cutOff = true → ∃ t, exec .departureCutoff s = .next t ∧ t.fabric.pendingSwitch = f.pendingSwitch
            ∧ ∀ m ∈ t.fabric.out, m ∈ f.out ∧ (m.be = none → m.begun = true → ∃ r, x.flow? m.flow = some r ∧ r.epoch = m.epoch)))
    ∧ (∀ q x, f.pendingSwitch = some q → f.standby = some x →
        let row : Instr := if q.failover then .failoverSwitch else .tableSwitch
        (s.frame < q.frame → exec row s = .next s)
        ∧ (q.frame ≤ s.frame → ∃ t, exec row s = .next t ∧ t.fabric.active = some x ∧ t.fabric.standby = none
            ∧ t.fabric.retired = f.active ∧ t.fabric.switchFrame = q.frame ∧ t.fabric.pendingSwitch = none
            ∧ t.fabric.lastFailover = q.failover
            ∧ (∀ k b, q.by' = some k → s.Runs k 0x73 b → (∀ m ∈ f.out, m.id ≠ some k) →
                (q.failover = true → ∀ y ∈ s.cmds, y.id = k → y = b) → t.EndedAs k (okAux (q.frame % 2 ^ 32)))
            ∧ (∀ k b op, (op = 0x70 ∨ op = 0x71) → q.failover = true → s.Runs k op b → t.EndedAs k Status.flowLost.plain)))
    ∧ (∀ x, f.retired = some x → exec .retiredTableDiscard s
        = .next (if f.switchFrame + 22 ≤ s.frame then { s with fabric := { f with retired := none } } else s))

/-- R13, R322–R325, R328, R331, R352, R354, R367 and R370. A slot leaves a port once, in its pip interval, as the 544 bytes that seal it
under the transmit key and FRAME_CTR in force (a key switch that is due comes first): the control slot, what a FORWARD entry takes from
its input, the slot of an ORIGIN entry whose turn it is among the flow's messages and entries, which is retained, or IDLE. FRAME_CTR
advances after slot 112. -/
def Obligations.SlotsLeaveByTheirEntries : Prop :=
  ∀ (s : State) (p n : Nat), s.Inv →
    let u := s.keySwitch p
    ((s.port p).rekey = none → u = s)
    ∧ ((s.now % 1024 < 9 * n ∨ 9 * n + 8 < s.now % 1024 ∨ (s.port p).mode = .down) → u.sendsNow p n = false)
    ∧ (u.sendsNow p n = false → exec (.slotTransmit p n) s = .next u)
    ∧ (u.sendsNow p n = true →
        ∃ t q, exec (.slotTransmit p n) s = .next t ∧ (t.port p).sent = some q ∧ q.frame = s.frame ∧ q.index = n
          ∧ q.key = (u.port p).txKey ∧ q.ctr = u.rd (portReg .txFrameCtr p) ∧ q.phase = (u.port p).keyPhase
          ∧ q.bytes = sealBytes q.key q.phase q.ctr n q.slot ∧ (t.port p).wire.get? n = some q.bytes
          ∧ t.rd (portReg .txFrameCtr p)
              = (if n = 112 ∧ (u.port p).txKey.isSome then (u.rd (portReg .txFrameCtr p) + 1) % 2 ^ 64 else u.rd (portReg .txFrameCtr p))
          ∧ (n = 0 → q.slot = ⟨3, 0, 0, 0, 0, 0, u.node, 0, u.frame % 2 ^ 32, u.controlPayload p u.frame⟩)
          ∧ (n ≠ 0 → u.portUp p = false → q.slot = idleSlot)
          ∧ (n ≠ 0 → u.portUp p = true → ∀ tb i, u.tableIn u.frame = some (tb, i) →
              (tb.txAt i p n = none → q.slot = idleSlot)
              ∧ ∀ e, tb.txAt i p n = some e →
                (e.kind = 2 → (u.inAt e.inPort e.inSlot).kind = 1 →
                  q.slot = { u.inAt e.inPort e.inSlot with hops := (u.inAt e.inPort e.inSlot).hops + 1 })
                ∧ (e.kind = 2 → (u.inAt e.inPort e.inSlot).kind = 2 → q.slot = missedSlot e.flow)
                ∧ (e.kind = 1 → e.repair = false → (∀ m ∈ u.fabric.out, m.be.isSome = true ∨ m.flow ≠ e.flow) → q.slot = idleSlot)
                ∧ (∀ r k j m, e.kind = 1 → e.repair = false → u.activeFlow e.flow = some r → u.cutOff = false →
                    u.retainedOn (p / 5) < 8192 → u.fabric.out[k]? = some m →
                    pickSlot e.flow u.frame u.fabric.out 0 (u.entriesBefore tb i p n e.flow) = some (k, j) →
                    q.slot = m.slotAt j u.node r.epoch u.frame
                      ∧ t.fabric.retained = u.fabric.retained ++ [⟨m.id, p, n, u.frame, r.hops, r.repairFlow, false, none, q.slot⟩]
                      ∧ t.fabric.out = if (m.depart j u.frame).next < m.slots.length then u.fabric.out.set k (m.depart j u.frame)
                          else u.fabric.out.eraseIdx k)
                ∧ (∀ m rest r, e.kind = 1 → e.repair = false → u.fabric.out = m :: rest → m.be = none → m.flow = e.flow →
                    m.ahead = [] → m.next < m.slots.length → u.entriesBefore tb i p n e.flow = 0 →
                    u.activeFlow e.flow = some r → u.cutOff = false → m.departs m.next u.frame = true → u.retainedOn (p / 5) < 8192 →
                    q.slot = m.slotAt m.next u.node r.epoch u.frame
                      ∧ t.fabric.out = if m.next + 1 < m.slots.length
                          then { m with next := m.next + 1, sentFrame := if m.next = 0 then u.frame else m.sentFrame } :: rest
                          else rest)))

/-- R13, R321, R324, R329, R355–R358, R360, R368, R369, R371 and R372. A slot presented in its interval, after those of lower ports and slots,
that FEC cannot correct is handled as MISSED, and a DELIVER entry then asks for it once; a good one goes to the unit of its flow, and a
further copy is counted and discarded. A SIGNAL waits for the missed slots before it and is then applied, or is discarded after a loss;
a missed slot that is not restored in time is lost and reported. -/
def Obligations.SlotsArriveOrAreMissed : Prop :=
  (∀ (s : State) (p n : Nat) (rx : RxSlot), s.Inv → p < 40 → 1 ≤ n → n ≤ 112 →
    ((s.portUp p = false ∨ s.now % 1024 < 9 * n ∨ 9 * n + 8 < s.now % 1024 ∨ s.frame * 128 + n ≤ (s.port p).seen) →
      s.presentsNow p n = false)
    ∧ (s.presentsNow p n = false → exec (.slotPresent p n rx) s = .next s)
    ∧ ∀ tb i e f, s.presentsNow p n = true →
        s.tableIn s.frame = some (tb, i) → tb.rxAt i p n = some e → e.action = 1 → e.repair = false → s.activeFlow e.flow = some f →
        (s.rxFlow f.flow).epoch = f.epoch → f.flow = e.flow → (s.fabric.lastFailover = false ∨ s.frame ≠ s.fabric.switchFrame) →
        let x := s.rxFlow f.flow
        (rx.fecOk = false → rx.corrected = 0 →
          ∃ t, exec (.slotPresent p n rx) s = .next t
            ∧ t.rd (portReg .fecUncorrected p) = (s.rd (portReg .fecUncorrected p) + 1) % 2 ^ 64
            ∧ t.rd (regDie0 .repairRequests) = (s.rd (regDie0 .repairRequests) + 1) % 2 ^ 64
            ∧ (t.rxFlow f.flow).missed = x.missed ++ [⟨s.frame - f.hops, p, n, s.frame, x.cur.map (·.1),
                x.cur.map fun c => c.2 + 1 + (x.missed.filter fun m => m.opened).length, true⟩]
            ∧ (t.port p).fecNow = true ∧ t.mem = s.mem)
        ∧ (∀ k h pl, (s.port p).rxKey = some k → openBytes (some k) (ctrOf n (s.rd (portReg .rxFrameCtr p))) n rx.bytes = some (h, pl) →
           bitOf (u8 rx.bytes 0) 4 = (s.port p).rxPhase →
           let sl := slotOf h pl
           rx.fecOk = true → bitsOf (u8 h 0) 7 5 = 0 → sl.kind = 1 →
           (s.port p).tableNamed s.frame ((s.tableIn (s.frame - 1)).elim 0 (fun x => x.1.id)) = true → sl.flow = e.flow → sl.hops < 6 →
           sl.epoch = f.epoch → unitTakes f.unit sl.type = true →
           (x.copyOf sl = true →
             ∃ t, exec (.slotPresent p n rx) s = .next t ∧ t.mem = s.mem ∧ t.fabric.rx = s.fabric.rx
               ∧ t.rd (regDie0 .duplicateDrops) = (s.rd (regDie0 .duplicateDrops) + 1) % 2 ^ 64)
           ∧ (x.copyOf sl = false → sl.isResend = false → x.dropping ≠ some sl.sent →
             s.fabric.waiters.any (Waiter.blocks (p / 5) f.unit) = false →
             (f.unit = 1 →
               ∃ t, exec (.slotPresent p n rx) s = .next t ∧ t.mem = s.mem ∧ (t.rxFlow f.flow).signals
                 = x.signals ++ [⟨sl.payload, x.missed.map Missed.place, x.lost⟩])
             ∧ (∀ acc, f.unit = 0 → sl.type = 1 → 1 ≤ u16 sl.payload 8 → u16 sl.payload 8 ≤ 496 → u8 sl.payload 10 = 0 →
                 s.allocJudge f.ctx (u64 sl.payload 0) (u16 sl.payload 8) false true = .ok acc →
                 let w := s.writeBytes acc (u64 sl.payload 0) (sliceB sl.payload 16 (u16 sl.payload 8))
                 (w.2 = none → ∃ t, exec (.slotPresent p n rx) s = .next t ∧ t.mem.cells = w.1.mem.cells ∧ t.mem.host = w.1.mem.host)
                 ∧ (w.2 = some .wait → ∃ t, exec (.slotPresent p n rx) s = .next t ∧ t.mem = s.mem
                     ∧ t.fabric.waiters = s.fabric.waiters ++ [.slot p f sl])))))
  ∧ ∀ (s : State) (flow : Nat) (f : FlowRec), s.Inv → s.activeFlow flow = some f → f.flow = flow → (s.rxFlow flow).epoch = f.epoch →
    (∀ w rest, (s.rxFlow flow).signals = w :: rest →
      (w.doomed = false → w.before ≠ [] → exec (.signalApply flow f.epoch) s = .next s)
      ∧ (w.doomed = false → w.before = [] → ∃ t, exec (.signalApply flow f.epoch) s = .next t ∧ (t.rxFlow flow).signals = rest
          ∧ t.msgs = s.msgs ++ ((signalEntries w.payload).filter fun e => refEnabled e.1).map fun e => ⟨f.ctx, e.1, e.2⟩)
      ∧ (w.doomed = true → ∃ t, exec (.signalApply flow f.epoch) s = .next t ∧ (t.rxFlow flow).signals = rest ∧ t.msgs = s.msgs))
    ∧ ∀ m, (s.rxFlow flow).missed.find? (fun x => x.frame == m.frame) = some m →
      (s.frame ≤ m.frame + 3 * f.hops + 3 → exec (.flowLoss flow f.epoch m.frame) s = .next s)
      ∧ (m.frame + 3 * f.hops + 3 < s.frame → ∃ t, exec (.flowLoss flow f.epoch m.frame) s = .next t
          ∧ t.rd (regDie0 .flowLosses) = (s.rd (regDie0 .flowLosses) + 1) % 2 ^ 64
          ∧ (t.rxFlow flow).lost = true ∧ m ∉ (t.rxFlow flow).missed)

/-- R329, R331, R335, R336, R343 and R428–R432. At a frame boundary a written ROLE comes into force, the accesses that wait are made again,
the consensus field of the frame is formed and an OPEN master decides; an invalid control slot counts against its port, and a valid one
gives the delay measurement its exchange and an UP port the sender's time, vote and credits. -/
def Obligations.FrameBoundariesFormTheField : Prop :=
  (∀ s : State, (s.frame ≤ s.time.frameDone → exec .frameStart s = .next s)
    ∧ (s.time.frameDone < s.frame →
        let v := ({ s with time := { s.time with frameDone := s.frame } }).roleChange.retryWaiters
        (s.fabric.waiters = [] → v = ({ s with time := { s.time with frameDone := s.frame } }).roleChange)
        ∧ ∃ t, exec .frameStart s = .next t ∧ t.time = v.time ∧ t.time.frameDone = s.frame ∧ t.step.field = v.consField
          ∧ t.step.participants = v.step.newParticipants.getD v.step.participants
          ∧ (v.time.role = .master → v.step.opened = true → v.decisionPending = false →
              (v.consField.reasons ≠ 0 ∨ v.consField.ready = v.step.participants) →
              t.step.prev = v.step.last ∧ t.step.last = some ⟨v.step.oldest, decide (v.consField.reasons = 0),
                decide (v.consField.reasons ≠ 0) && v.step.applyAhead, v.consField.reasons, s.frame - 1 + v.step.lead, false⟩)
          ∧ ((v.time.role ≠ .master ∨ v.step.opened = false ∨ v.decisionPending = true
                ∨ (v.consField.reasons = 0 ∧ v.consField.ready ≠ v.step.participants)) →
              t.step.prev = v.step.prev ∧ t.step.last = v.step.last)))
  ∧ ∀ (s : State) (p : Nat) (rx : RxSlot) (tRx : Nat), s.Inv → p < 40 → rx.corrected = 0 →
    let x := s.port p
    (x.mode.code < 3 → exec (.controlSlotReceive p rx tRx) s = .next s)
    ∧ (3 ≤ x.mode.code → rx.fecOk = false →
        ∃ t, exec (.controlSlotReceive p rx tRx) s = .next t
          ∧ t.port p = { x with fecNow := true, badControls := x.badControls + 1, ctl := (⟨tRx / 1024, false, 0⟩ :: x.ctl).take 2 }
          ∧ t.rd (portReg .fecUncorrected p) = (s.rd (portReg .fecUncorrected p) + 1) % 2 ^ 64)
    ∧ (∀ h pl, rx.fecOk = true → (s.openPhase p 0 rx.bytes).2 = some (h, pl) → bitsOf (u8 h 0) 7 5 = 0 → bitsOf (u8 h 0) 3 0 = 3 →
        controlReserved pl = false →
        (∀ m, x.mode = .measuring → delayOffset x.txTimes pl tRx = some m →
          ∃ t, exec (.controlSlotReceive p rx tRx) s = .next t
            ∧ (t.port p).mode = .measuring ∧ (t.port p).badControls = 0
            ∧ (t.port p).ctl = (⟨tRx / 1024, true, u32 pl 32⟩ :: x.ctl).take 2
            ∧ (t.port p).sender = some (u16 pl 28, u8 pl 30) ∧ (t.port p).echoTx = u64 pl 0 ∧ (t.port p).echoRx = tRx
            ∧ (t.port p).exchanges = x.exchanges + 1 ∧ (t.port p).delay = m.1.toNat % 65536)
        ∧ (x.mode = .up →
            ∃ t, exec (.controlSlotReceive p rx tRx) s = .next t ∧ (t.port p).badControls = 0
              ∧ (t.port p).ctl = (⟨tRx / 1024, true, u32 pl 32⟩ :: x.ctl).take 2
              ∧ (t.port p).peerLocked = bitOf (u8 pl 27) 0 ∧ (t.port p).peerMaster = u16 pl 24
              ∧ (t.port p).credit = min 64 (x.credit + u8 pl 49)
              ∧ (t.port p).cons = ⟨bitOf (u8 pl 74) 0, bitOf (u8 pl 74) 1, u32 pl 64, u32 pl 68, u16 pl 72⟩))

/-- R318, R327, R329, R333, R350 and R501. A port whose ENABLE is set begins bring-up, goes from state to state as its link does, and is DOWN with
the reason of Table 13-5 when a stay lasts too long, its peer is refused, its delay is out of range, its ENABLE is cleared or a direction
fails, which also proposes a failover; a DOWN port tries again after its retry interval, except after reason 4. (A row that names
another peer than the port's, or another delay than the one it measured, has no effect: the model's choice, log entries 160 and
171.) -/
def Obligations.PortsComeUpAndGoDown : Prop :=
  ∀ (s : State) (p : Nat), s.Inv → p < 40 →
    let x := s.port p
    let down (r : Nat) : PortSt := { PortSt.init with reason := r, since := s.now, sent := x.sent, delay := x.delay }
    let at' (m : PortMode) : PortSt := { x with mode := m, reason := 0, since := s.now }
    let free := (s.die (p / 5)).inService = true ∧ s.node ≠ 0xFFFF ∧ s.sec.errorState = false ∧ s.ready = true
    (∀ (secure : Bool) (value : Nat), value < 2 ^ 32 → s.Accepts secure (portReg .portControl p) →
      (bitOf value 0 = true → bitOf (s.rd (portReg .portControl p)) 0 = false → x.mode = .down → free →
        ∃ t, exec (.portEnable secure p value) s = .next t ∧ t.port p = at' .training
          ∧ bitOf (t.rd (portReg .portControl p)) 0 = true)
      ∧ (bitOf value 0 = false → bitOf (s.rd (portReg .portControl p)) 0 = true → (s.die (p / 5)).inService = true →
          ∃ t, exec (.portEnable secure p value) s = .next t ∧ t.port p = down 1))
    ∧ (x.mode = .training → ∃ t, exec (.linkTrained p) s = .next t ∧ t.port p = at' .aligning)
    ∧ (x.mode ≠ .training → exec (.linkTrained p) s = .next s)
    ∧ (x.mode = .aligning → ∃ t, exec (.frameAligned p) s = .next t ∧ t.sec.draws = s.sec.draws + 1
        ∧ t.port p = { at' .authenticating with
            auth := some ⟨Config.drbg s.sec.draws 32, none, [], [], false, none, none, false⟩,
            mgmt := [s.identityHead (Config.drbg s.sec.draws 32)], mgmtNext := 0, mgmtRx := none })
    ∧ (∀ (n q : Nat) (chain sig : Bool), x.sender ≠ some (n, q) → exec (.peerAuthenticated p n q chain sig) s = .next s)
    ∧ (∀ d : Nat, d ≠ x.delay → exec (.delayMeasured p d) s = .next s)
    ∧ (∀ (n q : Nat) (chain sig : Bool) (a : AuthSt), x.mode = .authenticating → x.auth = some a → x.sender = some (n, q) →
        let owned := s.fld (regDie0 .secPolicy) 0 0 ≠ 1 ∨ a.peer.map (·.2) = some s.ownerHash
        let row := Instr.peerAuthenticated p n q chain sig
        (chain = true → sig = true → a.whole x = false → exec row s = .next s)
        ∧ ((chain = false ∨ sig = false ∨ (a.whole x = true ∧ ¬owned)) → ∃ t, exec row s = .next t ∧ t.port p = down 4)
        ∧ (chain = true → sig = true → a.whole x = true → owned →
            let k := linkKeys (s.isEndL p) (a.secret.getD []) (s.transcript p a)
            ∃ t, exec row s = .next t ∧ (t.port p).mode = .measuring
              ∧ (t.port p).txKey = some k.1 ∧ (t.port p).rxKey = some k.2
              ∧ (t.port p).peerNode = n ∧ (t.port p).peerPort = q
              ∧ (t.port p).keyPhase = false ∧ (t.port p).exchanges = 0
              ∧ t.rd (portReg .txFrameCtr p) = 0 ∧ t.rd (portReg .rxFrameCtr p) = 0))
    ∧ (x.mode = .measuring →
        (x.exchanges < 16 → exec (.delayMeasured p x.delay) s = .next s)
        ∧ (16 ≤ x.exchanges → ∃ t, exec (.delayMeasured p x.delay) s = .next t
            ∧ (x.delay ≤ 768 → (t.port p).mode = .up ∧ (t.port p).delay = x.delay ∧ (t.port p).credit = 64)
            ∧ (768 < x.delay → t.port p = down 5)))
    ∧ (∀ n r, x.mode.limit = some (n, r) → (s.now < x.since + n → exec (.bringUpTimeout p) s = .next s)
        ∧ (x.since + n ≤ s.now → ∃ t, exec (.bringUpTimeout p) s = .next t ∧ t.port p = down r))
    ∧ (x.mode = .down → x.reason = 4 → exec (.retryInterval p) s = .next s)
    ∧ (x.mode = .down → x.reason ∈ [2, 3, 5, 6, 7] → free → s.fld (portReg .portControl p) 0 0 = 1 →
        x.since + 8000000 * max 1 (s.fld (portReg .portControl p) 15 8) ≤ s.now →
        ∃ t, exec (.retryInterval p) s = .next t ∧ t.port p = at' .training)
    ∧ (x.mode = .up → (8 ≤ x.badControls ∨ 64 ≤ x.fecFrames) →
        ∃ t, exec (.portDirectionFailure p) s = .next t ∧ t.port p = down 6
          ∧ (s.fld (regDie0 .failoverControl) 0 0 = 1 → s.fabric.standby.isSome = true → s.fabric.pendingSwitch = none →
              t.fabric.pendingSwitch = some ⟨s.frame + max 16 (s.fld (regDie0 .failoverControl) 8 1), true, none⟩))
    ∧ (x.mode = .up → x.badControls < 8 → x.fecFrames < 64 → exec (.portDirectionFailure p) s = .next s)

/-- R327 and R330–R332. A rekey asked for through PORT_CONTROL is started by end L, the lower (NODE, port); at its frame the transmit key
changes, KEY_PHASE flips and FRAME_CTR starts again; the superseded receive key goes in its time; a counter at 2^48 takes the port DOWN. -/
def Obligations.LinkKeysAreRenewed : Prop :=
  ∀ (s : State) (p : Nat), s.Inv → p < 40 →
    let x := s.port p
    (∀ (secure : Bool) (value : Nat), value < 2 ^ 32 → s.Accepts secure (portReg .portControl p) → bitOf value 1 = true →
      bitOf value 0 = true → bitOf (s.rd (portReg .portControl p)) 0 = true → x.mode = .up →
      ∃ t, exec (.rekey secure p value) s = .next t ∧ t.port p = { x with asked := true } ∧ (∀ k, k ≠ p → t.port k = s.port k))
    ∧ (s.mayRekey p = false → exec (.rekeyStart p) s = .next s)
    ∧ (s.mayRekey p = true → ∃ t, exec (.rekeyStart p) s = .next t
        ∧ (t.port p).rekey = some ⟨some s.sec.draws, Config.kemKey s.sec.draws, false, none⟩ ∧ (t.port p).asked = false
        ∧ (t.port p).attempt = some s.frame ∧ (t.port p).mgmt = [mgmtOf 5 (Config.kemKey s.sec.draws)] ∧ t.sec.draws = s.sec.draws + 1
        ∧ (t.port p).txKey = x.txKey ∧ (t.port p).rxKey = x.rxKey ∧ { t with fabric := s.fabric, sec := s.sec } = s)
    ∧ (x.mode = .up → (∀ k, x.rekey = some k → k.derived = false) → x.asked = true → s.isEndL p = true → s.mayRekey p = true)
    ∧ (x.txKey.isSome = true → s.isEndL p = decide (s.node < x.peerNode ∨ (s.node = x.peerNode ∧ p < x.peerPort)))
    ∧ (∀ k m f, x.rekey = some ⟨k, m, true, some f⟩ →
        ((s.frame < f ∨ s.midFrame p = true) → exec (.keySwitch p) s = .next s)
        ∧ (f ≤ s.frame → s.midFrame p = false → ∃ t, exec (.keySwitch p) s = .next t
            ∧ t.port p = { x with txKey := x.newTx, newTx := none, keyPhase := !x.keyPhase, rekey := none, attempt := none }
            ∧ t.rd (portReg .txFrameCtr p) = 0 ∧ t.rd (portReg .rekeys p) = (s.rd (portReg .rekeys p) + 1) % 2 ^ 64))
    ∧ (∀ k, x.oldRx = some k →
        exec (.previousKeyExpiry p) s = .next (if k.until' ≤ s.frame then s.updPort p fun y => { y with oldRx := none } else s))
    ∧ (x.mode ≠ .down → (2 ^ 48 ≤ s.rd (portReg .txFrameCtr p) ∨ 2 ^ 48 ≤ s.rd (portReg .rxFrameCtr p)) →
        ∃ t, exec (.nonceExhausted p) s = .next t ∧ (t.port p).mode = .down ∧ (t.port p).reason = 7 ∧ (t.port p).txKey = none
          ∧ (t.port p).rxKey = none)
    ∧ (s.rd (portReg .txFrameCtr p) < 2 ^ 48 → s.rd (portReg .rxFrameCtr p) < 2 ^ 48 → exec (.nonceExhausted p) s = .next s)

/-- R335 and R339. A written ROLE comes into force at the frame boundary after the write: a master is locked to itself, any other role starts unlocked; a follower in holdover
takes its backup port once that port's peer is locked, and loses its lock after 32,768 frames without a locked control slot. -/
def Obligations.TimeFollowsTheRole : Prop :=
  ∀ (s : State), s.Inv →
    let role := roleOf (s.fld (regDie0 .timeControl) 1 0)
    let b := s.fld (regDie0 .timeControl) 13 8
    ((role = s.time.role ∨ s.frame < s.time.roleAt) → exec .roleChange s = .next s)
    ∧ (role ≠ s.time.role → s.time.roleAt ≤ s.frame → ∃ t, exec .roleChange s = .next t ∧ t.time.role = role ∧ t.time.locked = decide (role = .master)
        ∧ t.time.holdover = false ∧ t.time.onBackup = false ∧ t.time.pips = s.time.pips
        ∧ (role = .master → t.time.masterNode = s.node ∧ t.time.masterHops = 0)
        ∧ { t with time := s.time } = s)
    ∧ (s.time.role = .follower → s.time.holdover = true → s.time.onBackup = false → s.portUp b = true → (s.port b).peerLocked = true →
        exec .backupSwitch s = .next
          { s with time := { s.time with onBackup := true, holdover := false } })
    ∧ ((s.time.role ≠ .follower ∨ s.time.holdover = false ∨ s.time.onBackup = true ∨ s.portUp b = false
          ∨ (s.port b).peerLocked = false) →
        exec .backupSwitch s = .next s)
    ∧ (s.time.role = .follower → s.time.locked = true → s.time.lastLockedFrame + 32768 ≤ s.frame →
        ∃ t, exec .lockLoss s = .next t ∧ t.time.locked = false ∧ t.time.pips = s.time.pips
          ∧ t.rd (regDie0 .timeLockLosses) = (s.rd (regDie0 .timeLockLosses) + 1) % 2 ^ 64)
    ∧ (s.frame < s.time.lastLockedFrame + 32768 → exec .lockLoss s = .next s)

/-- R517–R523. CCLK steps to the lowest request in force; the loops raise the point by one step at most; each power comparator holds half the
point it meets until its release; a throttle at 105 °C holds point 0 until 100 °C; a droop stretches CCLK for 16 edges; a trip at 115 °C,
an overvoltage or a power-stage fault removes the supplies and stops the module. -/
def Obligations.PowerRequestsSetThePoint : Prop :=
  ∀ (s : State), s.Inv →
    let p := s.power
    let stopped (t : State) : Prop := t.power.stopped = true ∧ t.power.supplies = false ∧ t.time.pips = s.time.pips ∧ t.cmds = []
      ∧ t.boot.stage ≠ .ready
    (p.throttled = true → p.lowest = 0)
    ∧ (p.throttled = false → p.lowest ≤ p.fwPoint ∧ ∀ k c, p.caps.get? k = some c → p.lowest ≤ c)
    ∧ (p.supplies = true → p.point ≠ p.lowest →
        ∃ t, exec .operatingPointChange s = .next t ∧ t.power = { p with point := p.lowest } ∧ { t with log := s.log, mem := s.mem, regs := s.regs, power := p } = s)
    ∧ ((p.supplies = false ∨ p.point = p.lowest) → exec .operatingPointChange s = .next s)
    ∧ (∀ temps avg power mv estimate,
        ((s.boot.firmwareOn = false ∨ p.supplies = false ∨ p.loopsHeld = true) →
          exec (.controlLoopTick temps avg power mv estimate) s = .next s)
        ∧ (s.boot.firmwareOn = true → p.supplies = true → p.loopsHeld = false →
          ∃ t, exec (.controlLoopTick temps avg power mv estimate) s = .next t
            ∧ t.power.fwPoint ≤ min 60 (p.fwPoint + 1) ∧ (s.powerLimit < avg → t.power.fwPoint ≤ p.fwPoint - 1)
            ∧ t.power.fwPoint ≤ max estimate p.fwPoint
            ∧ bitsOf (t.rd (regDie0 .inputPower)) 15 0 = power % 65536 ∧ bitsOf (t.rd (regDie0 .inputPower)) 31 16 = mv / 4 % 65536
            ∧ t.power.point = p.point ∧ t.mem = s.mem))
    ∧ (∀ watts avg (above : Bool), p.supplies = true →
        ∃ t, exec (.powerSample watts avg above) s = .next t ∧ t.power.point = p.point ∧ t.power.fwPoint = p.fwPoint
          ∧ (p.caps.get? 0 = none → 6500 < watts → t.power.caps.get? 0 = some (halfPoint p.point))
          ∧ (p.caps.get? 1 = none → above = true → t.power.caps.get? 1 = some (halfPoint p.point))
          ∧ (p.caps.get? 2 = none → 5000 < avg → t.power.caps.get? 2 = some (halfPoint p.point))
          ∧ (∀ c, p.caps.get? 0 = some c → 6000 ≤ watts → t.power.caps.get? 0 = some c)
          ∧ (∀ c, p.caps.get? 1 = some c → 5000 ≤ watts → t.power.caps.get? 1 = some c)
          ∧ (∀ c, p.caps.get? 2 = some c → 4900 ≤ avg → t.power.caps.get? 2 = some c)
          ∧ (p.caps.Pairwise (fun a b => a.1 < b.1) → watts < 5000 → avg < 4900 → above = false → t.power.caps.get? 0 = none
              ∧ t.power.caps.get? 1 = none ∧ t.power.caps.get? 2 = none))
    ∧ (∀ temp, p.supplies = true → p.throttled = false →
        (1680 ≤ temp → ∃ t, exec (.thermalThrottle temp) s = .next t ∧ t.power = { p with throttled := true }
          ∧ t.rd (regDie0 .throttleEvents) = (s.rd (regDie0 .throttleEvents) + 1) % 2 ^ 64)
        ∧ (temp < 1680 → exec (.thermalThrottle temp) s = .next s))
    ∧ (∀ temp, p.throttled = true →
        (temp ≤ 1600 → ∃ t, exec (.throttleRelease temp) s = .next t ∧ t.power = { p with throttled := false })
        ∧ (1600 < temp → exec (.throttleRelease temp) s = .next s))
    ∧ (∀ d, d < 8 → p.supplies = true → ∃ t, exec (.droopStretch d) s = .next t ∧ t.power.stretching = true ∧ d ∈ t.power.drooping
        ∧ t.power.stretchedEdges = (if p.stretching then p.stretchedEdges else 0) ∧ { t with power := p } = s)
    ∧ (p.stretching = true → 16 ≤ p.stretchedEdges →
        exec .stretchEnd s = .next { s with power := { p with drooping := [], stretching := false, stretchedEdges := 0 } })
    ∧ (p.stretchedEdges < 16 → exec .stretchEnd s = .next s)
    ∧ (∀ temp, p.supplies = true → 1840 ≤ temp → ∃ t, exec (.thermalTrip temp) s = .next t ∧ stopped t ∧ t.power.thermTrip = true)
    ∧ (∀ temp, temp < 1840 → exec (.thermalTrip temp) s = .next s)
    ∧ (∀ d, d < 8 → p.supplies = true → ∃ t, exec (.overvoltage d) s = .next t ∧ stopped t)
    ∧ (p.supplies = true → ∃ t, exec .powerStageFault s = .next t ∧ stopped t)

/-- R528. Before the first READY after a cold reset, PERST# gates only the PCI Express link: asserting it neither restarts nor halts the
cold sequence. Deasserted, it lets the link train once die 0's supply is up. -/
def Obligations.PerstGatesOnlyTheLinkBeforeReady : Prop :=
  ∀ (s : State), s.boot.wasReady = false →
    (∃ t, exec .perst s = .next t ∧ t.pcie = { s.pcie with perstAsserted := true, linkUp := false }
      ∧ t.sec = { s.sec with owner := false, session := false, ide0 := [], ide1 := [], ideSet := 0 }
      ∧ { t with pcie := s.pcie, sec := s.sec } = s)
    ∧ ∃ t, exec .perstDeassert s = .next t ∧ t.pcie.perstAsserted = false
      ∧ t.pcie.linkUp = (s.pcie.linkUp || (s.pcie.perstAsserted && s.power.supplies && !s.power.stopped && s.boot.stage != .power))
      ∧ { t with pcie := s.pcie } = s

/-- R530–R532, R546, R547, R553 and R554. What causes each kind of reset and what it leaves: a cold reset starts the sequence again and
keeps fuses, flash and host memory; a warm reset starts at the ROM stage, and a function reset keeps the map and the active slot table;
both abandon every command and count in RESETS_SINCE_COLD. -/
def Obligations.ResetsClearWhatTheyName : Prop :=
  ∀ (s : State), s.Inv →
    let cold (cause : Nat) (t : State) : Prop := t.boot.stage = .power ∧ t.boot.coldSeq = true ∧ t.boot.resetCause = cause
      ∧ t.regs = [] ∧ t.cmds = [] ∧ t.ctxs = [] ∧ t.dies = [] ∧ t.cells = [] ∧ t.mem.cells = [] ∧ t.mem.host = s.mem.host
      ∧ t.mem.keySlots = [] ∧ t.pending = s.pending ∧ t.boot.flash = s.boot.flash ∧ t.boot.fwFloor = s.boot.fwFloor
      ∧ t.boot.killed = s.boot.killed ∧ t.boot.signedRequired = s.boot.signedRequired ∧ t.sec.ownerSlots = s.sec.ownerSlots
    let abandoned (cause : Nat) (t : State) : Prop := t.cmds = [] ∧ t.held = [] ∧ t.msgs = [] ∧ t.groups = [] ∧ t.boot.resetCause = cause
      ∧ t.step = StepSt.init ∧ t.sec.session = false ∧ t.sec.owner = false ∧ t.mem.keySlots = s.mem.keySlots
      ∧ t.time.pips = s.time.pips
      ∧ (∀ c i, (t.slot c i).gen = (s.slot c i).gen ∧ (t.slot c i).valid = false)
      ∧ t.rd (regDie0 .resetsSinceCold) = (s.rd (regDie0 .resetsSinceCold) + 1) % 2 ^ 64
    let warm (cause : Nat) (t : State) : Prop := abandoned cause t ∧ t.boot.stage = .rom ∧ t.boot.coldSeq = false ∧ t.dies = []
      ∧ t.time.role = .free ∧ t.time.locked = false ∧ t.fabric.active = none
    (∀ (secure : Bool) (key : Nat), s.Accepts secure (regDie0 .resetControl) →
      (key % 65536 ≠ 0xA5A5 → exec (.coldReset secure key) s = .next s ∧ exec (.warmReset secure key) s = .next s)
      ∧ (key % 65536 = 0xA5A5 →
          ((s.ready = true ∨ s.boot.stage = .failed ∨ s.boot.coldSeq = false) →
            ∃ t, exec (.coldReset secure key) s = .next t ∧ cold 2 t)
          ∧ (s.inSequence = true → s.boot.coldSeq = true → exec (.coldReset secure key) s = .next s)
          ∧ (s.ready = true → ∃ t, exec (.warmReset secure key) s = .next t ∧ warm 4 t)
          ∧ (s.ready = false → exec (.warmReset secure key) s = .next s)))
    ∧ (s.boot.wasReady = true → s.ready = true → ∃ t, exec .perst s = .next t ∧ warm 3 t ∧ t.pcie.linkUp = false)
    ∧ (s.ready = true → s.pcie.linkUp = true → ∃ t, exec (.functionReset true) s = .next t ∧ abandoned 6 t ∧ t.boot.stage = .ready
        ∧ t.fabric.active = s.fabric.active ∧ t.pcie.linkUp = true)
    ∧ (s.ready = true → ∃ t, exec (.functionReset false) s = .next t ∧ abandoned 5 t ∧ t.boot.stage = .ready
        ∧ t.fabric.active = s.fabric.active)
    ∧ (s.ready = false → s.pcie.linkUp = true → exec (.functionReset true) s = .next s)
    ∧ (∀ us, us < 1 → exec (.modReset us) s = .next s)
    ∧ (∀ us, 10 ≤ us → ∃ t, exec (.modReset us) s = .next t ∧ cold 1 t ∧ t.power.modResetHigh = false ∧ t.power.supplies = false)
    ∧ (s.power.modResetHigh = false → ∃ t, exec .modResetRelease s = .next t ∧ cold 1 t ∧ t.power.modResetHigh = true
        ∧ t.power.supplies = s.power.inputOk)
    ∧ (s.power.modResetHigh = true → exec .modResetRelease s = .next s)
    ∧ (s.power.inputOk = false → s.power.modResetHigh = true → s.power.supplies = false →
        ∃ t, exec .powerApplied s = .next t ∧ cold 0 t ∧ t.power.supplies = true ∧ t.power.inputOk = true)
    ∧ (s.power.inputOk = true → exec .powerApplied s = .next s)
    ∧ (∀ mv us, 50000 ≤ mv → mv ≤ 60000 → exec (.vinFault mv us) s = .next s ∧ exec (.suppliesOff mv us) s = .next s)
    ∧ (∀ mv us, s.power.inputOk = true → (mv < 46000 ∨ 62000 < mv) → 20 ≤ us →
        ∃ t, exec (.vinFault mv us) s = .next t ∧ t.power.removed = (s.power.removed || decide (mv = 0)) ∧ t.power.inputOk = false ∧ t.power.supplies = false ∧ t.power.stopped = true ∧ t.cmds = [])
    ∧ (∀ mv us, s.ready = true → s.power.inputOk = true → ((46000 ≤ mv ∧ mv < 50000) ∨ (60000 < mv ∧ mv ≤ 62000)) → 10000 ≤ us →
        ∃ t, exec (.suppliesOff mv us) s = .next t ∧ t.power.inputOk = false ∧ t.power.supplies = false ∧ t.power.stopped = true)

/-- R508–R510, R516 and R525–R527. The stages of a sequence follow one another and end as their checks say; firmware starts from a flash image
that verifies, or from the host in RECOVERY; READY comes with the dies chosen, and a lock once set stays. -/
def Obligations.StartUpRunsItsStages : Prop :=
  (∀ (s : State) (r : StageReport),
    ((s.power.supplies = false ∨ s.power.modResetHigh = false ∨ s.power.stopped = true ∨ s.boot.stage = .ready ∨ s.boot.stage = .failed) →
      exec (.coldStageEnd r) s = .next s)
    ∧ (s.power.supplies = true → s.power.modResetHigh = true → s.power.stopped = false →
        (s.boot.stage = .power → ∃ t, exec (.coldStageEnd r) s = .next t ∧ t.boot = { s.boot with stage := .rom }
          ∧ t.pcie.linkUp = !s.pcie.perstAsserted)
        ∧ (s.boot.stage = .rom → s.boot.firmwareOn = false → s.boot.recovery = false →
            let good := r.firmware && !s.boot.flashTorn && decide (s.boot.fwFloor ≤ imageVersion s.boot.flash)
            ∃ t, exec (.coldStageEnd r) s = .next t
              ∧ (r.selfTests = false → t.boot.stage = .failed ∧ t.boot.failReason = 2)
              ∧ (r.selfTests = true → good = true → t.boot.stage = .setup ∧ t.boot.firmwareOn = true
                  ∧ t.boot.running = s.boot.flash ∧ t.boot.fwVersion = imageVersion s.boot.flash)
              ∧ (r.selfTests = true → good = false → t.boot.stage = .rom ∧ t.boot.recovery = true ∧ t.boot.firmwareOn = false))
        ∧ (s.boot.stage = .setup → ∃ t, exec (.coldStageEnd r) s = .next t ∧ t.boot.stage = .selfTest
            ∧ (s.boot.setupImage = [] → t.boot = { s.boot with stage := .selfTest }))
        ∧ (s.Inv → s.boot.stage = .selfTest → ∃ t, exec (.coldStageEnd r) s = .next t
            ∧ (0 ∈ r.dieFails → t.boot.stage = .failed ∧ t.boot.failReason = 3)
            ∧ (0 ∉ r.dieFails → t.boot.stage = (if s.boot.coldSeq then .memory else .map)
                ∧ (∀ d ∈ r.dieFails, d ∈ t.boot.failedDies) ∧ (∀ k ∈ r.cellFails, (t.cell k).mode = .fenced)
                ∧ ∀ a, 2 ^ 43 ≤ a → a < 2 ^ 43 + 2 ^ 44 → memGet t.mem.cells a = 0))
        ∧ (s.boot.stage = .memory → 0 ∉ r.dieFails → ∃ t, exec (.coldStageEnd r) s = .next t ∧ t.boot.stage = .map)
        ∧ (s.boot.stage = .map → ∃ t, exec (.coldStageEnd r) s = .next t
            ∧ ((s.chooseDies r.linksDown).length < 2 → t.boot.stage = .failed ∧ t.boot.failReason = 1)
            ∧ (2 ≤ (s.chooseDies r.linksDown).length → t.boot.stage = .ready ∧ t.boot.wasReady = true
                ∧ ∀ d, (t.die d).inService = decide (d ∈ s.chooseDies r.linksDown)))))
  ∧ ∀ (s : State) (secure : Bool), s.Inv →
    (∀ die value, die < 8 → value < 2 ^ 32 → s.Accepts secure (regDie .setupLock die) →
      ∃ t, exec (.lock secure die value) s = .next t
        ∧ bitOf (t.rd (regDie .setupLock die)) 0 = (bitOf (s.rd (regDie .setupLock die)) 0 || bitOf value 0)
        ∧ { t with regs := s.regs } = s)
    ∧ (∀ (persist ok : Bool) (stores : HostStores), s.Accepts secure (regDie0 .fwMailboxControl) →
        let s0 := s.hostStores stores
        let len := s.rd (regDie0 .fwMailboxLength)
        let img := s0.hostRead (s.rd (regDie0 .fwMailboxAddr)) len
        s.boot.recovery = true → s.boot.firmwareOn = false →
        ∃ t, exec (.fwMailboxGo secure persist ok stores) s = .next t ∧ t.boot.stage = s.boot.stage
          ∧ ((len < 2048 ∨ 2048 + 2 ^ 24 < len) → t.boot = s.boot ∧ bitsOf (t.rd (regDie0 .fwMailboxControl)) 4 3 = 2)
          ∧ (2048 ≤ len → len ≤ 2048 + 2 ^ 24 → s0.imageAccepted img len ok = false →
              t.boot = s.boot ∧ bitsOf (t.rd (regDie0 .fwMailboxControl)) 4 3 = 1)
          ∧ (2048 ≤ len → len ≤ 2048 + 2 ^ 24 → s0.imageAccepted img len ok = true →
              t.boot.firmwareOn = true ∧ t.boot.fromHost = true ∧ t.boot.recovery = false ∧ t.boot.running = img
                ∧ t.boot.fwVersion = imageVersion img ∧ bitsOf (t.rd (regDie0 .fwMailboxControl)) 4 3 = 0
                ∧ t.boot.flashWriting = if persist then some img else s.boot.flashWriting))
    ∧ (∀ img, s.boot.flashWriting = some img → exec .flashWriteDone s = .next (if s.boot.firmwareOn then
        { s with boot := { s.boot with flash := img, flashTorn := false, flashWriting := none } } else s))

/-- R459–R463. An error of a unit in service is recorded once and puts the unit under a self-test; a cell under test takes no task, and its
tasks are offered again. A unit that passes goes on, a Topiary engine running its command again; a cell that fails gives its slot to a
spare, a link that fails goes out of service, and any other unit that fails takes its die. -/
def Obligations.UnitErrorsAreTestedAndReplayed : Prop :=
  ∀ (s : State) (u : UnitId), s.Inv → s.ready = true → u.die < 8 →
    let cell := u.die * 104 + u.index
    (∀ id word own, (s.unitThere u = false ∨ s.tested u = true) → exec (.unitError u id word own) s = .next s)
    ∧ (s.unitThere u = true → s.tested u = false →
        (∀ id word own, 1 ≤ u.kind → u.kind ≤ 5 → ∃ t, exec (.unitError u id word own) s = .next t
          ∧ t.faults.tests = s.faults.tests ++ [(u, id, s.faults.seq)] ∧ t.faults.seq = s.faults.seq + 1 ∧ t.cmds = s.cmds)
        ∧ (u.kind = 0 → ∀ id, ∃ t, exec (.unitError u id none false) s = .next t ∧ (t.cell cell).mode = .selfTest ∧ t.tested u = true
            ∧ ((∀ c ∈ s.cmds, hOpcode c.desc ≠ 0x20) → t.cmds = s.cmds ∧ t.faults.seq = s.faults.seq + 1
                ∧ t.cell cell = { s.cell cell with portsClosed := true, tasks := [], mode := .selfTest })
            ∧ (∀ c g, s.cmds = [c] → isOpcode 0x20 c.desc = true → c.ending = none → c.run.stop = none → c.nonReplayable = false →
                s.geo c.id c.desc c.records = some g → g.b.segs = 1 → c.done.length < g.tasks →
                (∀ k ∈ (s.cell cell).tasks, k.id = c.id) → (s.cell cell).tasks ≠ [] →
                ∃ x, t.cmd? c.id = some x ∧ x.replayed = true ∧ x.ending = none
                  ∧ (∀ k ∈ (s.cell cell).tasks, k.task ∈ x.reoffered ∧ k.task ∉ x.taken))))
    ∧ (s.tested u = false → ∀ pass, exec (.targetedSelfTestEnd u pass) s = .next s)
    ∧ (∀ id seq, s.faults.tests.find? (fun x => x.1 == u) = some (u, id, seq) →
        (∃ t, exec (.targetedSelfTestEnd u true) s = .next t ∧ t.tested u = false
          ∧ t.rd (regDie .transientFaults u.die) = (s.rd (regDie .transientFaults u.die) + 1) % 2 ^ 64
          ∧ (u.kind = 0 → t.cell cell = { s.cell cell with mode := .idle, portsClosed := false } ∧ t.cmds = s.cmds)
          ∧ (∀ i c, u.kind = 1 → id = some i → s.cmd? i = some c → c.ending = none →
              t.cmd? i = some { c with replayed := true, begun := false }))
        ∧ ((u.kind ≠ 0 ∨ (∀ l, (s.cell cell).logical = some l → l < 768 ∧ (s.lslot l).draining = false)) → (u.kind = 6 → u.die ≠ 0) →
            (u.kind ≠ 0 → u.kind ≠ 7 → u.die ≠ 0 ∧ (s.die u.die).inService = true) →
            ∃ t, exec (.targetedSelfTestEnd u false) s = .next t ∧ t.tested u = false
              ∧ t.rd (regDie .lastingFaults u.die) = (s.rd (regDie .lastingFaults u.die) + 1) % 2 ^ 64
              ∧ (u.kind = 0 → (t.cell cell).mode = .fenced ∧ (t.cell cell).logical = none ∧ (t.cell cell).tasks = [])
              ∧ (∀ l p, u.kind = 0 → (s.cell cell).logical = some l → s.fld (regDie0 .faultControl) 0 0 = 1 →
                  (s.cell cell).inPool = false → s.spare (l / 96) = some p → (t.lslot l).phys = some (p % 104)
                    ∧ (t.lslot l).inc = ((s.lslot l).inc + 1) % 256)
              ∧ (u.kind = 7 → u.index ∈ t.faults.linksDown)
              ∧ (u.kind ≠ 0 → u.kind ≠ 7 → (t.die u.die).inService = false)))

/-- R287–R289, R465, R466 and R511. A lost die is out of service, its ports are DOWN with reason 8, what touches it ends with NON_REPLAYABLE
and fetching stops; die 0 takes the module. The loss of the PCI Express link stops fetching and ends the session while the fabric goes
on. A silent steward of die 0 holds point 28; of another die, it is the loss of that die. -/
def Obligations.DiesAndLinksAreLost : Prop :=
  ∀ (s : State), s.Inv →
    (∀ d, s.ready = false → exec (.dieLoss d) s = .next s)
    ∧ (∀ d, d ≠ 0 → (s.die d).inService = false → exec (.dieLoss d) s = .next s)
    ∧ (s.ready = true → ∃ t, exec (.dieLoss 0) s = .next t ∧ t.power.stopped = true ∧ t.cmds = [] ∧ t.boot.stage = .power)
    ∧ (∀ d, d ≠ 0 → d < 8 → s.ready = true → (s.die d).inService = true →
        ∃ t, exec (.dieLoss d) s = .next t ∧ (t.die d).inService = false ∧ t.faults.degraded = true ∧ t.faults.fetchStopped = true
          ∧ t.step.opened = false
          ∧ (∀ k, k < 5 → (t.port (5 * d + k)).mode = .down ∧ (t.port (5 * d + k)).reason = 8 ∧ (t.port (5 * d + k)).txKey = none)
          ∧ (∀ id c, s.cmd? id = some c → c.ending = none → isOpcode 0x20 c.desc = false → (∃ l ∈ c.cells, l / 96 = d) →
              t.EndedAs id (lossEnding s.faults.seq)))
    ∧ (s.pcie.linkUp = false → exec .pcieLinkLoss s = .next s)
    ∧ (s.pcie.linkUp = true → ∃ t, exec .pcieLinkLoss s = .next t ∧ t.pcie.linkUp = false ∧ t.sec.session = false ∧ t.sec.owner = false
        ∧ t.fabric = s.fabric ∧ t.cmds = s.cmds ∧ t.boot = s.boot
        ∧ (s.ready = true → t.faults.degraded = true ∧ t.faults.fetchStopped = true ∧ t.step.opened = false
            ∧ t.faults.seq = s.faults.seq + 1))
    ∧ (s.boot.firmwareOn = false → ∀ d, exec (.stewardWatchdogMiss d) s = .next s)
    ∧ (s.boot.firmwareOn = true →
        (∃ t, exec (.stewardWatchdogMiss 0) s = .next t ∧ t.power = { s.power with loopsHeld := true, fwPoint := 28 }
          ∧ t.faults.seq = s.faults.seq + 1 ∧ t.cmds = s.cmds)
        ∧ ∀ d, d ≠ 0 → d < 8 → exec (.stewardWatchdogMiss d) s = exec (.dieLoss d) s)

/-- R77, R300, R309, R311–R316, R561 and R569. A scrub leaves a sound word, counts a single flip and marks two flips as lost; a bucket gains
RATE bytes a nanosecond up to BURST; a page is retired onto a spare, which then holds its bytes, while one is left; a repair is refused under the lock or while a
command reaches the stack, and its end reports the result. -/
def Obligations.MemoryIsScrubbedAndRepaired : Prop :=
  ∀ (s : State), s.Inv → s.ready = true →
    (∀ cell word, cell < 832 → word < 0x70000 → (s.cell cell).fusedOut = false → (s.cell cell).mode ≠ .fenced →
      (s.die (cell / 104)).inService = true → s.mem.poison.contains (cellKey cell 0 / 8 + word) = false → ∀ raced,
      exec (.sramPatrolScrub cell word 0 raced) s = .next s
      ∧ exec (.sramPatrolScrub cell word 1 raced) s = .next (s.bump ⟨.sramCeCount, cell, 0⟩ 1)
      ∧ (s.tested (cellUnit cell) = false → ∃ t, exec (.sramPatrolScrub cell word 2 raced) s = .next t ∧ (t.cell cell).mode = .selfTest
          ∧ t.tested (cellUnit cell) = true))
    ∧ (∀ d word, d < 8 → word < 6 * 2 ^ 20 → (s.die d).inService = true →
        s.mem.poison.contains (commonsKey d 0 / 8 + word) = false → ∀ raced,
        exec (.commonsPatrolScrub d word 0 raced) s = .next s
        ∧ exec (.commonsPatrolScrub d word 1 raced) s = .next (s.bump (regDie .commonsCeCount d) 1)
        ∧ ∃ t, exec (.commonsPatrolScrub d word 2 raced) s = .next t ∧ t.faults.seq = s.faults.seq + 1
          ∧ t.mem.poison = (if raced then s.mem.poison else insertKey s.mem.poison (commonsKey d 0 / 8 + word)))
    ∧ (∀ word p r, placeOfKey (8 * word) = some p → p.ceReg = some r → (s.die (p.die?.getD 0)).inService = true →
        s.mem.retired.get? (word / 512) = none → s.mem.poison.contains word = false → ∀ raced,
        exec (.memoryPatrolScrub word 0 raced) s = .next s
        ∧ exec (.memoryPatrolScrub word 1 raced) s = .next (s.bump r 1)
        ∧ ∃ t, exec (.memoryPatrolScrub word 2 raced) s = .next t
          ∧ t.mem.poison = (if raced then s.mem.poison else insertKey s.mem.poison word)
          ∧ (∀ a, s.addrOfKey (8 * word) = some a →
              t.rd (regDie .memUeLast (p.die?.getD 0)) % 2 ^ 52 = a % 2 ^ 52))
    ∧ (∀ d part ctrl ns, d < 8 → part < 16 → ctrl < 5 → (s.die d).inService = true → (s.regulator d part ctrl).1 ≠ 0 →
        s.mem.tokens.Pairwise (fun a b => a.1 < b.1) →
        let k := tokenKey d part ctrl
        let burst := (s.regulator d part ctrl).2.1
        ∃ t, exec (.tokenCredit d part ctrl ns) s = .next t
          ∧ t.mem.tokens.getD k burst = min burst (s.mem.tokens.getD k burst + (s.regulator d part ctrl).1 * ns)
          ∧ (∀ j, j ≠ k → t.mem.tokens.get? j = s.mem.tokens.get? j) ∧ t.mem.cells = s.mem.cells ∧ { t with mem := s.mem } = s)
    ∧ (∀ id c, s.Runs id 0xB0 c →
        (s.retirePage c.desc = none → exec (.pageRetire id) s = .next (s.finish id (formatViol 32).ending))
        ∧ (∀ p k d lo, s.retirePage c.desc = some (p, k, d, lo) →
            let n := bitsOf (s.rd (regDie .retireSpares d)) (lo + 10) lo
            let spare := p.sparePage (1024 - n)
            ∃ t, exec (.pageRetire id) s = .next t ∧ t.mem.retired.get? k = some (if n = 0 then none else some spare)
              ∧ (n = 0 → t.mem.cells = s.mem.cells)
              ∧ (n ≠ 0 → ∀ o, o < 4096 → memGet t.mem.cells (4096 * spare + o) = memGet s.mem.cells (4096 * k + o))
              ∧ (∀ j, j ≠ k → t.mem.retired.get? j = s.mem.retired.get? j)
              ∧ (n = 0 → t.EndedAs id (okAux 0x10000) ∧ t.regs = s.regs)
              ∧ (n ≠ 0 → t.EndedAs id (okAux (n - 1)) ∧ bitsOf (t.rd (regDie .retireSpares d)) (lo + 10) lo = n - 1)))
    ∧ (∀ (secure : Bool) (d op stack channel pseudo : Nat), d < 8 → 1 ≤ op → op ≤ 3 → s.Accepts secure (regDie .repairCmd d) →
        let i : Instr := match op with
          | 1 => .repairQuery secure d stack channel pseudo
          | 2 => .softPpr secure d stack channel pseudo
          | _ => .hardPpr secure d stack channel pseudo
        ((s.mem.repairing.get? d).isSome = true → exec i s = .next s)
        ∧ (s.mem.repairing.get? d = none → s.lockOn (regDie .repairCmd d) = true →
            ∃ t, exec i s = .next t ∧ bitsOf (t.rd (regDie .repairStatus d)) 2 1 = 2 ∧ t.mem = s.mem)
        ∧ (s.mem.repairing.get? d = none → s.lockOn (regDie .repairCmd d) = false → s.reachesStack (2 * d + stack % 2) = true →
            ∃ t, exec i s = .next t ∧ bitsOf (t.rd (regDie .repairStatus d)) 2 1 = 2 ∧ t.mem = s.mem)
        ∧ (s.mem.repairing.get? d = none → s.lockOn (regDie .repairCmd d) = false → s.reachesStack (2 * d + stack % 2) = false →
            ∃ t, exec i s = .next t ∧ t.mem.repairing.get? d
              = some (op, stack % 2 + channel % 32 * 2 + pseudo % 2 * 64, s.rd (regDie .repairRow d))))
    ∧ (∀ d op cmd row result spares, d < 8 → s.mem.repairing.get? d = some (op, cmd, row) →
        s.mem.repairing.Pairwise (fun a b => a.1 < b.1) → result < 4 →
        ∃ t, exec (.repairOperationEnd d result spares) s = .next t ∧ t.mem.repairing.get? d = none
          ∧ bitsOf (t.rd (regDie .repairStatus d)) 2 1 = result
          ∧ (op = 1 → bitsOf (t.rd (regDie .repairStatus d)) 10 3 = spares % 256 ∧ t.mem.repaired = s.mem.repaired)
          ∧ (op ≠ 1 → t.mem.repaired = if result = 0 then s.mem.repaired ++ [(op, d * 128 + cmd, row)] else s.mem.repaired))

/-- R62, R72, R81, R86–R109, R136, R144 and R256. A product that passes its checks puts its tasks on the draw list with its tensor scale; a
cell in service with room takes the run it is due, which leaves the list, its queue then having had its turn; a completed task leaves
its cell, and its tile is held in its accumulator slots, kept for its partials, sent to its home or drained; a partial is added to the
home cell's tile, or to the held tile that it starts from, unless its sender has been replaced. A task or partial that needs a bank
under handover waits. -/
def Obligations.ProductsOfferAndRunTasks : Prop :=
  ∀ (s : State) (id : CmdId) (c : Cmd) (g : Geo), s.Runs id 0x20 c → s.geo id c.desc c.records = some g →
    c.run.stop ≠ some AccErr.wait.ending →
    (c.begun = true → exec (.product id) s = .next s)
    ∧ (c.begun = false →
        (∀ e, s.productPass id g = .ok (some e) → exec (.product id) s = .next (s.finish id e))
        ∧ (s.productPass id g = .error .wait → exec (.product id) s = .next s)
        ∧ (s.productPass id g = .ok none →
            let starts (sc : FVal) : Prop := ∃ t x, exec (.product id) s = .next t ∧ t.cmd? id = some x ∧ x.begun = true
              ∧ x.run.scale = toBits32 sc ∧ x.done = c.done ∧ (c.run.stop = none → c.done.length < g.tasks → x.ending = none)
            (g.b.holdOut = true → starts .one)
            ∧ (g.b.holdOut = false → ∀ sc r, s.writeScale id g.o g.b.step = .ok (some sc, r) → starts sc)
            ∧ (g.b.holdOut = false → ∀ r h mac rd sc r', s.writeScale id g.o g.b.step = .ok (none, r) → r.measure id g = .ok (h, mac, rd) →
                (r.qcount id rd 0 mac 0).measuredScale id g.o g.b.step h = .ok (sc, r') → starts sc)))
    ∧ (∀ cell, (s.logicalOf cell = none ∨ (s.cell cell).tasks.length ≥ 2 ∨ (s.cell cell).portsClosed = true
          ∨ (s.cell cell).mode = .fenced ∨ (s.cell cell).mode = .selfTest) → exec (.cellDraw cell id) s = .next s)
    ∧ (∀ cell l, s.logicalOf cell = some l → s.cellReady c g cell l = false → exec (.cellDraw cell id) s = .next s)
    ∧ (∀ cell l, s.logicalOf cell = some l → (s.cell cell).tasks.length < 2 → (s.cell cell).portsClosed = false →
        (s.cell cell).mode ≠ .fenced → (s.cell cell).mode ≠ .selfTest → s.cellReady c g cell l = true →
        let ts := c.runFor g l
        let stale := ts.findSome? fun k => (g.tiles[k / g.b.segs]?).bind fun t => s.staleTile id g t (k % g.b.segs)
        ((ts = [] ∨ s.mayDraw l c = none) → exec (.cellDraw cell id) s = .next s)
        ∧ (ts ≠ [] → ∀ renew, s.mayDraw l c = some renew →
            (stale = none → ∃ t x, exec (.cellDraw cell id) s = .next t ∧ t.cmd? id = some x ∧ x.ending = none
              ∧ t.cell cell = { s.cell cell with
                  tasks := (s.cell cell).tasks ++ ts.map fun k => ⟨id, k, ts.headD k⟩, mode := .running }
              ∧ x.taken = c.taken ++ ts ∧ x.reoffered = c.reoffered.filter (fun k => !ts.contains k) ∧ x.done = c.done
              ∧ t.groups = (s.serve l c renew).groups
              ∧ (∀ gr, t.groups.get? (s.queue id.ctx id.q).group = some gr → queueKey id ∈ gr.served)
              ∧ t.mem = s.mem ∧ t.regs = s.regs)
            ∧ (∀ e, stale = some e → ∃ t x, exec (.cellDraw cell id) s = .next t ∧ t.cmd? id = some x ∧ x.run.stop = some e
              ∧ (s.inFlight id = true → x.ending = none) ∧ (s.inFlight id = false → x.ending = some e) ∧ t.cells = s.cells)))
    ∧ (∀ cell task, let here (r : State) : Bool := (r.cell cell).tasks.any fun t => t.id == id && t.task == task
        ((here s = false ∨ (s.cell cell).portsClosed = true) → exec (.taskComplete cell id task) s = .next s)
        ∧ ∀ t, here s = true → (s.cell cell).portsClosed = false → g.tiles[task / g.b.segs]? = some t →
        let k := task / g.b.segs
        let seg := task % g.b.segs
        let y := c.run.tiles.getD k TileSt.init
        let drops (e : Ending) : Prop := ∃ r x, exec (.taskComplete cell id task) s = .next r ∧ here r = false ∧ r.cmd? id = some x
          ∧ (c.run.stop = none → x.run.stop = some e)
        (∀ e, s.staleTile id g t seg = some e → drops e)
        ∧ (s.staleTile id g t seg = none →
            (s.taskStart id g t y seg = .error .wait → exec (.taskComplete cell id task) s = .next s)
            ∧ (∀ e, s.taskStart id g t y seg = .error e → e ≠ .wait → drops e.ending)
            ∧ (∀ start, s.taskStart id g t y seg = .ok start →
                let out := s.segment id g t seg (s.stagedBefore id g cell task) (start.map (accVal g.pair.2))
                (out = .error .wait → exec (.taskComplete cell id task) s = .next s)
                ∧ (∀ e, out = .error e → e ≠ .wait → drops e.ending)
                ∧ (∀ o, out = .ok o →
                    let bits := o.rows.flatten.map (accBits g.pair.2)
                    let goesOn (r : State) (x : Cmd) : Prop := exec (.taskComplete cell id task) s = .next r ∧ here r = false
                      ∧ r.cmd? id = some x
                    (∃ r, exec (.taskComplete cell id task) s = .next r ∧ (r = s ∨ here r = false))
                    ∧ (c.run.stop.isSome = true → ∃ r x, goesOn r x ∧ x.done = c.done)
                    ∧ (c.run.stop = none → (o.saturated = false ∨ g.b.faultSat = false) → ∀ l, s.logicalOf cell = some l →
                        (g.b.segs = 1 → g.b.holdOut = true → ∃ r x, exec (.taskComplete cell id task) s = .next r
                          ∧ (r = s ∨ (goesOn r x ∧ task ∈ x.done ∧ (x.run.stop = none → ∃ h, x.run.holds.get? t.num = some h ∧ h.cell = l
                              ∧ r.mem.cells = (s.writeHeld id g h (min g.b.nt (g.n - t.c0)) bits).1.mem.cells))))
                        ∧ (g.b.segs > 1 → seg = 0 → g.b.mode ≠ 2 →
                            (y.opened = false ∨ y.rebuild ≠ [] ∨ y.added.length + 1 ≠ g.b.segs) →
                            ∃ r x, goesOn r x ∧ task ∈ x.done
                              ∧ x.run.tiles.getD k TileSt.init = { y with acc := bits, ownDone := true })
                        ∧ (g.b.segs > 1 → seg ≠ 0 → g.b.mode ≠ 2 → ∃ r x, goesOn r x ∧ x.done = c.done
                          ∧ x.run.tiles.getD k TileSt.init = { y with flying := y.flying.set seg (l, (s.lslot l).inc, bits) }))))))
    ∧ (∀ tile seg t l inc p, g.tiles[tile]? = some t →
        let y := c.run.tiles.getD tile TileSt.init
        (y.flying.get? seg = none → exec (.partialTileArrival id tile seg) s = .next s)
        ∧ (y.flying.get? seg = some (l, inc, p) →
            ((s.lslot l).inc ≠ inc → s.Inv → id.ctx < 64 → y.home.getD 0 < 832 →
              ∃ r x, exec (.partialTileArrival id tile seg) s = .next r ∧ r.cmd? id = some x ∧ x.done = c.done
                ∧ x.run.tiles.getD tile TileSt.init = { y with flying := y.flying.erase seg }
                ∧ r.rd (regDie .incarnationDrops (y.home.getD 0 / 104))
                    = (s.rd (regDie .incarnationDrops (y.home.getD 0 / 104)) + 1) % 2 ^ 64
                ∧ r.rd (regCtx .staleDrops id.ctx) = (s.rd (regCtx .staleDrops id.ctx) + 1) % 2 ^ 64)
            ∧ ((s.lslot l).inc = inc → (y.opened = false ∨ y.rebuild ≠ []) → exec (.partialTileArrival id tile seg) s
              = .next ((s.updTile id tile fun z => { z with flying := z.flying.erase seg }).settleProduct id g))
            ∧ ((s.lslot l).inc = inc → y.opened = true → y.rebuild = [] → c.run.stop = none →
              s.taskStart id g t y 0 = .error .wait → exec (.partialTileArrival id tile seg) s = .next s)
            ∧ (∀ acc, (s.lslot l).inc = inc → y.opened = true → y.rebuild = [] → s.taskStart id g t y 0 = .ok acc →
              (y.ownDone = false ∨ y.added.length + 2 ≠ g.b.segs) →
              ((addPartial g.pair.2 acc p).2 = false ∨ g.b.faultSat = false) →
              ∃ r x, exec (.partialTileArrival id tile seg) s = .next r ∧ r.cmd? id = some x ∧ tile * g.b.segs + seg ∈ x.done
                ∧ x.run.tiles.getD tile TileSt.init
                  = { y with flying := y.flying.erase seg, acc := (addPartial g.pair.2 acc p).1, added := seg :: y.added })))

/-- R152, R154–R163. A Topiary command judges its source first, waits while a command still uses a buffer it writes, and then edits the
blocks of its tensor as they were read: it writes the next generation, its transpose and the change map, and ends with OK, or
REPLAYED where it ran again. A block that CHECK finds not transposable ends it with what it writes undefined. -/
def Obligations.TopiaryEditsItsBlocks : Prop :=
  ∀ (s : State) (id : CmdId) (c : Cmd) (f : Tens), s.cmd? id = some c → c.ending = none → isOpcode 0x30 c.desc = true →
    let b := tBody c.desc
    let i : Instr := if c.begun then .topiaryBufferWrite id else .topiary id
    s.tensRun id.ctx (if b.src ≠ noHandle then b.src else b.dest) = some f →
    (c.begun = true → exec (.topiary id) s = .next s)
    ∧ (c.begun = false → exec (.topiaryBufferWrite id) s = .next s)
    ∧ (s.topiaryTested id = true → exec i s = .next s)
    ∧ (s.topiaryTested id = false →
        (∀ e src, s.topiarySource id b = .ok (some e, src) → exec i s = .next (s.finish id e))
        ∧ (∀ src, s.topiarySource id b = .ok (none, src) → s.buffersFree id.ctx b = false →
            exec i s = .next (s.updCmd id fun x => { x with begun := true }))
        ∧ (∀ src w g v, s.topiarySource id b = .ok (none, src) → s.buffersFree id.ctx b = true → s.denseOr id b.wscore = .ok w →
            s.denseOr id b.gscore = .ok g → s.denseOr id b.value = .ok v →
            let bs := editBlocks b f src w g
            let nc := ceilDiv (f.log 0) 8
            let bad := firstIdx bs.length fun k => (bs[k]?).any fun x => !transposable b.n x.kept
            (∀ k, b.check = true → bad = some k → ∃ t, exec i s = .next t ∧ t.EndedAs id
              (sparseEnding ⟨.maskNotTransposable, 8 * (k / nc), k % nc⟩ (if b.dest ≠ noHandle then b.dest else b.src) 0 0))
            ∧ ((b.check = false ∨ bad = none) →
                let r := s.topiaryWrite id b f src bs (if b.value = noHandle then none else some v)
                (r.2.err = none → ∃ t, exec i s = .next t
                  ∧ t.EndedAs id (if c.replayed then Status.replayed.plain else Status.ok.plain) ∧ t.mem.cells = r.1.mem.cells)
                ∧ (r.2.err = some .wait → exec i s = .next s)
                ∧ (∀ e, r.2.err = some e → e ≠ .wait → ∃ t, exec i s = .next t ∧ t.EndedAs id e.ending))))

/-- R117–R120, R174–R181 and R375–R377. A vector command whose operands can be read stores its rows and ends with OK; where a byte cannot
be stored it ends as the access says, and where a bank it writes is under handover it waits as it stood. The commands whose tasks a cell
draws (ELEMENTWISE, ROW_FORWARD, ROW_BACKWARD) run at their turn of the draw list, and wait before it. ELEMENTWISE stores the drain
stages of each row, and after that its amax in the history, its statistics records and the cleared promotion bits; REDUCE combines the
elements that differ only along its axis, in ascending order, and scales the result; ROW_FORWARD stores the rows of R176 with their
scale and shift, and the two statistics of each row; ROW_BACKWARD stores the gradients of R176 and the sums of each 128 rows; TOPK
stores the candidates and then their weights. (What a REDUCE over no element gives, what lies past the end of a vector operand and the
step of a ROW_BACKWARD are free values of the model, log entries 12, 24 and 25; that a command waits whole is log entry 78.) -/
def Obligations.VectorCommandsStoreTheirRows : Prop :=
  ∀ (s : State) (id : CmdId) (c : Cmd),
    let ctx := id.ctx
    let d := c.desc
    let rdIn (q : State) (t : Tens) : Except AccErr (List (List FVal)) := q.readAll (q.accOf id t) .fp32 t (q.readScale id t) 0
    let rd := rdIn s
    let ends (i : Instr) (o : Tens) (w : State × WOut) : Prop := ∃ t, exec i s = .next t
      ∧ (w.2.err = none → t.EndedAs id Status.ok.plain ∧ (o.usesHistory = false → t.mem.cells = w.1.mem.cells))
      ∧ (w.2.err = some .wait → t = s)
      ∧ (∀ e, w.2.err = some e → e ≠ .wait → t.EndedAs id e.ending ∧ t.mem.cells = w.1.mem.cells)
    (s.turnOf c = none → (s.Runs id 0x23 c → exec (.elementwise id) s = .next s) ∧ (s.Runs id 0x21 c → exec (.rowForward id) s = .next s)
      ∧ (s.Runs id 0x22 c → exec (.rowBackward id) s = .next s))
    ∧ (s.Runs id 0x23 c → ∀ l renew i o xs st, s.turnOf c = some (l, renew) → s.tensRun ctx (u32 d 32) = some i →
      s.tensRun ctx (u32 d 36) = some o →
      let s' := s.serve l c renew
      rdIn s' i = .ok xs →
      let p := if u32 d 40 = noHandle then Prog.plain o.fmt else progOf (c.records.getD 1 [])
      s'.badOperand id (i :: (p.operands.filterMap fun u => s'.tensRun ctx u.1.handle)) = .ok none →
      s'.readStages id p (rdIn s') = .ok st →
      let exact := i.fmt == .int32 && o.fmt == .int32 && p.empty
      let out := if exact then xs else (upTo xs.length).map fun r => st.row (fun j => ⟨j, r, r, j⟩) (xs.getD r [])
      let r := s'.moved id i 0 (i.rowReadBytes * i.rows) 0
      let r := if exact then r else r.flagNonfinite id ((insideOf o out).any fun v => !v.isFinite)
      let w := r.writeAll id o p.mode (u32 d 48) out
      let a := if exact then w.1 else w.1.mergeAmax id o (u32 d 48) (insideOf o out)
      let v := if w.2.1.err.isSome ∨ exact then (a, WOut.zero)
        else a.ewStats id (u32 d 44) o out (a.ewStrained id o w.2.2 p.mode (u32 d 48) out)
      let z := if (w.2.1.join v.2).err.isSome ∨ o.promote = false then (v.1, WOut.zero)
        else v.1.markRun (v.1.accOf id o) o 0 o.rows 0 o.cols false
      ends (.elementwise id) o (z.1, (w.2.1.join v.2).join z.2))
    ∧ (s.Runs id 0x24 c → ∀ i o xs, s.tensRun ctx (u32 d 32) = some i → s.tensRun ctx (u32 d 36) = some o → rd i = .ok xs →
      let op := bitsOf (u8 d 40) 4 3
      let isInt := i.fmt == .int32
      let exact := o.fmt == .int32 && u32 d 44 == 0x3F800000
      let one (r k : Nat) : FVal × Bool := match reduceGroup i (bitsOf (u8 d 40) 2 0) xs (o.outer r) k with
        | [] => (ofBits32 (Config.freeValue s.freeCount % 2 ^ 32), false)
        | x :: g =>
          if op = 0 ∧ isInt = true then
            g.foldl (fun a v => (.ofInt (satAdd (intOf a.1) (intOf v)).1, a.2 || (satAdd (intOf a.1) (intOf v)).2)) (x, false)
          else if op = 0 then (g.foldl add32 (toF32 x), false)
          else if op = 1 then (g.foldl max32 x, false)
          else (g.foldl min32 x, false)
      let res := (upTo o.rows).map fun r => (upTo o.cols).map fun k => one r k
      let out := res.map fun row => row.map fun e => if exact then e.1 else mul32 (toF32 e.1) (ofBits32 (u32 d 44))
      let r := (({ s with freeCount := s.freeCount + 1 } : State).moved id i 0 (i.rowReadBytes * i.rows) 0).flagSaturated id
        (res.any fun row => row.any fun e => e.2)
      let r := if exact then r else r.flagNonfinite id ((insideOf o out).any fun v => !v.isFinite)
      let w := r.writeAll id o (bitsOf (u8 d 40) 6 5) (u32 d 48) out
      ends (.reduce id) o (w.1, w.2.1))
    ∧ (s.Runs id 0x21 c → ∀ l renew x y xs gamma beta, s.turnOf c = some (l, renew) → s.tensRun ctx (u32 d 32) = some x →
      s.tensRun ctx (u32 d 36) = some y →
      let s' := s.serve l c renew
      s'.badOperand id (x :: ([u32 d 40, u32 d 44].filterMap fun h => s'.tensRun ctx h)) = .ok none → rdIn s' x = .ok xs →
      s'.vecOr id (u32 d 40) x.cols .one = .ok gamma → s'.vecOr id (u32 d 44) x.cols .zero = .ok beta →
      let k := bitsOf (u32 d 52) 1 0
      let masked (r col : Nat) : Bool :=
        bitOf (u32 d 52) 2 && decide (Int.ofNat col > Int.ofNat ((x.outer r).getD 0 0) + signedOf 32 (u32 d 60))
      let fs := (upTo xs.length).map fun r => rowForward k (ofBits32 (u32 d 56)) (masked r) ((xs.getD r []).map toF32)
      let out := fs.map fun w =>
        if k = 1 then zip2 add32 (zip2 mul32 w.vals gamma) beta else if k = 2 then zip2 mul32 w.vals gamma else w.vals
      let r := (s'.moved id x 0 (x.rowReadBytes * x.rows) 0).flagNonfinite id ((insideOf y out).any fun v => !v.isFinite)
      let w := r.writeAll id y (bitsOf (u32 d 52) 4 3) (u32 d 64) out
      let v := match w.1.tensRun ctx (u32 d 48) with
        | some t => if w.2.1.err.isSome then (w.1, WOut.zero)
          else ((w.1.writeAll id t 0 0 (fs.map fun (q : RowFwd) => [q.st0, q.st1])).1, (w.1.writeAll id t 0 0 (fs.map fun (q : RowFwd) => [q.st0, q.st1])).2.1)
        | none => (w.1, WOut.zero)
      ends (.rowForward id) y (v.1, w.2.1.join v.2))
    ∧ (s.Runs id 0x22 c → ∀ l renew x dy dx xs ys gamma, s.turnOf c = some (l, renew) → s.tensRun ctx (u32 d 32) = some x →
      s.tensRun ctx (u32 d 36) = some dy → s.tensRun ctx (u32 d 40) = some dx →
      let s' := s.serve l c renew
      s'.badOperand id (x :: dy :: ([u32 d 44].filterMap fun h => s'.tensRun ctx h)) = .ok none → rdIn s' x = .ok xs →
      rdIn s' dy = .ok ys → s'.vecOr id (u32 d 44) x.cols .one = .ok gamma →
      let k := bitsOf (u32 d 52) 1 0
      let masked (r col : Nat) : Bool :=
        bitOf (u32 d 52) 2 && decide (Int.ofNat col > Int.ofNat ((x.outer r).getD 0 0) + signedOf 32 (u32 d 60))
      let dys := ys.map fun r => r.map toF32
      let fs := (upTo xs.length).map fun r => rowForward k (ofBits32 (u32 d 56)) (masked r) ((xs.getD r []).map toF32)
      let vals (r : Nat) : List FVal := (fs.getD r ⟨[], .zero, .zero⟩).vals
      let out := (upTo xs.length).map fun r =>
        if k = 0 ∧ (upTo x.cols).all (masked r) then (xs.getD r []).map fun _ => FVal.zero
        else rowBackward k (ofBits32 (u32 d 56)) (fs.getD r ⟨[], .zero, .zero⟩) (dys.getD r []) gamma
      let sums (b : Nat) : List FVal :=
        let rs := (upTo (min 128 (xs.length - 128 * b))).map fun i => 128 * b + i
        columnSums (rs.map fun r => zip2 mul32 (dys.getD r []) (vals r)) ++ if k = 1 then columnSums (rs.map fun r => dys.getD r []) else []
      let r := ((s'.moved id x 0 (x.rowReadBytes * x.rows) 0).moved id dy 0 (dy.rowReadBytes * dy.rows) 0).flagNonfinite id
        ((insideOf dx out).any fun v => !v.isFinite)
      let w := r.free.2.writeAll id dx 0 (r.free.1 % 2 ^ 32) out
      let v := match w.1.tensRun ctx (u32 d 48) with
        | some t => if w.2.1.err.isSome then (w.1, WOut.zero)
          else ((w.1.writeAll id t 0 0 ((upTo t.rows).map sums)).1, (w.1.writeAll id t 0 0 ((upTo t.rows).map sums)).2.1)
        | none => (w.1, WOut.zero)
      ends (.rowBackward id) dx (v.1, w.2.1.join v.2))
    ∧ (s.cmd? id = some c → c.ending = none → isOpcode 0x60 d = true → ∀ l o w xs bias,
      s.tensRun ctx (u32 d 32) = some l → s.tensRun ctx (u32 d 40) = some o → s.tensRun ctx (u32 d 44) = some w → rd l = .ok xs →
      s.vecOr id (u32 d 36) l.cols .zero = .ok bias →
      let cands := xs.map fun r => bestOf (u8 d 49) (if u32 d 36 = noHandle then r else zip2 add32 r bias)
      let ws := (upTo xs.length).map fun i => gateWeights (bitsOf (u8 d 50) 1 0) (xs.getD i []) (cands.getD i [])
      let r := (s.flagNonfinite id (xs.any fun r => r.any FVal.isNan)).moved id l 0 (l.rowReadBytes * l.rows) 0
      let a := r.writeAll id o 0 0 (cands.map fun r => r.map FVal.ofNat)
      let b := a.1.writeAll id w 0 0 ws
      (a.2.1.err = none → ends (.topk id) w (b.1, b.2.1)) ∧ (∀ e, a.2.1.err = some e → ends (.topk id) o (a.1, a.2.1)))

/-- R199–R213. A LAYOUT stores its pads and elements, or its storage tiles: every pad first under ALLOW_OVERLAP, then every valid part;
a GATHER, SCATTER or SCATTER_ADD reads its whole index first, stops at the first index that names nothing, and answers in AUX how many
indices named no slice of its own; a DMA_COPY whose ranges meet reads every byte before it stores one, and stores, like any other,
request by request. Each ends with OK, or as the access that failed says, and waits as it stood where a bank it reaches is under
handover (the model's choice: log entry 78). -/
def Obligations.MovesStoreWhatTheyRead : Prop :=
  ∀ (s : State) (id : CmdId) (c : Cmd), s.cmd? id = some c → c.ending = none →
    let ctx := id.ctx
    let d := c.desc
    let ends (i : Instr) (o : Tens) (aux : Nat) (w : State × WOut) : Prop := ∃ t, exec i s = .next t
      ∧ (w.2.err = none → t.EndedAs id (okAux aux) ∧ (o.usesHistory = false → t.mem.cells = w.1.mem.cells))
      ∧ (w.2.err = some .wait → t = s)
      ∧ (∀ e, w.2.err = some e → e ≠ .wait → t.EndedAs id e.ending ∧ t.mem.cells = w.1.mem.cells)
    (isOpcode 0x40 d = true → ∀ i o, s.tensRun ctx (u32 d 32) = some i → s.tensRun ctx (u32 d 36) = some o →
      let es := moveEnts d i o (c.records.getD 0 [])
      let sS := s.readScale id i
      let passes (t : State) (f : Part → State → State × WOut) : State × WOut :=
        if bitOf (u32 d 52) 19 then
          let a := f .pad t
          if a.2.err.isSome then a else ((f .valid a.1).1, a.2.join (f .valid a.1).2)
        else f .all t
      (mvOp d = 0 → o.sparseN = 0 → ∀ h r, (s.moveHow id d i o fun _ => s.layoutValues id d ⟨sS, .one, 0, 0, false⟩ es) = .ok (h, r) →
        (∀ e, r.layoutBad id d h es = .ok (some e) → exec (.layout id) s = .next (r.finish id e))
        ∧ (r.layoutBad id d h es = .ok none → ends (.layout id) o 0 (passes r fun part t => t.layoutPart id d h part es)))
      ∧ (mvOp d = 0 → o.sparseN ≠ 0 →
        (∀ e, s.layoutSparseBad id d es = .ok (some e) → exec (.layout id) s = .next (s.finish id e))
        ∧ (s.layoutSparseBad id d es = .ok none → ∀ h r, (s.moveHow id d i o fun _ => s.sparseValues id d sS es) = .ok (h, r) →
          ends (.layout id) o 0 (passes r fun part t => t.writeEach (fun t (be : Nat × MoveEnt) =>
            t.writeEach (fun t k => t.layoutTiles id d h part be.1 be.2 k) (upTo be.2.dst.tileRows)) (entBases 0 es))))
      ∧ (1 ≤ mvOp d → ∀ x vs, s.tensRun ctx (u32 d 44) = some x → s.readIndex id x = .ok vs →
        let i' : Instr := if mvOp d = 1 then .gather id else if mvOp d = 2 then .scatter id else .scatterAdd id
        let bads := (firstBad (if mvOp d = 1 then i else o) x.signed vs).toList
          ++ es.filterMap fun e => firstBad (e.named d) x.signed (vs.take (e.count d))
        (∀ k ∈ bads, (∀ j ∈ bads, k ≤ j) → exec i' s = .next (s.finish id (idxEnding x.handle k)))
        ∧ (bads = [] → ∀ h r, (s.moveHow id d i o fun _ => s.rowsValues id sS
              (es.map fun e => { e with src := e.src.asRows, dst := e.dst.asRows })) = .ok (h, r) →
            (∀ e, r.indexedBad id d h es = .ok (some e) → exec i' s = .next (r.finish id e))
            ∧ (r.indexedBad id d h es = .ok none →
              let w := r.moveIndexed id d h x.signed vs es
              ends i' o ((es.map fun e => foreignCount (e.named d) x.signed (vs.take (e.count d))).foldl (· + ·) 0) (w.1, w.2.1)))))
    ∧ (isOpcode 0x41 d = true → ∀ i o, s.tensRun ctx (u32 d 32) = some i → s.tensRun ctx (u32 d 36) = some o →
      let a := i.base + u64 d 40
      let b := o.base + u64 d 48
      let n := u64 d 56
      let put (t : State) (k : Nat × Nat) (bs : List Byte) : State × WOut :=
        ((t.writeBytes (s.accOf id o) (b + k.1) bs).1, ⟨false, 0, k.2, (t.writeBytes (s.accOf id o) (b + k.1) bs).2⟩)
      let cuts := dmaCuts b (n / 256 + 2) 0 n
      let done (w : State × WOut) : Prop :=
        (w.2.err = none → ∃ t, exec (.dmaCopy id) s = .next t ∧ t.EndedAs id Status.ok.plain ∧ t.mem.cells = w.1.mem.cells)
        ∧ (w.2.err = some .wait → exec (.dmaCopy id) s = .next s)
        ∧ (∀ e, w.2.err = some e → e ≠ .wait → ∃ t, exec (.dmaCopy id) s = .next t ∧ t.EndedAs id e.ending ∧ t.mem.cells = w.1.mem.cells)
      (Rng.meets (a, n) (b, n) = true → ∀ bs, s.readBytes (s.accOf id i) a n = .ok bs →
        done (s.writeEach (fun t k => put t k (sliceB bs k.1 k.2)) cuts))
      ∧ (Rng.meets (a, n) (b, n) = false → done (s.writeEach (fun t k => match t.readBytes (s.accOf id i) (a + k.1) k.2 with
          | .error e => (t, ⟨false, 0, 0, some e⟩)
          | .ok bs => put t k bs) cuts)))

/-- R378–R399. A SEND records where each assignment goes, places its messages and counts what it placed, dropped and redirected; a RETURN
sends each source its rows; a RECEIVE or SUM begins to take headers, and ends once every row is stored; a batch past its deadline
ends with FLOW_LOST; a cancel takes effect at the next frame, when the tag's generation advances. While its dispatcher or combiner is under
test a command neither begins nor ends (R459). -/
def Obligations.BatchesAreRoutedAndCancelled : Prop :=
  ∀ (s : State) (id : CmdId) (c : Cmd), s.Inv → s.cmd? id = some c → c.ending = none →
    let d := c.desc
    let die := s.cmdDie id
    (s.batchTested c = true → (isSend d = true → exec (.dispatchSend id) s = .next s) ∧ (isReturn d = true → exec (.combineReturn id) s = .next s)
      ∧ (isReceive d = true → exec (.dispatchReceive id) s = .next s) ∧ (isSum d = true → exec (.combineSum id) s = .next s))
    ∧ (s.batchTested c = false → isSend d = true →
      (c.begun = true → exec (.dispatchSend id) s = .next s)
      ∧ (c.begun = false → (∀ h, s.sendPlan id d = .error h → exec (.dispatchSend id) s = .next (s.halted id h))
        ∧ (∀ p r, s.sendPlan id d = .ok p →
          let n := p.cands.length * p.k
          let w := ({ s with freeCount := s.freeCount + n } : State).writeBytes (s.accOf id p.place) p.place.base (placement p s.freeCount)
          let placed := p.walk.placed.length
          w.2 = none → w.1.sendMessages c p die (s.stampOf c) = .ok r → die < 8 →
          ∃ t x, exec (.dispatchSend id) s = .next t ∧ t.cmd? id = some x ∧ x.begun = true ∧ t.fabric = r.fabric
            ∧ t.mem.cells = w.1.mem.cells
            ∧ (isCancelled c = false → x.run.stop = some ⟨0, n - placed, detail4 p.walk.redirected 0 0 0⟩)
            ∧ (r.sendsDone id = false → x.ending = none) ∧ (r.sendsDone id = true → x.ending = x.run.stop)
            ∧ t.rd (regDie .dispatchPlaced die) = (s.rd (regDie .dispatchPlaced die) + placed) % 2 ^ 64
            ∧ t.rd (regDie .dispatchDrops die) = (s.rd (regDie .dispatchDrops die) + (n - placed)) % 2 ^ 64
            ∧ t.rd (regDie .dispatchRedirects die) = (s.rd (regDie .dispatchRedirects die) + p.walk.redirected) % 2 ^ 64)))
    ∧ (s.batchTested c = false → isReturn d = true →
      (c.begun = true → exec (.combineReturn id) s = .next s)
      ∧ (c.begun = false → (∀ h, s.returnPlan id d = .error h → exec (.combineReturn id) s = .next (s.halted id h))
        ∧ (∀ p, s.returnPlan id d = .ok p →
          let order := rowsOfSource (recCount p.record) p.srcs.length (btExperts d)
          let rowsOf (i : Nat) : Except AccErr (List (List Byte)) := mapE (fun r => s.batchRowBytes id p.out r) (order i)
          (∀ i, i < p.srcs.length → ∃ rs, rowsOf i = .ok rs) →
          ∃ t x, exec (.combineReturn id) s = .next t ∧ t.cmd? id = some x ∧ x.begun = true ∧ x.run.stop = some Status.ok.plain
            ∧ t.mem = s.mem ∧ t.fabric.out.length = s.fabric.out.length + p.srcs.length
            ∧ (∀ i rs, i < p.srcs.length → rowsOf i = .ok rs → ∃ m, t.fabric.out[s.fabric.out.length + i]? = some m
              ∧ m.id = some id ∧ m.flow = srcReturn (p.srcs.getD i 0) ∧ m.type = 7 ∧ m.next = 0
              ∧ m.window = some (btStart d, btWindow d) ∧ m.slots.length = 1 + (chunks 512 (rs.flatten.length / 512 + 1) rs.flatten).length))))
    ∧ (s.batchTested c = false → isReceive d = true →
      (c.begun = false → (∀ h, s.receivePlan id d = .error h → exec (.dispatchReceive id) s = .next (s.halted id h))
        ∧ (∀ srcs, s.receivePlan id d = .ok srcs → s.fabric.headers = [] → srcs ≠ [] → c.rx.heads = [] →
          exec (.dispatchReceive id) s
            = .next (s.updCmd id fun x => { x with begun := true, records := [(3, (srcs.map (leBytes 8)).flatten)] })))
      ∧ (c.begun = true → (allRows c = false → exec (.dispatchReceive id) s = .next s)
        ∧ (allRows c = true → ∀ inT tpl pl rc tb, s.tensRun id.ctx (u32 d 36) = some inT → s.tensRun id.ctx (u32 d 44) = some tpl →
          s.tensRun id.ctx (u32 d 48) = some pl → s.tensRun id.ctx (u32 d 52) = some rc →
          s.readBytes (s.accOf id tpl) tpl.base (32 * btExperts d) = .ok tb →
          let n := (peers c).length
          let w := s.writeBytes (s.accOf id pl) pl.base (pointerList (fun i e => hdCount (headOf c i) e) n (btExperts d)
            (inT.stride.getD 1 0) (u32 d 60) tb)
          let v := w.1.writeBytes (s.accOf id rc) rc.base ((upTo n).map fun i => batchRecord (btExperts d) (headOf c i)).flatten
          w.2 = none → v.2 = none → exec (.dispatchReceive id) s
            = .next (v.1.finish id (okAux (((upTo n).map fun i => hdTotal (headOf c i)).foldl (· + ·) 0))))))
    ∧ (s.batchTested c = false → isSum d = true →
      (c.begun = false → (∀ h, s.sumPlan id d = .error h → exec (.combineSum id) s = .next (s.halted id h))
        ∧ (∀ homes bs, s.sumPlan id d = .ok (homes, bs) → s.fabric.headers = [] → homes ≠ [] → c.rx.heads = [] →
          exec (.combineSum id) s
            = .next (s.updCmd id fun x => { x with begun := true, records := [(2, bs), (3, (homes.map (leBytes 8)).flatten)] })))
      ∧ (c.begun = true → (allRows c = false → exec (.combineSum id) s = .next s)
        ∧ (allRows c = true → u32 d 60 = noHandle → ∀ ret wt out rs ws, s.tensRun id.ctx (u32 d 36) = some ret →
          s.tensRun id.ctx (u32 d 44) = some wt → s.tensRun id.ctx (u32 d 52) = some out →
          s.readAll (s.accOf id ret) .fp32 ret (s.readScale id ret) 0 = .ok rs →
          s.readAll (s.accOf id wt) .fp32 wt (s.readScale id wt) 0 = .ok ws →
          let rows := (upTo out.rows).map fun t => combineRow out.cols (bitOf (u8 d 32) 3) ((upTo (btK d)).filterMap fun j =>
            let p := bitsOf (u64 (c.records.getD 2 []) (8 * (t * btK d + j))) 4 0
            if p = 0x1F then none else some ((ws.getD t []).getD p .zero, rs.getD (t * btK d + j) [])) none
          let a := (s.moved id ret 0 (ret.rowReadBytes * ret.rows) 0).writeAll id out (bitsOf (u8 d 32) 2 1) (u32 d 72) rows
          a.2.1.err = none → ∃ t, exec (.combineSum id) s = .next t ∧ t.EndedAs id Status.ok.plain
            ∧ (out.usesHistory = false → t.mem.cells = a.1.mem.cells))))
    ∧ ((isReceive d = true ∨ isSum d = true) →
      let late := (btStart d + 22 ≤ s.frame ∧ ¬(c.begun = true ∧ allHeads c = true))
        ∨ (btEnd d + 21 ≤ s.frame ∧ ¬(c.begun = true ∧ allRows c = true))
      (late → exec (.batchDeadline id) s = .next (s.finish id Status.flowLost.plain)) ∧ (¬late → exec (.batchDeadline id) s = .next s))
    ∧ (isOpcode 0x63 d = true →
      (c.begun = true → exec (.batchCancel id) s = .next s)
      ∧ (c.begun = false → ∃ t, exec (.batchCancel id) s = .next t
        ∧ t.fabric = { s.fabric with cancels := s.fabric.cancels ++ [⟨die, id.ctx, u8 d 32, s.frame + 1, id⟩] }
        ∧ t.cmd? id = some { c with begun := true })
      ∧ ∀ k, s.fabric.cancels.find? (fun k => k.die == die && k.ctx == id.ctx && k.tag == u8 d 32) = some k → k.by' = id →
        (∀ x ∈ s.cmds, x.id = id → isSum x.desc = false) →
        (s.frame < k.frame → exec (.batchGenerationAdvance die id.ctx (u8 d 32)) s = .next s)
        ∧ (k.frame ≤ s.frame →
          let old := s.batchGenOf die id.ctx (u8 d 32)
          ∃ t, exec (.batchGenerationAdvance die id.ctx (u8 d 32)) s = .next t
            ∧ t.batchGenOf die id.ctx (u8 d 32) = (old + 1) % 65536 ∧ t.EndedAs id (okAux ((old + 1) % 65536))
            ∧ t.fabric.cancels = s.fabric.cancels.erase k ∧ { t with cmds := s.cmds, fabric := s.fabric } = s
            ∧ (∀ j x, s.cmd? j = some x → x.ending = none → j.ctx = id.ctx → btTag x.desc = u8 d 32 → s.cmdDie j = die →
                isSum x.desc = true → t.EndedAs j ⟨Status.cancelled.code, 0, leBytes 2 (u8 d 32) ++ leBytes 2 old ++ zeros 12⟩)))
end

