-- ==== Sys2Proof/Laws/Memory.lean ====
section
/-!
SUPPORT. Laws/Memory.lean: reading after writing, and that every memory operation keeps the canonical form.
-/
set_option Elab.async false
set_option linter.all false
namespace Sys2Proof.Machine

theorem sortedFrom_mono {lo lo' : Nat} {m : List Host.Cell} (h : sortedFrom lo m = true) (le : lo' ≤ lo) :
    sortedFrom lo' m = true := by
  cases m with
  | nil => rfl
  | cons c t =>
    obtain ⟨k, b⟩ := c
    simp only [sortedFrom, Bool.and_eq_true, decide_eq_true_eq] at h ⊢
    exact ⟨⟨by omega, h.1.2⟩, h.2⟩

/-- Below the first listed address a memory reads as unlisted. -/
theorem memGet_below {lo a : Nat} {m : List Host.Cell} (h : sortedFrom lo m = true) (l : a < lo) :
    memGet m a = unlisted := by
  cases m with
  | nil => rfl
  | cons c t =>
    obtain ⟨k, b⟩ := c
    simp only [sortedFrom, Bool.and_eq_true, decide_eq_true_eq] at h
    simp only [memGet]
    rw [if_neg (by omega), if_pos (by omega)]

theorem sortedFrom_memSet {lo a : Nat} {v : Byte} {m : List Host.Cell} (h : sortedFrom lo m = true) (l : lo ≤ a) :
    sortedFrom lo (memSet m a v) = true := by
  induction m generalizing lo with
  | nil => by_cases e : v = unlisted <;> simp [memSet, sortedFrom, e, l]
  | cons c t ih =>
    obtain ⟨k, b⟩ := c
    simp only [sortedFrom, Bool.and_eq_true, decide_eq_true_eq] at h
    obtain ⟨⟨hk, hb⟩, ht⟩ := h
    simp only [memSet]
    split
    · rename_i e
      subst e
      split
      · exact sortedFrom_mono ht (by omega)
      · rename_i hv
        simp [sortedFrom, l, hv, ht]
    · split
      · rename_i lt
        split
        · simp only [sortedFrom, Bool.and_eq_true, decide_eq_true_eq]; exact ⟨⟨hk, hb⟩, ht⟩
        · rename_i hv
          simp only [sortedFrom, Bool.and_eq_true, decide_eq_true_eq]
          exact ⟨⟨l, by simpa using hv⟩, ⟨by omega, hb⟩, ht⟩
      · simp only [sortedFrom, Bool.and_eq_true, decide_eq_true_eq]
        exact ⟨⟨hk, hb⟩, ih ht (by omega)⟩

theorem wf_memSet {m : List Host.Cell} (a : Nat) (v : Byte) (h : Memory.wf m = true) :
    Memory.wf (memSet m a v) = true := sortedFrom_memSet h (Nat.zero_le a)

theorem wf_memWrite {m : List Host.Cell} (a : Nat) (bs : List Byte) (h : Memory.wf m = true) :
    Memory.wf (memWrite m a bs) = true := by
  induction bs generalizing m a with
  | nil => exact h
  | cons b bs ih => exact ih (a + 1) (wf_memSet a b h)

theorem sortedFrom_filter {lo : Nat} (p : Host.Cell → Bool) {m : List Host.Cell} (h : sortedFrom lo m = true) :
    sortedFrom lo (m.filter p) = true := by
  induction m generalizing lo with
  | nil => rfl
  | cons c t ih =>
    obtain ⟨k, b⟩ := c
    simp only [sortedFrom, Bool.and_eq_true, decide_eq_true_eq] at h
    obtain ⟨⟨hk, hb⟩, ht⟩ := h
    simp only [List.filter_cons]
    split
    · simp only [sortedFrom, Bool.and_eq_true, decide_eq_true_eq]; exact ⟨⟨hk, hb⟩, ih ht⟩
    · exact sortedFrom_mono (ih ht) (by omega)

theorem wf_memClear {m : List Host.Cell} (a n : Nat) (h : Memory.wf m = true) : Memory.wf (memClear m a n) = true :=
  sortedFrom_filter _ h

/-- A byte reads as what was last stored in it. -/
theorem memGet_memSet_same {lo a : Nat} {v : Byte} {m : List Host.Cell} (h : sortedFrom lo m = true) :
    memGet (memSet m a v) a = v := by
  induction m generalizing lo with
  | nil => by_cases e : v = unlisted <;> simp [memSet, memGet, e]
  | cons c t ih =>
    obtain ⟨k, b⟩ := c
    simp only [sortedFrom, Bool.and_eq_true, decide_eq_true_eq] at h
    obtain ⟨⟨hk, hb⟩, ht⟩ := h
    simp only [memSet]
    split
    · split
      · rename_i e hv; subst hv; subst e; exact memGet_below ht (by omega)
      · simp [memGet]
    · split
      · split
        · rename_i hv; subst hv; rename_i ne lt; simp [memGet, ne, lt]
        · simp [memGet]
      · rename_i ne nlt
        simp only [memGet]
        rw [if_neg ne, if_neg nlt]
        exact ih ht

/-- A store leaves every other byte as it was. -/
theorem memGet_memSet_other {lo a x : Nat} {v : Byte} {m : List Host.Cell} (h : sortedFrom lo m = true) (ne : x ≠ a) :
    memGet (memSet m a v) x = memGet m x := by
  induction m generalizing lo with
  | nil => by_cases e : v = unlisted <;> simp [memSet, memGet, e, ne]
  | cons c t ih =>
    obtain ⟨k, b⟩ := c
    simp only [sortedFrom, Bool.and_eq_true, decide_eq_true_eq] at h
    obtain ⟨⟨hk, hb⟩, ht⟩ := h
    simp only [memSet]
    split
    · rename_i e
      subst e
      split
      · simp only [memGet]
        rw [if_neg ne]
        split
        · exact memGet_below ht (by omega)
        · rfl
      · simp [memGet, ne]
    · split
      · split
        · rfl
        · rename_i lt _
          simp only [memGet]
          rw [if_neg ne]
          by_cases lx : x < a
          · rw [if_pos lx, if_neg (by omega), if_pos (by omega)]
          · rw [if_neg lx]
      · simp only [memGet]
        split
        · rfl
        · split
          · rfl
          · exact ih ht

/-- A run of stores leaves every byte outside it as it was. -/
theorem memGet_memWrite_other {a x : Nat} (bs : List Byte) {m : List Host.Cell} (h : Memory.wf m = true)
    (out : x < a ∨ a + bs.length ≤ x) : memGet (memWrite m a bs) x = memGet m x := by
  induction bs generalizing m a with
  | nil => rfl
  | cons b bs ih =>
    simp only [List.length_cons] at out
    simp only [memWrite]
    rw [ih (wf_memSet a b h) (by omega), memGet_memSet_other h (by omega)]

/-- A run of bytes reads back as it was stored. -/
theorem memRead_memWrite (bs : List Byte) {a : Nat} {m : List Host.Cell} (h : Memory.wf m = true) :
    memRead (memWrite m a bs) a bs.length = bs := by
  induction bs generalizing m a with
  | nil => rfl
  | cons b bs ih =>
    simp only [memWrite, List.length_cons, memRead]
    rw [memGet_memWrite_other bs (wf_memSet a b h) (Or.inl (by omega)), memGet_memSet_same h, ih (wf_memSet a b h)]

end Sys2Proof.Machine
end

