-- ==== Sys2Proof/Laws/Keeps.lean ====
section
/-!
SUPPORT. Laws/Keeps.lean: the relation that every operation of the model stands in to the state it starts from: the queue is
left alone, memory and the register list stay canonical, no point passes the fused maximum, and no fuse is undone.
-/
set_option Elab.async false
set_option linter.all false
namespace Sys2Proof.Machine

/-- `p` and `q`: whether what `SamePlane` and `SameShell` list is left alone too. -/
structure Keeps (p q : Bool) (s t : State) : Prop where
  pending : t.pending = s.pending
  memOk : s.memOk → t.memOk
  points : s.pointsOk → t.pointsOk
  fuses : s.FusesKept t
  regs : s.regsOk → t.regsOk
  plane : p = true → s.SamePlane t
  shell : q = true → s.SameShell t

theorem State.FusesKept.refl (s : State) : s.FusesKept s := ⟨id, Nat.le_refl _, id, List.prefix_rfl, rfl⟩

theorem State.FusesKept.trans {s t u : State} (h : s.FusesKept t) (k : t.FusesKept u) : s.FusesKept u :=
  ⟨fun x => k.killed (h.killed x), Nat.le_trans h.floor k.floor, fun x => k.signedSetup (h.signedSetup x),
    h.owners.trans k.owners, k.serial.trans h.serial⟩

theorem State.SamePlane.refl (s : State) : s.SamePlane s := ⟨rfl, rfl, rfl, rfl, rfl, rfl, rfl, rfl⟩

theorem State.SamePlane.trans {s t u : State} (h : s.SamePlane t) (k : t.SamePlane u) : s.SamePlane u :=
  ⟨k.time.trans h.time, k.boot.trans h.boot, k.power.trans h.power, k.sec.trans h.sec, k.step.trans h.step, k.upd.trans h.upd,
    k.groups.trans h.groups, k.fabric.trans h.fabric⟩

theorem State.SameShell.refl (s : State) : s.SameShell s := ⟨rfl, rfl, rfl, rfl, rfl, rfl, rfl, rfl⟩

theorem State.SameShell.trans {s t u : State} (h : s.SameShell t) (k : t.SameShell u) : s.SameShell u :=
  ⟨k.ids.trans h.ids, k.cells.trans h.cells, k.dies.trans h.dies, k.held.trans h.held, k.msgs.trans h.msgs,
    k.snap.trans h.snap, k.twatches.trans h.twatches, k.gradStep.trans h.gradStep⟩

theorem Keeps.refl (p q : Bool) (s : State) : Keeps p q s s := ⟨rfl, id, id, .refl s, id, fun _ => .refl s, fun _ => .refl s⟩

theorem Keeps.trans {p q : Bool} {s t u : State} (h : Keeps p q s t) (k : Keeps p q t u) : Keeps p q s u :=
  ⟨k.pending.trans h.pending, fun x => k.memOk (h.memOk x), fun x => k.points (h.points x), h.fuses.trans k.fuses,
    fun x => k.regs (h.regs x), fun x => (h.plane x).trans (k.plane x), fun x => (h.shell x).trans (k.shell x)⟩

/-- A record update that leaves the queue, the registers and what the relation speaks of; it may change a plane. -/
theorem Keeps.change {s t : State} {time boot power pcie ctxs dies cells groups mem cmds held msgs faults log freeze snap
    twatches gradStep fabric upd step sec freeCount} (h : Keeps false false s t) (c : mem.cells = t.mem.cells)
    (m : mem.host = t.mem.host) (x : power.point = t.power.point) (y : power.fwPoint = t.power.fwPoint)
    (k : boot.killed = t.boot.killed) (f : boot.fwFloor = t.boot.fwFloor)
    (g : boot.signedRequired = t.boot.signedRequired) (l : boot.serial = t.boot.serial)
    (o : sec.ownerSlots = t.sec.ownerSlots) :
    Keeps false false s ⟨t.pending, t.regs, time, boot, power, pcie, ctxs, dies, cells, groups, mem, cmds, held, msgs, faults,
      log, freeze, snap, twatches, gradStep, fabric, upd, step, sec, freeCount⟩ :=
  h.trans ⟨rfl, fun w => ⟨(congrArg Memory.wf c).trans w.1, (congrArg Memory.wf m).trans w.2⟩,
    fun w => ⟨Nat.le_trans (Nat.le_of_eq x) w.1, Nat.le_trans (Nat.le_of_eq y) w.2⟩,
    ⟨fun w => k.trans w, Nat.le_of_eq f.symm, fun w => g.trans w, o ▸ List.prefix_rfl, l⟩, id, (fun y => nomatch y),
    (fun y => nomatch y)⟩

/-- A record update that leaves the planes alone too. -/
theorem Keeps.inPlane {b : Bool} {s t : State} {pcie ctxs dies cells mem cmds held msgs faults log freeze snap twatches gradStep
    freeCount} (h : Keeps b false s t) (c : mem.cells = t.mem.cells) (m : mem.host = t.mem.host) :
    Keeps b false s ⟨t.pending, t.regs, t.time, t.boot, t.power, pcie, ctxs, dies, cells, t.groups, mem, cmds, held, msgs,
      faults, log, freeze, snap, twatches, gradStep, t.fabric, t.upd, t.step, t.sec, freeCount⟩ :=
  h.trans ⟨rfl, fun w => ⟨(congrArg Memory.wf c).trans w.1, (congrArg Memory.wf m).trans w.2⟩, id,
    ⟨id, Nat.le_refl _, id, List.prefix_rfl, rfl⟩, id, fun _ => ⟨rfl, rfl, rfl, rfl, rfl, rfl, rfl, rfl⟩, (fun y => nomatch y)⟩

/-- A record update that leaves the shell alone too. -/
theorem Keeps.update {p q : Bool} {s t : State} {pcie ctxs mem cmds faults log freeze freeCount} (h : Keeps p q s t)
    (c : mem.cells = t.mem.cells) (m : mem.host = t.mem.host) (i : cmds.map (·.id) = t.cmds.map (·.id)) :
    Keeps p q s ⟨t.pending, t.regs, t.time, t.boot, t.power, pcie, ctxs, t.dies, t.cells, t.groups, mem, cmds, t.held, t.msgs,
      faults, log, freeze, t.snap, t.twatches, t.gradStep, t.fabric, t.upd, t.step, t.sec, freeCount⟩ :=
  h.trans ⟨rfl, fun w => ⟨(congrArg Memory.wf c).trans w.1, (congrArg Memory.wf m).trans w.2⟩, id,
    ⟨id, Nat.le_refl _, id, List.prefix_rfl, rfl⟩, id, fun _ => ⟨rfl, rfl, rfl, rfl, rfl, rfl, rfl, rfl⟩,
    fun _ => ⟨i, rfl, rfl, rfl, rfl, rfl, rfl, rfl⟩⟩

theorem Keeps.cut {p q : Bool} {s t u : State} (h : Keeps p q s t) (k : Keeps p q s t → Keeps p q s u) : Keeps p q s u := k h

theorem Keeps.elim {α : Type} {p q : Bool} {s t : State} (o : Option α) {f : α → State} (h : Keeps p q s t)
    (k : ∀ x, Keeps p q s (f x)) : Keeps p q s (o.elim t f) := by
  cases o with
  | none => exact h
  | some x => exact k x

theorem Keeps.foldl {α : Type} {p q : Bool} {s t : State} {f : State → α → State} (xs : List α) (h : Keeps p q s t)
    (k : ∀ u x, Keeps p q s u → Keeps p q s (f u x)) : Keeps p q s (xs.foldl f t) := by
  induction xs generalizing t with
  | nil => exact h
  | cons x xs ih => exact ih (k t x h)

/-- A fold that carries a state beside something else. -/
theorem Keeps.foldl_fst {α β : Type} {p q : Bool} {s : State} {w : State × β} {f : State × β → α → State × β} (xs : List α)
    (h : Keeps p q s w.1) (k : ∀ u x, Keeps p q s u.1 → Keeps p q s (f u x).1) : Keeps p q s (xs.foldl f w).1 := by
  induction xs generalizing w with
  | nil => exact h
  | cons x xs ih => exact ih (k w x h)

theorem Keeps.foldl_snd {α β : Type} {p q : Bool} {s : State} {w : β × State} {f : β × State → α → β × State} (xs : List α)
    (h : Keeps p q s w.2) (k : ∀ u x, Keeps p q s u.2 → Keeps p q s (f u x).2) : Keeps p q s (xs.foldl f w).2 := by
  induction xs generalizing w with
  | nil => exact h
  | cons x xs ih => exact ih (k w x h)

end Sys2Proof.Machine
end

