-- ==== Sys2Proof/Laws/Tab.lean ====
section
/-!
SUPPORT. Laws/Tab.lean: looking up after an update in the sorted association lists, and in the parts of the state kept in them.
-/
set_option Elab.async false
set_option linter.all false
namespace Sys2Proof.Machine

theorem Tab.get?_set_same {α : Type} (t : Tab α) (i : Nat) (x : α) : (t.set i x).get? i = some x := by
  induction t with
  | nil => simp [Tab.set, Tab.get?]
  | cons e t ih =>
    obtain ⟨k, v⟩ := e
    simp only [Tab.set]
    split
    · simp [Tab.get?]
    · split
      · simp [Tab.get?]
      · rename_i h1 h2
        simp only [Tab.get?, if_neg h1, if_neg h2, ih]

theorem Tab.get?_set_other {α : Type} (t : Tab α) {i j : Nat} (x : α) (h : j ≠ i) : (t.set i x).get? j = t.get? j := by
  induction t with
  | nil => simp [Tab.set, Tab.get?, h]
  | cons e t ih =>
    obtain ⟨k, v⟩ := e
    simp only [Tab.set]
    split
    · rename_i e; subst e; simp [Tab.get?, h]
    · split
      · simp only [Tab.get?, if_neg h]
        split
        · rw [if_neg (by omega), if_pos (by omega)]
        · rfl
      · simp only [Tab.get?, ih]

theorem Tab.set_keys {α : Type} {t : Tab α} {i : Nat} {x : α} {e : Nat × α} (h : e ∈ t.set i x) : e.1 = i ∨ e ∈ t := by
  induction t with
  | nil => simp only [Tab.set, List.mem_singleton] at h; left; rw [h]
  | cons c t ih =>
    obtain ⟨k, v⟩ := c
    simp only [Tab.set] at h
    split at h
    · rcases List.mem_cons.1 h with h | h
      · left; rw [h]
      · right; exact List.mem_cons_of_mem _ h
    · split at h
      · rcases List.mem_cons.1 h with h | h
        · left; rw [h]
        · right; exact h
      · rcases List.mem_cons.1 h with h | h
        · right; rw [h]; exact List.mem_cons_self
        · rcases ih h with h | h
          · left; exact h
          · right; exact List.mem_cons_of_mem _ h

theorem Tab.set_rising {α : Type} {t : Tab α} (i : Nat) (x : α) (h : t.Pairwise fun a b => a.1 < b.1) :
    (t.set i x).Pairwise fun a b => a.1 < b.1 := by
  induction t with
  | nil => exact List.pairwise_singleton _ _
  | cons c t ih =>
    obtain ⟨k, v⟩ := c
    obtain ⟨hk, ht⟩ := List.pairwise_cons.1 h
    simp only [Tab.set]
    split
    · rename_i e; subst e; exact List.pairwise_cons.2 ⟨hk, ht⟩
    · split
      · rename_i lt
        refine List.pairwise_cons.2 ⟨fun e he => ?_, h⟩
        rcases List.mem_cons.1 he with he | he
        · rw [he]; exact lt
        · exact Nat.lt_trans lt (hk e he)
      · rename_i ne nlt
        refine List.pairwise_cons.2 ⟨fun e he => ?_, ih ht⟩
        rcases Tab.set_keys he with he | he
        · rw [he]; show k < i; omega
        · exact hk e he

theorem Tab.erase_sublist {α : Type} (t : Tab α) (i : Nat) : (t.erase i).Sublist t := by
  induction t with
  | nil => exact List.Sublist.refl _
  | cons c t ih =>
    obtain ⟨k, v⟩ := c
    simp only [Tab.erase]
    split
    · exact List.sublist_cons_self _ _
    · split
      · exact List.Sublist.refl _
      · exact ih.cons₂ _

theorem Tab.erase_rising {α : Type} {t : Tab α} (i : Nat) (h : t.Pairwise fun a b => a.1 < b.1) :
    (t.erase i).Pairwise fun a b => a.1 < b.1 := List.Pairwise.sublist (Tab.erase_sublist t i) h

theorem Tab.get?_below {α : Type} {t : Tab α} {i : Nat} (h : ∀ e ∈ t, i < e.1) : t.get? i = none := by
  cases t with
  | nil => rfl
  | cons c t =>
    have := h c List.mem_cons_self
    simp only [Tab.get?]
    rw [if_neg (by omega), if_pos this]

theorem Tab.get?_erase_same {α : Type} {t : Tab α} (i : Nat) (h : t.Pairwise fun a b => a.1 < b.1) :
    (t.erase i).get? i = none := by
  induction t with
  | nil => rfl
  | cons c t ih =>
    obtain ⟨k, v⟩ := c
    obtain ⟨hk, ht⟩ := List.pairwise_cons.1 h
    simp only [Tab.erase]
    split
    · rename_i e; subst e; exact Tab.get?_below hk
    · split
      · rename_i ne lt; simp [Tab.get?, ne, lt]
      · rename_i ne nlt; simp only [Tab.get?, if_neg ne, if_neg nlt]; exact ih ht

theorem Tab.get?_erase_other {α : Type} {t : Tab α} {i j : Nat} (h : t.Pairwise fun a b => a.1 < b.1) (ne : j ≠ i) :
    (t.erase i).get? j = t.get? j := by
  induction t with
  | nil => rfl
  | cons c t ih =>
    obtain ⟨k, v⟩ := c
    obtain ⟨hk, ht⟩ := List.pairwise_cons.1 h
    simp only [Tab.erase]
    split
    · rename_i e; subst e
      simp only [Tab.get?, if_neg ne]
      split
      · exact Tab.get?_below fun e he => Nat.lt_trans ‹_› (hk e he)
      · rfl
    · split
      · rfl
      · simp only [Tab.get?, ih ht]

theorem Tab.getD_set_same {α : Type} (t : Tab α) (i : Nat) (x d : α) : (t.set i x).getD i d = x := by
  simp [Tab.getD, Tab.get?_set_same]

theorem Tab.getD_set_other {α : Type} (t : Tab α) {i j : Nat} (x d : α) (h : j ≠ i) : (t.set i x).getD j d = t.getD j d := by
  simp [Tab.getD, Tab.get?_set_other t x h]

theorem Tab.getD_upd_same {α : Type} (t : Tab α) (i : Nat) (d : α) (f : α → α) : (t.upd i d f).getD i d = f (t.getD i d) :=
  Tab.getD_set_same t i _ d

theorem Tab.getD_upd_other {α : Type} (t : Tab α) {i j : Nat} (d : α) (f : α → α) (h : j ≠ i) :
    (t.upd i d f).getD j d = t.getD j d := Tab.getD_set_other t _ d h

/-- A register reads what was last stored in it. -/
theorem State.rd_wr_same {s : State} (r : Reg) (v : Nat) (h : s.regs.Pairwise fun a b => a.1 < b.1) : (s.wr r v).rd r = v := by
  unfold State.rd State.wr Tab.getD
  dsimp only
  split
  · rename_i e; rw [Tab.get?_erase_same _ h, e]; rfl
  · rw [Tab.get?_set_same]; rfl

/-- A store in one register leaves those at other addresses as they were. -/
theorem State.rd_wr_other {s : State} {r q : Reg} (v : Nat) (h : s.regs.Pairwise fun a b => a.1 < b.1) (ne : q.addr ≠ r.addr) :
    (s.wr r v).rd q = s.rd q := by
  unfold State.rd State.wr Tab.getD
  dsimp only
  split
  · rw [Tab.get?_erase_other h ne]
  · rw [Tab.get?_set_other _ _ ne]

theorem State.updCtx_same (s : State) (c : Nat) (f : Ctx → Ctx) : (s.updCtx c f).ctx c = f (s.ctx c) :=
  Tab.getD_upd_same s.ctxs c Ctx.init f

theorem State.updCtx_other (s : State) {c c' : Nat} (f : Ctx → Ctx) (h : c' ≠ c) : (s.updCtx c f).ctx c' = s.ctx c' :=
  Tab.getD_upd_other s.ctxs Ctx.init f h

theorem State.updDie_same (s : State) (d : Nat) (f : Die → Die) : (s.updDie d f).die d = f (s.die d) :=
  Tab.getD_upd_same s.dies d Die.init f

theorem State.updDie_other (s : State) {d d' : Nat} (f : Die → Die) (h : d' ≠ d) : (s.updDie d f).die d' = s.die d' :=
  Tab.getD_upd_other s.dies Die.init f h

theorem State.updCell_same (s : State) (c : Nat) (f : Cell → Cell) : (s.updCell c f).cell c = f (s.cell c) :=
  Tab.getD_upd_same s.cells c Cell.init f

theorem State.updCell_other (s : State) {c c' : Nat} (f : Cell → Cell) (h : c' ≠ c) : (s.updCell c f).cell c' = s.cell c' :=
  Tab.getD_upd_other s.cells Cell.init f h

theorem State.updSlot_same (s : State) (c i : Nat) (f : DescSlot → DescSlot) : (s.updSlot c i f).slot c i = f (s.slot c i) := by
  simp only [State.slot, State.updSlot, State.updCtx_same]
  exact Tab.getD_upd_same (s.ctx c).slots i DescSlot.init f

/-- An issued command after one command's record was changed. -/
theorem State.cmd?_updCmd (s : State) (i : CmdId) (f : Cmd → Cmd) (hf : ∀ c, (f c).id = c.id) :
    (s.updCmd i f).cmd? i = (s.cmd? i).map f := by
  have h : ∀ l : List Cmd, (l.map fun c => if c.id = i then f c else c).find? (fun c => c.id = i)
      = (l.find? fun c => c.id = i).map f := by
    intro l
    induction l with
    | nil => rfl
    | cons c l ih =>
      by_cases e : c.id = i
      · simp [List.find?, e, hf]
      · simp [List.find?, e, ih]
  exact h s.cmds

end Sys2Proof.Machine
end

