-- ==== Sys2Proof/Laws/KeepsOps.lean ====
section
/-!
SUPPORT. Laws/KeepsOps.lean: the operations of Machine/Ops.lean keep the queue, the memories, the points and the fuses.
-/
set_option Elab.async false
set_option linter.all false
namespace Sys2Proof.Machine

theorem State.wr_keeps {lp lq : Bool} {z : State} (s : State) (r : Reg) (v : Nat) (hs : Keeps lp lq z s) : Keeps lp lq z (State.wr s r v) := by
  refine hs.trans ⟨rfl, id, id, ⟨id, Nat.le_refl _, id, List.prefix_rfl, rfl⟩, fun w => ?_,
    fun _ => ⟨rfl, rfl, rfl, rfl, rfl, rfl, rfl, rfl⟩, fun _ => ⟨rfl, rfl, rfl, rfl, rfl, rfl, rfl, rfl⟩⟩
  unfold State.regsOk State.wr
  dsimp only
  split
  · exact Tab.erase_rising _ w
  · exact Tab.set_rising _ _ w

theorem State.setFld_keeps {lp lq : Bool} {z : State} (s : State) (r : Reg) (hi lo x : Nat) (hs : Keeps lp lq z s) :
    Keeps lp lq z (State.setFld s r hi lo x) := by
  unfold State.setFld
  repeat' first
    | with_reducible assumption
    | with_reducible apply State.wr_keeps

theorem State.bump_keeps {lp lq : Bool} {z : State} (s : State) (r : Reg) (n : Nat) (hs : Keeps lp lq z s) :
    Keeps lp lq z (State.bump s r n) := by
  unfold State.bump
  repeat' first
    | with_reducible assumption
    | with_reducible apply State.wr_keeps

theorem State.updCtx_keeps {lp lq : Bool} {z : State} (s : State) (c : Nat) (f : Ctx → Ctx) (hs : Keeps lp lq z s) :
    Keeps lp lq z (State.updCtx s c f) := by
  unfold State.updCtx
  repeat' first
    | with_reducible assumption
    | dsimp -zeta only
    | (intro _)
    | split
    | assumption
    | fail_if_no_progress refine Keeps.update ?_ rfl rfl rfl

theorem State.updDie_keeps {lp : Bool} {z : State} (s : State) (d : Nat) (f : Die → Die) (hs : Keeps lp false z s) :
    Keeps lp false z (State.updDie s d f) := by
  unfold State.updDie
  repeat' first
    | with_reducible assumption
    | dsimp -zeta only
    | (intro _)
    | split
    | assumption
    | fail_if_no_progress refine Keeps.inPlane ?_ rfl rfl

theorem State.updCell_keeps {lp : Bool} {z : State} (s : State) (c : Nat) (f : Cell → Cell) (hs : Keeps lp false z s) :
    Keeps lp false z (State.updCell s c f) := by
  unfold State.updCell
  repeat' first
    | with_reducible assumption
    | dsimp -zeta only
    | (intro _)
    | split
    | assumption
    | fail_if_no_progress refine Keeps.inPlane ?_ rfl rfl

theorem State.updQueue_keeps {lp lq : Bool} {z : State} (s : State) (c q : Nat) (f : QueueSt → QueueSt) (hs : Keeps lp lq z s) :
    Keeps lp lq z (State.updQueue s c q f) := by
  unfold State.updQueue
  repeat' first
    | with_reducible assumption
    | with_reducible apply State.updCtx_keeps

theorem State.updCq_keeps {lp lq : Bool} {z : State} (s : State) (c r : Nat) (f : CqSt → CqSt) (hs : Keeps lp lq z s) :
    Keeps lp lq z (State.updCq s c r f) := by
  unfold State.updCq
  repeat' first
    | with_reducible assumption
    | with_reducible apply State.updCtx_keeps

theorem State.updSlot_keeps {lp lq : Bool} {z : State} (s : State) (c i : Nat) (f : DescSlot → DescSlot) (hs : Keeps lp lq z s) :
    Keeps lp lq z (State.updSlot s c i f) := by
  unfold State.updSlot
  repeat' first
    | with_reducible assumption
    | with_reducible apply State.updCtx_keeps

theorem State.updLslot_keeps {lp : Bool} {z : State} (s : State) (l : Nat) (f : LSlot → LSlot) (hs : Keeps lp false z s) :
    Keeps lp false z (State.updLslot s l f) := by
  unfold State.updLslot
  repeat' first
    | with_reducible assumption
    | with_reducible apply State.updDie_keeps

theorem State.updCmd_keeps {lp lq : Bool} {z : State} (s : State) (i : CmdId) (f : Cmd → Cmd) (hs : Keeps lp lq z s)
    (hf : lq = true → ∀ c, (f c).id = c.id) : Keeps lp lq z (State.updCmd s i f) := by
  refine hs.trans ⟨rfl, id, id, ⟨id, Nat.le_refl _, id, List.prefix_rfl, rfl⟩, id,
    fun _ => ⟨rfl, rfl, rfl, rfl, rfl, rfl, rfl, rfl⟩, fun h => ⟨?_, rfl, rfl, rfl, rfl, rfl, rfl, rfl⟩⟩
  simp only [State.updCmd, List.map_map]
  refine List.map_congr_left fun c _ => ?_
  simp only [Function.comp]
  split
  · exact hf h c
  · rfl

theorem State.free_keeps {lp lq : Bool} {z : State} (s : State) (hs : Keeps lp lq z s) :
    Keeps lp lq z (State.free s).2 := by
  unfold State.free
  repeat' first
    | with_reducible assumption
    | dsimp -zeta only
    | (intro _)
    | split
    | assumption
    | fail_if_no_progress refine Keeps.update ?_ rfl rfl rfl
theorem State.free_keeps' {lp lq : Bool} {z : State} {s : State} {o' u'} (hs : Keeps lp lq z s) (e' : State.free s = (o', u')) : Keeps lp lq z u' := by
  have k := State.free_keeps (z := z) s hs
  rw [e'] at k; exact k

theorem State.pmc_keeps {lp lq : Bool} {z : State} (s : State) (die kind inst ev : Nat) (ctx : Option Nat) (n : Nat) (hs : Keeps lp lq z s) :
    Keeps lp lq z (State.pmc s die kind inst ev ctx n) := by
  unfold State.pmc
  repeat' first
    | with_reducible assumption
    | with_reducible apply State.bump_keeps
    | with_reducible apply Keeps.foldl
    | with_reducible apply Keeps.foldl_fst
    | with_reducible apply Keeps.foldl_snd
    | (extract_lets +onlyGivenNames x; clear_value x)
    | dsimp -zeta only
    | (intro _)
    | split

theorem State.hostWrite_keeps {lp lq : Bool} {z : State} (s : State) (a : Nat) (bs : List Byte) (hs : Keeps lp lq z s) :
    Keeps lp lq z (s.hostWrite a bs) :=
  hs.trans ⟨rfl, fun w => ⟨w.1, wf_memWrite a bs w.2⟩, id, ⟨id, Nat.le_refl _, id, List.prefix_rfl, rfl⟩, id,
      fun _ => ⟨rfl, rfl, rfl, rfl, rfl, rfl, rfl, rfl⟩, fun _ => ⟨rfl, rfl, rfl, rfl, rfl, rfl, rfl, rfl⟩⟩

theorem State.hostStores_keeps {lp lq : Bool} {z : State} (s : State) (l : HostStores) (hs : Keeps lp lq z s) :
    Keeps lp lq z (State.hostStores s l) := by
  unfold State.hostStores
  repeat' first
    | with_reducible assumption
    | with_reducible apply State.hostWrite_keeps
    | with_reducible apply Keeps.foldl
    | with_reducible apply Keeps.foldl_fst
    | with_reducible apply Keeps.foldl_snd
    | dsimp -zeta only
    | (intro _)

theorem State.sendVector_keeps {lp lq : Bool} {z : State} (s : State) (v : Nat) (hs : Keeps lp lq z s) :
    Keeps lp lq z (State.sendVector s v) := by
  unfold State.sendVector
  repeat' first
    | with_reducible assumption
    | (extract_lets +onlyGivenNames x; clear_value x)
    | dsimp -zeta only
    | (intro _)
    | split
    | assumption
    | fail_if_no_progress refine Keeps.update ?_ rfl rfl rfl

theorem State.startHoldoff_keeps {lp lq : Bool} {z : State} (s : State) (c r : Nat) (hs : Keeps lp lq z s) :
    Keeps lp lq z (State.startHoldoff s c r) := by
  unfold State.startHoldoff
  repeat' first
    | with_reducible assumption
    | with_reducible apply State.updCq_keeps
    | (extract_lets +onlyGivenNames x;
       first | (refine Keeps.cut (t := x) ?_ (fun hx => ?_); subst x; rotate_left; clear_value x; rotate_right)
             | (refine Keeps.cut (t := x.1) ?_ (fun hx => ?_); subst x; rotate_left; clear_value x; rotate_right)
             | (refine Keeps.cut (t := x.2) ?_ (fun hx => ?_); subst x; rotate_left; clear_value x; rotate_right)
             | clear_value x)
    | dsimp -zeta only
    | (intro _)
    | split
    | assumption
    | fail_if_no_progress refine Keeps.update ?_ rfl rfl rfl
    | (rename_i hq; split at hq <;> first | (cases hq) | skip)
    | (simp_all only; done)

theorem State.requestVector_keeps {lp lq : Bool} {z : State} (s : State) (c r : Nat) (hs : Keeps lp lq z s) :
    Keeps lp lq z (State.requestVector s c r) := by
  unfold State.requestVector
  repeat' first
    | with_reducible assumption
    | with_reducible apply State.updCq_keeps
    | with_reducible apply State.sendVector_keeps
    | with_reducible apply State.startHoldoff_keeps
    | (extract_lets +onlyGivenNames x;
       first | (refine Keeps.cut (t := x) ?_ (fun hx => ?_); subst x; rotate_left; clear_value x; rotate_right)
             | (refine Keeps.cut (t := x.1) ?_ (fun hx => ?_); subst x; rotate_left; clear_value x; rotate_right)
             | (refine Keeps.cut (t := x.2) ?_ (fun hx => ?_); subst x; rotate_left; clear_value x; rotate_right)
             | clear_value x)
    | dsimp -zeta only
    | (intro _)
    | split
    | assumption
    | fail_if_no_progress refine Keeps.update ?_ rfl rfl rfl
    | (rename_i hq; split at hq <;> first | (cases hq) | skip)
    | (simp_all only; done)

theorem State.faultRecord_keeps {lp lq : Bool} {z : State} (s : State) (f : FaultRec) (hs : Keeps lp lq z s) :
    Keeps lp lq z (State.faultRecord s f) := by
  unfold State.faultRecord
  repeat' first
    | with_reducible assumption
    | with_reducible apply State.hostWrite_keeps
    | with_reducible apply State.requestVector_keeps
    | (extract_lets +onlyGivenNames x;
       first | (refine Keeps.cut (t := x) ?_ (fun hx => ?_); subst x; rotate_left; clear_value x; rotate_right) | clear_value x)
    | dsimp -zeta only
    | (intro _)
    | split
    | assumption
    | fail_if_no_progress refine Keeps.update ?_ rfl rfl rfl

theorem ringPut_keeps {lp lq : Bool} {z : State} (s : State) (base log2 w bytes phaseByte : Nat) (r : List Byte) (hs : Keeps lp lq z s) :
    Keeps lp lq z (ringPut s base log2 w bytes phaseByte r) := by
  unfold ringPut
  repeat' first
    | with_reducible assumption
    | with_reducible apply State.hostWrite_keeps

theorem State.logPut_keeps {lp lq : Bool} {z : State} (s : State) (r : List Byte) (hs : Keeps lp lq z s) :
    Keeps lp lq z (State.logPut s r) := by
  unfold State.logPut
  repeat' first
    | with_reducible assumption
    | with_reducible apply State.bump_keeps
    | with_reducible apply ringPut_keeps
    | (extract_lets +onlyGivenNames x;
       first | (refine Keeps.cut (t := x) ?_ (fun hx => ?_); subst x; rotate_left; clear_value x; rotate_right) | clear_value x)
    | dsimp -zeta only
    | (intro _)
    | split
    | assumption
    | fail_if_no_progress refine Keeps.update ?_ rfl rfl rfl

theorem State.logTrace_keeps {lp lq : Bool} {z : State} (s : State) (die code arg0 arg1 : Nat) (hs : Keeps lp lq z s) :
    Keeps lp lq z (State.logTrace s die code arg0 arg1) := by
  unfold State.logTrace
  repeat' first
    | with_reducible assumption
    | with_reducible apply State.logPut_keeps
    | (extract_lets +onlyGivenNames x; clear_value x)
    | dsimp -zeta only
    | (intro _)
    | split
    | assumption
    | fail_if_no_progress refine Keeps.update ?_ rfl rfl rfl

theorem State.setCells_keeps {lp lq : Bool} {z : State} (s : State) (k : Nat) (bs : List Byte) (hs : Keeps lp lq z s) :
    Keeps lp lq z (s.setCells k bs) :=
  hs.trans ⟨rfl, fun w => ⟨wf_memWrite k bs w.1, w.2⟩, id, ⟨id, Nat.le_refl _, id, List.prefix_rfl, rfl⟩, id,
      fun _ => ⟨rfl, rfl, rfl, rfl, rfl, rfl, rfl, rfl⟩, fun _ => ⟨rfl, rfl, rfl, rfl, rfl, rfl, rfl, rfl⟩⟩

theorem State.setSeal_keeps {lp lq : Bool} {z : State} (s : State) (b : Nat) (sl : Seal) (hs : Keeps lp lq z s) :
    Keeps lp lq z (State.setSeal s b sl) := by
  unfold State.setSeal
  repeat' first
    | with_reducible assumption
    | (extract_lets +onlyGivenNames x; subst x; beta_reduce)
    | dsimp -zeta only
    | (intro _)
    | split
    | assumption
    | fail_if_no_progress refine Keeps.update ?_ rfl rfl rfl

theorem State.setPoison_keeps {lp lq : Bool} {z : State} (s : State) (w : Nat) (bad : Bool) (hs : Keeps lp lq z s) :
    Keeps lp lq z (State.setPoison s w bad) := by
  unfold State.setPoison
  repeat' first
    | with_reducible assumption
    | (extract_lets +onlyGivenNames x; subst x; beta_reduce)
    | dsimp -zeta only
    | (intro _)
    | split
    | assumption
    | fail_if_no_progress refine Keeps.update ?_ rfl rfl rfl

theorem State.writeWord_keeps {lp lq : Bool} {z : State} (s : State) (a k : Nat) (bs : List Byte) (hs : Keeps lp lq z s) :
    Keeps lp lq z (State.writeWord s a k bs).1 := by
  unfold State.writeWord
  repeat' first
    | with_reducible assumption
    | with_reducible apply State.setCells_keeps
    | with_reducible apply State.setPoison_keeps
    | dsimp -zeta only
    | (intro _)
    | split
theorem State.writeWord_keeps' {lp lq : Bool} {z : State} {s : State} {a k : Nat} {bs : List Byte} {u' o'} (hs : Keeps lp lq z s) (e' :
    State.writeWord s a k bs = (u', o')) : Keeps lp lq z u' := by
  have k := State.writeWord_keeps (z := z) s a k bs hs
  rw [e'] at k; exact k

theorem State.writeBlock_keeps {lp lq : Bool} {z : State} (s : State) (key a k : Nat) (bs : List Byte) (hs : Keeps lp lq z s) :
    Keeps lp lq z (State.writeBlock s key a k bs).1 := by
  unfold State.writeBlock
  repeat' first
    | with_reducible assumption
    | with_reducible apply State.setCells_keeps
    | with_reducible apply State.setSeal_keeps
    | with_reducible apply State.setPoison_keeps
    | (extract_lets +onlyGivenNames x; clear_value x)
    | dsimp -zeta only
    | (intro _)
    | split
theorem State.writeBlock_keeps' {lp lq : Bool} {z : State} {s : State} {key a k : Nat} {bs : List Byte} {u' o'} (hs : Keeps lp lq z s) (e' :
    State.writeBlock s key a k bs = (u', o')) : Keeps lp lq z u' := by
  have k := State.writeBlock_keeps (z := z) s key a k bs hs
  rw [e'] at k; exact k

theorem State.writePiece_keeps {lp lq : Bool} {z : State} (s : State) (x : Acc) (a : Nat) (bs : List Byte) (hs : Keeps lp lq z s) :
    Keeps lp lq z (State.writePiece s x a bs).1 := by
  unfold State.writePiece
  repeat' first
    | with_reducible assumption
    | with_reducible apply State.hostWrite_keeps
    | with_reducible apply State.writeWord_keeps
    | with_reducible refine State.writeWord_keeps' ?_ (by assumption)
    | with_reducible apply State.writeBlock_keeps
    | with_reducible refine State.writeBlock_keeps' ?_ (by assumption)
    | (extract_lets +onlyGivenNames x;
       first | (refine Keeps.cut (t := x.1) ?_ (fun hx => ?_); subst x; rotate_left; clear_value x; rotate_right)
             | clear_value x)
    | dsimp -zeta only
    | (intro _)
    | split
theorem State.writePiece_keeps' {lp lq : Bool} {z : State} {s : State} {x : Acc} {a : Nat} {bs : List Byte} {u' o'} (hs : Keeps lp lq z s) (e' :
    State.writePiece s x a bs = (u', o')) : Keeps lp lq z u' := by
  have k := State.writePiece_keeps (z := z) s x a bs hs
  rw [e'] at k; exact k

theorem State.writePieces_keeps {lp lq : Bool} {z : State} (s : State) (x : Acc) (l : List (Nat × List Byte)) (hs : Keeps lp lq z s) :
    Keeps lp lq z (s.writePieces x l).1 := by
  induction l generalizing s with
  | nil => exact hs
  | cons c l ih => exact ih _ (State.writePiece_keeps s x c.1 c.2 hs)
theorem State.writePieces_keeps' {lp lq : Bool} {z : State} {s : State} {x : Acc} {l : List (Nat × List Byte)} {t o} (hs : Keeps lp lq z s)
    (e : s.writePieces x l = (t, o)) : Keeps lp lq z t := by
  have k := State.writePieces_keeps s x l hs
  rw [e] at k; exact k

theorem State.writeBytes_keeps {lp lq : Bool} {z : State} (s : State) (x : Acc) (a : Nat) (bs : List Byte) (hs : Keeps lp lq z
    s) :
    Keeps lp lq z (State.writeBytes s x a bs).1 := by
  unfold State.writeBytes
  repeat' first
    | with_reducible assumption
    | with_reducible apply State.writePieces_keeps
    | with_reducible refine State.writePieces_keeps' ?_ (by assumption)
    | (extract_lets +onlyGivenNames x;
       first | (refine Keeps.cut (t := x) ?_ (fun hx => ?_); subst x; rotate_left; clear_value x; rotate_right)
             | (refine Keeps.cut (t := x.1) ?_ (fun hx => ?_); subst x; rotate_left; clear_value x; rotate_right)
             | (refine Keeps.cut (t := x.2) ?_ (fun hx => ?_); subst x; rotate_left; clear_value x; rotate_right)
             | clear_value x)
    | dsimp -zeta only
    | (intro _)
    | split
    | assumption
    | fail_if_no_progress refine Keeps.update ?_ rfl rfl rfl
    | (rename_i hq; split at hq <;> first | (cases hq) | skip)
    | (simp_all only; done)
theorem State.writeBytes_keeps' {lp lq : Bool} {z : State} {s : State} {x : Acc} {a : Nat} {bs : List Byte} {u' o'} (hs : Keeps
    lp lq z s) (e' : State.writeBytes s x a bs = (u', o')) : Keeps lp lq z u' := by
  have k := State.writeBytes_keeps (z := z) s x a bs hs
  rw [e'] at k; exact k

theorem State.charge_keeps {lp lq : Bool} {z : State} (s : State) (ctx part : Nat) (p : Place) (n : Nat) (write : Bool) (hs : Keeps lp lq z s) :
    Keeps lp lq z (State.charge s ctx part p n write) := by
  unfold State.charge
  repeat' first
    | with_reducible assumption
    | with_reducible apply State.bump_keeps
    | with_reducible apply State.pmc_keeps
    | (extract_lets +onlyGivenNames x;
       first | (refine Keeps.cut (t := x) ?_ (fun hx => ?_); subst x; rotate_left; clear_value x; rotate_right)
             | (subst x; beta_reduce))
    | dsimp -zeta only
    | (intro _)
    | split
    | assumption
    | fail_if_no_progress refine Keeps.update ?_ rfl rfl rfl

theorem State.chargeRange_keeps {lp lq : Bool} {z : State} (s : State) (ctx part : Nat) (write : Bool) (fuel a n : Nat) (hs : Keeps lp lq z s) :
    Keeps lp lq z (s.chargeRange ctx part write fuel a n) := by
  induction fuel generalizing s a n with
  | zero => exact hs
  | succ k ih =>
    unfold State.chargeRange
    split
    · exact hs
    · exact ih _ _ _ (State.charge_keeps s ctx part _ _ write hs)

theorem State.addRaw_keeps {lp : Bool} {z : State} (s : State) (die phys n : Nat) (hs : Keeps lp false z s) :
    Keeps lp false z (State.addRaw s die phys n) := by
  unfold State.addRaw
  repeat' first
    | with_reducible assumption
    | with_reducible apply State.updDie_keeps
    | with_reducible apply State.pmc_keeps

theorem State.addCounter_keeps {lp : Bool} {z : State} (s : State) (die phys n : Nat) (hs : Keeps lp false z s) :
    Keeps lp false z (State.addCounter s die phys n) := by
  unfold State.addCounter
  repeat' first
    | with_reducible assumption
    | with_reducible apply State.updDie_keeps
    | with_reducible apply State.addRaw_keeps

theorem State.staleDrop_keeps {lp lq : Bool} {z : State} (s : State) (c : Nat) (hs : Keeps lp lq z s) :
    Keeps lp lq z (State.staleDrop s c) := by
  unfold State.staleDrop
  repeat' first
    | with_reducible assumption
    | with_reducible apply State.bump_keeps

theorem State.registerWatch_keeps {lp : Bool} {z : State} (s : State) (die : Nat) (w : Watch) (id : Option CmdId) (hs : Keeps lp false z s) :
    Keeps lp false z (State.registerWatch s die w id) := by
  unfold State.registerWatch
  repeat' first
    | with_reducible assumption
    | with_reducible apply State.bump_keeps
    | with_reducible apply State.updDie_keeps
    | dsimp -zeta only
    | (intro _)
    | split

theorem State.addWaiter_keeps {lp lq : Bool} {z : State} (s : State) (w : Waiter) (hs : Keeps lp lq z s) :
    Keeps lp lq z (State.addWaiter s w) :=
  hs.trans ⟨rfl, id, id, ⟨id, Nat.le_refl _, id, List.prefix_rfl, rfl⟩, id,
    fun _ => ⟨rfl, rfl, rfl, rfl, rfl, rfl, rfl, rfl⟩, fun _ => ⟨rfl, rfl, rfl, rfl, rfl, rfl, rfl, rfl⟩⟩

theorem State.sendMsg_keeps {lp : Bool} {z : State} (s : State) (m : SyncMsg) (hs : Keeps lp false z s) :
    Keeps lp false z (State.sendMsg s m) := by
  unfold State.sendMsg
  repeat' first
    | with_reducible assumption
    | dsimp -zeta only
    | (intro _)
    | split
    | assumption
    | fail_if_no_progress refine Keeps.inPlane ?_ rfl rfl

theorem State.abortQueue_keeps {lp : Bool} {z : State} (s : State) (c q : Nat) (hs : Keeps lp false z s) :
    Keeps lp false z (State.abortQueue s c q) := by
  unfold State.abortQueue
  repeat' first
    | with_reducible assumption
    | with_reducible apply State.updQueue_keeps
    | (extract_lets +onlyGivenNames x;
       first | (refine Keeps.cut (t := x) ?_ (fun hx => ?_); subst x; rotate_left; clear_value x; rotate_right) | clear_value x)
    | dsimp -zeta only
    | (intro _)
    | split
    | assumption
    | fail_if_no_progress refine Keeps.inPlane ?_ rfl rfl

theorem State.abortAll_keeps {lp : Bool} {z : State} (s : State) (hs : Keeps lp false z s) :
    Keeps lp false z (State.abortAll s) := by
  unfold State.abortAll
  repeat' first
    | with_reducible assumption
    | with_reducible apply State.abortQueue_keeps
    | with_reducible apply Keeps.foldl
    | with_reducible apply Keeps.foldl_fst
    | with_reducible apply Keeps.foldl_snd
    | dsimp -zeta only
    | (intro _)

theorem State.finish_keeps {lp lq : Bool} {z : State} (s : State) (i : CmdId) (e : Ending) (hs : Keeps lp lq z s) :
    Keeps lp lq z (State.finish s i e) := by
  unfold State.finish
  repeat' first
    | with_reducible assumption
    | exact fun _ _ => rfl
    | exact fun h => absurd h Bool.false_ne_true
    | (intro _ _; (try dsimp only); split <;> rfl)
    | with_reducible apply State.updCmd_keeps

theorem State.finishOkAux_keeps {lp lq : Bool} {z : State} (s : State) (i : CmdId) (aux : Nat) (hs : Keeps lp lq z s) :
    Keeps lp lq z (State.finishOkAux s i aux) := by
  unfold State.finishOkAux
  repeat' first
    | with_reducible assumption
    | exact fun _ _ => rfl
    | exact fun h => absurd h Bool.false_ne_true
    | (intro _ _; (try dsimp only); split <;> rfl)
    | with_reducible apply State.updCmd_keeps
    | (extract_lets +onlyGivenNames x;
       first | (refine Keeps.cut (t := x) ?_ (fun hx => ?_); subst x; rotate_left; clear_value x; rotate_right)
             | (refine Keeps.cut (t := x.1) ?_ (fun hx => ?_); subst x; rotate_left; clear_value x; rotate_right)
             | (refine Keeps.cut (t := x.2) ?_ (fun hx => ?_); subst x; rotate_left; clear_value x; rotate_right)
             | clear_value x)
    | dsimp -zeta only
    | (intro _)
    | split
    | assumption
    | fail_if_no_progress refine Keeps.update ?_ rfl rfl rfl
    | (rename_i hq; split at hq <;> first | (cases hq) | skip)
    | (simp_all only; done)

theorem State.finishOk_keeps {lp lq : Bool} {z : State} (s : State) (i : CmdId) (hs : Keeps lp lq z s) :
    Keeps lp lq z (State.finishOk s i) := by
  unfold State.finishOk
  repeat' first
    | with_reducible assumption
    | with_reducible apply State.finishOkAux_keeps
    | dsimp -zeta only
    | (intro _)
    | split
    | assumption
    | fail_if_no_progress refine Keeps.update ?_ rfl rfl rfl
    | (rename_i hq; split at hq <;> first | (cases hq) | skip)
    | (simp_all only; done)

theorem State.qcount_keeps {lp lq : Bool} {z : State} (s : State) (i : CmdId) (rd wr mac stall : Nat) (hs : Keeps lp lq z s) :
    Keeps lp lq z (State.qcount s i rd wr mac stall) := by
  unfold State.qcount
  repeat' first
    | with_reducible assumption
    | with_reducible apply State.wr_keeps
    | with_reducible apply State.bump_keeps
    | (extract_lets +onlyGivenNames x; subst x; beta_reduce)
    | dsimp -zeta only
    | (intro _)
    | split

theorem State.ueReportOf_keeps {lp lq : Bool} {z : State} (s : State) (p : Place) (a place : Nat) (hs : Keeps lp lq z s) :
    Keeps lp lq z (State.ueReportOf s p a place) := by
  unfold State.ueReportOf
  repeat' first
    | with_reducible assumption
    | with_reducible apply State.wr_keeps
    | with_reducible apply State.bump_keeps
    | with_reducible apply State.faultRecord_keeps
    | (extract_lets +onlyGivenNames x;
       first | (refine Keeps.cut (t := x) ?_ (fun hx => ?_); subst x; rotate_left; clear_value x; rotate_right)
             | (refine Keeps.cut (t := x.1) ?_ (fun hx => ?_); subst x; rotate_left; clear_value x; rotate_right)
             | (refine Keeps.cut (t := x.2) ?_ (fun hx => ?_); subst x; rotate_left; clear_value x; rotate_right)
             | (subst x; beta_reduce))
    | dsimp -zeta only
    | (intro _)
    | split
    | assumption
    | fail_if_no_progress refine Keeps.update ?_ rfl rfl rfl
    | (rename_i hq; split at hq <;> first | (cases hq) | skip)
    | (simp_all only; done)

theorem State.ueReportAt_keeps {lp lq : Bool} {z : State} (s : State) (a place : Nat) (hs : Keeps lp lq z s) :
    Keeps lp lq z (State.ueReportAt s a place) := by
  unfold State.ueReportAt
  repeat' first
    | with_reducible assumption
    | with_reducible apply State.ueReportOf_keeps
    | dsimp -zeta only
    | (intro _)
    | split
    | assumption
    | fail_if_no_progress refine Keeps.update ?_ rfl rfl rfl
    | (rename_i hq; split at hq <;> first | (cases hq) | skip)
    | (simp_all only; done)

theorem State.ueReport_keeps {lp lq : Bool} {z : State} (s : State) (a : Nat) (hs : Keeps lp lq z s) :
    Keeps lp lq z (State.ueReport s a) := by
  unfold State.ueReport
  repeat' first
    | with_reducible assumption
    | with_reducible apply State.ueReportAt_keeps

theorem State.failAcc_keeps {lp lq : Bool} {z : State} (s : State) (i : CmdId) (e : AccErr) (hs : Keeps lp lq z s) :
    Keeps lp lq z (State.failAcc s i e) := by
  unfold State.failAcc
  repeat' first
    | with_reducible assumption
    | with_reducible apply State.finish_keeps
    | with_reducible apply State.ueReport_keeps
    | dsimp -zeta only
    | (intro _)
    | split

end Sys2Proof.Machine
end

