-- ==== Sys2Proof/Laws/KeepsFlags.lean ====
section
/-!
SUPPORT. Laws/KeepsFlags.lean: the operations of Machine/Flags.lean keep the queue, the memories, the points and the fuses.
-/
set_option Elab.async false
set_option linter.all false
namespace Sys2Proof.Machine

theorem State.flagSaturated_keeps {lp lq : Bool} {z : State} (s : State) (id : CmdId) (b : Bool) (hs : Keeps lp lq z s) :
    Keeps lp lq z (State.flagSaturated s id b) := by
  unfold State.flagSaturated
  repeat' first
    | with_reducible assumption
    | exact fun _ _ => rfl
    | exact fun h => absurd h Bool.false_ne_true
    | (intro _ _; (try dsimp only); split <;> rfl)
    | with_reducible apply State.wr_keeps
    | with_reducible apply State.updCmd_keeps
    | dsimp -zeta only
    | (intro _)
    | split

theorem State.flagNonfinite_keeps {lp lq : Bool} {z : State} (s : State) (id : CmdId) (b : Bool) (hs : Keeps lp lq z s) :
    Keeps lp lq z (State.flagNonfinite s id b) := by
  unfold State.flagNonfinite
  repeat' first
    | with_reducible assumption
    | exact fun _ _ => rfl
    | exact fun h => absurd h Bool.false_ne_true
    | (intro _ _; (try dsimp only); split <;> rfl)
    | with_reducible apply State.updCmd_keeps
    | dsimp -zeta only
    | (intro _)
    | split

theorem State.flagPromoted_keeps {lp lq : Bool} {z : State} (s : State) (id : CmdId) (hs : Keeps lp lq z s) :
    Keeps lp lq z (State.flagPromoted s id) := by
  unfold State.flagPromoted
  repeat' first
    | with_reducible assumption
    | exact fun _ _ => rfl
    | exact fun h => absurd h Bool.false_ne_true
    | (intro _ _; (try dsimp only); split <;> rfl)
    | with_reducible apply State.updCmd_keeps

end Sys2Proof.Machine
end

