-- ==== Sys2Proof/Laws/KeepsOperands.lean ====
section
/-!
SUPPORT. Laws/KeepsOperands.lean: the operations of Machine/Operands.lean keep the queue, the memories, the points and the fuses.
-/
set_option Elab.async false
set_option linter.all false
namespace Sys2Proof.Machine

theorem State.undefined_keeps {lp lq : Bool} {z : State} (s : State) (x : Acc) (rs : List Rng) (hs : Keeps lp lq z s) :
    Keeps lp lq z (State.undefined s x rs) := by
  unfold State.undefined
  repeat' first
    | with_reducible assumption
    | with_reducible apply State.writeBytes_keeps
    | with_reducible refine State.writeBytes_keeps' ?_ (by assumption)
    | with_reducible apply Keeps.foldl
    | with_reducible apply Keeps.foldl_fst
    | with_reducible apply Keeps.foldl_snd
    | (extract_lets +onlyGivenNames x;
       first | (refine Keeps.cut (t := x) ?_ (fun hx => ?_); subst x; rotate_left; clear_value x; rotate_right)
             | (refine Keeps.cut (t := x.1) ?_ (fun hx => ?_); subst x; rotate_left; clear_value x; rotate_right)
             | (refine Keeps.cut (t := x.2) ?_ (fun hx => ?_); subst x; rotate_left; clear_value x; rotate_right)
             | clear_value x)
    | dsimp -zeta only
    | (intro _)
    | split
    | assumption
    | fail_if_no_progress refine Keeps.update ?_ rfl rfl rfl

end Sys2Proof.Machine
end

