-- ==== Sys2Proof/Laws/KeepsTensor.lean ====
section
/-!
SUPPORT. Laws/KeepsTensor.lean: the operations of Machine/Tensor.lean keep the queue, the memories, the points and the fuses.
-/
set_option Elab.async false
set_option linter.all false
namespace Sys2Proof.Machine

theorem State.thenWrite_keeps {lp lq : Bool} {z : State} (w : State × Option AccErr) (x : Acc) (a : Nat) (bs : List Byte) (hw :
    Keeps lp lq z w.1) :
    Keeps lp lq z (State.thenWrite w x a bs).1 := by
  unfold State.thenWrite
  repeat' first
    | with_reducible assumption
    | with_reducible apply State.writeBytes_keeps
    | with_reducible refine State.writeBytes_keeps' ?_ (by assumption)
    | dsimp -zeta only
    | (intro _)
    | split
    | assumption
    | fail_if_no_progress refine Keeps.update ?_ rfl rfl rfl
    | (simp_all only; done)
theorem State.thenWrite_keeps' {lp lq : Bool} {z : State} {w : State × Option AccErr} {x : Acc} {a : Nat} {bs : List Byte} {u'
    o'} (hw : Keeps lp lq z w.1) (e' : State.thenWrite w x a bs = (u', o')) : Keeps lp lq z u' := by
  have k := State.thenWrite_keeps (z := z) w x a bs hw
  rw [e'] at k; exact k

theorem State.writeRun_keeps {lp lq : Bool} {z : State} (s : State) (x : Acc) (t : Tens) (sT : FVal) (off : Nat) (cs : List
    Nat) (c0 : Nat) (rnd : Nat → Rnd) (vals : List FVal) (hs : Keeps lp lq z s) :
    Keeps lp lq z (State.writeRun s x t sT off cs c0 rnd vals).1 := by
  unfold State.writeRun
  repeat' first
    | with_reducible assumption
    | with_reducible apply State.writeBytes_keeps
    | with_reducible refine State.writeBytes_keeps' ?_ (by assumption)
    | with_reducible apply State.thenWrite_keeps
    | with_reducible refine State.thenWrite_keeps' ?_ (by assumption)
    | (extract_lets +onlyGivenNames x;
       first | (refine Keeps.cut (t := x) ?_ (fun hx => ?_); subst x; rotate_left; clear_value x; rotate_right)
             | (refine Keeps.cut (t := x.1) ?_ (fun hx => ?_); subst x; rotate_left; clear_value x; rotate_right)
             | (refine Keeps.cut (t := x.2) ?_ (fun hx => ?_); subst x; rotate_left; clear_value x; rotate_right)
             | clear_value x)
    | dsimp -zeta only
    | (intro _)
    | split
    | assumption
    | fail_if_no_progress refine Keeps.update ?_ rfl rfl rfl
    | (rename_i hq; split at hq <;> first | (cases hq) | skip)
    | (simp_all only; done)
theorem State.writeRun_keeps' {lp lq : Bool} {z : State} {s : State} {x : Acc} {t : Tens} {sT : FVal} {off : Nat} {cs : List
    Nat} {c0 : Nat} {rnd : Nat → Rnd} {vals : List FVal} {u' o'} (hs : Keeps lp lq z s) (e' : State.writeRun s x t sT off cs c0 rnd vals = (u', o')) : Keeps lp lq z u' := by
  have k := State.writeRun_keeps (z := z) s x t sT off cs c0 rnd vals hs
  rw [e'] at k; exact k

theorem State.writeEach_keeps {lp lq : Bool} {z : State} {α : Type} (f : State → α → State × WOut) (s : State) (l : List α)
    (hf : ∀ u a, Keeps lp lq z u → Keeps lp lq z (f u a).1) (hs : Keeps lp lq z s) : Keeps lp lq z (State.writeEach f s l).1 := by
  induction l generalizing s with
  | nil => exact hs
  | cons a l ih =>
    unfold State.writeEach
    extract_lets r
    split
    · exact hf s a hs
    · exact ih r.1 (hf s a hs)

theorem State.moved_keeps {lp lq : Bool} {z : State} (s : State) (id : CmdId) (t : Tens) (off rd wr : Nat) (hs : Keeps lp lq z s) :
    Keeps lp lq z (State.moved s id t off rd wr) := by
  unfold State.moved
  repeat' first
    | with_reducible assumption
    | with_reducible apply State.wr_keeps
    | with_reducible apply State.chargeRange_keeps
    | with_reducible apply State.qcount_keeps
    | (extract_lets +onlyGivenNames x;
       first | (refine Keeps.cut (t := x) ?_ (fun hx => ?_); subst x; rotate_left; clear_value x; rotate_right) | clear_value x)
    | dsimp -zeta only
    | (intro _)
    | split

theorem State.histWrite_keeps {lp lq : Bool} {z : State} (s : State) (id : CmdId) (t : Tens) (r : List Byte) (hs : Keeps lp lq z s) :
    Keeps lp lq z (State.histWrite s id t r) := by
  unfold State.histWrite
  repeat' first
    | with_reducible assumption
    | with_reducible apply State.writeBytes_keeps

theorem State.writeScale_keeps {lp lq : Bool} {z : State} {s : State} {id : CmdId} {t : Tens} {step : Nat} {u' v'} (e' : State.writeScale s
    id t step = .ok (v', u')) (hs : Keeps lp lq z s) : Keeps lp lq z u' := by
  unfold State.writeScale at e'
  repeat' split at e'
  all_goals first | cases e' | skip
  repeat' first
    | with_reducible assumption
    | with_reducible apply State.histWrite_keeps

theorem State.measuredScale_keeps {lp lq : Bool} {z : State} {s : State} {id : CmdId} {t : Tens} {step : Nat} {amax : FVal} {u' v'} (e' :
    State.measuredScale s id t step amax = .ok (v', u')) (hs : Keeps lp lq z s) : Keeps lp lq z u' := by
  unfold State.measuredScale at e'
  repeat' split at e'
  all_goals first | cases e' | skip
  repeat' first
    | with_reducible assumption
    | with_reducible apply State.histWrite_keeps

theorem State.mergeAmax_keeps {lp lq : Bool} {z : State} (s : State) (id : CmdId) (t : Tens) (step : Nat) (xs : List FVal) (hs : Keeps lp lq z s) :
    Keeps lp lq z (State.mergeAmax s id t step xs) := by
  unfold State.mergeAmax
  repeat' first
    | with_reducible assumption
    | with_reducible apply State.histWrite_keeps
    | dsimp -zeta only
    | (intro _)
    | split

theorem State.setStored_keeps {lp lq : Bool} {z : State} (s : State) (id : CmdId) (t : Tens) (step : Nat) (sc : FVal) (hs : Keeps lp lq z s) :
    Keeps lp lq z (State.setStored s id t step sc) := by
  unfold State.setStored
  repeat' first
    | with_reducible assumption
    | with_reducible apply State.histWrite_keeps
    | dsimp -zeta only
    | (intro _)
    | split

end Sys2Proof.Machine
end

