-- ==== Sys2Proof/Laws/KeepsSparse.lean ====
section
/-!
SUPPORT. Laws/KeepsSparse.lean: the operations of Machine/Sparse.lean keep the queue, the memories, the points and the fuses.
-/
set_option Elab.async false
set_option linter.all false
namespace Sys2Proof.Machine

theorem State.writeTile_keeps {lp lq : Bool} {z : State} (s : State) (x : Acc) (t : Tens) (off gen r c : Nat) (bs : List Byte) (hs : Keeps lp lq z
    s) :
    Keeps lp lq z (State.writeTile s x t off gen r c bs).1 := by
  unfold State.writeTile
  repeat' first
    | with_reducible assumption
    | with_reducible apply State.writeBytes_keeps
theorem State.writeTile_keeps' {lp lq : Bool} {z : State} {s : State} {x : Acc} {t : Tens} {off gen r c : Nat} {bs : List Byte} {u' o'} (hs
    : Keeps lp lq z s) (e' : State.writeTile s x t off gen r c bs = (u', o')) : Keeps lp lq z u' := by
  have k := State.writeTile_keeps (z := z) s x t off gen r c bs hs
  rw [e'] at k; exact k

end Sys2Proof.Machine
end

