-- ==== Sys2Proof/Laws/KeepsDraws.lean ====
section
/-!
SUPPORT. Laws/KeepsDraws.lean: the operations of Machine/Draws.lean keep the queue, the memories, the points and the fuses.
-/
set_option Elab.async false
set_option linter.all false
namespace Sys2Proof.Machine

theorem State.updRun_keeps {lp lq : Bool} {z : State} (s : State) (id : CmdId) (f : Run → Run) (hs : Keeps lp lq z s) :
    Keeps lp lq z (State.updRun s id f) := by
  unfold State.updRun
  repeat' first
    | with_reducible assumption
    | exact fun _ _ => rfl
    | exact fun h => absurd h Bool.false_ne_true
    | (intro _ _; (try dsimp only); split <;> rfl)
    | with_reducible apply State.updCmd_keeps

theorem State.updTile_keeps {lp lq : Bool} {z : State} (s : State) (id : CmdId) (k : Nat) (f : TileSt → TileSt) (hs : Keeps lp lq z s) :
    Keeps lp lq z (State.updTile s id k f) := by
  unfold State.updTile
  repeat' first
    | with_reducible assumption
    | with_reducible apply State.updRun_keeps

theorem State.onCmd_keeps {lp lq : Bool} {z : State} (s : State) (id : CmdId) (p : List Byte → Bool) (f : Cmd → State) (hs : Keeps lp lq z s) (hf
    : ∀ a0, Keeps lp lq z (f a0)) :
    Keeps lp lq z (State.onCmd s id p f) := by
  unfold State.onCmd
  repeat' first
    | with_reducible assumption
    | dsimp -zeta only
    | (intro _)
    | split
    | assumption
    | fail_if_no_progress refine Keeps.update ?_ rfl rfl rfl
    | (simp_all only; done)

/-- A turn at a draw list changes no more of the groups than whose turn it is. -/
theorem State.serve_keeps {lp lq : Bool} {z : State} (s : State) (l : Nat) (c : Cmd) (renew : Bool) (hs : Keeps lp lq z s) :
    Keeps lp lq z (State.serve s l c renew) := by
  refine hs.trans ⟨rfl, id, id, ⟨id, Nat.le_refl _, id, List.prefix_rfl, rfl⟩, id, fun _ => ?_,
    fun _ => ⟨rfl, rfl, rfl, rfl, rfl, rfl, rfl, rfl⟩⟩
  exact ⟨rfl, rfl, rfl, rfl, rfl, rfl, by simp [State.serve, State.formed, Tab.mapVals, List.map_map, Function.comp_def], rfl⟩

theorem State.storeParts_keeps {lp lq : Bool} {z : State} (s : State) (id : CmdId) (x : Acc) (o : Tens) (off : Nat) (cs : List Nat) (key c0
    : Nat) (vals : List FVal) (hs : Keeps lp lq z s) :
    Keeps lp lq z (State.storeParts s id x o off cs key c0 vals).1 := by
  unfold State.storeParts
  repeat' first
    | with_reducible assumption
    | with_reducible apply State.updRun_keeps
    | with_reducible apply State.writeRun_keeps
    | with_reducible refine State.writeRun_keeps' ?_ (by assumption)
    | with_reducible apply State.writeEach_keeps
    | with_reducible refine State.writeEach_keeps' ?_ (by assumption)
    | with_reducible apply Keeps.foldl
    | with_reducible apply Keeps.foldl_fst
    | with_reducible apply Keeps.foldl_snd
    | (extract_lets +onlyGivenNames x; clear_value x)
    | dsimp -zeta only
    | (intro _)
    | split
theorem State.storeParts_keeps' {lp lq : Bool} {z : State} {s : State} {id : CmdId} {x : Acc} {o : Tens} {off : Nat} {cs : List Nat} {key c0
    : Nat} {vals : List FVal} {u' o'} (hs : Keeps lp lq z s) (e' : State.storeParts s id x o off cs key c0 vals = (u', o')) : Keeps lp lq z u' := by
  have k := State.storeParts_keeps (z := z) s id x o off cs key c0 vals hs
  rw [e'] at k; exact k

theorem State.storeRow_keeps {lp lq : Bool} {z : State} (s : State) (id : CmdId) (g : Geo) (t : TileInfo) (dst : Dest) (outRow i : Nat) (row
    : List FVal) (hs : Keeps lp lq z s) :
    Keeps lp lq z (State.storeRow s id g t dst outRow i row).1 := by
  unfold State.storeRow
  repeat' first
    | with_reducible assumption
    | with_reducible apply State.storeParts_keeps
    | with_reducible refine State.storeParts_keeps' ?_ (by assumption)
    | with_reducible apply State.writeRun_keeps
    | with_reducible refine State.writeRun_keeps' ?_ (by assumption)
    | (extract_lets +onlyGivenNames x; clear_value x)
    | dsimp -zeta only
    | (intro _)
    | split
theorem State.storeRow_keeps' {lp lq : Bool} {z : State} {s : State} {id : CmdId} {g : Geo} {t : TileInfo} {dst : Dest} {outRow i : Nat}
    {row : List FVal} {u' o'} (hs : Keeps lp lq z s) (e' : State.storeRow s id g t dst outRow i row = (u', o')) : Keeps lp lq z u' := by
  have k := State.storeRow_keeps (z := z) s id g t dst outRow i row hs
  rw [e'] at k; exact k

theorem State.storeCols_keeps {lp lq : Bool} {z : State} (s : State) (id : CmdId) (g : Geo) (t : TileInfo) (dst : Dest) (rows : List (List
    FVal)) (hs : Keeps lp lq z s) :
    Keeps lp lq z (State.storeCols s id g t dst rows).1 := by
  unfold State.storeCols
  repeat' first
    | with_reducible assumption
    | with_reducible apply State.writeRun_keeps
    | with_reducible refine State.writeRun_keeps' ?_ (by assumption)
    | with_reducible apply State.writeEach_keeps
    | with_reducible refine State.writeEach_keeps' ?_ (by assumption)
    | (extract_lets +onlyGivenNames x; clear_value x)
    | dsimp -zeta only
    | (intro _)
    | split
theorem State.storeCols_keeps' {lp lq : Bool} {z : State} {s : State} {id : CmdId} {g : Geo} {t : TileInfo} {dst : Dest} {rows : List (List
    FVal)} {u' o'} (hs : Keeps lp lq z s) (e' : State.storeCols s id g t dst rows = (u', o')) : Keeps lp lq z u' := by
  have k := State.storeCols_keeps (z := z) s id g t dst rows hs
  rw [e'] at k; exact k

theorem State.markRun_keeps {lp lq : Bool} {z : State} (s : State) (x : Acc) (v : Tens) (rr nr c0 nc : Nat) (on : Bool) (hs :
    Keeps lp lq z s) :
    Keeps lp lq z (State.markRun s x v rr nr c0 nc on).1 := by
  unfold State.markRun
  repeat' first
    | with_reducible assumption
    | with_reducible apply State.writeBytes_keeps
    | with_reducible refine State.writeBytes_keeps' ?_ (by assumption)
    | with_reducible apply State.writeEach_keeps
    | with_reducible refine State.writeEach_keeps' ?_ (by assumption)
    | (extract_lets +onlyGivenNames x;
       first | (refine Keeps.cut (t := x) ?_ (fun hx => ?_); subst x; rotate_left; clear_value x; rotate_right)
             | (refine Keeps.cut (t := x.1) ?_ (fun hx => ?_); subst x; rotate_left; clear_value x; rotate_right)
             | (refine Keeps.cut (t := x.2) ?_ (fun hx => ?_); subst x; rotate_left; clear_value x; rotate_right)
             | clear_value x)
    | dsimp -zeta only
    | (intro _)
    | split
    | assumption
    | fail_if_no_progress refine Keeps.update ?_ rfl rfl rfl
    | (rename_i hq; split at hq <;> first | (cases hq) | skip)
    | (simp_all only; done)
theorem State.markRun_keeps' {lp lq : Bool} {z : State} {s : State} {x : Acc} {v : Tens} {rr nr c0 nc : Nat} {on : Bool} {u'
    o'} (hs : Keeps lp lq z s) (e' : State.markRun s x v rr nr c0 nc on = (u', o')) : Keeps lp lq z u' := by
  have k := State.markRun_keeps (z := z) s x v rr nr c0 nc on hs
  rw [e'] at k; exact k

theorem State.markGranules_keeps {lp lq : Bool} {z : State} (s : State) (g : Geo) (t : TileInfo) (dst : Dest) (nr c0 nc : Nat)
    (on : Bool) (hs : Keeps lp lq z s) :
    Keeps lp lq z (State.markGranules s g t dst nr c0 nc on).1 := by
  unfold State.markGranules
  repeat' first
    | with_reducible assumption
    | with_reducible apply State.markRun_keeps
    | with_reducible refine State.markRun_keeps' ?_ (by assumption)
    | (extract_lets +onlyGivenNames x;
       first | (refine Keeps.cut (t := x) ?_ (fun hx => ?_); subst x; rotate_left; clear_value x; rotate_right)
             | (refine Keeps.cut (t := x.1) ?_ (fun hx => ?_); subst x; rotate_left; clear_value x; rotate_right)
             | (refine Keeps.cut (t := x.2) ?_ (fun hx => ?_); subst x; rotate_left; clear_value x; rotate_right)
             | (subst x; beta_reduce))
    | dsimp -zeta only
    | (intro _)
    | split
    | assumption
    | fail_if_no_progress refine Keeps.update ?_ rfl rfl rfl
    | (rename_i hq; split at hq <;> first | (cases hq) | skip)
    | (simp_all only; done)
theorem State.markGranules_keeps' {lp lq : Bool} {z : State} {s : State} {g : Geo} {t : TileInfo} {dst : Dest} {nr c0 nc : Nat}
    {on : Bool} {u' o'} (hs : Keeps lp lq z s) (e' : State.markGranules s g t dst nr c0 nc on = (u', o')) : Keeps lp lq z u' := by
  have k := State.markGranules_keeps (z := z) s g t dst nr c0 nc on hs
  rw [e'] at k; exact k

theorem State.storeShadow_keeps {lp lq : Bool} {z : State} (s : State) (id : CmdId) (g : Geo) (t : TileInfo) (dst : Dest) (c0 :
    Nat) (rows : List (List FVal)) (hs : Keeps lp lq z s) :
    Keeps lp lq z (State.storeShadow s id g t dst c0 rows).1 := by
  unfold State.storeShadow
  repeat' first
    | with_reducible assumption
    | with_reducible apply State.writeRun_keeps
    | with_reducible refine State.writeRun_keeps' ?_ (by assumption)
    | with_reducible apply State.writeEach_keeps
    | with_reducible refine State.writeEach_keeps' ?_ (by assumption)
    | (extract_lets +onlyGivenNames x;
       first | (refine Keeps.cut (t := x) ?_ (fun hx => ?_); subst x; rotate_left; clear_value x; rotate_right)
             | (refine Keeps.cut (t := x.1) ?_ (fun hx => ?_); subst x; rotate_left; clear_value x; rotate_right)
             | (refine Keeps.cut (t := x.2) ?_ (fun hx => ?_); subst x; rotate_left; clear_value x; rotate_right)
             | (subst x; beta_reduce))
    | dsimp -zeta only
    | (intro _)
    | split
    | assumption
    | fail_if_no_progress refine Keeps.update ?_ rfl rfl rfl
    | (rename_i hq; split at hq <;> first | (cases hq) | skip)
    | (simp_all only; done)
theorem State.storeShadow_keeps' {lp lq : Bool} {z : State} {s : State} {id : CmdId} {g : Geo} {t : TileInfo} {dst : Dest} {c0
    : Nat} {rows : List (List FVal)} {u' o'} (hs : Keeps lp lq z s) (e' : State.storeShadow s id g t dst c0 rows = (u', o')) : Keeps lp lq z u' := by
  have k := State.storeShadow_keeps (z := z) s id g t dst c0 rows hs
  rw [e'] at k; exact k

theorem State.storeSampled_keeps {lp lq : Bool} {z : State} (s : State) (id : CmdId) (g : Geo) (t : TileInfo) (dst : Dest)
    (maps : List (List Nat)) (rows : List (List FVal)) (hs : Keeps lp lq z s) :
    Keeps lp lq z (State.storeSampled s id g t dst maps rows).1 := by
  unfold State.storeSampled
  repeat' first
    | with_reducible assumption
    | exact fun _ _ => rfl
    | exact fun h => absurd h Bool.false_ne_true
    | (intro _ _; (try dsimp only); split <;> rfl)
    | with_reducible apply State.updRun_keeps
    | with_reducible apply State.markGranules_keeps
    | with_reducible refine State.markGranules_keeps' ?_ (by assumption)
    | with_reducible apply State.storeShadow_keeps
    | with_reducible refine State.storeShadow_keeps' ?_ (by assumption)
    | with_reducible apply State.writeTile_keeps
    | with_reducible refine State.writeTile_keeps' ?_ (by assumption)
    | with_reducible apply State.writeEach_keeps
    | with_reducible refine State.writeEach_keeps' ?_ (by assumption)
    | with_reducible apply Keeps.foldl
    | with_reducible apply Keeps.foldl_fst
    | with_reducible apply Keeps.foldl_snd
    | (extract_lets +onlyGivenNames x;
       first | (refine Keeps.cut (t := x) ?_ (fun hx => ?_); subst x; rotate_left; clear_value x; rotate_right)
             | (refine Keeps.cut (t := x.1) ?_ (fun hx => ?_); subst x; rotate_left; clear_value x; rotate_right)
             | (refine Keeps.cut (t := x.2) ?_ (fun hx => ?_); subst x; rotate_left; clear_value x; rotate_right)
             | clear_value x)
    | dsimp -zeta only
    | (intro _)
    | split
    | assumption
    | fail_if_no_progress refine Keeps.update ?_ rfl rfl rfl
    | (rename_i hq; split at hq <;> first | (cases hq) | skip)
    | (simp_all only; done)
theorem State.storeSampled_keeps' {lp lq : Bool} {z : State} {s : State} {id : CmdId} {g : Geo} {t : TileInfo} {dst : Dest}
    {maps : List (List Nat)} {rows : List (List FVal)} {u' o'} (hs : Keeps lp lq z s) (e' : State.storeSampled s id g t dst maps rows = (u', o')) : Keeps lp lq z u' := by
  have k := State.storeSampled_keeps (z := z) s id g t dst maps rows hs
  rw [e'] at k; exact k

theorem State.storeScatter_keeps {lp lq : Bool} {z : State} (s : State) (id : CmdId) (g : Geo) (t : TileInfo) (dst : Dest) (idx
    : List Nat) (signed : Bool) (rows : List (List FVal)) (hs : Keeps lp lq z s) :
    Keeps lp lq z (State.storeScatter s id g t dst idx signed rows).1 := by
  unfold State.storeScatter
  repeat' first
    | with_reducible assumption
    | with_reducible apply State.storeParts_keeps
    | with_reducible refine State.storeParts_keeps' ?_ (by assumption)
    | with_reducible apply State.writeRun_keeps
    | with_reducible refine State.writeRun_keeps' ?_ (by assumption)
    | with_reducible apply State.writeEach_keeps
    | with_reducible refine State.writeEach_keeps' ?_ (by assumption)
    | (extract_lets +onlyGivenNames x;
       first | (refine Keeps.cut (t := x) ?_ (fun hx => ?_); subst x; rotate_left; clear_value x; rotate_right)
             | (refine Keeps.cut (t := x.1) ?_ (fun hx => ?_); subst x; rotate_left; clear_value x; rotate_right)
             | (refine Keeps.cut (t := x.2) ?_ (fun hx => ?_); subst x; rotate_left; clear_value x; rotate_right)
             | clear_value x)
    | dsimp -zeta only
    | (intro _)
    | split
    | assumption
    | fail_if_no_progress refine Keeps.update ?_ rfl rfl rfl
    | (rename_i hq; split at hq <;> first | (cases hq) | skip)
    | (simp_all only; done)
theorem State.storeScatter_keeps' {lp lq : Bool} {z : State} {s : State} {id : CmdId} {g : Geo} {t : TileInfo} {dst : Dest}
    {idx : List Nat} {signed : Bool} {rows : List (List FVal)} {u' o'} (hs : Keeps lp lq z s) (e' : State.storeScatter s id g t dst idx signed rows = (u', o')) : Keeps lp lq z u' := by
  have k := State.storeScatter_keeps (z := z) s id g t dst idx signed rows hs
  rw [e'] at k; exact k

theorem State.storeTile_keeps {lp lq : Bool} {z : State} (s : State) (id : CmdId) (g : Geo) (t : TileInfo) (dst : Dest) (maps :
    List (List Nat)) (rows : List (List FVal)) (hs : Keeps lp lq z s) :
    Keeps lp lq z (State.storeTile s id g t dst maps rows).1 := by
  unfold State.storeTile
  repeat' first
    | with_reducible assumption
    | with_reducible apply State.storeRow_keeps
    | with_reducible refine State.storeRow_keeps' ?_ (by assumption)
    | with_reducible apply State.storeCols_keeps
    | with_reducible refine State.storeCols_keeps' ?_ (by assumption)
    | with_reducible apply State.markGranules_keeps
    | with_reducible refine State.markGranules_keeps' ?_ (by assumption)
    | with_reducible apply State.storeShadow_keeps
    | with_reducible refine State.storeShadow_keeps' ?_ (by assumption)
    | with_reducible apply State.storeSampled_keeps
    | with_reducible refine State.storeSampled_keeps' ?_ (by assumption)
    | with_reducible apply State.storeScatter_keeps
    | with_reducible refine State.storeScatter_keeps' ?_ (by assumption)
    | with_reducible apply State.writeEach_keeps
    | with_reducible refine State.writeEach_keeps' ?_ (by assumption)
    | (extract_lets +onlyGivenNames x;
       first | (refine Keeps.cut (t := x) ?_ (fun hx => ?_); subst x; rotate_left; clear_value x; rotate_right)
             | (refine Keeps.cut (t := x.1) ?_ (fun hx => ?_); subst x; rotate_left; clear_value x; rotate_right)
             | (refine Keeps.cut (t := x.2) ?_ (fun hx => ?_); subst x; rotate_left; clear_value x; rotate_right)
             | (subst x; beta_reduce))
    | dsimp -zeta only
    | (intro _)
    | split
    | assumption
    | fail_if_no_progress refine Keeps.update ?_ rfl rfl rfl
    | (rename_i hq; split at hq <;> first | (cases hq) | skip)
    | (simp_all only; done)
theorem State.storeTile_keeps' {lp lq : Bool} {z : State} {s : State} {id : CmdId} {g : Geo} {t : TileInfo} {dst : Dest} {maps
    : List (List Nat)} {rows : List (List FVal)} {u' o'} (hs : Keeps lp lq z s) (e' : State.storeTile s id g t dst maps rows = (u', o')) : Keeps lp lq z u' := by
  have k := State.storeTile_keeps (z := z) s id g t dst maps rows hs
  rw [e'] at k; exact k

theorem State.writeStats_keeps {lp lq : Bool} {z : State} (s : State) (id : CmdId) (h num : Nat) (rec' : List Byte) (hs : Keeps lp lq z s) :
    Keeps lp lq z (State.writeStats s id h num rec').1 := by
  unfold State.writeStats
  repeat' first
    | with_reducible assumption
    | with_reducible apply State.writeBytes_keeps
    | with_reducible refine State.writeBytes_keeps' ?_ (by assumption)
    | dsimp -zeta only
    | (intro _)
    | split
theorem State.writeStats_keeps' {lp lq : Bool} {z : State} {s : State} {id : CmdId} {h num : Nat} {rec' : List Byte} {u' o'} (h num : Nat)
    (rec' : List Byte) (hs : Keeps lp lq z s) (e' : State.writeStats s id h num rec' = (u', o')) : Keeps lp lq z u' := by
  have k := State.writeStats_keeps (z := z) s id h num rec' hs
  rw [e'] at k; exact k

end Sys2Proof.Machine
end

