-- ==== Sys2Proof/Laws/KeepsMatrix.lean ====
section
/-!
SUPPORT. Laws/KeepsMatrix.lean: the operations of Machine/Matrix.lean keep the queue, the memories, the points and the fuses.
-/
set_option Elab.async false
set_option linter.all false
namespace Sys2Proof.Machine

theorem State.stopProduct_keeps {lp lq : Bool} {z : State} (s : State) (c : Cmd) (g : Geo) (e : Ending) (hs : Keeps lp lq z s) :
    Keeps lp lq z (State.stopProduct s c g e) := by
  unfold State.stopProduct
  repeat' first
    | with_reducible assumption
    | with_reducible apply State.undefined_keeps
    | with_reducible apply State.finish_keeps
    | (extract_lets +onlyGivenNames x;
       first | (refine Keeps.cut (t := x) ?_ (fun hx => ?_); subst x; rotate_left; clear_value x; rotate_right)
             | (refine Keeps.cut (t := x.1) ?_ (fun hx => ?_); subst x; rotate_left; clear_value x; rotate_right)
             | (refine Keeps.cut (t := x.2) ?_ (fun hx => ?_); subst x; rotate_left; clear_value x; rotate_right)
             | clear_value x)
    | dsimp -zeta only
    | (intro _)
    | split

theorem State.publishHolds_keeps {lp : Bool} {z : State} (s : State) (c : Cmd) (g : Geo) (hs : Keeps lp false z s) :
    Keeps lp false z (State.publishHolds s c g) := by
  unfold State.publishHolds
  repeat' first
    | with_reducible assumption
    | (extract_lets +onlyGivenNames x; clear_value x)
    | dsimp -zeta only
    | (intro _)
    | split
    | assumption
    | fail_if_no_progress refine Keeps.inPlane ?_ rfl rfl

theorem State.settleProduct_keeps {lp : Bool} {z : State} (s : State) (id : CmdId) (g : Geo) (hs : Keeps lp false z s) :
    Keeps lp false z (State.settleProduct s id g) := by
  unfold State.settleProduct
  repeat' first
    | with_reducible assumption
    | with_reducible apply State.stopProduct_keeps
    | with_reducible apply State.publishHolds_keeps
    | with_reducible apply State.finishOk_keeps
    | with_reducible apply State.setStored_keeps
    | (extract_lets +onlyGivenNames x;
       refine Keeps.cut (t := x) ?_ (fun hx => ?_); subst x; rotate_left; clear_value x; rotate_right)
    | dsimp -zeta only
    | (intro _)
    | split
    | assumption
    | fail_if_no_progress refine Keeps.inPlane ?_ rfl rfl

theorem State.stopRun_keeps {lp lq : Bool} {z : State} (s : State) (id : CmdId) (e : Ending) (hs : Keeps lp lq z s) :
    Keeps lp lq z (State.stopRun s id e) := by
  unfold State.stopRun
  repeat' first
    | with_reducible assumption
    | with_reducible apply State.updRun_keeps

theorem State.taskError_keeps {lp lq : Bool} {z : State} (s : State) (id : CmdId) (e : AccErr) (hs : Keeps lp lq z s) :
    Keeps lp lq z (State.taskError s id e) := by
  unfold State.taskError
  repeat' first
    | with_reducible assumption
    | with_reducible apply State.stopRun_keeps
    | with_reducible apply State.ueReport_keeps
    | dsimp -zeta only
    | (intro _)
    | split

theorem State.accSaturated_keeps {lp lq : Bool} {z : State} (s : State) (id : CmdId) (g : Geo) (num : Nat) (sat : Bool) (hs : Keeps lp lq z s) :
    Keeps lp lq z (State.accSaturated s id g num sat) := by
  unfold State.accSaturated
  repeat' first
    | with_reducible assumption
    | with_reducible apply State.updRun_keeps
    | with_reducible apply State.flagSaturated_keeps
    | with_reducible apply State.stopRun_keeps
    | (extract_lets +onlyGivenNames x;
       refine Keeps.cut (t := x) ?_ (fun hx => ?_); subst x; rotate_left; clear_value x; rotate_right)
    | dsimp -zeta only
    | (intro _)
    | split

theorem State.startProduct_keeps {lp : Bool} {z : State} (s : State) (c : Cmd) (g : Geo) (hs : Keeps lp false z s) :
    Keeps lp false z (State.startProduct s c g) := by
  unfold State.startProduct
  repeat' first
    | with_reducible assumption
    | exact fun _ _ => rfl
    | exact fun h => absurd h Bool.false_ne_true
    | (intro _ _; (try dsimp only); split <;> rfl)
    | with_reducible apply State.settleProduct_keeps
    | with_reducible apply State.updCmd_keeps
    | with_reducible apply State.finish_keeps
    | with_reducible apply State.qcount_keeps
    | with_reducible apply State.failAcc_keeps
    | refine State.writeScale_keeps (by assumption) ?_
    | refine State.measuredScale_keeps (by assumption) ?_
    | (extract_lets +onlyGivenNames x; subst x; beta_reduce)
    | dsimp -zeta only
    | (intro _)
    | split

theorem State.takeTasks_keeps {lp : Bool} {z : State} (s : State) (c : Cmd) (g : Geo) (cell : Nat) (ts : List Nat) (hs : Keeps lp false z s) :
    Keeps lp false z (State.takeTasks s c g cell ts) := by
  unfold State.takeTasks
  repeat' first
    | with_reducible assumption
    | exact fun _ _ => rfl
    | exact fun h => absurd h Bool.false_ne_true
    | (intro _ _; (try dsimp only); split <;> rfl)
    | with_reducible apply State.updRun_keeps
    | with_reducible apply State.updCell_keeps
    | with_reducible apply State.updCmd_keeps
    | with_reducible apply Keeps.foldl
    | with_reducible apply Keeps.foldl_fst
    | with_reducible apply Keeps.foldl_snd
    | (extract_lets +onlyGivenNames x;
       first | (refine Keeps.cut (t := x) ?_ (fun hx => ?_); subst x; rotate_left; clear_value x; rotate_right)
             | (refine Keeps.cut (t := x.1) ?_ (fun hx => ?_); subst x; rotate_left; clear_value x; rotate_right)
             | (refine Keeps.cut (t := x.2) ?_ (fun hx => ?_); subst x; rotate_left; clear_value x; rotate_right)
             | clear_value x)
    | dsimp -zeta only
    | (intro _)
    | split

theorem State.cellDraw_keeps {lp : Bool} {z : State} (s : State) (cell : Nat) (c : Cmd) (g : Geo) (hs : Keeps lp false z s) :
    Keeps lp false z (State.cellDraw s cell c g) := by
  unfold State.cellDraw
  repeat' first
    | with_reducible assumption
    | with_reducible apply State.serve_keeps
    | with_reducible apply State.settleProduct_keeps
    | with_reducible apply State.stopRun_keeps
    | with_reducible apply State.takeTasks_keeps
    | (extract_lets +onlyGivenNames x;
       first | (refine Keeps.cut (t := x) ?_ (fun hx => ?_); subst x; rotate_left; clear_value x; rotate_right)
             | (refine Keeps.cut (t := x.1) ?_ (fun hx => ?_); subst x; rotate_left; clear_value x; rotate_right)
             | (refine Keeps.cut (t := x.2) ?_ (fun hx => ?_); subst x; rotate_left; clear_value x; rotate_right)
             | clear_value x)
    | dsimp -zeta only
    | (intro _)
    | split
    | assumption
    | fail_if_no_progress refine Keeps.inPlane ?_ rfl rfl
    | (rename_i hq; split at hq <;> first | (cases hq) | skip)
    | (simp_all only; done)

theorem State.taskDone_keeps {lp lq : Bool} {z : State} (s : State) (id : CmdId) (k : Nat) (hs : Keeps lp lq z s) :
    Keeps lp lq z (State.taskDone s id k) := by
  unfold State.taskDone
  repeat' first
    | with_reducible assumption
    | exact fun _ _ => rfl
    | exact fun h => absurd h Bool.false_ne_true
    | (intro _ _; (try dsimp only); split <;> rfl)
    | with_reducible apply State.updCmd_keeps

theorem State.dropTask_keeps {lp : Bool} {z : State} (s : State) (cell : Nat) (id : CmdId) (k : Nat) (hs : Keeps lp false z s) :
    Keeps lp false z (State.dropTask s cell id k) := by
  unfold State.dropTask
  repeat' first
    | with_reducible assumption
    | with_reducible apply State.updCell_keeps

theorem State.writeHeld_keeps {lp lq : Bool} {z : State} (s : State) (id : CmdId) (g : Geo) (h : HeldTile) (nc : Nat) (bits :
    List Nat) (hs : Keeps lp lq z s) :
    Keeps lp lq z (State.writeHeld s id g h nc bits).1 := by
  unfold State.writeHeld
  repeat' first
    | with_reducible assumption
    | with_reducible apply State.writeBytes_keeps
    | with_reducible refine State.writeBytes_keeps' ?_ (by assumption)
    | with_reducible apply State.writeEach_keeps
    | with_reducible refine State.writeEach_keeps' ?_ (by assumption)
    | (extract_lets +onlyGivenNames x;
       first | (refine Keeps.cut (t := x) ?_ (fun hx => ?_); subst x; rotate_left; clear_value x; rotate_right)
             | (refine Keeps.cut (t := x.1) ?_ (fun hx => ?_); subst x; rotate_left; clear_value x; rotate_right)
             | (refine Keeps.cut (t := x.2) ?_ (fun hx => ?_); subst x; rotate_left; clear_value x; rotate_right)
             | clear_value x)
    | dsimp -zeta only
    | (intro _)
    | split
    | assumption
    | fail_if_no_progress refine Keeps.update ?_ rfl rfl rfl
    | (rename_i hq; split at hq <;> first | (cases hq) | skip)
    | (simp_all only; done)
theorem State.writeHeld_keeps' {lp lq : Bool} {z : State} {s : State} {id : CmdId} {g : Geo} {h : HeldTile} {nc : Nat} {bits :
    List Nat} {u' o'} (hs : Keeps lp lq z s) (e' : State.writeHeld s id g h nc bits = (u', o')) : Keeps lp lq z u' := by
  have k := State.writeHeld_keeps (z := z) s id g h nc bits hs
  rw [e'] at k; exact k

theorem State.holdTile_keeps {lp lq : Bool} {z : State} (s : State) (c : Cmd) (g : Geo) (t : TileInfo) (cell : Nat) (vals :
    List FVal) (hs : Keeps lp lq z s) :
    Keeps lp lq z (State.holdTile s c g t cell vals) := by
  unfold State.holdTile
  repeat' first
    | with_reducible assumption
    | exact fun _ _ => rfl
    | exact fun h => absurd h Bool.false_ne_true
    | (intro _ _; (try dsimp only); split <;> rfl)
    | with_reducible apply State.updRun_keeps
    | with_reducible apply State.taskError_keeps
    | with_reducible apply State.writeHeld_keeps
    | with_reducible refine State.writeHeld_keeps' ?_ (by assumption)
    | with_reducible apply Keeps.elim
    | (extract_lets +onlyGivenNames x;
       first | (refine Keeps.cut (t := x) ?_ (fun hx => ?_); subst x; rotate_left; clear_value x; rotate_right)
             | (refine Keeps.cut (t := x.1) ?_ (fun hx => ?_); subst x; rotate_left; clear_value x; rotate_right)
             | (refine Keeps.cut (t := x.2) ?_ (fun hx => ?_); subst x; rotate_left; clear_value x; rotate_right)
             | clear_value x)
    | dsimp -zeta only
    | (intro _)
    | split
    | assumption
    | fail_if_no_progress refine Keeps.update ?_ rfl rfl rfl
    | (rename_i hq; split at hq <;> first | (cases hq) | skip)
    | (simp_all only; done)

theorem State.releaseHeld_keeps {lp : Bool} {z : State} (s : State) (id : CmdId) (g : Geo) (num : Nat) (hs : Keeps lp false z
    s) :
    Keeps lp false z (State.releaseHeld s id g num) := by
  unfold State.releaseHeld
  repeat' first
    | with_reducible assumption
    | (extract_lets +onlyGivenNames x;
       first | (refine Keeps.cut (t := x) ?_ (fun hx => ?_); subst x; rotate_left; clear_value x; rotate_right)
             | (refine Keeps.cut (t := x.1) ?_ (fun hx => ?_); subst x; rotate_left; clear_value x; rotate_right)
             | (refine Keeps.cut (t := x.2) ?_ (fun hx => ?_); subst x; rotate_left; clear_value x; rotate_right)
             | clear_value x)
    | dsimp -zeta only
    | (intro _)
    | split
    | assumption
    | fail_if_no_progress refine Keeps.inPlane ?_ rfl rfl
    | (rename_i hq; split at hq <;> first | (cases hq) | skip)
    | (simp_all only; done)

theorem State.drainStore_keeps {lp lq : Bool} {z : State} (s : State) (c : Cmd) (g : Geo) (t : TileInfo) (cell : Nat) (rows : List (List
    FVal)) (hs : Keeps lp lq z s) :
    Keeps lp lq z (State.drainStore s c g t cell rows) := by
  unfold State.drainStore
  repeat' first
    | with_reducible assumption
    | with_reducible apply State.storeTile_keeps
    | with_reducible refine State.storeTile_keeps' ?_ (by assumption)
    | with_reducible apply State.writeStats_keeps
    | with_reducible refine State.writeStats_keeps' ?_ (by assumption)
    | with_reducible apply State.flagSaturated_keeps
    | with_reducible apply State.flagNonfinite_keeps
    | with_reducible apply State.flagPromoted_keeps
    | with_reducible apply State.taskError_keeps
    | with_reducible apply State.pmc_keeps
    | with_reducible apply State.moved_keeps
    | with_reducible apply State.mergeAmax_keeps
    | (extract_lets +onlyGivenNames x;
       first | (refine Keeps.cut (t := x) ?_ (fun hx => ?_); subst x; rotate_left; clear_value x; rotate_right)
             | (refine Keeps.cut (t := x.1) ?_ (fun hx => ?_); subst x; rotate_left; clear_value x; rotate_right)
             | clear_value x)
    | dsimp -zeta only
    | (intro _)
    | split

theorem State.finishTile_keeps {lp : Bool} {z : State} (s : State) (id : CmdId) (g : Geo) (k : Nat) (t : TileInfo) (cell : Nat)
    (vals : List FVal) (hs : Keeps lp false z s) :
    Keeps lp false z (State.finishTile s id g k t cell vals) := by
  unfold State.finishTile
  repeat' first
    | with_reducible assumption
    | exact fun _ _ => rfl
    | exact fun h => absurd h Bool.false_ne_true
    | (intro _ _; (try dsimp only); split <;> rfl)
    | with_reducible apply State.updTile_keeps
    | with_reducible apply State.holdTile_keeps
    | with_reducible apply State.releaseHeld_keeps
    | with_reducible apply State.drainStore_keeps
    | (extract_lets +onlyGivenNames x;
       first | (refine Keeps.cut (t := x) ?_ (fun hx => ?_); subst x; rotate_left; clear_value x; rotate_right)
             | (refine Keeps.cut (t := x.1) ?_ (fun hx => ?_); subst x; rotate_left; clear_value x; rotate_right)
             | (refine Keeps.cut (t := x.2) ?_ (fun hx => ?_); subst x; rotate_left; clear_value x; rotate_right)
             | clear_value x)
    | dsimp -zeta only
    | (intro _)
    | split
    | assumption
    | fail_if_no_progress refine Keeps.inPlane ?_ rfl rfl
    | (rename_i hq; split at hq <;> first | (cases hq) | skip)
    | (simp_all only; done)

theorem State.writePartial_keeps {lp lq : Bool} {z : State} (s : State) (id : CmdId) (g : Geo) (x : TileSt) (seg nc : Nat) (vals : List Nat)
    (hs : Keeps lp lq z s) :
    Keeps lp lq z (State.writePartial s id g x seg nc vals).1 := by
  unfold State.writePartial
  repeat' first
    | with_reducible assumption
    | with_reducible apply State.writeBytes_keeps
    | with_reducible refine State.writeBytes_keeps' ?_ (by assumption)
    | with_reducible apply State.writeEach_keeps
    | with_reducible refine State.writeEach_keeps' ?_ (by assumption)
    | (extract_lets +onlyGivenNames x;
       first | (refine Keeps.cut (t := x) ?_ (fun hx => ?_); subst x; rotate_left; clear_value x; rotate_right)
             | (refine Keeps.cut (t := x.1) ?_ (fun hx => ?_); subst x; rotate_left; clear_value x; rotate_right)
             | (refine Keeps.cut (t := x.2) ?_ (fun hx => ?_); subst x; rotate_left; clear_value x; rotate_right)
             | clear_value x)
    | dsimp -zeta only
    | (intro _)
    | split
theorem State.writePartial_keeps' {lp lq : Bool} {z : State} {s : State} {id : CmdId} {g : Geo} {x : TileSt} {seg nc : Nat} {vals : List
    Nat} {u' o'} (hs : Keeps lp lq z s) (e' : State.writePartial s id g x seg nc vals = (u', o')) : Keeps lp lq z u' := by
  have k := State.writePartial_keeps (z := z) s id g x seg nc vals hs
  rw [e'] at k; exact k

theorem State.advance_keeps {lp : Bool} {z : State} (s : State) (id : CmdId) (g : Geo) (k : Nat) (t : TileInfo) (n0 : Nat) (hs
    : Keeps lp false z s) :
    Keeps lp false z (State.advance s id g k t n0) := by
  induction n0 generalizing s  with
  | zero => assumption
  | succ k ih =>
    unfold State.advance
    repeat' first
      | with_reducible assumption
      | apply ih
      | exact fun _ _ => rfl
      | exact fun h => absurd h Bool.false_ne_true
      | (intro _ _; (try dsimp only); split <;> rfl)
      | with_reducible apply State.updTile_keeps
      | with_reducible apply State.taskError_keeps
      | with_reducible apply State.accSaturated_keeps
      | with_reducible apply State.finishTile_keeps
      | with_reducible apply State.present_keeps
      | (extract_lets +onlyGivenNames x;
         first | (refine Keeps.cut (t := x) ?_ (fun hx => ?_); subst x; rotate_left; clear_value x; rotate_right)
               | (refine Keeps.cut (t := x.1) ?_ (fun hx => ?_); subst x; rotate_left; clear_value x; rotate_right)
               | (refine Keeps.cut (t := x.2) ?_ (fun hx => ?_); subst x; rotate_left; clear_value x; rotate_right)
               | clear_value x)
      | dsimp -zeta only
      | (intro _)
      | split
      | assumption
      | fail_if_no_progress refine Keeps.inPlane ?_ rfl rfl
      | (rename_i hq; split at hq <;> first | (cases hq) | skip)
      | (simp_all only; done)

theorem State.arriveDone_keeps {lp : Bool} {z : State} (s : State) (id : CmdId) (g : Geo) (k : Nat) (t : TileInfo) (hs : Keeps
    lp false z s) :
    Keeps lp false z (State.arriveDone s id g k t) := by
  unfold State.arriveDone
  repeat' first
    | with_reducible assumption
    | with_reducible apply State.finishTile_keeps
    | (extract_lets +onlyGivenNames x;
       first | (refine Keeps.cut (t := x) ?_ (fun hx => ?_); subst x; rotate_left; clear_value x; rotate_right)
             | (refine Keeps.cut (t := x.1) ?_ (fun hx => ?_); subst x; rotate_left; clear_value x; rotate_right)
             | (refine Keeps.cut (t := x.2) ?_ (fun hx => ?_); subst x; rotate_left; clear_value x; rotate_right)
             | clear_value x)
    | dsimp -zeta only
    | (intro _)
    | split
    | assumption
    | fail_if_no_progress refine Keeps.inPlane ?_ rfl rfl
    | (rename_i hq; split at hq <;> first | (cases hq) | skip)
    | (simp_all only; done)

theorem State.segmentDone_keeps {lp : Bool} {z : State} (s : State) (c : Cmd) (g : Geo) (cell task : Nat) (t : TileInfo) (o :
    SegOut) (hs : Keeps lp false z s) :
    Keeps lp false z (State.segmentDone s c g cell task t o) := by
  unfold State.segmentDone
  repeat' first
    | with_reducible assumption
    | exact fun _ _ => rfl
    | exact fun h => absurd h Bool.false_ne_true
    | (intro _ _; (try dsimp only); split <;> rfl)
    | with_reducible apply State.updTile_keeps
    | with_reducible apply State.taskError_keeps
    | with_reducible apply State.taskDone_keeps
    | with_reducible apply State.finishTile_keeps
    | with_reducible apply State.writePartial_keeps
    | with_reducible refine State.writePartial_keeps' ?_ (by assumption)
    | with_reducible apply State.advance_keeps
    | with_reducible apply State.arriveDone_keeps
    | with_reducible apply State.qcount_keeps
    | with_reducible apply State.present_keeps
    | (extract_lets +onlyGivenNames x;
       first | (refine Keeps.cut (t := x) ?_ (fun hx => ?_); subst x; rotate_left; clear_value x; rotate_right)
             | (refine Keeps.cut (t := x.1) ?_ (fun hx => ?_); subst x; rotate_left; clear_value x; rotate_right)
             | (refine Keeps.cut (t := x.2) ?_ (fun hx => ?_); subst x; rotate_left; clear_value x; rotate_right)
             | clear_value x)
    | dsimp -zeta only
    | (intro _)
    | split
    | assumption
    | fail_if_no_progress refine Keeps.inPlane ?_ rfl rfl
    | (rename_i hq; split at hq <;> first | (cases hq) | skip)
    | (simp_all only; done)

theorem State.completeTask_keeps {lp : Bool} {z : State} (s : State) (c : Cmd) (g : Geo) (cell task : Nat) (t : TileInfo) (hs :
    Keeps lp false z s) :
    Keeps lp false z (State.completeTask s c g cell task t) := by
  unfold State.completeTask
  repeat' first
    | with_reducible assumption
    | with_reducible apply State.settleProduct_keeps
    | with_reducible apply State.stopRun_keeps
    | with_reducible apply State.taskError_keeps
    | with_reducible apply State.accSaturated_keeps
    | with_reducible apply State.dropTask_keeps
    | with_reducible apply State.segmentDone_keeps
    | with_reducible apply State.pmc_keeps
    | with_reducible apply State.qcount_keeps
    | with_reducible apply State.moved_keeps
    | (extract_lets +onlyGivenNames x;
       first | (refine Keeps.cut (t := x) ?_ (fun hx => ?_); subst x; rotate_left; clear_value x; rotate_right)
             | (refine Keeps.cut (t := x.1) ?_ (fun hx => ?_); subst x; rotate_left; clear_value x; rotate_right)
             | (refine Keeps.cut (t := x.2) ?_ (fun hx => ?_); subst x; rotate_left; clear_value x; rotate_right)
             | (subst x; beta_reduce))
    | dsimp -zeta only
    | (intro _)
    | split
    | assumption
    | fail_if_no_progress refine Keeps.inPlane ?_ rfl rfl
    | (rename_i hq; split at hq <;> first | (cases hq) | skip)
    | (simp_all only; done)

theorem State.unlessWaits_keeps {lp lq : Bool} {z : State} (s : State) (id : CmdId) (t : State) (hs : Keeps lp lq z s)
    (ht : Keeps lp lq z t) : Keeps lp lq z (State.unlessWaits s id t) := by
  unfold State.unlessWaits
  split
  · exact hs
  · exact ht

theorem State.partialArrives_keeps {lp : Bool} {z : State} (s : State) (c : Cmd) (g : Geo) (k seg : Nat) (t : TileInfo) (hs :
    Keeps lp false z s) :
    Keeps lp false z (State.partialArrives s c g k seg t) := by
  unfold State.partialArrives
  repeat' first
    | with_reducible assumption
    | exact fun _ _ => rfl
    | exact fun h => absurd h Bool.false_ne_true
    | (intro _ _; (try dsimp only); split <;> rfl)
    | with_reducible apply State.updTile_keeps
    | with_reducible apply State.settleProduct_keeps
    | with_reducible apply State.taskError_keeps
    | with_reducible apply State.accSaturated_keeps
    | with_reducible apply State.taskDone_keeps
    | with_reducible apply State.arriveDone_keeps
    | with_reducible apply State.bump_keeps
    | with_reducible apply State.staleDrop_keeps
    | (extract_lets +onlyGivenNames x;
       first | (refine Keeps.cut (t := x) ?_ (fun hx => ?_); subst x; rotate_left; clear_value x; rotate_right)
             | (refine Keeps.cut (t := x.1) ?_ (fun hx => ?_); subst x; rotate_left; clear_value x; rotate_right)
             | (refine Keeps.cut (t := x.2) ?_ (fun hx => ?_); subst x; rotate_left; clear_value x; rotate_right)
             | clear_value x)
    | dsimp -zeta only
    | (intro _)
    | split
    | assumption
    | fail_if_no_progress refine Keeps.inPlane ?_ rfl rfl
    | (rename_i hq; split at hq <;> first | (cases hq) | skip)
    | (simp_all only; done)

end Sys2Proof.Machine
end

