-- ==== Sys2Proof/Laws/KeepsRows.lean ====
section
/-!
SUPPORT. Laws/KeepsRows.lean: the operations of Machine/Rows.lean keep the queue, the memories, the points and the fuses.
-/
set_option Elab.async false
set_option linter.all false
namespace Sys2Proof.Machine

theorem State.scaleFor_keeps {lp lq : Bool} {z : State} {s : State} {id : CmdId} {o : Tens} {step : Nat} {xs : List FVal} {u' v'} (e' :
    State.scaleFor s id o step xs = .ok (v', u')) (hs : Keeps lp lq z s) : Keeps lp lq z u' := by
  unfold State.scaleFor at e'
  repeat' split at e'
  all_goals first | cases e' | skip
  repeat' first
    | with_reducible assumption
    | refine State.writeScale_keeps (by assumption) ?_
    | refine State.measuredScale_keeps (by assumption) ?_

theorem State.writeAll_keeps {lp lq : Bool} {z : State} (s : State) (id : CmdId) (o : Tens) (mode step : Nat) (rows : List (List FVal)) (hs
    : Keeps lp lq z s) :
    Keeps lp lq z (State.writeAll s id o mode step rows).1 := by
  unfold State.writeAll
  repeat' first
    | with_reducible assumption
    | with_reducible apply State.flagSaturated_keeps
    | refine State.scaleFor_keeps (by assumption) ?_
    | with_reducible apply State.writeRun_keeps
    | with_reducible refine State.writeRun_keeps' ?_ (by assumption)
    | with_reducible apply State.writeEach_keeps
    | with_reducible refine State.writeEach_keeps' ?_ (by assumption)
    | with_reducible apply State.moved_keeps
    | (extract_lets +onlyGivenNames x; clear_value x)
    | dsimp -zeta only
    | (intro _)
    | split
theorem State.writeAll_keeps' {lp lq : Bool} {z : State} {s : State} {id : CmdId} {o : Tens} {mode step : Nat} {rows : List (List FVal)} {u'
    o'} (hs : Keeps lp lq z s) (e' : State.writeAll s id o mode step rows = (u', o')) : Keeps lp lq z u' := by
  have k := State.writeAll_keeps (z := z) s id o mode step rows hs
  rw [e'] at k; exact k

theorem State.wrote_keeps {lp lq : Bool} {z : State} (s0 s : State) (id : CmdId) (o : Tens) (step : Nat) (r : WOut) (sc : FVal)
    (hs0 : Keeps lp lq z s0) (hs : Keeps lp lq z s) :
    Keeps lp lq z (State.wrote s0 s id o step r sc) := by
  unfold State.wrote
  repeat' first
    | with_reducible assumption
    | with_reducible apply State.finish_keeps
    | with_reducible apply State.failAcc_keeps
    | with_reducible apply State.setStored_keeps
    | (extract_lets +onlyGivenNames x;
       first | (refine Keeps.cut (t := x) ?_ (fun hx => ?_); subst x; rotate_left; clear_value x; rotate_right)
             | (refine Keeps.cut (t := x.1) ?_ (fun hx => ?_); subst x; rotate_left; clear_value x; rotate_right)
             | (refine Keeps.cut (t := x.2) ?_ (fun hx => ?_); subst x; rotate_left; clear_value x; rotate_right)
             | clear_value x)
    | dsimp -zeta only
    | (intro _)
    | split
    | assumption
    | fail_if_no_progress refine Keeps.update ?_ rfl rfl rfl
    | (simp_all only; done)

theorem State.afterReads_keeps {lp lq : Bool} {z : State} {α : Type} (s : State) (id : CmdId) (bad : Except AccErr (Option Ending)) (r :
    Except AccErr α) (f : α → State) (hs : Keeps lp lq z s) (hf : ∀ a0, Keeps lp lq z (f a0)) :
    Keeps lp lq z (State.afterReads s id bad r f) := by
  unfold State.afterReads
  repeat' first
    | with_reducible assumption
    | with_reducible apply State.finish_keeps
    | with_reducible apply State.failAcc_keeps
    | dsimp -zeta only
    | (intro _)
    | split
    | assumption
    | fail_if_no_progress refine Keeps.update ?_ rfl rfl rfl
    | (simp_all only; done)

theorem flagNon_keeps {lp lq : Bool} {z : State} (s : State) (id : CmdId) (o : Tens) (rows : List (List FVal)) (hs : Keeps lp lq z s) :
    Keeps lp lq z (flagNon s id o rows) := by
  unfold flagNon
  repeat' first
    | with_reducible assumption
    | with_reducible apply State.flagNonfinite_keeps

theorem State.ewStats_keeps {lp lq : Bool} {z : State} (s : State) (id : CmdId) (h : Nat) (o : Tens) (rows : List (List FVal)) (strained :
    Nat → Nat → Nat) (hs : Keeps lp lq z s) :
    Keeps lp lq z (State.ewStats s id h o rows strained).1 := by
  unfold State.ewStats
  repeat' first
    | with_reducible assumption
    | with_reducible apply State.writeStats_keeps
    | with_reducible refine State.writeStats_keeps' ?_ (by assumption)
    | with_reducible apply State.writeEach_keeps
    | with_reducible refine State.writeEach_keeps' ?_ (by assumption)
    | (extract_lets +onlyGivenNames x;
       first | (refine Keeps.cut (t := x) ?_ (fun hx => ?_); subst x; rotate_left; clear_value x; rotate_right)
             | (refine Keeps.cut (t := x.1) ?_ (fun hx => ?_); subst x; rotate_left; clear_value x; rotate_right)
             | (refine Keeps.cut (t := x.2) ?_ (fun hx => ?_); subst x; rotate_left; clear_value x; rotate_right)
             | clear_value x)
    | dsimp -zeta only
    | (intro _)
theorem State.ewStats_keeps' {lp lq : Bool} {z : State} {s : State} {id : CmdId} {h : Nat} {o : Tens} {rows : List (List FVal)} {strained :
    Nat → Nat → Nat} {u' o'} (h : Nat) (o : Tens) (rows : List (List FVal)) (strained : Nat → Nat → Nat) (hs : Keeps lp lq z s) (e'
    : State.ewStats s id h o rows strained = (u', o')) : Keeps lp lq z u' := by
  have k := State.ewStats_keeps (z := z) s id h o rows strained hs
  rw [e'] at k; exact k

theorem State.runElementwise_keeps {lp lq : Bool} {z : State} (s0 : State) (c : Cmd) (i o : Tens) (hs0 : Keeps lp lq z s0) :
    Keeps lp lq z (State.runElementwise s0 c i o) := by
  unfold State.runElementwise
  repeat' first
    | with_reducible assumption
    | with_reducible apply State.serve_keeps
    | with_reducible apply State.markRun_keeps
    | with_reducible refine State.markRun_keeps' ?_ (by assumption)
    | with_reducible apply State.writeAll_keeps
    | with_reducible refine State.writeAll_keeps' ?_ (by assumption)
    | with_reducible apply State.wrote_keeps
    | with_reducible apply State.afterReads_keeps
    | with_reducible apply flagNon_keeps
    | with_reducible apply State.ewStats_keeps
    | with_reducible refine State.ewStats_keeps' ?_ (by assumption)
    | with_reducible apply State.handle_keeps
    | with_reducible apply State.moved_keeps
    | with_reducible apply State.mergeAmax_keeps
    | (extract_lets +onlyGivenNames x;
       first | (refine Keeps.cut (t := x) ?_ (fun hx => ?_); subst x; rotate_left; clear_value x; rotate_right)
             | (refine Keeps.cut (t := x.1) ?_ (fun hx => ?_); subst x; rotate_left; clear_value x; rotate_right)
             | (refine Keeps.cut (t := x.2) ?_ (fun hx => ?_); subst x; rotate_left; clear_value x; rotate_right)
             | (subst x; beta_reduce))
    | dsimp -zeta only
    | (intro _)
    | split
    | assumption
    | fail_if_no_progress refine Keeps.update ?_ rfl rfl rfl
    | (rename_i hq; split at hq <;> first | (cases hq) | skip)
    | (simp_all only; done)

theorem State.runReduce_keeps {lp lq : Bool} {z : State} (s0 : State) (c : Cmd) (i o : Tens) (hs0 : Keeps lp lq z s0) :
    Keeps lp lq z (State.runReduce s0 c i o) := by
  unfold State.runReduce
  repeat' first
    | with_reducible assumption
    | with_reducible apply State.flagSaturated_keeps
    | with_reducible apply State.free_keeps
    | with_reducible refine State.free_keeps' ?_ (by assumption)
    | with_reducible apply State.writeAll_keeps
    | with_reducible refine State.writeAll_keeps' ?_ (by assumption)
    | with_reducible apply State.wrote_keeps
    | with_reducible apply State.afterReads_keeps
    | with_reducible apply flagNon_keeps
    | with_reducible apply State.moved_keeps
    | (extract_lets +onlyGivenNames x;
       first | (refine Keeps.cut (t := x) ?_ (fun hx => ?_); subst x; rotate_left; clear_value x; rotate_right)
             | (refine Keeps.cut (t := x.1) ?_ (fun hx => ?_); subst x; rotate_left; clear_value x; rotate_right)
             | (refine Keeps.cut (t := x.2) ?_ (fun hx => ?_); subst x; rotate_left; clear_value x; rotate_right)
             | clear_value x)
    | dsimp -zeta only
    | (intro _)
    | split
    | assumption
    | fail_if_no_progress refine Keeps.update ?_ rfl rfl rfl
    | (rename_i hq; split at hq <;> first | (cases hq) | skip)
    | (simp_all only; done)

theorem State.runRowForward_keeps {lp lq : Bool} {z : State} (s0 : State) (c : Cmd) (x y : Tens) (hs0 : Keeps lp lq z s0) :
    Keeps lp lq z (State.runRowForward s0 c x y) := by
  unfold State.runRowForward
  repeat' first
    | with_reducible assumption
    | with_reducible apply State.serve_keeps
    | with_reducible apply State.writeAll_keeps
    | with_reducible refine State.writeAll_keeps' ?_ (by assumption)
    | with_reducible apply State.wrote_keeps
    | with_reducible apply State.afterReads_keeps
    | with_reducible apply flagNon_keeps
    | with_reducible apply State.moved_keeps
    | (extract_lets +onlyGivenNames x;
       first | (refine Keeps.cut (t := x) ?_ (fun hx => ?_); subst x; rotate_left; clear_value x; rotate_right)
             | (refine Keeps.cut (t := x.1) ?_ (fun hx => ?_); subst x; rotate_left; clear_value x; rotate_right)
             | (refine Keeps.cut (t := x.2) ?_ (fun hx => ?_); subst x; rotate_left; clear_value x; rotate_right)
             | clear_value x)
    | dsimp -zeta only
    | (intro _)
    | split
    | assumption
    | fail_if_no_progress refine Keeps.update ?_ rfl rfl rfl
    | (rename_i hq; split at hq <;> first | (cases hq) | skip)
    | (simp_all only; done)

theorem State.runRowBackward_keeps {lp lq : Bool} {z : State} (s0 : State) (c : Cmd) (x dy dx : Tens) (hs0 : Keeps lp lq z s0) :
    Keeps lp lq z (State.runRowBackward s0 c x dy dx) := by
  unfold State.runRowBackward
  repeat' first
    | with_reducible assumption
    | with_reducible apply State.serve_keeps
    | with_reducible apply State.free_keeps
    | with_reducible refine State.free_keeps' ?_ (by assumption)
    | with_reducible apply State.writeAll_keeps
    | with_reducible refine State.writeAll_keeps' ?_ (by assumption)
    | with_reducible apply State.wrote_keeps
    | with_reducible apply State.afterReads_keeps
    | with_reducible apply flagNon_keeps
    | with_reducible apply State.moved_keeps
    | (extract_lets +onlyGivenNames x;
       first | (refine Keeps.cut (t := x) ?_ (fun hx => ?_); subst x; rotate_left; clear_value x; rotate_right)
             | (refine Keeps.cut (t := x.1) ?_ (fun hx => ?_); subst x; rotate_left; clear_value x; rotate_right)
             | (refine Keeps.cut (t := x.2) ?_ (fun hx => ?_); subst x; rotate_left; clear_value x; rotate_right)
             | clear_value x)
    | dsimp -zeta only
    | (intro _)
    | split
    | assumption
    | fail_if_no_progress refine Keeps.update ?_ rfl rfl rfl
    | (rename_i hq; split at hq <;> first | (cases hq) | skip)
    | (simp_all only; done)

end Sys2Proof.Machine
end

