-- ==== Sys2Proof/Laws/KeepsDesc.lean ====
section
/-!
SUPPORT. Laws/KeepsDesc.lean: the operations of Machine/Desc.lean keep the queue, the memories, the points and the fuses.
-/
set_option Elab.async false
set_option linter.all false
namespace Sys2Proof.Machine

theorem State.descCreate_keeps {lp lq : Bool} {z : State} (s : State) (c : Cmd) (hs : Keeps lp lq z s) :
    Keeps lp lq z (State.descCreate s c) := by
  unfold State.descCreate
  repeat' first
    | with_reducible assumption
    | with_reducible apply State.updSlot_keeps
    | with_reducible apply State.finish_keeps
    | (extract_lets +onlyGivenNames x; clear_value x)
    | dsimp -zeta only
    | (intro _)
    | split

theorem State.descDestroy_keeps {lp lq : Bool} {z : State} (s : State) (c : Cmd) (hs : Keeps lp lq z s) :
    Keeps lp lq z (State.descDestroy s c) := by
  unfold State.descDestroy
  repeat' first
    | with_reducible assumption
    | with_reducible apply State.updSlot_keeps
    | with_reducible apply State.finish_keeps
    | (extract_lets +onlyGivenNames x;
       first | (refine Keeps.cut (t := x) ?_ (fun hx => ?_); subst x; rotate_left; clear_value x; rotate_right) | clear_value x)
    | dsimp -zeta only
    | (intro _)
    | split

theorem State.allocChange_keeps {lp lq : Bool} {z : State} (s : State) (c : Cmd) (f : Tab Alloc → Nat → Tab Alloc) (hs : Keeps lp lq z s) :
    Keeps lp lq z (State.allocChange s c f) := by
  unfold State.allocChange
  repeat' first
    | with_reducible assumption
    | with_reducible apply State.updCtx_keeps
    | with_reducible apply State.finish_keeps
    | (extract_lets +onlyGivenNames x; clear_value x)
    | dsimp -zeta only
    | (intro _)
    | split

end Sys2Proof.Machine
end

