-- ==== Sys2Proof/Laws/KeepsDataMove.lean ====
section
/-!
SUPPORT. Laws/KeepsDataMove.lean: the operations of Machine/DataMove.lean keep the queue, the memories, the points and the fuses.
-/
set_option Elab.async false
set_option linter.all false
namespace Sys2Proof.Machine

theorem State.putRow_keeps {lp lq : Bool} {z : State} (s : State) (id : CmdId) (h : MoveHow) (t : Tens) (off r rn c0 : Nat) (v
    : RowData) (hs : Keeps lp lq z s) :
    Keeps lp lq z (State.putRow s id h t off r rn c0 v).1 := by
  unfold State.putRow
  repeat' first
    | with_reducible assumption
    | with_reducible apply State.writeBytes_keeps
    | with_reducible refine State.writeBytes_keeps' ?_ (by assumption)
    | with_reducible apply State.thenWrite_keeps
    | with_reducible refine State.thenWrite_keeps' ?_ (by assumption)
    | with_reducible apply State.writeRun_keeps
    | with_reducible refine State.writeRun_keeps' ?_ (by assumption)
    | (extract_lets +onlyGivenNames x;
       first | (refine Keeps.cut (t := x) ?_ (fun hx => ?_); subst x; rotate_left; clear_value x; rotate_right)
             | (refine Keeps.cut (t := x.1) ?_ (fun hx => ?_); subst x; rotate_left; clear_value x; rotate_right)
             | (refine Keeps.cut (t := x.2) ?_ (fun hx => ?_); subst x; rotate_left; clear_value x; rotate_right)
             | (subst x; beta_reduce))
    | dsimp -zeta only
    | (intro _)
    | split
    | assumption
    | fail_if_no_progress refine Keeps.update ?_ rfl rfl rfl
    | (rename_i hq; split at hq <;> first | (cases hq) | skip)
    | (simp_all only; done)
theorem State.putRow_keeps' {lp lq : Bool} {z : State} {s : State} {id : CmdId} {h : MoveHow} {t : Tens} {off r rn c0 : Nat} {v
    : RowData} {u' o'} (hs : Keeps lp lq z s) (e' : State.putRow s id h t off r rn c0 v = (u', o')) : Keeps lp lq z u' := by
  have k := State.putRow_keeps (z := z) s id h t off r rn c0 v hs
  rw [e'] at k; exact k

theorem State.moveEnd_keeps {lp lq : Bool} {z : State} (s0 s : State) (id : CmdId) (o : Tens) (h : MoveHow) (aux : Nat) (w :
    WOut) (hs0 : Keeps lp lq z s0) (hs : Keeps lp lq z s) :
    Keeps lp lq z (State.moveEnd s0 s id o h aux w) := by
  unfold State.moveEnd
  repeat' first
    | with_reducible assumption
    | with_reducible apply State.flagSaturated_keeps
    | with_reducible apply State.finish_keeps
    | with_reducible apply State.failAcc_keeps
    | with_reducible apply State.setStored_keeps
    | (extract_lets +onlyGivenNames x;
       first | (refine Keeps.cut (t := x) ?_ (fun hx => ?_); subst x; rotate_left; clear_value x; rotate_right)
             | (refine Keeps.cut (t := x.1) ?_ (fun hx => ?_); subst x; rotate_left; clear_value x; rotate_right)
             | (refine Keeps.cut (t := x.2) ?_ (fun hx => ?_); subst x; rotate_left; clear_value x; rotate_right)
             | clear_value x)
    | dsimp -zeta only
    | (intro _)
    | split
    | assumption
    | fail_if_no_progress refine Keeps.update ?_ rfl rfl rfl
    | (rename_i hq; split at hq <;> first | (cases hq) | skip)
    | (simp_all only; done)

theorem State.moveHow_keeps {lp lq : Bool} {z : State} {s : State} {id : CmdId} {d : List Byte} {i o : Tens} {xs : Unit → Except AccErr
    (List FVal)} {u' v'} (e' : State.moveHow s id d i o xs = .ok (v', u')) (hs : Keeps lp lq z s) : Keeps lp lq z u' := by
  unfold State.moveHow at e'
  repeat' split at e'
  all_goals first | cases e' | skip
  repeat' first
    | with_reducible assumption
    | refine State.writeScale_keeps (by assumption) ?_
    | refine State.measuredScale_keeps (by assumption) ?_

theorem State.layoutPut_keeps {lp lq : Bool} {z : State} (s : State) (id : CmdId) (d : List Byte) (h : MoveHow) (part : Part) (base : Nat)
    (e : MoveEnt) (r : Nat) (hs : Keeps lp lq z s) :
    Keeps lp lq z (State.layoutPut s id d h part base e r).1 := by
  unfold State.layoutPut
  repeat' first
    | with_reducible assumption
    | with_reducible apply State.putRow_keeps
    | with_reducible refine State.putRow_keeps' ?_ (by assumption)
    | (extract_lets +onlyGivenNames x; clear_value x)
    | dsimp -zeta only
    | (intro _)
    | split
theorem State.layoutPut_keeps' {lp lq : Bool} {z : State} {s : State} {id : CmdId} {d : List Byte} {h : MoveHow} {part : Part} {base : Nat}
    {e : MoveEnt} {r : Nat} {u' o'} (h : MoveHow) (part : Part) (base : Nat) (e : MoveEnt) (r : Nat) (hs : Keeps lp lq z s) (e' :
    State.layoutPut s id d h part base e r = (u', o')) : Keeps lp lq z u' := by
  have k := State.layoutPut_keeps (z := z) s id d h part base e r hs
  rw [e'] at k; exact k

theorem State.layoutPart_keeps {lp lq : Bool} {z : State} (s : State) (id : CmdId) (d : List Byte) (h : MoveHow) (part : Part) (es : List
    MoveEnt) (hs : Keeps lp lq z s) :
    Keeps lp lq z (State.layoutPart s id d h part es).1 := by
  unfold State.layoutPart
  repeat' first
    | with_reducible assumption
    | with_reducible apply State.layoutPut_keeps
    | with_reducible refine State.layoutPut_keeps' ?_ (by assumption)
    | with_reducible apply State.writeEach_keeps
    | with_reducible refine State.writeEach_keeps' ?_ (by assumption)
    | dsimp -zeta only
    | (intro _)
theorem State.layoutPart_keeps' {lp lq : Bool} {z : State} {s : State} {id : CmdId} {d : List Byte} {h : MoveHow} {part : Part} {es : List
    MoveEnt} {u' o'} (h : MoveHow) (part : Part) (es : List MoveEnt) (hs : Keeps lp lq z s) (e' : State.layoutPart s id d h part es
    = (u', o')) : Keeps lp lq z u' := by
  have k := State.layoutPart_keeps (z := z) s id d h part es hs
  rw [e'] at k; exact k

theorem State.layoutTiles_keeps {lp lq : Bool} {z : State} (s : State) (id : CmdId) (d : List Byte) (h : MoveHow) (part : Part)
    (base : Nat) (e : MoveEnt) (r : Nat) (hs : Keeps lp lq z s) :
    Keeps lp lq z (State.layoutTiles s id d h part base e r).1 := by
  unfold State.layoutTiles
  repeat' first
    | with_reducible assumption
    | with_reducible apply State.writeTile_keeps
    | with_reducible refine State.writeTile_keeps' ?_ (by assumption)
    | with_reducible apply State.writeEach_keeps
    | with_reducible refine State.writeEach_keeps' ?_ (by assumption)
    | (extract_lets +onlyGivenNames x;
       first | (refine Keeps.cut (t := x) ?_ (fun hx => ?_); subst x; rotate_left; clear_value x; rotate_right)
             | (refine Keeps.cut (t := x.1) ?_ (fun hx => ?_); subst x; rotate_left; clear_value x; rotate_right)
             | (refine Keeps.cut (t := x.2) ?_ (fun hx => ?_); subst x; rotate_left; clear_value x; rotate_right)
             | clear_value x)
    | dsimp -zeta only
    | (intro _)
    | split
    | assumption
    | fail_if_no_progress refine Keeps.update ?_ rfl rfl rfl
    | (rename_i hq; split at hq <;> first | (cases hq) | skip)
    | (simp_all only; done)
theorem State.layoutTiles_keeps' {lp lq : Bool} {z : State} {s : State} {id : CmdId} {d : List Byte} {h : MoveHow} {part :
    Part} {base : Nat} {e : MoveEnt} {r : Nat} {u' o'} (hs : Keeps lp lq z s) (e' : State.layoutTiles s id d h part base e r = (u', o')) : Keeps lp lq z u' := by
  have k := State.layoutTiles_keeps (z := z) s id d h part base e r hs
  rw [e'] at k; exact k

theorem State.moveCount_keeps {lp lq : Bool} {z : State} (s : State) (id : CmdId) (i o : Tens) (rd wr : Nat) (hs : Keeps lp lq z s) :
    Keeps lp lq z (State.moveCount s id i o rd wr) := by
  unfold State.moveCount
  repeat' first
    | with_reducible assumption
    | with_reducible apply State.wr_keeps
    | with_reducible apply State.moved_keeps

theorem State.layoutPasses_keeps {lp lq : Bool} {z : State} (s : State) (d : List Byte) (f : Part → State → State × WOut) (hs :
    Keeps lp lq z s) (hf : ∀ a0 a1, Keeps lp lq z a1 → Keeps lp lq z (f a0 a1).1) :
    Keeps lp lq z (State.layoutPasses s d f).1 := by
  unfold State.layoutPasses
  repeat' first
    | with_reducible assumption
    | (extract_lets +onlyGivenNames x;
       first | (refine Keeps.cut (t := x) ?_ (fun hx => ?_); subst x; rotate_left; clear_value x; rotate_right)
             | (refine Keeps.cut (t := x.1) ?_ (fun hx => ?_); subst x; rotate_left; clear_value x; rotate_right)
             | (refine Keeps.cut (t := x.2) ?_ (fun hx => ?_); subst x; rotate_left; clear_value x; rotate_right)
             | clear_value x)
    | dsimp -zeta only
    | (intro _)
    | split
    | assumption
    | fail_if_no_progress refine Keeps.update ?_ rfl rfl rfl
    | (rename_i hq; split at hq <;> first | (cases hq) | skip)
    | (simp_all only; done)
theorem State.layoutPasses_keeps' {lp lq : Bool} {z : State} {s : State} {d : List Byte} {f : Part → State → State × WOut} {u'
    o'} (hs : Keeps lp lq z s) (hf : ∀ a0 a1, Keeps lp lq z a1 → Keeps lp lq z (f a0 a1).1) (e' : State.layoutPasses s d f = (u', o')) : Keeps lp lq z u' := by
  have k := State.layoutPasses_keeps (z := z) s d f hs hf
  rw [e'] at k; exact k

theorem State.runLayout_keeps {lp lq : Bool} {z : State} (s0 : State) (c : Cmd) (i o : Tens) (hs0 : Keeps lp lq z s0) :
    Keeps lp lq z (State.runLayout s0 c i o) := by
  unfold State.runLayout
  repeat' first
    | with_reducible assumption
    | with_reducible apply State.moveEnd_keeps
    | refine State.moveHow_keeps (by assumption) ?_
    | with_reducible apply State.layoutPart_keeps
    | with_reducible refine State.layoutPart_keeps' ?_ (by assumption)
    | with_reducible apply State.layoutTiles_keeps
    | with_reducible refine State.layoutTiles_keeps' ?_ (by assumption)
    | with_reducible apply State.moveCount_keeps
    | with_reducible apply State.layoutPasses_keeps
    | with_reducible refine State.layoutPasses_keeps' ?_ (by assumption)
    | with_reducible apply State.finish_keeps
    | with_reducible apply State.failAcc_keeps
    | with_reducible apply State.writeEach_keeps
    | with_reducible refine State.writeEach_keeps' ?_ (by assumption)
    | with_reducible apply Keeps.foldl
    | with_reducible apply Keeps.foldl_fst
    | with_reducible apply Keeps.foldl_snd
    | (extract_lets +onlyGivenNames x;
       first | (refine Keeps.cut (t := x) ?_ (fun hx => ?_); subst x; rotate_left; clear_value x; rotate_right)
             | (refine Keeps.cut (t := x.1) ?_ (fun hx => ?_); subst x; rotate_left; clear_value x; rotate_right)
             | (refine Keeps.cut (t := x.2) ?_ (fun hx => ?_); subst x; rotate_left; clear_value x; rotate_right)
             | clear_value x)
    | dsimp -zeta only
    | (intro _)
    | split
    | assumption
    | fail_if_no_progress refine Keeps.update ?_ rfl rfl rfl
    | (rename_i hq; split at hq <;> first | (cases hq) | skip)
    | (simp_all only; done)

theorem State.onMove_keeps {lp lq : Bool} {z : State} (s : State) (id : CmdId) (op : Nat) (f : Cmd → Tens → Tens → State) (hs : Keeps lp lq z s)
    (hf : ∀ a0 a1 a2, Keeps lp lq z (f a0 a1 a2)) :
    Keeps lp lq z (State.onMove s id op f) := by
  unfold State.onMove
  repeat' first
    | with_reducible assumption
    | with_reducible apply State.onCmd_keeps
    | (extract_lets +onlyGivenNames x;
       first | (refine Keeps.cut (t := x) ?_ (fun hx => ?_); subst x; rotate_left; clear_value x; rotate_right)
             | (refine Keeps.cut (t := x.1) ?_ (fun hx => ?_); subst x; rotate_left; clear_value x; rotate_right)
             | (refine Keeps.cut (t := x.2) ?_ (fun hx => ?_); subst x; rotate_left; clear_value x; rotate_right)
             | clear_value x)
    | dsimp -zeta only
    | (intro _)
    | split
    | assumption
    | fail_if_no_progress refine Keeps.update ?_ rfl rfl rfl
    | (simp_all only; done)

theorem State.putSlice_keeps {lp lq : Bool} {z : State} (s : State) (id : CmdId) (h : MoveHow) (e : MoveEnt) (j : Nat) (vs : List RowData)
    (hs : Keeps lp lq z s) :
    Keeps lp lq z (State.putSlice s id h e j vs).1 := by
  unfold State.putSlice
  repeat' first
    | with_reducible assumption
    | with_reducible apply State.putRow_keeps
    | with_reducible refine State.putRow_keeps' ?_ (by assumption)
    | with_reducible apply State.writeEach_keeps
    | with_reducible refine State.writeEach_keeps' ?_ (by assumption)
    | (extract_lets +onlyGivenNames x; clear_value x)
    | dsimp -zeta only
    | (intro _)
    | split
theorem State.putSlice_keeps' {lp lq : Bool} {z : State} {s : State} {id : CmdId} {h : MoveHow} {e : MoveEnt} {j : Nat} {vs : List RowData}
    {u' o'} (h : MoveHow) (e : MoveEnt) (j : Nat) (vs : List RowData) (hs : Keeps lp lq z s) (e' : State.putSlice s id h e j vs =
    (u', o')) : Keeps lp lq z u' := by
  have k := State.putSlice_keeps (z := z) s id h e j vs hs
  rw [e'] at k; exact k

theorem State.gatherFrom_keeps {lp lq : Bool} {z : State} (s : State) (id : CmdId) (keep : Bool) (n0 : Nat) (n1 : Nat) (n2 : Option (Nat ×
    List RowData)) (h : MoveHow) (e : MoveEnt) (idx : Nat → Idx) (hs : Keeps lp lq z s) :
    Keeps lp lq z (State.gatherFrom s id keep h e idx n0 n1 n2).1 := by
  induction n0 generalizing s n1 n2 with
  | zero => exact hs
  | succ k ih =>
    unfold State.gatherFrom
    repeat' first
      | with_reducible assumption
      | apply ih
      | with_reducible apply State.putSlice_keeps
      | with_reducible refine State.putSlice_keeps' ?_ (by assumption)
      | (extract_lets +onlyGivenNames x;
         first | (refine Keeps.cut (t := x.1) ?_ (fun hx => ?_); subst x; rotate_left; clear_value x; rotate_right)
               | (subst x; beta_reduce))
      | dsimp -zeta only
      | (intro _)
      | split

theorem State.scatterTo_keeps {lp lq : Bool} {z : State} (s : State) (id : CmdId) (h : MoveHow) (e : MoveEnt) (idx : Nat → Idx) (n : Nat)
    (hs : Keeps lp lq z s) :
    Keeps lp lq z (State.scatterTo s id h e idx n).1 := by
  unfold State.scatterTo
  repeat' first
    | with_reducible assumption
    | with_reducible apply State.putSlice_keeps
    | with_reducible refine State.putSlice_keeps' ?_ (by assumption)
    | with_reducible apply State.writeEach_keeps
    | with_reducible refine State.writeEach_keeps' ?_ (by assumption)
    | (extract_lets +onlyGivenNames x;
       first | (refine Keeps.cut (t := x) ?_ (fun hx => ?_); subst x; rotate_left; clear_value x; rotate_right)
             | (refine Keeps.cut (t := x.1) ?_ (fun hx => ?_); subst x; rotate_left; clear_value x; rotate_right)
             | (refine Keeps.cut (t := x.2) ?_ (fun hx => ?_); subst x; rotate_left; clear_value x; rotate_right)
             | clear_value x)
    | dsimp -zeta only
    | (intro _)
    | split
theorem State.scatterTo_keeps' {lp lq : Bool} {z : State} {s : State} {id : CmdId} {h : MoveHow} {e : MoveEnt} {idx : Nat → Idx} {n : Nat}
    {u' o'} (h : MoveHow) (e : MoveEnt) (idx : Nat → Idx) (n : Nat) (hs : Keeps lp lq z s) (e' : State.scatterTo s id h e idx n =
    (u', o')) : Keeps lp lq z u' := by
  have k := State.scatterTo_keeps (z := z) s id h e idx n hs
  rw [e'] at k; exact k

theorem State.scatterAddTo_keeps {lp lq : Bool} {z : State} (s : State) (id : CmdId) (h : MoveHow) (e : MoveEnt) (idx : Nat → Idx) (n : Nat)
    (hs : Keeps lp lq z s) :
    Keeps lp lq z (State.scatterAddTo s id h e idx n).1 := by
  unfold State.scatterAddTo
  repeat' first
    | with_reducible assumption
    | with_reducible apply State.putRow_keeps
    | with_reducible refine State.putRow_keeps' ?_ (by assumption)
    | with_reducible apply State.writeEach_keeps
    | with_reducible refine State.writeEach_keeps' ?_ (by assumption)
    | with_reducible apply Keeps.foldl
    | with_reducible apply Keeps.foldl_fst
    | with_reducible apply Keeps.foldl_snd
    | (extract_lets +onlyGivenNames x; clear_value x)
    | dsimp -zeta only
    | (intro _)
    | split
theorem State.scatterAddTo_keeps' {lp lq : Bool} {z : State} {s : State} {id : CmdId} {h : MoveHow} {e : MoveEnt} {idx : Nat → Idx} {n :
    Nat} {u' o'} (h : MoveHow) (e : MoveEnt) (idx : Nat → Idx) (n : Nat) (hs : Keeps lp lq z s) (e' : State.scatterAddTo s id h e
    idx n = (u', o')) : Keeps lp lq z u' := by
  have k := State.scatterAddTo_keeps (z := z) s id h e idx n hs
  rw [e'] at k; exact k

theorem State.blockedRow_keeps {lp lq : Bool} {z : State} (s : State) (id : CmdId) (d : List Byte) (h : MoveHow) (e : MoveEnt)
    (idx : Nat → Idx) (n : Nat) (hs : Keeps lp lq z s) :
    Keeps lp lq z (State.blockedRow s id d h e idx n).1 := by
  unfold State.blockedRow
  repeat' first
    | with_reducible assumption
    | with_reducible apply State.blocks_keeps
    | with_reducible apply State.putRow_keeps
    | with_reducible refine State.putRow_keeps' ?_ (by assumption)
    | (extract_lets +onlyGivenNames x;
       first | (refine Keeps.cut (t := x) ?_ (fun hx => ?_); subst x; rotate_left; clear_value x; rotate_right)
             | (refine Keeps.cut (t := x.1) ?_ (fun hx => ?_); subst x; rotate_left; clear_value x; rotate_right)
             | (refine Keeps.cut (t := x.2) ?_ (fun hx => ?_); subst x; rotate_left; clear_value x; rotate_right)
             | clear_value x)
    | dsimp -zeta only
    | (intro _)
    | split
    | assumption
    | fail_if_no_progress refine Keeps.update ?_ rfl rfl rfl
    | (rename_i hq; split at hq <;> first | (cases hq) | skip)
    | (simp_all only; done)
theorem State.blockedRow_keeps' {lp lq : Bool} {z : State} {s : State} {id : CmdId} {d : List Byte} {h : MoveHow} {e : MoveEnt}
    {idx : Nat → Idx} {n : Nat} {u' o'} (hs : Keeps lp lq z s) (e' : State.blockedRow s id d h e idx n = (u', o')) : Keeps lp lq z u' := by
  have k := State.blockedRow_keeps (z := z) s id d h e idx n hs
  rw [e'] at k; exact k

theorem State.moveEntry_keeps {lp lq : Bool} {z : State} (s : State) (id : CmdId) (d : List Byte) (h : MoveHow) (g : Bool)
    (vs : List Nat) (e e0 : MoveEnt) (hs : Keeps lp lq z s) : Keeps lp lq z (State.moveEntry s id d h g vs e e0).1 := by
  unfold State.moveEntry
  dsimp only
  split
  · exact State.blockedRow_keeps s id d h e _ _ hs
  · split
    · exact State.gatherFrom_keeps s id _ _ _ _ h e _ hs
    · split
      · exact State.scatterTo_keeps s id h e _ _ hs
      · exact State.scatterAddTo_keeps s id h e _ _ hs

theorem State.moveIndexed_keeps {lp lq : Bool} {z : State} (s : State) (id : CmdId) (d : List Byte) (h : MoveHow) (g : Bool)
    (vs : List Nat) (es0 : List MoveEnt) (hs : Keeps lp lq z s) : Keeps lp lq z (State.moveIndexed s id d h g vs es0).1 := by
  unfold State.moveIndexed
  refine Keeps.foldl_fst es0 hs fun u x hu => ?_
  dsimp only
  split
  · exact hu
  · exact State.moveEntry_keeps _ id d h g vs _ x hu

theorem State.runIndexed_keeps {lp lq : Bool} {z : State} (s0 : State) (c : Cmd) (i o : Tens) (hs0 : Keeps lp lq z s0) :
    Keeps lp lq z (State.runIndexed s0 c i o) := by
  unfold State.runIndexed
  repeat' first
    | with_reducible assumption
    | with_reducible apply State.moveEnd_keeps
    | refine State.moveHow_keeps (by assumption) ?_
    | with_reducible apply State.moveCount_keeps
    | with_reducible apply State.moveIndexed_keeps
    | with_reducible refine State.moveIndexed_keeps' ?_ (by assumption)
    | with_reducible apply State.finish_keeps
    | with_reducible apply State.failAcc_keeps
    | with_reducible apply State.handle_keeps
    | with_reducible apply Keeps.foldl
    | with_reducible apply Keeps.foldl_fst
    | with_reducible apply Keeps.foldl_snd
    | (extract_lets +onlyGivenNames x;
       first | (refine Keeps.cut (t := x) ?_ (fun hx => ?_); subst x; rotate_left; clear_value x; rotate_right)
             | (refine Keeps.cut (t := x.1) ?_ (fun hx => ?_); subst x; rotate_left; clear_value x; rotate_right)
             | (refine Keeps.cut (t := x.2) ?_ (fun hx => ?_); subst x; rotate_left; clear_value x; rotate_right)
             | clear_value x)
    | dsimp -zeta only
    | (intro _)
    | split
    | assumption
    | fail_if_no_progress refine Keeps.update ?_ rfl rfl rfl
    | (rename_i hq; split at hq <;> first | (cases hq) | skip)
    | (simp_all only; done)

theorem State.runDma_keeps {lp lq : Bool} {z : State} (s : State) (c : Cmd) (i o : Tens) (hs : Keeps lp lq z s) :
    Keeps lp lq z (State.runDma s c i o) := by
  unfold State.runDma
  repeat' first
    | with_reducible assumption
    | with_reducible apply State.writeBytes_keeps
    | with_reducible refine State.writeBytes_keeps' ?_ (by assumption)
    | with_reducible apply State.finish_keeps
    | with_reducible apply State.failAcc_keeps
    | with_reducible apply State.writeEach_keeps
    | with_reducible refine State.writeEach_keeps' ?_ (by assumption)
    | with_reducible apply State.moved_keeps
    | (extract_lets +onlyGivenNames x;
       first | (refine Keeps.cut (t := x) ?_ (fun hx => ?_); subst x; rotate_left; clear_value x; rotate_right)
             | (refine Keeps.cut (t := x.1) ?_ (fun hx => ?_); subst x; rotate_left; clear_value x; rotate_right)
             | (refine Keeps.cut (t := x.2) ?_ (fun hx => ?_); subst x; rotate_left; clear_value x; rotate_right)
             | (subst x; beta_reduce))
    | dsimp -zeta only
    | (intro _)
    | split
    | assumption
    | fail_if_no_progress refine Keeps.update ?_ rfl rfl rfl
    | (rename_i hq; split at hq <;> first | (cases hq) | skip)
    | (simp_all only; done)

end Sys2Proof.Machine
end

