-- ==== Sys2Proof/Laws/KeepsSync.lean ====
section
/-!
SUPPORT. Laws/KeepsSync.lean: the operations of Machine/Sync.lean keep the queue, the memories, the points and the fuses.
-/
set_option Elab.async false
set_option linter.all false
namespace Sys2Proof.Machine

theorem State.onSync_keeps {lp lq : Bool} {z : State} (s : State) (id : CmdId) (op : Nat) (f : Cmd → State) (hs : Keeps lp lq z s) (hf : ∀ a0,
    Keeps lp lq z (f a0)) :
    Keeps lp lq z (State.onSync s id op f) := by
  unfold State.onSync
  repeat' first
    | with_reducible assumption
    | with_reducible apply State.onCmd_keeps

theorem State.discarded_keeps {lp lq : Bool} {z : State} (s : State) (id : CmdId) (ref off : Nat) (hs : Keeps lp lq z s) :
    Keeps lp lq z (State.discarded s id ref off) := by
  unfold State.discarded
  repeat' first
    | with_reducible assumption
    | with_reducible apply State.staleDrop_keeps
    | with_reducible apply State.finish_keeps

theorem State.syncRead_keeps {lp lq : Bool} {z : State} (s : State) (c : Cmd) (v : Nat) (hs : Keeps lp lq z s) :
    Keeps lp lq z (State.syncRead s c v) := by
  unfold State.syncRead
  repeat' first
    | with_reducible assumption
    | with_reducible apply State.writeBytes_keeps
    | with_reducible refine State.writeBytes_keeps' ?_ (by assumption)
    | with_reducible apply State.finish_keeps
    | with_reducible apply State.failAcc_keeps
    | (extract_lets +onlyGivenNames x;
       first | (refine Keeps.cut (t := x.1) ?_ (fun hx => ?_); subst x; rotate_left; clear_value x; rotate_right)
             | clear_value x)
    | dsimp -zeta only
    | (intro _)
    | split

theorem State.syncWatch_keeps {lp : Bool} {z : State} (s : State) (c : Cmd) (act : WatchAct) (hs : Keeps lp false z s) :
    Keeps lp false z (State.syncWatch s c act) := by
  unfold State.syncWatch
  repeat' first
    | with_reducible assumption
    | exact fun _ _ => rfl
    | exact fun h => absurd h Bool.false_ne_true
    | (intro _ _; (try dsimp only); split <;> rfl)
    | with_reducible apply State.updCmd_keeps
    | with_reducible apply State.registerWatch_keeps
    | with_reducible apply State.finish_keeps
    | with_reducible apply State.discarded_keeps
    | (extract_lets +onlyGivenNames x;
       first | (refine Keeps.cut (t := x) ?_ (fun hx => ?_); subst x; rotate_left; clear_value x; rotate_right) | clear_value x)
    | dsimp -zeta only
    | (intro _)
    | split

theorem State.setStart_keeps {lp lq : Bool} {z : State} (s : State) (id : CmdId) (k : Nat) (v : StartSt) (hs : Keeps lp lq z s) :
    Keeps lp lq z (State.setStart s id k v) := by
  unfold State.setStart
  repeat' first
    | with_reducible assumption
    | with_reducible apply State.updQueue_keeps

theorem State.watchWrite_keeps {lp lq : Bool} {z : State} (s : State) (ctx a v : Nat) (hs : Keeps lp lq z s) :
    Keeps lp lq z (State.watchWrite s ctx a v) := by
  unfold State.watchWrite
  repeat' first
    | with_reducible assumption
    | with_reducible apply State.writeBytes_keeps
    | with_reducible refine State.writeBytes_keeps' ?_ (by assumption)
    | with_reducible apply State.staleDrop_keeps
    | with_reducible apply State.addWaiter_keeps
    | with_reducible apply State.ueReportAt_keeps
    | (extract_lets +onlyGivenNames x;
       first | (refine Keeps.cut (t := x) ?_ (fun hx => ?_); subst x; rotate_left; clear_value x; rotate_right)
             | (refine Keeps.cut (t := x.1) ?_ (fun hx => ?_); subst x; rotate_left; clear_value x; rotate_right)
             | (refine Keeps.cut (t := x.2) ?_ (fun hx => ?_); subst x; rotate_left; clear_value x; rotate_right)
             | clear_value x)
    | dsimp -zeta only
    | (intro _)
    | split
    | assumption
    | fail_if_no_progress refine Keeps.update ?_ rfl rfl rfl
    | (rename_i hq; split at hq <;> first | (cases hq) | skip)
    | (simp_all only; done)

theorem State.fire_keeps {lp : Bool} {z : State} (s : State) (w : Watch) (hs : Keeps lp false z s) :
    Keeps lp false z (State.fire s w) := by
  unfold State.fire
  repeat' first
    | with_reducible assumption
    | with_reducible apply State.sendMsg_keeps
    | with_reducible apply State.setStart_keeps
    | with_reducible apply State.watchWrite_keeps
    | dsimp -zeta only
    | (intro _)
    | split

theorem State.resume_keeps {lp : Bool} {z : State} (s : State) (die k : Nat) (r : WaitingReg) (hs : Keeps lp false z s) :
    Keeps lp false z (State.resume s die k r) := by
  unfold State.resume
  extract_lets drop t u
  have ht : Keeps lp false z t := State.updDie_keeps s _ _ hs
  clear_value t
  split
  · split
    · exact State.setStart_keeps _ _ _ _ (State.staleDrop_keeps _ _ ht)
    · exact State.discarded_keeps _ _ _ _ ht
    · exact State.staleDrop_keeps _ _ ht
  · split
    · exact hs
    · rename_i i _
      have hu : Keeps lp false z ((drop s).updDie die fun d => evalWatches { d with watches := d.watches.set i r.watch }) :=
        State.updDie_keeps _ _ _ (State.updDie_keeps s _ _ hs)
      split
      · exact State.setStart_keeps _ _ _ _ hu
      · exact Keeps.elim _ hu fun id => State.finish_keeps _ id _ hu

theorem State.applyMsg_keeps {lp : Bool} {z : State} (s : State) (die : Nat) (m : SyncMsg) (hs : Keeps lp false z s) :
    Keeps lp false z (State.applyMsg s die m) := by
  unfold State.applyMsg
  repeat' first
    | with_reducible assumption
    | with_reducible apply State.addRaw_keeps
    | with_reducible apply State.staleDrop_keeps
    | dsimp -zeta only
    | (intro _)
    | split

theorem State.arriveOne_keeps {lp : Bool} {z : State} (s0 s : State) (id : CmdId) (hs0 : Keeps lp false z s0) (hs : Keeps lp false z s) :
    Keeps lp false z (State.arriveOne s0 s id) := by
  unfold State.arriveOne
  repeat' first
    | with_reducible assumption
    | with_reducible apply State.updDie_keeps
    | with_reducible apply State.pmc_keeps
    | with_reducible apply State.finish_keeps
    | with_reducible apply State.onSync_keeps
    | with_reducible apply State.discarded_keeps
    | (extract_lets +onlyGivenNames x; subst x; beta_reduce)
    | dsimp -zeta only
    | (intro _)
    | split

theorem State.closeRounds_keeps {lp : Bool} {z : State} (s : State) (die p : Nat) (n0 : Nat) (hs : Keeps lp false z s) :
    Keeps lp false z (State.closeRounds s die p n0) := by
  induction n0 generalizing s  with
  | zero => exact hs
  | succ k ih =>
    unfold State.closeRounds
    repeat' first
      | with_reducible assumption
      | apply ih
      | with_reducible apply State.bump_keeps
      | with_reducible apply State.updDie_keeps
      | with_reducible apply State.sendMsg_keeps
      | (extract_lets +onlyGivenNames x;
         first | (refine Keeps.cut (t := x) ?_ (fun hx => ?_); subst x; rotate_left; clear_value x; rotate_right)
               | clear_value x)
      | dsimp -zeta only
      | (intro _)
      | split

theorem State.setMap_keeps {lp lq : Bool} {z : State} (s : State) (d : List Byte) (m : VMap) (hs : Keeps lp lq z s) :
    Keeps lp lq z (State.setMap s d m) := by
  unfold State.setMap
  repeat' first
    | with_reducible assumption
    | with_reducible apply State.updCtx_keeps

theorem State.syncMap_keeps {lp : Bool} {z : State} (s : State) (c : Cmd) (hs : Keeps lp false z s) :
    Keeps lp false z (State.syncMap s c) := by
  unfold State.syncMap
  repeat' first
    | with_reducible assumption
    | with_reducible apply State.updDie_keeps
    | with_reducible apply State.finish_keeps
    | with_reducible apply State.setMap_keeps
    | (extract_lets +onlyGivenNames x;
       first | (refine Keeps.cut (t := x) ?_ (fun hx => ?_); subst x; rotate_left; clear_value x; rotate_right) | clear_value x)
    | dsimp -zeta only
    | (intro _)
    | split

theorem State.syncUnmap_keeps {lp : Bool} {z : State} (s : State) (c : Cmd) (hs : Keeps lp false z s) :
    Keeps lp false z (State.syncUnmap s c) := by
  unfold State.syncUnmap
  repeat' first
    | with_reducible assumption
    | exact fun _ _ => rfl
    | exact fun h => absurd h Bool.false_ne_true
    | (intro _ _; (try dsimp only); split <;> rfl)
    | with_reducible apply State.updDie_keeps
    | with_reducible apply State.updCmd_keeps
    | with_reducible apply State.finish_keeps
    | with_reducible apply State.setMap_keeps
    | (extract_lets +onlyGivenNames x;
       first | (refine Keeps.cut (t := x) ?_ (fun hx => ?_); subst x; rotate_left; clear_value x; rotate_right) | clear_value x)
    | dsimp -zeta only
    | (intro _)
    | split

end Sys2Proof.Machine
end

