-- ==== Sys2Proof/Laws/KeepsTopiary.lean ====
section
/-!
SUPPORT. Laws/KeepsTopiary.lean: the operations of Machine/Topiary.lean keep the queue, the memories, the points and the fuses.
-/
set_option Elab.async false
set_option linter.all false
namespace Sys2Proof.Machine

theorem State.writeGen_keeps {lp lq : Bool} {z : State} (s : State) (id : CmdId) (t : Tens) (h : Nat) (map : Nat → Nat → Nat) (val : Nat →
    Nat → FVal) (hs : Keeps lp lq z s) :
    Keeps lp lq z (State.writeGen s id t h map val).1 := by
  unfold State.writeGen
  repeat' first
    | with_reducible assumption
    | with_reducible apply State.writeTile_keeps
    | with_reducible refine State.writeTile_keeps' ?_ (by assumption)
    | with_reducible apply State.writeEach_keeps
    | with_reducible refine State.writeEach_keeps' ?_ (by assumption)
    | (extract_lets +onlyGivenNames x;
       first | (refine Keeps.cut (t := x) ?_ (fun hx => ?_); subst x; rotate_left; clear_value x; rotate_right)
             | (refine Keeps.cut (t := x.1) ?_ (fun hx => ?_); subst x; rotate_left; clear_value x; rotate_right)
             | (refine Keeps.cut (t := x.2) ?_ (fun hx => ?_); subst x; rotate_left; clear_value x; rotate_right)
             | clear_value x)
    | dsimp -zeta only
    | (intro _)
theorem State.writeGen_keeps' {lp lq : Bool} {z : State} {s : State} {id : CmdId} {t : Tens} {h : Nat} {map : Nat → Nat → Nat} {val : Nat →
    Nat → FVal} {u' o'} (h : Nat) (map : Nat → Nat → Nat) (val : Nat → Nat → FVal) (hs : Keeps lp lq z s) (e' : State.writeGen s id
    t h map val = (u', o')) : Keeps lp lq z u' := by
  have k := State.writeGen_keeps (z := z) s id t h map val hs
  rw [e'] at k; exact k

theorem State.spoil_keeps {lp lq : Bool} {z : State} (s : State) (id : CmdId) (b : TBody) (hs : Keeps lp lq z s) :
    Keeps lp lq z (State.spoil s id b) := by
  unfold State.spoil
  repeat' first
    | with_reducible assumption
    | with_reducible apply State.undefined_keeps
    | (extract_lets +onlyGivenNames x;
       first | (refine Keeps.cut (t := x) ?_ (fun hx => ?_); subst x; rotate_left; clear_value x; rotate_right)
             | (subst x; beta_reduce))
    | dsimp -zeta only
    | (intro _)
    | split

theorem State.topiaryWrite_keeps {lp lq : Bool} {z : State} (s : State) (id : CmdId) (b : TBody) (f : Tens) (src : Option TSource) (bs :
    List Block8) (value : Option (List (List FVal))) (hs : Keeps lp lq z s) :
    Keeps lp lq z (State.topiaryWrite s id b f src bs value).1 := by
  unfold State.topiaryWrite
  repeat' first
    | with_reducible assumption
    | with_reducible apply State.writeBytes_keeps
    | with_reducible refine State.writeBytes_keeps' ?_ (by assumption)
    | with_reducible apply State.writeEach_keeps
    | with_reducible refine State.writeEach_keeps' ?_ (by assumption)
    | with_reducible apply State.writeGen_keeps
    | with_reducible refine State.writeGen_keeps' ?_ (by assumption)
    | with_reducible apply Keeps.foldl
    | with_reducible apply Keeps.foldl_fst
    | with_reducible apply Keeps.foldl_snd
    | (extract_lets +onlyGivenNames x; subst x; beta_reduce)
    | dsimp -zeta only
    | (intro _)
    | split
theorem State.topiaryWrite_keeps' {lp lq : Bool} {z : State} {s : State} {id : CmdId} {b : TBody} {f : Tens} {src : Option TSource} {bs :
    List Block8} {value : Option (List (List FVal))} {u' o'} (hs : Keeps lp lq z s) (e' : State.topiaryWrite s id b f src bs value
    = (u', o')) : Keeps lp lq z u' := by
  have k := State.topiaryWrite_keeps (z := z) s id b f src bs value hs
  rw [e'] at k; exact k

theorem State.topiaryRun_keeps {lp lq : Bool} {z : State} (s : State) (id : CmdId) (b : TBody) (f : Tens) (src : Option TSource) (hs : Keeps lp lq z s) :
    Keeps lp lq z (State.topiaryRun s id b f src) := by
  unfold State.topiaryRun
  repeat' first
    | with_reducible assumption
    | with_reducible apply State.flagSaturated_keeps
    | with_reducible apply State.finish_keeps
    | with_reducible apply State.finishOk_keeps
    | with_reducible apply State.qcount_keeps
    | with_reducible apply State.failAcc_keeps
    | with_reducible apply State.spoil_keeps
    | with_reducible apply State.topiaryWrite_keeps
    | with_reducible refine State.topiaryWrite_keeps' ?_ (by assumption)
    | (extract_lets +onlyGivenNames x;
       first | (refine Keeps.cut (t := x) ?_ (fun hx => ?_); subst x; rotate_left; clear_value x; rotate_right)
             | (refine Keeps.cut (t := x.1) ?_ (fun hx => ?_); subst x; rotate_left; clear_value x; rotate_right)
             | clear_value x)
    | dsimp -zeta only
    | (intro _)
    | split

theorem State.topiaryStep_keeps {lp lq : Bool} {z : State} (s : State) (c : Cmd) (hs : Keeps lp lq z s) :
    Keeps lp lq z (State.topiaryStep s c) := by
  unfold State.topiaryStep
  repeat' first
    | with_reducible assumption
    | exact fun _ _ => rfl
    | exact fun h => absurd h Bool.false_ne_true
    | (intro _ _; (try dsimp only); split <;> rfl)
    | with_reducible apply State.updCmd_keeps
    | with_reducible apply State.finish_keeps
    | with_reducible apply State.failAcc_keeps
    | with_reducible apply State.topiaryRun_keeps
    | (extract_lets +onlyGivenNames x; clear_value x)
    | dsimp -zeta only
    | (intro _)
    | split

end Sys2Proof.Machine
end

