-- ==== Sys2Proof/Laws/KeepsSteps.lean ====
section
/-!
SUPPORT. Laws/KeepsSteps.lean: the operations of Machine/Steps.lean keep the queue, the memories, the points and the fuses.
-/
set_option Elab.async false
set_option linter.all false
namespace Sys2Proof.Machine

theorem State.updPort_keeps {z : State} (s : State) (p : Nat) (f : PortSt → PortSt) (hs : Keeps false false z s) :
    Keeps false false z (State.updPort s p f) := by
  unfold State.updPort
  repeat' first
    | with_reducible assumption
    | (extract_lets +onlyGivenNames x; clear_value x)
    | dsimp -zeta only
    | (intro _)
    | split
    | assumption
    | fail_if_no_progress refine Keeps.change ?_ rfl rfl rfl rfl rfl rfl rfl rfl rfl

theorem State.setFabric_keeps {z : State} (s : State) (f : FabricSt → FabricSt) (hs : Keeps false false z s) :
    Keeps false false z (State.setFabric s f) := by
  unfold State.setFabric
  repeat' first
    | with_reducible assumption
    | dsimp -zeta only
    | (intro _)
    | split
    | assumption
    | fail_if_no_progress refine Keeps.change ?_ rfl rfl rfl rfl rfl rfl rfl rfl rfl

theorem State.holdover_keeps {z : State} (s : State) (hs : Keeps false false z s) :
    Keeps false false z (State.holdover s) := by
  unfold State.holdover
  repeat' first
    | with_reducible assumption
    | (extract_lets +onlyGivenNames x; clear_value x)
    | dsimp -zeta only
    | (intro _)
    | split
    | assumption
    | fail_if_no_progress refine Keeps.change ?_ rfl rfl rfl rfl rfl rfl rfl rfl rfl

theorem State.logPort_keeps {lp lq : Bool} {z : State} (s : State) (p : Nat) (hs : Keeps lp lq z s) :
    Keeps lp lq z (State.logPort s p) := by
  unfold State.logPort
  repeat' first
    | with_reducible assumption
    | with_reducible apply State.logTrace_keeps

theorem State.setMode_keeps {z : State} (s : State) (p : Nat) (m : PortMode) (hs : Keeps false false z s) :
    Keeps false false z (State.setMode s p m) := by
  unfold State.setMode
  repeat' first
    | with_reducible assumption
    | with_reducible apply State.updPort_keeps
    | with_reducible apply State.logPort_keeps

theorem State.portDown_keeps {z : State} (s : State) (p reason : Nat) (hs : Keeps false false z s) :
    Keeps false false z (State.portDown s p reason) := by
  unfold State.portDown
  repeat' first
    | with_reducible assumption
    | with_reducible apply State.updPort_keeps
    | with_reducible apply State.holdover_keeps
    | with_reducible apply State.logPort_keeps
    | (extract_lets +onlyGivenNames x;
       first | (refine Keeps.cut (t := x) ?_ (fun hx => ?_); subst x; rotate_left; clear_value x; rotate_right) | clear_value x)
    | dsimp -zeta only
    | (intro _)
    | split

theorem State.setSteps_keeps {z : State} (s : State) (f : StepSt → StepSt) (hs : Keeps false false z s) :
    Keeps false false z (State.setSteps s f) := by
  unfold State.setSteps
  repeat' first
    | with_reducible assumption
    | dsimp -zeta only
    | (intro _)
    | split
    | assumption
    | fail_if_no_progress refine Keeps.change ?_ rfl rfl rfl rfl rfl rfl rfl rfl rfl

theorem State.updUpd_keeps {z : State} (s : State) (d : Nat) (f : UpdDie → UpdDie) (hs : Keeps false false z s) :
    Keeps false false z (State.updUpd s d f) := by
  unfold State.updUpd
  repeat' first
    | with_reducible assumption
    | dsimp -zeta only
    | (intro _)
    | split
    | assumption
    | fail_if_no_progress refine Keeps.change ?_ rfl rfl rfl rfl rfl rfl rfl rfl rfl

theorem State.raise_keeps {z : State} (s : State) (t bit : Nat) (hs : Keeps false false z s) :
    Keeps false false z (State.raise s t bit) := by
  unfold State.raise
  repeat' first
    | with_reducible assumption
    | with_reducible apply State.setSteps_keeps
    | (extract_lets +onlyGivenNames x; clear_value x)
    | dsimp -zeta only
    | (intro _)
    | split

theorem State.raiseFault_keeps {z : State} (s : State) (hs : Keeps false false z s) :
    Keeps false false z (State.raiseFault s) := by
  unfold State.raiseFault
  repeat' first
    | with_reducible assumption
    | with_reducible apply State.raise_keeps

end Sys2Proof.Machine
end

