-- ==== Sys2Proof/Laws/KeepsPorts.lean ====
section
/-!
SUPPORT. Laws/KeepsPorts.lean: the operations of Machine/Ports.lean keep the queue, the memories, the points and the fuses.
-/
set_option Elab.async false
set_option linter.all false
namespace Sys2Proof.Machine

theorem State.bringUp_keeps {z : State} (s : State) (p : Nat) (hs : Keeps false false z s) :
    Keeps false false z (State.bringUp s p) := by
  unfold State.bringUp
  repeat' first
    | with_reducible assumption
    | with_reducible apply State.setMode_keeps
    | with_reducible apply State.portDown_keeps
    | dsimp -zeta only
    | (intro _)
    | split

theorem State.portEnable_keeps {z : State} (s : State) (p : Nat) (was on : Bool) (hs : Keeps false false z s) :
    Keeps false false z (State.portEnable s p was on) := by
  unfold State.portEnable
  repeat' first
    | with_reducible assumption
    | with_reducible apply State.bringUp_keeps
    | with_reducible apply State.portDown_keeps
    | dsimp -zeta only
    | (intro _)
    | split

theorem State.nodeEffect_keeps {z : State} (s : State) (old : Nat) (hs : Keeps false false z s) :
    Keeps false false z (State.nodeEffect s old) := by
  unfold State.nodeEffect
  repeat' first
    | with_reducible assumption
    | with_reducible apply State.bringUp_keeps
    | with_reducible apply Keeps.foldl
    | with_reducible apply Keeps.foldl_fst
    | with_reducible apply Keeps.foldl_snd
    | dsimp -zeta only
    | (intro _)
    | split

theorem State.inMode_keeps {lp lq : Bool} {z : State} (s : State) (p : Nat) (m : PortMode) (f : State) (hs : Keeps lp lq z s) (hf : Keeps lp lq z f) :
    Keeps lp lq z (State.inMode s p m f) := by
  unfold State.inMode
  repeat' first
    | with_reducible assumption
    | dsimp -zeta only
    | (intro _)
    | split

theorem State.nextDraw_keeps {z : State} (s : State) (hs : Keeps false false z s) :
    Keeps false false z (State.nextDraw s).2 := by
  unfold State.nextDraw
  repeat' first
    | with_reducible assumption
    | (extract_lets +onlyGivenNames x;
       first | (refine Keeps.cut (t := x) ?_ (fun hx => ?_); subst x; rotate_left; clear_value x; rotate_right)
             | (refine Keeps.cut (t := x.1) ?_ (fun hx => ?_); subst x; rotate_left; clear_value x; rotate_right)
             | (refine Keeps.cut (t := x.2) ?_ (fun hx => ?_); subst x; rotate_left; clear_value x; rotate_right)
             | (subst x; beta_reduce))
    | dsimp -zeta only
    | (intro _)
    | split
    | assumption
    | fail_if_no_progress refine Keeps.change ?_ rfl rfl rfl rfl rfl rfl rfl rfl rfl
    | fail_if_no_progress refine Keeps.inPlane ?_ rfl rfl
    | (rename_i hq; split at hq <;> first | (cases hq) | skip)
    | (simp_all only; done)
theorem State.nextDraw_keeps' {z : State} {s : State} {o' u'} (hs : Keeps false false z s) (e' : State.nextDraw s = (o', u')) :
    Keeps false false z u' := by
  have k := State.nextDraw_keeps (z := z) s hs
  rw [e'] at k; exact k

theorem State.sendMgmt_keeps {z : State} (s : State) (p : Nat) (m : MgmtOut) (hs : Keeps false false z s) :
    Keeps false false z (State.sendMgmt s p m) := by
  unfold State.sendMgmt
  repeat' first
    | with_reducible assumption
    | with_reducible apply State.updPort_keeps
    | (extract_lets +onlyGivenNames x;
       first | (refine Keeps.cut (t := x) ?_ (fun hx => ?_); subst x; rotate_left; clear_value x; rotate_right)
             | (refine Keeps.cut (t := x.1) ?_ (fun hx => ?_); subst x; rotate_left; clear_value x; rotate_right)
             | (refine Keeps.cut (t := x.2) ?_ (fun hx => ?_); subst x; rotate_left; clear_value x; rotate_right)
             | clear_value x)
    | dsimp -zeta only
    | (intro _)
    | split
    | assumption
    | fail_if_no_progress refine Keeps.change ?_ rfl rfl rfl rfl rfl rfl rfl rfl rfl
    | fail_if_no_progress refine Keeps.inPlane ?_ rfl rfl
    | (rename_i hq; split at hq <;> first | (cases hq) | skip)
    | (simp_all only; done)

theorem State.beginAuth_keeps {z : State} (s : State) (p : Nat) (hs : Keeps false false z s) :
    Keeps false false z (State.beginAuth s p) := by
  unfold State.beginAuth
  repeat' first
    | with_reducible assumption
    | with_reducible apply State.nextDraw_keeps
    | with_reducible refine State.nextDraw_keeps' ?_ (by assumption)
    | with_reducible apply State.sendMgmt_keeps
    | with_reducible apply State.updPort_keeps
    | with_reducible apply State.setMode_keeps
    | (extract_lets +onlyGivenNames x;
       first | (refine Keeps.cut (t := x) ?_ (fun hx => ?_); subst x; rotate_left; clear_value x; rotate_right)
             | (refine Keeps.cut (t := x.1) ?_ (fun hx => ?_); subst x; rotate_left; clear_value x; rotate_right)
             | (refine Keeps.cut (t := x.2) ?_ (fun hx => ?_); subst x; rotate_left; clear_value x; rotate_right)
             | clear_value x)
    | dsimp -zeta only
    | (intro _)
    | split
    | assumption
    | fail_if_no_progress refine Keeps.change ?_ rfl rfl rfl rfl rfl rfl rfl rfl rfl
    | fail_if_no_progress refine Keeps.inPlane ?_ rfl rfl
    | (rename_i hq; split at hq <;> first | (cases hq) | skip)
    | (simp_all only; done)

theorem State.installKeys_keeps {z : State} (s : State) (p : Nat) (k : LinkKey × LinkKey) (hs : Keeps false false z s) :
    Keeps false false z (State.installKeys s p k) := by
  unfold State.installKeys
  repeat' first
    | with_reducible assumption
    | with_reducible apply State.wr_keeps
    | with_reducible apply State.updPort_keeps
    | (extract_lets +onlyGivenNames x;
       first | (refine Keeps.cut (t := x) ?_ (fun hx => ?_); subst x; rotate_left; clear_value x; rotate_right)
             | (refine Keeps.cut (t := x.1) ?_ (fun hx => ?_); subst x; rotate_left; clear_value x; rotate_right)
             | (refine Keeps.cut (t := x.2) ?_ (fun hx => ?_); subst x; rotate_left; clear_value x; rotate_right)
             | clear_value x)
    | dsimp -zeta only
    | (intro _)
    | split
    | assumption
    | fail_if_no_progress refine Keeps.change ?_ rfl rfl rfl rfl rfl rfl rfl rfl rfl
    | fail_if_no_progress refine Keeps.inPlane ?_ rfl rfl
    | (rename_i hq; split at hq <;> first | (cases hq) | skip)
    | (simp_all only; done)

theorem State.authenticate_keeps {z : State} (s : State) (p : Nat) (peer : Nat × Nat) (verified : Bool)
    (hs : Keeps false false z s) : Keeps false false z (State.authenticate s p peer verified) := by
  unfold State.authenticate
  repeat' first
    | with_reducible assumption
    | with_reducible apply State.installKeys_keeps
    | with_reducible apply State.updPort_keeps
    | with_reducible apply State.setMode_keeps
    | with_reducible apply State.portDown_keeps
    | (extract_lets +onlyGivenNames x;
       first | (refine Keeps.cut (t := x) ?_ (fun hx => ?_); subst x; rotate_left; clear_value x; rotate_right)
             | (refine Keeps.cut (t := x.1) ?_ (fun hx => ?_); subst x; rotate_left; clear_value x; rotate_right)
             | (refine Keeps.cut (t := x.2) ?_ (fun hx => ?_); subst x; rotate_left; clear_value x; rotate_right)
             | (subst x; beta_reduce))
    | dsimp -zeta only
    | (intro _)
    | split
    | assumption
    | fail_if_no_progress refine Keeps.change ?_ rfl rfl rfl rfl rfl rfl rfl rfl rfl
    | fail_if_no_progress refine Keeps.inPlane ?_ rfl rfl
    | (rename_i hq; split at hq <;> first | (cases hq) | skip)
    | (simp_all only; done)

theorem State.measured_keeps {z : State} (s : State) (p delay : Nat) (hs : Keeps false false z s) :
    Keeps false false z (State.measured s p delay) := by
  unfold State.measured
  repeat' first
    | with_reducible assumption
    | with_reducible apply State.updPort_keeps
    | with_reducible apply State.setMode_keeps
    | with_reducible apply State.portDown_keeps
    | (extract_lets +onlyGivenNames x;
       first | (refine Keeps.cut (t := x) ?_ (fun hx => ?_); subst x; rotate_left; clear_value x; rotate_right)
             | (refine Keeps.cut (t := x.1) ?_ (fun hx => ?_); subst x; rotate_left; clear_value x; rotate_right)
             | (refine Keeps.cut (t := x.2) ?_ (fun hx => ?_); subst x; rotate_left; clear_value x; rotate_right)
             | clear_value x)
    | dsimp -zeta only
    | (intro _)
    | split
    | assumption
    | fail_if_no_progress refine Keeps.change ?_ rfl rfl rfl rfl rfl rfl rfl rfl rfl
    | fail_if_no_progress refine Keeps.inPlane ?_ rfl rfl
    | (rename_i hq; split at hq <;> first | (cases hq) | skip)
    | (simp_all only; done)

theorem State.adoptFailover_keeps {z : State} (s : State) (frame : Nat) (hs : Keeps false false z s) :
    Keeps false false z (State.adoptFailover s frame) := by
  unfold State.adoptFailover
  repeat' first
    | with_reducible assumption
    | with_reducible apply State.setFabric_keeps
    | dsimp -zeta only
    | (intro _)
    | split

theorem State.propose_keeps {z : State} (s : State) (hs : Keeps false false z s) :
    Keeps false false z (State.propose s) := by
  unfold State.propose
  repeat' first
    | with_reducible assumption
    | with_reducible apply State.adoptFailover_keeps
    | dsimp -zeta only
    | (intro _)
    | split

theorem State.portFailed_keeps {z : State} (s : State) (p : Nat) (hs : Keeps false false z s) :
    Keeps false false z (State.portFailed s p) := by
  unfold State.portFailed
  repeat' first
    | with_reducible assumption
    | with_reducible apply State.faultRecord_keeps
    | with_reducible apply State.propose_keeps
    | with_reducible apply State.portDown_keeps

theorem State.askRekey_keeps {z : State} (s : State) (p : Nat) (hs : Keeps false false z s) :
    Keeps false false z (State.askRekey s p) := by
  unfold State.askRekey
  repeat' first
    | with_reducible assumption
    | with_reducible apply State.updPort_keeps
    | dsimp -zeta only
    | (intro _)
    | split

theorem State.deriveRekey_keeps {z : State} (s : State) (p : Nat) (secret transcript : List Byte) (switch : Option Nat) (m :
    MgmtOut) (hs : Keeps false false z s) :
    Keeps false false z (State.deriveRekey s p secret transcript switch m) := by
  unfold State.deriveRekey
  repeat' first
    | with_reducible assumption
    | with_reducible apply State.sendMgmt_keeps
    | with_reducible apply State.updPort_keeps
    | (extract_lets +onlyGivenNames x;
       first | (refine Keeps.cut (t := x) ?_ (fun hx => ?_); subst x; rotate_left; clear_value x; rotate_right)
             | (refine Keeps.cut (t := x.1) ?_ (fun hx => ?_); subst x; rotate_left; clear_value x; rotate_right)
             | (refine Keeps.cut (t := x.2) ?_ (fun hx => ?_); subst x; rotate_left; clear_value x; rotate_right)
             | clear_value x)
    | dsimp -zeta only
    | (intro _)
    | split
    | assumption
    | fail_if_no_progress refine Keeps.change ?_ rfl rfl rfl rfl rfl rfl rfl rfl rfl
    | fail_if_no_progress refine Keeps.inPlane ?_ rfl rfl
    | (rename_i hq; split at hq <;> first | (cases hq) | skip)
    | (simp_all only; done)

theorem State.keySwitch_keeps {z : State} (s : State) (p : Nat) (hs : Keeps false false z s) :
    Keeps false false z (State.keySwitch s p) := by
  unfold State.keySwitch
  repeat' first
    | with_reducible assumption
    | with_reducible apply State.wr_keeps
    | with_reducible apply State.bump_keeps
    | with_reducible apply State.logTrace_keeps
    | with_reducible apply State.updPort_keeps
    | (extract_lets +onlyGivenNames x;
       refine Keeps.cut (t := x) ?_ (fun hx => ?_); subst x; rotate_left; clear_value x; rotate_right)
    | dsimp -zeta only
    | (intro _)
    | split

theorem State.roleChange_keeps {z : State} (s : State) (hs : Keeps false false z s) :
    Keeps false false z (State.roleChange s) := by
  unfold State.roleChange
  repeat' first
    | with_reducible assumption
    | with_reducible apply State.holdover_keeps
    | (extract_lets +onlyGivenNames x; clear_value x)
    | dsimp -zeta only
    | (intro _)
    | split
    | assumption
    | fail_if_no_progress refine Keeps.change ?_ rfl rfl rfl rfl rfl rfl rfl rfl rfl

theorem State.timeSetTo_keeps {z : State} (s : State) (v : Nat) (hs : Keeps false false z s) :
    Keeps false false z (State.timeSetTo s v) := by
  unfold State.timeSetTo
  repeat' first
    | with_reducible assumption
    | with_reducible apply State.free_keeps
    | with_reducible refine State.free_keeps' ?_ (by assumption)
    | (extract_lets +onlyGivenNames x; clear_value x)
    | dsimp -zeta only
    | (intro _)
    | split
    | assumption
    | fail_if_no_progress refine Keeps.change ?_ rfl rfl rfl rfl rfl rfl rfl rfl rfl

theorem State.parentChange_keeps {z : State} (s : State) (old : Nat) (hs : Keeps false false z s) :
    Keeps false false z (State.parentChange s old) := by
  unfold State.parentChange
  repeat' first
    | with_reducible assumption
    | with_reducible apply State.holdover_keeps
    | (extract_lets +onlyGivenNames x;
       first | (refine Keeps.cut (t := x) ?_ (fun hx => ?_); subst x; rotate_left; clear_value x; rotate_right)
             | (subst x; beta_reduce))
    | dsimp -zeta only
    | (intro _)
    | split
    | assumption
    | fail_if_no_progress refine Keeps.change ?_ rfl rfl rfl rfl rfl rfl rfl rfl rfl

end Sys2Proof.Machine
end

