-- ==== Sys2Proof/Laws/KeepsFabric.lean ====
section
/-!
SUPPORT. Laws/KeepsFabric.lean: the operations of Machine/Fabric.lean keep the queue, the memories, the points and the fuses.
-/
set_option Elab.async false
set_option linter.all false
namespace Sys2Proof.Machine

theorem State.loadTable_keeps {z : State} (s : State) (id : CmdId) (h : Nat) (img : List Byte) (hs : Keeps false false z s) :
    Keeps false false z (State.loadTable s id h img) := by
  unfold State.loadTable
  repeat' first
    | with_reducible assumption
    | with_reducible apply State.finish_keeps
    | with_reducible apply State.setFabric_keeps
    | (extract_lets +onlyGivenNames x; clear_value x)
    | dsimp -zeta only
    | (intro _)
    | split

theorem State.slotTableLoad_keeps {z : State} (s : State) (c : Cmd) (hs : Keeps false false z s) :
    Keeps false false z (State.slotTableLoad s c) := by
  unfold State.slotTableLoad
  repeat' first
    | with_reducible assumption
    | with_reducible apply State.loadTable_keeps
    | with_reducible apply State.finish_keeps
    | with_reducible apply State.failAcc_keeps
    | with_reducible apply State.moved_keeps
    | (extract_lets +onlyGivenNames x; clear_value x)
    | dsimp -zeta only
    | (intro _)
    | split

theorem State.slotTableSwitch_keeps {z : State} (s : State) (c : Cmd) (hs : Keeps false false z s) :
    Keeps false false z (State.slotTableSwitch s c) := by
  unfold State.slotTableSwitch
  repeat' first
    | with_reducible assumption
    | exact fun _ _ => rfl
    | exact fun h => absurd h Bool.false_ne_true
    | (intro _ _; (try dsimp only); split <;> rfl)
    | with_reducible apply State.updCmd_keeps
    | with_reducible apply State.finish_keeps
    | with_reducible apply State.setFabric_keeps
    | (extract_lets +onlyGivenNames x; clear_value x)
    | dsimp -zeta only
    | (intro _)
    | split

theorem State.errSwap_keeps {lp lq : Bool} {z : State} (s : State) (ctx h : Nat) (flip : Bool) (hs : Keeps lp lq z s) :
    Keeps lp lq z (State.errSwap s ctx h flip) := by
  unfold State.errSwap
  repeat' first
    | with_reducible assumption
    | with_reducible apply State.writeBytes_keeps
    | with_reducible refine State.writeBytes_keeps' ?_ (by assumption)
    | (extract_lets +onlyGivenNames x; clear_value x)
    | dsimp -zeta only
    | (intro _)
    | split

theorem State.settleSend_keeps {lp lq : Bool} {z : State} (s : State) (id : CmdId) (hs : Keeps lp lq z s) :
    Keeps lp lq z (State.settleSend s id) := by
  unfold State.settleSend
  repeat' first
    | with_reducible assumption
    | with_reducible apply State.errSwap_keeps
    | with_reducible apply State.finish_keeps
    | (extract_lets +onlyGivenNames x;
       refine Keeps.cut (t := x) ?_ (fun hx => ?_); subst x; rotate_left; clear_value x; rotate_right)
    | dsimp -zeta only
    | (intro _)
    | split

theorem State.settleSends_keeps {lp lq : Bool} {z : State} (s : State) (hs : Keeps lp lq z s) :
    Keeps lp lq z (State.settleSends s) := by
  unfold State.settleSends
  repeat' first
    | with_reducible assumption
    | with_reducible apply State.settleSend_keeps
    | with_reducible apply Keeps.foldl
    | with_reducible apply Keeps.foldl_fst
    | with_reducible apply Keeps.foldl_snd
    | dsimp -zeta only
    | (intro _)

theorem State.stopSend_keeps {z : State} (s : State) (id : CmdId) (e : Ending) (hs : Keeps false false z s) :
    Keeps false false z (State.stopSend s id e) := by
  unfold State.stopSend
  repeat' first
    | with_reducible assumption
    | with_reducible apply State.finish_keeps
    | with_reducible apply State.setFabric_keeps

theorem State.dropStale_keeps {z : State} (s : State) (t : SlotTable) (begun : Bool) (hs : Keeps false false z s) :
    Keeps false false z (State.dropStale s t begun) := by
  unfold State.dropStale
  repeat' first
    | with_reducible assumption
    | with_reducible apply State.stopSend_keeps
    | with_reducible apply State.setFabric_keeps
    | with_reducible apply Keeps.foldl
    | with_reducible apply Keeps.foldl_fst
    | with_reducible apply Keeps.foldl_snd
    | (extract_lets +onlyGivenNames x; clear_value x)
    | dsimp -zeta only
    | (intro _)
    | split

theorem State.switchNow_keeps {z : State} (s : State) (q : PendingSwitch) (t : SlotTable) (hs : Keeps false false z s) :
    Keeps false false z (State.switchNow s q t) := by
  unfold State.switchNow
  repeat' first
    | with_reducible assumption
    | with_reducible apply State.dropStale_keeps
    | with_reducible apply State.logTrace_keeps
    | with_reducible apply State.finish_keeps
    | with_reducible apply State.setFabric_keeps
    | with_reducible apply Keeps.elim
    | (extract_lets +onlyGivenNames x;
       refine Keeps.cut (t := x) ?_ (fun hx => ?_); subst x; rotate_left; clear_value x; rotate_right)
    | dsimp -zeta only
    | (intro _)
    | split

theorem State.tableSwitch_keeps {z : State} (s : State) (failover : Bool) (hs : Keeps false false z s) :
    Keeps false false z (State.tableSwitch s failover) := by
  unfold State.tableSwitch
  repeat' first
    | with_reducible assumption
    | with_reducible apply State.switchNow_keeps
    | dsimp -zeta only
    | (intro _)
    | split

theorem State.enqueue_keeps {z : State} (s : State) (id : CmdId) (flow type : Nat) (be : Option Nat) (window : Option (Nat ×
    Nat)) (batch : Option BatchKey) (ps : List (Nat × List Byte)) (hs : Keeps false false z s) :
    Keeps false false z (State.enqueue s id flow type be window batch ps) := by
  unfold State.enqueue
  repeat' first
    | with_reducible assumption
    | with_reducible apply State.setFabric_keeps
    | with_reducible apply Keeps.elim
    | (extract_lets +onlyGivenNames x; clear_value x)
    | dsimp -zeta only
    | (intro _)
    | split

theorem State.fabricSend_keeps {z : State} (s : State) (c : Cmd) (hs : Keeps false false z s) :
    Keeps false false z (State.fabricSend s c) := by
  unfold State.fabricSend
  repeat' first
    | with_reducible assumption
    | exact fun _ _ => rfl
    | exact fun h => absurd h Bool.false_ne_true
    | (intro _ _; (try dsimp only); split <;> rfl)
    | with_reducible apply State.settleSend_keeps
    | with_reducible apply State.enqueue_keeps
    | with_reducible apply State.updCmd_keeps
    | with_reducible apply State.failAcc_keeps
    | with_reducible apply State.signal_keeps
    | with_reducible apply State.moved_keeps
    | (extract_lets +onlyGivenNames x; subst x; beta_reduce)
    | dsimp -zeta only
    | (intro _)
    | split

theorem State.setErrUnits_keeps {z : State} (s : State) (ctx addr : Nat) (us : List (Option Int)) (hs : Keeps false false z s) :
    Keeps false false z (State.setErrUnits s ctx addr us) := by
  unfold State.setErrUnits
  repeat' first
    | with_reducible assumption
    | with_reducible apply State.setSteps_keeps
    | (extract_lets +onlyGivenNames x;
       first | (refine Keeps.cut (t := x) ?_ (fun hx => ?_); subst x; rotate_left; clear_value x; rotate_right)
             | (refine Keeps.cut (t := x.1) ?_ (fun hx => ?_); subst x; rotate_left; clear_value x; rotate_right)
             | (refine Keeps.cut (t := x.2) ?_ (fun hx => ?_); subst x; rotate_left; clear_value x; rotate_right)
             | clear_value x)
    | dsimp -zeta only
    | (intro _)
    | split
    | assumption
    | fail_if_no_progress refine Keeps.change ?_ rfl rfl rfl rfl rfl rfl rfl rfl rfl
    | fail_if_no_progress refine Keeps.inPlane ?_ rfl rfl
    | (rename_i hq; split at hq <;> first | (cases hq) | skip)
    | (simp_all only; done)

theorem State.storeTerms_keeps {z : State} (s : State) (id : CmdId) (e : Tens) (cur elems : Nat) (terms : List ErrTerm) (upd :
    Option Nat) (hs : Keeps false false z s) :
    Keeps false false z (State.storeTerms s id e cur elems terms upd).1 := by
  unfold State.storeTerms
  repeat' first
    | with_reducible assumption
    | with_reducible apply State.setErrUnits_keeps
    | with_reducible apply State.writeBytes_keeps
    | with_reducible refine State.writeBytes_keeps' ?_ (by assumption)
    | with_reducible apply State.handle_keeps
    | with_reducible apply State.setSteps_keeps
    | (extract_lets +onlyGivenNames x;
       first | (refine Keeps.cut (t := x) ?_ (fun hx => ?_); subst x; rotate_left; clear_value x; rotate_right)
             | (refine Keeps.cut (t := x.1) ?_ (fun hx => ?_); subst x; rotate_left; clear_value x; rotate_right)
             | (refine Keeps.cut (t := x.2) ?_ (fun hx => ?_); subst x; rotate_left; clear_value x; rotate_right)
             | (subst x; beta_reduce))
    | dsimp -zeta only
    | (intro _)
    | split
    | assumption
    | fail_if_no_progress refine Keeps.change ?_ rfl rfl rfl rfl rfl rfl rfl rfl rfl
    | fail_if_no_progress refine Keeps.inPlane ?_ rfl rfl
    | (rename_i hq; split at hq <;> first | (cases hq) | skip)
    | (simp_all only; done)
theorem State.storeTerms_keeps' {z : State} {s : State} {id : CmdId} {e : Tens} {cur elems : Nat} {terms : List ErrTerm} {upd :
    Option Nat} {u' o'} (hs : Keeps false false z s) (e' : State.storeTerms s id e cur elems terms upd = (u', o')) : Keeps false false z u' := by
  have k := State.storeTerms_keeps (z := z) s id e cur elems terms upd hs
  rw [e'] at k; exact k

theorem State.contribution_keeps {z : State} {s : State} {c : Cmd} {src : Tens} {step : Option Nat} {u' v'} (e' :
    State.contribution s c src step = .ok (v', u')) (hs : Keeps false false z s) : Keeps false false z u' := by
  unfold State.contribution at e'
  try dsimp only at e'
  repeat' split at e'
  all_goals first | cases e' | skip
  all_goals
    repeat' first
      | with_reducible assumption
      | with_reducible apply State.storeTerms_keeps
      | with_reducible refine State.storeTerms_keeps' ?_ (by assumption)
      | (extract_lets +onlyGivenNames x;
         first | (refine Keeps.cut (t := x) ?_ (fun hx => ?_); subst x; rotate_left; clear_value x; rotate_right)
               | (refine Keeps.cut (t := x.1) ?_ (fun hx => ?_); subst x; rotate_left; clear_value x; rotate_right)
               | (refine Keeps.cut (t := x.2) ?_ (fun hx => ?_); subst x; rotate_left; clear_value x; rotate_right)
               | clear_value x)
      | dsimp -zeta only
      | (intro _)
      | split
      | assumption
      | fail_if_no_progress refine Keeps.change ?_ rfl rfl rfl rfl rfl rfl rfl rfl rfl
      | fail_if_no_progress refine Keeps.inPlane ?_ rfl rfl
      | (rename_i hq; split at hq <;> first | (cases hq) | skip)
      | (simp_all only; done)

theorem State.collective_keeps {z : State} (s : State) (c : Cmd) (hs : Keeps false false z s) :
    Keeps false false z (State.collective s c) := by
  unfold State.collective
  repeat' first
    | with_reducible assumption
    | exact fun _ _ => rfl
    | exact fun h => absurd h Bool.false_ne_true
    | (intro _ _; (try dsimp only); split <;> rfl)
    | with_reducible apply State.settleSend_keeps
    | with_reducible apply State.enqueue_keeps
    | refine State.contribution_keeps (by assumption) ?_
    | with_reducible apply State.updCmd_keeps
    | with_reducible apply State.finish_keeps
    | with_reducible apply State.failAcc_keeps
    | with_reducible apply State.moved_keeps
    | (extract_lets +onlyGivenNames x; subst x; beta_reduce)
    | dsimp -zeta only
    | (intro _)
    | split

theorem State.zeroTerms_keeps {lp lq : Bool} {z : State} (s : State) (x : Acc) (base buf n : Nat) (map : List Byte) (hs : Keeps lp lq z s) :
    Keeps lp lq z (State.zeroTerms s x base buf n map) := by
  unfold State.zeroTerms
  repeat' first
    | with_reducible assumption
    | with_reducible apply State.writeBytes_keeps
    | with_reducible refine State.writeBytes_keeps' ?_ (by assumption)
    | with_reducible apply Keeps.foldl
    | with_reducible apply Keeps.foldl_fst
    | with_reducible apply Keeps.foldl_snd
    | (extract_lets +onlyGivenNames x; clear_value x)
    | dsimp -zeta only
    | (intro _)
    | split

theorem State.swapTerms_keeps {lp lq : Bool} {z : State} (s : State) (w : Swap) (commit : Bool) (hs : Keeps lp lq z s) :
    Keeps lp lq z (State.swapTerms s w commit) := by
  unfold State.swapTerms
  repeat' first
    | with_reducible assumption
    | with_reducible apply State.errSwap_keeps
    | with_reducible apply State.zeroTerms_keeps
    | with_reducible apply State.writeBytes_keeps
    | with_reducible refine State.writeBytes_keeps' ?_ (by assumption)
    | with_reducible apply State.handle_keeps
    | (extract_lets +onlyGivenNames x;
       first | (refine Keeps.cut (t := x) ?_ (fun hx => ?_); subst x; rotate_left; clear_value x; rotate_right) | clear_value x)
    | dsimp -zeta only
    | (intro _)
    | split

theorem State.swapAll_keeps {z : State} (s : State) (t : Nat) (commit : Bool) (hs : Keeps false false z s) :
    Keeps false false z (State.swapAll s t commit) := by
  unfold State.swapAll
  repeat' first
    | with_reducible assumption
    | with_reducible apply State.swapTerms_keeps
    | with_reducible apply State.setSteps_keeps
    | with_reducible apply Keeps.foldl
    | with_reducible apply Keeps.foldl_fst
    | with_reducible apply Keeps.foldl_snd
    | (extract_lets +onlyGivenNames x;
       first | (refine Keeps.cut (t := x) ?_ (fun hx => ?_); subst x; rotate_left; clear_value x; rotate_right)
             | (refine Keeps.cut (t := x.1) ?_ (fun hx => ?_); subst x; rotate_left; clear_value x; rotate_right)
             | (refine Keeps.cut (t := x.2) ?_ (fun hx => ?_); subst x; rotate_left; clear_value x; rotate_right)
             | clear_value x)
    | dsimp -zeta only
    | (intro _)

end Sys2Proof.Machine
end

