-- ==== Sys2Proof/Laws/KeepsUpdater.lean ====
section
/-!
SUPPORT. Laws/KeepsUpdater.lean: the operations of Machine/Updater.lean keep the queue, the memories, the points and the fuses.
-/
set_option Elab.async false
set_option linter.all false
namespace Sys2Proof.Machine

theorem State.updGroup_keeps {z : State} (s : State) (d g : Nat) (f : UGroup → UGroup) (hs : Keeps false false z s) :
    Keeps false false z (State.updGroup s d g f) := by
  unfold State.updGroup
  repeat' first
    | with_reducible assumption
    | with_reducible apply State.updUpd_keeps

theorem State.updUStep_keeps {z : State} (s : State) (d g t : Nat) (f : UStep → UStep) (hs : Keeps false false z s) :
    Keeps false false z (State.updUStep s d g t f) := by
  unfold State.updUStep
  repeat' first
    | with_reducible assumption
    | with_reducible apply State.updGroup_keeps

theorem State.updRaise_keeps {z : State} (s : State) (d g t bit : Nat) (hs : Keeps false false z s) :
    Keeps false false z (State.updRaise s d g t bit) := by
  unfold State.updRaise
  repeat' first
    | with_reducible assumption
    | with_reducible apply State.raise_keeps
    | with_reducible apply State.updUStep_keeps

theorem State.onGroupSet_keeps {lp lq : Bool} {z : State} (s : State) (id : CmdId) (op : Nat) (f : Cmd → State) (hs : Keeps lp lq z s) (hf : ∀ a0,
    Keeps lp lq z (f a0)) :
    Keeps lp lq z (State.onGroupSet s id op f) := by
  unfold State.onGroupSet
  repeat' first
    | with_reducible assumption
    | with_reducible apply State.onCmd_keeps

theorem State.groupDefine_keeps {z : State} (s : State) (c : Cmd) (hs : Keeps false false z s) :
    Keeps false false z (State.groupDefine s c) := by
  unfold State.groupDefine
  repeat' first
    | with_reducible assumption
    | with_reducible apply State.writeBytes_keeps
    | with_reducible refine State.writeBytes_keeps' ?_ (by assumption)
    | with_reducible apply State.finish_keeps
    | with_reducible apply State.failAcc_keeps
    | with_reducible apply State.updUpd_keeps
    | with_reducible apply Keeps.foldl
    | with_reducible apply Keeps.foldl_fst
    | with_reducible apply Keeps.foldl_snd
    | (extract_lets +onlyGivenNames x;
       first | (refine Keeps.cut (t := x) ?_ (fun hx => ?_); subst x; rotate_left; clear_value x; rotate_right)
             | (subst x; beta_reduce))
    | dsimp -zeta only
    | (intro _)
    | split

theorem State.onFreeGroup_keeps {lp lq : Bool} {z : State} (s : State) (c : Cmd) (f : UGroup → State) (hs : Keeps lp lq z s) (hf : ∀ a0, Keeps lp lq z
    (f a0)) :
    Keeps lp lq z (State.onFreeGroup s c f) := by
  unfold State.onFreeGroup
  repeat' first
    | with_reducible assumption
    | with_reducible apply State.finish_keeps
    | dsimp -zeta only
    | (intro _)
    | split
    | assumption
    | fail_if_no_progress refine Keeps.update ?_ rfl rfl rfl
    | (simp_all only; done)

theorem State.keepBefore_keeps {z : State} {s : State} {d gi t : Nat} {g : GRec} {plane j : Nat} {u'} (e' : State.keepBefore
    s d gi t g plane j = .ok u') (hs : Keeps false false z s) : Keeps false false z u' := by
  unfold State.keepBefore at e'
  try dsimp only at e'
  repeat' split at e'
  all_goals first | cases e' | skip
  repeat' first
    | with_reducible assumption
    | with_reducible apply State.updUStep_keeps

theorem Keeps.foldl_ok {lp lq : Bool} {ε α : Type} {s : State} {f : Except ε State → α → Except ε State} (l : List α) {r : Except ε State}
    (h : ∀ u, r = .ok u → Keeps lp lq s u)
    (k : ∀ r x, (∀ u, r = .ok u → Keeps lp lq s u) → ∀ u, f r x = .ok u → Keeps lp lq s u) :
    ∀ u, l.foldl f r = .ok u → Keeps lp lq s u := by
  induction l generalizing r with
  | nil => exact h
  | cons x l ih => exact ih (k r x h)

theorem State.keepAll_keeps {z : State} {s : State} {d gi t : Nat} {g : GRec} {lo hi : Nat} {u'}
    (e' : State.keepAll s d gi t g lo hi = .ok u') (hs : Keeps false false z s) : Keeps false false z u' := by
  refine Keeps.foldl_ok _ ?_ (fun r p h => Keeps.foldl_ok _ h fun r j h u e => ?_) u' e'
  · intro u e; cases e; exact hs
  · split at e
    · cases e
    · rename_i s _
      exact State.keepBefore_keeps e (h _ rfl)

theorem State.journalPut_keeps {z : State} (s : State) (d : Nat) (f : Nat → DiffRec) (hs : Keeps false false z s) :
    Keeps false false z (State.journalPut s d f) := by
  unfold State.journalPut
  repeat' first
    | with_reducible assumption
    | with_reducible apply State.bump_keeps
    | with_reducible apply State.updUpd_keeps

theorem State.emit_keeps {z : State} (s : State) (d gi t : Nat) (g : GRec) (hs : Keeps false false z s) :
    Keeps false false z (State.emit s d gi t g) := by
  unfold State.emit
  repeat' first
    | with_reducible assumption
    | with_reducible apply State.updUStep_keeps
    | with_reducible apply State.journalPut_keeps
    | with_reducible apply Keeps.foldl
    | with_reducible apply Keeps.foldl_fst
    | with_reducible apply Keeps.foldl_snd
    | (extract_lets +onlyGivenNames x; subst x; beta_reduce)
    | dsimp -zeta only
    | (intro _)
    | split

theorem State.readSched_keeps {z : State} (s : State) (d gi t : Nat) (hs : Keeps false false z s) :
    Keeps false false z (State.readSched s d gi t).1 := by
  unfold State.readSched
  repeat' first
    | with_reducible assumption
    | with_reducible apply State.ueReport_keeps
    | with_reducible apply State.updUStep_keeps
    | with_reducible apply State.updRaise_keeps
    | dsimp -zeta only
    | (intro _)
    | split
theorem State.readSched_keeps' {z : State} {s : State} {d gi t : Nat} {u' o'} (hs : Keeps false false z s) (e' : State.readSched s d gi t
    = (u', o')) : Keeps false false z u' := by
  have k := State.readSched_keeps (z := z) s d gi t hs
  rw [e'] at k; exact k

theorem State.putPlane_keeps {lp lq : Bool} {z : State} (s : State) (ctx a : Nat) (bs : List Byte) (hs : Keeps lp lq z s) :
    Keeps lp lq z (State.putPlane s ctx a bs).1 := by
  unfold State.putPlane
  repeat' first
    | with_reducible assumption
    | with_reducible apply State.writeBytes_keeps
theorem State.putPlane_keeps' {lp lq : Bool} {z : State} {s : State} {ctx a : Nat} {bs : List Byte} {u' o'} (hs : Keeps lp lq z s) (e' :
    State.putPlane s ctx a bs = (u', o')) : Keeps lp lq z u' := by
  have k := State.putPlane_keeps (z := z) s ctx a bs hs
  rw [e'] at k; exact k

theorem State.applyMap_keeps {z : State} (s : State) (d gi t : Nat) (g : GRec) (addr : Nat) (hs : Keeps false false z s) :
    Keeps false false z (State.applyMap s d gi t g addr).1 := by
  unfold State.applyMap
  repeat' first
    | with_reducible assumption
    | refine State.keepAll_keeps (by assumption) ?_
    | with_reducible apply State.putPlane_keeps
    | with_reducible refine State.putPlane_keeps' ?_ (by assumption)
    | with_reducible apply Keeps.foldl
    | with_reducible apply Keeps.foldl_fst
    | with_reducible apply Keeps.foldl_snd
    | (extract_lets +onlyGivenNames x; clear_value x)
    | dsimp -zeta only
    | (intro _)
    | split
theorem State.applyMap_keeps' {z : State} {s : State} {d gi t : Nat} {g : GRec} {addr : Nat} {u' o'} (hs : Keeps false false z s) (e' :
    State.applyMap s d gi t g addr = (u', o')) : Keeps false false z u' := by
  have k := State.applyMap_keeps (z := z) s d gi t g addr hs
  rw [e'] at k; exact k

theorem State.runRule_keeps {z : State} (s : State) (d gi t : Nat) (g : UGroup) (u : UStep) (lo : Nat) (xs : List FVal) (idle
    : Nat → Bool) (hs : Keeps false false z s) :
    Keeps false false z (State.runRule s d gi t g u lo xs idle).1 := by
  unfold State.runRule
  repeat' first
    | with_reducible assumption
    | refine State.keepAll_keeps (by assumption) ?_
    | with_reducible apply State.putPlane_keeps
    | with_reducible refine State.putPlane_keeps' ?_ (by assumption)
    | with_reducible apply Keeps.foldl
    | with_reducible apply Keeps.foldl_fst
    | with_reducible apply Keeps.foldl_snd
    | (extract_lets +onlyGivenNames x;
       first | (refine Keeps.cut (t := x) ?_ (fun hx => ?_); subst x; rotate_left; clear_value x; rotate_right)
             | (subst x; beta_reduce))
    | dsimp -zeta only
    | (intro _)
    | split
    | assumption
    | fail_if_no_progress refine Keeps.change ?_ rfl rfl rfl rfl rfl rfl rfl rfl rfl
theorem State.runRule_keeps' {z : State} {s : State} {d gi t : Nat} {g : UGroup} {u : UStep} {lo : Nat} {xs : List FVal}
    {idle : Nat → Bool} {u' o'} (hs : Keeps false false z s) (e' : State.runRule s d gi t g u lo xs idle = (u', o')) : Keeps false false z u' := by
  have k := State.runRule_keeps (z := z) s d gi t g u lo xs idle hs
  rw [e'] at k; exact k

theorem State.tileStats_keeps {lp lq : Bool} {z : State} (s : State) (r : GRec) (g : UGroup) (t j : Nat) (gm : Mat) (hs : Keeps lp lq z s) :
    Keeps lp lq z (State.tileStats s r g t j gm).1 := by
  unfold State.tileStats
  repeat' first
    | with_reducible assumption
    | with_reducible apply State.putPlane_keeps
    | with_reducible refine State.putPlane_keeps' ?_ (by assumption)
    | (extract_lets +onlyGivenNames x; clear_value x)
    | dsimp -zeta only
    | (intro _)
    | split
theorem State.tileStats_keeps' {lp lq : Bool} {z : State} {s : State} {r : GRec} {g : UGroup} {t j : Nat} {gm : Mat} {u' o'} (hs : Keeps lp lq z
    s) (e' : State.tileStats s r g t j gm = (u', o')) : Keeps lp lq z u' := by
  have k := State.tileStats_keeps (z := z) s r g t j gm hs
  rw [e'] at k; exact k

theorem State.applyTile_keeps {z : State} (s : State) (d gi t : Nat) (g : UGroup) (u : UStep) (j : Nat) (idle : Nat → Bool)
    (hs : Keeps false false z s) :
    Keeps false false z (State.applyTile s d gi t g u j idle).1 := by
  unfold State.applyTile
  repeat' first
    | with_reducible assumption
    | refine State.keepAll_keeps (by assumption) ?_
    | with_reducible apply State.runRule_keeps
    | with_reducible refine State.runRule_keeps' ?_ (by assumption)
    | with_reducible apply State.tileStats_keeps
    | with_reducible refine State.tileStats_keeps' ?_ (by assumption)
    | (extract_lets +onlyGivenNames x;
       first | (refine Keeps.cut (t := x.1) ?_ (fun hx => ?_); subst x; rotate_left; clear_value x; rotate_right)
             | clear_value x)
    | dsimp -zeta only
    | (intro _)
    | split
theorem State.applyTile_keeps' {z : State} {s : State} {d gi t : Nat} {g : UGroup} {u : UStep} {j : Nat} {idle : Nat → Bool}
    {u' o'} (hs : Keeps false false z s) (e' : State.applyTile s d gi t g u j idle = (u', o')) : Keeps false false z u' := by
  have k := State.applyTile_keeps (z := z) s d gi t g u j idle hs
  rw [e'] at k; exact k

theorem State.settleReady_keeps {z : State} (s : State) (d gi : Nat) (hs : Keeps false false z s) :
    Keeps false false z (State.settleReady s d gi) := by
  unfold State.settleReady
  repeat' first
    | with_reducible assumption
    | with_reducible apply State.updGroup_keeps

theorem State.applyBlock_keeps {z : State} (s : State) (d gi t lo : Nat) (bits : List Nat) (zero : Bool) (hs : Keeps false false z s) :
    Keeps false false z (State.applyBlock s d gi t lo bits zero) := by
  unfold State.applyBlock
  repeat' first
    | with_reducible assumption
    | with_reducible apply State.bump_keeps
    | with_reducible apply State.pmc_keeps
    | with_reducible apply State.ueReport_keeps
    | with_reducible apply State.updUStep_keeps
    | with_reducible apply State.updRaise_keeps
    | with_reducible apply State.emit_keeps
    | with_reducible apply State.readSched_keeps
    | with_reducible refine State.readSched_keeps' ?_ (by assumption)
    | with_reducible apply State.applyMap_keeps
    | with_reducible refine State.applyMap_keeps' ?_ (by assumption)
    | with_reducible apply State.runRule_keeps
    | with_reducible refine State.runRule_keeps' ?_ (by assumption)
    | with_reducible apply State.applyTile_keeps
    | with_reducible refine State.applyTile_keeps' ?_ (by assumption)
    | with_reducible apply State.settleReady_keeps
    | with_reducible apply Keeps.foldl
    | with_reducible apply Keeps.foldl_fst
    | with_reducible apply Keeps.foldl_snd
    | (extract_lets +onlyGivenNames x;
       first | (refine Keeps.cut (t := x) ?_ (fun hx => ?_); subst x; rotate_left; clear_value x; rotate_right)
             | (refine Keeps.cut (t := x.1) ?_ (fun hx => ?_); subst x; rotate_left; clear_value x; rotate_right)
             | (subst x; beta_reduce))
    | dsimp -zeta only
    | (intro _)
    | split

theorem State.stage_keeps {z : State} (s : State) (d : Nat) (b : Staged) (hs : Keeps false false z s) :
    Keeps false false z (State.stage s d b) := by
  unfold State.stage
  repeat' first
    | with_reducible assumption
    | with_reducible apply State.bump_keeps
    | with_reducible apply State.updUpd_keeps
    | with_reducible apply State.updRaise_keeps
    | (extract_lets +onlyGivenNames x; clear_value x)
    | dsimp -zeta only
    | (intro _)
    | split

theorem State.stage5_keeps {z : State} (s : State) (d gi t lo : Nat) (bits : List Nat) (zero : Bool) (hs : Keeps false false z s) :
    Keeps false false z (State.stage5 s d gi t lo bits zero) := by
  unfold State.stage5
  repeat' first
    | with_reducible assumption
    | with_reducible apply State.bump_keeps
    | with_reducible apply State.pmc_keeps
    | with_reducible apply State.raise_keeps
    | with_reducible apply State.applyBlock_keeps
    | with_reducible apply State.stage_keeps
    | (extract_lets +onlyGivenNames x; clear_value x)
    | dsimp -zeta only
    | (intro _)
    | split

theorem State.stagedApply_keeps {z : State} (s : State) (d k : Nat) (hs : Keeps false false z s) :
    Keeps false false z (State.stagedApply s d k) := by
  unfold State.stagedApply
  repeat' first
    | with_reducible assumption
    | with_reducible apply State.updUpd_keeps
    | with_reducible apply State.raise_keeps
    | with_reducible apply State.applyBlock_keeps
    | (extract_lets +onlyGivenNames x; clear_value x)
    | dsimp -zeta only
    | (intro _)
    | split

theorem State.takeHeader_keeps {z : State} (s : State) (d ctx : Nat) (sl : Slot) (hs : Keeps false false z s) :
    Keeps false false z (State.takeHeader s d ctx sl).1 := by
  unfold State.takeHeader
  repeat' first
    | with_reducible assumption
    | with_reducible apply State.bump_keeps
    | with_reducible apply State.refuse_keeps
    | with_reducible apply State.raise_keeps
    | with_reducible apply State.updGroup_keeps
    | with_reducible apply State.updUStep_keeps
    | with_reducible apply State.updRaise_keeps
    | (extract_lets +onlyGivenNames x; subst x; beta_reduce)
    | dsimp -zeta only
    | (intro _)
    | split
theorem State.takeHeader_keeps' {z : State} {s : State} {d ctx : Nat} {sl : Slot} {u' o'} (hs : Keeps false false z s) (e' :
    State.takeHeader s d ctx sl = (u', o')) : Keeps false false z u' := by
  have k := State.takeHeader_keeps (z := z) s d ctx sl hs
  rw [e'] at k; exact k

theorem State.noteGradient_keeps {lp : Bool} {z : State} (s : State) (t : Nat) (hs : Keeps lp false z s) :
    Keeps lp false z (State.noteGradient s t) := by
  unfold State.noteGradient
  repeat' first
    | with_reducible assumption
    | (extract_lets +onlyGivenNames x;
       first | (refine Keeps.cut (t := x) ?_ (fun hx => ?_); subst x; rotate_left; clear_value x; rotate_right)
             | (refine Keeps.cut (t := x.1) ?_ (fun hx => ?_); subst x; rotate_left; clear_value x; rotate_right)
             | (refine Keeps.cut (t := x.2) ?_ (fun hx => ?_); subst x; rotate_left; clear_value x; rotate_right)
             | clear_value x)
    | dsimp -zeta only
    | (intro _)
    | split
    | assumption
    | fail_if_no_progress refine Keeps.inPlane ?_ rfl rfl
    | (rename_i hq; split at hq <;> first | (cases hq) | skip)
    | (simp_all only; done)

theorem State.takeBlock_keeps {z : State} (s : State) (d : Nat) (b : Bucket) (sl : Slot) (hs : Keeps false false z s) :
    Keeps false false z (State.takeBlock s d b sl) := by
  unfold State.takeBlock
  repeat' first
    | with_reducible assumption
    | with_reducible apply State.bump_keeps
    | with_reducible apply State.updUStep_keeps
    | with_reducible apply State.updRaise_keeps
    | with_reducible apply State.readSched_keeps
    | with_reducible refine State.readSched_keeps' ?_ (by assumption)
    | with_reducible apply State.stage5_keeps
    | (extract_lets +onlyGivenNames x;
       first | (refine Keeps.cut (t := x) ?_ (fun hx => ?_); subst x; rotate_left; clear_value x; rotate_right)
             | (subst x; beta_reduce))
    | dsimp -zeta only
    | (intro _)
    | split
    | assumption
    | fail_if_no_progress refine Keeps.change ?_ rfl rfl rfl rfl rfl rfl rfl rfl rfl

theorem State.restoreOpen_keeps {lp lq : Bool} {z : State} (s : State) (g : UGroup) (t : Nat) (hs : Keeps lp lq z s) :
    Keeps lp lq z (State.restoreOpen s g t) := by
  unfold State.restoreOpen
  repeat' first
    | with_reducible assumption
    | with_reducible apply State.writeBytes_keeps
    | with_reducible refine State.writeBytes_keeps' ?_ (by assumption)
    | with_reducible apply Keeps.foldl
    | with_reducible apply Keeps.foldl_fst
    | with_reducible apply Keeps.foldl_snd
    | (extract_lets +onlyGivenNames x;
       first | (refine Keeps.cut (t := x) ?_ (fun hx => ?_); subst x; rotate_left; clear_value x; rotate_right)
             | (refine Keeps.cut (t := x.1) ?_ (fun hx => ?_); subst x; rotate_left; clear_value x; rotate_right)
             | (refine Keeps.cut (t := x.2) ?_ (fun hx => ?_); subst x; rotate_left; clear_value x; rotate_right)
             | clear_value x)
    | dsimp -zeta only
    | (intro _)
    | split

theorem State.decideDie_keeps {z : State} (s : State) (d t : Nat) (commit : Bool) (hs : Keeps false false z s) :
    Keeps false false z (State.decideDie s d t commit) := by
  unfold State.decideDie
  repeat' first
    | with_reducible assumption
    | with_reducible apply State.updUpd_keeps
    | with_reducible apply State.restoreOpen_keeps
    | with_reducible apply Keeps.foldl
    | with_reducible apply Keeps.foldl_fst
    | with_reducible apply Keeps.foldl_snd
    | (extract_lets +onlyGivenNames x;
       first | (refine Keeps.cut (t := x) ?_ (fun hx => ?_); subst x; rotate_left; clear_value x; rotate_right)
             | (refine Keeps.cut (t := x.1) ?_ (fun hx => ?_); subst x; rotate_left; clear_value x; rotate_right)
             | (refine Keeps.cut (t := x.2) ?_ (fun hx => ?_); subst x; rotate_left; clear_value x; rotate_right)
             | clear_value x)
    | dsimp -zeta only
    | (intro _)
    | split

end Sys2Proof.Machine
end

