-- ==== Sys2Proof/Laws/KeepsRouting.lean ====
section
/-!
SUPPORT. Laws/KeepsRouting.lean: the operations of Machine/Routing.lean keep the queue, the memories, the points and the fuses.
-/
set_option Elab.async false
set_option linter.all false
namespace Sys2Proof.Machine

theorem State.runTopk_keeps {lp lq : Bool} {z : State} (s : State) (c : Cmd) (l o w : Tens) (hs : Keeps lp lq z s) :
    Keeps lp lq z (State.runTopk s c l o w) := by
  unfold State.runTopk
  repeat' first
    | with_reducible assumption
    | with_reducible apply State.flagNonfinite_keeps
    | with_reducible apply State.writeAll_keeps
    | with_reducible refine State.writeAll_keeps' ?_ (by assumption)
    | with_reducible apply State.wrote_keeps
    | with_reducible apply State.afterReads_keeps
    | with_reducible apply State.moved_keeps
    | (extract_lets +onlyGivenNames x;
       first | (refine Keeps.cut (t := x.1) ?_ (fun hx => ?_); subst x; rotate_left; clear_value x; rotate_right)
             | (subst x; beta_reduce))
    | dsimp -zeta only
    | (intro _)
    | split

theorem State.halted_keeps {lp lq : Bool} {z : State} (s : State) (id : CmdId) (h : Halt) (hs : Keeps lp lq z s) :
    Keeps lp lq z (State.halted s id h) := by
  unfold State.halted
  split
  · exact hs
  · exact State.failAcc_keeps _ _ _ hs
  · exact State.finish_keeps _ _ _ hs

theorem Keeps.foldlM_ok {lp lq : Bool} {ε α : Type} {s : State} {f : State → α → Except ε State} (l : List α)
    (k : ∀ u x v, Keeps lp lq s u → f u x = .ok v → Keeps lp lq s v) :
    ∀ t u, Keeps lp lq s t → l.foldlM f t = .ok u → Keeps lp lq s u := by
  induction l with
  | nil => intro t u h e; cases e; exact h
  | cons x l ih =>
    intro t u h e
    rw [List.foldlM_cons] at e
    cases hx : f t x with
    | error y => rw [hx] at e; cases e
    | ok v => rw [hx] at e; exact ih v u (k t x v h hx) e

theorem Keeps.bind_ok {lp lq : Bool} {ε β : Type} {s u : State} {a : Except ε β} {f : β → State} (h : ∀ b, Keeps lp lq s (f b))
    (e : (a >>= fun b => pure (f b)) = Except.ok u) : Keeps lp lq s u := by
  cases a with
  | error y => cases e
  | ok b => cases e; exact h b

theorem State.sendMessages_keeps {z : State} {s : State} {c : Cmd} {p : SendPlan} {die gen : Nat} {u'}
    (e' : State.sendMessages s c p die gen = .ok u') (hs : Keeps false false z s) : Keeps false false z u' := by
  refine Keeps.foldlM_ok _ (fun u h v hu e => ?_) s u' hs e'
  exact Keeps.bind_ok (fun rows => State.enqueue_keeps u _ _ _ _ _ _ _ hu) e

theorem State.dispatchSend_keeps {z : State} (s : State) (c : Cmd) (hs : Keeps false false z s) :
    Keeps false false z (State.dispatchSend s c) := by
  unfold State.dispatchSend
  repeat' first
    | with_reducible assumption
    | exact fun _ _ => rfl
    | exact fun h => absurd h Bool.false_ne_true
    | (intro _ _; (try dsimp only); split <;> rfl)
    | with_reducible apply State.settleSend_keeps
    | with_reducible apply State.bump_keeps
    | with_reducible apply State.updCmd_keeps
    | with_reducible apply State.writeBytes_keeps
    | with_reducible refine State.writeBytes_keeps' ?_ (by assumption)
    | with_reducible apply State.failAcc_keeps
    | with_reducible apply State.halted_keeps
    | refine State.sendMessages_keeps (by assumption) ?_
    | (extract_lets +onlyGivenNames x;
       first | (refine Keeps.cut (t := x.1) ?_ (fun hx => ?_); subst x; rotate_left; clear_value x; rotate_right)
             | clear_value x)
    | dsimp -zeta only
    | (intro _)
    | split
    | assumption
    | fail_if_no_progress refine Keeps.change ?_ rfl rfl rfl rfl rfl rfl rfl rfl rfl

theorem State.combineReturn_keeps {z : State} (s : State) (c : Cmd) (hs : Keeps false false z s) :
    Keeps false false z (State.combineReturn s c) := by
  unfold State.combineReturn
  extract_lets id d
  split
  · exact hs
  · split
    · exact State.halted_keeps _ _ _ hs
    · dsimp only
      split
      · exact State.halted_keeps _ _ _ hs
      · rename_i t e
        refine State.settleSend_keeps _ _ (State.updCmd_keeps _ _ _ ?_ fun _ _ => rfl)
        refine Keeps.foldlM_ok _ (fun u i v hu e => ?_) s t hs e
        exact Keeps.bind_ok (fun rows => State.enqueue_keeps u _ _ _ _ _ _ _ hu) e

theorem State.updRx_keeps {z : State} (s : State) (f : Nat) (g : RxFlow → RxFlow) (hs : Keeps false false z s) :
    Keeps false false z (State.updRx s f g) := by
  unfold State.updRx
  repeat' first
    | with_reducible assumption
    | with_reducible apply State.setFabric_keeps

theorem State.endReceive_keeps {lp lq : Bool} {z : State} (s : State) (c : Cmd) (hs : Keeps lp lq z s) :
    Keeps lp lq z (State.endReceive s c) := by
  unfold State.endReceive
  repeat' first
    | with_reducible assumption
    | with_reducible apply State.writeBytes_keeps
    | with_reducible refine State.writeBytes_keeps' ?_ (by assumption)
    | with_reducible apply State.finish_keeps
    | with_reducible apply State.failAcc_keeps
    | with_reducible apply Keeps.foldl
    | with_reducible apply Keeps.foldl_fst
    | with_reducible apply Keeps.foldl_snd
    | (extract_lets +onlyGivenNames x;
       first | (refine Keeps.cut (t := x.1) ?_ (fun hx => ?_); subst x; rotate_left; clear_value x; rotate_right)
             | clear_value x)
    | dsimp -zeta only
    | (intro _)
    | split

theorem State.endSum_keeps {lp lq : Bool} {z : State} (s : State) (c : Cmd) (hs : Keeps lp lq z s) :
    Keeps lp lq z (State.endSum s c) := by
  unfold State.endSum
  repeat' first
    | with_reducible assumption
    | with_reducible apply State.writeAll_keeps
    | with_reducible refine State.writeAll_keeps' ?_ (by assumption)
    | with_reducible apply State.wrote_keeps
    | with_reducible apply State.afterReads_keeps
    | with_reducible apply State.moved_keeps
    | (extract_lets +onlyGivenNames x; subst x; beta_reduce)
    | dsimp -zeta only
    | (intro _)
    | split

theorem State.settleBatch_keeps {lp lq : Bool} {z : State} (s : State) (id : CmdId) (hs : Keeps lp lq z s) :
    Keeps lp lq z (State.settleBatch s id) := by
  unfold State.settleBatch
  repeat' first
    | with_reducible assumption
    | with_reducible apply State.onCmd_keeps
    | with_reducible apply State.endReceive_keeps
    | with_reducible apply State.endSum_keeps
    | dsimp -zeta only
    | (intro _)
    | split

theorem State.takeHead_keeps {z : State} (s : State) (c : Cmd) (i : Nat) (flow : Nat) (sl : Slot) (hs : Keeps false false z s) :
    Keeps false false z (State.takeHead s c i flow sl) := by
  unfold State.takeHead
  repeat' first
    | with_reducible assumption
    | exact fun _ _ => rfl
    | exact fun h => absurd h Bool.false_ne_true
    | (intro _ _; (try dsimp only); split <;> rfl)
    | with_reducible apply State.updCmd_keeps
    | with_reducible apply State.finish_keeps
    | with_reducible apply State.updRx_keeps
    | with_reducible apply State.settleBatch_keeps
    | (extract_lets +onlyGivenNames x;
       first | (refine Keeps.cut (t := x) ?_ (fun hx => ?_); subst x; rotate_left; clear_value x; rotate_right) | clear_value x)
    | dsimp -zeta only
    | (intro _)
    | split

theorem State.batchHead_keeps {z : State} (s : State) (die : Nat) (f : FlowRec) (sl : Slot) (recv : Bool) (hs : Keeps false false z s) :
    Keeps false false z (State.batchHead s die f sl recv) := by
  unfold State.batchHead
  repeat' first
    | with_reducible assumption
    | with_reducible apply State.bump_keeps
    | with_reducible apply State.updRx_keeps
    | with_reducible apply State.takeHead_keeps
    | with_reducible apply State.setFabric_keeps
    | (extract_lets +onlyGivenNames x; subst x; beta_reduce)
    | dsimp -zeta only
    | (intro _)
    | split

theorem State.takeWaiting_keeps {z : State} (s : State) (id : CmdId) (hs : Keeps false false z s) :
    Keeps false false z (State.takeWaiting s id) := by
  unfold State.takeWaiting
  repeat' first
    | with_reducible assumption
    | with_reducible apply State.onCmd_keeps
    | with_reducible apply State.bump_keeps
    | with_reducible apply State.takeHead_keeps
    | with_reducible apply State.setFabric_keeps
    | with_reducible apply Keeps.foldl
    | with_reducible apply Keeps.foldl_fst
    | with_reducible apply Keeps.foldl_snd
    | (extract_lets +onlyGivenNames x; subst x; beta_reduce)
    | dsimp -zeta only
    | (intro _)
    | split

theorem State.placeRows_keeps {lp lq : Bool} {z : State} (s : State) (id : CmdId) (t : Tens) (rb : Nat) (dest : Nat → Option Nat) (n0 : Nat)
    (n1 : Nat) (n2 : List Byte) (hs : Keeps lp lq z s) :
    Keeps lp lq z (State.placeRows s id t rb dest n0 n1 n2).1 := by
  induction n0 generalizing s n1 n2 with
  | zero => exact hs
  | succ k ih =>
    unfold State.placeRows
    repeat' first
      | with_reducible assumption
      | apply ih
      | with_reducible apply State.writeBytes_keeps
      | with_reducible refine State.writeBytes_keeps' ?_ (by assumption)
      | (extract_lets +onlyGivenNames x;
         first | (refine Keeps.cut (t := x.1) ?_ (fun hx => ?_); subst x; rotate_left; clear_value x; rotate_right)
               | clear_value x)
      | dsimp -zeta only
      | (intro _)
      | split

theorem State.batchRowSlot_keeps {lp lq : Bool} {z : State} {s : State} {c : Cmd} {i : Nat} {sl : Slot} {u'} (e' :
    State.batchRowSlot s c i sl = some u') (hs : Keeps lp lq z s) : Keeps lp lq z u' := by
  unfold State.batchRowSlot at e'
  try dsimp only at e'
  repeat' split at e'
  all_goals first | cases e' | skip
  all_goals
    repeat' first
      | with_reducible assumption
      | exact fun _ _ => rfl
      | exact fun h => absurd h Bool.false_ne_true
      | (intro _ _; (try dsimp only); split <;> rfl)
      | with_reducible apply State.updCmd_keeps
      | with_reducible apply State.finish_keeps
      | with_reducible apply State.failAcc_keeps
      | with_reducible apply State.settleBatch_keeps
      | with_reducible apply State.placeRows_keeps
      | with_reducible refine State.placeRows_keeps' ?_ (by assumption)
      | (extract_lets +onlyGivenNames x;
         first | (refine Keeps.cut (t := x) ?_ (fun hx => ?_); subst x; rotate_left; clear_value x; rotate_right)
               | (refine Keeps.cut (t := x.1) ?_ (fun hx => ?_); subst x; rotate_left; clear_value x; rotate_right)
               | (refine Keeps.cut (t := x.2) ?_ (fun hx => ?_); subst x; rotate_left; clear_value x; rotate_right)
               | clear_value x)
      | dsimp -zeta only
      | (intro _)
      | split
      | assumption
      | fail_if_no_progress refine Keeps.update ?_ rfl rfl rfl
      | (rename_i hq; split at hq <;> first | (cases hq) | skip)
      | (simp_all only; done)

theorem State.takeBatch_keeps {z : State} {s : State} {die : Nat} {f : FlowRec} {sl : Slot} {u'} (e' : State.takeBatch s die f
    sl = some u') (hs : Keeps false false z s) : Keeps false false z u' := by
  unfold State.takeBatch at e'
  try dsimp only at e'
  repeat' split at e'
  all_goals first | cases e' | skip
  all_goals
    repeat' first
      | with_reducible assumption
      | with_reducible apply State.bump_keeps
      | with_reducible apply State.batchHead_keeps
      | refine State.batchRowSlot_keeps (by assumption) ?_
      | (extract_lets +onlyGivenNames x;
         first | (refine Keeps.cut (t := x) ?_ (fun hx => ?_); subst x; rotate_left; clear_value x; rotate_right)
               | (refine Keeps.cut (t := x.1) ?_ (fun hx => ?_); subst x; rotate_left; clear_value x; rotate_right)
               | (refine Keeps.cut (t := x.2) ?_ (fun hx => ?_); subst x; rotate_left; clear_value x; rotate_right)
               | clear_value x)
      | dsimp -zeta only
      | (intro _)
      | split
      | assumption
      | fail_if_no_progress refine Keeps.change ?_ rfl rfl rfl rfl rfl rfl rfl rfl rfl
      | fail_if_no_progress refine Keeps.inPlane ?_ rfl rfl
      | (rename_i hq; split at hq <;> first | (cases hq) | skip)
      | (simp_all only; done)

theorem State.beginBatch_keeps {z : State} (s : State) (c : Cmd) (recs : Tab (List Byte)) (hs : Keeps false false z s) :
    Keeps false false z (State.beginBatch s c recs) := by
  unfold State.beginBatch
  repeat' first
    | with_reducible assumption
    | exact fun _ _ => rfl
    | exact fun h => absurd h Bool.false_ne_true
    | (intro _ _; (try dsimp only); split <;> rfl)
    | with_reducible apply State.updCmd_keeps
    | with_reducible apply State.settleBatch_keeps
    | with_reducible apply State.takeWaiting_keeps

theorem State.advanceGen_keeps {z : State} (s : State) (k : Cancel) (hs : Keeps false false z s) :
    Keeps false false z (State.advanceGen s k) := by
  unfold State.advanceGen
  repeat' first
    | with_reducible assumption
    | exact fun _ _ => rfl
    | exact fun h => absurd h Bool.false_ne_true
    | (intro _ _; (try dsimp only); split <;> rfl)
    | with_reducible apply State.updCmd_keeps
    | with_reducible apply State.finish_keeps
    | with_reducible apply State.setFabric_keeps
    | with_reducible apply Keeps.foldl
    | with_reducible apply Keeps.foldl_fst
    | with_reducible apply Keeps.foldl_snd
    | (extract_lets +onlyGivenNames x;
       first | (refine Keeps.cut (t := x) ?_ (fun hx => ?_); subst x; rotate_left; clear_value x; rotate_right)
             | (refine Keeps.cut (t := x.1) ?_ (fun hx => ?_); subst x; rotate_left; clear_value x; rotate_right)
             | (refine Keeps.cut (t := x.2) ?_ (fun hx => ?_); subst x; rotate_left; clear_value x; rotate_right)
             | clear_value x)
    | dsimp -zeta only
    | (intro _)

end Sys2Proof.Machine
end

