-- ==== Sys2Proof/Laws/KeepsSlots.lean ====
section
/-!
SUPPORT. Laws/KeepsSlots.lean: the operations of Machine/Slots.lean keep the queue, the memories, the points and the fuses.
-/
set_option Elab.async false
set_option linter.all false
namespace Sys2Proof.Machine

theorem State.advanceMsg_keeps {z : State} (s : State) (k : Nat) (m : OutMsg) (q g : Nat) (hs : Keeps false false z s) :
    Keeps false false z (State.advanceMsg s k m q g) := by
  unfold State.advanceMsg
  repeat' first
    | with_reducible assumption
    | with_reducible apply State.setFabric_keeps
    | (extract_lets +onlyGivenNames x;
       first | (refine Keeps.cut (t := x) ?_ (fun hx => ?_); subst x; rotate_left; clear_value x; rotate_right)
             | (refine Keeps.cut (t := x.1) ?_ (fun hx => ?_); subst x; rotate_left; clear_value x; rotate_right)
             | (refine Keeps.cut (t := x.2) ?_ (fun hx => ?_); subst x; rotate_left; clear_value x; rotate_right)
             | clear_value x)
    | dsimp -zeta only
    | (intro _)
    | split
    | assumption
    | fail_if_no_progress refine Keeps.change ?_ rfl rfl rfl rfl rfl rfl rfl rfl rfl
    | fail_if_no_progress refine Keeps.inPlane ?_ rfl rfl
    | (rename_i hq; split at hq <;> first | (cases hq) | skip)
    | (simp_all only; done)

theorem State.noteDeparted_keeps {z : State} (s : State) (p n : Nat) (hs : Keeps false false z s) :
    Keeps false false z (State.noteDeparted s p n) := by
  unfold State.noteDeparted
  repeat' first
    | with_reducible assumption
    | with_reducible apply State.setFabric_keeps
    | (extract_lets +onlyGivenNames x;
       first | (refine Keeps.cut (t := x) ?_ (fun hx => ?_); subst x; rotate_left; clear_value x; rotate_right)
             | (refine Keeps.cut (t := x.1) ?_ (fun hx => ?_); subst x; rotate_left; clear_value x; rotate_right)
             | (refine Keeps.cut (t := x.2) ?_ (fun hx => ?_); subst x; rotate_left; clear_value x; rotate_right)
             | clear_value x)
    | dsimp -zeta only
    | (intro _)
    | split
    | assumption
    | fail_if_no_progress refine Keeps.change ?_ rfl rfl rfl rfl rfl rfl rfl rfl rfl
    | fail_if_no_progress refine Keeps.inPlane ?_ rfl rfl
    | (rename_i hq; split at hq <;> first | (cases hq) | skip)
    | (simp_all only; done)

theorem State.originSlot_keeps {z : State} (s : State) (p n flow : Nat) (hs : Keeps false false z s) :
    Keeps false false z (State.originSlot s p n flow).1 := by
  unfold State.originSlot
  repeat' first
    | with_reducible assumption
    | with_reducible apply State.advanceMsg_keeps
    | with_reducible apply State.noteDeparted_keeps
    | with_reducible apply State.setFabric_keeps
    | (extract_lets +onlyGivenNames x;
       first | (refine Keeps.cut (t := x) ?_ (fun hx => ?_); subst x; rotate_left; clear_value x; rotate_right)
             | (refine Keeps.cut (t := x.1) ?_ (fun hx => ?_); subst x; rotate_left; clear_value x; rotate_right)
             | (refine Keeps.cut (t := x.2) ?_ (fun hx => ?_); subst x; rotate_left; clear_value x; rotate_right)
             | clear_value x)
    | dsimp -zeta only
    | (intro _)
    | split
    | assumption
    | fail_if_no_progress refine Keeps.change ?_ rfl rfl rfl rfl rfl rfl rfl rfl rfl
    | fail_if_no_progress refine Keeps.inPlane ?_ rfl rfl
    | (rename_i hq; split at hq <;> first | (cases hq) | skip)
    | (simp_all only; done)
theorem State.originSlot_keeps' {z : State} {s : State} {p n flow : Nat} {u' o'} (hs : Keeps false false z s) (e' :
    State.originSlot s p n flow = (u', o')) : Keeps false false z u' := by
  have k := State.originSlot_keeps (z := z) s p n flow hs
  rw [e'] at k; exact k

theorem State.resendSlot_keeps {z : State} (s : State) (p n flow : Nat) (hs : Keeps false false z s) :
    Keeps false false z (State.resendSlot s p n flow).1 := by
  unfold State.resendSlot
  repeat' first
    | with_reducible assumption
    | with_reducible apply State.bump_keeps
    | with_reducible apply State.noteDeparted_keeps
    | with_reducible apply State.setFabric_keeps
    | (extract_lets +onlyGivenNames x;
       first | (refine Keeps.cut (t := x) ?_ (fun hx => ?_); subst x; rotate_left; clear_value x; rotate_right)
             | (refine Keeps.cut (t := x.1) ?_ (fun hx => ?_); subst x; rotate_left; clear_value x; rotate_right)
             | (refine Keeps.cut (t := x.2) ?_ (fun hx => ?_); subst x; rotate_left; clear_value x; rotate_right)
             | (subst x; beta_reduce))
    | dsimp -zeta only
    | (intro _)
    | split
    | assumption
    | fail_if_no_progress refine Keeps.change ?_ rfl rfl rfl rfl rfl rfl rfl rfl rfl
    | fail_if_no_progress refine Keeps.inPlane ?_ rfl rfl
    | (rename_i hq; split at hq <;> first | (cases hq) | skip)
    | (simp_all only; done)
theorem State.resendSlot_keeps' {z : State} {s : State} {p n flow : Nat} {u' o'} (hs : Keeps false false z s) (e' :
    State.resendSlot s p n flow = (u', o')) : Keeps false false z u' := by
  have k := State.resendSlot_keeps (z := z) s p n flow hs
  rw [e'] at k; exact k

theorem State.ownSlot_keeps {z : State} (s : State) (p n : Nat) (e : TxEnt) (hs : Keeps false false z s) :
    Keeps false false z (State.ownSlot s p n e).1 := by
  unfold State.ownSlot
  repeat' first
    | with_reducible assumption
    | with_reducible apply State.originSlot_keeps
    | with_reducible refine State.originSlot_keeps' ?_ (by assumption)
    | with_reducible apply State.resendSlot_keeps
    | with_reducible refine State.resendSlot_keeps' ?_ (by assumption)
    | dsimp -zeta only
    | (intro _)
    | split
    | assumption
    | fail_if_no_progress refine Keeps.change ?_ rfl rfl rfl rfl rfl rfl rfl rfl rfl
    | fail_if_no_progress refine Keeps.inPlane ?_ rfl rfl
    | (simp_all only; done)
theorem State.ownSlot_keeps' {z : State} {s : State} {p n : Nat} {e : TxEnt} {u' o'} (hs : Keeps false false z s) (e' :
    State.ownSlot s p n e = (u', o')) : Keeps false false z u' := by
  have k := State.ownSlot_keeps (z := z) s p n e hs
  rw [e'] at k; exact k

theorem State.bestEffort_keeps {z : State} (s : State) (p flow : Nat) (hs : Keeps false false z s) :
    Keeps false false z (State.bestEffort s p flow).1 := by
  unfold State.bestEffort
  repeat' first
    | with_reducible assumption
    | with_reducible apply State.settleSend_keeps
    | with_reducible apply State.advanceMsg_keeps
    | with_reducible apply State.updPort_keeps
    | with_reducible apply Keeps.elim
    | (extract_lets +onlyGivenNames x;
       first | (refine Keeps.cut (t := x) ?_ (fun hx => ?_); subst x; rotate_left; clear_value x; rotate_right)
             | (refine Keeps.cut (t := x.1) ?_ (fun hx => ?_); subst x; rotate_left; clear_value x; rotate_right)
             | (refine Keeps.cut (t := x.2) ?_ (fun hx => ?_); subst x; rotate_left; clear_value x; rotate_right)
             | (subst x; beta_reduce))
    | dsimp -zeta only
    | (intro _)
    | split
    | assumption
    | fail_if_no_progress refine Keeps.change ?_ rfl rfl rfl rfl rfl rfl rfl rfl rfl
    | fail_if_no_progress refine Keeps.inPlane ?_ rfl rfl
    | (rename_i hq; split at hq <;> first | (cases hq) | skip)
    | (simp_all only; done)
theorem State.bestEffort_keeps' {z : State} {s : State} {p flow : Nat} {u' o'} (hs : Keeps false false z s) (e' :
    State.bestEffort s p flow = (u', o')) : Keeps false false z u' := by
  have k := State.bestEffort_keeps (z := z) s p flow hs
  rw [e'] at k; exact k

theorem State.controlSent_keeps {z : State} (s : State) (p g : Nat) (hs : Keeps false false z s) :
    Keeps false false z (State.controlSent s p g) := by
  unfold State.controlSent
  repeat' first
    | with_reducible assumption
    | with_reducible apply State.updPort_keeps

theorem State.chooseSlot_keeps {z : State} (s : State) (p n : Nat) (hs : Keeps false false z s) :
    Keeps false false z (State.chooseSlot s p n).1 := by
  unfold State.chooseSlot
  repeat' first
    | with_reducible assumption
    | with_reducible apply State.ownSlot_keeps
    | with_reducible refine State.ownSlot_keeps' ?_ (by assumption)
    | with_reducible apply State.bestEffort_keeps
    | with_reducible refine State.bestEffort_keeps' ?_ (by assumption)
    | with_reducible apply State.controlSent_keeps
    | (extract_lets +onlyGivenNames x;
       first | (refine Keeps.cut (t := x) ?_ (fun hx => ?_); subst x; rotate_left; clear_value x; rotate_right)
             | (refine Keeps.cut (t := x.1) ?_ (fun hx => ?_); subst x; rotate_left; clear_value x; rotate_right)
             | (refine Keeps.cut (t := x.2) ?_ (fun hx => ?_); subst x; rotate_left; clear_value x; rotate_right)
             | (subst x; beta_reduce))
    | dsimp -zeta only
    | (intro _)
    | split
    | assumption
    | fail_if_no_progress refine Keeps.change ?_ rfl rfl rfl rfl rfl rfl rfl rfl rfl
    | fail_if_no_progress refine Keeps.inPlane ?_ rfl rfl
    | (rename_i hq; split at hq <;> first | (cases hq) | skip)
    | (simp_all only; done)
theorem State.chooseSlot_keeps' {z : State} {s : State} {p n : Nat} {u' o'} (hs : Keeps false false z s) (e' : State.chooseSlot
    s p n = (u', o')) : Keeps false false z u' := by
  have k := State.chooseSlot_keeps (z := z) s p n hs
  rw [e'] at k; exact k

theorem State.seal_keeps {z : State} (s : State) (p n : Nat) (sl : Slot) (hs : Keeps false false z s) :
    Keeps false false z (State.seal s p n sl) := by
  unfold State.seal
  repeat' first
    | with_reducible assumption
    | with_reducible apply State.bump_keeps
    | with_reducible apply State.pmc_keeps
    | with_reducible apply State.updPort_keeps
    | (extract_lets +onlyGivenNames x;
       first | (refine Keeps.cut (t := x) ?_ (fun hx => ?_); subst x; rotate_left; clear_value x; rotate_right) | clear_value x)
    | dsimp -zeta only
    | (intro _)
    | split

theorem State.takeWrite_keeps {lp lq : Bool} {z : State} {s : State} {f : FlowRec} {sl : Slot} {u'} (e' : State.takeWrite s f
    sl = some u') (hs : Keeps lp lq z s) : Keeps lp lq z u' := by
  unfold State.takeWrite at e'
  try dsimp only at e'
  repeat' split at e'
  all_goals first | cases e' | skip
  all_goals
    repeat' first
      | with_reducible assumption
      | with_reducible apply State.bump_keeps
      | with_reducible apply State.writeBytes_keeps
      | with_reducible refine State.writeBytes_keeps' ?_ (by assumption)
      | with_reducible apply State.chargeRange_keeps
      | with_reducible apply State.ueReport_keeps
      | (extract_lets +onlyGivenNames x;
         first | (refine Keeps.cut (t := x) ?_ (fun hx => ?_); subst x; rotate_left; clear_value x; rotate_right)
               | (refine Keeps.cut (t := x.1) ?_ (fun hx => ?_); subst x; rotate_left; clear_value x; rotate_right)
               | (refine Keeps.cut (t := x.2) ?_ (fun hx => ?_); subst x; rotate_left; clear_value x; rotate_right)
               | clear_value x)
      | dsimp -zeta only
      | (intro _)
      | split
      | assumption
      | fail_if_no_progress refine Keeps.update ?_ rfl rfl rfl
      | (rename_i hq; split at hq <;> first | (cases hq) | skip)
      | (simp_all only; done)

theorem State.takeResult_keeps {lp lq : Bool} {z : State} {s : State} {f : FlowRec} {sl : Slot} {u'} (e' : State.takeResult s f
    sl = some u') (hs : Keeps lp lq z s) : Keeps lp lq z u' := by
  unfold State.takeResult at e'
  try dsimp only at e'
  repeat' split at e'
  all_goals first | cases e' | skip
  all_goals
    repeat' first
      | with_reducible assumption
      | exact fun _ _ => rfl
      | exact fun h => absurd h Bool.false_ne_true
      | (intro _ _; (try dsimp only); split <;> rfl)
      | with_reducible apply State.settleSend_keeps
      | with_reducible apply State.updCmd_keeps
      | with_reducible apply State.writeBytes_keeps
      | with_reducible refine State.writeBytes_keeps' ?_ (by assumption)
      | with_reducible apply State.finish_keeps
      | with_reducible apply State.failAcc_keeps
      | with_reducible apply State.writeEach_keeps
      | with_reducible refine State.writeEach_keeps' ?_ (by assumption)
      | with_reducible apply State.moved_keeps
      | (extract_lets +onlyGivenNames x;
         first | (refine Keeps.cut (t := x) ?_ (fun hx => ?_); subst x; rotate_left; clear_value x; rotate_right)
               | (refine Keeps.cut (t := x.1) ?_ (fun hx => ?_); subst x; rotate_left; clear_value x; rotate_right)
               | (refine Keeps.cut (t := x.2) ?_ (fun hx => ?_); subst x; rotate_left; clear_value x; rotate_right)
               | clear_value x)
      | dsimp -zeta only
      | (intro _)
      | split
      | assumption
      | fail_if_no_progress refine Keeps.update ?_ rfl rfl rfl
      | (rename_i hq; split at hq <;> first | (cases hq) | skip)
      | (simp_all only; done)

theorem State.foreignAppend_keeps {lp lq : Bool} {z : State} (s : State) (d : Nat) (r : List Byte) (hs : Keeps lp lq z s) :
    Keeps lp lq z (State.foreignAppend s d r) := by
  unfold State.foreignAppend
  repeat' first
    | with_reducible assumption
    | with_reducible apply State.bump_keeps
    | with_reducible apply State.writeBytes_keeps
    | with_reducible refine State.writeBytes_keeps' ?_ (by assumption)
    | (extract_lets +onlyGivenNames x; clear_value x)
    | dsimp -zeta only
    | (intro _)
    | split

theorem State.takeExport_keeps {z : State} (s : State) (d : Nat) (f : FlowRec) (sl : Slot) (hs : Keeps false false z s) :
    Keeps false false z (State.takeExport s d f sl) := by
  unfold State.takeExport
  repeat' first
    | with_reducible assumption
    | with_reducible apply State.updRx_keeps
    | with_reducible apply State.foreignAppend_keeps
    | (extract_lets +onlyGivenNames x; subst x; beta_reduce)
    | dsimp -zeta only
    | (intro _)
    | split

theorem State.takeUpdate_keeps {z : State} (s : State) (d : Nat) (f : FlowRec) (sl : Slot) (hs : Keeps false false z s) :
    Keeps false false z (State.takeUpdate s d f sl) := by
  unfold State.takeUpdate
  repeat' first
    | with_reducible assumption
    | with_reducible apply State.bump_keeps
    | with_reducible apply State.pmc_keeps
    | with_reducible apply State.updRx_keeps
    | with_reducible apply State.takeHeader_keeps
    | with_reducible refine State.takeHeader_keeps' ?_ (by assumption)
    | with_reducible apply State.takeBlock_keeps
    | with_reducible apply Keeps.foldl
    | with_reducible apply Keeps.foldl_fst
    | with_reducible apply Keeps.foldl_snd
    | (extract_lets +onlyGivenNames x;
       first | (refine Keeps.cut (t := x) ?_ (fun hx => ?_); subst x; rotate_left; clear_value x; rotate_right)
             | (refine Keeps.cut (t := x.1) ?_ (fun hx => ?_); subst x; rotate_left; clear_value x; rotate_right)
             | clear_value x)
    | dsimp -zeta only
    | (intro _)
    | split

theorem State.takeSignal_keeps {z : State} (s : State) (f : FlowRec) (sl : Slot) (hs : Keeps false false z s) :
    Keeps false false z (State.takeSignal s f sl) := by
  unfold State.takeSignal
  repeat' first
    | with_reducible assumption
    | with_reducible apply State.signals_keeps
    | with_reducible apply State.updRx_keeps

theorem State.toUnit_keeps {z : State} {s : State} {p : Nat} {f : FlowRec} {sl : Slot} {u'} (e' : State.toUnit s p f sl = some
    u') (hs : Keeps false false z s) : Keeps false false z u' := by
  unfold State.toUnit at e'
  try dsimp only at e'
  repeat' split at e'
  all_goals first | cases e' | skip
  all_goals
    repeat' first
      | with_reducible assumption
      | refine State.takeBatch_keeps (by assumption) ?_
      | refine State.takeWrite_keeps (by assumption) ?_
      | refine State.takeResult_keeps (by assumption) ?_
      | with_reducible apply State.takeExport_keeps
      | with_reducible apply State.takeUpdate_keeps
      | with_reducible apply State.takeSignal_keeps
      | (extract_lets +onlyGivenNames x;
         first | (refine Keeps.cut (t := x) ?_ (fun hx => ?_); subst x; rotate_left; clear_value x; rotate_right)
               | (refine Keeps.cut (t := x.1) ?_ (fun hx => ?_); subst x; rotate_left; clear_value x; rotate_right)
               | (refine Keeps.cut (t := x.2) ?_ (fun hx => ?_); subst x; rotate_left; clear_value x; rotate_right)
               | clear_value x)
      | dsimp -zeta only
      | (intro _)
      | split
      | assumption
      | fail_if_no_progress refine Keeps.change ?_ rfl rfl rfl rfl rfl rfl rfl rfl rfl
      | fail_if_no_progress refine Keeps.inPlane ?_ rfl rfl
      | (rename_i hq; split at hq <;> first | (cases hq) | skip)
      | (simp_all only; done)

theorem State.acceptSlot_keeps {z : State} (s : State) (p : Nat) (f : FlowRec) (sl : Slot) (hs : Keeps false false z s) :
    Keeps false false z (State.acceptSlot s p f sl) := by
  unfold State.acceptSlot
  repeat' first
    | with_reducible assumption
    | with_reducible apply State.blocks_keeps
    | with_reducible apply State.addWaiter_keeps
    | refine State.toUnit_keeps (by assumption) ?_
    | (extract_lets +onlyGivenNames x;
       first | (refine Keeps.cut (t := x) ?_ (fun hx => ?_); subst x; rotate_left; clear_value x; rotate_right)
             | (refine Keeps.cut (t := x.1) ?_ (fun hx => ?_); subst x; rotate_left; clear_value x; rotate_right)
             | (refine Keeps.cut (t := x.2) ?_ (fun hx => ?_); subst x; rotate_left; clear_value x; rotate_right)
             | clear_value x)
    | dsimp -zeta only
    | (intro _)
    | split
    | assumption
    | fail_if_no_progress refine Keeps.change ?_ rfl rfl rfl rfl rfl rfl rfl rfl rfl
    | fail_if_no_progress refine Keeps.inPlane ?_ rfl rfl
    | (rename_i hq; split at hq <;> first | (cases hq) | skip)
    | (simp_all only; done)

theorem State.retryWaiters_keeps {z : State} (s : State) (hs : Keeps false false z s) :
    Keeps false false z (State.retryWaiters s) := by
  unfold State.retryWaiters
  repeat' first
    | with_reducible assumption
    | with_reducible apply State.acceptSlot_keeps
    | with_reducible apply State.setFabric_keeps
    | with_reducible apply State.watchWrite_keeps
    | with_reducible apply Keeps.foldl
    | with_reducible apply Keeps.foldl_fst
    | with_reducible apply Keeps.foldl_snd
    | (extract_lets +onlyGivenNames x;
       first | (refine Keeps.cut (t := x) ?_ (fun hx => ?_); subst x; rotate_left; clear_value x; rotate_right)
             | (refine Keeps.cut (t := x.1) ?_ (fun hx => ?_); subst x; rotate_left; clear_value x; rotate_right)
             | (refine Keeps.cut (t := x.2) ?_ (fun hx => ?_); subst x; rotate_left; clear_value x; rotate_right)
             | clear_value x)
    | dsimp -zeta only
    | (intro _)
    | split
    | assumption
    | fail_if_no_progress refine Keeps.change ?_ rfl rfl rfl rfl rfl rfl rfl rfl rfl
    | fail_if_no_progress refine Keeps.inPlane ?_ rfl rfl
    | (rename_i hq; split at hq <;> first | (cases hq) | skip)
    | (simp_all only; done)

theorem State.freshRx_keeps {z : State} (s : State) (f : FlowRec) (hs : Keeps false false z s) :
    Keeps false false z (State.freshRx s f) := by
  unfold State.freshRx
  repeat' first
    | with_reducible assumption
    | with_reducible apply State.updRx_keeps
    | (extract_lets +onlyGivenNames x; clear_value x)
    | dsimp -zeta only
    | (intro _)
    | split

theorem State.deliver_keeps {z : State} (s : State) (p : Nat) (sl : Slot) (hs : Keeps false false z s) :
    Keeps false false z (State.deliver s p sl) := by
  unfold State.deliver
  repeat' first
    | with_reducible assumption
    | with_reducible apply State.bump_keeps
    | with_reducible apply State.updRx_keeps
    | with_reducible apply State.acceptSlot_keeps
    | with_reducible apply State.freshRx_keeps
    | (extract_lets +onlyGivenNames x;
       first | (refine Keeps.cut (t := x) ?_ (fun hx => ?_); subst x; rotate_left; clear_value x; rotate_right)
             | (refine Keeps.cut (t := x.1) ?_ (fun hx => ?_); subst x; rotate_left; clear_value x; rotate_right)
             | (refine Keeps.cut (t := x.2) ?_ (fun hx => ?_); subst x; rotate_left; clear_value x; rotate_right)
             | clear_value x)
    | dsimp -zeta only
    | (intro _)
    | split
    | assumption
    | fail_if_no_progress refine Keeps.change ?_ rfl rfl rfl rfl rfl rfl rfl rfl rfl
    | fail_if_no_progress refine Keeps.inPlane ?_ rfl rfl
    | (rename_i hq; split at hq <;> first | (cases hq) | skip)
    | (simp_all only; done)

theorem State.placeRep_keeps {z : State} (s : State) (p kind slot frame flow epoch : Nat) (hs : Keeps false false z s) :
    Keeps false false z (State.placeRep s p kind slot frame flow epoch) := by
  unfold State.placeRep
  repeat' first
    | with_reducible assumption
    | with_reducible apply State.updPort_keeps

theorem State.missDelivered_keeps {z : State} (s : State) (p n : Nat) (e : RxEnt) (hs : Keeps false false z s) :
    Keeps false false z (State.missDelivered s p n e) := by
  unfold State.missDelivered
  repeat' first
    | with_reducible assumption
    | with_reducible apply State.bump_keeps
    | with_reducible apply State.updRx_keeps
    | with_reducible apply State.freshRx_keeps
    | with_reducible apply State.placeRep_keeps
    | (extract_lets +onlyGivenNames x;
       first | (refine Keeps.cut (t := x) ?_ (fun hx => ?_); subst x; rotate_left; clear_value x; rotate_right) | clear_value x)
    | dsimp -zeta only
    | (intro _)
    | split

theorem State.openPhase_keeps {z : State} (s : State) (p n : Nat) (bs : List Byte) (hs : Keeps false false z s) :
    Keeps false false z (State.openPhase s p n bs).1 := by
  unfold State.openPhase
  repeat' first
    | with_reducible assumption
    | with_reducible apply State.wr_keeps
    | with_reducible apply State.updPort_keeps
    | (extract_lets +onlyGivenNames x;
       first | (refine Keeps.cut (t := x) ?_ (fun hx => ?_); subst x; rotate_left; clear_value x; rotate_right)
             | (refine Keeps.cut (t := x.1) ?_ (fun hx => ?_); subst x; rotate_left; clear_value x; rotate_right)
             | (refine Keeps.cut (t := x.2) ?_ (fun hx => ?_); subst x; rotate_left; clear_value x; rotate_right)
             | (subst x; beta_reduce))
    | dsimp -zeta only
    | (intro _)
    | split
    | assumption
    | fail_if_no_progress refine Keeps.change ?_ rfl rfl rfl rfl rfl rfl rfl rfl rfl
    | fail_if_no_progress refine Keeps.inPlane ?_ rfl rfl
    | (rename_i hq; split at hq <;> first | (cases hq) | skip)
    | (simp_all only; done)
theorem State.openPhase_keeps' {z : State} {s : State} {p n : Nat} {bs : List Byte} {u' o'} (hs : Keeps false false z s) (e' :
    State.openPhase s p n bs = (u', o')) : Keeps false false z u' := by
  have k := State.openPhase_keeps (z := z) s p n bs hs
  rw [e'] at k; exact k

theorem State.openSlot_keeps {z : State} (s : State) (p n : Nat) (rx : RxSlot) (hs : Keeps false false z s) :
    Keeps false false z (State.openSlot s p n rx).1 := by
  unfold State.openSlot
  repeat' first
    | with_reducible assumption
    | with_reducible apply State.bump_keeps
    | with_reducible apply State.openPhase_keeps
    | with_reducible refine State.openPhase_keeps' ?_ (by assumption)
    | with_reducible apply State.updPort_keeps
    | (extract_lets +onlyGivenNames x;
       first | (refine Keeps.cut (t := x) ?_ (fun hx => ?_); subst x; rotate_left; clear_value x; rotate_right)
             | (refine Keeps.cut (t := x.1) ?_ (fun hx => ?_); subst x; rotate_left; clear_value x; rotate_right)
             | (refine Keeps.cut (t := x.2) ?_ (fun hx => ?_); subst x; rotate_left; clear_value x; rotate_right)
             | (subst x; beta_reduce))
    | dsimp -zeta only
    | (intro _)
    | split
    | assumption
    | fail_if_no_progress refine Keeps.change ?_ rfl rfl rfl rfl rfl rfl rfl rfl rfl
    | fail_if_no_progress refine Keeps.inPlane ?_ rfl rfl
    | (rename_i hq; split at hq <;> first | (cases hq) | skip)
    | (simp_all only; done)
theorem State.openSlot_keeps' {z : State} {s : State} {p n : Nat} {rx : RxSlot} {u' o'} (hs : Keeps false false z s) (e' :
    State.openSlot s p n rx = (u', o')) : Keeps false false z u' := by
  have k := State.openSlot_keeps (z := z) s p n rx hs
  rw [e'] at k; exact k

theorem State.judge_keeps {lp lq : Bool} {z : State} (s : State) (p : Nat) (e : Option RxEnt) (sl : Slot) (hs : Keeps lp lq z s) :
    Keeps lp lq z (State.judge s p e sl).1 := by
  unfold State.judge
  repeat' first
    | with_reducible assumption
    | with_reducible apply State.bump_keeps
    | with_reducible apply Keeps.elim
    | (extract_lets +onlyGivenNames x; clear_value x)
    | dsimp -zeta only
    | (intro _)
    | split
theorem State.judge_keeps' {lp lq : Bool} {z : State} {s : State} {p : Nat} {e : Option RxEnt} {sl : Slot} {u' o'} (hs : Keeps lp lq z s) (e' :
    State.judge s p e sl = (u', o')) : Keeps lp lq z u' := by
  have k := State.judge_keeps (z := z) s p e sl hs
  rw [e'] at k; exact k

theorem State.handle_keeps {z : State} (s : State) (p n : Nat) (e : RxEnt) (sl : Slot) (hs : Keeps false false z s) :
    Keeps false false z (State.handle s p n e sl) := by
  unfold State.handle
  repeat' first
    | with_reducible assumption
    | with_reducible apply State.bump_keeps
    | with_reducible apply State.deliver_keeps
    | with_reducible apply State.missDelivered_keeps
    | with_reducible apply State.updPort_keeps
    | with_reducible apply State.setFabric_keeps
    | (extract_lets +onlyGivenNames x; clear_value x)
    | dsimp -zeta only
    | (intro _)
    | split

theorem State.present_keeps {z : State} (s : State) (p n : Nat) (rx : RxSlot) (hs : Keeps false false z s) :
    Keeps false false z (State.present s p n rx) := by
  unfold State.present
  repeat' first
    | with_reducible assumption
    | with_reducible apply State.pmc_keeps
    | with_reducible apply State.openSlot_keeps
    | with_reducible refine State.openSlot_keeps' ?_ (by assumption)
    | with_reducible apply State.judge_keeps
    | with_reducible refine State.judge_keeps' ?_ (by assumption)
    | with_reducible apply State.handle_keeps
    | with_reducible apply State.updPort_keeps
    | with_reducible apply Keeps.elim
    | (extract_lets +onlyGivenNames x;
       first | (refine Keeps.cut (t := x) ?_ (fun hx => ?_); subst x; rotate_left; clear_value x; rotate_right)
             | (refine Keeps.cut (t := x.1) ?_ (fun hx => ?_); subst x; rotate_left; clear_value x; rotate_right)
             | (refine Keeps.cut (t := x.2) ?_ (fun hx => ?_); subst x; rotate_left; clear_value x; rotate_right)
             | clear_value x)
    | dsimp -zeta only
    | (intro _)
    | split
    | assumption
    | fail_if_no_progress refine Keeps.change ?_ rfl rfl rfl rfl rfl rfl rfl rfl rfl
    | fail_if_no_progress refine Keeps.inPlane ?_ rfl rfl
    | (rename_i hq; split at hq <;> first | (cases hq) | skip)
    | (simp_all only; done)

theorem State.signalApply_keeps {z : State} (s : State) (flow epoch : Nat) (hs : Keeps false false z s) :
    Keeps false false z (State.signalApply s flow epoch) := by
  unfold State.signalApply
  repeat' first
    | with_reducible assumption
    | with_reducible apply State.sendMsg_keeps
    | with_reducible apply State.signals_keeps
    | with_reducible apply State.updRx_keeps
    | with_reducible apply Keeps.foldl
    | with_reducible apply Keeps.foldl_fst
    | with_reducible apply Keeps.foldl_snd
    | (extract_lets +onlyGivenNames x;
       first | (refine Keeps.cut (t := x) ?_ (fun hx => ?_); subst x; rotate_left; clear_value x; rotate_right) | clear_value x)
    | dsimp -zeta only
    | (intro _)
    | split

theorem State.lossAt_keeps {z : State} (s : State) (f : FlowRec) (m : Missed) (hs : Keeps false false z s) :
    Keeps false false z (State.lossAt s f m) := by
  unfold State.lossAt
  repeat' first
    | with_reducible assumption
    | with_reducible apply State.bump_keeps
    | with_reducible apply State.finish_keeps
    | with_reducible apply State.updRx_keeps
    | with_reducible apply State.raise_keeps
    | with_reducible apply State.updRaise_keeps
    | (extract_lets +onlyGivenNames x;
       first | (refine Keeps.cut (t := x) ?_ (fun hx => ?_); subst x; rotate_left; clear_value x; rotate_right) | clear_value x)
    | dsimp -zeta only
    | (intro _)
    | split

theorem State.flowLoss_keeps {z : State} (s : State) (flow epoch frame : Nat) (hs : Keeps false false z s) :
    Keeps false false z (State.flowLoss s flow epoch frame) := by
  unfold State.flowLoss
  repeat' first
    | with_reducible assumption
    | with_reducible apply State.bump_keeps
    | with_reducible apply State.faultRecord_keeps
    | with_reducible apply State.updRx_keeps
    | with_reducible apply State.lossAt_keeps
    | (extract_lets +onlyGivenNames x;
       first | (refine Keeps.cut (t := x) ?_ (fun hx => ?_); subst x; rotate_left; clear_value x; rotate_right) | clear_value x)
    | dsimp -zeta only
    | (intro _)
    | split

end Sys2Proof.Machine
end

