-- ==== Sys2Proof/Laws/KeepsCommit.lean ====
section
/-!
SUPPORT. Laws/KeepsCommit.lean: the operations of Machine/Commit.lean keep the queue, the memories, the points and the fuses.
-/
set_option Elab.async false
set_option linter.all false
namespace Sys2Proof.Machine

theorem State.onStep_keeps {lp lq : Bool} {z : State} (s : State) (id : CmdId) (op : Nat) (f : Cmd → State) (hs : Keeps lp lq z s) (hf : ∀ a0,
    Keeps lp lq z (f a0)) :
    Keeps lp lq z (State.onStep s id op f) := by
  unfold State.onStep
  repeat' first
    | with_reducible assumption
    | with_reducible apply State.onCmd_keeps

theorem State.openSteps_keeps {z : State} (s : State) (c : Cmd) (r : List Byte) (hs : Keeps false false z s) :
    Keeps false false z (State.openSteps s c r) := by
  unfold State.openSteps
  repeat' first
    | with_reducible assumption
    | with_reducible apply State.setSteps_keeps
    | with_reducible apply State.updUpd_keeps
    | with_reducible apply Keeps.foldl
    | with_reducible apply Keeps.foldl_fst
    | with_reducible apply Keeps.foldl_snd
    | (extract_lets +onlyGivenNames x;
       first | (refine Keeps.cut (t := x) ?_ (fun hx => ?_); subst x; rotate_left; clear_value x; rotate_right)
             | (refine Keeps.cut (t := x.1) ?_ (fun hx => ?_); subst x; rotate_left; clear_value x; rotate_right)
             | (refine Keeps.cut (t := x.2) ?_ (fun hx => ?_); subst x; rotate_left; clear_value x; rotate_right)
             | clear_value x)
    | dsimp -zeta only
    | (intro _)
    | split

theorem State.endWaits_keeps {lp lq : Bool} {z : State} (s : State) (t : Nat) (commit : Bool) (reasons : Nat) (hs : Keeps lp lq z s) :
    Keeps lp lq z (State.endWaits s t commit reasons) := by
  unfold State.endWaits
  repeat' first
    | with_reducible assumption
    | with_reducible apply State.finish_keeps
    | with_reducible apply Keeps.foldl
    | with_reducible apply Keeps.foldl_fst
    | with_reducible apply Keeps.foldl_snd
    | dsimp -zeta only
    | (intro _)
    | split

theorem State.xorBlock_keeps {lp lq : Bool} {z : State} (s : State) (ctx a : Nat) (delta : List Byte) (hs : Keeps lp lq z s) :
    Keeps lp lq z (State.xorBlock s ctx a delta) := by
  unfold State.xorBlock
  repeat' first
    | with_reducible assumption
    | with_reducible apply State.writeBytes_keeps
    | with_reducible refine State.writeBytes_keeps' ?_ (by assumption)
    | with_reducible apply State.ueReport_keeps
    | (extract_lets +onlyGivenNames x; clear_value x)
    | dsimp -zeta only
    | (intro _)
    | split

theorem State.reverse_keeps {z : State} (s : State) (d t : Nat) (hs : Keeps false false z s) :
    Keeps false false z (State.reverse s d t) := by
  unfold State.reverse
  repeat' first
    | with_reducible assumption
    | with_reducible apply State.xorBlock_keeps
    | with_reducible apply State.updUpd_keeps
    | with_reducible apply Keeps.foldl
    | with_reducible apply Keeps.foldl_fst
    | with_reducible apply Keeps.foldl_snd
    | (extract_lets +onlyGivenNames x;
       first | (refine Keeps.cut (t := x) ?_ (fun hx => ?_); subst x; rotate_left; clear_value x; rotate_right)
             | (refine Keeps.cut (t := x.1) ?_ (fun hx => ?_); subst x; rotate_left; clear_value x; rotate_right)
             | (refine Keeps.cut (t := x.2) ?_ (fun hx => ?_); subst x; rotate_left; clear_value x; rotate_right)
             | clear_value x)
    | dsimp -zeta only
    | (intro _)

theorem State.decideStep_keeps {z : State} (s : State) (t : Nat) (commit : Bool) (reasons : Nat) (hs : Keeps false false z s) :
    Keeps false false z (State.decideStep s t commit reasons) := by
  unfold State.decideStep
  repeat' first
    | with_reducible assumption
    | with_reducible apply State.endWaits_keeps
    | with_reducible apply State.reverse_keeps
    | with_reducible apply State.swapAll_keeps
    | with_reducible apply State.bump_keeps
    | with_reducible apply State.logTrace_keeps
    | with_reducible apply State.setSteps_keeps
    | with_reducible apply State.updUpd_keeps
    | with_reducible apply State.decideDie_keeps
    | with_reducible apply Keeps.foldl
    | with_reducible apply Keeps.foldl_fst
    | with_reducible apply Keeps.foldl_snd
    | (extract_lets +onlyGivenNames x;
       first | (refine Keeps.cut (t := x) ?_ (fun hx => ?_); subst x; rotate_left; clear_value x; rotate_right)
             | (refine Keeps.cut (t := x.1) ?_ (fun hx => ?_); subst x; rotate_left; clear_value x; rotate_right)
             | (refine Keeps.cut (t := x.2) ?_ (fun hx => ?_); subst x; rotate_left; clear_value x; rotate_right)
             | clear_value x)
    | dsimp -zeta only
    | (intro _)
    | split

theorem State.applyDecision_keeps {z : State} (s : State) (d : Decision) (hs : Keeps false false z s) :
    Keeps false false z (State.applyDecision s d) := by
  unfold State.applyDecision
  repeat' first
    | with_reducible assumption
    | with_reducible apply State.decideStep_keeps
    | with_reducible apply State.setSteps_keeps
    | (extract_lets +onlyGivenNames x;
       first | (refine Keeps.cut (t := x) ?_ (fun hx => ?_); subst x; rotate_left; clear_value x; rotate_right) | clear_value x)
    | dsimp -zeta only
    | (intro _)
    | split

theorem State.stepRow_keeps {z : State} (s : State) (commit : Bool) (hs : Keeps false false z s) :
    Keeps false false z (State.stepRow s commit) := by
  unfold State.stepRow
  repeat' first
    | with_reducible assumption
    | with_reducible apply State.applyDecision_keeps
    | dsimp -zeta only
    | (intro _)
    | split

theorem State.tally_keeps {z : State} (s : State) (d tensorId plane block digest : Nat) (hs : Keeps false false z s) :
    Keeps false false z (State.tally s d tensorId plane block digest) := by
  unfold State.tally
  repeat' first
    | with_reducible assumption
    | with_reducible apply State.bump_keeps
    | with_reducible apply State.updUpd_keeps

theorem State.exportSend_keeps {z : State} (s : State) (bs : List Byte) (hs : Keeps false false z s) :
    Keeps false false z (State.exportSend s bs) := by
  unfold State.exportSend
  repeat' first
    | with_reducible assumption
    | with_reducible apply State.setFabric_keeps
    | with_reducible apply Keeps.elim
    | (extract_lets +onlyGivenNames x; clear_value x)
    | dsimp -zeta only
    | (intro _)
    | split

theorem State.drainRecord_keeps {z : State} (s : State) (d : Nat) (hs : Keeps false false z s) :
    Keeps false false z (State.drainRecord s d) := by
  unfold State.drainRecord
  repeat' first
    | with_reducible assumption
    | with_reducible apply State.tally_keeps
    | with_reducible apply State.exportSend_keeps
    | with_reducible apply State.bump_keeps
    | with_reducible apply State.writeBytes_keeps
    | with_reducible refine State.writeBytes_keeps' ?_ (by assumption)
    | with_reducible apply State.updUpd_keeps
    | (extract_lets +onlyGivenNames x;
       first | (refine Keeps.cut (t := x) ?_ (fun hx => ?_); subst x; rotate_left; clear_value x; rotate_right) | clear_value x)
    | dsimp -zeta only
    | (intro _)
    | split

theorem State.onCompare_keeps {lp lq : Bool} {z : State} (s : State) (id : CmdId) (op : Nat) (f : Cmd → State) (hs : Keeps lp lq z s) (hf : ∀ a0,
    Keeps lp lq z (f a0)) :
    Keeps lp lq z (State.onCompare s id op f) := by
  unfold State.onCompare
  repeat' first
    | with_reducible assumption
    | with_reducible apply State.onCmd_keeps

theorem Keeps.ok_refl {lp lq : Bool} {ε : Type} {z s : State} (hs : Keeps lp lq z s) : ∀ u, (Except.ok s : Except ε State) = .ok u → Keeps lp lq z u := by
  intro u e; cases e; exact hs

theorem State.scanDie_keeps {z : State} {s : State} {d : Nat} {u'} (e' : State.scanDie s d = .ok u') (hs : Keeps false false z s) :
    Keeps false false z u' := by
  refine Keeps.foldl_ok _ (Keeps.ok_refl hs) (fun r k h u e => ?_) u' e'
  dsimp only at e
  split at e
  · cases e
  · split at e
    · exact h u e
    · split at e
      · cases e
      · cases e
        exact State.updUpd_keeps _ _ _ (h _ rfl)

theorem State.snapResult_keeps {lp lq : Bool} {z : State} (s : State) (c : Cmd) (hs : Keeps lp lq z s) :
    Keeps lp lq z (State.snapResult s c) := by
  unfold State.snapResult
  repeat' first
    | with_reducible assumption
    | with_reducible apply State.writeBytes_keeps
    | with_reducible refine State.writeBytes_keeps' ?_ (by assumption)
    | with_reducible apply State.finish_keeps
    | with_reducible apply State.failAcc_keeps
    | with_reducible apply Keeps.foldl
    | with_reducible apply Keeps.foldl_fst
    | with_reducible apply Keeps.foldl_snd
    | (extract_lets +onlyGivenNames x;
       first | (refine Keeps.cut (t := x.1) ?_ (fun hx => ?_); subst x; rotate_left; clear_value x; rotate_right)
             | clear_value x)
    | dsimp -zeta only
    | (intro _)
    | split

theorem State.snapStep_keeps {z : State} (s : State) (c : Cmd) (hs : Keeps false false z s) : Keeps false false z (State.snapStep s c) := by
  unfold State.snapStep
  extract_lets id t scanned
  have e0 : ∀ u, scanned = .ok u → Keeps false false z u :=
    Keeps.foldl_ok _ (Keeps.ok_refl hs) fun r d h v e => by
      split at e
      · cases e
      · exact State.scanDie_keeps e (h _ rfl)
  clear_value scanned
  split
  · exact State.finish_keeps _ _ _ hs
  · split
    · exact State.finish_keeps _ _ _ hs
    · split
      · exact State.updCmd_keeps _ _ _ hs fun _ _ => rfl
      · split
        · exact hs
        · exact State.failAcc_keeps _ _ _ hs
        · exact State.snapResult_keeps _ _ (e0 _ rfl)
  · split
    · exact State.finish_keeps _ _ _ hs
    · exact State.updCmd_keeps _ _ _ hs fun _ _ => rfl

theorem State.whenDecided_keeps {lp lq : Bool} {z : State} (s : State) (id : CmdId) (f : State) (hs : Keeps lp lq z s) (hf : Keeps lp lq z f) :
    Keeps lp lq z (State.whenDecided s id f) := by
  unfold State.whenDecided
  repeat' first
    | with_reducible assumption
    | exact fun _ _ => rfl
    | exact fun h => absurd h Bool.false_ne_true
    | (intro _ _; (try dsimp only); split <;> rfl)
    | with_reducible apply State.updCmd_keeps
    | dsimp -zeta only
    | (intro _)
    | split

theorem State.blocks_keeps {lp lq : Bool} {z : State} (s : State) (c : Cmd) (hs : Keeps lp lq z s) :
    Keeps lp lq z (State.blocks s c) := by
  unfold State.blocks
  repeat' first
    | with_reducible assumption
    | with_reducible apply State.writeBytes_keeps
    | with_reducible refine State.writeBytes_keeps' ?_ (by assumption)
    | with_reducible apply State.finish_keeps
    | with_reducible apply State.failAcc_keeps
    | (extract_lets +onlyGivenNames x;
       first | (refine Keeps.cut (t := x.1) ?_ (fun hx => ?_); subst x; rotate_left; clear_value x; rotate_right)
             | clear_value x)
    | dsimp -zeta only
    | (intro _)
    | split

theorem State.repairBlock_keeps {z : State} (s : State) (c : Cmd) (hs : Keeps false false z s) :
    Keeps false false z (State.repairBlock s c) := by
  unfold State.repairBlock
  repeat' first
    | with_reducible assumption
    | exact fun _ _ => rfl
    | exact fun h => absurd h Bool.false_ne_true
    | (intro _ _; (try dsimp only); split <;> rfl)
    | with_reducible apply State.updCmd_keeps
    | with_reducible apply State.free_keeps
    | with_reducible refine State.free_keeps' ?_ (by assumption)
    | with_reducible apply State.writeBytes_keeps
    | with_reducible refine State.writeBytes_keeps' ?_ (by assumption)
    | with_reducible apply State.finish_keeps
    | with_reducible apply State.failAcc_keeps
    | with_reducible apply State.journalPut_keeps
    | (extract_lets +onlyGivenNames x;
       first | (refine Keeps.cut (t := x) ?_ (fun hx => ?_); subst x; rotate_left; clear_value x; rotate_right)
             | (refine Keeps.cut (t := x.1) ?_ (fun hx => ?_); subst x; rotate_left; clear_value x; rotate_right)
             | clear_value x)
    | dsimp -zeta only
    | (intro _)
    | split
    | assumption
    | fail_if_no_progress refine Keeps.change ?_ rfl rfl rfl rfl rfl rfl rfl rfl rfl

theorem State.unrecord_keeps {z : State} (s : State) (d : Nat) (bs : List Byte) (hs : Keeps false false z s) :
    Keeps false false z (State.unrecord s d bs) := by
  unfold State.unrecord
  repeat' first
    | with_reducible assumption
    | with_reducible apply State.xorBlock_keeps
    | with_reducible apply State.tally_keeps
    | (extract_lets +onlyGivenNames x;
       first | (refine Keeps.cut (t := x) ?_ (fun hx => ?_); subst x; rotate_left; clear_value x; rotate_right)
             | (refine Keeps.cut (t := x.1) ?_ (fun hx => ?_); subst x; rotate_left; clear_value x; rotate_right)
             | (refine Keeps.cut (t := x.2) ?_ (fun hx => ?_); subst x; rotate_left; clear_value x; rotate_right)
             | clear_value x)
    | dsimp -zeta only
    | (intro _)
    | split

theorem State.rollback_keeps {z : State} (s : State) (c : Cmd) (hs : Keeps false false z s) : Keeps false false z (State.rollback s c) := by
  unfold State.rollback
  extract_lets id t dies go
  have e0 : ∀ u, go = .ok u → Keeps false false z u :=
    Keeps.foldl_ok _ (Keeps.ok_refl hs) fun r d h v e => by
      split at e
      · cases e
      · rename_i u
        split at e
        · cases e
        · rename_i rs _
          have hv : Keeps false false z (rs.foldl (fun v r => v.unrecord d r.2) u) :=
            Keeps.foldl _ (h u rfl) fun v r hv => State.unrecord_keeps _ _ _ hv
          cases e
          split
          · exact State.wr_keeps _ _ _ hv
          · exact hv
  clear_value go
  split
  · exact State.updCmd_keeps _ _ _ hs fun _ _ => rfl
  · split
    · exact State.finish_keeps _ _ _ hs
    · split
      · exact hs
      · exact State.failAcc_keeps _ _ _ hs
      · exact State.finish_keeps _ _ _ (State.setSteps_keeps _ _ (e0 _ rfl))

theorem State.evaluateBegin_keeps {z : State} (s : State) (c : Cmd) (hs : Keeps false false z s) :
    Keeps false false z (State.evaluateBegin s c) := by
  unfold State.evaluateBegin
  repeat' first
    | with_reducible assumption
    | exact fun _ _ => rfl
    | exact fun h => absurd h Bool.false_ne_true
    | (intro _ _; (try dsimp only); split <;> rfl)
    | with_reducible apply State.updCmd_keeps
    | with_reducible apply State.finish_keeps
    | with_reducible apply State.setSteps_keeps
    | (extract_lets +onlyGivenNames x; clear_value x)
    | dsimp -zeta only
    | (intro _)
    | split

end Sys2Proof.Machine
end

