-- ==== Sys2Proof/Laws/KeepsControl.lean ====
section
/-!
SUPPORT. Laws/KeepsControl.lean: the operations of Machine/Control.lean keep the queue, the memories, the points and the fuses.
-/
set_option Elab.async false
set_option linter.all false
namespace Sys2Proof.Machine

theorem State.masterDecides_keeps {z : State} (s : State) (f : Nat) (c : ConsField) (hs : Keeps false false z s) :
    Keeps false false z (State.masterDecides s f c) := by
  unfold State.masterDecides
  repeat' first
    | with_reducible assumption
    | with_reducible apply State.setSteps_keeps
    | (extract_lets +onlyGivenNames x; clear_value x)
    | dsimp -zeta only
    | (intro _)
    | split

theorem State.countFrames_keeps {z : State} (s : State) (n p : Nat) (hs : Keeps false false z s) :
    Keeps false false z (State.countFrames s n p) := by
  unfold State.countFrames
  repeat' first
    | with_reducible assumption
    | with_reducible apply State.bump_keeps
    | with_reducible apply State.updPort_keeps
    | (extract_lets +onlyGivenNames x;
       first | (refine Keeps.cut (t := x) ?_ (fun hx => ?_); subst x; rotate_left; clear_value x; rotate_right)
             | (refine Keeps.cut (t := x.1) ?_ (fun hx => ?_); subst x; rotate_left; clear_value x; rotate_right)
             | (refine Keeps.cut (t := x.2) ?_ (fun hx => ?_); subst x; rotate_left; clear_value x; rotate_right)
             | clear_value x)
    | dsimp -zeta only
    | (intro _)
    | split
    | assumption
    | fail_if_no_progress refine Keeps.change ?_ rfl rfl rfl rfl rfl rfl rfl rfl rfl
    | fail_if_no_progress refine Keeps.inPlane ?_ rfl rfl
    | (rename_i hq; split at hq <;> first | (cases hq) | skip)
    | (simp_all only; done)

theorem State.frameStart_keeps {z : State} (s : State) (g : Nat) (hs : Keeps false false z s) :
    Keeps false false z (State.frameStart s g) := by
  unfold State.frameStart
  repeat' first
    | with_reducible assumption
    | with_reducible apply State.masterDecides_keeps
    | with_reducible apply State.countFrames_keeps
    | with_reducible apply State.roleChange_keeps
    | with_reducible apply State.retryWaiters_keeps
    | with_reducible apply State.setFabric_keeps
    | with_reducible apply State.setSteps_keeps
    | with_reducible apply Keeps.foldl
    | with_reducible apply Keeps.foldl_fst
    | with_reducible apply Keeps.foldl_snd
    | (extract_lets +onlyGivenNames x;
       first | (refine Keeps.cut (t := x) ?_ (fun hx => ?_); subst x; rotate_left; clear_value x; rotate_right)
             | (refine Keeps.cut (t := x.1) ?_ (fun hx => ?_); subst x; rotate_left; clear_value x; rotate_right)
             | (refine Keeps.cut (t := x.2) ?_ (fun hx => ?_); subst x; rotate_left; clear_value x; rotate_right)
             | clear_value x)
    | dsimp -zeta only
    | (intro _)
    | split
    | assumption
    | fail_if_no_progress refine Keeps.change ?_ rfl rfl rfl rfl rfl rfl rfl rfl rfl
    | fail_if_no_progress refine Keeps.inPlane ?_ rfl rfl
    | (rename_i hq; split at hq <;> first | (cases hq) | skip)
    | (simp_all only; done)

theorem State.median_keeps {lp lq : Bool} {z : State} (s : State) (os : List Int) (hs : Keeps lp lq z s) :
    Keeps lp lq z (State.median s os).2 := by
  unfold State.median
  repeat' first
    | with_reducible assumption
    | with_reducible apply State.free_keeps
theorem State.median_keeps' {lp lq : Bool} {z : State} {s : State} {os : List Int} {o' u'} (hs : Keeps lp lq z s) (e' : State.median s os = (o',
    u')) : Keeps lp lq z u' := by
  have k := State.median_keeps (z := z) s os hs
  rw [e'] at k; exact k

theorem State.discipline_keeps {z : State} (s : State) (o : Int) (hs : Keeps false false z s) :
    Keeps false false z (State.discipline s o) := by
  unfold State.discipline
  repeat' first
    | with_reducible assumption
    | with_reducible apply State.median_keeps
    | with_reducible refine State.median_keeps' ?_ (by assumption)
    | with_reducible apply State.bump_keeps
    | with_reducible apply State.free_keeps
    | with_reducible refine State.free_keeps' ?_ (by assumption)
    | with_reducible apply Keeps.foldl
    | with_reducible apply Keeps.foldl_fst
    | with_reducible apply Keeps.foldl_snd
    | (extract_lets +onlyGivenNames x;
       first | (refine Keeps.cut (t := x) ?_ (fun hx => ?_); subst x; rotate_left; clear_value x; rotate_right)
             | (subst x; beta_reduce))
    | dsimp -zeta only
    | (intro _)
    | split
    | assumption
    | fail_if_no_progress refine Keeps.change ?_ rfl rfl rfl rfl rfl rfl rfl rfl rfl

theorem State.fromParent_keeps {z : State} (s : State) (pl : List Byte) (offset : Option Int) (hs : Keeps false false z s) :
    Keeps false false z (State.fromParent s pl offset) := by
  unfold State.fromParent
  repeat' first
    | with_reducible assumption
    | with_reducible apply State.discipline_keeps
    | with_reducible apply State.holdover_keeps
    | (extract_lets +onlyGivenNames x;
       first | (refine Keeps.cut (t := x) ?_ (fun hx => ?_); subst x; rotate_left; clear_value x; rotate_right) | clear_value x)
    | dsimp -zeta only
    | (intro _)
    | split
    | assumption
    | fail_if_no_progress refine Keeps.change ?_ rfl rfl rfl rfl rfl rfl rfl rfl rfl

theorem State.adopt_keeps {z : State} (s : State) (d : Decision) (hs : Keeps false false z s) :
    Keeps false false z (State.adopt s d) := by
  unfold State.adopt
  repeat' first
    | with_reducible assumption
    | with_reducible apply State.applyDecision_keeps
    | with_reducible apply State.bump_keeps
    | with_reducible apply State.setSteps_keeps
    | (extract_lets +onlyGivenNames x;
       refine Keeps.cut (t := x) ?_ (fun hx => ?_); subst x; rotate_left; clear_value x; rotate_right)
    | dsimp -zeta only
    | (intro _)
    | split

theorem State.takeDecisions_keeps {z : State} (s : State) (pl : List Byte) (hs : Keeps false false z s) :
    Keeps false false z (State.takeDecisions s pl) := by
  unfold State.takeDecisions
  repeat' first
    | with_reducible assumption
    | with_reducible apply State.adopt_keeps
    | with_reducible apply State.faultRecord_keeps
    | with_reducible apply State.setSteps_keeps
    | with_reducible apply Keeps.foldl
    | with_reducible apply Keeps.foldl_fst
    | with_reducible apply Keeps.foldl_snd
    | (extract_lets +onlyGivenNames x;
       first | (refine Keeps.cut (t := x) ?_ (fun hx => ?_); subst x; rotate_left; clear_value x; rotate_right) | clear_value x)
    | dsimp -zeta only
    | (intro _)
    | split

theorem State.noteEmpty_keeps {z : State} (s : State) (frame port slot order flow epoch : Nat) (hs : Keeps false false z s) :
    Keeps false false z (State.noteEmpty s frame port slot order flow epoch) := by
  unfold State.noteEmpty
  repeat' first
    | with_reducible assumption
    | with_reducible apply State.placeRep_keeps
    | with_reducible apply State.setFabric_keeps
    | (extract_lets +onlyGivenNames x;
       first | (refine Keeps.cut (t := x) ?_ (fun hx => ?_); subst x; rotate_left; clear_value x; rotate_right) | clear_value x)
    | dsimp -zeta only
    | (intro _)
    | split

theorem State.askOrigin_keeps {z : State} (s : State) (port slot frame : Nat) (hs : Keeps false false z s) :
    Keeps false false z (State.askOrigin s port slot frame).1 := by
  unfold State.askOrigin
  repeat' first
    | with_reducible assumption
    | with_reducible apply State.setFabric_keeps
    | (extract_lets +onlyGivenNames x; clear_value x)
    | dsimp -zeta only
    | (intro _)
    | split
theorem State.askOrigin_keeps' {z : State} {s : State} {port slot frame : Nat} {u' o'} (hs : Keeps false false z s) (e' : State.askOrigin
    s port slot frame = (u', o')) : Keeps false false z u' := by
  have k := State.askOrigin_keeps (z := z) s port slot frame hs
  rw [e'] at k; exact k

theorem State.takeRequest_keeps {z : State} (s : State) (p slot frame flow epoch : Nat) (hs : Keeps false false z s) :
    Keeps false false z (State.takeRequest s p slot frame flow epoch) := by
  unfold State.takeRequest
  repeat' first
    | with_reducible assumption
    | with_reducible apply State.noteEmpty_keeps
    | with_reducible apply State.askOrigin_keeps
    | with_reducible refine State.askOrigin_keeps' ?_ (by assumption)
    | with_reducible apply State.placeRep_keeps
    | with_reducible apply Keeps.foldl
    | with_reducible apply Keeps.foldl_fst
    | with_reducible apply Keeps.foldl_snd
    | (extract_lets +onlyGivenNames x;
       first | (refine Keeps.cut (t := x) ?_ (fun hx => ?_); subst x; rotate_left; clear_value x; rotate_right)
             | (refine Keeps.cut (t := x.1) ?_ (fun hx => ?_); subst x; rotate_left; clear_value x; rotate_right)
             | clear_value x)
    | dsimp -zeta only
    | (intro _)
    | split

theorem State.takeEmpty_keeps {z : State} (s : State) (p slot frame flow epoch : Nat) (hs : Keeps false false z s) :
    Keeps false false z (State.takeEmpty s p slot frame flow epoch) := by
  unfold State.takeEmpty
  repeat' first
    | with_reducible assumption
    | with_reducible apply State.noteEmpty_keeps
    | with_reducible apply State.signals_keeps
    | with_reducible apply State.updRx_keeps
    | with_reducible apply State.placeRep_keeps
    | with_reducible apply Keeps.foldl
    | with_reducible apply Keeps.foldl_fst
    | with_reducible apply Keeps.foldl_snd
    | (extract_lets +onlyGivenNames x; clear_value x)
    | dsimp -zeta only
    | (intro _)
    | split

theorem State.takeRepair_keeps {z : State} (s : State) (p w : Nat) (hs : Keeps false false z s) :
    Keeps false false z (State.takeRepair s p w) := by
  unfold State.takeRepair
  repeat' first
    | with_reducible assumption
    | with_reducible apply State.takeRequest_keeps
    | with_reducible apply State.takeEmpty_keeps
    | with_reducible apply Keeps.foldl
    | with_reducible apply Keeps.foldl_fst
    | with_reducible apply Keeps.foldl_snd
    | (extract_lets +onlyGivenNames x;
       first | (refine Keeps.cut (t := x) ?_ (fun hx => ?_); subst x; rotate_left; clear_value x; rotate_right)
             | (refine Keeps.cut (t := x.1) ?_ (fun hx => ?_); subst x; rotate_left; clear_value x; rotate_right)
             | (refine Keeps.cut (t := x.2) ?_ (fun hx => ?_); subst x; rotate_left; clear_value x; rotate_right)
             | clear_value x)
    | dsimp -zeta only
    | (intro _)
    | split

theorem State.updAuth_keeps {z : State} (s : State) (p : Nat) (f : AuthSt → AuthSt) (hs : Keeps false false z s) :
    Keeps false false z (State.updAuth s p f) := by
  unfold State.updAuth
  repeat' first
    | with_reducible assumption
    | with_reducible apply State.updPort_keeps
    | (extract_lets +onlyGivenNames x;
       first | (refine Keeps.cut (t := x) ?_ (fun hx => ?_); subst x; rotate_left; clear_value x; rotate_right)
             | (refine Keeps.cut (t := x.1) ?_ (fun hx => ?_); subst x; rotate_left; clear_value x; rotate_right)
             | (refine Keeps.cut (t := x.2) ?_ (fun hx => ?_); subst x; rotate_left; clear_value x; rotate_right)
             | clear_value x)
    | dsimp -zeta only
    | (intro _)
    | split
    | assumption
    | fail_if_no_progress refine Keeps.change ?_ rfl rfl rfl rfl rfl rfl rfl rfl rfl
    | fail_if_no_progress refine Keeps.inPlane ?_ rfl rfl
    | (rename_i hq; split at hq <;> first | (cases hq) | skip)
    | (simp_all only; done)

theorem State.sendFinished_keeps {z : State} (s : State) (p : Nat) (a : AuthSt) (secret : List Byte) (hs : Keeps false false z
    s) :
    Keeps false false z (State.sendFinished s p a secret) := by
  unfold State.sendFinished
  repeat' first
    | with_reducible assumption
    | with_reducible apply State.sendMgmt_keeps
    | dsimp -zeta only
    | (intro _)
    | split
    | assumption
    | fail_if_no_progress refine Keeps.change ?_ rfl rfl rfl rfl rfl rfl rfl rfl rfl
    | fail_if_no_progress refine Keeps.inPlane ?_ rfl rfl
    | (simp_all only; done)

theorem State.takeAuth_keeps {z : State} (s : State) (p type : Nat) (data : List Byte) (a : AuthSt) (hs : Keeps false false z
    s) :
    Keeps false false z (State.takeAuth s p type data a) := by
  unfold State.takeAuth
  repeat' first
    | with_reducible assumption
    | with_reducible apply State.updAuth_keeps
    | with_reducible apply State.sendFinished_keeps
    | with_reducible apply State.nextDraw_keeps
    | with_reducible refine State.nextDraw_keeps' ?_ (by assumption)
    | with_reducible apply State.sendMgmt_keeps
    | (extract_lets +onlyGivenNames x;
       first | (refine Keeps.cut (t := x) ?_ (fun hx => ?_); subst x; rotate_left; clear_value x; rotate_right)
             | (refine Keeps.cut (t := x.1) ?_ (fun hx => ?_); subst x; rotate_left; clear_value x; rotate_right)
             | (refine Keeps.cut (t := x.2) ?_ (fun hx => ?_); subst x; rotate_left; clear_value x; rotate_right)
             | clear_value x)
    | dsimp -zeta only
    | (intro _)
    | split
    | assumption
    | fail_if_no_progress refine Keeps.change ?_ rfl rfl rfl rfl rfl rfl rfl rfl rfl
    | fail_if_no_progress refine Keeps.inPlane ?_ rfl rfl
    | (rename_i hq; split at hq <;> first | (cases hq) | skip)
    | (simp_all only; done)

theorem State.takeMgmt_keeps {z : State} (s : State) (p type : Nat) (data : List Byte) (hs : Keeps false false z s) :
    Keeps false false z (State.takeMgmt s p type data) := by
  unfold State.takeMgmt
  repeat' first
    | with_reducible assumption
    | with_reducible apply State.free_keeps
    | with_reducible refine State.free_keeps' ?_ (by assumption)
    | with_reducible apply State.deriveRekey_keeps
    | with_reducible apply State.updPort_keeps
    | (extract_lets +onlyGivenNames x; subst x; beta_reduce)
    | dsimp -zeta only
    | (intro _)
    | split
    | assumption
    | fail_if_no_progress refine Keeps.change ?_ rfl rfl rfl rfl rfl rfl rfl rfl rfl

theorem State.takePeerNonce_keeps {z : State} (s : State) (p : Nat) (a : AuthSt) (b : List Byte) (hs : Keeps false false z s) :
    Keeps false false z (State.takePeerNonce s p a b) := by
  unfold State.takePeerNonce
  repeat' first
    | with_reducible assumption
    | with_reducible apply State.updPort_keeps
    | (extract_lets +onlyGivenNames x;
       first | (refine Keeps.cut (t := x) ?_ (fun hx => ?_); subst x; rotate_left; clear_value x; rotate_right)
             | (refine Keeps.cut (t := x.1) ?_ (fun hx => ?_); subst x; rotate_left; clear_value x; rotate_right)
             | (refine Keeps.cut (t := x.2) ?_ (fun hx => ?_); subst x; rotate_left; clear_value x; rotate_right)
             | clear_value x)
    | dsimp -zeta only
    | (intro _)
    | split
    | assumption
    | fail_if_no_progress refine Keeps.change ?_ rfl rfl rfl rfl rfl rfl rfl rfl rfl
    | fail_if_no_progress refine Keeps.inPlane ?_ rfl rfl
    | (rename_i hq; split at hq <;> first | (cases hq) | skip)
    | (simp_all only; done)

theorem State.noteFragment_keeps {z : State} (s : State) (p type k : Nat) (b : List Byte) (hs : Keeps false false z s) :
    Keeps false false z (State.noteFragment s p type k b) := by
  unfold State.noteFragment
  repeat' first
    | with_reducible assumption
    | with_reducible apply State.updAuth_keeps
    | with_reducible apply State.takePeerNonce_keeps
    | (extract_lets +onlyGivenNames x;
       first | (refine Keeps.cut (t := x) ?_ (fun hx => ?_); subst x; rotate_left; clear_value x; rotate_right)
             | (refine Keeps.cut (t := x.1) ?_ (fun hx => ?_); subst x; rotate_left; clear_value x; rotate_right)
             | (refine Keeps.cut (t := x.2) ?_ (fun hx => ?_); subst x; rotate_left; clear_value x; rotate_right)
             | clear_value x)
    | dsimp -zeta only
    | (intro _)
    | split
    | assumption
    | fail_if_no_progress refine Keeps.change ?_ rfl rfl rfl rfl rfl rfl rfl rfl rfl
    | fail_if_no_progress refine Keeps.inPlane ?_ rfl rfl
    | (rename_i hq; split at hq <;> first | (cases hq) | skip)
    | (simp_all only; done)

theorem State.takeMessage_keeps {z : State} (s : State) (p type : Nat) (data : List Byte) (hs : Keeps false false z s) :
    Keeps false false z (State.takeMessage s p type data) := by
  unfold State.takeMessage
  repeat' first
    | with_reducible assumption
    | with_reducible apply State.takeAuth_keeps
    | with_reducible apply State.takeMgmt_keeps
    | (extract_lets +onlyGivenNames x;
       first | (refine Keeps.cut (t := x) ?_ (fun hx => ?_); subst x; rotate_left; clear_value x; rotate_right)
             | (refine Keeps.cut (t := x.1) ?_ (fun hx => ?_); subst x; rotate_left; clear_value x; rotate_right)
             | (refine Keeps.cut (t := x.2) ?_ (fun hx => ?_); subst x; rotate_left; clear_value x; rotate_right)
             | clear_value x)
    | dsimp -zeta only
    | (intro _)
    | split
    | assumption
    | fail_if_no_progress refine Keeps.change ?_ rfl rfl rfl rfl rfl rfl rfl rfl rfl
    | fail_if_no_progress refine Keeps.inPlane ?_ rfl rfl
    | (rename_i hq; split at hq <;> first | (cases hq) | skip)
    | (simp_all only; done)

theorem State.takeFragment_keeps {z : State} (s : State) (p : Nat) (pl : List Byte) (hs : Keeps false false z s) :
    Keeps false false z (State.takeFragment s p pl) := by
  unfold State.takeFragment
  repeat' first
    | with_reducible assumption
    | with_reducible apply State.noteFragment_keeps
    | with_reducible apply State.takeMessage_keeps
    | with_reducible apply State.updPort_keeps
    | (extract_lets +onlyGivenNames x;
       first | (refine Keeps.cut (t := x) ?_ (fun hx => ?_); subst x; rotate_left; clear_value x; rotate_right)
             | (refine Keeps.cut (t := x.1) ?_ (fun hx => ?_); subst x; rotate_left; clear_value x; rotate_right)
             | (refine Keeps.cut (t := x.2) ?_ (fun hx => ?_); subst x; rotate_left; clear_value x; rotate_right)
             | clear_value x)
    | dsimp -zeta only
    | (intro _)
    | split
    | assumption
    | fail_if_no_progress refine Keeps.change ?_ rfl rfl rfl rfl rfl rfl rfl rfl rfl
    | fail_if_no_progress refine Keeps.inPlane ?_ rfl rfl
    | (rename_i hq; split at hq <;> first | (cases hq) | skip)
    | (simp_all only; done)

theorem State.takeControl_keeps {z : State} (s : State) (p : Nat) (pl : List Byte) (offset : Option Int) (hs : Keeps false
    false z s) :
    Keeps false false z (State.takeControl s p pl offset) := by
  unfold State.takeControl
  repeat' first
    | with_reducible assumption
    | with_reducible apply State.fromParent_keeps
    | with_reducible apply State.takeDecisions_keeps
    | with_reducible apply State.takeRepair_keeps
    | with_reducible apply State.adoptFailover_keeps
    | with_reducible apply State.updPort_keeps
    | with_reducible apply Keeps.foldl
    | with_reducible apply Keeps.foldl_fst
    | with_reducible apply Keeps.foldl_snd
    | (extract_lets +onlyGivenNames x;
       first | (refine Keeps.cut (t := x) ?_ (fun hx => ?_); subst x; rotate_left; clear_value x; rotate_right)
             | (refine Keeps.cut (t := x.1) ?_ (fun hx => ?_); subst x; rotate_left; clear_value x; rotate_right)
             | (refine Keeps.cut (t := x.2) ?_ (fun hx => ?_); subst x; rotate_left; clear_value x; rotate_right)
             | clear_value x)
    | dsimp -zeta only
    | (intro _)
    | split
    | assumption
    | fail_if_no_progress refine Keeps.change ?_ rfl rfl rfl rfl rfl rfl rfl rfl rfl
    | fail_if_no_progress refine Keeps.inPlane ?_ rfl rfl
    | (rename_i hq; split at hq <;> first | (cases hq) | skip)
    | (simp_all only; done)

theorem State.openControl_keeps {z : State} (s : State) (p : Nat) (rx : RxSlot) (hs : Keeps false false z s) :
    Keeps false false z (State.openControl s p rx).1 := by
  unfold State.openControl
  repeat' first
    | with_reducible assumption
    | with_reducible apply State.bump_keeps
    | with_reducible apply State.openPhase_keeps
    | with_reducible refine State.openPhase_keeps' ?_ (by assumption)
    | with_reducible apply State.updPort_keeps
    | (extract_lets +onlyGivenNames x;
       first | (refine Keeps.cut (t := x) ?_ (fun hx => ?_); subst x; rotate_left; clear_value x; rotate_right)
             | (refine Keeps.cut (t := x.1) ?_ (fun hx => ?_); subst x; rotate_left; clear_value x; rotate_right)
             | clear_value x)
    | dsimp -zeta only
    | (intro _)
    | split
theorem State.openControl_keeps' {z : State} {s : State} {p : Nat} {rx : RxSlot} {u' o'} (hs : Keeps false false z s) (e' :
    State.openControl s p rx = (u', o')) : Keeps false false z u' := by
  have k := State.openControl_keeps (z := z) s p rx hs
  rw [e'] at k; exact k

theorem State.controlReceive_keeps {z : State} (s : State) (p : Nat) (rx : RxSlot) (tRx : Nat) (hs : Keeps false false z s) :
    Keeps false false z (State.controlReceive s p rx tRx) := by
  unfold State.controlReceive
  repeat' first
    | with_reducible assumption
    | with_reducible apply State.takeFragment_keeps
    | with_reducible apply State.takeControl_keeps
    | with_reducible apply State.openControl_keeps
    | with_reducible refine State.openControl_keeps' ?_ (by assumption)
    | with_reducible apply State.updPort_keeps
    | with_reducible apply Keeps.elim
    | (extract_lets +onlyGivenNames x;
       first | (refine Keeps.cut (t := x) ?_ (fun hx => ?_); subst x; rotate_left; clear_value x; rotate_right)
             | (refine Keeps.cut (t := x.1) ?_ (fun hx => ?_); subst x; rotate_left; clear_value x; rotate_right)
             | (refine Keeps.cut (t := x.2) ?_ (fun hx => ?_); subst x; rotate_left; clear_value x; rotate_right)
             | clear_value x)
    | dsimp -zeta only
    | (intro _)
    | split
    | assumption
    | fail_if_no_progress refine Keeps.change ?_ rfl rfl rfl rfl rfl rfl rfl rfl rfl
    | fail_if_no_progress refine Keeps.inPlane ?_ rfl rfl
    | (rename_i hq; split at hq <;> first | (cases hq) | skip)
    | (simp_all only; done)

end Sys2Proof.Machine
end

