-- ==== Sys2Proof/Laws/KeepsCells.lean ====
section
/-!
SUPPORT. Laws/KeepsCells.lean: the operations of Machine/Cells.lean keep the queue, the memories, the points and the fuses.
-/
set_option Elab.async false
set_option linter.all false
namespace Sys2Proof.Machine

theorem State.ownerWrite_keeps {lp : Bool} {z : State} (s : State) (cell bank value : Nat) (hs : Keeps lp false z s) :
    Keeps lp false z (State.ownerWrite s cell bank value) := by
  unfold State.ownerWrite
  repeat' first
    | with_reducible assumption
    | with_reducible apply State.wr_keeps
    | with_reducible apply State.updCell_keeps
    | with_reducible apply State.updLslot_keeps
    | (extract_lets +onlyGivenNames x;
       first | (refine Keeps.cut (t := x) ?_ (fun hx => ?_); subst x; rotate_left; clear_value x; rotate_right) | clear_value x)
    | dsimp -zeta only
    | (intro _)
    | split

theorem State.scrub_keeps {lp lq : Bool} {z : State} (s : State) (k n : Nat) (hs : Keeps lp lq z s) : Keeps lp lq z (s.scrub k n) :=
  hs.trans ⟨rfl, fun w => ⟨wf_memClear k n w.1, w.2⟩, id, ⟨id, Nat.le_refl _, id, List.prefix_rfl, rfl⟩, id,
      fun _ => ⟨rfl, rfl, rfl, rfl, rfl, rfl, rfl, rfl⟩, fun _ => ⟨rfl, rfl, rfl, rfl, rfl, rfl, rfl, rfl⟩⟩

theorem State.dropHeldIn_keeps {lp : Bool} {z : State} (s : State) (l slot : Nat) (hs : Keeps lp false z s) :
    Keeps lp false z (State.dropHeldIn s l slot) := by
  unfold State.dropHeldIn
  repeat' first
    | with_reducible assumption
    | dsimp -zeta only
    | (intro _)
    | split
    | assumption
    | fail_if_no_progress refine Keeps.inPlane ?_ rfl rfl

theorem State.scrubStart_keeps {lp : Bool} {z : State} (s : State) (cell bank : Nat) (hs : Keeps lp false z s) :
    Keeps lp false z (State.scrubStart s cell bank) := by
  unfold State.scrubStart
  repeat' first
    | with_reducible assumption
    | with_reducible apply State.scrub_keeps
    | with_reducible apply State.dropHeldIn_keeps
    | with_reducible apply State.updCell_keeps
    | (extract_lets +onlyGivenNames x;
       refine Keeps.cut (t := x) ?_ (fun hx => ?_); subst x; rotate_left; clear_value x; rotate_right)
    | dsimp -zeta only
    | (intro _)
    | split

theorem State.settleAwaits_keeps {lp lq : Bool} {z : State} (s : State) (hs : Keeps lp lq z s) :
    Keeps lp lq z (State.settleAwaits s) := by
  unfold State.settleAwaits
  repeat' first
    | with_reducible assumption
    | exact fun _ _ => rfl
    | exact fun h => absurd h Bool.false_ne_true
    | (intro _ _; (try dsimp only); split <;> rfl)
    | with_reducible apply State.updCmd_keeps
    | with_reducible apply State.finish_keeps
    | with_reducible apply Keeps.foldl
    | with_reducible apply Keeps.foldl_fst
    | with_reducible apply Keeps.foldl_snd
    | (extract_lets +onlyGivenNames x;
       first | (refine Keeps.cut (t := x) ?_ (fun hx => ?_); subst x; rotate_left; clear_value x; rotate_right)
             | (refine Keeps.cut (t := x.1) ?_ (fun hx => ?_); subst x; rotate_left; clear_value x; rotate_right)
             | (refine Keeps.cut (t := x.2) ?_ (fun hx => ?_); subst x; rotate_left; clear_value x; rotate_right)
             | clear_value x)
    | dsimp -zeta only
    | (intro _)
    | split

theorem State.placeDone_keeps {lp : Bool} {z : State} (s : State) (cell : Nat) (hs : Keeps lp false z s) :
    Keeps lp false z (State.placeDone s cell) := by
  unfold State.placeDone
  repeat' first
    | with_reducible assumption
    | with_reducible apply State.updDie_keeps
    | with_reducible apply State.updCell_keeps
    | with_reducible apply State.updLslot_keeps
    | with_reducible apply State.logTrace_keeps
    | (extract_lets +onlyGivenNames x;
       first | (refine Keeps.cut (t := x) ?_ (fun hx => ?_); subst x; rotate_left; clear_value x; rotate_right) | clear_value x)
    | dsimp -zeta only
    | (intro _)
    | split

theorem State.handoverDone_keeps {z : State} (s : State) (cell bank : Nat) (hs : Keeps false false z s) :
    Keeps false false z (State.handoverDone s cell bank) := by
  unfold State.handoverDone
  repeat' first
    | with_reducible assumption
    | with_reducible apply State.settleAwaits_keeps
    | with_reducible apply State.placeDone_keeps
    | with_reducible apply State.updCell_keeps
    | with_reducible apply State.retryWaiters_keeps
    | (extract_lets +onlyGivenNames x;
       first | (refine Keeps.cut (t := x) ?_ (fun hx => ?_); subst x; rotate_left; clear_value x; rotate_right)
             | (refine Keeps.cut (t := x.1) ?_ (fun hx => ?_); subst x; rotate_left; clear_value x; rotate_right)
             | (refine Keeps.cut (t := x.2) ?_ (fun hx => ?_); subst x; rotate_left; clear_value x; rotate_right)
             | clear_value x)
    | dsimp -zeta only
    | (intro _)
    | split
    | assumption
    | fail_if_no_progress refine Keeps.change ?_ rfl rfl rfl rfl rfl rfl rfl rfl rfl
    | fail_if_no_progress refine Keeps.inPlane ?_ rfl rfl
    | (rename_i hq; split at hq <;> first | (cases hq) | skip)
    | (simp_all only; done)

theorem State.fillSlot_keeps {lp : Bool} {z : State} (s : State) (l : Nat) (hs : Keeps lp false z s) :
    Keeps lp false z (State.fillSlot s l).1 := by
  unfold State.fillSlot
  repeat' first
    | with_reducible assumption
    | with_reducible apply State.ownerWrite_keeps
    | with_reducible apply State.updDie_keeps
    | with_reducible apply State.updCell_keeps
    | with_reducible apply State.updLslot_keeps
    | with_reducible apply Keeps.foldl
    | with_reducible apply Keeps.foldl_fst
    | with_reducible apply Keeps.foldl_snd
    | (extract_lets +onlyGivenNames x;
       first | (refine Keeps.cut (t := x) ?_ (fun hx => ?_); subst x; rotate_left; clear_value x; rotate_right) | clear_value x)
    | dsimp -zeta only
    | (intro _)
    | split
theorem State.fillSlot_keeps' {lp : Bool} {z : State} {s : State} {l : Nat} {u' o'} (hs : Keeps lp false z s) (e' : State.fillSlot s l = (u', o'))
    : Keeps lp false z u' := by
  have k := State.fillSlot_keeps (z := z) s l hs
  rw [e'] at k; exact k

theorem State.fenceCell_keeps {lp : Bool} {z : State} (s : State) (cell : Nat) (hs : Keeps lp false z s) :
    Keeps lp false z (State.fenceCell s cell) := by
  unfold State.fenceCell
  repeat' first
    | with_reducible assumption
    | with_reducible apply State.updCell_keeps
    | with_reducible apply State.updLslot_keeps
    | (extract_lets +onlyGivenNames x;
       first | (refine Keeps.cut (t := x) ?_ (fun hx => ?_); subst x; rotate_left; clear_value x; rotate_right) | clear_value x)
    | dsimp -zeta only
    | (intro _)
    | split

theorem State.dropHeldOn_keeps {lp : Bool} {z : State} (s : State) (l : Nat) (hs : Keeps lp false z s) :
    Keeps lp false z (State.dropHeldOn s l) := by
  unfold State.dropHeldOn
  repeat' first
    | with_reducible assumption
    | dsimp -zeta only
    | (intro _)
    | split
    | assumption
    | fail_if_no_progress refine Keeps.inPlane ?_ rfl rfl

theorem State.countLoss_keeps {z : State} (s : State) (die : Nat) (hs : Keeps false false z s) :
    Keeps false false z (State.countLoss s die) := by
  unfold State.countLoss
  repeat' first
    | with_reducible assumption
    | with_reducible apply State.bump_keeps
    | with_reducible apply State.raiseFault_keeps

theorem State.loseProduct_keeps {z : State} (s : State) (id : CmdId) (die seq : Nat) (hs : Keeps false false z s) :
    Keeps false false z (State.loseProduct s id die seq) := by
  unfold State.loseProduct
  repeat' first
    | with_reducible assumption
    | exact fun _ _ => rfl
    | exact fun h => absurd h Bool.false_ne_true
    | (intro _ _; (try dsimp only); split <;> rfl)
    | with_reducible apply State.countLoss_keeps
    | with_reducible apply State.settleProduct_keeps
    | with_reducible apply State.stopRun_keeps
    | with_reducible apply State.updCmd_keeps
    | with_reducible apply State.finish_keeps
    | (extract_lets +onlyGivenNames x;
       refine Keeps.cut (t := x) ?_ (fun hx => ?_); subst x; rotate_left; clear_value x; rotate_right)
    | dsimp -zeta only
    | (intro _)
    | split

theorem State.reoffer_keeps {lp lq : Bool} {z : State} (s : State) (id : CmdId) (die : Nat) (ts : List Nat) (hs : Keeps lp lq z s) :
    Keeps lp lq z (State.reoffer s id die ts) := by
  unfold State.reoffer
  repeat' first
    | with_reducible assumption
    | exact fun _ _ => rfl
    | exact fun h => absurd h Bool.false_ne_true
    | (intro _ _; (try dsimp only); split <;> rfl)
    | with_reducible apply State.bump_keeps
    | with_reducible apply State.updCmd_keeps
    | with_reducible apply Keeps.foldl
    | with_reducible apply Keeps.foldl_fst
    | with_reducible apply Keeps.foldl_snd
    | dsimp -zeta only
    | (intro _)
    | split

theorem State.replayOn_keeps {z : State} (s : State) (cell seq : Nat) (mine : List Nat) (c : Cmd) (g : Geo) (hs : Keeps false false z s) :
    Keeps false false z (State.replayOn s cell seq mine c g) := by
  unfold State.replayOn
  repeat' first
    | with_reducible assumption
    | with_reducible apply State.loseProduct_keeps
    | with_reducible apply State.reoffer_keeps
    | with_reducible apply State.updTile_keeps
    | with_reducible apply Keeps.foldl
    | with_reducible apply Keeps.foldl_fst
    | with_reducible apply Keeps.foldl_snd
    | (extract_lets +onlyGivenNames x;
       first | (refine Keeps.cut (t := x) ?_ (fun hx => ?_); subst x; rotate_left; clear_value x; rotate_right) | clear_value x)
    | dsimp -zeta only
    | (intro _)
    | split

theorem State.quiesce_keeps {z : State} (s : State) (cell seq : Nat) (hs : Keeps false false z s) :
    Keeps false false z (State.quiesce s cell seq) := by
  unfold State.quiesce
  repeat' first
    | with_reducible assumption
    | with_reducible apply State.replayOn_keeps
    | with_reducible apply State.settleProduct_keeps
    | with_reducible apply State.updCell_keeps
    | with_reducible apply Keeps.foldl
    | with_reducible apply Keeps.foldl_fst
    | with_reducible apply Keeps.foldl_snd
    | (extract_lets +onlyGivenNames x;
       first | (refine Keeps.cut (t := x) ?_ (fun hx => ?_); subst x; rotate_left; clear_value x; rotate_right)
             | (refine Keeps.cut (t := x.1) ?_ (fun hx => ?_); subst x; rotate_left; clear_value x; rotate_right)
             | (refine Keeps.cut (t := x.2) ?_ (fun hx => ?_); subst x; rotate_left; clear_value x; rotate_right)
             | clear_value x)
    | dsimp -zeta only
    | (intro _)
    | split

theorem State.loseVacant_keeps {z : State} (s : State) (l die seq : Nat) (hs : Keeps false false z s) :
    Keeps false false z (State.loseVacant s l die seq) := by
  unfold State.loseVacant
  repeat' first
    | with_reducible assumption
    | with_reducible apply State.loseProduct_keeps
    | with_reducible apply Keeps.foldl
    | with_reducible apply Keeps.foldl_fst
    | with_reducible apply Keeps.foldl_snd
    | (extract_lets +onlyGivenNames x;
       first | (refine Keeps.cut (t := x) ?_ (fun hx => ?_); subst x; rotate_left; clear_value x; rotate_right) | clear_value x)
    | dsimp -zeta only
    | (intro _)
    | split
    | assumption
    | fail_if_no_progress refine Keeps.change ?_ rfl rfl rfl rfl rfl rfl rfl rfl rfl

theorem State.reholdOn_keeps {lp lq : Bool} {z : State} (s : State) (l die : Nat) (hs : Keeps lp lq z s) :
    Keeps lp lq z (State.reholdOn s l die) := by
  unfold State.reholdOn
  repeat' first
    | with_reducible assumption
    | with_reducible apply State.reoffer_keeps
    | with_reducible apply State.updRun_keeps
    | with_reducible apply Keeps.foldl
    | with_reducible apply Keeps.foldl_fst
    | with_reducible apply Keeps.foldl_snd
    | (extract_lets +onlyGivenNames x; subst x; beta_reduce)
    | dsimp -zeta only
    | (intro _)
    | split

theorem State.replaceCell_keeps {z : State} (s : State) (cell seq : Nat) (sparing : Bool) (hs : Keeps false false z s) :
    Keeps false false z (State.replaceCell s cell seq sparing).1 := by
  unfold State.replaceCell
  repeat' first
    | with_reducible assumption
    | with_reducible apply State.fillSlot_keeps
    | with_reducible refine State.fillSlot_keeps' ?_ (by assumption)
    | with_reducible apply State.fenceCell_keeps
    | with_reducible apply State.dropHeldOn_keeps
    | with_reducible apply State.loseVacant_keeps
    | with_reducible apply State.reholdOn_keeps
    | with_reducible apply State.updLslot_keeps
    | (extract_lets +onlyGivenNames x;
       refine Keeps.cut (t := x) ?_ (fun hx => ?_); subst x; rotate_left; clear_value x; rotate_right)
    | dsimp -zeta only
    | (intro _)
    | split
theorem State.replaceCell_keeps' {z : State} {s : State} {cell seq : Nat} {sparing : Bool} {u' o'} (hs : Keeps false false z s) (e' :
    State.replaceCell s cell seq sparing = (u', o')) : Keeps false false z u' := by
  have k := State.replaceCell_keeps (z := z) s cell seq sparing hs
  rw [e'] at k; exact k

theorem State.rebuildTile_keeps {lp : Bool} {z : State} (s : State) (c : Cmd) (g : Geo) (k die : Nat) (hs : Keeps lp false z s) :
    Keeps lp false z (State.rebuildTile s c g k die) := by
  unfold State.rebuildTile
  repeat' first
    | with_reducible assumption
    | with_reducible apply State.reoffer_keeps
    | with_reducible apply State.updTile_keeps
    | (extract_lets +onlyGivenNames x;
       first | (refine Keeps.cut (t := x) ?_ (fun hx => ?_); subst x; rotate_left; clear_value x; rotate_right)
             | (refine Keeps.cut (t := x.1) ?_ (fun hx => ?_); subst x; rotate_left; clear_value x; rotate_right)
             | (refine Keeps.cut (t := x.2) ?_ (fun hx => ?_); subst x; rotate_left; clear_value x; rotate_right)
             | clear_value x)
    | dsimp -zeta only
    | (intro _)
    | split
    | assumption
    | fail_if_no_progress refine Keeps.inPlane ?_ rfl rfl

theorem State.drainMarker_keeps {lp : Bool} {z : State} (s : State) (cell : Nat) (hs : Keeps lp false z s) :
    Keeps lp false z (State.drainMarker s cell) := by
  unfold State.drainMarker
  repeat' first
    | with_reducible assumption
    | with_reducible apply State.rebuildTile_keeps
    | with_reducible apply State.updTile_keeps
    | with_reducible apply State.updCell_keeps
    | with_reducible apply State.updLslot_keeps
    | with_reducible apply Keeps.foldl
    | with_reducible apply Keeps.foldl_fst
    | with_reducible apply Keeps.foldl_snd
    | (extract_lets +onlyGivenNames x; clear_value x)
    | dsimp -zeta only
    | (intro _)
    | split

theorem State.giveBank_keeps {lp : Bool} {z : State} (s : State) (ctx l bank : Nat) (hs : Keeps lp false z s) :
    Keeps lp false z (State.giveBank s ctx l bank) := by
  unfold State.giveBank
  repeat' first
    | with_reducible assumption
    | with_reducible apply State.ownerWrite_keeps
    | with_reducible apply State.updLslot_keeps
    | dsimp -zeta only
    | (intro _)
    | split

theorem State.formNow_keeps {z : State} (s : State) (c : Cmd) (ms : List Nat) (hs : Keeps false false z s) :
    Keeps false false z (State.formNow s c ms) := by
  unfold State.formNow
  repeat' first
    | with_reducible assumption
    | exact fun _ _ => rfl
    | exact fun h => absurd h Bool.false_ne_true
    | (intro _ _; (try dsimp only); split <;> rfl)
    | with_reducible apply State.giveBank_keeps
    | with_reducible apply State.updCmd_keeps
    | with_reducible apply State.finish_keeps
    | with_reducible apply Keeps.foldl
    | with_reducible apply Keeps.foldl_fst
    | with_reducible apply Keeps.foldl_snd
    | (extract_lets +onlyGivenNames x;
       first | (refine Keeps.cut (t := x) ?_ (fun hx => ?_); subst x; rotate_left; clear_value x; rotate_right)
             | (refine Keeps.cut (t := x.1) ?_ (fun hx => ?_); subst x; rotate_left; clear_value x; rotate_right)
             | (refine Keeps.cut (t := x.2) ?_ (fun hx => ?_); subst x; rotate_left; clear_value x; rotate_right)
             | clear_value x)
    | dsimp -zeta only
    | (intro _)
    | split
    | assumption
    | fail_if_no_progress refine Keeps.change ?_ rfl rfl rfl rfl rfl rfl rfl rfl rfl
    | fail_if_no_progress refine Keeps.inPlane ?_ rfl rfl
    | (rename_i hq; split at hq <;> first | (cases hq) | skip)
    | (simp_all only; done)

theorem State.groupForm_keeps {z : State} (s : State) (c : Cmd) (hs : Keeps false false z s) :
    Keeps false false z (State.groupForm s c) := by
  unfold State.groupForm
  repeat' first
    | with_reducible assumption
    | with_reducible apply State.formNow_keeps
    | with_reducible apply State.finish_keeps
    | (extract_lets +onlyGivenNames x;
       first | (refine Keeps.cut (t := x) ?_ (fun hx => ?_); subst x; rotate_left; clear_value x; rotate_right)
             | (refine Keeps.cut (t := x.1) ?_ (fun hx => ?_); subst x; rotate_left; clear_value x; rotate_right)
             | (refine Keeps.cut (t := x.2) ?_ (fun hx => ?_); subst x; rotate_left; clear_value x; rotate_right)
             | clear_value x)
    | dsimp -zeta only
    | (intro _)
    | split
    | assumption
    | fail_if_no_progress refine Keeps.change ?_ rfl rfl rfl rfl rfl rfl rfl rfl rfl
    | fail_if_no_progress refine Keeps.inPlane ?_ rfl rfl
    | (rename_i hq; split at hq <;> first | (cases hq) | skip)
    | (simp_all only; done)

theorem State.dissolve_keeps {z : State} (s : State) (c : Cmd) (hs : Keeps false false z s) :
    Keeps false false z (State.dissolve s c) := by
  unfold State.dissolve
  repeat' first
    | with_reducible assumption
    | with_reducible apply State.finish_keeps
    | (extract_lets +onlyGivenNames x; clear_value x)
    | dsimp -zeta only
    | (intro _)
    | split
    | assumption
    | fail_if_no_progress refine Keeps.change ?_ rfl rfl rfl rfl rfl rfl rfl rfl rfl

theorem State.returnCell_keeps {lp : Bool} {z : State} (s : State) (cell : Nat) (hs : Keeps lp false z s) :
    Keeps lp false z (State.returnCell s cell) := by
  unfold State.returnCell
  repeat' first
    | with_reducible assumption
    | with_reducible apply State.scrub_keeps
    | with_reducible apply State.setFld_keeps
    | with_reducible apply State.updCell_keeps
    | with_reducible apply Keeps.foldl
    | with_reducible apply Keeps.foldl_fst
    | with_reducible apply Keeps.foldl_snd
    | (extract_lets +onlyGivenNames x;
       first | (refine Keeps.cut (t := x) ?_ (fun hx => ?_); subst x; rotate_left; clear_value x; rotate_right)
             | (refine Keeps.cut (t := x.1) ?_ (fun hx => ?_); subst x; rotate_left; clear_value x; rotate_right)
             | (refine Keeps.cut (t := x.2) ?_ (fun hx => ?_); subst x; rotate_left; clear_value x; rotate_right)
             | clear_value x)
    | dsimp -zeta only
    | (intro _)

theorem State.cellReturn_keeps {lp : Bool} {z : State} (s : State) (c : Cmd) (pass : Bool) (hs : Keeps lp false z s) :
    Keeps lp false z (State.cellReturn s c pass) := by
  unfold State.cellReturn
  repeat' first
    | with_reducible assumption
    | with_reducible apply State.returnCell_keeps
    | with_reducible apply State.finish_keeps
    | dsimp -zeta only
    | (intro _)
    | split

theorem State.fenceWait_keeps {lp lq : Bool} {z : State} (s : State) (id : CmdId) (spare : Option Nat) (hs : Keeps lp lq z s) :
    Keeps lp lq z (State.fenceWait s id spare) := by
  unfold State.fenceWait
  repeat' first
    | with_reducible assumption
    | exact fun _ _ => rfl
    | exact fun h => absurd h Bool.false_ne_true
    | (intro _ _; (try dsimp only); split <;> rfl)
    | with_reducible apply State.updCmd_keeps
    | with_reducible apply State.finish_keeps
    | dsimp -zeta only
    | (intro _)
    | split

theorem State.fenceFilled_keeps {z : State} (s : State) (id : CmdId) (cell l : Nat) (hs : Keeps false false z s) :
    Keeps false false z (State.fenceFilled s id cell l) := by
  unfold State.fenceFilled
  repeat' first
    | with_reducible assumption
    | with_reducible apply State.quiesce_keeps
    | with_reducible apply State.replaceCell_keeps
    | with_reducible refine State.replaceCell_keeps' ?_ (by assumption)
    | with_reducible apply State.fenceWait_keeps
    | with_reducible apply State.faultRecord_keeps
    | (extract_lets +onlyGivenNames x;
       first | (refine Keeps.cut (t := x) ?_ (fun hx => ?_); subst x; rotate_left; clear_value x; rotate_right) | clear_value x)
    | dsimp -zeta only
    | (intro _)
    | split
    | assumption
    | fail_if_no_progress refine Keeps.change ?_ rfl rfl rfl rfl rfl rfl rfl rfl rfl

theorem State.cellFence_keeps {z : State} (s : State) (c : Cmd) (hs : Keeps false false z s) :
    Keeps false false z (State.cellFence s c) := by
  unfold State.cellFence
  repeat' first
    | with_reducible assumption
    | with_reducible apply State.fillSlot_keeps
    | with_reducible refine State.fillSlot_keeps' ?_ (by assumption)
    | with_reducible apply State.fenceCell_keeps
    | with_reducible apply State.fenceWait_keeps
    | with_reducible apply State.fenceFilled_keeps
    | with_reducible apply State.finish_keeps
    | (extract_lets +onlyGivenNames x;
       first | (refine Keeps.cut (t := x) ?_ (fun hx => ?_); subst x; rotate_left; clear_value x; rotate_right)
             | (refine Keeps.cut (t := x.1) ?_ (fun hx => ?_); subst x; rotate_left; clear_value x; rotate_right)
             | clear_value x)
    | dsimp -zeta only
    | (intro _)
    | split
    | assumption
    | fail_if_no_progress refine Keeps.change ?_ rfl rfl rfl rfl rfl rfl rfl rfl rfl

end Sys2Proof.Machine
end

