-- ==== Sys2Proof/Laws/KeepsReset.lean ====
section
/-!
SUPPORT. Laws/KeepsReset.lean: the operations of Machine/Reset.lean keep the queue, the memories, the points and the fuses.
-/
set_option Elab.async false
set_option linter.all false
namespace Sys2Proof.Machine

theorem State.keepRegs_keeps {lp lq : Bool} {z : State} (s : State) (p : RegName → Bool) (hs : Keeps lp lq z s) :
    Keeps lp lq z (State.keepRegs s p) :=
  hs.trans ⟨rfl, id, id, ⟨id, Nat.le_refl _, id, List.prefix_rfl, rfl⟩, fun w => List.Pairwise.filter _ w,
      fun _ => ⟨rfl, rfl, rfl, rfl, rfl, rfl, rfl, rfl⟩, fun _ => ⟨rfl, rfl, rfl, rfl, rfl, rfl, rfl, rfl⟩⟩

theorem State.undefineDest_keeps {lp lq : Bool} {z : State} (s : State) (c : Cmd) (hs : Keeps lp lq z s) :
    Keeps lp lq z (State.undefineDest s c) := by
  unfold State.undefineDest
  repeat' first
    | with_reducible assumption
    | with_reducible apply State.undefined_keeps
    | with_reducible apply Keeps.foldl
    | with_reducible apply Keeps.foldl_fst
    | with_reducible apply Keeps.foldl_snd
    | (extract_lets +onlyGivenNames x;
       first | (refine Keeps.cut (t := x) ?_ (fun hx => ?_); subst x; rotate_left; clear_value x; rotate_right)
             | (refine Keeps.cut (t := x.1) ?_ (fun hx => ?_); subst x; rotate_left; clear_value x; rotate_right)
             | (refine Keeps.cut (t := x.2) ?_ (fun hx => ?_); subst x; rotate_left; clear_value x; rotate_right)
             | clear_value x)
    | dsimp -zeta only
    | (intro _)
    | split

theorem State.abandon_keeps {lp : Bool} {z : State} (s : State) (hs : Keeps lp false z s) :
    Keeps lp false z (State.abandon s) := by
  unfold State.abandon
  repeat' first
    | with_reducible assumption
    | with_reducible apply State.undefineDest_keeps
    | with_reducible apply Keeps.foldl
    | with_reducible apply Keeps.foldl_fst
    | with_reducible apply Keeps.foldl_snd
    | (extract_lets +onlyGivenNames x;
       refine Keeps.cut (t := x) ?_ (fun hx => ?_); subst x; rotate_left; clear_value x; rotate_right)
    | dsimp -zeta only
    | (intro _)
    | split
    | assumption
    | fail_if_no_progress refine Keeps.inPlane ?_ rfl rfl

theorem State.finishPlacing_keeps {lp : Bool} {z : State} (s : State) (hs : Keeps lp false z s) :
    Keeps lp false z (State.finishPlacing s) := by
  unfold State.finishPlacing
  repeat' first
    | with_reducible assumption
    | with_reducible apply State.scrub_keeps
    | with_reducible apply State.placeDone_keeps
    | with_reducible apply State.updCell_keeps
    | with_reducible apply Keeps.foldl
    | with_reducible apply Keeps.foldl_fst
    | with_reducible apply Keeps.foldl_snd
    | (extract_lets +onlyGivenNames x; subst x; beta_reduce)
    | dsimp -zeta only
    | (intro _)

theorem State.drainCommitted_keeps {z : State} (s : State) (d : Nat) (hs : Keeps false false z s) :
    Keeps false false z (State.drainCommitted s d) := by
  unfold State.drainCommitted
  repeat' first
    | with_reducible assumption
    | with_reducible apply State.tally_keeps
    | with_reducible apply State.bump_keeps
    | with_reducible apply State.writeBytes_keeps
    | with_reducible refine State.writeBytes_keeps' ?_ (by assumption)
    | with_reducible apply State.updUpd_keeps
    | with_reducible apply Keeps.foldl
    | with_reducible apply Keeps.foldl_fst
    | with_reducible apply Keeps.foldl_snd
    | (extract_lets +onlyGivenNames x; clear_value x)
    | dsimp -zeta only
    | (intro _)
    | split

theorem State.reverseAll_keeps {z : State} (s : State) (d : Nat) (hs : Keeps false false z s) :
    Keeps false false z (State.reverseAll s d) := by
  unfold State.reverseAll
  repeat' first
    | with_reducible assumption
    | with_reducible apply State.xorBlock_keeps
    | with_reducible apply State.reverse_keeps
    | with_reducible apply State.updUpd_keeps
    | with_reducible apply State.restoreOpen_keeps
    | with_reducible apply Keeps.foldl
    | with_reducible apply Keeps.foldl_fst
    | with_reducible apply Keeps.foldl_snd
    | (extract_lets +onlyGivenNames x;
       first | (refine Keeps.cut (t := x) ?_ (fun hx => ?_); subst x; rotate_left; clear_value x; rotate_right)
             | (refine Keeps.cut (t := x.1) ?_ (fun hx => ?_); subst x; rotate_left; clear_value x; rotate_right)
             | (refine Keeps.cut (t := x.2) ?_ (fun hx => ?_); subst x; rotate_left; clear_value x; rotate_right)
             | clear_value x)
    | dsimp -zeta only
    | (intro _)

theorem State.quit_keeps {z : State} (s : State) (hs : Keeps false false z s) :
    Keeps false false z (State.quit s) := by
  unfold State.quit
  repeat' first
    | with_reducible assumption
    | with_reducible apply State.abandon_keeps
    | with_reducible apply State.finishPlacing_keeps
    | with_reducible apply State.drainCommitted_keeps
    | with_reducible apply State.reverseAll_keeps
    | with_reducible apply Keeps.foldl

theorem State.clearWork_keeps {z : State} (s : State) (hs : Keeps false false z s) :
    Keeps false false z (State.clearWork s) := by
  unfold State.clearWork
  repeat' first
    | with_reducible assumption
    | (extract_lets +onlyGivenNames x; subst x; beta_reduce)
    | dsimp -zeta only
    | (intro _)
    | split
    | assumption
    | fail_if_no_progress refine Keeps.change ?_ rfl rfl rfl rfl rfl rfl rfl rfl rfl

theorem State.clearSram_keeps {lp lq : Bool} {z : State} (s : State) (hs : Keeps lp lq z s) :
    Keeps lp lq z (State.clearSram s) := by
  unfold State.clearSram
  repeat' first
    | with_reducible assumption
    | with_reducible apply State.scrub_keeps

theorem State.coldClear_keeps {z : State} (s : State) (cause : Nat) (soft : Bool) (hs : Keeps false false z s) :
    Keeps false false z (State.coldClear s cause soft) :=
  hs.trans ⟨rfl, fun w => ⟨rfl, w.2⟩, fun _ => ⟨(by decide : (28 : Nat) ≤ 60), (by decide : (28 : Nat) ≤ 60)⟩,
    ⟨id, Nat.le_refl _, id, List.prefix_rfl, rfl⟩, fun _ => List.Pairwise.nil, (fun y => nomatch y), (fun y => nomatch y)⟩

theorem State.coldReset_keeps {z : State} (s : State) (cause : Nat) (hs : Keeps false false z s) :
    Keeps false false z (State.coldReset s cause) := by
  unfold State.coldReset
  repeat' first
    | with_reducible assumption
    | with_reducible apply State.coldClear_keeps
    | dsimp -zeta only
    | (intro _)
    | split

theorem State.warmReset_keeps {z : State} (s : State) (cause : Nat) (hs : Keeps false false z s) :
    Keeps false false z (State.warmReset s cause) := by
  unfold State.warmReset
  extract_lets a b
  have h : Keeps false false z b :=
    State.clearWork_keeps _ (State.keepRegs_keeps _ _ (State.bump_keeps _ _ _ (State.quit_keeps _ hs)))
  clear_value b
  split
  · exact hs
  · exact h.trans ⟨rfl, id, fun w => ⟨w.1, (by decide : (28 : Nat) ≤ 60)⟩, ⟨id, Nat.le_refl _, id, List.prefix_rfl, rfl⟩, id,
      (fun y => nomatch y), (fun y => nomatch y)⟩

theorem State.functionReset_keeps {z : State} (s : State) (flr : Bool) (hs : Keeps false false z s) :
    Keeps false false z (State.functionReset s flr) := by
  unfold State.functionReset
  repeat' first
    | with_reducible assumption
    | with_reducible apply State.bump_keeps
    | with_reducible apply State.keepRegs_keeps
    | with_reducible apply State.quit_keeps
    | with_reducible apply State.clearWork_keeps
    | with_reducible apply State.clearSram_keeps
    | (extract_lets +onlyGivenNames x;
       first | (refine Keeps.cut (t := x) ?_ (fun hx => ?_); subst x; rotate_left; clear_value x; rotate_right)
             | (subst x; beta_reduce))
    | dsimp -zeta only
    | (intro _)
    | split
    | assumption
    | fail_if_no_progress refine Keeps.change ?_ rfl rfl rfl rfl rfl rfl rfl rfl rfl

theorem State.stopModule_keeps {z : State} (s : State) (off : Bool) (hs : Keeps false false z s) :
    Keeps false false z (State.stopModule s off) := by
  unfold State.stopModule
  repeat' first
    | with_reducible assumption
    | with_reducible apply State.coldClear_keeps
    | (extract_lets +onlyGivenNames x;
       first | (refine Keeps.cut (t := x) ?_ (fun hx => ?_); subst x; rotate_left; clear_value x; rotate_right)
             | (subst x; beta_reduce))
    | dsimp -zeta only
    | (intro _)
    | split
    | assumption
    | fail_if_no_progress refine Keeps.change ?_ rfl rfl rfl rfl rfl rfl rfl rfl rfl

theorem State.moduleFault_keeps {z : State} (s : State) (u : UnitId) (off : Bool) (hs : Keeps false false z s) :
    Keeps false false z (State.moduleFault s u off) := by
  unfold State.moduleFault
  repeat' first
    | with_reducible assumption
    | with_reducible apply State.faultRecord_keeps
    | with_reducible apply State.stopModule_keeps

end Sys2Proof.Machine
end

