-- ==== Sys2Proof/Laws/KeepsFaults.lean ====
section
/-!
SUPPORT. Laws/KeepsFaults.lean: the operations of Machine/Faults.lean keep the queue, the memories, the points and the fuses.
-/
set_option Elab.async false
set_option linter.all false
namespace Sys2Proof.Machine

theorem State.loseCommand_keeps {z : State} (s : State) (c : Cmd) (die seq : Nat) (hs : Keeps false false z s) :
    Keeps false false z (State.loseCommand s c die seq) := by
  unfold State.loseCommand
  repeat' first
    | with_reducible assumption
    | with_reducible apply State.countLoss_keeps
    | with_reducible apply State.loseProduct_keeps
    | with_reducible apply State.finish_keeps
    | with_reducible apply State.undefineDest_keeps
    | with_reducible apply State.setFabric_keeps
    | dsimp -zeta only
    | (intro _)
    | split

theorem State.loseOne_keeps {z : State} (s : State) (d : Nat) (hs : Keeps false false z s) :
    Keeps false false z (State.loseOne s d) := by
  unfold State.loseOne
  repeat' first
    | with_reducible assumption
    | with_reducible apply State.loseCommand_keeps
    | with_reducible apply State.updDie_keeps
    | with_reducible apply State.faultRecord_keeps
    | with_reducible apply State.abortAll_keeps
    | with_reducible apply State.portDown_keeps
    | with_reducible apply State.setSteps_keeps
    | with_reducible apply State.raiseFault_keeps
    | with_reducible apply Keeps.foldl
    | with_reducible apply Keeps.foldl_fst
    | with_reducible apply Keeps.foldl_snd
    | (extract_lets +onlyGivenNames x; subst x; beta_reduce)
    | dsimp -zeta only
    | (intro _)
    | split
    | assumption
    | fail_if_no_progress refine Keeps.change ?_ rfl rfl rfl rfl rfl rfl rfl rfl rfl

theorem State.loseCutOff_keeps {z : State} (fuel : Nat) (s : State) (hs : Keeps false false z s) :
    Keeps false false z (State.loseCutOff fuel s) := by
  induction fuel generalizing s with
  | zero => exact hs
  | succ k ih =>
    unfold State.loseCutOff
    split
    · exact hs
    · exact ih _ (State.loseOne_keeps _ _ hs)

theorem State.loseDie_keeps {z : State} (s : State) (d : Nat) (hs : Keeps false false z s) :
    Keeps false false z (State.loseDie s d) := by
  unfold State.loseDie
  repeat' first
    | with_reducible assumption
    | with_reducible apply State.loseOne_keeps
    | with_reducible apply State.loseCutOff_keeps
    | with_reducible apply State.moduleFault_keeps
    | dsimp -zeta only
    | (intro _)
    | split

theorem State.endSession_keeps {z : State} (s : State) (hs : Keeps false false z s) :
    Keeps false false z (State.endSession s) := by
  unfold State.endSession
  repeat' first
    | with_reducible assumption
    | (extract_lets +onlyGivenNames x; subst x; beta_reduce)
    | dsimp -zeta only
    | (intro _)
    | split
    | assumption
    | fail_if_no_progress refine Keeps.change ?_ rfl rfl rfl rfl rfl rfl rfl rfl rfl

theorem State.linkLoss_keeps {z : State} (s : State) (hs : Keeps false false z s) :
    Keeps false false z (State.linkLoss s) := by
  unfold State.linkLoss
  repeat' first
    | with_reducible assumption
    | with_reducible apply State.endSession_keeps
    | with_reducible apply State.faultRecord_keeps
    | with_reducible apply State.setSteps_keeps
    | with_reducible apply State.raiseFault_keeps
    | (extract_lets +onlyGivenNames x; clear_value x)
    | dsimp -zeta only
    | (intro _)
    | split
    | assumption
    | fail_if_no_progress refine Keeps.change ?_ rfl rfl rfl rfl rfl rfl rfl rfl rfl

theorem State.poisonAt_keeps {lp lq : Bool} {z : State} (s : State) (a : Nat) (hs : Keeps lp lq z s) :
    Keeps lp lq z (State.poisonAt s a) := by
  unfold State.poisonAt
  repeat' first
    | with_reducible assumption
    | with_reducible apply State.setPoison_keeps
    | dsimp -zeta only
    | (intro _)
    | split

theorem State.failReader_keeps {lp lq : Bool} {z : State} (s : State) (id : CmdId) (a : Nat) (hs : Keeps lp lq z s) :
    Keeps lp lq z (State.failReader s id a) := by
  unfold State.failReader
  repeat' first
    | with_reducible assumption
    | exact fun _ _ => rfl
    | exact fun h => absurd h Bool.false_ne_true
    | (intro _ _; (try dsimp only); split <;> rfl)
    | with_reducible apply State.stopRun_keeps
    | with_reducible apply State.updCmd_keeps
    | with_reducible apply State.finish_keeps
    | (extract_lets +onlyGivenNames x;
       refine Keeps.cut (t := x) ?_ (fun hx => ?_); subst x; rotate_left; clear_value x; rotate_right)
    | dsimp -zeta only
    | (intro _)
    | split

theorem State.cellError_keeps {z : State} (s : State) (cell : Nat) (id : Option CmdId) (word : Option Nat) (own : Bool) (hs :
    Keeps false false z s) :
    Keeps false false z (State.cellError s cell id word own) := by
  unfold State.cellError
  repeat' first
    | with_reducible assumption
    | with_reducible apply State.quiesce_keeps
    | with_reducible apply State.poisonAt_keeps
    | with_reducible apply State.failReader_keeps
    | with_reducible apply State.updCell_keeps
    | with_reducible apply State.faultRecord_keeps
    | with_reducible apply State.ueReport_keeps
    | (extract_lets +onlyGivenNames x;
       first | (refine Keeps.cut (t := x) ?_ (fun hx => ?_); subst x; rotate_left; clear_value x; rotate_right) | clear_value x)
    | dsimp -zeta only
    | (intro _)
    | split
    | assumption
    | fail_if_no_progress refine Keeps.change ?_ rfl rfl rfl rfl rfl rfl rfl rfl rfl

theorem State.testHolder_keeps {z : State} (s : State) (c : Cmd) (e : Ending) (hs : Keeps false false z s) :
    Keeps false false z (State.testHolder s c e) := by
  unfold State.testHolder
  repeat' first
    | with_reducible assumption
    | with_reducible apply State.cellError_keeps
    | dsimp -zeta only
    | (intro _)
    | split

theorem State.unitError_keeps {z : State} (s : State) (u : UnitId) (id : Option CmdId) (word : Option Nat) (own : Bool) (hs :
    Keeps false false z s) :
    Keeps false false z (State.unitError s u id word own) := by
  unfold State.unitError
  repeat' first
    | with_reducible assumption
    | with_reducible apply State.loseDie_keeps
    | with_reducible apply State.cellError_keeps
    | with_reducible apply State.faultRecord_keeps
    | (extract_lets +onlyGivenNames x;
       first | (refine Keeps.cut (t := x) ?_ (fun hx => ?_); subst x; rotate_left; clear_value x; rotate_right) | clear_value x)
    | dsimp -zeta only
    | (intro _)
    | split
    | assumption
    | fail_if_no_progress refine Keeps.change ?_ rfl rfl rfl rfl rfl rfl rfl rfl rfl

theorem State.endTest_keeps {lp lq : Bool} {z : State} (s : State) (u : UnitId) (hs : Keeps lp lq z s) :
    Keeps lp lq z (State.endTest s u) := by
  unfold State.endTest
  repeat' first
    | with_reducible assumption
    | (extract_lets +onlyGivenNames x; clear_value x)
    | dsimp -zeta only
    | (intro _)
    | split
    | assumption
    | fail_if_no_progress refine Keeps.update ?_ rfl rfl rfl

theorem State.testRecord_keeps {lp lq : Bool} {z : State} (s : State) (u : UnitId) (logical : Option (Nat × Nat)) (id : Option CmdId)
    (outcome : Nat) (hs : Keeps lp lq z s) :
    Keeps lp lq z (State.testRecord s u logical id outcome) := by
  unfold State.testRecord
  repeat' first
    | with_reducible assumption
    | with_reducible apply State.bump_keeps
    | with_reducible apply State.faultRecord_keeps
    | with_reducible apply State.logTrace_keeps

theorem State.loseBatches_keeps {z : State} (s : State) (die seq : Nat) (combiner : Bool) (hs : Keeps false false z s) :
    Keeps false false z (State.loseBatches s die seq combiner) := by
  unfold State.loseBatches
  repeat' first
    | with_reducible assumption
    | exact fun _ _ => rfl
    | exact fun h => absurd h Bool.false_ne_true
    | (intro _ _; (try dsimp only); split <;> rfl)
    | with_reducible apply State.countLoss_keeps
    | with_reducible apply State.loseCommand_keeps
    | with_reducible apply State.updCmd_keeps
    | with_reducible apply State.setFabric_keeps
    | with_reducible apply Keeps.foldl
    | with_reducible apply Keeps.foldl_fst
    | with_reducible apply Keeps.foldl_snd
    | (extract_lets +onlyGivenNames x; clear_value x)
    | dsimp -zeta only
    | (intro _)
    | split

theorem State.faultUpdater_keeps {z : State} (s : State) (die : Nat) (hs : Keeps false false z s) :
    Keeps false false z (State.faultUpdater s die) := by
  unfold State.faultUpdater
  repeat' first
    | with_reducible assumption
    | with_reducible apply State.raise_keeps
    | with_reducible apply Keeps.foldl
    | with_reducible apply Keeps.foldl_fst
    | with_reducible apply Keeps.foldl_snd
    | (extract_lets +onlyGivenNames x;
       first | (refine Keeps.cut (t := x) ?_ (fun hx => ?_); subst x; rotate_left; clear_value x; rotate_right)
             | (refine Keeps.cut (t := x.1) ?_ (fun hx => ?_); subst x; rotate_left; clear_value x; rotate_right)
             | (refine Keeps.cut (t := x.2) ?_ (fun hx => ?_); subst x; rotate_left; clear_value x; rotate_right)
             | clear_value x)
    | dsimp -zeta only
    | (intro _)

theorem State.testPass_keeps {z : State} (s : State) (u : UnitId) (id : Option CmdId) (seq : Nat) (hs : Keeps false false z s) :
    Keeps false false z (State.testPass s u id seq) := by
  unfold State.testPass
  repeat' first
    | with_reducible assumption
    | exact fun _ _ => rfl
    | exact fun h => absurd h Bool.false_ne_true
    | (intro _ _; (try dsimp only); split <;> rfl)
    | with_reducible apply State.endTest_keeps
    | with_reducible apply State.testRecord_keeps
    | with_reducible apply State.loseBatches_keeps
    | with_reducible apply State.faultUpdater_keeps
    | with_reducible apply State.updCell_keeps
    | with_reducible apply State.updCmd_keeps
    | (extract_lets +onlyGivenNames x;
       first | (refine Keeps.cut (t := x) ?_ (fun hx => ?_); subst x; rotate_left; clear_value x; rotate_right) | clear_value x)
    | dsimp -zeta only
    | (intro _)
    | split

theorem State.testFail_keeps {z : State} (s : State) (u : UnitId) (id : Option CmdId) (hs : Keeps false false z s) :
    Keeps false false z (State.testFail s u id) := by
  unfold State.testFail
  repeat' first
    | with_reducible assumption
    | with_reducible apply State.replaceCell_keeps
    | with_reducible refine State.replaceCell_keeps' ?_ (by assumption)
    | with_reducible apply State.loseCutOff_keeps
    | with_reducible apply State.loseDie_keeps
    | with_reducible apply State.endTest_keeps
    | with_reducible apply State.testRecord_keeps
    | (extract_lets +onlyGivenNames x;
       first | (refine Keeps.cut (t := x) ?_ (fun hx => ?_); subst x; rotate_left; clear_value x; rotate_right) | clear_value x)
    | dsimp -zeta only
    | (intro _)
    | split
    | assumption
    | fail_if_no_progress refine Keeps.change ?_ rfl rfl rfl rfl rfl rfl rfl rfl rfl

end Sys2Proof.Machine
end

