-- ==== Sys2Proof/Laws/KeepsMemRows.lean ====
section
/-!
SUPPORT. Laws/KeepsMemRows.lean: the operations of Machine/MemRows.lean keep the queue, the memories, the points and the fuses.
-/
set_option Elab.async false
set_option linter.all false
namespace Sys2Proof.Machine

theorem State.wordRead_keeps {lp lq : Bool} {z : State} (s : State) (w flips : Nat) (hs : Keeps lp lq z s) :
    Keeps lp lq z (State.wordRead s w flips).2 := by
  unfold State.wordRead
  repeat' first
    | with_reducible assumption
    | with_reducible apply State.free_keeps
    | with_reducible refine State.free_keeps' ?_ (by assumption)
    | dsimp -zeta only
    | (intro _)
    | split
theorem State.wordRead_keeps' {lp lq : Bool} {z : State} {s : State} {w flips : Nat} {o' u'} (hs : Keeps lp lq z s) (e' : State.wordRead s w flips
    = (o', u')) : Keeps lp lq z u' := by
  have k := State.wordRead_keeps (z := z) s w flips hs
  rw [e'] at k; exact k

theorem State.patrol_keeps {lp lq : Bool} {z : State} (s : State) (w flips : Nat) (raced : Bool) (count report : State → State)
    (hc : ∀ u, Keeps lp lq z u → Keeps lp lq z (count u)) (hr : ∀ u, Keeps lp lq z u → Keeps lp lq z (report u)) (hs : Keeps lp lq z s) :
    Keeps lp lq z (State.patrol s w flips raced count report) := by
  unfold State.patrol
  have hw : Keeps lp lq z (s.wordRead w flips).2 := State.wordRead_keeps s w flips hs
  split
  · rename_i e; rw [e] at hw; exact hw
  · rename_i e; rw [e] at hw; exact hc _ hw
  · rename_i e; rw [e] at hw
    refine hr _ ?_
    split
    · exact hw
    · exact State.setPoison_keeps _ _ _ hw
  · rename_i u e; rw [e] at hw
    have hf : Keeps lp lq z u.free.2 := State.free_keeps _ hw
    have hx : Keeps lp lq z (if raced = true then u.free.2 else u.free.2.setCells (8 * w) (leBytes 8 u.free.1)) := by
      split
      · exact hf
      · exact State.setCells_keeps _ _ _ hf
    dsimp only
    split
    · exact hc _ hx
    · exact hx

theorem State.copyPage_keeps {lp lq : Bool} {z : State} (s : State) (k j : Nat) (hs : Keeps lp lq z s) :
    Keeps lp lq z (State.copyPage s k j) := by
  unfold State.copyPage
  extract_lets m seals poison t
  have ht : Keeps lp lq z t := State.setCells_keeps _ _ _ hs
  clear_value seals poison t
  exact Keeps.update ht rfl rfl rfl

theorem State.pageRetire_keeps {lp lq : Bool} {z : State} (s : State) (c : Cmd) (hs : Keeps lp lq z s) :
    Keeps lp lq z (State.pageRetire s c) := by
  have mark : ∀ (t : State) (k : Nat) (x : Option Nat), Keeps lp lq z t →
      Keeps lp lq z { t with mem := { t.mem with retired := t.mem.retired.set k x } } := fun t k x h => Keeps.update h rfl rfl rfl
  unfold State.pageRetire
  split
  · exact State.finish_keeps _ _ _ hs
  · extract_lets r n f
    split
    · exact State.finish_keeps _ _ _ (mark _ _ _ hs)
    · exact State.finish_keeps _ _ _ (State.setFld_keeps _ _ _ _ _ (mark _ _ _ (State.copyPage_keeps _ _ _ hs)))

theorem State.repairStart_keeps {lp lq : Bool} {z : State} (s : State) (die v : Nat) (hs : Keeps lp lq z s) :
    Keeps lp lq z (State.repairStart s die v) := by
  unfold State.repairStart
  repeat' first
    | with_reducible assumption
    | with_reducible apply State.setFld_keeps
    | with_reducible apply State.repairRow_keeps
    | (extract_lets +onlyGivenNames x; subst x; beta_reduce)
    | dsimp -zeta only
    | (intro _)
    | split
    | assumption
    | fail_if_no_progress refine Keeps.update ?_ rfl rfl rfl

theorem State.loseRow_keeps {lp lq : Bool} {z : State} (s : State) (die cmd row : Nat) (hs : Keeps lp lq z s) :
    Keeps lp lq z (State.loseRow s die cmd row) := by
  unfold State.loseRow
  repeat' first
    | with_reducible assumption
    | with_reducible apply State.free_keeps
    | with_reducible refine State.free_keeps' ?_ (by assumption)
    | with_reducible apply State.setCells_keeps
    | with_reducible apply Keeps.foldl
    | with_reducible apply Keeps.foldl_fst
    | with_reducible apply Keeps.foldl_snd
    | (extract_lets +onlyGivenNames x;
       first | (refine Keeps.cut (t := x) ?_ (fun hx => ?_); subst x; rotate_left; clear_value x; rotate_right)
             | (refine Keeps.cut (t := x.1) ?_ (fun hx => ?_); subst x; rotate_left; clear_value x; rotate_right)
             | (refine Keeps.cut (t := x.2) ?_ (fun hx => ?_); subst x; rotate_left; clear_value x; rotate_right)
             | clear_value x)
    | dsimp -zeta only
    | (intro _)

theorem State.repairEnd_keeps {lp lq : Bool} {z : State} (s : State) (die result spareRows : Nat) (hs : Keeps lp lq z s) :
    Keeps lp lq z (State.repairEnd s die result spareRows) := by
  unfold State.repairEnd
  repeat' first
    | with_reducible assumption
    | with_reducible apply State.loseRow_keeps
    | with_reducible apply State.setFld_keeps
    | (extract_lets +onlyGivenNames x;
       first | (refine Keeps.cut (t := x) ?_ (fun hx => ?_); subst x; rotate_left; clear_value x; rotate_right)
             | (subst x; beta_reduce))
    | dsimp -zeta only
    | (intro _)
    | split
    | assumption
    | fail_if_no_progress refine Keeps.update ?_ rfl rfl rfl

end Sys2Proof.Machine
end

