-- ==== Sys2Proof/Laws/KeepsObserve.lean ====
section
/-!
SUPPORT. Laws/KeepsObserve.lean: the operations of Machine/Observe.lean keep the queue, the memories, the points and the fuses.
-/
set_option Elab.async false
set_option linter.all false
namespace Sys2Proof.Machine

theorem State.onFreeze_keeps {lp lq : Bool} {z : State} (s : State) (id : CmdId) (op : Nat) (f : Cmd → State) (hs : Keeps lp lq z s) (hf : ∀ a0,
    Keeps lp lq z (f a0)) :
    Keeps lp lq z (State.onFreeze s id op f) := by
  unfold State.onFreeze
  repeat' first
    | with_reducible assumption
    | with_reducible apply State.onCmd_keeps

theorem State.freezeCounters_keeps {lp lq : Bool} {z : State} (s : State) (hs : Keeps lp lq z s) :
    Keeps lp lq z (State.freezeCounters s) := by
  unfold State.freezeCounters
  repeat' first
    | with_reducible assumption
    | with_reducible apply State.wr_keeps
    | with_reducible apply State.finish_keeps
    | (extract_lets +onlyGivenNames x;
       first | (refine Keeps.cut (t := x) ?_ (fun hx => ?_); subst x; rotate_left; clear_value x; rotate_right) | clear_value x)
    | dsimp -zeta only
    | (intro _)
    | split
    | assumption
    | fail_if_no_progress refine Keeps.update ?_ rfl rfl rfl

theorem State.freezeAtNextPip_keeps {lp lq : Bool} {z : State} (s : State) (hs : Keeps lp lq z s) :
    Keeps lp lq z (State.freezeAtNextPip s) := by
  unfold State.freezeAtNextPip
  repeat' first
    | with_reducible assumption
    | (extract_lets +onlyGivenNames x; clear_value x)
    | dsimp -zeta only
    | (intro _)
    | split
    | assumption
    | fail_if_no_progress refine Keeps.update ?_ rfl rfl rfl

theorem State.onWatch_keeps {lp lq : Bool} {z : State} (s : State) (id : CmdId) (op : Nat) (f : Cmd → State) (hs : Keeps lp lq z s) (hf : ∀ a0,
    Keeps lp lq z (f a0)) :
    Keeps lp lq z (State.onWatch s id op f) := by
  unfold State.onWatch
  repeat' first
    | with_reducible assumption
    | with_reducible apply State.onCmd_keeps

theorem State.watchRecord_keeps {lp : Bool} {z : State} (s : State) (c : Cmd) (n : Nat) (w : TWatch) (hs : Keeps lp false z s) :
    Keeps lp false z (State.watchRecord s c n w).1 := by
  unfold State.watchRecord
  repeat' first
    | with_reducible assumption
    | with_reducible apply State.writeBytes_keeps
    | with_reducible refine State.writeBytes_keeps' ?_ (by assumption)
    | with_reducible apply State.handle_keeps
    | with_reducible apply State.moved_keeps
    | with_reducible apply Keeps.elim
    | with_reducible apply Keeps.foldl
    | with_reducible apply Keeps.foldl_fst
    | with_reducible apply Keeps.foldl_snd
    | (extract_lets +onlyGivenNames x;
       first | (refine Keeps.cut (t := x) ?_ (fun hx => ?_); subst x; rotate_left; clear_value x; rotate_right)
             | (refine Keeps.cut (t := x.1) ?_ (fun hx => ?_); subst x; rotate_left; clear_value x; rotate_right)
             | clear_value x)
    | dsimp -zeta only
    | (intro _)
    | split
    | assumption
    | fail_if_no_progress refine Keeps.inPlane ?_ rfl rfl
theorem State.watchRecord_keeps' {lp : Bool} {z : State} {s : State} {c : Cmd} {n : Nat} {w : TWatch} {u' o'} (hs : Keeps lp false z s) (e' :
    State.watchRecord s c n w = (u', o')) : Keeps lp false z u' := by
  have k := State.watchRecord_keeps (z := z) s c n w hs
  rw [e'] at k; exact k

theorem State.watchRecords_keeps {lp : Bool} {z : State} (s : State) (c : Cmd) (hs : Keeps lp false z s) :
    Keeps lp false z (State.watchRecords s c).1 := by
  unfold State.watchRecords
  repeat' first
    | with_reducible assumption
    | with_reducible apply State.watchRecord_keeps
    | with_reducible refine State.watchRecord_keeps' ?_ (by assumption)
    | with_reducible apply Keeps.foldl
    | with_reducible apply Keeps.foldl_fst
    | with_reducible apply Keeps.foldl_snd
    | dsimp -zeta only
    | (intro _)
    | split
theorem State.watchRecords_keeps' {lp : Bool} {z : State} {s : State} {c : Cmd} {u' o'} (hs : Keeps lp false z s) (e' : State.watchRecords s c =
    (u', o')) : Keeps lp false z u' := by
  have k := State.watchRecords_keeps (z := z) s c hs
  rw [e'] at k; exact k

theorem State.startSnapshot_keeps {lp : Bool} {z : State} (s : State) (at' : Option Nat) (by' : Option CmdId) (hs : Keeps lp false z s) :
    Keeps lp false z (State.startSnapshot s at' by') := by
  unfold State.startSnapshot
  repeat' first
    | with_reducible assumption
    | (extract_lets +onlyGivenNames x; clear_value x)
    | dsimp -zeta only
    | (intro _)
    | split
    | assumption
    | fail_if_no_progress refine Keeps.inPlane ?_ rfl rfl

end Sys2Proof.Machine
end

