-- ==== Sys2Proof/Laws/KeepsQueues.lean ====
section
/-!
SUPPORT. Laws/KeepsQueues.lean: the operations of Machine/Queues.lean keep the queue, the memories, the points and the fuses.
-/
set_option Elab.async false
set_option linter.all false
namespace Sys2Proof.Machine

theorem State.refuse_keeps {lp : Bool} {z : State} (s : State) (id : CmdId) (d : List Byte) (e : Ending) (hs : Keeps lp false z s) :
    Keeps lp false z (State.refuse s id d e) := by
  unfold State.refuse
  repeat' first
    | with_reducible assumption
    | (extract_lets +onlyGivenNames x; clear_value x)
    | dsimp -zeta only
    | (intro _)
    | split
    | assumption
    | fail_if_no_progress refine Keeps.inPlane ?_ rfl rfl

theorem State.startWatch_keeps {lp : Bool} {z : State} (s : State) (id : CmdId) (d : List Byte) (k : Nat) (hs : Keeps lp false z s) :
    Keeps lp false z (State.startWatch s id d k) := by
  unfold State.startWatch
  repeat' first
    | with_reducible assumption
    | with_reducible apply State.staleDrop_keeps
    | with_reducible apply State.registerWatch_keeps
    | with_reducible apply State.setStart_keeps
    | (extract_lets +onlyGivenNames x; clear_value x)
    | dsimp -zeta only
    | (intro _)
    | split

theorem State.reachHead_keeps {lp : Bool} {z : State} (s : State) (c q : Nat) (n0 : Nat) (hs : Keeps lp false z s) :
    Keeps lp false z (State.reachHead s c q n0) := by
  induction n0 generalizing s  with
  | zero => exact hs
  | succ k ih =>
    unfold State.reachHead
    repeat' first
      | with_reducible assumption
      | apply ih
      | with_reducible apply State.updQueue_keeps
      | with_reducible apply State.refuse_keeps
      | with_reducible apply State.startWatch_keeps
      | (extract_lets +onlyGivenNames x;
         first | (refine Keeps.cut (t := x) ?_ (fun hx => ?_); subst x; rotate_left; clear_value x; rotate_right)
               | clear_value x)
      | dsimp -zeta only
      | (intro _)
      | split

theorem State.nextHead_keeps {lp : Bool} {z : State} (s : State) (c q : Nat) (hs : Keeps lp false z s) :
    Keeps lp false z (State.nextHead s c q) := by
  unfold State.nextHead
  repeat' first
    | with_reducible assumption
    | with_reducible apply State.reachHead_keeps

theorem State.fetch_keeps {lp lq : Bool} {z : State} (s : State) (c q : Nat) (n0 : Nat) (hs : Keeps lp lq z s) :
    Keeps lp lq z (State.fetch s c q n0) := by
  induction n0 generalizing s  with
  | zero => exact hs
  | succ k ih =>
    unfold State.fetch
    repeat' first
      | with_reducible assumption
      | apply ih
      | with_reducible apply State.updQueue_keeps

theorem State.scanQueue_keeps {lp : Bool} {z : State} (s : State) (c q : Nat) (hs : Keeps lp false z s) :
    Keeps lp false z (State.scanQueue s c q) := by
  unfold State.scanQueue
  repeat' first
    | with_reducible assumption
    | with_reducible apply State.setFld_keeps
    | with_reducible apply State.updQueue_keeps
    | with_reducible apply State.hostWrite_keeps
    | with_reducible apply State.requestVector_keeps
    | with_reducible apply State.nextHead_keeps
    | with_reducible apply State.fetch_keeps
    | (extract_lets +onlyGivenNames x;
       first | (refine Keeps.cut (t := x) ?_ (fun hx => ?_); subst x; rotate_left; clear_value x; rotate_right) | clear_value x)
    | dsimp -zeta only
    | (intro _)
    | split

theorem State.scanRing_keeps {lp lq : Bool} {z : State} (s : State) (c r : Nat) (hs : Keeps lp lq z s) :
    Keeps lp lq z (State.scanRing s c r) := by
  unfold State.scanRing
  repeat' first
    | with_reducible assumption
    | with_reducible apply State.updCq_keeps
    | (extract_lets +onlyGivenNames x; clear_value x)
    | dsimp -zeta only
    | (intro _)
    | split

theorem State.scan_keeps {lp : Bool} {z : State} (s : State) (c : Nat) (hs : Keeps lp false z s) :
    Keeps lp false z (State.scan s c) := by
  unfold State.scan
  repeat' first
    | with_reducible assumption
    | with_reducible apply State.updCtx_keeps
    | with_reducible apply State.scanQueue_keeps
    | with_reducible apply State.scanRing_keeps
    | with_reducible apply Keeps.foldl
    | with_reducible apply Keeps.foldl_fst
    | with_reducible apply Keeps.foldl_snd
    | (extract_lets +onlyGivenNames x;
       first | (refine Keeps.cut (t := x) ?_ (fun hx => ?_); subst x; rotate_left; clear_value x; rotate_right)
             | (refine Keeps.cut (t := x.1) ?_ (fun hx => ?_); subst x; rotate_left; clear_value x; rotate_right)
             | (refine Keeps.cut (t := x.2) ?_ (fun hx => ?_); subst x; rotate_left; clear_value x; rotate_right)
             | clear_value x)
    | dsimp -zeta only
    | (intro _)

theorem State.clearQueueCounters_keeps {lp lq : Bool} {z : State} (s : State) (c q : Nat) (hs : Keeps lp lq z s) :
    Keeps lp lq z (State.clearQueueCounters s c q) := by
  unfold State.clearQueueCounters
  repeat' first
    | with_reducible assumption
    | with_reducible apply State.wr_keeps
    | with_reducible apply Keeps.foldl
    | with_reducible apply Keeps.foldl_fst
    | with_reducible apply Keeps.foldl_snd
    | dsimp -zeta only
    | (intro _)

theorem State.useCount_keeps {lp lq : Bool} {z : State} (s : State) (c : Nat) (up : Bool) (u : Nat × Nat) (hs : Keeps lp lq z s) :
    Keeps lp lq z (State.useCount s c up u) := by
  unfold State.useCount
  repeat' first
    | with_reducible assumption
    | with_reducible apply State.updSlot_keeps

theorem State.takeWriters_keeps {lp lq : Bool} {z : State} (s : State) (id : CmdId) (d : List Byte) (hs : Keeps lp lq z s) :
    Keeps lp lq z (State.takeWriters s id d) := by
  unfold State.takeWriters
  repeat' first
    | with_reducible assumption
    | with_reducible apply State.updSlot_keeps
    | (extract_lets +onlyGivenNames x;
       first | (refine Keeps.cut (t := x) ?_ (fun hx => ?_); subst x; rotate_left; clear_value x; rotate_right)
             | (subst x; beta_reduce))
    | dsimp -zeta only
    | (intro _)
    | split

theorem State.intake_keeps {lp : Bool} {z : State} (s : State) (id : CmdId) (d : List Byte) (v : Verdict) (scales : Tab Nat)
    (members : List Nat) (hs : Keeps lp false z s) :
    Keeps lp false z (State.intake s id d v scales members) := by
  unfold State.intake
  repeat' first
    | with_reducible assumption
    | with_reducible apply State.clearQueueCounters_keeps
    | with_reducible apply State.useCount_keeps
    | with_reducible apply State.takeWriters_keeps
    | with_reducible apply State.handle_keeps
    | with_reducible apply Keeps.foldl
    | with_reducible apply Keeps.foldl_fst
    | with_reducible apply Keeps.foldl_snd
    | (extract_lets +onlyGivenNames x;
       first | (refine Keeps.cut (t := x) ?_ (fun hx => ?_); subst x; rotate_left; clear_value x; rotate_right)
             | (refine Keeps.cut (t := x.1) ?_ (fun hx => ?_); subst x; rotate_left; clear_value x; rotate_right)
             | (refine Keeps.cut (t := x.2) ?_ (fun hx => ?_); subst x; rotate_left; clear_value x; rotate_right)
             | clear_value x)
    | dsimp -zeta only
    | (intro _)
    | split
    | assumption
    | fail_if_no_progress refine Keeps.inPlane ?_ rfl rfl
    | (rename_i hq; split at hq <;> first | (cases hq) | skip)
    | (simp_all only; done)

theorem State.reportEnding_keeps {lp lq : Bool} {z : State} (s : State) (e : Ending) (hs : Keeps lp lq z s) :
    Keeps lp lq z (State.reportEnding s e) := by
  unfold State.reportEnding
  repeat' first
    | with_reducible assumption
    | with_reducible apply State.ueReport_keeps
    | dsimp -zeta only
    | (intro _)
    | split

theorem State.issue_keeps {lp : Bool} {z : State} {s : State} {id : CmdId} {d : List Byte} {u'} (e' : State.issue s id d = some
    u') (hs : Keeps lp false z s) : Keeps lp false z u' := by
  unfold State.issue at e'
  try dsimp only at e'
  repeat' split at e'
  all_goals first | cases e' | skip
  all_goals
    repeat' first
      | with_reducible assumption
      | with_reducible apply State.staleDrop_keeps
      | with_reducible apply State.refuse_keeps
      | with_reducible apply State.intake_keeps
      | with_reducible apply State.reportEnding_keeps
      | (extract_lets +onlyGivenNames x;
         first | (refine Keeps.cut (t := x) ?_ (fun hx => ?_); subst x; rotate_left; clear_value x; rotate_right)
               | (refine Keeps.cut (t := x.1) ?_ (fun hx => ?_); subst x; rotate_left; clear_value x; rotate_right)
               | (refine Keeps.cut (t := x.2) ?_ (fun hx => ?_); subst x; rotate_left; clear_value x; rotate_right)
               | clear_value x)
      | dsimp -zeta only
      | (intro _)
      | split
      | assumption
      | fail_if_no_progress refine Keeps.inPlane ?_ rfl rfl
      | (rename_i hq; split at hq <;> first | (cases hq) | skip)
      | (simp_all only; done)

theorem State.issueHead_keeps {lp : Bool} {z : State} (s : State) (c q : Nat) (hs : Keeps lp false z s) :
    Keeps lp false z (State.issueHead s c q) := by
  unfold State.issueHead
  split
  · exact hs
  · rename_i f rest _
    extract_lets id drop
    have hd : ∀ u, Keeps lp false z u → Keeps lp false z (drop u) := fun u h => State.updQueue_keeps u _ _ _ h
    repeat' split
    · exact State.nextHead_keeps _ _ _ (State.refuse_keeps _ _ _ _ (hd s hs))
    · exact State.nextHead_keeps _ _ _ (State.refuse_keeps _ _ _ _ (hd s hs))
    · exact hs
    · exact State.nextHead_keeps _ _ _ (State.refuse_keeps _ _ _ _ (hd s hs))
    · cases e : (drop s).issue id f.desc with
      | none => exact hs
      | some t => exact State.nextHead_keeps _ _ _ (State.issue_keeps e (hd s hs))

theorem State.signal_keeps {lp : Bool} {z : State} (s : State) (ctx ref add : Nat) (hs : Keeps lp false z s) :
    Keeps lp false z (State.signal s ctx ref add) := by
  unfold State.signal
  repeat' first
    | with_reducible assumption
    | with_reducible apply State.addCounter_keeps
    | with_reducible apply State.staleDrop_keeps
    | dsimp -zeta only
    | (intro _)
    | split

theorem State.putRecord_keeps {lp lq : Bool} {z : State} (s : State) (c r : Nat) (rec' : List Byte) (vector : Bool) (hs : Keeps lp lq z s) :
    Keeps lp lq z (State.putRecord s c r rec' vector) := by
  unfold State.putRecord
  repeat' first
    | with_reducible assumption
    | with_reducible apply State.updCq_keeps
    | with_reducible apply State.hostWrite_keeps
    | with_reducible apply State.requestVector_keeps
    | (extract_lets +onlyGivenNames x;
       first | (refine Keeps.cut (t := x) ?_ (fun hx => ?_); subst x; rotate_left; clear_value x; rotate_right) | clear_value x)
    | dsimp -zeta only
    | (intro _)
    | split

theorem State.postRecord_keeps {lp lq : Bool} {z : State} (s : State) (c r : Nat) (rec' : List Byte) (vector : Bool) (hs : Keeps lp lq z s) :
    Keeps lp lq z (State.postRecord s c r rec' vector) := by
  unfold State.postRecord
  repeat' first
    | with_reducible assumption
    | with_reducible apply State.bump_keeps
    | with_reducible apply State.updCq_keeps
    | with_reducible apply State.putRecord_keeps
    | (extract_lets +onlyGivenNames x; clear_value x)
    | dsimp -zeta only
    | (intro _)
    | split

theorem State.settleQueue_keeps {lp lq : Bool} {z : State} (s : State) (c q : Nat) (hs : Keeps lp lq z s) :
    Keeps lp lq z (State.settleQueue s c q) := by
  unfold State.settleQueue
  repeat' first
    | with_reducible assumption
    | with_reducible apply State.setFld_keeps
    | with_reducible apply State.updQueue_keeps
    | dsimp -zeta only
    | (intro _)
    | split

theorem State.failWaiting_keeps {lp lq : Bool} {z : State} (s : State) (c h gen : Nat) (hs : Keeps lp lq z s) :
    Keeps lp lq z (State.failWaiting s c h gen) := by
  unfold State.failWaiting
  repeat' first
    | with_reducible assumption
    | with_reducible apply State.updCtx_keeps
    | (extract_lets +onlyGivenNames x;
       first | (refine Keeps.cut (t := x) ?_ (fun hx => ?_); subst x; rotate_left; clear_value x; rotate_right)
             | (refine Keeps.cut (t := x.1) ?_ (fun hx => ?_); subst x; rotate_left; clear_value x; rotate_right)
             | (refine Keeps.cut (t := x.2) ?_ (fun hx => ?_); subst x; rotate_left; clear_value x; rotate_right)
             | clear_value x)
    | dsimp -zeta only
    | (intro _)
    | split
    | assumption
    | fail_if_no_progress refine Keeps.update ?_ rfl rfl rfl
    | (rename_i hq; split at hq <;> first | (cases hq) | skip)
    | (simp_all only; done)

theorem State.giveBack_keeps {lp lq : Bool} {z : State} (s : State) (c : Cmd) (ok : Bool) (hs : Keeps lp lq z s) :
    Keeps lp lq z (State.giveBack s c ok) := by
  unfold State.giveBack
  repeat' first
    | with_reducible assumption
    | with_reducible apply State.updSlot_keeps
    | with_reducible apply State.useCount_keeps
    | with_reducible apply State.failWaiting_keeps
    | with_reducible apply Keeps.foldl
    | with_reducible apply Keeps.foldl_fst
    | with_reducible apply Keeps.foldl_snd
    | (extract_lets +onlyGivenNames x;
       first | (refine Keeps.cut (t := x) ?_ (fun hx => ?_); subst x; rotate_left; clear_value x; rotate_right)
             | (refine Keeps.cut (t := x.1) ?_ (fun hx => ?_); subst x; rotate_left; clear_value x; rotate_right)
             | (refine Keeps.cut (t := x.2) ?_ (fun hx => ?_); subst x; rotate_left; clear_value x; rotate_right)
             | clear_value x)
    | dsimp -zeta only
    | (intro _)
    | split
    | assumption
    | fail_if_no_progress refine Keeps.update ?_ rfl rfl rfl
    | (rename_i hq; split at hq <;> first | (cases hq) | skip)
    | (simp_all only; done)

theorem State.signals_keeps {lp : Bool} {z : State} (s : State) (c : Cmd) (hs : Keeps lp false z s) :
    Keeps lp false z (State.signals s c) := by
  unfold State.signals
  repeat' first
    | with_reducible assumption
    | with_reducible apply State.signal_keeps
    | (extract_lets +onlyGivenNames x;
       first | (refine Keeps.cut (t := x) ?_ (fun hx => ?_); subst x; rotate_left; clear_value x; rotate_right)
             | (refine Keeps.cut (t := x.1) ?_ (fun hx => ?_); subst x; rotate_left; clear_value x; rotate_right)
             | (refine Keeps.cut (t := x.2) ?_ (fun hx => ?_); subst x; rotate_left; clear_value x; rotate_right)
             | clear_value x)
    | dsimp -zeta only
    | (intro _)
    | split

theorem State.holdDone_keeps {lp : Bool} {z : State} (s : State) (c : Cmd) (hs : Keeps lp false z s) :
    Keeps lp false z (State.holdDone s c) := by
  unfold State.holdDone
  repeat' first
    | with_reducible assumption
    | with_reducible apply State.publishHolds_keeps
    | (extract_lets +onlyGivenNames x;
       first | (refine Keeps.cut (t := x) ?_ (fun hx => ?_); subst x; rotate_left; clear_value x; rotate_right)
             | (refine Keeps.cut (t := x.1) ?_ (fun hx => ?_); subst x; rotate_left; clear_value x; rotate_right)
             | (refine Keeps.cut (t := x.2) ?_ (fun hx => ?_); subst x; rotate_left; clear_value x; rotate_right)
             | clear_value x)
    | dsimp -zeta only
    | (intro _)
    | split
    | assumption
    | fail_if_no_progress refine Keeps.inPlane ?_ rfl rfl
    | (simp_all only; done)

theorem State.completeWith_keeps {z : State} (s : State) (c : Cmd) (e : Ending) (hs : Keeps false false z s) :
    Keeps false false z (State.completeWith s c e) := by
  unfold State.completeWith
  repeat' first
    | with_reducible assumption
    | with_reducible apply State.testHolder_keeps
    | with_reducible apply State.nextHead_keeps
    | with_reducible apply State.postRecord_keeps
    | with_reducible apply State.settleQueue_keeps
    | with_reducible apply State.giveBack_keeps
    | with_reducible apply State.signals_keeps
    | with_reducible apply State.holdDone_keeps
    | (extract_lets +onlyGivenNames x;
       first | (refine Keeps.cut (t := x) ?_ (fun hx => ?_); subst x; rotate_left; clear_value x; rotate_right)
             | (refine Keeps.cut (t := x.1) ?_ (fun hx => ?_); subst x; rotate_left; clear_value x; rotate_right)
             | (refine Keeps.cut (t := x.2) ?_ (fun hx => ?_); subst x; rotate_left; clear_value x; rotate_right)
             | clear_value x)
    | dsimp -zeta only
    | (intro _)
    | split
    | assumption
    | fail_if_no_progress refine Keeps.change ?_ rfl rfl rfl rfl rfl rfl rfl rfl rfl
    | fail_if_no_progress refine Keeps.inPlane ?_ rfl rfl
    | (rename_i hq; split at hq <;> first | (cases hq) | skip)
    | (simp_all only; done)

theorem State.complete_keeps {z : State} (s : State) (c : Cmd) (e : Ending) (hs : Keeps false false z s) :
    Keeps false false z (State.complete s c e) := by
  unfold State.complete
  repeat' first
    | with_reducible assumption
    | with_reducible apply State.watchRecords_keeps
    | with_reducible refine State.watchRecords_keeps' ?_ (by assumption)
    | with_reducible apply State.reportEnding_keeps
    | with_reducible apply State.completeWith_keeps
    | dsimp -zeta only
    | (intro _)
    | split

end Sys2Proof.Machine
end

