-- ==== Sys2Proof/Laws/KeepsSecurity.lean ====
section
/-!
SUPPORT. Laws/KeepsSecurity.lean: the operations of Machine/Security.lean keep the queue, the memories, the points and the fuses.
-/
set_option Elab.async false
set_option linter.all false
namespace Sys2Proof.Machine

theorem State.endService_keeps {z : State} (s : State) (result : Nat) (payload : List Byte) (hs : Keeps false false z s) :
    Keeps false false z (State.endService s result payload) := by
  unfold State.endService
  repeat' first
    | with_reducible assumption
    | with_reducible apply State.hostWrite_keeps
    | (extract_lets +onlyGivenNames x;
       first | (refine Keeps.cut (t := x) ?_ (fun hx => ?_); subst x; rotate_left; clear_value x; rotate_right)
             | (subst x; beta_reduce))
    | dsimp -zeta only
    | (intro _)
    | split
    | assumption
    | fail_if_no_progress refine Keeps.change ?_ rfl rfl rfl rfl rfl rfl rfl rfl rfl

theorem State.service_keeps {z : State} (s : State) (code n : Nat) (mine : List Byte → Bool)
    (f : State → List Byte → Except Nat (List Byte) × State) (hf : ∀ u r, Keeps false false z u → Keeps false false z (f u r).2) (hs : Keeps false false z s) :
    Keeps false false z (State.service s code n mine f) := by
  unfold State.service
  extract_lets addr req
  have h : Keeps false false z (f s req).2 := hf s req hs
  repeat' split
  · exact hs
  · exact State.endService_keeps _ _ _ hs
  · exact State.endService_keeps _ _ _ hs
  · exact State.endService_keeps _ _ _ hs
  · rename_i e; rw [e] at h; exact State.endService_keeps _ _ _ h
  · rename_i e; rw [e] at h; exact State.endService_keeps _ _ _ h

theorem State.draw_keeps {z : State} (s : State) (n : Nat) (hs : Keeps false false z s) :
    Keeps false false z (State.draw s n).2 := by
  unfold State.draw
  repeat' first
    | with_reducible assumption
    | (extract_lets +onlyGivenNames x; subst x; beta_reduce)
    | dsimp -zeta only
    | (intro _)
    | split
    | assumption
    | fail_if_no_progress refine Keeps.change ?_ rfl rfl rfl rfl rfl rfl rfl rfl rfl
theorem State.draw_keeps' {z : State} {s : State} {n : Nat} {o' u'} (hs : Keeps false false z s) (e' : State.draw s n = (o', u')) : Keeps false false z u' := by
  have k := State.draw_keeps (z := z) s n hs
  rw [e'] at k; exact k

theorem State.agree_keeps {z : State} (s : State) (req : List Byte) (hs : Keeps false false z s) :
    Keeps false false z (State.agree s req).2.2 := by
  unfold State.agree
  repeat' first
    | with_reducible assumption
    | with_reducible apply State.draw_keeps
theorem State.agree_keeps' {z : State} {s : State} {req : List Byte} {o' o2' u'} (hs : Keeps false false z s) (e' : State.agree s req =
    (o', o2', u')) : Keeps false false z u' := by
  have k := State.agree_keeps (z := z) s req hs
  rw [e'] at k; exact k

theorem State.setKeySlot_keeps {lp lq : Bool} {z : State} (s : State) (c : Nat) (fresh : Bool) (hs : Keeps lp lq z s) :
    Keeps lp lq z (State.setKeySlot s c fresh) := by
  unfold State.setKeySlot
  repeat' first
    | with_reducible assumption
    | (extract_lets +onlyGivenNames x; subst x; beta_reduce)
    | dsimp -zeta only
    | (intro _)
    | split
    | assumption
    | fail_if_no_progress refine Keeps.update ?_ rfl rfl rfl

theorem State.contextKey_keeps {lp lq : Bool} {z : State} (s : State) (req : List Byte) (hs : Keeps lp lq z s) :
    Keeps lp lq z (State.contextKey s req).2 := by
  unfold State.contextKey
  repeat' first
    | with_reducible assumption
    | with_reducible apply State.setKeySlot_keeps
    | (extract_lets +onlyGivenNames x; clear_value x)
    | dsimp -zeta only
    | (intro _)
    | split
theorem State.contextKey_keeps' {lp lq : Bool} {z : State} {s : State} {req : List Byte} {o' u'} (hs : Keeps lp lq z s) (e' : State.contextKey s
    req = (o', u')) : Keeps lp lq z u' := by
  have k := State.contextKey_keeps (z := z) s req hs
  rw [e'] at k; exact k

theorem State.downAll_keeps {z : State} (s : State) (reason : Nat) (hs : Keeps false false z s) :
    Keeps false false z (State.downAll s reason) := by
  unfold State.downAll
  repeat' first
    | with_reducible assumption
    | with_reducible apply State.portDown_keeps
    | with_reducible apply Keeps.foldl
    | with_reducible apply Keeps.foldl_fst
    | with_reducible apply Keeps.foldl_snd
    | dsimp -zeta only
    | (intro _)
    | split

theorem State.enterError_keeps {z : State} (s : State) (hs : Keeps false false z s) :
    Keeps false false z (State.enterError s) := by
  unfold State.enterError
  repeat' first
    | with_reducible assumption
    | with_reducible apply State.downAll_keeps
    | (extract_lets +onlyGivenNames x; subst x; beta_reduce)
    | dsimp -zeta only
    | (intro _)
    | split
    | assumption
    | fail_if_no_progress refine Keeps.change ?_ rfl rfl rfl rfl rfl rfl rfl rfl rfl

theorem State.zeroise_keeps {z : State} (s : State) (hs : Keeps false false z s) :
    Keeps false false z (State.zeroise s) := by
  unfold State.zeroise
  repeat' first
    | with_reducible assumption
    | with_reducible apply State.downAll_keeps
    | (extract_lets +onlyGivenNames x; subst x; beta_reduce)
    | dsimp -zeta only
    | (intro _)
    | split
    | assumption
    | fail_if_no_progress refine Keeps.change ?_ rfl rfl rfl rfl rfl rfl rfl rfl rfl

theorem State.zeroiseNow_keeps {z : State} (s : State) (hs : Keeps false false z s) :
    Keeps false false z (State.zeroiseNow s) := by
  unfold State.zeroiseNow
  repeat' first
    | with_reducible assumption
    | with_reducible apply State.zeroise_keeps
    | (extract_lets +onlyGivenNames x; subst x; beta_reduce)
    | dsimp -zeta only
    | (intro _)
    | split
    | assumption
    | fail_if_no_progress refine Keeps.change ?_ rfl rfl rfl rfl rfl rfl rfl rfl rfl

end Sys2Proof.Machine
end

