-- ==== Sys2Proof/Laws/KeepsPower.lean ====
section
/-!
SUPPORT. Laws/KeepsPower.lean: the operations of Machine/Power.lean keep the queue, the memories, the points and the fuses.
-/
set_option Elab.async false
set_option linter.all false
namespace Sys2Proof.Machine

theorem State.setPower_keeps {z : State} (s : State) (f : PowerSt → PowerSt) (hs : Keeps false false z s)
    (hf : ∀ p, p.point ≤ 60 ∧ p.fwPoint ≤ 60 → (f p).point ≤ 60 ∧ (f p).fwPoint ≤ 60) : Keeps false false z (s.setPower f) :=
  hs.trans ⟨rfl, id, hf _, ⟨id, Nat.le_refl _, id, List.prefix_rfl, rfl⟩, id,
      (fun y => nomatch y), (fun y => nomatch y)⟩

theorem State.setTemp_keeps {z : State} (s : State) (d x : Nat) (hs : Keeps false false z s) :
    Keeps false false z (State.setTemp s d x) :=
  State.wr_keeps _ _ _ hs

theorem State.takeTemp_keeps {z : State} (s : State) (d : Nat) (t : Option Nat) (hs : Keeps false false z s) :
    Keeps false false z (State.takeTemp s d t) := by
  unfold State.takeTemp
  repeat' first
    | with_reducible assumption
    | exact fun _ h => h
    | with_reducible apply State.setTemp_keeps
    | with_reducible apply State.setPower_keeps
    | (extract_lets +onlyGivenNames x;
       first | (refine Keeps.cut (t := x) ?_ (fun hx => ?_); subst x; rotate_left; clear_value x; rotate_right) | clear_value x)
    | dsimp -zeta only
    | (intro _)
    | split

theorem State.comparator_keeps {z : State} (s : State) (k : Nat) (engage release : Bool) (hs : Keeps false false z s) :
    Keeps false false z (State.comparator s k engage release) := by
  unfold State.comparator
  repeat' split
  · exact State.setPower_keeps _ _ hs fun _ h => h
  · exact hs
  · exact State.bump_keeps _ _ _ (State.setPower_keeps _ _ hs fun _ h => h)
  · exact hs

theorem State.logThrottle_keeps {lp lq : Bool} {z : State} (s : State) (temp16 entered : Nat) (hs : Keeps lp lq z s) :
    Keeps lp lq z (State.logThrottle s temp16 entered) := by
  unfold State.logThrottle
  repeat' first
    | with_reducible assumption
    | with_reducible apply State.logTrace_keeps
    | dsimp -zeta only
    | (intro _)
    | split

theorem State.inputLost_keeps {z : State} (s : State) (hs : Keeps false false z s) :
    Keeps false false z (State.inputLost s) := by
  unfold State.inputLost
  repeat' first
    | with_reducible assumption
    | exact fun _ h => h
    | with_reducible apply State.setPower_keeps

theorem State.shutDown_keeps {z : State} (s : State) (hs : Keeps false false z s) :
    Keeps false false z (State.shutDown s) := by
  unfold State.shutDown
  repeat' first
    | with_reducible assumption
    | with_reducible apply State.inputLost_keeps
    | with_reducible apply State.stopModule_keeps
    | with_reducible apply State.moduleFault_keeps
    | (extract_lets +onlyGivenNames x;
       refine Keeps.cut (t := x) ?_ (fun hx => ?_); subst x; rotate_left; clear_value x; rotate_right)
    | dsimp -zeta only
    | (intro _)
    | split

end Sys2Proof.Machine
end

