-- ==== Sys2Proof/Laws/KeepsBoot.lean ====
section
/-!
SUPPORT. Laws/KeepsBoot.lean: the operations of Machine/Boot.lean keep the queue, the memories, the points and the fuses.
-/
set_option Elab.async false
set_option linter.all false
namespace Sys2Proof.Machine

theorem State.storeFields_keeps {lp lq : Bool} {z : State} (s : State) (r : Reg) (mask v : Nat) (hs : Keeps lp lq z s) :
    Keeps lp lq z (State.storeFields s r mask v) := by
  unfold State.storeFields
  repeat' first
    | with_reducible assumption
    | with_reducible apply State.wr_keeps
    | with_reducible apply State.bump_keeps
    | (extract_lets +onlyGivenNames x;
       first | (refine Keeps.cut (t := x) ?_ (fun hx => ?_); subst x; rotate_left; clear_value x; rotate_right) | clear_value x)
    | dsimp -zeta only
    | (intro _)
    | split

theorem State.countApplied_keeps {lp lq : Bool} {z : State} (s : State) (d : Nat) (hs : Keeps lp lq z s) :
    Keeps lp lq z (State.countApplied s d) := by
  unfold State.countApplied
  repeat' first
    | with_reducible assumption
    | with_reducible apply State.setFld_keeps

theorem State.applyRecs_keeps {z : State} {signed : Bool} {l : List SetupRec} {s u : State}
    (e : State.applyRecs signed l s = some u) (hs : Keeps false false z s) : Keeps false false z u := by
  induction l generalizing s with
  | nil => cases e; exact hs
  | cons r l ih =>
    cases r with
    | regs ws =>
      rw [State.applyRecs] at e
      split at e
      · exact ih e (Keeps.foldl _ (Keeps.foldl _ hs fun _ _ h => State.storeFields_keeps _ _ _ _ h) fun _ _ h =>
          State.countApplied_keeps _ _ h)
      · cases e
    | ownerSigned =>
      refine ih e ?_
      split
      · exact hs.trans ⟨rfl, id, id, ⟨id, Nat.le_refl _, fun _ => rfl, List.prefix_rfl, rfl⟩, id,
      (fun y => nomatch y), (fun y => nomatch y)⟩
      · exact hs
    | lock => exact ih e hs

theorem State.applySetup_keeps {z : State} (s : State) (hs : Keeps false false z s) : Keeps false false z (State.applySetup s) := by
  unfold State.applySetup
  extract_lets +onlyGivenNames img b0 bad
  have hb : Keeps false false z bad := hs.change rfl rfl rfl rfl rfl rfl rfl rfl rfl
  clear_value bad
  split
  · exact hs
  · split
    · exact hb
    · split
      · exact hb
      · split
        · exact hb
        · rename_i t e
          have ht : Keeps false false z t := State.applyRecs_keeps e hs
          extract_lets +onlyGivenNames u
          have hu : Keeps false false z u := by
            subst u
            split
            · exact Keeps.foldl _ ht fun _ _ h => State.countApplied_keeps _ _ (State.setFld_keeps _ _ _ _ _ h)
            · exact ht
          clear_value u
          exact hu.change rfl rfl rfl rfl rfl rfl rfl rfl rfl

theorem State.raiseFloor_keeps {z : State} (s : State) (img : List Byte) (hs : Keeps false false z s) :
    Keeps false false z (State.raiseFloor s img) := by
  unfold State.raiseFloor
  extract_lets v
  split
  · exact hs.trans ⟨rfl, id, id, ⟨id, Nat.le_max_left _ _, id, List.prefix_rfl, rfl⟩, id,
      (fun y => nomatch y), (fun y => nomatch y)⟩
  · exact hs

theorem State.startFirmware_keeps {z : State} (s : State) (img : List Byte) (fromHost : Bool) (hs : Keeps false false z s) :
    Keeps false false z (State.startFirmware s img fromHost) := by
  unfold State.startFirmware
  repeat' first
    | with_reducible assumption
    | with_reducible apply State.raiseFloor_keeps
    | (extract_lets +onlyGivenNames x;
       first | (refine Keeps.cut (t := x) ?_ (fun hx => ?_); subst x; rotate_left; clear_value x; rotate_right)
             | (subst x; beta_reduce))
    | dsimp -zeta only
    | (intro _)
    | split
    | assumption
    | fail_if_no_progress refine Keeps.change ?_ rfl rfl rfl rfl rfl rfl rfl rfl rfl

theorem State.mapDie_keeps {lp : Bool} {z : State} (s : State) (d : Nat) (hs : Keeps lp false z s) :
    Keeps lp false z (State.mapDie s d) := by
  unfold State.mapDie
  repeat' first
    | with_reducible assumption
    | with_reducible apply State.updCell_keeps
    | with_reducible apply Keeps.foldl
    | with_reducible apply Keeps.foldl_fst
    | with_reducible apply Keeps.foldl_snd
    | (extract_lets +onlyGivenNames x; clear_value x)
    | dsimp -zeta only
    | (intro _)
    | split
    | assumption
    | fail_if_no_progress refine Keeps.inPlane ?_ rfl rfl

theorem State.takeLayout_keeps {lp lq : Bool} {z : State} (s : State) (hs : Keeps lp lq z s) :
    Keeps lp lq z (State.takeLayout s) := by
  unfold State.takeLayout
  repeat' first
    | with_reducible assumption
    | (extract_lets +onlyGivenNames x; subst x; beta_reduce)
    | dsimp -zeta only
    | (intro _)
    | split
    | assumption
    | fail_if_no_progress refine Keeps.update ?_ rfl rfl rfl

theorem State.enterStage_keeps {z : State} (s : State) (g : Stage) (hs : Keeps false false z s) :
    Keeps false false z (State.enterStage s g) := by
  unfold State.enterStage
  repeat' first
    | with_reducible assumption
    | with_reducible apply State.logTrace_keeps
    | with_reducible apply State.stage_keeps
    | (extract_lets +onlyGivenNames x; subst x; beta_reduce)
    | dsimp -zeta only
    | (intro _)
    | split
    | assumption
    | fail_if_no_progress refine Keeps.change ?_ rfl rfl rfl rfl rfl rfl rfl rfl rfl

theorem State.failStart_keeps {z : State} (s : State) (reason : Nat) (hs : Keeps false false z s) :
    Keeps false false z (State.failStart s reason) := by
  unfold State.failStart
  repeat' first
    | with_reducible assumption
    | with_reducible apply State.logTrace_keeps
    | with_reducible apply State.stage_keeps
    | (extract_lets +onlyGivenNames x; subst x; beta_reduce)
    | dsimp -zeta only
    | (intro _)
    | split
    | assumption
    | fail_if_no_progress refine Keeps.change ?_ rfl rfl rfl rfl rfl rfl rfl rfl rfl

theorem State.endPower_keeps {z : State} (s : State) (hs : Keeps false false z s) :
    Keeps false false z (State.endPower s) := by
  unfold State.endPower
  repeat' first
    | with_reducible assumption
    | with_reducible apply State.enterStage_keeps
    | (extract_lets +onlyGivenNames x; clear_value x)
    | dsimp -zeta only
    | (intro _)
    | split
    | assumption
    | fail_if_no_progress refine Keeps.change ?_ rfl rfl rfl rfl rfl rfl rfl rfl rfl

theorem State.endRom_keeps {z : State} (s : State) (r : StageReport) (hs : Keeps false false z s) :
    Keeps false false z (State.endRom s r) := by
  unfold State.endRom
  repeat' first
    | with_reducible assumption
    | with_reducible apply State.startFirmware_keeps
    | with_reducible apply State.enterStage_keeps
    | with_reducible apply State.failStart_keeps
    | with_reducible apply State.updCell_keeps
    | with_reducible apply Keeps.foldl
    | with_reducible apply Keeps.foldl_fst
    | with_reducible apply Keeps.foldl_snd
    | (extract_lets +onlyGivenNames x;
       first | (refine Keeps.cut (t := x) ?_ (fun hx => ?_); subst x; rotate_left; clear_value x; rotate_right)
             | (subst x; beta_reduce))
    | dsimp -zeta only
    | (intro _)
    | split
    | assumption
    | fail_if_no_progress refine Keeps.change ?_ rfl rfl rfl rfl rfl rfl rfl rfl rfl

theorem State.dropDies_keeps {z : State} (s : State) (ds : List Nat) (hs : Keeps false false z s) :
    Keeps false false z (State.dropDies s ds) := by
  unfold State.dropDies
  repeat' first
    | with_reducible assumption
    | with_reducible apply State.faultRecord_keeps
    | with_reducible apply Keeps.foldl
    | with_reducible apply Keeps.foldl_fst
    | with_reducible apply Keeps.foldl_snd
    | (extract_lets +onlyGivenNames x; subst x; beta_reduce)
    | dsimp -zeta only
    | (intro _)
    | split
    | assumption
    | fail_if_no_progress refine Keeps.change ?_ rfl rfl rfl rfl rfl rfl rfl rfl rfl

theorem State.endSelfTest_keeps {z : State} (s : State) (r : StageReport) (hs : Keeps false false z s) :
    Keeps false false z (State.endSelfTest s r) := by
  unfold State.endSelfTest
  repeat' first
    | with_reducible assumption
    | with_reducible apply State.enterStage_keeps
    | with_reducible apply State.failStart_keeps
    | with_reducible apply State.dropDies_keeps
    | with_reducible apply State.updCell_keeps
    | with_reducible apply State.clearSram_keeps
    | with_reducible apply Keeps.foldl
    | with_reducible apply Keeps.foldl_fst
    | with_reducible apply Keeps.foldl_snd
    | (extract_lets +onlyGivenNames x;
       first | (refine Keeps.cut (t := x) ?_ (fun hx => ?_); subst x; rotate_left; clear_value x; rotate_right) | clear_value x)
    | dsimp -zeta only
    | (intro _)
    | split

theorem State.endMemory_keeps {z : State} (s : State) (r : StageReport) (hs : Keeps false false z s) :
    Keeps false false z (State.endMemory s r) := by
  unfold State.endMemory
  repeat' first
    | with_reducible assumption
    | with_reducible apply State.enterStage_keeps
    | with_reducible apply State.failStart_keeps
    | with_reducible apply State.dropDies_keeps
    | dsimp -zeta only
    | (intro _)
    | split

theorem State.enterReady_keeps {z : State} (s : State) (hs : Keeps false false z s) :
    Keeps false false z (State.enterReady s) := by
  unfold State.enterReady
  repeat' first
    | with_reducible assumption
    | with_reducible apply State.enterStage_keeps
    | with_reducible apply State.bringUp_keeps
    | with_reducible apply Keeps.foldl
    | with_reducible apply Keeps.foldl_fst
    | with_reducible apply Keeps.foldl_snd
    | (extract_lets +onlyGivenNames x; subst x; beta_reduce)
    | dsimp -zeta only
    | (intro _)
    | split
    | assumption
    | fail_if_no_progress refine Keeps.change ?_ rfl rfl rfl rfl rfl rfl rfl rfl rfl

theorem State.endMap_keeps {z : State} (s : State) (r : StageReport) (hs : Keeps false false z s) :
    Keeps false false z (State.endMap s r) := by
  unfold State.endMap
  repeat' first
    | with_reducible assumption
    | with_reducible apply State.mapDie_keeps
    | with_reducible apply State.takeLayout_keeps
    | with_reducible apply State.failStart_keeps
    | with_reducible apply State.enterReady_keeps
    | with_reducible apply Keeps.foldl
    | with_reducible apply Keeps.foldl_fst
    | with_reducible apply Keeps.foldl_snd
    | (extract_lets +onlyGivenNames x;
       first | (refine Keeps.cut (t := x) ?_ (fun hx => ?_); subst x; rotate_left; clear_value x; rotate_right)
             | (subst x; beta_reduce))
    | dsimp -zeta only
    | (intro _)
    | split
    | assumption
    | fail_if_no_progress refine Keeps.change ?_ rfl rfl rfl rfl rfl rfl rfl rfl rfl

theorem State.modReset_keeps {z : State} (s : State) (hs : Keeps false false z s) :
    Keeps false false z (State.modReset s) := by
  unfold State.modReset
  repeat' first
    | with_reducible assumption
    | exact fun _ h => h
    | with_reducible apply State.setPower_keeps
    | with_reducible apply State.coldClear_keeps

end Sys2Proof.Machine
end

