-- ==== Sys2Proof/Laws/KeepsRegRead.lean ====
section
/-!
SUPPORT. Laws/KeepsRegRead.lean: the operations of Machine/RegRead.lean keep the queue, the memories, the points and the fuses.
-/
set_option Elab.async false
set_option linter.all false
namespace Sys2Proof.Machine

theorem State.setLatch_keeps {lp lq : Bool} {z : State} (s : State) (r : Reg) (v : Option Nat) (hs : Keeps lp lq z s) :
    Keeps lp lq z (State.setLatch s r v) := by
  unfold State.setLatch
  repeat' first
    | with_reducible assumption
    | (extract_lets +onlyGivenNames x; clear_value x)
    | dsimp -zeta only
    | (intro _)
    | split
    | assumption
    | fail_if_no_progress refine Keeps.update ?_ rfl rfl rfl

theorem State.read4_keeps {lp lq : Bool} {z : State} (s : State) (a : Nat) (hs : Keeps lp lq z s) :
    Keeps lp lq z (State.read4 s a).2 := by
  unfold State.read4
  repeat' first
    | with_reducible assumption
    | with_reducible apply State.setLatch_keeps
    | (extract_lets +onlyGivenNames x; clear_value x)
    | dsimp -zeta only
    | (intro _)
    | split
theorem State.read4_keeps' {lp lq : Bool} {z : State} {s : State} {a : Nat} {o' u'} (hs : Keeps lp lq z s) (e' : State.read4 s a = (o', u')) :
    Keeps lp lq z u' := by
  have k := State.read4_keeps (z := z) s a hs
  rw [e'] at k; exact k

theorem State.readAt_keeps {lp lq : Bool} {z : State} (s : State) (a size : Nat) (hs : Keeps lp lq z s) : Keeps lp lq z (State.readAt s a size).2 := by
  have h4 : ∀ u b, Keeps lp lq z u → Keeps lp lq z (u.read4 b).2 := fun u b h => State.read4_keeps u b h
  unfold State.readAt
  split
  · split
    · exact hs
    · dsimp only
      exact h4 _ _ (h4 _ _ hs)
  · split
    · exact h4 _ _ hs
    · split
      · dsimp only
        exact h4 _ _ hs
      · exact hs
theorem State.readAt_keeps' {lp lq : Bool} {z : State} {s : State} {a size : Nat} {o' u'} (hs : Keeps lp lq z s)
    (e' : State.readAt s a size = (o', u')) : Keeps lp lq z u' := by
  have k := State.readAt_keeps (z := z) s a size hs
  rw [e'] at k; exact k

theorem State.barRead_keeps {lp lq : Bool} {z : State} (s : State) (secure : Bool) (a size : Nat) (hs : Keeps lp lq z s) :
    Keeps lp lq z (State.barRead s secure a size) := by
  unfold State.barRead
  repeat' first
    | with_reducible assumption
    | with_reducible apply State.bump_keeps
    | with_reducible apply State.readAt_keeps
    | with_reducible refine State.readAt_keeps' ?_ (by assumption)
    | (extract_lets +onlyGivenNames x;
       first | (refine Keeps.cut (t := x.2) ?_ (fun hx => ?_); subst x; rotate_left; clear_value x; rotate_right)
             | (subst x; beta_reduce))
    | dsimp -zeta only
    | (intro _)
    | split
    | assumption
    | fail_if_no_progress refine Keeps.update ?_ rfl rfl rfl

end Sys2Proof.Machine
end

