-- ==== Sys2Proof/Laws/KeepsRegWrite.lean ====
section
/-!
SUPPORT. Laws/KeepsRegWrite.lean: the operations of Machine/RegWrite.lean keep the queue, the memories, the points and the fuses.
-/
set_option Elab.async false
set_option linter.all false
namespace Sys2Proof.Machine

theorem State.storeAll_keeps {lp lq : Bool} {z : State} (s : State) (r : Reg) (mask v : Nat) (hs : Keeps lp lq z s) :
    Keeps lp lq z (State.storeAll s r mask v) := by
  unfold State.storeAll
  repeat' first
    | with_reducible assumption
    | with_reducible apply State.storeFields_keeps
    | with_reducible apply State.wr_keeps
    | (extract_lets +onlyGivenNames x;
       first | (refine Keeps.cut (t := x) ?_ (fun hx => ?_); subst x; rotate_left; clear_value x; rotate_right) | clear_value x)
    | dsimp -zeta only
    | (intro _)
    | split

theorem State.writeCtxControl_keeps {lp lq : Bool} {z : State} (s : State) (r : Reg) (v : Nat) (hs : Keeps lp lq z s) :
    Keeps lp lq z (State.writeCtxControl s r v) := by
  unfold State.writeCtxControl
  repeat' first
    | with_reducible assumption
    | with_reducible apply State.storeAll_keeps

theorem State.enableQueue_keeps {lp lq : Bool} {z : State} (s : State) (c q : Nat) (hs : Keeps lp lq z s) :
    Keeps lp lq z (State.enableQueue s c q) := by
  unfold State.enableQueue
  repeat' first
    | with_reducible assumption
    | with_reducible apply State.setFld_keeps
    | with_reducible apply State.updQueue_keeps
    | with_reducible apply State.hostWrite_keeps
    | with_reducible apply State.clearQueueCounters_keeps

theorem State.disableQueue_keeps {lp : Bool} {z : State} (s : State) (c q : Nat) (hs : Keeps lp false z s) :
    Keeps lp false z (State.disableQueue s c q) := by
  unfold State.disableQueue
  repeat' first
    | with_reducible assumption
    | with_reducible apply State.setFld_keeps
    | with_reducible apply State.updQueue_keeps
    | with_reducible apply State.abortQueue_keeps
    | with_reducible apply State.settleQueue_keeps

theorem State.writeSqConfig_keeps {lp : Bool} {z : State} (s : State) (r : Reg) (v : Nat) (hs : Keeps lp false z s) :
    Keeps lp false z (State.writeSqConfig s r v) := by
  unfold State.writeSqConfig
  repeat' first
    | with_reducible assumption
    | with_reducible apply State.setFld_keeps
    | with_reducible apply State.storeAll_keeps
    | with_reducible apply State.enableQueue_keeps
    | with_reducible apply State.disableQueue_keeps
    | (extract_lets +onlyGivenNames x;
       first | (refine Keeps.cut (t := x) ?_ (fun hx => ?_); subst x; rotate_left; clear_value x; rotate_right) | clear_value x)
    | dsimp -zeta only
    | (intro _)
    | split

theorem State.writeCqConfig_keeps {lp lq : Bool} {z : State} (s : State) (r : Reg) (v : Nat) (hs : Keeps lp lq z s) :
    Keeps lp lq z (State.writeCqConfig s r v) := by
  unfold State.writeCqConfig
  repeat' first
    | with_reducible assumption
    | with_reducible apply State.setFld_keeps
    | with_reducible apply State.updCq_keeps
    | with_reducible apply State.storeAll_keeps
    | (extract_lets +onlyGivenNames x;
       first | (refine Keeps.cut (t := x) ?_ (fun hx => ?_); subst x; rotate_left; clear_value x; rotate_right) | clear_value x)
    | dsimp -zeta only
    | (intro _)
    | split

theorem State.writeBase_keeps {lp lq : Bool} {z : State} (s : State) (r cfg : Reg) (mask v : Nat) (hs : Keeps lp lq z s) :
    Keeps lp lq z (State.writeBase s r cfg mask v) := by
  unfold State.writeBase
  repeat' first
    | with_reducible assumption
    | with_reducible apply State.storeAll_keeps
    | dsimp -zeta only
    | (intro _)
    | split

theorem State.writeRepairCmd_keeps {lp lq : Bool} {z : State} (s : State) (r : Reg) (mask v : Nat) (hs : Keeps lp lq z s) :
    Keeps lp lq z (State.writeRepairCmd s r mask v) := by
  unfold State.writeRepairCmd
  repeat' first
    | with_reducible assumption
    | with_reducible apply State.repairStart_keeps
    | with_reducible apply State.setFld_keeps
    | with_reducible apply State.storeAll_keeps
    | (extract_lets +onlyGivenNames x;
       first | (refine Keeps.cut (t := x) ?_ (fun hx => ?_); subst x; rotate_left; clear_value x; rotate_right) | clear_value x)
    | dsimp -zeta only
    | (intro _)
    | split

theorem State.writePartition_keeps {lp lq : Bool} {z : State} (s : State) (r : Reg) (mask v : Nat) (hs : Keeps lp lq z s) :
    Keeps lp lq z (State.writePartition s r mask v) := by
  unfold State.writePartition
  repeat' first
    | with_reducible assumption
    | with_reducible apply State.storeAll_keeps
    | with_reducible apply Keeps.foldl
    | with_reducible apply Keeps.foldl_fst
    | with_reducible apply Keeps.foldl_snd
    | (extract_lets +onlyGivenNames x; subst x; beta_reduce)
    | dsimp -zeta only
    | (intro _)
    | split
    | assumption
    | fail_if_no_progress refine Keeps.update ?_ rfl rfl rfl

theorem State.writePortControl_keeps {z : State} (s : State) (r : Reg) (mask v : Nat) (hs : Keeps false false z s) :
    Keeps false false z (State.writePortControl s r mask v) := by
  unfold State.writePortControl
  repeat' first
    | with_reducible assumption
    | with_reducible apply State.portEnable_keeps
    | with_reducible apply State.askRekey_keeps
    | with_reducible apply State.storeAll_keeps
    | (extract_lets +onlyGivenNames x;
       first | (refine Keeps.cut (t := x) ?_ (fun hx => ?_); subst x; rotate_left; clear_value x; rotate_right) | clear_value x)
    | dsimp -zeta only
    | (intro _)
    | split

theorem State.writeTimeControl_keeps {z : State} (s : State) (r : Reg) (mask v : Nat) (hs : Keeps false false z s) :
    Keeps false false z (State.writeTimeControl s r mask v) := by
  unfold State.writeTimeControl
  repeat' first
    | with_reducible assumption
    | with_reducible apply State.parentChange_keeps
    | with_reducible apply State.storeAll_keeps
    | (extract_lets +onlyGivenNames x;
       first | (refine Keeps.cut (t := x) ?_ (fun hx => ?_); subst x; rotate_left; clear_value x; rotate_right)
             | (refine Keeps.cut (t := x.1) ?_ (fun hx => ?_); subst x; rotate_left; clear_value x; rotate_right)
             | (refine Keeps.cut (t := x.2) ?_ (fun hx => ?_); subst x; rotate_left; clear_value x; rotate_right)
             | clear_value x)
    | dsimp -zeta only
    | (intro _)
    | split
    | assumption
    | fail_if_no_progress refine Keeps.change ?_ rfl rfl rfl rfl rfl rfl rfl rfl rfl
    | fail_if_no_progress refine Keeps.inPlane ?_ rfl rfl
    | (rename_i hq; split at hq <;> first | (cases hq) | skip)
    | (simp_all only; done)

theorem State.writeNode_keeps {z : State} (s : State) (r : Reg) (mask v : Nat) (hs : Keeps false false z s) :
    Keeps false false z (State.writeNode s r mask v) := by
  unfold State.writeNode
  repeat' first
    | with_reducible assumption
    | with_reducible apply State.nodeEffect_keeps
    | with_reducible apply State.storeAll_keeps

theorem State.writeExportRelease_keeps {z : State} (s : State) (r : Reg) (v : Nat) (hs : Keeps false false z s) :
    Keeps false false z (State.writeExportRelease s r v) := by
  unfold State.writeExportRelease
  repeat' first
    | with_reducible assumption
    | with_reducible apply State.wr_keeps
    | with_reducible apply State.updUpd_keeps
    | (extract_lets +onlyGivenNames x; clear_value x)
    | dsimp -zeta only
    | (intro _)
    | split

theorem State.writeForeignRelease_keeps {lp lq : Bool} {z : State} (s : State) (r : Reg) (v : Nat) (hs : Keeps lp lq z s) :
    Keeps lp lq z (State.writeForeignRelease s r v) := by
  unfold State.writeForeignRelease
  repeat' first
    | with_reducible assumption
    | with_reducible apply State.wr_keeps
    | dsimp -zeta only
    | (intro _)
    | split

theorem State.writeStepFlags_keeps {z : State} (s : State) (v : Nat) (hs : Keeps false false z s) :
    Keeps false false z (State.writeStepFlags s v) := by
  unfold State.writeStepFlags
  repeat' first
    | with_reducible assumption
    | with_reducible apply State.setSteps_keeps
    | dsimp -zeta only
    | (intro _)
    | split

theorem State.writeFaultRing_keeps {lp lq : Bool} {z : State} (s : State) (r : Reg) (mask v : Nat) (hs : Keeps lp lq z s) :
    Keeps lp lq z (State.writeFaultRing s r mask v) := by
  unfold State.writeFaultRing
  repeat' first
    | with_reducible assumption
    | with_reducible apply State.storeAll_keeps
    | (extract_lets +onlyGivenNames x;
       first | (refine Keeps.cut (t := x) ?_ (fun hx => ?_); subst x; rotate_left; clear_value x; rotate_right) | clear_value x)
    | dsimp -zeta only
    | (intro _)
    | split
    | assumption
    | fail_if_no_progress refine Keeps.update ?_ rfl rfl rfl

theorem State.writeLogRing_keeps {lp lq : Bool} {z : State} (s : State) (r : Reg) (mask v : Nat) (hs : Keeps lp lq z s) :
    Keeps lp lq z (State.writeLogRing s r mask v) := by
  unfold State.writeLogRing
  repeat' first
    | with_reducible assumption
    | with_reducible apply State.logPut_keeps
    | with_reducible apply State.storeAll_keeps
    | with_reducible apply Keeps.foldl
    | with_reducible apply Keeps.foldl_fst
    | with_reducible apply Keeps.foldl_snd
    | (extract_lets +onlyGivenNames x;
       first | (refine Keeps.cut (t := x) ?_ (fun hx => ?_); subst x; rotate_left; clear_value x; rotate_right) | clear_value x)
    | dsimp -zeta only
    | (intro _)
    | split
    | assumption
    | fail_if_no_progress refine Keeps.update ?_ rfl rfl rfl

theorem State.writeSnapshotControl_keeps {lp : Bool} {z : State} (s : State) (r : Reg) (mask v : Nat) (hs : Keeps lp false z s) :
    Keeps lp false z (State.writeSnapshotControl s r mask v) := by
  unfold State.writeSnapshotControl
  repeat' first
    | with_reducible assumption
    | with_reducible apply State.startSnapshot_keeps
    | with_reducible apply State.storeAll_keeps
    | (extract_lets +onlyGivenNames x;
       refine Keeps.cut (t := x) ?_ (fun hx => ?_); subst x; rotate_left; clear_value x; rotate_right)
    | dsimp -zeta only
    | (intro _)
    | split

theorem State.writeFreezeControl_keeps {lp lq : Bool} {z : State} (s : State) (r : Reg) (mask v : Nat) (hs : Keeps lp lq z s) :
    Keeps lp lq z (State.writeFreezeControl s r mask v) := by
  unfold State.writeFreezeControl
  repeat' first
    | with_reducible assumption
    | with_reducible apply State.freezeAtNextPip_keeps
    | with_reducible apply State.storeAll_keeps
    | (extract_lets +onlyGivenNames x;
       refine Keeps.cut (t := x) ?_ (fun hx => ?_); subst x; rotate_left; clear_value x; rotate_right)
    | dsimp -zeta only
    | (intro _)
    | split

theorem State.startService_keeps {z : State} (s : State) (code : Nat) (hs : Keeps false false z s) :
    Keeps false false z (State.startService s code) := by
  unfold State.startService
  repeat' first
    | with_reducible assumption
    | with_reducible apply State.endService_keeps
    | (extract_lets +onlyGivenNames x; subst x; beta_reduce)
    | dsimp -zeta only
    | (intro _)
    | split
    | assumption
    | fail_if_no_progress refine Keeps.change ?_ rfl rfl rfl rfl rfl rfl rfl rfl rfl

theorem State.writeSecCmd_keeps {z : State} (s : State) (r : Reg) (mask v : Nat) (hs : Keeps false false z s) :
    Keeps false false z (State.writeSecCmd s r mask v) := by
  unfold State.writeSecCmd
  repeat' first
    | with_reducible assumption
    | with_reducible apply State.storeAll_keeps
    | with_reducible apply State.startService_keeps
    | (extract_lets +onlyGivenNames x;
       refine Keeps.cut (t := x) ?_ (fun hx => ?_); subst x; rotate_left; clear_value x; rotate_right)
    | dsimp -zeta only
    | (intro _)
    | split

theorem State.writeSecPolicy_keeps {z : State} (s : State) (r : Reg) (mask v : Nat) (hs : Keeps false false z s) :
    Keeps false false z (State.writeSecPolicy s r mask v) := by
  unfold State.writeSecPolicy
  repeat' first
    | with_reducible assumption
    | with_reducible apply State.storeAll_keeps
    | (extract_lets +onlyGivenNames x;
       first | (refine Keeps.cut (t := x) ?_ (fun hx => ?_); subst x; rotate_left; clear_value x; rotate_right)
             | (subst x; beta_reduce))
    | dsimp -zeta only
    | (intro _)
    | split
    | assumption
    | fail_if_no_progress refine Keeps.change ?_ rfl rfl rfl rfl rfl rfl rfl rfl rfl

theorem State.fwGo_keeps {z : State} (s : State) (ok : Option Bool) (hs : Keeps false false z s) :
    Keeps false false z (State.fwGo s ok) := by
  unfold State.fwGo
  repeat' first
    | with_reducible assumption
    | with_reducible apply State.startFirmware_keeps
    | with_reducible apply State.setFld_keeps
    | with_reducible apply State.free_keeps
    | with_reducible refine State.free_keeps' ?_ (by assumption)
    | (extract_lets +onlyGivenNames x;
       first | (refine Keeps.cut (t := x) ?_ (fun hx => ?_); subst x; rotate_left; clear_value x; rotate_right)
             | (refine Keeps.cut (t := x.2) ?_ (fun hx => ?_); subst x; rotate_left; clear_value x; rotate_right)
             | (subst x; beta_reduce))
    | dsimp -zeta only
    | (intro _)
    | split
    | assumption
    | fail_if_no_progress refine Keeps.change ?_ rfl rfl rfl rfl rfl rfl rfl rfl rfl

theorem State.writeFwControl_keeps {z : State} (s : State) (r : Reg) (mask v : Nat) (ok : Option Bool) (hs : Keeps false false z s) :
    Keeps false false z (State.writeFwControl s r mask v ok) := by
  unfold State.writeFwControl
  repeat' first
    | with_reducible assumption
    | with_reducible apply State.storeAll_keeps
    | with_reducible apply State.fwGo_keeps
    | (extract_lets +onlyGivenNames x;
       refine Keeps.cut (t := x) ?_ (fun hx => ?_); subst x; rotate_left; clear_value x; rotate_right)
    | dsimp -zeta only
    | (intro _)
    | split

theorem State.writeResetControl_keeps {z : State} (s : State) (v : Nat) (hs : Keeps false false z s) :
    Keeps false false z (State.writeResetControl s v) := by
  unfold State.writeResetControl
  repeat' first
    | with_reducible assumption
    | with_reducible apply State.coldReset_keeps
    | with_reducible apply State.warmReset_keeps
    | dsimp -zeta only
    | (intro _)
    | split

theorem State.writeReg_keeps {z : State} (s : State) (r : Reg) (mask v : Nat) (ok : Option Bool) (hs : Keeps false false z s) :
    Keeps false false z (State.writeReg s r mask v ok) := by
  unfold State.writeReg
  repeat' first
    | with_reducible assumption
    | with_reducible apply State.ownerWrite_keeps
    | with_reducible apply State.updCtx_keeps
    | with_reducible apply State.timeSetTo_keeps
    | with_reducible apply State.clearQueueCounters_keeps
    | with_reducible apply State.storeAll_keeps
    | with_reducible apply State.writeCtxControl_keeps
    | with_reducible apply State.writeSqConfig_keeps
    | with_reducible apply State.writeCqConfig_keeps
    | with_reducible apply State.writeBase_keeps
    | with_reducible apply State.writeRepairCmd_keeps
    | with_reducible apply State.writePartition_keeps
    | with_reducible apply State.writePortControl_keeps
    | with_reducible apply State.writeTimeControl_keeps
    | with_reducible apply State.writeNode_keeps
    | with_reducible apply State.writeExportRelease_keeps
    | with_reducible apply State.writeForeignRelease_keeps
    | with_reducible apply State.writeStepFlags_keeps
    | with_reducible apply State.writeFaultRing_keeps
    | with_reducible apply State.writeLogRing_keeps
    | with_reducible apply State.writeSnapshotControl_keeps
    | with_reducible apply State.writeFreezeControl_keeps
    | with_reducible apply State.writeSecCmd_keeps
    | with_reducible apply State.writeSecPolicy_keeps
    | with_reducible apply State.writeFwControl_keeps
    | with_reducible apply State.writeResetControl_keeps
    | with_reducible apply State.zeroiseNow_keeps
    | with_reducible apply Keeps.foldl
    | with_reducible apply Keeps.foldl_fst
    | with_reducible apply Keeps.foldl_snd
    | (extract_lets +onlyGivenNames x; clear_value x)
    | dsimp -zeta only
    | (intro _)
    | split

theorem State.writeMsix_keeps {lp lq : Bool} {z : State} (s : State) (v k x : Nat) (hs : Keeps lp lq z s) :
    Keeps lp lq z (State.writeMsix s v k x) := by
  unfold State.writeMsix
  repeat' first
    | with_reducible assumption
    | with_reducible apply State.sendVector_keeps
    | with_reducible apply State.startHoldoff_keeps
    | (extract_lets +onlyGivenNames x;
       first | (refine Keeps.cut (t := x) ?_ (fun hx => ?_); subst x; rotate_left; clear_value x; rotate_right)
             | (refine Keeps.cut (t := x.1) ?_ (fun hx => ?_); subst x; rotate_left; clear_value x; rotate_right)
             | (refine Keeps.cut (t := x.2) ?_ (fun hx => ?_); subst x; rotate_left; clear_value x; rotate_right)
             | (subst x; beta_reduce))
    | dsimp -zeta only
    | (intro _)
    | split
    | assumption
    | fail_if_no_progress refine Keeps.update ?_ rfl rfl rfl
    | (rename_i hq; split at hq <;> first | (cases hq) | skip)
    | (simp_all only; done)

theorem State.write4_keeps {z : State} (s : State) (a v : Nat) (ok : Option Bool) (hs : Keeps false false z s) :
    Keeps false false z (State.write4 s a v ok) := by
  unfold State.write4
  repeat' first
    | with_reducible assumption
    | with_reducible apply State.writeReg_keeps
    | with_reducible apply State.writeMsix_keeps
    | (extract_lets +onlyGivenNames x; clear_value x)
    | dsimp -zeta only
    | (intro _)
    | split

theorem State.writeAt_keeps {z : State} (s : State) (a size v : Nat) (ok : Option Bool) (hs : Keeps false false z s) :
    Keeps false false z (State.writeAt s a size v ok) := by
  unfold State.writeAt
  repeat' first
    | with_reducible assumption
    | with_reducible apply State.writeReg_keeps
    | with_reducible apply State.write4_keeps
    | dsimp -zeta only
    | (intro _)
    | split

theorem State.barWrite_keeps {z : State} (s : State) (secure : Bool) (a size v : Nat) (ok : Option Bool) (hs : Keeps false false z s) :
    Keeps false false z (State.barWrite s secure a size v ok) := by
  unfold State.barWrite
  repeat' first
    | with_reducible assumption
    | with_reducible apply State.bump_keeps
    | with_reducible apply State.writeAt_keeps
    | dsimp -zeta only
    | (intro _)
    | split

theorem State.writeOf_keeps {z : State} (s : State) (secure : Bool) (r : Reg) (v : Nat) (hs : Keeps false false z s) :
    Keeps false false z (State.writeOf s secure r v) := by
  unfold State.writeOf
  repeat' first
    | with_reducible assumption
    | with_reducible apply State.barWrite_keeps
    | (extract_lets +onlyGivenNames x; clear_value x)
    | dsimp -zeta only
    | (intro _)
    | split

theorem State.repairRow_keeps {z : State} (s : State) (secure : Bool) (op die stack channel pseudo : Nat) (hs : Keeps false false z s) :
    Keeps false false z (State.repairRow s secure op die stack channel pseudo) := by
  unfold State.repairRow
  repeat' first
    | with_reducible assumption
    | with_reducible apply State.writeOf_keeps

end Sys2Proof.Machine
end

