-- ==== Sys2Proof/Laws/Regs.lean ====
section
/-!
SUPPORT. Laws/Regs.lean: every register of the map is found at its address, and what a write by the access of its own width
comes to.
-/
set_option Elab.async false
set_option linter.all false
namespace Sys2Proof.Machine

/-- The kind of block that `locate` answers for a register's own block. -/
def Block.kind (b : Block) : Block := if b = .die0 then .die else b

/-- Bytes of a block that registers can stand in. -/
def Block.span : Block → Nat
  | .die => 0x100000 | .die0 => 0x100000 | _ => 0x1000

theorem locate_base (b : Block) (u o : Nat) (hu : u < b.units) (ho : o < b.span) : locate (b.base u + o) = some (b.kind, u, o) := by
  generalize h : b.base u + o = a
  unfold locate dieStride
  cases b <;> simp only [Block.units] at hu <;> simp only [Block.span] at ho <;> simp only [Block.base, dieStride] at h
  · rw [if_pos (by omega), if_neg (by omega), if_neg (by omega), if_neg (by omega), if_neg (by omega)]
    have h1 : a / 0x400000 = u := by omega
    have h2 : a % 0x400000 = o := by omega
    rw [h1, h2]; rfl
  · rw [if_pos (by omega), if_neg (by omega), if_neg (by omega), if_neg (by omega), if_neg (by omega)]
    have h1 : a / 0x400000 = u := by omega
    have h2 : a % 0x400000 = o := by omega
    rw [h1, h2]; rfl
  · rw [if_pos (by omega), if_pos (by omega)]
    have h1 : a / 0x400000 * 104 + (a % 0x400000 - 0x100000) / 0x1000 = u := by omega
    have h2 : a % 0x400000 % 0x1000 = o := by omega
    rw [h1, h2]; rfl
  · rw [if_pos (by omega), if_neg (by omega), if_pos (by omega)]
    have h1 : a / 0x400000 * 5 + (a % 0x400000 - 0x200000) / 0x1000 = u := by omega
    have h2 : a % 0x400000 % 0x1000 = o := by omega
    rw [h1, h2]; rfl
  · rw [if_pos (by omega), if_neg (by omega), if_neg (by omega), if_pos (by omega)]
    have h1 : a / 0x400000 * 16 + (a % 0x400000 - 0x280000) / 0x1000 = u := by omega
    have h2 : a % 0x400000 % 0x1000 = o := by omega
    rw [h1, h2]; rfl
  · rw [if_neg (by omega), if_pos (by omega)]
    have h1 : (a - 0x2000000) / 0x1000 = u := by omega
    have h2 : a % 0x1000 = o := by omega
    rw [h1, h2]; rfl

/-- The row of the map and the place in it at offset `o` of a block; `first`: of unit 0. -/
def rowAt (b : Block) (first : Bool) (o : Nat) : Option (RegName × Nat) :=
  (allRegs.filter fun n => n.info.block = b || (n.info.block = .die0 && b = .die && first)).findSome? fun n =>
    let i := n.info
    if i.off ≤ o then
      let k := if i.stride = 0 then 0 else (o - i.off) / i.stride
      if k < i.count ∧ o < i.off + i.stride * k + i.bytes then some (n, k) else none
    else none

theorem findSome?_map {α β γ : Type} (l : List α) (f : α → Option β) (g : β → γ) :
    l.findSome? (fun a => (f a).map g) = (l.findSome? f).map g := by
  induction l with
  | nil => rfl
  | cons a l ih => cases h : f a <;> simp [h, ih]

theorem findSome?_filter {α β : Type} (l : List α) (p : α → Bool) (f : α → Option β) :
    (l.filter p).findSome? f = l.findSome? fun a => if p a then f a else none := by
  induction l with
  | nil => rfl
  | cons a l ih => cases h : p a <;> simp [List.findSome?_cons, h, ih]

theorem regAt_rowAt {a u o : Nat} {b : Block} (h : locate a = some (b, u, o)) :
    regAt a = (rowAt b (decide (u = 0)) o).map fun e => ⟨e.1, u, e.2⟩ := by
  unfold regAt rowAt
  rw [h, findSome?_filter, ← findSome?_map]
  dsimp only
  congr 1
  funext n
  unfold RegName.at? RegInfo.standsIn
  dsimp only
  generalize (if n.info.stride = 0 then 0 else (o - n.info.off) / n.info.stride) = k
  by_cases h1 : (decide (n.info.block = b) || decide (n.info.block = Block.die0) && decide (b = Block.die) && decide (u = 0)) = true
  · rw [if_pos h1]
    by_cases h2 : n.info.off ≤ o
    · rw [if_pos ⟨h1, h2⟩, if_pos h2]; split <;> rfl
    · rw [if_neg fun h => h2 h.2, if_neg h2]; rfl
  · rw [if_neg fun h => h1 h.1, if_neg h1]; rfl

/-- The places of a row, each found where it stands, and the row within its block. -/
def rowFound (n : RegName) : Bool :=
  let i := n.info
  (List.range i.count).all (fun k =>
    rowAt i.block.kind true (i.off + i.stride * k) == some (n, k)
      && (i.block == .die0 || rowAt i.block.kind false (i.off + i.stride * k) == some (n, k))
      && decide (i.off + i.stride * k < i.block.span))

theorem rows1 : allRegs1.all rowFound = true := by decide +kernel
theorem rows2 : allRegs2.all rowFound = true := by decide +kernel
theorem rows3 : allRegs3.all rowFound = true := by decide +kernel
theorem rows4 : allRegs4.all rowFound = true := by decide +kernel
theorem rows5 : allRegs5.all rowFound = true := by decide +kernel
theorem rows6 : allRegs6.all rowFound = true := by decide +kernel

theorem mem_allRegs (n : RegName) : n ∈ allRegs := by cases n <;> decide +kernel

theorem rowFound_all (n : RegName) : rowFound n = true := by
  have h := mem_allRegs n
  unfold allRegs at h
  simp only [List.mem_append] at h
  rcases h with ((((h | h) | h) | h) | h) | h
  · exact List.all_eq_true.1 rows1 n h
  · exact List.all_eq_true.1 rows2 n h
  · exact List.all_eq_true.1 rows3 n h
  · exact List.all_eq_true.1 rows4 n h
  · exact List.all_eq_true.1 rows5 n h
  · exact List.all_eq_true.1 rows6 n h

/-- Every register of the map stands at its address, and nothing else does (R19, R535–R537). -/
theorem regAt_addr (r : Reg) (h : r.inMap) : regAt r.addr = some r := by
  obtain ⟨n, u, k⟩ := r
  obtain ⟨hu, hk⟩ := h
  have hf := List.all_eq_true.1 (rowFound_all n) k (List.mem_range.2 hk)
  simp only [Bool.and_eq_true, decide_eq_true_eq, Bool.or_eq_true, beq_iff_eq] at hf
  obtain ⟨⟨h1, h2⟩, h3⟩ := hf
  have hl := locate_base n.info.block u (n.info.off + n.info.stride * k) hu h3
  have ha : Reg.addr ⟨n, u, k⟩ = n.info.block.base u + (n.info.off + n.info.stride * k) := by
    show n.info.block.base u + n.info.off + n.info.stride * k = _
    omega
  rw [ha, regAt_rowAt hl]
  by_cases hz : u = 0
  · rw [decide_eq_true hz, h1]; rfl
  · rw [decide_eq_false hz]
    rcases h2 with h2 | h2
    · rw [h2] at hu
      simp only [Block.units] at hu
      omega
    · rw [h2]; rfl

theorem Reg.addr_inj {r q : Reg} (hr : r.inMap) (hq : q.inMap) (h : r.addr = q.addr) : r = q := by
  have := regAt_addr r hr
  rw [h, regAt_addr q hq] at this
  exact (Option.some.inj this).symm

/-- Widths of 4 and 8 bytes, and alignment to the width of every place of a row. -/
def rowAligned (n : RegName) : Bool :=
  let i := n.info
  (i.bytes == 4 || i.bytes == 8) && i.off % i.bytes == 0 && (i.count == 1 || i.stride % i.bytes == 0)

theorem rowAligned_all (n : RegName) : rowAligned n = true := by
  have h : allRegs.all rowAligned = true := by decide +kernel
  exact List.all_eq_true.1 h n (mem_allRegs n)

theorem Reg.bytes_eq (r : Reg) : r.name.info.bytes = 4 ∨ r.name.info.bytes = 8 := by
  have h := rowAligned_all r.name
  simp only [rowAligned, Bool.and_eq_true, Bool.or_eq_true, beq_iff_eq] at h
  exact h.1.1

theorem Block.base_lt (b : Block) (u : Nat) (h : u < b.units) : b.base u + b.span ≤ 2 ^ 26 ∧ b.base u % 8 = 0 := by
  cases b <;> simp only [Block.units] at h <;> simp only [Block.base, Block.span, dieStride] <;> constructor <;> first | omega | decide

theorem mul_mod_zero {a b m : Nat} (h : a % m = 0) : a * b % m = 0 := by rw [Nat.mul_mod, h]; simp

theorem Reg.addr_aligned (r : Reg) (h : r.inMap) : r.addr < 2 ^ 26 ∧ r.addr % r.name.info.bytes = 0 := by
  obtain ⟨n, u, k⟩ := r
  obtain ⟨hu, hk⟩ := h
  have hf := List.all_eq_true.1 (rowFound_all n) k (List.mem_range.2 hk)
  simp only [Bool.and_eq_true, decide_eq_true_eq] at hf
  have h3 := hf.2
  have hb := Block.base_lt n.info.block u hu
  have ha := rowAligned_all n
  simp only [rowAligned, Bool.and_eq_true, Bool.or_eq_true, beq_iff_eq] at ha
  obtain ⟨⟨h4, h5⟩, h6⟩ := ha
  have hs : n.info.stride * k % n.info.bytes = 0 := by
    rcases h6 with h6 | h6
    · simp only at hk; rw [h6] at hk
      have : k = 0 := by omega
      rw [this]; simp
    · exact mul_mod_zero h6
  simp only [Reg.addr]
  refine ⟨by omega, ?_⟩
  rcases h4 with h4 | h4 <;> rw [h4] at h5 hs ⊢ <;> omega

/-- A write of a register by the access of its own width, by a request the part answers and does not refuse (R500, R538). -/
theorem State.writeOf_eq {s : State} {secure : Bool} {r : Reg} {v : Nat} (h : r.inMap) (ha : s.answers = true)
    (hr : s.refuses secure r.addr = false) (hv : v < 2 ^ (8 * r.name.info.bytes)) :
    s.writeOf secure r v = s.writeReg r (2 ^ (8 * r.name.info.bytes) - 1) v none := by
  obtain ⟨hlt, hal⟩ := r.addr_aligned h
  unfold State.writeOf State.barWrite
  dsimp only
  rw [if_pos (show r.unit < _ ∧ r.idx < _ from h), ha, hr, if_neg (by simp; omega), if_neg (by simp)]
  unfold State.writeAt
  rcases r.bytes_eq with hb | hb
  · rw [hb] at hal hv ⊢
    rw [if_neg (by omega), if_pos ⟨rfl, hal⟩]
    unfold State.write4
    rw [regAt_addr r h]
    dsimp only
    rw [if_neg (by omega), Nat.mod_eq_of_lt hv]
  · rw [hb] at hal hv ⊢
    rw [if_pos ⟨rfl, hal⟩, regAt_addr r h]
    simp only [Option.filter, hb, BEq.rfl, if_true]
    rw [Nat.mod_eq_of_lt hv]

end Sys2Proof.Machine
end

