-- ==== Sys2Proof/Laws/Slots.lean ====
section
/-!
SUPPORT. Laws/Slots.lean: a slot opens, under the key and FRAME_CTR it was sealed with, as the header and payload it carried.
-/
set_option Elab.async false
set_option linter.all false
namespace Sys2Proof.Machine

@[simp] theorem sliceB_length (bs : List Byte) (off n : Nat) : (sliceB bs off n).length = n := by
  simp only [sliceB, List.length_append, List.length_replicate, List.length_take, List.length_drop]
  omega

@[simp] theorem padTo_length (n : Nat) (bs : List Byte) : (padTo n bs).length = n := sliceB_length bs 0 n

/-- A slice that lies within its list is a piece of it. -/
theorem sliceB_inside {bs : List Byte} {off n : Nat} (h : off + n ≤ bs.length) : sliceB bs off n = (bs.drop off).take n := by
  have l : ((bs.drop off).take n).length = n := by simp; omega
  simp [sliceB, l]

theorem padTo_self {n : Nat} {bs : List Byte} (h : bs.length = n) : padTo n bs = bs := by
  rw [padTo, sliceB_inside (by omega)]
  simp [← h]

@[simp] theorem leBytes_length (n v : Nat) : (leBytes n v).length = n := by
  induction n generalizing v with
  | zero => rfl
  | succ n ih => simp [leBytes, ih]

theorem record_length (n : Nat) (fs : List (Nat × Nat × Nat)) (h : ∀ f ∈ fs, f.1 + f.2.1 ≤ n) : (record n fs).length = n := by
  have go : ∀ (fs : List (Nat × Nat × Nat)) (acc : List Byte), acc.length = n → (∀ f ∈ fs, f.1 + f.2.1 ≤ n) →
      (fs.foldl (fun acc f => acc.take f.1 ++ leBytes f.2.1 f.2.2 ++ acc.drop (f.1 + f.2.1)) acc).length = n := by
    intro fs
    induction fs with
    | nil => intro acc h _; exact h
    | cons f t ih =>
      intro acc ha hf
      have := hf f (by simp)
      refine ih _ ?_ (fun g hg => hf g (by simp [hg]))
      simp only [List.length_append, List.length_take, List.length_drop, leBytes_length]
      omega
  exact go fs (zeros n) (by simp [zeros]) h

theorem Slot.header_length (sl : Slot) (phase : Bool) : (sl.header phase).length = 16 := record_length _ _ (by simp)

theorem slotBody_length (k : Option LinkKey) (ctr n : Nat) (pl : List Byte) : (slotBody k ctr n pl).length = 512 := by
  cases k <;> simp [slotBody, cipher, upTo]

/-- The keystream deciphers what it enciphered. -/
theorem slotBody_slotBody (k : Option LinkKey) (ctr n : Nat) {pl : List Byte} (h : pl.length = 512) :
    slotBody k ctr n (slotBody k ctr n pl) = pl := by
  cases k with
  | none => rw [show slotBody none ctr n pl = padTo 512 pl from rfl, padTo_self h]; exact padTo_self h
  | some k =>
    have one (q : List Byte) (i : Nat) (hi : i < 512) :
        (cipher k ctr n q)[i]? = some (q.getD i 0 ^^^ Config.gcmStream k.key (slotIv k ctr n) i) := by
      simp only [cipher, upTo, List.getElem?_map, List.getElem?_range hi, Option.map_some]
    refine List.ext_getElem? fun i => ?_
    rcases Nat.lt_or_ge i 512 with hi | hi
    · have hp : pl[i]? = some pl[i] := List.getElem?_eq_getElem (by omega)
      rw [show slotBody (some k) ctr n (slotBody (some k) ctr n pl) = cipher k ctr n (cipher k ctr n pl) from rfl, one _ i hi,
        List.getD_eq_getElem?_getD, one _ i hi, List.getD_eq_getElem?_getD, hp]
      simp [BitVec.xor_assoc]
    · rw [List.getElem?_eq_none (by rw [slotBody_length]; exact hi), List.getElem?_eq_none (by omega)]

/-- What seals under a key and FRAME_CTR opens under them (R328). -/
theorem openBytes_sealBytes (k : Option LinkKey) (phase : Bool) (ctr n : Nat) (sl : Slot) (h : sl.payload.length = 512) :
    openBytes k ctr n (sealBytes k phase ctr n sl) = some (sl.header phase, sl.payload) := by
  have lh := sl.header_length phase
  have lb := slotBody_length k ctr n sl.payload
  have lt : (slotTag k ctr n (sl.header phase) (slotBody k ctr n sl.payload)).length = 16 := padTo_length _ _
  have eh : sliceB (sealBytes k phase ctr n sl) 0 16 = sl.header phase := by
    rw [sliceB_inside (by simp [sealBytes, lh, lb, lt])]
    simp [sealBytes, List.take_append_of_le_length (Nat.le_of_eq lh.symm), List.take_of_length_le (Nat.le_of_eq lh)]
  have eb : sliceB (sealBytes k phase ctr n sl) 16 512 = slotBody k ctr n sl.payload := by
    rw [sliceB_inside (by simp [sealBytes, lh, lb, lt])]
    simp [sealBytes, List.drop_append, lh, lb, List.drop_of_length_le, List.take_append_of_le_length]
  have et : sliceB (sealBytes k phase ctr n sl) 528 16 = slotTag k ctr n (sl.header phase) (slotBody k ctr n sl.payload) := by
    rw [sliceB_inside (by simp [sealBytes, lh, lb, lt])]
    simp [sealBytes, List.drop_append, lh, lb, lt, List.drop_of_length_le, List.take_of_length_le]
  simp [openBytes, eh, eb, et, slotBody_slotBody k ctr n h]

end Sys2Proof.Machine
end

