-- ==== Sys2Proof/Laws/State.lean ====
section
/-!
SUPPORT. Laws/State.lean: what each update of one part of the state leaves as it was.
-/
set_option Elab.async false
set_option linter.all false
namespace Sys2Proof.Machine

@[simp] theorem State.wr_pending (s : State) (r : Reg) (v : Nat) : (s.wr r v).pending = s.pending := rfl
@[simp] theorem State.wr_time (s : State) (r : Reg) (v : Nat) : (s.wr r v).time = s.time := rfl
@[simp] theorem State.wr_boot (s : State) (r : Reg) (v : Nat) : (s.wr r v).boot = s.boot := rfl
@[simp] theorem State.wr_power (s : State) (r : Reg) (v : Nat) : (s.wr r v).power = s.power := rfl
@[simp] theorem State.wr_pcie (s : State) (r : Reg) (v : Nat) : (s.wr r v).pcie = s.pcie := rfl
@[simp] theorem State.wr_ctxs (s : State) (r : Reg) (v : Nat) : (s.wr r v).ctxs = s.ctxs := rfl
@[simp] theorem State.wr_dies (s : State) (r : Reg) (v : Nat) : (s.wr r v).dies = s.dies := rfl
@[simp] theorem State.wr_cells (s : State) (r : Reg) (v : Nat) : (s.wr r v).cells = s.cells := rfl
@[simp] theorem State.wr_groups (s : State) (r : Reg) (v : Nat) : (s.wr r v).groups = s.groups := rfl
@[simp] theorem State.wr_mem (s : State) (r : Reg) (v : Nat) : (s.wr r v).mem = s.mem := rfl
@[simp] theorem State.wr_cmds (s : State) (r : Reg) (v : Nat) : (s.wr r v).cmds = s.cmds := rfl
@[simp] theorem State.wr_held (s : State) (r : Reg) (v : Nat) : (s.wr r v).held = s.held := rfl
@[simp] theorem State.wr_msgs (s : State) (r : Reg) (v : Nat) : (s.wr r v).msgs = s.msgs := rfl
@[simp] theorem State.wr_faults (s : State) (r : Reg) (v : Nat) : (s.wr r v).faults = s.faults := rfl
@[simp] theorem State.wr_log (s : State) (r : Reg) (v : Nat) : (s.wr r v).log = s.log := rfl
@[simp] theorem State.wr_freeze (s : State) (r : Reg) (v : Nat) : (s.wr r v).freeze = s.freeze := rfl
@[simp] theorem State.wr_snap (s : State) (r : Reg) (v : Nat) : (s.wr r v).snap = s.snap := rfl
@[simp] theorem State.wr_twatches (s : State) (r : Reg) (v : Nat) : (s.wr r v).twatches = s.twatches := rfl
@[simp] theorem State.wr_gradStep (s : State) (r : Reg) (v : Nat) : (s.wr r v).gradStep = s.gradStep := rfl
@[simp] theorem State.wr_fabric (s : State) (r : Reg) (v : Nat) : (s.wr r v).fabric = s.fabric := rfl
@[simp] theorem State.wr_upd (s : State) (r : Reg) (v : Nat) : (s.wr r v).upd = s.upd := rfl
@[simp] theorem State.wr_step (s : State) (r : Reg) (v : Nat) : (s.wr r v).step = s.step := rfl
@[simp] theorem State.wr_sec (s : State) (r : Reg) (v : Nat) : (s.wr r v).sec = s.sec := rfl
@[simp] theorem State.wr_freeCount (s : State) (r : Reg) (v : Nat) : (s.wr r v).freeCount = s.freeCount := rfl

@[simp] theorem State.setFld_pending (s : State) (r : Reg) (hi lo x : Nat) : (s.setFld r hi lo x).pending = s.pending := rfl
@[simp] theorem State.setFld_time (s : State) (r : Reg) (hi lo x : Nat) : (s.setFld r hi lo x).time = s.time := rfl
@[simp] theorem State.setFld_boot (s : State) (r : Reg) (hi lo x : Nat) : (s.setFld r hi lo x).boot = s.boot := rfl
@[simp] theorem State.setFld_power (s : State) (r : Reg) (hi lo x : Nat) : (s.setFld r hi lo x).power = s.power := rfl
@[simp] theorem State.setFld_pcie (s : State) (r : Reg) (hi lo x : Nat) : (s.setFld r hi lo x).pcie = s.pcie := rfl
@[simp] theorem State.setFld_ctxs (s : State) (r : Reg) (hi lo x : Nat) : (s.setFld r hi lo x).ctxs = s.ctxs := rfl
@[simp] theorem State.setFld_dies (s : State) (r : Reg) (hi lo x : Nat) : (s.setFld r hi lo x).dies = s.dies := rfl
@[simp] theorem State.setFld_cells (s : State) (r : Reg) (hi lo x : Nat) : (s.setFld r hi lo x).cells = s.cells := rfl
@[simp] theorem State.setFld_groups (s : State) (r : Reg) (hi lo x : Nat) : (s.setFld r hi lo x).groups = s.groups := rfl
@[simp] theorem State.setFld_mem (s : State) (r : Reg) (hi lo x : Nat) : (s.setFld r hi lo x).mem = s.mem := rfl
@[simp] theorem State.setFld_cmds (s : State) (r : Reg) (hi lo x : Nat) : (s.setFld r hi lo x).cmds = s.cmds := rfl
@[simp] theorem State.setFld_held (s : State) (r : Reg) (hi lo x : Nat) : (s.setFld r hi lo x).held = s.held := rfl
@[simp] theorem State.setFld_msgs (s : State) (r : Reg) (hi lo x : Nat) : (s.setFld r hi lo x).msgs = s.msgs := rfl
@[simp] theorem State.setFld_faults (s : State) (r : Reg) (hi lo x : Nat) : (s.setFld r hi lo x).faults = s.faults := rfl
@[simp] theorem State.setFld_log (s : State) (r : Reg) (hi lo x : Nat) : (s.setFld r hi lo x).log = s.log := rfl
@[simp] theorem State.setFld_freeze (s : State) (r : Reg) (hi lo x : Nat) : (s.setFld r hi lo x).freeze = s.freeze := rfl
@[simp] theorem State.setFld_snap (s : State) (r : Reg) (hi lo x : Nat) : (s.setFld r hi lo x).snap = s.snap := rfl
@[simp] theorem State.setFld_twatches (s : State) (r : Reg) (hi lo x : Nat) : (s.setFld r hi lo x).twatches = s.twatches := rfl
@[simp] theorem State.setFld_gradStep (s : State) (r : Reg) (hi lo x : Nat) : (s.setFld r hi lo x).gradStep = s.gradStep := rfl
@[simp] theorem State.setFld_fabric (s : State) (r : Reg) (hi lo x : Nat) : (s.setFld r hi lo x).fabric = s.fabric := rfl
@[simp] theorem State.setFld_upd (s : State) (r : Reg) (hi lo x : Nat) : (s.setFld r hi lo x).upd = s.upd := rfl
@[simp] theorem State.setFld_step (s : State) (r : Reg) (hi lo x : Nat) : (s.setFld r hi lo x).step = s.step := rfl
@[simp] theorem State.setFld_sec (s : State) (r : Reg) (hi lo x : Nat) : (s.setFld r hi lo x).sec = s.sec := rfl
@[simp] theorem State.setFld_freeCount (s : State) (r : Reg) (hi lo x : Nat) : (s.setFld r hi lo x).freeCount = s.freeCount := rfl

@[simp] theorem State.bump_pending (s : State) (r : Reg) (n : Nat) : (s.bump r n).pending = s.pending := rfl
@[simp] theorem State.bump_time (s : State) (r : Reg) (n : Nat) : (s.bump r n).time = s.time := rfl
@[simp] theorem State.bump_boot (s : State) (r : Reg) (n : Nat) : (s.bump r n).boot = s.boot := rfl
@[simp] theorem State.bump_power (s : State) (r : Reg) (n : Nat) : (s.bump r n).power = s.power := rfl
@[simp] theorem State.bump_pcie (s : State) (r : Reg) (n : Nat) : (s.bump r n).pcie = s.pcie := rfl
@[simp] theorem State.bump_ctxs (s : State) (r : Reg) (n : Nat) : (s.bump r n).ctxs = s.ctxs := rfl
@[simp] theorem State.bump_dies (s : State) (r : Reg) (n : Nat) : (s.bump r n).dies = s.dies := rfl
@[simp] theorem State.bump_cells (s : State) (r : Reg) (n : Nat) : (s.bump r n).cells = s.cells := rfl
@[simp] theorem State.bump_groups (s : State) (r : Reg) (n : Nat) : (s.bump r n).groups = s.groups := rfl
@[simp] theorem State.bump_mem (s : State) (r : Reg) (n : Nat) : (s.bump r n).mem = s.mem := rfl
@[simp] theorem State.bump_cmds (s : State) (r : Reg) (n : Nat) : (s.bump r n).cmds = s.cmds := rfl
@[simp] theorem State.bump_held (s : State) (r : Reg) (n : Nat) : (s.bump r n).held = s.held := rfl
@[simp] theorem State.bump_msgs (s : State) (r : Reg) (n : Nat) : (s.bump r n).msgs = s.msgs := rfl
@[simp] theorem State.bump_faults (s : State) (r : Reg) (n : Nat) : (s.bump r n).faults = s.faults := rfl
@[simp] theorem State.bump_log (s : State) (r : Reg) (n : Nat) : (s.bump r n).log = s.log := rfl
@[simp] theorem State.bump_freeze (s : State) (r : Reg) (n : Nat) : (s.bump r n).freeze = s.freeze := rfl
@[simp] theorem State.bump_snap (s : State) (r : Reg) (n : Nat) : (s.bump r n).snap = s.snap := rfl
@[simp] theorem State.bump_twatches (s : State) (r : Reg) (n : Nat) : (s.bump r n).twatches = s.twatches := rfl
@[simp] theorem State.bump_gradStep (s : State) (r : Reg) (n : Nat) : (s.bump r n).gradStep = s.gradStep := rfl
@[simp] theorem State.bump_fabric (s : State) (r : Reg) (n : Nat) : (s.bump r n).fabric = s.fabric := rfl
@[simp] theorem State.bump_upd (s : State) (r : Reg) (n : Nat) : (s.bump r n).upd = s.upd := rfl
@[simp] theorem State.bump_step (s : State) (r : Reg) (n : Nat) : (s.bump r n).step = s.step := rfl
@[simp] theorem State.bump_sec (s : State) (r : Reg) (n : Nat) : (s.bump r n).sec = s.sec := rfl
@[simp] theorem State.bump_freeCount (s : State) (r : Reg) (n : Nat) : (s.bump r n).freeCount = s.freeCount := rfl

@[simp] theorem State.updCtx_pending (s : State) (c : Nat) (f : Ctx → Ctx) : (s.updCtx c f).pending = s.pending := rfl
@[simp] theorem State.updCtx_regs (s : State) (c : Nat) (f : Ctx → Ctx) : (s.updCtx c f).regs = s.regs := rfl
@[simp] theorem State.updCtx_time (s : State) (c : Nat) (f : Ctx → Ctx) : (s.updCtx c f).time = s.time := rfl
@[simp] theorem State.updCtx_boot (s : State) (c : Nat) (f : Ctx → Ctx) : (s.updCtx c f).boot = s.boot := rfl
@[simp] theorem State.updCtx_power (s : State) (c : Nat) (f : Ctx → Ctx) : (s.updCtx c f).power = s.power := rfl
@[simp] theorem State.updCtx_pcie (s : State) (c : Nat) (f : Ctx → Ctx) : (s.updCtx c f).pcie = s.pcie := rfl
@[simp] theorem State.updCtx_dies (s : State) (c : Nat) (f : Ctx → Ctx) : (s.updCtx c f).dies = s.dies := rfl
@[simp] theorem State.updCtx_cells (s : State) (c : Nat) (f : Ctx → Ctx) : (s.updCtx c f).cells = s.cells := rfl
@[simp] theorem State.updCtx_groups (s : State) (c : Nat) (f : Ctx → Ctx) : (s.updCtx c f).groups = s.groups := rfl
@[simp] theorem State.updCtx_mem (s : State) (c : Nat) (f : Ctx → Ctx) : (s.updCtx c f).mem = s.mem := rfl
@[simp] theorem State.updCtx_cmds (s : State) (c : Nat) (f : Ctx → Ctx) : (s.updCtx c f).cmds = s.cmds := rfl
@[simp] theorem State.updCtx_held (s : State) (c : Nat) (f : Ctx → Ctx) : (s.updCtx c f).held = s.held := rfl
@[simp] theorem State.updCtx_msgs (s : State) (c : Nat) (f : Ctx → Ctx) : (s.updCtx c f).msgs = s.msgs := rfl
@[simp] theorem State.updCtx_faults (s : State) (c : Nat) (f : Ctx → Ctx) : (s.updCtx c f).faults = s.faults := rfl
@[simp] theorem State.updCtx_log (s : State) (c : Nat) (f : Ctx → Ctx) : (s.updCtx c f).log = s.log := rfl
@[simp] theorem State.updCtx_freeze (s : State) (c : Nat) (f : Ctx → Ctx) : (s.updCtx c f).freeze = s.freeze := rfl
@[simp] theorem State.updCtx_snap (s : State) (c : Nat) (f : Ctx → Ctx) : (s.updCtx c f).snap = s.snap := rfl
@[simp] theorem State.updCtx_twatches (s : State) (c : Nat) (f : Ctx → Ctx) : (s.updCtx c f).twatches = s.twatches := rfl
@[simp] theorem State.updCtx_gradStep (s : State) (c : Nat) (f : Ctx → Ctx) : (s.updCtx c f).gradStep = s.gradStep := rfl
@[simp] theorem State.updCtx_fabric (s : State) (c : Nat) (f : Ctx → Ctx) : (s.updCtx c f).fabric = s.fabric := rfl
@[simp] theorem State.updCtx_upd (s : State) (c : Nat) (f : Ctx → Ctx) : (s.updCtx c f).upd = s.upd := rfl
@[simp] theorem State.updCtx_step (s : State) (c : Nat) (f : Ctx → Ctx) : (s.updCtx c f).step = s.step := rfl
@[simp] theorem State.updCtx_sec (s : State) (c : Nat) (f : Ctx → Ctx) : (s.updCtx c f).sec = s.sec := rfl
@[simp] theorem State.updCtx_freeCount (s : State) (c : Nat) (f : Ctx → Ctx) : (s.updCtx c f).freeCount = s.freeCount := rfl

@[simp] theorem State.updQueue_pending (s : State) (c q : Nat) (f : QueueSt → QueueSt) : (s.updQueue c q f).pending = s.pending := rfl
@[simp] theorem State.updQueue_regs (s : State) (c q : Nat) (f : QueueSt → QueueSt) : (s.updQueue c q f).regs = s.regs := rfl
@[simp] theorem State.updQueue_time (s : State) (c q : Nat) (f : QueueSt → QueueSt) : (s.updQueue c q f).time = s.time := rfl
@[simp] theorem State.updQueue_boot (s : State) (c q : Nat) (f : QueueSt → QueueSt) : (s.updQueue c q f).boot = s.boot := rfl
@[simp] theorem State.updQueue_power (s : State) (c q : Nat) (f : QueueSt → QueueSt) : (s.updQueue c q f).power = s.power := rfl
@[simp] theorem State.updQueue_pcie (s : State) (c q : Nat) (f : QueueSt → QueueSt) : (s.updQueue c q f).pcie = s.pcie := rfl
@[simp] theorem State.updQueue_dies (s : State) (c q : Nat) (f : QueueSt → QueueSt) : (s.updQueue c q f).dies = s.dies := rfl
@[simp] theorem State.updQueue_cells (s : State) (c q : Nat) (f : QueueSt → QueueSt) : (s.updQueue c q f).cells = s.cells := rfl
@[simp] theorem State.updQueue_groups (s : State) (c q : Nat) (f : QueueSt → QueueSt) : (s.updQueue c q f).groups = s.groups := rfl
@[simp] theorem State.updQueue_mem (s : State) (c q : Nat) (f : QueueSt → QueueSt) : (s.updQueue c q f).mem = s.mem := rfl
@[simp] theorem State.updQueue_cmds (s : State) (c q : Nat) (f : QueueSt → QueueSt) : (s.updQueue c q f).cmds = s.cmds := rfl
@[simp] theorem State.updQueue_held (s : State) (c q : Nat) (f : QueueSt → QueueSt) : (s.updQueue c q f).held = s.held := rfl
@[simp] theorem State.updQueue_msgs (s : State) (c q : Nat) (f : QueueSt → QueueSt) : (s.updQueue c q f).msgs = s.msgs := rfl
@[simp] theorem State.updQueue_faults (s : State) (c q : Nat) (f : QueueSt → QueueSt) : (s.updQueue c q f).faults = s.faults := rfl
@[simp] theorem State.updQueue_log (s : State) (c q : Nat) (f : QueueSt → QueueSt) : (s.updQueue c q f).log = s.log := rfl
@[simp] theorem State.updQueue_freeze (s : State) (c q : Nat) (f : QueueSt → QueueSt) : (s.updQueue c q f).freeze = s.freeze := rfl
@[simp] theorem State.updQueue_snap (s : State) (c q : Nat) (f : QueueSt → QueueSt) : (s.updQueue c q f).snap = s.snap := rfl
@[simp] theorem State.updQueue_twatches (s : State) (c q : Nat) (f : QueueSt → QueueSt) : (s.updQueue c q f).twatches = s.twatches := rfl
@[simp] theorem State.updQueue_gradStep (s : State) (c q : Nat) (f : QueueSt → QueueSt) : (s.updQueue c q f).gradStep = s.gradStep := rfl
@[simp] theorem State.updQueue_fabric (s : State) (c q : Nat) (f : QueueSt → QueueSt) : (s.updQueue c q f).fabric = s.fabric := rfl
@[simp] theorem State.updQueue_upd (s : State) (c q : Nat) (f : QueueSt → QueueSt) : (s.updQueue c q f).upd = s.upd := rfl
@[simp] theorem State.updQueue_step (s : State) (c q : Nat) (f : QueueSt → QueueSt) : (s.updQueue c q f).step = s.step := rfl
@[simp] theorem State.updQueue_sec (s : State) (c q : Nat) (f : QueueSt → QueueSt) : (s.updQueue c q f).sec = s.sec := rfl
@[simp] theorem State.updQueue_freeCount (s : State) (c q : Nat) (f : QueueSt → QueueSt) : (s.updQueue c q f).freeCount = s.freeCount := rfl

@[simp] theorem State.updCq_pending (s : State) (c r : Nat) (f : CqSt → CqSt) : (s.updCq c r f).pending = s.pending := rfl
@[simp] theorem State.updCq_regs (s : State) (c r : Nat) (f : CqSt → CqSt) : (s.updCq c r f).regs = s.regs := rfl
@[simp] theorem State.updCq_time (s : State) (c r : Nat) (f : CqSt → CqSt) : (s.updCq c r f).time = s.time := rfl
@[simp] theorem State.updCq_boot (s : State) (c r : Nat) (f : CqSt → CqSt) : (s.updCq c r f).boot = s.boot := rfl
@[simp] theorem State.updCq_power (s : State) (c r : Nat) (f : CqSt → CqSt) : (s.updCq c r f).power = s.power := rfl
@[simp] theorem State.updCq_pcie (s : State) (c r : Nat) (f : CqSt → CqSt) : (s.updCq c r f).pcie = s.pcie := rfl
@[simp] theorem State.updCq_dies (s : State) (c r : Nat) (f : CqSt → CqSt) : (s.updCq c r f).dies = s.dies := rfl
@[simp] theorem State.updCq_cells (s : State) (c r : Nat) (f : CqSt → CqSt) : (s.updCq c r f).cells = s.cells := rfl
@[simp] theorem State.updCq_groups (s : State) (c r : Nat) (f : CqSt → CqSt) : (s.updCq c r f).groups = s.groups := rfl
@[simp] theorem State.updCq_mem (s : State) (c r : Nat) (f : CqSt → CqSt) : (s.updCq c r f).mem = s.mem := rfl
@[simp] theorem State.updCq_cmds (s : State) (c r : Nat) (f : CqSt → CqSt) : (s.updCq c r f).cmds = s.cmds := rfl
@[simp] theorem State.updCq_held (s : State) (c r : Nat) (f : CqSt → CqSt) : (s.updCq c r f).held = s.held := rfl
@[simp] theorem State.updCq_msgs (s : State) (c r : Nat) (f : CqSt → CqSt) : (s.updCq c r f).msgs = s.msgs := rfl
@[simp] theorem State.updCq_faults (s : State) (c r : Nat) (f : CqSt → CqSt) : (s.updCq c r f).faults = s.faults := rfl
@[simp] theorem State.updCq_log (s : State) (c r : Nat) (f : CqSt → CqSt) : (s.updCq c r f).log = s.log := rfl
@[simp] theorem State.updCq_freeze (s : State) (c r : Nat) (f : CqSt → CqSt) : (s.updCq c r f).freeze = s.freeze := rfl
@[simp] theorem State.updCq_snap (s : State) (c r : Nat) (f : CqSt → CqSt) : (s.updCq c r f).snap = s.snap := rfl
@[simp] theorem State.updCq_twatches (s : State) (c r : Nat) (f : CqSt → CqSt) : (s.updCq c r f).twatches = s.twatches := rfl
@[simp] theorem State.updCq_gradStep (s : State) (c r : Nat) (f : CqSt → CqSt) : (s.updCq c r f).gradStep = s.gradStep := rfl
@[simp] theorem State.updCq_fabric (s : State) (c r : Nat) (f : CqSt → CqSt) : (s.updCq c r f).fabric = s.fabric := rfl
@[simp] theorem State.updCq_upd (s : State) (c r : Nat) (f : CqSt → CqSt) : (s.updCq c r f).upd = s.upd := rfl
@[simp] theorem State.updCq_step (s : State) (c r : Nat) (f : CqSt → CqSt) : (s.updCq c r f).step = s.step := rfl
@[simp] theorem State.updCq_sec (s : State) (c r : Nat) (f : CqSt → CqSt) : (s.updCq c r f).sec = s.sec := rfl
@[simp] theorem State.updCq_freeCount (s : State) (c r : Nat) (f : CqSt → CqSt) : (s.updCq c r f).freeCount = s.freeCount := rfl

@[simp] theorem State.updSlot_pending (s : State) (c i : Nat) (f : DescSlot → DescSlot) : (s.updSlot c i f).pending = s.pending := rfl
@[simp] theorem State.updSlot_regs (s : State) (c i : Nat) (f : DescSlot → DescSlot) : (s.updSlot c i f).regs = s.regs := rfl
@[simp] theorem State.updSlot_time (s : State) (c i : Nat) (f : DescSlot → DescSlot) : (s.updSlot c i f).time = s.time := rfl
@[simp] theorem State.updSlot_boot (s : State) (c i : Nat) (f : DescSlot → DescSlot) : (s.updSlot c i f).boot = s.boot := rfl
@[simp] theorem State.updSlot_power (s : State) (c i : Nat) (f : DescSlot → DescSlot) : (s.updSlot c i f).power = s.power := rfl
@[simp] theorem State.updSlot_pcie (s : State) (c i : Nat) (f : DescSlot → DescSlot) : (s.updSlot c i f).pcie = s.pcie := rfl
@[simp] theorem State.updSlot_dies (s : State) (c i : Nat) (f : DescSlot → DescSlot) : (s.updSlot c i f).dies = s.dies := rfl
@[simp] theorem State.updSlot_cells (s : State) (c i : Nat) (f : DescSlot → DescSlot) : (s.updSlot c i f).cells = s.cells := rfl
@[simp] theorem State.updSlot_groups (s : State) (c i : Nat) (f : DescSlot → DescSlot) : (s.updSlot c i f).groups = s.groups := rfl
@[simp] theorem State.updSlot_mem (s : State) (c i : Nat) (f : DescSlot → DescSlot) : (s.updSlot c i f).mem = s.mem := rfl
@[simp] theorem State.updSlot_cmds (s : State) (c i : Nat) (f : DescSlot → DescSlot) : (s.updSlot c i f).cmds = s.cmds := rfl
@[simp] theorem State.updSlot_held (s : State) (c i : Nat) (f : DescSlot → DescSlot) : (s.updSlot c i f).held = s.held := rfl
@[simp] theorem State.updSlot_msgs (s : State) (c i : Nat) (f : DescSlot → DescSlot) : (s.updSlot c i f).msgs = s.msgs := rfl
@[simp] theorem State.updSlot_faults (s : State) (c i : Nat) (f : DescSlot → DescSlot) : (s.updSlot c i f).faults = s.faults := rfl
@[simp] theorem State.updSlot_log (s : State) (c i : Nat) (f : DescSlot → DescSlot) : (s.updSlot c i f).log = s.log := rfl
@[simp] theorem State.updSlot_freeze (s : State) (c i : Nat) (f : DescSlot → DescSlot) : (s.updSlot c i f).freeze = s.freeze := rfl
@[simp] theorem State.updSlot_snap (s : State) (c i : Nat) (f : DescSlot → DescSlot) : (s.updSlot c i f).snap = s.snap := rfl
@[simp] theorem State.updSlot_twatches (s : State) (c i : Nat) (f : DescSlot → DescSlot) : (s.updSlot c i f).twatches = s.twatches := rfl
@[simp] theorem State.updSlot_gradStep (s : State) (c i : Nat) (f : DescSlot → DescSlot) : (s.updSlot c i f).gradStep = s.gradStep := rfl
@[simp] theorem State.updSlot_fabric (s : State) (c i : Nat) (f : DescSlot → DescSlot) : (s.updSlot c i f).fabric = s.fabric := rfl
@[simp] theorem State.updSlot_upd (s : State) (c i : Nat) (f : DescSlot → DescSlot) : (s.updSlot c i f).upd = s.upd := rfl
@[simp] theorem State.updSlot_step (s : State) (c i : Nat) (f : DescSlot → DescSlot) : (s.updSlot c i f).step = s.step := rfl
@[simp] theorem State.updSlot_sec (s : State) (c i : Nat) (f : DescSlot → DescSlot) : (s.updSlot c i f).sec = s.sec := rfl
@[simp] theorem State.updSlot_freeCount (s : State) (c i : Nat) (f : DescSlot → DescSlot) : (s.updSlot c i f).freeCount = s.freeCount := rfl

@[simp] theorem State.updDie_pending (s : State) (d : Nat) (f : Die → Die) : (s.updDie d f).pending = s.pending := rfl
@[simp] theorem State.updDie_regs (s : State) (d : Nat) (f : Die → Die) : (s.updDie d f).regs = s.regs := rfl
@[simp] theorem State.updDie_time (s : State) (d : Nat) (f : Die → Die) : (s.updDie d f).time = s.time := rfl
@[simp] theorem State.updDie_boot (s : State) (d : Nat) (f : Die → Die) : (s.updDie d f).boot = s.boot := rfl
@[simp] theorem State.updDie_power (s : State) (d : Nat) (f : Die → Die) : (s.updDie d f).power = s.power := rfl
@[simp] theorem State.updDie_pcie (s : State) (d : Nat) (f : Die → Die) : (s.updDie d f).pcie = s.pcie := rfl
@[simp] theorem State.updDie_ctxs (s : State) (d : Nat) (f : Die → Die) : (s.updDie d f).ctxs = s.ctxs := rfl
@[simp] theorem State.updDie_cells (s : State) (d : Nat) (f : Die → Die) : (s.updDie d f).cells = s.cells := rfl
@[simp] theorem State.updDie_groups (s : State) (d : Nat) (f : Die → Die) : (s.updDie d f).groups = s.groups := rfl
@[simp] theorem State.updDie_mem (s : State) (d : Nat) (f : Die → Die) : (s.updDie d f).mem = s.mem := rfl
@[simp] theorem State.updDie_cmds (s : State) (d : Nat) (f : Die → Die) : (s.updDie d f).cmds = s.cmds := rfl
@[simp] theorem State.updDie_held (s : State) (d : Nat) (f : Die → Die) : (s.updDie d f).held = s.held := rfl
@[simp] theorem State.updDie_msgs (s : State) (d : Nat) (f : Die → Die) : (s.updDie d f).msgs = s.msgs := rfl
@[simp] theorem State.updDie_faults (s : State) (d : Nat) (f : Die → Die) : (s.updDie d f).faults = s.faults := rfl
@[simp] theorem State.updDie_log (s : State) (d : Nat) (f : Die → Die) : (s.updDie d f).log = s.log := rfl
@[simp] theorem State.updDie_freeze (s : State) (d : Nat) (f : Die → Die) : (s.updDie d f).freeze = s.freeze := rfl
@[simp] theorem State.updDie_snap (s : State) (d : Nat) (f : Die → Die) : (s.updDie d f).snap = s.snap := rfl
@[simp] theorem State.updDie_twatches (s : State) (d : Nat) (f : Die → Die) : (s.updDie d f).twatches = s.twatches := rfl
@[simp] theorem State.updDie_gradStep (s : State) (d : Nat) (f : Die → Die) : (s.updDie d f).gradStep = s.gradStep := rfl
@[simp] theorem State.updDie_fabric (s : State) (d : Nat) (f : Die → Die) : (s.updDie d f).fabric = s.fabric := rfl
@[simp] theorem State.updDie_upd (s : State) (d : Nat) (f : Die → Die) : (s.updDie d f).upd = s.upd := rfl
@[simp] theorem State.updDie_step (s : State) (d : Nat) (f : Die → Die) : (s.updDie d f).step = s.step := rfl
@[simp] theorem State.updDie_sec (s : State) (d : Nat) (f : Die → Die) : (s.updDie d f).sec = s.sec := rfl
@[simp] theorem State.updDie_freeCount (s : State) (d : Nat) (f : Die → Die) : (s.updDie d f).freeCount = s.freeCount := rfl

@[simp] theorem State.updLslot_pending (s : State) (l : Nat) (f : LSlot → LSlot) : (s.updLslot l f).pending = s.pending := rfl
@[simp] theorem State.updLslot_regs (s : State) (l : Nat) (f : LSlot → LSlot) : (s.updLslot l f).regs = s.regs := rfl
@[simp] theorem State.updLslot_time (s : State) (l : Nat) (f : LSlot → LSlot) : (s.updLslot l f).time = s.time := rfl
@[simp] theorem State.updLslot_boot (s : State) (l : Nat) (f : LSlot → LSlot) : (s.updLslot l f).boot = s.boot := rfl
@[simp] theorem State.updLslot_power (s : State) (l : Nat) (f : LSlot → LSlot) : (s.updLslot l f).power = s.power := rfl
@[simp] theorem State.updLslot_pcie (s : State) (l : Nat) (f : LSlot → LSlot) : (s.updLslot l f).pcie = s.pcie := rfl
@[simp] theorem State.updLslot_ctxs (s : State) (l : Nat) (f : LSlot → LSlot) : (s.updLslot l f).ctxs = s.ctxs := rfl
@[simp] theorem State.updLslot_cells (s : State) (l : Nat) (f : LSlot → LSlot) : (s.updLslot l f).cells = s.cells := rfl
@[simp] theorem State.updLslot_groups (s : State) (l : Nat) (f : LSlot → LSlot) : (s.updLslot l f).groups = s.groups := rfl
@[simp] theorem State.updLslot_mem (s : State) (l : Nat) (f : LSlot → LSlot) : (s.updLslot l f).mem = s.mem := rfl
@[simp] theorem State.updLslot_cmds (s : State) (l : Nat) (f : LSlot → LSlot) : (s.updLslot l f).cmds = s.cmds := rfl
@[simp] theorem State.updLslot_held (s : State) (l : Nat) (f : LSlot → LSlot) : (s.updLslot l f).held = s.held := rfl
@[simp] theorem State.updLslot_msgs (s : State) (l : Nat) (f : LSlot → LSlot) : (s.updLslot l f).msgs = s.msgs := rfl
@[simp] theorem State.updLslot_faults (s : State) (l : Nat) (f : LSlot → LSlot) : (s.updLslot l f).faults = s.faults := rfl
@[simp] theorem State.updLslot_log (s : State) (l : Nat) (f : LSlot → LSlot) : (s.updLslot l f).log = s.log := rfl
@[simp] theorem State.updLslot_freeze (s : State) (l : Nat) (f : LSlot → LSlot) : (s.updLslot l f).freeze = s.freeze := rfl
@[simp] theorem State.updLslot_snap (s : State) (l : Nat) (f : LSlot → LSlot) : (s.updLslot l f).snap = s.snap := rfl
@[simp] theorem State.updLslot_twatches (s : State) (l : Nat) (f : LSlot → LSlot) : (s.updLslot l f).twatches = s.twatches := rfl
@[simp] theorem State.updLslot_gradStep (s : State) (l : Nat) (f : LSlot → LSlot) : (s.updLslot l f).gradStep = s.gradStep := rfl
@[simp] theorem State.updLslot_fabric (s : State) (l : Nat) (f : LSlot → LSlot) : (s.updLslot l f).fabric = s.fabric := rfl
@[simp] theorem State.updLslot_upd (s : State) (l : Nat) (f : LSlot → LSlot) : (s.updLslot l f).upd = s.upd := rfl
@[simp] theorem State.updLslot_step (s : State) (l : Nat) (f : LSlot → LSlot) : (s.updLslot l f).step = s.step := rfl
@[simp] theorem State.updLslot_sec (s : State) (l : Nat) (f : LSlot → LSlot) : (s.updLslot l f).sec = s.sec := rfl
@[simp] theorem State.updLslot_freeCount (s : State) (l : Nat) (f : LSlot → LSlot) : (s.updLslot l f).freeCount = s.freeCount := rfl

@[simp] theorem State.updCell_pending (s : State) (c : Nat) (f : Cell → Cell) : (s.updCell c f).pending = s.pending := rfl
@[simp] theorem State.updCell_regs (s : State) (c : Nat) (f : Cell → Cell) : (s.updCell c f).regs = s.regs := rfl
@[simp] theorem State.updCell_time (s : State) (c : Nat) (f : Cell → Cell) : (s.updCell c f).time = s.time := rfl
@[simp] theorem State.updCell_boot (s : State) (c : Nat) (f : Cell → Cell) : (s.updCell c f).boot = s.boot := rfl
@[simp] theorem State.updCell_power (s : State) (c : Nat) (f : Cell → Cell) : (s.updCell c f).power = s.power := rfl
@[simp] theorem State.updCell_pcie (s : State) (c : Nat) (f : Cell → Cell) : (s.updCell c f).pcie = s.pcie := rfl
@[simp] theorem State.updCell_ctxs (s : State) (c : Nat) (f : Cell → Cell) : (s.updCell c f).ctxs = s.ctxs := rfl
@[simp] theorem State.updCell_dies (s : State) (c : Nat) (f : Cell → Cell) : (s.updCell c f).dies = s.dies := rfl
@[simp] theorem State.updCell_groups (s : State) (c : Nat) (f : Cell → Cell) : (s.updCell c f).groups = s.groups := rfl
@[simp] theorem State.updCell_mem (s : State) (c : Nat) (f : Cell → Cell) : (s.updCell c f).mem = s.mem := rfl
@[simp] theorem State.updCell_cmds (s : State) (c : Nat) (f : Cell → Cell) : (s.updCell c f).cmds = s.cmds := rfl
@[simp] theorem State.updCell_held (s : State) (c : Nat) (f : Cell → Cell) : (s.updCell c f).held = s.held := rfl
@[simp] theorem State.updCell_msgs (s : State) (c : Nat) (f : Cell → Cell) : (s.updCell c f).msgs = s.msgs := rfl
@[simp] theorem State.updCell_faults (s : State) (c : Nat) (f : Cell → Cell) : (s.updCell c f).faults = s.faults := rfl
@[simp] theorem State.updCell_log (s : State) (c : Nat) (f : Cell → Cell) : (s.updCell c f).log = s.log := rfl
@[simp] theorem State.updCell_freeze (s : State) (c : Nat) (f : Cell → Cell) : (s.updCell c f).freeze = s.freeze := rfl
@[simp] theorem State.updCell_snap (s : State) (c : Nat) (f : Cell → Cell) : (s.updCell c f).snap = s.snap := rfl
@[simp] theorem State.updCell_twatches (s : State) (c : Nat) (f : Cell → Cell) : (s.updCell c f).twatches = s.twatches := rfl
@[simp] theorem State.updCell_gradStep (s : State) (c : Nat) (f : Cell → Cell) : (s.updCell c f).gradStep = s.gradStep := rfl
@[simp] theorem State.updCell_fabric (s : State) (c : Nat) (f : Cell → Cell) : (s.updCell c f).fabric = s.fabric := rfl
@[simp] theorem State.updCell_upd (s : State) (c : Nat) (f : Cell → Cell) : (s.updCell c f).upd = s.upd := rfl
@[simp] theorem State.updCell_step (s : State) (c : Nat) (f : Cell → Cell) : (s.updCell c f).step = s.step := rfl
@[simp] theorem State.updCell_sec (s : State) (c : Nat) (f : Cell → Cell) : (s.updCell c f).sec = s.sec := rfl
@[simp] theorem State.updCell_freeCount (s : State) (c : Nat) (f : Cell → Cell) : (s.updCell c f).freeCount = s.freeCount := rfl

@[simp] theorem State.updCmd_pending (s : State) (i : CmdId) (f : Cmd → Cmd) : (s.updCmd i f).pending = s.pending := rfl
@[simp] theorem State.updCmd_regs (s : State) (i : CmdId) (f : Cmd → Cmd) : (s.updCmd i f).regs = s.regs := rfl
@[simp] theorem State.updCmd_time (s : State) (i : CmdId) (f : Cmd → Cmd) : (s.updCmd i f).time = s.time := rfl
@[simp] theorem State.updCmd_boot (s : State) (i : CmdId) (f : Cmd → Cmd) : (s.updCmd i f).boot = s.boot := rfl
@[simp] theorem State.updCmd_power (s : State) (i : CmdId) (f : Cmd → Cmd) : (s.updCmd i f).power = s.power := rfl
@[simp] theorem State.updCmd_pcie (s : State) (i : CmdId) (f : Cmd → Cmd) : (s.updCmd i f).pcie = s.pcie := rfl
@[simp] theorem State.updCmd_ctxs (s : State) (i : CmdId) (f : Cmd → Cmd) : (s.updCmd i f).ctxs = s.ctxs := rfl
@[simp] theorem State.updCmd_dies (s : State) (i : CmdId) (f : Cmd → Cmd) : (s.updCmd i f).dies = s.dies := rfl
@[simp] theorem State.updCmd_cells (s : State) (i : CmdId) (f : Cmd → Cmd) : (s.updCmd i f).cells = s.cells := rfl
@[simp] theorem State.updCmd_groups (s : State) (i : CmdId) (f : Cmd → Cmd) : (s.updCmd i f).groups = s.groups := rfl
@[simp] theorem State.updCmd_mem (s : State) (i : CmdId) (f : Cmd → Cmd) : (s.updCmd i f).mem = s.mem := rfl
@[simp] theorem State.updCmd_held (s : State) (i : CmdId) (f : Cmd → Cmd) : (s.updCmd i f).held = s.held := rfl
@[simp] theorem State.updCmd_msgs (s : State) (i : CmdId) (f : Cmd → Cmd) : (s.updCmd i f).msgs = s.msgs := rfl
@[simp] theorem State.updCmd_faults (s : State) (i : CmdId) (f : Cmd → Cmd) : (s.updCmd i f).faults = s.faults := rfl
@[simp] theorem State.updCmd_log (s : State) (i : CmdId) (f : Cmd → Cmd) : (s.updCmd i f).log = s.log := rfl
@[simp] theorem State.updCmd_freeze (s : State) (i : CmdId) (f : Cmd → Cmd) : (s.updCmd i f).freeze = s.freeze := rfl
@[simp] theorem State.updCmd_snap (s : State) (i : CmdId) (f : Cmd → Cmd) : (s.updCmd i f).snap = s.snap := rfl
@[simp] theorem State.updCmd_twatches (s : State) (i : CmdId) (f : Cmd → Cmd) : (s.updCmd i f).twatches = s.twatches := rfl
@[simp] theorem State.updCmd_gradStep (s : State) (i : CmdId) (f : Cmd → Cmd) : (s.updCmd i f).gradStep = s.gradStep := rfl
@[simp] theorem State.updCmd_fabric (s : State) (i : CmdId) (f : Cmd → Cmd) : (s.updCmd i f).fabric = s.fabric := rfl
@[simp] theorem State.updCmd_upd (s : State) (i : CmdId) (f : Cmd → Cmd) : (s.updCmd i f).upd = s.upd := rfl
@[simp] theorem State.updCmd_step (s : State) (i : CmdId) (f : Cmd → Cmd) : (s.updCmd i f).step = s.step := rfl
@[simp] theorem State.updCmd_sec (s : State) (i : CmdId) (f : Cmd → Cmd) : (s.updCmd i f).sec = s.sec := rfl
@[simp] theorem State.updCmd_freeCount (s : State) (i : CmdId) (f : Cmd → Cmd) : (s.updCmd i f).freeCount = s.freeCount := rfl

@[simp] theorem State.finish_pending (s : State) (i : CmdId) (e : Ending) : (s.finish i e).pending = s.pending := rfl
@[simp] theorem State.finish_regs (s : State) (i : CmdId) (e : Ending) : (s.finish i e).regs = s.regs := rfl
@[simp] theorem State.finish_time (s : State) (i : CmdId) (e : Ending) : (s.finish i e).time = s.time := rfl
@[simp] theorem State.finish_boot (s : State) (i : CmdId) (e : Ending) : (s.finish i e).boot = s.boot := rfl
@[simp] theorem State.finish_power (s : State) (i : CmdId) (e : Ending) : (s.finish i e).power = s.power := rfl
@[simp] theorem State.finish_pcie (s : State) (i : CmdId) (e : Ending) : (s.finish i e).pcie = s.pcie := rfl
@[simp] theorem State.finish_ctxs (s : State) (i : CmdId) (e : Ending) : (s.finish i e).ctxs = s.ctxs := rfl
@[simp] theorem State.finish_dies (s : State) (i : CmdId) (e : Ending) : (s.finish i e).dies = s.dies := rfl
@[simp] theorem State.finish_cells (s : State) (i : CmdId) (e : Ending) : (s.finish i e).cells = s.cells := rfl
@[simp] theorem State.finish_groups (s : State) (i : CmdId) (e : Ending) : (s.finish i e).groups = s.groups := rfl
@[simp] theorem State.finish_mem (s : State) (i : CmdId) (e : Ending) : (s.finish i e).mem = s.mem := rfl
@[simp] theorem State.finish_held (s : State) (i : CmdId) (e : Ending) : (s.finish i e).held = s.held := rfl
@[simp] theorem State.finish_msgs (s : State) (i : CmdId) (e : Ending) : (s.finish i e).msgs = s.msgs := rfl
@[simp] theorem State.finish_faults (s : State) (i : CmdId) (e : Ending) : (s.finish i e).faults = s.faults := rfl
@[simp] theorem State.finish_log (s : State) (i : CmdId) (e : Ending) : (s.finish i e).log = s.log := rfl
@[simp] theorem State.finish_freeze (s : State) (i : CmdId) (e : Ending) : (s.finish i e).freeze = s.freeze := rfl
@[simp] theorem State.finish_snap (s : State) (i : CmdId) (e : Ending) : (s.finish i e).snap = s.snap := rfl
@[simp] theorem State.finish_twatches (s : State) (i : CmdId) (e : Ending) : (s.finish i e).twatches = s.twatches := rfl
@[simp] theorem State.finish_gradStep (s : State) (i : CmdId) (e : Ending) : (s.finish i e).gradStep = s.gradStep := rfl
@[simp] theorem State.finish_fabric (s : State) (i : CmdId) (e : Ending) : (s.finish i e).fabric = s.fabric := rfl
@[simp] theorem State.finish_upd (s : State) (i : CmdId) (e : Ending) : (s.finish i e).upd = s.upd := rfl
@[simp] theorem State.finish_step (s : State) (i : CmdId) (e : Ending) : (s.finish i e).step = s.step := rfl
@[simp] theorem State.finish_sec (s : State) (i : CmdId) (e : Ending) : (s.finish i e).sec = s.sec := rfl
@[simp] theorem State.finish_freeCount (s : State) (i : CmdId) (e : Ending) : (s.finish i e).freeCount = s.freeCount := rfl

@[simp] theorem State.finishOk_pending (s : State) (i : CmdId) : (s.finishOk i).pending = s.pending := rfl
@[simp] theorem State.finishOk_regs (s : State) (i : CmdId) : (s.finishOk i).regs = s.regs := rfl
@[simp] theorem State.finishOk_time (s : State) (i : CmdId) : (s.finishOk i).time = s.time := rfl
@[simp] theorem State.finishOk_boot (s : State) (i : CmdId) : (s.finishOk i).boot = s.boot := rfl
@[simp] theorem State.finishOk_power (s : State) (i : CmdId) : (s.finishOk i).power = s.power := rfl
@[simp] theorem State.finishOk_pcie (s : State) (i : CmdId) : (s.finishOk i).pcie = s.pcie := rfl
@[simp] theorem State.finishOk_ctxs (s : State) (i : CmdId) : (s.finishOk i).ctxs = s.ctxs := rfl
@[simp] theorem State.finishOk_dies (s : State) (i : CmdId) : (s.finishOk i).dies = s.dies := rfl
@[simp] theorem State.finishOk_cells (s : State) (i : CmdId) : (s.finishOk i).cells = s.cells := rfl
@[simp] theorem State.finishOk_groups (s : State) (i : CmdId) : (s.finishOk i).groups = s.groups := rfl
@[simp] theorem State.finishOk_mem (s : State) (i : CmdId) : (s.finishOk i).mem = s.mem := rfl
@[simp] theorem State.finishOk_held (s : State) (i : CmdId) : (s.finishOk i).held = s.held := rfl
@[simp] theorem State.finishOk_msgs (s : State) (i : CmdId) : (s.finishOk i).msgs = s.msgs := rfl
@[simp] theorem State.finishOk_faults (s : State) (i : CmdId) : (s.finishOk i).faults = s.faults := rfl
@[simp] theorem State.finishOk_log (s : State) (i : CmdId) : (s.finishOk i).log = s.log := rfl
@[simp] theorem State.finishOk_freeze (s : State) (i : CmdId) : (s.finishOk i).freeze = s.freeze := rfl
@[simp] theorem State.finishOk_snap (s : State) (i : CmdId) : (s.finishOk i).snap = s.snap := rfl
@[simp] theorem State.finishOk_twatches (s : State) (i : CmdId) : (s.finishOk i).twatches = s.twatches := rfl
@[simp] theorem State.finishOk_gradStep (s : State) (i : CmdId) : (s.finishOk i).gradStep = s.gradStep := rfl
@[simp] theorem State.finishOk_fabric (s : State) (i : CmdId) : (s.finishOk i).fabric = s.fabric := rfl
@[simp] theorem State.finishOk_upd (s : State) (i : CmdId) : (s.finishOk i).upd = s.upd := rfl
@[simp] theorem State.finishOk_step (s : State) (i : CmdId) : (s.finishOk i).step = s.step := rfl
@[simp] theorem State.finishOk_sec (s : State) (i : CmdId) : (s.finishOk i).sec = s.sec := rfl
@[simp] theorem State.finishOk_freeCount (s : State) (i : CmdId) : (s.finishOk i).freeCount = s.freeCount := rfl

@[simp] theorem State.hostWrite_pending (s : State) (a : Nat) (bs : List Byte) : (s.hostWrite a bs).pending = s.pending := rfl
@[simp] theorem State.hostWrite_regs (s : State) (a : Nat) (bs : List Byte) : (s.hostWrite a bs).regs = s.regs := rfl
@[simp] theorem State.hostWrite_time (s : State) (a : Nat) (bs : List Byte) : (s.hostWrite a bs).time = s.time := rfl
@[simp] theorem State.hostWrite_boot (s : State) (a : Nat) (bs : List Byte) : (s.hostWrite a bs).boot = s.boot := rfl
@[simp] theorem State.hostWrite_power (s : State) (a : Nat) (bs : List Byte) : (s.hostWrite a bs).power = s.power := rfl
@[simp] theorem State.hostWrite_pcie (s : State) (a : Nat) (bs : List Byte) : (s.hostWrite a bs).pcie = s.pcie := rfl
@[simp] theorem State.hostWrite_ctxs (s : State) (a : Nat) (bs : List Byte) : (s.hostWrite a bs).ctxs = s.ctxs := rfl
@[simp] theorem State.hostWrite_dies (s : State) (a : Nat) (bs : List Byte) : (s.hostWrite a bs).dies = s.dies := rfl
@[simp] theorem State.hostWrite_cells (s : State) (a : Nat) (bs : List Byte) : (s.hostWrite a bs).cells = s.cells := rfl
@[simp] theorem State.hostWrite_groups (s : State) (a : Nat) (bs : List Byte) : (s.hostWrite a bs).groups = s.groups := rfl
@[simp] theorem State.hostWrite_cmds (s : State) (a : Nat) (bs : List Byte) : (s.hostWrite a bs).cmds = s.cmds := rfl
@[simp] theorem State.hostWrite_held (s : State) (a : Nat) (bs : List Byte) : (s.hostWrite a bs).held = s.held := rfl
@[simp] theorem State.hostWrite_msgs (s : State) (a : Nat) (bs : List Byte) : (s.hostWrite a bs).msgs = s.msgs := rfl
@[simp] theorem State.hostWrite_faults (s : State) (a : Nat) (bs : List Byte) : (s.hostWrite a bs).faults = s.faults := rfl
@[simp] theorem State.hostWrite_log (s : State) (a : Nat) (bs : List Byte) : (s.hostWrite a bs).log = s.log := rfl
@[simp] theorem State.hostWrite_freeze (s : State) (a : Nat) (bs : List Byte) : (s.hostWrite a bs).freeze = s.freeze := rfl
@[simp] theorem State.hostWrite_snap (s : State) (a : Nat) (bs : List Byte) : (s.hostWrite a bs).snap = s.snap := rfl
@[simp] theorem State.hostWrite_twatches (s : State) (a : Nat) (bs : List Byte) : (s.hostWrite a bs).twatches = s.twatches := rfl
@[simp] theorem State.hostWrite_gradStep (s : State) (a : Nat) (bs : List Byte) : (s.hostWrite a bs).gradStep = s.gradStep := rfl
@[simp] theorem State.hostWrite_fabric (s : State) (a : Nat) (bs : List Byte) : (s.hostWrite a bs).fabric = s.fabric := rfl
@[simp] theorem State.hostWrite_upd (s : State) (a : Nat) (bs : List Byte) : (s.hostWrite a bs).upd = s.upd := rfl
@[simp] theorem State.hostWrite_step (s : State) (a : Nat) (bs : List Byte) : (s.hostWrite a bs).step = s.step := rfl
@[simp] theorem State.hostWrite_sec (s : State) (a : Nat) (bs : List Byte) : (s.hostWrite a bs).sec = s.sec := rfl
@[simp] theorem State.hostWrite_freeCount (s : State) (a : Nat) (bs : List Byte) : (s.hostWrite a bs).freeCount = s.freeCount := rfl
@[simp] theorem State.hostWrite_mem_cells (s : State) (a : Nat) (bs : List Byte) : (s.hostWrite a bs).mem.cells = s.mem.cells := rfl
@[simp] theorem State.hostWrite_mem_seals (s : State) (a : Nat) (bs : List Byte) : (s.hostWrite a bs).mem.seals = s.mem.seals := rfl
@[simp] theorem State.hostWrite_mem_poison (s : State) (a : Nat) (bs : List Byte) : (s.hostWrite a bs).mem.poison = s.mem.poison := rfl
@[simp] theorem State.hostWrite_mem_retired (s : State) (a : Nat) (bs : List Byte) : (s.hostWrite a bs).mem.retired = s.mem.retired := rfl
@[simp] theorem State.hostWrite_mem_layout (s : State) (a : Nat) (bs : List Byte) : (s.hostWrite a bs).mem.layout = s.mem.layout := rfl
@[simp] theorem State.hostWrite_mem_keySlots (s : State) (a : Nat) (bs : List Byte) : (s.hostWrite a bs).mem.keySlots = s.mem.keySlots := rfl
@[simp] theorem State.hostWrite_mem_packageKey (s : State) (a : Nat) (bs : List Byte) : (s.hostWrite a bs).mem.packageKey = s.mem.packageKey := rfl
@[simp] theorem State.hostWrite_mem_nextKey (s : State) (a : Nat) (bs : List Byte) : (s.hostWrite a bs).mem.nextKey = s.mem.nextKey := rfl
@[simp] theorem State.hostWrite_mem_tokens (s : State) (a : Nat) (bs : List Byte) : (s.hostWrite a bs).mem.tokens = s.mem.tokens := rfl
@[simp] theorem State.hostWrite_mem_repaired (s : State) (a : Nat) (bs : List Byte) : (s.hostWrite a bs).mem.repaired = s.mem.repaired := rfl
@[simp] theorem State.hostWrite_mem_repairing (s : State) (a : Nat) (bs : List Byte) : (s.hostWrite a bs).mem.repairing = s.mem.repairing := rfl

@[simp] theorem State.setCells_pending (s : State) (k : Nat) (bs : List Byte) : (s.setCells k bs).pending = s.pending := rfl
@[simp] theorem State.setCells_regs (s : State) (k : Nat) (bs : List Byte) : (s.setCells k bs).regs = s.regs := rfl
@[simp] theorem State.setCells_time (s : State) (k : Nat) (bs : List Byte) : (s.setCells k bs).time = s.time := rfl
@[simp] theorem State.setCells_boot (s : State) (k : Nat) (bs : List Byte) : (s.setCells k bs).boot = s.boot := rfl
@[simp] theorem State.setCells_power (s : State) (k : Nat) (bs : List Byte) : (s.setCells k bs).power = s.power := rfl
@[simp] theorem State.setCells_pcie (s : State) (k : Nat) (bs : List Byte) : (s.setCells k bs).pcie = s.pcie := rfl
@[simp] theorem State.setCells_ctxs (s : State) (k : Nat) (bs : List Byte) : (s.setCells k bs).ctxs = s.ctxs := rfl
@[simp] theorem State.setCells_dies (s : State) (k : Nat) (bs : List Byte) : (s.setCells k bs).dies = s.dies := rfl
@[simp] theorem State.setCells_cells (s : State) (k : Nat) (bs : List Byte) : (s.setCells k bs).cells = s.cells := rfl
@[simp] theorem State.setCells_groups (s : State) (k : Nat) (bs : List Byte) : (s.setCells k bs).groups = s.groups := rfl
@[simp] theorem State.setCells_cmds (s : State) (k : Nat) (bs : List Byte) : (s.setCells k bs).cmds = s.cmds := rfl
@[simp] theorem State.setCells_held (s : State) (k : Nat) (bs : List Byte) : (s.setCells k bs).held = s.held := rfl
@[simp] theorem State.setCells_msgs (s : State) (k : Nat) (bs : List Byte) : (s.setCells k bs).msgs = s.msgs := rfl
@[simp] theorem State.setCells_faults (s : State) (k : Nat) (bs : List Byte) : (s.setCells k bs).faults = s.faults := rfl
@[simp] theorem State.setCells_log (s : State) (k : Nat) (bs : List Byte) : (s.setCells k bs).log = s.log := rfl
@[simp] theorem State.setCells_freeze (s : State) (k : Nat) (bs : List Byte) : (s.setCells k bs).freeze = s.freeze := rfl
@[simp] theorem State.setCells_snap (s : State) (k : Nat) (bs : List Byte) : (s.setCells k bs).snap = s.snap := rfl
@[simp] theorem State.setCells_twatches (s : State) (k : Nat) (bs : List Byte) : (s.setCells k bs).twatches = s.twatches := rfl
@[simp] theorem State.setCells_gradStep (s : State) (k : Nat) (bs : List Byte) : (s.setCells k bs).gradStep = s.gradStep := rfl
@[simp] theorem State.setCells_fabric (s : State) (k : Nat) (bs : List Byte) : (s.setCells k bs).fabric = s.fabric := rfl
@[simp] theorem State.setCells_upd (s : State) (k : Nat) (bs : List Byte) : (s.setCells k bs).upd = s.upd := rfl
@[simp] theorem State.setCells_step (s : State) (k : Nat) (bs : List Byte) : (s.setCells k bs).step = s.step := rfl
@[simp] theorem State.setCells_sec (s : State) (k : Nat) (bs : List Byte) : (s.setCells k bs).sec = s.sec := rfl
@[simp] theorem State.setCells_freeCount (s : State) (k : Nat) (bs : List Byte) : (s.setCells k bs).freeCount = s.freeCount := rfl
@[simp] theorem State.setCells_mem_host (s : State) (k : Nat) (bs : List Byte) : (s.setCells k bs).mem.host = s.mem.host := rfl
@[simp] theorem State.setCells_mem_seals (s : State) (k : Nat) (bs : List Byte) : (s.setCells k bs).mem.seals = s.mem.seals := rfl
@[simp] theorem State.setCells_mem_poison (s : State) (k : Nat) (bs : List Byte) : (s.setCells k bs).mem.poison = s.mem.poison := rfl
@[simp] theorem State.setCells_mem_retired (s : State) (k : Nat) (bs : List Byte) : (s.setCells k bs).mem.retired = s.mem.retired := rfl
@[simp] theorem State.setCells_mem_layout (s : State) (k : Nat) (bs : List Byte) : (s.setCells k bs).mem.layout = s.mem.layout := rfl
@[simp] theorem State.setCells_mem_keySlots (s : State) (k : Nat) (bs : List Byte) : (s.setCells k bs).mem.keySlots = s.mem.keySlots := rfl
@[simp] theorem State.setCells_mem_packageKey (s : State) (k : Nat) (bs : List Byte) : (s.setCells k bs).mem.packageKey = s.mem.packageKey := rfl
@[simp] theorem State.setCells_mem_nextKey (s : State) (k : Nat) (bs : List Byte) : (s.setCells k bs).mem.nextKey = s.mem.nextKey := rfl
@[simp] theorem State.setCells_mem_tokens (s : State) (k : Nat) (bs : List Byte) : (s.setCells k bs).mem.tokens = s.mem.tokens := rfl
@[simp] theorem State.setCells_mem_repaired (s : State) (k : Nat) (bs : List Byte) : (s.setCells k bs).mem.repaired = s.mem.repaired := rfl
@[simp] theorem State.setCells_mem_repairing (s : State) (k : Nat) (bs : List Byte) : (s.setCells k bs).mem.repairing = s.mem.repairing := rfl

@[simp] theorem State.setSeal_pending (s : State) (b : Nat) (sl : Seal) : (s.setSeal b sl).pending = s.pending := rfl
@[simp] theorem State.setSeal_regs (s : State) (b : Nat) (sl : Seal) : (s.setSeal b sl).regs = s.regs := rfl
@[simp] theorem State.setSeal_time (s : State) (b : Nat) (sl : Seal) : (s.setSeal b sl).time = s.time := rfl
@[simp] theorem State.setSeal_boot (s : State) (b : Nat) (sl : Seal) : (s.setSeal b sl).boot = s.boot := rfl
@[simp] theorem State.setSeal_power (s : State) (b : Nat) (sl : Seal) : (s.setSeal b sl).power = s.power := rfl
@[simp] theorem State.setSeal_pcie (s : State) (b : Nat) (sl : Seal) : (s.setSeal b sl).pcie = s.pcie := rfl
@[simp] theorem State.setSeal_ctxs (s : State) (b : Nat) (sl : Seal) : (s.setSeal b sl).ctxs = s.ctxs := rfl
@[simp] theorem State.setSeal_dies (s : State) (b : Nat) (sl : Seal) : (s.setSeal b sl).dies = s.dies := rfl
@[simp] theorem State.setSeal_cells (s : State) (b : Nat) (sl : Seal) : (s.setSeal b sl).cells = s.cells := rfl
@[simp] theorem State.setSeal_groups (s : State) (b : Nat) (sl : Seal) : (s.setSeal b sl).groups = s.groups := rfl
@[simp] theorem State.setSeal_cmds (s : State) (b : Nat) (sl : Seal) : (s.setSeal b sl).cmds = s.cmds := rfl
@[simp] theorem State.setSeal_held (s : State) (b : Nat) (sl : Seal) : (s.setSeal b sl).held = s.held := rfl
@[simp] theorem State.setSeal_msgs (s : State) (b : Nat) (sl : Seal) : (s.setSeal b sl).msgs = s.msgs := rfl
@[simp] theorem State.setSeal_faults (s : State) (b : Nat) (sl : Seal) : (s.setSeal b sl).faults = s.faults := rfl
@[simp] theorem State.setSeal_log (s : State) (b : Nat) (sl : Seal) : (s.setSeal b sl).log = s.log := rfl
@[simp] theorem State.setSeal_freeze (s : State) (b : Nat) (sl : Seal) : (s.setSeal b sl).freeze = s.freeze := rfl
@[simp] theorem State.setSeal_snap (s : State) (b : Nat) (sl : Seal) : (s.setSeal b sl).snap = s.snap := rfl
@[simp] theorem State.setSeal_twatches (s : State) (b : Nat) (sl : Seal) : (s.setSeal b sl).twatches = s.twatches := rfl
@[simp] theorem State.setSeal_gradStep (s : State) (b : Nat) (sl : Seal) : (s.setSeal b sl).gradStep = s.gradStep := rfl
@[simp] theorem State.setSeal_fabric (s : State) (b : Nat) (sl : Seal) : (s.setSeal b sl).fabric = s.fabric := rfl
@[simp] theorem State.setSeal_upd (s : State) (b : Nat) (sl : Seal) : (s.setSeal b sl).upd = s.upd := rfl
@[simp] theorem State.setSeal_step (s : State) (b : Nat) (sl : Seal) : (s.setSeal b sl).step = s.step := rfl
@[simp] theorem State.setSeal_sec (s : State) (b : Nat) (sl : Seal) : (s.setSeal b sl).sec = s.sec := rfl
@[simp] theorem State.setSeal_freeCount (s : State) (b : Nat) (sl : Seal) : (s.setSeal b sl).freeCount = s.freeCount := rfl
@[simp] theorem State.setSeal_mem_cells (s : State) (b : Nat) (sl : Seal) : (s.setSeal b sl).mem.cells = s.mem.cells := rfl
@[simp] theorem State.setSeal_mem_host (s : State) (b : Nat) (sl : Seal) : (s.setSeal b sl).mem.host = s.mem.host := rfl
@[simp] theorem State.setSeal_mem_poison (s : State) (b : Nat) (sl : Seal) : (s.setSeal b sl).mem.poison = s.mem.poison := rfl
@[simp] theorem State.setSeal_mem_retired (s : State) (b : Nat) (sl : Seal) : (s.setSeal b sl).mem.retired = s.mem.retired := rfl
@[simp] theorem State.setSeal_mem_layout (s : State) (b : Nat) (sl : Seal) : (s.setSeal b sl).mem.layout = s.mem.layout := rfl
@[simp] theorem State.setSeal_mem_keySlots (s : State) (b : Nat) (sl : Seal) : (s.setSeal b sl).mem.keySlots = s.mem.keySlots := rfl
@[simp] theorem State.setSeal_mem_packageKey (s : State) (b : Nat) (sl : Seal) : (s.setSeal b sl).mem.packageKey = s.mem.packageKey := rfl
@[simp] theorem State.setSeal_mem_nextKey (s : State) (b : Nat) (sl : Seal) : (s.setSeal b sl).mem.nextKey = s.mem.nextKey := rfl
@[simp] theorem State.setSeal_mem_tokens (s : State) (b : Nat) (sl : Seal) : (s.setSeal b sl).mem.tokens = s.mem.tokens := rfl
@[simp] theorem State.setSeal_mem_repaired (s : State) (b : Nat) (sl : Seal) : (s.setSeal b sl).mem.repaired = s.mem.repaired := rfl
@[simp] theorem State.setSeal_mem_repairing (s : State) (b : Nat) (sl : Seal) : (s.setSeal b sl).mem.repairing = s.mem.repairing := rfl

@[simp] theorem State.setPoison_pending (s : State) (w : Nat) (bad : Bool) : (s.setPoison w bad).pending = s.pending := rfl
@[simp] theorem State.setPoison_regs (s : State) (w : Nat) (bad : Bool) : (s.setPoison w bad).regs = s.regs := rfl
@[simp] theorem State.setPoison_time (s : State) (w : Nat) (bad : Bool) : (s.setPoison w bad).time = s.time := rfl
@[simp] theorem State.setPoison_boot (s : State) (w : Nat) (bad : Bool) : (s.setPoison w bad).boot = s.boot := rfl
@[simp] theorem State.setPoison_power (s : State) (w : Nat) (bad : Bool) : (s.setPoison w bad).power = s.power := rfl
@[simp] theorem State.setPoison_pcie (s : State) (w : Nat) (bad : Bool) : (s.setPoison w bad).pcie = s.pcie := rfl
@[simp] theorem State.setPoison_ctxs (s : State) (w : Nat) (bad : Bool) : (s.setPoison w bad).ctxs = s.ctxs := rfl
@[simp] theorem State.setPoison_dies (s : State) (w : Nat) (bad : Bool) : (s.setPoison w bad).dies = s.dies := rfl
@[simp] theorem State.setPoison_cells (s : State) (w : Nat) (bad : Bool) : (s.setPoison w bad).cells = s.cells := rfl
@[simp] theorem State.setPoison_groups (s : State) (w : Nat) (bad : Bool) : (s.setPoison w bad).groups = s.groups := rfl
@[simp] theorem State.setPoison_cmds (s : State) (w : Nat) (bad : Bool) : (s.setPoison w bad).cmds = s.cmds := rfl
@[simp] theorem State.setPoison_held (s : State) (w : Nat) (bad : Bool) : (s.setPoison w bad).held = s.held := rfl
@[simp] theorem State.setPoison_msgs (s : State) (w : Nat) (bad : Bool) : (s.setPoison w bad).msgs = s.msgs := rfl
@[simp] theorem State.setPoison_faults (s : State) (w : Nat) (bad : Bool) : (s.setPoison w bad).faults = s.faults := rfl
@[simp] theorem State.setPoison_log (s : State) (w : Nat) (bad : Bool) : (s.setPoison w bad).log = s.log := rfl
@[simp] theorem State.setPoison_freeze (s : State) (w : Nat) (bad : Bool) : (s.setPoison w bad).freeze = s.freeze := rfl
@[simp] theorem State.setPoison_snap (s : State) (w : Nat) (bad : Bool) : (s.setPoison w bad).snap = s.snap := rfl
@[simp] theorem State.setPoison_twatches (s : State) (w : Nat) (bad : Bool) : (s.setPoison w bad).twatches = s.twatches := rfl
@[simp] theorem State.setPoison_gradStep (s : State) (w : Nat) (bad : Bool) : (s.setPoison w bad).gradStep = s.gradStep := rfl
@[simp] theorem State.setPoison_fabric (s : State) (w : Nat) (bad : Bool) : (s.setPoison w bad).fabric = s.fabric := rfl
@[simp] theorem State.setPoison_upd (s : State) (w : Nat) (bad : Bool) : (s.setPoison w bad).upd = s.upd := rfl
@[simp] theorem State.setPoison_step (s : State) (w : Nat) (bad : Bool) : (s.setPoison w bad).step = s.step := rfl
@[simp] theorem State.setPoison_sec (s : State) (w : Nat) (bad : Bool) : (s.setPoison w bad).sec = s.sec := rfl
@[simp] theorem State.setPoison_freeCount (s : State) (w : Nat) (bad : Bool) : (s.setPoison w bad).freeCount = s.freeCount := rfl
@[simp] theorem State.setPoison_mem_cells (s : State) (w : Nat) (bad : Bool) : (s.setPoison w bad).mem.cells = s.mem.cells := rfl
@[simp] theorem State.setPoison_mem_host (s : State) (w : Nat) (bad : Bool) : (s.setPoison w bad).mem.host = s.mem.host := rfl
@[simp] theorem State.setPoison_mem_seals (s : State) (w : Nat) (bad : Bool) : (s.setPoison w bad).mem.seals = s.mem.seals := rfl
@[simp] theorem State.setPoison_mem_retired (s : State) (w : Nat) (bad : Bool) : (s.setPoison w bad).mem.retired = s.mem.retired := rfl
@[simp] theorem State.setPoison_mem_layout (s : State) (w : Nat) (bad : Bool) : (s.setPoison w bad).mem.layout = s.mem.layout := rfl
@[simp] theorem State.setPoison_mem_keySlots (s : State) (w : Nat) (bad : Bool) : (s.setPoison w bad).mem.keySlots = s.mem.keySlots := rfl
@[simp] theorem State.setPoison_mem_packageKey (s : State) (w : Nat) (bad : Bool) : (s.setPoison w bad).mem.packageKey = s.mem.packageKey := rfl
@[simp] theorem State.setPoison_mem_nextKey (s : State) (w : Nat) (bad : Bool) : (s.setPoison w bad).mem.nextKey = s.mem.nextKey := rfl
@[simp] theorem State.setPoison_mem_tokens (s : State) (w : Nat) (bad : Bool) : (s.setPoison w bad).mem.tokens = s.mem.tokens := rfl
@[simp] theorem State.setPoison_mem_repaired (s : State) (w : Nat) (bad : Bool) : (s.setPoison w bad).mem.repaired = s.mem.repaired := rfl
@[simp] theorem State.setPoison_mem_repairing (s : State) (w : Nat) (bad : Bool) : (s.setPoison w bad).mem.repairing = s.mem.repairing := rfl

@[simp] theorem State.sendMsg_pending (s : State) (m : SyncMsg) : (s.sendMsg m).pending = s.pending := rfl
@[simp] theorem State.sendMsg_regs (s : State) (m : SyncMsg) : (s.sendMsg m).regs = s.regs := rfl
@[simp] theorem State.sendMsg_time (s : State) (m : SyncMsg) : (s.sendMsg m).time = s.time := rfl
@[simp] theorem State.sendMsg_boot (s : State) (m : SyncMsg) : (s.sendMsg m).boot = s.boot := rfl
@[simp] theorem State.sendMsg_power (s : State) (m : SyncMsg) : (s.sendMsg m).power = s.power := rfl
@[simp] theorem State.sendMsg_pcie (s : State) (m : SyncMsg) : (s.sendMsg m).pcie = s.pcie := rfl
@[simp] theorem State.sendMsg_ctxs (s : State) (m : SyncMsg) : (s.sendMsg m).ctxs = s.ctxs := rfl
@[simp] theorem State.sendMsg_dies (s : State) (m : SyncMsg) : (s.sendMsg m).dies = s.dies := rfl
@[simp] theorem State.sendMsg_cells (s : State) (m : SyncMsg) : (s.sendMsg m).cells = s.cells := rfl
@[simp] theorem State.sendMsg_groups (s : State) (m : SyncMsg) : (s.sendMsg m).groups = s.groups := rfl
@[simp] theorem State.sendMsg_mem (s : State) (m : SyncMsg) : (s.sendMsg m).mem = s.mem := rfl
@[simp] theorem State.sendMsg_cmds (s : State) (m : SyncMsg) : (s.sendMsg m).cmds = s.cmds := rfl
@[simp] theorem State.sendMsg_held (s : State) (m : SyncMsg) : (s.sendMsg m).held = s.held := rfl
@[simp] theorem State.sendMsg_faults (s : State) (m : SyncMsg) : (s.sendMsg m).faults = s.faults := rfl
@[simp] theorem State.sendMsg_log (s : State) (m : SyncMsg) : (s.sendMsg m).log = s.log := rfl
@[simp] theorem State.sendMsg_freeze (s : State) (m : SyncMsg) : (s.sendMsg m).freeze = s.freeze := rfl
@[simp] theorem State.sendMsg_snap (s : State) (m : SyncMsg) : (s.sendMsg m).snap = s.snap := rfl
@[simp] theorem State.sendMsg_twatches (s : State) (m : SyncMsg) : (s.sendMsg m).twatches = s.twatches := rfl
@[simp] theorem State.sendMsg_gradStep (s : State) (m : SyncMsg) : (s.sendMsg m).gradStep = s.gradStep := rfl
@[simp] theorem State.sendMsg_fabric (s : State) (m : SyncMsg) : (s.sendMsg m).fabric = s.fabric := rfl
@[simp] theorem State.sendMsg_upd (s : State) (m : SyncMsg) : (s.sendMsg m).upd = s.upd := rfl
@[simp] theorem State.sendMsg_step (s : State) (m : SyncMsg) : (s.sendMsg m).step = s.step := rfl
@[simp] theorem State.sendMsg_sec (s : State) (m : SyncMsg) : (s.sendMsg m).sec = s.sec := rfl
@[simp] theorem State.sendMsg_freeCount (s : State) (m : SyncMsg) : (s.sendMsg m).freeCount = s.freeCount := rfl

@[simp] theorem State.setFabric_pending (s : State) (f : FabricSt → FabricSt) : (s.setFabric f).pending = s.pending := rfl
@[simp] theorem State.setFabric_regs (s : State) (f : FabricSt → FabricSt) : (s.setFabric f).regs = s.regs := rfl
@[simp] theorem State.setFabric_time (s : State) (f : FabricSt → FabricSt) : (s.setFabric f).time = s.time := rfl
@[simp] theorem State.setFabric_boot (s : State) (f : FabricSt → FabricSt) : (s.setFabric f).boot = s.boot := rfl
@[simp] theorem State.setFabric_power (s : State) (f : FabricSt → FabricSt) : (s.setFabric f).power = s.power := rfl
@[simp] theorem State.setFabric_pcie (s : State) (f : FabricSt → FabricSt) : (s.setFabric f).pcie = s.pcie := rfl
@[simp] theorem State.setFabric_ctxs (s : State) (f : FabricSt → FabricSt) : (s.setFabric f).ctxs = s.ctxs := rfl
@[simp] theorem State.setFabric_dies (s : State) (f : FabricSt → FabricSt) : (s.setFabric f).dies = s.dies := rfl
@[simp] theorem State.setFabric_cells (s : State) (f : FabricSt → FabricSt) : (s.setFabric f).cells = s.cells := rfl
@[simp] theorem State.setFabric_groups (s : State) (f : FabricSt → FabricSt) : (s.setFabric f).groups = s.groups := rfl
@[simp] theorem State.setFabric_mem (s : State) (f : FabricSt → FabricSt) : (s.setFabric f).mem = s.mem := rfl
@[simp] theorem State.setFabric_cmds (s : State) (f : FabricSt → FabricSt) : (s.setFabric f).cmds = s.cmds := rfl
@[simp] theorem State.setFabric_held (s : State) (f : FabricSt → FabricSt) : (s.setFabric f).held = s.held := rfl
@[simp] theorem State.setFabric_msgs (s : State) (f : FabricSt → FabricSt) : (s.setFabric f).msgs = s.msgs := rfl
@[simp] theorem State.setFabric_faults (s : State) (f : FabricSt → FabricSt) : (s.setFabric f).faults = s.faults := rfl
@[simp] theorem State.setFabric_log (s : State) (f : FabricSt → FabricSt) : (s.setFabric f).log = s.log := rfl
@[simp] theorem State.setFabric_freeze (s : State) (f : FabricSt → FabricSt) : (s.setFabric f).freeze = s.freeze := rfl
@[simp] theorem State.setFabric_snap (s : State) (f : FabricSt → FabricSt) : (s.setFabric f).snap = s.snap := rfl
@[simp] theorem State.setFabric_twatches (s : State) (f : FabricSt → FabricSt) : (s.setFabric f).twatches = s.twatches := rfl
@[simp] theorem State.setFabric_gradStep (s : State) (f : FabricSt → FabricSt) : (s.setFabric f).gradStep = s.gradStep := rfl
@[simp] theorem State.setFabric_upd (s : State) (f : FabricSt → FabricSt) : (s.setFabric f).upd = s.upd := rfl
@[simp] theorem State.setFabric_step (s : State) (f : FabricSt → FabricSt) : (s.setFabric f).step = s.step := rfl
@[simp] theorem State.setFabric_sec (s : State) (f : FabricSt → FabricSt) : (s.setFabric f).sec = s.sec := rfl
@[simp] theorem State.setFabric_freeCount (s : State) (f : FabricSt → FabricSt) : (s.setFabric f).freeCount = s.freeCount := rfl
@[simp] theorem State.setFabric_fabric (s : State) (f : FabricSt → FabricSt) : (s.setFabric f).fabric = f s.fabric := rfl

@[simp] theorem State.updPort_pending (s : State) (p : Nat) (f : PortSt → PortSt) : (s.updPort p f).pending = s.pending := rfl
@[simp] theorem State.updPort_regs (s : State) (p : Nat) (f : PortSt → PortSt) : (s.updPort p f).regs = s.regs := rfl
@[simp] theorem State.updPort_time (s : State) (p : Nat) (f : PortSt → PortSt) : (s.updPort p f).time = s.time := rfl
@[simp] theorem State.updPort_boot (s : State) (p : Nat) (f : PortSt → PortSt) : (s.updPort p f).boot = s.boot := rfl
@[simp] theorem State.updPort_power (s : State) (p : Nat) (f : PortSt → PortSt) : (s.updPort p f).power = s.power := rfl
@[simp] theorem State.updPort_pcie (s : State) (p : Nat) (f : PortSt → PortSt) : (s.updPort p f).pcie = s.pcie := rfl
@[simp] theorem State.updPort_ctxs (s : State) (p : Nat) (f : PortSt → PortSt) : (s.updPort p f).ctxs = s.ctxs := rfl
@[simp] theorem State.updPort_dies (s : State) (p : Nat) (f : PortSt → PortSt) : (s.updPort p f).dies = s.dies := rfl
@[simp] theorem State.updPort_cells (s : State) (p : Nat) (f : PortSt → PortSt) : (s.updPort p f).cells = s.cells := rfl
@[simp] theorem State.updPort_groups (s : State) (p : Nat) (f : PortSt → PortSt) : (s.updPort p f).groups = s.groups := rfl
@[simp] theorem State.updPort_mem (s : State) (p : Nat) (f : PortSt → PortSt) : (s.updPort p f).mem = s.mem := rfl
@[simp] theorem State.updPort_cmds (s : State) (p : Nat) (f : PortSt → PortSt) : (s.updPort p f).cmds = s.cmds := rfl
@[simp] theorem State.updPort_held (s : State) (p : Nat) (f : PortSt → PortSt) : (s.updPort p f).held = s.held := rfl
@[simp] theorem State.updPort_msgs (s : State) (p : Nat) (f : PortSt → PortSt) : (s.updPort p f).msgs = s.msgs := rfl
@[simp] theorem State.updPort_faults (s : State) (p : Nat) (f : PortSt → PortSt) : (s.updPort p f).faults = s.faults := rfl
@[simp] theorem State.updPort_log (s : State) (p : Nat) (f : PortSt → PortSt) : (s.updPort p f).log = s.log := rfl
@[simp] theorem State.updPort_freeze (s : State) (p : Nat) (f : PortSt → PortSt) : (s.updPort p f).freeze = s.freeze := rfl
@[simp] theorem State.updPort_snap (s : State) (p : Nat) (f : PortSt → PortSt) : (s.updPort p f).snap = s.snap := rfl
@[simp] theorem State.updPort_twatches (s : State) (p : Nat) (f : PortSt → PortSt) : (s.updPort p f).twatches = s.twatches := rfl
@[simp] theorem State.updPort_gradStep (s : State) (p : Nat) (f : PortSt → PortSt) : (s.updPort p f).gradStep = s.gradStep := rfl
@[simp] theorem State.updPort_upd (s : State) (p : Nat) (f : PortSt → PortSt) : (s.updPort p f).upd = s.upd := rfl
@[simp] theorem State.updPort_step (s : State) (p : Nat) (f : PortSt → PortSt) : (s.updPort p f).step = s.step := rfl
@[simp] theorem State.updPort_sec (s : State) (p : Nat) (f : PortSt → PortSt) : (s.updPort p f).sec = s.sec := rfl
@[simp] theorem State.updPort_freeCount (s : State) (p : Nat) (f : PortSt → PortSt) : (s.updPort p f).freeCount = s.freeCount := rfl

@[simp] theorem State.setSteps_pending (s : State) (f : StepSt → StepSt) : (s.setSteps f).pending = s.pending := rfl
@[simp] theorem State.setSteps_regs (s : State) (f : StepSt → StepSt) : (s.setSteps f).regs = s.regs := rfl
@[simp] theorem State.setSteps_time (s : State) (f : StepSt → StepSt) : (s.setSteps f).time = s.time := rfl
@[simp] theorem State.setSteps_boot (s : State) (f : StepSt → StepSt) : (s.setSteps f).boot = s.boot := rfl
@[simp] theorem State.setSteps_power (s : State) (f : StepSt → StepSt) : (s.setSteps f).power = s.power := rfl
@[simp] theorem State.setSteps_pcie (s : State) (f : StepSt → StepSt) : (s.setSteps f).pcie = s.pcie := rfl
@[simp] theorem State.setSteps_ctxs (s : State) (f : StepSt → StepSt) : (s.setSteps f).ctxs = s.ctxs := rfl
@[simp] theorem State.setSteps_dies (s : State) (f : StepSt → StepSt) : (s.setSteps f).dies = s.dies := rfl
@[simp] theorem State.setSteps_cells (s : State) (f : StepSt → StepSt) : (s.setSteps f).cells = s.cells := rfl
@[simp] theorem State.setSteps_groups (s : State) (f : StepSt → StepSt) : (s.setSteps f).groups = s.groups := rfl
@[simp] theorem State.setSteps_mem (s : State) (f : StepSt → StepSt) : (s.setSteps f).mem = s.mem := rfl
@[simp] theorem State.setSteps_cmds (s : State) (f : StepSt → StepSt) : (s.setSteps f).cmds = s.cmds := rfl
@[simp] theorem State.setSteps_held (s : State) (f : StepSt → StepSt) : (s.setSteps f).held = s.held := rfl
@[simp] theorem State.setSteps_msgs (s : State) (f : StepSt → StepSt) : (s.setSteps f).msgs = s.msgs := rfl
@[simp] theorem State.setSteps_faults (s : State) (f : StepSt → StepSt) : (s.setSteps f).faults = s.faults := rfl
@[simp] theorem State.setSteps_log (s : State) (f : StepSt → StepSt) : (s.setSteps f).log = s.log := rfl
@[simp] theorem State.setSteps_freeze (s : State) (f : StepSt → StepSt) : (s.setSteps f).freeze = s.freeze := rfl
@[simp] theorem State.setSteps_snap (s : State) (f : StepSt → StepSt) : (s.setSteps f).snap = s.snap := rfl
@[simp] theorem State.setSteps_twatches (s : State) (f : StepSt → StepSt) : (s.setSteps f).twatches = s.twatches := rfl
@[simp] theorem State.setSteps_gradStep (s : State) (f : StepSt → StepSt) : (s.setSteps f).gradStep = s.gradStep := rfl
@[simp] theorem State.setSteps_fabric (s : State) (f : StepSt → StepSt) : (s.setSteps f).fabric = s.fabric := rfl
@[simp] theorem State.setSteps_upd (s : State) (f : StepSt → StepSt) : (s.setSteps f).upd = s.upd := rfl
@[simp] theorem State.setSteps_sec (s : State) (f : StepSt → StepSt) : (s.setSteps f).sec = s.sec := rfl
@[simp] theorem State.setSteps_freeCount (s : State) (f : StepSt → StepSt) : (s.setSteps f).freeCount = s.freeCount := rfl
@[simp] theorem State.setSteps_step (s : State) (f : StepSt → StepSt) : (s.setSteps f).step = f s.step := rfl

@[simp] theorem State.updUpd_pending (s : State) (d : Nat) (f : UpdDie → UpdDie) : (s.updUpd d f).pending = s.pending := rfl
@[simp] theorem State.updUpd_regs (s : State) (d : Nat) (f : UpdDie → UpdDie) : (s.updUpd d f).regs = s.regs := rfl
@[simp] theorem State.updUpd_time (s : State) (d : Nat) (f : UpdDie → UpdDie) : (s.updUpd d f).time = s.time := rfl
@[simp] theorem State.updUpd_boot (s : State) (d : Nat) (f : UpdDie → UpdDie) : (s.updUpd d f).boot = s.boot := rfl
@[simp] theorem State.updUpd_power (s : State) (d : Nat) (f : UpdDie → UpdDie) : (s.updUpd d f).power = s.power := rfl
@[simp] theorem State.updUpd_pcie (s : State) (d : Nat) (f : UpdDie → UpdDie) : (s.updUpd d f).pcie = s.pcie := rfl
@[simp] theorem State.updUpd_ctxs (s : State) (d : Nat) (f : UpdDie → UpdDie) : (s.updUpd d f).ctxs = s.ctxs := rfl
@[simp] theorem State.updUpd_dies (s : State) (d : Nat) (f : UpdDie → UpdDie) : (s.updUpd d f).dies = s.dies := rfl
@[simp] theorem State.updUpd_cells (s : State) (d : Nat) (f : UpdDie → UpdDie) : (s.updUpd d f).cells = s.cells := rfl
@[simp] theorem State.updUpd_groups (s : State) (d : Nat) (f : UpdDie → UpdDie) : (s.updUpd d f).groups = s.groups := rfl
@[simp] theorem State.updUpd_mem (s : State) (d : Nat) (f : UpdDie → UpdDie) : (s.updUpd d f).mem = s.mem := rfl
@[simp] theorem State.updUpd_cmds (s : State) (d : Nat) (f : UpdDie → UpdDie) : (s.updUpd d f).cmds = s.cmds := rfl
@[simp] theorem State.updUpd_held (s : State) (d : Nat) (f : UpdDie → UpdDie) : (s.updUpd d f).held = s.held := rfl
@[simp] theorem State.updUpd_msgs (s : State) (d : Nat) (f : UpdDie → UpdDie) : (s.updUpd d f).msgs = s.msgs := rfl
@[simp] theorem State.updUpd_faults (s : State) (d : Nat) (f : UpdDie → UpdDie) : (s.updUpd d f).faults = s.faults := rfl
@[simp] theorem State.updUpd_log (s : State) (d : Nat) (f : UpdDie → UpdDie) : (s.updUpd d f).log = s.log := rfl
@[simp] theorem State.updUpd_freeze (s : State) (d : Nat) (f : UpdDie → UpdDie) : (s.updUpd d f).freeze = s.freeze := rfl
@[simp] theorem State.updUpd_snap (s : State) (d : Nat) (f : UpdDie → UpdDie) : (s.updUpd d f).snap = s.snap := rfl
@[simp] theorem State.updUpd_twatches (s : State) (d : Nat) (f : UpdDie → UpdDie) : (s.updUpd d f).twatches = s.twatches := rfl
@[simp] theorem State.updUpd_gradStep (s : State) (d : Nat) (f : UpdDie → UpdDie) : (s.updUpd d f).gradStep = s.gradStep := rfl
@[simp] theorem State.updUpd_fabric (s : State) (d : Nat) (f : UpdDie → UpdDie) : (s.updUpd d f).fabric = s.fabric := rfl
@[simp] theorem State.updUpd_step (s : State) (d : Nat) (f : UpdDie → UpdDie) : (s.updUpd d f).step = s.step := rfl
@[simp] theorem State.updUpd_sec (s : State) (d : Nat) (f : UpdDie → UpdDie) : (s.updUpd d f).sec = s.sec := rfl
@[simp] theorem State.updUpd_freeCount (s : State) (d : Nat) (f : UpdDie → UpdDie) : (s.updUpd d f).freeCount = s.freeCount := rfl

@[simp] theorem State.setPower_pending (s : State) (f : PowerSt → PowerSt) : (s.setPower f).pending = s.pending := rfl
@[simp] theorem State.setPower_regs (s : State) (f : PowerSt → PowerSt) : (s.setPower f).regs = s.regs := rfl
@[simp] theorem State.setPower_time (s : State) (f : PowerSt → PowerSt) : (s.setPower f).time = s.time := rfl
@[simp] theorem State.setPower_boot (s : State) (f : PowerSt → PowerSt) : (s.setPower f).boot = s.boot := rfl
@[simp] theorem State.setPower_pcie (s : State) (f : PowerSt → PowerSt) : (s.setPower f).pcie = s.pcie := rfl
@[simp] theorem State.setPower_ctxs (s : State) (f : PowerSt → PowerSt) : (s.setPower f).ctxs = s.ctxs := rfl
@[simp] theorem State.setPower_dies (s : State) (f : PowerSt → PowerSt) : (s.setPower f).dies = s.dies := rfl
@[simp] theorem State.setPower_cells (s : State) (f : PowerSt → PowerSt) : (s.setPower f).cells = s.cells := rfl
@[simp] theorem State.setPower_groups (s : State) (f : PowerSt → PowerSt) : (s.setPower f).groups = s.groups := rfl
@[simp] theorem State.setPower_mem (s : State) (f : PowerSt → PowerSt) : (s.setPower f).mem = s.mem := rfl
@[simp] theorem State.setPower_cmds (s : State) (f : PowerSt → PowerSt) : (s.setPower f).cmds = s.cmds := rfl
@[simp] theorem State.setPower_held (s : State) (f : PowerSt → PowerSt) : (s.setPower f).held = s.held := rfl
@[simp] theorem State.setPower_msgs (s : State) (f : PowerSt → PowerSt) : (s.setPower f).msgs = s.msgs := rfl
@[simp] theorem State.setPower_faults (s : State) (f : PowerSt → PowerSt) : (s.setPower f).faults = s.faults := rfl
@[simp] theorem State.setPower_log (s : State) (f : PowerSt → PowerSt) : (s.setPower f).log = s.log := rfl
@[simp] theorem State.setPower_freeze (s : State) (f : PowerSt → PowerSt) : (s.setPower f).freeze = s.freeze := rfl
@[simp] theorem State.setPower_snap (s : State) (f : PowerSt → PowerSt) : (s.setPower f).snap = s.snap := rfl
@[simp] theorem State.setPower_twatches (s : State) (f : PowerSt → PowerSt) : (s.setPower f).twatches = s.twatches := rfl
@[simp] theorem State.setPower_gradStep (s : State) (f : PowerSt → PowerSt) : (s.setPower f).gradStep = s.gradStep := rfl
@[simp] theorem State.setPower_fabric (s : State) (f : PowerSt → PowerSt) : (s.setPower f).fabric = s.fabric := rfl
@[simp] theorem State.setPower_upd (s : State) (f : PowerSt → PowerSt) : (s.setPower f).upd = s.upd := rfl
@[simp] theorem State.setPower_step (s : State) (f : PowerSt → PowerSt) : (s.setPower f).step = s.step := rfl
@[simp] theorem State.setPower_sec (s : State) (f : PowerSt → PowerSt) : (s.setPower f).sec = s.sec := rfl
@[simp] theorem State.setPower_freeCount (s : State) (f : PowerSt → PowerSt) : (s.setPower f).freeCount = s.freeCount := rfl
@[simp] theorem State.setPower_power (s : State) (f : PowerSt → PowerSt) : (s.setPower f).power = f s.power := rfl

end Sys2Proof.Machine
end

