-- ==== Sys2Proof/WellFormed.lean ====
section
/-!
DEFINITION. WellFormed.lean: which commands name things the part has: contexts, queues, rings, dies, cells, banks, ports, slots
and registers in range, values that fit the register they are written to, headers and payloads of their lengths. The machine
runs an ill-formed command too (it finds nothing to act on, or takes the operand as it stands): no statement needs one.
-/
namespace Sys2Proof

/-- A context, one of its 64 queues (Table 10-1), and a submission position. -/
def CmdId.wf (i : CmdId) : Bool := decide (i.ctx < 64 ∧ i.q < 64 ∧ i.seq < 2 ^ 64)

def isCtx (c : Nat) : Bool := decide (c < 64)
def isDie (d : Nat) : Bool := decide (d < 8)
def isPort (p : Nat) : Bool := decide (p < 40)
/-- A physical cell, die × 104 + number (chapter 3). -/
def isCell (c : Nat) : Bool := decide (c < 832)
/-- A scratchpad bank, or 24 and an accumulator slot. -/
def isBank (b : Nat) : Bool := decide (b < 32)
def fits (bits v : Nat) : Bool := decide (v < 2 ^ bits)

/-- Stores to host memory: bytes at host addresses below 2^51 (R292). -/
def storesWf (l : HostStores) : Bool := l.all fun c => fits 51 c.1

/-- A slot as R322 and Table 13-3 shape it. -/
def RxSlot.wf (r : RxSlot) : Bool := r.bytes.length == 544

def StageReport.wf (r : StageReport) : Bool :=
  r.dieFails.all isDie && r.cellFails.all isCell && r.fused.all isCell && r.linksDown.all fun l => decide (l < 12)

/-- A unit that Table 18-2 numbers. -/
def UnitId.wf (u : UnitId) : Bool := decide (u.kind < 15) && isDie u.die && fits 16 u.index

/-- Temperatures in °C × 16 of the eight dies. -/
def tempsWf (l : List (Option Nat)) : Bool := l.length == 8

/-- Whether a command is well formed. -/
def Instr.wf : Instr → Bool
  | .nop id | .descCreate id | .descDestroy id | .allocSet id | .allocClear id | .product id | .elementwise id | .reduce id
  | .rowForward id | .rowBackward id | .topiary id | .topiaryBufferWrite id | .layout id | .gather id | .scatter id
  | .scatterAdd id | .dmaCopy id | .syncAdd id | .watchWrite id | .watchAdd id | .syncRead id | .syncMap id | .syncUnmap id
  | .topk id | .dispatchSend id | .dispatchReceive id | .combineReturn id | .combineSum id | .batchCancel id | .fabricSend id
  | .collective id | .slotTableLoad id | .slotTableSwitch id | .groupDefine id | .groupRetire id | .setCounters id
  | .refresh id | .query id | .stepOpen id | .stepClose id | .vote id | .stepWait id | .participants id | .evaluateBegin id
  | .evaluateEnd id | .snap id | .blocks id | .repair id | .rollback id | .freezeAt id | .thaw id | .counterClear id
  | .arm id | .disarm id | .snapshot id | .groupForm id | .dissolve id | .cellReturn id _ | .cellFence id | .pageRetire id
  | .commandComplete id | .batchDeadline id => id.wf
  | .arrive ids => !ids.isEmpty && ids.all CmdId.wf && decide ids.Nodup
  | .batchGenerationAdvance die ctx tag => isDie die && isCtx ctx && fits 8 tag
  | .evalWindowExpiry | .getStatus | .getCerts | .attest | .sessionOpen | .sessionRekey | .sessionClose | .ownerChallenge
  | .ownerAuth | .ownerEnrol | .contextKeyNew | .contextKeyErase | .selfTest _ | .zeroise | .decommission | .zeroiseNow _
  | .challengeExpiry | .entropyTestFailure | .flashWriteDone | .frameStart | .retentionEnd | .departureCutoff | .tableSwitch
  | .failoverSwitch | .retiredTableDiscard | .roleChange | .backupSwitch | .lockLoss | .stepCommit | .stepSkip
  | .consensusStall | .pcieLinkLoss | .operatingPointChange | .powerApplied | .perst | .perstDeassert | .functionReset _
  | .freezeEffect | .snapshotCapture | .powerStageFault | .stretchEnd | .modResetRelease => true
  | .fwMailboxGo _ _ _ stores => storesWf stores
  | .repairQuery _ die stack channel pseudo | .softPpr _ die stack channel pseudo | .hardPpr _ die stack channel pseudo =>
    isDie die && decide (stack < 2 ∧ channel < 32 ∧ pseudo < 2)
  | .repairOperationEnd die result spareRows => isDie die && fits 2 result && fits 8 spareRows
  | .nudge _ ctx value => isCtx ctx && fits 32 value
  | .doorbellScan ctx stores => isCtx ctx && storesWf stores
  | .sqEnable _ ctx q value stores => isCtx ctx && decide (q < 64) && fits 32 value && storesWf stores
  | .sqDisable _ ctx q value => isCtx ctx && decide (q < 64) && fits 32 value
  | .cqEnable _ ctx r value | .cqDisable _ ctx r value => isCtx ctx && decide (r < 32) && fits 32 value
  | .commandIssue ctx q => isCtx ctx && decide (q < 64)
  | .cqRecordRelease ctx r | .holdoffExpiry ctx r => isCtx ctx && decide (r < 32)
  | .cellDraw cell id | .taskComplete cell id _ => isCell cell && id.wf
  | .partialTileArrival id _ _ => id.wf
  | .ownerRegisterWrite _ cell bank value => isCell cell && isBank bank && fits 32 value
  | .handoverScrubStart cell bank | .handoverDone cell bank => isCell cell && isBank bank
  | .sramPatrolScrub cell word flips _ => isCell cell && decide (word < 0x70000) && decide (flips ≤ 72)
  | .commonsPatrolScrub die word flips _ => isDie die && decide (word < 6 * 2 ^ 20) && decide (flips ≤ 72)
  | .memoryPatrolScrub word flips _ => fits 52 word && decide (flips ≤ 72)
  | .tokenCredit die part ctrl _ => isDie die && decide (part < 16 ∧ ctrl < 5)
  | .watchFire die entry => isDie die && decide (entry < 4096)
  | .counterUpdate die msgs => isDie die && decide msgs.Nodup
  | .watchRegistrationResume die _ | .stagedBlockApply die _ => isDie die
  | .slotTransmit port slot => isPort port && decide (slot < 113)
  | .slotPresent port slot rx => isPort port && decide (slot < 113) && rx.wf
  | .signalApply flow epoch => fits 16 flow && fits 16 epoch
  | .controlSlotReceive port rx _ => isPort port && rx.wf
  | .flowLoss flow epoch frame => fits 16 flow && fits 16 epoch && fits 54 frame
  | .portEnable _ port value | .rekey _ port value => isPort port && fits 32 value
  | .linkTrained port | .frameAligned port | .bringUpTimeout port | .retryInterval port
  | .portDirectionFailure port | .rekeyStart port | .keySwitch port | .previousKeyExpiry port | .nonceExhausted port =>
    isPort port
  | .peerAuthenticated port peerNode peerPort _ _ => isPort port && fits 16 peerNode && isPort peerPort
  | .delayMeasured port delay => isPort port && fits 16 delay
  | .timeSet _ value | .faultRingBase _ value | .logRingBase _ value => fits 64 value
  | .recordDrain die | .dieLoss die | .stewardWatchdogMiss die | .droopStretch die | .overvoltage die => isDie die
  | .exportRelease _ die value | .foreignRelease _ die value => isDie die && fits 64 value
  | .unitError u id word _ => u.wf && (match id with
    | some i => i.wf
    | none => true) && (match word with
    | some a => fits 52 a
    | none => true)
  | .targetedSelfTestEnd u _ => u.wf
  | .drainMarkerArrival cell => isCell cell
  | .controlLoopTick temps _ _ _ _ => tempsWf temps
  | .powerSample _ _ _ | .thermalThrottle _ | .thermalTrip _ | .throttleRelease _ | .modReset _ | .vinFault _ _
  | .suppliesOff _ _ => true
  | .coldStageEnd r => r.wf
  | .coldReset _ key | .warmReset _ key => fits 16 key
  | .lock _ die value => isDie die && fits 32 value
  | .qcounterReset _ ctx value => isCtx ctx && fits 64 value
  | .freezeNow _ value | .snapshotTrigger _ value => fits 32 value
  | .registerWrite _ offset size value => fits 26 offset && decide (0 < size ∧ size ≤ 8) && fits (8 * size) value
  | .registerRead _ offset size => fits 26 offset && decide (0 < size ∧ size ≤ 8)

end Sys2Proof
end

