-- ==== Sys2Proof/Tests/Slice0.lean ====
section
/-!
SUPPORT. Tests/Slice0.lean: the well-formedness smoke tests, small tests of single rows against figures of the spec, and for every
statement with hypotheses a concrete state and operands that meet them.
-/
set_option Elab.async false
set_option linter.all false
namespace Sys2Proof.Tests
open Sys2Proof.Machine

/-! ### Well-formedness: one ill-formed term for each check -/

def okId : CmdId := ⟨1, 2, 3⟩
def okUnit : UnitId := ⟨0, 0, 0⟩
def okRx : RxSlot := ⟨true, 0, zeros 544⟩

theorem test_wf_accepts : ((Instr.nop okId).wf && (Instr.arrive [okId]).wf && (Instr.slotPresent 39 112 okRx).wf
    && (Instr.registerWrite true 0 8 0).wf && (Instr.repairQuery true 7 1 31 1).wf && (Instr.unitError okUnit none none false).wf) = true := by
  decide +kernel
theorem test_wf_command : ((Instr.nop ⟨64, 0, 0⟩).wf || (Instr.nop ⟨0, 64, 0⟩).wf || (Instr.nop ⟨0, 0, 2 ^ 64⟩).wf) = false := by decide
theorem test_wf_arrivals : ((Instr.arrive []).wf || (Instr.arrive [okId, okId]).wf || (Instr.arrive [⟨64, 0, 0⟩]).wf) = false := by decide
theorem test_wf_context : ((Instr.nudge true 64 0).wf || (Instr.doorbellScan 64 []).wf || (Instr.sqEnable true 64 0 1 []).wf
    || (Instr.sqDisable true 64 0 0).wf || (Instr.cqEnable true 64 0 1).wf || (Instr.cqDisable true 64 0 0).wf || (Instr.commandIssue 64 0).wf
    || (Instr.cqRecordRelease 64 0).wf || (Instr.holdoffExpiry 64 0).wf || (Instr.qcounterReset true 64 0).wf
    || (Instr.batchGenerationAdvance 0 64 0).wf) = false := by decide
theorem test_wf_queue : ((Instr.sqEnable true 0 64 1 []).wf || (Instr.sqDisable true 0 64 0).wf || (Instr.commandIssue 0 64).wf
    || (Instr.cqEnable true 0 32 1).wf || (Instr.cqDisable true 0 32 0).wf || (Instr.cqRecordRelease 0 32).wf
    || (Instr.holdoffExpiry 0 32).wf) = false := by decide
theorem test_wf_value : ((Instr.nudge true 0 (2 ^ 32)).wf || (Instr.sqEnable true 0 0 (2 ^ 32) []).wf || (Instr.qcounterReset true 0 (2 ^ 64)).wf
    || (Instr.freezeNow true (2 ^ 32)).wf || (Instr.snapshotTrigger true (2 ^ 32)).wf || (Instr.timeSet true (2 ^ 64)).wf
    || (Instr.faultRingBase true (2 ^ 64)).wf || (Instr.logRingBase true (2 ^ 64)).wf || (Instr.lock true 0 (2 ^ 32)).wf
    || (Instr.exportRelease true 0 (2 ^ 64)).wf || (Instr.foreignRelease true 0 (2 ^ 64)).wf || (Instr.portEnable true 0 (2 ^ 32)).wf
    || (Instr.rekey true 0 (2 ^ 32)).wf || (Instr.coldReset true (2 ^ 16)).wf || (Instr.warmReset true (2 ^ 16)).wf
    || (Instr.ownerRegisterWrite true 0 0 (2 ^ 32)).wf || (Instr.repairOperationEnd 0 4 0).wf || (Instr.repairOperationEnd 0 0 256).wf
    || (Instr.batchGenerationAdvance 0 0 256).wf) = false := by decide
theorem test_wf_die : ((Instr.batchGenerationAdvance 8 0 0).wf || (Instr.repairQuery true 8 0 0 0).wf || (Instr.repairOperationEnd 8 0 0).wf
    || (Instr.commonsPatrolScrub 8 0 0 false).wf || (Instr.tokenCredit 8 0 0 0).wf || (Instr.watchFire 8 0).wf || (Instr.counterUpdate 8 []).wf
    || (Instr.watchRegistrationResume 8 0).wf || (Instr.stagedBlockApply 8 0).wf || (Instr.recordDrain 8).wf || (Instr.dieLoss 8).wf
    || (Instr.stewardWatchdogMiss 8).wf || (Instr.droopStretch 8).wf || (Instr.overvoltage 8).wf || (Instr.lock true 8 0).wf
    || (Instr.exportRelease true 8 0).wf || (Instr.foreignRelease true 8 0).wf) = false := by decide
theorem test_wf_cell : ((Instr.cellDraw 832 okId).wf || (Instr.taskComplete 832 okId 0).wf || (Instr.ownerRegisterWrite true 832 0 0).wf
    || (Instr.ownerRegisterWrite true 0 32 0).wf || (Instr.handoverScrubStart 832 0).wf || (Instr.handoverScrubStart 0 32).wf
    || (Instr.handoverDone 832 0).wf || (Instr.handoverDone 0 32).wf || (Instr.sramPatrolScrub 832 0 0 false).wf
    || (Instr.drainMarkerArrival 832).wf) = false := by decide
theorem test_wf_words : ((Instr.sramPatrolScrub 0 0x70000 0 false).wf || (Instr.sramPatrolScrub 0 0 73 false).wf
    || (Instr.commonsPatrolScrub 0 (6 * 2 ^ 20) 0 false).wf || (Instr.commonsPatrolScrub 0 0 73 false).wf
    || (Instr.memoryPatrolScrub (2 ^ 52) 0 false).wf || (Instr.memoryPatrolScrub 0 73 false).wf || (Instr.tokenCredit 0 16 0 0).wf
    || (Instr.tokenCredit 0 0 5 0).wf || (Instr.watchFire 0 4096).wf || (Instr.counterUpdate 0 [0, 0]).wf) = false := by decide
theorem test_wf_repair : ((Instr.repairQuery true 0 2 0 0).wf || (Instr.softPpr true 0 0 32 0).wf || (Instr.hardPpr true 0 0 0 2).wf) = false := by
  decide
theorem test_wf_ports : ((Instr.slotTransmit 40 0).wf || (Instr.slotTransmit 0 113).wf || (Instr.slotPresent 40 1 okRx).wf
    || (Instr.slotPresent 0 113 okRx).wf || (Instr.slotPresent 0 1 { okRx with bytes := [] }).wf
    || (Instr.controlSlotReceive 40 okRx 0).wf || (Instr.linkTrained 40).wf
    || (Instr.portEnable true 40 1).wf || (Instr.rekey true 40 2).wf || (Instr.peerAuthenticated 40 0 0 true true).wf
    || (Instr.peerAuthenticated 0 0 40 true true).wf || (Instr.delayMeasured 40 0).wf || (Instr.delayMeasured 0 (2 ^ 16)).wf) = false := by decide +kernel
theorem test_wf_flows : ((Instr.signalApply (2 ^ 16) 0).wf || (Instr.signalApply 0 (2 ^ 16)).wf || (Instr.flowLoss (2 ^ 16) 0 0).wf
    || (Instr.flowLoss 0 (2 ^ 16) 0).wf || (Instr.flowLoss 0 0 (2 ^ 54)).wf) = false := by decide
theorem test_wf_units : ((Instr.unitError ⟨15, 0, 0⟩ none none false).wf || (Instr.unitError ⟨0, 8, 0⟩ none none false).wf
    || (Instr.unitError ⟨0, 0, 2 ^ 16⟩ none none false).wf || (Instr.unitError okUnit (some ⟨64, 0, 0⟩) none false).wf
    || (Instr.unitError okUnit none (some (2 ^ 52)) false).wf || (Instr.targetedSelfTestEnd ⟨15, 0, 0⟩ true).wf) = false := by decide
theorem test_wf_stores : ((Instr.doorbellScan 0 [(2 ^ 51, 0)]).wf || (Instr.fwMailboxGo true false true [(2 ^ 51, 0)]).wf) = false := by decide
theorem test_wf_reports : ((Instr.controlLoopTick [] 0 0 0 0).wf || (Instr.registerWrite true (2 ^ 26) 4 0).wf || (Instr.registerWrite true 0 0 0).wf
    || (Instr.registerWrite true 0 9 0).wf || (Instr.registerWrite true 0 4 (2 ^ 32)).wf || (Instr.registerRead true (2 ^ 26) 4).wf
    || (Instr.registerRead true 0 0).wf || (Instr.registerRead true 0 9).wf) = false := by decide
theorem test_wf_stages : ((Instr.coldStageEnd ⟨true, true, [8], [], [], []⟩).wf || (Instr.coldStageEnd ⟨true, true, [], [832], [], []⟩).wf
    || (Instr.coldStageEnd ⟨true, true, [], [], [832], []⟩).wf || (Instr.coldStageEnd ⟨true, true, [], [], [], [12]⟩).wf) = false := by decide

/-- No row of the table has bits, so no word spells a command. -/
theorem test_no_word_is_a_command (n w : Nat) : decodeTableWord n w = none := rfl

/-! ### Small states -/

/-- A record of `n` bytes with the fields (offset, width, value) listed, no two of which overlap. -/
def packed (n : Nat) (fs : List (Nat × Nat × Nat)) : List Byte := leBytes n (fs.foldl (fun a f => a + f.2.2 * 256 ^ f.1) 0)

/-- A module in READY with every die in service and the PCI Express link up. -/
def up : State :=
  { State.reset with
    boot := { BootSt.init with stage := .ready, selfTestsPassed := true, wasReady := true, firmwareOn := true }
    pcie := { PcieSt.init with linkUp := true }
    dies := (upTo 8).map fun d => (d, { Die.init with inService := true }) }

/-- A command just issued, of opcode `op` and the fields listed. -/
def cmd (op : Nat) (fs : List (Nat × Nat × Nat)) : Cmd := up.freshCmd okId (packed 128 ((0, 2, op) :: fs))
def running (op : Nat) (fs : List (Nat × Nat × Nat)) : State := { up with cmds := [cmd op fs] }

theorem inv_of {s : State} (h : (Memory.wf s.mem.cells && Memory.wf s.mem.host && decide (s.regs.Pairwise fun a b => a.1 < b.1)
    && decide (s.power.point ≤ 60 ∧ s.power.fwPoint ≤ 60)) = true) : s.Inv := by
  simp only [Bool.and_eq_true, decide_eq_true_eq] at h
  exact ⟨⟨h.1.1.1, h.1.1.2⟩, h.1.2, h.2⟩

/-- Whether a write of a register reaches it, as a Bool. -/
def accepted (s : State) (secure : Bool) (r : Reg) : Bool :=
  decide (r.unit < r.name.info.block.units ∧ r.idx < r.name.info.count) && s.answers && !s.refuses secure r.addr && s.writable r

theorem accepts_of {s : State} {secure : Bool} {r : Reg} (h : accepted s secure r = true) : s.Accepts secure r := by
  simp only [accepted, Bool.and_eq_true, decide_eq_true_eq, Bool.not_eq_true'] at h
  exact ⟨h.1.1.1, h.1.1.2, h.1.2, h.2⟩

theorem runs_of {s : State} {op : Nat} {c : Cmd} (h : s.cmds = [c]) (i : c.id = okId) (e : c.ending = none)
    (o : (hOpcode c.desc == op) = true) : s.Runs okId op c :=
  ⟨by simp [State.cmd?, h, i], e, by simpa using o⟩

theorem up_inv : up.Inv := inv_of (by decide +kernel)
theorem reset_inv : State.reset.Inv := inv_of (by decide +kernel)

/-! ### Witnesses: registers and queues -/

theorem witness_AnEmptyQueueLetsAPipPass : up.pending = [] ∧ up.Inv ∧ (regDie .memUeCount 7).inMap := ⟨rfl, up_inv, by decide, by decide⟩
theorem witness_EveryStepKeepsTheInvariant : up.Inv ∧ ∃ t, step up = .next t := ⟨up_inv, _, rfl⟩
theorem witness_FusesOnlyGain : ∃ t, step { up with pending := [.decommission] } = .next t := ⟨_, rfl⟩
theorem witness_CommandsLeaveAloneWhatTheyDoNotName :
    (∃ t, exec (.nop okId) (running 1 []) = .next t) ∧ onPlane (.nop okId) = true ∧ inShell (.nop okId) = true := ⟨⟨_, rfl⟩, rfl, rfl⟩

/-- DICE_SEED is one of the 64-bit registers; the last context's lies highest. -/
theorem witness_SixtyFourBitReadsAreWhole : (regCtx .diceSeed 63).inMap ∧ (regCtx .diceSeed 63).name.info.bytes = 8
    ∧ up.Hears false (regCtx .diceSeed 63).addr ∧ up.Hears true ((regCtx .diceSeed 63).addr + 4) ∧ up.readable (regCtx .diceSeed 63) = true :=
  ⟨⟨by decide, by decide⟩, rfl, ⟨rfl, by decide +kernel, by decide⟩, ⟨rfl, by decide +kernel, by decide⟩, rfl⟩
theorem witness_UnassignedOffsetsReadZero : up.Hears false (2 ^ 26 - 8) ∧ Hole (2 ^ 26 - 8) ∧ Hole (2 ^ 26 - 4) :=
  ⟨⟨rfl, by decide +kernel, by decide⟩, ⟨by decide +kernel, by decide +kernel, by decide⟩, ⟨by decide +kernel, by decide +kernel, by decide⟩⟩
theorem witness_HalfWritesAreIgnored : up.Inv ∧ (regCtx .diceSeed 63).inMap ∧ (∃ d, (regCtx .diceSeed 63).name.info.fields = [⟨63, 0, .rw, d⟩])
    ∧ up.Hears false ((regCtx .diceSeed 63).addr + 4) :=
  ⟨up_inv, ⟨by decide, by decide⟩, ⟨_, rfl⟩, ⟨rfl, by decide +kernel, by decide⟩⟩
theorem witness_PlainWritesStoreFields : up.Inv ∧ RegName.diceSeed.plain = true ∧ up.Accepts false (regCtx .diceSeed 63)
    ∧ (2 ^ 64 - 1 < 2 ^ (8 * RegName.diceSeed.info.bytes)) := ⟨up_inv, rfl, accepts_of (by decide +kernel), by decide⟩
def policed : State := up.setFld (regDie0 .secPolicy) 1 1 1
theorem witness_RefusedAndUnwritableRequestsKeepRegisters :
    (policed.answers = true ∧ policed.refuses false 0 = true) ∧ State.reset.answers = false
    ∧ ({ up with dies := [] } : State).Hears false (regDie .memScrub 7).addr
    ∧ ({ up with boot := { up.boot with stage := .rom } } : State).Hears false (regCtx .diceSeed 0).addr :=
  ⟨⟨rfl, by decide +kernel⟩, rfl, ⟨rfl, by decide +kernel, by decide⟩, ⟨rfl, by decide +kernel, by decide⟩⟩

theorem witness_RingSizeOutOfRangeIsIgnored : up.Inv ∧ up.ready = true ∧ bitOf (1 + 2 * 17) 0 = true ∧ 16 < bitsOf (1 + 2 * 17) 5 1
    ∧ bitsOf (1 + 2 * 3) 5 1 < 4
    ∧ up.Accepts false (sqConfig 63 63) ∧ bitOf (up.rd (sqConfig 63 63)) 0 = false ∧ bitOf (up.rd (sqConfig 63 63)) 29 = false
    ∧ up.Accepts false (cqConfig 63 31) ∧ bitOf (up.rd (cqConfig 63 31)) 0 = false ∧ bitOf (up.rd (cqConfig 63 31)) 31 = false :=
  ⟨up_inv, rfl, by decide, by decide, by decide, accepts_of (by decide +kernel), by decide +kernel, by decide +kernel,
    accepts_of (by decide +kernel), by decide +kernel, by decide +kernel⟩
theorem witness_EnablingARingTakesItsFields : up.Inv ∧ up.ready = true ∧ ringSizeOk (1 + 2 * 16) = true ∧ ringSizeOk (1 + 2 * 4) = true
    ∧ up.Accepts false (sqConfig 63 63) ∧ up.Accepts false (cqConfig 63 31) ∧ bitOf (up.rd (sqConfig 63 63)) 0 = false
    ∧ bitOf (up.rd (cqConfig 63 31)) 0 = false :=
  ⟨up_inv, rfl, by decide, by decide, accepts_of (by decide +kernel), accepts_of (by decide +kernel), by decide +kernel, by decide +kernel⟩

/-- Queue 0 and ring 0 of context 0 enabled. -/
def open0 : State := (up.wr (sqConfig 0 0) (1 + 2 * 4 + 2 ^ 29)).wr (cqConfig 0 0) (1 + 2 * 4 + 2 ^ 31)
theorem open0_inv : open0.Inv := inv_of (by decide +kernel)
theorem witness_DisablingAbortsFetchedCommands : open0.Inv ∧ open0.ready = true ∧ bitOf 0 0 = false
    ∧ open0.Accepts false (sqConfig 0 0) ∧ bitOf (open0.rd (sqConfig 0 0)) 0 = true ∧ (open0.queue 0 0).fetched = []
    ∧ open0.queueCmds 0 0 = [] ∧ (open0.cq 0 (open0.queue 0 0).cq).waiting = []
    ∧ open0.Accepts false (cqConfig 0 0) ∧ bitOf (open0.rd (cqConfig 0 0)) 0 = true ∧ open0.ringHeld 0 0 = true
    ∧ ((open0.wr (sqConfig 0 0) 0).ringHeld 0 0) = false :=
  ⟨open0_inv, rfl, by decide, accepts_of (by decide +kernel), by decide +kernel, rfl, rfl, rfl, accepts_of (by decide +kernel),
    by decide +kernel, by decide +kernel, by decide +kernel⟩
theorem witness_TriggerWritesAct : up.ready = true ∧ up.Accepts false (regCtx .nudge 63) ∧ up.Accepts false (regCtx .qcounterReset 63)
    ∧ up.Accepts false (regDie0 .timeSet) ∧ up.Accepts false (regDie0 .freezeControl) ∧ bitOf 3 0 = true ∧ up.freeze.frozen = false
    ∧ up.freeze.nextAt = none ∧ up.time.role = .free :=
  ⟨rfl, accepts_of (by decide +kernel), accepts_of (by decide +kernel), accepts_of (by decide +kernel), accepts_of (by decide +kernel),
    by decide, rfl, rfl, rfl⟩
theorem witness_OwnerWriteStartsHandover : up.Inv ∧ up.ready = true ∧ up.Accepts false (ownerReg 831 31)
    ∧ ({ up with cells := [(831, { Cell.init with logical := some 700 })] } : State).Accepts false (ownerReg 831 0) :=
  ⟨up_inv, rfl, accepts_of (by decide +kernel), accepts_of (by decide +kernel)⟩

/-- A tail of 1 in the doorbell line at address 0. -/
theorem witness_ScanFetchesOnlyUnderValidTail : open0.Inv
    ∧ ((open0.wr (regCtx .ctxControl 0) 1).wr (cqConfig 0 0) 0).fetching = true
    ∧ bitOf ((open0.wr (regCtx .ctxControl 0) 1).rd (regCtx .ctxControl 0)) 0 = true
    ∧ (∀ k, k < 64 → k ≠ 0 → bitOf (open0.rd (sqConfig 0 k)) 0 = false)
    ∧ (∀ k, k < 32 → bitOf ((open0.wr (cqConfig 0 0) 0).rd (cqConfig 0 k)) 0 = false)
    ∧ bitOf (open0.rd (sqConfig 0 0)) 29 = true ∧ bitOf (open0.rd (sqConfig 0 0)) 30 = false
    ∧ tailValid (open0.queue 0 0) 1 = true ∧ tailValid (open0.queue 0 0) (2 ^ 63) = false := by
  refine ⟨open0_inv, ?_, ?_, ?_, ?_, ?_, ?_, ?_, ?_⟩ <;> decide +kernel
/-- A queue whose head command is `d`. -/
def headCmd (op : Nat) : Fetched := ⟨5, packed 128 [(0, 2, op)], true, .none, .none, none⟩
def queued (c op : Nat) : State := { up with ctxs := [(c, { Ctx.init with queues := [(0, { QueueSt.init with fetched := [headCmd op] })] })] }
theorem witness_IssueGivesTheVerdict (c : Nat) (h : c = 0 ∨ c = 63) :
    (queued c 0x13).Inv ∧ ((queued c 0x13).queue c 0).fetched = [headCmd 0x13]
      ∧ ((queued c 0x13).queue c 0).deferrable = false ∧ (queued c 0x13).pcie.linkUp = true
      ∧ (queued c 0x13).waitOn c 0 (headCmd 0x13) = none
      ∧ 0x13 ∈ privilegedOps ∧ 0x14 ∉ opcodes
      ∧ (queued c 1).waitOn c 0 (headCmd 1) = none := by
  rcases h with rfl | rfl <;>
    exact ⟨inv_of (by decide +kernel), by decide +kernel, by decide +kernel, rfl, by decide +kernel, by decide, by decide, by decide +kernel⟩

/-- A NOP that has ended, its ring with room and without. -/
def ended (w : Nat) : State :=
  { open0 with
    cmds := [{ cmd 1 [] with id := ⟨0, 0, 3⟩, ending := some Status.ok.plain }]
    ctxs := [(0, { Ctx.init with cqs := [(0, { CqSt.init with w := w })] })] }
theorem witness_RecordsAreWrittenWhenThereIsRoom : (ended 0).Inv
    ∧ (ended 0).cmd? ⟨0, 0, 3⟩ = some { cmd 1 [] with id := ⟨0, 0, 3⟩, ending := some Status.ok.plain }
    ∧ (ended 0).abortedBefore { cmd 1 [] with id := ⟨0, 0, 3⟩, ending := some Status.ok.plain } Status.ok.plain = false
    ∧ bitOf ((ended 0).rd (cqConfig 0 0)) 0 = true ∧ ((ended 0).cq 0 0).waiting = [] ∧ ((ended 0).cq 0 0).room = true
    ∧ ((ended 16).cq 0 0).room = false ∧ ((ended 15).cq 0 0).room = true := by
  refine ⟨inv_of (by decide +kernel), ?_, ?_, ?_, ?_, ?_, ?_, ?_⟩ <;> decide +kernel
def ring (f : CqSt → CqSt) : State := { open0 with ctxs := [(0, { Ctx.init with cqs := [(0, f CqSt.init)] })] }
theorem witness_WaitingRecordLeaves : (ring fun x => { x with waiting := [(zeros 128, false)] }).Inv
    ∧ ((ring fun x => { x with waiting := [(zeros 128, false)] }).cq 0 0).waiting = [(zeros 128, false)]
    ∧ ((ring fun x => { x with waiting := [(zeros 128, false)] }).cq 0 0).room = true
    ∧ ((ring fun x => { x with holdoffRunning := true, merged := true, holdoff := 1 }).cq 0 0).merged = true
    ∧ (({ (ring fun x => { x with holdoffRunning := true, merged := true, holdoff := 1 }) with
        pcie := { up.pcie with table := [(0, (0, 0, false))] } } : State).vector 0).2.2 = false := by
  refine ⟨inv_of (by decide +kernel), ?_, ?_, ?_, ?_⟩ <;> decide +kernel

/-! ### Witnesses: security, descriptors, observation -/

/-- The mailbox running a service whose request lies at host address 0. -/
def serving (code : Nat) (req : List Byte) (sec : SecSt → SecSt) : State :=
  ({ up with sec := sec { SecSt.init with running := some code } } : State).hostWrite 0 (leBytes 4 req.length ++ req)
def served (s : State) (code n : Nat) (req : List Byte) : Bool :=
  s.sec.running == some code && s.pcie.linkUp && !s.sec.errorState && !s.sec.dead
    && leValue (s.hostRead (s.rd (regDie0 .secReqAddr)) 4) == n && s.hostRead (s.rd (regDie0 .secReqAddr) + 4) n == req
theorem serves_of {s : State} {code n : Nat} {req : List Byte} (h : served s code n req = true) : s.Serves code n req := by
  simp only [served, Bool.and_eq_true, beq_iff_eq, Bool.not_eq_true'] at h
  exact ⟨h.1.1.1.1.1, h.1.1.1.1.2, h.1.1.1.2, h.1.1.2, h.1.2, h.2⟩
def same (x : SecSt) : SecSt := x
def owned (x : SecSt) : SecSt := { x with owner := true, session := true }

/-- The mailbox running a service whose request of `n` bytes is all zero. -/
def asking (code n : Nat) (sec : SecSt → SecSt) : State :=
  ({ up with sec := sec { SecSt.init with running := some code } } : State).hostWrite 0 (leBytes 4 n)
def body (s : State) (n : Nat) : List Byte := s.hostRead (s.rd (regDie0 .secReqAddr) + 4) n
def heard (s : State) (code n : Nat) : Bool :=
  s.sec.running == some code && s.pcie.linkUp && !s.sec.errorState && !s.sec.dead
    && leValue (s.hostRead (s.rd (regDie0 .secReqAddr)) 4) == n
theorem asks_of {s : State} {code n : Nat} (h : heard s code n = true) : s.Serves code n (body s n) := by
  simp only [heard, Bool.and_eq_true, beq_iff_eq, Bool.not_eq_true'] at h
  exact ⟨h.1.1.1.1, h.1.1.1.2, h.1.1.2, h.1.2, h.2, rfl⟩
theorem witness_StatusAndSessionServicesRespond : up.Inv ∧ (asking 1 0 same).Serves 1 0 (body (asking 1 0 same) 0)
    ∧ (asking 2 0 same).Serves 2 0 (body (asking 2 0 same) 0) ∧ (asking 3 64 same).Serves 3 64 (body (asking 3 64 same) 64)
    ∧ (asking 4 1600 same).Serves 4 1600 (body (asking 4 1600 same) 1600) ∧ (asking 4 1600 same).sec.session = false
    ∧ (asking 4 1600 owned).Serves 4 1600 (body (asking 4 1600 owned) 1600) ∧ (asking 4 1600 owned).sec.session = true
    ∧ (asking 5 1600 owned).Serves 5 1600 (body (asking 5 1600 owned) 1600) ∧ (asking 6 0 owned).Serves 6 0 (body (asking 6 0 owned) 0) :=
  ⟨up_inv, asks_of (by decide +kernel), asks_of (by decide +kernel), asks_of (by decide +kernel), asks_of (by decide +kernel), rfl,
    asks_of (by decide +kernel), rfl, asks_of (by decide +kernel), asks_of (by decide +kernel)⟩
def challenged (x : SecSt) : SecSt := { x with challenge := some ([], 800000000), ownerSlots := [[]] }
def full (x : SecSt) : SecSt := { x with ownerSlots := List.replicate 8 [] }

theorem witness_OwnerEnrolAndAuth : (asking 9 1793 same).Serves 9 1793 (body (asking 9 1793 same) 1793)
    ∧ (asking 9 1793 same).sec.ownerSlots = [] ∧ (asking 9 1793 full).Serves 9 1793 (body (asking 9 1793 full) 1793)
    ∧ (asking 9 1793 full).sec.ownerSlots.length = 8 ∧ (asking 7 0 same).Serves 7 0 (body (asking 7 0 same) 0)
    ∧ (asking 8 3073 challenged).Serves 8 3073 (body (asking 8 3073 challenged) 3073)
    ∧ (asking 8 3073 challenged).sec.ownerSlots.getLast? = some [] :=
  ⟨asks_of (by decide +kernel), rfl, asks_of (by decide +kernel), rfl, asks_of (by decide +kernel), asks_of (by decide +kernel), rfl⟩
def oneAlloc : Tab Ctx := [(63, { Ctx.init with allocs := [(0, ⟨0, 4096, true, true, 0⟩)] })]
theorem witness_ContextKeysNeedNoAllocations : (serving 0x0A [63, 0] owned).Serves 0x0A 2 [63, 0] ∧ (serving 0x0A [63, 1] owned).Serves 0x0A 2 [63, 1]
    ∧ ((serving 0x0A [63, 0] owned).ctx 63).allocs = []
    ∧ ({ serving 0x0A [63, 0] owned with ctxs := oneAlloc } : State).Serves 0x0A 2 [63, 0]
    ∧ up.memKey 63 = 0
    ∧ (({ up with mem := { up.mem with keySlots := up.mem.keySlots.set 63 1 } } : State).checkAllocSet
        (packed 128 [(0, 2, 0x12), (36, 4, 63), (40, 8, 0), (48, 8, 4096)])).ending = none :=
  ⟨serves_of (by decide +kernel), serves_of (by decide +kernel), rfl, serves_of (by decide +kernel), rfl, by decide +kernel⟩
theorem witness_ZeroiseNowActsAtOnce : (up.die 7).inService = true ∧ up.Accepts false (regDie0 .secZeroise)
    ∧ (serving 0x0C [0] same).Serves 0x0C 1 [0] ∧ (serving 0x0C [1] owned).Serves 0x0C 1 [1] ∧ (serving 0x0B [] same).Serves 0x0B 0 []
    ∧ up.boot.selfTestsPassed = true :=
  ⟨rfl, accepts_of (by decide +kernel), serves_of (by decide +kernel), serves_of (by decide +kernel), serves_of (by decide +kernel), rfl⟩

def frozen (f : FreezeSt → FreezeSt) (s : State) : State := { s with freeze := f s.freeze }
theorem witness_ObservationCommandsAct : (running 0x90 [(40, 8, 5)]).Runs okId 0x90 (cmd 0x90 [(40, 8, 5)]) ∧ (running 0x90 [(40, 8, 5)]).freezeDue = false
    ∧ (frozen (fun x => { x with armedT := some 0, armedBy := some okId }) (running 0x90 [])).freezeDue = true
    ∧ (frozen (fun x => { x with armedT := some 0, armedBy := some okId }) (running 0x90 [])).freeze.frozen = false
    ∧ (running 0x90 [(32, 1, 1)]).Runs okId 0x90 (cmd 0x90 [(32, 1, 1)]) ∧ cfOp (cmd 0x90 [(32, 1, 1)]).desc = 1
    ∧ (running 0x90 [(32, 1, 2)]).Runs okId 0x90 (cmd 0x90 [(32, 1, 2)]) ∧ cfOp (cmd 0x90 [(32, 1, 2)]).desc = 2 :=
  ⟨runs_of rfl rfl rfl (by decide), by decide, by decide, by decide, runs_of rfl rfl rfl (by decide), by decide +kernel,
    runs_of rfl rfl rfl (by decide), by decide +kernel⟩
theorem calm (op : Nat) (fs : List (Nat × Nat × Nat)) : (running op fs).Calm := by intro e h; cases h
theorem witness_WatchesSnapshotsAndRings : (running 0x91 [(32, 1, 0xF1)]).Runs okId 0x91 (cmd 0x91 [(32, 1, 0xF1)])
    ∧ twOp (cmd 0x91 [(32, 1, 0xF1)]).desc = 1 ∧ (running 0x92 []).Runs okId 0x92 (cmd 0x92 []) ∧ (running 0x92 []).snap.busy = false
    ∧ (running 0x92 []).Calm ∧ ({ running 0x92 [] with snap := ⟨true, some 0, some okId⟩ } : State).snap.atTime = some 0
    ∧ up.Accepts false (regDie0 .snapshotControl) ∧ up.Accepts false (regDie0 .faultRingBase) ∧ up.Accepts false (regDie0 .logRingBase)
    ∧ ringLog2Ok (up.fld (regDie0 .logControl) 21 18) = true :=
  ⟨runs_of rfl rfl rfl (by decide), by decide +kernel, runs_of rfl rfl rfl (by decide), rfl, calm _ _, rfl,
    accepts_of (by decide +kernel), accepts_of (by decide +kernel), accepts_of (by decide +kernel), by decide +kernel⟩

/-! ### Witnesses: counters, cells, groups -/

def ref5 : Nat := 5 + 2 ^ 12 + 2 ^ 20
/-- Counter 5 and barrier 5 of context 1 mapped, generation 1, at counter 9 and barrier 9 of die 7. -/
def mapped1 (x : Ctx) : Ctx :=
  { x with counters := [(5, ⟨1, true, false, 7, 9⟩)], barriers := [(5, ⟨1, true, false, 7, 9⟩)] }
def synced (value arrK arrK1 : Nat) (s : State) : State :=
  { s with
    ctxs := [(1, mapped1 Ctx.init)]
    dies := s.dies.map fun e => if e.1 = 7 then (7, { e.2 with
      counters := [(9, ⟨value, 1, 5⟩)], barriers := [(9, ⟨1, 5, 1, 2 ^ 32 - 1, arrK, arrK1, 2, ref5⟩)] }) else e }

theorem witness_CounterReachesTarget : reachedTarget 0 (2 ^ 32 - 1) = true ∧ reachedTarget 0 1 = false
    ∧ reachedTarget (2 ^ 31 - 1) 0 = true ∧ reachedTarget (2 ^ 31) 0 = false
    ∧ ({ Die.init with watches := [(0, ⟨1, ref5, 9, 4, .write 0 0, false⟩)], counters := [(9, ⟨4, 1, 5⟩)] } : Die).watches.get? 0
        = some ⟨1, ref5, 9, 4, .write 0 0, false⟩ := by decide +kernel
theorem witness_CountersChangeByAddition :
    let s := synced (2 ^ 32 - 1) 0 0 (running 0x50 [(32, 4, 0), (36, 4, ref5), (40, 4, 1)])
    let r := synced 3 0 0 (running 0x50 [(32, 4, 4), (36, 4, ref5), (56, 8, 0x1000)])
    s.Inv ∧ s.Runs okId 0x50 (cmd 0x50 [(32, 4, 0), (36, 4, ref5), (40, 4, 1)])
    ∧ syOp (cmd 0x50 [(32, 4, 0), (36, 4, ref5), (40, 4, 1)]).desc = 0 ∧ s.counterOf 1 ref5 = some (7, 9)
    ∧ (s.die 7).counters.get? 9 = some ⟨2 ^ 32 - 1, 1, 5⟩ ∧ s.counterOf 1 (ref5 + 2 ^ 12) = none
    ∧ syOp (cmd 0x50 [(32, 4, 4), (36, 4, ref5), (56, 8, 0x1000)]).desc = 4
    ∧ (match ({ r with ctxs := [(1, { mapped1 Ctx.init with allocs := [(0, ⟨0x1000, 4096, true, true, 0⟩)] })] } : State).allocJudge 1 0x1000 8 false true with
        | .ok _ => true | .error _ => false) = true
    ∧ ({ s with msgs := [⟨1, ref5, 1⟩] } : State).msgs = [⟨1, ref5, 1⟩] :=
  ⟨inv_of (by decide +kernel), runs_of rfl rfl rfl (by decide), by decide +kernel, by decide +kernel, by decide +kernel, by decide +kernel,
    by decide +kernel, by decide +kernel, rfl⟩
def watched (w : List (Nat × Watch)) (q : List WaitingReg) (s : State) : State :=
  s.updDie 7 fun d => { d with watches := w, waiting := q }
def watchOf (reached : Bool) (a : WatchAct) : Watch := ⟨1, ref5, 9, 4, a, reached⟩
theorem witness_WatchesRegisterAndFire :
    let s := synced 3 0 0 (running 0x50 [(32, 4, 2), (36, 4, ref5), (40, 4, 4)])
    let n := s.setFld ⟨.syncWatchQuota, 7, 1⟩ 12 0 0
    s.Runs okId 0x50 (cmd 0x50 [(32, 4, 2), (36, 4, ref5), (40, 4, 4)])
    ∧ syOp (cmd 0x50 [(32, 4, 2), (36, 4, ref5), (40, 4, 4)]).desc = 2 ∧ s.counterOf 1 ref5 = some (7, 9)
    ∧ s.watchEntry 7 1 = some 0 ∧ n.watchEntry 7 1 = none
    ∧ ((watched [(4095, watchOf true (.add ref5 1))] [] s).die 7).watches.get? 4095 = some (watchOf true (.add ref5 1))
    ∧ ((watched [(4095, watchOf false (.start okId 0))] [] s).die 7).watches.get? 4095 = some (watchOf false (.start okId 0))
    ∧ ((watched [] [⟨watchOf false (.write 0 0), some okId⟩] s).die 7).waiting[0]? = some ⟨watchOf false (.write 0 0), some okId⟩
    ∧ (watched [] [⟨watchOf false (.write 0 0), some okId⟩] s).watchEntry 7 1 = some 0 := by
  refine ⟨runs_of rfl rfl rfl (by decide), ?_, ?_, ?_, ?_, ?_, ?_, ?_, ?_⟩ <;> decide +kernel

/-- Round 2^32 − 1 of the barrier, whose next round is 0. -/
theorem witness_BarriersCountAndClose :
    let c := cmd 0x50 [(32, 4, 1), (36, 4, 5 + 2 ^ 8), (40, 4, 0)]
    let s := synced 3 1 0 (running 0x50 [(32, 4, 1), (36, 4, 5 + 2 ^ 8), (40, 4, 0)])
    s.Runs okId 0x50 c ∧ syOp c.desc = 1 ∧ s.barrierOf 1 (syRef c.desc) = some (7, 9)
    ∧ (s.die 7).barriers.get? 9 = some ⟨1, 5, 1, 2 ^ 32 - 1, 1, 0, 2, ref5⟩ ∧ u32 c.desc 40 = (2 ^ 32 - 1 + 1) % 2 ^ 32
    ∧ (synced 3 2 1 up).Inv ∧ ((synced 3 2 1 up).die 7).barriers = [(9, ⟨1, 5, 1, 2 ^ 32 - 1, 2, 1, 2, ref5⟩)]
    ∧ (∀ d, d < 7 → ((synced 3 2 1 up).die d).barriers = []) := by
  refine ⟨runs_of rfl rfl rfl (by decide), ?_, ?_, ?_, ?_, inv_of (by decide +kernel), ?_, ?_⟩ <;> decide +kernel
/-- Counter 4095 of context 63 to counter 4095 of die 7, and barrier 255. -/
theorem witness_MappingAdvancesTheGeneration :
    let m := cmd 0x51 [(32, 4, 63), (36, 4, 4095), (40, 4, 7 + 4095 * 8)]
    let b := cmd 0x51 [(32, 4, 1 + 64), (36, 4, 255), (40, 4, 7 + 255 * 8), (48, 4, 1), (52, 4, ref5)]
    let un := cmd 0x51 [(32, 4, 1 + 128), (36, 4, 5)]
    (running 0x51 [(32, 4, 63), (36, 4, 4095), (40, 4, 7 + 4095 * 8)]).Runs okId 0x51 m ∧ smUnmap m.desc = false
    ∧ up.mapViols m.desc = [] ∧ smBarrier m.desc = false ∧ (synced 3 0 0 up).mapViols b.desc = [] ∧ smBarrier b.desc = true
    ∧ up.mapViols b.desc ≠ [] ∧ smUnmap un.desc = true ∧ (up.smMap un.desc).mapped = false ∧ ((synced 3 0 0 up).smMap un.desc).mapped = true
    ∧ (synced 3 0 0 up).isRelease 1 4 = false ∧ smBarrier un.desc = false
    ∧ (synced 3 0 0 up).unmapWaits un.desc ((synced 3 0 0 up).smMap un.desc) = false
    ∧ (watched [(0, watchOf false (.write 0 0))] [] (synced 3 0 0 up)).unmapWaits un.desc ((synced 3 0 0 up).smMap un.desc) = true := by
  refine ⟨runs_of rfl rfl rfl (by decide), ?_, ?_, ?_, ?_, ?_, ?_, ?_, ?_, ?_, ?_, ?_, ?_, ?_⟩ <;> decide +kernel
def handing (scrubbing : Bool) (ids : List CmdId) : State :=
  { running 0xA0 [] with
    cells := [(831, { Cell.init with handovers := [(31, ⟨some 0, ids, scrubbing⟩)] })]
    cmds := [{ cmd 0xA0 [] with awaits := [831 * 32 + 31] }] }
theorem witness_HandoversScrubAndEnd : (handing false [okId]).Inv ∧ ((handing false [okId]).cell 831).handovers.get? 31 = some ⟨some 0, [okId], false⟩
    ∧ ((handing false [okId]).cmd? okId).isSome = true ∧ (handing false [⟨1, 2, 4⟩]).cmd? ⟨1, 2, 4⟩ = none
    ∧ ((handing true []).cell 831).placing = false
    ∧ (handing true []).cmd? okId = some { cmd 0xA0 [] with awaits := [831 * 32 + 31] } := by
  refine ⟨inv_of (by decide +kernel), ?_, ?_, ?_, ?_, ?_⟩ <;> decide +kernel
/-- Member 767 alone, its banks all to go to context 63. -/
def forming (dissolve : Nat) : Cmd := { cmd 0xA0 [(32, 4, 255 + 63 * 256 + dissolve * 2 ^ 15), (36, 4, 2 ^ 32 - 1)] with
  records := [(1, packed 96 [(95, 1, 128)])] }
theorem witness_GroupsFormAndDissolve :
    let s : State := { up with cmds := [forming 0], cells := [(831, { Cell.init with logical := some 767 })] }
    let g : State := { s with cmds := [forming 1], groups := [(255, ⟨63, false, [767], 0, 0, []⟩)] }
    s.Inv ∧ s.Runs okId 0xA0 (forming 0) ∧ gfDissolve (forming 0).desc = false ∧ g.Inv ∧ g.Runs okId 0xA0 (forming 1)
    ∧ gfDissolve (forming 1).desc = true ∧ g.groupBusy 255 okId = false ∧ s.groupBusy 255 okId = false
    ∧ ({ g with
        cmds := [forming 1, { cmd 1 [] with id := ⟨0, 0, 0⟩ }]
        ctxs := [(0, { Ctx.init with queues := [(0, { QueueSt.init with group := 255 })] })] } : State).groupBusy 255 okId = true
    ∧ g.groups.Pairwise (fun a b => a.1 < b.1) := by
  refine ⟨inv_of (by decide +kernel), runs_of rfl rfl rfl (by decide), ?_, inv_of (by decide +kernel), runs_of rfl rfl rfl (by decide),
    ?_, ?_, ?_, ?_, by decide⟩ <;> decide +kernel
/-- Cell (die 7, row 7, column 12), number 831. -/
def cell831 : Nat := 7 * 128 + 7 * 16 + 12
def housing (x : Cell) (op : Nat) : State := { running op [(32, 4, cell831)] with cells := [(831, x)] }
theorem witness_CellsReturnAndAreFenced :
    let fenced := housing { Cell.init with mode := .fenced } 0xA1
    let pooled := housing { Cell.init with inPool := true } 0xA2
    let placed := housing { Cell.init with logical := some 767 } 0xA2
    fenced.Inv ∧ fenced.Runs okId 0xA1 (cmd 0xA1 [(32, 4, cell831)]) ∧ bodyCell (cmd 0xA1 [(32, 4, cell831)]).desc = some 831
    ∧ (fenced.die (831 / 104)).inService = true ∧ (fenced.cell 831).mode = .fenced ∧ (fenced.cell 831).fusedOut = false
    ∧ pooled.Runs okId 0xA2 (cmd 0xA2 [(32, 4, cell831)]) ∧ (pooled.cell 831).mode ≠ .fenced ∧ (pooled.cell 831).inPool = true
    ∧ (placed.cell 831).logical = some 767 ∧ 767 / 96 = 831 / 104 ∧ (placed.lslot 767).draining = false
    ∧ placed.spare 7 = none ∧ ({ placed with cells := [(830, { Cell.init with inPool := true }), (831, { Cell.init with logical := some 767 })] } : State).spare 7 = some 830
    ∧ ((housing { Cell.init with formerly := some 767 } 1).cell 831).formerly = some 767 := by
  refine ⟨inv_of (by decide +kernel), runs_of rfl rfl rfl (by decide), ?_, ?_, ?_, ?_, runs_of rfl rfl rfl (by decide), ?_, ?_, ?_, ?_,
    ?_, ?_, ?_, ?_⟩ <;> decide +kernel

/-! ### Witnesses: the updater and the steps -/

/-- A read answers and a write lands: both given as Bools so that a state can be tried. -/
def isOk {ε α : Type} : Except ε α → Bool
  | .ok _ => true
  | .error _ => false
def okAnd {ε α : Type} (x : Except ε α) (p : α → Bool) : Bool :=
  match x with
  | .ok a => p a
  | .error _ => false
theorem ok_and {ε α : Type} {x : Except ε α} {p : α → Bool} (h : okAnd x p = true) : ∃ a, x = .ok a ∧ p a = true := by
  cases x with
  | ok a => exact ⟨a, rfl, h⟩
  | error e => cases h
theorem some_and {α : Type} {x : Option α} {p : α → Bool} (h : x.any p = true) : ∃ a, x = some a ∧ p a = true := by
  cases x with
  | some a => exact ⟨a, rfl, h⟩
  | none => cases h

/-- 64 KiB at device address 0 that contexts 0 and 1 may use. -/
def roomy (s : State) : State :=
  { s with ctxs := [(0, { Ctx.init with allocs := [(0, ⟨0, 65536, true, true, 0⟩)] }), (1, { Ctx.init with allocs := [(0, ⟨0, 65536, true, true, 0⟩)] })] }

/-- SGD with momentum over 1,024 elements at 0x1000, its schedule at 0x3000; SKIP_IDLE set. -/
def sgd : List Byte := packed 256 [(0, 1, 8), (1, 1, 1), (4, 4, 7), (8, 8, 1024), (16, 8, 0x1000), (24, 8, 0x2000), (48, 8, 0x3000)]
/-- BLOCK_PRECOND. -/
def precond : List Byte := packed 256 [(0, 1, 3), (1, 1, 1), (8, 8, 4096)]
def groupOf (r : List Byte) (steps : List UStep) : UGroup :=
  { record := r, slow := false, collect := 5, bc := 0, position := 0, appliedGen := 0, mismatch := false, bcLong := false,
    lastStatus := 0, lastStep := 0, stepAmax := 0, normClips := 0, refreshStep := 0, refreshes := [], steps := steps }
/-- Group 4095 of die 7. -/
def grouped (g : UGroup) (s : State) : State := s.updUpd 7 fun u => { u with groups := [(4095, g)] }
def gset (op : Nat) : Cmd := { cmd 0x80 [(32, 2, 4095), (34, 1, op + 56), (40, 8, 0x4000), (48, 4, 6)] with records := [(1, sgd)] }
def gsetting (op : Nat) : State := roomy { up with cmds := [gset op] }
theorem witness_GroupSetDefinesAndChangesGroups :
    (∀ op, op < 5 → (gsetting op).Runs okId 0x80 (gset op) ∧ gsOp (gset op).desc = op ∧ gsDie (gset op).desc = 7 ∧ gsGroup (gset op).desc = 4095)
    ∧ (gsetting 0).groupReach sgd = [] ∧ isOk ((gsetting 0).readBytes ((gsetting 0).groupAcc 1 0x3000 272) 0x3000 272) = true
    ∧ scheduleBad (packed 272 [(20, 1, 1), (148, 1, 1)]) false = false
    ∧ (groupOf sgd [{ UStep.init 5 with accepted := true }]).inUse = true ∧ (groupOf sgd []).inUse = false
    ∧ ((grouped (groupOf sgd []) (gsetting 1)).ugroup 7 4095) = some (groupOf sgd [])
    ∧ (gRec sgd).isPre = false ∧ (gRec precond).isPre = true ∧ stepAfter 6 5 = true ∧ stepAfter 5 5 = false
    ∧ isOk ((gsetting 4).addrJudge 1 0x4000 64 false true) = true := by
  refine ⟨?_, ?_, ?_, ?_, ?_, ?_, ?_, ?_, ?_, ?_, ?_, ?_⟩
  · intro op h
    have e : (∀ o, o < 5 → (hOpcode (gset o).desc == 0x80) = true ∧ gsOp (gset o).desc = o ∧ gsDie (gset o).desc = 7 ∧ gsGroup (gset o).desc = 4095) := by
      decide +kernel
    exact ⟨runs_of rfl rfl rfl (e op h).1, (e op h).2⟩
  all_goals decide +kernel
def testing (u : UnitId) (by' : Option CmdId) (s : State) : State := { s with faults := { s.faults with tests := [(u, by', 0)] } }
def staged (steps : List UStep) (bs : List Staged) : State :=
  { (grouped (groupOf sgd steps) up).updUpd 7 fun u => { u with staged := bs, journalSize := 4160 * 1024 } with
    step := { StepSt.init with opened := true, oldest := 5 } }
def zeroBlock : Staged := ⟨4095, 5, 0, List.replicate 32 0, true, true, false⟩
theorem witness_StagedBlocksLeaveInOrder :
    let u : UStep := { UStep.init 5 with accepted := true, sched := some ⟨0, 0, 0, 0⟩ }
    let s := staged [u] [zeroBlock, zeroBlock]
    s.Inv ∧ (s.updDieOf 7).staged[0]? = some zeroBlock ∧ (s.updDieOf 7).staged[1]? = some zeroBlock
    ∧ s.unitOn 7 4 = true ∧ (testing ⟨4, 7, 0⟩ none s).unitOn 7 4 = false
    ∧ s.behind 7 zeroBlock.group 1 = true ∧ s.behind 7 zeroBlock.group 0 = false ∧ s.mayApply 5 = true ∧ s.mayApply 6 = false
    ∧ (s.ugroup 7 4095).isSome = true ∧ stepAfter 5 5 = false ∧ s.journalRoom 7 4095 5 0 32 = true
    ∧ (groupOf sgd [u]).step? 5 = some u ∧ (groupOf sgd [u]).mapDue u = false ∧ (gRec sgd).isPre = false ∧ (gRec sgd).skipIdle = true := by
  refine ⟨inv_of (by decide +kernel), ?_, ?_, ?_, ?_, ?_, ?_, ?_, ?_, ?_, ?_, ?_, ?_, ?_, ?_⟩ <;> decide +kernel

/-- The step configuration of a follower, and of a master of 24 modules: 4,160 × 1,024 bytes for each journal and ring. -/
def openRec (n : Nat) : List Byte :=
  packed 448 ([(0, 4, 5), (4, 4, n), (8, 2, 2), (10, 2, 16), (12, 2, 0xFFFF)]
    ++ ((upTo 8).map fun d => [(16 + 48 * d, 8, 2 ^ 23 * 2 * d), (24 + 48 * d, 8, 4160 * 1024), (32 + 48 * d, 8, 2 ^ 23 * (2 * d + 1)),
        (40 + 48 * d, 8, 4160 * 1024)]).flatten)
def stepping (op t : Nat) (f : StepSt → StepSt) : State :=
  { up with cmds := [cmd 0x81 [(32, 1, op), (36, 4, t), (48, 4, 2)]], step := f { StepSt.init with opened := true, oldest := 5 } }
def committed5 (x : StepSt) : StepSt :=
  { x with last := some ⟨4, true, false, 2, 0, true⟩, prev := some ⟨3, false, false, 1, 0, true⟩, oldest := 5, committed := some 4 }
def spacious : State := { up with ctxs := [(0, { Ctx.init with allocs := [(0, ⟨0, 2 ^ 27, true, true, 0⟩)] })] }
def deciding (commit span : Bool) : State :=
  stepping 3 5 fun x => { x with last := some ⟨5, commit, span, if commit then 0 else 1, 0, false⟩, votes := [5] }
theorem witness_StepsOpenVoteWaitAndClose :
    (stepping 2 5 id).Runs okId 0x81 (cmd 0x81 [(32, 1, 2), (36, 4, 5), (48, 4, 2)])
    ∧ spacious.openViols (openRec 0) = [] ∧ spacious.step.opened = false ∧ scOp (cmd 0x81 [(32, 1, 0)]).desc = 0
    ∧ (stepping 1 0 fun x => { x with votes := [5] }).anyUndecided = true ∧ (stepping 1 0 id).anyUndecided = false
    ∧ scOp (cmd 0x81 [(32, 1, 2), (36, 4, 5)]).desc = 2 ∧ scSkip (cmd 0x81 [(32, 1, 2), (36, 4, 5)]).desc = false
    ∧ scSkip (cmd 0x81 [(32, 1, 10), (36, 4, 5)]).desc = true ∧ (stepping 2 5 id).decided 5 = false ∧ (stepping 2 4 id).decided 4 = true
    ∧ (stepping 3 4 committed5).decisionOf 4 = some (true, 2) ∧ (stepping 3 3 committed5).decisionOf 3 = some (false, 1)
    ∧ (stepping 3 5 committed5).decisionOf 5 = none ∧ (stepping 3 2 committed5).decisionOf 2 = none
    ∧ (stepping 4 0 id).step.opened = true ∧ ({ stepping 4 0 id with time := { TimeSt.init with role := .master } } : State).time.role = .master
    ∧ (stepping 0 0 fun x => { x with voteFrame := some 0, timeout := 16 }).step.voteFrame = some 0
    ∧ 0 + 16 ≤ ({ up with time := { TimeSt.init with pips := 16 * 1024 } } : State).frame
    ∧ (stepping 0 0 fun x => { x with voteFrame := some 0, timeout := 16 }).decisionHeld = false
    ∧ (deciding true false).decisionHeld = true
    ∧ (stepping 0 0 fun x => { x with voteFrame := some 0, timeout := 16 }).Inv := by
  refine ⟨runs_of rfl rfl rfl (by decide +kernel), ?_, rfl, ?_, ?_, ?_, ?_, ?_, ?_, ?_, ?_, ?_, ?_, ?_, ?_, rfl, rfl, rfl, ?_, ?_, ?_,
    inv_of (by decide +kernel)⟩ <;> decide +kernel
theorem witness_DecisionsCommitOrReverse : (deciding true false).Inv ∧ (deciding true false).dueDecision = some ⟨5, true, false, 0, 0, false⟩
    ∧ (deciding false true).Inv ∧ (deciding false true).dueDecision = some ⟨5, false, true, 1, 0, false⟩ := by
  refine ⟨inv_of (by decide +kernel), ?_, inv_of (by decide +kernel), ?_⟩ <;> decide +kernel
def recordOf (c : Bool) : DiffRec := ⟨0, 4, 4095, 1, false, 7, 0, 0x2000, 1, zeros 4096, c⟩
def draining : State := roomy (up.updUpd 7 fun u => { u with journal := [recordOf true], ringBase := 0x8000, ringSize := 4160 * 2 })
theorem witness_CommittedRecordsDrainIntoTheRing :
    let full := draining.wr (regDie .exportHead 7) 2
    let s := { draining with step := { StepSt.init with opened := true, exportFlow := 0xFFFF } }
    s.Inv ∧ ((s.updDieOf 7).journal.find? fun x => x.committed) = some (recordOf true) ∧ s.drainRoom 7 = true
    ∧ s.unitOn 7 5 = true ∧ (testing ⟨5, 7, 0⟩ none s).unitOn 7 5 = false
    ∧ ({ full with step := s.step } : State).drainRoom 7 = false ∧ s.ready = true
    ∧ full.Accepts false (regDie .exportRelease 7) ∧ full.rd (regDie .exportRelease 7) ≤ 2 ∧ 2 ≤ full.rd (regDie .exportHead 7)
    ∧ full.rd (regDie .exportHead 7) < 3 ∧ full.Accepts false (regDie .foreignRelease 7) := by
  refine ⟨inv_of (by decide +kernel), rfl, ?_, ?_, ?_, ?_, rfl, accepts_of (by decide +kernel), ?_, ?_, ?_, accepts_of (by decide +kernel)⟩ <;> decide +kernel
def comparing (op : Nat) (step : StepSt → StepSt) : State :=
  roomy { up with cmds := [cmd 0x83 [(32, 1, op), (36, 4, 4), (40, 8, 0x4000), (48, 8, 64), (56, 2, 4095 + 7 * 4096), (58, 1, 1)]]
                  step := step { StepSt.init with opened := true, oldest := 5 } }
def comparer (op : Nat) : Cmd := cmd 0x83 [(32, 1, op), (36, 4, 4), (40, 8, 0x4000), (48, 8, 64), (56, 2, 4095 + 7 * 4096), (58, 1, 1)]
theorem witness_ReplicasAreComparedAndRepaired :
    let s (op : Nat) := grouped (groupOf sgd []) (comparing op committed5)
    (∀ op, op < 4 → (s op).Runs okId 0x83 (comparer op) ∧ dcOp (comparer op).desc = op) ∧ (s 0).Inv
    ∧ (s 0).decisionOf 4 = some (true, 2) ∧ (s 0).committedAfter 4 = false ∧ (s 0).drainsLeft 4 = false ∧ (s 0).anyUndecided = false
    ∧ (comparing 0 committed5).moduleDigests = [] ∧ (comparing 0 committed5).decisionOf 3 = some (false, 1)
    ∧ (comparing 0 id).decisionOf 5 = none ∧ (comparing 0 id).decided 5 = false ∧ (comparing 0 id).committedAfter 5 = false
    ∧ (comparing 1 fun x => { x with votes := [5] }).anyUndecided = true
    ∧ (s 1).dcPlaneOf (comparer 1).desc = .ok (gRec sgd, 0, 1, 0x2000)
    ∧ (match (s 1).dcPlaneOf (comparer 1).desc with | .ok x => x.2 == (0, 1, 0x2000) | .error _ => false) = true
    ∧ (((s 2).updUpd 7 fun u => { u with journalSize := 4160 }).updDieOf 7).owed < (((s 2).updUpd 7 fun u => { u with journalSize := 4160 }).updDieOf 7).capacity
    ∧ (∀ k, k < 8 → isOk ((s 3).ringAfter k 4) = true) ∧ stepAfter 5 4 = true
    ∧ ((s 3).updDieOf 7).releasedStep = none := by
  refine ⟨?_, inv_of (by decide +kernel), ?_, ?_, ?_, ?_, ?_, ?_, ?_, ?_, ?_, ?_, rfl, ?_, ?_, ?_, ?_, rfl⟩
  · intro op h
    have e : (∀ o, o < 4 → (hOpcode (comparer o).desc == 0x83) = true ∧ dcOp (comparer o).desc = o) := by decide +kernel
    exact ⟨runs_of rfl rfl rfl (e op h).1, (e op h).2⟩
  all_goals decide +kernel
def evaluating (op : Nat) (f : StepSt → StepSt) : State :=
  { up with cmds := [cmd 0x82 [(32, 1, op), (36, 4, 4), (40, 4, 1)]], step := f { StepSt.init with opened := true, oldest := 5 } }
theorem witness_EvaluationWindowsOpenAndClose :
    (evaluating 0 committed5).Runs okId 0x82 (cmd 0x82 [(32, 1, 0), (36, 4, 4), (40, 4, 1)])
    ∧ (evaluating 1 committed5).Runs okId 0x82 (cmd 0x82 [(32, 1, 1), (36, 4, 4), (40, 4, 1)])
    ∧ evOp (cmd 0x82 [(32, 1, 0), (36, 4, 4), (40, 4, 1)]).desc = 0 ∧ evOp (cmd 0x82 [(32, 1, 1), (36, 4, 4), (40, 4, 1)]).desc = 1
    ∧ u32 (cmd 0x82 [(32, 1, 0), (36, 4, 4), (40, 4, 1)]).desc 36 = 4 ∧ (evaluating 0 committed5).step.window = none
    ∧ (evaluating 0 committed5).decisionOf 4 = some (true, 2) ∧ (evaluating 0 committed5).appliedAfter 4 = false
    ∧ (grouped (groupOf sgd [{ UStep.init 5 with applied := [(0, 32)] }]) (evaluating 0 committed5)).appliedAfter 4 = true
    ∧ (evaluating 0 committed5).decisionOf 3 = some (false, 1) ∧ (evaluating 0 id).decisionOf 5 = none
    ∧ (evaluating 0 id).decided 5 = false
    ∧ (evaluating 1 fun x => { x with window := some (4, 1024) }).step.window = some (4, 1024)
    ∧ (evaluating 0 fun x => { x with window := some (4, 1) }).openWindow = some (4, 1) ∧ (evaluating 0 committed5).openWindow = none
    ∧ (evaluating 1 fun x => { x with window := some (4, 0) }).now = 0 := by
  refine ⟨runs_of rfl rfl rfl (by decide +kernel), runs_of rfl rfl rfl (by decide +kernel), ?_, ?_, ?_, rfl, ?_, ?_, ?_, ?_, ?_, ?_, rfl, ?_,
    ?_, ?_⟩ <;> decide +kernel

/-! ### Witnesses: the fabric -/

/-- A RAW tensor of `n` bytes at device address 0x8000, in slot 0 of context 1. -/
def rawAt (n : Nat) : DescSlot := { DescSlot.init with valid := true, record := packed 128 [(0, 1, 0x90), (16, 4, n), (80, 8, 0x8000)] }
/-- An MXFP8 tensor of one row of 32 elements, in slot 1. -/
def blockAt : DescSlot := { DescSlot.init with valid := true, record := packed 128 [(0, 1, 0x12), (16, 4, 32), (80, 8, 0xC000), (88, 8, 0xD000)] }
def tensors (n : Nat) (s : State) : State := s.updCtx 1 fun x => { x with slots := [(0, rawAt n), (1, blockAt)] }
def sending (op : Nat) (fs : List (Nat × Nat × Nat)) : State := tensors 497 (roomy (running op fs))
def sendFs : List (Nat × Nat × Nat) := [(36, 2, 7), (38, 1, 1), (56, 8, 497), (64, 4, ref5), (68, 4, 1)]
def signalFs : List (Nat × Nat × Nat) := [(32, 4, 2 ^ 32 - 1), (36, 2, 7), (38, 1, 3), (64, 4, ref5), (68, 4, 1)]
def zeroFs : List (Nat × Nat × Nat) := [(40, 4, 2 ^ 32 - 1), (48, 2, 7), (50, 2, 0xFFFF), (54, 1, 1)]
def blockFs : List (Nat × Nat × Nat) := [(32, 4, 1), (40, 4, 2 ^ 32 - 1), (48, 2, 7), (50, 2, 0xFFFF)]
theorem witness_SendsPlaceTheirMessages :
    (sending 0x70 signalFs).Inv ∧ (sending 0x70 signalFs).sendsBefore (cmd 0x70 signalFs) = false
    ∧ (sending 0x70 signalFs).Runs okId 0x70 (cmd 0x70 signalFs) ∧ fsType (cmd 0x70 signalFs).desc = 3 ∧ fsSignal (cmd 0x70 signalFs).desc = true
    ∧ (sending 0x70 sendFs).Runs okId 0x70 (cmd 0x70 sendFs) ∧ fsType (cmd 0x70 sendFs).desc = 1 ∧ fsSignal (cmd 0x70 sendFs).desc = true
    ∧ (∃ x bs, (sending 0x70 sendFs).tensRun 1 0 = some x ∧ bs ≠ []
        ∧ (sending 0x70 sendFs).readBytes ((sending 0x70 sendFs).accOf okId x) (x.base + u64 (cmd 0x70 sendFs).desc 48) 497 = .ok bs)
    ∧ (sending 0x71 zeroFs).Runs okId 0x71 (cmd 0x71 zeroFs) ∧ cTx (cmd 0x71 zeroFs).desc ≠ 0xFFFF ∧ cUpdate (cmd 0x71 zeroFs).desc = false
    ∧ cZero (cmd 0x71 zeroFs).desc = true ∧ (sending 0x71 zeroFs).resultSlots (cmd 0x71 zeroFs) = 0
    ∧ (sending 0x71 blockFs).Runs okId 0x71 (cmd 0x71 blockFs) ∧ cZero (cmd 0x71 blockFs).desc = false ∧ cErr (cmd 0x71 blockFs).desc = noHandle
    ∧ (∃ x bs, (sending 0x71 blockFs).tensRun 1 (cSrc (cmd 0x71 blockFs).desc) = some x ∧ bs ≠ []
        ∧ (sending 0x71 blockFs).storedBlocks ((sending 0x71 blockFs).accOf okId x) x = .ok bs ∧ (gradSlots bs).length ≤ 65536) := by
  refine ⟨inv_of (by decide +kernel), ?_, runs_of rfl rfl rfl (by decide +kernel), ?_, ?_, runs_of rfl rfl rfl (by decide +kernel), ?_, ?_, ?_,
    runs_of rfl rfl rfl (by decide +kernel), ?_, ?_, ?_, ?_, runs_of rfl rfl rfl (by decide +kernel), ?_, ?_, ?_⟩
  case refine_6 =>
    obtain ⟨x, e, h⟩ := some_and (show ((sending 0x70 sendFs).tensRun 1 0).any (fun x => okAnd ((sending 0x70 sendFs).readBytes
      ((sending 0x70 sendFs).accOf okId x) (x.base + u64 (cmd 0x70 sendFs).desc 48) 497) (fun bs => !bs.isEmpty)) = true by decide +kernel)
    obtain ⟨bs, r, h⟩ := ok_and h
    exact ⟨x, bs, e, (by rintro rfl; cases h), r⟩
  case refine_13 =>
    obtain ⟨x, e, h⟩ := some_and (show ((sending 0x71 blockFs).tensRun 1 (cSrc (cmd 0x71 blockFs).desc)).any (fun x => okAnd
      ((sending 0x71 blockFs).storedBlocks ((sending 0x71 blockFs).accOf okId x) x)
      (fun bs => !bs.isEmpty && decide ((gradSlots bs).length ≤ 65536))) = true by decide +kernel)
    obtain ⟨bs, r, h⟩ := ok_and h
    simp only [Bool.and_eq_true, decide_eq_true_eq] at h
    exact ⟨x, bs, e, (by rintro rfl; cases h.1), r, h.2⟩
  all_goals decide +kernel

/-- An empty table of one frame: its head, and `m` bytes of zeros, 71,680 in an image. -/
def emptyHead : List Byte := packed 64 [(0, 4, 1), (4, 2, 1)]
def emptyImage (m : Nat) : List Byte := emptyHead ++ zeros m
theorem words64_zeros (n m : Nat) : words64 n (zeros m) = List.replicate n 0 := by
  induction n generalizing m with
  | zero => rfl
  | succ n ih =>
    have t : ∀ k : Nat, leValue (List.replicate k 0#8) = 0 := by
      intro k
      induction k with
      | zero => rfl
      | succ k ih => rw [List.replicate_succ, leValue, ih]; rfl
    have d : List.drop 8 (zeros m) = zeros (m - 8) := by simp [zeros]
    rw [words64, d, ih]
    simp [zeros, t, List.replicate_succ]
theorem numbered_zeros (n : Nat) (e : Nat × Nat) (h : e ∈ numbered (List.replicate n 0)) : e.2 = 0 :=
  List.eq_of_mem_replicate (List.of_mem_zip h).2
theorem empty_words (m n o : Nat) (h : 64 ≤ o) : words64 n ((emptyImage m).drop o) = List.replicate n 0 := by
  have l : emptyHead.length = 64 := by decide +kernel
  have e : (emptyImage m).drop o = zeros (m - (o - 64)) := by
    rw [emptyImage, List.drop_append, List.drop_eq_nil_of_le (by omega), l]
    simp [zeros]
  rw [e, words64_zeros]
theorem empty_head (m k : Nat) (h : k ≤ 64) : (emptyImage m).take k = emptyHead.take k := by
  have l : emptyHead.length = 64 := by decide +kernel
  rw [emptyImage, List.take_append_of_le_length (by omega)]
theorem field_of_take (bs : List Byte) (o n k : Nat) (h : o + n ≤ k) : fieldN (bs.take k) o n = fieldN bs o n := by
  have e : ((bs.take k).drop o).take n = (bs.drop o).take n := by
    rw [List.drop_take, List.take_take, Nat.min_eq_left (by omega)]
  simp only [fieldN, sliceB, e]
theorem empty_field (m o n : Nat) (h : o + n ≤ 64) : fieldN (emptyImage m) o n = fieldN emptyHead o n := by
  rw [← field_of_take _ o n 64 h, empty_head m 64 (by omega), field_of_take _ o n 64 h]
theorem empty_frames (m : Nat) : imgFrames (emptyImage m) = 1 ∧ imgFlows (emptyImage m) = 0 ∧ u32 (emptyImage m) 0 = 1 := by
  refine ⟨?_, ?_, ?_⟩ <;> simp only [imgFrames, imgFlows, u16, u32] <;> rw [empty_field _ _ _ (by omega)] <;> decide +kernel
theorem empty_heads (m : Nat) : headFaults (emptyImage m) = [] := by
  have h := empty_frames m
  have r : rsvdOff [bytesSpan 0 8] emptyHead = none := by decide +kernel
  have l : emptyHead.take 64 = emptyHead := by decide +kernel
  rw [headFaults, h.1, h.2.1, h.2.2, empty_head m 64 (by omega), l, r]
  rfl
theorem empty_table (m : Nat) : imgTable (emptyImage m) = ⟨1, 1, [], [], []⟩ := by
  have h := empty_frames m
  have z (n : Nat) {α : Type} (f : Nat × Nat → Option α) (hf : ∀ e : Nat × Nat, e.2 = 0 → f e = none) :
      (numbered (List.replicate n 0)).filterMap f = [] := by
    rw [List.filterMap_eq_nil_iff]
    intro e he
    exact hf e (numbered_zeros n e he)
  have t : imgTx (emptyImage m) = 64 := by rw [imgTx, h.2.1]
  have r : imgRx (emptyImage m) = 35904 := by rw [imgRx, t, h.1]
  rw [imgTable, imgRecords, imgTxWords, imgRxWords, t, r, h.1, h.2.1, h.2.2, empty_words _ _ _ (by omega), empty_words _ _ _ (by omega),
    empty_words _ _ _ (by omega), z _ _ (by intro e he; simp [he]), z _ _ (by intro e he; simp [he])]
  rfl
theorem empty_faults (dies : Nat → Bool) (m : Nat) : leastOf (imageFaults dies (emptyImage m)) = none := by
  have h := empty_frames m
  have t : imgTx (emptyImage m) = 64 := by rw [imgTx, h.2.1]
  have r : imgRx (emptyImage m) = 35904 := by rw [imgRx, t, h.1]
  have z (n : Nat) (f : Nat × Nat → List Nat) : ((numbered (List.replicate n 0)).map fun e => if e.2 = 0 then [] else f e).flatten = [] := by
    rw [List.flatten_eq_nil_iff]
    intro l hl
    obtain ⟨e, he, rfl⟩ := List.mem_map.mp hl
    simp [numbered_zeros n e he]
  have hd := empty_heads m
  simp only [imageFaults, hd, imgRecords, imgTxWords, imgRxWords, t, r, h.1, h.2.1]
  rw [empty_words _ _ _ (by omega), empty_words _ _ _ (by omega), empty_words _ _ _ (by omega), z, z]
  rfl
/-- A read that goes on into zeros. -/
theorem read_zeros (s : State) (x : Acc) (a : Nat) :
    ∀ n, (∀ i, i < n → s.readByte x (a + i) = .ok 0) → s.readBytes x a n = .ok (zeros n) := by
  intro n
  induction n generalizing a with
  | zero => intro _; rfl
  | succ n ih =>
    intro h
    have one : s.readByte x a = .ok 0 := by simpa using h 0 (by omega)
    rw [State.readBytes, one, ih (a + 1) (fun i hi => by rw [Nat.add_assoc, Nat.add_comm 1]; exact h (i + 1) (by omega))]
    simp [zeros, List.replicate_succ]
theorem read_append (s : State) (x : Acc) (m : Nat) (cs : List Byte) : ∀ (n a : Nat) (bs : List Byte),
    s.readBytes x a n = .ok bs → s.readBytes x (a + n) m = .ok cs → s.readBytes x a (n + m) = .ok (bs ++ cs) := by
  intro n
  induction n with
  | zero => intro a bs h k; cases h; simpa using k
  | succ n ih =>
    intro a bs h k
    rw [State.readBytes] at h
    rw [Nat.add_right_comm, State.readBytes]
    split at h
    · cases h
    · split at h
      · cases h
      · rename_i b hb _ t ht
        cases h
        simp only [ih (a + 1) t ht (by rw [Nat.add_assoc, Nat.add_comm 1]; exact k)]
        rfl

/-- A table image in host memory, and the command that loads it. -/
def loading : State :=
  let s := roomy (running 0x72 [])
  { s with
    ctxs := [(1, { Ctx.init with slots := [(0, { DescSlot.init with valid := true, record := packed 128 [(0, 1, 0x90), (16, 4, 71744), (80, 8, hostBase)] })] })]
    mem := { MemSt.init with host := [(0, 1), (4, 1)] } }
theorem loading_head (x : Acc) : loading.readBytes x hostBase 64 = .ok emptyHead := by
  obtain ⟨hd, e, h⟩ := ok_and (show okAnd (loading.readBytes x hostBase 64) (fun b => b == emptyHead) = true by rfl)
  rw [beq_iff_eq] at h
  rw [← h]
  exact e
theorem loading_reads (x : Acc) : loading.readBytes x hostBase 71744 = .ok (emptyImage 71680) := by
  have z (i : Nat) (h : i < 71680) : loading.readByte x (hostBase + 64 + i) = .ok 0 := by
    have p : placeOf loading.mem.layout (hostBase + 64 + i) = .host (64 + i) := by
      have b : hostBase = 2 ^ 51 := rfl
      have g : gddrBase + 8 * 2 ^ 35 ≤ 2 ^ 51 := by decide
      have r : sramBase + 8 * 2 ^ 29 ≤ 2 ^ 51 := by decide
      rw [placeOf, if_neg (show ¬hostBase + 64 + i < gddrBase by omega), if_neg (show ¬hostBase + 64 + i < gddrBase + 8 * 2 ^ 35 by omega),
        if_neg (show ¬(sramBase ≤ hostBase + 64 + i ∧ hostBase + 64 + i < sramBase + 8 * 2 ^ 29) by omega),
        if_pos (show hostBase ≤ hostBase + 64 + i ∧ hostBase + 64 + i < 2 * hostBase by omega),
        show hostBase + 64 + i - hostBase = 64 + i by omega]
    have m : memGet loading.mem.host (64 + i) = 0 := by
      show memGet [(0, 1), (4, 1)] (64 + i) = 0
      have n : 64 + i ≠ 4 := by omega
      simp [memGet, unlisted, n]
    rw [State.readByte, State.reach, p]
    simp [m]
  exact read_append loading x 71680 _ 64 hostBase emptyHead (loading_head x) (read_zeros loading x (hostBase + 64) 71680 z)

/-- A table of flow 7, epoch 3, of context 1: port 0 slot 1 sends it, port 0 slot 112 delivers it to unit `u`. -/
def tableOf (id u : Nat) (x : TxEnt) : SlotTable :=
  ⟨id, 1, [⟨7, 3, 1, 2, u, 7⟩], [(entryNo 0 0 1, x)], [(entryNo 0 39 112, ⟨1, false, 0, 0, 7, 0⟩)]⟩
def origin : TxEnt := ⟨1, false, false, 0, 0, 7⟩
def forward : TxEnt := ⟨2, false, false, 1, 5, 7⟩
/-- Frame 100, pip `at`, with the table in force since frame 0 and ports 0 and 39 UP. -/
def woven (u at' : Nat) (x : TxEnt) : State :=
  let p : PortSt := { PortSt.init with mode := .up, rxKey := some ⟨[], 0⟩, rxLive := true, txKey := some ⟨[], 1⟩, ctl := [⟨99, true, 9⟩], seen := 99 * 128 + 112 }
  { up with
    time := { TimeSt.init with pips := BitVec.ofNat 64 (102400 + at') }
    fabric := { FabricSt.init with active := some (tableOf 9 u x), ports := [(0, p), (39, p)] } }
def message : OutMsg := ⟨some okId, 1, 7, 3, 3, [(0, signalPayload ref5 1)], 0, [], 0, none, none, none⟩
def fab (f : FabricSt → FabricSt) (s : State) : State := { s with fabric := f s.fabric }
def switching (frame : Nat) (failover : Bool) : State :=
  fab (fun f => { f with standby := some (tableOf 10 0 origin), pendingSwitch := some ⟨frame, failover, some okId⟩ })
    { woven 1 0 origin with cmds := [cmd 0x73 [(32, 8, 124), (40, 4, 10)]] }
theorem witness_SlotTablesLoadAndSwitch :
    (loading.Runs okId 0x72 (cmd 0x72 []) ∧ ∃ x, loading.tensRun 1 (u32 (cmd 0x72 []).desc 32) = some x ∧ loading.fabric.pendingSwitch = none
      ∧ 64 ≤ x.ext 0
      ∧ loading.readBytes (loading.accOf okId x) x.base 64 = .ok ((emptyImage 71680).take 64)
      ∧ headFaults (emptyImage 71680) = [] ∧ imgBytes (emptyImage 71680) ≤ x.ext 0
      ∧ loading.readBytes (loading.accOf okId x) x.base (imgBytes (emptyImage 71680)) = .ok (emptyImage 71680)
      ∧ leastOf (imageFaults (fun d => (loading.die d).inService) (emptyImage 71680)) = none
      ∧ (imgTable (emptyImage 71680)).excess (fun d => (loading.die d).inService) = none)
    ∧ (switching 124 false).Runs okId 0x73 (cmd 0x73 [(32, 8, 124), (40, 4, 10)])
    ∧ (fab (fun f => { f with pendingSwitch := none }) (switching 124 false)).fabric.pendingSwitch = none
    ∧ u64 (cmd 0x73 [(32, 8, 124), (40, 4, 10)]).desc 32 = (switching 124 false).frame + 24
    ∧ (switching 123 false).cutOff = false ∧ (switching 122 false).cutOff = true
    ∧ (switching 101 true).frame < 101 ∧ 100 ≤ (switching 100 true).frame
    ∧ (switching 100 true).Runs okId 0x73 (cmd 0x73 [(32, 8, 124), (40, 4, 10)]) ∧ (switching 100 true).cmds.length = 1
    ∧ (fab (fun f => { f with retired := f.active, switchFrame := 78 }) (woven 1 0 origin)).fabric.retired.isSome = true := by
  refine ⟨⟨runs_of rfl rfl rfl (by decide +kernel), _, rfl, rfl, ?_, ?_, empty_heads _, ?_, ?_, empty_faults _ _, ?_⟩,
    runs_of rfl rfl rfl (by decide +kernel), rfl, ?_, ?_, ?_, ?_, ?_, runs_of rfl rfl rfl (by decide +kernel), rfl, rfl⟩
  case refine_2 =>
    rw [empty_head _ _ (by omega), show emptyHead.take 64 = emptyHead by decide +kernel]
    exact loading_head _
  case refine_3 => rw [imgBytes, imgTx, (empty_frames _).1, (empty_frames _).2.1]; decide +kernel
  case refine_4 =>
    rw [imgBytes, imgTx, (empty_frames _).1, (empty_frames _).2.1]
    exact loading_reads _
  case refine_5 => rw [empty_table]; decide +kernel
  all_goals decide +kernel
theorem witness_SlotsLeaveByTheirEntries :
    let o := fab (fun f => { f with out := [message] }) (woven 1 9 origin)
    o.Inv ∧ o.sendsNow 0 1 = true ∧ (woven 1 8 origin).sendsNow 0 1 = false ∧ (woven 1 0 origin).sendsNow 39 0 = true
    ∧ (woven 1 1008 origin).sendsNow 39 112 = true ∧ (woven 1 1007 origin).sendsNow 39 112 = false
    ∧ o.portUp 0 = true ∧ o.tableIn 100 = some (tableOf 9 1 origin, 0) ∧ (tableOf 9 1 origin).txAt 0 0 1 = some origin
    ∧ (tableOf 9 1 origin).txAt 0 39 112 = none ∧ (tableOf 9 1 forward).txAt 0 0 1 = some forward
    ∧ (woven 1 9 forward).sendsNow 0 1 = true ∧ (fab (fun f => { f with inFrame := 100, inSlots := [⟨1, 5, { idleSlot with kind := 1 }⟩] }) (woven 1 9 forward)).inAt 1 5 = { idleSlot with kind := 1 }
    ∧ o.activeFlow 7 = some ⟨7, 3, 1, 2, 1, 7⟩ ∧ o.cutOff = false ∧ message.departs 0 100 = true ∧ o.retainedOn 0 < 8192 := by
  refine ⟨inv_of (by decide +kernel), ?_, ?_, ?_, ?_, ?_, ?_, ?_, ?_, ?_, ?_, ?_, ?_, ?_, ?_, ?_, ?_⟩ <;> decide +kernel

def pres (u : Nat) (rx : RxFlow) : State := fab (fun f => { f with rx := [(7, { rx with epoch := 3 })] }) (fab (fun f => { f with
    ports := f.ports.map fun e => (e.1, { e.2 with seen := 100 * 128 + 111 }) }) (woven u 1008 origin))
/-- A DATA slot of flow 7 that left in frame 98, and its bytes as port 39 finds them in slot 112, under the key of `woven`. -/
def carried (type : Nat) (pl : List Byte) : Slot := ⟨1, type, 7, 3, 1, 0, 0, 0, 98, padTo 512 pl⟩
def arriving (type : Nat) (pl : List Byte) : RxSlot := ⟨true, 0, sealBytes (some ⟨[], 0⟩) false 0 112 (carried type pl)⟩
def writePl : List Byte := packed 512 [(0, 8, 0x1000), (8, 2, 496)]
theorem witness_SlotsArriveOrAreMissed :
    let s := pres 1 RxFlow.init
    let h := (carried 3 (signalPayload ref5 1)).header false
    let sl := slotOf h (padTo 512 (signalPayload ref5 1))
    let w := slotOf ((carried 1 writePl).header false) writePl
    s.Inv ∧ s.presentsNow 39 112 = true ∧ (pres 1 RxFlow.init).presentsNow 39 111 = false ∧ s.tableIn s.frame = some (tableOf 9 1 origin, 0)
    ∧ (tableOf 9 1 origin).rxAt 0 39 112 = some ⟨1, false, 0, 0, 7, 0⟩ ∧ s.activeFlow 7 = some ⟨7, 3, 1, 2, 1, 7⟩ ∧ (s.rxFlow 7).epoch = 3
    ∧ sl.kind = 1 ∧ sl.type = 3 ∧ sl.flow = 7 ∧ sl.hops < 6 ∧ sl.epoch = 3 ∧ sl.isResend = false ∧ bitsOf (u8 h 0) 7 5 = 0
    ∧ (s.port 39).rxKey = some ⟨[], 0⟩
    ∧ openBytes (some ⟨[], 0⟩) (ctrOf 112 (s.rd (portReg .rxFrameCtr 39))) 112 (arriving 3 (signalPayload ref5 1)).bytes
        = some (h, padTo 512 (signalPayload ref5 1))
    ∧ bitOf (u8 (arriving 3 (signalPayload ref5 1)).bytes 0) 4 = (s.port 39).rxPhase ∧ s.fabric.lastFailover = false
    ∧ (s.port 39).tableNamed s.frame ((s.tableIn (s.frame - 1)).elim 0 (fun x => x.1.id)) = true
    ∧ (s.rxFlow 7).dropping ≠ some sl.sent ∧ (s.rxFlow 7).copyOf sl = false
    ∧ ((pres 1 { RxFlow.init with accepted := [(98, sl)] }).rxFlow 7).copyOf sl = true ∧ s.fabric.waiters = []
    ∧ w.type = 1 ∧ u16 w.payload 8 = 496 ∧ u8 w.payload 10 = 0
    ∧ okAnd ((roomy (pres 0 RxFlow.init)).allocJudge 1 (u64 w.payload 0) 496 false true) (fun a =>
        ((roomy (pres 0 RxFlow.init)).writeBytes a (u64 w.payload 0) (sliceB w.payload 16 496)).2.isNone) = true := by
  refine ⟨inv_of (by decide +kernel), ?_, ?_, ?_, ?_, ?_, ?_, ?_, ?_, ?_, ?_, ?_, ?_, ?_, rfl, openBytes_sealBytes _ _ _ _ _ (padTo_length _ _), ?_, ?_,
    ?_, ?_, ?_, ?_, rfl, ?_, ?_, ?_, ?_⟩ <;> decide +kernel
def missed94 : Missed := ⟨90, 39, 112, 92, none, none, true⟩
/-- HOPS 2: a slot that left in frame 90 is lost after frame 99; frame 100 has come. -/
theorem witness_MissedSlotsAreLost :
    let s := pres 1 { RxFlow.init with signals := [⟨signalPayload ref5 1, [], false⟩, ⟨signalPayload ref5 1, [(39, 112, 92)], true⟩], missed := [missed94, { missed94 with frame := 91 }] }
    s.Inv ∧ s.activeFlow 7 = some ⟨7, 3, 1, 2, 1, 7⟩ ∧ (s.rxFlow 7).signals = [⟨signalPayload ref5 1, [], false⟩, ⟨signalPayload ref5 1, [(39, 112, 92)], true⟩]
    ∧ (s.rxFlow 7).epoch = 3
    ∧ ((s.rxFlow 7).missed.find? fun x => x.frame == 90) = some missed94 ∧ 90 + 3 * 2 + 3 < s.frame ∧ s.frame ≤ 91 + 3 * 2 + 3 := by
  refine ⟨inv_of (by decide +kernel), ?_, ?_, ?_, ?_, ?_, ?_⟩ <;> decide +kernel
def mastering (f : StepSt → StepSt) : State :=
  { woven 1 0 origin with
    time := { TimeSt.init with pips := BitVec.ofNat 64 102400, frameDone := 99, role := .master }
    step := f { StepSt.init with opened := true, oldest := 5, participants := 1 } }
def setPort (p : Nat) (f : PortSt → PortSt) (s : State) : State := s.updPort p f
/-- A control slot, and its bytes before any key is installed. -/
def controlOf (fs : List (Nat × Nat × Nat)) : Slot := ⟨3, 0, 0, 0, 0, 0, 0, 0, 0, padTo 512 (packed 512 fs)⟩
def controlRx (fs : List (Nat × Nat × Nat)) : RxSlot := ⟨true, 0, sealBytes none false 0 0 (controlOf fs)⟩
/-- Port 39 in MEASURING, which has sent a control slot at pip 1024. -/
def measuring : State := setPort 39 (fun x => { x with mode := .measuring, txTimes := [1024] }) up
def ctlTimes : List (Nat × Nat × Nat) := [(0, 8, 2048), (8, 8, 1024), (16, 8, 2048)]
theorem witness_FrameBoundariesFormTheField :
    (mastering id).time.frameDone < (mastering id).frame ∧ (mastering id).decisionPending = false
    ∧ (mastering fun x => { x with reasons := [(5, 1)] }).consField.reasons ≠ 0
    ∧ (mastering fun x => { x with votes := [5] }).consField.ready = 1 ∧ (mastering id).consField.ready ≠ 1 ∧ (mastering id).consField.reasons = 0
    ∧ ({ mastering id with time := { (mastering id).time with frameDone := 100 } } : State).frame ≤ 100
    ∧ (woven 1 0 origin).Inv ∧ 3 ≤ ((setPort 39 (fun x => { x with mode := .authenticating }) up).port 39).mode.code ∧ (up.port 39).mode.code < 3
    ∧ bitsOf (u8 ((controlOf []).header false) 0) 7 5 = 0 ∧ bitsOf (u8 ((controlOf []).header false) 0) 3 0 = 3
    ∧ controlReserved (padTo 512 (packed 512 [])) = false
    ∧ (measuring.openPhase 39 0 (controlRx ctlTimes).bytes).2 = some ((controlOf ctlTimes).header false, padTo 512 (packed 512 ctlTimes))
    ∧ controlReserved (padTo 512 (packed 512 ctlTimes)) = false ∧ (measuring.port 39).mode = .measuring
    ∧ delayOffset (measuring.port 39).txTimes (padTo 512 (packed 512 ctlTimes)) (2048 + 900) = some (962, 62)
    ∧ ((setPort 39 (fun x => { x with mode := .up, rxKey := none }) (woven 1 0 origin)).port 39).mode = .up
    ∧ ((setPort 39 (fun x => { x with mode := .up, rxKey := none }) (woven 1 0 origin)).openPhase 39 0 (controlRx []).bytes).2
        = some ((controlOf []).header false, padTo 512 (packed 512 [])) := by
  refine ⟨?_, ?_, ?_, ?_, ?_, ?_, ?_, inv_of (by decide +kernel), ?_, ?_, ?_, ?_, ?_, ?_, ?_, ?_, ?_, ?_, ?_⟩
  case refine_13 => exact openBytes_sealBytes none false 0 0 (controlOf ctlTimes) (padTo_length _ _)
  case refine_18 => exact openBytes_sealBytes none false 0 0 (controlOf []) (padTo_length _ _)
  all_goals decide +kernel

/-- Port 39 in a mode entered at pip `since`, at pip `now`. -/
def porting (m : PortMode) (reason since now : Nat) (s : State) : State :=
  setPort 39 (fun x => { x with mode := m, reason, since }) { s with time := { s.time with pips := BitVec.ofNat 64 now } }
def noded : State := up.wr (regDie0 .nodeReg) 1
theorem witness_PortsComeUpAndGoDown :
    let on := noded.setFld (portReg .portControl 39) 0 0 1
    let retry (n : Nat) := porting .down 7 0 n (on.setFld (portReg .portControl 39) 15 8 1)
    noded.Inv ∧ noded.Accepts false (portReg .portControl 39) ∧ bitOf 1 0 = true ∧ bitOf (noded.rd (portReg .portControl 39)) 0 = false
    ∧ (noded.port 39).mode = .down ∧ (noded.die (39 / 5)).inService = true ∧ noded.node ≠ 0xFFFF ∧ noded.sec.errorState = false ∧ noded.ready = true
    ∧ on.Accepts true (portReg .portControl 39) ∧ bitOf (on.rd (portReg .portControl 39)) 0 = true
    ∧ PortMode.training.limit = some (400000000, 2) ∧ PortMode.measuring.limit = some (65536, 5)
    ∧ ((porting .measuring 0 0 65535 on).now < 0 + 65536) ∧ (0 + 65536 ≤ (porting .measuring 0 0 65536 on).now)
    ∧ ((retry 0).port 39).mode = .down ∧ ((retry 0).port 39).reason ∈ [2, 3, 5, 6, 7] ∧ (retry 0).fld (portReg .portControl 39) 0 0 = 1
    ∧ 0 + 8000000 * max 1 ((retry 8000000).fld (portReg .portControl 39) 15 8) ≤ (retry 8000000).now
    ∧ ((setPort 39 (fun x => { x with mode := .up, badControls := 8 }) on).port 39).mode = .up
    ∧ (on.setFld (regDie0 .failoverControl) 0 0 1).fld (regDie0 .failoverControl) 0 0 = 1 := by
  refine ⟨inv_of (by decide +kernel), accepts_of (by decide +kernel), ?_, ?_, ?_, ?_, ?_, ?_, ?_, accepts_of (by decide +kernel), ?_, ?_, ?_, ?_,
    ?_, ?_, ?_, ?_, ?_, ?_, ?_⟩ <;> decide +kernel
def linked (f : PortSt → PortSt) : State :=
  setPort 39 (fun x => f { x with mode := .up, txKey := some ⟨[], 1⟩, rxKey := some ⟨[], 2⟩, peerNode := 2 }) (noded.setFld (portReg .portControl 39) 0 0 1)
theorem witness_LinkKeysAreRenewed :
    (linked id).Inv ∧ (linked id).Accepts false (portReg .portControl 39) ∧ bitOf 3 1 = true ∧ bitOf 3 0 = true
    ∧ bitOf ((linked id).rd (portReg .portControl 39)) 0 = true ∧ ((linked id).port 39).mode = .up ∧ ((linked id).port 39).rekey = none
    ∧ (linked id).mayRekey 39 = false ∧ (linked fun x => { x with asked := true }).mayRekey 39 = true ∧ (linked id).node < ((linked id).port 39).peerNode
    ∧ ((linked fun x => { x with rekey := some ⟨none, [], true, some 0⟩ }).port 39).rekey = some ⟨none, [], true, some 0⟩
    ∧ (linked fun x => { x with rekey := some ⟨none, [], true, some 0⟩ }).midFrame 39 = false
    ∧ ((linked fun x => { x with oldRx := some ⟨⟨[], 2⟩, 0, 0⟩ }).port 39).oldRx = some ⟨⟨[], 2⟩, 0, 0⟩
    ∧ 2 ^ 48 ≤ ((linked id).wr (portReg .txFrameCtr 39) (2 ^ 48)).rd (portReg .txFrameCtr 39)
    ∧ ((linked id).wr (portReg .txFrameCtr 39) (2 ^ 48 - 1)).rd (portReg .txFrameCtr 39) < 2 ^ 48 := by
  refine ⟨inv_of (by decide +kernel), accepts_of (by decide +kernel), ?_, ?_, ?_, ?_, ?_, ?_, ?_, ?_, ?_, ?_, ?_, ?_, ?_⟩ <;> decide +kernel
def following (frame : Nat) (f : TimeSt → TimeSt) (s : State) : State :=
  { s with time := f { s.time with role := .follower, pips := BitVec.ofNat 64 (1024 * frame) } }
theorem witness_TimeFollowsTheRole :
    let m := (up.setFld (regDie0 .timeControl) 1 0 1).setFld (regDie0 .timeControl) 13 8 39
    m.Inv ∧ roleOf (m.fld (regDie0 .timeControl) 1 0) ≠ m.time.role ∧ roleOf (up.fld (regDie0 .timeControl) 1 0) = up.time.role
    ∧ m.fld (regDie0 .timeControl) 13 8 = 39
    ∧ (following 5 (fun t => { t with holdover := true }) (setPort 39 (fun x => { x with mode := .up, peerLocked := true }) m)).portUp 39 = true
    ∧ (following 5 (fun t => { t with holdover := true }) (setPort 39 (fun x => { x with mode := .up, peerLocked := true }) m)).time.holdover = true
    ∧ (following 32768 (fun t => { t with locked := true }) m).time.lastLockedFrame + 32768 ≤ (following 32768 (fun t => { t with locked := true }) m).frame
    ∧ (following 32767 (fun t => { t with locked := true }) m).frame < (following 32767 (fun t => { t with locked := true }) m).time.lastLockedFrame + 32768 := by
  refine ⟨inv_of (by decide +kernel), ?_, ?_, ?_, ?_, ?_, ?_, ?_⟩ <;> decide +kernel

/-! ### Witnesses: power, resets, start-up -/

def powered (f : PowerSt → PowerSt) : State := { up with power := f up.power }
theorem witness_PowerRequestsSetThePoint :
    (powered fun p => { p with throttled := true }).Inv ∧ (powered fun p => { p with throttled := true }).power.lowest ≠ 28
    ∧ (powered fun p => { p with caps := [(0, 14)] }).Inv ∧ (powered fun p => { p with caps := [(0, 14)] }).power.lowest = 14
    ∧ up.power.supplies = true ∧ up.power.point = up.power.lowest ∧ up.boot.firmwareOn = true ∧ up.power.loopsHeld = false
    ∧ up.power.caps.get? 0 = none ∧ halfPoint 28 = 4
    ∧ (powered fun p => { p with caps := [(0, 14), (1, 14), (2, 14)] }).power.caps.get? 2 = some 14
    ∧ (powered fun p => { p with stretching := true, stretchedEdges := 16 }).power.stretching = true
    ∧ (powered fun p => { p with supplies := false }).power.supplies = false := by
  refine ⟨inv_of (by decide +kernel), ?_, inv_of (by decide +kernel), ?_, ?_, ?_, ?_, ?_, ?_, ?_, ?_, ?_, ?_⟩ <;> decide +kernel
theorem witness_PerstGatesOnlyTheLinkBeforeReady : State.reset.boot.wasReady = false ∧ State.reset.pcie.perstAsserted = true := ⟨rfl, rfl⟩
def booting (g : Stage) (f : BootSt → BootSt) : State := { State.reset with boot := f { BootSt.init with stage := g } }
theorem witness_ResetsClearWhatTheyName :
    up.Inv ∧ up.Accepts false (regDie0 .resetControl) ∧ 0xA5A5 % 65536 = 0xA5A5 ∧ 0xA5A4 % 65536 ≠ 0xA5A5 ∧ up.ready = true
    ∧ up.boot.wasReady = true ∧ up.pcie.linkUp = true ∧ (booting .failed id).boot.stage = .failed
    ∧ ({ booting .rom id with pcie := { PcieSt.init with linkUp := true } } : State).Accepts false (regDie0 .resetControl)
    ∧ (booting .rom id).inSequence = true ∧ (booting .rom id).boot.coldSeq = true ∧ (booting .rom id).ready = false
    ∧ (powered fun p => { p with modResetHigh := false, supplies := false }).power.modResetHigh = false
    ∧ (powered fun p => { p with inputOk := false, supplies := false }).power.inputOk = false ∧ up.power.inputOk = true
    ∧ up.power.modResetHigh = true := by
  refine ⟨up_inv, accepts_of (by decide +kernel), ?_, ?_, ?_, ?_, ?_, ?_, accepts_of (by decide +kernel), ?_, ?_, ?_, ?_, ?_, ?_, ?_⟩ <;>
    decide +kernel
def recovering (len : Nat) : State :=
  ({ booting .rom (fun b => { b with recovery := true }) with pcie := { PcieSt.init with linkUp := true } }).wr (regDie0 .fwMailboxLength) len
theorem witness_StartUpRunsItsStages :
    State.reset.power.supplies = true ∧ State.reset.power.modResetHigh = true ∧ State.reset.power.stopped = false ∧ State.reset.boot.stage = .power
    ∧ (booting .rom id).boot.firmwareOn = false ∧ (booting .rom id).boot.recovery = false ∧ (booting .setup id).boot.setupImage = []
    ∧ (booting .selfTest id).Inv ∧ (0 : Nat) ∉ (⟨true, true, [7], [831], [], []⟩ : StageReport).dieFails
    ∧ (booting .memory id).boot.stage = .memory
    ∧ 2 ≤ ((booting .map id).chooseDies []).length ∧ ((booting .map fun b => { b with failedDies := [1, 2, 3, 4, 5, 6, 7] }).chooseDies []).length < 2
    ∧ up.Accepts false (regDie .setupLock 7) ∧ (recovering 2048).Inv ∧ (recovering 2048).Accepts false (regDie0 .fwMailboxControl)
    ∧ (recovering 2048).rd (regDie0 .fwMailboxLength) = 2048 ∧ 2048 ≤ 2048 + 2 ^ 24 ∧ (recovering 2047).rd (regDie0 .fwMailboxLength) < 2048
    ∧ (recovering 2048).imageAccepted (packed 16 [(0, 4, 0x38574652), (4, 2, 1)]) 2048 true = true
    ∧ (recovering 2048).imageAccepted [] 2048 true = false
    ∧ (booting .rom fun b => { b with flashWriting := some [] }).boot.flashWriting = some [] := by
  refine ⟨?_, ?_, ?_, ?_, ?_, ?_, ?_, inv_of (by decide +kernel), ?_, ?_, ?_, ?_, accepts_of (by decide +kernel), inv_of (by decide +kernel),
    accepts_of (by decide +kernel), ?_, ?_, ?_, ?_, ?_, ?_⟩ <;> decide +kernel

/-! ### Witnesses: tensors -/

/-- A tensor of `rows` rows of `cols` elements of format `fmt` (its code of Table 8-3), rows `stride` bytes apart, at byte `base` of the
commons of die 7. -/
def tensorAt (fmt cols rows stride base aux : Nat) : DescSlot :=
  { DescSlot.init with valid := true, record := packed 128 [(0, 1, fmt + 0x20), (12, 4, 0x3F800000), (16, 4, cols), (20, 4, rows), (48, 8, stride),
      (80, 8, sramBase + 7 * 2 ^ 29 + 0x18000000 + base), (88, 8, aux)] }
def rawCommons (n base : Nat) : DescSlot :=
  { DescSlot.init with valid := true, record := packed 128 [(0, 1, 0x90), (16, 4, n), (80, 8, sramBase + 7 * 2 ^ 29 + 0x18000000 + base)] }
/-- BF16, 2:8 along dimension 0, 8 rows of 16; its other buffer 0x1000 bytes on. -/
def sparseCommons (base : Nat) : DescSlot :=
  { DescSlot.init with valid := true, record := packed 128 [(0, 1, 0x21), (1, 1, 2), (12, 4, 0x3F800000), (16, 4, 16), (20, 4, 8), (48, 8, 64),
      (80, 8, sramBase + 7 * 2 ^ 29 + 0x18000000 + base), (88, 8, sramBase + 7 * 2 ^ 29 + 0x18000000 + base + 0x1000)] }
/-- Slots 0 and 1: BF16, 2 rows of 16; slot 2: FP32, 2 rows of 2; slot 3: UINT32, 1 row of 2; slots 4, 5 and 8: FP32, 2 rows of 2;
slots 6 and 7: 2 rows of 1, FP32 and UINT32. -/
def shelf : Tab DescSlot :=
  [(0, tensorAt 1 16 2 32 0x1000 0), (1, tensorAt 1 16 2 32 0x2000 0), (2, tensorAt 0 2 2 16 0x3000 0), (3, tensorAt 12 2 1 16 0x4000 0),
   (4, tensorAt 0 2 2 16 0x5000 0), (5, tensorAt 0 2 2 16 0x6000 0),
   (6, tensorAt 0 1 2 16 0x7000 0), (7, tensorAt 12 1 2 16 0x8000 0), (8, tensorAt 0 2 2 16 0x9000 0),
   (9, rawCommons 512 0xA000), (10, rawCommons 512 0xB000), (11, sparseCommons 0xC000), (12, rawCommons 8 0xE000), (13, rawCommons 8 0xE010), (14, rawCommons 272 0xF000)]
def shelved (s : State) : State := (roomy s).updCtx 1 fun x => { x with slots := shelf }
/-- LEFT 0, RIGHT 1, OUT 2, no list and no program; `segs` segments. -/
def prodFs (segs : Nat) (hold : Nat) : List (Nat × Nat × Nat) :=
  [(32, 4, 0), (36, 4, 1), (40, 4, 2), (44, 4, 2 ^ 32 - 1), (48, 4, 2 ^ 32 - 1), (52, 4, 2 ^ 10 * (segs - 1) + hold * 2 ^ 17), (68, 4, 2 ^ 32 - 1), (76, 4, 2 ^ 32 - 1)]
def prodCmd (segs hold : Nat) (f : Cmd → Cmd) : Cmd := f { cmd 0x20 (prodFs segs hold) with cells := [767] }
def producing (segs hold : Nat) (f : Cmd → Cmd) : State :=
  shelved { up with cmds := [prodCmd segs hold f], cells := [(831, { Cell.init with logical := some 767 })]
                    dies := up.dies.set 7 { Die.init with inService := true, slots := [(95, { LSlot.init with phys := some 103, inService := true })] } }
def begun (c : Cmd) : Cmd := { c with begun := true }
def flown (c : Cmd) : Cmd :=
  { begun c with run := { c.run with tiles := [(0, { TileSt.init with home := some 831, opened := true, acc := List.replicate 4 0, flying := [(1, (767, 0, List.replicate 4 0))] })] } }
def geoThen (s : State) (c : Cmd) (p : Geo → Bool) : Bool := (s.geo okId c.desc c.records).any p
theorem witness_ProductsOfferAndRunTasks :
    (producing 1 0 id).Runs okId 0x20 (prodCmd 1 0 id) ∧ (prodCmd 1 0 id).run.stop = none ∧ (prodCmd 1 0 id).begun = false
    ∧ geoThen (producing 1 0 id) (prodCmd 1 0 id) (fun g => decide (g.tasks = 1) && !g.b.holdOut
        && okAnd ((producing 1 0 id).productPass okId g) (fun o => o.isNone)
        && okAnd ((producing 1 0 id).writeScale okId g.o g.b.step) (fun r => r.1.isSome)) = true
    ∧ geoThen (producing 1 1 id) (prodCmd 1 1 id) (fun g => g.b.holdOut && okAnd ((producing 1 1 id).productPass okId g) (fun o => o.isNone)) = true
    ∧ (producing 1 0 begun).logicalOf 831 = some 767 ∧ ((producing 1 0 begun).cell 831).tasks.length < 2
    ∧ geoThen (producing 1 0 begun) (prodCmd 1 0 begun) (fun g => (prodCmd 1 0 begun).runFor g 767 == [0]) = true
    ∧ ((producing 1 0 begun).mayDraw 767 (prodCmd 1 0 begun)).isSome = true
    ∧ geoThen (producing 1 0 begun) (prodCmd 1 0 begun) (fun g => (g.tiles[0]?).any fun t => (producing 1 0 begun).staleTile okId g t 0 == none) = true
    ∧ (producing 1 0 id).logicalOf 830 = none
    ∧ geoThen (producing 2 0 begun) (prodCmd 2 0 begun) (fun g => decide (g.tasks = 2) && (g.tiles[0]?).any fun t =>
        okAnd ((producing 2 0 begun).taskStart okId g t TileSt.init 0) (fun a => a.isEmpty)
          && okAnd ((producing 2 0 begun).segment okId g t 0 none []) (fun o => !o.saturated)
          && okAnd ((producing 2 0 begun).segment okId g t 1 none []) (fun o => !o.saturated)) = true
    ∧ (((prodCmd 2 0 flown).run.tiles.getD 0 TileSt.init).flying.get? 1) = some (767, 0, List.replicate 4 0)
    ∧ ((producing 2 0 flown).lslot 767).inc = 0
    ∧ geoThen (producing 2 0 flown) (prodCmd 2 0 flown) (fun g => !(addPartial g.pair.2 (List.replicate 4 0) (List.replicate 4 0)).2
        && ((prodCmd 2 0 flown).run.tiles.getD 0 TileSt.init).ownDone == false) = true
    ∧ (((producing 2 0 flown).updLslot 767 fun x => { x with inc := 1 }).lslot 767).inc ≠ 0
    ∧ ((producing 2 0 flown).updLslot 767 fun x => { x with inc := 1 }).Inv := by
  refine ⟨runs_of rfl rfl rfl (by decide +kernel), rfl, rfl, ?_, ?_, ?_, ?_, ?_, ?_, ?_, ?_, ?_, ?_, ?_, ?_, ?_, inv_of (by decide +kernel)⟩ <;> decide +kernel

/-! ### Witnesses: faults and memory -/

def cellU : UnitId := ⟨0, 7, 103⟩
def linkU : UnitId := ⟨7, 0, 0⟩
theorem witness_UnitErrorsAreTestedAndReplayed :
    let busy : State := { producing 1 0 begun with cells := [(831, { Cell.init with logical := some 767, tasks := [⟨okId, 0, 0⟩], mode := .running })] }
    up.Inv ∧ up.ready = true ∧ up.unitThere cellU = true ∧ up.tested cellU = false ∧ up.unitThere ⟨0, 7, 104⟩ = false
    ∧ up.unitThere linkU = true ∧ up.unitThere ⟨5, 1, 0⟩ = true ∧ (testing cellU none up).tested cellU = true
    ∧ (testing cellU none up).faults.tests.find? (fun x => x.1 == cellU) = some (cellU, none, 0)
    ∧ (testing ⟨1, 7, 0⟩ (some okId) up).faults.tests.find? (fun x => x.1 == ⟨1, 7, 0⟩) = some (⟨1, 7, 0⟩, some okId, 0)
    ∧ (up.cell 831).logical = none ∧ up.fld (regDie0 .faultControl) 0 0 = 1 ∧ (up.die 7).inService = true
    ∧ busy.Inv ∧ busy.unitThere cellU = true ∧ busy.cmds = [prodCmd 1 0 begun] ∧ (busy.cell 831).tasks = [⟨okId, 0, 0⟩]
    ∧ geoThen busy (prodCmd 1 0 begun) (fun g => decide (g.b.segs = 1) && decide (0 < g.tasks)) = true := by
  refine ⟨up_inv, ?_, ?_, ?_, ?_, ?_, ?_, ?_, ?_, ?_, ?_, ?_, ?_, inv_of (by decide +kernel), ?_, ?_, ?_, ?_⟩ <;> decide +kernel
theorem witness_DiesAndLinksAreLost :
    up.Inv ∧ up.ready = true ∧ State.reset.ready = false ∧ (up.die 7).inService = true ∧ up.pcie.linkUp = true ∧ State.reset.pcie.linkUp = false
    ∧ up.boot.firmwareOn = true ∧ State.reset.boot.firmwareOn = false
    ∧ (({ up with dies := [] } : State).die 7).inService = false
    ∧ isOpcode 0x20 (cmd 1 []).desc = false ∧ 767 / 96 = 7 := by
  refine ⟨up_inv, ?_, ?_, ?_, ?_, ?_, ?_, ?_, ?_, ?_, ?_⟩ <;> decide +kernel
def lockedUp : State := up.wr (regDie .setupLock 7) 1
theorem witness_MemoryIsScrubbedAndRepaired :
    let rate := up.wr ⟨.partHbm, 7 * 16 + 15, 0⟩ 1
    up.Inv ∧ up.ready = true ∧ (up.cell 831).fusedOut = false ∧ (up.cell 831).mode ≠ .fenced ∧ (up.die (831 / 104)).inService = true
    ∧ up.mem.poison = [] ∧ up.tested (cellUnit 831) = false
    ∧ (placeOf up.mem.layout 0).ceReg.isSome = true ∧ (up.keyOf (placeOf up.mem.layout 0)).isSome = true
    ∧ (placeOf up.mem.layout gddrBase).ceReg.isSome = true
    ∧ (running 0xB0 [(32, 8, 4096)]).Runs okId 0xB0 (cmd 0xB0 [(32, 8, 4096)])
    ∧ (up.retirePage (cmd 0xB0 [(32, 8, 4096)]).desc).isSome = true ∧ up.retirePage (cmd 0xB0 [(32, 8, 4097)]).desc = none
    ∧ up.Accepts false (regDie .repairCmd 7) ∧ up.mem.repairing = [] ∧ up.lockOn (regDie .repairCmd 7) = false ∧ up.reachesStack 15 = false
    ∧ lockedUp.Accepts true (regDie .repairCmd 7) ∧ lockedUp.lockOn (regDie .repairCmd 7) = true
    ∧ ((upTo 16).any ({ running 1 [] with
          cmds := [{ cmd 1 [] with handles := [0] }]
          ctxs := [(1, { Ctx.init with slots := [(0, rawAt 64)] })] } : State).reachesStack) = true
    ∧ (rate.regulator 7 15 1).1 ≠ 0 ∧ rate.mem.tokens = []
    ∧ ({ up with mem := { up.mem with repairing := [(7, (2, 0, 0))] } } : State).mem.repairing.get? 7 = some (2, 0, 0) := by
  refine ⟨up_inv, ?_, ?_, ?_, ?_, ?_, ?_, ?_, ?_, ?_, runs_of rfl rfl rfl (by decide +kernel), ?_, ?_, accepts_of (by decide +kernel), ?_, ?_, ?_,
    accepts_of (by decide +kernel), ?_, ?_, ?_, ?_, ?_⟩ <;> decide +kernel
/-! ### Witnesses: vector commands, moves and Topiary -/

def none32 : Nat := 2 ^ 32 - 1
def vec (op : Nat) (fs : List (Nat × Nat × Nat)) : State := shelved (running op fs)
/-- The same for a command whose tasks logical cell 767 may draw. -/
def drawn (op : Nat) (fs : List (Nat × Nat × Nat)) : Cmd := { cmd op fs with cells := [767] }
def drawing (op : Nat) (fs : List (Nat × Nat × Nat)) : State := shelved { up with cmds := [drawn op fs] }
/-- The row ends its command with OK. -/
def endsOk (i : Instr) (s : State) : Bool := match exec i s with
  | .next t => (t.cmd? okId).any fun c => c.ending == some Status.ok.plain
  | _ => false
def ewFs : List (Nat × Nat × Nat) := [(32, 4, 4), (36, 4, 5), (40, 4, none32), (44, 4, none32)]
def rdFs : List (Nat × Nat × Nat) := [(32, 4, 4), (36, 4, 6), (44, 4, 0x3F800000)]
def rfFs : List (Nat × Nat × Nat) := [(32, 4, 4), (36, 4, 5), (40, 4, none32), (44, 4, none32), (48, 4, none32)]
def rbFs : List (Nat × Nat × Nat) := [(32, 4, 4), (36, 4, 5), (40, 4, 8), (44, 4, none32), (48, 4, none32)]
def tkFs : List (Nat × Nat × Nat) := [(32, 4, 4), (36, 4, none32), (40, 4, 7), (44, 4, 6), (49, 1, 1)]
def reads (s : State) (h : Nat) : Bool := (s.tensRun 1 h).any fun t => okAnd (s.readAll (s.accOf okId t) .fp32 t (s.readScale okId t) 0) fun _ => true
theorem witness_VectorCommandsStoreTheirRows :
    ((drawing 0x23 ewFs).Runs okId 0x23 (drawn 0x23 ewFs) ∧ ((drawing 0x23 ewFs).turnOf (drawn 0x23 ewFs)).isSome = true
      ∧ (vec 0x23 ewFs).turnOf (cmd 0x23 ewFs) = none ∧ reads (drawing 0x23 ewFs) 4 = true
      ∧ (((drawing 0x23 ewFs).tensRun 1 4).any fun t => okAnd ((drawing 0x23 ewFs).badOperand okId [t]) fun o => o.isNone) = true
      ∧ endsOk (.elementwise okId) (drawing 0x23 ewFs) = true)
    ∧ ((vec 0x24 rdFs).Runs okId 0x24 (cmd 0x24 rdFs) ∧ reads (vec 0x24 rdFs) 4 = true ∧ endsOk (.reduce okId) (vec 0x24 rdFs) = true)
    ∧ ((drawing 0x21 rfFs).Runs okId 0x21 (drawn 0x21 rfFs) ∧ reads (drawing 0x21 rfFs) 4 = true ∧ endsOk (.rowForward okId) (drawing 0x21 rfFs) = true)
    ∧ ((drawing 0x22 rbFs).Runs okId 0x22 (drawn 0x22 rbFs) ∧ reads (drawing 0x22 rbFs) 5 = true ∧ endsOk (.rowBackward okId) (drawing 0x22 rbFs) = true)
    ∧ ((vec 0x60 tkFs).Runs okId 0x60 (cmd 0x60 tkFs) ∧ reads (vec 0x60 tkFs) 4 = true ∧ endsOk (.topk okId) (vec 0x60 tkFs) = true) := by
  refine ⟨⟨runs_of rfl rfl rfl (by decide +kernel), ?_, ?_, ?_, ?_, ?_⟩, ⟨runs_of rfl rfl rfl (by decide +kernel), ?_, ?_⟩,
    ⟨runs_of rfl rfl rfl (by decide +kernel), ?_, ?_⟩, ⟨runs_of rfl rfl rfl (by decide +kernel), ?_, ?_⟩,
    ⟨runs_of rfl rfl rfl (by decide +kernel), ?_, ?_⟩⟩ <;> decide +kernel
def loFs : List (Nat × Nat × Nat) := [(32, 4, 4), (36, 4, 5), (40, 4, none32), (44, 4, none32)]
def mvFs (op : Nat) : List (Nat × Nat × Nat) := [(32, 4, 4), (36, 4, 5), (40, 4, none32), (44, 4, 7), (52, 4, op * 2 ^ 17)]
def dmaFs (dst off : Nat) : List (Nat × Nat × Nat) := [(32, 4, 9), (36, 4, dst), (48, 8, off), (56, 8, 512 - off)]
theorem witness_MovesStoreWhatTheyRead :
    ((vec 0x40 loFs).Runs okId 0x40 (cmd 0x40 loFs) ∧ mvOp (cmd 0x40 loFs).desc = 0 ∧ ((vec 0x40 loFs).tensRun 1 5).any (fun t => t.sparseN == 0) = true
      ∧ endsOk (.layout okId) (vec 0x40 loFs) = true)
    ∧ (∀ op i, (op, i) ∈ [(1, Instr.gather okId), (2, .scatter okId), (3, .scatterAdd okId)] → (vec 0x40 (mvFs op)).Runs okId 0x40 (cmd 0x40 (mvFs op))
      ∧ mvOp (cmd 0x40 (mvFs op)).desc = op ∧ endsOk i (vec 0x40 (mvFs op)) = true)
    ∧ ((vec 0x40 (mvFs 1)).tensRun 1 7).any (fun t => okAnd ((vec 0x40 (mvFs 1)).readIndex okId t) fun vs => vs == [0, 0]) = true
    ∧ (Rng.meets (0, 512) (512, 512) = false ∧ endsOk (.dmaCopy okId) (vec 0x41 (dmaFs 10 0)) = true)
    ∧ (Rng.meets (0, 504) (8, 504) = true ∧ endsOk (.dmaCopy okId) (vec 0x41 (dmaFs 9 8)) = true) := by
  refine ⟨⟨runs_of rfl rfl rfl (by decide +kernel), ?_, ?_, ?_⟩, ?_, ?_, ⟨?_, ?_⟩, ⟨?_, ?_⟩⟩
  case refine_4 =>
    intro op i h
    simp only [List.mem_cons, Prod.mk.injEq, List.not_mem_nil, or_false] at h
    rcases h with ⟨rfl, rfl⟩ | ⟨rfl, rfl⟩ | ⟨rfl, rfl⟩ <;>
      exact ⟨runs_of rfl rfl rfl (by decide +kernel), by decide +kernel, by decide +kernel⟩
  all_goals decide +kernel
def topFs (chk : Nat) : List (Nat × Nat × Nat) :=
  [(32, 4, none32), (36, 4, 11), (40, 4, none32), (44, 4, none32), (48, 4, none32), (52, 4, none32), (56, 4, none32), (60, 4, 2 * 16 + chk)]
def topping (op : List (Nat × Nat × Nat)) (f : DescSlot → DescSlot) : State :=
  (vec 0x30 op).updCtx 1 fun x => { x with slots := x.slots.set 11 (f (sparseCommons 0xC000)) }
theorem witness_TopiaryEditsItsBlocks :
    let s := vec 0x30 (topFs 0)
    let b := tBody (cmd 0x30 (topFs 0)).desc
    s.Runs okId 0x30 (cmd 0x30 (topFs 0)) ∧ (s.tensRun 1 11).isSome = true ∧ s.topiaryTested okId = false
    ∧ okAnd (s.topiarySource okId b) (fun r => r.1.isNone) = true ∧ s.buffersFree 1 b = true
    ∧ (topping (topFs 0) fun x => { x with uses0 := 1, uses1 := 1 }).buffersFree 1 b = false
    ∧ okAnd (s.denseOr okId b.wscore) (fun _ => true) = true ∧ b.check = false
    ∧ (testing ⟨1, 0, 0⟩ (some okId) s).topiaryTested okId = true := by
  refine ⟨runs_of rfl rfl rfl (by decide +kernel), ?_, ?_, ?_, ?_, ?_, ?_, ?_, ?_⟩ <;> decide +kernel

/-! ### Witnesses: batches -/

/-- The table of `woven` in force, the clock locked; one home and one source, both reached by flow 7. -/
def batching (op : Nat) (fs : List (Nat × Nat × Nat)) (f : Cmd → Cmd) : State :=
  let s := vec op fs
  { s with
    time := { TimeSt.init with pips := BitVec.ofNat 64 102400, locked := true }
    fabric := (woven 2 0 origin).fabric
    mem := { s.mem with cells := [(commonsKey 7 0xE000, 7), (commonsKey 7 0xE014, 7), (commonsKey 7 0xF003, 1)] }
    cmds := [f (cmd op fs)] }
def window : List (Nat × Nat × Nat) := [(56, 4, 48), (64, 8, 101)]
def sendBt : List (Nat × Nat × Nat) := [(34, 1, 1), (36, 4, 4), (40, 4, 7), (44, 4, 9), (48, 4, 12), (52, 4, 10)] ++ window
def recvBt : List (Nat × Nat × Nat) := [(32, 1, 1), (34, 1, 1), (36, 4, 4), (40, 4, 13), (44, 4, 9), (48, 4, 10), (52, 4, 14)] ++ window
def retnBt : List (Nat × Nat × Nat) := [(34, 1, 1), (36, 4, 4), (40, 4, 13), (44, 4, 14)] ++ window
def sumBt : List (Nat × Nat × Nat) := [(32, 1, 1), (34, 1, 1), (36, 4, 4), (40, 4, 10), (44, 4, 6), (48, 4, 12), (52, 4, 5), (60, 4, none32)] ++ window
def okHalt {α : Type} (x : Except Halt α) (p : α → Bool) : Bool := match x with
  | .ok a => p a
  | .error _ => false
/-- A RECEIVE or SUM that has begun, its one header of no rows taken. -/
def headed (c : Cmd) : Cmd :=
  { c with begun := true, records := [(2, zeros 16), (3, packed 8 [(0, 2, 7)])], rx := { c.rx with heads := [(0, batchHeader 0 0 0 0 64 1 [0])] } }
/-- The row leaves its command begun. -/
def begins (i : Instr) (s : State) : Bool := match exec i s with
  | .next t => (t.cmd? okId).any fun c => c.begun && c.ending.isNone
  | _ => false
def later (frame : Nat) (s : State) : State := { s with time := { s.time with pips := BitVec.ofNat 64 (1024 * frame) } }
theorem witness_BatchesAreRoutedAndCancelled :
    ((batching 0x61 sendBt id).Inv ∧ (batching 0x61 sendBt id).cmd? okId = some (cmd 0x61 sendBt) ∧ isSend (cmd 0x61 sendBt).desc = true
      ∧ okHalt ((batching 0x61 sendBt id).sendPlan okId (cmd 0x61 sendBt).desc) (fun p => p.walk.placed.length == 2) = true
      ∧ begins (.dispatchSend okId) (batching 0x61 sendBt id) = true ∧ (batching 0x61 sendBt id).batchTested (cmd 0x61 sendBt) = false
      ∧ (testing ⟨2, 0, 0⟩ none (batching 0x61 sendBt id)).batchTested (cmd 0x61 sendBt) = true)
    ∧ (isReturn (cmd 0x62 retnBt).desc = true
      ∧ okHalt ((batching 0x62 retnBt id).returnPlan okId (cmd 0x62 retnBt).desc) (fun p => p.srcs.length == 1) = true
      ∧ begins (.combineReturn okId) (batching 0x62 retnBt id) = true)
    ∧ (isReceive (cmd 0x61 recvBt).desc = true
      ∧ okHalt ((batching 0x61 recvBt id).receivePlan okId (cmd 0x61 recvBt).desc) (fun l => l == [7 * 2 ^ 32]) = true
      ∧ begins (.dispatchReceive okId) (batching 0x61 recvBt id) = true ∧ allRows (headed (cmd 0x61 recvBt)) = true
      ∧ endsOk (.dispatchReceive okId) (batching 0x61 recvBt headed) = true ∧ allRows { headed (cmd 0x61 recvBt) with rx := RxRun.init } = false)
    ∧ (isSum (cmd 0x62 sumBt).desc = true
      ∧ okHalt ((batching 0x62 sumBt id).sumPlan okId (cmd 0x62 sumBt).desc) (fun r => r.1 == [7]) = true
      ∧ begins (.combineSum okId) (batching 0x62 sumBt id) = true ∧ allRows (headed (cmd 0x62 sumBt)) = true
      ∧ endsOk (.combineSum okId) (batching 0x62 sumBt headed) = true)
    ∧ (btStart (cmd 0x61 recvBt).desc + 22 ≤ (later 123 (batching 0x61 recvBt id)).frame
      ∧ (later 122 (batching 0x61 recvBt id)).frame < btStart (cmd 0x61 recvBt).desc + 22 ∧ btEnd (cmd 0x61 recvBt).desc = 149) := by
  refine ⟨⟨inv_of (by decide +kernel), ?_, ?_, ?_, ?_, ?_, ?_⟩, ⟨?_, ?_, ?_⟩, ⟨?_, ?_, ?_, ?_, ?_, ?_⟩, ⟨?_, ?_, ?_, ?_, ?_⟩, ⟨?_, ?_, ?_⟩⟩ <;>
    decide +kernel
/-- The cancel of tag 255, taken in frame 100 and effective in frame 101. -/
def cancelling : State :=
  fab (fun f => { f with cancels := [⟨0, 1, 255, 101, okId⟩] }) { woven 2 0 origin with cmds := [begun (cmd 0x63 [(32, 1, 255)])] }
theorem witness_CancelsTakeEffectAtTheNextFrame :
    cancelling.Inv ∧ isOpcode 0x63 (cmd 0x63 [(32, 1, 255)]).desc = true ∧ cancelling.cmdDie okId = 0
    ∧ (cancelling.fabric.cancels.find? fun k => k.die == 0 && k.ctx == 1 && k.tag == u8 (cmd 0x63 [(32, 1, 255)]).desc 32) = some ⟨0, 1, 255, 101, okId⟩
    ∧ cancelling.frame < 101 ∧ 101 ≤ (later 101 cancelling).frame ∧ (∀ x ∈ cancelling.cmds, isSum x.desc = false) := by
  refine ⟨inv_of (by decide +kernel), ?_, ?_, ?_, ?_, ?_, ?_⟩ <;> decide +kernel

/-! ### Witnesses: what waits at a bank under handover, and what is turned away -/

/-- Cell 831 in logical slot 767, banks 0 and 24 being handed over to context 1, which may use 64 KiB of its window. -/
def windowAt : Nat := sramBase + 7 * 2 ^ 29 + 95 * 2 ^ 22
def handed (s : State) : State :=
  let t := (s.updDie 7 fun d => { d with slots := [(95, { LSlot.init with phys := some 103, inService := true })] }).wr (ownerReg 831 0) 65
  let u := (t.wr (ownerReg 831 24) 65).updCtx 1 fun x => { x with allocs := x.allocs.set 1 ⟨windowAt, 65536, true, true, 0⟩ }
  { u with cells := [(831, { Cell.init with logical := some 767, handovers := [(0, ⟨none, [], true⟩), (24, ⟨none, [], true⟩)] })] }
/-- The row leaves its command in flight, and as it stood. -/
def stays (i : Instr) (s : State) : Bool := match exec i s with
  | .next t => t.cmds == s.cmds && t.mem == s.mem && (t.cmd? okId).any fun c => c.ending.isNone
  | _ => false
/-- Slot 15: FP32, 2 rows of 2, in the window; slot 16: 512 bytes there; slot 17: the N:8 tensor of slot 11 with its other
buffer there; slot 18:
UINT32, 2 rows of 1. -/
def windowShelf (t : Tab DescSlot) : Tab DescSlot :=
  t ++ [(15, { tensorAt 0 2 2 16 0 0 with record := packed 128 [(0, 1, 0x20), (12, 4, 0x3F800000), (16, 4, 2), (20, 4, 2), (48, 8, 16), (80, 8, windowAt)] }),
    (16, { DescSlot.init with valid := true, record := packed 128 [(0, 1, 0x90), (16, 4, 512), (80, 8, windowAt)] }),
    (17, { DescSlot.init with valid := true, record := packed 128 [(0, 1, 0x21), (1, 1, 2), (12, 4, 0x3F800000), (16, 4, 16), (20, 4, 8), (48, 8, 64),
      (80, 8, windowAt), (88, 8, windowAt + 0x1000)] }),
    (18, { DescSlot.init with valid := true, record := packed 128 [(0, 1, 0x2C), (12, 4, 0x3F800000), (16, 4, 1), (20, 4, 2), (48, 8, 16), (80, 8, windowAt)] })]
def windowed (s : State) : State := handed (s.updCtx 1 fun x => { x with slots := windowShelf x.slots })
/-- A body with tensor 15 (or another of the window) in place of the one it names at byte `o`. -/
def named (fs : List (Nat × Nat × Nat)) (o h : Nat) : List (Nat × Nat × Nat) := fs.map fun f => if f.1 = o then (o, 4, h) else f
theorem witness_TensorCommandsWait :
    stays (.elementwise okId) (windowed (drawing 0x23 (named ewFs 36 15))) = true
    ∧ ((windowed (drawing 0x23 (named ewFs 36 15))).turnOf (drawn 0x23 (named ewFs 36 15))).isSome = true
    ∧ stays (.reduce okId) (windowed (vec 0x24 (named rdFs 36 15))) = true
    ∧ stays (.rowForward okId) (windowed (drawing 0x21 (named rfFs 36 15))) = true
    ∧ stays (.rowBackward okId) (windowed (drawing 0x22 (named rbFs 40 15))) = true
    ∧ stays (.topk okId) (windowed (vec 0x60 (named tkFs 40 18))) = true
    ∧ stays (.layout okId) (windowed (vec 0x40 (named loFs 36 15))) = true
    ∧ stays (.gather okId) (windowed (vec 0x40 (named (mvFs 1) 36 15))) = true
    ∧ stays (.dmaCopy okId) (windowed (vec 0x41 (dmaFs 16 0))) = true
    ∧ stays (.topiary okId) (windowed (vec 0x30 (named (topFs 0) 36 17))) = true
    ∧ okAnd ((windowed (vec 0x30 (named (topFs 0) 36 17))).topiarySource okId (tBody (cmd 0x30 (named (topFs 0) 36 17)).desc)) (fun r => r.1.isNone)
        = true := by
  refine ⟨?_, ?_, ?_, ?_, ?_, ?_, ?_, ?_, ?_, ?_, ?_⟩ <;> decide +kernel
/-- Whether an access of `n` bytes by context 1 is allowed, and what writing `bs` there comes to. -/
def writeIs (s : State) (a : Nat) (bs : List Byte) (e : Option AccErr) : Bool :=
  okAnd (s.allocJudge 1 a bs.length false true) fun x => (s.writeBytes x a bs).2 == e
theorem witness_FabricAndWatchesWait :
    let s := handed (roomy (pres 0 RxFlow.init))
    let w := slotOf ((carried 1 (packed 512 [(0, 8, windowAt), (8, 2, 496)])).header false) (packed 512 [(0, 8, windowAt), (8, 2, 496)])
    s.presentsNow 39 112 = true ∧ s.fabric.waiters = [] ∧ w.type = 1 ∧ u64 w.payload 0 = windowAt ∧ u16 w.payload 8 = 496
    ∧ writeIs s windowAt (sliceB w.payload 16 496) (some .wait) = true
    ∧ writeIs (handed (roomy up)) windowAt (leBytes 8 7) (some .wait) = true ∧ writeIs (roomy up) 0x1000 (leBytes 8 7) none = true
    ∧ ((watched [(4095, watchOf true (.write windowAt 7))] [] (handed (roomy up))).die 7).watches.get? 4095
        = some (watchOf true (.write windowAt 7)) := by
  refine ⟨?_, ?_, ?_, ?_, ?_, ?_, ?_, ?_, ?_⟩ <;> decide +kernel
/-- A DESC_CREATE whose record lies in the window. -/
def waitingIssue : State :=
  handed { up with ctxs := [(1, { Ctx.init with queues := [(0, { QueueSt.init with fetched := [⟨5, packed 128 [(0, 2, 0x10), (32, 4, 3), (40, 8, windowAt)], true, .none, .none, none⟩] })] })] }
theorem witness_IssueWaits :
    (waitingIssue.issueJudge ⟨1, 0, 5⟩ (packed 128 [(0, 2, 0x10), (32, 4, 3), (40, 8, windowAt)]) (waitingIssue.membersOf 1 0)).1.ending
        = some AccErr.wait.ending
    ∧ waitingIssue.waitOn 1 0 ⟨5, packed 128 [(0, 2, 0x10), (32, 4, 3), (40, 8, windowAt)], true, .none, .none, none⟩ = none
    ∧ ((queued 1 1).issueJudge ⟨1, 0, 5⟩ (headCmd 1).desc ((queued 1 1).membersOf 1 0)).1.ending = none
    ∧ okAnd ((queued 1 1).storedScales ⟨1, 0, 5⟩ ((queued 1 1).issueJudge ⟨1, 0, 5⟩ (headCmd 1).desc ((queued 1 1).membersOf 1 0)).1.uses)
        (fun _ => true) = true := by
  refine ⟨?_, ?_, ?_, ?_⟩ <;> decide +kernel
theorem witness_PipsStandOrLoad :
    ({ up with power := { up.power with removed := true } } : State).pending = [] ∧ up.power.removed = false ∧ up.power.modResetHigh = true
    ∧ ({ up with time := { up.time with load := some (2 ^ 64 - 1) } } : State).time.load = some (2 ^ 64 - 1) ∧ up.time.load = none
    ∧ up.scanDue 0 = true ∧ (up.updCtx 0 fun x => { x with nextScan := 1 }).scanDue 0 = false
    ∧ (up.updCtx 0 fun x => { x with nextScan := 1, scanWanted := true }).scanDue 0 = true := by
  refine ⟨rfl, rfl, rfl, rfl, rfl, ?_, ?_, ?_⟩ <;> decide +kernel
/-- Groups, records and blocks that are turned away, and the same that are not. -/
theorem witness_GroundsOfRefusal :
    let s : State := { up with cmds := [forming 0], cells := [(831, { Cell.init with logical := some 767 })] }
    let m := packed 96 [(95, 1, 128)]
    s.formViols (forming 0).desc m = [] ∧ worst (s.formViols (forming 0).desc (zeros 96)) = some ((formatViol 0).inRec 1)
    ∧ s.dissolveViols (forming 1).desc = []
    ∧ ((up.wr (sqConfig 0 0) 1).updQueue 0 0 fun x => { x with group := 255 }).dissolveViols (forming 1).desc ≠ []
    ∧ ((({ staged [] [zeroBlock] with dies := [] } : State)).die 7).inService = false ∧ (up.die 7).inService = true
    ∧ ((({ draining with dies := [] } : State)).die 7).inService = false := by
  refine ⟨?_, ?_, ?_, ?_, ?_, ?_, ?_⟩ <;> decide +kernel
theorem witness_SlotsPickTheirMessage :
    let o := fab (fun f => { f with out := [message] }) (woven 1 9 origin)
    (o.port 0).rekey = none ∧ pickSlot 7 100 [message] 0 (o.entriesBefore (tableOf 9 1 origin) 0 0 1 7) = some (0, 0)
    ∧ o.entriesBefore (tableOf 9 1 origin) 0 0 1 7 = 0 ∧ message.ahead = [] ∧ message.next < message.slots.length ∧ message.begun = false
    ∧ o.inSlotTime 1 = true ∧ (woven 1 18 origin).sendsNow 0 1 = false ∧ (woven 1 17 origin).sendsNow 0 1 = true
    ∧ (fab (fun f => { f with inFrame := 100, inSlots := [⟨1, 5, missedSlot 0⟩] }) (woven 1 9 forward)).inAt 1 5 = missedSlot 0 := by
  refine ⟨?_, ?_, ?_, ?_, ?_, ?_, ?_, ?_, ?_, ?_⟩ <;> decide +kernel
/-- Port 39 in AUTHENTICATING, its exchange whole, with a peer of owner hash `h`. -/
def authed (h : List Byte) (secret : Option (List Byte)) (s : State) : State :=
  let a : AuthSt := ⟨[], some ([], h), [], [], true, none, secret, true⟩
  setPort 39 (fun x => { x with mode := .authenticating, sender := some (2, 3), auth := some a }) s
theorem witness_PeersAuthenticate :
    ((authed [] (some []) noded).port 39).mode = .authenticating
    ∧ ((authed [] (some []) noded).port 39).sender = some (2, 3) ∧ ((authed [] (some []) noded).port 39).delay ≠ 5 ∧ ((authed [] (some []) noded).port 39).auth
        = some ⟨[], some ([], []), [], [], true, none, some [], true⟩
    ∧ AuthSt.whole ⟨[], some ([], []), [], [], true, none, some [], true⟩ ((authed [] (some []) noded).port 39) = true
    ∧ AuthSt.whole ⟨[], some ([], []), [], [], true, none, none, true⟩ ((authed [] none noded).port 39) = false
    ∧ noded.fld (regDie0 .secPolicy) 0 0 ≠ 1
    ∧ (authed [1] (some []) (noded.setFld (regDie0 .secPolicy) 0 0 1)).fld (regDie0 .secPolicy) 0 0 = 1
    ∧ (authed [1] (some []) (noded.setFld (regDie0 .secPolicy) 0 0 1)).ownerHash ≠ [1]
    ∧ ((setPort 39 (fun x => { x with mode := .measuring, exchanges := 16, delay := 768 }) noded).port 39).delay ≤ 768
    ∧ ((setPort 39 (fun x => { x with mode := .measuring, exchanges := 15 }) noded).port 39).exchanges < 16 := by
  refine ⟨?_, ?_, ?_, ?_, ?_, ?_, ?_, ?_, ?_, ?_, ?_⟩ <;> decide +kernel
theorem witness_RolesWaitForTheirFrame :
    let m := up.setFld (regDie0 .timeControl) 1 0 1
    m.time.roleAt ≤ m.frame ∧ ({ m with time := { m.time with roleAt := 1 } } : State).frame < 1
    ∧ placeOfKey (8 * 0) = some (.hbm 0 0) ∧ (Place.hbm 0 0).ceReg.isSome = true ∧ up.mem.retired.get? (0 / 512) = none
    ∧ (up.addrOfKey (8 * 0)).isSome = true ∧ up.addrOfKey (8 * (6 * 2 ^ 30 - 1)) = none ∧ (placeOfKey (8 * (6 * 2 ^ 30 - 1))).isSome = true
    ∧ (up.retirePage (packed 128 [(32, 8, 4096)])).any (fun r => bitsOf (up.rd (regDie .retireSpares r.2.2.1)) (r.2.2.2 + 10) r.2.2.2 != 0) = true := by
  refine ⟨?_, ?_, ?_, ?_, ?_, ?_, ?_, ?_, ?_⟩ <;> decide +kernel
/-- Tile 0 of tag 0 of context 1 held in accumulator slot 0 of logical cell 767. -/
def holding (s : State) : State := { s with held := [⟨1, 0, 0, 2, 2, 0, 0, 0, [767], [767], [], [(0, ⟨767, [0], 0⟩)]⟩] }
def chained (f : Cmd → Cmd) : Cmd := f { cmd 0x20 ((prodFs 1 0).map fun x => if x.1 = 52 then (52, 4, 2 ^ 16) else x) with cells := [767] }
theorem witness_TasksWait :
    geoThen (producing 1 0 begun) (prodCmd 1 0 begun) (fun g => (producing 1 0 begun).cellReady (prodCmd 1 0 begun) g 831 767
      && !(handed (producing 1 0 begun)).cellReady (prodCmd 1 0 begun) g 831 767) = true
    ∧ geoThen (producing 1 0 begun) (chained begun) (fun g => (g.tiles[0]?).any fun t =>
        match (handed (holding (producing 1 0 begun))).taskStart okId g t TileSt.init 0 with
        | .error e => e == .wait
        | .ok _ => false) = true
    ∧ geoThen (producing 1 1 begun) (prodCmd 1 1 begun) (fun g => decide (g.b.segs = 1) && g.b.holdOut && !g.b.faultSat) = true := by
  refine ⟨?_, ?_, ?_⟩ <;> decide +kernel

/-! ### Figures of the spec's worked examples -/

def dec (n d : Nat) : FVal := (FVal.ofNat n).div (FVal.ofNat d)
def point3 : FVal := ofBits32 0x3E99999A
/-- Chapter 2, example after R50: 0.3 to FP8-E4M3 under nearest-even and under two draws. -/
theorem test_point_three_in_e4m3 : (encodeBlock .e4m3 .one (fun _ => .rne) [point3]).bytes = leBytes 1 0x2A
    ∧ (encodeBlock .e4m3 .one (fun _ => .sto 0x7000) [point3]).bytes = leBytes 1 0x2A
    ∧ (encodeBlock .e4m3 .one (fun _ => .sto 0x1234) [point3]).bytes = leBytes 1 0x29 := by decide +kernel
/-- Table 2-2: the largest finite values, and E4M3's NaN. -/
theorem test_largest_finite : (decodeF fmtE4M3 0x7E).numEq (.ofNat 448) = true ∧ (decodeF fmtE5M2 0x7B).numEq (.ofNat 57344) = true
    ∧ (decodeF fmtFP16 0x7BFF).numEq (.ofNat 65504) = true ∧ decodeF fmtE4M3 0x7F = .nan ∧ decodeF fmtE5M2 0x7C = .inf false := by
  decide +kernel
def sparse64 (p : Nat) : FVal :=
  if p = 0 then dec 1 2 else if p = 1 then (dec 3 8).neg else if p = 5 then .ofNat 7 else if p = 20 then dec 3 4 else .zero
/-- Chapter 2, example after R43: the superblock with one escape. -/
theorem test_eb4_superblock : historyScale .eb4 (.ofNat 8) = .pow2 (-4)
    ∧ (encodeBlock .eb4 (.pow2 (-4)) (fun _ => .rne) ((upTo 64).map sparse64)).bytes
      = packed 40 [(0, 1, 0xE7), (10, 1, 0x07), (32, 1, 0x3B), (33, 1, 0x40), (36, 2, 0x15), (38, 1, 0x6E)] := by decide +kernel
/-- Chapter 2, example after R45: five trits share byte 0. -/
theorem test_tb40_first_byte : u8 (packTB40 ([1, 2, 0, 0, 1] ++ List.replicate 35 0) 0) 0 = 0x58
    ∧ (upTo 5).map (tb40Digit [0x58]) = [1, 2, 0, 0, 1] := by decide +kernel

def mapsOf (ps : List Pos8) : List Nat := (upTo 8).map (rowMap ps)
def posOf (ms : List Nat) : List Pos8 := ((upTo 8).map fun i => (keptOf (ms.getD i 0)).map fun p => 8 * i + p).flatten
def ringMaps : List Nat := [0x03, 0x0C, 0x30, 0xC0, 0x03, 0x0C, 0x30, 0xC0]
/-- Chapter 5, example after R141: transposable at N = 2, and not at N = 1. -/
theorem test_block_is_transposable : transposable 2 (posOf ringMaps) = true ∧ transposable 1 (posOf ringMaps) = false := by decide +kernel
def editBody : TBody := tBody (packed 128 [(60, 4, 15 + 2 * 2 ^ 4 + 2 * 2 ^ 8 + 0x7F * 2 ^ 15)])
def master (p : Pos8) : FVal := if p = 11 then dec 2 100 else if p = 52 then dec 3 100 else .one
def gradient (p : Pos8) : FVal :=
  if p = 5 then dec 9 10 else if p = 11 then dec 8 10 else if p = 12 then dec 7 10 else if p = 27 then dec 6 10
  else if p = 51 then dec 5 10 else .zero
/-- Chapter 6, the example of an edit: two positions leave, two come. -/
theorem test_edit_of_a_block :
    let b := editBlock editBody (upTo 64) (posOf ringMaps) master gradient
    mapsOf b.kept = [0x03, 0x14, 0x30, 0xC0, 0x03, 0x0C, 0x28, 0xC0] ∧ mapsOf b.removed = [0, 8, 0, 0, 0, 0, 16, 0]
      ∧ mapsOf b.grown = [0, 16, 0, 0, 0, 0, 8, 0] ∧ transposable 2 b.kept = true := by decide +kernel

/-- R230: the comparison is of the difference as a signed word, so a counter that wraps still reaches its target. -/
theorem test_reached_wraps : reachedTarget 0xFFFFFFFE 1 = false ∧ reachedTarget 0 1 = false ∧ reachedTarget 1 1 = true
    ∧ reachedTarget 5 0xFFFFFFFF = true := by decide
/-- Chapter 12, the example of two addresses under the default layout. -/
theorem test_two_addresses : placeOf ⟨47, 4⟩ 0x1234567890 = .hbm 0 0x123456890 ∧ placeOf ⟨47, 4⟩ 0xBD20005000 = .hbm 7 0xBC0002000 := by
  decide +kernel
/-- Chapter 13, the example of a delay of 500 pips and an offset of −3. -/
theorem test_delay_and_offset : delayOffset [1024000] (packed 512 [(0, 8, 1025024), (8, 8, 1024000), (16, 8, 1024497)]) 1025527 = some (500, -3) := by
  decide +kernel

/-- Experts 601, 603 on home 0 (A), 17 and 44 on 1 (B), 1200 on 2 (C), 980 on 3 (D). -/
def exampleMap : List Nat := (upTo 1201).map fun e => if e = 601 ∨ e = 603 then 0 else if e = 17 ∨ e = 44 then 1 else if e = 1200 then 2 else if e = 980 then 3 else 0xFFF
/-- Chapter 15, the example of a walk: C is full, and the fourth choice is redirected to D. -/
theorem test_walk_redirects :
    let w := walk 4 [[601, 17, 1200, 603, 980, 44]] exampleMap [3, 9, 0, 9]
    (upTo 4).map (fun j => w.placed.get? j) = [some (0, 0), some (1, 1), some (3, 0), some (4, 3)] ∧ w.redirected = 1
      ∧ w.left = [1, 8, 0, 8] := by decide +kernel
/-- Chapter 15, the same example: the returned rows add up in rank order to 0.125. -/
theorem test_combine_adds_in_rank_order :
    (combineRow 1 false [(dec 3 8, [.one]), (dec 1 4, [(FVal.ofNat 2).neg]), (dec 1 8, [dec 1 2]), (dec 1 16, [.ofNat 3])] none).map toBits32
      = [toBits32 (dec 1 8)] := by decide +kernel

/-- Chapter 23, the example of four registers, and chapter 21's POWER_CONTROL. -/
theorem test_register_addresses : (ownerReg (3 * 104 + 33) 5).addr = 0xD21054 ∧ (regDie0 .powerControl).addr = 0xD0200
    ∧ (regDie0 .dieEnable).addr = 0x40300 ∧ (regDie0 .timeControl).addr = 0x60000 := by decide +kernel

/-- A descriptor of one FP32 row of 16 elements in allocation 0, at `base`. -/
def lineRec (base : Nat) : List Byte := packed 128 [(0, 1, 0x10), (16, 4, 16), (80, 8, base)]
def created (base : Nat) : Cmd := { cmd 0x10 [(32, 4, 3)] with records := [(1, lineRec base), (2, zeros 64)] }
def creating (base : Nat) (allocs : Tab Alloc) : State :=
  { up with
    ctxs := [(1, { Ctx.init with allocs })]
    cmds := [created base] }
def lineTens (base : Nat) : Tens := tensOf noHandle (lineRec base) (zeros 64) false
def anAlloc : Tab Alloc := [(0, ⟨0, 4096, true, true, 0⟩)]

theorem witness_DescriptorsAndAllocationsAreKept : (running 1 []).Runs okId 1 (cmd 1 []) ∧ (running 0x10 []).Runs okId 0x10 (cmd 0x10 [])
    ∧ ((creating 0 anAlloc).slot 1 3).valid = false ∧ (creating 0 anAlloc).Runs okId 0x10 (created 0)
    ∧ extViols (lineTens 0) (padTo 64 (zeros 64)) = [] ∧ alignViols (lineTens 0) = [] ∧ alignViols (lineTens 4) ≠ []
    ∧ ((creating 0 []).ctx 1).allocs.get? (lineTens 0).alloc = none ∧ (creating 0 anAlloc).reachViols 1 (lineTens 0) = []
    ∧ (running 0x11 [(32, 4, 0)]).Runs okId 0x11 (cmd 0x11 [(32, 4, 0)])
    ∧ (({ up with ctxs := [(1, { Ctx.init with slots := [(0, { DescSlot.init with valid := true })] })] } : State).slot 1 0).valid = true
    ∧ (running 0x12 [(36, 4, 63)]).allocNamed 63 0 = false
    ∧ (running 0x12 [(36, 4, 63)]).Runs okId 0x12 (cmd 0x12 [(36, 4, 63)])
    ∧ (running 0x13 [(36, 4, 63)]).Runs okId 0x13 (cmd 0x13 [(36, 4, 63)])
    ∧ ({ up with ctxs := [(63, { Ctx.init with slots := [(0, { DescSlot.init with valid := true, record := zeros 128 })] })] } : State).allocNamed
        63 0 = true :=
  ⟨runs_of rfl rfl rfl (by decide), runs_of rfl rfl rfl (by decide), rfl, runs_of rfl rfl rfl (by decide), by decide +kernel, by decide +kernel,
    by decide +kernel, by decide +kernel, by decide +kernel, runs_of rfl rfl rfl (by decide), rfl, by decide +kernel,
    runs_of rfl rfl rfl (by decide), runs_of rfl rfl rfl (by decide), by decide +kernel⟩
end Sys2Proof.Tests
end

section
/-!
SUPPORT. Accesses of BAR0: what a request that is heard reads and writes, in holes (R19) and in 64-bit registers (R18).
-/
set_option Elab.async false
namespace Sys2Proof.Machine

/-- What a hole is to a request: no register, no MSI-X structure (R19). -/
theorem State.read4_hole {s : State} {a : Nat} (h : Hole a) : s.read4 a = (0, s) := by
  obtain ⟨hr, hv, hp⟩ := h
  unfold State.read4
  rw [hr, hv]
  simp [hp]

theorem State.write4_hole {s : State} {a : Nat} (h : Hole a) (v : Nat) (ok : Option Bool) : s.write4 a v ok = s := by
  obtain ⟨hr, hv, -⟩ := h
  unfold State.write4
  rw [hr, hv]

/-- A request that reaches the registers is answered by what `readAt` finds (R500, R559). -/
theorem State.barRead_of_hears {s : State} {secure : Bool} {a : Nat} (h : s.Hears secure a) (size : Nat) :
    s.barRead secure a size
      = { (s.readAt a size).2 with pcie := { (s.readAt a size).2.pcie with lastRead := some (s.readAt a size).1 } } := by
  obtain ⟨ha, hr, hi⟩ := h
  unfold State.barRead
  dsimp only
  rw [ha, hr, if_neg (by simp; omega), if_neg (by simp)]

theorem State.barWrite_of_hears {s : State} {secure : Bool} {a : Nat} (h : s.Hears secure a) (size v : Nat) (ok : Option Bool) :
    s.barWrite secure a size v ok = s.writeAt a size v ok := by
  obtain ⟨ha, hr, hi⟩ := h
  unfold State.barWrite
  rw [ha, hr, if_neg (by simp; omega), if_neg (by simp)]

/-- An aligned access whose first and last words are holes meets nothing but holes. -/
theorem State.readAt_hole {s : State} {a size : Nat} (hs : size = 1 ∨ size = 2 ∨ size = 4 ∨ size = 8) (ha : a % size = 0)
    (lo : Hole (a / 4 * 4)) (hi : Hole ((a + size - 1) / 4 * 4)) : s.readAt a size = (0, s) := by
  unfold State.readAt
  rcases hs with rfl | rfl | rfl | rfl
  · simp [State.read4_hole lo, Nat.mod_one]
  · simp [State.read4_hole lo, ha]
  · rw [show a / 4 * 4 = a by omega] at lo
    simp [State.read4_hole lo, ha]
  · rw [show a / 4 * 4 = a by omega] at lo
    rw [show (a + 8 - 1) / 4 * 4 = a + 4 by omega] at hi
    simp [State.read4_hole lo, State.read4_hole hi, lo.noReg, ha]

theorem State.writeAt_hole {s : State} {a size : Nat} (hs : size = 1 ∨ size = 2 ∨ size = 4 ∨ size = 8) (ha : a % size = 0)
    (lo : Hole (a / 4 * 4)) (hi : Hole ((a + size - 1) / 4 * 4)) (v : Nat) (ok : Option Bool) : s.writeAt a size v ok = s := by
  unfold State.writeAt
  rcases hs with rfl | rfl | rfl | rfl
  · simp
  · simp
  · rw [show a / 4 * 4 = a by omega] at lo
    simp [State.write4_hole lo, ha]
  · rw [show a / 4 * 4 = a by omega] at lo
    rw [show (a + 8 - 1) / 4 * 4 = a + 4 by omega] at hi
    simp [State.write4_hole lo, State.write4_hole hi, lo.noReg, ha]

/-- Settles O8: every word that the access touches is a hole, which reads 0 and keeps nothing. -/
theorem unassignedOffsetsReadZero : Obligations.UnassignedOffsetsReadZero := by
  intro s secure a size value hs ha hh lo hi
  refine ⟨?_, ?_⟩
  · show Host.Outcome.next (s.barRead secure a size) = _
    rw [State.barRead_of_hears hh, State.readAt_hole hs ha lo hi]
  · show Host.Outcome.next (s.barWrite secure a size value none) = _
    rw [State.barWrite_of_hears hh, State.writeAt_hole hs ha lo hi]

/-- The high half of every 64-bit register of a row is found at its register, within the row's block. -/
def rowHighHalfFound (n : RegName) : Bool :=
  let i := n.info
  i.bytes != 8 || (List.range i.count).all fun k =>
    rowAt i.block.kind true (i.off + i.stride * k + 4) == some (n, k)
      && (i.block == .die0 || rowAt i.block.kind false (i.off + i.stride * k + 4) == some (n, k))
      && decide (i.off + i.stride * k + 4 < i.block.span)

theorem rowHighHalfFound_all (n : RegName) : rowHighHalfFound n = true := by
  have h : allRegs.all rowHighHalfFound = true := by decide +kernel
  exact List.all_eq_true.1 h n (mem_allRegs n)

/-- Both halves of a 64-bit register are assigned to it (R18, R535–R537). -/
theorem regAt_addr_high {r : Reg} (h : r.inMap) (h8 : r.name.info.bytes = 8) : regAt (r.addr + 4) = some r := by
  obtain ⟨n, u, k⟩ := r
  obtain ⟨hu, hk⟩ := h
  have hf := rowHighHalfFound_all n
  simp only [rowHighHalfFound, show n.info.bytes = 8 from h8, bne_self_eq_false, Bool.false_or, List.all_eq_true,
    List.mem_range, Bool.and_eq_true, Bool.or_eq_true, beq_iff_eq, decide_eq_true_eq] at hf
  obtain ⟨⟨inFirst, inOther⟩, inSpan⟩ := hf k hk
  have hl := locate_base n.info.block u (n.info.off + n.info.stride * k + 4) hu inSpan
  have ha : Reg.addr ⟨n, u, k⟩ + 4 = n.info.block.base u + (n.info.off + n.info.stride * k + 4) := by
    simp only [Reg.addr]; omega
  rw [ha, regAt_rowAt hl]
  by_cases hz : u = 0
  · rw [decide_eq_true hz, inFirst]; rfl
  · rw [decide_eq_false hz]
    rcases inOther with b | found
    · rw [b] at hu
      simp only [Block.units] at hu
      omega
    · rw [found]; rfl

/-- An 8-byte access reads a 64-bit register whole. -/
theorem State.readAt_whole {s : State} {r : Reg} (h : r.inMap) (h8 : r.name.info.bytes = 8) (hr : s.readable r = true) :
    s.readAt r.addr 8 = (s.live r, s) := by
  have hal := (r.addr_aligned h).2
  rw [h8] at hal
  simp [State.readAt, hal, regAt_addr r h, Option.filter_some, h8, hr]

/-- A 4-byte read of the low half latches the high half (R18). -/
theorem State.readAt_low {s : State} {r : Reg} (h : r.inMap) (h8 : r.name.info.bytes = 8) (hr : s.readable r = true) :
    s.readAt r.addr 4 = (s.live r % 2 ^ 32, s.setLatch r (some (s.live r / 2 ^ 32))) := by
  have hal := (r.addr_aligned h).2
  rw [h8] at hal
  simp [State.readAt, State.read4, regAt_addr r h, h8, hr, show r.addr % 4 = 0 by omega]

/-- A 4-byte read of the high half returns what is latched, where something is. -/
theorem State.readAt_high {s : State} {r : Reg} {x : Nat} (h : r.inMap) (h8 : r.name.info.bytes = 8) (hr : s.readable r = true)
    (hx : s.pcie.latch.get? r.addr = some x) : s.readAt (r.addr + 4) 4 = (x, s.setLatch r none) := by
  have hal := (r.addr_aligned h).2
  rw [h8] at hal
  simp [State.readAt, State.read4, regAt_addr_high h h8, h8, hr, Tab.getD, hx, show (r.addr + 4) % 4 = 0 by omega]

/-- Settles O7: the low half's read leaves the high half in the register's latch, where the high half's read finds it. -/
theorem sixtyFourBitReadsAreWhole : Obligations.SixtyFourBitReadsAreWhole := by
  intro r h
  refine ⟨r.bytes_eq, fun h8 s secure hh hr => ⟨⟨_, rfl, ?_, ?_⟩, _, rfl, ?_, ?_, fun v secure' hl hv rv => ⟨_, rfl, ?_⟩⟩⟩
  · rw [State.barRead_of_hears hh, State.readAt_whole h h8 hr]
  · rw [State.barRead_of_hears hh, State.readAt_whole h h8 hr]
  · rw [State.barRead_of_hears hh, State.readAt_low h h8 hr]
  · rw [State.barRead_of_hears hh, State.readAt_low h h8 hr]
    rfl
  · have latched : v.pcie.latch.get? r.addr = some (s.live r / 2 ^ 32) := by
      rw [hl, State.barRead_of_hears hh, State.readAt_low h h8 hr]
      exact Tab.get?_set_same _ _ _
    rw [State.barRead_of_hears hv, State.readAt_high h h8 rv latched]

end Sys2Proof.Machine
end

section
/-!
SUPPORT. Event counters as the only registers an event raises, and one pip of an empty queue (R14, R334, R474, R522).
-/
set_option Elab.async false
namespace Sys2Proof.Machine

/-! ### Event counters -/

/-- `t` is `s` but for what its registers hold. -/
def State.SameButRegs (s t : State) : Prop := ∃ regs, t = { s with regs := regs }

theorem State.SameButRegs.refl (s : State) : s.SameButRegs s := ⟨_, rfl⟩

theorem State.SameButRegs.bump {s t : State} (h : s.SameButRegs t) (r : Reg) (n : Nat) : s.SameButRegs (t.bump r n) := by
  obtain ⟨regs, rfl⟩ := h
  exact ⟨_, rfl⟩

/-- The event counter `i` of a die (Table 19-1). -/
def pmcReg (die i : Nat) : Reg := ⟨.pmcValue, die, i⟩

theorem pmcReg_inMap {die i : Nat} (hd : die < 8) (hi : i < 64) : (pmcReg die i).inMap := ⟨hd, hi⟩

theorem State.rd_bump_other {s : State} {r q : Reg} (n : Nat) (h : s.regsOk) (ne : q.addr ≠ r.addr) :
    (s.bump r n).rd q = s.rd q := State.rd_wr_other _ h ne

theorem State.rd_bump_same {s : State} (r : Reg) (n : Nat) (h : s.regsOk) : (s.bump r n).rd r = (s.rd r + n) % 2 ^ 64 :=
  State.rd_wr_same _ _ h

theorem State.wr_regsOk {s : State} (r : Reg) (v : Nat) (h : s.regsOk) : (s.wr r v).regsOk :=
  (State.wr_keeps (lp := false) (lq := false) s r v (Keeps.refl _ _ s)).regs h

theorem State.bump_regsOk {s : State} (r : Reg) (n : Nat) (h : s.regsOk) : (s.bump r n).regsOk := State.wr_regsOk r _ h

/-- Counting an event does no more than raise event counters of its die. -/
theorem State.pmc_induct {P : State → Prop} {die n : Nat} (up : ∀ t i, i < 64 → P t → P (t.bump (pmcReg die i) n)) {s : State}
    (h : P s) (kind inst ev : Nat) (ctx : Option Nat) : P (s.pmc die kind inst ev ctx n) := by
  unfold State.pmc
  split
  · exact h
  · refine List.foldlRecOn s.regs _ h fun t ht e _ => ?_
    dsimp only
    split
    · rename_i c
      exact up t _ (by omega) ht
    · exact ht

theorem State.pmc_frozen {s : State} (h : s.freeze.frozen = true) (die kind inst ev : Nat) (ctx : Option Nat) (n : Nat) :
    s.pmc die kind inst ev ctx n = s := by
  unfold State.pmc
  rw [if_pos h]

/-- What the registers of `t` have of those of `s` where only event counters have been raised. -/
structure State.CountsFrom (s t : State) : Prop where
  rest : s.SameButRegs t
  rising : s.regsOk → t.regsOk
  kept : s.regsOk → ∀ q : Reg, (∀ d i, d < 8 → i < 64 → q.addr ≠ (pmcReg d i).addr) → t.rd q = s.rd q

theorem State.CountsFrom.refl (s : State) : s.CountsFrom s := ⟨.refl s, id, fun _ _ _ => rfl⟩

theorem State.CountsFrom.bump {s t : State} (h : s.CountsFrom t) {d i : Nat} (hd : d < 8) (hi : i < 64) (n : Nat) :
    s.CountsFrom (t.bump (pmcReg d i) n) :=
  ⟨h.rest.bump _ n, fun k => State.bump_regsOk _ n (h.rising k),
    fun k q hq => (State.rd_bump_other n (h.rising k) (hq d i hd hi)).trans (h.kept k q hq)⟩

theorem State.CountsFrom.pmc {s t : State} (h : s.CountsFrom t) {die : Nat} (hd : die < 8) (kind inst ev : Nat)
    (ctx : Option Nat) (n : Nat) : s.CountsFrom (t.pmc die kind inst ev ctx n) :=
  State.pmc_induct (fun _ _ hi ht => ht.bump hd hi n) h kind inst ev ctx

/-- A register of the map that is no event counter stands at none's address. -/
theorem addr_ne_pmcReg {q : Reg} (h : q.inMap) (ne : q.name ≠ .pmcValue) (d i : Nat) (hd : d < 8) (hi : i < 64) :
    q.addr ≠ (pmcReg d i).addr := by
  intro e
  rw [Reg.addr_inj h (pmcReg_inMap hd hi) e] at ne
  exact ne rfl

/-! ### One pip -/

theorem State.CountsFrom.tickDie {s t : State} (h : s.CountsFrom t) (edges : Nat) {d : Nat} (hd : d < 8) :
    s.CountsFrom (State.tickDie edges t d) := by
  unfold State.tickDie
  have counted := (h.pmc hd 13 0 1 none edges).pmc hd 13 0 3 none 1
  split
  · exact h
  · dsimp only
    split
    · exact counted.pmc hd 13 0 2 none edges
    · exact counted

theorem State.tickDie_frozen {s : State} (h : s.freeze.frozen = true) (edges d : Nat) : State.tickDie edges s d = s := by
  simp [State.tickDie, State.pmc_frozen h]

/-- The clocks and the droop stretch after one pip; the event counters are still to be raised (R14, R334, R522). -/
def State.tickClocks (s : State) : State :=
  let edges := (s.time.phase + s.edgeRate) / 64
  let t := s.nextPip
  { t with
    time := { t.time with cclk := t.time.cclk + BitVec.ofNat 64 edges, phase := (s.time.phase + s.edgeRate) % 64 },
    power := { t.power with
      stretchedEdges := if t.power.stretching then t.power.stretchedEdges + edges else t.power.stretchedEdges } }

theorem State.tick_eq (s : State) :
    s.tick = (upTo 8).foldl (State.tickDie ((s.time.phase + s.edgeRate) / 64)) s.tickClocks := rfl

theorem State.tick_countsFrom (s : State) : s.tickClocks.CountsFrom s.tick := by
  rw [State.tick_eq]
  exact List.foldlRecOn _ _ (State.CountsFrom.refl _) fun t ht d hd => ht.tickDie _ (List.mem_range.1 hd)

theorem State.tick_frozen {s : State} (h : s.tickClocks.freeze.frozen = true) : s.tick = s.tickClocks := by
  rw [State.tick_eq]
  exact List.foldlRecOn (motive := fun t => t = s.tickClocks) _ _ rfl fun t ht d _ => by
    rw [ht]; exact State.tickDie_frozen h _ d

theorem State.nextPip_held {s : State} (h : (s.power.removed || !s.power.modResetHigh) = true) : s.nextPip = s := by
  unfold State.nextPip
  rw [if_pos (by simpa using h)]

theorem State.nextPip_runs {s : State} (h : (s.power.removed || !s.power.modResetHigh) = false) :
    s.nextPip = { s with time := match s.time.load with
      | some v => { s.time with pips := BitVec.ofNat 64 v, frameDone := v % 2 ^ 64 / 1024, load := none }
      | none => { s.time with pips := s.time.pips + 1 } } := by
  unfold State.nextPip
  rw [if_neg (by simpa using h)]
  cases s.time.load <;> rfl

/-- The counter's edge changes nothing of the state but the counter, what it loads and the frame it has done. -/
theorem State.nextPip_rest (s : State) : ∃ pips load frameDone,
    s.nextPip = { s with time := { s.time with pips := pips, load := load, frameDone := frameDone } } := by
  cases h : s.power.removed || !s.power.modResetHigh with
  | true => exact ⟨_, _, _, State.nextPip_held h⟩
  | false =>
    rw [State.nextPip_runs h]
    cases s.time.load with
    | none => exact ⟨_, _, _, rfl⟩
    | some v => exact ⟨_, _, _, rfl⟩

/-- Settles O2: the clocks move as `tickClocks` says, and what follows only raises event counters. -/
theorem anEmptyQueueLetsAPipPass : Obligations.AnEmptyQueueLetsAPipPass := by
  intro s hp rate held
  obtain ⟨⟨regs, he⟩, rising, kept⟩ := s.tick_countsFrom
  obtain ⟨pips, load, frameDone, hn⟩ := s.nextPip_rest
  have hr : s.edgeRate = rate := by simp [State.edgeRate, rate]
  have same : s.tickClocks.regs = s.regs := by simp [State.tickClocks, hn]
  refine ⟨s.tick, by simp [step, hp], ?_, ?_, ?_, ?_, ?_, ?_, ?_, ?_, ?_, ?_⟩
  · intro h
    simp [he, State.tickClocks, State.nextPip_held h]
  · intro h hl
    simp [he, State.tickClocks, State.nextPip_runs h, hl]
  · intro v h hl
    simp [he, State.tickClocks, State.nextPip_runs h, hl]
  · simp [he, State.tickClocks, hn, hr]
  · simp [he, State.tickClocks, hr]
  · simp [he, State.tickClocks, hn]
  · simp [he, State.tickClocks, hn]
  · simp [he, State.tickClocks, hn]
  · intro h
    rw [State.tick_frozen (by simpa [State.tickClocks, hn] using h), same]
  · intro q hq inv ne
    have ok : s.tickClocks.regsOk := by rw [State.regsOk, same]; exact inv.regs
    rw [kept ok q (addr_ne_pmcReg hq ne)]
    simp only [State.rd, same]

end Sys2Proof.Machine
end

section
/-!
SUPPORT. Commands at issue: what a check that passed says of the handles and counters a command names, what leaves the queues alone,
and the head of a FOREGROUND queue taken in flight with its verdict (R85, R253, R268).
-/
set_option Elab.async false
namespace Sys2Proof.Machine

/-! ### Breaches found at issue -/

theorem firstBy_eq_none {lt : Viol → Viol → Bool} {vs : List Viol} : firstBy lt vs = none ↔ vs = [] := by
  cases vs with
  | nil => simp [firstBy]
  | cons v vs =>
    simp only [firstBy, reduceCtorEq, iff_false]
    split
    · exact nofun
    · split <;> exact nofun

/-- A check passes where no breach was found. -/
theorem worst_eq_none {vs : List Viol} : worst vs = none ↔ vs = [] := by
  simp [worst, firstBy_eq_none]

theorem violIf_eq_nil {b : Bool} {v : Viol} : violIf b v = [] ↔ b = false := by cases b <;> simp [violIf]

/-- Every handle that the verdict of a check that passed names is current (R186). -/
def State.NamesCurrent (s : State) (c : Nat) (v : Verdict) : Prop := v.ending = none → s.staleUse c v.uses = false

theorem State.staleUse_append (s : State) (c : Nat) (us vs : List HUse) :
    s.staleUse c (us ++ vs) = (s.staleUse c us || s.staleUse c vs) := List.any_append

/-- A tensor that the checks of R186 let pass is no stale use. -/
theorem State.not_stale_of_useViols {s : State} {c : Nat} {u : HUse} (h : s.useViols c u = []) :
    (u.handle != noHandle && (s.tens? c u.handle).isNone) = false := by
  unfold State.useViols at h
  split at h
  · rename_i absent
    simp only [HUse.absent, Bool.and_eq_true, beq_iff_eq] at absent
    simp [absent.2]
  · split at h
    · exact absurd h (List.cons_ne_nil _ _)
    · rename_i found
      simp [found]

/-- Where the breaches of all uses are among `vs`, none in `vs` means that no use is stale. -/
theorem State.staleUse_of_checked {s : State} {c : Nat} {us : List HUse} {vs : List Viol}
    (sub : (us.map (s.useViols c)).flatten ⊆ vs) (h : vs = []) : s.staleUse c us = false := by
  have none' := List.flatten_eq_nil_iff.1 (List.subset_nil.1 (h ▸ sub))
  refine List.any_eq_false.2 fun u hu => ?_
  rw [Bool.not_eq_true]
  exact State.not_stale_of_useViols (none' _ (List.mem_map_of_mem hu))

/-- The same where the breaches are in a record that the command names. -/
theorem State.staleUse_of_checked_inRec {s : State} {c k : Nat} {us : List HUse} {vs : List Viol}
    (sub : (us.map (s.useViols c)).flatten.map (·.inRec k) ⊆ vs) (h : vs = []) : s.staleUse c us = false :=
  State.staleUse_of_checked (List.Subset.refl _) (List.map_eq_nil_iff.1 (List.subset_nil.1 (h ▸ sub)))

theorem Verdict.of_ending {vs : List Viol} {us : List HUse} : (Verdict.of vs us).ending = none ↔ vs = [] := by
  simp [Verdict.of, worst_eq_none]

theorem State.namesCurrent_of {s : State} {c : Nat} {vs : List Viol} {us : List HUse}
    (h : vs = [] → s.staleUse c us = false) : s.NamesCurrent c (Verdict.of vs us) := fun e => h (Verdict.of_ending.1 e)

/-- A refusal passes nothing. -/
theorem State.namesCurrent_refused {s : State} {c : Nat} {v : Verdict} {e : Ending} (h : v.ending = some e) : s.NamesCurrent c v :=
  fun n => by rw [h] at n; cases n

theorem State.namesCurrent_nothing {s : State} {c : Nat} {v : Verdict} (h : v.uses = []) : s.NamesCurrent c v :=
  fun _ => by rw [h]; rfl

theorem State.namesCurrent_ofRead (s : State) (c : Nat) (vs : List Viol) (err : Option AccErr) (recs : Tab (List Byte)) :
    s.NamesCurrent c (Verdict.ofRead vs err [] recs) := by
  refine State.namesCurrent_nothing ?_
  unfold Verdict.ofRead
  split <;> rfl

/-- `State.verdict` passes only where no breach was found, and names the uses it was given. -/
theorem State.verdict_uses (s : State) (id : CmdId) (vs : List Viol) (us : List HUse) (recs : Tab (List Byte)) :
    (s.verdict id vs us recs).uses = us ∧ ((s.verdict id vs us recs).ending = none → vs = []) := by
  unfold State.verdict
  split
  · exact ⟨rfl, nofun⟩
  · rename_i clean
    dsimp only
    split <;> exact ⟨rfl, fun _ => worst_eq_none.1 clean⟩

theorem State.namesCurrent_verdict {s : State} {id : CmdId} {vs : List Viol} {us : List HUse} (recs : Tab (List Byte))
    (h : vs = [] → s.staleUse id.ctx us = false) : s.NamesCurrent id.ctx (s.verdict id vs us recs) := by
  obtain ⟨uses, clean⟩ := s.verdict_uses id vs us recs
  intro e
  rw [uses]
  exact h (clean e)

/-- A further refusal keeps the names of a verdict. -/
theorem State.NamesCurrent.refuse {s : State} {c : Nat} {v : Verdict} (h : s.NamesCurrent c v) (p : Prop) [Decidable p] (e : Ending) :
    s.NamesCurrent c (if p then { v with ending := some e } else v) := by
  split
  · exact State.namesCurrent_refused rfl
  · exact h

theorem State.NamesCurrent.orHalt {α : Type} {s : State} {c : Nat} {v : Verdict} (h : s.NamesCurrent c v) (r : Except Halt α) :
    s.NamesCurrent c (v.orHalt r) := by
  unfold Verdict.orHalt
  split
  · exact h
  · split
    · exact State.namesCurrent_refused rfl
    · exact State.namesCurrent_refused rfl
    · exact h

/-! ### The checks of each opcode -/

theorem State.checkDescDestroy_names (s : State) (id : CmdId) (d : List Byte) :
    s.NamesCurrent id.ctx (s.checkDescDestroy id d) := by
  refine State.namesCurrent_of fun h => ?_
  have found : (s.tens? id.ctx (u32 d 32)).isNone = false := violIf_eq_nil.1 (List.append_eq_nil_iff.1 h).2
  simp [State.staleUse, useIn, found]

theorem State.checkElementwise_names (s : State) (id : CmdId) (d : List Byte) :
    s.NamesCurrent id.ctx (s.checkElementwise id d) := by
  unfold State.checkElementwise
  dsimp only
  split
  · exact State.namesCurrent_refused rfl
  · exact State.namesCurrent_refused rfl
  · rename_i clean _ _ _
    refine State.namesCurrent_verdict _ fun h => ?_
    rw [State.staleUse_append,
      State.staleUse_of_checked (fun v hv => by simp only [List.mem_append, hv, true_or, or_true]) (worst_eq_none.1 clean),
      State.staleUse_of_checked_inRec (k := 2) (fun v hv => by simp only [List.mem_append, hv, true_or]) h]
    rfl
  · exact State.namesCurrent_refused rfl

theorem State.checkReduce_names (s : State) (id : CmdId) (d : List Byte) : s.NamesCurrent id.ctx (s.checkReduce id d) := by
  unfold State.checkReduce
  dsimp only
  split <;>
    exact State.namesCurrent_verdict _ (State.staleUse_of_checked fun v hv => by simp only [List.mem_append, hv, true_or, or_true])

theorem State.checkRowForward_names (s : State) (id : CmdId) (d : List Byte) (members : List Nat) :
    s.NamesCurrent id.ctx (s.checkRowForward id d members) := by
  unfold State.checkRowForward
  dsimp only
  split
  · exact (State.namesCurrent_verdict _ (State.staleUse_of_checked fun v hv => by
      simp only [List.mem_append, hv, true_or, or_true])).refuse _ _
  · exact State.namesCurrent_verdict _ (State.staleUse_of_checked fun v hv => by simp only [List.mem_append, hv, true_or, or_true])

theorem State.checkRowBackward_names (s : State) (id : CmdId) (d : List Byte) (members : List Nat) :
    s.NamesCurrent id.ctx (s.checkRowBackward id d members) := by
  unfold State.checkRowBackward
  dsimp only
  split
  · exact (State.namesCurrent_verdict _ (State.staleUse_of_checked fun v hv => by
      simp only [List.mem_append, hv, true_or, or_true])).refuse _ _
  · exact State.namesCurrent_verdict _ (State.staleUse_of_checked fun v hv => by simp only [List.mem_append, hv, true_or, or_true])

theorem State.checkTopiary_names (s : State) (id : CmdId) (d : List Byte) : s.NamesCurrent id.ctx (s.checkTopiary id d) := by
  unfold State.checkTopiary
  dsimp only
  split
  · exact State.namesCurrent_refused rfl
  · exact State.namesCurrent_verdict _ (State.staleUse_of_checked fun v hv => by simp only [List.mem_append, hv, true_or, or_true])

theorem State.moveLate_names {s : State} {id : CmdId} {uses : List HUse} (d : List Byte) (i o : Tens) (list : List Byte)
    (h : s.staleUse id.ctx uses = false) : s.NamesCurrent id.ctx (s.moveLate id d uses i o list) := by
  unfold State.moveLate
  dsimp only
  split
  · exact fun _ => h
  · split
    · exact fun _ => h
    · split <;> exact fun _ => h

theorem State.checkDataMove_names (s : State) (id : CmdId) (d : List Byte) : s.NamesCurrent id.ctx (s.checkDataMove id d) := by
  unfold State.checkDataMove
  dsimp only
  split
  · exact State.namesCurrent_refused rfl
  · exact State.namesCurrent_refused rfl
  · rename_i clean _ _ _
    split
    · exact State.namesCurrent_refused rfl
    · exact State.moveLate_names _ _ _ _ (State.staleUse_of_checked (fun v hv => by
        simp only [List.mem_append, hv, true_or, or_true]) (worst_eq_none.1 clean))
  · exact State.namesCurrent_refused rfl

theorem State.checkDmaCopy_names (s : State) (id : CmdId) (d : List Byte) : s.NamesCurrent id.ctx (s.checkDmaCopy id d) := by
  unfold State.checkDmaCopy
  dsimp only
  split
  · split
    · exact State.namesCurrent_refused rfl
    · rename_i clean
      have current := State.staleUse_of_checked (s := s) (c := id.ctx) (us := dmaUses d) (fun v hv => by
        simp only [List.mem_append, hv, true_or, or_true]) (worst_eq_none.1 clean)
      split <;> exact fun _ => current
  · exact State.namesCurrent_of (State.staleUse_of_checked fun v hv => by simp only [List.mem_append, hv, true_or, or_true])

theorem State.checkTopk_names (s : State) (id : CmdId) (d : List Byte) : s.NamesCurrent id.ctx (s.checkTopk id d) :=
  State.namesCurrent_verdict _ (State.staleUse_of_checked fun v hv => by simp only [List.mem_append, hv, true_or, or_true])

theorem State.checkDispatch_names (s : State) (id : CmdId) (d : List Byte) : s.NamesCurrent id.ctx (s.checkDispatch id d) := by
  unfold State.checkDispatch
  extract_lets on m v
  have names : s.NamesCurrent id.ctx v :=
    State.namesCurrent_verdict _ (State.staleUse_of_checked fun v hv => by simp only [List.mem_append, hv, true_or, or_true])
  split
  · exact names
  · split <;> exact names.orHalt _

theorem State.checkCombine_names (s : State) (id : CmdId) (d : List Byte) : s.NamesCurrent id.ctx (s.checkCombine id d) := by
  unfold State.checkCombine
  extract_lets on out m h v
  have names : s.NamesCurrent id.ctx v :=
    State.namesCurrent_verdict _ (State.staleUse_of_checked fun v hv => by simp only [List.mem_append, hv, true_or, or_true])
  split
  · exact names
  · split <;> exact names.orHalt _

theorem State.checkFabricSend_names (s : State) (id : CmdId) (d : List Byte) : s.NamesCurrent id.ctx (s.checkFabricSend id d) :=
  State.namesCurrent_verdict _ (State.staleUse_of_checked fun v hv => by simp only [List.mem_append, hv, true_or, or_true])

theorem State.checkCollective_names (s : State) (id : CmdId) (d : List Byte) : s.NamesCurrent id.ctx (s.checkCollective id d) :=
  State.namesCurrent_verdict _ (State.staleUse_of_checked fun v hv => by simp only [List.mem_append, hv, true_or, or_true])

theorem State.checkSlotTableLoad_names (s : State) (id : CmdId) (d : List Byte) :
    s.NamesCurrent id.ctx (s.checkSlotTableLoad id d) :=
  State.namesCurrent_verdict _ (State.staleUse_of_checked fun v hv => by simp only [List.mem_append, hv, true_or, or_true])

theorem State.checkTensorWatch_names (s : State) (id : CmdId) (d : List Byte) :
    s.NamesCurrent id.ctx (s.checkTensorWatch id d) := by
  refine State.namesCurrent_of fun h => ?_
  by_cases arm : twOp d = 0
  · have found : (s.tens? id.ctx (twHandle d)).isNone = false := by
      rw [if_pos arm] at h
      have armed := (List.append_eq_nil_iff.1 h).2
      simp only [State.armViols, List.append_eq_nil_iff, violIf_eq_nil] at armed
      obtain ⟨⟨⟨⟨⟨-, found⟩, -⟩, -⟩, -⟩, -⟩ := armed
      exact found
    simp [arm, State.staleUse, found]
  · simp [arm, State.staleUse]

theorem State.productLate_uses (s : State) (id : CmdId) (members : List Nat) (g : Geo) (uses : List HUse) (recs : Tab (List Byte)) :
    (s.productLate id members g uses recs).uses = uses := rfl

theorem State.checkProduct_names (s : State) (id : CmdId) (d : List Byte) (group : Nat) (members : List Nat) :
    s.NamesCurrent id.ctx (s.checkProduct id d group members) := by
  unfold State.checkProduct
  dsimp only
  split
  · exact State.namesCurrent_refused rfl
  · rename_i clean
    split
    · exact State.namesCurrent_refused rfl
    · exact State.namesCurrent_refused rfl
    · rename_i noDerr noLerr
      split
      · exact State.namesCurrent_refused rfl
      · rename_i g geo
        have empty := worst_eq_none.1 clean
        obtain ⟨⟨⟨⟨⟨-, encodings⟩, named⟩, drain⟩, list⟩, shape⟩ := by simpa only [List.append_eq_nil_iff] using empty
        simp only [encodings, drain, list, noDerr, noLerr, geo, List.isEmpty_nil, Option.isNone_none, Bool.and_self] at shape
        intro _
        rw [State.productLate_uses, State.staleUse_append, State.staleUse_append,
          State.staleUse_of_checked (List.Subset.refl _) named,
          State.staleUse_of_checked_inRec (k := 2) (vs := s.shapeViols id.ctx g group members) (fun v hv => by
            simp only [State.shapeViols, List.mem_append, hv, true_or]) shape,
          State.staleUse_of_checked (vs := s.shapeViols id.ctx g group members) (fun v hv => by
            simp only [State.shapeViols, List.mem_append, hv, true_or, or_true]) shape]
        rfl

theorem State.refViols_eq_nil {s : State} {c r off : Nat} (h : s.refViols c r off = []) :
    refEnabled r = true ∧ (s.counterOf c r).isNone = false := by
  unfold State.refViols at h
  split at h
  · exact absurd h (List.cons_ne_nil _ _)
  · rename_i on
    exact ⟨by simpa using on, violIf_eq_nil.1 h⟩

/-- A SYNC that passes names no stale reference (R226). -/
theorem State.checkSync_refs {s : State} {id : CmdId} {d : List Byte} (h : (s.checkSync id d).ending = none) :
    s.syncStale id.ctx d = false := by
  have clean := Verdict.of_ending.1 h
  simp only [List.append_eq_nil_iff] at clean
  obtain ⟨⟨⟨⟨⟨-, named⟩, -⟩, chain⟩, -⟩, -⟩ := clean
  unfold State.syncStale
  by_cases arrive : syOp d = 1
  · rw [if_pos arrive] at named
    rw [if_pos arrive]
    exact violIf_eq_nil.1 named
  · rw [if_neg arrive] at named
    rw [if_neg arrive, (State.refViols_eq_nil named).2]
    by_cases add : syOp d = 3
    · rw [if_pos add] at chain
      simp [(State.refViols_eq_nil chain).2]
    · simp [add]

/-- A SYNC_MAP that passes names no stale RELEASE (R226). -/
theorem State.checkSyncMap_refs {s : State} {d : List Byte} (h : (s.checkSyncMap d).ending = none) : s.releaseStale d = false := by
  have clean := Verdict.of_ending.1 h
  simp only [List.append_eq_nil_iff] at clean
  obtain ⟨⟨⟨⟨release, -⟩, -⟩, -⟩, -⟩ := clean
  exact violIf_eq_nil.1 release

/-- A command whose checks pass names no stale handle (R186). -/
theorem State.checkBody_names (s : State) (id : CmdId) (d : List Byte) (group : Nat) (members : List Nat) :
    s.NamesCurrent id.ctx (s.checkBody id d group members) := by
  unfold State.checkBody
  split
  case h_1 =>
    exact State.namesCurrent_ofRead _ _ _ _ _
  case h_2 => exact s.checkDescDestroy_names id d
  case h_5 => exact s.checkProduct_names id d group members
  case h_6 => exact s.checkRowForward_names id d members
  case h_7 => exact s.checkRowBackward_names id d members
  case h_8 => exact s.checkElementwise_names id d
  case h_9 => exact s.checkReduce_names id d
  case h_10 => exact s.checkTopiary_names id d
  case h_11 => exact s.checkDataMove_names id d
  case h_12 =>
    split
    · exact State.namesCurrent_of fun h => absurd h (List.cons_ne_nil _ _)
    · exact s.checkDmaCopy_names id d
  case h_15 => exact s.checkTopk_names id d
  case h_16 => exact s.checkDispatch_names id d
  case h_17 => exact s.checkCombine_names id d
  case h_19 => exact s.checkFabricSend_names id d
  case h_20 => exact s.checkCollective_names id d
  case h_21 => exact s.checkSlotTableLoad_names id d
  case h_23 =>
    unfold State.checkGroupSet
    dsimp only
    split
    · exact State.namesCurrent_ofRead _ _ _ _ _
    · split <;> exact State.namesCurrent_nothing rfl
  case h_24 =>
    unfold State.checkStepControl
    dsimp only
    split
    · exact State.namesCurrent_ofRead _ _ _ _ _
    · exact State.namesCurrent_nothing rfl
  case h_28 => exact s.checkTensorWatch_names id d
  case h_30 =>
    unfold State.checkGroupForm
    dsimp only
    split
    · exact State.namesCurrent_nothing rfl
    · exact State.namesCurrent_ofRead _ _ _ _ _
  all_goals exact State.namesCurrent_nothing rfl

/-- A command whose checks pass names no stale reference in its body (R226). -/
theorem State.checkBody_refs {s : State} {id : CmdId} {d : List Byte} {group : Nat} {members : List Nat}
    (h : (s.checkBody id d group members).ending = none) : s.bodyStale id.ctx d = false := by
  have sync : (isOpcode 0x50 d && s.syncStale id.ctx d) = false := by
    by_cases o : hOpcode d = 0x50
    · rw [State.checkBody, o] at h
      rw [State.checkSync_refs h, Bool.and_false]
    · simp [isOpcode, o]
  have map : (isOpcode 0x51 d && s.releaseStale d) = false := by
    by_cases o : hOpcode d = 0x51
    · rw [State.checkBody, o] at h
      rw [State.checkSyncMap_refs h, Bool.and_false]
    · simp [isOpcode, o]
  by_cases o : hOpcode d = 0x41
  · rw [State.checkBody, o] at h
    cases stale : s.bodyStale id.ctx d with
    | false => rfl
    | true =>
      simp only [stale, if_true, Verdict.of_ending] at h
      exact absurd h (List.cons_ne_nil _ _)
  · simp only [State.bodyStale, sync, map, Bool.false_or]
    simp [isOpcode, o]

/-! ### The verdict at issue -/

/-- A command that passes its checks counts in no STALE_DROPS (R186, R226). -/
theorem State.issueJudge_passes {s : State} {id : CmdId} {d : List Byte} {members : List Nat} :
    (s.issueJudge id d members).1.ending = none → (s.issueJudge id d members).2 = false := by
  unfold State.issueJudge
  dsimp only
  split
  · exact nofun
  · split
    · exact nofun
    · split
      · exact nofun
      · split
        · exact nofun
        · split
          · exact nofun
          · intro h
            rw [State.checkBody_names _ _ _ _ _ h, State.checkBody_refs h]
            rfl

/-! ### What leaves the queues and the commands in flight alone -/

/-- The commands fetched by a queue, by position and descriptor. -/
def QueueSt.named (x : QueueSt) : List (Nat × List Byte) := x.fetched.map fun f => (f.seq, f.desc)

/-- From `s` to `t` no command has left a queue or come into flight, and no queue has changed its kind. -/
structure State.LinesKept (s t : State) : Prop where
  cmds : t.cmds = s.cmds
  named : ∀ c q, (t.queue c q).named = (s.queue c q).named
  deferrable : ∀ c q, (t.queue c q).deferrable = (s.queue c q).deferrable

theorem State.LinesKept.refl (s : State) : s.LinesKept s := ⟨rfl, fun _ _ => rfl, fun _ _ => rfl⟩

theorem State.LinesKept.trans {s t u : State} (h : s.LinesKept t) (k : t.LinesKept u) : s.LinesKept u :=
  ⟨k.cmds.trans h.cmds, fun c q => (k.named c q).trans (h.named c q), fun c q => (k.deferrable c q).trans (h.deferrable c q)⟩

theorem State.LinesKept.of_eq {s t : State} (c : t.cmds = s.cmds) (x : t.ctxs = s.ctxs) : s.LinesKept t := by
  have same (c q : Nat) : t.queue c q = s.queue c q := by simp only [State.queue, State.ctx, x]
  exact ⟨c, fun c q => by rw [same], fun c q => by rw [same]⟩

theorem State.ctx_updCtx (s : State) (c : Nat) (f : Ctx → Ctx) (c' : Nat) :
    (s.updCtx c f).ctx c' = if c' = c then f (s.ctx c) else s.ctx c' := by
  split
  · rename_i e; rw [e, State.updCtx_same]
  · rename_i e; exact State.updCtx_other s f e

theorem State.queue_updQueue (s : State) (c q : Nat) (f : QueueSt → QueueSt) (c' q' : Nat) :
    (s.updQueue c q f).queue c' q' = if c' = c ∧ q' = q then f (s.queue c q) else s.queue c' q' := by
  unfold State.queue State.updQueue
  rw [State.ctx_updCtx]
  by_cases hc : c' = c
  · subst hc
    by_cases hq : q' = q
    · subst hq
      rw [if_pos rfl, if_pos ⟨rfl, rfl⟩]
      exact Tab.getD_upd_same _ _ _ _
    · rw [if_pos rfl, if_neg fun h => hq h.2]
      exact Tab.getD_upd_other _ _ _ hq
  · rw [if_neg hc, if_neg fun h => hc h.1]

/-- A change of a context that leaves its queues as they are. -/
theorem State.updCtx_lines (s : State) (c : Nat) {f : Ctx → Ctx} (hf : ∀ x, (f x).queues = x.queues) :
    s.LinesKept (s.updCtx c f) := by
  have same (c' q : Nat) : (s.updCtx c f).queue c' q = s.queue c' q := by
    unfold State.queue
    rw [State.ctx_updCtx]
    split
    · rename_i e; rw [hf, e]
    · rfl
  exact ⟨rfl, fun c q => by rw [same], fun c q => by rw [same]⟩

/-- A change of a queue that leaves its commands and its kind as they are. -/
theorem State.updQueue_lines (s : State) (c q : Nat) {f : QueueSt → QueueSt} (hn : (f (s.queue c q)).named = (s.queue c q).named)
    (hd : (f (s.queue c q)).deferrable = (s.queue c q).deferrable) : s.LinesKept (s.updQueue c q f) := by
  refine ⟨rfl, fun c' q' => ?_, fun c' q' => ?_⟩ <;> rw [State.queue_updQueue] <;> split
  · rename_i e; rw [hn, e.1, e.2]
  · rfl
  · rename_i e; rw [hd, e.1, e.2]
  · rfl

theorem State.registerWatch_lines (s : State) (die : Nat) (w : Watch) (id : Option CmdId) :
    s.LinesKept (s.registerWatch die w id) := by
  unfold State.registerWatch
  split <;> exact .of_eq rfl rfl

theorem State.setStart_lines (s : State) (id : CmdId) (k : Nat) (v : StartSt) : s.LinesKept (s.setStart id k v) := by
  refine State.updQueue_lines _ _ _ ?_ rfl
  simp only [QueueSt.named, List.map_map]
  refine List.map_congr_left fun f _ => ?_
  simp only [Function.comp_apply]
  split
  · split <;> rfl
  · rfl

theorem State.startWatch_lines (s : State) (id : CmdId) (d : List Byte) (k : Nat) : s.LinesKept (s.startWatch id d k) := by
  unfold State.startWatch
  dsimp only
  split
  · exact State.setStart_lines _ _ _ _
  · split
    · exact (State.LinesKept.of_eq (s := s) (t := s.staleDrop id.ctx) rfl rfl).trans (State.setStart_lines _ _ _ _)
    · exact (State.registerWatch_lines _ _ _ _).trans (State.setStart_lines _ _ _ _)

/-- Where no command can end at the head of its queue, the next one only arms its start conditions (R231, R254, R259). -/
theorem State.nextHead_lines {s : State} {c q : Nat} (h : (s.queue c q).deferrable = false) : s.LinesKept (s.nextHead c q) := by
  unfold State.nextHead State.reachHead
  split
  · exact .refl s
  · rename_i f rest hf
    dsimp only
    split
    · exact .refl s
    · rw [h, if_neg (by simp)]
      refine State.LinesKept.trans (State.updQueue_lines _ _ _ ?_ rfl)
        ((State.startWatch_lines _ _ _ _).trans (State.startWatch_lines _ _ _ _))
      simp [QueueSt.named, hf]

/-- What holds of both branches holds of a choice between them. -/
theorem ite_cases {α : Type} {P : α → Prop} {c : Prop} [Decidable c] {a b : α} (ha : P a) (hb : P b) : P (if c then a else b) := by
  split <;> assumption

theorem State.sendVector_lines (s : State) (v : Nat) : s.LinesKept (s.sendVector v) := by
  unfold State.sendVector
  dsimp only
  split
  · exact .of_eq rfl rfl
  · split <;> exact .of_eq rfl rfl

theorem State.startHoldoff_lines (s : State) (c r : Nat) : s.LinesKept (s.startHoldoff c r) := by
  unfold State.startHoldoff
  split
  · exact .refl s
  · exact State.updCtx_lines _ _ fun _ => rfl

theorem State.requestVector_lines (s : State) (c r : Nat) : s.LinesKept (s.requestVector c r) := by
  unfold State.requestVector
  dsimp only
  split
  · exact State.updCtx_lines _ _ fun _ => rfl
  · exact (State.sendVector_lines _ _).trans (State.startHoldoff_lines _ _ _)

/-- `t` is `s` with at most other memory, other records and another freeze. -/
def State.Recorded (s t : State) : Prop :=
  ∃ mem faults freeze, t = { s with mem := mem, faults := faults, freeze := freeze }

theorem State.Recorded.setFaults {s t : State} (h : s.Recorded t) (x : FaultSt) : s.Recorded { t with faults := x } := by
  obtain ⟨_, _, _, rfl⟩ := h
  exact ⟨_, _, _, rfl⟩

theorem State.Recorded.setFreeze {s t : State} (h : s.Recorded t) (x : FreezeSt) : s.Recorded { t with freeze := x } := by
  obtain ⟨_, _, _, rfl⟩ := h
  exact ⟨_, _, _, rfl⟩

theorem State.Recorded.hostWrite {s t : State} (h : s.Recorded t) (a : Nat) (b : List Byte) : s.Recorded (t.hostWrite a b) := by
  obtain ⟨_, _, _, rfl⟩ := h
  exact ⟨_, _, _, rfl⟩

/-- A fault record changes host memory, the records' state and the freeze it brings about, and requests a vector (R457, R478). -/
theorem State.faultRecord_eq (s : State) (f : FaultRec) : ∃ t ring, s.Recorded t ∧ s.faultRecord f = t.requestVector 0 ring := by
  unfold State.faultRecord
  extract_lets seq src s1 w size phase unlocked s2
  have start : s.Recorded s1 := State.Recorded.setFaults ⟨_, _, _, rfl⟩ _
  suffices put : s.Recorded s2 from ⟨s2, _, put, rfl⟩
  unfold s2
  clear s2
  clear_value s1 w size phase unlocked seq
  generalize f.logical.getD (0xFFFF, 0) = slot
  obtain ⟨lg, inc⟩ := slot
  refine ite_cases (c := s.faults.base = 0 ∨ (!s.pcie.linkUp) = true) start ?_
  dsimp -zeta only
  extract_lets record t src' u
  have counted : s.Recorded u := (start.hostWrite _ _).setFaults _
  clear_value u
  exact ite_cases (counted.setFreeze _) counted

theorem State.faultRecord_lines (s : State) (f : FaultRec) : s.LinesKept (s.faultRecord f) := by
  obtain ⟨t, ring, put, eq⟩ := s.faultRecord_eq f
  rw [eq]
  refine State.LinesKept.trans ?_ (State.requestVector_lines _ _ _)
  obtain ⟨_, _, _, rfl⟩ := put
  exact .of_eq rfl rfl

theorem State.ueReport_lines (s : State) (a : Nat) : s.LinesKept (s.ueReport a) := by
  unfold State.ueReport State.ueReportAt State.ueReportOf
  dsimp only
  split
  case h_5 => exact .refl s
  all_goals
    refine State.LinesKept.trans ?_ (State.faultRecord_lines _ _)
    exact .of_eq rfl rfl

theorem State.reportEnding_lines (s : State) (e : Ending) : s.LinesKept (s.reportEnding e) := by
  unfold State.reportEnding
  split
  · exact State.ueReport_lines _ _
  · exact .refl s

theorem State.foldl_lines {α : Type} {f : State → α → State} (hf : ∀ (t : State) (a : α), t.LinesKept (f t a)) (l : List α) (s : State) :
    s.LinesKept (l.foldl f s) :=
  List.foldlRecOn l f (State.LinesKept.refl s) fun t ht a _ => ht.trans (hf t a)

theorem State.clearQueueCounters_lines (s : State) (c q : Nat) : s.LinesKept (s.clearQueueCounters c q) :=
  State.foldl_lines (f := fun t n => t.wr ⟨n, c, q⟩ 0) (fun _ _ => .of_eq rfl rfl) _ s

theorem State.useCount_lines (s : State) (c : Nat) (up : Bool) (u : Nat × Nat) : s.LinesKept (s.useCount c up u) :=
  State.updCtx_lines _ _ fun _ => rfl

theorem State.takeWriters_lines (s : State) (id : CmdId) (d : List Byte) : s.LinesKept (s.takeWriters id d) := by
  have one (t : State) (h : Nat) : t.LinesKept (if h = noHandle then t else
      t.updSlot id.ctx (handleSlot h) fun x => { x with writer := some id }) := by
    split
    · exact .refl t
    · exact State.updCtx_lines _ _ fun _ => rfl
  unfold State.takeWriters
  dsimp only
  split
  · split
    · exact (one _ _).trans (one _ _)
    · exact one _ _
  · exact .refl s

/-! ### COMMAND_ISSUE -/

/-- How a command in flight stands after issue: its ending and the cells it was given. -/
def Cmd.standing (y : Cmd) : CmdId × List Byte × Option Ending × List Nat := (y.id, y.desc, y.ending, y.cells)

/-- One command has come into flight as `x` says, and no queue has changed. -/
structure State.TakesIn (s t : State) (x : CmdId × List Byte × Option Ending × List Nat) : Prop where
  cmds : t.cmds.map Cmd.standing = s.cmds.map Cmd.standing ++ [x]
  named : ∀ c q, (t.queue c q).named = (s.queue c q).named
  deferrable : ∀ c q, (t.queue c q).deferrable = (s.queue c q).deferrable

theorem State.LinesKept.takesIn {s t u : State} {x : CmdId × List Byte × Option Ending × List Nat} (h : s.LinesKept t)
    (k : t.TakesIn u x) : s.TakesIn u x :=
  ⟨h.cmds ▸ k.cmds, fun c q => (k.named c q).trans (h.named c q), fun c q => (k.deferrable c q).trans (h.deferrable c q)⟩

theorem State.TakesIn.kept {s t u : State} {x : CmdId × List Byte × Option Ending × List Nat} (h : s.TakesIn t x)
    (k : t.LinesKept u) : s.TakesIn u x :=
  ⟨k.cmds ▸ h.cmds, fun c q => (k.named c q).trans (h.named c q), fun c q => (k.deferrable c q).trans (h.deferrable c q)⟩

theorem State.refuse_takesIn (s : State) (id : CmdId) (d : List Byte) (e : Ending) :
    s.TakesIn (s.refuse id d e) (id, d, some e, []) :=
  ⟨by simp [State.refuse, Cmd.standing, State.freshCmd], fun _ _ => rfl, fun _ _ => rfl⟩

theorem State.intake_takesIn (s : State) (id : CmdId) (d : List Byte) (v : Verdict) (scales : Tab Nat) (members : List Nat) :
    s.TakesIn (s.intake id d v scales members) (id, d, none, members) := by
  unfold State.intake
  extract_lets t named outs buffers fresh c u
  have counted : s.LinesKept u := by
    refine State.LinesKept.trans ?_ (State.foldl_lines (fun _ _ => State.useCount_lines _ _ _ _) _ _)
    show s.LinesKept (if _ then _ else _)
    split
    · exact State.clearQueueCounters_lines _ _ _
    · exact .refl s
  refine counted.takesIn (State.TakesIn.kept ?_ (State.takeWriters_lines _ _ _))
  exact ⟨by simp [c, fresh, Cmd.standing, State.freshCmd], fun _ _ => rfl, fun _ _ => rfl⟩

/-- A command whose checks meet a bank under handover is not issued yet (R81). -/
theorem State.issue_waits {s : State} {id : CmdId} {d : List Byte}
    (h : (s.issueJudge id d (s.membersOf id.ctx id.q)).1.ending = some AccErr.wait.ending) : s.issue id d = none := by
  unfold State.issue
  dsimp only
  simp [h]

/-- Any other command comes into flight with the ending of its checks. -/
theorem State.issue_takesIn {s : State} {id : CmdId} {d : List Byte} {v : Verdict}
    (hv : (s.issueJudge id d (s.membersOf id.ctx id.q)).1 = v) (scales : v.ending = none → ∃ t, s.storedScales id v.uses = .ok t)
    (h : v.ending ≠ some AccErr.wait.ending) :
    ∃ t, s.issue id d = some t ∧ s.TakesIn t (id, d, v.ending, if v.ending.isNone then s.membersOf id.ctx id.q else []) := by
  subst hv
  unfold State.issue
  dsimp only
  split
  · rename_i e he
    rw [he] at h ⊢
    rw [if_neg fun c => h (by rw [c])]
    refine ⟨_, rfl, State.LinesKept.takesIn ?_ (State.refuse_takesIn _ _ _ _)⟩
    refine State.LinesKept.trans ?_ (State.reportEnding_lines _ _)
    split
    · exact .of_eq rfl rfl
    · exact .refl s
  · rename_i he
    obtain ⟨t, ht⟩ := scales he
    rw [State.issueJudge_passes he, if_neg (by simp), ht, he]
    exact ⟨_, rfl, State.intake_takesIn _ _ _ _ _ _⟩

/-- The command at the head of a queue that nothing holds back is issued (R85, R254). -/
theorem State.issueHead_eq {s : State} {c q : Nat} {f : Fetched} {rest : List Fetched} (hf : (s.queue c q).fetched = f :: rest)
    (link : s.pcie.linkUp = true) (h0 : f.start0 ≠ .stale) (h1 : f.start1 ≠ .stale) (hw : s.waitOn c q f = none)
    (hg : f.genFailed = none) :
    s.issueHead c q = ((s.updQueue c q fun x => { x with fetched := rest }).issue ⟨c, q, f.seq⟩ f.desc).elim s fun t => t.nextHead c q := by
  unfold State.issueHead
  rw [hf]
  dsimp only
  rw [if_neg h0, if_neg h1, link, hw, hg, if_neg (by simp), if_neg (by simp)]

theorem State.issueJudge_unknown {s : State} {id : CmdId} {d : List Byte} {members : List Nat} (h : hOpcode d ∉ opcodes) :
    (s.issueJudge id d members).1.ending = some (formatViol 0).ending := by
  unfold State.issueJudge
  dsimp only
  rw [if_pos (by simpa using h)]

theorem privilegedOps_subset : privilegedOps ⊆ opcodes := by decide

theorem State.issueJudge_unprivileged {s : State} {id : CmdId} {d : List Byte} {members : List Nat}
    (h : hOpcode d ∈ privilegedOps) (hc : id.ctx ≠ 0) :
    (s.issueJudge id d members).1.ending = some (refusal .accessDenied noHandle 0) := by
  unfold State.issueJudge
  dsimp only
  rw [if_neg (by simpa using privilegedOps_subset h), if_pos (by simp [State.unprivileged, h, hc])]

/-- Settles O18: a command leaves its queue with the verdict of `issueJudge`, since one that passes counts in no STALE_DROPS and so
finds its stored scales as before. -/
theorem issueGivesTheVerdict : Obligations.IssueGivesTheVerdict := by
  intro s c q f rest inv hf fore link h0 h1 hw hg id s' v scales
  have head := State.issueHead_eq hf link h0 h1 hw hg
  have line : (s'.queue c q) = { s.queue c q with fetched := rest } := by
    rw [State.queue_updQueue, if_pos ⟨rfl, rfl⟩]
  refine ⟨fun wait => ?_, fun go => ?_, State.issueJudge_unknown, fun priv hc => State.issueJudge_unprivileged priv hc⟩
  · show Host.Outcome.next (s.issueHead c q) = _
    rw [head, State.issue_waits wait]
    rfl
  · obtain ⟨t, issued, taken⟩ := State.issue_takesIn (id := id) rfl scales go
    have next : t.LinesKept (t.nextHead c q) := State.nextHead_lines (by rw [taken.deferrable, line]; exact fore)
    obtain ⟨cmds, named, -⟩ := taken.kept next
    refine ⟨t.nextHead c q, ?_, ?_, _, cmds, rfl⟩
    · show Host.Outcome.next (s.issueHead c q) = _
      rw [head, issued]
      rfl
    · have leaves := named c q
      rw [line] at leaves
      exact leaves

end Sys2Proof.Machine
end

section
/-!
SUPPORT. A slot as it leaves, and an ORIGIN entry whose message a dispatcher under test holds back (R322, R328, R459).
-/
set_option Elab.async false
namespace Sys2Proof.Machine

/-! ### What a sealed slot carries -/

theorem State.port_updPort_same (s : State) (p : Nat) (f : PortSt → PortSt) : (s.updPort p f).port p = f (s.port p) :=
  Tab.getD_upd_same _ _ _ _

/-- Event counters stand beside the fabric. -/
theorem State.pmc_fabric (s : State) (die kind inst ev : Nat) (ctx : Option Nat) (n : Nat) :
    (s.pmc die kind inst ev ctx n).fabric = s.fabric :=
  State.pmc_induct (P := fun t => t.fabric = s.fabric) (fun _ _ _ h => h) rfl kind inst ev ctx

/-- A port remembers the slot that it has just sealed (R322, R328). -/
theorem State.seal_sent (s : State) (p n : Nat) (sl : Slot) : ∃ q, ((s.seal p n sl).port p).sent = some q ∧ q.slot = sl := by
  unfold State.seal
  extract_lets x ctr bs sent counted
  have port : counted.fabric = sent.fabric := by
    unfold counted
    split
    · exact State.pmc_fabric _ _ _ _ _ _ _
    · split
      · exact State.pmc_fabric _ _ _ _ _ _ _
      · rfl
  have last : (counted.port p).sent = some ⟨s.frame, n, x.txKey, ctr, x.keyPhase, sl, bs⟩ := by
    rw [State.port, port]
    exact congrArg PortSt.sent (State.port_updPort_same s p _)
  split
  · exact ⟨_, last, rfl⟩
  · exact ⟨_, last, rfl⟩

theorem exec_slotTransmit_sends {s : State} {p n : Nat} (h : (s.keySwitch p).sendsNow p n = true) :
    exec (.slotTransmit p n) s = .next (((s.keySwitch p).chooseSlot p n).1.seal p n ((s.keySwitch p).chooseSlot p n).2) := by
  show Host.Outcome.next (if _ then _ else _) = _
  rw [if_pos h]

/-! ### A dispatcher under test keeps its slots (R459) -/

def heldId : CmdId := ⟨1, 0, 0⟩
/-- A token message of a BATCH_SEND, with one slot to leave. -/
def heldMessage : OutMsg := ⟨some heldId, 1, 7, 3, 6, [(0, [])], 0, [], 0, none, none, none⟩
def heldFlow : FlowRec := ⟨7, 3, 1, 2, 3, 7⟩
def heldEntry : TxEnt := ⟨1, false, false, 0, 0, 7⟩
def heldTable : SlotTable := ⟨9, 1, [heldFlow], [(entryNo 0 0 1, heldEntry)], []⟩

/-- Frame 100, the first pip of slot 1: port 0 is UP, its entry is the message's, and the dispatcher of die 0 is in self-test. -/
def heldState : State :=
  { State.reset with
    time := { TimeSt.init with pips := 102409 }
    faults := { FaultSt.init with tests := [(⟨2, 0, 0⟩, none, 0)] }
    fabric := { FabricSt.init with
      active := some heldTable, ports := [(0, { PortSt.init with mode := .up, txKey := some ⟨[], 1⟩ })], out := [heldMessage] } }

theorem heldState_inv : heldState.Inv := by
  refine ⟨⟨?_, ?_⟩, List.Pairwise.nil, ?_, ?_⟩ <;> decide +kernel

/-- Its turn has come, yet the entry leaves IDLE. -/
theorem heldState_idle : (heldState.chooseSlot 0 1).2.kind = 0 := by decide +kernel

/-- Refutes O43: the turn of a message alone does not say that its slot leaves. The messages of a dispatcher under test are held back
(R459), and their ORIGIN entry sends IDLE. -/
theorem not_slotsLeaveByTheirEntries : ¬ Obligations.SlotsLeaveByTheirEntries := by
  intro h
  have sends : heldState.sendsNow 0 1 = true := by decide +kernel
  obtain ⟨-, -, -, leaves⟩ := h heldState 0 1 heldState_inv
  obtain ⟨t, q, run, sent, -, -, -, -, -, -, -, -, -, -, entry⟩ := leaves sends
  obtain ⟨-, byEntry⟩ := entry (by decide) (by decide +kernel) heldTable 0 (by decide +kernel)
  obtain ⟨-, -, -, -, first⟩ := byEntry heldEntry (by decide +kernel)
  obtain ⟨carried, -⟩ := first heldMessage [] heldFlow rfl rfl rfl rfl rfl rfl (by decide) (by decide +kernel) (by decide +kernel)
    (by decide +kernel) (by decide +kernel) (by decide +kernel)
  rw [exec_slotTransmit_sends (s := heldState) sends] at run
  cases run
  obtain ⟨q', sent', slot⟩ := State.seal_sent (heldState.chooseSlot 0 1).1 0 1 (heldState.chooseSlot 0 1).2
  have same : q = q' := Option.some.inj (sent.symm.trans sent')
  have kind : q.slot.kind = 1 := by rw [carried]; rfl
  rw [same, slot, heldState_idle] at kind
  cases kind

end Sys2Proof.Machine
end

section
/-!
SUPPORT. A slot as it arrives: its port and tag, the unit of its flow, slots missed and lost (R321, R324, R329, R353–R360, R368–R372).
-/
set_option Elab.async false
namespace Sys2Proof.Machine

/-! ### Addresses of the registers that a port raises -/

/-- The registers that hearing a slot on port `p` can change: the port's own and the event counters (R321, R329, R474). -/
def heardAddr (p a : Nat) : Prop :=
  a = (portReg .fecCorrected p).addr ∨ a = (portReg .rxFrameCtr p).addr ∨ ∃ d i, d < 8 ∧ i < 64 ∧ a = (pmcReg d i).addr

theorem portReg_inMap {n : RegName} {p : Nat} (hp : p < 40) (hb : n.info.block = .port) (hc : 0 < n.info.count) : (portReg n p).inMap :=
  ⟨by rw [portReg, hb]; exact hp, hc⟩

theorem regDie0_inMap {n : RegName} (hb : n.info.block = .die0) (hc : 0 < n.info.count) : (regDie0 n).inMap :=
  ⟨by rw [regDie0, hb]; exact Nat.zero_lt_one, hc⟩

theorem addr_ne_of_name {r q : Reg} (hr : r.inMap) (hq : q.inMap) (h : r.name ≠ q.name) : r.addr ≠ q.addr :=
  fun e => h (congrArg Reg.name (Reg.addr_inj hr hq e))

/-- A register of the map of another name keeps its word. -/
theorem not_heardAddr {p : Nat} {r : Reg} (hp : p < 40) (hr : r.inMap) (hc : r.name ≠ .fecCorrected) (hx : r.name ≠ .rxFrameCtr)
    (hv : r.name ≠ .pmcValue) : ¬ heardAddr p r.addr := by
  rintro (e | e | ⟨d, i, hd, hi, e⟩)
  · exact addr_ne_of_name hr (portReg_inMap hp rfl (by decide)) hc e
  · exact addr_ne_of_name hr (portReg_inMap hp rfl (by decide)) hx e
  · exact addr_ne_pmcReg hr hv d i hd hi e

theorem portReg_addr (n : RegName) (p : Nat) (hb : n.info.block = .port) (hs : n.info.stride = 0) :
    (portReg n p).addr = p / 5 * 0x400000 + 0x200000 + p % 5 * 0x1000 + n.info.off := by
  simp [Reg.addr, portReg, hb, hs, Block.base, dieStride]

theorem pmcReg_addr (d i : Nat) : (pmcReg d i).addr = d * 0x400000 + 0xB0200 + 8 * i := by
  simp [Reg.addr, pmcReg, RegName.info, Block.base, dieStride]

/-- The owner registers of every cell, whether a die has it or not, stand in the cell blocks (R535). -/
theorem ownerReg_addr (c b : Nat) (hb : b < 32) : ∃ o, 0x40 ≤ o ∧ o < 0x40 + 4 * 32 ∧
    (ownerReg c b).addr = c / 104 * 0x400000 + 0x100000 + c % 104 * 0x1000 + o := by
  unfold ownerReg
  split
  · exact ⟨0x40 + 4 * b, by omega, by omega, by simp [Reg.addr, RegName.info, Block.base, dieStride]; omega⟩
  · exact ⟨0xA0 + 4 * (b - 24), by omega, by omega, by simp [Reg.addr, RegName.info, Block.base, dieStride]; omega⟩

theorem owner_not_heardAddr (p c b : Nat) (hb : b < 32) : ¬ heardAddr p (ownerReg c b).addr := by
  obtain ⟨o, -, ho, eq⟩ := ownerReg_addr c b hb
  have hc : c % 104 < 104 := Nat.mod_lt _ (by decide)
  have hp : p % 5 < 5 := Nat.mod_lt _ (by decide)
  rw [eq]
  rintro (e | e | ⟨d, i, hd, hi, e⟩)
  · rw [portReg_addr _ _ rfl rfl, show RegName.fecCorrected.info.off = 0x10 from rfl] at e
    omega
  · rw [portReg_addr _ _ rfl rfl, show RegName.rxFrameCtr.info.off = 0x30 from rfl] at e
    omega
  · rw [pmcReg_addr] at e
    omega

/-! ### What hearing a slot changes -/

/-- What a port knows that decides on the next slot: its control slots, its receive key and the phase of that key. -/
def PortSt.hearing (x : PortSt) : List CtlRec × Option LinkKey × Bool := (x.ctl, x.rxKey, x.rxPhase)

/-- From `s` to `t` port `p` has heard a slot, and nothing has come of it yet. -/
structure State.Heard (p : Nat) (s t : State) : Prop where
  rest : ∃ regs ports, t = { s with regs := regs, fabric := { s.fabric with ports := ports } }
  regs : t.regsOk
  kept : ∀ q : Reg, ¬ heardAddr p q.addr → t.rd q = s.rd q
  port : (t.port p).hearing = (s.port p).hearing

namespace State.Heard

theorem refl {s : State} (p : Nat) (h : s.regsOk) : s.Heard p s := ⟨⟨_, _, rfl⟩, h, fun _ _ => rfl, rfl⟩

theorem updPort {s t : State} {p : Nat} (h : s.Heard p t) {f : PortSt → PortSt} (hf : ∀ x, (f x).hearing = x.hearing) :
    s.Heard p (t.updPort p f) := by
  refine ⟨?_, h.regs, h.kept, ?_⟩
  · obtain ⟨_, _, rfl⟩ := h.rest
    exact ⟨_, _, rfl⟩
  · rw [State.port_updPort_same, hf, h.port]

theorem wr {s t : State} {p : Nat} (h : s.Heard p t) {r : Reg} (hr : heardAddr p r.addr) (v : Nat) : s.Heard p (t.wr r v) := by
  refine ⟨?_, State.wr_regsOk r v h.regs, fun q hq => ?_, h.port⟩
  · obtain ⟨_, _, rfl⟩ := h.rest
    exact ⟨_, _, rfl⟩
  · have ne : q.addr ≠ r.addr := fun e => hq (e ▸ hr)
    rw [State.rd_wr_other v h.regs ne, h.kept q hq]

theorem pmc {s t : State} {p : Nat} (h : s.Heard p t) (hp : p < 40) (kind inst ev : Nat) (ctx : Option Nat) (n : Nat) :
    s.Heard p (t.pmc (p / 5) kind inst ev ctx n) :=
  State.pmc_induct (P := s.Heard p) (fun _ i hi k => k.wr (.inr (.inr ⟨p / 5, i, by omega, hi, rfl⟩)) _) h kind inst ev ctx

/-! The parts of the state that a slot is judged and taken by stand as they were. -/

variable {s t : State} {p : Nat} (h : s.Heard p t)
include h

theorem mem : t.mem = s.mem := by obtain ⟨_, _, rfl⟩ := h.rest; rfl
theorem ctxs : t.ctxs = s.ctxs := by obtain ⟨_, _, rfl⟩ := h.rest; rfl
theorem dies : t.dies = s.dies := by obtain ⟨_, _, rfl⟩ := h.rest; rfl
theorem cells : t.cells = s.cells := by obtain ⟨_, _, rfl⟩ := h.rest; rfl
theorem frame : t.frame = s.frame := by obtain ⟨_, _, rfl⟩ := h.rest; rfl
theorem rx : t.fabric.rx = s.fabric.rx := by obtain ⟨_, _, rfl⟩ := h.rest; rfl
theorem waiters : t.fabric.waiters = s.fabric.waiters := by obtain ⟨_, _, rfl⟩ := h.rest; rfl
theorem failover : t.fabric.lastFailover = s.fabric.lastFailover := by obtain ⟨_, _, rfl⟩ := h.rest; rfl
theorem switchFrame : t.fabric.switchFrame = s.fabric.switchFrame := by obtain ⟨_, _, rfl⟩ := h.rest; rfl
theorem tableIn (g : Nat) : t.tableIn g = s.tableIn g := by obtain ⟨_, _, rfl⟩ := h.rest; rfl
theorem activeFlow (f : Nat) : t.activeFlow f = s.activeFlow f := by obtain ⟨_, _, rfl⟩ := h.rest; rfl
theorem rxFlow (f : Nat) : t.rxFlow f = s.rxFlow f := by obtain ⟨_, _, rfl⟩ := h.rest; rfl
theorem ctl : (t.port p).ctl = (s.port p).ctl := congrArg Prod.fst h.port
theorem rxKey : (t.port p).rxKey = (s.port p).rxKey := congrArg (fun x => x.2.1) h.port
theorem rxPhase : (t.port p).rxPhase = (s.port p).rxPhase := congrArg (fun x => x.2.2) h.port

end State.Heard

/-! ### A slot in its turn (R13, R324, R360) -/

theorem exec_slotPresent_now {s : State} {p n : Nat} (h : s.presentsNow p n = true) (rx : RxSlot) :
    exec (.slotPresent p n rx) s = .next (s.present p n rx) := by
  show Host.Outcome.next (if _ then _ else _) = _
  rw [if_pos h]

theorem exec_slotPresent_not_now {s : State} {p n : Nat} (h : s.presentsNow p n = false) (rx : RxSlot) :
    exec (.slotPresent p n rx) s = .next s := by
  show Host.Outcome.next (if _ then _ else _) = _
  rw [if_neg (by simp [h])]

theorem State.presentsNow_down {s : State} {p : Nat} (n : Nat) (h : s.portUp p = false) : s.presentsNow p n = false := by
  simp [State.presentsNow, h]

theorem State.presentsNow_early_or_late {s : State} (p : Nat) {n : Nat} (h : s.now % 1024 < 9 * n ∨ 9 * n + 8 < s.now % 1024) :
    s.presentsNow p n = false := by
  have out : s.inSlotTime n = false := by
    unfold State.inSlotTime
    rw [Bool.and_eq_false_iff]
    simpa using h
  simp [State.presentsNow, out]

/-- No slot is presented twice on a port, nor one before a slot that has been presented. -/
theorem State.presentsNow_seen {s : State} {p n : Nat} (h : s.frame * 128 + n ≤ (s.port p).seen) : s.presentsNow p n = false := by
  have own : p / 5 * 5 + p % 5 = p := Nat.div_add_mod' p 5
  have turn : ((upTo 5).all fun k =>
      let q := p / 5 * 5 + k
      if p ≤ q then decide ((s.port q).seen < s.frame * 128 + n) else decide ((s.port q).seen ≤ s.frame * 128 + n)) = false := by
    refine List.all_eq_false.2 ⟨p % 5, List.mem_range.2 (Nat.mod_lt _ (by decide)), ?_⟩
    dsimp only
    rw [own, if_pos (Nat.le_refl p)]
    simpa using h
  unfold State.presentsNow
  dsimp only at turn ⊢
  rw [turn, Bool.and_false]

/-! ### A good slot through its port (R321, R328, R329, R353, R354) -/

/-- A slot that FEC delivers and whose tag verifies under the receive key is what it carried. -/
theorem State.openSlot_good {s t : State} {p n : Nat} {rx : RxSlot} {k : LinkKey} {o : List Byte × List Byte} (h : s.Heard p t)
    (hp : p < 40) (key : (s.port p).rxKey = some k) (opens : openBytes (some k) (ctrOf n (s.rd (portReg .rxFrameCtr p))) n rx.bytes = some o)
    (phase : bitOf (u8 rx.bytes 0) 4 = (s.port p).rxPhase) (fec : rx.fecOk = true) (reserved : bitsOf (u8 o.1 0) 7 5 = 0)
    (data : (slotOf o.1 o.2).kind = 1) (ctr : t.rd (portReg .rxFrameCtr p) = s.rd (portReg .rxFrameCtr p)) :
    ∃ u, t.openSlot p n rx = (u, slotOf o.1 o.2) ∧ s.Heard p u := by
  have corrected : ∃ v, (if rx.corrected = 0 then t else t.bump (portReg .fecCorrected p) rx.corrected) = v ∧ s.Heard p v
      ∧ v.rd (portReg .rxFrameCtr p) = s.rd (portReg .rxFrameCtr p) := by
    split
    · exact ⟨t, rfl, h, ctr⟩
    · have other := addr_ne_of_name (portReg_inMap (n := .rxFrameCtr) hp rfl (by decide))
        (portReg_inMap (n := .fecCorrected) hp rfl (by decide)) nofun
      exact ⟨_, rfl, h.wr (.inl rfl) _, (State.rd_bump_other _ h.regs other).trans ctr⟩
  obtain ⟨v, eq, hv, ctr⟩ := corrected
  have opened : ∃ u, v.openPhase p n rx.bytes = (u, some o) ∧ s.Heard p u := by
    unfold State.openPhase
    dsimp only
    rw [hv.rxKey, key]
    dsimp only
    rw [hv.rxPhase, if_pos phase, ctr, opens]
    dsimp only
    split
    · exact ⟨v, rfl, hv⟩
    · refine ⟨_, rfl, State.Heard.wr ?_ (.inr (.inl rfl)) _⟩
      exact hv.updPort fun _ => rfl
  obtain ⟨u, eq', hu⟩ := opened
  obtain ⟨hd, pl⟩ := o
  refine ⟨u, ?_, hu⟩
  unfold State.openSlot
  dsimp only
  rw [eq, fec, eq']
  dsimp only at reserved data ⊢
  rw [reserved, data]
  simp

/-- A DATA slot that a DELIVER entry of its flow expects passes, outside the frame of a failover. -/
theorem State.judge_good {s t : State} {p : Nat} {e : RxEnt} {sl : Slot} (h : s.Heard p t) (data : sl.kind = 1)
    (calm : s.fabric.lastFailover = false ∨ s.frame ≠ s.fabric.switchFrame)
    (named : (s.port p).tableNamed s.frame ((s.tableIn (s.frame - 1)).elim 0 (fun x => x.1.id)) = true)
    (action : e.action = 1) (flow : sl.flow = e.flow) (hops : sl.hops < 6) : t.judge p (some e) sl = (t, sl) := by
  have still : (t.port p).tableNamed = (s.port p).tableNamed := by
    unfold PortSt.tableNamed
    rw [h.ctl]
  unfold State.judge
  dsimp only
  rw [h.failover, h.switchFrame, h.frame, h.tableIn, still, named, data, if_neg (by rcases calm with c | c <;> simp [c]), if_neg (by simp),
    if_neg (by simp), if_neg (by simp [action, flow, hops])]

/-- A good DATA slot of a DELIVER entry is delivered. -/
theorem State.present_good {s : State} {p n : Nat} {rx : RxSlot} {tb : SlotTable} {i : Nat} {e : RxEnt} {k : LinkKey}
    {o : List Byte × List Byte} (ok : s.regsOk) (hp : p < 40) (table : s.tableIn s.frame = some (tb, i)) (entry : tb.rxAt i p n = some e)
    (action : e.action = 1) (calm : s.fabric.lastFailover = false ∨ s.frame ≠ s.fabric.switchFrame) (key : (s.port p).rxKey = some k)
    (opens : openBytes (some k) (ctrOf n (s.rd (portReg .rxFrameCtr p))) n rx.bytes = some o)
    (phase : bitOf (u8 rx.bytes 0) 4 = (s.port p).rxPhase) (fec : rx.fecOk = true) (reserved : bitsOf (u8 o.1 0) 7 5 = 0)
    (data : (slotOf o.1 o.2).kind = 1)
    (named : (s.port p).tableNamed s.frame ((s.tableIn (s.frame - 1)).elim 0 (fun x => x.1.id)) = true)
    (flow : (slotOf o.1 o.2).flow = e.flow) (hops : (slotOf o.1 o.2).hops < 6) :
    ∃ t, s.present p n rx = t.deliver p (slotOf o.1 o.2) ∧ s.Heard p t := by
  have start := (State.Heard.refl p ok).updPort (f := fun x => { x with seen := s.frame * 128 + n }) fun _ => rfl
  obtain ⟨u, opened, hu⟩ := State.openSlot_good start hp key opens phase fec reserved data rfl
  refine ⟨_, ?_, hu.pmc hp 8 (p % 5) 2 none 1⟩
  simp only [State.present, opened, hu.frame, hu.tableIn, table, Option.bind_some, entry,
    State.judge_good hu data calm named action flow hops, Option.elim_some, data, if_true]
  unfold State.handle
  rw [action]
  exact if_pos data

/-! ### Writes see no more than memory, cells and the owners of banks -/

theorem bankOfLocal_lt {o b : Nat} (h : bankOfLocal o = some b) : b < 32 := by
  unfold bankOfLocal at h
  split at h
  · cases h; omega
  · split at h
    · cases h; omega
    · cases h

/-- `t` has the memory of `s`, and lets each context reach the same of it. -/
structure State.SameStore (s t : State) : Prop where
  mem : t.mem = s.mem
  dies : t.dies = s.dies
  cells : t.cells = s.cells
  owners : ∀ c b, b < 32 → t.rd (ownerReg c b) = s.rd (ownerReg c b)

namespace State.SameStore

variable {s t : State} (h : s.SameStore t)
include h

theorem remapPage (k : Nat) : t.remapPage k = s.remapPage k := by
  unfold State.remapPage
  rw [h.mem]

theorem cellOf (l : Nat) : t.cellOf l = s.cellOf l := by
  unfold State.cellOf State.lslot State.die
  rw [h.dies]

theorem held? (q : Place) : t.held? q = s.held? q := by
  cases q <;> simp only [State.held?, h.remapPage]

theorem keyOf (q : Place) : t.keyOf q = s.keyOf q := by
  unfold State.keyOf
  rw [h.held?]
  cases s.held? q <;> simp only [h.cellOf]

theorem bankJudge (x : Acc) (c : Nat) {b : Nat} (hb : b < 32) : t.bankJudge x c b = s.bankJudge x c b := by
  simp only [State.bankJudge, State.cell, h.cells, h.owners c b hb]

theorem reach (x : Acc) (a : Nat) : t.reach x a = s.reach x a := by
  unfold State.reach State.die
  rw [h.mem, h.dies]
  generalize placeOf s.mem.layout a = q
  cases q with
  | sram l o =>
    simp only [h.keyOf, h.cellOf]
    cases hb : bankOfLocal o with
    | none => rfl
    | some b =>
      cases s.cellOf l with
      | none => rfl
      | some c => simp only [h.bankJudge x c (bankOfLocal_lt hb)]
  | _ => simp only [h.keyOf]

theorem setMem (m : MemSt) : { s with mem := m }.SameStore { t with mem := m } := ⟨rfl, h.dies, h.cells, h.owners⟩

theorem setCells (k : Nat) (bs : List Byte) : (s.setCells k bs).SameStore (t.setCells k bs) := by
  unfold State.setCells
  rw [h.mem]
  exact h.setMem _

theorem setSeal (b : Nat) (x : Seal) : (s.setSeal b x).SameStore (t.setSeal b x) := by
  unfold State.setSeal
  rw [h.mem]
  exact h.setMem _

theorem setPoison (w : Nat) (bad : Bool) : (s.setPoison w bad).SameStore (t.setPoison w bad) := by
  unfold State.setPoison
  rw [h.mem]
  exact h.setMem _

theorem hostWrite (a : Nat) (bs : List Byte) : (s.hostWrite a bs).SameStore (t.hostWrite a bs) := by
  unfold State.hostWrite
  rw [h.mem]
  exact h.setMem _

end State.SameStore

/-- Two accesses that leave the same memory and meet the same error. -/
def State.SameAccess (r q : State × Option AccErr) : Prop := r.1.SameStore q.1 ∧ q.2 = r.2

namespace State.SameStore

variable {s t : State} (h : s.SameStore t)
include h

theorem writeWord (a k : Nat) (bs : List Byte) : State.SameAccess (s.writeWord a k bs) (t.writeWord a k bs) := by
  unfold State.writeWord
  rw [h.mem]
  split
  · exact ⟨(h.setCells k bs).setPoison _ _, rfl⟩
  · split
    · exact ⟨h, rfl⟩
    · exact ⟨h.setCells k bs, rfl⟩

theorem writeBlock (key a k : Nat) (bs : List Byte) : State.SameAccess (s.writeBlock key a k bs) (t.writeBlock key a k bs) := by
  have plain (page i : Nat) : t.unsealed key page i = s.unsealed key page i := by simp only [State.unsealed, h.mem]
  unfold State.writeBlock
  simp only [plain, h.mem]
  split
  · exact ⟨(((h.setCells k bs).setSeal _ _).setPoison _ _).setPoison _ _, rfl⟩
  · split
    · exact ⟨h, rfl⟩
    · split
      · exact ⟨h, rfl⟩
      · exact ⟨(h.setCells _ _).setSeal _ _, rfl⟩

theorem writePiece (x : Acc) (a : Nat) (bs : List Byte) : State.SameAccess (s.writePiece x a bs) (t.writePiece x a bs) := by
  have key : t.memKey x.ctx = s.memKey x.ctx := by simp only [State.memKey, h.mem]
  unfold State.writePiece
  rw [h.reach, key]
  split
  · exact ⟨h, rfl⟩
  · split
    · exact ⟨h.hostWrite _ _, rfl⟩
    · split
      · exact h.writeBlock _ _ _ _
      · obtain ⟨low, same⟩ := h.writeWord a _ (bs.take (8 - a % 8))
        dsimp only
        split
        · exact ⟨low, same⟩
        · obtain ⟨high, same'⟩ := low.writeWord (a + (8 - a % 8)) _ (bs.drop (8 - a % 8))
          exact ⟨high, by rw [same, same']⟩

theorem writePieces (x : Acc) (ps : List (Nat × List Byte)) : State.SameAccess (s.writePieces x ps) (t.writePieces x ps) := by
  induction ps generalizing s t with
  | nil => exact ⟨h, rfl⟩
  | cons p ps ih =>
    obtain ⟨first, same⟩ := h.writePiece x p.1 p.2
    obtain ⟨rest, same'⟩ := ih first
    unfold State.writePieces
    exact ⟨rest, by dsimp only; rw [same, same']⟩

theorem writeBytes (x : Acc) (a : Nat) (bs : List Byte) : State.SameAccess (s.writeBytes x a bs) (t.writeBytes x a bs) := by
  have apart (ps : List (Nat × List Byte)) : t.unreachable x ps = s.unreachable x ps := by simp only [State.unreachable, h.reach]
  unfold State.writeBytes
  dsimp only
  rw [apart]
  split
  · exact ⟨h, rfl⟩
  · exact h.writePieces x _

end State.SameStore

theorem State.Heard.sameStore {s t : State} {p : Nat} (h : s.Heard p t) : s.SameStore t :=
  ⟨h.mem, h.dies, h.cells, fun c b hb => h.kept _ (owner_not_heardAddr p c b hb)⟩

/-! ### Regulators charge an access and leave what memory holds -/

/-- What device and host memory hold. -/
def State.contents (s : State) : List Host.Cell × List Host.Cell := (s.mem.cells, s.mem.host)

theorem State.pmc_contents (s : State) (die kind inst ev : Nat) (ctx : Option Nat) (n : Nat) :
    (s.pmc die kind inst ev ctx n).contents = s.contents :=
  State.pmc_induct (P := fun t => t.contents = s.contents) (fun _ _ _ h => h) rfl kind inst ev ctx

theorem State.charge_contents (s : State) (ctx part : Nat) (q : Place) (n : Nat) (write : Bool) :
    (s.charge ctx part q n write).contents = s.contents := by
  unfold State.charge
  split
  · rename_i d c _ _
    extract_lets
    split
    extract_lets counted
    have same : counted.contents = s.contents := State.pmc_contents _ _ _ _ _ _ _
    clear_value counted
    split
    dsimp only
    split
    · exact same
    · split
      · exact same
      · split
        · exact same
        · exact (State.pmc_contents _ _ _ _ _ _ _).trans same
  · rfl

theorem State.chargeRange_contents (s : State) (ctx part : Nat) (write : Bool) (fuel a n : Nat) :
    (s.chargeRange ctx part write fuel a n).contents = s.contents := by
  induction fuel generalizing s a n with
  | zero => rfl
  | succ fuel ih =>
    unfold State.chargeRange
    dsimp only
    split
    · rfl
    · rw [ih, State.charge_contents]

/-! ### A good slot at its unit (R356–R358, R360, R371) -/

theorem State.rxFlow_updRx_same (s : State) (f : Nat) (g : RxFlow → RxFlow) : (s.updRx f g).rxFlow f = g (s.rxFlow f) :=
  Tab.getD_upd_same _ _ _ _

/-- What a flow remembers of a slot that it accepts in frame `g`, where the slot is no resend. -/
def RxFlow.accept (x : RxFlow) (g : Nat) (sl : Slot) : RxFlow :=
  RxFlow.follow { x with accepted := (x.accepted.filter fun a => decide (g ≤ a.1 + 24)) ++ [(g, sl)] } sl

/-- Numbering the missed slots moves none of them. -/
theorem numberMissed_place (sent seq : Nat) (ms : List Missed) : (numberMissed sent seq ms).map Missed.place = ms.map Missed.place := by
  refine List.ext_getElem (by simp [numberMissed, upTo]) fun i hi hj => ?_
  have inside : i < ms.length := by simpa using hj
  simp only [numberMissed, upTo, List.getElem_map, List.getElem_range, List.getD_eq_getElem?_getD, List.getElem?_eq_getElem inside,
    Option.getD_some]
  split <;> rfl

theorem RxFlow.accept_eq {x : RxFlow} {sl : Slot} (g : Nat) (h : sl.isResend = false) : (x.accept g sl).signals = x.signals
    ∧ (x.accept g sl).missed.map Missed.place = x.missed.map Missed.place ∧ (x.accept g sl).lost = x.lost := by
  unfold RxFlow.accept RxFlow.follow
  rw [if_neg (by simp [h])]
  exact ⟨rfl, numberMissed_place _ _ _, rfl⟩

section
variable {s t : State} {p : Nat} {sl : Slot} {f : FlowRec} (h : s.Heard p t) (active : s.activeFlow sl.flow = some f)
  (epoch : sl.epoch = f.epoch) (takes : unitTakes f.unit sl.type = true) (current : (s.rxFlow f.flow).epoch = f.epoch)
include h active epoch takes current

/-- A further copy is counted and discarded. -/
theorem State.deliver_copy (copy : (s.rxFlow f.flow).copyOf sl = true) : t.deliver p sl = t.bump (regDie0 .duplicateDrops) 1 := by
  have fresh : t.freshRx f = t := by rw [State.freshRx, h.rxFlow, if_pos current]
  unfold State.deliver
  rw [h.activeFlow, active]
  dsimp only
  rw [if_neg (not_not.2 epoch), takes, if_neg (by simp), fresh, h.rxFlow, if_pos copy]

/-- A first copy goes to the unit of its flow, where nothing waits before it. -/
theorem State.deliver_fresh (copy : (s.rxFlow f.flow).copyOf sl = false) (first : sl.isResend = false)
    (kept : (s.rxFlow f.flow).dropping ≠ some sl.sent) (clear : s.fabric.waiters.any (Waiter.blocks (p / 5) f.unit) = false) :
    let u := t.updRx f.flow fun x => x.accept s.frame sl
    t.deliver p sl = (u.toUnit p f sl).getD (u.addWaiter (.slot p f sl)) := by
  have fresh : t.freshRx f = t := by rw [State.freshRx, h.rxFlow, if_pos current]
  have free : (t.updRx f.flow fun x => x.accept s.frame sl).fabric.waiters.any (Waiter.blocks (p / 5) f.unit) = false := by
    rw [← clear, ← h.waiters]
    rfl
  unfold State.deliver
  rw [h.activeFlow, active]
  dsimp only
  rw [if_neg (not_not.2 epoch), takes, if_neg (by simp), fresh, h.rxFlow, copy, if_neg (by simp), if_neg kept, h.frame, first]
  unfold State.acceptSlot
  exact if_neg (by rw [← Bool.not_eq_true] at free; exact free)

end

/-- A write that reaches its bytes is charged, and done. -/
theorem State.takeWrite_done {s : State} {f : FlowRec} {sl : Slot} {acc : Acc} (type : sl.type = 1) (low : 1 ≤ u16 sl.payload 8)
    (high : u16 sl.payload 8 ≤ 496) (fmt : u8 sl.payload 10 = 0)
    (judged : s.allocJudge f.ctx (u64 sl.payload 0) (u16 sl.payload 8) false true = .ok acc)
    (done : (s.writeBytes acc (u64 sl.payload 0) (sliceB sl.payload 16 (u16 sl.payload 8))).2 = none) :
    s.takeWrite f sl = some ((s.writeBytes acc (u64 sl.payload 0) (sliceB sl.payload 16 (u16 sl.payload 8))).1.chargeRange f.ctx acc.part
      true 2 (u64 sl.payload 0) (u16 sl.payload 8)) := by
  unfold State.takeWrite
  dsimp only
  rw [type, fmt, if_neg (by simp; omega), judged]
  dsimp only
  rw [if_neg (by decide)]
  dsimp only
  rw [done]

/-- A write that meets a handover is not taken yet (R81). -/
theorem State.takeWrite_waits {s : State} {f : FlowRec} {sl : Slot} {acc : Acc} (type : sl.type = 1) (low : 1 ≤ u16 sl.payload 8)
    (high : u16 sl.payload 8 ≤ 496) (fmt : u8 sl.payload 10 = 0)
    (judged : s.allocJudge f.ctx (u64 sl.payload 0) (u16 sl.payload 8) false true = .ok acc)
    (wait : (s.writeBytes acc (u64 sl.payload 0) (sliceB sl.payload 16 (u16 sl.payload 8))).2 = some .wait) :
    s.takeWrite f sl = none := by
  unfold State.takeWrite
  dsimp only
  rw [type, fmt, if_neg (by simp; omega), judged]
  dsimp only
  rw [if_neg (by decide)]
  dsimp only
  rw [wait]

/-! ### A slot that FEC cannot correct (R321, R369) -/

/-- A port has been presented a slot that FEC gave up on. -/
def State.gaveUp (s : State) (p n : Nat) : State :=
  (s.updPort p fun x => { x with seen := s.frame * 128 + n }).updPort p fun x => { x with fecNow := true }

theorem State.gaveUp_fecNow (s : State) (p n : Nat) : ((s.gaveUp p n).port p).fecNow = true := by
  rw [State.gaveUp, State.port_updPort_same]

/-- Outside the frame of a failover it is MISSED for a DELIVER entry, and counted. -/
theorem State.present_uncorrected {s : State} {p n : Nat} {rx : RxSlot} {tb : SlotTable} {i : Nat} {e : RxEnt} (ok : s.regsOk) (hp : p < 40)
    (table : s.tableIn s.frame = some (tb, i)) (entry : tb.rxAt i p n = some e) (action : e.action = 1)
    (calm : s.fabric.lastFailover = false ∨ s.frame ≠ s.fabric.switchFrame) (fec : rx.fecOk = false) (plain : rx.corrected = 0) :
    ∃ t, s.present p n rx = t.missDelivered p n e ∧ (s.gaveUp p n).SameButRegs t ∧ t.regsOk
      ∧ t.rd (portReg .fecUncorrected p) = (s.rd (portReg .fecUncorrected p) + 1) % 2 ^ 64
      ∧ t.rd (regDie0 .repairRequests) = s.rd (regDie0 .repairRequests) := by
  let raised := (s.gaveUp p n).bump (portReg .fecUncorrected p) 1
  have raisedOk : raised.regsOk := State.bump_regsOk _ _ ok
  have counted := (State.CountsFrom.refl raised).pmc (die := p / 5) (by omega) 8 (p % 5) 4 none 1
  have own : (portReg .fecUncorrected p).inMap := portReg_inMap hp rfl (by decide)
  have asks : (regDie0 .repairRequests).inMap := regDie0_inMap rfl (by decide)
  refine ⟨raised.pmc (p / 5) 8 (p % 5) 4 none 1, ?_, ?_, counted.rising raisedOk, ?_, ?_⟩
  · have judged : raised.judge p (some e) (missedSlot 0) = (raised, missedSlot 0) := by
      unfold State.judge
      dsimp only
      rw [if_neg fun c => calm.elim (fun k => Bool.false_ne_true (k.symm.trans c.1)) fun k => k c.2]
      rfl
    have opened : (s.updPort p fun x => { x with seen := s.frame * 128 + n }).openSlot p n rx = (raised, missedSlot 0) := by
      unfold State.openSlot
      rw [plain, fec]
      rfl
    have place : raised.tableIn raised.frame = some (tb, i) := table
    simp only [State.present, opened, place, Option.bind_some, entry, judged, Option.elim_some]
    unfold State.handle
    rw [action]
    rfl
  · obtain ⟨_, eq⟩ := counted.rest
    exact ⟨_, eq⟩
  · rw [counted.kept raisedOk _ fun d i hd hi => addr_ne_pmcReg own nofun d i hd hi]
    exact State.rd_bump_same _ _ ok
  · rw [counted.kept raisedOk _ fun d i hd hi => addr_ne_pmcReg asks nofun d i hd hi]
    exact State.rd_bump_other _ ok (addr_ne_of_name asks own nofun)

/-- A slot missed in a DELIVER entry is numbered, awaited, and asked for in the next control slot. -/
theorem State.missDelivered_eq {s : State} {e : RxEnt} {f : FlowRec} (p n : Nat) (active : s.activeFlow e.flow = some f)
    (plain : e.repair = false) (current : (s.rxFlow f.flow).epoch = f.epoch) :
    s.missDelivered p n e = ((s.updRx f.flow fun x => x.miss f.hops p n s.frame).placeRep p 1 n (s.frame - 1) f.flow f.epoch).bump
      (regDie0 .repairRequests) 1 := by
  have fresh : s.freshRx f = s := by rw [State.freshRx, if_pos current]
  unfold State.missDelivered
  rw [active]
  dsimp only
  rw [plain, if_neg (by simp), fresh]

/-! ### A missed slot that is not restored (R358, R365, R372) -/

/-- Sending messages of the sync network appends to those under way. -/
theorem State.foldl_sendMsg (c : Nat) (l : List (Nat × Nat)) (s : State) :
    l.foldl (fun u e => if refEnabled e.1 then u.sendMsg ⟨c, e.1, e.2⟩ else u) s
      = { s with msgs := s.msgs ++ (l.filter fun e => refEnabled e.1).map fun e => ⟨c, e.1, e.2⟩ } := by
  induction l generalizing s with
  | nil => simp
  | cons e l ih =>
    rw [List.foldl_cons, ih]
    by_cases on : refEnabled e.1 = true
    · simp [on, State.sendMsg]
    · simp [on]

section
variable {s : State} {flow : Nat} {f : FlowRec} {w : WaitSignal} {rest : List WaitSignal} (active : s.activeFlow flow = some f)
  (queue : (s.rxFlow flow).signals = w :: rest)
include active queue

theorem State.signalApply_waits (sound : w.doomed = false) (before : w.before ≠ []) : s.signalApply flow f.epoch = s := by
  unfold State.signalApply
  dsimp only
  rw [queue, active]
  dsimp only
  rw [if_pos (.inr (.inr ⟨by simpa using before, by simp [sound]⟩))]

theorem State.signalApply_applies (current : (s.rxFlow flow).epoch = f.epoch) (sound : w.doomed = false) (before : w.before = []) :
    s.signalApply flow f.epoch = { s.updRx flow fun y => { y with signals := rest } with
      msgs := s.msgs ++ ((signalEntries w.payload).filter fun e => refEnabled e.1).map fun e => ⟨f.ctx, e.1, e.2⟩ } := by
  unfold State.signalApply
  dsimp only
  rw [queue, active]
  dsimp only
  rw [if_neg (by simp [current, before]), sound, if_neg (by simp), State.foldl_sendMsg]
  rfl

theorem State.signalApply_discards (current : (s.rxFlow flow).epoch = f.epoch) (doomed : w.doomed = true) :
    s.signalApply flow f.epoch = s.updRx flow fun y => { y with signals := rest } := by
  unfold State.signalApply
  dsimp only
  rw [queue, active]
  dsimp only
  rw [if_neg (by simp [current, doomed]), if_pos doomed]

end

/-! Fault records and raised reasons stand beside the registers and the fabric. -/

theorem State.sendVector_rest (s : State) (v : Nat) : ∃ pcie, s.sendVector v = { s with pcie := pcie } := by
  unfold State.sendVector
  dsimp only
  split
  · exact ⟨_, rfl⟩
  · split
    · exact ⟨_, rfl⟩
    · exact ⟨_, rfl⟩

theorem State.startHoldoff_rest (s : State) (c r : Nat) : ∃ ctxs, s.startHoldoff c r = { s with ctxs := ctxs } := by
  unfold State.startHoldoff
  split
  · exact ⟨_, rfl⟩
  · exact ⟨_, rfl⟩

theorem State.requestVector_rest (s : State) (c r : Nat) : ∃ ctxs pcie, s.requestVector c r = { s with ctxs := ctxs, pcie := pcie } := by
  unfold State.requestVector
  dsimp only
  split
  · exact ⟨_, _, rfl⟩
  · obtain ⟨pcie, sent⟩ := s.sendVector_rest (c * 32 + r)
    obtain ⟨ctxs, held⟩ := State.startHoldoff_rest { s with pcie := pcie } c r
    exact ⟨ctxs, pcie, by rw [sent, held]⟩

theorem State.faultRecord_regs (s : State) (r : FaultRec) : (s.faultRecord r).regs = s.regs := by
  obtain ⟨t, ring, ⟨_, _, _, rfl⟩, eq⟩ := s.faultRecord_eq r
  obtain ⟨_, _, eq'⟩ := State.requestVector_rest _ 0 ring
  rw [eq, eq']

theorem State.raise_regs (s : State) (t bit : Nat) : (s.raise t bit).regs = s.regs := by
  unfold State.raise
  split
  · rfl
  · rfl

theorem State.updRx_regs (s : State) (f : Nat) (g : RxFlow → RxFlow) : (s.updRx f g).regs = s.regs := rfl

theorem exportDrops_ne_flowLosses (d : Nat) : (regDie0 .flowLosses).addr ≠ (regDie .exportDrops d).addr := by
  have loss : (regDie0 .flowLosses).addr = 0x60130 := rfl
  have drop : (regDie .exportDrops d).addr = d * 0x400000 + 0x90030 := by
    simp [Reg.addr, regDie, RegName.info, Block.base, dieStride]
  omega

/-- What a loss does to the consumer of its flow counts no further loss. -/
theorem State.lossAt_flowLosses {s : State} (ok : s.regsOk) (f : FlowRec) (m : Missed) :
    (s.lossAt f m).rd (regDie0 .flowLosses) = s.rd (regDie0 .flowLosses) := by
  have same {t : State} (h : t.regs = s.regs) : t.rd (regDie0 .flowLosses) = s.rd (regDie0 .flowLosses) := by
    unfold State.rd
    rw [h]
  unfold State.lossAt
  dsimp only
  split
  · refine same ?_
    rw [State.updRx_regs]
    split
    · split
      · exact State.raise_regs _ _ _
      · exact State.raise_regs _ _ _
    · exact State.raise_regs _ _ _
  · exact State.rd_bump_other _ ok (exportDrops_ne_flowLosses _)
  · split
    · rfl
    · rfl
  · rfl

section
variable {s : State} {flow : Nat} {f : FlowRec} {m : Missed} (active : s.activeFlow flow = some f)
  (missed : (s.rxFlow flow).missed.find? (fun x => x.frame == m.frame) = some m)
include active missed

theorem State.flowLoss_early (early : s.frame ≤ m.frame + 3 * f.hops + 3) : s.flowLoss flow f.epoch m.frame = s := by
  unfold State.flowLoss
  rw [active]
  dsimp only
  rw [missed]
  dsimp only
  rw [if_pos (.inr (.inr early))]

/-- A missed slot whose repair window has passed is lost, reported, and awaited no longer. -/
theorem State.flowLoss_due (ok : s.regsOk) (current : (s.rxFlow flow).epoch = f.epoch)
    (due : m.frame + 3 * f.hops + 3 < s.frame) : ∃ t, s.flowLoss flow f.epoch m.frame = t
    ∧ t.rd (regDie0 .flowLosses) = (s.rd (regDie0 .flowLosses) + 1) % 2 ^ 64 ∧ (t.rxFlow flow).lost = true
    ∧ m ∉ (t.rxFlow flow).missed := by
  unfold State.flowLoss
  rw [active]
  dsimp only
  rw [missed]
  dsimp only
  rw [if_neg (by simp [current]; omega)]
  refine ⟨_, rfl, ?_, ?_, ?_⟩
  · have counted : (s.bump (regDie0 .flowLosses) 1).regsOk := State.bump_regsOk _ _ ok
    have reported := State.faultRecord_regs (s.bump (regDie0 .flowLosses) 1)
      ⟨.flow, 0, ⟨8, m.port / 5, m.port⟩, none, flow + f.epoch * 2 ^ 16 + m.frame % 2 ^ 32 * 2 ^ 32⟩
    refine Eq.trans (State.lossAt_flowLosses (by unfold State.regsOk; rw [reported]; exact counted) f m) ?_
    unfold State.rd
    rw [reported]
    exact State.rd_bump_same _ _ ok
  · rw [State.rxFlow_updRx_same]
  · rw [State.rxFlow_updRx_same]
    simp

end

/-! ### What a presented slot comes to -/

theorem State.missed_rxFlow (s : State) (p n : Nat) (f : FlowRec) :
    (((s.updRx f.flow fun x => x.miss f.hops p n s.frame).placeRep p 1 n (s.frame - 1) f.flow f.epoch).bump
      (regDie0 .repairRequests) 1).rxFlow f.flow = (s.rxFlow f.flow).miss f.hops p n s.frame :=
  State.rxFlow_updRx_same s f.flow fun x => x.miss f.hops p n s.frame

/-- A missed slot of a DELIVER entry joins the missed slots of its flow, and is asked for. -/
theorem State.SameButRegs.missDelivered {s t : State} {p n : Nat} {e : RxEnt} {f : FlowRec} (h : (s.gaveUp p n).SameButRegs t)
    (ok : t.regsOk) (hp : p < 40) (active : s.activeFlow e.flow = some f) (plain : e.repair = false)
    (current : (s.rxFlow f.flow).epoch = f.epoch) :
    let u := t.missDelivered p n e
    u.rd (portReg .fecUncorrected p) = t.rd (portReg .fecUncorrected p)
      ∧ u.rd (regDie0 .repairRequests) = (t.rd (regDie0 .repairRequests) + 1) % 2 ^ 64
      ∧ u.rxFlow f.flow = (s.rxFlow f.flow).miss f.hops p n s.frame ∧ (u.port p).fecNow = true ∧ u.mem = s.mem := by
  obtain ⟨regs, rfl⟩ := h
  intro u
  have eq : u = _ := State.missDelivered_eq p n active plain current
  rw [eq]
  refine ⟨?_, State.rd_bump_same _ _ ok, State.missed_rxFlow _ p n f, ?_, rfl⟩
  · exact State.rd_bump_other _ ok (addr_ne_of_name (portReg_inMap hp rfl (by decide)) (regDie0_inMap rfl (by decide)) nofun)
  · refine Eq.trans (congrArg PortSt.fecNow (State.port_updPort_same _ _ _)) ?_
    exact s.gaveUp_fecNow p n

/-- A SIGNAL waits for the slots missed before it (R358). -/
theorem State.Heard.takeSignal {s t : State} {p : Nat} {sl : Slot} {f : FlowRec} (h : s.Heard p t) (first : sl.isResend = false) :
    let x := s.rxFlow f.flow
    (((t.updRx f.flow fun x => x.accept s.frame sl).takeSignal f sl).rxFlow f.flow).signals
      = x.signals ++ [⟨sl.payload, x.missed.map Missed.place, x.lost⟩] := by
  obtain ⟨signals, places, lost⟩ := RxFlow.accept_eq (x := s.rxFlow f.flow) s.frame first
  dsimp only
  rw [State.takeSignal, State.rxFlow_updRx_same, State.rxFlow_updRx_same, h.rxFlow, signals, places, lost]

/-- A flow that has accepted a slot reaches the memory that it reached before. -/
theorem State.Heard.sameStore_updRx {s t : State} {p : Nat} (h : s.Heard p t) (k : Nat) (g : RxFlow → RxFlow) :
    s.SameStore (t.updRx k g) := ⟨h.mem, h.dies, h.cells, h.sameStore.owners⟩

theorem State.Heard.allocJudge_updRx {s t : State} {p : Nat} (h : s.Heard p t) (k : Nat) (g : RxFlow → RxFlow) (c a n : Nat)
    (read write : Bool) : (t.updRx k g).allocJudge c a n read write = s.allocJudge c a n read write := by
  rw [State.allocJudge, State.allocJudge, State.ctx, State.ctx, ← h.ctxs]
  rfl

section
variable {s t : State} {p : Nat} {sl : Slot} {f : FlowRec} {acc : Acc} (h : s.Heard p t) (type : sl.type = 1) (low : 1 ≤ u16 sl.payload 8)
  (high : u16 sl.payload 8 ≤ 496) (fmt : u8 sl.payload 10 = 0)
  (judged : s.allocJudge f.ctx (u64 sl.payload 0) (u16 sl.payload 8) false true = .ok acc)
include h type low high fmt judged

/-- What a write from the fabric leaves in memory does not hang on its slot's port (R357). -/
theorem State.Heard.takeWrite_done (g : RxFlow → RxFlow)
    (done : (s.writeBytes acc (u64 sl.payload 0) (sliceB sl.payload 16 (u16 sl.payload 8))).2 = none) :
    ∃ u, (t.updRx f.flow g).takeWrite f sl = some u
      ∧ u.contents = (s.writeBytes acc (u64 sl.payload 0) (sliceB sl.payload 16 (u16 sl.payload 8))).1.contents := by
  obtain ⟨⟨mem, -, -, -⟩, error⟩ := (h.sameStore_updRx f.flow g).writeBytes acc (u64 sl.payload 0) (sliceB sl.payload 16 (u16 sl.payload 8))
  have judged' := (h.allocJudge_updRx f.flow g f.ctx (u64 sl.payload 0) (u16 sl.payload 8) false true).trans judged
  refine ⟨_, State.takeWrite_done type low high fmt judged' (error.trans done), ?_⟩
  rw [State.chargeRange_contents, State.contents, State.contents, mem]

theorem State.Heard.takeWrite_waits (g : RxFlow → RxFlow)
    (wait : (s.writeBytes acc (u64 sl.payload 0) (sliceB sl.payload 16 (u16 sl.payload 8))).2 = some .wait) :
    (t.updRx f.flow g).takeWrite f sl = none := by
  obtain ⟨-, error⟩ := (h.sameStore_updRx f.flow g).writeBytes acc (u64 sl.payload 0) (sliceB sl.payload 16 (u16 sl.payload 8))
  have judged' := (h.allocJudge_updRx f.flow g f.ctx (u64 sl.payload 0) (u16 sl.payload 8) false true).trans judged
  exact State.takeWrite_waits type low high fmt judged' (error.trans wait)

end

/-- Settles O44: hearing a slot changes only its port and counters, so that its unit and the loss of a slot find flows, memory and bank
owners as they were. -/
theorem slotsArriveOrAreMissed : Obligations.SlotsArriveOrAreMissed := by
  refine ⟨fun s p n rx inv hp _ _ => ⟨?_, fun out => exec_slotPresent_not_now out rx, ?_⟩,
    fun s flow f inv active same current => ⟨?_, ?_⟩⟩
  · rintro (down | early | late | seen)
    · exact State.presentsNow_down n down
    · exact State.presentsNow_early_or_late p (.inl early)
    · exact State.presentsNow_early_or_late p (.inr late)
    · exact State.presentsNow_seen seen
  · intro tb i e f now table entry action plain active current same calm x
    rw [exec_slotPresent_now now]
    refine ⟨fun fec zero => ?_, ?_⟩
    · obtain ⟨t, eq, rest, ok, fails, asks⟩ := State.present_uncorrected inv.regs hp table entry action calm fec zero
      obtain ⟨fails', asks', missed, noted, mem⟩ := rest.missDelivered ok hp active plain current
      exact ⟨_, congrArg Host.Outcome.next eq, fails'.trans fails, by rw [asks', asks], congrArg RxFlow.missed missed, noted, mem⟩
    · intro k hd pl key opens phase sl fec reserved data named flow hops epoch takes
      obtain ⟨t, eq, heard⟩ := State.present_good inv.regs hp table entry action calm key opens phase fec reserved data named flow hops
      have active' : s.activeFlow sl.flow = some f := by rw [flow]; exact active
      rw [eq]
      refine ⟨fun copy => ?_, fun copy first kept clear => ?_⟩
      · have drops : (regDie0 .duplicateDrops).inMap := regDie0_inMap rfl (by decide)
        refine ⟨_, congrArg Host.Outcome.next (State.deliver_copy heard active' epoch takes current copy), heard.mem, heard.rx, ?_⟩
        rw [State.rd_bump_same _ _ heard.regs, heard.kept _ (not_heardAddr hp drops nofun nofun nofun)]
      · have given := State.deliver_fresh heard active' epoch takes current copy first kept clear
        dsimp only at given
        refine ⟨fun unit => ?_, fun acc unit type low high fmt judged => ⟨fun done => ?_, fun wait => ?_⟩⟩
        · rw [State.toUnit, unit] at given
          exact ⟨_, congrArg Host.Outcome.next given, heard.mem, heard.takeSignal first⟩
        · obtain ⟨u, taken, holds⟩ := heard.takeWrite_done type low high fmt judged (fun x => x.accept s.frame sl) done
          rw [State.toUnit, unit] at given
          rw [taken] at given
          exact ⟨u, congrArg Host.Outcome.next given, congrArg Prod.fst holds, congrArg Prod.snd holds⟩
        · have waits := heard.takeWrite_waits type low high fmt judged (fun x => x.accept s.frame sl) wait
          rw [State.toUnit, unit] at given
          rw [waits] at given
          refine ⟨_, congrArg Host.Outcome.next given, heard.mem, ?_⟩
          exact congrArg (· ++ [Waiter.slot p f sl]) heard.waiters
  · intro w rest queue
    refine ⟨fun sound before => ?_, fun sound before => ?_, fun doomed => ?_⟩
    · exact congrArg Host.Outcome.next (State.signalApply_waits active queue sound before)
    · refine ⟨_, congrArg Host.Outcome.next (State.signalApply_applies active queue current sound before), ?_, rfl⟩
      exact congrArg RxFlow.signals (State.rxFlow_updRx_same s flow _)
    · refine ⟨_, congrArg Host.Outcome.next (State.signalApply_discards active queue current doomed), ?_, rfl⟩
      exact congrArg RxFlow.signals (State.rxFlow_updRx_same s flow _)
  · intro m missed
    refine ⟨fun early => congrArg Host.Outcome.next (State.flowLoss_early active missed early), fun due => ?_⟩
    obtain ⟨t, eq, counted, lost, gone⟩ := State.flowLoss_due active missed inv.regs current due
    exact ⟨t, congrArg Host.Outcome.next eq, counted, lost, gone⟩

end Sys2Proof.Machine
end

section
/-!
SUPPORT. What any step keeps: each command's row, from what its operations keep (Laws/Keeps*.lean), then `exec` and `step` (R24, R517).
-/
set_option Elab.async false
namespace Sys2Proof.Machine

/-! ### Rows -/

/-- The row answers a next state, and what `Keeps` speaks of stands in it as `s` had it. -/
def Answers (p q : Bool) (s : State) (o : Host.Outcome State Fault Refusal) : Prop := ∃ t, o = .next t ∧ Keeps p q s t

theorem Answers.next {p q : Bool} {s t : State} (h : Keeps p q s t) : Answers p q s (.next t) := ⟨t, rfl, h⟩

theorem Keeps.weaken {p q : Bool} {s t : State} (h : Keeps p q s t) : Keeps false false s t :=
  ⟨h.pending, h.memOk, h.points, h.fuses, h.regs, nofun, nofun⟩

theorem Keeps.ite {p q : Bool} {s t u : State} {c : Prop} [Decidable c] (ht : Keeps p q s t) (hu : Keeps p q s u) :
    Keeps p q s (if c then t else u) := by
  split
  · exact ht
  · exact hu

theorem Keeps.ite_snd {α : Type} {p q : Bool} {s t u : State} {a b : α} {c : Prop} [Decidable c] (ht : Keeps p q s t)
    (hu : Keeps p q s u) : Keeps p q s (if c then (a, t) else (b, u)).2 := by
  split
  · exact ht
  · exact hu

/-! A row that asks for a command in flight keeps what its work keeps. -/

section
variable {p q : Bool} {s : State} {id : CmdId} {op : Nat} {f : Cmd → State}

theorem Answers.onCmd {ok : List Byte → Bool} (h : ∀ c, Keeps p q s (f c)) : Answers p q s (.next (s.onCmd id ok f)) :=
  .next (State.onCmd_keeps _ _ _ _ (.refl ..) h)

theorem Answers.onMove {f : Cmd → Tens → Tens → State} (h : ∀ c i o, Keeps p q s (f c i o)) :
    Answers p q s (.next (s.onMove id op f)) :=
  .next (State.onMove_keeps _ _ _ _ (.refl ..) h)

theorem Answers.onSync (h : ∀ c, Keeps p q s (f c)) : Answers p q s (.next (s.onSync id op f)) :=
  .next (State.onSync_keeps _ _ _ _ (.refl ..) h)

theorem Answers.onGroupSet (h : ∀ c, Keeps p q s (f c)) : Answers p q s (.next (s.onGroupSet id op f)) :=
  .next (State.onGroupSet_keeps _ _ _ _ (.refl ..) h)

theorem Answers.onStep (h : ∀ c, Keeps p q s (f c)) : Answers p q s (.next (s.onStep id op f)) :=
  .next (State.onStep_keeps _ _ _ _ (.refl ..) h)

theorem Answers.onCompare (h : ∀ c, Keeps p q s (f c)) : Answers p q s (.next (s.onCompare id op f)) :=
  .next (State.onCompare_keeps _ _ _ _ (.refl ..) h)

theorem Answers.onFreeze (h : ∀ c, Keeps p q s (f c)) : Answers p q s (.next (s.onFreeze id op f)) :=
  .next (State.onFreeze_keeps _ _ _ _ (.refl ..) h)

theorem Answers.onWatch (h : ∀ c, Keeps p q s (f c)) : Answers p q s (.next (s.onWatch id op f)) :=
  .next (State.onWatch_keeps _ _ _ _ (.refl ..) h)

end

/-- A row that asks for a state of a port. -/
theorem Answers.inMode {s t : State} {port : Nat} {m : PortMode} (h : Keeps false false s t) :
    Answers false false s (.next (s.inMode port m t)) :=
  .next (State.inMode_keeps _ _ _ _ (.refl ..) h)

/-- A security service keeps what its answer keeps. -/
theorem Answers.service {s : State} {code n : Nat} {mine : List Byte → Bool} {f : State → List Byte → Except Nat (List Byte) × State}
    (h : ∀ u r, Keeps false false s u → Keeps false false s (f u r).2) : Answers false false s (.next (s.service code n mine f)) :=
  .next (State.service_keeps _ _ _ _ _ h (.refl ..))

/-- A row that writes one register. -/
theorem Answers.writeOf {s : State} {secure : Bool} {r : Reg} {v : Nat} : Answers false false s (.next (s.writeOf secure r v)) :=
  .next (State.writeOf_keeps _ _ _ _ (.refl ..))

/-- A row that writes one register if a bit of its value says so. -/
theorem Answers.writeOf_if {s : State} {c : Prop} [Decidable c] {secure : Bool} {r : Reg} {v : Nat} :
    Answers false false s (.next (if c then s.writeOf secure r v else s)) :=
  .next (.ite (State.writeOf_keeps _ _ _ _ (.refl ..)) (.refl ..))

/-- A row that writes one register unless a bit of its value says so. -/
theorem Answers.writeOf_unless {s : State} {c : Prop} [Decidable c] {secure : Bool} {r : Reg} {v : Nat} :
    Answers false false s (.next (if c then s else s.writeOf secure r v)) :=
  .next (.ite (.refl ..) (State.writeOf_keeps _ _ _ _ (.refl ..)))

/-! ### Matrix products and tensors -/

theorem execProduct_answers (id : CmdId) (s : State) : Answers true false s (execProduct id s) := by
  refine .onCmd fun c => .ite (.refl ..) ?_
  split
  · exact .refl ..
  · exact State.startProduct_keeps _ _ _ (.refl ..)

theorem execCellDraw_answers (cell : Nat) (id : CmdId) (s : State) : Answers true false s (execCellDraw cell id s) := by
  refine .onCmd fun c => ?_
  split
  · exact .refl ..
  · exact State.cellDraw_keeps _ _ _ _ (.refl ..)

theorem execTaskComplete_answers (cell : Nat) (id : CmdId) (task : Nat) (s : State) :
    Answers true false s (execTaskComplete cell id task s) := by
  refine .onCmd fun c => .ite (.refl ..) ?_
  split
  · exact .refl ..
  · split
    · exact .refl ..
    · exact State.unlessWaits_keeps _ _ _ (.refl ..) (State.completeTask_keeps _ _ _ _ _ _ (.refl ..))

theorem execPartialTileArrival_answers (id : CmdId) (tile segment : Nat) (s : State) :
    Answers true false s (execPartialTileArrival id tile segment s) := by
  refine .onCmd fun c => ?_
  split
  · exact .refl ..
  · split
    · exact .refl ..
    · exact State.unlessWaits_keeps _ _ _ (.refl ..) (State.partialArrives_keeps _ _ _ _ _ _ (.refl ..))

/-- A row that runs on two tensors, and does nothing when one of them cannot be read. -/
theorem Answers.onTensors {s : State} {id : CmdId} {ok : List Byte → Bool} {i o : Cmd → Option Tens} {f : Cmd → Tens → Tens → State}
    (h : ∀ c i o, Keeps true true s (f c i o)) :
    Answers true true s (.next (s.onCmd id ok fun c => match i c, o c with
      | some x, some y => f c x y
      | _, _ => s)) := by
  refine .onCmd fun c => ?_
  split
  · exact h _ _ _
  · exact .refl ..

theorem execRowBackward_answers (id : CmdId) (s : State) : Answers true true s (execRowBackward id s) := by
  refine .onCmd fun c => ?_
  split
  · exact State.runRowBackward_keeps _ _ _ _ _ (.refl ..)
  · exact .refl ..

theorem execTopk_answers (id : CmdId) (s : State) : Answers true true s (execTopk id s) := by
  refine .onCmd fun c => ?_
  split
  · exact State.runTopk_keeps _ _ _ _ _ (.refl ..)
  · exact .refl ..

/-! ### Counters, watches and barriers -/

theorem execSyncAdd_answers (id : CmdId) (s : State) : Answers true false s (execSyncAdd id s) := by
  refine .onSync fun c => ?_
  split
  · exact State.discarded_keeps _ _ _ _ (.refl ..)
  · exact State.finish_keeps _ _ _ (State.addCounter_keeps _ _ _ _ (.refl ..))

theorem execSyncRead_answers (id : CmdId) (s : State) : Answers true true s (execSyncRead id s) := by
  refine .onSync fun c => ?_
  split
  · exact State.discarded_keeps _ _ _ _ (.refl ..)
  · exact State.syncRead_keeps _ _ _ (.refl ..)

theorem execWatchFire_answers (die entry : Nat) (s : State) : Answers true false s (execWatchFire die entry s) := by
  refine .next ?_
  split
  · exact .ite (State.pmc_keeps _ _ _ _ _ _ _ (State.fire_keeps _ _ (State.updDie_keeps _ _ _ (.refl ..)))) (.refl ..)
  · exact .refl ..

theorem execWatchRegistrationResume_answers (die k : Nat) (s : State) :
    Answers true false s (execWatchRegistrationResume die k s) := by
  refine .next ?_
  split
  · exact State.resume_keeps _ _ _ _ (.refl ..)
  · exact .refl ..

theorem execCounterUpdate_answers (die : Nat) (msgs : List Nat) (s : State) :
    Answers true false s (execCounterUpdate die msgs s) := by
  refine .next (State.updDie_keeps _ _ _ (.foldl _ (.inPlane (.refl ..) rfl rfl) fun u k h => ?_))
  exact .elim _ h fun m => State.applyMsg_keeps _ _ _ h

theorem execArrive_answers (ids : List CmdId) (s : State) : Answers true false s (execArrive ids s) := by
  have arrived : Keeps true false s (ids.foldl (fun t i => s.arriveOne t i) s) :=
    .foldl _ (.refl ..) fun _ _ h => State.arriveOne_keeps _ _ _ (.refl ..) h
  exact .next (.foldl _ arrived fun _ d h => .foldl _ h fun _ p k => State.closeRounds_keeps _ _ _ _ k)

theorem execSyncUnmap_answers (id : CmdId) (s : State) : Answers true false s (execSyncUnmap id s) := by
  have once {t : State} (h : Keeps true false s t) :
      Keeps true false s (t.onCmd id (fun d => isOpcode 0x0051 d && smUnmap d) fun c => t.syncUnmap c) :=
    State.onCmd_keeps _ _ _ _ h fun _ => State.syncUnmap_keeps _ _ h
  exact .next (once (once (.refl ..)))

/-! ### Ports, time and slot tables -/

theorem execBringUpTimeout_answers (port : Nat) (s : State) : Answers false false s (execBringUpTimeout port s) := by
  refine .next ?_
  split
  · exact .ite (State.portDown_keeps _ _ _ (.refl ..)) (.refl ..)
  · exact .refl ..

theorem execRekeyStart_answers (port : Nat) (s : State) : Answers false false s (execRekeyStart port s) :=
  .next (.ite (State.updPort_keeps _ _ _ (State.nextDraw_keeps _ (.refl ..))) (.refl ..))

theorem execPreviousKeyExpiry_answers (port : Nat) (s : State) : Answers false false s (execPreviousKeyExpiry port s) := by
  refine .next ?_
  split
  · exact .ite (State.updPort_keeps _ _ _ (.refl ..)) (.refl ..)
  · exact .refl ..

theorem execBackupSwitch_answers (s : State) : Answers false false s (execBackupSwitch s) :=
  .next (.ite (.change (.refl ..) rfl rfl rfl rfl rfl rfl rfl rfl rfl) (.refl ..))

theorem execLockLoss_answers (s : State) : Answers false false s (execLockLoss s) :=
  .next (.ite (State.bump_keeps _ _ _ (.change (.refl ..) rfl rfl rfl rfl rfl rfl rfl rfl rfl)) (.refl ..))

theorem execDepartureCutoff_answers (s : State) : Answers false false s (execDepartureCutoff s) := by
  refine .next ?_
  split
  · exact .ite (State.dropStale_keeps _ _ _ (.refl ..)) (.refl ..)
  · exact .refl ..

theorem execFailoverSwitch_answers (s : State) : Answers false false s (execFailoverSwitch s) := by
  refine .next (.ite (State.tableSwitch_keeps _ _ ?_) (.refl ..))
  exact .foldl _ (.refl ..) fun _ c h => .ite (State.stopSend_keeps _ _ _ h) h

theorem execRetentionEnd_answers (s : State) : Answers false false s (execRetentionEnd s) :=
  .next (State.settleSends_keeps _ (State.setFabric_keeps _ _ (.refl ..)))

theorem execSlotTransmit_answers (port slot : Nat) (s : State) : Answers false false s (execSlotTransmit port slot s) := by
  have fresh : Keeps false false s (s.keySwitch port) := State.keySwitch_keeps _ _ (.refl ..)
  exact .next (.ite (State.seal_keeps _ _ _ _ (State.chooseSlot_keeps _ _ _ fresh)) fresh)

/-! ### The updater -/

theorem execGroupRetire_answers (id : CmdId) (s : State) : Answers false false s (execGroupRetire id s) := by
  refine .onGroupSet fun c => State.onFreeGroup_keeps _ _ _ (.refl ..) fun _ => State.finish_keeps _ _ _ ?_
  exact .change (State.updUpd_keeps _ _ _ (.refl ..)) rfl rfl rfl rfl rfl rfl rfl rfl rfl

theorem execSetCounters_answers (id : CmdId) (s : State) : Answers false false s (execSetCounters id s) :=
  .onGroupSet fun _ => State.onFreeGroup_keeps _ _ _ (.refl ..) fun _ =>
    State.finish_keeps _ _ _ (State.updGroup_keeps _ _ _ _ (.refl ..))

theorem execRefresh_answers (id : CmdId) (s : State) : Answers false false s (execRefresh id s) := by
  refine .onGroupSet fun c => State.onFreeGroup_keeps _ _ _ (.refl ..) fun g => ?_
  refine .ite (State.finish_keeps _ _ _ (.refl ..)) (.ite (State.finish_keeps _ _ _ (.refl ..)) ?_)
  exact State.finish_keeps _ _ _ (State.updGroup_keeps _ _ _ _ (.refl ..))

theorem execQuery_answers (id : CmdId) (s : State) : Answers true true s (execQuery id s) := by
  refine .onGroupSet fun c => ?_
  split
  · exact State.finish_keeps _ _ _ (.refl ..)
  · exact State.failAcc_keeps _ _ _ (.refl ..)
  · have written := fun x a bs => State.writeBytes_keeps (lp := true) (lq := true) s x a bs (.refl ..)
    dsimp only
    split
    · exact .refl ..
    · exact State.failAcc_keeps _ _ _ (written ..)
    · exact State.finish_keeps _ _ _ (written ..)

/-! ### Batches -/

theorem execDispatchReceive_answers (id : CmdId) (s : State) : Answers false false s (execDispatchReceive id s) := by
  refine .onCmd fun c => .ite (.refl ..) (.ite (State.settleBatch_keeps _ _ (.refl ..)) ?_)
  split
  · exact State.halted_keeps _ _ _ (.refl ..)
  · exact State.beginBatch_keeps _ _ _ (.refl ..)

theorem execCombineSum_answers (id : CmdId) (s : State) : Answers false false s (execCombineSum id s) := by
  refine .onCmd fun c => .ite (.refl ..) (.ite (State.settleBatch_keeps _ _ (.refl ..)) ?_)
  split
  · exact State.halted_keeps _ _ _ (.refl ..)
  · exact State.beginBatch_keeps _ _ _ (.refl ..)

theorem execBatchCancel_answers (id : CmdId) (s : State) : Answers false false s (execBatchCancel id s) :=
  .onCmd fun _ => .ite (.refl ..) (State.updCmd_keeps _ _ _ (State.setFabric_keeps _ _ (.refl ..)) nofun)

theorem execBatchGenerationAdvance_answers (die ctx tag : Nat) (s : State) :
    Answers false false s (execBatchGenerationAdvance die ctx tag s) := by
  refine .next ?_
  split
  · exact .ite (State.advanceGen_keeps _ _ (.refl ..)) (.refl ..)
  · exact .refl ..

/-! ### Steps -/

theorem execStepOpen_answers (id : CmdId) (s : State) : Answers false false s (execStepOpen id s) := by
  refine .onStep fun c => ?_
  split
  · exact State.finish_keeps _ _ _ (.refl ..)
  · exact State.finish_keeps _ _ _ (State.openSteps_keeps _ _ _ (.refl ..))

theorem execStepClose_answers (id : CmdId) (s : State) : Answers false false s (execStepClose id s) :=
  .onStep fun _ => .ite (State.updCmd_keeps _ _ _ (.refl ..) nofun)
    (State.finish_keeps _ _ _ (State.setSteps_keeps _ _ (.refl ..)))

theorem execVote_answers (id : CmdId) (s : State) : Answers false false s (execVote id s) :=
  .onStep fun _ => State.finish_keeps _ _ _ (.ite (State.raise_keeps _ _ _ (.refl ..))
    (.ite (State.setSteps_keeps _ _ (.refl ..)) (.refl ..)))

theorem execStepWait_answers (id : CmdId) (s : State) : Answers true true s (execStepWait id s) := by
  refine .onStep fun c => ?_
  dsimp only
  split
  · exact State.finish_keeps _ _ _ (.refl ..)
  · exact .ite (State.finish_keeps _ _ _ (.refl ..)) (State.updCmd_keeps _ _ _ (.refl ..) fun _ _ => rfl)

theorem execParticipants_answers (id : CmdId) (s : State) : Answers false false s (execParticipants id s) :=
  .onStep fun _ => .ite (State.finish_keeps _ _ _ (.refl ..)) (State.finish_keeps _ _ _ (State.setSteps_keeps _ _ (.refl ..)))

theorem execConsensusStall_answers (s : State) : Answers false false s (execConsensusStall s) := by
  refine .next ?_
  split
  · exact .ite (State.faultRecord_keeps _ _ (State.bump_keeps _ _ _ (State.setSteps_keeps _ _ (.refl ..)))) (.refl ..)
  · exact .refl ..

theorem execEvaluateEnd_answers (id : CmdId) (s : State) : Answers false false s (execEvaluateEnd id s) := by
  refine .onCmd fun c => ?_
  split
  · exact .ite (State.finish_keeps _ _ _ (State.setSteps_keeps _ _ (.refl ..))) (State.finish_keeps _ _ _ (.refl ..))
  · exact State.finish_keeps _ _ _ (.refl ..)

theorem execEvalWindowExpiry_answers (s : State) : Answers false false s (execEvalWindowExpiry s) := by
  refine .next ?_
  split
  · exact .ite (State.setSteps_keeps _ _ (.refl ..)) (.refl ..)
  · exact .refl ..

/-! ### Faults, links and memory words -/

theorem execPcieLinkLoss_answers (s : State) : Answers false false s (execPcieLinkLoss s) :=
  .next (.ite (.refl ..) (.ite (State.linkLoss_keeps _ (.refl ..)) (State.endSession_keeps _ (.update (.refl ..) rfl rfl rfl))))

/-- The steward of die 0 leaves the loops at the start point, 28 (R511, R517). -/
theorem State.holdLoops_keeps {s t : State} (h : Keeps false false s t) :
    Keeps false false s { t with power := { t.power with loopsHeld := true, fwPoint := 28 } } :=
  State.setPower_keeps t (fun p => { p with loopsHeld := true, fwPoint := 28 }) h fun _ ok => ⟨ok.1, (by decide : 28 ≤ 60)⟩

theorem execStewardWatchdogMiss_answers (die : Nat) (s : State) : Answers false false s (execStewardWatchdogMiss die s) :=
  .next (.ite (.refl ..) (.ite (.ite (State.loseDie_keeps _ _ (.refl ..)) (.refl ..))
    (State.holdLoops_keeps (State.faultRecord_keeps _ _ (.refl ..)))))

theorem execTargetedSelfTestEnd_answers (u : UnitId) (pass : Bool) (s : State) :
    Answers false false s (execTargetedSelfTestEnd u pass s) := by
  refine .next ?_
  split
  · exact .refl ..
  · exact .ite (State.testPass_keeps _ _ _ _ (.refl ..)) (State.testFail_keeps _ _ _ (.refl ..))

theorem execSramPatrolScrub_answers (cell word flips : Nat) (raced : Bool) (s : State) :
    Answers false false s (execSramPatrolScrub cell word flips raced s) :=
  .next (.ite (.refl ..) (State.patrol_keeps _ _ _ _ _ _ (fun _ h => State.bump_keeps _ _ _ h)
    (fun _ h => .ite h (State.cellError_keeps _ _ _ _ _ h)) (.refl ..)))

theorem execCommonsPatrolScrub_answers (die word flips : Nat) (raced : Bool) (s : State) :
    Answers true true s (execCommonsPatrolScrub die word flips raced s) :=
  .next (.ite (.refl ..) (State.patrol_keeps _ _ _ _ _ _ (fun _ h => State.bump_keeps _ _ _ h)
    (fun _ h => State.faultRecord_keeps _ _ h) (.refl ..)))

theorem execMemoryPatrolScrub_answers (word flips : Nat) (raced : Bool) (s : State) :
    Answers true true s (execMemoryPatrolScrub word flips raced s) := by
  refine .next ?_
  split
  · exact .refl ..
  · split
    · exact .refl ..
    · refine .ite (.refl ..) (State.patrol_keeps _ _ _ _ _ _ (fun _ h => State.bump_keeps _ _ _ h) (fun u h => ?_) (.refl ..))
      split
      · exact State.ueReportOf_keeps _ _ _ _ h
      · exact State.ueReportOf_keeps _ _ _ _ (State.free_keeps _ h)

theorem execTokenCredit_answers (die part ctrl ns : Nat) (s : State) : Answers true true s (execTokenCredit die part ctrl ns s) :=
  .next (.ite (.refl ..) (.update (.refl ..) rfl rfl rfl))

/-! ### Freezes, tensor watches and snapshots -/

theorem execFreezeAt_answers (id : CmdId) (s : State) : Answers true true s (execFreezeAt id s) :=
  .onFreeze fun _ => .ite (.refl ..) (.ite (State.finish_keeps _ _ _ (.refl ..))
    (State.updCmd_keeps _ _ _ (.update (.refl ..) rfl rfl rfl) fun _ _ => rfl))

theorem execThaw_answers (id : CmdId) (s : State) : Answers true true s (execThaw id s) :=
  .onFreeze fun _ => .ite (State.finish_keeps _ _ _ (.refl ..))
    (State.finish_keeps _ _ _ (.update (.refl ..) rfl rfl rfl))

theorem execFreezeEffect_answers (s : State) : Answers true true s (execFreezeEffect s) :=
  .next (.ite (.update (.refl ..) rfl rfl rfl) (.ite (State.freezeCounters_keeps _ (.update (.refl ..) rfl rfl rfl))
    (.ite (State.freezeCounters_keeps _ (.refl ..)) (.refl ..))))

theorem execArm_answers (id : CmdId) (s : State) : Answers true false s (execArm id s) := by
  refine .onWatch fun c => ?_
  split
  · exact State.finish_keeps _ _ _ (.refl ..)
  · exact State.finish_keeps _ _ _ (.inPlane (.refl ..) rfl rfl)

theorem execDisarm_answers (id : CmdId) (s : State) : Answers true false s (execDisarm id s) := by
  refine .onWatch fun c => State.finish_keeps _ _ _ ?_
  split
  · exact .inPlane (.refl ..) rfl rfl
  · exact .refl ..

theorem execSnapshot_answers (id : CmdId) (s : State) : Answers true false s (execSnapshot id s) :=
  .onCmd fun _ => .ite (.refl ..) (.ite (State.finish_keeps _ _ _ (.refl ..)) (State.updCmd_keeps _ _ _
    (State.startSnapshot_keeps _ _ _ (State.wr_keeps _ _ _ (State.wr_keeps _ _ _ (.refl ..)))) nofun))

/-! ### Queues and rings -/

theorem execDoorbellScan_answers (ctx : Nat) (stores : HostStores) (s : State) :
    Answers true false s (execDoorbellScan ctx stores s) := by
  have stored : Keeps true false s (s.hostStores stores) := State.hostStores_keeps _ _ (.refl ..)
  exact .next (.ite (State.scan_keeps _ _ stored) stored)

theorem execCommandComplete_answers (id : CmdId) (s : State) : Answers false false s (execCommandComplete id s) := by
  refine .next ?_
  split
  · exact .refl ..
  · split
    · exact .refl ..
    · exact State.complete_keeps _ _ _ (.refl ..)

theorem execCqRecordRelease_answers (ctx r : Nat) (s : State) : Answers true true s (execCqRecordRelease ctx r s) := by
  refine .next ?_
  split
  · exact .refl ..
  · have dropped := fun f => State.updCq_keeps (lp := true) (lq := true) s ctx r f (.refl ..)
    exact .ite (State.settleQueue_keeps _ _ _ (dropped _))
      (.ite (State.settleQueue_keeps _ _ _ (State.putRecord_keeps _ _ _ _ _ (dropped _))) (.refl ..))

theorem execHoldoffExpiry_answers (ctx r : Nat) (s : State) : Answers true true s (execHoldoffExpiry ctx r s) := by
  have ended := fun f => State.updCq_keeps (lp := true) (lq := true) s ctx r f (.refl ..)
  exact .next (.ite (.ite (State.requestVector_keeps _ _ _ (ended _)) (ended _)) (.refl ..))

/-! ### Security services -/

/-- What a service changes of the session leaves the owner slots. -/
theorem Keeps.setSec {s t : State} {sec : SecSt} (h : Keeps false false s t) (o : sec.ownerSlots = t.sec.ownerSlots) :
    Keeps false false s { t with sec := sec } :=
  .change h rfl rfl rfl rfl rfl rfl rfl rfl o

theorem execAttest_answers (s : State) : Answers false false s (execAttest s) := .service fun _ _ h => .setSec h rfl

theorem execSessionOpen_answers (s : State) : Answers false false s (execSessionOpen s) :=
  .service fun u r h => .ite_snd h (.setSec (State.agree_keeps u r h) rfl)

theorem execSessionRekey_answers (s : State) : Answers false false s (execSessionRekey s) := by
  refine .service fun u r h => .ite_snd h (.setSec (State.agree_keeps u r h) ?_)
  split
  · rfl
  · rfl

theorem execSessionClose_answers (s : State) : Answers false false s (execSessionClose s) :=
  .service fun _ _ h => .ite_snd (State.endSession_keeps _ h) h

theorem execOwnerChallenge_answers (s : State) : Answers false false s (execOwnerChallenge s) :=
  .service fun _ _ h => .setSec (State.draw_keeps _ _ h) rfl

theorem execChallengeExpiry_answers (s : State) : Answers false false s (execChallengeExpiry s) :=
  .next (.ite (.setSec (.refl ..) rfl) (.refl ..))

theorem execOwnerAuth_answers (s : State) : Answers false false s (execOwnerAuth s) :=
  .service fun _ _ h => .ite_snd (.setSec (.setSec h rfl) rfl) (.setSec h rfl)

/-- An enrolled owner takes the next slot (R493). -/
theorem State.enrol_keeps {s t : State} (h : Keeps false false s t) (k : List Byte) :
    Keeps false false s { t with sec := { t.sec with owner := false, ownerSlots := t.sec.ownerSlots ++ [k] } } :=
  h.trans ⟨rfl, id, id, ⟨id, Nat.le_refl _, id, List.prefix_append _ _, rfl⟩, id, nofun, nofun⟩

theorem execOwnerEnrol_answers (s : State) : Answers false false s (execOwnerEnrol s) :=
  .service fun _ _ h => .ite_snd h (State.enrol_keeps h _)

theorem execSelfTest_answers (pass : Bool) (s : State) : Answers false false s (execSelfTest pass s) :=
  .service fun _ _ h => .ite_snd h (State.enterError_keeps _ h)

theorem execZeroise_answers (s : State) : Answers false false s (execZeroise s) :=
  .service fun _ _ h => .ite_snd (State.zeroise_keeps _ h) h

/-- The kill fuse is blown (R504). -/
theorem State.kill_keeps {s t : State} (h : Keeps false false s t) :
    Keeps false false s { t with boot := { t.boot with killed := true } } :=
  h.trans ⟨rfl, id, id, ⟨fun _ => rfl, Nat.le_refl _, id, List.prefix_rfl, rfl⟩, id, nofun, nofun⟩

theorem execDecommission_answers (s : State) : Answers false false s (execDecommission s) :=
  .service fun _ _ h => .ite_snd (State.kill_keeps (State.zeroise_keeps _ h)) h

/-! ### Operating points (R24, R517) -/

/-- The lowest request is at most the one of the loops (R518). -/
theorem PowerSt.lowest_le (p : PowerSt) : p.lowest ≤ p.fwPoint := by
  unfold PowerSt.lowest
  split
  · exact Nat.zero_le _
  · exact Nat.min_le_left _ _

theorem execOperatingPointChange_answers (s : State) : Answers false false s (execOperatingPointChange s) := by
  have moved : Keeps false false s (s.setPower fun p => { p with point := p.lowest }) :=
    State.setPower_keeps _ _ (.refl ..) fun p ok => ⟨p.lowest_le.trans ok.2, ok.2⟩
  exact .next (.ite (.refl ..) (.ite (State.logTrace_keeps _ _ _ _ _ moved) moved))

/-- The loops ask for a point at or below 60, or for one more than a point that stood below. -/
theorem State.loopPoint_le {s : State} (ok : s.pointsOk) (avgPower estimate : Nat) : s.loopPoint avgPower estimate ≤ 60 := by
  obtain ⟨-, fw⟩ := ok
  unfold State.loopPoint
  extract_lets n above goal mayRaise
  have top : goal ≤ 60 := Nat.min_le_left _ _
  split
  · exact top
  · split
    · omega
    · exact fw

theorem State.setFwPoint_keeps {s t : State} {n : Nat} (h : Keeps false false s t) (le : t.pointsOk → n ≤ 60) :
    Keeps false false s (t.setPower fun p => { p with fwPoint := n }) :=
  h.trans ⟨rfl, id, fun ok => ⟨ok.1, le ok⟩, ⟨id, Nat.le_refl _, id, List.prefix_rfl, rfl⟩, id, nofun, nofun⟩

theorem execControlLoopTick_answers (temps : List (Option Nat)) (avgPower power millivolts estimate : Nat) (s : State) :
    Answers false false s (execControlLoopTick temps avgPower power millivolts estimate s) := by
  refine .next (.ite (.refl ..) (State.setFwPoint_keeps ?_ fun ok => State.loopPoint_le ok _ _))
  refine State.setPower_keeps _ _ (State.wr_keeps _ _ _ ?_) fun _ ok => ok
  exact .foldl _ (.refl ..) fun _ _ h => State.takeTemp_keeps _ _ _ h

theorem execPowerSample_answers (watts avg10ms : Nat) (above5kFor1ms : Bool) (s : State) :
    Answers false false s (execPowerSample watts avg10ms above5kFor1ms s) :=
  .next (.ite (.refl ..) (State.comparator_keeps _ _ _ _ (State.comparator_keeps _ _ _ _ (State.comparator_keeps _ _ _ _ (.refl ..)))))

theorem execThermalThrottle_answers (temp16 : Nat) (s : State) : Answers false false s (execThermalThrottle temp16 s) :=
  .next (.ite (State.logThrottle_keeps _ _ _ (State.bump_keeps _ _ _ (State.setPower_keeps _ _ (.refl ..) fun _ ok => ok)))
    (.refl ..))

theorem execThrottleRelease_answers (temp16 : Nat) (s : State) : Answers false false s (execThrottleRelease temp16 s) :=
  .next (.ite (State.logThrottle_keeps _ _ _ (State.setPower_keeps _ _ (.refl ..) fun _ ok => ok)) (.refl ..))

theorem execThermalTrip_answers (temp16 : Nat) (s : State) : Answers false false s (execThermalTrip temp16 s) :=
  .next (.ite (State.moduleFault_keeps _ _ _ (State.setPower_keeps _ _ (.refl ..) fun _ ok => ok)) (.refl ..))

theorem execDroopStretch_answers (die : Nat) (s : State) : Answers false false s (execDroopStretch die s) :=
  .next (.ite (State.setPower_keeps _ _ (.refl ..) fun _ ok => ok) (.refl ..))

theorem execStretchEnd_answers (s : State) : Answers false false s (execStretchEnd s) :=
  .next (.ite (State.setPower_keeps _ _ (.refl ..) fun _ ok => ok) (.refl ..))

theorem execVinFault_answers (millivolts us : Nat) (s : State) : Answers false false s (execVinFault millivolts us s) := by
  have marked : Keeps false false s
      (if millivolts = 0 ∧ 20 ≤ us then s.setPower fun p => { p with removed := true } else s) :=
    .ite (State.setPower_keeps _ _ (.refl ..) fun _ ok => ok) (.refl ..)
  exact .next (.ite marked (.ite (State.shutDown_keeps _ marked)
    (.ite (.change marked rfl rfl rfl rfl rfl rfl rfl rfl rfl) marked)))

/-! ### Start-up and resets -/

theorem execFlashWriteDone_answers (s : State) : Answers false false s (execFlashWriteDone s) := by
  refine .next ?_
  split
  · exact .ite (.change (.refl ..) rfl rfl rfl rfl rfl rfl rfl rfl rfl) (.refl ..)
  · exact .refl ..

theorem execColdStageEnd_answers (r : StageReport) (s : State) : Answers false false s (execColdStageEnd r s) := by
  refine .next (.ite (.refl ..) ?_)
  split
  · exact State.endPower_keeps _ (.refl ..)
  · exact State.endRom_keeps _ _ (.refl ..)
  · exact State.enterStage_keeps _ _ (State.applySetup_keeps _ (.refl ..))
  · exact State.endSelfTest_keeps _ _ (.refl ..)
  · exact State.endMemory_keeps _ _ (.refl ..)
  · exact State.endMap_keeps _ _ (.refl ..)
  · exact .refl ..
  · exact .refl ..

theorem execPowerApplied_answers (s : State) : Answers false false s (execPowerApplied s) := by
  have applied : Keeps false false s (s.setPower fun p => { p with inputOk := true, removed := false }) :=
    State.setPower_keeps _ _ (.refl ..) fun _ ok => ok
  exact .next (.ite (.refl ..) (.ite applied (.ite applied (State.coldClear_keeps _ _ _ applied))))

theorem execModReset_answers (us : Nat) (s : State) : Answers false false s (execModReset us s) := by
  have drawn : Keeps false false s s.free.2 := State.free_keeps _ (.refl ..)
  exact .next (.ite (.refl ..) (.ite (.ite drawn (State.modReset_keeps _ drawn)) (State.modReset_keeps _ (.refl ..))))

theorem execModResetRelease_answers (s : State) : Answers false false s (execModResetRelease s) :=
  .next (.ite (.refl ..) (State.coldClear_keeps _ _ _ (State.setPower_keeps _ _ (.refl ..) fun _ ok => ok)))

theorem execPerst_answers (s : State) : Answers false false s (execPerst s) := by
  have ended : Keeps false false s (State.endSession { s with pcie := { s.pcie with perstAsserted := true, linkUp := false } }) :=
    State.endSession_keeps _ (.update (.refl ..) rfl rfl rfl)
  exact .next (.ite (State.warmReset_keeps _ _ ended) ended)

theorem execPerstDeassert_answers (s : State) : Answers true true s (execPerstDeassert s) :=
  .next (.update (.refl ..) rfl rfl rfl)

theorem execFunctionReset_answers (flr : Bool) (s : State) : Answers false false s (execFunctionReset flr s) :=
  .next (.ite (.ite (State.functionReset_keeps _ _ (.refl ..)) (.refl ..))
    (.update (State.functionReset_keeps _ _ (State.endSession_keeps _ (.refl ..))) rfl rfl rfl))

/-! ### Register rows with stores to host memory -/

theorem execFwMailboxGo_answers (secure persist ok : Bool) (stores : HostStores) (s : State) :
    Answers false false s (execFwMailboxGo secure persist ok stores s) :=
  .next (State.barWrite_keeps _ _ _ _ _ _ (State.hostStores_keeps _ _ (.refl ..)))

theorem execSqEnable_answers (secure : Bool) (ctx q value : Nat) (stores : HostStores) (s : State) :
    Answers false false s (execSqEnable secure ctx q value stores s) := by
  have stored : Keeps false false s (s.hostStores stores) := State.hostStores_keeps _ _ (.refl ..)
  exact .next (.ite (State.writeOf_keeps _ _ _ _ stored) stored)

/-! ### Every command -/

/-- Every command answers a next state, and keeps what `Keeps` says, with the planes and the shell where its kind leaves them alone. -/
theorem exec_answers : ∀ (c : Instr) (s : State), Answers (onPlane c) (inShell c) s (exec c s)
  | .nop _, _ => .onCmd fun _ => State.finish_keeps _ _ _ (.refl ..)
  | .descCreate _, _ => .onCmd fun _ => State.descCreate_keeps _ _ (.refl ..)
  | .descDestroy _, _ => .onCmd fun _ => State.descDestroy_keeps _ _ (.refl ..)
  | .allocSet _, _ => .onCmd fun _ => State.allocChange_keeps _ _ _ (.refl ..)
  | .allocClear _, _ => .onCmd fun _ => State.allocChange_keeps _ _ _ (.refl ..)
  | .product id, s => execProduct_answers id s
  | .elementwise _, _ => .onTensors fun _ _ _ => State.runElementwise_keeps _ _ _ _ (.refl ..)
  | .reduce _, _ => .onTensors fun _ _ _ => State.runReduce_keeps _ _ _ _ (.refl ..)
  | .rowForward _, _ => .onTensors fun _ _ _ => State.runRowForward_keeps _ _ _ _ (.refl ..)
  | .rowBackward id, s => execRowBackward_answers id s
  | .topiary _, _ => .onCmd fun _ => .ite (.refl ..) (State.topiaryStep_keeps _ _ (.refl ..))
  | .topiaryBufferWrite _, _ => .onCmd fun _ => .ite (State.topiaryStep_keeps _ _ (.refl ..)) (.refl ..)
  | .layout _, _ => .onMove fun _ _ _ => State.runLayout_keeps _ _ _ _ (.refl ..)
  | .gather _, _ => .onMove fun _ _ _ => State.runIndexed_keeps _ _ _ _ (.refl ..)
  | .scatter _, _ => .onMove fun _ _ _ => State.runIndexed_keeps _ _ _ _ (.refl ..)
  | .scatterAdd _, _ => .onMove fun _ _ _ => State.runIndexed_keeps _ _ _ _ (.refl ..)
  | .dmaCopy _, _ => .onTensors fun _ _ _ => State.runDma_keeps _ _ _ _ (.refl ..)
  | .syncAdd id, s => execSyncAdd_answers id s
  | .arrive ids, s => execArrive_answers ids s
  | .watchWrite _, _ => .onSync fun _ => State.syncWatch_keeps _ _ _ (.refl ..)
  | .watchAdd _, _ => .onSync fun _ => State.syncWatch_keeps _ _ _ (.refl ..)
  | .syncRead id, s => execSyncRead_answers id s
  | .syncMap _, _ => .onCmd fun _ => State.syncMap_keeps _ _ (.refl ..)
  | .syncUnmap id, s => execSyncUnmap_answers id s
  | .topk id, s => execTopk_answers id s
  | .dispatchSend _, _ => .onCmd fun _ => State.dispatchSend_keeps _ _ (.refl ..)
  | .dispatchReceive id, s => execDispatchReceive_answers id s
  | .combineReturn _, _ => .onCmd fun _ => State.combineReturn_keeps _ _ (.refl ..)
  | .combineSum id, s => execCombineSum_answers id s
  | .batchCancel id, s => execBatchCancel_answers id s
  | .batchGenerationAdvance die ctx tag, s => execBatchGenerationAdvance_answers die ctx tag s
  | .fabricSend _, _ => .onCmd fun _ => State.fabricSend_keeps _ _ (.refl ..)
  | .collective _, _ => .onCmd fun _ => State.collective_keeps _ _ (.refl ..)
  | .slotTableLoad _, _ => .onCmd fun _ => State.slotTableLoad_keeps _ _ (.refl ..)
  | .slotTableSwitch _, _ => .onCmd fun _ => State.slotTableSwitch_keeps _ _ (.refl ..)
  | .groupDefine _, _ => .onGroupSet fun _ => State.groupDefine_keeps _ _ (.refl ..)
  | .groupRetire id, s => execGroupRetire_answers id s
  | .setCounters id, s => execSetCounters_answers id s
  | .refresh id, s => execRefresh_answers id s
  | .query id, s => execQuery_answers id s
  | .stepOpen id, s => execStepOpen_answers id s
  | .stepClose id, s => execStepClose_answers id s
  | .vote id, s => execVote_answers id s
  | .stepWait id, s => execStepWait_answers id s
  | .participants id, s => execParticipants_answers id s
  | .evaluateBegin _, _ => .onCmd fun _ => State.evaluateBegin_keeps _ _ (.refl ..)
  | .evaluateEnd id, s => execEvaluateEnd_answers id s
  | .evalWindowExpiry, s => execEvalWindowExpiry_answers s
  | .snap _, _ => .onCompare fun _ => State.snapStep_keeps _ _ (.refl ..)
  | .blocks _, _ => .onCompare fun _ => State.whenDecided_keeps _ _ _ (.refl ..) (State.blocks_keeps _ _ (.refl ..))
  | .repair _, _ => .onCompare fun _ => State.whenDecided_keeps _ _ _ (.refl ..) (State.repairBlock_keeps _ _ (.refl ..))
  | .rollback _, _ => .onCompare fun _ => State.whenDecided_keeps _ _ _ (.refl ..) (State.rollback_keeps _ _ (.refl ..))
  | .freezeAt id, s => execFreezeAt_answers id s
  | .thaw id, s => execThaw_answers id s
  | .counterClear _, _ => .onFreeze fun _ => State.finish_keeps _ _ _ (State.keepRegs_keeps _ _ (.refl ..))
  | .arm id, s => execArm_answers id s
  | .disarm id, s => execDisarm_answers id s
  | .snapshot id, s => execSnapshot_answers id s
  | .groupForm _, _ => .onCmd fun _ => State.groupForm_keeps _ _ (.refl ..)
  | .dissolve _, _ => .onCmd fun _ => State.dissolve_keeps _ _ (.refl ..)
  | .cellReturn _ _, _ => .onCmd fun _ => State.cellReturn_keeps _ _ _ (.refl ..)
  | .cellFence _, _ => .onCmd fun _ => State.cellFence_keeps _ _ (.refl ..)
  | .pageRetire _, _ => .onCmd fun _ => State.pageRetire_keeps _ _ (.refl ..)
  | .getStatus, _ => .service fun _ _ h => h
  | .getCerts, _ => .service fun _ _ h => h
  | .attest, s => execAttest_answers s
  | .sessionOpen, s => execSessionOpen_answers s
  | .sessionRekey, s => execSessionRekey_answers s
  | .sessionClose, s => execSessionClose_answers s
  | .ownerChallenge, s => execOwnerChallenge_answers s
  | .ownerAuth, s => execOwnerAuth_answers s
  | .ownerEnrol, s => execOwnerEnrol_answers s
  | .contextKeyNew, _ => .service fun u r h => State.contextKey_keeps u r h
  | .contextKeyErase, _ => .service fun u r h => State.contextKey_keeps u r h
  | .selfTest pass, s => execSelfTest_answers pass s
  | .zeroise, s => execZeroise_answers s
  | .decommission, s => execDecommission_answers s
  | .zeroiseNow _, _ => .writeOf
  | .challengeExpiry, s => execChallengeExpiry_answers s
  | .entropyTestFailure, _ => .next (.ite (State.enterError_keeps _ (.refl ..)) (.refl ..))
  | .fwMailboxGo secure persist ok stores, s => execFwMailboxGo_answers secure persist ok stores s
  | .flashWriteDone, s => execFlashWriteDone_answers s
  | .repairQuery _ _ _ _ _, _ => .next (State.repairRow_keeps _ _ _ _ _ _ _ (.refl ..))
  | .softPpr _ _ _ _ _, _ => .next (State.repairRow_keeps _ _ _ _ _ _ _ (.refl ..))
  | .hardPpr _ _ _ _ _, _ => .next (State.repairRow_keeps _ _ _ _ _ _ _ (.refl ..))
  | .repairOperationEnd _ _ _, _ => .next (State.repairEnd_keeps _ _ _ _ (.refl ..))
  | .nudge _ _ _, _ => .writeOf
  | .doorbellScan ctx stores, s => execDoorbellScan_answers ctx stores s
  | .sqEnable secure ctx q value stores, s => execSqEnable_answers secure ctx q value stores s
  | .sqDisable _ _ _ _, _ => .writeOf_unless
  | .cqEnable _ _ _ _, _ => .writeOf_if
  | .cqDisable _ _ _ _, _ => .writeOf_unless
  | .commandIssue _ _, _ => .next (State.issueHead_keeps _ _ _ (.refl ..))
  | .commandComplete id, s => execCommandComplete_answers id s
  | .cqRecordRelease ctx r, s => execCqRecordRelease_answers ctx r s
  | .holdoffExpiry ctx r, s => execHoldoffExpiry_answers ctx r s
  | .cellDraw cell id, s => execCellDraw_answers cell id s
  | .taskComplete cell id task, s => execTaskComplete_answers cell id task s
  | .partialTileArrival id tile segment, s => execPartialTileArrival_answers id tile segment s
  | .ownerRegisterWrite _ _ _ _, _ => .writeOf
  | .handoverScrubStart _ _, _ => .next (State.scrubStart_keeps _ _ _ (.refl ..))
  | .handoverDone _ _, _ => .next (State.handoverDone_keeps _ _ _ (.refl ..))
  | .sramPatrolScrub cell word flips raced, s => execSramPatrolScrub_answers cell word flips raced s
  | .commonsPatrolScrub die word flips raced, s => execCommonsPatrolScrub_answers die word flips raced s
  | .memoryPatrolScrub word flips raced, s => execMemoryPatrolScrub_answers word flips raced s
  | .tokenCredit die part ctrl ns, s => execTokenCredit_answers die part ctrl ns s
  | .watchFire die entry, s => execWatchFire_answers die entry s
  | .counterUpdate die msgs, s => execCounterUpdate_answers die msgs s
  | .watchRegistrationResume die k, s => execWatchRegistrationResume_answers die k s
  | .frameStart, _ => .next (.ite (State.frameStart_keeps _ _ (.refl ..)) (.refl ..))
  | .slotTransmit port slot, s => execSlotTransmit_answers port slot s
  | .slotPresent _ _ _, _ => .next (.ite (State.present_keeps _ _ _ _ (.refl ..)) (.refl ..))
  | .signalApply _ _, _ => .next (State.signalApply_keeps _ _ _ (.refl ..))
  | .stagedBlockApply _ _, _ => .next (State.stagedApply_keeps _ _ _ (.refl ..))
  | .controlSlotReceive _ _ _, _ => .next (.ite (State.controlReceive_keeps _ _ _ _ (.refl ..)) (.refl ..))
  | .retentionEnd, s => execRetentionEnd_answers s
  | .flowLoss _ _ _, _ => .next (State.flowLoss_keeps _ _ _ _ (.refl ..))
  | .departureCutoff, s => execDepartureCutoff_answers s
  | .tableSwitch, _ => .next (State.tableSwitch_keeps _ _ (.refl ..))
  | .failoverSwitch, s => execFailoverSwitch_answers s
  | .retiredTableDiscard, _ => .next (.ite (State.setFabric_keeps _ _ (.refl ..)) (.refl ..))
  | .batchDeadline _, _ => .onCmd fun _ => .ite (State.finish_keeps _ _ _ (.refl ..)) (.refl ..)
  | .portEnable _ _ _, _ => .writeOf
  | .linkTrained _, _ => .inMode (State.setMode_keeps _ _ _ (.refl ..))
  | .frameAligned _, _ => .inMode (State.beginAuth_keeps _ _ (.refl ..))
  | .peerAuthenticated _ _ _ _ _, _ => .inMode (State.authenticate_keeps _ _ _ _ (.refl ..))
  | .delayMeasured _ _, _ => .inMode (State.measured_keeps _ _ _ (.refl ..))
  | .bringUpTimeout port, s => execBringUpTimeout_answers port s
  | .retryInterval _, _ => .next (.ite (State.bringUp_keeps _ _ (.refl ..)) (.refl ..))
  | .portDirectionFailure _, _ => .next (.ite (State.portFailed_keeps _ _ (.refl ..)) (.refl ..))
  | .rekey _ _ _, _ => .writeOf_if
  | .rekeyStart port, s => execRekeyStart_answers port s
  | .keySwitch _, _ => .next (State.keySwitch_keeps _ _ (.refl ..))
  | .previousKeyExpiry port, s => execPreviousKeyExpiry_answers port s
  | .nonceExhausted _, _ => .next (.ite (State.portDown_keeps _ _ _ (.refl ..)) (.refl ..))
  | .roleChange, _ => .next (State.roleChange_keeps _ (.refl ..))
  | .timeSet _ _, _ => .writeOf
  | .backupSwitch, s => execBackupSwitch_answers s
  | .lockLoss, s => execLockLoss_answers s
  | .stepCommit, _ => .next (State.stepRow_keeps _ _ (.refl ..))
  | .stepSkip, _ => .next (State.stepRow_keeps _ _ (.refl ..))
  | .recordDrain _, _ => .next (State.drainRecord_keeps _ _ (.refl ..))
  | .consensusStall, s => execConsensusStall_answers s
  | .exportRelease _ _ _, _ => .writeOf
  | .foreignRelease _ _ _, _ => .writeOf
  | .unitError _ _ _ _, _ => .next (.ite (State.unitError_keeps _ _ _ _ _ (.refl ..)) (.refl ..))
  | .targetedSelfTestEnd u pass, s => execTargetedSelfTestEnd_answers u pass s
  | .drainMarkerArrival _, _ => .next (State.drainMarker_keeps _ _ (.refl ..))
  | .dieLoss _, _ => .next (.ite (State.loseDie_keeps _ _ (.refl ..)) (.refl ..))
  | .pcieLinkLoss, s => execPcieLinkLoss_answers s
  | .stewardWatchdogMiss die, s => execStewardWatchdogMiss_answers die s
  | .controlLoopTick temps avgPower power millivolts estimate, s => execControlLoopTick_answers temps avgPower power millivolts estimate s
  | .operatingPointChange, s => execOperatingPointChange_answers s
  | .powerSample watts avg10ms above5kFor1ms, s => execPowerSample_answers watts avg10ms above5kFor1ms s
  | .thermalThrottle temp16, s => execThermalThrottle_answers temp16 s
  | .thermalTrip temp16, s => execThermalTrip_answers temp16 s
  | .droopStretch die, s => execDroopStretch_answers die s
  | .overvoltage _, _ => .next (.ite (State.moduleFault_keeps _ _ _ (.refl ..)) (.refl ..))
  | .powerApplied, s => execPowerApplied_answers s
  | .coldStageEnd r, s => execColdStageEnd_answers r s
  | .modReset us, s => execModReset_answers us s
  | .perst, s => execPerst_answers s
  | .perstDeassert, s => execPerstDeassert_answers s
  | .functionReset flr, s => execFunctionReset_answers flr s
  | .vinFault millivolts us, s => execVinFault_answers millivolts us s
  | .coldReset _ _, _ => .writeOf
  | .warmReset _ _, _ => .writeOf
  | .lock _ _ _, _ => .writeOf
  | .qcounterReset _ _ _, _ => .writeOf
  | .freezeNow _ _, _ => .writeOf_if
  | .freezeEffect, s => execFreezeEffect_answers s
  | .snapshotTrigger _ _, _ => .writeOf_if
  | .snapshotCapture, _ => .next (.ite (State.capture_keeps _ (.refl ..)) (.refl ..))
  | .faultRingBase _ _, _ => .writeOf
  | .logRingBase _ _, _ => .writeOf
  | .registerWrite _ _ _ _, _ => .next (State.barWrite_keeps _ _ _ _ _ _ (.refl ..))
  | .registerRead _ _ _, _ => .next (State.barRead_keeps _ _ _ _ (.refl ..))
  | .powerStageFault, _ => .next (.ite (State.moduleFault_keeps _ _ _ (.refl ..)) (.refl ..))
  | .throttleRelease temp16, s => execThrottleRelease_answers temp16 s
  | .stretchEnd, s => execStretchEnd_answers s
  | .modResetRelease, s => execModResetRelease_answers s
  | .suppliesOff _ _, _ => .next (.ite (State.shutDown_keeps _ (.refl ..)) (.refl ..))

/-! ### Every step -/

theorem exec_keeps {c : Instr} {s t : State} (h : exec c s = .next t) : Keeps (onPlane c) (inShell c) s t := by
  obtain ⟨u, eq, keeps⟩ := exec_answers c s
  cases eq.symm.trans h
  exact keeps

/-- What a step changes of the queue is the command that it takes. -/
theorem step_keeps {s t : State} (h : step s = .next t) : ∃ queue, Keeps false false { s with pending := queue } t := by
  unfold step at h
  split at h
  · cases h
    exact ⟨s.pending, State.tick_keeps s (.refl ..)⟩
  · exact ⟨_, (exec_keeps h).weaken⟩

theorem Keeps.inv {p q : Bool} {s t : State} (h : Keeps p q s t) (inv : s.Inv) : t.Inv :=
  ⟨h.memOk inv.mem, h.regs inv.regs, h.points inv.points⟩

/-- The invariant says nothing of the queue. -/
theorem State.Inv.withQueue {s : State} (inv : s.Inv) (queue : List Instr) : State.Inv { s with pending := queue } :=
  ⟨inv.mem, inv.regs, inv.points⟩

/-- Settles O3: the row of the front command, or a pip, keeps memories, registers and points as `Keeps` says, and the queue is no part of
the invariant. -/
theorem everyStepKeepsTheInvariant : Obligations.EveryStepKeepsTheInvariant := by
  intro s t inv run
  obtain ⟨queue, keeps⟩ := step_keeps run
  exact keeps.inv (inv.withQueue queue)

end Sys2Proof.Machine
end

section
/-!
SUPPORT. A product that holds its tile (R99, R100), and the registers its place is judged by after the queue counters have risen.
-/
set_option Elab.async false
namespace Sys2Proof.Machine

/-- A completed task that a cell has, of a command that runs. -/
theorem exec_taskComplete_of_runs {s : State} {id : CmdId} {c : Cmd} {g : Geo} {cell task : Nat} {t : TileInfo}
    (runs : s.Runs id 0x20 c) (geo : s.geo id c.desc c.records = some g)
    (here : ((s.cell cell).tasks.any fun t => t.id == id && t.task == task) = true) (ports : (s.cell cell).portsClosed = false)
    (tile : g.tiles[task / g.b.segs]? = some t) :
    exec (.taskComplete cell id task) s = .next (s.unlessWaits id (s.completeTask c g cell task t)) := by
  obtain ⟨found, live, opcode⟩ := runs
  show execTaskComplete cell id task s = _
  simp [execTaskComplete, State.onCmd, found, live, isOpcode, opcode, here, ports, geo, tile]

/-! ### Registers that no step leaves in this order -/

def unsortedId : CmdId := ⟨1, 0, 0⟩
/-- A PRODUCT of tensor 0 with itself into tensor 1, its tile held (Table 4-1). -/
def unsortedDesc : List Byte :=
  record 128 [(0, 2, 0x20), (32, 4, 0), (36, 4, 0), (40, 4, 1), (44, 4, noHandle), (48, 4, noHandle), (52, 4, 2 ^ 17), (68, 4, noHandle),
    (76, 4, noHandle)]
/-- One row of `cols` elements of format `fmt` (Table 8-3) at byte `base` of the commons of die 0. -/
def unsortedTensor (fmt cols base : Nat) : DescSlot :=
  { DescSlot.init with
    valid := true
    record := record 128 [(0, 1, fmt + 0x20), (12, 4, 0x3F800000), (16, 4, cols), (20, 4, 1), (80, 8, sramBase + 0x18000000 + base)] }
def unsortedCmd : Cmd := { State.reset.freshCmd unsortedId unsortedDesc with cells := [0], begun := true, taken := [0] }

/-- Cell 0 of die 0 has task 0 of the command, and context 1 owns its accumulator slot 0, in a register listed out of address order behind a
QC_BYTES_READ 64 short of its wrap. Tensor 0 is a row of BF16, a 1 and fifteen 0. -/
def unsortedState : State :=
  { State.reset with
    regs := [((⟨.qcBytesRead, 1, 0⟩ : Reg).addr, 2 ^ 64 - 64), ((ownerReg 0 24).addr, 65)]
    ctxs := [(1, { Ctx.init with slots := [(0, unsortedTensor 1 16 0), (1, unsortedTensor 0 1 64)] })]
    dies := [(0, { Die.init with inService := true, slots := [(0, { LSlot.init with phys := some 0, inService := true })] })]
    cells := [(0, { Cell.init with logical := some 0, tasks := [⟨unsortedId, 0, 0⟩], mode := .running })]
    mem := { MemSt.init with cells := [(commonsKey 0 0, 0x80), (commonsKey 0 1, 0x3F)] }
    cmds := [unsortedCmd] }

def unsortedRow : Tens := tensOf 0 (unsortedTensor 1 16 0).record [] false
def unsortedOut : Tens := tensOf 1 (unsortedTensor 0 1 64).record [] false
def unsortedGeo : Geo := geoOf (pBody unsortedDesc) unsortedRow unsortedRow unsortedOut (Prog.plain .fp32) [⟨0, 0, 0, 0, 0⟩]
/-- The only tile of the product, and the sum of its only segment: 1. -/
def unsortedTile : TileInfo := ⟨⟨0, 0, 0, 0, 0⟩, 0, 1, 0, 0, 0, 0⟩
def unsortedSum : SegOut := ⟨[[.fin false 8388608 (-23)]], false, 8, 64, 16⟩
/-- The place of the held tile. -/
def unsortedHold : HeldTile := ⟨0, [0], 0⟩
/-- The state that the completed task leaves. -/
def unsortedNext : State :=
  unsortedState.unlessWaits unsortedId (unsortedState.completeTask unsortedCmd unsortedGeo 0 0 unsortedTile)

theorem unsortedState_runs : unsortedState.Runs unsortedId 0x20 unsortedCmd := ⟨rfl, rfl, by decide +kernel⟩
theorem unsortedState_geo : unsortedState.geo unsortedId unsortedCmd.desc unsortedCmd.records = some unsortedGeo := by decide +kernel
theorem unsortedGeo_tile : unsortedGeo.tiles[0 / unsortedGeo.b.segs]? = some unsortedTile := by decide +kernel
theorem unsortedState_sum :
    unsortedState.segment unsortedId unsortedGeo unsortedTile (0 % unsortedGeo.b.segs) (unsortedState.stagedBefore unsortedId unsortedGeo 0 0)
      [] = .ok unsortedSum := by
  decide +kernel

theorem unsortedState_completes : exec (.taskComplete 0 unsortedId 0) unsortedState = .next unsortedNext :=
  exec_taskComplete_of_runs unsortedState_runs unsortedState_geo (by decide +kernel) rfl unsortedGeo_tile

/-- The owner register cannot be found in this order: a write of the held tile is refused. -/
theorem unsortedState_refuses :
    (unsortedState.writeHeld unsortedId unsortedGeo unsortedHold 1 [0x3F800000]).1.mem.cells = unsortedState.mem.cells := by
  decide +kernel

/-- The bytes that the task reads bring QC_BYTES_READ to 0, which is not listed: the owner register comes forward, and the tile is held. -/
theorem unsortedNext_holds :
    (unsortedNext.cmd? unsortedId).map (fun x => (x.run.stop, x.run.holds.get? 0)) = some (none, some unsortedHold)
      ∧ unsortedNext.mem.cells ≠ unsortedState.mem.cells := by
  decide +kernel

/-- Refutes O56: a task judges the place of its held tile after it has counted what it read, and the statement puts no order on the
registers. Where they are listed out of address order, a counter that wraps to 0 leaves the list and changes what is found behind it: the
owner of the accumulator slot, so that a tile is stored where the state before would have refused it. -/
theorem not_productsOfferAndRunTasks : ¬ Obligations.ProductsOfferAndRunTasks := by
  intro claim
  obtain ⟨-, -, -, -, -, tasks, -⟩ :=
    claim unsortedState unsortedId unsortedCmd unsortedGeo unsortedState_runs unsortedState_geo (by decide)
  obtain ⟨-, completes⟩ := tasks 0 0
  obtain ⟨-, fresh⟩ := completes unsortedTile (by decide +kernel) rfl unsortedGeo_tile
  obtain ⟨-, -, starts⟩ := fresh (by decide +kernel)
  obtain ⟨-, -, sums⟩ := starts [] (by decide +kernel)
  obtain ⟨-, -, goes⟩ := sums unsortedSum unsortedState_sum
  obtain ⟨holds, -⟩ := goes rfl (.inl rfl) 0 (by decide +kernel)
  obtain ⟨r, x, run, ends⟩ := holds (by decide +kernel) (by decide +kernel)
  cases unsortedState_completes.symm.trans run
  obtain ⟨held, moved⟩ := unsortedNext_holds
  rcases ends with same | ⟨⟨-, -, found⟩, -, kept⟩
  · exact moved (congrArg (·.mem.cells) same)
  · obtain ⟨stop, place⟩ : x.run.stop = none ∧ x.run.holds.get? 0 = some unsortedHold := by simpa [found] using held
    obtain ⟨h, at', -, cells⟩ := kept stop
    cases place.symm.trans at'
    exact moved (cells.trans unsortedState_refuses)

end Sys2Proof.Machine
end

section
/-!
SUPPORT. What stores, charges and reports leave as it was: the commands in flight, and device memory where an uncorrectable word is
reported (R75, R216, R300, R457).
-/
set_option Elab.async false
namespace Sys2Proof.Machine

/-! ### What leaves the commands in flight alone -/

@[simp] theorem State.pmc_cmds (s : State) (die kind inst ev : Nat) (ctx : Option Nat) (n : Nat) :
    (s.pmc die kind inst ev ctx n).cmds = s.cmds :=
  State.pmc_induct (P := fun t => t.cmds = s.cmds) (fun _ _ _ h => h) rfl kind inst ev ctx

/-- Charging an access does no more than raise counters and take tokens. -/
theorem State.charge_induct {P : State → Prop} (up : ∀ t r n, P t → P (t.bump r n))
    (take : ∀ t tokens, P t → P { t with mem := { t.mem with tokens := tokens } }) {s : State} (h : P s) (ctx part : Nat) (q : Place)
    (n : Nat) (write : Bool) : P (s.charge ctx part q n write) := by
  have count {t : State} (ht : P t) (die kind inst ev m : Nat) : P (t.pmc die kind inst ev (some ctx) m) :=
    State.pmc_induct (fun u i _ hu => up u _ _ hu) ht kind inst ev _
  unfold State.charge
  split
  · extract_lets
    split
    extract_lets counted
    have before : P counted := count (up _ _ _ h) ..
    clear_value counted
    split
    refine ite_cases before ?_
    dsimp only
    exact ite_cases (take _ _ before) (ite_cases (take _ _ before) (count (up _ _ _ (take _ _ before)) ..))
  · exact h

@[simp] theorem State.charge_cmds (s : State) (ctx part : Nat) (q : Place) (n : Nat) (write : Bool) :
    (s.charge ctx part q n write).cmds = s.cmds :=
  State.charge_induct (P := fun t => t.cmds = s.cmds) (fun _ _ _ h => h) (fun _ _ h => h) rfl ctx part q n write

@[simp] theorem State.chargeRange_cmds (s : State) (ctx part : Nat) (write : Bool) (fuel a n : Nat) :
    (s.chargeRange ctx part write fuel a n).cmds = s.cmds := by
  induction fuel generalizing s a n with
  | zero => rfl
  | succ fuel ih =>
    unfold State.chargeRange
    dsimp only
    split
    · rfl
    · rw [ih, State.charge_cmds]

@[simp] theorem State.qcount_cmds (s : State) (i : CmdId) (rd wr mac stall : Nat) : (s.qcount i rd wr mac stall).cmds = s.cmds := by
  simp only [State.qcount]
  repeat' split
  all_goals rfl

@[simp] theorem State.moved_cmds (s : State) (id : CmdId) (t : Tens) (off rd wr : Nat) : (s.moved id t off rd wr).cmds = s.cmds := by
  unfold State.moved
  dsimp only
  repeat' split
  all_goals simp

@[simp] theorem State.writeWord_cmds (s : State) (a k : Nat) (bs : List Byte) : (s.writeWord a k bs).1.cmds = s.cmds := by
  unfold State.writeWord
  repeat' split
  all_goals rfl

@[simp] theorem State.writeBlock_cmds (s : State) (key a k : Nat) (bs : List Byte) : (s.writeBlock key a k bs).1.cmds = s.cmds := by
  unfold State.writeBlock
  dsimp only
  repeat' split
  all_goals rfl

@[simp] theorem State.writePiece_cmds (s : State) (x : Acc) (a : Nat) (bs : List Byte) : (s.writePiece x a bs).1.cmds = s.cmds := by
  unfold State.writePiece
  dsimp only
  repeat' split
  all_goals simp

@[simp] theorem State.writePieces_cmds (s : State) (x : Acc) (ps : List (Nat × List Byte)) : (s.writePieces x ps).1.cmds = s.cmds := by
  induction ps generalizing s with
  | nil => rfl
  | cons p ps ih => exact (ih _).trans (State.writePiece_cmds ..)

@[simp] theorem State.writeBytes_cmds (s : State) (x : Acc) (a : Nat) (bs : List Byte) : (s.writeBytes x a bs).1.cmds = s.cmds := by
  unfold State.writeBytes
  dsimp only
  split
  · rfl
  · exact State.writePieces_cmds ..

@[simp] theorem State.writeRun_cmds (s : State) (x : Acc) (t : Tens) (sT : FVal) (off : Nat) (cs : List Nat) (c0 : Nat)
    (rnd : Nat → Rnd) (vals : List FVal) : (s.writeRun x t sT off cs c0 rnd vals).1.cmds = s.cmds := by
  unfold State.writeRun State.thenWrite
  dsimp only
  repeat' split
  all_goals simp

theorem State.writeEach_cmds {α : Type} {f : State → α → State × WOut} (hf : ∀ t a, (f t a).1.cmds = t.cmds) (l : List α)
    (s : State) :
    (State.writeEach f s l).1.cmds = s.cmds := by
  induction l generalizing s with
  | nil => rfl
  | cons a l ih =>
    unfold State.writeEach
    dsimp only
    split
    · exact hf s a
    · exact (ih _).trans (hf s a)

@[simp] theorem State.writeStats_cmds (s : State) (id : CmdId) (h num : Nat) (r : List Byte) :
    (s.writeStats id h num r).1.cmds = s.cmds := by
  unfold State.writeStats
  repeat' split
  all_goals simp

@[simp] theorem State.ewStats_cmds (s : State) (id : CmdId) (h : Nat) (o : Tens) (rows : List (List FVal))
    (strained : Nat → Nat → Nat) : (s.ewStats id h o rows strained).1.cmds = s.cmds :=
  State.writeEach_cmds (fun _ _ => State.writeStats_cmds ..) _ _

@[simp] theorem State.markRun_cmds (s : State) (x : Acc) (v : Tens) (rr nr c0 nc : Nat) (on : Bool) :
    (s.markRun x v rr nr c0 nc on).1.cmds = s.cmds := by
  unfold State.markRun
  split
  · rfl
  · refine State.writeEach_cmds (fun t i => State.writeEach_cmds (fun u j => ?_) _ _) _ _
    dsimp only
    split
    · rfl
    · exact State.writeBytes_cmds ..

/-! ### Amax history -/

@[simp] theorem State.histWrite_cmds (s : State) (id : CmdId) (t : Tens) (r : List Byte) : (s.histWrite id t r).cmds = s.cmds :=
  State.writeBytes_cmds ..

theorem State.writeScale_cmds {s t : State} {id : CmdId} {o : Tens} {step : Nat} {sc : Option FVal}
    (h : s.writeScale id o step = .ok (sc, t)) : t.cmds = s.cmds := by
  unfold State.writeScale at h
  dsimp only at h
  repeat' split at h
  all_goals cases h
  all_goals simp

theorem State.measuredScale_cmds {s t : State} {id : CmdId} {o : Tens} {step : Nat} {amax sc : FVal}
    (h : s.measuredScale id o step amax = .ok (sc, t)) : t.cmds = s.cmds := by
  unfold State.measuredScale at h
  dsimp only at h
  repeat' split at h
  all_goals cases h
  all_goals simp

theorem State.scaleFor_cmds {s t : State} {id : CmdId} {o : Tens} {step : Nat} {xs : List FVal} {sc : FVal}
    (h : s.scaleFor id o step xs = .ok (sc, t)) : t.cmds = s.cmds := by
  unfold State.scaleFor at h
  split at h
  · cases h
  · rename_i found
    cases h
    exact State.writeScale_cmds found
  · rename_i found
    exact (State.measuredScale_cmds h).trans (State.writeScale_cmds found)

@[simp] theorem State.mergeAmax_cmds (s : State) (id : CmdId) (t : Tens) (step : Nat) (xs : List FVal) :
    (s.mergeAmax id t step xs).cmds = s.cmds := by
  unfold State.mergeAmax
  repeat' split
  all_goals simp

@[simp] theorem State.setStored_cmds (s : State) (id : CmdId) (t : Tens) (step : Nat) (sc : FVal) :
    (s.setStored id t step sc).cmds = s.cmds := by
  unfold State.setStored
  repeat' split
  all_goals simp

theorem State.setStored_plain (s : State) {id : CmdId} {t : Tens} (h : t.usesHistory = false) (step : Nat) (sc : FVal) :
    s.setStored id t step sc = s := by
  simp [State.setStored, h]

/-! ### An uncorrectable word is reported beside the memory -/

theorem State.requestVector_mem (s : State) (c r : Nat) : (s.requestVector c r).mem = s.mem := by
  unfold State.requestVector State.startHoldoff State.sendVector
  dsimp only
  repeat' split
  all_goals rfl

theorem State.faultRecord_cells (s : State) (f : FaultRec) : (s.faultRecord f).mem.cells = s.mem.cells := by
  unfold State.faultRecord
  extract_lets seq src s1 w size phase unlocked s2
  suffices put : s2.mem.cells = s.mem.cells by rw [State.requestVector_mem, put]
  unfold s2
  clear s2
  have start : s1.mem.cells = s.mem.cells := rfl
  clear_value s1 w size phase unlocked seq
  generalize f.logical.getD (0xFFFF, 0) = slot
  obtain ⟨lg, inc⟩ := slot
  refine ite_cases (P := fun t : State => t.mem.cells = s.mem.cells) start ?_
  dsimp -zeta only
  extract_lets record t src' u
  clear_value record
  have stored : u.mem.cells = s.mem.cells := start
  clear_value u
  exact ite_cases (P := fun t : State => t.mem.cells = s.mem.cells) stored stored

theorem State.ueReport_cells (s : State) (a : Nat) : (s.ueReport a).mem.cells = s.mem.cells := by
  unfold State.ueReport State.ueReportAt State.ueReportOf
  dsimp only
  split
  case h_5 => rfl
  all_goals exact State.faultRecord_cells ..

end Sys2Proof.Machine
end

section
/-!
SUPPORT. A command in flight that has not ended stays so through its own writes, and then ends as `State.wrote` says (R81, R216, R567).
-/
set_option Elab.async false
namespace Sys2Proof.Machine

/-! ### A command in flight that has not ended -/

/-- The command under `id` is in flight and has not ended. -/
def State.Unended (s : State) (id : CmdId) : Prop := ∃ c, s.cmd? id = some c ∧ c.ending = none

theorem State.Runs.unended {s : State} {id : CmdId} {op : Nat} {c : Cmd} (h : s.Runs id op c) : s.Unended id := ⟨c, h.found, h.live⟩

theorem State.Runs.id_eq {s : State} {id : CmdId} {op : Nat} {c : Cmd} (h : s.Runs id op c) : c.id = id := by
  simpa using List.find?_some h.found

/-- The second output of a ROW_FORWARD or ROW_BACKWARD: rows written to the tensor of handle `k`, where there is one and the first write
met no error (R178, R180). -/
def State.alsoWrite (s : State) (id : CmdId) (k : Nat) (first : WOut) (rows : Tens → List (List FVal)) : State × WOut :=
  match s.tensRun id.ctx k with
  | some t => if first.err.isSome then (s, WOut.zero) else ((s.writeAll id t 0 0 (rows t)).1, (s.writeAll id t 0 0 (rows t)).2.1)
  | none => (s, WOut.zero)

namespace State.Unended

theorem ite {s t : State} {id : CmdId} {p : Prop} [Decidable p] (hs : s.Unended id) (ht : t.Unended id) :
    (if p then s else t).Unended id := ite_cases (P := fun u : State => u.Unended id) hs ht

theorem ite_fst {α : Type} {x y : State × α} {id : CmdId} {p : Prop} [Decidable p] (hx : x.1.Unended id) (hy : y.1.Unended id) :
    (if p then x else y).1.Unended id := ite_cases (P := fun z : State × α => z.1.Unended id) hx hy

variable {s t : State} {id : CmdId} (h : s.Unended id)
include h

theorem sameCmds (e : t.cmds = s.cmds) : t.Unended id := by
  obtain ⟨c, found, live⟩ := h
  exact ⟨c, by rw [← found, State.cmd?, State.cmd?, e], live⟩

theorem updCmd {f : Cmd → Cmd} (same : ∀ c, (f c).id = c.id) (none : ∀ c, (f c).ending = c.ending) : (s.updCmd id f).Unended id := by
  obtain ⟨c, found, live⟩ := h
  exact ⟨f c, by rw [State.cmd?_updCmd s id f same, found]; rfl, (none c).trans live⟩

theorem flagSaturated (b : Bool) : (s.flagSaturated id b).Unended id := by
  unfold State.flagSaturated
  split
  · exact State.Unended.sameCmds (s := s.updCmd id fun c => { c with saturated := true }) (h.updCmd (fun _ => rfl) fun _ => rfl) rfl
  · exact h

theorem flagNonfinite (b : Bool) : (s.flagNonfinite id b).Unended id := by
  unfold State.flagNonfinite
  split
  · exact h.updCmd (fun _ => rfl) (fun _ => rfl)
  · exact h

theorem moved (t : Tens) (off rd wr : Nat) : (s.moved id t off rd wr).Unended id := h.sameCmds (State.moved_cmds ..)

theorem writeAll (o : Tens) (mode step : Nat) (rows : List (List FVal)) : (s.writeAll id o mode step rows).1.Unended id := by
  unfold State.writeAll
  dsimp only
  split
  · exact h
  · rename_i sc t found
    have scaled : t.Unended id := h.sameCmds (State.scaleFor_cmds found)
    refine State.Unended.moved (State.Unended.flagSaturated (scaled.sameCmds (State.writeEach_cmds (fun u r => ?_) _ _)) _) ..
    split
    · rfl
    · exact State.writeRun_cmds ..

theorem alsoWrite (k : Nat) (first : WOut) (rows : Tens → List (List FVal)) : (s.alsoWrite id k first rows).1.Unended id := by
  unfold State.alsoWrite
  split
  · exact ite_fst h (h.writeAll ..)
  · exact h

theorem finish (e : Ending) : (s.finish id e).EndedAs id e := by
  obtain ⟨c, found, live⟩ := h
  refine ⟨_, ((State.cmd?_updCmd s id _ fun x => ?_).trans (congrArg _ found)), by simp [live]⟩
  split <;> rfl

/-- An access that failed ends the command as it says, and memory holds what it held. -/
theorem failAcc {e : AccErr} (fails : e ≠ .wait) :
    (s.failAcc id e).EndedAs id e.ending ∧ (s.failAcc id e).mem.cells = s.mem.cells := by
  cases e with
  | wait => exact absurd rfl fails
  | ecc w => exact ⟨(h.sameCmds (State.ueReport_lines s w).cmds).finish _, State.ueReport_cells s w⟩
  | range => exact ⟨h.finish _, rfl⟩
  | denied => exact ⟨h.finish _, rfl⟩

end State.Unended

/-! ### How a vector command runs and ends -/

/-- A row that ends with `State.wrote` ends its command with OK, waits as it stood, or ends as the access says. -/
theorem State.Unended.ends_of_wrote {s r : State} {id : CmdId} {i : Instr} {o : Tens} {step : Nat} {w : WOut} {sc : FVal}
    (h : r.Unended id) (run : exec i s = .next (s.wrote r id o step w sc)) :
    ∃ t, exec i s = .next t
      ∧ (w.err = none → t.EndedAs id Status.ok.plain ∧ (o.usesHistory = false → t.mem.cells = r.mem.cells))
      ∧ (w.err = some .wait → t = s)
      ∧ (∀ e, w.err = some e → e ≠ .wait → t.EndedAs id e.ending ∧ t.mem.cells = r.mem.cells) := by
  refine ⟨_, run, fun ok => ?_, fun waits => ?_, fun e fails ne => ?_⟩
  · simp only [State.wrote, ok]
    refine ⟨(h.sameCmds (State.setStored_cmds ..)).finish _, fun plain => ?_⟩
    rw [State.finish_mem, State.setStored_plain r plain]
  · simp only [State.wrote, waits]
  · have failed : s.wrote r id o step w sc = r.failAcc id e := by
      unfold State.wrote
      rw [fails]
      cases e with
      | wait => exact absurd rfl ne
      | _ => rfl
    rw [failed]
    exact h.failAcc ne

theorem State.onCmd_of_runs {s : State} {id : CmdId} {op : Nat} {c : Cmd} (h : s.Runs id op c) (f : Cmd → State) :
    s.onCmd id (fun d => hOpcode d == op) f = f c := by
  obtain ⟨found, live, opcode⟩ := h
  simp [State.onCmd, found, live, opcode]

theorem State.afterReads_of_ok {α : Type} {s : State} {id : CmdId} {bad : Except AccErr (Option Ending)} {r : Except AccErr α} {a : α}
    {f : α → State} (sound : bad = .ok none) (read : r = .ok a) : s.afterReads id bad r f = f a := by
  rw [sound, read]
  rfl

theorem exec_elementwise_of_runs {s : State} {id : CmdId} {c : Cmd} {i o : Tens} (h : s.Runs id 0x23 c)
    (hi : s.tensRun id.ctx (u32 c.desc 32) = some i) (ho : s.tensRun id.ctx (u32 c.desc 36) = some o) :
    exec (.elementwise id) s = .next (s.runElementwise c i o) := by
  show execElementwise id s = _
  rw [execElementwise, State.onCmd_of_runs h, hi, ho]

theorem exec_reduce_of_runs {s : State} {id : CmdId} {c : Cmd} {i o : Tens} (h : s.Runs id 0x24 c)
    (hi : s.tensRun id.ctx (u32 c.desc 32) = some i) (ho : s.tensRun id.ctx (u32 c.desc 36) = some o) :
    exec (.reduce id) s = .next (s.runReduce c i o) := by
  show execReduce id s = _
  rw [execReduce, State.onCmd_of_runs h, hi, ho]

theorem exec_rowForward_of_runs {s : State} {id : CmdId} {c : Cmd} {x y : Tens} (h : s.Runs id 0x21 c)
    (hx : s.tensRun id.ctx (u32 c.desc 32) = some x) (hy : s.tensRun id.ctx (u32 c.desc 36) = some y) :
    exec (.rowForward id) s = .next (s.runRowForward c x y) := by
  show execRowForward id s = _
  rw [execRowForward, State.onCmd_of_runs h, hx, hy]

theorem exec_rowBackward_of_runs {s : State} {id : CmdId} {c : Cmd} {x dy dx : Tens} (h : s.Runs id 0x22 c)
    (hx : s.tensRun id.ctx (u32 c.desc 32) = some x) (hdy : s.tensRun id.ctx (u32 c.desc 36) = some dy)
    (hdx : s.tensRun id.ctx (u32 c.desc 40) = some dx) : exec (.rowBackward id) s = .next (s.runRowBackward c x dy dx) := by
  show execRowBackward id s = _
  rw [execRowBackward, State.onCmd_of_runs h, hx, hdy, hdx]

theorem exec_topk_of_runs {s : State} {id : CmdId} {c : Cmd} {l o w : Tens} (found : s.cmd? id = some c) (live : c.ending = none)
    (opcode : isOpcode 0x60 c.desc = true) (hl : s.tensRun id.ctx (u32 c.desc 32) = some l)
    (ho : s.tensRun id.ctx (u32 c.desc 40) = some o) (hw : s.tensRun id.ctx (u32 c.desc 44) = some w) :
    exec (.topk id) s = .next (s.runTopk c l o w) := by
  show execTopk id s = _
  simp [execTopk, State.onCmd, found, live, opcode, hl, ho, hw]

end Sys2Proof.Machine
end

section
/-!
SUPPORT. The vector commands: their turn of the draw list, what a REDUCE combines, and what each stores (R117–R120, R174–R181,
R375–R377).
-/
set_option Elab.async false
namespace Sys2Proof.Machine

/-! ### Before its turn of the draw list a command waits (R118, R178, R181) -/

section
variable {s : State} {id : CmdId} {c : Cmd} (turn : s.turnOf c = none)
include turn

theorem exec_elementwise_waits (h : s.Runs id 0x23 c) : exec (.elementwise id) s = .next s := by
  show Host.Outcome.next (s.onCmd id _ _) = _
  rw [State.onCmd_of_runs h]
  split
  · simp only [State.runElementwise, turn]
  · rfl

theorem exec_rowForward_waits (h : s.Runs id 0x21 c) : exec (.rowForward id) s = .next s := by
  show Host.Outcome.next (s.onCmd id _ _) = _
  rw [State.onCmd_of_runs h]
  split
  · simp only [State.runRowForward, turn]
  · rfl

theorem exec_rowBackward_waits (h : s.Runs id 0x22 c) : exec (.rowBackward id) s = .next s := by
  show Host.Outcome.next (s.onCmd id _ _) = _
  rw [State.onCmd_of_runs h]
  split
  · simp only [State.runRowBackward, turn]
  · rfl

end

/-! ### What a REDUCE makes of one group (R120) -/

/-- The elements of a group combined, or a free value where there is none (log entry 24). -/
def combineGroup (free : FVal) (isInt : Bool) (op : Nat) : List FVal → FVal × Bool
  | [] => (free, false)
  | g => reduceElems isInt op g

theorem combineGroup_nil (free : FVal) (isInt : Bool) (op : Nat) : combineGroup free isInt op [] = (free, false) := rfl

theorem combineGroup_cons (free : FVal) (isInt : Bool) (op : Nat) (x : FVal) (g : List FVal) :
    combineGroup free isInt op (x :: g) = reduceElems isInt op (x :: g) := rfl

theorem reduceElems_cons (isInt : Bool) (op : Nat) (x : FVal) (g : List FVal) :
    reduceElems isInt op (x :: g) =
      if op = 0 ∧ isInt = true then
        g.foldl (fun a v => (.ofInt (satAdd (intOf a.1) (intOf v)).1, a.2 || (satAdd (intOf a.1) (intOf v)).2)) (x, false)
      else if op = 0 then (g.foldl add32 (toF32 x), false)
      else if op = 1 then (g.foldl max32 x, false)
      else (g.foldl min32 x, false) := by
  by_cases add : op = 0
  · cases isInt <;> simp [reduceElems, add]
  · simp [reduceElems, add]

/-! ### The vector commands -/

/-- Settles O58: each command's row is its reads followed by `State.wrote`, and none of its writes ends the command before that. -/
theorem vectorCommandsStoreTheirRows : Obligations.VectorCommandsStoreTheirRows := by
  intro s id c ctx d rdIn rd ends
  refine ⟨fun turn => ⟨exec_elementwise_waits turn, exec_rowForward_waits turn, exec_rowBackward_waits turn⟩,
    fun h => ?elementwise, fun h => ?reduce, fun h => ?rowForward, fun h => ?rowBackward, fun found live opcode => ?topk⟩
  case elementwise =>
    obtain rfl := h.id_eq
    intro l renew i o xs st turn hi ho s' hxs p sound hst exact out moved r w a v z
    have served : s'.Unended c.id := h.unended.sameCmds rfl
    have flagged : r.Unended c.id := .ite (served.moved ..) ((served.moved ..).flagNonfinite _)
    have written : w.1.Unended c.id := flagged.writeAll ..
    have merged : a.Unended c.id := .ite written (written.sameCmds (State.mergeAmax_cmds ..))
    have counted : v.1.Unended c.id := .ite_fst merged (merged.sameCmds (State.ewStats_cmds ..))
    have cleared : z.1.Unended c.id := .ite_fst counted (counted.sameCmds (State.markRun_cmds ..))
    have clears : z = if (w.2.1.join v.2).err.isSome ∨ !o.promote then (v.1, WOut.zero)
        else v.1.markRun (v.1.accOf c.id o) o 0 o.rows 0 o.cols false := by
      simp only [z, Bool.not_eq_true']
    have stores : s.runElementwise c i o = s.wrote z.1 c.id o (u32 d 48) ((w.2.1.join v.2).join z.2) w.2.2 := by
      rw [clears, State.runElementwise, turn]
      exact (State.afterReads_of_ok sound hxs).trans (State.afterReads_of_ok rfl hst)
    exact cleared.ends_of_wrote ((exec_elementwise_of_runs h hi ho).trans (congrArg _ stores))
  case reduce =>
    obtain rfl := h.id_eq
    intro i o xs hi ho hxs op isInt exact one res out combined r w
    have freed : ({ s with freeCount := s.freeCount + 1 } : State).Unended c.id := h.unended.sameCmds rfl
    have counted : combined.Unended c.id := (freed.moved ..).flagSaturated _
    have flagged : r.Unended c.id := .ite counted (counted.flagNonfinite _)
    have written : w.1.Unended c.id := flagged.writeAll ..
    have each : one = fun r k => combineGroup (ofBits32 (Config.freeValue s.freeCount % 2 ^ 32)) isInt op
        (reduceGroup i (bitsOf (u8 d 40) 2 0) xs (o.outer r) k) := by
      funext row col
      unfold one
      split
      · rename_i empty
        rw [empty, combineGroup_nil]
      · rename_i elems
        rw [elems, combineGroup_cons, reduceElems_cons]
    have stores : s.runReduce c i o = s.wrote w.1 c.id o (u32 d 48) w.2.1 w.2.2 := by
      -- The model's own combination of a group takes the place of `one` in every value that was built from it.
      clear_value one
      subst each
      exact State.afterReads_of_ok rfl hxs
    exact written.ends_of_wrote ((exec_reduce_of_runs h hi ho).trans (congrArg _ stores))
  case rowForward =>
    obtain rfl := h.id_eq
    intro l renew x y xs gamma beta turn hx hy s' sound hxs hgamma hbeta k masked fs out r w v
    have served : s'.Unended c.id := h.unended.sameCmds rfl
    have written : w.1.Unended c.id := ((served.moved ..).flagNonfinite _).writeAll ..
    have stored : v.1.Unended c.id := written.alsoWrite ..
    have stores : s.runRowForward c x y = s.wrote v.1 c.id y (u32 d 64) (w.2.1.join v.2) w.2.2 := by
      rw [State.runRowForward, turn]
      exact (State.afterReads_of_ok sound hxs).trans
        ((State.afterReads_of_ok rfl hgamma).trans (State.afterReads_of_ok rfl hbeta))
    exact stored.ends_of_wrote ((exec_rowForward_of_runs h hx hy).trans (congrArg _ stores))
  case rowBackward =>
    obtain rfl := h.id_eq
    intro l renew x dy dx xs ys gamma turn hx hdy hdx s' sound hxs hys hgamma k masked dys fs vals out sums r w v
    have served : s'.Unended c.id := h.unended.sameCmds rfl
    have flagged : r.Unended c.id := ((served.moved ..).moved ..).flagNonfinite _
    have freed : r.free.2.Unended c.id := flagged.sameCmds rfl
    have written : w.1.Unended c.id := freed.writeAll ..
    have stored : v.1.Unended c.id := written.alsoWrite ..
    have stores : s.runRowBackward c x dy dx = s.wrote v.1 c.id dx (r.free.1 % 2 ^ 32) (w.2.1.join v.2) w.2.2 := by
      rw [State.runRowBackward, turn]
      exact (State.afterReads_of_ok sound hxs).trans
        ((State.afterReads_of_ok rfl hys).trans (State.afterReads_of_ok rfl hgamma))
    exact stored.ends_of_wrote ((exec_rowBackward_of_runs h hx hdy hdx).trans (congrArg _ stores))
  case topk =>
    intro l o w xs bias hl ho hw hxs hbias cands ws r a b
    obtain rfl : c.id = id := State.Runs.id_eq ⟨found, live, rfl⟩
    have alive : s.Unended c.id := ⟨c, found, live⟩
    have first : a.1.Unended c.id := ((alive.flagNonfinite _).moved ..).writeAll ..
    have stores : s.runTopk c l o w =
        if a.2.1.err.isSome then s.wrote a.1 c.id o 0 a.2.1 a.2.2 else s.wrote b.1 c.id w 0 b.2.1 b.2.2 :=
      (State.afterReads_of_ok rfl hxs).trans (State.afterReads_of_ok rfl hbias)
    have run := exec_topk_of_runs found live opcode hl ho hw
    refine ⟨fun ok => ?_, fun e fails => ?_⟩
    · rw [stores, ok] at run
      exact (first.writeAll w 0 0 ws).ends_of_wrote run
    · rw [stores, fails] at run
      exact first.ends_of_wrote run

end Sys2Proof.Machine
end

section
/-!
SUPPORT. The Topiary command: what its writes leave alone, how it waits, and how it ends once its source is judged (R152–R163).
-/
set_option Elab.async false
namespace Sys2Proof.Machine

/-! ### What its writes leave alone -/

@[simp] theorem State.writeTile_cmds (s : State) (x : Acc) (t : Tens) (off gen r c : Nat) (bs : List Byte) :
    (s.writeTile x t off gen r c bs).1.cmds = s.cmds := State.writeBytes_cmds ..

@[simp] theorem State.writeGen_cmds (s : State) (id : CmdId) (t : Tens) (h : Nat) (map : Nat → Nat → Nat) (val : Nat → Nat → FVal) :
    (s.writeGen id t h map val).1.cmds = s.cmds :=
  State.writeEach_cmds (fun _ _ => State.writeTile_cmds ..) _ _

@[simp] theorem State.topiaryWrite_cmds (s : State) (id : CmdId) (b : TBody) (f : Tens) (src : Option TSource) (bs : List Block8)
    (value : Option (List (List FVal))) : (s.topiaryWrite id b f src bs value).1.cmds = s.cmds := by
  refine State.writeEach_cmds (fun t k => ?_) _ _
  dsimp only
  split
  · -- the generation
    split <;> simp
  split
  · -- its transpose
    split <;> simp
  · -- the change map
    split
    · rfl
    · refine State.writeEach_cmds (fun u r => ?_) _ _
      split <;> simp

@[simp] theorem State.undefined_cmds (s : State) (x : Acc) (rs : List Rng) : (s.undefined x rs).cmds = s.cmds := by
  unfold State.undefined
  induction rs generalizing s with
  | nil => rfl
  | cons r rs ih => exact (ih _).trans (State.writeBytes_cmds ..)

@[simp] theorem State.spoil_cmds (s : State) (id : CmdId) (b : TBody) : (s.spoil id b).cmds = s.cmds := by
  unfold State.spoil
  dsimp only
  repeat' split
  all_goals simp

@[simp] theorem State.qcount_mem (s : State) (i : CmdId) (rd wr mac stall : Nat) : (s.qcount i rd wr mac stall).mem = s.mem := by
  simp only [State.qcount]
  repeat' split
  all_goals rfl

@[simp] theorem State.flagSaturated_mem (s : State) (id : CmdId) (b : Bool) : (s.flagSaturated id b).mem = s.mem := by
  cases b <;> rfl

theorem State.cmd?_of_cmds_eq {s t : State} (e : t.cmds = s.cmds) (id : CmdId) : t.cmd? id = s.cmd? id := by
  rw [State.cmd?, State.cmd?, e]

theorem State.cmd?_flagSaturated {s : State} {id : CmdId} {c : Cmd} (found : s.cmd? id = some c) (b : Bool) :
    (s.flagSaturated id b).cmd? id = some { c with saturated := c.saturated || b } := by
  cases b with
  | false => simpa [State.flagSaturated] using found
  | true =>
    have marked := State.cmd?_updCmd s id (fun x => { x with saturated := true }) fun _ => rfl
    exact (State.cmd?_of_cmds_eq rfl id).trans (marked.trans (by simp [found]))

/-- A command that did all it describes ends with OK, or with REPLAYED where it ran again (R462). -/
theorem State.finishOk_endedAs {s : State} {id : CmdId} {c : Cmd} (found : s.cmd? id = some c) (live : c.ending = none) :
    (s.finishOk id).EndedAs id (if c.replayed then Status.replayed.plain else Status.ok.plain) := by
  refine ⟨_, (State.cmd?_updCmd s id _ fun x => ?_).trans (congrArg _ found), ?_⟩
  · split <;> rfl
  · cases h : c.replayed <;> simp [live, h, Status.plain]

/-! ### The verdict of CHECK (R157, R158) -/

theorem checkEnding_of_bad {b : TBody} {nc k : Nat} {bs : List Block8} (check : b.check = true)
    (bad : (firstIdx bs.length fun k => (bs[k]?).any fun x => !transposable b.n x.kept) = some k) :
    checkEnding b nc bs
      = some (sparseEnding ⟨.maskNotTransposable, 8 * (k / nc), k % nc⟩ (if b.dest ≠ noHandle then b.dest else b.src) 0 0) := by
  simp [checkEnding, check, bad]

theorem checkEnding_of_good {b : TBody} {bs : List Block8}
    (good : b.check = false ∨ (firstIdx bs.length fun k => (bs[k]?).any fun x => !transposable b.n x.kept) = none) (nc : Nat) :
    checkEnding b nc bs = none := by
  rcases good with off | sound
  · simp [checkEnding, off]
  · simp [checkEnding, sound]

/-! ### The run of a command whose buffers are free -/

section
variable {s : State} {id : CmdId} {b : TBody} {f : Tens} {src : Option TSource} {w g v : List (List FVal)}
  (hw : s.denseOr id b.wscore = .ok w) (hg : s.denseOr id b.gscore = .ok g) (hv : s.denseOr id b.value = .ok v)
include hw hg hv

theorem State.topiaryRun_of_bad {e : Ending} (bad : checkEnding b (ceilDiv (f.log 0) 8) (editBlocks b f src w g) = some e) :
    s.topiaryRun id b f src = (s.spoil id b).finish id e := by
  simp only [State.topiaryRun, hw, hg, hv, bad]

/-- Where CHECK finds nothing, the write decides: the command waits as it stood, or ends as the write says. -/
theorem State.topiaryRun_of_good (good : checkEnding b (ceilDiv (f.log 0) 8) (editBlocks b f src w g) = none) :
    let r := s.topiaryWrite id b f src (editBlocks b f src w g) (if b.value = noHandle then none else some v)
    let t := (r.1.flagSaturated id r.2.saturated).qcount id (s.topiaryReads id.ctx b) r.2.bytes 0 0
    (r.2.err = none → s.topiaryRun id b f src = t.finishOk id)
    ∧ (r.2.err = some .wait → s.topiaryRun id b f src = s)
    ∧ (∀ e, r.2.err = some e → e ≠ .wait → s.topiaryRun id b f src = t.failAcc id e) := by
  refine ⟨fun ok => ?_, fun waits => ?_, fun e fails ne => ?_⟩
  · simp only [State.topiaryRun, hw, hg, hv, good, ok]
  · simp only [State.topiaryRun, hw, hg, hv, good, waits]
  · simp only [State.topiaryRun, hw, hg, hv, good, fails]

end

/-! ### How a command comes to run -/

/-- The row that carries a Topiary command on: TOPIARY, or TOPIARY_BUFFER_WRITE where it waited for its buffers (R163 step 3). -/
def topiaryRow (id : CmdId) (c : Cmd) : Instr := if c.begun then .topiaryBufferWrite id else .topiary id

section
variable {s : State} {id : CmdId} {c : Cmd} (h : s.Runs id 0x30 c)
include h

theorem exec_topiary_of_runs :
    exec (.topiary id) s = .next (if c.begun ∨ s.topiaryTested id then s else s.topiaryStep c) :=
  congrArg Host.Outcome.next (State.onCmd_of_runs h _)

theorem exec_topiaryBufferWrite_of_runs :
    exec (.topiaryBufferWrite id) s = .next (if c.begun ∧ !s.topiaryTested id then s.topiaryStep c else s) :=
  congrArg Host.Outcome.next (State.onCmd_of_runs h _)

theorem exec_topiaryRow : exec (topiaryRow id c) s = .next (if s.topiaryTested id then s else s.topiaryStep c) := by
  cases begun : c.begun
  · simp [topiaryRow, begun, exec_topiary_of_runs h]
  · cases tested : s.topiaryTested id <;> simp [topiaryRow, begun, exec_topiaryBufferWrite_of_runs h, tested]

end

section
variable {s : State} {c : Cmd} {f : Tens}
  (hf : s.tensRun c.id.ctx (if (tBody c.desc).src ≠ noHandle then (tBody c.desc).src else (tBody c.desc).dest) = some f)
include hf

theorem State.topiaryStep_of_refused {e : Ending} {src : Option TSource}
    (judged : s.topiarySource c.id (tBody c.desc) = .ok (some e, src)) : s.topiaryStep c = s.finish c.id e := by
  simp only [State.topiaryStep, hf, judged]

theorem State.topiaryStep_of_sound {src : Option TSource} (judged : s.topiarySource c.id (tBody c.desc) = .ok (none, src)) :
    s.topiaryStep c = if s.buffersFree c.id.ctx (tBody c.desc) then s.topiaryRun c.id (tBody c.desc) f src
      else s.updCmd c.id fun x => { x with begun := true } := by
  simp only [State.topiaryStep, hf, judged]

end

/-! ### The obligation -/

/-- Settles O57: the command's row is `State.topiaryStep`, and nothing it writes touches the commands in flight before it ends. -/
theorem topiaryEditsItsBlocks : Obligations.TopiaryEditsItsBlocks := by
  intro s id c f found live opcode b i hf
  have h : s.Runs id 0x30 c := ⟨found, live, eq_of_beq opcode⟩
  obtain rfl := h.id_eq
  have row : exec i s = .next (if s.topiaryTested c.id then s else s.topiaryStep c) := exec_topiaryRow h
  refine ⟨fun begun => ?_, fun fresh => ?_, fun tested => ?_, fun free => ?_⟩
  · simp [exec_topiary_of_runs h, begun]
  · simp [exec_topiaryBufferWrite_of_runs h, fresh]
  · simp [row, tested]
  have step : exec i s = .next (s.topiaryStep c) := by simp [row, free]
  refine ⟨fun e src judged => ?_, fun src judged busy => ?_, fun src w g v judged room hw hg hv => ?_⟩
  · rw [step, State.topiaryStep_of_refused hf judged]
  · rw [step, State.topiaryStep_of_sound hf judged, busy]
    rfl
  intro bs nc bad
  have run : exec i s = .next (s.topiaryRun c.id b f src) := by
    rw [step, State.topiaryStep_of_sound hf judged, if_pos room]
  refine ⟨fun k check fails => ?_, fun good => ?_⟩
  · have spoiled : (s.spoil c.id b).Unended c.id := h.unended.sameCmds (State.spoil_cmds ..)
    exact ⟨_, run.trans (congrArg _ (State.topiaryRun_of_bad hw hg hv (checkEnding_of_bad check fails))), spoiled.finish _⟩
  · intro r
    obtain ⟨ok, waits, fails⟩ := State.topiaryRun_of_good hw hg hv (checkEnding_of_good good nc)
    have written : r.1.cmd? c.id = some c := (State.cmd?_of_cmds_eq (State.topiaryWrite_cmds ..) _).trans found
    have flagged := State.cmd?_flagSaturated written r.2.saturated
    have counted := (State.cmd?_of_cmds_eq (State.qcount_cmds _ c.id (s.topiaryReads c.id.ctx b) r.2.bytes 0 0) c.id).trans flagged
    have ended := State.finishOk_endedAs counted live
    refine ⟨fun stored => ⟨_, run.trans (congrArg _ (ok stored)), ended, ?_⟩,
      fun wait => run.trans (congrArg _ (waits wait)),
      fun e err ne => ⟨_, run.trans (congrArg _ (fails e err ne)), ?_⟩⟩
    · rw [State.finishOk_mem, State.qcount_mem, State.flagSaturated_mem]
    · exact (State.Unended.failAcc ⟨_, counted, live⟩ ne).1

end Sys2Proof.Machine
end

section
/-!
SUPPORT. The rows of NOP and of the descriptor and allocation commands: which breach a create reports, and what each changes
(R183–R195, R566).
-/
set_option Elab.async false
namespace Sys2Proof.Machine

/-! ### The breach reported among several (R558, log entry 10) -/

/-- A breach goes before another where its rank is lower, or its byte within one rank. -/
def Viol.before (w v : Viol) : Bool := decide (w.rank < v.rank ∨ (w.rank = v.rank ∧ w.off < v.off))

theorem firstBy_before {vs : List Viol} {v : Viol} (h : firstBy Viol.before vs = some v) : v ∈ vs ∧ ∀ w ∈ vs, v.rank ≤ w.rank := by
  induction vs generalizing v with
  | nil => cases h
  | cons a vs ih =>
    simp only [firstBy] at h
    split at h
    · rename_i empty
      cases h
      simp [firstBy_eq_none.mp empty]
    · rename_i w found
      obtain ⟨mem, least⟩ := ih found
      split at h <;> rename_i lt <;> cases h
      · have le : v.rank ≤ a.rank := by
          simp only [Viol.before, decide_eq_true_eq] at lt
          omega
        exact ⟨.tail _ mem, by simpa using ⟨le, least⟩⟩
      · have le : a.rank ≤ w.rank := by
          simp only [Viol.before, decide_eq_true_eq] at lt
          omega
        exact ⟨.head _, by simpa using fun x hx => le.trans (least x hx)⟩

/-- The status reported is that of the lowest rank, where one status alone holds that rank. -/
theorem worst_status {vs : List Viol} {u : Viol} (mem : u ∈ vs) (least : ∀ w ∈ vs, u.rank < w.rank ∨ w.status = u.status) :
    ∃ v, worst vs = some v ∧ v.status = u.status := by
  cases first : firstBy Viol.before vs with
  | none => simp [firstBy_eq_none.mp first] at mem
  | some v =>
    obtain ⟨hv, le⟩ := firstBy_before first
    have status : v.status = u.status := (least v hv).resolve_left (Nat.not_lt.mpr (le u mem))
    refine ⟨_, congrArg (Option.map _) first, ?_⟩
    dsimp only
    split
    · split <;> exact status
    · exact status

/-! ### The breaches of a descriptor record (R189–R195) -/

theorem mem_violIf {b : Bool} {u v : Viol} (h : u ∈ violIf b v) : u = v := by
  cases b
  · cases h
  · exact List.mem_singleton.mp h

theorem nonZeros_format {r : List Byte} {fs : List (Nat × Nat)} {v : Viol} (h : v ∈ nonZeros r fs) : v.status = .descFormat := by
  simp only [nonZeros, List.mem_flatten, List.mem_map] at h
  obtain ⟨_, ⟨f, -, rfl⟩, h⟩ := h
  rw [mem_violIf h]
  rfl

theorem rsvdViols_format {spans : List Span} {r : List Byte} {v : Viol} (h : v ∈ rsvdViols spans r) : v.status = .descFormat := by
  unfold rsvdViols at h
  split at h
  · rw [List.mem_singleton.mp h]
    rfl
  · cases h

/-- Whatever is wrong with an extension record is a malformed field. -/
theorem extViols_format {t : Tens} {e : List Byte} {v : Viol} (h : v ∈ extViols t e) : v.status = .descFormat := by
  have field {b : Bool} {off : Nat} (h : v ∈ violIf b (formatViol off)) : v.status = .descFormat := by rw [mem_violIf h]; rfl
  simp only [extViols, List.mem_append] at h
  obtain (((h | h) | h) | h) | h := h
  · exact rsvdViols_format h
  · exact field h
  · exact field h
  · split at h
    · cases h
    · exact nonZeros_format h
  · split at h
    · simp only [List.mem_append] at h
      obtain ((h | h) | h) | h := h <;> exact field h
    · cases h

theorem alignViols_align {t : Tens} {v : Viol} (h : v ∈ alignViols t) : v.status = .alignInner ∧ v.rank = 1 := by
  have field {b : Bool} {off : Nat} (h : v ∈ violIf b (viol .alignInner noHandle off)) : v.status = .alignInner ∧ v.rank = 1 := by
    rw [mem_violIf h]; exact ⟨rfl, rfl⟩
  simp only [alignViols, List.mem_append, List.mem_flatten, List.mem_map] at h
  obtain (h | h) | ⟨_, ⟨d, -, rfl⟩, h⟩ := h <;> exact field h

theorem reachOf_late {off : Nat} {r : Except AccErr Acc} {v : Viol} (h : v ∈ reachOf off r) : 2 ≤ v.rank := by
  unfold reachOf at h
  split at h
  · cases h
  · rw [List.mem_singleton.mp h]; exact Nat.le_refl 2
  · rw [List.mem_singleton.mp h]; exact Nat.le_succ 2

/-- A record that reaches outside its allocation is judged after its fields and its alignment. -/
theorem State.reachViols_late {s : State} {c : Nat} {t : Tens} {v : Viol} (h : v ∈ s.reachViols c t) : 2 ≤ v.rank := by
  have range {b : Bool} {off k : Nat} (h : v ∈ violIf b ((viol .tensorRange noHandle off).inRec k)) : 2 ≤ v.rank := by
    rw [mem_violIf h]; exact Nat.le_refl 2
  unfold State.reachViols at h
  split at h
  · rw [List.mem_singleton.mp h]; exact Nat.le_refl 2
  · simp only [List.mem_append, List.mem_flatten, List.mem_map] at h
    obtain (⟨_, ⟨k, -, rfl⟩, h⟩ | ⟨_, ⟨p, -, rfl⟩, h⟩) | h := h
    · exact range h
    · exact range h
    · split at h
      · obtain ⟨w, hw, rfl⟩ := List.mem_map.mp h
        exact reachOf_late (v := w) hw
      · cases h

/-- What a DESC_CREATE of slot `i` finds wrong with the records it copied. -/
def State.createViols (s : State) (ctx i : Nat) (r x : List Byte) : List Viol :=
  let t := tensOf noHandle r x false
  violIf ((s.slot ctx i).valid || (s.slot ctx i).destroying) (formatViol 32) ++ (extViols t (padTo 64 x)).map (·.inRec 2)
    ++ (alignViols t).map (·.inRec 1) ++ s.reachViols ctx t

section
variable {s : State} {ctx i : Nat} {r x : List Byte}

theorem State.mem_createViols {v : Viol} (h : v ∈ s.createViols ctx i r x) : v.status = .descFormat ∨ 1 ≤ v.rank := by
  simp only [State.createViols, List.mem_append, List.mem_map] at h
  obtain ((h | ⟨w, hw, rfl⟩) | ⟨w, hw, rfl⟩) | h := h
  · rw [mem_violIf h]; exact .inl rfl
  · exact .inl (extViols_format (v := w) hw)
  · exact .inr (alignViols_align hw).2.ge
  · exact .inr (Nat.le_of_succ_le (State.reachViols_late h))

/-- A slot in use is refused whatever else is wrong. -/
theorem State.worst_createViols_used (used : ((s.slot ctx i).valid || (s.slot ctx i).destroying) = true) :
    ∃ v, worst (s.createViols ctx i r x) = some v ∧ v.status = .descFormat :=
  worst_status (u := formatViol 32) (by simp [State.createViols, used, violIf]) fun _ hw => (State.mem_createViols hw).symm

variable (free : ((s.slot ctx i).valid || (s.slot ctx i).destroying) = false)
  (sound : extViols (tensOf noHandle r x false) (padTo 64 x) = [])
include free sound

theorem State.createViols_free : s.createViols ctx i r x
    = (alignViols (tensOf noHandle r x false)).map (·.inRec 1) ++ s.reachViols ctx (tensOf noHandle r x false) := by
  simp [State.createViols, free, sound, violIf]

/-- A misaligned record is refused for that, wherever it reaches. -/
theorem State.worst_createViols_misaligned (misaligned : alignViols (tensOf noHandle r x false) ≠ []) :
    ∃ v, worst (s.createViols ctx i r x) = some v ∧ v.status = .alignInner := by
  rw [State.createViols_free free sound]
  obtain ⟨u, hu⟩ := List.exists_mem_of_ne_nil _ misaligned
  obtain ⟨status, rank⟩ := alignViols_align hu
  rw [← status]
  refine worst_status (u := u.inRec 1) (List.mem_append_left _ (List.mem_map_of_mem hu)) fun w hw => ?_
  obtain hw | hw := List.mem_append.mp hw
  · obtain ⟨v, hv, rfl⟩ := List.mem_map.mp hw
    exact .inr ((alignViols_align hv).1.trans status.symm)
  · exact .inl (Nat.lt_of_lt_of_le (show u.rank < 2 by omega) (State.reachViols_late hw))

theorem State.worst_createViols_unallocated (aligned : alignViols (tensOf noHandle r x false) = [])
    (none : (s.ctx ctx).allocs.get? (tensOf noHandle r x false).alloc = none) :
    ∃ v, worst (s.createViols ctx i r x) = some v ∧ v.status = .tensorRange := by
  have only : s.createViols ctx i r x = [(viol .tensorRange noHandle 8).inRec 1] := by
    simp [State.createViols_free free sound, aligned, State.reachViols, none]
  rw [only]
  exact worst_status (.head _) (by simp)

end

/-! ### What a change of one context leaves alone -/

theorem State.slot_updSlot_other (s : State) {c i k j : Nat} (f : DescSlot → DescSlot) (ne : k ≠ c ∨ j ≠ i) :
    (s.updSlot c i f).slot k j = s.slot k j := by
  simp only [State.slot, State.updSlot, State.ctx_updCtx]
  split
  · rename_i same
    rw [same, Tab.getD_upd_other _ _ _ (ne.resolve_left (not_not_intro same))]
  · rfl

@[simp] theorem State.finish_ctx (s : State) (id : CmdId) (e : Ending) (c : Nat) : (s.finish id e).ctx c = s.ctx c := rfl

/-! ### The rows -/

section
variable {s : State} {c : Cmd}

theorem exec_nop_of_runs (h : s.Runs c.id 0x01 c) : exec (.nop c.id) s = .next (s.finish c.id Status.ok.plain) :=
  congrArg Host.Outcome.next (State.onCmd_of_runs h _)

theorem exec_descCreate_of_runs (h : s.Runs c.id 0x10 c) : exec (.descCreate c.id) s = .next (s.descCreate c) :=
  congrArg Host.Outcome.next (State.onCmd_of_runs h _)

theorem exec_descDestroy_of_runs (h : s.Runs c.id 0x11 c) : exec (.descDestroy c.id) s = .next (s.descDestroy c) :=
  congrArg Host.Outcome.next (State.onCmd_of_runs h _)

theorem exec_allocSet_of_runs (h : s.Runs c.id 0x12 c) :
    exec (.allocSet c.id) s = .next (s.allocChange c fun t i => t.set i (allocOfBody c.desc)) :=
  congrArg Host.Outcome.next (State.onCmd_of_runs h _)

theorem exec_allocClear_of_runs (h : s.Runs c.id 0x13 c) :
    exec (.allocClear c.id) s = .next (s.allocChange c fun t i => t.erase i) :=
  congrArg Host.Outcome.next (State.onCmd_of_runs h _)

theorem State.descCreate_refused {st : Status}
    (h : ∃ v, worst (s.createViols c.id.ctx (u32 c.desc 32 % 2 ^ 24) (c.records.getD 1 []) (c.records.getD 2 [])) = some v ∧ v.status = st) :
    ∃ e, s.descCreate c = s.finish c.id e ∧ e.status = st.code := by
  obtain ⟨v, found, rfl⟩ := h
  unfold State.createViols at found
  exact ⟨v.ending, by simp only [State.descCreate, found], rfl⟩

/-- A record that breaches nothing fills its slot under the next generation, and the new handle is the command's answer (R183, R184). -/
theorem State.descCreate_sound (h : s.createViols c.id.ctx (u32 c.desc 32 % 2 ^ 24) (c.records.getD 1 []) (c.records.getD 2 []) = []) :
    let i := u32 c.desc 32 % 2 ^ 24
    let g := ((s.slot c.id.ctx i).gen + 1) % 256
    let r := c.records.getD 1 []
    let x := c.records.getD 2 []
    let overlaps := (tensOf noHandle r x false).overlaps
    s.descCreate c =
      (s.updSlot c.id.ctx i fun _ =>
        { DescSlot.init with gen := g, valid := true, record := r, ext := x, selfOverlap := overlaps }).finish c.id
          ⟨0, 0, detail4 (i + g * 2 ^ 24) 0 0 0⟩ := by
  have none := worst_eq_none.mpr h
  unfold State.createViols at none
  simp only [State.descCreate, none]

/-- The slot of a handle that is being destroyed: invalid at once, its allocation as it stood then (R185). -/
def State.markDestroyed (s : State) (ctx h : Nat) : State :=
  s.updSlot ctx (handleSlot h) fun x =>
    { x with valid := false, destroying := true, frozen := (s.ctx ctx).allocs.get? (tensOf h x.record x.ext false).alloc }

theorem State.descDestroy_of_valid (gen : (s.slot c.id.ctx (handleSlot (u32 c.desc 32))).gen = handleGen (u32 c.desc 32))
    (valid : (s.slot c.id.ctx (handleSlot (u32 c.desc 32))).valid = true) :
    s.descDestroy c =
      if s.namesHandle c.id.ctx (u32 c.desc 32) then s.markDestroyed c.id.ctx (u32 c.desc 32)
      else ((s.markDestroyed c.id.ctx (u32 c.desc 32)).updSlot c.id.ctx (handleSlot (u32 c.desc 32)) fun x =>
        { DescSlot.init with gen := x.gen }).finish c.id Status.ok.plain := by
  have kept : ((s.markDestroyed c.id.ctx (u32 c.desc 32)).slot c.id.ctx (handleSlot (u32 c.desc 32))).gen
      = handleGen (u32 c.desc 32) := by rw [State.markDestroyed, State.updSlot_same]; exact gen
  have named : (s.markDestroyed c.id.ctx (u32 c.desc 32)).namesHandle c.id.ctx (u32 c.desc 32)
      = s.namesHandle c.id.ctx (u32 c.desc 32) := rfl
  unfold State.markDestroyed at kept named
  simp only [State.descDestroy, gen, valid, and_self, if_true, kept, named]
  rfl

theorem State.allocChange_named (h : s.allocNamed (bitsOf (u32 c.desc 36) 5 0) (u16 c.desc 32) = true)
    (f : Tab Alloc → Nat → Tab Alloc) : s.allocChange c f = s.finish c.id (formatViol 32).ending := by
  simp only [State.allocChange, h, if_true]

/-- An allocation that no valid descriptor names changes alone, and the command ends (R187). -/
theorem State.allocChange_unnamed (live : s.Unended c.id) (h : s.allocNamed (bitsOf (u32 c.desc 36) 5 0) (u16 c.desc 32) = false)
    (f : Tab Alloc → Nat → Tab Alloc) :
    let k := bitsOf (u32 c.desc 36) 5 0
    let t := s.allocChange c f
    (t.ctx k).allocs = f (s.ctx k).allocs (u16 c.desc 32) ∧ (∀ k', k' ≠ k → t.ctx k' = s.ctx k') ∧ t.EndedAs c.id Status.ok.plain
      ∧ { t with ctxs := s.ctxs, cmds := s.cmds } = s := by
  simp only [State.allocChange, h, Bool.false_eq_true, if_false, State.finish_ctx]
  refine ⟨by rw [State.updCtx_same], fun _ ne => State.updCtx_other s _ ne, ?_, rfl⟩
  exact State.Unended.finish (live.sameCmds rfl) _

end

/-! ### The obligation -/

/-- Settles O24: each row is its function of the command, and the breach that a create reports is the one of the lowest rank. -/
theorem descriptorsAndAllocationsAreKept : Obligations.DescriptorsAndAllocationsAreKept := by
  refine ⟨fun s id c => ⟨fun h => ?nop, fun h => ?create, fun h => ?destroy⟩,
    fun s id c => ⟨fun named => ?named, fun unnamed => ?unnamed⟩⟩
  case nop =>
    obtain rfl := h.id_eq
    exact ⟨exec_nop_of_runs h, h.unended.finish _⟩
  case create =>
    obtain rfl := h.id_eq
    intro i r x sl tn free
    have refused {st : Status} (judged : ∃ v, worst (s.createViols c.id.ctx i r x) = some v ∧ v.status = st) :
        ∃ e, exec (.descCreate c.id) s = .next (s.finish c.id e) ∧ e.status = st.code := by
      obtain ⟨e, stored, status⟩ := State.descCreate_refused judged
      exact ⟨e, (exec_descCreate_of_runs h).trans (congrArg _ stored), status⟩
    have unused (ok : free = true) : (sl.valid || sl.destroying) = false := by simpa [free] using ok
    refine ⟨fun used => refused (State.worst_createViols_used ?_),
      fun ok sound bad => refused (State.worst_createViols_misaligned (unused ok) sound bad),
      fun ok sound aligned absent => refused (State.worst_createViols_unallocated (unused ok) sound aligned absent),
      fun ok sound aligned reaches => ?_⟩
    · cases valid : sl.valid
      · simpa [free, valid] using used
      · rfl
    · have clean : s.createViols c.id.ctx i r x = [] := by
        rw [State.createViols_free (unused ok) sound, aligned, reaches]
        rfl
      refine ⟨_, (exec_descCreate_of_runs h).trans (congrArg _ (State.descCreate_sound clean)), ?_, State.updSlot_same ..,
        fun k j ne => State.slot_updSlot_other s _ ne, rfl⟩
      exact State.Unended.finish (h.unended.sameCmds rfl) _
  case destroy =>
    obtain rfl := h.id_eq
    intro n i gen valid
    have row := exec_descDestroy_of_runs h
    rw [State.descDestroy_of_valid gen valid] at row
    have marked : (s.markDestroyed c.id.ctx n).Unended c.id := h.unended.sameCmds rfl
    cases named : s.namesHandle c.id.ctx n
    · rw [named, if_neg Bool.false_ne_true] at row
      refine ⟨_, row, nofun, fun _ => ⟨?_, State.Unended.finish (marked.sameCmds rfl) _, rfl⟩, fun k j ne => ?_⟩
      · exact (State.updSlot_same ..).trans (by rw [State.markDestroyed, State.updSlot_same])
      · exact (State.slot_updSlot_other _ _ ne).trans (State.slot_updSlot_other s _ ne)
    · rw [named, if_pos rfl] at row
      have slot : (s.markDestroyed c.id.ctx n).slot c.id.ctx i = _ := State.updSlot_same ..
      exact ⟨_, row, fun _ => ⟨by rw [slot], by rw [slot], rfl, rfl⟩, nofun, fun k j ne => State.slot_updSlot_other s _ ne⟩
  case named =>
    exact ⟨fun h => by
        obtain rfl := h.id_eq
        exact (exec_allocSet_of_runs h).trans (congrArg _ (State.allocChange_named named _)),
      fun h => by
        obtain rfl := h.id_eq
        exact (exec_allocClear_of_runs h).trans (congrArg _ (State.allocChange_named named _))⟩
  case unnamed =>
    refine ⟨fun h => ?set, fun h rising => ?clear⟩
    case set =>
      obtain rfl := h.id_eq
      obtain ⟨allocs, rest⟩ := State.allocChange_unnamed h.unended unnamed fun t i => t.set i (allocOfBody c.desc)
      refine ⟨_, exec_allocSet_of_runs h, ?_, fun j ne => ?_, rest⟩ <;> rw [allocs]
      · exact Tab.get?_set_same ..
      · exact Tab.get?_set_other _ _ ne
    case clear =>
      obtain rfl := h.id_eq
      obtain ⟨allocs, rest⟩ := State.allocChange_unnamed h.unended unnamed fun t i => t.erase i
      refine ⟨_, exec_allocClear_of_runs h, ?_, fun j ne => ?_, rest⟩ <;> rw [allocs]
      · exact Tab.get?_erase_same _ rising
      · exact Tab.get?_erase_other rising ne

end Sys2Proof.Machine
end

section
/-!
SUPPORT. Data moves: what their writes and counts leave alone, and how each runs and ends (R199–R213).
-/
set_option Elab.async false
namespace Sys2Proof.Machine

/-! ### What the writes of a move leave alone -/

@[simp] theorem State.putRow_cmds (s : State) (id : CmdId) (h : MoveHow) (t : Tens) (off r rn c0 : Nat) (v : RowData) :
    (s.putRow id h t off r rn c0 v).1.cmds = s.cmds := by
  unfold State.putRow State.thenWrite
  dsimp only
  repeat' split
  all_goals simp

@[simp] theorem State.layoutPut_cmds (s : State) (id : CmdId) (d : List Byte) (h : MoveHow) (part : Part) (base : Nat) (e : MoveEnt)
    (r : Nat) : (s.layoutPut id d h part base e r).1.cmds = s.cmds := by
  unfold State.layoutPut
  dsimp only
  repeat' split
  all_goals simp

@[simp] theorem State.layoutPart_cmds (s : State) (id : CmdId) (d : List Byte) (h : MoveHow) (part : Part) (es : List MoveEnt) :
    (s.layoutPart id d h part es).1.cmds = s.cmds :=
  State.writeEach_cmds (fun _ _ => State.writeEach_cmds (fun _ _ => State.layoutPut_cmds ..) _ _) _ _

@[simp] theorem State.layoutTiles_cmds (s : State) (id : CmdId) (d : List Byte) (h : MoveHow) (part : Part) (base : Nat) (e : MoveEnt)
    (r : Nat) : (s.layoutTiles id d h part base e r).1.cmds = s.cmds := by
  unfold State.layoutTiles
  dsimp only
  split
  · rfl
  split
  · rfl
  · exact State.writeEach_cmds (fun _ _ => State.writeTile_cmds ..) _ _

theorem State.layoutPasses_cmds (s : State) (d : List Byte) {f : Part → State → State × WOut}
    (hf : ∀ part t, (f part t).1.cmds = t.cmds) : (s.layoutPasses d f).1.cmds = s.cmds := by
  unfold State.layoutPasses
  dsimp only
  repeat' split
  all_goals simp [hf]

@[simp] theorem State.putSlice_cmds (s : State) (id : CmdId) (h : MoveHow) (e : MoveEnt) (j : Nat) (vs : List RowData) :
    (s.putSlice id h e j vs).1.cmds = s.cmds := by
  refine State.writeEach_cmds (fun t k => ?_) _ _
  dsimp only
  split
  · rfl
  · exact State.putRow_cmds ..

@[simp] theorem State.gatherFrom_cmds (s : State) (id : CmdId) (keep : Bool) (h : MoveHow) (e : MoveEnt) (idx : Nat → Idx)
    (fuel j : Nat) (last : Option (Nat × List RowData)) : (s.gatherFrom id keep h e idx fuel j last).1.cmds = s.cmds := by
  induction fuel generalizing s j last with
  | zero => rfl
  | succ fuel ih =>
    unfold State.gatherFrom
    extract_lets next
    have goesOn {r : State × WOut} (hr : r.1.cmds = s.cmds) (l : Option (Nat × List RowData)) (rd : Nat) :
        (next r l rd).1.cmds = s.cmds := by
      unfold next
      split
      · exact hr
      · exact (ih ..).trans hr
    clear_value next
    split
    · -- The index names a slice: the one fetched last, or one fetched now.
      split
      · split
        · exact goesOn (State.putSlice_cmds ..) ..
        · split
          · rfl
          · exact goesOn (State.putSlice_cmds ..) ..
      · split
        · rfl
        · exact goesOn (State.putSlice_cmds ..) ..
    · exact goesOn (ite_cases (P := fun r : State × WOut => r.1.cmds = s.cmds) rfl (State.putSlice_cmds ..)) ..

@[simp] theorem State.scatterTo_cmds (s : State) (id : CmdId) (h : MoveHow) (e : MoveEnt) (idx : Nat → Idx) (n : Nat) :
    (s.scatterTo id h e idx n).1.cmds = s.cmds := by
  refine State.writeEach_cmds (fun t i => ?_) _ _
  repeat' split
  all_goals simp

@[simp] theorem State.scatterAddTo_cmds (s : State) (id : CmdId) (h : MoveHow) (e : MoveEnt) (idx : Nat → Idx) (n : Nat) :
    (s.scatterAddTo id h e idx n).1.cmds = s.cmds := by
  refine State.writeEach_cmds (fun t i => ?_) _ _
  dsimp only
  split
  · rfl
  · refine State.writeEach_cmds (fun u k => ?_) _ _
    repeat' split
    all_goals simp

@[simp] theorem State.blockedRow_cmds (s : State) (id : CmdId) (d : List Byte) (h : MoveHow) (e : MoveEnt) (idx : Nat → Idx) (n : Nat) :
    (s.blockedRow id d h e idx n).1.cmds = s.cmds := by
  unfold State.blockedRow
  extract_lets b froms blocks rd zeroRest xs
  clear_value xs
  split
  · exact State.putRow_cmds ..
  all_goals rfl

@[simp] theorem State.moveEntry_cmds (s : State) (id : CmdId) (d : List Byte) (h : MoveHow) (signed : Bool) (vs : List Nat)
    (e e0 : MoveEnt) : (s.moveEntry id d h signed vs e e0).1.cmds = s.cmds := by
  unfold State.moveEntry
  dsimp only
  repeat' split
  all_goals simp

@[simp] theorem State.moveIndexed_cmds (s : State) (id : CmdId) (d : List Byte) (h : MoveHow) (signed : Bool) (vs : List Nat)
    (es : List MoveEnt) : (s.moveIndexed id d h signed vs es).1.cmds = s.cmds := by
  unfold State.moveIndexed
  refine List.foldlRecOn (motive := fun a : State × WOut × Nat => a.1.cmds = s.cmds) es _ rfl fun a ha e _ => ?_
  dsimp only
  split
  · exact ha
  · exact (State.moveEntry_cmds ..).trans ha

theorem State.moveHow_cmds {s t : State} {id : CmdId} {d : List Byte} {i o : Tens} {xs : Unit → Except AccErr (List FVal)} {h : MoveHow}
    (how : s.moveHow id d i o xs = .ok (h, t)) : t.cmds = s.cmds := by
  unfold State.moveHow at how
  dsimp only at how
  split at how
  · cases how
  · rename_i found
    cases how
    exact State.writeScale_cmds found
  · rename_i found
    split at how
    · cases how
    split at how
    · cases how
    · rename_i measured
      cases how
      exact (State.measuredScale_cmds measured).trans (State.writeScale_cmds found)

/-! ### What counting a move leaves alone (R300, R471) -/

@[simp] theorem State.chargeRange_cells (s : State) (ctx part : Nat) (write : Bool) (fuel a n : Nat) :
    (s.chargeRange ctx part write fuel a n).mem.cells = s.mem.cells :=
  congrArg Prod.fst (State.chargeRange_contents s ctx part write fuel a n)

@[simp] theorem State.moved_cells (s : State) (id : CmdId) (t : Tens) (off rd wr : Nat) :
    (s.moved id t off rd wr).mem.cells = s.mem.cells := by
  unfold State.moved
  dsimp only
  repeat' split
  all_goals simp

@[simp] theorem State.moveCount_cells (s : State) (id : CmdId) (i o : Tens) (rd wr : Nat) :
    (s.moveCount id i o rd wr).mem.cells = s.mem.cells := by simp [State.moveCount]

theorem State.Unended.moveCount {s : State} {id : CmdId} (h : s.Unended id) (i o : Tens) (rd wr : Nat) :
    (s.moveCount id i o rd wr).Unended id := (h.moved i 0 rd 0).moved o 0 0 wr

/-! ### How a move ends (R210, R216, R567) -/

/-- A command whose accesses came to `err`: it waits as it stood, fails from `t` as the access says, or goes on to `ok`. -/
def State.settle (s t ok : State) (id : CmdId) (err : Option AccErr) : State := match err with
  | some .wait => s
  | some e => t.failAcc id e
  | none => ok

theorem State.settle_of_failed (s ok : State) {t : State} {id : CmdId} {e : AccErr} (live : t.Unended id) (fails : e ≠ .wait) :
    (s.settle t ok id (some e)).EndedAs id e.ending ∧ (s.settle t ok id (some e)).mem.cells = t.mem.cells := by
  cases e with
  | wait => exact absurd rfl fails
  | _ => exact live.failAcc fails

theorem State.moveEnd_eq (s t : State) (id : CmdId) (o : Tens) (h : MoveHow) (aux : Nat) (w : WOut) :
    let u := t.flagSaturated id w.saturated
    s.moveEnd t id o h aux w = s.settle u ((u.setStored id o h.step h.dS).finish id (okAux aux)) id w.err := rfl

/-- A row that ends with `State.moveEnd` ends its command with OK and AUX, waits as it stood, or ends as the access says. -/
theorem State.Unended.ends_of_moveEnd {s : State} {id : CmdId} {ins : Instr} {i o : Tens} {h : MoveHow} {aux rd wr : Nat}
    {w : State × WOut} (live : w.1.Unended id)
    (run : exec ins s = .next (s.moveEnd (w.1.moveCount id i o rd wr) id o h aux w.2)) :
    ∃ t, exec ins s = .next t
      ∧ (w.2.err = none → t.EndedAs id (okAux aux) ∧ (o.usesHistory = false → t.mem.cells = w.1.mem.cells))
      ∧ (w.2.err = some .wait → t = s)
      ∧ (∀ e, w.2.err = some e → e ≠ .wait → t.EndedAs id e.ending ∧ t.mem.cells = w.1.mem.cells) := by
  have counted : ((w.1.moveCount id i o rd wr).flagSaturated id w.2.saturated).Unended id := (live.moveCount ..).flagSaturated _
  have cells : ((w.1.moveCount id i o rd wr).flagSaturated id w.2.saturated).mem.cells = w.1.mem.cells := by simp
  rw [State.moveEnd_eq] at run
  refine ⟨_, run, fun ok => ?_, fun waits => ?_, fun e fails ne => ?_⟩
  · rw [ok]
    refine ⟨State.Unended.finish (counted.sameCmds (State.setStored_cmds ..)) _, fun plain => ?_⟩
    rw [State.settle, State.finish_mem, State.setStored_plain _ plain, cells]
  · rw [waits, State.settle]
  · rw [fails, ← cells]
    exact State.settle_of_failed _ _ counted ne

/-! ### LAYOUT (R199–R202) -/

/-- The storage tiles of one part of a LAYOUT between N:8 tensors (R200). -/
def State.tilePart (s : State) (id : CmdId) (d : List Byte) (h : MoveHow) (part : Part) (es : List MoveEnt) : State × WOut :=
  s.writeEach (fun t (be : Nat × MoveEnt) =>
    t.writeEach (fun t r => t.layoutTiles id d h part be.1 be.2 r) (upTo be.2.dst.tileRows)) (entBases 0 es)

@[simp] theorem State.tilePart_cmds (s : State) (id : CmdId) (d : List Byte) (h : MoveHow) (part : Part) (es : List MoveEnt) :
    (s.tilePart id d h part es).1.cmds = s.cmds :=
  State.writeEach_cmds (fun _ _ => State.writeEach_cmds (fun _ _ => State.layoutTiles_cmds ..) _ _) _ _

/-- The entries of a command's move. -/
def Cmd.ents (c : Cmd) (i o : Tens) : List MoveEnt := moveEnts c.desc i o (c.records.getD 0 [])

section
variable {s r : State} {c : Cmd} {i o : Tens} {h : MoveHow}

section
variable (dense : o.sparseN = 0)
  (how : (s.moveHow c.id c.desc i o fun _ => s.layoutValues c.id c.desc ⟨s.readScale c.id i, .one, 0, 0, false⟩ (c.ents i o)) = .ok (h, r))
include dense how

theorem State.runLayout_dense_bad {e : Ending} (bad : r.layoutBad c.id c.desc h (c.ents i o) = .ok (some e)) :
    s.runLayout c i o = r.finish c.id e := by
  unfold Cmd.ents at how bad
  simp [State.runLayout, dense, how, bad]

theorem State.runLayout_dense_sound (sound : r.layoutBad c.id c.desc h (c.ents i o) = .ok none) :
    let w := r.layoutPasses c.desc fun part t => t.layoutPart c.id c.desc h part (c.ents i o)
    ∃ rd, s.runLayout c i o = s.moveEnd (w.1.moveCount c.id i o rd w.2.bytes) c.id o h 0 w.2 := by
  unfold Cmd.ents at how sound
  exact ⟨_, by simp only [State.runLayout, dense, ne_eq, not_true_eq_false, if_false, how, sound]; rfl⟩

end

theorem State.runLayout_sparse_bad {e : Ending} (sparse : o.sparseN ≠ 0)
    (bad : s.layoutSparseBad c.id c.desc (c.ents i o) = .ok (some e)) : s.runLayout c i o = s.finish c.id e := by
  unfold Cmd.ents at bad
  simp [State.runLayout, sparse, bad]

theorem State.runLayout_sparse_sound (sparse : o.sparseN ≠ 0) (sound : s.layoutSparseBad c.id c.desc (c.ents i o) = .ok none)
    (how : (s.moveHow c.id c.desc i o fun _ => s.sparseValues c.id c.desc (s.readScale c.id i) (c.ents i o)) = .ok (h, r)) :
    let w := r.layoutPasses c.desc fun part t => t.tilePart c.id c.desc h part (c.ents i o)
    ∃ rd, s.runLayout c i o = s.moveEnd (w.1.moveCount c.id i o rd w.2.bytes) c.id o h 0 w.2 := by
  unfold Cmd.ents at how sound
  exact ⟨_, by simp only [State.runLayout, ne_eq, sparse, not_false_eq_true, if_true, how, sound]; rfl⟩

end

/-! ### GATHER, SCATTER and SCATTER_ADD (R204–R210) -/

/-- An entry whose rows are rows of storage (R571). -/
def MoveEnt.rows (e : MoveEnt) : MoveEnt := { e with src := e.src.asRows, dst := e.dst.asRows }

/-- The indices of a move that fail R206: of the whole index tensor, then of each entry. -/
def badIndices (d : List Byte) (i o : Tens) (signed : Bool) (vs : List Nat) (es : List MoveEnt) : List Nat :=
  (firstBad (if mvOp d = 1 then i else o) signed vs).toList ++ es.filterMap fun e => firstBad (e.named d) signed (vs.take (e.count d))

theorem foldl_least (l : List Nat) (m : Option Nat) :
    l.foldl (fun (m : Option Nat) k => some (min k (m.getD k))) m = (m.toList ++ l).min? := by
  induction l generalizing m with
  | nil => cases m <;> rfl
  | cons a l ih =>
    rw [List.foldl_cons, ih]
    cases m with
    | none => simp
    | some b =>
      show (min a b :: l).min? = (b :: a :: l).min?
      rw [List.min?_cons', List.min?_cons', List.foldl_cons, Nat.min_comm]

theorem indexFault_eq (d : List Byte) (i o : Tens) (signed : Bool) (vs : List Nat) (es : List MoveEnt) :
    indexFault d i o signed vs es = (badIndices d i o signed vs es).min? := foldl_least _ none

section
variable {s r : State} {c : Cmd} {i o x : Tens} {h : MoveHow} {vs : List Nat}
  (hx : s.tensRun c.id.ctx (u32 c.desc 44) = some x) (hvs : s.readIndex c.id x = .ok vs)
include hx hvs

/-- The first index that names nothing stops the command (R206). -/
theorem State.runIndexed_of_bad {k : Nat} (bad : (badIndices c.desc i o x.signed vs (c.ents i o)).min? = some k) :
    s.runIndexed c i o = s.finish c.id (idxEnding x.handle k) := by
  rw [← indexFault_eq] at bad
  unfold Cmd.ents at bad
  simp only [State.runIndexed, hx, hvs, bad]

variable (good : badIndices c.desc i o x.signed vs (c.ents i o) = [])
  (how : (s.moveHow c.id c.desc i o fun _ => s.rowsValues c.id (s.readScale c.id i) ((c.ents i o).map MoveEnt.rows)) = .ok (h, r))
include good how

theorem State.runIndexed_of_badBlock {e : Ending} (bad : r.indexedBad c.id c.desc h (c.ents i o) = .ok (some e)) :
    s.runIndexed c i o = r.finish c.id e := by
  have none : indexFault c.desc i o x.signed vs (c.ents i o) = none := by rw [indexFault_eq, good]; rfl
  unfold Cmd.ents at none how bad
  unfold MoveEnt.rows at how
  simp only [State.runIndexed, hx, hvs, none, how, bad]

theorem State.runIndexed_sound (sound : r.indexedBad c.id c.desc h (c.ents i o) = .ok none) :
    let w := r.moveIndexed c.id c.desc h x.signed vs (c.ents i o)
    s.runIndexed c i o = s.moveEnd (w.1.moveCount c.id i o w.2.2 w.2.1.bytes) c.id o h
      (((c.ents i o).map fun e => foreignCount (e.named c.desc) x.signed (vs.take (e.count c.desc))).foldl (· + ·) 0) w.2.1 := by
  have none : indexFault c.desc i o x.signed vs (c.ents i o) = none := by rw [indexFault_eq, good]; rfl
  unfold Cmd.ents at none how sound
  unfold MoveEnt.rows at how
  simp only [State.runIndexed, hx, hvs, none, how, sound]
  rfl

end

/-! ### DMA_COPY (R212, R213, R216) -/

/-- Bytes that the requests of a copy read and wrote, on its queue and at the controllers. -/
def State.dmaCount (s : State) (c : Cmd) (i o : Tens) (n : Nat) : State :=
  (s.moved c.id i (u64 c.desc 40) n 0).moved c.id o (u64 c.desc 48) 0 n

/-- How a copy ends whose requests came to `w`. -/
def State.dmaEnd (s : State) (c : Cmd) (i o : Tens) (w : State × WOut) : State :=
  let t := w.1.dmaCount c i o w.2.bytes
  s.settle t (t.finish c.id Status.ok.plain) c.id w.2.err

/-- One request of a copy: its bytes stored at its place in the destination. -/
def State.dmaPut (s : State) (x : Acc) (b : Nat) (k : Nat × Nat) (bs : List Byte) : State × WOut :=
  ((s.writeBytes x (b + k.1) bs).1, ⟨false, 0, k.2, (s.writeBytes x (b + k.1) bs).2⟩)

/-- One request of a copy that reads as it goes. -/
def State.dmaMove (s : State) (xi xo : Acc) (a b : Nat) (k : Nat × Nat) : State × WOut :=
  match s.readBytes xi (a + k.1) k.2 with
  | .error e => (s, ⟨false, 0, 0, some e⟩)
  | .ok bs => s.dmaPut xo b k bs

@[simp] theorem State.dmaPut_cmds (s : State) (x : Acc) (b : Nat) (k : Nat × Nat) (bs : List Byte) :
    (s.dmaPut x b k bs).1.cmds = s.cmds := State.writeBytes_cmds ..

@[simp] theorem State.dmaMove_cmds (s : State) (xi xo : Acc) (a b : Nat) (k : Nat × Nat) : (s.dmaMove xi xo a b k).1.cmds = s.cmds := by
  unfold State.dmaMove
  split
  · rfl
  · exact State.dmaPut_cmds ..

section
variable {s : State} {c : Cmd} {i o : Tens}

theorem State.runDma_of_meets {bs : List Byte}
    (meets : Rng.meets (i.base + u64 c.desc 40, u64 c.desc 56) (o.base + u64 c.desc 48, u64 c.desc 56) = true)
    (read : s.readBytes (s.accOf c.id i) (i.base + u64 c.desc 40) (u64 c.desc 56) = .ok bs) :
    s.runDma c i o = s.dmaEnd c i o
      (s.writeEach (fun t k => t.dmaPut (s.accOf c.id o) (o.base + u64 c.desc 48) k (sliceB bs k.1 k.2))
        (dmaCuts (o.base + u64 c.desc 48) (u64 c.desc 56 / 256 + 2) 0 (u64 c.desc 56))) := by
  simp only [State.runDma, meets, if_true, read]
  rfl

theorem State.runDma_apart
    (apart : Rng.meets (i.base + u64 c.desc 40, u64 c.desc 56) (o.base + u64 c.desc 48, u64 c.desc 56) = false) :
    s.runDma c i o = s.dmaEnd c i o
      (s.writeEach (fun t k => t.dmaMove (s.accOf c.id i) (s.accOf c.id o) (i.base + u64 c.desc 40) (o.base + u64 c.desc 48) k)
        (dmaCuts (o.base + u64 c.desc 48) (u64 c.desc 56 / 256 + 2) 0 (u64 c.desc 56))) := by
  simp only [State.runDma, apart, Bool.false_eq_true, if_false]
  rfl

/-- A row that ends with `State.dmaEnd` ends its command with OK, waits as it stood, or ends as the access says. -/
theorem State.Unended.ends_of_dmaEnd {w : State × WOut} {ins : Instr} (live : w.1.Unended c.id)
    (run : exec ins s = .next (s.dmaEnd c i o w)) :
    (w.2.err = none → ∃ t, exec ins s = .next t ∧ t.EndedAs c.id Status.ok.plain ∧ t.mem.cells = w.1.mem.cells)
    ∧ (w.2.err = some .wait → exec ins s = .next s)
    ∧ (∀ e, w.2.err = some e → e ≠ .wait → ∃ t, exec ins s = .next t ∧ t.EndedAs c.id e.ending ∧ t.mem.cells = w.1.mem.cells) := by
  have counted : (w.1.dmaCount c i o w.2.bytes).Unended c.id := (live.moved ..).moved ..
  have cells : (w.1.dmaCount c i o w.2.bytes).mem.cells = w.1.mem.cells := by simp [State.dmaCount]
  rw [State.dmaEnd] at run
  refine ⟨fun ok => ⟨_, run, ?_⟩, fun waits => ?_, fun e fails ne => ⟨_, run, ?_⟩⟩
  · rw [ok]
    exact ⟨counted.finish _, cells⟩
  · rw [run, waits, State.settle]
  · rw [fails, ← cells]
    exact State.settle_of_failed _ _ counted ne

end

/-! ### The rows -/

/-- The row of a GATHER, SCATTER or SCATTER_ADD, by its OP. -/
def indexedRow (id : CmdId) (d : List Byte) : Instr :=
  if mvOp d = 1 then .gather id else if mvOp d = 2 then .scatter id else .scatterAdd id

section
variable {s : State} {c : Cmd} {i o : Tens} (found : s.cmd? c.id = some c) (live : c.ending = none)
  (hi : s.tensRun c.id.ctx (u32 c.desc 32) = some i) (ho : s.tensRun c.id.ctx (u32 c.desc 36) = some o)
include found live hi ho

theorem State.onMove_of_found (opcode : isOpcode 0x40 c.desc = true) (f : Cmd → Tens → Tens → State) :
    s.onMove c.id (mvOp c.desc) f = f c i o := by
  simp [State.onMove, State.onCmd, found, live, opcode, hi, ho]

theorem exec_layout_of_found (opcode : isOpcode 0x40 c.desc = true) (op : mvOp c.desc = 0) :
    exec (.layout c.id) s = .next (s.runLayout c i o) :=
  congrArg Host.Outcome.next (op ▸ State.onMove_of_found found live hi ho opcode _)

theorem exec_indexedRow_of_found (opcode : isOpcode 0x40 c.desc = true) (op : 1 ≤ mvOp c.desc) :
    exec (indexedRow c.id c.desc) s = .next (s.runIndexed c i o) := by
  have run := State.onMove_of_found found live hi ho opcode fun c i o => s.runIndexed c i o
  have small : mvOp c.desc < 4 := Nat.mod_lt _ (by decide)
  unfold indexedRow
  obtain is | is | is : mvOp c.desc = 1 ∨ mvOp c.desc = 2 ∨ mvOp c.desc = 3 := by omega
  all_goals
    rw [is] at run ⊢
    exact congrArg Host.Outcome.next run

theorem exec_dmaCopy_of_found (opcode : isOpcode 0x41 c.desc = true) : exec (.dmaCopy c.id) s = .next (s.runDma c i o) := by
  show execDmaCopy c.id s = _
  simp [execDmaCopy, State.onCmd, found, live, opcode, hi, ho]

end

/-! ### The obligation -/

/-- Settles O59: each row reads, then stores by writes that leave the commands in flight alone, and ends with `State.moveEnd` or
`State.dmaEnd`. -/
theorem movesStoreWhatTheyRead : Obligations.MovesStoreWhatTheyRead := by
  intro s id c found live ctx d ends
  obtain rfl : c.id = id := State.Runs.id_eq ⟨found, live, rfl⟩
  have alive : s.Unended c.id := ⟨c, found, live⟩
  refine ⟨fun opcode i o hi ho => ?_, fun opcode i o hi ho => ?_⟩
  · intro es sS passes
    refine ⟨fun op dense h r how => ?dense, fun op sparse => ?sparse, fun op x vs hx hvs => ?indexed⟩
    case dense =>
      have run := exec_layout_of_found found live hi ho opcode op
      have ready : r.Unended c.id := alive.sameCmds (State.moveHow_cmds how)
      refine ⟨fun e bad => run.trans (congrArg _ (State.runLayout_dense_bad dense how bad)), fun sound => ?_⟩
      obtain ⟨rd, stores⟩ := State.runLayout_dense_sound dense how sound
      have written := State.layoutPasses_cmds r d (f := fun part t => t.layoutPart c.id d h part es) fun _ _ => State.layoutPart_cmds ..
      exact State.Unended.ends_of_moveEnd (ready.sameCmds written) (run.trans (congrArg _ stores))
    case sparse =>
      have run := exec_layout_of_found found live hi ho opcode op
      refine ⟨fun e bad => run.trans (congrArg _ (State.runLayout_sparse_bad sparse bad)), fun sound h r how => ?_⟩
      have ready : r.Unended c.id := alive.sameCmds (State.moveHow_cmds how)
      obtain ⟨rd, stores⟩ := State.runLayout_sparse_sound sparse sound how
      have written := State.layoutPasses_cmds r d (f := fun part t => t.tilePart c.id d h part es) fun _ _ => State.tilePart_cmds ..
      exact State.Unended.ends_of_moveEnd (ready.sameCmds written) (run.trans (congrArg _ stores))
    case indexed =>
      have run := exec_indexedRow_of_found found live hi ho opcode op
      intro i' bads
      refine ⟨fun k mem least => ?_, fun good h r how => ⟨fun e bad => ?_, fun sound => ?_⟩⟩
      · exact run.trans (congrArg _ (State.runIndexed_of_bad hx hvs (List.min?_eq_some_iff.mpr ⟨mem, least⟩)))
      · exact run.trans (congrArg _ (State.runIndexed_of_badBlock hx hvs good how bad))
      · have ready : r.Unended c.id := alive.sameCmds (State.moveHow_cmds how)
        let w := r.moveIndexed c.id d h x.signed vs es
        exact State.Unended.ends_of_moveEnd (w := (w.1, w.2.1)) (ready.sameCmds (State.moveIndexed_cmds ..))
          (run.trans (congrArg _ (State.runIndexed_sound hx hvs good how sound)))
  · intro a b n put cuts done
    have run := exec_dmaCopy_of_found found live hi ho opcode
    refine ⟨fun meets bs read => ?_, fun apart => ?_⟩
    · exact State.Unended.ends_of_dmaEnd (alive.sameCmds (State.writeEach_cmds (fun _ _ => State.dmaPut_cmds ..) _ _))
        (run.trans (congrArg _ (State.runDma_of_meets meets read)))
    · exact State.Unended.ends_of_dmaEnd (alive.sameCmds (State.writeEach_cmds (fun _ _ => State.dmaMove_cmds ..) _ _))
        (run.trans (congrArg _ (State.runDma_apart apart)))

end Sys2Proof.Machine
end

section
/-!
SUPPORT. Counters: what an evaluation marks, what an addition changes and leaves alone, and the rows of ADD, READ and
COUNTER_UPDATE (R219, R220, R226, R229, R234).
-/
set_option Elab.async false
namespace Sys2Proof.Machine

/-! ### Targets and watches (R220) -/

theorem Tab.get?_mapVals {α : Type} (t : Tab α) (f : Nat → α → α) (i : Nat) : (t.mapVals f).get? i = (t.get? i).map (f i) := by
  induction t with
  | nil => rfl
  | cons e t ih =>
    obtain ⟨k, v⟩ := e
    rw [show Tab.mapVals ((k, v) :: t) f = (k, f k v) :: Tab.mapVals t f from rfl]
    simp only [Tab.get?]
    split
    · rename_i same
      rw [same]
      rfl
    · split
      · rfl
      · exact ih

theorem reachedTarget_eq {v t : Nat} (hv : v < 2 ^ 32) (ht : t < 2 ^ 32) :
    reachedTarget v t = decide (((v : Int) - (t : Int)) % 2 ^ 32 < 2 ^ 31) := by
  unfold reachedTarget
  rw [decide_eq_decide]
  omega

theorem evalWatches_get? {d : Die} {i : Nat} {w : Watch} {k : Counter} (watch : d.watches.get? i = some w)
    (counter : d.counters.get? w.phys = some k) :
    (evalWatches d).watches.get? i = some { w with reached := w.reached || reachedTarget k.value w.target } := by
  unfold evalWatches
  rw [Tab.get?_mapVals, watch, Option.map_some, counter]
  cases reached : reachedTarget k.value w.target <;> simp [reached]

/-- Settles O26: an evaluation marks each watch by its own counter, whose comparison is the one of R220. -/
theorem counterReachesTarget : Obligations.CounterReachesTarget :=
  ⟨fun _ _ hv ht => reachedTarget_eq hv ht, fun _ _ _ _ watch counter => evalWatches_get? watch counter⟩

/-! ### Additions (R219) -/

/-- Counting an event changes no more than registers. -/
theorem State.pmc_sameButRegs (s : State) (die kind inst ev : Nat) (ctx : Option Nat) (n : Nat) :
    s.SameButRegs (s.pmc die kind inst ev ctx n) :=
  State.pmc_induct (fun _ _ _ h => h.bump _ n) (.refl s) kind inst ev ctx

/-- An update of a die by what it makes of the die as it stands. -/
theorem State.updDie_congr {s : State} {die : Nat} {f g : Die → Die} (h : f (s.die die) = g (s.die die)) :
    s.updDie die f = s.updDie die g := by
  unfold State.updDie Tab.upd
  exact congrArg (fun x => { s with dies := s.dies.set die x }) h

/-- A counter of a die as an addition leaves it. -/
def Die.add (d : Die) (p n : Nat) (k : Counter) : Die :=
  { d with counters := d.counters.set p { k with value := (k.value + n) % 2 ^ 32 } }

theorem State.addRaw_mapped {s : State} {die p : Nat} {k : Counter} (mapped : (s.die die).counters.get? p = some k) (n : Nat) :
    (s.updDie die fun d => d.add p n k).SameButRegs (s.addRaw die p n) := by
  unfold State.addRaw
  refine Eq.subst (motive := fun t => State.SameButRegs t _) (State.updDie_congr ?_) (State.pmc_sameButRegs ..)
  simp only [mapped]
  rfl

/-- An addition changes its own counter, of all counters, and of the state besides only the watches of its die and registers. -/
theorem State.addCounter_mapped {s : State} {die p : Nat} {k : Counter} (mapped : (s.die die).counters.get? p = some k) (n : Nat) :
    ((s.addCounter die p n).die die).counters.get? p = some { k with value := (k.value + n) % 2 ^ 32 }
      ∧ (∀ d q, (d ≠ die ∨ q ≠ p) → ((s.addCounter die p n).die d).counters.get? q = (s.die d).counters.get? q)
      ∧ { s.addCounter die p n with dies := s.dies, regs := s.regs } = s := by
  obtain ⟨regs, added⟩ := State.addRaw_mapped mapped n
  have home : (s.addRaw die p n).die die = (s.die die).add p n k := by
    rw [added]
    exact State.updDie_same s die fun d => d.add p n k
  have other {d : Nat} (ne : d ≠ die) : (s.addRaw die p n).die d = s.die d := by
    rw [added]
    exact State.updDie_other s (fun d => d.add p n k) ne
  refine ⟨?_, fun d q apart => ?_, ?_⟩
  · rw [State.addCounter, State.updDie_same, home]
    exact Tab.get?_set_same ..
  · rw [State.addCounter]
    by_cases same : d = die
    · subst same
      rw [State.updDie_same, home]
      exact Tab.get?_set_other _ _ (apart.resolve_left (not_not_intro rfl))
    · rw [State.updDie_other _ _ same, other same]
  · rw [State.addCounter, added]
    rfl

/-! ### The rows -/

section
variable {s : State} {c : Cmd}

theorem State.onSync_of_runs {op : Nat} (h : s.Runs c.id 0x50 c) (hop : syOp c.desc = op) (f : Cmd → State) :
    s.onSync c.id op f = f c := by
  obtain ⟨found, live, opcode⟩ := h
  simp [State.onSync, State.onCmd, isOpcode, found, live, opcode, hop]

/-- ADD and READ of a stale reference end with DESC_FORMAT, and are counted (R226). -/
theorem exec_syncAddRead_stale {op : Nat} (hop : op = 0 ∨ op = 4) (h : s.Runs c.id 0x50 c) (is : syOp c.desc = op)
    (stale : s.counterOf c.id.ctx (syRef c.desc) = none) :
    exec (if op = 0 then .syncAdd c.id else .syncRead c.id) s
      = .next ((s.staleDrop c.id.ctx).finish c.id (refusal .descFormat (syRef c.desc) 36)) := by
  rcases hop with rfl | rfl
  all_goals
    refine congrArg Host.Outcome.next ((State.onSync_of_runs h is _).trans ?_)
    rw [stale]
    rfl

theorem exec_syncAdd_current {die p : Nat} (h : s.Runs c.id 0x50 c) (is : syOp c.desc = 0)
    (current : s.counterOf c.id.ctx (syRef c.desc) = some (die, p)) :
    exec (.syncAdd c.id) s = .next ((s.addCounter die p (u32 c.desc 40)).finish c.id Status.ok.plain) := by
  refine congrArg Host.Outcome.next ((State.onSync_of_runs h is _).trans ?_)
  rw [current]

theorem exec_syncRead_current {die p : Nat} {k : Counter} (h : s.Runs c.id 0x50 c) (is : syOp c.desc = 4)
    (current : s.counterOf c.id.ctx (syRef c.desc) = some (die, p)) (mapped : (s.die die).counters.get? p = some k) :
    exec (.syncRead c.id) s = .next (s.syncRead c k.value) := by
  refine congrArg Host.Outcome.next ((State.onSync_of_runs h is _).trans ?_)
  rw [current]
  dsimp only
  rw [mapped]
  rfl

/-- A READ whose write meets no error ends with OK over what it wrote. -/
theorem State.syncRead_written {x : Acc} {v : Nat} (reached : s.allocJudge c.id.ctx (u64 c.desc 56) 8 false true = .ok x)
    (sound : (s.writeBytes { x with id := some c.id } (u64 c.desc 56) (leBytes 4 v ++ leBytes 4 (syRef c.desc))).2 = none) :
    s.syncRead c v = (s.writeBytes { x with id := some c.id } (u64 c.desc 56)
      (leBytes 4 v ++ leBytes 4 (syRef c.desc))).1.finish c.id Status.ok.plain := by
  simp only [State.syncRead, reached, sound]

end

/-- The one message in flight, at its counter's home: the addition, with no message left. -/
theorem exec_counterUpdate_single {s : State} {die p : Nat} {m : SyncMsg} (single : s.msgs = [m])
    (current : s.counterOf m.ctx m.ref = some (die, p)) :
    exec (.counterUpdate die [0]) s = .next (({ s with msgs := [] } : State).addCounter die p m.add) := by
  have home : s.msgHome die m = true := by simp [State.msgHome, current]
  have kept : ({ s with msgs := [] } : State).counterOf m.ctx m.ref = some (die, p) := current
  show execCounterUpdate die [0] s = _
  simp [execCounterUpdate, single, home, upTo, State.applyMsg, kept, State.addCounter]

/-- Settles O27: each row is an addition, a write or a drop, by whether its reference is current. -/
theorem countersChangeByAddition : Obligations.CountersChangeByAddition := by
  refine fun s id c inv _ => ⟨fun op hop h is stale => ?stale, fun die p k h is current mapped => ?add,
    fun die p k x h is current mapped reached => ?read, fun die m p k single current mapped => ?update⟩
  case stale =>
    obtain rfl := h.id_eq
    exact ⟨exec_syncAddRead_stale hop h is stale, State.rd_bump_same _ _ inv.regs⟩
  case add =>
    obtain rfl := h.id_eq
    obtain ⟨added, others, rest⟩ := State.addCounter_mapped mapped (u32 c.desc 40)
    have cmds := congrArg State.cmds rest
    exact ⟨_, exec_syncAdd_current h is current, State.Unended.finish (h.unended.sameCmds cmds) _, added, others,
      congrArg (fun t : State => { t with cmds := s.cmds }) rest⟩
  case read =>
    obtain rfl := h.id_eq
    intro w sound
    rw [exec_syncRead_current h is current mapped, State.syncRead_written reached sound]
  case update =>
    obtain ⟨added, others, rest⟩ := State.addCounter_mapped (s := { s with msgs := [] }) mapped m.add
    have msgs := congrArg State.msgs rest
    exact ⟨_, exec_counterUpdate_single single current, msgs, added, others,
      congrArg (fun t : State => { t with msgs := s.msgs }) rest⟩

end Sys2Proof.Machine
end

section
/-!
SUPPORT. Barriers: how one arrival is judged, how a full round closes, and the closing of the barriers of every die (R235–R238).
-/
set_option Elab.async false
namespace Sys2Proof.Machine

/-! ### One arrival (R235, R236) -/

/-- The state once an arrival has made a barrier `x`, and its command has ended. -/
def State.arrived (s : State) (id : CmdId) (die p : Nat) (x : Barrier) : State :=
  ((s.updDie die fun d => { d with barriers := d.barriers.set p x }).pmc die 6 0 3 (some id.ctx) 1).finish id Status.ok.plain

theorem State.arriveOne_current {s : State} {c : Cmd} {die p : Nat} {b : Barrier} (h : s.Runs c.id 0x50 c) (is : syOp c.desc = 1)
    (current : s.barrierOf c.id.ctx (syRef c.desc) = some (die, p)) (found : (s.die die).barriers.get? p = some b) :
    s.arriveOne s c.id =
      if u32 c.desc 40 = b.round then s.arrived c.id die p { b with arrK := b.arrK + 1 }
      else if u32 c.desc 40 = (b.round + 1) % 2 ^ 32 then s.arrived c.id die p { b with arrK1 := b.arrK1 + 1 }
      else s.finish c.id ⟨0x0502, 0, detail4 (syRef c.desc) (u32 c.desc 40) 0 0⟩ := by
  unfold State.arriveOne
  rw [State.onSync_of_runs h is]
  dsimp only
  rw [current]
  dsimp only
  rw [found]
  refine if_congr Iff.rfl ?_ (if_congr Iff.rfl ?_ rfl)
  all_goals
    refine congrArg (fun t : State => (t.pmc die 6 0 3 (some c.id.ctx) 1).finish c.id Status.ok.plain) (State.updDie_congr ?_)
    simp only [found]

/-! ### Closing a round (R237, R238) -/

/-- A barrier whose current round has closed. -/
def Barrier.nextRound (b : Barrier) : Barrier := { b with round := (b.round + 1) % 2 ^ 32, arrK := b.arrK1, arrK1 := 0 }

/-- The state once the current round of a barrier has closed: its surplus counted, and its release sent. -/
def State.roundClosed (s : State) (die p : Nat) (b : Barrier) : State :=
  ((s.updDie die fun d => { d with barriers := d.barriers.set p b.nextRound }).bump (regDie .barrierExcess die)
    (b.arrK - b.participants)).sendMsg ⟨b.ctx, b.release, 1⟩

theorem State.roundClosed_same (s : State) (die p : Nat) (b : Barrier) :
    ((s.roundClosed die p b).die die).barriers = (s.die die).barriers.set p b.nextRound :=
  congrArg Die.barriers (State.updDie_same s die fun d => { d with barriers := d.barriers.set p b.nextRound })

theorem State.roundClosed_other (s : State) {die d : Nat} (ne : d ≠ die) (p : Nat) (b : Barrier) :
    (s.roundClosed die p b).die d = s.die d :=
  State.updDie_other s (fun d => { d with barriers := d.barriers.set p b.nextRound }) ne

section
variable {s : State} {die p : Nat} {b : Barrier}

theorem State.closeRounds_short (found : (s.die die).barriers.get? p = some b) (short : b.arrK < b.participants) (fuel : Nat) :
    s.closeRounds die p fuel = s := by
  cases fuel with
  | zero => rfl
  | succ fuel => simp only [State.closeRounds, found, short, if_true]

theorem State.closeRounds_full (found : (s.die die).barriers.get? p = some b) (full : b.participants ≤ b.arrK)
    (short : b.arrK1 < b.participants) (fuel : Nat) : s.closeRounds die p (fuel + 1) = s.roundClosed die p b := by
  have next : ((s.roundClosed die p b).die die).barriers.get? p = some b.nextRound := by
    rw [State.roundClosed_same]
    exact Tab.get?_set_same ..
  rw [State.closeRounds, found]
  dsimp only
  rw [if_neg (Nat.not_lt.mpr full)]
  exact State.closeRounds_short next short fuel

end

/-! ### The barriers of every die -/

/-- The rounds of a die's barriers, each closed as far as its arrivals go. -/
def State.closeDie (s : State) (die : Nat) : State := (s.die die).barriers.keys.foldl (fun t p => t.closeRounds die p 2) s

theorem exec_arrive_none (s : State) : exec (.arrive []) s = .next ((upTo 8).foldl State.closeDie s) := rfl

theorem exec_arrive_one {s u : State} {id : CmdId} (judged : s.arriveOne s id = u) : exec (.arrive [id]) s = exec (.arrive []) u := by
  rw [← judged]
  rfl

theorem State.closeDie_none {s : State} {die : Nat} (bare : (s.die die).barriers = []) : s.closeDie die = s := by
  rw [State.closeDie, bare]
  rfl

theorem State.closeDie_single {s : State} {die p : Nat} {b : Barrier} (single : (s.die die).barriers = [(p, b)]) :
    s.closeDie die = s.closeRounds die p 2 := by
  rw [State.closeDie, single]
  rfl

theorem State.closeDies_none {s : State} {dies : List Nat} (bare : ∀ d ∈ dies, (s.die d).barriers = []) :
    dies.foldl State.closeDie s = s := by
  induction dies with
  | nil => rfl
  | cons d dies ih =>
    rw [List.foldl_cons, State.closeDie_none (bare d List.mem_cons_self)]
    exact ih fun e he => bare e (List.mem_cons_of_mem _ he)

/-- Where one die alone has barriers, before and after its own are closed, only its own are closed. -/
theorem exec_arrive_alone {s : State} {die : Nat} (hd : die < 8) (before : ∀ d, d ≠ die → (s.die d).barriers = [])
    (after : ∀ d, d ≠ die → ((s.closeDie die).die d).barriers = []) : exec (.arrive []) s = .next (s.closeDie die) := by
  obtain ⟨l, r, parts⟩ := List.append_of_mem (List.mem_range.mpr hd)
  have once : (l ++ die :: r).Nodup := parts ▸ List.nodup_range
  have absent : die ∉ l ++ r := (List.nodup_cons.mp (List.nodup_middle.mp once)).1
  have other {d : Nat} (mem : d ∈ l ++ r) : d ≠ die := fun same => absent (same ▸ mem)
  rw [exec_arrive_none, upTo, parts, List.foldl_append, List.foldl_cons,
    State.closeDies_none fun d mem => before d (other (List.mem_append_left _ mem)),
    State.closeDies_none fun d mem => after d (other (List.mem_append_right _ mem))]

/-- Settles O29: an arrival is judged by the current round, and the lone barrier's round closes where its arrivals are full. -/
theorem barriersCountAndClose : Obligations.BarriersCountAndClose := by
  refine ⟨fun s id c die p b h is current found _ => ?arrival, fun s die p b inv hd single bare _ short => ?closing⟩
  case arrival =>
    obtain rfl := h.id_eq
    have judged := exec_arrive_one (State.arriveOne_current h is current found)
    intro r counted
    refine ⟨fun now => ?_, fun next ne => ?_, fun ne ne' => ?_⟩
    · rw [judged, if_pos now]
      rfl
    · rw [judged, if_neg ne, if_pos next]
      rfl
    · rw [judged, if_neg ne, if_neg ne']
  case closing =>
    have found : (s.die die).barriers.get? p = some b := by simp [single, Tab.get?]
    have closes := State.closeDie_single single
    by_cases full : b.participants ≤ b.arrK
    · rw [State.closeRounds_full found full short] at closes
      have run := exec_arrive_alone hd bare fun d ne => by rw [closes, State.roundClosed_other s ne, bare d ne]
      rw [closes] at run
      refine ⟨_, run, fun few => absurd full (Nat.not_le.mpr few), fun _ => ⟨?_, rfl, ?_⟩⟩
      · simp [State.roundClosed_same, single, Tab.set, Barrier.nextRound]
      · exact State.rd_bump_same _ _ inv.regs
    · rw [State.closeRounds_short found (Nat.not_le.mp full)] at closes
      have run := exec_arrive_alone hd bare fun d ne => by rw [closes, bare d ne]
      rw [closes] at run
      exact ⟨_, run, fun _ => rfl, fun enough => absurd enough full⟩

end Sys2Proof.Machine
end

section
/-!
SUPPORT. SYNC_MAP: the mapping of an identifier, and its unmapping in the one row that marks it and, where nothing of the old
generation is left, completes (R223–R226).
-/
set_option Elab.async false
namespace Sys2Proof.Machine

theorem State.smMap_setMap (s : State) (d : List Byte) (m : VMap) : (s.setMap d m).smMap d = m := by
  unfold State.smMap State.setMap
  dsimp only
  rw [State.updCtx_same]
  cases smBarrier d
  · exact Tab.getD_set_same ..
  · exact Tab.getD_set_same ..

/-! ### Mapping (R224) -/

theorem State.mapViols_format {s : State} {d : List Byte} {v : Viol} (h : v ∈ s.mapViols d) : v.status = .descFormat := by
  simp only [State.mapViols, List.mem_append] at h
  rcases h with (((h | h) | h) | h) | h
  all_goals
    rw [mem_violIf h]
    rfl

/-- The identifier of a SYNC_MAP mapped under generation `g`, and its counter or barrier set. -/
def State.placed (s : State) (d : List Byte) (g : Nat) : State :=
  (s.setMap d ⟨g, true, false, smDie d, smPhys d⟩).updDie (smDie d) fun x =>
    if smBarrier d then
      { x with barriers := x.barriers.set (smPhys d) ⟨smTarget d, smVid d, g, u32 d 44, 0, 0, smParticipants d, u32 d 52⟩ }
    else { x with counters := x.counters.set (smPhys d) ⟨u32 d 44, smTarget d, smVid d⟩ }

/-- The reference of the identifier that a SYNC_MAP names, under generation `g` (Table 9-1). -/
def smReference (d : List Byte) (g : Nat) : Nat :=
  if smBarrier d then smVid d + g * 2 ^ 8 else smVid d + g * 2 ^ 12 + 2 ^ 20

section
variable {s : State} {d : List Byte} {g : Nat}

theorem State.placed_smMap : (s.placed d g).smMap d = ⟨g, true, false, smDie d, smPhys d⟩ := State.smMap_setMap s d _

theorem State.placed_counter (counter : smBarrier d = false) :
    ((s.placed d g).die (smDie d)).counters.get? (smPhys d) = some ⟨u32 d 44, smTarget d, smVid d⟩ := by
  rw [State.placed, State.updDie_same, counter]
  exact Tab.get?_set_same ..

theorem State.placed_barrier (barrier : smBarrier d = true) :
    ((s.placed d g).die (smDie d)).barriers.get? (smPhys d)
      = some ⟨smTarget d, smVid d, g, u32 d 44, 0, 0, smParticipants d, u32 d 52⟩ := by
  rw [State.placed, State.updDie_same, barrier]
  exact Tab.get?_set_same ..

end

section
variable {s : State} {c : Cmd}

theorem State.syncMap_refused (breach : s.mapViols c.desc ≠ []) :
    ∃ e, s.syncMap c = s.finish c.id e ∧ e.status = 0x0101 := by
  obtain ⟨u, mem⟩ := List.exists_mem_of_ne_nil _ breach
  obtain ⟨v, found, status⟩ := worst_status mem fun w hw =>
    .inr ((State.mapViols_format hw).trans (State.mapViols_format mem).symm)
  refine ⟨v.ending, by simp only [State.syncMap, found], ?_⟩
  rw [Viol.ending, status, State.mapViols_format mem]
  rfl

theorem State.syncMap_sound (sound : s.mapViols c.desc = []) :
    let g := ((s.smMap c.desc).gen + 1) % 256
    s.syncMap c = (s.placed c.desc g).finish c.id ⟨0, 0, detail4 (smReference c.desc g) 0 0 0⟩ := by
  simp only [State.syncMap, worst_eq_none.mpr sound]
  rfl

theorem exec_syncMap_of_runs (h : s.Runs c.id 0x51 c) (maps : smUnmap c.desc = false) :
    exec (.syncMap c.id) s = .next (s.syncMap c) := by
  obtain ⟨found, live, opcode⟩ := h
  show execSyncMap c.id s = _
  simp [execSyncMap, State.onCmd, isOpcode, found, live, opcode, maps]

end

/-! ### Unmapping (R225) -/

/-- The row of SYNC_UNMAP once. -/
def State.unmapOnce (s : State) (id : CmdId) : State :=
  s.onCmd id (fun d => isOpcode 0x0051 d && smUnmap d) fun c => s.syncUnmap c

theorem exec_syncUnmap_eq (s : State) (id : CmdId) : exec (.syncUnmap id) s = .next ((s.unmapOnce id).unmapOnce id) := rfl

theorem State.unmapOnce_of_ended {s : State} {id : CmdId} {e : Ending} (h : s.EndedAs id e) : s.unmapOnce id = s := by
  obtain ⟨c, found, ended⟩ := h
  simp [State.unmapOnce, State.onCmd, found, ended]

/-- A command whose row has begun its work and waits. -/
def Cmd.begin (c : Cmd) : Cmd := { c with begun := true }

/-- The identifier of a SYNC_MAP marked as being unmapped, and its command as waiting. -/
def State.unmapMarked (s : State) (c : Cmd) : State :=
  (s.setMap c.desc { s.smMap c.desc with mapped := false, unmapping := true }).updCmd c.id Cmd.begin

/-- The unmapping of a counter at its end: the identifier free, and the counter no longer held. -/
def State.counterFreed (s : State) (d : List Byte) : State :=
  (s.setMap d { s.smMap d with unmapping := false }).updDie (s.smMap d).die fun x =>
    { x with counters := x.counters.erase (s.smMap d).phys }

section
variable {s : State} {c : Cmd}

theorem State.unmapOnce_of_runs (h : s.Runs c.id 0x51 c) (unmaps : smUnmap c.desc = true) : s.unmapOnce c.id = s.syncUnmap c := by
  obtain ⟨found, live, opcode⟩ := h
  simp [State.unmapOnce, State.onCmd, isOpcode, found, live, opcode, unmaps]

theorem State.syncUnmap_refused (fresh : c.begun = false) (absent : (s.smMap c.desc).mapped = false) :
    s.syncUnmap c = s.finish c.id (formatViol 36).ending := by
  simp [State.syncUnmap, fresh, absent]

theorem State.syncUnmap_marks (fresh : c.begun = false) (mapped : (s.smMap c.desc).mapped = true)
    (unused : s.isRelease (smTarget c.desc) (smVid c.desc) = false) : s.syncUnmap c = s.unmapMarked c := by
  simp only [State.syncUnmap, fresh, mapped, unused, Bool.false_eq_true, Bool.not_true, and_false, or_self, if_false]
  rfl

theorem State.syncUnmap_waits (begun : c.begun = true) (waits : s.unmapWaits c.desc (s.smMap c.desc) = true) : s.syncUnmap c = s := by
  simp [State.syncUnmap, begun, waits]

theorem State.syncUnmap_ends (begun : c.begun = true) (counter : smBarrier c.desc = false)
    (free : s.unmapWaits c.desc (s.smMap c.desc) = false) :
    s.syncUnmap c = (s.counterFreed c.desc).finish c.id Status.ok.plain := by
  simp [State.syncUnmap, begun, free, counter, State.counterFreed]

theorem State.unmapMarked_smMap : (s.unmapMarked c).smMap c.desc = { s.smMap c.desc with mapped := false, unmapping := true } :=
  State.smMap_setMap s c.desc _

/-- The mark changes neither what bears the old generation nor where it is looked for. -/
theorem State.unmapMarked_waits :
    (s.unmapMarked c).unmapWaits c.desc ((s.unmapMarked c).smMap c.desc) = s.unmapWaits c.desc (s.smMap c.desc) := by
  have bearing : (s.unmapMarked c).cmds.any (syncBears c.desc ((s.unmapMarked c).smMap c.desc))
      = s.cmds.any (syncBears c.desc (s.smMap c.desc)) := by
    rw [State.unmapMarked_smMap]
    refine List.any_map.trans (congrArg (s.cmds.any ·) (funext fun x => ?_))
    dsimp only [Function.comp]
    split
    · rfl
    · rfl
  unfold State.unmapWaits
  rw [bearing, State.unmapMarked_smMap]
  rfl

theorem State.Runs.unmapMarked (h : s.Runs c.id 0x51 c) : (s.unmapMarked c).Runs c.id 0x51 c.begin where
  found := (State.cmd?_updCmd _ c.id Cmd.begin fun _ => rfl).trans (congrArg _ h.found)
  live := h.live
  opcode := h.opcode

end

theorem State.counterFreed_smMap (s : State) (d : List Byte) : (s.counterFreed d).smMap d = { s.smMap d with unmapping := false } :=
  State.smMap_setMap s d _

theorem State.counterFreed_counter {s : State} {d : List Byte}
    (rising : (s.die (s.smMap d).die).counters.Pairwise fun a b => a.1 < b.1) :
    ((s.counterFreed d).die (s.smMap d).die).counters.get? (s.smMap d).phys = none := by
  rw [State.counterFreed, State.updDie_same]
  exact Tab.get?_erase_same _ rising

/-- Settles O30: a mapping places its identifier under the next generation, and an unmapping marks it and then, in the same row, frees
its counter where nothing waits. -/
theorem mappingAdvancesTheGeneration : Obligations.MappingAdvancesTheGeneration := by
  refine fun s id c => ⟨fun h maps breach => ?breach, fun h maps sound => ?mapping, fun h unmaps fresh absent => ?absent,
    fun h unmaps fresh mapped counter unused => ?unmapping⟩
  case breach =>
    obtain rfl := h.id_eq
    obtain ⟨e, refused, status⟩ := State.syncMap_refused breach
    exact ⟨e, (exec_syncMap_of_runs h maps).trans (congrArg _ refused), status⟩
  case mapping =>
    obtain rfl := h.id_eq
    intro g
    have ended (e : Ending) : ((s.placed c.desc g).finish c.id e).EndedAs c.id e :=
      State.Unended.finish (h.unended.sameCmds rfl) e
    refine ⟨_, (exec_syncMap_of_runs h maps).trans (congrArg _ (State.syncMap_sound sound)), State.placed_smMap,
      fun counter => ⟨State.placed_counter counter, ?_⟩, fun barrier => ⟨State.placed_barrier barrier, ?_⟩, rfl⟩
    · simpa only [smReference, counter, Bool.false_eq_true, if_false] using ended _
    · simpa only [smReference, barrier, if_true] using ended _
  case absent =>
    obtain rfl := h.id_eq
    rw [exec_syncUnmap_eq, State.unmapOnce_of_runs h unmaps, State.syncUnmap_refused fresh absent,
      State.unmapOnce_of_ended (h.unended.finish _)]
  case unmapping =>
    obtain rfl := h.id_eq
    have again := h.unmapMarked
    have marked := State.unmapMarked_smMap (s := s) (c := c)
    have run : exec (.syncUnmap c.id) s = .next ((s.unmapMarked c).syncUnmap c.begin) := by
      rw [exec_syncUnmap_eq, State.unmapOnce_of_runs h unmaps, State.syncUnmap_marks fresh mapped unused]
      exact congrArg _ (State.unmapOnce_of_runs (c := c.begin) again unmaps)
    cases waits : s.unmapWaits c.desc (s.smMap c.desc)
    · have ends := State.syncUnmap_ends (s := s.unmapMarked c) (c := c.begin) rfl counter (State.unmapMarked_waits.trans waits)
      have done := (State.counterFreed_smMap (s.unmapMarked c) c.desc).trans (congrArg (fun m => { m with unmapping := false }) marked)
      refine ⟨_, run.trans (congrArg _ ends), congrArg VMap.mapped done, (congrArg VMap.gen done :), nofun,
        fun _ rising => ⟨congrArg VMap.unmapping done, ?_, State.Unended.finish (again.unended.sameCmds rfl) _⟩⟩
      have freed := State.counterFreed_counter (s := s.unmapMarked c) (d := c.desc)
      rw [marked] at freed
      exact freed rising
    · have stays := State.syncUnmap_waits (s := s.unmapMarked c) (c := c.begin) rfl (State.unmapMarked_waits.trans waits)
      exact ⟨_, run.trans (congrArg _ stays), congrArg VMap.mapped marked, (congrArg VMap.gen marked :),
        fun _ => ⟨congrArg VMap.unmapping marked, again.found, rfl⟩, nofun⟩

end Sys2Proof.Machine
end

section
/-!
SUPPORT. Words of registers by their bits, and what a register without locked fields holds after a write (Tables 0-1 and 0-2, R15, R539).
-/
set_option Elab.async false
namespace Sys2Proof.Machine

/-! ### Bits of words (Table 0-1) -/

/-- Words without a bit in common add without a carry. -/
theorem add_eq_or_of_disjoint {a b : Nat} (h : a &&& b = 0) : a + b = a ||| b := by
  have wide : a + b < 2 ^ (a + b) := Nat.lt_two_pow_self
  have sum := congrArg BitVec.toNat (BitVec.add_eq_or_of_and_eq_zero (BitVec.ofNat (a + b) a) (BitVec.ofNat (a + b) b)
    (by rw [← BitVec.ofNat_and, h]))
  have small : a % 2 ^ (a + b) = a ∧ b % 2 ^ (a + b) = b := ⟨Nat.mod_eq_of_lt (by omega), Nat.mod_eq_of_lt (by omega)⟩
  simpa only [BitVec.toNat_add, BitVec.toNat_or, BitVec.toNat_ofNat, small, Nat.mod_eq_of_lt wide] using sum

theorem testBit_mergeBits (old mask v i : Nat) :
    (mergeBits old mask v).testBit i = if mask.testBit i then v.testBit i else old.testBit i := by
  have split : (old &&& mask) + (old ^^^ (old &&& mask)) = old := by
    rw [add_eq_or_of_disjoint]
    · refine Nat.eq_of_testBit_eq fun j => ?_
      cases hj : old.testBit j <;> simp [hj]
    · refine Nat.eq_of_testBit_eq fun j => ?_
      cases hj : old.testBit j <;> simp [hj]
  have rest : old - (old &&& mask) = old ^^^ (old &&& mask) := by omega
  rw [mergeBits, rest, add_eq_or_of_disjoint]
  · cases hm : mask.testBit i <;> simp [hm]
  · refine Nat.eq_of_testBit_eq fun j => ?_
    cases hm : mask.testBit j <;> simp [hm]

theorem testBit_bitsOf (v hi lo i : Nat) : (bitsOf v hi lo).testBit i = (decide (i < hi + 1 - lo) && v.testBit (lo + i)) := by
  simp [bitsOf, Nat.testBit_mod_two_pow, Nat.testBit_shiftRight]

/-- A field reads the same in words that agree on its bits. -/
theorem bitsOf_congr {v w hi lo : Nat} (h : ∀ i, lo ≤ i → i ≤ hi → v.testBit i = w.testBit i) : bitsOf v hi lo = bitsOf w hi lo := by
  refine Nat.eq_of_testBit_eq fun i => ?_
  rw [testBit_bitsOf, testBit_bitsOf]
  by_cases inside : i < hi + 1 - lo
  · rw [h _ (by omega) (by omega)]
  · simp [inside]

/-- Replacing a field is merging in its bits. -/
theorem putBits_eq_mergeBits (v hi lo x : Nat) :
    putBits v hi lo x = mergeBits v ((2 ^ (hi + 1 - lo) - 1) <<< lo) (x <<< lo) := by
  have field : bitsOf v hi lo * 2 ^ lo = v &&& ((2 ^ (hi + 1 - lo) - 1) <<< lo) := by
    refine Nat.eq_of_testBit_eq fun i => ?_
    rw [Nat.mul_comm, Nat.testBit_two_pow_mul, testBit_bitsOf, Nat.testBit_and, Nat.testBit_shiftLeft, Nat.testBit_two_pow_sub_one]
    by_cases low : lo ≤ i
    · simp [low, Bool.and_comm]
    · simp [low]
  have new : x % 2 ^ (hi + 1 - lo) * 2 ^ lo = x <<< lo &&& ((2 ^ (hi + 1 - lo) - 1) <<< lo) := by
    refine Nat.eq_of_testBit_eq fun i => ?_
    rw [Nat.mul_comm, Nat.testBit_two_pow_mul, Nat.testBit_mod_two_pow, Nat.testBit_and, Nat.testBit_shiftLeft, Nat.testBit_shiftLeft,
      Nat.testBit_two_pow_sub_one]
    by_cases low : lo ≤ i
    · simp [low, Bool.and_comm]
    · simp [low]
  rw [putBits, mergeBits, field, new]

theorem testBit_putBits (v hi lo x i : Nat) :
    (putBits v hi lo x).testBit i = if lo ≤ i ∧ i ≤ hi then x.testBit (i - lo) else v.testBit i := by
  rw [putBits_eq_mergeBits, testBit_mergeBits, Nat.testBit_shiftLeft, Nat.testBit_shiftLeft, Nat.testBit_two_pow_sub_one]
  by_cases inside : lo ≤ i ∧ i ≤ hi
  · simp [inside, show i - lo < hi + 1 - lo by omega]
  · rw [if_neg inside, if_neg]
    simp only [Bool.and_eq_true, decide_eq_true_eq]
    omega

/-! ### Registers written twice, and one beside another -/

theorem Tab.set_set {α : Type} (t : Tab α) (i : Nat) (x y : α) : (t.set i x).set i y = t.set i y := by
  induction t with
  | nil => simp [Tab.set]
  | cons e t ih =>
    obtain ⟨k, v⟩ := e
    simp only [Tab.set]
    split
    · simp [Tab.set]
    · split
      · simp [Tab.set]
      · rename_i ne nlt
        simp only [Tab.set, if_neg ne, if_neg nlt, ih]

theorem Tab.erase_set {α : Type} (t : Tab α) (i : Nat) (x : α) : (t.set i x).erase i = t.erase i := by
  induction t with
  | nil => simp [Tab.set, Tab.erase]
  | cons e t ih =>
    obtain ⟨k, v⟩ := e
    simp only [Tab.set]
    split
    · rename_i same
      simp [Tab.erase, same]
    · rename_i ne
      split
      · rename_i lt
        simp [Tab.erase, ne, lt]
      · rename_i nlt
        simp only [Tab.erase, if_neg ne, if_neg nlt, ih]

theorem Tab.set_below {α : Type} {t : Tab α} {i : Nat} (h : ∀ e ∈ t, i < e.1) (x : α) : t.set i x = (i, x) :: t := by
  cases t with
  | nil => rfl
  | cons e t =>
    have below := h e List.mem_cons_self
    simp only [Tab.set]
    rw [if_neg (by omega), if_pos below]

theorem Tab.erase_below {α : Type} {t : Tab α} {i : Nat} (h : ∀ e ∈ t, i < e.1) : t.erase i = t := by
  cases t with
  | nil => rfl
  | cons e t =>
    have below := h e List.mem_cons_self
    simp only [Tab.erase]
    rw [if_neg (by omega), if_pos below]

theorem Tab.set_erase {α : Type} {t : Tab α} (i : Nat) (x : α) (h : t.Pairwise fun a b => a.1 < b.1) :
    (t.erase i).set i x = t.set i x := by
  induction t with
  | nil => rfl
  | cons e t ih =>
    obtain ⟨k, v⟩ := e
    obtain ⟨above, rising⟩ := List.pairwise_cons.1 h
    simp only [Tab.erase]
    split
    · rename_i same
      subst same
      rw [Tab.set_below above]
      simp [Tab.set]
    · split
      · rfl
      · rename_i ne nlt
        simp only [Tab.set, if_neg ne, if_neg nlt, ih rising]

theorem Tab.erase_erase {α : Type} {t : Tab α} (i : Nat) (h : t.Pairwise fun a b => a.1 < b.1) : (t.erase i).erase i = t.erase i := by
  induction t with
  | nil => rfl
  | cons e t ih =>
    obtain ⟨k, v⟩ := e
    obtain ⟨above, rising⟩ := List.pairwise_cons.1 h
    simp only [Tab.erase]
    split
    · rename_i same
      subst same
      exact Tab.erase_below above
    · rename_i ne
      split
      · rename_i lt
        simp [Tab.erase, ne, lt]
      · rename_i nlt
        simp only [Tab.erase, if_neg ne, if_neg nlt, ih rising]

/-- The last of two stores in a register is what it holds. -/
theorem State.wr_wr {s : State} (r : Reg) (v w : Nat) (h : s.regsOk) : (s.wr r v).wr r w = s.wr r w := by
  have regs : (if w = r.dflt then (s.wr r v).regs.erase r.addr else (s.wr r v).regs.set r.addr w)
      = if w = r.dflt then s.regs.erase r.addr else s.regs.set r.addr w := by
    unfold State.wr
    dsimp only
    split <;> split
    · exact Tab.erase_erase _ h
    · exact Tab.erase_set _ _ _
    · exact Tab.set_erase _ _ h
    · exact Tab.set_set _ _ _ _
  exact congrArg (fun regs => { s with regs := regs }) regs

theorem State.rd_wr {s : State} {r q : Reg} (hr : r.inMap) (hq : q.inMap) (v : Nat) (h : s.regsOk) :
    (s.wr r v).rd q = if q = r then v else s.rd q := by
  split
  · rename_i same
    rw [same, State.rd_wr_same r v h]
  · rename_i ne
    exact State.rd_wr_other v h fun e => ne (Reg.addr_inj hq hr e)

theorem State.setFld_wr {s : State} (r : Reg) (v hi lo x : Nat) (h : s.regsOk) :
    (s.wr r v).setFld r hi lo x = s.wr r (putBits v hi lo x) := by
  rw [State.setFld, State.rd_wr_same r v h, State.wr_wr r _ _ h]

/-! ### Stored fields (Table 0-2) -/

def isCleared (a : Access) : Bool := a == .w1c

/-- The word of a register without locked fields after a write of `v` within `mask`. -/
def RegInfo.stored (i : RegInfo) (old mask v : Nat) : Nat :=
  mergeBits (mergeBits old (i.mask isStored &&& mask) v) (i.mask isCleared &&& mask &&& v) 0

theorem RegInfo.testBit_stored (i : RegInfo) (old mask v b : Nat) : (i.stored old mask v).testBit b =
    if (i.mask isCleared &&& mask &&& v).testBit b then false
    else if (i.mask isStored &&& mask).testBit b then v.testBit b else old.testBit b := by
  simp only [RegInfo.stored, testBit_mergeBits, Nat.zero_testBit]

theorem mergeBits_nothing (old v : Nat) : mergeBits old 0 v = old := by simp [mergeBits]

theorem State.storeAll_eq {s : State} {r : Reg} (open' : r.name.info.mask isLocked = 0) (mask v : Nat) (h : s.regsOk) :
    s.storeAll r mask v = s.wr r (r.name.info.stored (s.rd r) mask v) := by
  have plain : s.storeFields r mask v = s.wr r (mergeBits (s.rd r) (r.name.info.mask isStored &&& mask) v) := by
    simp [State.storeFields, open']
  unfold State.storeAll
  rw [plain]
  dsimp only
  split
  · rename_i none'
    rw [RegInfo.stored, show r.name.info.mask isCleared &&& mask &&& v = 0 from none', mergeBits_nothing]
  · rw [State.rd_wr_same r _ h, State.wr_wr r _ _ h]
    rfl

end Sys2Proof.Machine
end

section
/-!
SUPPORT. Rows that write one register: a write the part accepts, host stores before it, and the writes of SQ_CONFIG and CQ_CONFIG
(R243, R244, R246, R267).
-/
set_option Elab.async false
namespace Sys2Proof.Machine

/-! ### An accepted write -/

theorem State.hostStores_rest (s : State) (l : HostStores) : ∃ host, s.hostStores l = { s with mem := { s.mem with host := host } } := by
  refine List.foldlRecOn (motive := fun t : State => ∃ host, t = { s with mem := { s.mem with host := host } }) l _ ⟨s.mem.host, rfl⟩ ?_
  rintro t ⟨host, rfl⟩ e _
  exact ⟨_, rfl⟩

theorem State.hostStores_regs (s : State) (l : HostStores) : (s.hostStores l).regs = s.regs := by
  obtain ⟨host, eq⟩ := s.hostStores_rest l
  rw [eq]

theorem State.hostStores_ctxs (s : State) (l : HostStores) : (s.hostStores l).ctxs = s.ctxs := by
  obtain ⟨host, eq⟩ := s.hostStores_rest l
  rw [eq]

theorem State.hostStores_inv {s : State} (inv : s.Inv) (l : HostStores) : (s.hostStores l).Inv :=
  (State.hostStores_keeps (lp := false) (lq := false) s l (.refl ..)).inv inv

theorem State.Accepts.hostStores {s : State} {secure : Bool} {r : Reg} (h : s.Accepts secure r) (l : HostStores) :
    (s.hostStores l).Accepts secure r := by
  obtain ⟨host, eq⟩ := s.hostStores_rest l
  rw [eq]
  exact ⟨h.exists', h.answered, h.allowed, h.taken⟩

/-- An access writes no more of a value than fits its register. -/
theorem State.writeOf_mod {s : State} {secure : Bool} {r : Reg} (h : r.inMap) (v : Nat) :
    s.writeOf secure r (v % 2 ^ (8 * r.name.info.bytes)) = s.writeOf secure r v := by
  have same : s.writeAt r.addr r.name.info.bytes (v % 2 ^ (8 * r.name.info.bytes)) none = s.writeAt r.addr r.name.info.bytes v none := by
    obtain ⟨-, aligned⟩ := r.addr_aligned h
    unfold State.writeAt
    rcases r.bytes_eq with b | b
    · simp [b]
    · rw [b] at aligned
      simp [b, aligned, regAt_addr r h, Option.filter_some]
  unfold State.writeOf State.barWrite
  dsimp only
  rw [same]

/-- An accepted write reaches its register (R500, R538, R559). -/
theorem State.Accepts.writeOf_eq {s : State} {secure : Bool} {r : Reg} (h : s.Accepts secure r) (v : Nat) :
    s.writeOf secure r v = s.writeReg r (2 ^ (8 * r.name.info.bytes) - 1) (v % 2 ^ (8 * r.name.info.bytes)) none := by
  rw [← State.writeOf_mod h.exists', State.writeOf_eq h.exists' h.answered h.allowed (Nat.mod_lt _ (Nat.two_pow_pos _))]

theorem State.Accepts.writeReg_eq {s : State} {secure : Bool} {r : Reg} (h : s.Accepts secure r) {w v : Nat}
    (width : 8 * r.name.info.bytes = w) (fits : v < 2 ^ w) : s.writeOf secure r v = s.writeReg r (2 ^ w - 1) v none := by
  subst width
  exact State.writeOf_eq h.exists' h.answered h.allowed fits

theorem State.writeReg_sqConfig {s : State} {c q : Nat} (taken : s.writable (sqConfig c q) = true) (mask v : Nat) (ok : Option Bool) :
    s.writeReg (sqConfig c q) mask v ok = s.writeSqConfig (sqConfig c q) v := by
  unfold sqConfig at taken ⊢
  simp only [State.writeReg, taken, Bool.not_true, Bool.false_eq_true, if_false]

theorem State.writeReg_cqConfig {s : State} {c r : Nat} (taken : s.writable (cqConfig c r) = true) (mask v : Nat) (ok : Option Bool) :
    s.writeReg (cqConfig c r) mask v ok = s.writeCqConfig (cqConfig c r) v := by
  unfold cqConfig at taken ⊢
  simp only [State.writeReg, taken, Bool.not_true, Bool.false_eq_true, if_false]

theorem State.Accepts.write_sqConfig {s : State} {secure : Bool} {c q v : Nat} (h : s.Accepts secure (sqConfig c q)) (fits : v < 2 ^ 32) :
    s.writeOf secure (sqConfig c q) v = s.writeSqConfig (sqConfig c q) v :=
  (h.writeReg_eq rfl fits).trans (State.writeReg_sqConfig h.taken ..)

theorem State.Accepts.write_cqConfig {s : State} {secure : Bool} {c r v : Nat} (h : s.Accepts secure (cqConfig c r)) (fits : v < 2 ^ 32) :
    s.writeOf secure (cqConfig c r) v = s.writeCqConfig (cqConfig c r) v :=
  (h.writeReg_eq rfl fits).trans (State.writeReg_cqConfig h.taken ..)

/-! ### The configuration words of queues and rings (Table 10-1) -/

/-- SQ_CONFIG of a disabled queue after a write of `v`, its ENABLE apart. -/
def sqTaken (c q old v : Nat) : Nat :=
  (sqConfig c q).name.info.stored ((sqConfig c q).name.info.stored old (2 ^ 30) v) 0x3FFFFE v

/-- CQ_CONFIG of a disabled ring after a write of `v`, its ENABLE apart. -/
def cqTaken (c r old v : Nat) : Nat := (cqConfig c r).name.info.stored old 0x7FFE v

theorem sqConfig_stored (c q : Nat) : (sqConfig c q).name.info.mask isStored = 0x3FFFFF := rfl
theorem sqConfig_cleared (c q : Nat) : (sqConfig c q).name.info.mask isCleared = 0x40000000 := rfl
theorem cqConfig_stored (c r : Nat) : (cqConfig c r).name.info.mask isStored = 0x7FFF := rfl
theorem cqConfig_cleared (c r : Nat) : (cqConfig c r).name.info.mask isCleared = 0 := rfl

/-- A write of TAIL_INVALID alone leaves every other bit. -/
theorem testBit_sqConfig_tailInvalid (c q old v : Nat) {b : Nat} (ne : b ≠ 30) :
    ((sqConfig c q).name.info.stored old (2 ^ 30) v).testBit b = old.testBit b := by
  rw [RegInfo.testBit_stored, sqConfig_stored, sqConfig_cleared, show (0x3FFFFF &&& 2 ^ 30 : Nat) = 0 from rfl,
    show (0x40000000 &&& 2 ^ 30 : Nat) = 2 ^ 30 from rfl, Nat.testBit_and, Nat.testBit_two_pow_of_ne ne.symm]
  simp

theorem testBit_sqTaken (c q old v : Nat) {b : Nat} (ne : b ≠ 30) :
    (sqTaken c q old v).testBit b = if 1 ≤ b ∧ b ≤ 21 then v.testBit b else old.testBit b := by
  have field : (0x3FFFFF &&& 0x3FFFFE : Nat).testBit b = decide (1 ≤ b ∧ b ≤ 21) := by
    rw [show (0x3FFFFF &&& 0x3FFFFE : Nat) = (2 ^ 21 - 1) <<< 1 from rfl, Nat.testBit_shiftLeft, Nat.testBit_two_pow_sub_one,
      ← Bool.decide_and, decide_eq_decide]
    omega
  rw [sqTaken, RegInfo.testBit_stored, sqConfig_stored, sqConfig_cleared, show (0x40000000 &&& 0x3FFFFE : Nat) = 0 from rfl, field,
    testBit_sqConfig_tailInvalid c q old v ne]
  simp

theorem testBit_cqTaken (c r old v b : Nat) :
    (cqTaken c r old v).testBit b = if 1 ≤ b ∧ b ≤ 14 then v.testBit b else old.testBit b := by
  have field : (0x7FFF &&& 0x7FFE : Nat).testBit b = decide (1 ≤ b ∧ b ≤ 14) := by
    rw [show (0x7FFF &&& 0x7FFE : Nat) = (2 ^ 14 - 1) <<< 1 from rfl, Nat.testBit_shiftLeft, Nat.testBit_two_pow_sub_one,
      ← Bool.decide_and, decide_eq_decide]
    omega
  rw [cqTaken, RegInfo.testBit_stored, cqConfig_stored, cqConfig_cleared, field]
  simp

/-- The fields of SQ_CONFIG below TAIL_INVALID are those written. -/
theorem bitsOf_sqTaken (c q old v : Nat) {hi lo : Nat} (low : 1 ≤ lo) (high : hi ≤ 21) :
    bitsOf (sqTaken c q old v) hi lo = bitsOf v hi lo :=
  bitsOf_congr fun i _ _ => by rw [testBit_sqTaken c q old v (by omega), if_pos (by omega)]

theorem bitsOf_cqTaken (c r old v : Nat) {hi lo : Nat} (low : 1 ≤ lo) (high : hi ≤ 14) :
    bitsOf (cqTaken c r old v) hi lo = bitsOf v hi lo :=
  bitsOf_congr fun i _ _ => by rw [testBit_cqTaken, if_pos (by omega)]

section
variable {s : State} {c k v : Nat} (ok : s.regsOk)
include ok

/-- A write of a disabled queue that does not enable it (R243, R244). -/
theorem State.writeSqConfig_off (off : bitOf (s.rd (sqConfig c k)) 0 = false) (stays : ¬(bitOf v 0 = true ∧ ringSizeOk v = true)) :
    s.writeSqConfig (sqConfig c k) v = s.wr (sqConfig c k) (sqTaken c k (s.rd (sqConfig c k)) v) := by
  unfold State.writeSqConfig
  dsimp only
  rw [off, if_neg Bool.false_ne_true, if_neg stays, State.storeAll_eq rfl _ _ ok, State.storeAll_eq rfl _ _ (State.wr_regsOk _ _ ok),
    State.rd_wr_same _ _ ok, State.wr_wr _ _ _ ok]
  rfl

/-- A write that enables a queue (R243, R246). -/
theorem State.writeSqConfig_on (off : bitOf (s.rd (sqConfig c k)) 0 = false) (enable : bitOf v 0 = true) (size : ringSizeOk v = true) :
    s.writeSqConfig (sqConfig c k) v
      = (s.wr (sqConfig c k) (putBits (sqTaken c k (s.rd (sqConfig c k)) v) 0 0 1)).enableQueue c k := by
  unfold State.writeSqConfig
  dsimp only
  rw [off, if_neg Bool.false_ne_true, if_pos ⟨enable, size⟩, State.storeAll_eq rfl _ _ ok,
    State.storeAll_eq rfl _ _ (State.wr_regsOk _ _ ok), State.rd_wr_same _ _ ok, State.wr_wr _ _ _ ok, State.setFld_wr _ _ _ _ _ ok]
  rfl

/-- A write that disables a queue (R267). -/
theorem State.writeSqConfig_disables (on : bitOf (s.rd (sqConfig c k)) 0 = true) (disable : bitOf v 0 = false) :
    s.writeSqConfig (sqConfig c k) v
      = (s.wr (sqConfig c k) ((sqConfig c k).name.info.stored (s.rd (sqConfig c k)) (2 ^ 30) v)).disableQueue c k := by
  unfold State.writeSqConfig
  dsimp only
  rw [on, disable, if_pos rfl, if_neg Bool.false_ne_true, State.storeAll_eq rfl _ _ ok]
  rfl

theorem State.writeCqConfig_off (off : bitOf (s.rd (cqConfig c k)) 0 = false) (stays : ¬(bitOf v 0 = true ∧ ringSizeOk v = true)) :
    s.writeCqConfig (cqConfig c k) v = s.wr (cqConfig c k) (cqTaken c k (s.rd (cqConfig c k)) v) := by
  unfold State.writeCqConfig
  dsimp only
  rw [off, if_neg Bool.false_ne_true, if_neg stays, State.storeAll_eq rfl _ _ ok]
  rfl

end

/-! ### A ring size out of range (R244) -/

theorem ringSizeOk_eq_false {v : Nat} (h : bitsOf v 5 1 < 4 ∨ 16 < bitsOf v 5 1) : ¬(bitOf v 0 = true ∧ ringSizeOk v = true) := by
  rintro ⟨-, fits⟩
  have := of_decide_eq_true fits
  omega

theorem exec_sqEnable_of_accepts {s : State} {secure : Bool} {c q v : Nat} (h : s.Accepts secure (sqConfig c q)) (fits : v < 2 ^ 32)
    (enable : bitOf v 0 = true) (l : HostStores) :
    exec (.sqEnable secure c q v l) s = .next ((s.hostStores l).writeSqConfig (sqConfig c q) v) := by
  show Host.Outcome.next (if bitOf v 0 then _ else _) = _
  rw [if_pos enable, (h.hostStores l).write_sqConfig fits]

theorem exec_cqEnable_of_accepts {s : State} {secure : Bool} {c r v : Nat} (h : s.Accepts secure (cqConfig c r)) (fits : v < 2 ^ 32)
    (enable : bitOf v 0 = true) : exec (.cqEnable secure c r v) s = .next (s.writeCqConfig (cqConfig c r) v) := by
  show Host.Outcome.next (if bitOf v 0 then _ else _) = _
  rw [if_pos enable, h.write_cqConfig fits]

theorem exec_sqDisable_of_accepts {s : State} {secure : Bool} {c q v : Nat} (h : s.Accepts secure (sqConfig c q)) (fits : v < 2 ^ 32)
    (disable : bitOf v 0 = false) : exec (.sqDisable secure c q v) s = .next (s.writeSqConfig (sqConfig c q) v) := by
  show Host.Outcome.next (if bitOf v 0 then _ else _) = _
  rw [disable, if_neg Bool.false_ne_true, h.write_sqConfig fits]

theorem exec_cqDisable_of_accepts {s : State} {secure : Bool} {c r v : Nat} (h : s.Accepts secure (cqConfig c r)) (fits : v < 2 ^ 32)
    (disable : bitOf v 0 = false) : exec (.cqDisable secure c r v) s = .next (s.writeCqConfig (cqConfig c r) v) := by
  show Host.Outcome.next (if bitOf v 0 then _ else _) = _
  rw [disable, if_neg Bool.false_ne_true, h.write_cqConfig fits]

/-- Settles O12: the write stores the fields beside ENABLE and no more. -/
theorem ringSizeOutOfRangeIsIgnored : Obligations.RingSizeOutOfRangeIsIgnored := by
  intro s secure c k value stores inv ready fits enable range
  refine ⟨fun accepts off idle => ?_, fun accepts off idle => ?_⟩
  · have same : (s.hostStores stores).rd (sqConfig c k) = s.rd (sqConfig c k) := by rw [State.rd, State.rd, State.hostStores_regs]
    have ok := (State.hostStores_inv inv stores).regs
    have run := exec_sqEnable_of_accepts accepts fits enable stores
    rw [State.writeSqConfig_off ok (by rw [same]; exact off) (ringSizeOk_eq_false range), same] at run
    refine ⟨_, run, ?_, ?_, ?_, ?_⟩
    · rw [State.rd_wr_same _ _ ok, bitOf, testBit_sqTaken c k _ _ (by omega), if_neg (by omega)]
      exact off
    · rw [State.rd_wr_same _ _ ok, bitOf, testBit_sqTaken c k _ _ (by omega), if_neg (by omega)]
      exact idle
    · rw [State.rd_wr_same _ _ ok, bitsOf_sqTaken c k _ _ (by omega) (by omega)]
    · rw [← State.hostStores_regs s stores]
      rfl
  · have ok := inv.regs
    have run := exec_cqEnable_of_accepts accepts fits enable
    rw [State.writeCqConfig_off ok off (ringSizeOk_eq_false range)] at run
    refine ⟨_, run, ?_, ?_, ?_, rfl⟩
    · rw [State.rd_wr_same _ _ ok, bitOf, testBit_cqTaken, if_neg (by omega)]
      exact off
    · rw [State.rd_wr_same _ _ ok, bitOf, testBit_cqTaken, if_neg (by omega)]
      exact idle
    · rw [State.rd_wr_same _ _ ok, bitsOf_cqTaken c k _ _ (by omega) (by omega)]

end Sys2Proof.Machine
end

section
/-!
SUPPORT. Enabling and disabling: what a ring takes, what a queue completes, and its counters (R243, R246, R263, R267, R472).
-/
set_option Elab.async false
namespace Sys2Proof.Machine

/-! ### Queues and rings of a context -/

theorem State.cq_updCq (s : State) (c r : Nat) (f : CqSt → CqSt) (c' r' : Nat) :
    (s.updCq c r f).cq c' r' = if c' = c ∧ r' = r then f (s.cq c r) else s.cq c' r' := by
  unfold State.cq State.updCq
  rw [State.ctx_updCtx]
  by_cases hc : c' = c
  · subst hc
    rw [if_pos rfl]
    by_cases hr : r' = r
    · subst hr
      rw [if_pos ⟨rfl, rfl⟩]
      exact Tab.getD_upd_same _ _ _ _
    · rw [if_neg fun h => hr h.2]
      exact Tab.getD_upd_other _ _ _ hr
  · rw [if_neg hc, if_neg fun h => hc h.1]

theorem State.cq_updCq_same (s : State) (c r : Nat) (f : CqSt → CqSt) : (s.updCq c r f).cq c r = f (s.cq c r) := by
  rw [State.cq_updCq, if_pos ⟨rfl, rfl⟩]

theorem State.queue_updQueue_same (s : State) (c q : Nat) (f : QueueSt → QueueSt) : (s.updQueue c q f).queue c q = f (s.queue c q) := by
  rw [State.queue_updQueue, if_pos ⟨rfl, rfl⟩]

/-- A change of a queue leaves the rest of its context alone. -/
theorem State.ctx_updQueue (s : State) (c q : Nat) (f : QueueSt → QueueSt) (c' : Nat) :
    { (s.updQueue c q f).ctx c' with queues := [] } = { s.ctx c' with queues := [] } := by
  unfold State.updQueue
  rw [State.ctx_updCtx]
  split
  · rename_i same
    rw [same]
  · rfl

theorem State.cq_updQueue (s : State) (c q : Nat) (f : QueueSt → QueueSt) (c' r : Nat) : (s.updQueue c q f).cq c' r = s.cq c' r :=
  (congrArg (fun x : Ctx => x.cqs.getD r CqSt.init) (s.ctx_updQueue c q f c') :)

/-! ### The queue counters (R472) -/

def queueCounters : List RegName := [.qcBytesRead, .qcBytesWritten, .qcMac, .qcStall]

theorem State.clearQueueCounters_eq (s : State) (c q : Nat) : s.clearQueueCounters c q
    = (((s.wr ⟨.qcBytesRead, c, q⟩ 0).wr ⟨.qcBytesWritten, c, q⟩ 0).wr ⟨.qcMac, c, q⟩ 0).wr ⟨.qcStall, c, q⟩ 0 := rfl

theorem State.SameButRegs.trans {s t u : State} (h : s.SameButRegs t) (k : t.SameButRegs u) : s.SameButRegs u := by
  obtain ⟨_, rfl⟩ := h
  obtain ⟨_, rfl⟩ := k
  exact ⟨_, rfl⟩

theorem State.wr_sameButRegs (s : State) (r : Reg) (v : Nat) : s.SameButRegs (s.wr r v) := ⟨_, rfl⟩

theorem State.setFld_sameButRegs (s : State) (r : Reg) (hi lo x : Nat) : s.SameButRegs (s.setFld r hi lo x) := ⟨_, rfl⟩

theorem State.clearQueueCounters_sameButRegs (s : State) (c q : Nat) : s.SameButRegs (s.clearQueueCounters c q) := ⟨_, rfl⟩

theorem State.clearQueueCounters_ok {s : State} (ok : s.regsOk) (c q : Nat) : (s.clearQueueCounters c q).regsOk :=
  (State.clearQueueCounters_keeps (lp := false) (lq := false) s c q (.refl ..)).regs ok

theorem queueCounter_inMap {n : RegName} (h : n ∈ queueCounters) {c q : Nat} (hc : c < 64) (hq : q < 64) : Reg.inMap ⟨n, c, q⟩ := by
  simp only [queueCounters, List.mem_cons, List.not_mem_nil, or_false] at h
  rcases h with rfl | rfl | rfl | rfl <;> exact ⟨hc, hq⟩

/-- Clearing the counters of a queue sets those registers to 0 and leaves every other. -/
theorem State.rd_clearQueueCounters {s : State} (ok : s.regsOk) {c q : Nat} (hc : c < 64) (hq : q < 64) {r : Reg} (hr : r.inMap) :
    (s.clearQueueCounters c q).rd r = if r.name ∈ queueCounters ∧ r.unit = c ∧ r.idx = q then 0 else s.rd r := by
  have at' (n : RegName) (h : n ∈ queueCounters) {t : State} (k : t.regsOk) :
      (t.wr ⟨n, c, q⟩ 0).rd r = if r = ⟨n, c, q⟩ then 0 else t.rd r := State.rd_wr (queueCounter_inMap h hc hq) hr 0 k
  rw [State.clearQueueCounters_eq, at' .qcStall (by decide) (State.wr_regsOk _ _ (State.wr_regsOk _ _ (State.wr_regsOk _ _ ok))),
    at' .qcMac (by decide) (State.wr_regsOk _ _ (State.wr_regsOk _ _ ok)), at' .qcBytesWritten (by decide) (State.wr_regsOk _ _ ok),
    at' .qcBytesRead (by decide) ok]
  obtain ⟨n, u, i⟩ := r
  simp only [Reg.mk.injEq, queueCounters, List.mem_cons, List.not_mem_nil, or_false]
  by_cases place : u = c ∧ i = q
  · simp only [place, and_true]
    by_cases a : n = .qcStall <;> by_cases b : n = .qcMac <;> by_cases d : n = .qcBytesWritten <;> simp [a, b, d]
  · simp [place]

/-! ### Enabling (R243, R246, R263) -/

/-- What a queue takes from its registers and the TAIL of its doorbell line. -/
def QueueSt.taken (base w tail : Nat) : QueueSt :=
  { base, log2 := bitsOf w 5 1, deferrable := bitOf w 6, prio := bitsOf w 8 7, cq := bitsOf w 13 9, group := bitsOf w 21 14, head := tail,
    seenTail := tail, fetched := [], closing := false }

/-- A queue enabled as `x`, with `bs` stored at host address `a` (R246, R472). -/
def State.enabled (s : State) (c q a : Nat) (bs : List Byte) (x : QueueSt) : State :=
  (((s.hostWrite a bs).updQueue c q fun _ => x).setFld (sqConfig c q) 29 29 1).clearQueueCounters c q

theorem State.enableQueue_eq (s : State) (c q : Nat) : s.enableQueue c q =
    let line := s.rd (regCtx .doorbellBase c) + 64 * q
    let tail := leValue (s.hostRead line 8)
    s.enabled c q (line + 8) (leBytes 8 tail) (.taken (s.rd ⟨.sqBase, c, q⟩) (s.rd (sqConfig c q)) tail) := rfl

theorem sqConfig_inMap {c q : Nat} (hc : c < 64) (hq : q < 64) : (sqConfig c q).inMap := ⟨hc, hq⟩
theorem cqConfig_inMap {c r : Nat} (hc : c < 64) (hr : r < 32) : (cqConfig c r).inMap := ⟨hc, hr⟩

/-- The enabled queue, from the state before the write of its SQ_CONFIG. -/
theorem QueueSt.taken_sqTaken {c q old v w : Nat} (word : putBits (sqTaken c q old v) 0 0 1 = w) (base tail : Nat) :
    QueueSt.taken base w tail = .taken base v tail := by
  subst word
  have bit {b : Nat} (low : 1 ≤ b) (high : b ≤ 21) : (putBits (sqTaken c q old v) 0 0 1).testBit b = v.testBit b := by
    rw [testBit_putBits, if_neg (by omega), testBit_sqTaken c q old v (by omega), if_pos ⟨low, high⟩]
  have field {hi lo : Nat} (low : 1 ≤ lo) (high : hi ≤ 21) : bitsOf (putBits (sqTaken c q old v) 0 0 1) hi lo = bitsOf v hi lo :=
    bitsOf_congr fun i _ _ => bit (by omega) (by omega)
  unfold QueueSt.taken
  rw [field (by omega) (by omega), field (by omega) (by omega), field (by omega) (by omega), field (by omega) (by omega), bitOf, bitOf,
    bit (by omega) (by omega)]

theorem State.hostRead_hostWrite {s : State} {a n : Nat} {bs : List Byte} (ok : s.memOk) (length : bs.length = n) :
    (s.hostWrite a bs).hostRead a n = bs := by
  subst length
  exact memRead_memWrite bs ok.2

theorem State.hostRead_of_mem {s t : State} (h : t.mem = s.mem) (a n : Nat) : t.hostRead a n = s.hostRead a n := by
  rw [State.hostRead, State.hostRead, h]

@[simp] theorem State.rd_updQueue (s : State) (c q : Nat) (f : QueueSt → QueueSt) (r : Reg) : (s.updQueue c q f).rd r = s.rd r := rfl
@[simp] theorem State.rd_updCq (s : State) (c r : Nat) (f : CqSt → CqSt) (q : Reg) : (s.updCq c r f).rd q = s.rd q := rfl
@[simp] theorem State.rd_hostWrite (s : State) (a : Nat) (bs : List Byte) (r : Reg) : (s.hostWrite a bs).rd r = s.rd r := rfl

@[simp] theorem State.queue_wr (s : State) (r : Reg) (v c q : Nat) : (s.wr r v).queue c q = s.queue c q := rfl
@[simp] theorem State.cq_wr (s : State) (r : Reg) (v c k : Nat) : (s.wr r v).cq c k = s.cq c k := rfl

theorem State.queue_of_ctxs {s t : State} (h : t.ctxs = s.ctxs) (c q : Nat) : t.queue c q = s.queue c q := by
  rw [State.queue, State.queue, State.ctx, State.ctx, h]

section
variable {u : State} {c q a : Nat} {bs : List Byte} {x : QueueSt}

theorem State.enabled_sameButRegs : ((u.hostWrite a bs).updQueue c q fun _ => x).SameButRegs (u.enabled c q a bs x) :=
  (State.setFld_sameButRegs ..).trans (State.clearQueueCounters_sameButRegs ..)

theorem State.enabled_ctxs : (u.enabled c q a bs x).ctxs = (u.updQueue c q fun _ => x).ctxs := by
  obtain ⟨regs, eq⟩ := State.enabled_sameButRegs (u := u) (c := c) (q := q) (a := a) (bs := bs) (x := x)
  rw [eq]
  rfl

theorem State.enabled_mem : (u.enabled c q a bs x).mem = (u.hostWrite a bs).mem := by
  obtain ⟨regs, eq⟩ := State.enabled_sameButRegs (u := u) (c := c) (q := q) (a := a) (bs := bs) (x := x)
  rw [eq]
  rfl

theorem State.enabled_queue : (u.enabled c q a bs x).queue c q = x :=
  (State.queue_of_ctxs State.enabled_ctxs c q).trans (State.queue_updQueue_same ..)

theorem State.enabled_other {c' q' : Nat} (other : c' ≠ c ∨ q' ≠ q) : (u.enabled c q a bs x).queue c' q' = u.queue c' q' := by
  rw [State.queue_of_ctxs State.enabled_ctxs, State.queue_updQueue, if_neg (by omega)]

variable (ok : u.regsOk) (hc : c < 64) (hq : q < 64)
include ok hc hq

theorem State.rd_enabled {r : Reg} (hr : r.inMap) : (u.enabled c q a bs x).rd r =
    if r.name ∈ queueCounters ∧ r.unit = c ∧ r.idx = q then 0
    else if r = sqConfig c q then putBits (u.rd (sqConfig c q)) 29 29 1 else u.rd r := by
  have ok' : ((u.hostWrite a bs).updQueue c q fun _ => x).regsOk := ok
  rw [State.enabled, State.setFld, State.rd_clearQueueCounters (State.wr_regsOk _ _ ok') hc hq hr,
    State.rd_wr (sqConfig_inMap hc hq) hr _ ok', State.rd_updQueue, State.rd_updQueue, State.rd_hostWrite, State.rd_hostWrite]

end

theorem State.writeCqConfig_on {s : State} {c k v : Nat} (ok : s.regsOk) (off : bitOf (s.rd (cqConfig c k)) 0 = false)
    (enable : bitOf v 0 = true) (size : ringSizeOk v = true) {w : Nat}
    (word : putBits (putBits (cqTaken c k (s.rd (cqConfig c k)) v) 0 0 1) 31 31 1 = w) :
    s.writeCqConfig (cqConfig c k) v =
      (s.wr (cqConfig c k) w).updCq c k fun x =>
        { x with base := (s.wr (cqConfig c k) w).rd ⟨.cqBase, c, k⟩, log2 := bitsOf w 5 1, intAll := bitOf w 6, holdoff := bitsOf w 14 7,
                 w := 0, cqHead := 0 } := by
  subst word
  unfold State.writeCqConfig
  dsimp only
  rw [off, if_neg Bool.false_ne_true, if_pos ⟨enable, size⟩, State.storeAll_eq rfl _ _ ok, State.setFld_wr _ _ _ _ _ ok,
    State.setFld_wr _ _ _ _ _ ok, State.rd_wr_same _ _ ok]
  rfl

/-- CQ_CONFIG of an enabled ring: the fields written, with ENABLE and ENABLED set. -/
theorem testBit_cqEnabled {c k old v w : Nat} (word : putBits (putBits (cqTaken c k old v) 0 0 1) 31 31 1 = w) (b : Nat) :
    w.testBit b = if b = 0 ∨ b = 31 then true else if b ≤ 14 then v.testBit b else old.testBit b := by
  subst word
  rw [testBit_putBits, testBit_putBits, testBit_cqTaken]
  by_cases high : b = 31
  · simp [high]
  · by_cases low : b = 0
    · simp [low]
    · rw [if_neg (show ¬(31 ≤ b ∧ b ≤ 31) by omega), if_neg (show ¬(0 ≤ b ∧ b ≤ 0) by omega), if_neg (show ¬(b = 0 ∨ b = 31) by omega)]
      exact if_congr ⟨fun h => h.2, fun h => ⟨by omega, h⟩⟩ rfl rfl

theorem bitsOf_cqEnabled {c k old v w : Nat} (word : putBits (putBits (cqTaken c k old v) 0 0 1) 31 31 1 = w) {hi lo : Nat} (low : 1 ≤ lo)
    (high : hi ≤ 14) : bitsOf w hi lo = bitsOf v hi lo :=
  bitsOf_congr fun i _ _ => by rw [testBit_cqEnabled word, if_neg (by omega), if_pos (by omega)]

/-- Settles O13: the registers that the new state is taken from are apart from the SQ_CONFIG or CQ_CONFIG written. -/
theorem enablingARingTakesItsFields : Obligations.EnablingARingTakesItsFields := by
  refine ⟨fun s secure c q value stores inv ready accepts fits enable size off => ?_,
    fun s secure c k value inv ready accepts fits enable size off => ?_⟩
  · intro line tail
    obtain ⟨hc, hq⟩ : c < 64 ∧ q < 64 := accepts.exists'
    have inv0 := State.hostStores_inv inv stores
    have same (r : Reg) : (s.hostStores stores).rd r = s.rd r := by rw [State.rd, State.rd, State.hostStores_regs]
    have run := exec_sqEnable_of_accepts accepts fits enable stores
    obtain ⟨host, stored⟩ := s.hostStores_rest stores
    generalize word : putBits (sqTaken c q (s.rd (sqConfig c q)) value) 0 0 1 = w
    have ok : ((s.hostStores stores).wr (sqConfig c q) w).regsOk := State.wr_regsOk _ _ inv0.regs
    have rd {r : Reg} (hr : r.inMap) : ((s.hostStores stores).wr (sqConfig c q) w).rd r = if r = sqConfig c q then w else s.rd r := by
      rw [State.rd_wr accepts.exists' hr w inv0.regs, same]
    rw [State.writeSqConfig_on inv0.regs (by rw [same]; exact off) enable size, same, word, State.enableQueue_eq, rd ⟨hc, Nat.one_pos⟩,
      if_neg (by simp [regCtx, sqConfig]), rd ⟨hc, hq⟩, if_neg (by simp [sqConfig]), rd accepts.exists', if_pos rfl] at run
    dsimp only at run
    rw [QueueSt.taken_sqTaken word, State.hostRead_of_mem (State.wr_mem ..)] at run
    have config {a : Nat} {bs : List Byte} {x : QueueSt} :
        (((s.hostStores stores).wr (sqConfig c q) w).enabled c q a bs x).rd (sqConfig c q) = putBits w 29 29 1 := by
      rw [State.rd_enabled ok hc hq accepts.exists', if_neg (by simp [sqConfig, queueCounters]), if_pos rfl, rd accepts.exists', if_pos rfl]
    refine ⟨_, run, ?_, fun c' q' other => ?_, ?_, ?_, ?_, fun a out => ?_, fun n hn => ?_, ?_⟩
    · exact State.enabled_queue
    · rw [State.enabled_other other]
      exact State.queue_of_ctxs (s.hostStores_ctxs stores) c' q'
    · rw [config, bitOf, testBit_putBits, if_neg (by omega), ← word, testBit_putBits, if_pos (by omega)]
      rfl
    · rw [config, bitOf, testBit_putBits, if_pos (by omega)]
      rfl
    · rw [State.hostRead_of_mem State.enabled_mem]
      exact State.hostRead_hostWrite inv0.mem (leBytes_length ..)
    · rw [State.enabled_mem]
      exact memGet_memWrite_other _ inv0.mem.2 (by rw [leBytes_length]; omega)
    · rw [State.rd_enabled ok hc hq (queueCounter_inMap hn hc hq), if_pos ⟨hn, rfl, rfl⟩]
    · obtain ⟨regs, eq⟩ := State.wr_sameButRegs (s.hostStores stores) (sqConfig c q) w
      obtain ⟨regs', eq'⟩ := State.enabled_sameButRegs
      rw [eq', eq, stored]
      rfl
  · obtain ⟨hc, hk⟩ : c < 64 ∧ k < 32 := accepts.exists'
    have ok := inv.regs
    have run := exec_cqEnable_of_accepts accepts fits enable
    generalize word : putBits (putBits (cqTaken c k (s.rd (cqConfig c k)) value) 0 0 1) 31 31 1 = w
    rw [State.writeCqConfig_on ok off enable size word] at run
    have base : (s.wr (cqConfig c k) w).rd ⟨.cqBase, c, k⟩ = s.rd ⟨.cqBase, c, k⟩ := by
      rw [State.rd_wr accepts.exists' ⟨hc, hk⟩ _ ok, if_neg (by simp [cqConfig])]
    refine ⟨_, run, ?_, fun c' k' other => ?_, ?_, ?_, ?_⟩
    · rw [State.cq_updCq_same, base, bitsOf_cqEnabled word (by omega) (by omega), bitsOf_cqEnabled word (by omega) (by omega), bitOf,
        testBit_cqEnabled word, if_neg (by omega), if_pos (by omega), State.cq_wr]
      rfl
    · rw [State.cq_updCq, if_neg (by omega), State.cq_wr]
    · rw [State.rd_updCq, State.rd_wr_same _ _ ok, bitOf, testBit_cqEnabled word, if_pos (by omega)]
    · rw [State.rd_updCq, State.rd_wr_same _ _ ok, bitOf, testBit_cqEnabled word, if_pos (by omega)]
    · obtain ⟨regs, eq⟩ := s.wr_sameButRegs (cqConfig c k) w
      rw [eq]
      rfl

end Sys2Proof.Machine
end

section
/-!
SUPPORT. Disabling a queue or a ring, and the registers whose write only triggers something (R251, R267, R342, R472, R478).
-/
set_option Elab.async false
namespace Sys2Proof.Machine

/-! ### Disabling (R267) -/

/-- Fetched commands of a queue as they complete under R267. -/
def State.aborted (s : State) (c q : Nat) : List Cmd :=
  (s.queue c q).fetched.map fun f => { s.freshCmd ⟨c, q, f.seq⟩ f.desc with ending := some Status.aborted.plain }

/-- A queue whose fetched commands complete with ABORTED has none left, and nothing else of it changes. -/
theorem State.abortQueue_rest (s : State) (c q : Nat) :
    ∃ ctxs, s.abortQueue c q = { s with ctxs := ctxs, cmds := s.cmds ++ s.aborted c q } := by
  unfold State.abortQueue State.aborted
  dsimp only
  split
  · rename_i none'
    rw [List.isEmpty_iff.1 none']
    exact ⟨s.ctxs, by simp⟩
  · exact ⟨_, rfl⟩

theorem State.abortQueue_queue (s : State) (c q : Nat) : (s.abortQueue c q).queue c q = { s.queue c q with fetched := [] } := by
  unfold State.abortQueue
  dsimp only
  split
  · rename_i none'
    rw [← List.isEmpty_iff.1 none']
  · exact State.queue_updQueue_same s c q fun x => { x with fetched := [] }

theorem State.abortQueue_cq (s : State) (c q r : Nat) : (s.abortQueue c q).cq c r = s.cq c r := by
  unfold State.abortQueue
  dsimp only
  split
  · rfl
  · exact State.cq_updQueue s c q (fun x => { x with fetched := [] }) c r

/-- A disabled queue that has written its last record. -/
def State.settled (s : State) (c q : Nat) : State :=
  (s.setFld (sqConfig c q) 29 29 0).updQueue c q fun x => { x with closing := false }

theorem State.settleQueue_closed {s : State} {c q : Nat} (h : (s.queue c q).closing = true ∧ s.queueIdle c q = true) :
    s.settleQueue c q = s.settled c q := if_pos h

/-- What holds of a queue as it stands, and where it is settled, holds of it after `settleQueue`. -/
theorem State.settleQueue_cases {P : State → Prop} {s : State} {c q : Nat} (hs : P s) (ht : P (s.settled c q)) : P (s.settleQueue c q) :=
  ite_cases ht hs

theorem State.settled_rest (s : State) (c q : Nat) : ∃ regs ctxs, s.settled c q = { s with regs := regs, ctxs := ctxs } := by
  obtain ⟨regs, eq⟩ := s.setFld_sameButRegs (sqConfig c q) 29 29 0
  exact ⟨regs, _, by rw [State.settled, eq]; rfl⟩

theorem State.settleQueue_rest (s : State) (c q : Nat) : ∃ regs ctxs, s.settleQueue c q = { s with regs := regs, ctxs := ctxs } :=
  State.settleQueue_cases (P := fun t => ∃ regs ctxs, t = { s with regs := regs, ctxs := ctxs }) ⟨_, _, rfl⟩ (s.settled_rest c q)

@[simp] theorem State.queue_setFld (s : State) (r : Reg) (hi lo x c q : Nat) : (s.setFld r hi lo x).queue c q = s.queue c q := rfl
@[simp] theorem State.cq_setFld (s : State) (r : Reg) (hi lo x c k : Nat) : (s.setFld r hi lo x).cq c k = s.cq c k := rfl

theorem State.settled_queue (s : State) (c q : Nat) : (s.settled c q).queue c q = { s.queue c q with closing := false } := by
  rw [State.settled, State.queue_updQueue_same, State.queue_setFld]

theorem State.settled_sqConfig {s : State} (ok : s.regsOk) (c q : Nat) :
    (s.settled c q).rd (sqConfig c q) = putBits (s.rd (sqConfig c q)) 29 29 0 := by
  rw [State.settled, State.rd_updQueue, State.setFld, State.rd_wr_same _ _ ok]

/-- A queue just disabled by a write of `w` in SQ_CONFIG: it is closing, and its fetched commands have ended. -/
def State.closing (s : State) (c q w : Nat) : State :=
  ((s.wr (sqConfig c q) w).updQueue c q fun x => { x with closing := true }).abortQueue c q

theorem State.disableQueue_wr {s : State} (ok : s.regsOk) (c q w : Nat) :
    (s.wr (sqConfig c q) w).disableQueue c q = (s.closing c q (putBits w 0 0 0)).settleQueue c q := by
  unfold State.disableQueue State.closing
  rw [State.setFld_wr _ _ _ _ _ ok]

/-- What a completion reports of a command: its position, its descriptor and its ending. -/
def Cmd.report (x : Cmd) : CmdId × List Byte × Option Ending := (x.id, x.desc, x.ending)

theorem State.closing_rest (s : State) (c q w : Nat) : ∃ regs ctxs ended,
    s.closing c q w = { s with regs := regs, ctxs := ctxs, cmds := s.cmds ++ ended }
      ∧ ended.map Cmd.report = (s.queue c q).fetched.map fun f => (⟨c, q, f.seq⟩, f.desc, some Status.aborted.plain) := by
  obtain ⟨regs, eq⟩ := s.wr_sameButRegs (sqConfig c q) w
  obtain ⟨ctxs, aborts⟩ := ((s.wr (sqConfig c q) w).updQueue c q fun x => { x with closing := true }).abortQueue_rest c q
  refine ⟨regs, ctxs, ((s.wr (sqConfig c q) w).updQueue c q fun x => { x with closing := true }).aborted c q, ?_, ?_⟩
  · rw [State.closing, aborts, State.updQueue_cmds, State.wr_cmds, eq]
    rfl
  · rw [State.aborted, State.queue_updQueue_same, State.queue_wr, List.map_map]
    rfl

theorem State.closing_queue (s : State) (c q w : Nat) :
    (s.closing c q w).queue c q = { s.queue c q with fetched := [], closing := true } := by
  rw [State.closing, State.abortQueue_queue, State.queue_updQueue_same, State.queue_wr]

theorem State.closing_cq (s : State) (c q w r : Nat) : (s.closing c q w).cq c r = s.cq c r := by
  rw [State.closing, State.abortQueue_cq, State.cq_updQueue, State.cq_wr]

theorem State.closing_regs (s : State) (c q w : Nat) : (s.closing c q w).regs = (s.wr (sqConfig c q) w).regs := by
  obtain ⟨ctxs, aborts⟩ := ((s.wr (sqConfig c q) w).updQueue c q fun x => { x with closing := true }).abortQueue_rest c q
  rw [State.closing, aborts, State.updQueue_regs]

theorem State.closing_sqConfig {s : State} (ok : s.regsOk) (c q w : Nat) : (s.closing c q w).rd (sqConfig c q) = w := by
  rw [State.rd, State.closing_regs]
  exact State.rd_wr_same _ _ ok

theorem State.closing_ok {s : State} (ok : s.regsOk) (c q w : Nat) : (s.closing c q w).regsOk := by
  rw [State.regsOk, State.closing_regs]
  exact State.wr_regsOk _ _ ok

/-- A queue with nothing fetched, in flight or waiting for its ring is idle as soon as it is disabled. -/
theorem State.closing_idle {s : State} {c q : Nat} (w : Nat) (empty : (s.queue c q).fetched = []) (calm : s.queueCmds c q = [])
    (written : (s.cq c (s.queue c q).cq).waiting = []) : (s.closing c q w).queueIdle c q = true := by
  obtain ⟨regs, ctxs, ended, eq, reports⟩ := s.closing_rest c q w
  rw [empty] at reports
  have none' : ended = [] := List.map_eq_nil_iff.1 reports
  have still : (s.closing c q w).queueCmds c q = [] := by
    rw [← calm, State.queueCmds, State.queueCmds, eq, none', List.append_nil]
  simp [State.queueIdle, State.closing_queue, State.closing_cq, still, written]

theorem State.writeCqConfig_kept {s : State} {c k v : Nat} (on : bitOf (s.rd (cqConfig c k)) 0 = true)
    (keeps : bitOf v 0 = true ∨ s.ringHeld c k = true) : s.writeCqConfig (cqConfig c k) v = s := by
  unfold State.writeCqConfig
  dsimp only
  rw [on, if_pos rfl]
  exact if_pos keeps

theorem State.writeCqConfig_disables {s : State} {c k v : Nat} (ok : s.regsOk) (on : bitOf (s.rd (cqConfig c k)) 0 = true)
    (disable : bitOf v 0 = false) (free : s.ringHeld c k = false) :
    s.writeCqConfig (cqConfig c k) v = s.wr (cqConfig c k) (putBits (putBits (s.rd (cqConfig c k)) 0 0 0) 31 31 0) := by
  have held : ¬(bitOf v 0 = true ∨ s.ringHeld (cqConfig c k).unit (cqConfig c k).idx = true) := by simp [disable, cqConfig, free]
  unfold State.writeCqConfig
  dsimp only
  rw [on, if_pos rfl, if_neg held]
  exact State.setFld_wr _ _ _ _ _ ok

/-- Settles O14: a disabled queue ends what it fetched and is settled at once where nothing of it is left; a ring is judged by
`ringHeld`. -/
theorem disablingAbortsFetchedCommands : Obligations.DisablingAbortsFetchedCommands := by
  intro s secure c k value inv ready fits disable
  have ok := inv.regs
  refine ⟨fun accepts on => ?_, fun accepts on => ?_⟩
  · have run := exec_sqDisable_of_accepts accepts fits disable
    rw [State.writeSqConfig_disables ok on disable, State.disableQueue_wr ok] at run
    generalize written : putBits _ 0 0 0 = w at run
    have off : w.testBit 0 = false := by
      rw [← written, testBit_putBits, if_pos (by omega)]
      rfl
    obtain ⟨regs, ctxs, ended, eq, reports⟩ := s.closing_rest c k w
    obtain ⟨regs', ctxs', eq'⟩ := (s.closing c k w).settleQueue_rest c k
    have cmds : ((s.closing c k w).settleQueue c k).cmds = s.cmds ++ ended := by rw [eq', eq]
    refine ⟨_, run, ?_, ?_, ?_, ?_, fun empty calm waiting => ?_, ?_⟩
    · refine State.settleQueue_cases (P := fun t => bitOf (t.rd (sqConfig c k)) 0 = false) ?_ ?_
      · rw [State.closing_sqConfig ok]
        exact off
      · rw [State.settled_sqConfig (State.closing_ok ok ..), State.closing_sqConfig ok, bitOf, testBit_putBits, if_neg (by omega)]
        exact off
    · refine State.settleQueue_cases (P := fun t => (t.queue c k).fetched = []) ?_ ?_
      · rw [State.closing_queue]
      · rw [State.settled_queue, State.closing_queue]
    · rw [cmds, List.take_left]
    · rw [cmds, List.drop_left]
      exact reports
    · have idle := State.closing_idle w empty calm waiting
      rw [State.settleQueue_closed ⟨by rw [State.closing_queue], idle⟩]
      constructor
      · rw [State.settled_sqConfig (State.closing_ok ok ..), bitOf, testBit_putBits, if_pos (by omega)]
        rfl
      · rw [State.settled_queue]
    · rw [eq', eq]
  · have run := exec_cqDisable_of_accepts accepts fits disable
    refine ⟨fun held => ?_, fun free => ?_⟩
    · rw [run, State.writeCqConfig_kept on (.inr held)]
    · rw [State.writeCqConfig_disables ok on disable free] at run
      refine ⟨_, run, ?_, ?_, ?_⟩
      · rw [State.rd_wr_same _ _ ok, bitOf, testBit_putBits, if_neg (by omega), testBit_putBits, if_pos (by omega)]
        rfl
      · rw [State.rd_wr_same _ _ ok, bitOf, testBit_putBits, if_pos (by omega)]
        rfl
      · obtain ⟨regs, eq⟩ := s.wr_sameButRegs (cqConfig c k) (putBits (putBits (s.rd (cqConfig c k)) 0 0 0) 31 31 0)
        rw [eq]

/-! ### Triggers (R251, R342, R472, R478) -/

section
variable {s : State} {mask v : Nat} {ok : Option Bool}

theorem State.writeReg_nudge {c : Nat} (taken : s.writable (regCtx .nudge c) = true) : s.writeReg (regCtx .nudge c) mask v ok =
    if s.fld (regCtx .ctxControl c) 0 0 = 1 then s.updCtx c fun x => { x with scanWanted := true } else s := by
  unfold regCtx at taken ⊢
  simp only [State.writeReg, taken, Bool.not_true, Bool.false_eq_true, if_false, regCtx]
  rfl

theorem State.writeReg_qcounterReset {c : Nat} (taken : s.writable (regCtx .qcounterReset c) = true) (whole : mask ≠ 0) :
    s.writeReg (regCtx .qcounterReset c) mask v ok
      = (upTo 64).foldl (fun t q => if bitOf v q then t.clearQueueCounters c q else t) s := by
  unfold regCtx at taken ⊢
  simp only [State.writeReg, taken, Bool.not_true, Bool.false_eq_true, if_false, whole]

theorem State.writeReg_timeSet (taken : s.writable (regDie0 .timeSet) = true) (whole : mask ≠ 0) :
    s.writeReg (regDie0 .timeSet) mask v ok = s.timeSetTo v := by
  unfold regDie0 at taken ⊢
  simp only [State.writeReg, taken, Bool.not_true, Bool.false_eq_true, if_false, whole]

theorem State.writeReg_freezeControl (taken : s.writable (regDie0 .freezeControl) = true) :
    s.writeReg (regDie0 .freezeControl) mask v ok = s.writeFreezeControl (regDie0 .freezeControl) mask v := by
  unfold regDie0 at taken ⊢
  simp only [State.writeReg, taken, Bool.not_true, Bool.false_eq_true, if_false]

end

/-- The counters of the queues that a write of QCOUNTER_RESET names. -/
def State.resetCounters (s : State) (c v : Nat) (qs : List Nat) : State :=
  qs.foldl (fun t q => if bitOf v q then t.clearQueueCounters c q else t) s

theorem State.resetCounters_sameButRegs (s : State) (c v : Nat) (qs : List Nat) : s.SameButRegs (s.resetCounters c v qs) := by
  refine List.foldlRecOn qs _ (State.SameButRegs.refl s) fun t same q _ => ?_
  exact ite_cases (P := fun u => s.SameButRegs u) (same.trans (State.clearQueueCounters_sameButRegs ..)) same

theorem State.rd_resetCounters {c : Nat} (hc : c < 64) (v : Nat) {n : RegName} (hn : n ∈ queueCounters) {q : Nat} (hq : q < 64)
    {qs : List Nat} (inside : ∀ k ∈ qs, k < 64) {s : State} (ok : s.regsOk) :
    (s.resetCounters c v qs).rd ⟨n, c, q⟩ = if q ∈ qs ∧ bitOf v q = true then 0 else s.rd ⟨n, c, q⟩ := by
  induction qs generalizing s with
  | nil => simp [State.resetCounters]
  | cons k qs ih =>
    have rest := fun j hj => inside j (List.mem_cons_of_mem k hj)
    cases named : bitOf v k with
    | false =>
      have skip : s.resetCounters c v (k :: qs) = s.resetCounters c v qs := by simp [State.resetCounters, named]
      rw [skip, ih rest ok]
      refine if_congr ?_ rfl rfl
      by_cases same : q = k
      · simp [same, named]
      · simp [same]
    | true =>
      have clear : s.resetCounters c v (k :: qs) = (s.clearQueueCounters c k).resetCounters c v qs := by
        simp [State.resetCounters, named]
      rw [clear, ih rest (State.clearQueueCounters_ok ok c k),
        State.rd_clearQueueCounters ok hc (inside k List.mem_cons_self) (queueCounter_inMap hn hc hq)]
      by_cases same : q = k
      · simp [same, named, hn]
      · simp [same]

theorem freezeControl_stored : (regDie0 .freezeControl).name.info.mask isStored = 2 := rfl
theorem freezeControl_cleared : (regDie0 .freezeControl).name.info.mask isCleared = 0 := rfl

/-- ON_FAULT of FREEZE_CONTROL takes the bit written. -/
theorem testBit_freezeControl_stored (old v : Nat) :
    ((regDie0 .freezeControl).name.info.stored old (2 ^ 32 - 1) v).testBit 1 = v.testBit 1 := by
  rw [RegInfo.testBit_stored, freezeControl_stored, freezeControl_cleared, show (2 &&& (2 ^ 32 - 1) : Nat) = 2 ^ 1 from rfl,
    Nat.testBit_two_pow_self]
  simp

/-- A freeze of the event counters at the next pip (R478). -/
def State.freezesNext (s : State) : State := { s with freeze := { s.freeze with nextAt := some (s.now + 1) } }

theorem State.rd_freezesNext (s : State) (r : Reg) : s.freezesNext.rd r = s.rd r := rfl

theorem State.freezeAtNextPip_eq {s : State} (live : s.freeze.frozen = false) (free : s.freeze.nextAt = none) :
    s.freezeAtNextPip = s.freezesNext := by
  unfold State.freezeAtNextPip
  rw [live, free]
  rfl

/-- FREEZE_NOW where no freeze is in force or pending. -/
theorem State.writeFreezeControl_now {s : State} {mask v : Nat} (ok : s.regsOk) (now : bitOf v 0 = true)
    (live : s.freeze.frozen = false) (free : s.freeze.nextAt = none) : s.writeFreezeControl (regDie0 .freezeControl) mask v =
      (s.wr (regDie0 .freezeControl)
        ((regDie0 .freezeControl).name.info.stored (s.rd (regDie0 .freezeControl)) mask v)).freezesNext := by
  rw [State.writeFreezeControl, State.storeAll_eq rfl _ _ ok, if_pos now]
  exact State.freezeAtNextPip_eq (by rw [State.wr_freeze]; exact live) (by rw [State.wr_freeze]; exact free)

/-- Settles O15: each write reaches its register, whose arm of `writeReg` is what the rule says. -/
theorem triggerWritesAct : Obligations.TriggerWritesAct := by
  intro s secure c value ready fits
  refine ⟨fun accepts => ?nudge, fun inv accepts => ?counters, fun accepts => ?time, fun inv short accepts now live free => ?freeze⟩
  case nudge =>
    exact congrArg Host.Outcome.next ((accepts.writeOf_eq value).trans (State.writeReg_nudge accepts.taken))
  case counters =>
    have run : exec (.qcounterReset secure c value) s = .next (s.resetCounters c value (upTo 64)) :=
      congrArg Host.Outcome.next ((accepts.writeReg_eq (w := 64) rfl fits).trans
        (State.writeReg_qcounterReset accepts.taken (by decide)))
    refine ⟨_, run, fun n q hn hq => ?_, ?_⟩
    · have hc : c < 64 := accepts.exists'.1
      rw [State.rd_resetCounters hc value hn hq (qs := upTo 64) (fun k hk => List.mem_range.1 hk) inv.regs]
      exact if_congr (by simp [upTo, hq]) rfl rfl
    · obtain ⟨regs, eq⟩ := s.resetCounters_sameButRegs c value (upTo 64)
      rw [eq]
  case time =>
    exact congrArg Host.Outcome.next ((accepts.writeReg_eq (w := 64) rfl fits).trans
      (State.writeReg_timeSet accepts.taken (by decide)))
  case freeze =>
    have run : exec (.freezeNow secure value) s
        = .next (s.writeFreezeControl (regDie0 .freezeControl) (2 ^ 32 - 1) value) := by
      show Host.Outcome.next (if bitOf value 0 then _ else _) = _
      rw [if_pos now, accepts.writeReg_eq (w := 32) rfl short, State.writeReg_freezeControl accepts.taken]
    rw [State.writeFreezeControl_now inv.regs now live free] at run
    have onFault := testBit_freezeControl_stored (s.rd (regDie0 .freezeControl)) value
    generalize (regDie0 .freezeControl).name.info.stored _ _ _ = w at run onFault
    refine ⟨_, run, rfl, ?_, rfl⟩
    rw [State.rd_freezesNext, State.rd_wr_same _ _ inv.regs]
    exact onFault

end Sys2Proof.Machine
end

section
/-!
SUPPORT. What the heads of queues, the watches, the counters and the vectors leave alone of the rings and their registers.
-/
set_option Elab.async false
namespace Sys2Proof.Machine

/-! ### Registers of the rings, and those that count beside them -/

/-- The registers that say what a context's rings do. -/
def ringRegs : List RegName := [.sqConfig, .cqConfig, .cqFullStalls]

theorem ringReg_addr {r : Reg} (hr : r.inMap) (ring : r.name ∈ ringRegs) :
    ∃ o, r.addr = 0x2000000 + r.unit * 0x1000 + o ∧ r.unit < 64 ∧ 0x108 ≤ o ∧ o ≤ 0x700 ∧ o ≠ 0x200 := by
  obtain ⟨n, u, i⟩ := r
  obtain ⟨hu, hi⟩ := hr
  simp only [ringRegs, List.mem_cons, List.not_mem_nil, or_false] at ring
  rcases ring with rfl | rfl | rfl <;> simp only [RegName.info, Block.units] at hu hi <;>
    refine ⟨_, by simp only [Reg.addr, RegName.info, Block.base]; exact Nat.add_assoc _ _ _, hu, ?_, ?_, ?_⟩ <;> omega

theorem ringReg_ne_staleDrops {r : Reg} (hr : r.inMap) (ring : r.name ∈ ringRegs) (c : Nat) : r.addr ≠ (regCtx .staleDrops c).addr := by
  obtain ⟨o, at', -, low, high, -⟩ := ringReg_addr hr ring
  have drops : (regCtx .staleDrops c).addr = 0x2000000 + c * 0x1000 + 0x80 := by
    simp [Reg.addr, regCtx, RegName.info, Block.base]
  omega

theorem ringReg_ne_syncWatchWaits {r : Reg} (hr : r.inMap) (ring : r.name ∈ ringRegs) (d : Nat) :
    r.addr ≠ (regDie .syncWatchWaits d).addr := by
  obtain ⟨o, at', unit, low, high, ne⟩ := ringReg_addr hr ring
  have waits : (regDie .syncWatchWaits d).addr = d * 0x400000 + 0x30200 := by
    simp [Reg.addr, regDie, RegName.info, Block.base, dieStride]
  omega

theorem ringReg_ne_pmcReg {r : Reg} (hr : r.inMap) (ring : r.name ∈ ringRegs) (d : Nat) {i : Nat} (hi : i < 64) :
    r.addr ≠ (pmcReg d i).addr := by
  obtain ⟨o, at', unit, low, high, -⟩ := ringReg_addr hr ring
  rw [pmcReg_addr]
  omega

/-! ### What leaves the rings alone -/

/-- A queue but for the commands it has fetched. -/
def QueueSt.bare (x : QueueSt) : QueueSt := { x with fetched := [] }

/-- From `s` to `t` nothing of the rings, of host memory and of the link has changed, nor of a queue but the commands it has fetched. -/
structure State.OffRings (s t : State) : Prop where
  mem : t.mem = s.mem
  pcie : t.pcie = s.pcie
  ctx : ∀ c, { t.ctx c with queues := [], slots := [] } = { s.ctx c with queues := [], slots := [] }
  queue : ∀ c q, (t.queue c q).bare = (s.queue c q).bare
  ok : s.regsOk → t.regsOk
  rd : s.regsOk → ∀ r : Reg, r.inMap → r.name ∈ ringRegs → t.rd r = s.rd r

theorem State.OffRings.refl (s : State) : s.OffRings s := ⟨rfl, rfl, fun _ => rfl, fun _ _ => rfl, id, fun _ _ _ _ => rfl⟩

theorem State.OffRings.trans {s t u : State} (h : s.OffRings t) (k : t.OffRings u) : s.OffRings u where
  mem := k.mem.trans h.mem
  pcie := k.pcie.trans h.pcie
  ctx c := (k.ctx c).trans (h.ctx c)
  queue c q := (k.queue c q).trans (h.queue c q)
  ok := k.ok ∘ h.ok
  rd ok r hr ring := (k.rd (h.ok ok) r hr ring).trans (h.rd ok r hr ring)

section
variable {s t : State} (h : s.OffRings t)
include h

theorem State.OffRings.cq (c r : Nat) : t.cq c r = s.cq c r := by
  have cqs := congrArg Ctx.cqs (h.ctx c)
  dsimp only at cqs
  rw [State.cq, State.cq, cqs]

theorem State.OffRings.head (c q : Nat) : (t.queue c q).head = (s.queue c q).head :=
  (congrArg QueueSt.head (h.queue c q) :)

theorem State.OffRings.seenTail (c q : Nat) : (t.queue c q).seenTail = (s.queue c q).seenTail :=
  (congrArg QueueSt.seenTail (h.queue c q) :)

theorem State.OffRings.deferrable (c q : Nat) : (t.queue c q).deferrable = (s.queue c q).deferrable :=
  (congrArg QueueSt.deferrable (h.queue c q) :)

theorem State.OffRings.ring (c q : Nat) : (t.queue c q).cq = (s.queue c q).cq :=
  (congrArg QueueSt.cq (h.queue c q) :)

end

/-- The rest of the state is no part of what the rings do. -/
theorem State.OffRings.of_eq {s t : State} (mem : t.mem = s.mem) (pcie : t.pcie = s.pcie) (ctxs : t.ctxs = s.ctxs)
    (regs : t.regs = s.regs) : s.OffRings t where
  mem := mem
  pcie := pcie
  ctx c := by rw [State.ctx, State.ctx, ctxs]
  queue c q := by rw [State.queue_of_ctxs ctxs]
  ok ok := by rw [State.regsOk, regs]; exact ok
  rd _ r _ _ := by rw [State.rd, State.rd, regs]

/-- A register apart from those of the rings counts. -/
theorem State.OffRings.bump (s : State) {r : Reg} (n : Nat) (apart : ∀ q : Reg, q.inMap → q.name ∈ ringRegs → q.addr ≠ r.addr) :
    s.OffRings (s.bump r n) where
  mem := rfl
  pcie := rfl
  ctx _ := rfl
  queue _ _ := rfl
  ok := State.bump_regsOk r n
  rd ok q hq ring := State.rd_bump_other n ok (apart q hq ring)

/-- A context changes in its tensors and in what its queues have fetched. -/
theorem State.OffRings.updCtx (s : State) (c : Nat) {f : Ctx → Ctx}
    (rest : ∀ x, { f x with queues := [], slots := [] } = { x with queues := [], slots := [] })
    (queues : ∀ x q, ((f x).queues.getD q QueueSt.init).bare = (x.queues.getD q QueueSt.init).bare) : s.OffRings (s.updCtx c f) where
  mem := rfl
  pcie := rfl
  ctx c' := by
    rw [State.ctx_updCtx]
    split
    · rename_i same
      rw [rest, same]
    · rfl
  queue c' q := by
    rw [State.queue, State.ctx_updCtx]
    split
    · rename_i same
      rw [queues, same]
      rfl
    · rfl
  ok := id
  rd _ _ _ _ := rfl

/-- A queue changes in what it has fetched. -/
theorem State.OffRings.updQueue (s : State) (c q : Nat) {f : QueueSt → QueueSt} (hf : ∀ x, (f x).bare = x.bare) :
    s.OffRings (s.updQueue c q f) := by
  refine State.OffRings.updCtx s c (fun _ => rfl) fun x k => ?_
  dsimp only
  by_cases same : k = q
  · rw [same, Tab.getD_upd_same, hf]
  · rw [Tab.getD_upd_other _ _ _ same]

theorem State.OffRings.updSlot (s : State) (c i : Nat) (f : DescSlot → DescSlot) : s.OffRings (s.updSlot c i f) :=
  State.OffRings.updCtx s c (fun _ => rfl) fun _ _ => rfl

theorem State.OffRings.staleDrop (s : State) (c : Nat) : s.OffRings (s.staleDrop c) :=
  State.OffRings.bump s 1 fun _ hq ring => ringReg_ne_staleDrops hq ring c

theorem State.OffRings.registerWatch (s : State) (die : Nat) (w : Watch) (id : Option CmdId) : s.OffRings (s.registerWatch die w id) := by
  unfold State.registerWatch
  split
  · exact .of_eq rfl rfl rfl rfl
  · have waits {t : State} : t.OffRings (t.bump (regDie .syncWatchWaits die) 1) :=
      State.OffRings.bump t 1 fun _ hq ring => ringReg_ne_syncWatchWaits hq ring die
    refine State.OffRings.trans ?_ waits
    exact .of_eq rfl rfl rfl rfl

/-! ### The head of a queue (R231, R254) -/

/-- What holds of a state holds of it when the next command of a queue, which no deadline can end, is at its head: commands the
queue has fetched are marked, and the watches of its start conditions registered. -/
theorem State.nextHead_induct {P : State → Prop} {c q : Nat}
    (mark : ∀ t f, (∀ x : QueueSt, (f x).bare = x.bare) → P t → P (t.updQueue c q f))
    (watch : ∀ t die w, P t → P (t.registerWatch die w none)) (drop : ∀ t, P t → P (t.staleDrop c)) {s : State}
    (fore : (s.queue c q).deferrable = false) (h : P s) : P (s.nextHead c q) := by
  have start {t : State} (k : Nat) (ht : P t) (seq : Nat) (d : List Byte) : P (t.startWatch ⟨c, q, seq⟩ d k) := by
    have set {u : State} (v : StartSt) (hu : P u) : P (u.setStart ⟨c, q, seq⟩ k v) := mark u _ (fun _ => rfl) hu
    unfold State.startWatch
    dsimp only
    split
    · exact set _ ht
    · split
      · exact set _ (drop t ht)
      · exact set _ (watch t _ _ ht)
  unfold State.nextHead State.reachHead
  split
  · exact h
  · rename_i f rest _
    dsimp only
    split
    · exact h
    · rw [fore, if_neg (by simp)]
      have atHead := mark s (fun x => { x with fetched := { f with atHead := true } :: rest }) (fun _ => rfl) h
      exact start 1 (start 0 atHead _ _) _ _

theorem State.OffRings.nextHead {s : State} {c q : Nat} (fore : (s.queue c q).deferrable = false) : s.OffRings (s.nextHead c q) :=
  State.nextHead_induct (P := s.OffRings) (fun t _ hf h => h.trans (.updQueue t c q hf))
    (fun t die w h => h.trans (.registerWatch t die w none)) (fun t h => h.trans (.staleDrop t c)) fore (.refl s)

/-! ### The vector of a ring (R266) -/

/-- A ring but for its HOLDOFF interval. -/
def CqSt.bare (x : CqSt) : CqSt := { x with holdoffRunning := false, merged := false }

/-- What holds of a state holds of it when a ring's vector has been requested: a message leaves or is kept, and the ring's HOLDOFF
interval is marked. -/
theorem State.requestVector_induct {P : State → Prop} {c r : Nat} (send : ∀ t x, P t → P { t with pcie := x })
    (hold : ∀ t f, (∀ x : CqSt, (f x).bare = x.bare) → P t → P (t.updCq c r f)) {s : State} (h : P s) : P (s.requestVector c r) := by
  have sent : P (s.sendVector (c * 32 + r)) := by
    obtain ⟨x, eq⟩ := s.sendVector_rest (c * 32 + r)
    rw [eq]
    exact send s x h
  unfold State.requestVector
  dsimp only
  refine ite_cases (hold s _ (fun _ => rfl) h) ?_
  exact ite_cases sent (hold _ _ (fun _ => rfl) sent)

theorem State.queue_updCq (s : State) (c r : Nat) (f : CqSt → CqSt) (c' q : Nat) : (s.updCq c r f).queue c' q = s.queue c' q := by
  unfold State.queue State.updCq
  rw [State.ctx_updCtx]
  split
  · rename_i same
    rw [same]
  · rfl

section
variable {s : State} {c r : Nat}

theorem State.requestVector_ctx (c' : Nat) : { (s.requestVector c r).ctx c' with cqs := [] } = { s.ctx c' with cqs := [] } := by
  refine State.requestVector_induct (P := fun t => ({ t.ctx c' with cqs := [] } : Ctx) = { s.ctx c' with cqs := [] }) (fun t x h => h)
    (fun t f _ h => ?_) rfl
  rw [← h, State.updCq, State.ctx_updCtx]
  split
  · rename_i same
    rw [same]
  · rfl

theorem State.requestVector_queue (c' q : Nat) : (s.requestVector c r).queue c' q = s.queue c' q :=
  State.requestVector_induct (P := fun t => t.queue c' q = s.queue c' q) (fun _ _ h => h)
    (fun t f _ h => (t.queue_updCq c r f c' q).trans h) rfl

theorem State.requestVector_cq (c' k : Nat) : ((s.requestVector c r).cq c' k).bare = (s.cq c' k).bare := by
  refine State.requestVector_induct (P := fun t => (t.cq c' k).bare = (s.cq c' k).bare) (fun _ _ h => h) (fun t f hf h => ?_) rfl
  rw [← h, State.cq_updCq]
  split
  · rename_i same
    rw [hf, same.1, same.2]
  · rfl

end

end Sys2Proof.Machine
end

section
/-!
SUPPORT. A doorbell scan in which one line acts (R246, R248, R249, R250, R251).
-/
set_option Elab.async false
namespace Sys2Proof.Machine

/-! ### The one line that acts -/

theorem foldl_idle {α β : Type} {f : β → α → β} {b : β} {l : List α} (idle : ∀ a ∈ l, f b a = b) : l.foldl f b = b := by
  induction l with
  | nil => rfl
  | cons a l ih => rw [List.foldl_cons, idle a List.mem_cons_self, ih fun x hx => idle x (List.mem_cons_of_mem a hx)]

/-- A pass over the numbers below `n` where none acts but `q`. -/
theorem foldl_upTo_single {β : Type} {f : β → Nat → β} {b : β} {n q : Nat} (inside : q < n) (before : ∀ k, k < n → k ≠ q → f b k = b)
    (after : ∀ k, k < n → k ≠ q → f (f b q) k = f b q) : (upTo n).foldl f b = f b q := by
  obtain ⟨pre, post, split⟩ := List.append_of_mem (show q ∈ upTo n from List.mem_range.2 inside)
  have once : (pre ++ q :: post).Nodup := split ▸ List.nodup_range
  have below {k : Nat} (hk : k ∈ pre ++ q :: post) : k < n := List.mem_range.1 (split ▸ hk : k ∈ upTo n)
  obtain ⟨-, tail, apart⟩ := List.nodup_append.1 once
  have notPre {k : Nat} (hk : k ∈ pre) : k ≠ q := apart k hk q List.mem_cons_self
  have notPost {k : Nat} (hk : k ∈ post) : k ≠ q := fun e => (List.nodup_cons.1 tail).1 (e ▸ hk)
  rw [split, List.foldl_append, List.foldl_cons, foldl_idle fun k hk => before k (below (List.mem_append_left _ hk)) (notPre hk)]
  exact foldl_idle fun k hk => after k (below (List.mem_append_right _ (List.mem_cons_of_mem q hk))) (notPost hk)

section
variable {s : State} {c : Nat}

theorem State.scanQueue_off {q : Nat} (off : bitOf (s.rd (sqConfig c q)) 0 = false) : s.scanQueue c q = s := by
  unfold State.scanQueue
  dsimp only
  rw [if_pos (.inl (by simp [off]))]

theorem State.scanRing_off {r : Nat} (off : bitOf (s.rd (cqConfig c r)) 0 = false) : s.scanRing c r = s := by
  unfold State.scanRing
  rw [off]
  rfl

end

/-! ### Fetching (R249) -/

theorem Tab.upd_congr {α : Type} {t : Tab α} {i : Nat} {d : α} {f g : α → α} (h : f (t.getD i d) = g (t.getD i d)) :
    t.upd i d f = t.upd i d g := congrArg (t.set i) h

theorem Tab.upd_upd {α : Type} (t : Tab α) (i : Nat) (d : α) (f g : α → α) : (t.upd i d f).upd i d g = t.upd i d (g ∘ f) := by
  rw [Tab.upd, Tab.getD_upd_same, Tab.upd, Tab.set_set]
  rfl

/-- The command at position `head + i` of a queue, as a scan fetches it. -/
def QueueSt.fetchedAt (x : QueueSt) (s : State) (i : Nat) : Fetched :=
  ⟨(x.head + i) % 2 ^ 64, s.hostRead (x.base + (x.head + i) % 2 ^ 64 % 2 ^ x.log2 * 128) 128, false, .none, .none, none⟩

/-- A queue that has fetched `n` commands from its head on. -/
def QueueSt.fetching (x : QueueSt) (s : State) (n : Nat) : QueueSt :=
  { x with head := (x.head + n) % 2 ^ 64, fetched := x.fetched ++ (upTo n).map (x.fetchedAt s) }

theorem QueueSt.fetching_zero {x : QueueSt} (short : x.head < 2 ^ 64) (s : State) : x.fetching s 0 = x := by
  rw [QueueSt.fetching, Nat.add_zero, Nat.mod_eq_of_lt short]
  simp [upTo]

theorem QueueSt.fetching_succ (x : QueueSt) (s : State) (n : Nat) :
    (x.fetching s 1).fetching s n = x.fetching s (n + 1) := by
  have head (i : Nat) : ((x.head + 1) % 2 ^ 64 + i) % 2 ^ 64 = (x.head + (i + 1)) % 2 ^ 64 := by omega
  have later (i : Nat) : (x.fetching s 1).fetchedAt s i = x.fetchedAt s (i + 1) := by
    unfold QueueSt.fetchedAt
    rw [show (x.fetching s 1).head = (x.head + 1) % 2 ^ 64 from rfl, head]
    rfl
  have all : (upTo (n + 1)).map (x.fetchedAt s) = (upTo 1).map (x.fetchedAt s) ++ (upTo n).map ((x.fetching s 1).fetchedAt s) := by
    rw [upTo, List.range_succ_eq_map, List.map_cons, List.map_map]
    exact congrArg (List.cons (x.fetchedAt s 0)) (List.map_congr_left fun i _ => (later i).symm)
  rw [QueueSt.fetching, QueueSt.fetching, QueueSt.fetching, all, head]
  simp [QueueSt.fetching, List.append_assoc]

theorem State.updQueue_updQueue (s : State) (c q : Nat) (x y : QueueSt) :
    (s.updQueue c q fun _ => x).updQueue c q (fun _ => y) = s.updQueue c q fun _ => y := by
  have twice : (s.ctxs.upd c Ctx.init fun z => { z with queues := z.queues.upd q QueueSt.init fun _ => x }).upd c Ctx.init
      (fun z => { z with queues := z.queues.upd q QueueSt.init fun _ => y })
      = s.ctxs.upd c Ctx.init fun z => { z with queues := z.queues.upd q QueueSt.init fun _ => y } := by
    rw [Tab.upd_upd]
    refine Tab.upd_congr ?_
    simp only [Function.comp_apply, Tab.upd_upd]
    rfl
  exact congrArg (fun ctxs => { s with ctxs := ctxs }) twice

/-- An update of a queue by what it makes of the queue as it stands. -/
theorem State.updQueue_congr {s : State} {c q : Nat} {f g : QueueSt → QueueSt} (h : f (s.queue c q) = g (s.queue c q)) :
    s.updQueue c q f = s.updQueue c q g := by
  have same := Tab.upd_congr (t := s.ctxs) (i := c) (d := Ctx.init) (f := fun x => { x with queues := x.queues.upd q QueueSt.init f })
    (g := fun x => { x with queues := x.queues.upd q QueueSt.init g })
    (congrArg (fun queues => { s.ctx c with queues := queues }) (Tab.upd_congr h))
  exact congrArg (fun ctxs => { s with ctxs := ctxs }) same

/-- Fetching is one update of the queue. -/
theorem State.fetch_updQueue (s : State) (c q n : Nat) {x : QueueSt} (short : x.head < 2 ^ 64) :
    (s.updQueue c q fun _ => x).fetch c q n = s.updQueue c q fun _ => x.fetching s n := by
  induction n generalizing x with
  | zero => rw [State.fetch, x.fetching_zero short]
  | succ n ih =>
    have one : ((s.updQueue c q fun _ => x).updQueue c q fun y =>
        { y with head := (y.head + 1) % 2 ^ 64, fetched := y.fetched ++ [⟨y.head, s.hostRead (x.base + x.head % 2 ^ x.log2 * 128) 128,
          false, .none, .none, none⟩] }) = s.updQueue c q fun _ => x.fetching s 1 := by
      refine (State.updQueue_congr ?_).trans (s.updQueue_updQueue c q x (x.fetching s 1))
      rw [State.queue_updQueue_same, QueueSt.fetching, show (upTo 1).map (x.fetchedAt s) = [x.fetchedAt s 0] from rfl,
        QueueSt.fetchedAt, show (x.head + 0) % 2 ^ 64 = x.head from Nat.mod_eq_of_lt short]
    rw [State.fetch, State.queue_updQueue_same]
    refine (congrArg (fun t => State.fetch t c q n) one).trans ?_
    rw [ih (Nat.mod_lt _ (Nat.two_pow_pos 64)), x.fetching_succ]

end Sys2Proof.Machine
end

section
/-!
SUPPORT. DOORBELL_SCAN of a context with one enabled queue (R246, R248, R249, R250, R251).
-/
set_option Elab.async false
namespace Sys2Proof.Machine

/-- A context whose scan has started (R250, R251). -/
def State.rearmed (s : State) (c : Nat) : State :=
  s.updCtx c fun x =>
    { x with scanWanted := false, nextScan := if decide ((s.ctx c).nextScan ≤ s.now) then s.now + s.scanPips c else x.nextScan }

theorem State.scan_eq (s : State) (c : Nat) : s.scan c =
    (upTo 32).foldl (fun t r => t.scanRing c r) ((upTo 64).foldl (fun t q => t.scanQueue c q) (s.rearmed c)) := rfl

theorem State.rd_rearmed (s : State) (c : Nat) (r : Reg) : (s.rearmed c).rd r = s.rd r := rfl

theorem State.rearmed_ok {s : State} (ok : s.regsOk) (c : Nat) : (s.rearmed c).regsOk := ok

theorem State.rearmed_mem (s : State) (c : Nat) : (s.rearmed c).mem = s.mem := rfl

theorem State.rearmed_queue (s : State) (c q : Nat) : (s.rearmed c).queue c q = s.queue c q := by
  rw [State.queue, State.rearmed, State.updCtx_same]
  rfl

theorem State.rearmed_scanWanted (s : State) (c : Nat) : ((s.rearmed c).ctx c).scanWanted = false := by
  rw [State.rearmed, State.updCtx_same]

theorem State.rearmed_nextScan (s : State) (c : Nat) : ((s.rearmed c).ctx c).nextScan
    = if (s.ctx c).nextScan ≤ s.now then s.now + s.scanPips c else (s.ctx c).nextScan := by
  rw [State.rearmed, State.updCtx_same]
  exact if_congr decide_eq_true_iff rfl rfl

/-- A queue that has seen the TAIL `tail` and fetched `n` commands (R249). -/
def QueueSt.taking (x : QueueSt) (s : State) (tail n : Nat) : QueueSt := { x with seenTail := tail }.fetching s n

/-- A queue whose line shows the valid TAIL `tail`: `n` commands fetched, and HEAD written at `a` where any is (R249). -/
def State.takesTail (s : State) (c q n a tail : Nat) : State :=
  let t := s.updQueue c q fun _ => (s.queue c q).taking s tail n
  if n = 0 then t else t.hostWrite a (leBytes 8 ((s.queue c q).taking s tail n).head)

section
variable (s : State) (c q n a tail : Nat)

/-- Besides HEAD in host memory, taking a TAIL is an update of the queue. -/
theorem State.takesTail_updQueue :
    ∃ mem, s.takesTail c q n a tail = { s.updQueue c q fun _ => (s.queue c q).taking s tail n with mem := mem } := by
  unfold State.takesTail
  dsimp only
  split
  · exact ⟨_, rfl⟩
  · exact ⟨_, rfl⟩

theorem State.takesTail_queue : (s.takesTail c q n a tail).queue c q = (s.queue c q).taking s tail n := by
  obtain ⟨mem, eq⟩ := s.takesTail_updQueue c q n a tail
  rw [eq]
  exact State.queue_updQueue_same ..

theorem State.takesTail_ctx (c' : Nat) :
    ({ (s.takesTail c q n a tail).ctx c' with queues := [] } : Ctx) = { s.ctx c' with queues := [] } := by
  obtain ⟨mem, eq⟩ := s.takesTail_updQueue c q n a tail
  rw [eq]
  exact State.ctx_updQueue ..

theorem State.takesTail_regs : (s.takesTail c q n a tail).regs = s.regs := by
  obtain ⟨mem, eq⟩ := s.takesTail_updQueue c q n a tail
  rw [eq, State.updQueue_regs]

theorem State.takesTail_cmds : (s.takesTail c q n a tail).cmds = s.cmds := by
  obtain ⟨mem, eq⟩ := s.takesTail_updQueue c q n a tail
  rw [eq, State.updQueue_cmds]

variable {s n}

/-- HEAD is on the doorbell line once a command has been fetched. -/
theorem State.takesTail_head (ok : s.memOk) (some' : n ≠ 0) :
    (s.takesTail c q n a tail).hostRead a 8 = leBytes 8 (((s.queue c q).head + n) % 2 ^ 64) := by
  have ok' : (s.updQueue c q fun _ => (s.queue c q).taking s tail n).memOk := ok
  unfold State.takesTail
  dsimp only
  rw [if_neg some', State.hostRead_hostWrite ok' (leBytes_length ..)]
  rfl

end

/-- TAIL_INVALID of a queue, with its ring's vector requested (R248). -/
def State.tailRefused (s : State) (c q : Nat) : State := (s.setFld (sqConfig c q) 30 30 1).requestVector c (s.queue c q).cq

section
variable {s : State} {c q : Nat} (on : bitOf (s.rd (sqConfig c q)) 0 = true) (enabled : bitOf (s.rd (sqConfig c q)) 29 = true)
  (sound : bitOf (s.rd (sqConfig c q)) 30 = false)
include on enabled sound

theorem State.scanQueue_invalid
    (invalid : tailValid (s.queue c q) (leValue (s.hostRead (s.rd (regCtx .doorbellBase c) + 64 * q) 8)) = false) :
    s.scanQueue c q = s.tailRefused c q := by
  unfold State.scanQueue
  dsimp only
  rw [if_neg (by simp [on, enabled, sound]), invalid]
  rfl

theorem State.scanQueue_valid {line tail : Nat} (line_eq : s.rd (regCtx .doorbellBase c) + 64 * q = line)
    (tail_eq : leValue (s.hostRead line 8) = tail) (short : (s.queue c q).head < 2 ^ 64) (valid : tailValid (s.queue c q) tail = true) :
    s.scanQueue c q = (s.takesTail c q (min (16 - (s.queue c q).fetched.length) ((tail + 2 ^ 64 - (s.queue c q).head) % 2 ^ 64))
      (line + 8) tail).nextHead c q := by
  unfold State.scanQueue
  dsimp only
  rw [if_neg (by simp [on, enabled, sound]), line_eq, tail_eq, if_pos valid]
  generalize (min _ _ : Nat) = n
  have seen : (s.updQueue c q fun x => { x with seenTail := tail }) = s.updQueue c q fun _ => { s.queue c q with seenTail := tail } :=
    State.updQueue_congr rfl
  rw [seen, State.fetch_updQueue s c q n (x := { s.queue c q with seenTail := tail }) short, State.queue_updQueue_same]
  rfl

end

/-- With one enabled queue and no enabled ring a scan is that queue's. -/
theorem State.scan_single {s : State} {c q : Nat} (hq : q < 64) (others : ∀ k, k < 64 → k ≠ q → bitOf (s.rd (sqConfig c k)) 0 = false)
    (rings : ∀ k, k < 32 → bitOf (s.rd (cqConfig c k)) 0 = false)
    (others' : ∀ k, k < 64 → k ≠ q → ((s.rearmed c).scanQueue c q).rd (sqConfig c k) = s.rd (sqConfig c k))
    (rings' : ∀ k, k < 32 → ((s.rearmed c).scanQueue c q).rd (cqConfig c k) = s.rd (cqConfig c k)) :
    s.scan c = (s.rearmed c).scanQueue c q := by
  have queues : (upTo 64).foldl (fun t k => t.scanQueue c k) (s.rearmed c) = (s.rearmed c).scanQueue c q := by
    refine foldl_upTo_single hq (fun k hk ne => State.scanQueue_off ?_) fun k hk ne => State.scanQueue_off ?_
    · rw [State.rd_rearmed]
      exact others k hk ne
    · rw [others' k hk ne]
      exact others k hk ne
  rw [State.scan_eq, queues]
  refine foldl_idle fun k hk => State.scanRing_off ?_
  rw [rings' k (List.mem_range.1 hk)]
  exact rings k (List.mem_range.1 hk)

theorem State.tailRefused_rest (s : State) (c q : Nat) :
    ∃ regs ctxs pcie, s.tailRefused c q = { s with regs := regs, ctxs := ctxs, pcie := pcie } := by
  obtain ⟨regs, set⟩ := s.setFld_sameButRegs (sqConfig c q) 30 30 1
  obtain ⟨ctxs, pcie, eq⟩ := (s.setFld (sqConfig c q) 30 30 1).requestVector_rest c (s.queue c q).cq
  exact ⟨regs, ctxs, pcie, by rw [State.tailRefused, eq, set]⟩

theorem State.tailRefused_queue (s : State) (c q : Nat) : (s.tailRefused c q).queue c q = s.queue c q := by
  rw [State.tailRefused, State.requestVector_queue, State.queue_setFld]

theorem State.tailRefused_ctx (s : State) (c q : Nat) :
    ({ (s.tailRefused c q).ctx c with cqs := [] } : Ctx) = { s.ctx c with cqs := [] } := by
  obtain ⟨regs, set⟩ := s.setFld_sameButRegs (sqConfig c q) 30 30 1
  rw [State.tailRefused, set]
  exact State.requestVector_ctx c

section
variable {s : State} {c q : Nat} (ok : s.regsOk) (hc : c < 64) (hq : q < 64)
include ok hc hq

theorem State.tailRefused_rd {r : Reg} (hr : r.inMap) :
    (s.tailRefused c q).rd r = if r = sqConfig c q then putBits (s.rd (sqConfig c q)) 30 30 1 else s.rd r := by
  obtain ⟨ctxs, pcie, eq⟩ := (s.setFld (sqConfig c q) 30 30 1).requestVector_rest c (s.queue c q).cq
  have regs : (s.tailRefused c q).regs = (s.wr (sqConfig c q) (putBits (s.rd (sqConfig c q)) 30 30 1)).regs := by
    rw [State.tailRefused, eq, State.setFld]
  rw [State.rd, regs]
  exact State.rd_wr (sqConfig_inMap hc hq) hr _ ok

end

section
variable {s : State} {c q : Nat} (fore : (s.queue c q).deferrable = false) (n a tail : Nat)
include fore

theorem State.takesTail_fore : ((s.takesTail c q n a tail).queue c q).deferrable = false := by
  rw [State.takesTail_queue]
  exact fore

/-- What the registers of the rings hold once a valid TAIL has been taken. -/
theorem State.takesTail_nextHead_rd (ok : s.regsOk) {r : Reg} (hr : r.inMap) (ring : r.name ∈ ringRegs) :
    ((s.takesTail c q n a tail).nextHead c q).rd r = s.rd r := by
  have same := s.takesTail_regs c q n a tail
  have ok' : (s.takesTail c q n a tail).regsOk := by
    rw [State.regsOk, same]
    exact ok
  rw [(State.OffRings.nextHead (State.takesTail_fore fore n a tail)).rd ok' r hr ring, State.rd, State.rd, same]

end

section
variable {s : State} {c q : Nat} (ok : s.regsOk) (hc : c < 64) (hq : q < 64)
  (others : ∀ k, k < 64 → k ≠ q → bitOf (s.rd (sqConfig c k)) 0 = false) (rings : ∀ k, k < 32 → bitOf (s.rd (cqConfig c k)) 0 = false)
  (on : bitOf (s.rd (sqConfig c q)) 0 = true) (enabled : bitOf (s.rd (sqConfig c q)) 29 = true)
  (sound : bitOf (s.rd (sqConfig c q)) 30 = false) {line tail : Nat} (line_eq : s.rd (regCtx .doorbellBase c) + 64 * q = line)
  (tail_eq : leValue (s.hostRead line 8) = tail)
include ok hc hq others rings on enabled sound line_eq tail_eq

theorem State.scan_invalid (invalid : tailValid (s.queue c q) tail = false) : s.scan c = (s.rearmed c).tailRefused c q := by
  have refused : (s.rearmed c).scanQueue c q = (s.rearmed c).tailRefused c q := by
    refine State.scanQueue_invalid on enabled sound ?_
    rw [State.rearmed_queue, State.rd_rearmed, line_eq, State.hostRead_of_mem (s.rearmed_mem c), tail_eq]
    exact invalid
  rw [State.scan_single hq others rings (fun k hk ne => ?_) (fun k hk => ?_), refused]
  · rw [refused, State.tailRefused_rd (State.rearmed_ok ok c) hc hq (sqConfig_inMap hc hk), if_neg (by simp [sqConfig, ne]),
      State.rd_rearmed]
  · rw [refused, State.tailRefused_rd (State.rearmed_ok ok c) hc hq (cqConfig_inMap hc hk), if_neg (by simp [sqConfig, cqConfig]),
      State.rd_rearmed]

theorem State.scan_valid (short : (s.queue c q).head < 2 ^ 64) (fore : (s.queue c q).deferrable = false)
    (valid : tailValid (s.queue c q) tail = true) : s.scan c =
      ((s.rearmed c).takesTail c q (min (16 - (s.queue c q).fetched.length) ((tail + 2 ^ 64 - (s.queue c q).head) % 2 ^ 64))
        (line + 8) tail).nextHead c q := by
  have queue := s.rearmed_queue c q
  have taken := State.scanQueue_valid (s := s.rearmed c) on enabled sound line_eq tail_eq (by rw [queue]; exact short)
    (by rw [queue]; exact valid)
  rw [queue] at taken
  have fore' : ((s.rearmed c).queue c q).deferrable = false := by rw [queue]; exact fore
  rw [State.scan_single hq others rings (fun k hk _ => ?_) (fun k hk => ?_), taken]
  · rw [taken, State.takesTail_nextHead_rd fore' _ _ _ (State.rearmed_ok ok c) (sqConfig_inMap hc hk)
      (by simp [sqConfig, ringRegs]), State.rd_rearmed]
  · rw [taken, State.takesTail_nextHead_rd fore' _ _ _ (State.rearmed_ok ok c) (cqConfig_inMap hc hk)
      (by simp [cqConfig, ringRegs]), State.rd_rearmed]

end

/-! ### DOORBELL_SCAN -/

theorem State.fetching_hostStores (s : State) (l : HostStores) : (s.hostStores l).fetching = s.fetching := by
  obtain ⟨host, eq⟩ := s.hostStores_rest l
  rw [eq]
  rfl

theorem State.rd_hostStores (s : State) (l : HostStores) (r : Reg) : (s.hostStores l).rd r = s.rd r := by
  rw [State.rd, State.rd, State.hostStores_regs]

theorem State.scanDue_hostStores (s : State) (l : HostStores) (c : Nat) : (s.hostStores l).scanDue c = s.scanDue c := by
  obtain ⟨host, eq⟩ := s.hostStores_rest l
  rw [eq]
  rfl

theorem exec_doorbellScan {s : State} {c : Nat} (live : (s.fetching && bitOf (s.rd (regCtx .ctxControl c)) 0) = true) (l : HostStores) :
    exec (.doorbellScan c l) s = .next (if s.scanDue c = true then (s.hostStores l).scan c else s.hostStores l) := by
  obtain ⟨fetches, on⟩ := Bool.and_eq_true_iff.1 live
  show Host.Outcome.next (if (s.hostStores l).fetching = true ∧ _ ∧ _ then _ else _) = _
  rw [State.fetching_hostStores, State.rd_hostStores, State.scanDue_hostStores]
  exact congrArg Host.Outcome.next (if_congr (by simp [fetches, on]) rfl rfl)

/-- Settles O17: only the line of the enabled queue acts, and it is taken or refused by `tailValid`. -/
theorem scanFetchesOnlyUnderValidTail : Obligations.ScanFetchesOnlyUnderValidTail := by
  intro s c q stores inv hc hq s0 live others rings on enabled sound x short fore room line tail n shown
  have run := exec_doorbellScan live stores
  refine ⟨fun idle => by rw [run, idle]; rfl, fun due => ?_⟩
  rw [due, if_pos rfl] at run
  have inv0 : s0.Inv := State.hostStores_inv inv stores
  have same (r : Reg) : s0.rd r = s.rd r := State.rd_hostStores s stores r
  have queue : s0.queue c q = x := State.queue_of_ctxs (s.hostStores_ctxs stores) c q
  have cmds : s0.cmds = s.cmds := by
    obtain ⟨host, eq⟩ := s.hostStores_rest stores
    rw [show s0 = _ from eq]
  have started : ((s0.rearmed c).ctx c).nextScan = if (s.ctx c).nextScan ≤ s.now then s.now + s.scanPips c else (s.ctx c).nextScan := by
    obtain ⟨host, eq⟩ := s.hostStores_rest stores
    rw [State.rearmed_nextScan, show s0 = _ from eq]
    rfl
  simp only [← same] at others rings on enabled sound
  have line_eq : s0.rd (regCtx .doorbellBase c) + 64 * q = line := by rw [same]
  cases valid : tailValid x tail with
  | false =>
    rw [State.scan_invalid inv0.regs hc hq others rings on enabled sound line_eq rfl (by rw [queue]; exact valid)] at run
    obtain ⟨regs, ctxs, pcie, rest⟩ := (s0.rearmed c).tailRefused_rest c q
    have ctx := (s0.rearmed c).tailRefused_ctx c q
    refine ⟨_, run, ?_, ?_, fun _ => ⟨?_, ?_, ?_, ?_⟩, nofun⟩
    · exact (congrArg Ctx.scanWanted ctx).trans (s0.rearmed_scanWanted c)
    · exact (congrArg Ctx.nextScan ctx).trans started
    · rw [State.tailRefused_rd (State.rearmed_ok inv0.regs c) hc hq (sqConfig_inMap hc hq), if_pos rfl, bitOf, testBit_putBits,
        if_pos (by omega)]
      rfl
    · rw [State.tailRefused_queue, State.rearmed_queue, queue]
    · rw [rest, State.rearmed_mem]
    · rw [rest]
      exact cmds
  | true =>
    have next := State.scan_valid inv0.regs hc hq others rings on enabled sound line_eq rfl (by rw [queue]; exact short)
      (by rw [queue]; exact fore) (by rw [queue]; exact valid)
    rw [next, queue] at run
    have fore' : ((s0.rearmed c).queue c q).deferrable = false := by rw [State.rearmed_queue, queue]; exact fore
    have armed := State.takesTail_fore fore' n (line + 8) tail
    have off := State.OffRings.nextHead armed
    have kept := State.nextHead_lines armed
    have ctx := (s0.rearmed c).takesTail_ctx c q n (line + 8) tail c
    have taken := (s0.rearmed c).takesTail_queue c q n (line + 8) tail
    rw [State.rearmed_queue, queue] at taken
    refine ⟨_, run, ?_, ?_, nofun, fun _ => ⟨?_, ?_, ?_, fun some' => ?_, ?_⟩⟩
    · exact (congrArg Ctx.scanWanted (off.ctx c)).trans ((congrArg Ctx.scanWanted ctx).trans (s0.rearmed_scanWanted c))
    · exact (congrArg Ctx.nextScan (off.ctx c)).trans ((congrArg Ctx.nextScan ctx).trans started)
    · rw [off.seenTail, taken]
      rfl
    · rw [off.head, taken]
      rfl
    · refine (kept.named c q).trans ?_
      rw [taken, QueueSt.named, QueueSt.taking, QueueSt.fetching, List.map_append, List.map_map]
      rfl
    · rw [State.hostRead_of_mem off.mem, State.takesTail_head (s := s0.rearmed c) c q _ tail inv0.mem some', State.rearmed_queue, queue]
    · rw [kept.cmds, State.takesTail_cmds]
      exact cmds

end Sys2Proof.Machine
end

section
/-!
SUPPORT. The bytes of a completion record (Table 10-4, R261).
-/
set_option Elab.async false
namespace Sys2Proof.Machine

/-! ### Fields of a record (R5) -/

theorem leValue_leBytes (n v : Nat) : leValue (leBytes n v) = v % 2 ^ (8 * n) := by
  induction n generalizing v with
  | zero => simp [leBytes, leValue, Nat.mod_one]
  | succ n ih =>
    have bytes : (2 : Nat) ^ (8 * (n + 1)) = 256 * 2 ^ (8 * n) := by
      rw [Nat.mul_add, Nat.pow_add]
      exact Nat.mul_comm _ _
    rw [leBytes, leValue, ih, bytes, Nat.mod_mul]
    rfl

theorem sliceB_between {front mid back : List Byte} {off n : Nat} (hf : front.length = off) (hm : mid.length = n) :
    sliceB (front ++ (mid ++ back)) off n = mid := by
  subst hf hm
  rw [sliceB_inside (by simp), List.drop_left, List.take_left]

/-- A completion record by its fields, in the order of Table 10-4. -/
def recordOf (status flags q aux seq : Nat) (detail rest : List Byte) : List Byte :=
  leBytes 2 status ++ (leBytes 1 flags ++ (leBytes 1 q ++ (leBytes 4 aux ++ (leBytes 8 seq ++ (padTo 16 detail ++ rest)))))

section
variable (status flags q aux seq : Nat) (detail rest : List Byte)

theorem recordOf_length : (recordOf status flags q aux seq detail rest).length = 32 + rest.length := by
  simp only [recordOf, List.length_append, leBytes_length, padTo_length]
  omega

theorem recordOf_status : u16 (recordOf status flags q aux seq detail rest) 0 = status % 2 ^ 16 :=
  (congrArg leValue (sliceB_between (front := []) rfl (leBytes_length 2 status))).trans (leValue_leBytes 2 status)

theorem recordOf_flags : u8 (recordOf status flags q aux seq detail rest) 2 = flags % 2 ^ 8 :=
  (congrArg leValue (sliceB_between (leBytes_length 2 status) (leBytes_length 1 flags))).trans (leValue_leBytes 1 flags)

theorem recordOf_queue : u8 (recordOf status flags q aux seq detail rest) 3 = q % 2 ^ 8 :=
  (congrArg leValue (sliceB_between (front := leBytes 2 status ++ leBytes 1 flags) (by simp) (leBytes_length 1 q))).trans
    (leValue_leBytes 1 q)

theorem recordOf_position : u64 (recordOf status flags q aux seq detail rest) 8 = seq % 2 ^ 64 :=
  (congrArg leValue (sliceB_between (front := leBytes 2 status ++ leBytes 1 flags ++ leBytes 1 q ++ leBytes 4 aux) (by simp)
    (leBytes_length 8 seq))).trans (leValue_leBytes 8 seq)

theorem recordOf_detail : sliceB (recordOf status flags q aux seq detail rest) 16 16 = padTo 16 detail :=
  sliceB_between (front := leBytes 2 status ++ leBytes 1 flags ++ leBytes 1 q ++ leBytes 4 aux ++ leBytes 8 seq) (by simp)
    (padTo_length 16 detail)

end

/-! ### PHASE (R260) -/

/-- A record as it is written at position `w` of a ring of `2 ^ log2` entries. -/
def phased (rec' : List Byte) (w log2 : Nat) : List Byte :=
  rec'.take 2 ++ [BitVec.ofNat 8 (u8 rec' 2 + b2n (w / 2 ^ log2 % 2 == 0))] ++ rec'.drop 3

theorem phased_recordOf {flags : Nat} (small : flags < 2 ^ 8) (status q aux seq w log2 : Nat) (detail rest : List Byte) :
    phased (recordOf status flags q aux seq detail rest) w log2
      = recordOf status (flags + b2n (w / 2 ^ log2 % 2 == 0)) q aux seq detail rest := by
  rw [phased, recordOf_flags, Nat.mod_eq_of_lt small]
  rfl

/-- An even byte with PHASE beside it. -/
theorem testBit_phase {flags : Nat} (even : flags % 2 = 0) (b : Bool) : ((flags + b2n b) % 2 ^ 8).testBit 0 = b := by
  rw [Nat.testBit_mod_two_pow, Nat.testBit_zero]
  cases b
  · simp [b2n, even]
  · simp [b2n, Nat.add_mod, even]

/-! ### The record of a completing command -/

theorem Cmd.recordFlags_small (c : Cmd) (locked : Bool) : c.recordFlags locked < 2 ^ 8 := by
  have one (b : Bool) : b2n b ≤ 1 := by cases b <;> decide
  have a := one c.nonfinite
  have b := one c.saturated
  have d := one c.promoted
  have e := one (c.unlocked || !locked)
  unfold Cmd.recordFlags
  omega

theorem Cmd.recordFlags_even (c : Cmd) (locked : Bool) : c.recordFlags locked % 2 = 0 := by
  unfold Cmd.recordFlags
  omega

/-- Two readings of a latch, as bytes 32 to 127 hold them. -/
def latchPairs (a z : Latches) : List Nat :=
  [a.cycles, z.cycles, a.pips, z.pips, a.rd, z.rd, a.wr, z.wr, a.mac, z.mac, a.stall, z.stall]

theorem State.completionRecord_eq (s : State) (c : Cmd) (e : Ending) : ∃ rest : List Byte, rest.length = 96 ∧
    s.completionRecord c e = recordOf e.status (c.recordFlags s.time.locked) c.id.q e.aux c.id.seq e.detail rest := by
  refine ⟨((latchPairs c.start (s.latches c.id)).map (leBytes 8)).flatten, by simp [latchPairs], ?_⟩
  rw [State.completionRecord, recordOf, List.append_assoc]
  rfl

end Sys2Proof.Machine
end

section
/-!
SUPPORT. What a completing command applies and gives back before its record leaves (R214, R226, R255, R261).
-/
set_option Elab.async false
namespace Sys2Proof.Machine

/-! ### Signals (R219, R226, R255) -/

/-- An addition changes dies and registers. -/
theorem State.addCounter_rest (s : State) (die p n : Nat) :
    ∃ dies regs, s.addCounter die p n = { s with dies := dies, regs := regs } := by
  have raw : ∃ dies regs, s.addRaw die p n = { s with dies := dies, regs := regs } := by
    unfold State.addRaw
    refine State.pmc_induct (P := fun t => ∃ dies regs, t = { s with dies := dies, regs := regs }) ?_ ⟨_, _, rfl⟩ _ _ _ _
    rintro _ i - ⟨dies, regs, rfl⟩
    exact ⟨_, _, rfl⟩
  obtain ⟨dies, regs, eq⟩ := raw
  rw [State.addCounter, eq]
  exact ⟨_, _, rfl⟩

theorem State.OffRings.addCounter (s : State) (die p n : Nat) : s.OffRings (s.addCounter die p n) := by
  have raw : s.OffRings (s.addRaw die p n) := by
    unfold State.addRaw
    have updated (f : Die → Die) : s.OffRings (s.updDie die f) := .of_eq rfl rfl rfl rfl
    refine State.pmc_induct (P := s.OffRings) (fun t i hi h => h.trans ?_) (updated _) _ _ _ _
    exact .bump t 1 fun _ hq ring => ringReg_ne_pmcReg hq ring die hi
  refine raw.trans ?_
  exact .of_eq rfl rfl rfl rfl

/-- An addition to a counter that is not mapped changes none. -/
theorem State.addCounter_unmapped {s : State} {die p : Nat} (none' : (s.die die).counters.get? p = none) (n d : Nat) :
    ((s.addCounter die p n).die d).counters = (s.die d).counters := by
  have idle : (s.updDie die id).SameButRegs (s.addRaw die p n) := by
    unfold State.addRaw
    refine Eq.subst (motive := fun t => State.SameButRegs t _) (State.updDie_congr ?_) (State.pmc_sameButRegs ..)
    simp only [none']
    rfl
  obtain ⟨regs, eq⟩ := idle
  have raw (k : Nat) : (s.addRaw die p n).die k = s.die k := by
    rw [eq]
    by_cases same : k = die
    · rw [same]
      exact State.updDie_same s die id
    · exact State.updDie_other s id same
  rw [State.addCounter]
  by_cases same : d = die
  · rw [same, State.updDie_same, raw]
    rfl
  · rw [State.updDie_other _ _ same, raw]

/-- What an addition of `n` to counter `p` of `die` makes of each counter. -/
theorem State.addCounter_counters (s : State) (die p n d q : Nat) : ((s.addCounter die p n).die d).counters.get? q =
    ((s.die d).counters.get? q).map fun k => if d = die ∧ q = p then { k with value := (k.value + n) % 2 ^ 32 } else k := by
  cases mapped : (s.die die).counters.get? p with
  | none =>
    rw [State.addCounter_unmapped mapped]
    by_cases same : d = die ∧ q = p
    · rw [same.1, same.2, mapped]
      rfl
    · simp only [same, if_false, Option.map_id']
  | some k =>
    obtain ⟨added, others, -⟩ := State.addCounter_mapped mapped n
    by_cases same : d = die ∧ q = p
    · rw [same.1, same.2, added, mapped, Option.map_some, if_pos ⟨rfl, rfl⟩]
    · rw [others d q (by omega)]
      simp only [same, if_false, Option.map_id']

/-- An update of a completion, applied at once or counted as stale. -/
theorem State.signal_rest (s : State) (c ref add : Nat) : ∃ dies regs, s.signal c ref add = { s with dies := dies, regs := regs } := by
  unfold State.signal
  split
  · exact ⟨_, _, rfl⟩
  · split
    · exact ⟨_, _, rfl⟩
    · exact State.addCounter_rest ..

theorem State.OffRings.signal (s : State) (c ref add : Nat) : s.OffRings (s.signal c ref add) := by
  unfold State.signal
  split
  · exact .refl s
  · split
    · exact .staleDrop s c
    · exact .addCounter s _ _ add

theorem State.signal_counters (s : State) (c ref add d p : Nat) : ((s.signal c ref add).die d).counters.get? p =
    ((s.die d).counters.get? p).map fun k =>
      if refEnabled ref = true ∧ s.counterOf c ref = some (d, p) then { k with value := (k.value + add) % 2 ^ 32 } else k := by
  unfold State.signal
  cases on : refEnabled ref with
  | false => simp
  | true =>
    cases names : s.counterOf c ref with
    | none =>
      show ((s.staleDrop c).die d).counters.get? p = _
      rw [show (s.staleDrop c).die d = s.die d from rfl]
      simp
    | some at' =>
      obtain ⟨die, phys⟩ := at'
      show ((s.addCounter die phys add).die d).counters.get? p = _
      rw [s.addCounter_counters]
      exact congrArg (fun f => Option.map f _) (funext fun k => if_congr (by simp [eq_comm]) rfl rfl)

/-! ### What a completion has applied, and what it gives back -/

/-- The state of a command that ends with `e`, once a success has been applied. -/
def State.signalled (s : State) (c : Cmd) (e : Ending) : State := if e.success then (s.holdDone c).signals c else s

/-- A command that has left the commands in flight. -/
def State.released (s : State) (c : Cmd) (ok : Bool) : State := ({ s with cmds := s.cmds.filter fun x => x.id != c.id }).giveBack c ok

theorem State.completeWith_eq (s : State) (c : Cmd) (e : Ending) : s.completeWith c e =
    let t := s.signalled c e
    let u := t.released c e.success
    (((u.postRecord c.id.ctx (u.queue c.id.ctx c.id.q).cq (t.completionRecord c e) (hInterrupt c.desc)).testHolder c e).settleQueue
      c.id.ctx c.id.q).nextHead c.id.ctx c.id.q := rfl

theorem State.holdDone_rest (s : State) (c : Cmd) : ∃ held, s.holdDone c = { s with held := held } := by
  unfold State.holdDone
  split
  · split
    · exact ⟨_, rfl⟩
    · exact ⟨_, rfl⟩
  · exact ⟨_, rfl⟩

section
variable (s : State) {c : Cmd} (e : Ending) (noCopy : isOpcode 0x41 c.desc = false)
include noCopy

theorem State.signals_eq : s.signals c = s.signal c.id.ctx (hSignalRef c.desc) (hSignalAdd c.desc) := by
  unfold State.signals
  rw [noCopy]
  rfl

theorem State.signalled_rest : ∃ held dies regs, s.signalled c e = { s with held := held, dies := dies, regs := regs } := by
  unfold State.signalled
  split
  · obtain ⟨held, eq⟩ := s.holdDone_rest c
    rw [eq, State.signals_eq _ noCopy]
    obtain ⟨dies, regs, signalled⟩ := State.signal_rest { s with held := held } c.id.ctx (hSignalRef c.desc) (hSignalAdd c.desc)
    exact ⟨held, dies, regs, signalled⟩
  · exact ⟨_, _, _, rfl⟩

theorem State.OffRings.signalled : s.OffRings (s.signalled c e) := by
  unfold State.signalled
  split
  · obtain ⟨held, eq⟩ := s.holdDone_rest c
    rw [eq, State.signals_eq _ noCopy]
    refine State.OffRings.trans (t := { s with held := held }) ?_ (State.OffRings.signal ..)
    exact .of_eq rfl rfl rfl rfl
  · exact .refl s

theorem State.signalled_counters {d p : Nat} {k : Counter} (mapped : (s.die d).counters.get? p = some k) :
    (((s.signalled c e).die d).counters.get? p).map (·.value) =
      some (if e.success = true ∧ refEnabled (hSignalRef c.desc) = true ∧ s.counterOf c.id.ctx (hSignalRef c.desc) = some (d, p)
        then (k.value + hSignalAdd c.desc) % 2 ^ 32 else k.value) := by
  unfold State.signalled
  cases won : e.success with
  | false => simp [mapped]
  | true =>
    obtain ⟨held, eq⟩ := s.holdDone_rest c
    have mapped' : ((({ s with held := held } : State).die d).counters.get? p) = some k := mapped
    rw [if_pos rfl, eq, State.signals_eq _ noCopy, State.signal_counters, mapped']
    simp only [Option.map_some, true_and]
    rw [apply_ite Counter.value]
    rfl

end

theorem Tab.getD_mapVals {α : Type} (t : Tab α) (f : Nat → α → α) (i : Nat) (d : α) :
    (t.mapVals f).getD i d = (t.get? i).elim d (f i) := by
  rw [Tab.getD, Tab.get?_mapVals]
  cases t.get? i <;> rfl

/-- What holds of a state holds of it when a command has given back what it took: tensors of its context are freed, and commands
that its queues have fetched are marked. -/
theorem State.giveBack_induct {P : State → Prop} {c : Cmd} {ok : Bool}
    (free : ∀ t i f, P t → P (t.updSlot c.id.ctx i f)) (mark : ∀ t h gen, P t → P (t.failWaiting c.id.ctx h gen)) {s : State} (h : P s) :
    P (s.giveBack c ok) := by
  have used : P (c.buffers.foldl (fun t u => t.useCount c.id.ctx false u) s) :=
    List.foldlRecOn c.buffers _ h fun t ht u _ => free t _ _ ht
  unfold State.giveBack
  dsimp only
  refine ite_cases (List.foldlRecOn _ _ (ite_cases used (List.foldlRecOn _ _ used fun t ht k _ => mark t _ _ ht)) fun t ht k _ => ?_) used
  exact free t _ _ ht

theorem State.OffRings.failWaiting (s : State) (c h gen : Nat) : s.OffRings (s.failWaiting c h gen) := by
  refine State.OffRings.updCtx s c (fun _ => rfl) fun x q => ?_
  dsimp only
  rw [Tab.getD_mapVals, Tab.getD]
  cases x.queues.get? q with
  | none => rfl
  | some y =>
    simp only [Option.elim_some, Option.getD_some]
    split
    · rfl
    · exact ite_cases (P := fun z : QueueSt => z.bare = y.bare) rfl rfl

theorem State.OffRings.released (s : State) (c : Cmd) (ok : Bool) : s.OffRings (s.released c ok) :=
  State.giveBack_induct (P := s.OffRings) (fun t i f h => h.trans (.updSlot t _ i f)) (fun t k gen h => h.trans (.failWaiting t _ k gen))
    (.of_eq rfl rfl rfl rfl)

theorem State.released_rest (s : State) (c : Cmd) (ok : Bool) :
    ∃ ctxs, s.released c ok = { s with cmds := s.cmds.filter fun x => x.id != c.id, ctxs := ctxs } := by
  refine State.giveBack_induct (P := fun t => ∃ ctxs, t = { s with cmds := s.cmds.filter fun x => x.id != c.id, ctxs := ctxs }) ?_ ?_
    ⟨_, rfl⟩
  · rintro _ i f ⟨ctxs, rfl⟩
    exact ⟨_, rfl⟩
  · rintro _ k gen ⟨ctxs, rfl⟩
    exact ⟨_, rfl⟩

end Sys2Proof.Machine
end

section
/-!
SUPPORT. COMMAND_COMPLETE, CQ_RECORD_RELEASE and HOLDOFF_EXPIRY (R255, R260, R261, R262, R266, R267).
-/
set_option Elab.async false
namespace Sys2Proof.Machine

/-! ### A record leaves for its ring (R260, R262) -/

/-- Records have been put in a ring, or kept for it, and vectors requested: nothing else has changed. -/
theorem State.putRecord_eq (s : State) (c r : Nat) (rec' : List Byte) (vector : Bool) : s.putRecord c r rec' vector =
    let x := s.cq c r
    let t := (s.hostWrite (x.base + x.w % 2 ^ x.log2 * 128) (phased rec' x.w x.log2)).updCq c r fun y => { y with w := y.w + 1 }
    if (vector || x.intAll) = true then t.requestVector c r else t := rfl

section
variable {s : State} {c r : Nat} {rec' : List Byte} {vector : Bool}

theorem State.putRecord_rest : ∃ ctxs pcie, s.putRecord c r rec' vector =
    { s with ctxs := ctxs, pcie := pcie,
             mem := (s.hostWrite ((s.cq c r).base + (s.cq c r).w % 2 ^ (s.cq c r).log2 * 128)
               (phased rec' (s.cq c r).w (s.cq c r).log2)).mem } := by
  rw [State.putRecord_eq]
  dsimp only
  split
  · obtain ⟨ctxs, pcie, eq⟩ := ((s.hostWrite ((s.cq c r).base + (s.cq c r).w % 2 ^ (s.cq c r).log2 * 128)
      (phased rec' (s.cq c r).w (s.cq c r).log2)).updCq c r fun y => { y with w := y.w + 1 }).requestVector_rest c r
    rw [eq]
    exact ⟨_, _, rfl⟩
  · exact ⟨_, _, rfl⟩

theorem State.putRecord_hostRead (ok : s.memOk) (length : rec'.length = 128) :
    (s.putRecord c r rec' vector).hostRead ((s.cq c r).base + (s.cq c r).w % 2 ^ (s.cq c r).log2 * 128) 128
      = phased rec' (s.cq c r).w (s.cq c r).log2 := by
  obtain ⟨ctxs, pcie, eq⟩ := State.putRecord_rest (s := s) (c := c) (r := r) (rec' := rec') (vector := vector)
  rw [eq]
  exact State.hostRead_hostWrite ok (by simp [phased, length])

theorem State.putRecord_cq : ((s.putRecord c r rec' vector).cq c r).bare = ({ s.cq c r with w := (s.cq c r).w + 1 }).bare := by
  have put (t : State) (a : Nat) (bs : List Byte) : ((t.hostWrite a bs).updCq c r fun y => { y with w := y.w + 1 }).cq c r
      = { t.cq c r with w := (t.cq c r).w + 1 } := State.cq_updCq_same ..
  rw [State.putRecord_eq]
  dsimp only
  split
  · rw [State.requestVector_cq, put]
  · rw [put]

theorem State.putRecord_queue (c' q : Nat) : (s.putRecord c r rec' vector).queue c' q = s.queue c' q := by
  rw [State.putRecord_eq]
  dsimp only
  split
  · rw [State.requestVector_queue, State.queue_updCq]
    rfl
  · rw [State.queue_updCq]
    rfl

/-- A record kept until its ring has room, with the stall counted. -/
def State.recordKept (s : State) (c r : Nat) (rec' : List Byte) (vector : Bool) : State :=
  (s.updCq c r fun x => { x with waiting := x.waiting ++ [(rec', vector)] }).bump (regCtx .cqFullStalls c) 1

theorem State.postRecord_put (linkUp : s.pcie.linkUp = true) (on : bitOf (s.rd (cqConfig c r)) 0 = true)
    (empty : (s.cq c r).waiting = []) (room : (s.cq c r).room = true) : s.postRecord c r rec' vector = s.putRecord c r rec' vector := by
  unfold State.postRecord
  dsimp only
  rw [linkUp, if_neg (by simp), if_pos (by simp [on, empty, room])]

theorem State.postRecord_keep (linkUp : s.pcie.linkUp = true) (full : (s.cq c r).room = false) :
    s.postRecord c r rec' vector = s.recordKept c r rec' vector := by
  unfold State.postRecord
  dsimp only
  rw [linkUp, if_neg (by simp), if_neg (by simp [full])]
  rfl

theorem State.recordKept_cq :
    (s.recordKept c r rec' vector).cq c r = { s.cq c r with waiting := (s.cq c r).waiting ++ [(rec', vector)] } :=
  State.cq_updCq_same s c r fun x => { x with waiting := x.waiting ++ [(rec', vector)] }

theorem State.recordKept_queue (c' q : Nat) : (s.recordKept c r rec' vector).queue c' q = s.queue c' q :=
  State.queue_updCq s c r (fun x => { x with waiting := x.waiting ++ [(rec', vector)] }) c' q

theorem State.recordKept_ok (ok : s.regsOk) : (s.recordKept c r rec' vector).regsOk := State.bump_regsOk _ _ ok

theorem State.recordKept_stalls (ok : s.regsOk) : (s.recordKept c r rec' vector).rd (regCtx .cqFullStalls c)
    = (s.rd (regCtx .cqFullStalls c) + 1) % 2 ^ 64 := by
  have ok' : (s.updCq c r fun x => { x with waiting := x.waiting ++ [(rec', vector)] }).regsOk := ok
  rw [State.recordKept, State.rd_bump_same _ _ ok', State.rd_updCq]

end

/-! ### What follows a record: the queue is settled, and its next command comes to its head (R254, R267) -/

theorem State.settleQueue_cq (s : State) (c q c' r : Nat) : (s.settleQueue c q).cq c' r = s.cq c' r := by
  refine State.settleQueue_cases (P := fun t => t.cq c' r = s.cq c' r) rfl ?_
  rw [State.settled, State.cq_updQueue, State.cq_setFld]

theorem State.settleQueue_deferrable (s : State) (c q : Nat) : ((s.settleQueue c q).queue c q).deferrable = (s.queue c q).deferrable := by
  refine State.settleQueue_cases (P := fun t => (t.queue c q).deferrable = (s.queue c q).deferrable) rfl ?_
  rw [State.settled_queue]

theorem State.settleQueue_rd {s : State} (ok : s.regsOk) {c q : Nat} (hc : c < 64) (hq : q < 64) {r : Reg} (hr : r.inMap)
    (other : r ≠ sqConfig c q) : (s.settleQueue c q).rd r = s.rd r := by
  refine State.settleQueue_cases (P := fun t => t.rd r = s.rd r) rfl ?_
  rw [State.settled, State.rd_updQueue, State.setFld, State.rd_wr (sqConfig_inMap hc hq) hr _ ok, if_neg other]

theorem State.updQueue_ok {s : State} (ok : s.regsOk) (c q : Nat) (f : QueueSt → QueueSt) : (s.updQueue c q f).regsOk := ok

theorem State.settleQueue_ok {s : State} (ok : s.regsOk) (c q : Nat) : (s.settleQueue c q).regsOk := by
  refine State.settleQueue_cases (P := State.regsOk) ok ?_
  rw [State.settled, State.setFld]
  exact State.updQueue_ok (State.wr_regsOk _ _ ok) ..

/-- The counters of every die are as they were when the next command of a queue is at its head. -/
theorem State.nextHead_counters {s : State} {c q : Nat} (fore : (s.queue c q).deferrable = false) (d : Nat) :
    ((s.nextHead c q).die d).counters = (s.die d).counters := by
  refine State.nextHead_induct (P := fun t => (t.die d).counters = (s.die d).counters) (fun _ _ _ h => h) (fun t die w h => ?_)
    (fun _ h => h) fore rfl
  have kept (f : Die → Die) (hf : ∀ x, (f x).counters = x.counters) : ((t.updDie die f).die d).counters = (s.die d).counters := by
    rw [← h]
    by_cases same : d = die
    · rw [same, State.updDie_same, hf]
    · rw [State.updDie_other _ _ same]
  unfold State.registerWatch
  split
  · exact kept _ fun _ => rfl
  · exact kept (fun x => { x with waiting := x.waiting ++ [⟨w, none⟩] }) fun _ => rfl

/-- From `s` to `t` no record has left or come, no command has ended, and no counter has changed. -/
structure State.RecordsKept (s t : State) : Prop where
  mem : t.mem = s.mem
  cq : ∀ c r, t.cq c r = s.cq c r
  cmds : t.cmds = s.cmds
  counters : ∀ d, (t.die d).counters = (s.die d).counters
  stalls : s.regsOk → ∀ c, c < 64 → t.rd (regCtx .cqFullStalls c) = s.rd (regCtx .cqFullStalls c)

theorem State.settle_nextHead {s : State} {c q : Nat} (hc : c < 64) (hq : q < 64) (fore : (s.queue c q).deferrable = false) :
    s.RecordsKept ((s.settleQueue c q).nextHead c q) := by
  have fore' := (s.settleQueue_deferrable c q).trans fore
  have off := State.OffRings.nextHead fore'
  obtain ⟨regs, ctxs, eq⟩ := s.settleQueue_rest c q
  exact {
    mem := off.mem.trans (by rw [eq])
    cq c' r := (off.cq c' r).trans (s.settleQueue_cq c q c' r)
    cmds := (State.nextHead_lines fore').cmds.trans (by rw [eq])
    counters d := (State.nextHead_counters fore' d).trans (by rw [eq]; rfl)
    stalls ok k hk := by
      have inMap : (regCtx .cqFullStalls k).inMap := ⟨hk, Nat.one_pos⟩
      rw [off.rd (State.settleQueue_ok ok c q) _ inMap (by simp [regCtx, ringRegs]),
        State.settleQueue_rd ok hc hq inMap (by simp [regCtx, sqConfig])] }

/-! ### COMMAND_COMPLETE (R255, R261) -/

theorem State.postRecord_rest (s : State) (c r : Nat) (rec' : List Byte) (vector : Bool) :
    ∃ ctxs pcie mem regs, s.postRecord c r rec' vector = { s with ctxs := ctxs, pcie := pcie, mem := mem, regs := regs } := by
  unfold State.postRecord
  dsimp only
  split
  · exact ⟨_, _, _, _, rfl⟩
  · split
    · obtain ⟨ctxs, pcie, eq⟩ := State.putRecord_rest (s := s) (c := c) (r := r) (rec' := rec') (vector := vector)
      exact ⟨_, _, _, _, eq⟩
    · exact ⟨_, _, _, _, rfl⟩

theorem State.postRecord_queue (s : State) (c r : Nat) (rec' : List Byte) (vector : Bool) (c' q : Nat) :
    (s.postRecord c r rec' vector).queue c' q = s.queue c' q := by
  unfold State.postRecord
  dsimp only
  exact ite_cases (P := fun t : State => t.queue c' q = s.queue c' q) rfl
    (ite_cases (P := fun t : State => t.queue c' q = s.queue c' q) (State.putRecord_queue c' q) (State.recordKept_queue c' q))

/-- The state at which the record of a command leaves for its ring. -/
def State.delivered (s : State) (c : Cmd) (e : Ending) : State := (s.signalled c e).released c e.success

theorem exec_commandComplete {s : State} {c : Cmd} {e : Ending} (found : s.cmd? c.id = some c) (ended : c.ending = some e)
    (first : s.abortedBefore c e = false) (unwatched : c.watches = []) (sound : e.status ≠ Status.eccUncorrectable.code) :
    exec (.commandComplete c.id) s = .next ((((s.delivered c e).postRecord c.id.ctx ((s.delivered c e).queue c.id.ctx c.id.q).cq
      ((s.signalled c e).completionRecord c e) (hInterrupt c.desc)).settleQueue c.id.ctx c.id.q).nextHead c.id.ctx c.id.q) := by
  have whole : s.complete c e = s.completeWith c e := by
    unfold State.complete
    rw [first, if_neg Bool.false_ne_true, State.watchRecords, unwatched]
    exact ite_cases (P := fun t : State => t = s.completeWith c e) rfl rfl
  have untested (t : State) : t.testHolder c e = t := if_pos (.inl sound)
  show execCommandComplete c.id s = _
  rw [execCommandComplete, found]
  dsimp only
  rw [ended]
  dsimp only
  rw [whole, State.completeWith_eq]
  dsimp only
  rw [untested]
  rfl

section
variable (s : State) {c : Cmd} (e : Ending) (noCopy : isOpcode 0x41 c.desc = false)
include noCopy

theorem State.OffRings.delivered : s.OffRings (s.delivered c e) :=
  (State.OffRings.signalled s e noCopy).trans (.released _ c e.success)

theorem State.delivered_cmds : (s.delivered c e).cmds = s.cmds.filter fun x => x.id != c.id := by
  obtain ⟨ctxs, freed⟩ := (s.signalled c e).released_rest c e.success
  obtain ⟨held, dies, regs, eq⟩ := s.signalled_rest e noCopy
  rw [State.delivered, freed, eq]

omit noCopy in
theorem State.delivered_die (d : Nat) : (s.delivered c e).die d = (s.signalled c e).die d := by
  obtain ⟨ctxs, freed⟩ := (s.signalled c e).released_rest c e.success
  rw [State.delivered, freed]
  rfl

end

theorem State.cmd?_removed {s : State} {cmds : List Cmd} {i : CmdId} (removed : s.cmds = cmds.filter fun x => x.id != i) :
    s.cmd? i = none := by
  rw [State.cmd?, removed, List.find?_eq_none]
  intro x hx
  simpa using (List.mem_filter.1 hx).2

/-! ### CQ_RECORD_RELEASE (R262) and HOLDOFF_EXPIRY (R266) -/

section
variable {s : State} {c r : Nat}

/-- A ring for which the records `rest` still wait. -/
def State.leaves (s : State) (c r : Nat) (rest : List (List Byte × Bool)) : State := s.updCq c r fun y => { y with waiting := rest }

theorem State.leaves_cq (rest : List (List Byte × Bool)) : (s.leaves c r rest).cq c r = { s.cq c r with waiting := rest } :=
  State.cq_updCq_same s c r fun y => { y with waiting := rest }

theorem exec_cqRecordRelease_put {rec' : List Byte} {v : Bool} {rest : List (List Byte × Bool)}
    (waits : (s.cq c r).waiting = (rec', v) :: rest) (linkUp : s.pcie.linkUp = true) (on : bitOf (s.rd (cqConfig c r)) 0 = true)
    (room : (s.cq c r).room = true) : exec (.cqRecordRelease c r) s =
      .next (((s.leaves c r rest).putRecord c r rec' v).settleQueue c (u8 rec' 3)) := by
  show execCqRecordRelease c r s = _
  unfold execCqRecordRelease
  simp only [waits, linkUp, on, room]
  rfl

theorem exec_cqRecordRelease_full (linkUp : s.pcie.linkUp = true) (full : (s.cq c r).room = false) :
    exec (.cqRecordRelease c r) s = .next s := by
  show execCqRecordRelease c r s = _
  unfold execCqRecordRelease
  dsimp only
  split
  · rfl
  · simp [linkUp, full]

/-- A ring whose HOLDOFF interval has ended. -/
def State.intervalEnded (s : State) (c r : Nat) : State := s.updCq c r fun y => { y with holdoffRunning := false, merged := false }

theorem State.intervalEnded_cq : (s.intervalEnded c r).cq c r = { s.cq c r with holdoffRunning := false, merged := false } :=
  State.cq_updCq_same s c r fun y => { y with holdoffRunning := false, merged := false }

theorem exec_holdoffExpiry (running : (s.cq c r).holdoffRunning = true) : exec (.holdoffExpiry c r) s =
    .next (if (s.cq c r).merged = true then (s.intervalEnded c r).requestVector c r else s.intervalEnded c r) := by
  show execHoldoffExpiry c r s = _
  unfold execHoldoffExpiry
  dsimp only
  rw [running, if_pos rfl]
  rfl

/-- A request where no interval runs: the message leaves, and starts one. -/
theorem State.requestVector_sent (free : (s.cq c r).holdoffRunning = false) (unmasked : (s.vector (c * 32 + r)).2.2 = false)
    (linkUp : s.pcie.linkUp = true) (interval : (s.cq c r).holdoff ≠ 0) : s.requestVector c r =
      ({ s with pcie := { s.pcie with sent := (c * 32 + r, (s.vector (c * 32 + r)).1, (s.vector (c * 32 + r)).2.1) :: s.pcie.sent } } :
        State).updCq c r fun x => { x with holdoffRunning := true } := by
  unfold State.requestVector State.sendVector
  dsimp only
  rw [free, if_neg Bool.false_ne_true, unmasked, if_neg Bool.false_ne_true, linkUp, if_pos rfl, State.startHoldoff, if_neg]
  rintro (none' | runs)
  · exact interval none'
  · exact Bool.false_ne_true (free.symm.trans runs)

end

/-- Settles O19: a record is judged by the ring as it stood, since what the command applies and gives back leaves the rings alone, and
what follows the record leaves it in its place. -/
theorem recordsAreWrittenWhenThereIsRoom : Obligations.RecordsAreWrittenWhenThereIsRoom := by
  refine ⟨?complete, fun s c r inv => ⟨fun rec' rest waits linkUp on room quiet => ?release, fun full linkUp => ?full,
    fun running merged linkUp unmasked interval => ?sent, fun running alone => ?quiet⟩⟩
  case complete =>
    intro s id c e inv found ended first unwatched sound noCopy fore linkUp status hctx hq hseq hring ring x size on empty
    obtain rfl : c.id = id := by simpa using List.find?_some found
    have run := exec_commandComplete found ended first unwatched sound
    have off := State.OffRings.delivered s e noCopy
    have cq : (s.delivered c e).cq c.id.ctx ring = x := off.cq c.id.ctx ring
    have linkUp' : (s.delivered c e).pcie.linkUp = true := by rw [off.pcie]; exact linkUp
    have on' : bitOf ((s.delivered c e).rd (cqConfig c.id.ctx ring)) 0 = true := by
      rw [off.rd inv.regs _ (cqConfig_inMap hctx hring) (by simp [cqConfig, ringRegs])]
      exact on
    have ok : (s.delivered c e).regsOk := off.ok inv.regs
    have stalls : (s.delivered c e).rd (regCtx .cqFullStalls c.id.ctx) = s.rd (regCtx .cqFullStalls c.id.ctx) :=
      off.rd inv.regs _ ⟨hctx, Nat.one_pos⟩ (by simp [regCtx, ringRegs])
    have memOk : (s.delivered c e).memOk := by rw [State.memOk, off.mem]; exact inv.mem
    obtain ⟨rest, length, record⟩ := (s.signalled c e).completionRecord_eq c e
    have small := c.recordFlags_small (s.signalled c e).time.locked
    have even := c.recordFlags_even (s.signalled c e).time.locked
    generalize c.recordFlags (s.signalled c e).time.locked = flags at record small even
    generalize (s.signalled c e).completionRecord c e = rec' at run record
    rw [off.ring] at run
    obtain ⟨ctxs, pcie, mem, regs, posted⟩ := (s.delivered c e).postRecord_rest c.id.ctx ring rec' (hInterrupt c.desc)
    have kept := State.settle_nextHead (s := (s.delivered c e).postRecord c.id.ctx ring rec' (hInterrupt c.desc)) hctx hq
      (by rw [State.postRecord_queue, off.deferrable]; exact fore)
    generalize post : (s.delivered c e).postRecord c.id.ctx ring rec' (hInterrupt c.desc) = p at posted kept
    rw [show (s.delivered c e).postRecord c.id.ctx (s.queue c.id.ctx c.id.q).cq rec' (hInterrupt c.desc) = p from post] at run
    generalize (p.settleQueue c.id.ctx c.id.q).nextHead c.id.ctx c.id.q = t at run kept
    refine ⟨t, run, ?gone, fun room => ?put, fun full => ?keep, fun d p k mapped => ?counters⟩
    case gone => exact State.cmd?_removed (kept.cmds.trans (by rw [posted]; exact State.delivered_cmds s e noCopy))
    case put =>
      intro r
      rw [State.postRecord_put linkUp' on' (by rw [cq]; exact empty) (by rw [cq]; exact room)] at post
      have put := State.putRecord_cq (s := s.delivered c e) (c := c.id.ctx) (r := ring) (rec' := rec') (vector := hInterrupt c.desc)
      have written := State.putRecord_hostRead (c := c.id.ctx) (r := ring) (vector := hInterrupt c.desc) memOk
        (show rec'.length = 128 by rw [record, recordOf_length, length])
      rw [post, ← kept.cq, cq] at put
      rw [post, ← State.hostRead_of_mem kept.mem, cq, record, phased_recordOf small] at written
      have bytes : r = _ := written
      refine ⟨?_, ?_, ?_, ?_, ?_, (congrArg CqSt.w put :), (congrArg CqSt.waiting put).trans empty⟩
      · rw [bytes, recordOf_status, Nat.mod_eq_of_lt status]
      · rw [bytes, recordOf_flags]
        exact testBit_phase even _
      · rw [bytes, recordOf_queue, Nat.mod_eq_of_lt (by omega)]
      · rw [bytes, recordOf_position, Nat.mod_eq_of_lt hseq]
      · rw [bytes, recordOf_detail]
    case keep =>
      rw [State.postRecord_keep linkUp' (by rw [cq]; exact full)] at post
      have waits := State.recordKept_cq (s := s.delivered c e) (c := c.id.ctx) (r := ring) (rec' := rec') (vector := hInterrupt c.desc)
      rw [post, ← kept.cq, cq, empty] at waits
      refine ⟨⟨rec', hInterrupt c.desc, ?_, ?_, ?_⟩, ?_, ?_, fun failed => ?_⟩
      · rw [waits]
        rfl
      · rw [record, recordOf_status, Nat.mod_eq_of_lt status]
      · rw [record, recordOf_position, Nat.mod_eq_of_lt hseq]
      · rw [waits]
      · rw [kept.mem, ← post]
        exact congrArg MemSt.host off.mem
      · rw [← post] at kept
        rw [kept.stalls (State.recordKept_ok ok) _ hctx, State.recordKept_stalls ok, stalls]
    case counters =>
      rw [kept.counters, posted, ← State.signalled_counters s e noCopy mapped, ← State.delivered_die]
      rfl
  case release =>
    have run := exec_cqRecordRelease_put waits linkUp on room
    have placed := State.putRecord_cq (s := s.leaves c r rest) (c := c) (r := r) (rec' := rec') (vector := false)
    obtain ⟨ctxs, pcie, put⟩ := State.putRecord_rest (s := s.leaves c r rest) (c := c) (r := r) (rec' := rec') (vector := false)
    obtain ⟨regs, ctxs', settled⟩ := ((s.leaves c r rest).putRecord c r rec' false).settleQueue_rest c (u8 rec' 3)
    rw [State.leaves_cq] at placed
    refine ⟨_, run, ?_, ?_, ?_⟩
    · rw [State.settleQueue_cq]
      exact (congrArg CqSt.waiting placed :)
    · rw [State.settleQueue_cq]
      exact (congrArg CqSt.w placed :)
    · rw [settled, put, State.leaves_cq]
      rfl
  case full => exact exec_cqRecordRelease_full linkUp full
  case sent =>
    have run := exec_holdoffExpiry running
    have ended := s.intervalEnded_cq (c := c) (r := r)
    have sends := State.requestVector_sent (s := s.intervalEnded c r) (by rw [ended]) unmasked linkUp (by rw [ended]; exact interval)
    rw [merged, if_pos rfl, sends] at run
    refine ⟨_, run, rfl, ?_⟩
    refine (State.cq_updCq_same ..).trans ?_
    exact congrArg (fun x : CqSt => { x with holdoffRunning := true }) ended
  case quiet =>
    rw [exec_holdoffExpiry running, alone]
    rfl

end Sys2Proof.Machine
end

section
/-!
SUPPORT. Slots of the map, and the owners of their banks: what a write of an owner register leaves alone of cells and slots (R80, R273,
R275).
-/
set_option Elab.async false
namespace Sys2Proof.Machine

/-! ### A slot after an update of a slot -/

theorem State.lslot_updLslot (s : State) (l : Nat) (f : LSlot → LSlot) (k : Nat) :
    (s.updLslot l f).lslot k = if k = l then f (s.lslot l) else s.lslot k := by
  unfold State.lslot State.updLslot
  by_cases die : k / 96 = l / 96
  · rw [die, State.updDie_same]
    split
    · rename_i same
      rw [same]
      exact Tab.getD_upd_same ..
    · exact Tab.getD_upd_other _ _ _ (by omega)
  · rw [State.updDie_other _ _ die, if_neg (by omega)]

@[simp] theorem State.updCell_lslot (s : State) (c : Nat) (f : Cell → Cell) (l : Nat) : (s.updCell c f).lslot l = s.lslot l := rfl

/-! ### Owner registers -/

/-- A cell, its handovers apart, and a slot, its recorded owners apart. -/
def Cell.bare (x : Cell) : Cell := { x with handovers := [] }
def LSlot.bare (x : LSlot) : LSlot := { x with owners := [] }

/-- From `s` to `t` banks have changed owners, or are on the way to new ones, and nothing else has changed. -/
structure State.OwnersMoved (s t : State) : Prop where
  rest : ∃ regs cells dies, t = { s with regs := regs, cells := cells, dies := dies }
  cell : ∀ k, (t.cell k).bare = (s.cell k).bare
  slot : ∀ l, (t.lslot l).bare = (s.lslot l).bare

namespace State.OwnersMoved

theorem refl (s : State) : s.OwnersMoved s := ⟨⟨_, _, _, rfl⟩, fun _ => rfl, fun _ => rfl⟩

theorem trans {s t u : State} (h : s.OwnersMoved t) (k : t.OwnersMoved u) : s.OwnersMoved u := by
  refine ⟨?_, fun c => (k.cell c).trans (h.cell c), fun l => (k.slot l).trans (h.slot l)⟩
  obtain ⟨_, _, _, rfl⟩ := h.rest
  obtain ⟨_, _, _, rfl⟩ := k.rest
  exact ⟨_, _, _, rfl⟩

theorem wr (s : State) (r : Reg) (v : Nat) : s.OwnersMoved (s.wr r v) := ⟨⟨_, _, _, rfl⟩, fun _ => rfl, fun _ => rfl⟩

theorem updCell (s : State) (c : Nat) {f : Cell → Cell} (hf : ∀ x, (f x).bare = x.bare) : s.OwnersMoved (s.updCell c f) := by
  refine ⟨⟨_, _, _, rfl⟩, fun k => ?_, fun _ => rfl⟩
  by_cases same : k = c
  · rw [same, State.updCell_same, hf]
  · rw [State.updCell_other _ _ same]

theorem updLslot (s : State) (l : Nat) {f : LSlot → LSlot} (hf : ∀ x, (f x).bare = x.bare) : s.OwnersMoved (s.updLslot l f) := by
  refine ⟨⟨_, _, _, rfl⟩, fun _ => rfl, fun k => ?_⟩
  rw [State.lslot_updLslot]
  split
  · rename_i same
    rw [same, hf]
  · rfl

theorem ownerWrite (s : State) (cell bank v : Nat) : s.OwnersMoved (s.ownerWrite cell bank v) := by
  unfold State.ownerWrite
  extract_lets r w x t
  have written : s.OwnersMoved t := (wr s r w).trans (updCell _ cell fun _ => rfl)
  clear_value t
  split
  · exact written.trans (updLslot _ _ fun _ => rfl)
  · exact written

theorem foldl {α : Type} {f : State → α → State} (hf : ∀ (t : State) (a : α), t.OwnersMoved (f t a)) (l : List α) (s : State) :
    s.OwnersMoved (l.foldl f s) :=
  List.foldlRecOn l f (motive := s.OwnersMoved) (.refl s) fun t h a _ => h.trans (hf t a)

variable {s t : State} (h : s.OwnersMoved t)
include h

theorem cmds : t.cmds = s.cmds := by obtain ⟨_, _, _, rfl⟩ := h.rest; rfl
theorem groups : t.groups = s.groups := by obtain ⟨_, _, _, rfl⟩ := h.rest; rfl
theorem phys (l : Nat) : (t.lslot l).phys = (s.lslot l).phys := (congrArg LSlot.phys (h.slot l) :)
theorem cellOf (l : Nat) : t.cellOf l = s.cellOf l := by rw [State.cellOf, State.cellOf, h.phys]

end State.OwnersMoved

theorem State.rd_of_regs_eq {s t : State} (e : t.regs = s.regs) (r : Reg) : t.rd r = s.rd r := by rw [State.rd, State.rd, e]

theorem ownerReg_dflt (cell bank : Nat) : (ownerReg cell bank).dflt = 0 := by
  unfold ownerReg
  split <;> rfl

/-- The stored words after one write of an owner register, by offset. -/
theorem State.ownerWrite_regs (s : State) (cell bank : Nat) {v : Nat} (some' : v % 128 ≠ 0) :
    (s.ownerWrite cell bank v).regs = s.regs.set (ownerReg cell bank).addr (v % 128) := by
  have written : (s.wr (ownerReg cell bank) (v % 128)).regs = s.regs.set (ownerReg cell bank).addr (v % 128) := by
    simp [State.wr, ownerReg_dflt, some']
  unfold State.ownerWrite
  dsimp only
  split
  · exact written
  · exact written

/-! ### A command that waits for handovers -/

/-- A command that goes on once the handovers it started are over (R275, R286). -/
def Cmd.awaiting (waits : List Nat) (x : Cmd) : Cmd := { x with begun := true, awaits := waits }

theorem State.cmd?_awaiting {s : State} {id : CmdId} {c : Cmd} (found : s.cmd? id = some c) (waits : List Nat) :
    (s.updCmd id (Cmd.awaiting waits)).cmd? id = some (c.awaiting waits) := by
  rw [State.cmd?_updCmd s id (Cmd.awaiting waits) fun _ => rfl, found]
  rfl

end Sys2Proof.Machine
end

section
/-!
SUPPORT. Cell groups: the banks that a forming group gives its context, and the handovers it awaits (R275–R277).
-/
set_option Elab.async false
namespace Sys2Proof.Machine

/-! ### The banks of a forming group (R275) -/

/-- Banks of slots, as (slot, bank), given to a context one after another. -/
def State.banksGiven (s : State) (ctx : Nat) (ws : List (Nat × Nat)) : State := ws.foldl (fun t w => t.giveBank ctx w.1 w.2) s

/-- The handovers that this starts, as cell × 32 + bank: those of slots that a cell fills. -/
def State.handoversOf (s : State) (ws : List (Nat × Nat)) : List Nat :=
  ws.filterMap fun w => (s.cellOf w.1).map fun p => p * 32 + w.2

theorem State.giveBank_moves (s : State) (ctx l bank : Nat) : s.OwnersMoved (s.giveBank ctx l bank) := by
  unfold State.giveBank
  split
  · exact .ownerWrite s _ bank (64 + ctx)
  · exact .updLslot _ _ fun _ => rfl

theorem State.banksGiven_moves (s : State) (ctx : Nat) (ws : List (Nat × Nat)) : s.OwnersMoved (s.banksGiven ctx ws) := by
  unfold State.banksGiven
  refine State.OwnersMoved.foldl (fun t w => ?_) ws s
  exact t.giveBank_moves ctx w.1 w.2

section
variable {ctx : Nat} (small : ctx < 64)
include small

/-- Every owner register that a forming group writes takes the same word, so none it has written takes another. -/
theorem State.giveBank_regs (s : State) (l bank a : Nat) (given : s.regs.get? a = some (64 + ctx)) :
    (s.giveBank ctx l bank).regs.get? a = some (64 + ctx) := by
  unfold State.giveBank
  split
  · rw [State.ownerWrite_regs _ _ _ (by omega), Nat.mod_eq_of_lt (by omega)]
    rename_i p _
    by_cases same : a = (ownerReg p bank).addr
    · rw [same, Tab.get?_set_same]
    · rw [Tab.get?_set_other _ _ same, given]
  · exact given

theorem State.giveBank_filled {s : State} {l p : Nat} (filled : s.cellOf l = some p) (bank : Nat) :
    (s.giveBank ctx l bank).regs.get? (ownerReg p bank).addr = some (64 + ctx) := by
  unfold State.giveBank
  rw [filled]
  dsimp only
  rw [State.ownerWrite_regs _ _ _ (by omega), Nat.mod_eq_of_lt (by omega), Tab.get?_set_same]

theorem State.banksGiven_rd {ws : List (Nat × Nat)} {l b p : Nat} (named : (l, b) ∈ ws) {s : State} (filled : s.cellOf l = some p) :
    (s.banksGiven ctx ws).rd (ownerReg p b) = 64 + ctx := by
  suffices stored : (s.banksGiven ctx ws).regs.get? (ownerReg p b).addr = some (64 + ctx) by
    rw [State.rd, Tab.getD, stored]
    rfl
  induction ws generalizing s with
  | nil => cases named
  | cons w ws ih =>
    obtain rfl | later := List.mem_cons.1 named
    · exact List.foldlRecOn ws _ (motive := fun t : State => t.regs.get? _ = some (64 + ctx))
        (State.giveBank_filled small filled b) fun t given x _ => t.giveBank_regs small x.1 x.2 _ given
    · exact ih later (((s.giveBank_moves ctx w.1 w.2).cellOf l).trans filled)

end

/-! ### The rows of GROUP_FORM and DISSOLVE -/

/-- A group formed over its members, its banks given; its command is still to end or to wait. -/
def State.groupFormed (s : State) (d : List Byte) (ms : List Nat) : State :=
  { s.banksGiven (gfCtx d) (s.groupWrites d ms) with
    groups := s.groups.set (gfGroup d) ⟨gfCtx d, gfDefer d, ms, bitsOf (u32 d 36) 23 0, bitsOf (u32 d 36) 31 24, []⟩ }

theorem State.groupFormed_rest (s : State) (d : List Byte) (ms : List Nat) :
    ∃ regs cells dies groups, s.groupFormed d ms = { s with regs := regs, cells := cells, dies := dies, groups := groups } := by
  obtain ⟨regs, cells, dies, given⟩ := (s.banksGiven_moves (gfCtx d) (s.groupWrites d ms)).rest
  exact ⟨regs, cells, dies, _, by rw [State.groupFormed, given]⟩

theorem State.mem_groupWrites {s : State} {d : List Byte} {ms : List Nat} {l b : Nat} (member : l ∈ ms) (masked : b ∈ gfBanks d)
    (other : s.slotOwner l b ≠ some (gfCtx d)) : (l, b) ∈ s.groupWrites d ms := by
  simpa [State.groupWrites, member, masked] using other

theorem gfCtx_lt (d : List Byte) : gfCtx d < 64 := Nat.mod_lt _ (by decide)

/-- A bank that its member's cell did not hold for the group's context is recorded for it. -/
theorem State.groupFormed_rd {s : State} {d : List Byte} {ms : List Nat} {l b p : Nat} (member : l ∈ ms) (masked : b ∈ gfBanks d)
    (filled : s.cellOf l = some p) (other : s.slotOwner l b ≠ some (gfCtx d)) :
    (s.groupFormed d ms).rd (ownerReg p b) = 64 + gfCtx d := by
  have given := State.banksGiven_rd (gfCtx_lt d) (State.mem_groupWrites member masked other) filled
  unfold State.groupFormed
  exact given

section
variable {s : State} {c : Cmd}

/-- A forming group whose banks are given ends, or waits for the handovers this started (R275). -/
theorem State.formNow_eq (s : State) (c : Cmd) (ms : List Nat) : s.formNow c ms =
    if (s.handoversOf (s.groupWrites c.desc ms)).isEmpty then (s.groupFormed c.desc ms).finish c.id Status.ok.plain
    else (s.groupFormed c.desc ms).updCmd c.id (Cmd.awaiting (s.handoversOf (s.groupWrites c.desc ms))) := by
  have given := s.banksGiven_moves (gfCtx c.desc) (s.groupWrites c.desc ms)
  unfold State.formNow
  extract_lets d ws t now u waits
  have formed : u = s.groupFormed d ms := by
    show { t with groups := t.groups.set (gfGroup d) now } = _
    rw [show t.groups = s.groups from given.groups]
    rfl
  have awaited : waits = s.handoversOf ws := List.filterMap_congr fun w _ => by rw [show u.cellOf w.1 = s.cellOf w.1 from given.cellOf w.1]
  rw [awaited, formed]
  rfl

theorem State.formNow_ends {ms : List Nat} (none' : s.handoversOf (s.groupWrites c.desc ms) = []) :
    s.formNow c ms = (s.groupFormed c.desc ms).finish c.id Status.ok.plain := by
  rw [State.formNow_eq, none']
  rfl

theorem State.formNow_waits {ms : List Nat} (some' : s.handoversOf (s.groupWrites c.desc ms) ≠ []) :
    s.formNow c ms = (s.groupFormed c.desc ms).updCmd c.id (Cmd.awaiting (s.handoversOf (s.groupWrites c.desc ms))) := by
  rw [State.formNow_eq, if_neg fun e => some' (List.isEmpty_iff.1 e)]

theorem State.onCmd_of_found {p : List Byte → Bool} (found : s.cmd? c.id = some c) (live : c.ending = none) (ok : p c.desc = true)
    (f : Cmd → State) : s.onCmd c.id p f = f c := by
  simp [State.onCmd, found, live, ok]

variable (h : s.Runs c.id 0xA0 c)
include h

theorem exec_groupForm_of_runs (forms : gfDissolve c.desc = false) : exec (.groupForm c.id) s = .next (s.groupForm c) :=
  congrArg Host.Outcome.next (State.onCmd_of_found h.found h.live (by simp [isOpcode, h.opcode, forms]) _)

theorem exec_dissolve_of_runs (dissolves : gfDissolve c.desc = true) : exec (.dissolve c.id) s = .next (s.dissolve c) :=
  congrArg Host.Outcome.next (State.onCmd_of_found h.found h.live (by simp [isOpcode, h.opcode, dissolves]) _)

end

section
variable {s : State} {c : Cmd}

/-- Either row waits for the issued commands of its group (R277). -/
theorem State.groupForm_busy (busy : ((s.groups.get? (gfGroup c.desc)).isSome && s.groupBusy (gfGroup c.desc) c.id) = true) :
    s.groupForm c = s := by
  rw [Bool.and_eq_true] at busy
  simp [State.groupForm, busy]

theorem State.dissolve_busy (busy : ((s.groups.get? (gfGroup c.desc)).isSome && s.groupBusy (gfGroup c.desc) c.id) = true) :
    s.dissolve c = s := by
  rw [Bool.and_eq_true] at busy
  simp [State.dissolve, busy]

variable (free : ((s.groups.get? (gfGroup c.desc)).isSome && s.groupBusy (gfGroup c.desc) c.id) = false)
include free

theorem State.groupForm_refused (fresh : c.begun = false) {v : Viol} (breach : worst (s.formViols c.desc (c.records.getD 1 [])) = some v) :
    s.groupForm c = s.finish c.id v.ending := by
  rw [Bool.and_eq_false_iff] at free
  unfold State.groupForm
  dsimp only
  rw [if_neg (by grind), breach]

theorem State.groupForm_sound (fresh : c.begun = false) (sound : s.formViols c.desc (c.records.getD 1 []) = []) :
    s.groupForm c = s.formNow c (bitmapMembers (c.records.getD 1 [])) := by
  rw [Bool.and_eq_false_iff] at free
  unfold State.groupForm
  dsimp only
  rw [if_neg (by grind), worst_eq_none.2 sound]

theorem State.dissolve_free : s.dissolve c =
    if !(s.dissolveViols c.desc).isEmpty then s.finish c.id (formatViol 32).ending
    else ({ s with groups := s.groups.erase (gfGroup c.desc) } : State).finish c.id Status.ok.plain := by
  rw [Bool.and_eq_false_iff] at free
  unfold State.dissolve
  dsimp only
  rw [if_neg (by grind)]

end

/-- Settles O32: a form or a dissolution waits for its group, is refused on the grounds of R276, or changes the group; a form gives the
banks it names and waits for the handovers this starts. -/
theorem groupsFormAndDissolve : Obligations.GroupsFormAndDissolve := by
  intro s id c _ h d g ms ws waits busy
  obtain rfl := h.id_eq
  refine ⟨fun _ held => ?waits, fun v forms fresh free breach => ?refused, fun forms fresh free sound => ?forms,
    fun dissolves free named => ?named, fun dissolves free unnamed rising => ?dissolves⟩
  case waits =>
    cases dissolves : gfDissolve c.desc
    · simpa [d, dissolves, State.groupForm_busy held] using exec_groupForm_of_runs h dissolves
    · simpa [d, dissolves, State.dissolve_busy held] using exec_dissolve_of_runs h dissolves
  case refused =>
    rw [exec_groupForm_of_runs h forms, State.groupForm_refused free fresh breach]
  case forms =>
    obtain ⟨regs, cells, dies, groups, rest⟩ := s.groupFormed_rest c.desc ms
    have live : (s.groupFormed c.desc ms).cmd? c.id = some c :=
      (State.cmd?_of_cmds_eq (congrArg State.cmds rest) _).trans h.found
    have defined : (s.groupFormed c.desc ms).groups.get? g = _ := Tab.get?_set_same ..
    have others (k : Nat) (ne : k ≠ g) : (s.groupFormed c.desc ms).groups.get? k = s.groups.get? k := Tab.get?_set_other _ _ ne
    have owned {t : State} (regs : t.regs = (s.groupFormed c.desc ms).regs) (l : Nat) (member : l ∈ ms) (b : Nat)
        (masked : b ∈ gfBanks d) (p : Nat) (_ : p < 832) (filled : s.cellOf l = some p) (other : s.slotOwner l b ≠ some (gfCtx d)) :
        t.rd (ownerReg p b) = 64 + gfCtx d :=
      (State.rd_of_regs_eq regs _).trans (State.groupFormed_rd member masked filled other)
    rw [exec_groupForm_of_runs h forms, State.groupForm_sound free fresh sound]
    by_cases none' : waits = []
    · refine ⟨_, congrArg _ (State.formNow_ends none'), defined, others, owned (State.finish_regs ..),
        fun _ => State.Unended.finish ⟨c, live, h.live⟩ _, fun some' => absurd none' some', ?_⟩
      rw [rest]
      rfl
    · refine ⟨_, congrArg _ (State.formNow_waits none'), defined, others, owned (State.updCmd_regs ..), fun e => absurd e none',
        fun _ => State.cmd?_awaiting live _, ?_⟩
      rw [rest]
      rfl
  case named =>
    rw [exec_dissolve_of_runs h dissolves, State.dissolve_free free, if_pos (by simpa using named)]
  case dissolves =>
    rw [exec_dissolve_of_runs h dissolves, State.dissolve_free free, if_neg (by simpa using unnamed)]
    refine ⟨_, rfl, Tab.get?_erase_same _ rising, fun k ne => Tab.get?_erase_other rising ne, ?_, rfl⟩
    exact State.Unended.finish (h.unended.sameCmds rfl) _

end Sys2Proof.Machine
end

section
/-!
SUPPORT. Fault records beside the rest of the state (R457, R458), and memory and owner registers of a cell as they are cleared (R285).
-/
set_option Elab.async false
namespace Sys2Proof.Machine

/-! ### What a fault record leaves alone -/

theorem State.faultRecord_rest (s : State) (f : FaultRec) : ∃ mem faults freeze ctxs pcie,
    s.faultRecord f = { s with mem := mem, faults := faults, freeze := freeze, ctxs := ctxs, pcie := pcie } := by
  obtain ⟨t, ring, ⟨mem, faults, freeze, rfl⟩, eq⟩ := s.faultRecord_eq f
  obtain ⟨ctxs, pcie, eq'⟩ := State.requestVector_rest _ 0 ring
  exact ⟨mem, faults, freeze, ctxs, pcie, eq.trans eq'⟩

@[simp] theorem State.faultRecord_cmds (s : State) (f : FaultRec) : (s.faultRecord f).cmds = s.cmds := by
  obtain ⟨_, _, _, _, _, eq⟩ := s.faultRecord_rest f
  rw [eq]

@[simp] theorem State.faultRecord_cells' (s : State) (f : FaultRec) : (s.faultRecord f).cells = s.cells := by
  obtain ⟨_, _, _, _, _, eq⟩ := s.faultRecord_rest f
  rw [eq]

@[simp] theorem State.faultRecord_dies (s : State) (f : FaultRec) : (s.faultRecord f).dies = s.dies := by
  obtain ⟨_, _, _, _, _, eq⟩ := s.faultRecord_rest f
  rw [eq]

/-! ### Cleared memory -/

theorem memGet_of_unlisted {m : List Host.Cell} {a : Nat} (h : ∀ c ∈ m, c.1 ≠ a) : memGet m a = unlisted := by
  induction m with
  | nil => rfl
  | cons c m ih =>
    obtain ⟨k, b⟩ := c
    rw [memGet, if_neg fun e => h _ List.mem_cons_self e.symm]
    split
    · rfl
    · exact ih fun x hx => h x (List.mem_cons_of_mem _ hx)

theorem memGet_memClear (m : List Host.Cell) {a n x : Nat} (low : a ≤ x) (high : x < a + n) : memGet (memClear m a n) x = unlisted := by
  refine memGet_of_unlisted fun c hc e => ?_
  have kept := (List.mem_filter.1 hc).2
  simp only [Bool.or_eq_true, decide_eq_true_eq] at kept
  omega

/-! ### Owner registers without an owner -/

theorem ownerReg_inMap {cell bank : Nat} (hc : cell < 832) (hb : bank < 32) : (ownerReg cell bank).inMap := by
  unfold ownerReg
  split
  · exact ⟨hc, by assumption⟩
  · exact ⟨hc, show bank - 24 < 8 by omega⟩

theorem ownerOf_eq_none {w : Nat} : ownerOf w = none ↔ w.testBit 6 = false := by
  unfold ownerOf bitOf
  cases w.testBit 6 <;> simp

/-- ASSIGNED cleared in the owner registers of banks of a cell, one after another. -/
def State.disowned (s : State) (cell : Nat) (banks : List Nat) : State := banks.foldl (fun t b => t.setFld (ownerReg cell b) 6 6 0) s

theorem State.disowned_sameButRegs (s : State) (cell : Nat) (banks : List Nat) : s.SameButRegs (s.disowned cell banks) :=
  List.foldlRecOn banks _ (motive := s.SameButRegs) (.refl s) fun t kept b _ => by
    obtain ⟨regs, rfl⟩ := kept
    exact ⟨_, rfl⟩

theorem State.testBit_clearAssigned {s : State} (ok : s.regsOk) {r q : Reg} (hr : r.inMap) (hq : q.inMap)
    (clear : q = r ∨ (s.rd q).testBit 6 = false) : ((s.setFld r 6 6 0).rd q).testBit 6 = false := by
  rw [State.setFld, State.rd_wr hr hq _ ok]
  split
  · simp [testBit_putBits]
  · rename_i ne
    exact clear.resolve_left ne

theorem State.disowned_owner {cell : Nat} (hc : cell < 832) {banks : List Nat} (inside : ∀ b ∈ banks, b < 32)
    {b : Nat} (named : b ∈ banks) {s : State} (ok : s.regsOk) : ownerOf ((s.disowned cell banks).rd (ownerReg cell b)) = none := by
  have hb := ownerReg_inMap hc (inside b named)
  rw [ownerOf_eq_none]
  induction banks generalizing s with
  | nil => cases named
  | cons k banks ih =>
    have hk := ownerReg_inMap hc (inside k List.mem_cons_self)
    have rest (x : Nat) (hx : x ∈ banks) : x < 32 := inside x (List.mem_cons_of_mem _ hx)
    have ok' : (s.setFld (ownerReg cell k) 6 6 0).regsOk := State.wr_regsOk _ _ ok
    obtain rfl | later := List.mem_cons.1 named
    · refine (List.foldlRecOn banks _ (motive := fun t : State => t.regsOk ∧ (t.rd (ownerReg cell b)).testBit 6 = false)
        ⟨ok', State.testBit_clearAssigned ok hk hb (.inl rfl)⟩ fun t ⟨sorted, clear⟩ x hx => ?_).2
      exact ⟨State.wr_regsOk _ _ sorted, State.testBit_clearAssigned sorted (ownerReg_inMap hc (rest x hx)) hb (.inr clear)⟩
    · exact ih rest later ok'

end Sys2Proof.Machine
end

section
/-!
SUPPORT. A cell that leaves its slot, the slot that is filled again or stays vacant, and the drain marker (R280, R281, R283, R286).
-/
set_option Elab.async false
namespace Sys2Proof.Machine

/-! ### Spares (R280 step 3) -/

theorem State.spare_eq (s : State) (die : Nat) : s.spare die =
    ((upTo 104).map fun k => die * 104 + k).find? fun c => (s.cell c).inPool && (s.cell c).mode != .selfTest := by
  rw [State.spare, State.pool, List.find?_filter]
  refine congrArg (List.find? · _) (funext fun c => ?_)
  rw [Bool.decide_and, Bool.decide_eq_true, Bool.decide_eq_true]

/-- The spare that a slot takes depends on the cells in the pool alone. -/
theorem State.spare_congr {s t : State} (pool : ∀ k, (t.cell k).inPool = (s.cell k).inPool)
    (mode : ∀ k, (s.cell k).inPool = true → (t.cell k).mode = (s.cell k).mode) (die : Nat) : t.spare die = s.spare die := by
  rw [State.spare_eq, State.spare_eq]
  congr 1
  funext k
  cases inPool : (s.cell k).inPool
  · simp [pool, inPool]
  · rw [pool, mode k inPool, inPool]

theorem State.spare_place {s : State} {die p : Nat} (spare : s.spare die = some p) : p / 104 = die ∧ (s.cell p).inPool = true := by
  rw [State.spare_eq] at spare
  have inPool := List.find?_some spare
  have place := List.mem_of_find?_eq_some spare
  obtain ⟨k, inside, rfl⟩ := List.mem_map.1 place
  have small : k < 104 := List.mem_range.1 inside
  exact ⟨by omega, (Bool.and_eq_true _ _ ▸ inPool).1⟩

/-! ### A fenced cell (R280 step 1) -/

theorem State.updCell_congr {s : State} {c : Nat} {f g : Cell → Cell} (h : f (s.cell c) = g (s.cell c)) :
    s.updCell c f = s.updCell c g := by
  rw [State.updCell, State.updCell, Tab.upd_congr h]

/-- A cell fenced, as step 1 of R280 leaves it. -/
def Cell.fence (x : Cell) : Cell :=
  { x with mode := .fenced, portsClosed := true, logical := none, inPool := false, placing := false, tasks := [], handovers := [],
           formerly := x.logical }

/-- A fenced cell that fills a slot leaves it draining. -/
theorem State.fenceCell_eq (s : State) (cell : Nat) : s.fenceCell cell =
    (s.cell cell).logical.elim (s.updCell cell Cell.fence) fun l =>
      (s.updCell cell Cell.fence).updLslot l fun x => { x with draining := true } := by
  have fenced : (s.updCell cell fun x => { x with mode := .fenced, portsClosed := true, logical := none, inPool := false, placing := false,
                                                  tasks := [], handovers := [], formerly := (s.cell cell).logical })
      = s.updCell cell Cell.fence := State.updCell_congr rfl
  unfold State.fenceCell
  dsimp only
  rw [fenced]
  cases (s.cell cell).logical with
  | none => rfl
  | some l => rfl

theorem State.fenceCell_cmds (s : State) (cell : Nat) : (s.fenceCell cell).cmds = s.cmds := by
  rw [State.fenceCell_eq]
  cases (s.cell cell).logical with
  | none => rfl
  | some l => rfl

theorem State.fenceCell_cell (s : State) (cell k : Nat) : (s.fenceCell cell).cell k = (s.updCell cell Cell.fence).cell k := by
  rw [State.fenceCell_eq]
  cases (s.cell cell).logical with
  | none => rfl
  | some l => rfl

theorem State.fenceCell_lslot {s : State} {cell l : Nat} (fills : (s.cell cell).logical = some l) :
    (s.fenceCell cell).lslot l = { s.lslot l with draining := true } := by
  rw [State.fenceCell_eq, fills]
  exact (State.lslot_updLslot ..).trans (if_pos rfl)

/-- Fencing a cell outside the pool leaves the spares as they were. -/
theorem State.fenceCell_spare {s : State} {cell : Nat} (outside : (s.cell cell).inPool = false) (die : Nat) :
    (s.fenceCell cell).spare die = s.spare die := by
  refine State.spare_congr (fun k => ?_) (fun k inPool => ?_) die
  · rw [State.fenceCell_cell]
    by_cases same : k = cell
    · rw [same, State.updCell_same, outside]
      rfl
    · rw [State.updCell_other _ _ same]
  · rw [State.fenceCell_cell, State.updCell_other]
    rintro rfl
    rw [outside] at inPool
    cases inPool

/-! ### Steps 2 to 4 of R280 -/

/-- The slot of a lost cell under its next incarnation, without a cell. -/
def LSlot.vacate (x : LSlot) : LSlot := { x with inc := (x.inc + 1) % 256, inService := false, phys := none }

/-- A spare that is being placed into a slot. -/
def Cell.place (l : Nat) (x : Cell) : Cell :=
  { x with logical := some l, inPool := false, placing := true, mode := .idle, portsClosed := false }

/-- Steps 3 and 4: slot `l` mapped to spare `p`, its owners copied. -/
def State.spareTaken (s : State) (l p : Nat) : State :=
  (upTo 32).foldl (fun t b => t.ownerWrite p b ((s.lslot l).owners.getD b 0))
    ((s.updLslot l fun x => { x with phys := some (p % 104) }).updCell p (Cell.place l))

theorem State.spareTaken_moves (s : State) (l p : Nat) :
    ((s.updLslot l fun x => { x with phys := some (p % 104) }).updCell p (Cell.place l)).OwnersMoved (s.spareTaken l p) :=
  .foldl (fun t _ => .ownerWrite t _ _ _) _ _

theorem State.spareTaken_cmds (s : State) (l p : Nat) : (s.spareTaken l p).cmds = s.cmds := (s.spareTaken_moves l p).cmds

theorem State.spareTaken_cell_same (s : State) (l p : Nat) : ((s.spareTaken l p).cell p).bare = ((s.cell p).place l).bare := by
  rw [(s.spareTaken_moves l p).cell, State.updCell_same]
  rfl

theorem State.spareTaken_cell_other (s : State) (l : Nat) {p k : Nat} (ne : k ≠ p) :
    ((s.spareTaken l p).cell k).bare = (s.cell k).bare := by
  rw [(s.spareTaken_moves l p).cell, State.updCell_other _ _ ne]
  rfl

theorem State.spareTaken_lslot (s : State) (l p : Nat) :
    ((s.spareTaken l p).lslot l).bare = ({ s.lslot l with phys := some (p % 104) } : LSlot).bare := by
  rw [(s.spareTaken_moves l p).slot, State.updCell_lslot, State.lslot_updLslot, if_pos rfl]

theorem State.fillSlot_none {s : State} {l : Nat} (spare : s.spare (l / 96) = none) : s.fillSlot l = (s.updLslot l LSlot.vacate, none) := by
  unfold State.fillSlot
  dsimp only
  rw [show State.spare (s.updLslot l _) (l / 96) = none from spare]
  rfl

theorem State.fillSlot_some {s : State} {l p : Nat} (spare : s.spare (l / 96) = some p) :
    s.fillSlot l = ((s.updLslot l LSlot.vacate).spareTaken l p, some p) := by
  unfold State.fillSlot
  dsimp only
  rw [show State.spare (s.updLslot l _) (l / 96) = some p from spare]
  rfl

/-! ### A cell that leaves its slot where no product is in flight -/

section
variable {s : State}

/-- A cell whose ports are closed and whose tasks are discarded (R460). -/
def Cell.quiet (x : Cell) : Cell := { x with portsClosed := true, tasks := [] }

theorem State.quiesce_idle (idle : ∀ x ∈ s.cmds, hOpcode x.desc ≠ 0x20) (cell seq : Nat) :
    s.quiesce cell seq = s.updCell cell Cell.quiet :=
  foldl_idle fun x hx => if_pos (.inl (idle x hx))

theorem State.reholdOn_idle (idle : ∀ x ∈ s.cmds, x.run.holds = []) (l die : Nat) : s.reholdOn l die = s :=
  foldl_idle fun x hx => if_pos (.inr (by rw [idle x hx]; rfl))

theorem State.loseVacant_idle (idle : ∀ x ∈ s.cmds, hOpcode x.desc ≠ 0x20) (l die seq : Nat) : s.loseVacant l die seq = s :=
  foldl_idle fun x hx => if_pos (.inl (idle x hx))

/-- Slot `l` once its cell is fenced and its next incarnation in force. -/
def State.vacated (s : State) (cell l : Nat) : State := ((s.fenceCell cell).dropHeldOn l).updLslot l LSlot.vacate

theorem State.vacated_cmds (s : State) (cell l : Nat) : (s.vacated cell l).cmds = s.cmds := s.fenceCell_cmds cell

theorem State.vacated_cell (s : State) (cell l k : Nat) : (s.vacated cell l).cell k = (s.updCell cell Cell.fence).cell k :=
  s.fenceCell_cell cell k

theorem State.vacated_lslot {cell l : Nat} (fills : (s.cell cell).logical = some l) :
    (s.vacated cell l).lslot l = ({ s.lslot l with draining := true } : LSlot).vacate := by
  rw [State.vacated, State.lslot_updLslot, if_pos rfl]
  exact congrArg LSlot.vacate (State.fenceCell_lslot fills)

variable {cell l : Nat} (fills : (s.cell cell).logical = some l) (outside : (s.cell cell).inPool = false)
  (idle : ∀ x ∈ s.cmds, hOpcode x.desc ≠ 0x20 ∧ x.run.holds = [])
include fills outside idle

theorem State.replaceCell_none (spare : s.spare (l / 96) = none) (seq : Nat) :
    s.replaceCell cell seq true = (s.vacated cell l, none) := by
  have kept : ((s.fenceCell cell).dropHeldOn l).cmds = s.cmds := s.fenceCell_cmds cell
  have none' : ((s.fenceCell cell).dropHeldOn l).spare (l / 96) = none := (State.fenceCell_spare outside _).trans spare
  unfold State.replaceCell
  rw [fills]
  dsimp only
  rw [if_pos rfl, State.reholdOn_idle (by rw [kept]; exact fun x hx => (idle x hx).2), State.fillSlot_none none']
  dsimp only
  rw [State.loseVacant_idle (by rw [State.updLslot_cmds, kept]; exact fun x hx => (idle x hx).1)]
  rfl

theorem State.replaceCell_some {p : Nat} (spare : s.spare (l / 96) = some p) (seq : Nat) :
    s.replaceCell cell seq true = ((s.vacated cell l).spareTaken l p, some p) := by
  have kept : ((s.fenceCell cell).dropHeldOn l).cmds = s.cmds := s.fenceCell_cmds cell
  have some' : ((s.fenceCell cell).dropHeldOn l).spare (l / 96) = some p := (State.fenceCell_spare outside _).trans spare
  unfold State.replaceCell
  rw [fills]
  dsimp only
  rw [if_pos rfl, State.reholdOn_idle (by rw [kept]; exact fun x hx => (idle x hx).2), State.fillSlot_some some']
  rfl

end

end Sys2Proof.Machine
end

section
/-!
SUPPORT. The rows CELL_RETURN, CELL_FENCE and DRAIN_MARKER_ARRIVAL (R283, R285, R286).
-/
set_option Elab.async false
namespace Sys2Proof.Machine

theorem bodyCell_lt {d : List Byte} {cell : Nat} (h : bodyCell d = some cell) : cell < 832 := by
  have die : bitsOf (u32 d 32) 9 7 < 8 := Nat.mod_lt _ (by decide)
  have row : bitsOf (u32 d 32) 6 4 < 8 := Nat.mod_lt _ (by decide)
  unfold bodyCell at h
  dsimp only at h
  split at h
  · cases h
    omega
  · cases h

theorem State.cell_of_cells_eq {s t : State} (e : t.cells = s.cells) (k : Nat) : t.cell k = s.cell k := by rw [State.cell, State.cell, e]

theorem State.lslot_of_dies_eq {s t : State} (e : t.dies = s.dies) (l : Nat) : t.lslot l = s.lslot l := by
  rw [State.lslot, State.lslot, State.die, State.die, e]

section
variable {s : State} {c : Cmd} {cell : Nat}

/-! ### CELL_RETURN -/

theorem exec_cellReturn_of_runs (h : s.Runs c.id 0xA1 c) (pass : Bool) : exec (.cellReturn c.id pass) s = .next (s.cellReturn c pass) :=
  congrArg Host.Outcome.next (State.onCmd_of_found h.found h.live (by simp [isOpcode, h.opcode]) _)

theorem State.cellReturn_refused (named : bodyCell c.desc = some cell) (sound : (s.cell cell).mode ≠ .fenced) (pass : Bool) :
    s.cellReturn c pass = s.finish c.id (formatViol 32).ending := by
  simp [State.cellReturn, named, sound]

section
variable (named : bodyCell c.desc = some cell) (there : (s.die (cell / 104)).inService = true) (good : (s.cell cell).fusedOut = false)
  (fenced : (s.cell cell).mode = .fenced)
include named there good fenced

theorem State.cellReturn_passes : s.cellReturn c true = (s.returnCell cell).finish c.id (okAux 0) := by
  simp [State.cellReturn, named, there, good, fenced]

theorem State.cellReturn_fails : s.cellReturn c false = s.finish c.id (okAux 1) := by
  simp [State.cellReturn, named, there, good, fenced]

end

/-- A cell of the pool, as a CELL_RETURN leaves it. -/
def Cell.return (x : Cell) : Cell := { x with mode := .idle, inPool := true, portsClosed := false, handovers := [] }

theorem State.returnCell_eq (s : State) (cell : Nat) :
    s.returnCell cell = ((s.scrub (cellKey cell 0) 0x380000).disowned cell (upTo 32)).updCell cell Cell.return := rfl

theorem State.returnCell_rest (s : State) (cell : Nat) :
    ∃ regs cells mem, s.returnCell cell = { s with regs := regs, cells := cells, mem := mem }
      ∧ cells = s.cells.upd cell Cell.init Cell.return
      ∧ mem.cells = memClear s.mem.cells (cellKey cell 0) 0x380000 := by
  obtain ⟨regs, disowned⟩ := (s.scrub (cellKey cell 0) 0x380000).disowned_sameButRegs cell (upTo 32)
  rw [State.returnCell_eq, disowned]
  exact ⟨_, _, _, rfl, rfl, rfl⟩

theorem State.returnCell_owner (ok : s.regsOk) (hc : cell < 832) {b : Nat} (hb : b < 32) :
    ownerOf ((s.returnCell cell).rd (ownerReg cell b)) = none := by
  have regs : (s.returnCell cell).regs = ((s.scrub (cellKey cell 0) 0x380000).disowned cell (upTo 32)).regs := by
    rw [State.returnCell_eq, State.updCell_regs]
  rw [State.rd_of_regs_eq regs]
  exact State.disowned_owner hc (fun _ => List.mem_range.1) (List.mem_range.2 hb) ok

/-! ### CELL_FENCE -/

theorem exec_cellFence_of_runs (h : s.Runs c.id 0xA2 c) : exec (.cellFence c.id) s = .next (s.cellFence c) :=
  congrArg Host.Outcome.next (State.onCmd_of_found h.found h.live (by simp [isOpcode, h.opcode]) _)

/-- After the substitution the record of the fence is written, and the command ends or waits for the spare (R286). -/
theorem State.fenceFilled_eq {id : CmdId} {l : Nat} (settled : (s.lslot l).draining = false) : s.fenceFilled id cell l =
    let r := (s.quiesce cell s.faults.seq).replaceCell cell s.faults.seq true
    ((r.1.endTest (cellUnit cell)).faultRecord
      ⟨.unit, 3, cellUnit cell, some (l, (r.1.lslot l).inc), whereOf (s.cellWork cell)⟩).fenceWait id r.2 := by
  unfold State.fenceFilled
  rw [if_neg (by simp [settled])]
  rfl

/-- A slot that has a spare again keeps the command waiting for the spare's handovers. -/
theorem State.fenceWait_some (s : State) (id : CmdId) (p : Nat) :
    s.fenceWait id (some p) = s.updCmd id (Cmd.awaiting ((upTo 32).map fun b => p * 32 + b)) := by
  rw [State.fenceWait]
  rfl

theorem State.quiet_spare (s : State) (cell die : Nat) : (s.updCell cell Cell.quiet).spare die = s.spare die := by
  have same (k : Nat) : ((s.updCell cell Cell.quiet).cell k).inPool = (s.cell k).inPool
      ∧ ((s.updCell cell Cell.quiet).cell k).mode = (s.cell k).mode := by
    by_cases here : k = cell
    · rw [here, State.updCell_same]
      exact ⟨rfl, rfl⟩
    · rw [State.updCell_other _ _ here]
      exact ⟨rfl, rfl⟩
  exact State.spare_congr (fun k => (same k).1) (fun k _ => (same k).2) die

section
variable {l : Nat} (settled : (s.lslot l).draining = false) (fills : (s.cell cell).logical = some l)
  (outside : (s.cell cell).inPool = false) (idle : ∀ x ∈ s.cmds, hOpcode x.desc ≠ 0x20 ∧ x.run.holds = [])
include settled fills outside idle

/-- No spare: the command ends, its slot vacant (R281). -/
theorem State.fenceFilled_none (spare : s.spare (l / 96) = none) (id : CmdId) :
    ∃ t : State, s.fenceFilled id cell l = t.finish id (okAux 1) ∧ t.cells = ((s.updCell cell Cell.quiet).vacated cell l).cells
      ∧ t.dies = ((s.updCell cell Cell.quiet).vacated cell l).dies ∧ t.cmds = s.cmds := by
  have none' : (s.updCell cell Cell.quiet).spare (l / 96) = none := (s.quiet_spare ..).trans spare
  rw [State.fenceFilled_eq settled, State.quiesce_idle fun x hx => (idle x hx).1,
    State.replaceCell_none (s := s.updCell cell Cell.quiet) (by rw [State.updCell_same]; exact fills)
      (by rw [State.updCell_same]; exact outside) idle none']
  exact ⟨_, rfl, State.faultRecord_cells' .., State.faultRecord_dies .., (State.faultRecord_cmds ..).trans (State.vacated_cmds _ cell l)⟩

/-- A spare: the command waits for its handovers (R280 step 4). -/
theorem State.fenceFilled_some {p : Nat} (spare : s.spare (l / 96) = some p) (id : CmdId) :
    ∃ t : State, s.fenceFilled id cell l = t.updCmd id (Cmd.awaiting ((upTo 32).map fun b => p * 32 + b))
      ∧ t.cells = (((s.updCell cell Cell.quiet).vacated cell l).spareTaken l p).cells
      ∧ t.dies = (((s.updCell cell Cell.quiet).vacated cell l).spareTaken l p).dies ∧ t.cmds = s.cmds := by
  have some' : (s.updCell cell Cell.quiet).spare (l / 96) = some p := (s.quiet_spare ..).trans spare
  have replaced := State.replaceCell_some (s := s.updCell cell Cell.quiet) (by rw [State.updCell_same]; exact fills)
    (by rw [State.updCell_same]; exact outside) idle some' s.faults.seq
  have kept := (State.spareTaken_cmds ((s.updCell cell Cell.quiet).vacated cell l) l p).trans (State.vacated_cmds _ cell l)
  generalize ((s.updCell cell Cell.quiet).vacated cell l).spareTaken l p = u at replaced kept ⊢
  rw [State.fenceFilled_eq settled, State.quiesce_idle fun x hx => (idle x hx).1, replaced]
  exact ⟨_, State.fenceWait_some .., State.faultRecord_cells' .., State.faultRecord_dies .., (State.faultRecord_cmds ..).trans kept⟩

end

section
variable (byCell : bitOf (u32 c.desc 32) 10 = false) (fresh : c.begun = false) (named : bodyCell c.desc = some cell)
  (there : (s.die (cell / 104)).inService = true) (good : (s.cell cell).fusedOut = false) (sound : (s.cell cell).mode ≠ .fenced)
  (still : (s.cell cell).placing = false)
include byCell fresh named there good sound still

theorem State.cellFence_pooled (pooled : (s.cell cell).inPool = true) :
    s.cellFence c = ((s.endTest (cellUnit cell)).fenceCell cell).finish c.id (okAux 0) := by
  simp [State.cellFence, State.endTest, byCell, fresh, named, there, good, sound, still, pooled]

theorem State.cellFence_filled (outside : (s.cell cell).inPool = false) {l : Nat} (fills : (s.cell cell).logical = some l) :
    s.cellFence c = s.fenceFilled c.id cell l := by
  simp [State.cellFence, byCell, fresh, named, there, good, sound, still, outside, fills]

end

end

/-! ### DRAIN_MARKER_ARRIVAL -/

/-- The slot that a fenced cell filled is drained (R283). -/
def State.drained (s : State) (cell l : Nat) : State :=
  (s.updLslot l fun x => { x with draining := false }).updCell cell fun x => { x with formerly := none }

theorem State.rebuildTile_dies (s : State) (c : Cmd) (g : Geo) (k die : Nat) : (s.rebuildTile c g k die).dies = s.dies := by
  unfold State.rebuildTile State.reoffer
  dsimp only
  split <;> rfl

theorem State.rebuildTile_cells (s : State) (c : Cmd) (g : Geo) (k die : Nat) : (s.rebuildTile c g k die).cells
    = s.cells.mapVals fun _ x => { x with tasks := x.tasks.filter fun t => !(t.id == c.id && t.task / g.b.segs == k) } := by
  unfold State.rebuildTile State.reoffer
  dsimp only
  split <;> rfl

theorem State.rebuildTile_formerly {s : State} {cell : Nat} (gone : (s.cell cell).formerly = none) (c : Cmd) (g : Geo) (k die : Nat) :
    ((s.rebuildTile c g k die).cell cell).formerly = none := by
  rw [State.cell, State.rebuildTile_cells, Tab.getD_mapVals]
  rw [State.cell, Tab.getD] at gone
  cases found : s.cells.get? cell with
  | none => rfl
  | some x => simpa [found] using gone

/-- What the tiles that waited for the marker do keeps a property that rebuilding a tile and marking one keep. -/
theorem State.drainMarker_induct {P : State → Prop} {s : State} {cell l : Nat} (formerly : (s.cell cell).formerly = some l)
    (rebuild : ∀ t c g k, P t → P (t.rebuildTile c g k (cell / 104))) (mark : ∀ t id k f, P t → P (t.updTile id k f))
    (h : P (s.drained cell l)) : P (s.drainMarker cell) := by
  unfold State.drainMarker
  rw [formerly]
  dsimp only
  refine List.foldlRecOn _ _ h fun t ht c _ => ite_cases ht ?_
  split
  · exact ht
  · refine List.foldlRecOn _ _ ht fun u hu e _ => ite_cases hu (ite_cases (rebuild u c _ e.1 hu) (mark u _ _ _ hu))

theorem State.drainMarker_idle {s : State} {cell l : Nat} (formerly : (s.cell cell).formerly = some l)
    (idle : ∀ x ∈ s.cmds, hOpcode x.desc ≠ 0x20) : s.drainMarker cell = s.drained cell l := by
  unfold State.drainMarker
  rw [formerly]
  exact foldl_idle fun x hx => if_pos (.inl (idle x hx))

/-- Settles O33: a fenced cell comes back to the pool, a pooled one leaves it, a cell that fills a slot gives it to the
lowest spare, and the marker ends the draining. -/
theorem cellsReturnAndAreFenced : Obligations.CellsReturnAndAreFenced := by
  intro s id c cell inv
  refine ⟨fun h named there good fenced => ?returns, fun h named sound pass => ?unfenced,
    fun h byCell fresh named there good sound still => ⟨fun pooled => ?pooled, fun l outside fills _ settled idle => ?filled⟩,
    fun l formerly => ?drained⟩
  case returns =>
    obtain rfl := h.id_eq
    have passes := (exec_cellReturn_of_runs h true).trans (congrArg _ (State.cellReturn_passes named there good fenced))
    have fails := (exec_cellReturn_of_runs h false).trans (congrArg _ (State.cellReturn_fails named there good fenced))
    obtain ⟨regs, cells, mem, rest, cells', mem'⟩ := s.returnCell_rest cell
    have ended : ((s.returnCell cell).finish c.id (okAux 0)).EndedAs c.id (okAux 0) :=
      State.Unended.finish (h.unended.sameCmds (by rw [rest])) _
    have cell' (k : Nat) : ((s.returnCell cell).finish c.id (okAux 0)).cell k = (s.updCell cell Cell.return).cell k :=
      State.cell_of_cells_eq (by rw [State.finish_cells, rest, cells']; rfl) k
    refine ⟨fails, _, passes, ended, (cell' cell).trans (State.updCell_same ..),
      fun k ne => (cell' k).trans (State.updCell_other _ _ ne), fun b hb => ?_, fun o ho => ?_, by rw [rest]; rfl⟩
    · rw [State.rd_of_regs_eq (State.finish_regs ..)]
      exact State.returnCell_owner inv.regs (bodyCell_lt named) hb
    · rw [State.finish_mem, rest, mem']
      exact memGet_memClear _ (by unfold cellKey; omega) (by unfold cellKey; omega)
  case unfenced =>
    obtain rfl := h.id_eq
    rw [exec_cellReturn_of_runs h, State.cellReturn_refused named sound]
  case pooled =>
    obtain rfl := h.id_eq
    have run := (exec_cellFence_of_runs h).trans (congrArg _ (State.cellFence_pooled byCell fresh named there good sound still pooled))
    have cell' (k : Nat) : (((s.endTest (cellUnit cell)).fenceCell cell).finish c.id (okAux 0)).cell k
        = (s.updCell cell Cell.fence).cell k :=
      (State.cell_of_cells_eq (State.finish_cells ..) k).trans
        (((s.endTest (cellUnit cell)).fenceCell_cell cell k).trans (State.cell_of_cells_eq rfl k))
    refine ⟨_, run, State.Unended.finish (h.unended.sameCmds (by rw [State.fenceCell_cmds]; rfl)) _, ?_, ?_, fun k ne => ?_⟩
    · rw [cell', State.updCell_same]
      rfl
    · rw [cell', State.updCell_same]
      rfl
    · rw [cell', State.updCell_other _ _ ne]
  case filled =>
    obtain rfl := h.id_eq
    have run := (exec_cellFence_of_runs h).trans (congrArg _
      (State.cellFence_filled byCell fresh named there good sound still outside fills))
    have slot : ((s.updCell cell Cell.quiet).vacated cell l).lslot l = ({ s.lslot l with draining := true } : LSlot).vacate :=
      State.vacated_lslot (by rw [State.updCell_same]; exact fills)
    have fenced : ((s.updCell cell Cell.quiet).vacated cell l).cell cell = (s.cell cell).quiet.fence := by
      rw [State.vacated_cell, State.updCell_same, State.updCell_same]
    cases spare : s.spare (l / 96) with
    | none =>
      obtain ⟨t, eq, cells, dies, cmds⟩ := State.fenceFilled_none settled fills outside idle spare c.id
      rw [eq] at run
      have slot' : (t.finish c.id (okAux 1)).lslot l = _ := (State.lslot_of_dies_eq dies l).trans slot
      have fenced' : (t.finish c.id (okAux 1)).cell cell = _ := (State.cell_of_cells_eq cells cell).trans fenced
      refine ⟨_, run, congrArg Cell.mode fenced', congrArg Cell.logical fenced', congrArg LSlot.inc slot', congrArg LSlot.draining slot',
        congrArg LSlot.inService slot', fun _ => ⟨congrArg LSlot.phys slot', State.Unended.finish (h.unended.sameCmds cmds) _⟩, nofun⟩
    | some p =>
      obtain ⟨t, eq, cells, dies, cmds⟩ := State.fenceFilled_some settled fills outside idle spare c.id
      rw [eq] at run
      have live : t.cmd? c.id = some c := (State.cmd?_of_cmds_eq cmds _).trans h.found
      have apart : cell ≠ p := fun e => by simp [e, (State.spare_place spare).2] at outside
      have slot' := (congrArg LSlot.bare (State.lslot_of_dies_eq dies l)).trans (State.spareTaken_lslot ..)
      rw [slot] at slot'
      have fenced' := (congrArg Cell.bare (State.cell_of_cells_eq cells cell)).trans (State.spareTaken_cell_other _ l apart)
      rw [fenced] at fenced'
      have placed := (congrArg Cell.bare (State.cell_of_cells_eq cells p)).trans (State.spareTaken_cell_same ..)
      refine ⟨_, run, congrArg Cell.mode fenced', congrArg Cell.logical fenced', congrArg LSlot.inc slot', congrArg LSlot.draining slot',
        congrArg LSlot.inService slot', nofun, ?_⟩
      rintro _ ⟨⟩ -
      exact ⟨congrArg LSlot.phys slot', congrArg Cell.logical placed, congrArg Cell.inPool placed, _, State.cmd?_awaiting live _,
        h.live, rfl, rfl⟩
  case drained =>
    refine ⟨_, rfl, ?_, ?_, fun idle => ?_⟩
    · refine State.drainMarker_induct (P := fun t => (t.lslot l).draining = false) formerly (fun t c g k ht => ?_)
        (fun t id k f ht => ht) ?_
      · rw [State.lslot_of_dies_eq (State.rebuildTile_dies ..), ht]
      · rw [State.drained, State.updCell_lslot, State.lslot_updLslot, if_pos rfl]
    · refine State.drainMarker_induct (P := fun t => (t.cell cell).formerly = none) formerly
        (fun t c g k ht => State.rebuildTile_formerly ht c g k _) (fun t id k f ht => ht) ?_
      rw [State.drained, State.updCell_same]
    · rw [State.drainMarker_idle formerly idle]
      rfl

end Sys2Proof.Machine
end

section
/-!
SUPPORT. Commands that are lost: what else changes, and that an ending stands (R463, R465).
-/
set_option Elab.async false
namespace Sys2Proof.Machine

/-! ### Writes change memory alone -/

/-- From `s` to `t` memory has changed, and free values may have been drawn. -/
def State.SameButMem (s t : State) : Prop := ∃ mem free, t = { s with mem := mem, freeCount := free }

theorem State.SameButMem.refl (s : State) : s.SameButMem s := ⟨_, _, rfl⟩

theorem State.SameButMem.trans {s t u : State} (h : s.SameButMem t) (k : t.SameButMem u) : s.SameButMem u := by
  obtain ⟨_, _, rfl⟩ := h
  obtain ⟨mem, free, rfl⟩ := k
  exact ⟨mem, free, rfl⟩

theorem State.writeWord_sameButMem (s : State) (a k : Nat) (bs : List Byte) : s.SameButMem (s.writeWord a k bs).1 := by
  unfold State.writeWord
  split
  · exact ⟨_, _, rfl⟩
  · split
    · exact .refl s
    · exact ⟨_, _, rfl⟩

theorem State.writeBlock_sameButMem (s : State) (key a k : Nat) (bs : List Byte) : s.SameButMem (s.writeBlock key a k bs).1 := by
  unfold State.writeBlock
  dsimp only
  split
  · exact ⟨_, _, rfl⟩
  · split
    · exact .refl s
    · split
      · exact .refl s
      · exact ⟨_, _, rfl⟩

theorem State.writePiece_sameButMem (s : State) (x : Acc) (a : Nat) (bs : List Byte) : s.SameButMem (s.writePiece x a bs).1 := by
  unfold State.writePiece
  dsimp only
  split
  · exact .refl s
  · split
    · exact ⟨_, _, rfl⟩
    · split
      · exact s.writeBlock_sameButMem ..
      · split
        · exact s.writeWord_sameButMem ..
        · exact (s.writeWord_sameButMem ..).trans (State.writeWord_sameButMem ..)

theorem State.writePieces_sameButMem (s : State) (x : Acc) (ps : List (Nat × List Byte)) : s.SameButMem (s.writePieces x ps).1 := by
  induction ps generalizing s with
  | nil => exact .refl s
  | cons p ps ih => exact (s.writePiece_sameButMem ..).trans (ih _)

theorem State.writeBytes_sameButMem (s : State) (x : Acc) (a : Nat) (bs : List Byte) : s.SameButMem (s.writeBytes x a bs).1 := by
  unfold State.writeBytes
  dsimp only
  split
  · exact .refl s
  · exact s.writePieces_sameButMem ..

theorem State.SameButMem.foldl {α : Type} {f : State → α → State} (step : ∀ (t : State) a, t.SameButMem (f t a)) (l : List α) (s : State) :
    s.SameButMem (l.foldl f s) :=
  List.foldlRecOn l f (motive := s.SameButMem) (.refl s) fun t ht a _ => ht.trans (step t a)

theorem State.undefined_sameButMem (s : State) (x : Acc) (rs : List Rng) : s.SameButMem (s.undefined x rs) :=
  .foldl (fun t (r : Rng) =>
    have drawn : t.SameButMem { t with freeCount := t.freeCount + r.2 } := ⟨_, _, rfl⟩
    drawn.trans (State.writeBytes_sameButMem ..)) rs s

theorem State.setStored_sameButMem (s : State) (id : CmdId) (t : Tens) (step : Nat) (sc : FVal) :
    s.SameButMem (s.setStored id t step sc) := by
  unfold State.setStored
  split
  · exact .refl s
  · split
    · exact .refl s
    · exact s.writeBytes_sameButMem ..

theorem State.undefineDest_sameButMem (s : State) (c : Cmd) : s.SameButMem (s.undefineDest c) := by
  unfold State.undefineDest
  refine ite_cases (.refl s) (ite_cases ?product (.foldl (fun t h => ?output) _ s))
  case product =>
    split
    · exact s.undefined_sameButMem ..
    · exact .refl s
  case output =>
    split
    · exact t.undefined_sameButMem ..
    · exact .refl t

/-! ### Commands that end -/

theorem State.cmd?_updCmd_of_id (s : State) (i j : CmdId) {f : Cmd → Cmd} (ids : ∀ c, (f c).id = c.id) :
    (s.updCmd i f).cmd? j = (s.cmd? j).map fun c => if c.id = i then f c else c := by
  rw [State.cmd?, State.updCmd, List.find?_map]
  congr 2
  funext c
  rw [Function.comp_apply]
  split
  · rw [ids]
  · rfl

/-- From `s` to `t` commands have ended: an ending stands, and dies, fault state, ports and the window of steps are as they were. -/
structure State.EndsCommands (s t : State) : Prop where
  dies : t.dies = s.dies
  faults : t.faults = s.faults
  ports : t.fabric.ports = s.fabric.ports
  opened : t.step.opened = s.step.opened
  stands : ∀ i e, s.EndedAs i e → t.EndedAs i e

theorem State.EndsCommands.refl (s : State) : s.EndsCommands s := ⟨rfl, rfl, rfl, rfl, fun _ _ h => h⟩

theorem State.EndsCommands.trans {s t u : State} (h : s.EndsCommands t) (k : t.EndsCommands u) : s.EndsCommands u :=
  ⟨k.dies.trans h.dies, k.faults.trans h.faults, k.ports.trans h.ports, k.opened.trans h.opened,
    fun i e ended => k.stands i e (h.stands i e ended)⟩

theorem State.EndedAs.of_cmds_eq {s t : State} (cmds : t.cmds = s.cmds) {i : CmdId} {e : Ending} (h : s.EndedAs i e) : t.EndedAs i e := by
  rw [State.EndedAs, State.cmd?_of_cmds_eq cmds]
  exact h

/-- The same, where no command but `id` has changed. -/
structure State.EndsOnly (id : CmdId) (s t : State) : Prop extends s.EndsCommands t where
  others : ∀ i, i ≠ id → t.cmd? i = s.cmd? i

section
variable {id : CmdId} {s t u : State}

theorem State.EndsOnly.refl (id : CmdId) (s : State) : State.EndsOnly id s s := ⟨.refl s, fun _ _ => rfl⟩

theorem State.EndsOnly.trans (h : State.EndsOnly id s t) (k : State.EndsOnly id t u) : State.EndsOnly id s u :=
  ⟨h.toEndsCommands.trans k.toEndsCommands, fun i ne => (k.others i ne).trans (h.others i ne)⟩

theorem State.EndsOnly.of_cmds_eq (cmds : t.cmds = s.cmds) (dies : t.dies = s.dies) (faults : t.faults = s.faults)
    (ports : t.fabric.ports = s.fabric.ports) (opened : t.step.opened = s.step.opened) : State.EndsOnly id s t :=
  ⟨⟨dies, faults, ports, opened, fun _ _ => .of_cmds_eq cmds⟩, fun i _ => State.cmd?_of_cmds_eq cmds i⟩

theorem State.SameButMem.endsOnly (h : s.SameButMem t) : State.EndsOnly id s t := by
  obtain ⟨_, _, rfl⟩ := h
  exact .of_cmds_eq rfl rfl rfl rfl rfl

/-- A command may change under its id as long as its ending stands. -/
theorem State.EndsOnly.updCmd (s : State) (id : CmdId) {f : Cmd → Cmd} (ids : ∀ c, (f c).id = c.id)
    (keeps : ∀ c e, c.ending = some e → (f c).ending = some e) : State.EndsOnly id s (s.updCmd id f) := by
  have cmd (i : CmdId) := s.cmd?_updCmd_of_id id i ids
  refine ⟨⟨rfl, rfl, rfl, rfl, fun i e ⟨c, found, ended⟩ => ?_⟩, fun i ne => ?_⟩
  · refine ⟨_, (cmd i).trans (congrArg _ found), ?_⟩
    beta_reduce
    split
    · exact keeps c e ended
    · exact ended
  · rw [cmd]
    cases found : s.cmd? i with
    | none => rfl
    | some c =>
      have named : c.id = i := by simpa using List.find?_some found
      rw [Option.map_some, if_neg (named ▸ ne)]

theorem State.EndsOnly.finish (s : State) (id : CmdId) (e : Ending) : State.EndsOnly id s (s.finish id e) :=
  .updCmd s id (fun c => by split <;> rfl) fun c e ended => by simp [ended]

theorem State.EndsOnly.finishOkAux (s : State) (id : CmdId) (aux : Nat) : State.EndsOnly id s (s.finishOkAux id aux) :=
  .updCmd s id (fun c => by split <;> rfl) fun c e ended => by simp [ended]

theorem State.EndsOnly.stopRun (s : State) (id : CmdId) (e : Ending) : State.EndsOnly id s (s.stopRun id e) :=
  .updCmd s id (fun _ => rfl) fun _ _ ended => ended

theorem State.EndsOnly.raise (s : State) (n bit : Nat) : State.EndsOnly id s (s.raise n bit) := by
  unfold State.raise
  split
  · exact .refl ..
  · exact .of_cmds_eq rfl rfl rfl rfl rfl

theorem State.EndsOnly.countLoss (s : State) (die : Nat) : State.EndsOnly id s (s.countLoss die) :=
  .trans (t := s.bump (regDie .nonReplayableFaults die) 1) (.of_cmds_eq rfl rfl rfl rfl rfl) (.raise ..)

end

/-! ### A command that is lost -/

theorem State.stopProduct_endsOnly (s : State) (c : Cmd) (g : Geo) (e : Ending) : State.EndsOnly c.id s (s.stopProduct c g e) := by
  unfold State.stopProduct
  extract_lets e' t
  have spoilt : State.EndsOnly c.id s t := ite_cases (s.undefined_sameButMem ..).endsOnly (.refl ..)
  exact spoilt.trans (.finish ..)

theorem State.settleProduct_endsOnly (s : State) (id : CmdId) (g : Geo) : State.EndsOnly id s (s.settleProduct id g) := by
  unfold State.settleProduct
  split
  · exact .refl ..
  · rename_i c found
    obtain rfl : c.id = id := by simpa using List.find?_some found
    split
    · exact ite_cases (.refl ..) (s.stopProduct_endsOnly ..)
    · refine ite_cases (.refl ..) ?_
      extract_lets t u
      have dropped : State.EndsOnly c.id s t := ite_cases (.of_cmds_eq rfl rfl rfl rfl rfl) (.refl ..)
      have stored : State.EndsOnly c.id t u := ite_cases (.refl ..) (t.setStored_sameButMem ..).endsOnly
      exact (dropped.trans stored).trans (.finishOkAux ..)

theorem State.loseProduct_endsOnly (s : State) (id : CmdId) (die seq : Nat) : State.EndsOnly id s (s.loseProduct id die seq) := by
  unfold State.loseProduct
  split
  · exact .refl ..
  · refine ite_cases (.refl ..) ?_
    extract_lets t
    have stopped : State.EndsOnly id s t :=
      ((State.EndsOnly.countLoss s die).trans 
        (.updCmd _ id (f := fun x => { x with lossSeq := some seq }) (fun _ => rfl) fun _ _ ended => ended)).trans (.stopRun ..)
    split
    · exact stopped.trans (t.settleProduct_endsOnly ..)
    · exact stopped.trans (.finish ..)

/-- What a lost command leaves, before its ending is set. -/
def State.forsaken (s : State) (c : Cmd) (die : Nat) : State :=
  ((s.countLoss die).undefineDest c).setFabric fun f => { f with out := f.out.filter fun m => m.id != some c.id }

theorem State.forsaken_endsOnly (s : State) (c : Cmd) (die : Nat) (id : CmdId) : State.EndsOnly id s (s.forsaken c die) :=
  ((State.EndsOnly.countLoss s die).trans (State.undefineDest_sameButMem _ c).endsOnly).trans (.of_cmds_eq rfl rfl rfl rfl rfl)

theorem State.raise_cmds (s : State) (n bit : Nat) : (s.raise n bit).cmds = s.cmds := by
  unfold State.raise
  split <;> rfl

theorem State.forsaken_cmds (s : State) (c : Cmd) (die : Nat) : (s.forsaken c die).cmds = s.cmds := by
  obtain ⟨_, _, eq⟩ := (s.countLoss die).undefineDest_sameButMem c
  rw [State.forsaken, eq]
  exact State.raise_cmds ..

theorem State.loseCommand_eq (s : State) {c : Cmd} (live : c.ending = none) (noProduct : isOpcode 0x20 c.desc = false) (die seq : Nat) :
    s.loseCommand c die seq = (s.forsaken c die).finish c.id (lossEnding seq) := by
  rw [State.loseCommand, live, if_neg (by simp), noProduct, if_neg (by simp)]
  rfl

theorem State.loseCommand_endsOnly (s : State) (c : Cmd) (die seq : Nat) : State.EndsOnly c.id s (s.loseCommand c die seq) := by
  rw [State.loseCommand]
  exact ite_cases (.refl ..) (ite_cases (s.loseProduct_endsOnly ..) ((s.forsaken_endsOnly c die _).trans (.finish ..)))

theorem State.loseCommand_endedAs {s : State} {c : Cmd} (found : s.cmd? c.id = some c) (live : c.ending = none)
    (noProduct : isOpcode 0x20 c.desc = false) (die seq : Nat) : (s.loseCommand c die seq).EndedAs c.id (lossEnding seq) := by
  have kept := (State.cmd?_of_cmds_eq (s.forsaken_cmds c die) c.id).trans found
  rw [s.loseCommand_eq live noProduct]
  exact State.Unended.finish ⟨c, kept, live⟩ _

/-- Aborting what was fetched and not issued adds commands that have ended (R465). -/
theorem State.abortAll_endsCommands (s : State) : s.EndsCommands s.abortAll := by
  unfold State.abortAll
  refine List.foldlRecOn _ _ (motive := s.EndsCommands) (.refl s) fun t ht e _ => ?_
  refine List.foldlRecOn _ _ (motive := s.EndsCommands) ht fun u hu q _ => hu.trans ?_
  obtain ⟨ctxs, eq⟩ := u.abortQueue_rest e.1 q.1
  rw [eq]
  exact ⟨rfl, rfl, rfl, rfl, fun i x ⟨c, found, ended⟩ => ⟨c, by rw [State.cmd?, List.find?_append, ← State.cmd?, found]; rfl, ended⟩⟩

end Sys2Proof.Machine
end

section
/-!
SUPPORT. The number of a fault record, and ports that go DOWN (R457, R489).
-/
set_option Elab.async false
namespace Sys2Proof.Machine

/-! ### Fault records and the PCI Express link (R457, R466) -/

theorem State.requestVector_pcie (s : State) (c r : Nat) : (s.requestVector c r).pcie.linkUp = s.pcie.linkUp := by
  unfold State.requestVector State.startHoldoff State.sendVector
  dsimp only
  repeat' split
  all_goals rfl

theorem State.requestVector_faults (s : State) (c r : Nat) : (s.requestVector c r).faults = s.faults := by
  obtain ⟨_, _, eq⟩ := s.requestVector_rest c r
  rw [eq]

/-- A fault record has been numbered; it is in its ring where one is there and the link is up. -/
def State.Numbered (s t : State) : Prop := t.pcie.linkUp = s.pcie.linkUp ∧ ∃ w, t.faults = { s.faults with seq := s.faults.seq + 1, w := w }

theorem State.faultRecord_numbered (s : State) (f : FaultRec) : s.Numbered (s.faultRecord f) := by
  unfold State.faultRecord
  extract_lets seq src s1 w size phase unlocked s2
  suffices put : s.Numbered s2 by rwa [State.Numbered, State.requestVector_pcie, State.requestVector_faults]
  unfold s2
  clear s2
  have start : s1.pcie = s.pcie := rfl
  have counted : s1.faults = { s.faults with seq := s.faults.seq + 1 } := rfl
  clear_value s1 w size phase unlocked seq
  generalize f.logical.getD (0xFFFF, 0) = slot
  obtain ⟨lg, inc⟩ := slot
  refine ite_cases (P := s.Numbered) ⟨congrArg _ start, _, counted⟩ ?_
  dsimp -zeta only
  extract_lets record t src' u
  clear_value record
  have stored : s.Numbered u := ⟨congrArg _ start, w + 1, congrArg (fun x : FaultSt => { x with w := w + 1 }) counted⟩
  clear_value u
  exact ite_cases (P := s.Numbered) stored stored

/-! ### Ports that go DOWN -/

theorem State.logPut_rest (s : State) (r : List Byte) : ∃ regs mem log, s.logPut r = { s with regs := regs, mem := mem, log := log } := by
  unfold State.logPut ringPut
  split
  · extract_lets held
    split
    · exact ⟨_, _, _, rfl⟩
    · exact ⟨_, _, _, rfl⟩
  · exact ⟨_, _, _, rfl⟩

theorem State.logTrace_rest (s : State) (die code a b : Nat) : ∃ regs mem log,
    s.logTrace die code a b = { s with regs := regs, mem := mem, log := log } := by
  unfold State.logTrace
  extract_lets cat level ctl unlocked r
  clear_value r
  split
  · obtain ⟨regs, mem, log, eq⟩ := State.logPut_rest { s with log := { s.log with seq := s.log.seq + 1 } } r
    exact ⟨regs, mem, log, eq⟩
  · exact ⟨_, _, _, rfl⟩

/-- Down for reason `r`, its keys destroyed (R489). -/
def PortSt.Down (r : Nat) (x : PortSt) : Prop := x.mode = .down ∧ x.reason = r ∧ x.txKey = none

/-- At most the fabric, time, registers, the log and memory have changed. -/
def State.SameButPorts (s t : State) : Prop :=
  ∃ regs mem log time fabric, t = { s with regs := regs, mem := mem, log := log, time := time, fabric := fabric }

theorem State.SameButPorts.trans {s t u : State} (h : s.SameButPorts t) (k : t.SameButPorts u) : s.SameButPorts u := by
  obtain ⟨_, _, _, _, _, rfl⟩ := h
  obtain ⟨regs, mem, log, time, fabric, rfl⟩ := k
  exact ⟨regs, mem, log, time, fabric, rfl⟩

/-- Port `p` has gone DOWN for reason `r`. -/
structure State.PortFell (p r : Nat) (s t : State) : Prop where
  down : (t.port p).Down r
  others : ∀ q, q ≠ p → t.port q = s.port q
  rest : s.SameButPorts t

theorem State.port_of_fabric_eq {s t : State} (e : t.fabric = s.fabric) (p : Nat) : t.port p = s.port p := by rw [State.port, State.port, e]

theorem State.logTrace_portFell {p r : Nat} {s t : State} (h : State.PortFell p r s t) (die code a b : Nat) :
    State.PortFell p r s (t.logTrace die code a b) := by
  obtain ⟨regs, mem, log, eq⟩ := t.logTrace_rest die code a b
  have port := State.port_of_fabric_eq (s := t) (t := t.logTrace die code a b) (by rw [eq])
  exact ⟨(port p).symm ▸ h.down, fun q ne => (port q).trans (h.others q ne), h.rest.trans ⟨_, _, _, _, _, eq⟩⟩

theorem State.holdover_portFell {p r : Nat} {s t : State} (h : State.PortFell p r s t) : State.PortFell p r s t.holdover := by
  unfold State.holdover
  exact ite_cases (P := State.PortFell p r s) ⟨h.down, h.others, h.rest.trans ⟨_, _, _, _, _, rfl⟩⟩ h

theorem State.updPort_portFell (s : State) {p r : Nat} {f : PortSt → PortSt} (down : (f (s.port p)).Down r) :
    State.PortFell p r s (s.updPort p f) :=
  ⟨(s.port_updPort_same p f).symm ▸ down, fun _ ne => Tab.getD_upd_other _ _ _ ne, _, _, _, _, _, rfl⟩

theorem State.portDown_fell (s : State) (p r : Nat) : State.PortFell p r s (s.portDown p r) := by
  unfold State.portDown State.logPort
  have fell := State.logTrace_portFell (s.updPort_portFell (p := p) (r := r)
    (f := fun x => { PortSt.init with reason := r, since := s.now, sent := x.sent, delay := x.delay }) ⟨rfl, rfl, rfl⟩)
  exact ite_cases (P := State.PortFell p r s) (State.holdover_portFell (fell ..)) (fell ..)

/-- Ports go DOWN with reason 8, one after another (R465). -/
def State.portsDown (s : State) (ps : List Nat) : State := ps.foldl (fun t p => t.portDown p 8) s

theorem State.portsDown_rest (s : State) (ps : List Nat) : s.SameButPorts (s.portsDown ps) :=
  List.foldlRecOn ps _ (motive := s.SameButPorts) ⟨_, _, _, _, _, rfl⟩ fun t ht p _ => ht.trans (t.portDown_fell p 8).rest

theorem State.portDown_port (s : State) (p q : Nat) (h : q = p ∨ (s.port q).Down 8) : ((s.portDown p 8).port q).Down 8 := by
  have fell := s.portDown_fell p 8
  by_cases here : q = p
  · rw [here]
    exact fell.down
  · rw [fell.others q here]
    exact h.resolve_left here

theorem State.portsDown_port (s : State) (ps : List Nat) {q : Nat} (h : q ∈ ps ∨ (s.port q).Down 8) : ((s.portsDown ps).port q).Down 8 := by
  induction ps generalizing s with
  | nil => exact h.resolve_left List.not_mem_nil
  | cons p ps ih =>
    refine ih (s.portDown p 8) ?_
    obtain listed | down := h
    · exact (List.mem_cons.1 listed).symm.imp_right fun here => s.portDown_port p q (.inl here)
    · exact .inr (s.portDown_port p q (.inr down))

end Sys2Proof.Machine
end

section
/-!
SUPPORT. The loss of a die, of the module and of the PCI Express link (R287–R289, R465, R466, R511).
-/
set_option Elab.async false
namespace Sys2Proof.Machine

/-! ### The loss of one die (R287, R465) -/

/-- The commands of a list that `p` picks are lost, one after another. -/
def State.loseAll (s : State) (p : Cmd → Bool) (die seq : Nat) (l : List Cmd) : State :=
  l.foldl (fun t c => if p c then t.loseCommand c die seq else t) s

theorem State.loseAll_endsCommands (s : State) (p : Cmd → Bool) (die seq : Nat) (l : List Cmd) : s.EndsCommands (s.loseAll p die seq l) :=
  List.foldlRecOn l _ (motive := s.EndsCommands) (.refl s) fun t ht c _ =>
    ite_cases (P := s.EndsCommands) (ht.trans (t.loseCommand_endsOnly c die seq).toEndsCommands) ht

theorem State.loseAll_others (s : State) (p : Cmd → Bool) (die seq : Nat) {l : List Cmd} {id : CmdId} (others : ∀ c ∈ l, c.id ≠ id) :
    (s.loseAll p die seq l).cmd? id = s.cmd? id :=
  List.foldlRecOn l _ (motive := fun t : State => t.cmd? id = s.cmd? id) rfl fun t ht c hc =>
    ite_cases (P := fun t : State => t.cmd? id = s.cmd? id) (((t.loseCommand_endsOnly c die seq).others id (others c hc).symm).trans ht) ht

/-- A command that is picked, and is no product, ends as the record says: those before it in the list have other ids, and its ending
stands after it. -/
theorem State.loseAll_endedAs {s : State} {id : CmdId} {c : Cmd} (found : s.cmd? id = some c) (live : c.ending = none)
    (noProduct : isOpcode 0x20 c.desc = false) {p : Cmd → Bool} (picked : p c = true) (die seq : Nat) :
    (s.loseAll p die seq s.cmds).EndedAs id (lossEnding seq) := by
  obtain ⟨named, before, after, split, others⟩ := List.find?_eq_some_iff_append.1 found
  obtain rfl : c.id = id := by simpa using named
  have reached : (s.loseAll p die seq before).cmd? c.id = some c :=
    (s.loseAll_others p die seq fun x hx => by simpa using others x hx).trans found
  rw [split, State.loseAll, List.foldl_append, List.foldl_cons, if_pos picked]
  exact (State.loseAll_endsCommands _ p die seq after).stands _ _ (State.loseCommand_endedAs reached live noProduct die seq)

/-- A die out of service: its cells idle, its tests over, its loss recorded. -/
def State.dieUnmapped (s : State) (d : Nat) : State :=
  let t := (s.faultRecord ⟨.die, 0, ⟨13, d, 0⟩, none, noWhere⟩).updDie d fun x => { x with inService := false }
  { t with
    cells := t.cells.mapVals fun k c => if k / 104 = d then { c with tasks := [], placing := false, portsClosed := true } else c
    faults := { t.faults with tests := t.faults.tests.filter fun x => x.1.die != d, degraded := true, fetchStopped := true,
                              dieLost := true } }

/-- The same, its ports DOWN. -/
def State.dieOut (s : State) (d : Nat) : State := (s.dieUnmapped d).portsDown (portsOf d)

/-- Its commands lost, what was fetched aborted, and FAULT raised. -/
def State.dieLost (s : State) (d : Nat) : State :=
  ((s.dieOut d).loseAll (fun c => (s.dieOut d).touches c d) d s.faults.seq (s.dieOut d).cmds).abortAll.raiseFault

theorem State.loseOne_eq (s : State) (d : Nat) : s.loseOne d = (s.dieLost d).setSteps fun x => { x with opened := false } := rfl

theorem State.dieUnmapped_die (s : State) {d k : Nat} (h : k = d ∨ (s.die k).inService = false) :
    ((s.dieUnmapped d).die k).inService = false := by
  have die : (s.dieUnmapped d).die k = ((s.faultRecord _).updDie d fun x => { x with inService := false }).die k := rfl
  rw [die]
  by_cases here : k = d
  · rw [here, State.updDie_same]
  · rw [State.updDie_other _ _ here, State.die, State.faultRecord_dies]
    exact h.resolve_left here

theorem State.dieOut_rest (s : State) (d : Nat) : (s.dieUnmapped d).SameButPorts (s.dieOut d) := State.portsDown_rest ..

theorem State.dieOut_cmds (s : State) (d : Nat) : (s.dieOut d).cmds = s.cmds := by
  obtain ⟨_, _, _, _, _, eq⟩ := s.dieOut_rest d
  rw [eq]
  exact State.faultRecord_cmds ..

theorem State.dieOut_port (s : State) (d : Nat) {q : Nat} (h : q ∈ portsOf d ∨ (s.port q).Down 8) : ((s.dieOut d).port q).Down 8 := by
  refine (s.dieUnmapped d).portsDown_port _ (h.imp_right fun down => ?_)
  obtain ⟨_, _, _, _, _, eq⟩ := s.faultRecord_rest ⟨.die, 0, ⟨13, d, 0⟩, none, noWhere⟩
  rw [State.port_of_fabric_eq (s := s) (by rw [State.dieUnmapped, eq]; rfl)]
  exact down

theorem State.allLost_endsCommands (s : State) : s.EndsCommands s.abortAll.raiseFault :=
  s.abortAll_endsCommands.trans (State.EndsOnly.raise (id := ⟨0, 0, 0⟩) ..).toEndsCommands

theorem State.dieLost_endsCommands (s : State) (d : Nat) : (s.dieOut d).EndsCommands (s.dieLost d) :=
  (State.loseAll_endsCommands ..).trans (State.allLost_endsCommands _)

/-- A die that is lost, and stays so: out of service, its ports DOWN with reason 8, fetching stopped (R465). -/
structure State.DieGone (s : State) (d : Nat) : Prop where
  out : (s.die d).inService = false
  degraded : s.faults.degraded = true
  fetchStopped : s.faults.fetchStopped = true
  opened : s.step.opened = false
  ports : ∀ k, k < 5 → (s.port (5 * d + k)).Down 8

theorem State.loseOne_gone (s : State) {d k : Nat} (h : d = k ∨ s.DieGone d) : (s.loseOne k).DieGone d := by
  have ends := s.dieLost_endsCommands k
  obtain ⟨_, _, _, _, _, rest⟩ := s.dieOut_rest k
  rw [State.loseOne_eq]
  refine ⟨?_, ?_, ?_, rfl, fun j hj => ?_⟩
  · rw [State.die, State.setSteps_dies, ends.dies, rest]
    exact s.dieUnmapped_die (h.imp_right State.DieGone.out)
  · rw [State.setSteps_faults, ends.faults, rest]
    rfl
  · rw [State.setSteps_faults, ends.faults, rest]
    rfl
  · rw [State.port, State.setSteps_fabric, ends.ports]
    refine s.dieOut_port k (h.imp (fun here => ?_) fun gone => gone.ports j hj)
    rw [here]
    exact List.mem_map.2 ⟨j, List.mem_range.2 hj, rfl⟩

theorem State.loseOne_cmds (s : State) (k : Nat) : (s.loseOne k).cmds = (s.dieLost k).cmds := by
  rw [State.loseOne_eq, State.setSteps_cmds]

theorem State.loseOne_stands (s : State) (k : Nat) (i : CmdId) (e : Ending) (h : s.EndedAs i e) : (s.loseOne k).EndedAs i e :=
  .of_cmds_eq (s.loseOne_cmds k) ((s.dieLost_endsCommands k).stands i e (h.of_cmds_eq (s.dieOut_cmds k)))

theorem State.touches_of_cell (s : State) {c : Cmd} {l d : Nat} (task : l ∈ c.cells) (on : l / 96 = d) : s.touches c d = true := by
  have named : c.cells.any (fun l => l / 96 == d) = true := List.any_eq_true.2 ⟨l, task, beq_iff_eq.2 on⟩
  simp [State.touches, named]

theorem State.loseOne_endedAs {s : State} {id : CmdId} {c : Cmd} (found : s.cmd? id = some c) (live : c.ending = none)
    (noProduct : isOpcode 0x20 c.desc = false) {l d : Nat} (task : l ∈ c.cells) (on : l / 96 = d) :
    (s.loseOne d).EndedAs id (lossEnding s.faults.seq) := by
  have kept := (State.cmd?_of_cmds_eq (s.dieOut_cmds d) id).trans found
  have lost := State.loseAll_endedAs kept live noProduct (p := fun c => (s.dieOut d).touches c d)
    (State.touches_of_cell _ task on) d s.faults.seq
  have stands := (State.allLost_endsCommands ..).stands id _ lost
  exact .of_cmds_eq (s.loseOne_cmds d) stands

/-- What the loss of a further die keeps, the loss of all dies that are cut off keeps (R288). -/
theorem State.loseCutOff_induct {P : State → Prop} (step : ∀ t k, P t → P (State.loseOne t k)) (fuel : Nat) {s : State} (h : P s) :
    P (s.loseCutOff fuel) := by
  induction fuel generalizing s with
  | zero => exact h
  | succ fuel ih =>
    unfold State.loseCutOff
    split
    · exact h
    · exact ih (step _ _ h)

theorem State.loseDie_of_there {s : State} {d : Nat} (apart : d ≠ 0) (there : (s.die d).inService = true) :
    s.loseDie d = (s.loseOne d).loseCutOff 8 := by
  rw [State.loseDie, if_neg apart, there, if_neg (by simp)]

/-! ### The loss of the link, and a silent steward of die 0 (R466, R511) -/

theorem State.raise_rest (s : State) (n bit : Nat) : ∃ step, s.raise n bit = { s with step := step } := by
  unfold State.raise
  split
  · exact ⟨_, rfl⟩
  · exact ⟨_, rfl⟩

theorem State.linkLoss_rest (s : State) : ∃ mem faults freeze ctxs pcie step,
    s.linkLoss = { s with mem := mem, faults := faults, freeze := freeze, ctxs := ctxs, pcie := pcie, step := step,
                          sec := s.endSession.sec }
      ∧ pcie.linkUp = false ∧ faults.degraded = true ∧ faults.fetchStopped = true ∧ faults.seq = s.faults.seq + 1
      ∧ step.opened = false := by
  have numbered := State.faultRecord_numbered { s with pcie := { s.pcie with linkUp := false } } ⟨.module, 0, ⟨11, 0, 0⟩, none, noWhere⟩
  obtain ⟨mem, faults, freeze, ctxs, pcie, rest⟩ :=
    State.faultRecord_rest { s with pcie := { s.pcie with linkUp := false } } ⟨.module, 0, ⟨11, 0, 0⟩, none, noWhere⟩
  obtain ⟨down, w, counted⟩ := rest ▸ numbered
  unfold State.linkLoss State.raiseFault
  dsimp only
  rw [rest]
  obtain ⟨step, raised⟩ := State.raise_rest _ _ _
  rw [raised]
  exact ⟨mem, _, freeze, ctxs, pcie, _, rfl, down, rfl, rfl, congrArg FaultSt.seq counted, rfl⟩

theorem exec_pcieLinkLoss_ready {s : State} (up : s.pcie.linkUp = true) (ready : s.ready = true) :
    exec .pcieLinkLoss s = .next s.linkLoss := by
  show Host.Outcome.next _ = _
  rw [up, ready, if_neg (by simp), if_pos rfl]

theorem exec_pcieLinkLoss_unready {s : State} (up : s.pcie.linkUp = true) (unready : s.ready = false) :
    exec .pcieLinkLoss s = .next (State.endSession { s with pcie := { s.pcie with linkUp := false } }) := by
  show Host.Outcome.next _ = _
  rw [up, unready, if_neg (by simp), if_neg (by simp)]

theorem exec_dieLoss_ready {s : State} {d : Nat} (hd : d < 8) (ready : s.ready = true) : exec (.dieLoss d) s = .next (s.loseDie d) :=
  congrArg Host.Outcome.next (if_pos ⟨ready, hd⟩)

theorem exec_dieLoss_unready {s : State} {d : Nat} (unready : s.ready = false) : exec (.dieLoss d) s = .next s :=
  congrArg Host.Outcome.next (if_neg fun h => by simp [unready] at h)

theorem exec_stewardWatchdogMiss_zero {s : State} (on : s.boot.firmwareOn = true) : exec (.stewardWatchdogMiss 0) s =
    let t := s.faultRecord ⟨.module, 0, ⟨13, 0, 0⟩, none, noWhere⟩
    .next { t with power := { t.power with loopsHeld := true, fwPoint := 28 } } := by
  show execStewardWatchdogMiss 0 s = _
  rw [execStewardWatchdogMiss, on, if_neg (by simp), if_neg (by simp)]

theorem exec_stewardWatchdogMiss_other {s : State} (on : s.boot.firmwareOn = true) {d : Nat} (apart : d ≠ 0) (hd : d < 8) :
    exec (.stewardWatchdogMiss d) s = exec (.dieLoss d) s := by
  show execStewardWatchdogMiss d s = execDieLoss d s
  rw [execStewardWatchdogMiss, execDieLoss, on, if_neg (by simp [hd]), if_pos apart]
  congr 1
  exact if_congr (by simp [hd]) rfl rfl

/-- Settles O54: a further loss keeps what the first one did; the link takes the session along, and a silent steward of die 0 its point. -/
theorem diesAndLinksAreLost : Obligations.DiesAndLinksAreLost := by
  intro s _
  refine ⟨fun d => exec_dieLoss_unready, fun d apart out => ?gone, fun ready => ?module, fun d apart hd ready there => ?lost,
    fun down => ?still, fun up => ?link, fun off d => ?silent, fun on => ⟨?steward, fun d => exec_stewardWatchdogMiss_other on⟩⟩
  case gone =>
    refine congrArg Host.Outcome.next (ite_cases (P := fun t => t = s) ?_ rfl)
    rw [State.loseDie, if_neg apart, out]
    rfl
  case module =>
    refine ⟨_, exec_dieLoss_ready (by decide) ready, ?_⟩
    rw [State.loseDie, if_pos rfl]
    exact ⟨rfl, rfl, rfl⟩
  case lost =>
    refine ⟨_, (exec_dieLoss_ready hd ready).trans (congrArg _ (State.loseDie_of_there apart there)), ?_⟩
    have gone : ((s.loseOne d).loseCutOff 8).DieGone d :=
      State.loseCutOff_induct (P := fun t => t.DieGone d) (fun t k ht => t.loseOne_gone (.inr ht)) 8 (s.loseOne_gone (.inl rfl))
    refine ⟨gone.out, gone.degraded, gone.fetchStopped, gone.opened, gone.ports, fun id c found live noProduct ⟨l, task, on⟩ => ?_⟩
    exact State.loseCutOff_induct (P := fun t => t.EndedAs id _) (fun t k => t.loseOne_stands k id _) 8
      (State.loseOne_endedAs found live noProduct task on)
  case still =>
    refine congrArg Host.Outcome.next (if_pos ?_)
    rw [down]
    rfl
  case link =>
    cases ready : s.ready with
    | true =>
      obtain ⟨_, _, _, _, _, _, eq, down, degraded, stopped, seq, opened⟩ := s.linkLoss_rest
      refine ⟨_, (exec_pcieLinkLoss_ready up ready).trans (congrArg _ eq), down, rfl, rfl, rfl, rfl, rfl,
        fun _ => ⟨degraded, stopped, opened, seq⟩⟩
    | false => exact ⟨_, exec_pcieLinkLoss_unready up ready, rfl, rfl, rfl, rfl, rfl, rfl, nofun⟩
  case silent =>
    refine congrArg Host.Outcome.next (if_pos (.inl ?_))
    rw [off]
    rfl
  case steward =>
    obtain ⟨_, w, counted⟩ := s.faultRecord_numbered ⟨.module, 0, ⟨13, 0, 0⟩, none, noWhere⟩
    obtain ⟨_, _, _, _, _, rest⟩ := s.faultRecord_rest ⟨.module, 0, ⟨13, 0, 0⟩, none, noWhere⟩
    exact ⟨_, exec_stewardWatchdogMiss_zero on, by rw [rest], congrArg FaultSt.seq counted, State.faultRecord_cmds ..⟩

end Sys2Proof.Machine
end

section
/-!
SUPPORT. Ports from state to state (R318, R333) and the log beside them (R485): what a port, the registers and the rest hold after it.
-/
set_option Elab.async false
namespace Sys2Proof.Machine

/-! ### The log beside the rest -/

@[simp] theorem State.logTrace_fabric (s : State) (die code a b : Nat) : (s.logTrace die code a b).fabric = s.fabric := by
  obtain ⟨_, _, _, eq⟩ := s.logTrace_rest die code a b
  rw [eq]

@[simp] theorem State.logTrace_time (s : State) (die code a b : Nat) : (s.logTrace die code a b).time = s.time := by
  obtain ⟨_, _, _, eq⟩ := s.logTrace_rest die code a b
  rw [eq]

@[simp] theorem State.logTrace_sec (s : State) (die code a b : Nat) : (s.logTrace die code a b).sec = s.sec := by
  obtain ⟨_, _, _, eq⟩ := s.logTrace_rest die code a b
  rw [eq]

/-- A record that finds no room in the log raises LOG_DROPS and no other register. -/
theorem State.rd_logPut {s : State} (ok : s.regsOk) (bs : List Byte) {r : Reg} (hr : r.inMap) (other : r.name ≠ .logDrops) :
    (s.logPut bs).rd r = s.rd r := by
  have apart := addr_ne_of_name hr (regDie0_inMap (n := .logDrops) rfl (by decide)) other
  unfold State.logPut
  split
  · dsimp only
    split
    · exact State.rd_bump_other (s := { s with log := _ }) _ ok apart
    · rfl
  · rfl

theorem State.rd_logTrace {s : State} (ok : s.regsOk) (die code a b : Nat) {r : Reg} (hr : r.inMap) (other : r.name ≠ .logDrops) :
    (s.logTrace die code a b).rd r = s.rd r := by
  unfold State.logTrace
  extract_lets cat level ctl unlocked bs
  refine ite_cases (P := fun t : State => t.rd r = s.rd r) ?_ rfl
  exact State.rd_logPut (s := { s with log := { s.log with seq := s.log.seq + 1 } }) ok bs hr other

/-! ### Holdover and failover (R339, R350) -/

@[simp] theorem State.adoptFailover_ports (s : State) (n : Nat) : (s.adoptFailover n).fabric.ports = s.fabric.ports := by
  unfold State.adoptFailover
  split
  · exact ite_cases (P := fun t : State => t.fabric.ports = _) rfl rfl
  · rfl

theorem State.holdover_rest (s : State) : ∃ time, s.holdover = { s with time := time } := by
  unfold State.holdover
  split
  · exact ⟨_, rfl⟩
  · exact ⟨_, rfl⟩

@[simp] theorem State.holdover_fabric (s : State) : s.holdover.fabric = s.fabric := by
  obtain ⟨_, eq⟩ := s.holdover_rest
  rw [eq]

@[simp] theorem State.rd_holdover (s : State) (r : Reg) : s.holdover.rd r = s.rd r := by
  obtain ⟨_, eq⟩ := s.holdover_rest
  rw [eq]
  rfl

theorem State.holdover_pips (s : State) : s.holdover.time.pips = s.time.pips := by
  unfold State.holdover
  exact ite_cases (P := fun t : State => t.time.pips = s.time.pips) rfl rfl

/-! ### A port in a state of bring-up -/

/-- A port as it enters state `m` at pip `now` (Table 13-5). -/
def PortSt.entering (x : PortSt) (m : PortMode) (now : Nat) : PortSt := { x with mode := m, reason := 0, since := now }

/-- A port as it goes DOWN for reason `r` at pip `now`, its keys destroyed (R489). -/
def PortSt.fallen (x : PortSt) (r now : Nat) : PortSt := { PortSt.init with reason := r, since := now, sent := x.sent, delay := x.delay }

theorem State.port_updPort_other (s : State) {p q : Nat} (f : PortSt → PortSt) (ne : q ≠ p) : (s.updPort p f).port q = s.port q :=
  Tab.getD_upd_other _ _ _ ne

theorem State.logPort_fabric (s : State) (p : Nat) : (s.logPort p).fabric = s.fabric := State.logTrace_fabric ..

theorem State.port_setMode (s : State) (p : Nat) (m : PortMode) : (s.setMode p m).port p = (s.port p).entering m s.now :=
  (State.port_of_fabric_eq (State.logPort_fabric ..) p).trans (s.port_updPort_same p _)

theorem State.rd_setMode {s : State} (ok : s.regsOk) (p : Nat) (m : PortMode) {r : Reg} (hr : r.inMap) (other : r.name ≠ .logDrops) :
    (s.setMode p m).rd r = s.rd r :=
  State.rd_logTrace (s := s.updPort p _) ok _ _ _ _ hr other

@[simp] theorem State.setMode_sec (s : State) (p : Nat) (m : PortMode) : (s.setMode p m).sec = s.sec := State.logTrace_sec ..

theorem State.portDown_fabric (s : State) (p r : Nat) : (s.portDown p r).fabric = (s.updPort p fun x => x.fallen r s.now).fabric := by
  unfold State.portDown
  have logged : ((s.updPort p fun x => x.fallen r s.now).logPort p).fabric = (s.updPort p fun x => x.fallen r s.now).fabric :=
    State.logPort_fabric ..
  exact ite_cases (P := fun t : State => t.fabric = _) ((State.holdover_fabric _).trans logged) logged

theorem State.port_portDown (s : State) (p r : Nat) : (s.portDown p r).port p = (s.port p).fallen r s.now :=
  (State.port_of_fabric_eq (s.portDown_fabric p r) p).trans (s.port_updPort_same p _)

theorem State.rd_portDown {s : State} (ok : s.regsOk) (p n : Nat) {r : Reg} (hr : r.inMap) (other : r.name ≠ .logDrops) :
    (s.portDown p n).rd r = s.rd r := by
  unfold State.portDown
  have logged : ((s.updPort p fun x => x.fallen n s.now).logPort p).rd r = s.rd r :=
    State.rd_logTrace (s := s.updPort p _) ok _ _ _ _ hr other
  exact ite_cases (P := fun t : State => t.rd r = s.rd r) ((State.rd_holdover ..).trans logged) logged

theorem State.portDown_now (s : State) (p r : Nat) : (s.portDown p r).now = s.now := by
  unfold State.portDown
  have logged : ((s.updPort p fun x => x.fallen r s.now).logPort p).time = s.time := State.logTrace_time ..
  exact congrArg BitVec.toNat (ite_cases (P := fun t : State => t.time.pips = s.time.pips)
    ((State.holdover_pips _).trans (congrArg TimeSt.pips logged)) (congrArg TimeSt.pips logged))

/-! ### Bring-up begins (R318, R333, R503) -/

/-- Nothing keeps a port of a die from bring-up but its ENABLE (R333). -/
structure State.FreeToTrain (s : State) (p : Nat) : Prop where
  there : (s.die (p / 5)).inService = true
  named : s.node ≠ 0xFFFF
  sound : s.sec.errorState = false
  ready : s.ready = true

theorem State.bringUp_eq {s : State} {p : Nat} (free : s.FreeToTrain p) (on : s.fld (portReg .portControl p) 0 0 = 1) :
    s.bringUp p = s.setMode p .training := by
  have open' : s.barred p = none := by
    simp [State.barred, free.there, on, free.named, free.sound]
  simp [State.bringUp, open', free.ready]

/-! ### Registers of a port, and PORT_CONTROL as it is written (R330, R333) -/

theorem portReg_addr_ne {n m : RegName} {p : Nat} (hp : p < 40) (hn : n.info.block = .port) (hm : m.info.block = .port)
    (cn : 0 < n.info.count) (cm : 0 < m.info.count) (ne : n ≠ m) : (portReg n p).addr ≠ (portReg m p).addr :=
  addr_ne_of_name (portReg_inMap hp hn cn) (portReg_inMap hp hm cm) ne

theorem State.writeReg_portControl {s : State} {p : Nat} (taken : s.writable (portReg .portControl p) = true) (mask v : Nat)
    (ok : Option Bool) : s.writeReg (portReg .portControl p) mask v ok = s.writePortControl (portReg .portControl p) mask v := by
  unfold portReg at taken ⊢
  simp only [State.writeReg, taken, Bool.not_true, Bool.false_eq_true, if_false]

/-- The word of PORT_CONTROL after a write of `v`. -/
def portControlWord (p old v : Nat) : Nat := (portReg .portControl p).name.info.stored old (2 ^ 32 - 1) v

theorem portControl_stored (p : Nat) : (portReg .portControl p).name.info.mask isStored = 0xFF01 := rfl
theorem portControl_cleared (p : Nat) : (portReg .portControl p).name.info.mask isCleared = 0 := rfl

/-- ENABLE takes the bit written. -/
theorem bitOf_portControlWord (p old v : Nat) : bitOf (portControlWord p old v) 0 = bitOf v 0 := by
  rw [bitOf, bitOf, portControlWord, RegInfo.testBit_stored, portControl_stored, portControl_cleared,
    show (0xFF01 &&& (2 ^ 32 - 1) : Nat).testBit 0 = true from rfl]
  simp

/-- The module as PORT_CONTROL of a port has taken a word. -/
def State.withPortControl (s : State) (p v : Nat) : State :=
  s.wr (portReg .portControl p) (portControlWord p (s.rd (portReg .portControl p)) v)

/-- An accepted write of PORT_CONTROL: the word, then ENABLE, then REKEY. -/
theorem State.Accepts.write_portControl {s : State} {secure : Bool} {p v : Nat} (h : s.Accepts secure (portReg .portControl p))
    (ok : s.regsOk) (fits : v < 2 ^ 32) {t : State}
    (enabled : (s.withPortControl p v).portEnable p (bitOf (s.rd (portReg .portControl p)) 0) (bitOf v 0) = t) :
    s.writeOf secure (portReg .portControl p) v = if bitOf v 1 then t.askRekey p else t := by
  rw [h.writeReg_eq (w := 32) rfl fits, State.writeReg_portControl h.taken, State.writePortControl, State.storeAll_eq rfl _ _ ok]
  subst enabled
  rfl

theorem State.withPortControl_regsOk {s : State} (ok : s.regsOk) (p v : Nat) : (s.withPortControl p v).regsOk := State.wr_regsOk _ _ ok

theorem State.rd_withPortControl {s : State} (ok : s.regsOk) (p v : Nat) :
    (s.withPortControl p v).rd (portReg .portControl p) = portControlWord p (s.rd (portReg .portControl p)) v := State.rd_wr_same _ _ ok

/-- A REKEY written to a port that is not UP is lost. -/
theorem State.askRekey_of_not_up {s : State} {p : Nat} (h : (s.port p).mode ≠ .up) : s.askRekey p = s := if_neg h

end Sys2Proof.Machine
end

section
/-!
PROOF. Fabric time follows the role (R335, R339).
-/
set_option Elab.async false
namespace Sys2Proof.Machine

/-- The time of a module whose role `r` comes into force (R335). -/
def State.timeAs (s : State) (r : Role) : TimeSt :=
  { s.time with
    role := r, locked := decide (r = .master), holdover := false, onBackup := false, offsets := [], goodRun := 0,
    lastLockedFrame := s.frame, masterHops := if r = .master then 0 else 0xFF, masterNode := if r = .master then s.node else 0xFFFF }

/-- The role that TIME_CONTROL names. -/
def State.writtenRole (s : State) : Role := roleOf (s.fld (regDie0 .timeControl) 1 0)

theorem State.roleChange_eq (s : State) : s.roleChange =
    if s.writtenRole = s.time.role ∨ s.frame < s.time.roleAt then s else { s with time := s.timeAs s.writtenRole } := rfl

theorem exec_lockLoss_lost {s : State} (follows : s.time.role = .follower) (locked : s.time.locked = true)
    (late : s.time.lastLockedFrame + 32768 ≤ s.frame) : exec .lockLoss s =
      .next (({ s with time := { s.time with locked := false, holdover := false, goodRun := 0 } }).bump (regDie0 .timeLockLosses) 1) :=
  congrArg Host.Outcome.next (if_pos ⟨follows, locked, late⟩)

/-- Settles O48: each row acts where its condition holds, and leaves the module alone elsewhere. -/
theorem timeFollowsTheRole : Obligations.TimeFollowsTheRole := by
  intro s inv role b
  refine ⟨fun stays => ?_, fun new due => ?_, fun follows held primary up locked => ?_, fun not => ?_, fun follows locked late => ?_,
    fun early => ?_⟩
  · exact congrArg Host.Outcome.next (if_pos stays)
  · have turned : s.roleChange = { s with time := s.timeAs role } := if_neg (not_or.2 ⟨new, Nat.not_lt.2 due⟩)
    refine ⟨_, congrArg Host.Outcome.next turned, rfl, rfl, rfl, rfl, rfl, fun master => ?_, rfl⟩
    simp [State.timeAs, master]
  · exact congrArg Host.Outcome.next (if_pos ⟨follows, held, by simp [primary], up, locked⟩)
  · refine congrArg Host.Outcome.next (if_neg fun ⟨follows, held, primary, up, locked⟩ => ?_)
    rcases not with c | c | c | c | c
    · exact c follows
    · exact Bool.false_ne_true (c.symm.trans held)
    · simp [c] at primary
    · exact Bool.false_ne_true (c.symm.trans up)
    · exact Bool.false_ne_true (c.symm.trans locked)
  · exact ⟨_, exec_lockLoss_lost follows locked late, rfl, rfl, State.rd_bump_same (s := { s with time := _ }) _ _ inv.regs⟩
  · exact congrArg Host.Outcome.next (if_neg fun ⟨_, _, late⟩ => by omega)

end Sys2Proof.Machine
end

section
/-!
PROOF. Link keys are renewed (R327, R330–R332).
-/
set_option Elab.async false
namespace Sys2Proof.Machine

/-! ### Who begins a rekey, and when (R327, R330) -/

theorem State.isEndL_of_keyed {s : State} {p : Nat} (keyed : (s.port p).txKey.isSome = true) :
    s.isEndL p = decide (s.node < (s.port p).peerNode ∨ (s.node = (s.port p).peerNode ∧ p < (s.port p).peerPort)) := by
  unfold State.isEndL
  dsimp only
  rw [keyed, if_pos rfl]
  simp only [Bool.decide_or, Bool.decide_and, beq_eq_decide]

/-- End L begins what has been asked for, where the last rekey has derived no keys. -/
theorem State.mayRekey_of_asked {s : State} {p : Nat} (up : (s.port p).mode = .up) (fresh : ∀ k, (s.port p).rekey = some k → k.derived = false)
    (asked : (s.port p).asked = true) (endL : s.isEndL p = true) : s.mayRekey p = true := by
  have undetermined : ((s.port p).rekey.any fun k => k.derived) = false := by
    cases h : (s.port p).rekey with
    | none => rfl
    | some k => exact fresh k h
  simp [State.mayRekey, up, endL, asked, undetermined]

/-! ### The switch of the transmit key (R331) -/

/-- A port that sends under its new key. -/
def PortSt.switched (x : PortSt) : PortSt :=
  { x with txKey := x.newTx, newTx := none, keyPhase := !x.keyPhase, rekey := none, attempt := none }

theorem State.keySwitch_early {s : State} {p : Nat} {k : Option Nat} {m : List Byte} {f : Nat}
    (derived : (s.port p).rekey = some ⟨k, m, true, some f⟩) (early : s.frame < f ∨ s.midFrame p = true) : s.keySwitch p = s := by
  unfold State.keySwitch
  rw [derived]
  exact if_pos early

/-- The module with the new transmit key of port `p` in use, before the trace record. -/
def State.keySwitched (s : State) (p : Nat) : State :=
  ((s.updPort p PortSt.switched).wr (portReg .txFrameCtr p) 0).bump (portReg .rekeys p) 1

theorem State.keySwitch_due {s : State} {p : Nat} {k : Option Nat} {m : List Byte} {f : Nat}
    (derived : (s.port p).rekey = some ⟨k, m, true, some f⟩) (due : f ≤ s.frame) (whole : s.midFrame p = false) :
    ∃ b, s.keySwitch p = (s.keySwitched p).logTrace (p / 5) 0x0502 p b := by
  unfold State.keySwitch
  rw [derived]
  exact ⟨_, if_neg (by simp [whole, due])⟩

theorem State.rd_keySwitched {s : State} (ok : s.regsOk) {p : Nat} (hp : p < 40) :
    (s.keySwitched p).rd (portReg .txFrameCtr p) = 0
      ∧ (s.keySwitched p).rd (portReg .rekeys p) = (s.rd (portReg .rekeys p) + 1) % 2 ^ 64 := by
  have apart := portReg_addr_ne (n := .rekeys) (m := .txFrameCtr) hp rfl rfl (by decide) (by decide) nofun
  have written : ((s.updPort p PortSt.switched).wr (portReg .txFrameCtr p) 0).regsOk := State.wr_regsOk (s := s.updPort p _) _ _ ok
  constructor
  · exact (State.rd_bump_other _ written apart.symm).trans (State.rd_wr_same (s := s.updPort p _) _ _ ok)
  · refine (State.rd_bump_same _ _ written).trans ?_
    rw [State.rd_wr_other (s := s.updPort p _) _ ok apart]
    rfl

/-- Settles O47: each row acts in its time on the port it names, and the log beside it changes none of what is said here. -/
theorem linkKeysAreRenewed : Obligations.LinkKeysAreRenewed := by
  intro s p inv hp x
  refine ⟨fun secure value fits accepts ask on was up => ?asked, fun not => ?stays, fun may => ?begins,
    State.mayRekey_of_asked, State.isEndL_of_keyed, fun k m f derived => ⟨fun early => ?early, fun due whole => ?switch⟩,
    fun k old => ?expiry, fun open' spent => ?spent, fun tx rx => ?fresh⟩
  case asked =>
    have same : (s.withPortControl p value).portEnable p (bitOf (s.rd (portReg .portControl p)) 0) (bitOf value 0)
        = s.withPortControl p value := by
      rw [on, was]
      exact if_pos rfl
    have run : exec (.rekey secure p value) s = .next ((s.withPortControl p value).updPort p fun y => { y with asked := true }) := by
      refine congrArg Host.Outcome.next ((if_pos ask).trans ?_)
      exact (accepts.write_portControl inv.regs fits same).trans ((if_pos ask).trans (if_pos up))
    exact ⟨_, run, State.port_updPort_same .., fun k ne => State.port_updPort_other _ _ ne⟩
  case stays => exact congrArg Host.Outcome.next (if_neg (by simp [not]))
  case begins =>
    refine ⟨_, congrArg Host.Outcome.next (if_pos may), ?_⟩
    dsimp only
    rw [State.port_updPort_same]
    exact ⟨rfl, rfl, rfl, rfl, rfl, rfl, rfl, rfl⟩
  case early => exact congrArg Host.Outcome.next (State.keySwitch_early derived early)
  case switch =>
    obtain ⟨b, run⟩ := State.keySwitch_due derived due whole
    have ok : (s.keySwitched p).regsOk := State.bump_regsOk _ _ (State.wr_regsOk (s := s.updPort p _) _ _ inv.regs)
    obtain ⟨ctr, count⟩ := State.rd_keySwitched inv.regs hp
    refine ⟨_, congrArg Host.Outcome.next run, ?_, ?_, ?_⟩
    · exact (State.port_of_fabric_eq (State.logTrace_fabric ..) p).trans (State.port_updPort_same s p _)
    · exact (State.rd_logTrace ok _ _ _ _ (portReg_inMap (n := .txFrameCtr) hp rfl (by decide)) nofun).trans ctr
    · exact (State.rd_logTrace ok _ _ _ _ (portReg_inMap (n := .rekeys) hp rfl (by decide)) nofun).trans count
  case expiry =>
    show Host.Outcome.next (match (s.port p).oldRx with | some k => _ | none => s) = _
    rw [show (s.port p).oldRx = some k from old]
  case spent =>
    have reached : s.ctrReached p (2 ^ 48) = true := by simpa [State.ctrReached] using spent
    refine ⟨_, congrArg Host.Outcome.next (if_pos ⟨open', reached⟩), ?_⟩
    rw [State.port_portDown]
    exact ⟨rfl, rfl, rfl, rfl⟩
  case fresh =>
    have left : s.ctrReached p (2 ^ 48) = false := by
      rw [State.ctrReached, decide_eq_false (Nat.not_le.2 tx), decide_eq_false (Nat.not_le.2 rx)]
      rfl
    exact congrArg Host.Outcome.next (if_neg fun reached => Bool.false_ne_true (left.symm.trans reached.2))

end Sys2Proof.Machine
end

section
/-!
PROOF. Ports come up and go down (R318, R327, R329, R333, R350, R501).
-/
set_option Elab.async false
namespace Sys2Proof.Machine

theorem State.inMode_eq {s : State} {p : Nat} {m : PortMode} (h : (s.port p).mode = m) (t : State) : s.inMode p m t = t := if_pos h

theorem next_inMode {s t u : State} {p : Nat} {m : PortMode} (h : (s.port p).mode = m) (eq : t = u) :
    (Host.Outcome.next (s.inMode p m t) : Host.Outcome State Fault Refusal) = .next u :=
  congrArg Host.Outcome.next ((State.inMode_eq h t).trans eq)

/-! ### ENABLE (R333) -/

section
variable {s : State} {p v : Nat} (ok : s.regsOk)
include ok

/-- ENABLE of the word stored, as a field. -/
theorem State.fld_withPortControl (on : bitOf v 0 = true) : (s.withPortControl p v).fld (portReg .portControl p) 0 0 = 1 := by
  have bit := (bitOf_portControlWord p (s.rd (portReg .portControl p)) v).trans on
  rw [State.fld, State.rd_withPortControl ok]
  exact Nat.eq_of_testBit_eq fun i => by
    rw [testBit_bitsOf, Nat.zero_add]
    cases i with
    | zero => exact bit
    | succ i => simp [Nat.testBit_succ]

theorem State.withPortControl_free (hp : p < 40) (free : s.FreeToTrain p) : (s.withPortControl p v).FreeToTrain p := by
  refine ⟨free.there, ?_, free.sound, free.ready⟩
  have apart := addr_ne_of_name (regDie0_inMap (n := .nodeReg) rfl (by decide)) (portReg_inMap (n := .portControl) hp rfl (by decide)) nofun
  exact (State.rd_wr_other _ ok apart).trans_ne free.named

/-- ENABLE set from 0 begins bring-up. -/
theorem State.portEnable_set (hp : p < 40) (free : s.FreeToTrain p) (on : bitOf v 0 = true) :
    (s.withPortControl p v).portEnable p false true = (s.withPortControl p v).setMode p .training :=
  State.bringUp_eq (State.withPortControl_free ok hp free) (State.fld_withPortControl ok on)

end

/-! ### Authentication (R327, R501) -/

/-- A port in AUTHENTICATING at pip `now`, its nonce drawn and its IDENTITY begun. -/
def PortSt.authenticating (x : PortSt) (now : Nat) (nonce : List Byte) (identity : MgmtOut) : PortSt :=
  { x.entering .authenticating now with
    auth := some ⟨nonce, none, [], [], false, none, none, false⟩, mgmt := [identity], mgmtNext := 0, mgmtRx := none }

theorem State.beginAuth_port (s : State) (p : Nat) : (s.beginAuth p).port p =
    (s.port p).authenticating s.now (Config.drbg s.sec.draws 32) (s.identityHead (Config.drbg s.sec.draws 32)) := by
  refine (State.port_setMode _ p .authenticating).trans ?_
  rw [State.sendMgmt, State.port_updPort_same, State.port_updPort_same]
  rfl

theorem State.beginAuth_draws (s : State) (p : Nat) : (s.beginAuth p).sec.draws = s.sec.draws + 1 :=
  congrArg SecSt.draws (State.setMode_sec ..)

/-- The keys of a whole exchange with an accepted peer, and the peer, in the port (R327). -/
def State.keyed (s : State) (p : Nat) (a : AuthSt) (peer : Nat × Nat) : State :=
  (s.installKeys p (linkKeys (s.isEndL p) (a.secret.getD []) (s.transcript p a))).updPort p fun x =>
    { x with peerNode := peer.1, peerPort := peer.2, exchanges := 0 }

/-- The peer has the owner that this module asks for (R493, R501). -/
def State.Owned (s : State) (a : AuthSt) : Prop := s.fld (regDie0 .secPolicy) 0 0 ≠ 1 ∨ a.peer.map (·.2) = some s.ownerHash

section
variable {s : State} {p : Nat} {peer : Nat × Nat} {a : AuthSt}

theorem State.authenticate_stranger (stranger : (s.port p).sender ≠ some peer) (verified : Bool) : s.authenticate p peer verified = s := by
  unfold State.authenticate
  dsimp only
  split
  · rfl
  · exact if_pos stranger

variable (auth : (s.port p).auth = some a) (sender : (s.port p).sender = some peer)
include auth sender

theorem State.authenticate_unverified : s.authenticate p peer false = s.portDown p 4 := by
  simp [State.authenticate, auth, sender]

theorem State.authenticate_unfinished (short : a.whole (s.port p) = false) : s.authenticate p peer true = s := by
  simp [State.authenticate, auth, sender, short]

theorem State.authenticate_disowned (whole : a.whole (s.port p) = true) (disowned : ¬ s.Owned a) :
    s.authenticate p peer true = s.portDown p 4 := by
  obtain ⟨need, other⟩ := not_or.1 disowned
  simp [State.authenticate, auth, sender, whole, Decidable.not_not.1 need, other]

theorem State.authenticate_accepted (whole : a.whole (s.port p) = true) (owned : s.Owned a) :
    s.authenticate p peer true = (s.keyed p a peer).setMode p .measuring := by
  have fits : ¬(s.fld (regDie0 .secPolicy) 0 0 = 1 ∧ a.peer.map (·.2) ≠ some s.ownerHash) := fun ⟨need, other⟩ =>
    owned.elim (fun h => h need) other
  unfold State.authenticate
  dsimp only
  rw [auth]
  dsimp only
  rw [if_neg (not_not.2 sender), if_neg (by simp), if_neg (by simp [whole]), if_neg fits]
  rfl

end

/-- A port under the keys `k` of its exchange with `peer`. -/
def PortSt.keyed (x : PortSt) (k : LinkKey × LinkKey) (peer : Nat × Nat) : PortSt :=
  { x with
    txKey := some k.1, rxKey := some k.2, rxLive := false, keyPhase := false, rxPhase := false, auth := none,
    peerNode := peer.1, peerPort := peer.2, exchanges := 0 }

theorem State.port_keyed (s : State) (p : Nat) (a : AuthSt) (peer : Nat × Nat) : (s.keyed p a peer).port p =
    (s.port p).keyed (linkKeys (s.isEndL p) (a.secret.getD []) (s.transcript p a)) peer := by
  refine (State.port_updPort_same _ p _).trans ?_
  rw [State.installKeys, State.port_of_fabric_eq (State.wr_fabric ..), State.port_of_fabric_eq (State.wr_fabric ..),
    State.port_updPort_same]
  rfl

theorem State.keyed_regs (s : State) (p : Nat) (a : AuthSt) (peer : Nat × Nat) :
    (s.keyed p a peer).regs = ((s.wr (portReg .txFrameCtr p) 0).wr (portReg .rxFrameCtr p) 0).regs := rfl

theorem State.keyed_regsOk {s : State} (ok : s.regsOk) (p : Nat) (a : AuthSt) (peer : Nat × Nat) : (s.keyed p a peer).regsOk :=
  State.wr_regsOk (portReg .rxFrameCtr p) 0 (State.wr_regsOk (portReg .txFrameCtr p) 0 ok)

/-- FRAME_CTR of both directions starts at 0 under new keys (R328). -/
theorem State.rd_keyed {s : State} (ok : s.regsOk) {p : Nat} (hp : p < 40) (a : AuthSt) (peer : Nat × Nat) :
    (s.keyed p a peer).rd (portReg .txFrameCtr p) = 0 ∧ (s.keyed p a peer).rd (portReg .rxFrameCtr p) = 0 := by
  have first := State.wr_regsOk (portReg .txFrameCtr p) 0 ok
  have apart := portReg_addr_ne (n := .txFrameCtr) (m := .rxFrameCtr) hp rfl rfl (by decide) (by decide) nofun
  have regs := State.rd_of_regs_eq (s.keyed_regs p a peer)
  exact ⟨(regs _).trans ((State.rd_wr_other _ first apart).trans (State.rd_wr_same _ _ ok)),
    (regs _).trans (State.rd_wr_same _ _ first)⟩

/-! ### The measurement of the delay (R333, R367) -/

section
variable {s : State} {p : Nat} (enough : 16 ≤ (s.port p).exchanges)
include enough

theorem State.measured_far (far : 768 < (s.port p).delay) : s.measured p (s.port p).delay = s.portDown p 5 := by
  unfold State.measured
  dsimp only
  rw [if_neg (by omega), if_neg (by omega)]

theorem State.measured_near (near : (s.port p).delay ≤ 768) : s.measured p (s.port p).delay
    = (s.updPort p fun x => { x with credit := 64, creditBack := 0, badControls := 0, fecFrames := 0 }).setMode p .up := by
  unfold State.measured
  dsimp only
  rw [if_neg (by omega), if_pos near]

end

theorem State.measured_other {s : State} {p d : Nat} (other : (s.port p).exchanges < 16 ∨ (s.port p).delay ≠ d) : s.measured p d = s :=
  if_pos other

/-! ### A direction fails (R329, R350) -/

theorem State.propose_ports (s : State) : s.propose.fabric.ports = s.fabric.ports := by
  unfold State.propose
  exact ite_cases (P := fun t : State => t.fabric.ports = _) rfl (State.adoptFailover_ports ..)

/-- A failover is proposed to a valid standby table where no switch pends. -/
theorem State.propose_pending {s : State} (on : s.fld (regDie0 .failoverControl) 0 0 = 1) (standby : s.fabric.standby.isSome = true)
    (none' : s.fabric.pendingSwitch = none) :
    s.propose.fabric.pendingSwitch = some ⟨s.frame + max 16 (s.fld (regDie0 .failoverControl) 8 1), true, none⟩ := by
  have proposes : s.propose = s.adoptFailover (s.frame + s.failLead) := if_neg (by
    simp only [on, none', Option.any_none, Option.isNone_iff_eq_none]
    simpa [Option.isSome_iff_ne_none] using standby)
  rw [proposes, State.adoptFailover, none']
  rfl

theorem State.port_portFailed (s : State) (p : Nat) : (s.portFailed p).port p = (s.port p).fallen 6 s.now := by
  unfold State.portFailed
  generalize (⟨.port, 0, ⟨8, p / 5, p⟩, none, noWhere⟩ : FaultRec) = f
  obtain ⟨_, _, _, _, _, eq⟩ := (s.portDown p 6).faultRecord_rest f
  refine Eq.trans ?_ (s.port_portDown p 6)
  rw [State.port, State.propose_ports, eq]
  rfl

/-- The failover that a failing port proposes. -/
theorem State.portFailed_pending {s : State} (ok : s.regsOk) (p : Nat) (on : s.fld (regDie0 .failoverControl) 0 0 = 1)
    (standby : s.fabric.standby.isSome = true) (none' : s.fabric.pendingSwitch = none) : (s.portFailed p).fabric.pendingSwitch
      = some ⟨s.frame + max 16 (s.fld (regDie0 .failoverControl) 8 1), true, none⟩ := by
  unfold State.portFailed
  generalize (⟨.port, 0, ⟨8, p / 5, p⟩, none, noWhere⟩ : FaultRec) = f
  have control : ∀ hi lo, ((s.portDown p 6).faultRecord f).fld (regDie0 .failoverControl) hi lo
      = s.fld (regDie0 .failoverControl) hi lo := fun hi lo => congrArg (bitsOf · hi lo)
    ((State.rd_of_regs_eq (State.faultRecord_regs ..) _).trans
      (State.rd_portDown ok p 6 (regDie0_inMap rfl (by decide)) nofun))
  have frame : ((s.portDown p 6).faultRecord f).frame = s.frame := by
    obtain ⟨_, _, _, _, _, eq⟩ := (s.portDown p 6).faultRecord_rest f
    rw [eq]
    exact congrArg (· / 1024) (s.portDown_now p 6)
  have fabric : ((s.portDown p 6).faultRecord f).fabric = (s.updPort p fun x => x.fallen 6 s.now).fabric := by
    obtain ⟨_, _, _, _, _, eq⟩ := (s.portDown p 6).faultRecord_rest f
    rw [eq]
    exact s.portDown_fabric p 6
  have pending := State.propose_pending ((control 0 0).trans on) (by rw [fabric]; exact standby) (by rw [fabric]; exact none')
  rw [pending, control, frame]

/-! ### The rows of ENABLE -/

section
variable {s : State} {secure : Bool} {p v : Nat} (accepts : s.Accepts secure (portReg .portControl p)) (ok : s.regsOk) (fits : v < 2 ^ 32)
include accepts ok fits

/-- ENABLE set from 0: the word is stored and the port trains; a REKEY in the same word is lost. -/
theorem exec_portEnable_set (hp : p < 40) (free : s.FreeToTrain p) (on : bitOf v 0 = true)
    (was : bitOf (s.rd (portReg .portControl p)) 0 = false) :
    exec (.portEnable secure p v) s = .next ((s.withPortControl p v).setMode p .training) := by
  have trains := State.portEnable_set ok hp free on
  rw [← was, ← on] at trains
  refine congrArg Host.Outcome.next ((accepts.write_portControl ok fits trains).trans ?_)
  rw [State.askRekey_of_not_up (by rw [State.port_setMode]; nofun), ite_self]

/-- ENABLE cleared: the word is stored and the port goes DOWN for reason 1. -/
theorem exec_portEnable_cleared (off : bitOf v 0 = false) (was : bitOf (s.rd (portReg .portControl p)) 0 = true)
    (there : (s.die (p / 5)).inService = true) : exec (.portEnable secure p v) s = .next ((s.withPortControl p v).portDown p 1) := by
  have falls : (s.withPortControl p v).portEnable p (bitOf (s.rd (portReg .portControl p)) 0) (bitOf v 0)
      = (s.withPortControl p v).portDown p 1 := by
    rw [off, was]
    exact if_pos there
  refine congrArg Host.Outcome.next ((accepts.write_portControl ok fits falls).trans ?_)
  rw [State.askRekey_of_not_up (by rw [State.port_portDown]; nofun), ite_self]

end

theorem exec_bringUpTimeout {s : State} {p n r : Nat} (limit : (s.port p).mode.limit = some (n, r)) :
    exec (.bringUpTimeout p) s = .next (if (s.port p).since + n ≤ s.now then s.portDown p r else s) := by
  show Host.Outcome.next (match (s.port p).mode.limit with | some (n, r) => _ | none => s) = _
  rw [limit]

/-- A port that has gone DOWN for a reason of its link starts again after its interval (R333). -/
theorem exec_retryInterval_due {s : State} {p : Nat} (closed : (s.port p).mode = .down) (reason : (s.port p).reason ∈ [2, 3, 5, 6, 7])
    (due : (s.port p).since + 8000000 * max 1 (s.fld (portReg .portControl p) 15 8) ≤ s.now) :
    exec (.retryInterval p) s = .next (s.bringUp p) :=
  congrArg Host.Outcome.next (if_pos ⟨closed, List.contains_iff_mem.2 reason, due⟩)

/-- Settles O46: each row of bring-up takes its port where its own lemma says, and the log beside it leaves ports and registers alone. -/
theorem portsComeUpAndGoDown : Obligations.PortsComeUpAndGoDown := by
  intro s p inv hp x down at' free
  have trains : free → s.FreeToTrain p := fun ⟨there, named, sound, ready⟩ => ⟨there, named, sound, ready⟩
  have falls : ∀ {row : Instr} {r : Nat}, exec row s = .next (s.portDown p r) → ∃ t, exec row s = .next t ∧ t.port p = down r :=
    fun run => ⟨_, run, s.port_portDown p _⟩
  have enters : ∀ {row : Instr} {m : PortMode}, exec row s = .next (s.setMode p m) → ∃ t, exec row s = .next t ∧ t.port p = at' m :=
    fun run => ⟨_, run, s.port_setMode p _⟩
  refine ⟨fun secure value fits accepts => ⟨fun on was closed open' => ?set, fun off was there => ?cleared⟩,
    fun training => enters (next_inMode training rfl), fun other => congrArg Host.Outcome.next (if_neg other), fun aligning => ?aligned,
    fun n q chain sig stranger => ?stranger, fun d other => ?delay, fun n q chain sig a mode auth sender => ?authentication,
    fun mode => ⟨fun few => next_inMode mode (State.measured_other (.inl few)), fun enough => ?measured⟩,
    fun n r limit => ⟨fun early => ?early, fun late => ?late⟩, fun closed final => ?final, fun closed reason open' on due => ?retry,
    fun up failing => ⟨_, congrArg Host.Outcome.next (if_pos ⟨up, failing⟩), s.port_portFailed p, State.portFailed_pending inv.regs p⟩,
    fun up sound codes => ?sound⟩
  case set =>
    refine ⟨_, exec_portEnable_set accepts inv.regs fits hp (trains open') on was, State.port_setMode .., ?_⟩
    rw [State.rd_setMode (State.withPortControl_regsOk inv.regs p value) p _ (portReg_inMap (n := .portControl) hp rfl (by decide)) nofun,
      State.rd_withPortControl inv.regs, bitOf_portControlWord]
    exact on
  case cleared => exact ⟨_, exec_portEnable_cleared accepts inv.regs fits off was there, State.port_portDown ..⟩
  case aligned => exact ⟨_, next_inMode aligning rfl, s.beginAuth_draws p, s.beginAuth_port p⟩
  case stranger =>
    refine congrArg Host.Outcome.next (ite_cases (P := fun t => t = s) ?_ rfl)
    exact State.authenticate_stranger stranger _
  case delay =>
    refine congrArg Host.Outcome.next (ite_cases (P := fun t => t = s) ?_ rfl)
    exact State.measured_other (.inr (Ne.symm other))
  case authentication =>
    intro owned row
    refine ⟨fun verified signed short => ?_, fun refused => falls (next_inMode mode ?_), fun verified signed whole accepted => ?_⟩
    · subst verified signed
      exact next_inMode mode (State.authenticate_unfinished auth sender short)
    · by_cases proved : (chain && sig) = true
      · obtain ⟨whole, disowned⟩ : a.whole x = true ∧ ¬owned := by
          simpa [(Bool.and_eq_true_iff.1 proved).1, (Bool.and_eq_true_iff.1 proved).2] using refused
        rw [proved]
        exact State.authenticate_disowned auth sender whole disowned
      · rw [Bool.eq_false_iff.2 proved]
        exact State.authenticate_unverified auth sender
    · subst verified signed
      have keyed := State.rd_keyed inv.regs hp a (n, q)
      have ok := State.keyed_regsOk inv.regs p a (n, q)
      refine ⟨_, next_inMode mode (State.authenticate_accepted auth sender whole accepted), ?_⟩
      rw [State.port_setMode, State.rd_setMode ok p _ (portReg_inMap (n := .txFrameCtr) hp rfl (by decide)) nofun,
        State.rd_setMode ok p _ (portReg_inMap (n := .rxFrameCtr) hp rfl (by decide)) nofun]
      rw [State.port_keyed]
      exact ⟨rfl, rfl, rfl, rfl, rfl, rfl, rfl, keyed⟩
  case measured =>
    by_cases near : x.delay ≤ 768
    · refine ⟨_, next_inMode mode (State.measured_near enough near), fun _ => ?_, fun far => absurd near (Nat.not_le.2 far)⟩
      rw [State.port_setMode, State.port_updPort_same]
      exact ⟨rfl, rfl, rfl⟩
    · refine ⟨_, next_inMode mode (State.measured_far enough (Nat.not_le.1 near)), fun h => absurd h near, fun _ => s.port_portDown p 5⟩
  case early => exact (exec_bringUpTimeout limit).trans (congrArg _ (if_neg (Nat.not_le.2 early)))
  case late => exact falls ((exec_bringUpTimeout limit).trans (congrArg _ (if_pos late)))
  case final => exact congrArg Host.Outcome.next (if_neg fun ⟨_, listed, _⟩ => by simp [x] at final; simp [final] at listed)
  case retry => exact enters ((exec_retryInterval_due closed reason due).trans (congrArg _ (State.bringUp_eq (trains open') on)))
  case sound => exact congrArg Host.Outcome.next (if_neg fun ⟨_, failing⟩ =>
      failing.elim (Nat.not_le.2 sound) (Nat.not_le.2 codes))

end Sys2Proof.Machine
end

section
/-!
SUPPORT. What slots at their units and decisions leave of the links: fabric time and every port stand as they were (R356–R358, R427, R439, R440).
-/
set_option Elab.async false
namespace Sys2Proof.Machine

/-- Fabric time and the ports. -/
def State.links (s : State) : TimeSt × Tab PortSt := (s.time, s.fabric.ports)

theorem Keeps.links {q : Bool} {s t : State} (h : Keeps true q s t) : t.links = s.links :=
  Prod.ext (h.plane rfl).time (congrArg FabricSt.ports (h.plane rfl).fabric :)

theorem State.links_time {s t : State} (h : t.links = s.links) : t.time = s.time := congrArg Prod.fst h

theorem State.foldl_links {α : Type} {f : State → α → State} (step : ∀ t a, (f t a).links = t.links) (l : List α) (s : State) :
    (l.foldl f s).links = s.links :=
  List.foldlRecOn l f (motive := fun t => t.links = s.links) rfl fun t ht a _ => (step t a).trans ht

theorem State.foldl_links_fst {α β : Type} {f : State × β → α → State × β} (step : ∀ w a, (f w a).1.links = w.1.links) (l : List α)
    (w : State × β) : (l.foldl f w).1.links = w.1.links :=
  List.foldlRecOn l f (motive := fun v => v.1.links = w.1.links) rfl fun v hv a _ => (step v a).trans hv

/-! ### Memory, commands and records -/

@[simp] theorem State.pmc_links (s : State) (die kind inst ev : Nat) (ctx : Option Nat) (n : Nat) :
    (s.pmc die kind inst ev ctx n).links = s.links :=
  (State.pmc_keeps (lp := true) (lq := false) s die kind inst ev ctx n (.refl ..)).links

@[simp] theorem State.logTrace_links (s : State) (die code a b : Nat) : (s.logTrace die code a b).links = s.links :=
  (State.logTrace_keeps (lp := true) (lq := false) s die code a b (.refl ..)).links

@[simp] theorem State.ueReport_links (s : State) (a : Nat) : (s.ueReport a).links = s.links :=
  (State.ueReport_keeps (lp := true) (lq := false) s a (.refl ..)).links

@[simp] theorem State.finish_links (s : State) (i : CmdId) (e : Ending) : (s.finish i e).links = s.links :=
  (State.finish_keeps (lp := true) (lq := false) s i e (.refl ..)).links

@[simp] theorem State.putPlane_links (s : State) (ctx a : Nat) (bs : List Byte) : (s.putPlane ctx a bs).1.links = s.links :=
  (State.putPlane_keeps (lp := true) (lq := false) s ctx a bs (.refl ..)).links

@[simp] theorem State.raise_links (s : State) (t bit : Nat) : (s.raise t bit).links = s.links := by
  unfold State.raise
  split <;> rfl

/-! ### The updaters (chapter 16) -/

@[simp] theorem State.updUpd_links (s : State) (d : Nat) (f : UpdDie → UpdDie) : (s.updUpd d f).links = s.links := rfl
@[simp] theorem State.updUStep_links (s : State) (d g t : Nat) (f : UStep → UStep) : (s.updUStep d g t f).links = s.links := rfl

@[simp] theorem State.updRaise_links (s : State) (d g t bit : Nat) : (s.updRaise d g t bit).links = s.links := State.raise_links ..

theorem State.keepBefore_links {s u : State} {d gi t plane j : Nat} {g : GRec} (h : s.keepBefore d gi t g plane j = .ok u) :
    u.links = s.links := by
  unfold State.keepBefore at h
  split at h
  · cases h; rfl
  · split at h
    · cases h; rfl
    · dsimp only at h
      split at h
      · cases h
      · cases h; rfl

/-- A fold over results keeps what its steps keep. -/
theorem State.foldl_ok_links {ε α : Type} {f : Except ε State → α → Except ε State} {s : State}
    (step : ∀ r a, (∀ u, r = .ok u → u.links = s.links) → ∀ u, f r a = .ok u → u.links = s.links) (l : List α) {r : Except ε State}
    (start : ∀ u, r = .ok u → u.links = s.links) : ∀ u, l.foldl f r = .ok u → u.links = s.links :=
  List.foldlRecOn l f (motive := fun r => ∀ u, r = .ok u → u.links = s.links) start fun r hr a _ => step r a hr

theorem State.keepAll_links {s u : State} {d gi t lo hi : Nat} {g : GRec} (h : s.keepAll d gi t g lo hi = .ok u) : u.links = s.links := by
  refine State.foldl_ok_links (fun r p hr => State.foldl_ok_links (fun r j hr v hv => ?_) _ hr) _ (fun v hv => ?_) u h
  · split at hv
    · cases hv
    · exact (State.keepBefore_links hv).trans (hr _ rfl)
  · cases hv; rfl

theorem State.emit_links (s : State) (d gi t : Nat) (g : GRec) : (s.emit d gi t g).links = s.links := by
  unfold State.emit
  split
  · rfl
  · refine State.foldl_links (fun u e => ?_) _ s
    refine ite_cases (P := fun v : State => v.links = u.links) rfl ?_
    dsimp only
    split
    · rfl
    · exact ite_cases (P := fun v : State => v.links = u.links) rfl rfl

theorem State.readSched_links (s : State) (d gi t : Nat) : (s.readSched d gi t).1.links = s.links := by
  unfold State.readSched
  split
  · rfl
  · split
    · rfl
    · split
      · rfl
      · split <;> simp

theorem State.applyMap_links (s : State) (d gi t : Nat) (g : GRec) (addr : Nat) : (s.applyMap d gi t g addr).1.links = s.links := by
  unfold State.applyMap
  dsimp only
  split
  · rfl
  · refine State.foldl_links_fst (fun w i => ?_) _ _
    split
    · rfl
    · split
      · rfl
      · rename_i v kept
        refine Eq.trans ?_ (State.keepAll_links kept)
        refine State.foldl_links_fst (fun w p => ?_) _ (v, none)
        exact State.putPlane_links ..

theorem State.runRule_links (s : State) (d gi t : Nat) (g : UGroup) (u : UStep) (lo : Nat) (xs : List FVal) (idle : Nat → Bool) :
    (s.runRule d gi t g u lo xs idle).1.links = s.links := by
  unfold State.runRule
  dsimp only
  split
  · split
    · rfl
    · rename_i v kept
      refine Eq.trans (State.foldl_links_fst (fun w p => State.foldl_links_fst (fun w i => ?_) _ w) _ (v, none))
        (State.keepAll_links (s := { s with freeCount := s.freeCount + xs.length }) kept)
      split
      · rfl
      · exact State.putPlane_links ..
  all_goals rfl

theorem State.tileStats_links (s : State) (r : GRec) (g : UGroup) (t j : Nat) (gm : Mat) : (s.tileStats r g t j gm).1.links = s.links :=
  (State.tileStats_keeps (lp := true) (lq := false) s r g t j gm (.refl ..)).links

theorem State.applyTile_links (s : State) (d gi t : Nat) (g : UGroup) (u : UStep) (j : Nat) (idle : Nat → Bool) :
    (s.applyTile d gi t g u j idle).1.links = s.links := by
  unfold State.applyTile
  dsimp only
  split
  · rfl
  · split
    · rename_i q v _ kept
      have ruled := (State.runRule_links v d gi t g u (4096 * j) q.flatten idle).trans (State.keepAll_links kept)
      split
      · exact ruled
      · exact (State.tileStats_links ..).trans ruled
    all_goals rfl

theorem State.applyBlock_links (s : State) (d gi t lo : Nat) (bits : List Nat) (zero : Bool) :
    (s.applyBlock d gi t lo bits zero).links = s.links := by
  unfold State.applyBlock
  have read := s.readSched_links d gi t
  generalize s.readSched d gi t = r at read ⊢
  obtain ⟨s1, ready⟩ := r
  cases ready with
  | false => exact read
  | true =>
    dsimp -zeta only at read ⊢
    split
    · exact read
    · extract_lets r u fail m mapped n skip idleNow
      have failed : ∀ (v : State) e, v.links = s.links → (fail v e).links = s.links := fun v e hv => by
        refine (State.updRaise_links ..).trans ?_
        split
        · exact (State.ueReport_links ..).trans hv
        · exact hv
      have mapped' : mapped.1.links = s.links := by
        refine ite_cases (P := fun w : State × Option AccErr => w.1.links = s.links) ?_ read
        exact (State.applyMap_links ..).trans read
      clear_value mapped fail
      obtain ⟨v, _ | e⟩ := mapped
      · dsimp -zeta only at mapped' ⊢
        extract_lets w0 u2 full a res
        have done' : res.1.links = s.links := by
          refine Eq.trans (ite_cases (P := fun w : State × Option AccErr × List (Nat × Nat) => w.1.links = v.links) ?_ ?_) mapped'
          · refine (State.foldl_links_fst (fun w j => ?_) _ _).trans (State.updUStep_links ..)
            exact ite_cases (P := fun w' : State × Option AccErr × List (Nat × Nat) => w'.1.links = w.1.links) rfl
              (State.applyTile_links ..)
          · exact ite_cases (P := fun w : State × Option AccErr × List (Nat × Nat) => w.1.links = v.links) rfl (State.runRule_links ..)
        clear_value res
        obtain ⟨w, _ | e, done⟩ := res
        · dsimp -zeta only at done' ⊢
          extract_lets k w1 w2 w3
          have counted : w2.links = s.links := (State.pmc_links ..).trans ((State.emit_links ..).trans done')
          exact ite_cases (P := fun w' : State => w'.links = s.links) counted counted
        · exact failed _ _ done'
      · exact failed _ _ mapped'

theorem State.stage_links (s : State) (d : Nat) (b : Staged) : (s.stage d b).links = s.links := by
  unfold State.stage
  dsimp only
  split
  · rfl
  · exact ite_cases (P := fun t : State => t.links = s.links) rfl (State.updRaise_links ..)

theorem State.stage5_links (s : State) (d gi t lo : Nat) (bits : List Nat) (zero : Bool) :
    (s.stage5 d gi t lo bits zero).links = s.links := by
  unfold State.stage5
  dsimp only
  split
  · rfl
  · split
    · exact State.raise_links ..
    · split
      · exact (State.stage_links ..).trans (State.pmc_links ..)
      · exact ite_cases (P := fun u : State => u.links = s.links) (State.stage_links ..) (State.applyBlock_links ..)

theorem State.takeHeader_links (s : State) (d ctx : Nat) (sl : Slot) : (s.takeHeader d ctx sl).1.links = s.links := by
  unfold State.takeHeader
  dsimp only
  split
  · exact State.raise_links ..
  · split_ifs
    · exact State.raise_links ..
    · exact State.updRaise_links ..
    · exact State.updRaise_links ..
    · exact State.updRaise_links ..
    · exact State.updRaise_links ..
    · exact State.updRaise_links ..
    · rfl

theorem State.takeBlock_links (s : State) (d : Nat) (b : Bucket) (sl : Slot) : (s.takeBlock d b sl).links = s.links := by
  unfold State.takeBlock
  extract_lets s1 gi discard t last lo hi s2 zero
  have discarded : ∀ v : State, v.links = s.links → (discard v).links = s.links := fun v hv => hv
  have start : s1.links = s.links := rfl
  clear_value discard s1
  split
  · exact discarded _ start
  · extract_lets u ck s3 s4 s5
    have raised : ∀ (v : State) g bit, v.links = s.links → (discard (v.updRaise d gi g bit)).links = s.links := fun v g bit hv =>
      discarded _ ((State.updRaise_links ..).trans hv)
    have noted : s3.links = s.links := start
    have counted : s5.links = s.links := ite_cases (P := fun v : State => v.links = s.links) noted noted
    clear_value s3 s5
    refine ite_cases (P := fun v : State => v.links = s.links) (discarded _ start) ?_
    refine ite_cases (P := fun v : State => v.links = s.links) (raised _ _ _ start) ?_
    refine ite_cases (P := fun v : State => v.links = s.links) (raised _ _ _ start) ?_
    split
    · exact raised _ _ _ noted
    · have read := (s5.readSched_links d gi t).trans counted
      generalize s5.readSched d gi t = r at read ⊢
      obtain ⟨s6, _ | _⟩ := r
      · exact read
      · exact (State.stage5_links ..).trans read

/-! ### Decisions (R439, R440) -/

theorem State.decideDie_links (s : State) (d t : Nat) (commit : Bool) : (s.decideDie d t commit).links = s.links := by
  unfold State.decideDie
  refine (State.updUpd_links ..).trans (ite_cases (P := fun u : State => u.links = s.links) rfl ?_)
  exact State.foldl_links (fun u g => (State.restoreOpen_keeps (lp := true) (lq := false) u g t (.refl ..)).links) _ s

theorem State.reverse_links (s : State) (d t : Nat) : (s.reverse d t).links = s.links := by
  unfold State.reverse
  refine (State.updUpd_links ..).trans (State.foldl_links (fun u r => ?_) _ s)
  exact (State.xorBlock_keeps (lp := true) (lq := false) u r.ctx r.addr r.delta (.refl ..)).links

theorem State.swapAll_links (s : State) (t : Nat) (commit : Bool) : (s.swapAll t commit).links = s.links :=
  State.foldl_links (fun u w => (State.swapTerms_keeps (lp := true) (lq := false) u w commit (.refl ..)).links) _ s

theorem State.endWaits_links (s : State) (t : Nat) (commit : Bool) (reasons : Nat) : (s.endWaits t commit reasons).links = s.links :=
  (State.endWaits_keeps (lp := true) (lq := false) s t commit reasons (.refl ..)).links

theorem State.decideStep_links (s : State) (t : Nat) (commit : Bool) (reasons : Nat) : (s.decideStep t commit reasons).links = s.links := by
  refine (State.logTrace_links ..).trans ((State.endWaits_links ..).trans ((State.swapAll_links ..).trans ?_))
  refine State.foldl_links (fun u d => ite_cases (P := fun v : State => v.links = u.links) ?_ ?_) _ s
  · exact State.decideDie_links ..
  · exact (State.reverse_links ..).trans (State.decideDie_links ..)

theorem State.applyDecision_links (s : State) (d : Decision) : (s.applyDecision d).links = s.links := by
  unfold State.applyDecision
  dsimp only
  have first := fun x : State => x.decideStep_links d.step d.commit d.reasons
  exact ite_cases (P := fun t : State => t.links = s.links) ((State.decideStep_links ..).trans (first _)) (first _)

/-! ### Slots at their units (R356, R357, R360) -/

theorem State.takeUpdate_links (s : State) (d : Nat) (f : FlowRec) (sl : Slot) : (s.takeUpdate d f sl).links = s.links := by
  unfold State.takeUpdate
  dsimp only
  split
  · rfl
  · split
    · refine (State.foldl_links (fun u e => State.takeBlock_links ..) _ _).trans ?_
      exact (State.takeHeader_links ..).trans (State.pmc_links ..)
    · split
      · exact (State.takeBlock_links ..).trans (State.pmc_links ..)
      · exact State.pmc_links ..

theorem State.takeExport_links (s : State) (d : Nat) (f : FlowRec) (sl : Slot) : (s.takeExport d f sl).links = s.links := by
  unfold State.takeExport
  dsimp only
  split
  · rfl
  · split
    · exact (State.foreignAppend_keeps (lp := true) (lq := false) _ _ _ (.refl ..)).links
    · rfl

theorem State.settleBatch_links (s : State) (id : CmdId) : (s.settleBatch id).links = s.links :=
  (State.settleBatch_keeps (lp := true) (lq := false) s id (.refl ..)).links

theorem State.takeHead_links (s : State) (c : Cmd) (i flow : Nat) (sl : Slot) : (s.takeHead c i flow sl).links = s.links := by
  unfold State.takeHead
  exact ite_cases (P := fun t : State => t.links = s.links) (State.finish_links ..) (State.settleBatch_links ..)

theorem State.batchHead_links (s : State) (die : Nat) (f : FlowRec) (sl : Slot) (recv : Bool) :
    (s.batchHead die f sl recv).links = s.links := by
  unfold State.batchHead
  dsimp only
  split
  · rfl
  · split
    · exact State.takeHead_links ..
    · exact ite_cases (P := fun t : State => t.links = s.links) rfl rfl

theorem State.takeBatch_links {s t : State} {die : Nat} {f : FlowRec} {sl : Slot} (h : s.takeBatch die f sl = some t) :
    t.links = s.links := by
  unfold State.takeBatch at h
  dsimp only at h
  split at h
  · cases h
    exact State.batchHead_links ..
  · split at h
    · cases h; rfl
    · split at h
      · cases h; rfl
      · split at h
        · cases h; rfl
        · split at h
          · cases h; rfl
          · exact (State.batchRowSlot_keeps (lp := true) (lq := false) h (.refl ..)).links

theorem State.toUnit_links {s t : State} {p : Nat} {f : FlowRec} {sl : Slot} (h : s.toUnit p f sl = some t) : t.links = s.links := by
  unfold State.toUnit at h
  dsimp only at h
  split at h
  · exact (State.takeWrite_keeps (lp := true) (lq := false) h (.refl ..)).links
  · cases h; rfl
  · cases h
    exact State.takeUpdate_links ..
  · cases h
    exact State.takeExport_links ..
  · exact (State.takeResult_keeps (lp := true) (lq := false) h (.refl ..)).links
  · exact State.takeBatch_links h

theorem State.acceptSlot_links (s : State) (p : Nat) (f : FlowRec) (sl : Slot) : (s.acceptSlot p f sl).links = s.links := by
  unfold State.acceptSlot
  refine ite_cases (P := fun t : State => t.links = s.links) rfl ?_
  cases taken : s.toUnit p f sl with
  | none => rfl
  | some t => exact State.toUnit_links taken

theorem State.retryWaiters_links (s : State) : s.retryWaiters.links = s.links := by
  refine State.foldl_links (fun t w => ?_) _ _
  cases w with
  | slot p f sl => exact State.acceptSlot_links ..
  | watch c a v => exact (State.watchWrite_keeps (lp := true) (lq := false) t c a v (.refl ..)).links

end Sys2Proof.Machine
end

section
/-!
SUPPORT. What a port keeps of a control slot, its keys, its exchange and its repair entries apart (R325, R330, R331, R368, R501).
-/
set_option Elab.async false
namespace Sys2Proof.Machine

/-- A port with its keys, management messages and repair entries left out. -/
def PortSt.told (x : PortSt) : PortSt :=
  { x with
    auth := none, rxKey := none, rxPhase := false, rxLive := false, oldRx := none, newTx := none, newRx := none, rekey := none,
    asked := false, repair := [], mgmt := [], mgmtRx := none }

def State.told (s : State) (p : Nat) : PortSt := (s.port p).told

theorem State.told_of_ports_eq {s t : State} (e : t.fabric.ports = s.fabric.ports) : t.told = s.told := by
  funext p
  rw [State.told, State.told, State.port, State.port, e]

theorem State.told_of_links_eq {s t : State} (e : t.links = s.links) : t.told = s.told := State.told_of_ports_eq (congrArg Prod.snd e)

theorem State.updPort_told (s : State) (p : Nat) {f : PortSt → PortSt} (same : ∀ x, (f x).told = x.told) :
    (s.updPort p f).told = s.told := by
  funext q
  by_cases here : q = p
  · rw [here, State.told, State.port_updPort_same, same]
    rfl
  · rw [State.told, State.port_updPort_other _ _ here]
    rfl

theorem State.foldl_told {α : Type} {f : State → α → State} (step : ∀ t a, (f t a).told = t.told) (l : List α) (s : State) :
    (l.foldl f s).told = s.told :=
  List.foldlRecOn l f (motive := fun t => t.told = s.told) rfl fun t ht a _ => (step t a).trans ht

/-- A choice keeps what both of its sides keep. -/
theorem State.ite_told {s t u : State} {c : Prop} [Decidable c] (ht : t.told = s.told) (hu : u.told = s.told) :
    (if c then t else u).told = s.told := ite_cases (P := fun v : State => v.told = s.told) ht hu

/-! ### Tags and keys (R328, R331) -/

theorem State.openPhase_told (s : State) (p n : Nat) (bs : List Byte) : (s.openPhase p n bs).1.told = s.told := by
  unfold State.openPhase
  dsimp only
  split
  · rfl
  · split
    · split
      · rfl
      · exact State.ite_told rfl (s.updPort_told p fun _ => rfl)
    · split
      · split
        · rfl
        · exact s.updPort_told p fun _ => rfl
      · rfl
      · rfl

/-! ### Repair (R368, R369) -/

theorem State.placeRep_told (s : State) (p kind slot frame flow epoch : Nat) : (s.placeRep p kind slot frame flow epoch).told = s.told :=
  s.updPort_told p fun _ => rfl

theorem State.noteEmpty_told (s : State) (frame port slot order flow epoch : Nat) :
    (s.noteEmpty frame port slot order flow epoch).told = s.told := by
  unfold State.noteEmpty
  dsimp only
  split
  · rfl
  · refine State.ite_told ?_ rfl
    exact State.placeRep_told ..

theorem State.takeRequest_told (s : State) (p slot frame flow epoch : Nat) : (s.takeRequest p slot frame flow epoch).told = s.told := by
  unfold State.takeRequest
  split
  · rfl
  · split
    · rfl
    · split
      · exact State.ite_told (State.placeRep_told ..) rfl
      · exact State.placeRep_told ..
      · extract_lets u r
        have passed : u.told = s.told := by
          refine State.foldl_told (fun w x => ?_) _ s
          exact State.placeRep_told ..
        exact State.ite_told (State.ite_told ((State.noteEmpty_told ..).trans passed) passed) passed
      · rfl

theorem State.takeEmpty_told (s : State) (p slot frame flow epoch : Nat) : (s.takeEmpty p slot frame flow epoch).told = s.told := by
  unfold State.takeEmpty
  split
  · rfl
  · split
    · rfl
    · split
      · rfl
      · refine State.foldl_told (fun w x => ?_) _ s
        exact State.placeRep_told ..
      · exact State.noteEmpty_told ..
      · rfl

theorem State.takeRepair_told (s : State) (p w : Nat) : (s.takeRepair p w).told = s.told := by
  refine State.foldl_told (fun u k => ?_) _ s
  exact State.ite_told (State.takeRequest_told ..) (State.ite_told (State.takeEmpty_told ..) rfl)

/-! ### Time, decisions and failovers (R336–R339, R350, R433) -/

theorem State.discipline_fabric (s : State) (o : Int) : (s.discipline o).fabric = s.fabric := by
  unfold State.discipline
  dsimp only [State.median, State.free]
  split
  · exact ite_cases (P := fun t : State => t.fabric = s.fabric) rfl rfl
  · refine ite_cases (P := fun t : State => t.fabric = s.fabric) ?_ ?_
    · exact ite_cases (P := fun t : State => t.fabric = s.fabric) rfl rfl
    · exact ite_cases (P := fun t : State => t.fabric = s.fabric) rfl rfl

theorem State.fromParent_fabric (s : State) (pl : List Byte) (offset : Option Int) : (s.fromParent pl offset).fabric = s.fabric := by
  unfold State.fromParent
  split
  · cases offset with
    | none => rfl
    | some o => exact State.discipline_fabric ..
  · exact State.holdover_fabric s

theorem State.adopt_told (s : State) (d : Decision) : (s.adopt d).told = s.told := by
  unfold State.adopt
  refine State.ite_told rfl (State.ite_told ?_ rfl)
  exact State.told_of_links_eq (State.applyDecision_links ..)

theorem State.faultRecord_told (s : State) (f : FaultRec) : (s.faultRecord f).told = s.told := by
  obtain ⟨_, _, _, _, _, eq⟩ := s.faultRecord_rest f
  rw [eq]
  rfl

theorem State.takeDecisions_told (s : State) (pl : List Byte) : (s.takeDecisions pl).told = s.told := by
  unfold State.takeDecisions
  extract_lets ds u t missed
  have adopted : u.told = s.told := State.foldl_told (fun u d => State.adopt_told ..) _ s
  exact State.ite_told rfl (State.ite_told ((State.faultRecord_told ..).trans adopted) adopted)

/-! ### Management messages (R325, R330, R331, R501) -/

theorem State.updAuth_told (s : State) (p : Nat) (f : AuthSt → AuthSt) : (s.updAuth p f).told = s.told := s.updPort_told p fun _ => rfl

theorem State.sendMgmt_told (s : State) (p : Nat) (m : MgmtOut) : (s.sendMgmt p m).told = s.told := s.updPort_told p fun _ => rfl

theorem State.takeAuth_told (s : State) (p type : Nat) (data : List Byte) (a : AuthSt) : (s.takeAuth p type data a).told = s.told := by
  unfold State.takeAuth
  dsimp only [State.nextDraw]
  split
  · refine State.ite_told ((State.sendMgmt_told ..).trans ((State.updAuth_told ..).trans ?_)) (State.updAuth_told ..)
    exact State.updAuth_told ..
  · refine State.ite_told rfl ?_
    exact (State.sendMgmt_told ..).trans ((State.sendMgmt_told ..).trans (State.updAuth_told ..))
  · split
    · exact (State.sendMgmt_told ..).trans (State.updAuth_told ..)
    · rfl
  · exact State.updAuth_told ..
  · rfl

theorem State.deriveRekey_told (s : State) (p : Nat) (secret transcript : List Byte) (switch : Option Nat) (m : MgmtOut) :
    (s.deriveRekey p secret transcript switch m).told = s.told :=
  (State.sendMgmt_told ..).trans (s.updPort_told p fun _ => rfl)

theorem State.takeMgmt_told (s : State) (p type : Nat) (data : List Byte) : (s.takeMgmt p type data).told = s.told := by
  unfold State.takeMgmt
  dsimp only [State.nextDraw, State.free]
  split
  · exact State.ite_told rfl (State.deriveRekey_told ..)
  · split
    · exact State.deriveRekey_told ..
    · rfl
  · exact State.ite_told (s.updPort_told p fun _ => rfl) rfl
  · rfl

theorem State.takePeerNonce_told (s : State) (p : Nat) (a : AuthSt) (b : List Byte) : (s.takePeerNonce p a b).told = s.told :=
  s.updPort_told p fun _ => rfl

theorem State.noteFragment_told (s : State) (p type k : Nat) (b : List Byte) : (s.noteFragment p type k b).told = s.told := by
  unfold State.noteFragment
  split
  · rfl
  · exact State.ite_told ((State.takePeerNonce_told ..).trans (State.updAuth_told ..)) (State.updAuth_told ..)

theorem State.takeMessage_told (s : State) (p type : Nat) (data : List Byte) : (s.takeMessage p type data).told = s.told := by
  unfold State.takeMessage
  split
  · exact State.takeAuth_told ..
  · exact State.takeMgmt_told ..
  · rfl

theorem State.takeFragment_told (s : State) (p : Nat) (pl : List Byte) : (s.takeFragment p pl).told = s.told := by
  unfold State.takeFragment
  extract_lets type k bytes u have'
  have noted : u.told = s.told := State.noteFragment_told ..
  clear_value u
  have joined : ∀ r, (u.updPort p fun x => { x with mgmtRx := r }).told = s.told := fun r => by
    refine Eq.trans (u.updPort_told p fun _ => ?_) noted
    rfl
  clear_value have'
  refine State.ite_told rfl ?_
  cases have' with
  | none => exact joined none
  | some bs => exact State.ite_told ((State.takeMessage_told ..).trans (joined none)) (joined _)

/-! ### A valid control slot (R326, R336, R367, R431) -/

/-- A port that is UP takes the sender's time, credits and vote. -/
def PortSt.hears (pl : List Byte) (x : PortSt) : PortSt :=
  { x with
    peerLocked := bitOf (u8 pl 27) 0, peerMaster := u16 pl 24, peerHops := u8 pl 26, credit := min 64 (x.credit + u8 pl 49)
    cons := ⟨bitOf (u8 pl 74) 0, bitOf (u8 pl 74) 1, u32 pl 64, u32 pl 68, u16 pl 72⟩ }

theorem State.takeControl_told (s : State) (p : Nat) (pl : List Byte) (offset : Option Int) :
    (s.takeControl p pl offset).told = (s.updPort p (PortSt.hears pl)).told := by
  unfold State.takeControl
  extract_lets f s1 ports locks time' s2 parent s3 proposal s4
  have heard : s1 = s.updPort p (PortSt.hears pl) := rfl
  have timed : s2.told = s1.told := State.ite_told rfl rfl
  have followed : s3.told = s1.told :=
    State.ite_told ((State.takeDecisions_told ..).trans ((State.told_of_ports_eq (by rw [State.fromParent_fabric])).trans timed)) timed
  have switched : s4.told = s1.told :=
    State.ite_told ((State.told_of_ports_eq (State.adoptFailover_ports ..)).trans followed) followed
  rw [← heard, ← switched]
  exact State.foldl_told (fun u w => State.takeRepair_told ..) _ s4

end Sys2Proof.Machine
end

section
/-!
PROOF. The frame boundary and the control slot (R329, R331, R335, R336, R343, R428–R432).
-/
set_option Elab.async false
namespace Sys2Proof.Machine

/-! ### What a boundary does to the ports (R328, R329) -/

/-- What of a port the consensus field is formed from (R431). -/
def PortSt.vote (x : PortSt) : PortMode × ConsField := (x.mode, x.cons)

/-- At most registers and ports have changed, and no port in what it votes. -/
structure State.SameVotes (s t : State) : Prop where
  rest : ∃ regs ports, t = { s with regs := regs, fabric := { s.fabric with ports := ports } }
  votes : ∀ p, (t.port p).vote = (s.port p).vote

theorem State.SameVotes.trans {s t u : State} (h : s.SameVotes t) (k : t.SameVotes u) : s.SameVotes u := by
  obtain ⟨_, _, rfl⟩ := h.rest
  obtain ⟨regs, ports, rfl⟩ := k.rest
  exact ⟨⟨regs, ports, rfl⟩, fun p => (k.votes p).trans (h.votes p)⟩

theorem State.updPort_sameVotes (s : State) (p : Nat) {f : PortSt → PortSt} (same : ∀ x, (f x).vote = x.vote) :
    s.SameVotes (s.updPort p f) := by
  refine ⟨⟨_, _, rfl⟩, fun q => ?_⟩
  by_cases here : q = p
  · rw [here, State.port_updPort_same, same]
  · rw [State.port_updPort_other _ _ here]

theorem State.countFrames_sameVotes (s : State) (n p : Nat) : s.SameVotes (s.countFrames n p) := by
  unfold State.countFrames
  extract_lets u
  have counted : s.SameVotes u := ite_cases (P := s.SameVotes) ⟨⟨_, _, rfl⟩, fun _ => rfl⟩ ⟨⟨_, _, rfl⟩, fun _ => rfl⟩
  refine counted.trans (State.updPort_sameVotes _ p fun _ => ?_)
  rfl

theorem PortSt.endFrame_vote (x : PortSt) (g : Nat) : (x.endFrame g).vote = x.vote := by
  unfold PortSt.endFrame
  exact ite_cases (P := fun y : PortSt => y.vote = x.vote) rfl rfl

/-- The ports at the end of the frame before `g` (R329). -/
def State.portsEnd (s : State) (g : Nat) : State :=
  s.setFabric fun f => { f with ports := f.ports.mapVals fun _ x => x.endFrame g }

theorem State.portsEnd_sameVotes (s : State) (g : Nat) : s.SameVotes (s.portsEnd g) := by
  refine ⟨⟨_, _, rfl⟩, fun p => ?_⟩
  have ended : (s.portsEnd g).port p = ((s.fabric.ports.get? p).map fun x => x.endFrame g).getD PortSt.init :=
    congrArg (Option.getD · PortSt.init) (Tab.get?_mapVals s.fabric.ports (fun _ x => x.endFrame g) p)
  rw [ended, State.port, Tab.getD]
  cases s.fabric.ports.get? p with
  | none => rfl
  | some x => exact x.endFrame_vote g

/-- The module at a boundary, with FRAME_CTR of its ports `ps` counted and their frame ended. -/
def State.frameEnded (s : State) (ps : List Nat) (n g : Nat) : State := (ps.foldl (fun t p => t.countFrames n p) s).portsEnd g

theorem State.frameEnded_sameVotes (s : State) (ps : List Nat) (n g : Nat) : s.SameVotes (s.frameEnded ps n g) := by
  refine State.SameVotes.trans ?_ (State.portsEnd_sameVotes _ g)
  exact List.foldlRecOn ps _ (motive := s.SameVotes) ⟨⟨_, _, rfl⟩, fun _ => rfl⟩ fun t ht p _ =>
    ht.trans (t.countFrames_sameVotes n p)

/-! ### The consensus field and the master's decision (R431, R432) -/

theorem State.SameVotes.consField {s t : State} (h : s.SameVotes t) : t.consField = s.consField := by
  have voters : ∀ k, t.voters k = s.voters k := fun k => by
    unfold State.voters
    rw [List.filterMap_map, List.filterMap_map]
    refine congrArg (List.filterMap · _) (funext fun p => ?_)
    obtain ⟨mode, cons⟩ := Prod.mk.inj (h.votes p)
    simp only [Function.comp, mode, cons]
  unfold State.consField
  dsimp only
  rw [voters]
  obtain ⟨_, _, rfl⟩ := h.rest
  rfl

/-- The field of the frame is formed from what the module and its ports vote. -/
def State.fieldFormed (s : State) (g : Nat) : State :=
  let voted := s.step.opened && (s.cleanVote s.step.oldest || s.reasonsFor s.step.oldest != 0)
  s.setSteps fun x =>
    { x with field := s.consField, voteFrame := if voted ∧ x.voteFrame.isNone then some (g - 1) else x.voteFrame }

/-- A written PARTICIPANTS counts from the next frame on (R428). -/
def State.participantsTaken (s : State) : State :=
  s.setSteps fun x => { x with participants := x.newParticipants.getD x.participants, newParticipants := none }

/-- The module as frame `g` begins, before anything of the last frame counts. -/
def State.turned (s : State) (g : Nat) : State := ({ s with time := { s.time with frameDone := g } }).roleChange.retryWaiters

theorem State.frameStart_eq (s : State) (g : Nat) :
    let u := (s.turned g).frameEnded (s.fabric.ports.map (·.1)) (g - s.time.frameDone) g
    s.frameStart g = ((u.fieldFormed g).masterDecides (g - 1) u.consField).participantsTaken := rfl

/-- What the master decides in frame `f` of field `c` (R432, R434). -/
def State.decisionOn (s : State) (f : Nat) (c : ConsField) : Decision :=
  ⟨c.step, decide (c.reasons = 0), decide (c.reasons ≠ 0) && s.step.applyAhead, c.reasons, f + s.step.lead, false⟩

theorem State.decisionOn_consField {s : State} (opened : s.step.opened = true) (f : Nat) : s.decisionOn f s.consField =
    ⟨s.step.oldest, decide (s.consField.reasons = 0), decide (s.consField.reasons ≠ 0) && s.step.applyAhead, s.consField.reasons,
      f + s.step.lead, false⟩ := by
  have step : s.consField.step = s.step.oldest := by simp [State.consField, opened]
  rw [State.decisionOn, step]

section
variable {s : State} {f : Nat} {c : ConsField}

theorem State.masterDecides_decides (master : s.time.role = .master) (opened : s.step.opened = true) (idle : s.decisionPending = false)
    (ripe : c.reasons ≠ 0 ∨ c.ready = s.step.participants) :
    s.masterDecides f c = s.setSteps fun x => { x with prev := x.last, last := some (s.decisionOn f c) } := by
  unfold State.masterDecides
  rw [if_neg (by simp [State.isMaster, master, opened, idle]), if_pos ripe]
  rfl

theorem State.masterDecides_waits (waits : s.time.role ≠ .master ∨ s.step.opened = false ∨ s.decisionPending = true
    ∨ (c.reasons = 0 ∧ c.ready ≠ s.step.participants)) : s.masterDecides f c = s := by
  rcases waits with other | closed | pending | ⟨quiet, short⟩
  · exact if_pos (.inl (by simp [State.isMaster, other]))
  · exact if_pos (.inr (.inl (by simp [closed])))
  · exact if_pos (.inr (.inr pending))
  · unfold State.masterDecides
    split
    · rfl
    · exact if_neg fun ripe => ripe.elim (fun loud => loud quiet) short

end

/-- A master's decision is all that it changes. -/
theorem State.masterDecides_rest (s : State) (f : Nat) (c : ConsField) : ∃ prev last,
    s.masterDecides f c = s.setSteps fun x => { x with prev := prev, last := last } := by
  unfold State.masterDecides
  split
  · exact ⟨_, _, rfl⟩
  · split
    · exact ⟨_, _, rfl⟩
    · exact ⟨_, _, rfl⟩

/-! ### FRAME_START -/

theorem exec_frameStart_done {s : State} (done : s.frame ≤ s.time.frameDone) : exec .frameStart s = .next s :=
  congrArg Host.Outcome.next (if_neg (Nat.not_lt.2 done))

theorem exec_frameStart_due {s : State} (due : s.time.frameDone < s.frame) : exec .frameStart s = .next (s.frameStart s.frame) :=
  congrArg Host.Outcome.next (if_pos due)

theorem State.turned_time (s : State) (g : Nat) : (s.turned g).time = ({ s with time := { s.time with frameDone := g } } : State).roleChange.time :=
  State.links_time (State.retryWaiters_links _)

theorem State.roleChange_frameDone (s : State) : s.roleChange.time.frameDone = s.time.frameDone := by
  rw [State.roleChange_eq]
  exact ite_cases (P := fun t : State => t.time.frameDone = s.time.frameDone) rfl rfl

theorem State.roleChange_fabric (s : State) : s.roleChange.fabric = s.fabric := by
  rw [State.roleChange_eq]
  exact ite_cases (P := fun t : State => t.fabric = s.fabric) rfl rfl

/-- With nothing that waits a boundary has nothing to make again. -/
theorem State.retryWaiters_of_none {s : State} (none' : s.fabric.waiters = []) : s.retryWaiters = s := by
  have same : s.setFabric (fun x => { x with waiters := [] }) = s := by
    rw [← none']
    rfl
  rw [State.retryWaiters, none', same]
  rfl

/-- What the frame after `f` begins with, by what the module `v` holds once its waiting accesses are made again. -/
structure State.Began (v : State) (f : Nat) (t : State) : Prop where
  time : t.time = v.time
  field : t.step.field = v.consField
  participants : t.step.participants = v.step.newParticipants.getD v.step.participants
  decides : v.time.role = .master → v.step.opened = true → v.decisionPending = false →
    (v.consField.reasons ≠ 0 ∨ v.consField.ready = v.step.participants) →
    t.step.prev = v.step.last ∧ t.step.last = some (v.decisionOn f v.consField)
  waits : (v.time.role ≠ .master ∨ v.step.opened = false ∨ v.decisionPending = true
      ∨ (v.consField.reasons = 0 ∧ v.consField.ready ≠ v.step.participants)) →
    t.step.prev = v.step.prev ∧ t.step.last = v.step.last

theorem State.SameVotes.began {v u : State} (h : v.SameVotes u) (f g : Nat) :
    v.Began f ((u.fieldFormed g).masterDecides f u.consField).participantsTaken := by
  have field := h.consField
  obtain ⟨regs, ports, rfl⟩ := h.rest
  rw [field]
  generalize formed : State.fieldFormed _ g = w
  obtain ⟨prev, last, rest⟩ := w.masterDecides_rest f v.consField
  subst formed
  refine ⟨?_, ?_, ?_, fun master opened idle ripe => ?_, fun waits => ?_⟩
  · rw [rest]
    rfl
  · rw [rest]
    exact field
  · rw [rest]
    rfl
  · rw [State.masterDecides_decides (s := ({ v with regs := regs, fabric := { v.fabric with ports := ports } } : State).fieldFormed g)
      master opened idle ripe]
    exact ⟨rfl, rfl⟩
  · rw [State.masterDecides_waits (s := ({ v with regs := regs, fabric := { v.fabric with ports := ports } } : State).fieldFormed g) waits]
    exact ⟨rfl, rfl⟩

theorem State.frameStart_began (s : State) (g : Nat) : (s.turned g).Began (g - 1) (s.frameStart g) := by
  rw [State.frameStart_eq]
  exact State.SameVotes.began (State.frameEnded_sameVotes ..) (g - 1) g

/-! ### The control slot as it is received (R326, R329, R336) -/

section
variable {s : State} {p tRx : Nat} {rx : RxSlot}

theorem exec_controlSlotReceive_below (below : (s.port p).mode.code < 3) : exec (.controlSlotReceive p rx tRx) s = .next s :=
  congrArg Host.Outcome.next (if_neg fun ⟨_, open'⟩ => Nat.not_le.2 below open')

theorem exec_controlSlotReceive_open (hp : p < 40) (open' : 3 ≤ (s.port p).mode.code) :
    exec (.controlSlotReceive p rx tRx) s = .next (s.controlReceive p rx tRx) :=
  congrArg Host.Outcome.next (if_pos ⟨hp, open'⟩)

/-- An invalid control slot on a port. -/
def PortSt.misses (tRx : Nat) (x : PortSt) : PortSt :=
  { x with badControls := x.badControls + 1, ctl := (⟨tRx / 1024, false, 0⟩ :: x.ctl).take 2 }

/-- A valid control slot on a port, of payload `pl` and measurement `m`. -/
def PortSt.noted (pl : List Byte) (m : Option (Int × Int)) (tRx : Nat) (x : PortSt) : PortSt :=
  { x with
    badControls := 0, ctl := (⟨tRx / 1024, true, u32 pl 32⟩ :: x.ctl).take 2, sender := some (u16 pl 28, u8 pl 30), echoTx := u64 pl 0,
    echoRx := tRx, exchanges := if m.isSome ∧ x.mode = .measuring then x.exchanges + 1 else x.exchanges,
    delay := m.elim x.delay fun d => d.1.toNat % 65536 }

/-- The module as an uncorrectable control slot has been counted. -/
def State.uncorrectable (s : State) (p : Nat) : State := (s.bump (portReg .fecUncorrected p) 1).updPort p fun x => { x with fecNow := true }

variable (clean : rx.corrected = 0)
include clean

theorem State.controlReceive_uncorrectable (lost : rx.fecOk = false) :
    s.controlReceive p rx tRx = (s.uncorrectable p).updPort p (PortSt.misses tRx) := by
  have opened : s.openControl p rx = (s.uncorrectable p, none) := by simp [State.openControl, clean, lost, State.uncorrectable]
  rw [State.controlReceive, opened]
  rfl

variable {h pl : List Byte} (sound : rx.fecOk = true) (opens : (s.openPhase p 0 rx.bytes).2 = some (h, pl))
  (reserved : bitsOf (u8 h 0) 7 5 = 0) (control : bitsOf (u8 h 0) 3 0 = 3) (known : controlReserved pl = false)
include sound opens reserved control known

/-- A valid control slot: what it says is noted, an UP port takes the sender's time, vote and credits, and a fragment may follow. -/
theorem State.controlReceive_valid : ∃ u : State,
    (u.port p).told = ((s.port p).noted pl (delayOffset (s.port p).txTimes pl tRx) tRx).told
      ∧ s.controlReceive p rx tRx
        = (if u.portUp p then u.takeControl p pl ((delayOffset (s.port p).txTimes pl tRx).map fun d => d.2) else u).takeFragment p pl := by
  have opened : s.openControl p rx = ((s.openPhase p 0 rx.bytes).1, some pl) := by
    simp [State.openControl, clean, sound, opens, reserved, control, known]
  have kept : ((s.openPhase p 0 rx.bytes).1.port p).told = (s.port p).told := congrFun (s.openPhase_told p 0 rx.bytes) p
  generalize (s.openPhase p 0 rx.bytes).1 = o at opened kept
  have times : (o.port p).txTimes = (s.port p).txTimes := (congrArg PortSt.txTimes kept :)
  refine ⟨o.updPort p (PortSt.noted pl (delayOffset (s.port p).txTimes pl tRx) tRx), ?_, ?_⟩
  · rw [State.port_updPort_same]
    exact (congrArg (fun y => (PortSt.noted pl (delayOffset (s.port p).txTimes pl tRx) tRx y).told) kept :)
  · rw [State.controlReceive, opened, ← times]
    rfl

/-- A port that is not UP notes the slot and no more. -/
theorem State.controlReceive_noted (closed : (s.port p).mode ≠ .up) : ((s.controlReceive p rx tRx).port p).told =
    ((s.port p).noted pl (delayOffset (s.port p).txTimes pl tRx) tRx).told := by
  obtain ⟨u, noted, run⟩ := State.controlReceive_valid (tRx := tRx) clean sound opens reserved control known
  have mode : (u.port p).mode = (s.port p).mode := (congrArg PortSt.mode noted :)
  rw [run, if_neg (by simp [State.portUp, mode, closed])]
  exact (congrFun (u.takeFragment_told p pl) p).trans noted

/-- A port that is UP also takes the sender's time, vote and credits. -/
theorem State.controlReceive_heard (up : (s.port p).mode = .up) : ((s.controlReceive p rx tRx).port p).told =
    (((s.port p).noted pl (delayOffset (s.port p).txTimes pl tRx) tRx).hears pl).told := by
  obtain ⟨u, noted, run⟩ := State.controlReceive_valid (tRx := tRx) clean sound opens reserved control known
  have mode : (u.port p).mode = (s.port p).mode := (congrArg PortSt.mode noted :)
  rw [run, if_pos (by simp [State.portUp, mode, up])]
  refine (congrFun (State.takeFragment_told ..) p).trans ((congrFun (State.takeControl_told ..) p).trans ?_)
  rw [State.told, State.port_updPort_same]
  exact (congrArg (fun y => (PortSt.hears pl y).told) noted :)

end

/-- Settles O45: the boundary is `frameStart_began`, and the port is followed through what a control slot says, its keys, exchange and
repair entries left out. -/
theorem frameBoundariesFormTheField : Obligations.FrameBoundariesFormTheField := by
  refine ⟨fun s => ⟨exec_frameStart_done, fun due => ?boundary⟩, fun s p rx tRx inv hp clean => ?slot⟩
  case boundary =>
    intro v
    have began := s.frameStart_began s.frame
    have done' : v.time.frameDone = s.frame := by
      rw [show v.time = _ from s.turned_time s.frame, State.roleChange_frameDone]
    refine ⟨fun none' => State.retryWaiters_of_none (by rw [State.roleChange_fabric]; exact none'), _, exec_frameStart_due due, began.time,
      (congrArg TimeSt.frameDone began.time).trans done', began.field, began.participants, fun master opened idle ripe => ?_, began.waits⟩
    obtain ⟨prev, last⟩ := began.decides master opened idle ripe
    exact ⟨prev, last.trans (congrArg some (State.decisionOn_consField opened _))⟩
  intro x
  refine ⟨exec_controlSlotReceive_below, fun open' lost => ?lost, fun h pl sound opens reserved control known => ?valid⟩
  case lost =>
    refine ⟨_, (exec_controlSlotReceive_open hp open').trans (congrArg _ (State.controlReceive_uncorrectable clean lost)), ?_, ?_⟩
    · rw [State.port_updPort_same, State.uncorrectable, State.port_updPort_same]
      rfl
    · exact State.rd_bump_same _ _ inv.regs
  case valid =>
    have row : ∀ {m}, x.mode = m → 3 ≤ m.code → exec (.controlSlotReceive p rx tRx) s = .next (s.controlReceive p rx tRx) :=
      fun mode open' => exec_controlSlotReceive_open hp (mode ▸ open')
    refine ⟨fun m measuring answered => ⟨_, row measuring (by decide), ?_⟩, fun up => ⟨_, row up (by decide), ?_⟩⟩
    · have said := State.controlReceive_noted (tRx := tRx) clean sound opens reserved control known
        (by rw [show (s.port p).mode = _ from measuring]; nofun)
      rw [answered] at said
      exact ⟨(congrArg PortSt.mode said).trans measuring, congrArg PortSt.badControls said, congrArg PortSt.ctl said,
        congrArg PortSt.sender said, congrArg PortSt.echoTx said, congrArg PortSt.echoRx said,
        (congrArg PortSt.exchanges said).trans (if_pos ⟨rfl, measuring⟩), congrArg PortSt.delay said⟩
    · have said := State.controlReceive_heard (tRx := tRx) clean sound opens reserved control known up
      exact ⟨congrArg PortSt.badControls said, congrArg PortSt.ctl said, congrArg PortSt.peerLocked said,
        congrArg PortSt.peerMaster said, congrArg PortSt.credit said, congrArg PortSt.cons said⟩

end Sys2Proof.Machine
end

section
/-!
SUPPORT. The whole machine: the front command's step, what no step undoes, what no command touches, and the reset state (R493,
R504, R509, R515, R545).
-/
set_option Elab.async false
namespace Sys2Proof.Machine

/-! ### Steps -/

theorem step_front {s : State} {c : Instr} {rest : List Instr} (h : s.pending = c :: rest) :
    step s = exec c { s with pending := rest } := by
  unfold step
  rw [h]

theorem step_answers (s : State) : ∃ t, step s = .next t := by
  unfold step
  split
  · exact ⟨_, rfl⟩
  · obtain ⟨t, eq, -⟩ := exec_answers _ _
    exact ⟨t, eq⟩

/-- Settles O1: `step` takes the command at the front, and every arm of `exec` answers. -/
theorem stepRunsTheFrontCommand : Obligations.StepRunsTheFrontCommand :=
  fun s => ⟨fun _ => step_front rfl, fun _ _ => step_front, step_answers s⟩

/-- The fuses are no part of the queue. -/
theorem State.FusesKept.ofQueue {s t : State} {queue : List Instr} (h : State.FusesKept { s with pending := queue } t) :
    s.FusesKept t :=
  ⟨h.killed, h.floor, h.signedSetup, h.owners, h.serial⟩

/-- Settles O5: what any step keeps includes what the fuses record. -/
theorem fusesOnlyGain : Obligations.FusesOnlyGain := by
  intro s t run
  obtain ⟨queue, keeps⟩ := step_keeps run
  exact keeps.fuses.ofQueue

/-- Settles O6: each command keeps the planes and the shell where its kind says so. -/
theorem commandsLeaveAloneWhatTheyDoNotName : Obligations.CommandsLeaveAloneWhatTheyDoNotName := by
  intro c s t run
  have keeps := exec_keeps run
  exact ⟨keeps.pending, keeps.plane, keeps.shell⟩

/-! ### Reset -/

/-- No register is listed at reset, so each reads as its default. -/
theorem State.reset_rd (r : Reg) : State.reset.rd r = r.dflt := rfl

theorem Reg.dflt_of_name {r : Reg} (die : r.name ≠ .dieInfo) (ctx : r.name ≠ .ctxInfo) : r.dflt = r.name.dflt := by
  unfold Reg.dflt
  split
  · rename_i h
    exact absurd h ctx
  · rename_i h
    exact absurd h die
  · rfl

/-- Every field of a row stands in the row's default with its own default. -/
def rowHoldsDefaults (n : RegName) : Bool := n.info.fields.all fun f => bitsOf n.dflt f.hi f.lo == f.dflt

theorem rowHoldsDefaults_all (n : RegName) : rowHoldsDefaults n = true := by
  have h : allRegs.all rowHoldsDefaults = true := by decide +kernel
  exact List.all_eq_true.1 h n (mem_allRegs n)

theorem RegName.testBit_dflt {n : RegName} {f : RegField} (h : f ∈ n.info.fields) {i : Nat} (lo : f.lo ≤ i) (hi : i ≤ f.hi) :
    n.dflt.testBit i = f.dflt.testBit (i - f.lo) := by
  have held : bitsOf n.dflt f.hi f.lo = f.dflt := by
    simpa using List.all_eq_true.1 (rowHoldsDefaults_all n) f h
  rw [← held, testBit_bitsOf, decide_eq_true (by omega), Bool.true_and, Nat.add_sub_cancel' lo]

theorem State.reset_inv : State.reset.Inv := by
  refine ⟨⟨rfl, rfl⟩, List.Pairwise.nil, ?_, ?_⟩ <;> decide

/-- Settles O4: nothing is listed at reset, and every row's default is made of its fields'. -/
theorem resetStateHoldsTheDefaults : Obligations.ResetStateHoldsTheDefaults := by
  refine ⟨State.reset_inv, rfl, rfl, rfl, rfl, rfl, rfl, rfl, rfl, rfl, rfl, rfl, fun _ => rfl, fun d => ?_, ?_⟩
  · rw [State.reset_rd]
    show RegName.dflt .dieInfo + d = _
    have row : RegName.dflt .dieInfo = 2 ^ 8 + 0x7E08 * 2 ^ 16 := rfl
    omega
  · intro r f die ctx field _ i lo hi
    rw [State.reset_rd, Reg.dflt_of_name die ctx, RegName.testBit_dflt field lo hi]

end Sys2Proof.Machine
end

section
/-!
SUPPORT. Writes of one register through BAR0: what a write of part of a register stores (R15, R539), what the plain registers store
(Table 0-2, R543), and the requests and registers that take no write (R500, R526, R527, R541, R542, R559).
-/
set_option Elab.async false
namespace Sys2Proof.Machine

/-! ### The access that reaches a register -/

/-- A write of a register by its own width reaches it where the part answers and does not refuse. -/
theorem State.barWrite_reg {s : State} {secure : Bool} {r : Reg} (h : r.inMap) (hears : s.Hears secure r.addr) {v : Nat}
    (fits : v < 2 ^ (8 * r.name.info.bytes)) (ok : Option Bool) :
    s.barWrite secure r.addr r.name.info.bytes v ok = s.writeReg r (2 ^ (8 * r.name.info.bytes) - 1) v ok := by
  obtain ⟨-, aligned⟩ := r.addr_aligned h
  rw [State.barWrite_of_hears hears]
  rcases r.bytes_eq with b | b
  · rw [b] at aligned fits ⊢
    have whole : v % 4294967296 = v := Nat.mod_eq_of_lt fits
    simp [State.writeAt, State.write4, aligned, regAt_addr r h, b, whole]
  · rw [b] at aligned fits ⊢
    have whole : v % 18446744073709551616 = v := Nat.mod_eq_of_lt fits
    simp [State.writeAt, aligned, regAt_addr r h, Option.filter_some, b, whole]

theorem State.Accepts.hears {s : State} {secure : Bool} {r : Reg} (h : s.Accepts secure r) : s.Hears secure r.addr :=
  ⟨h.answered, h.allowed, (r.addr_aligned h.exists').1⟩

/-- A register that takes no write keeps the state as it is, whatever the value. -/
theorem State.writeReg_unwritable {s : State} {r : Reg} (h : s.writable r = false) (mask v : Nat) (ok : Option Bool) :
    s.writeReg r mask v ok = s := by
  unfold State.writeReg
  simp [h]

theorem State.barWrite_unwritable {s : State} {secure : Bool} {r : Reg} (h : r.inMap) (hears : s.Hears secure r.addr)
    (closed : s.writable r = false) (v : Nat) (ok : Option Bool) : s.barWrite secure r.addr r.name.info.bytes v ok = s := by
  obtain ⟨-, aligned⟩ := r.addr_aligned h
  rw [State.barWrite_of_hears hears]
  rcases r.bytes_eq with b | b
  · rw [b] at aligned ⊢
    simp [State.writeAt, State.write4, aligned, regAt_addr r h, b, State.writeReg_unwritable closed]
  · rw [b] at aligned ⊢
    simp [State.writeAt, aligned, regAt_addr r h, Option.filter_some, b, State.writeReg_unwritable closed]

/-! ### Masks of a row's fields -/

/-- The bits that a write of the whole register can reach. -/
def RegInfo.whole (i : RegInfo) : Nat := 2 ^ (8 * i.bytes) - 1

/-- The bits of RW fields, which no lock governs. -/
def isFree (a : Access) : Bool := a == .rw

/-- The mask of an access type covers a field of it and no bit of another field. -/
def RegInfo.covers (i : RegInfo) (p : Access → Bool) : Bool :=
  i.mask p &&& i.whole == i.mask p
    && i.fields.all fun f => bitsOf (i.mask p) f.hi f.lo == if p f.acc then 2 ^ (f.hi + 1 - f.lo) - 1 else 0

/-- What the masks of a row are to its fields. -/
def rowMasksFit (n : RegName) : Bool :=
  let i := n.info
  i.covers isStored && i.covers isLocked && i.covers isFree && i.covers isCleared
    && i.mask isStored - i.mask isLocked == i.mask isFree && (i.mask isLocked != 0) == (i.fields.any fun f => f.acc == .rwl)

theorem rowMasksFit_all (n : RegName) : rowMasksFit n = true := by
  have h : allRegs.all rowMasksFit = true := by decide +kernel
  exact List.all_eq_true.1 h n (mem_allRegs n)

/-- What the masks of a row's access types are to its fields. -/
structure RegInfo.MasksFit (i : RegInfo) : Prop where
  stored : i.covers isStored = true
  locked : i.covers isLocked = true
  free : i.covers isFree = true
  cleared : i.covers isCleared = true
  split : i.mask isStored - i.mask isLocked = i.mask isFree
  locks : (i.mask isLocked != 0) = i.fields.any fun f => f.acc == .rwl

theorem RegName.masksFit (n : RegName) : n.info.MasksFit := by
  have h := rowMasksFit_all n
  simp only [rowMasksFit, Bool.and_eq_true, beq_iff_eq] at h
  obtain ⟨⟨⟨⟨⟨stored, locked⟩, free⟩, cleared⟩, split⟩, locks⟩ := h
  exact ⟨stored, locked, free, cleared, split, locks⟩

theorem RegInfo.covers_whole {i : RegInfo} {p : Access → Bool} (h : i.covers p = true) : i.mask p &&& i.whole = i.mask p := by
  simp only [RegInfo.covers, Bool.and_eq_true, beq_iff_eq] at h
  exact h.1

theorem RegInfo.testBit_mask {i : RegInfo} {p : Access → Bool} (h : i.covers p = true) {f : RegField} (field : f ∈ i.fields)
    {b : Nat} (lo : f.lo ≤ b) (hi : b ≤ f.hi) : (i.mask p).testBit b = p f.acc := by
  simp only [RegInfo.covers, Bool.and_eq_true, beq_iff_eq, List.all_eq_true] at h
  have bits := congrArg (fun x => x.testBit (b - f.lo)) (h.2 f field)
  rw [testBit_bitsOf, decide_eq_true (by omega), Bool.true_and, Nat.add_sub_cancel' lo] at bits
  rw [bits]
  split
  · rename_i yes
    rw [Nat.testBit_two_pow_sub_one, decide_eq_true (by omega), yes]
  · rename_i no
    rw [Nat.zero_testBit, Bool.eq_false_of_not_eq_true no]

/-! ### The store of the whole register (Table 0-2, R543) -/

/-- A lock that is set governs an RWL field of the register. -/
def State.locksOut (s : State) (r : Reg) : Bool := s.lockOn r && r.name.info.fields.any fun f => f.acc == .rwl

/-- The word of a register after its whole is written with `v`. -/
def RegInfo.taken (i : RegInfo) (locked : Bool) (old v : Nat) : Nat :=
  mergeBits (mergeBits old (if locked then i.mask isFree else i.mask isStored) v) (i.mask isCleared &&& v) 0

/-- The bit that a write leaves in a field, by the field's access type. -/
def Access.takes (a : Access) (locked old new : Bool) : Bool :=
  match a with
  | .rw => new
  | .rwl => if locked then old else new
  | .w1c => old && !new
  | _ => old

/-- Only an RWL field asks for the lock. -/
theorem Access.takes_unlocked {a : Access} (h : a ≠ .rwl) (l l' old new : Bool) : a.takes l old new = a.takes l' old new := by
  cases a with
  | rwl => exact absurd rfl h
  | ro | rw | w1c | wo | ros => rfl

theorem RegName.testBit_taken {n : RegName} {f : RegField} (field : f ∈ n.info.fields) {b : Nat} (lo : f.lo ≤ b) (hi : b ≤ f.hi)
    (locked : Bool) (old v : Nat) :
    (n.info.taken locked old v).testBit b = f.acc.takes locked (old.testBit b) (v.testBit b) := by
  have fit := n.masksFit
  have stored := RegInfo.testBit_mask fit.stored field lo hi
  have free := RegInfo.testBit_mask fit.free field lo hi
  have cleared := RegInfo.testBit_mask fit.cleared field lo hi
  simp only [RegInfo.taken, testBit_mergeBits, Nat.testBit_and, Nat.zero_testBit, apply_ite (Nat.testBit · b), stored, free, cleared]
  cases f.acc <;> cases locked <;> cases v.testBit b <;> simp [Access.takes, isStored, isFree, isCleared]

/-- Where no count of locked writes follows, the fields are stored in one write. -/
theorem State.storeAll_open {s : State} {r : Reg} (ok : s.regsOk) (open' : s.locksOut r = false) (v : Nat) :
    s.storeAll r r.name.info.whole v = s.wr r (r.name.info.taken false (s.rd r) v) := by
  have fit := r.name.masksFit
  have fields : s.storeFields r r.name.info.whole v = s.wr r (mergeBits (s.rd r) (r.name.info.mask isStored) v) := by
    unfold State.storeFields
    simp only [RegInfo.covers_whole fit.locked, RegInfo.covers_whole fit.stored, fit.locks]
    rw [show (s.lockOn r && r.name.info.fields.any fun f => f.acc == .rwl) = false from open']
    simp
  unfold State.storeAll
  rw [fields]
  have clears : (r.name.info.mask fun a => a == .w1c) &&& r.name.info.whole = r.name.info.mask isCleared :=
    RegInfo.covers_whole fit.cleared
  simp only [clears]
  split
  · rename_i none'
    simp [RegInfo.taken, none', mergeBits_nothing]
  · rw [State.rd_wr_same r _ ok, State.wr_wr r _ _ ok]
    simp [RegInfo.taken]

/-- No row has both a locked field and one that a 1 clears. -/
theorem RegName.locked_not_cleared (n : RegName) (h : (n.info.fields.any fun f => f.acc == .rwl) = true) :
    n.info.mask isCleared = 0 := by
  have all : allRegs.all (fun n => !(n.info.fields.any fun f => f.acc == .rwl) || n.info.mask isCleared == 0) = true := by
    decide +kernel
  have this := List.all_eq_true.1 all n (mem_allRegs n)
  rw [h] at this
  simpa using this

/-- Where the lock refuses an RWL field, the RW fields are stored and the refusal is counted. -/
theorem State.storeAll_locked {s : State} {r : Reg} (locked : s.locksOut r = true) (v : Nat) :
    s.storeAll r r.name.info.whole v
      = (s.wr r (r.name.info.taken true (s.rd r) v)).bump (regDie .lockedWrites (r.die?.getD 0)) 1 := by
  have fit := r.name.masksFit
  have never : r.name.info.mask isCleared = 0 := r.name.locked_not_cleared (Bool.and_eq_true_iff.1 locked).2
  unfold State.storeAll State.storeFields
  simp only [RegInfo.covers_whole fit.locked, RegInfo.covers_whole fit.stored, fit.locks, show
    (r.name.info.mask fun a => a == .w1c) = 0 from never, Nat.zero_and, if_true]
  rw [show (s.lockOn r && r.name.info.fields.any fun f => f.acc == .rwl) = true from locked]
  simp [RegInfo.taken, never, mergeBits_nothing, fit.split]

theorem State.writeReg_plain {s : State} {r : Reg} (taken : s.writable r = true) (plain : r.name.plain = true) (mask v : Nat)
    (ok : Option Bool) : s.writeReg r mask v ok = s.storeAll r mask v := by
  unfold State.writeReg
  simp only [taken, Bool.not_true, Bool.false_eq_true, if_false]
  split
  case h_32 => rfl
  all_goals
    rename_i e
    rw [e] at plain
    exact absurd plain (by decide)

theorem Reg.die?_lt {r : Reg} (h : r.inMap) : r.die?.getD 0 < 8 := by
  have hu := h.1
  unfold Reg.die?
  split <;> rename_i b <;> rw [b] at hu <;> simp [Block.units] at hu ⊢ <;> omega

/-- Settles O10: the two ways a whole register is stored, with the lock's refusal and without. -/
theorem plainWritesStoreFields : Obligations.PlainWritesStoreFields := by
  intro s secure r value inv plain acc fits locks count
  have inMap := acc.exists'
  have countIn : count.inMap := ⟨Reg.die?_lt inMap, Nat.one_pos⟩
  have run : exec (.registerWrite secure r.addr r.name.info.bytes value) s = .next (s.storeAll r r.name.info.whole value) :=
    congrArg _ ((State.barWrite_reg inMap acc.hears fits none).trans (State.writeReg_plain acc.taken plain _ _ none))
  have bits : ∀ f ∈ r.name.info.fields, ∀ i, f.lo ≤ i → i ≤ f.hi →
      (r.name.info.taken locks (s.rd r) value).testBit i
        = f.acc.takes (s.lockOn r) ((s.rd r).testBit i) (value.testBit i) := by
    intro f field i lo hi
    rw [RegName.testBit_taken field lo hi]
    by_cases rwl : f.acc = .rwl
    · have any : (r.name.info.fields.any fun f => f.acc == .rwl) = true := List.any_eq_true.2 ⟨f, field, by simp [rwl]⟩
      simp only [locks, any, Bool.and_true]
    · exact Access.takes_unlocked rwl locks (s.lockOn r) _ _
  refine ⟨_, run, ?_⟩
  cases locked : locks with
  | false =>
    rw [State.storeAll_open inv.regs locked]
    rw [locked] at bits
    refine ⟨fun f field i lo hi => ?_, fun q hq ne _ => ?_, fun ne => ?_, rfl⟩
    · rw [State.rd_wr_same r _ inv.regs, bits f field i lo hi]
      rfl
    · rw [State.rd_wr inMap hq _ inv.regs, if_neg ne]
    · rw [State.rd_wr inMap countIn _ inv.regs, if_neg (Ne.symm ne)]
      rfl
  | true =>
    have ne : count ≠ r := by
      intro e
      have rwl := (Bool.and_eq_true_iff.1 locked).2
      rw [← e] at rwl
      exact Bool.false_ne_true rwl
    rw [State.storeAll_locked locked]
    rw [locked] at bits
    have ok := State.wr_regsOk r (r.name.info.taken true (s.rd r) value) inv.regs
    refine ⟨fun f field i lo hi => ?_, fun q hq ne' nc => ?_, fun _ => ?_, rfl⟩
    · rw [State.rd_bump_other 1 ok fun e => ne (Reg.addr_inj inMap countIn e).symm, State.rd_wr_same r _ inv.regs,
        bits f field i lo hi]
      rfl
    · rw [State.rd_bump_other 1 ok fun e => nc (Reg.addr_inj hq countIn e), State.rd_wr inMap hq _ inv.regs, if_neg ne']
    · rw [State.rd_bump_same _ 1 ok, State.rd_wr inMap countIn _ inv.regs, if_neg ne, if_pos rfl]

/-! ### Half of a 64-bit field (R539) -/

/-- A store of no bits writes back the word that stands. -/
theorem State.storeAll_nothing (s : State) (r : Reg) (v : Nat) : s.storeAll r 0 v = s.wr r (s.rd r) := by
  simp [State.storeAll, State.storeFields, mergeBits_nothing]

/-- A row that is one 64-bit field. -/
def RegName.isOne (n : RegName) : Bool := n.info.fields.any fun f => f.hi == 63 && f.lo == 0

theorem RegName.isOne_of {n : RegName} {acc : Access} {dflt : Nat} (one : n.info.fields = [⟨63, 0, acc, dflt⟩]) : n.isOne = true := by
  simp [RegName.isOne, one]

/-- What a write of such a register does: it stores, stores while a ring or the mailbox is at rest, or asks for its whole value. -/
theorem RegName.isOne_cases {n : RegName} (h : n.isOne = true) : n.plain = true ∨ n ∈ [RegName.doorbellBase, .sqBase, .cqBase]
    ∨ n ∈ [RegName.secReqAddr, .secRespAddr]
    ∨ n ∈ [RegName.qcounterReset, .timeSet, .exportRelease, .foreignRelease, .faultRingBase, .logRingBase] := by
  have all : allRegs.all (fun n => !n.isOne || n.plain || [RegName.doorbellBase, .sqBase, .cqBase].contains n
      || [RegName.secReqAddr, .secRespAddr].contains n
      || [RegName.qcounterReset, .timeSet, .exportRelease, .foreignRelease, .faultRingBase, .logRingBase].contains n) = true := by
    decide +kernel
  have this := List.all_eq_true.1 all n (mem_allRegs n)
  simpa only [h, Bool.not_true, Bool.false_or, Bool.or_eq_true, List.contains_iff_mem, or_assoc] using this

/-- The state as it is, or with the word that stands in the register written back. -/
def State.Rewritten (s : State) (r : Reg) (t : State) : Prop := t = s ∨ t = s.wr r (s.rd r)

theorem State.Rewritten.ite {s t u : State} {r : Reg} {c : Prop} [Decidable c] (ht : s.Rewritten r t) (hu : s.Rewritten r u) :
    s.Rewritten r (if c then t else u) := ite_cases ht hu

theorem State.storeAll_rewritten (s : State) (r : Reg) (v : Nat) : s.Rewritten r (s.storeAll r 0 v) :=
  .inr (s.storeAll_nothing r v)

/-- A write of no bits of a register that is one 64-bit field. -/
theorem State.writeReg_nothing {s : State} {r : Reg} (one : r.name.isOne = true) (v : Nat) (ok : Option Bool) :
    s.Rewritten r (s.writeReg r 0 v ok) := by
  cases taken : s.writable r with
  | false => exact .inl (State.writeReg_unwritable taken 0 v ok)
  | true =>
    have base : ∀ cfg, s.Rewritten r (s.writeBase r cfg 0 v) := fun cfg => .ite (.inl rfl) (s.storeAll_rewritten r v)
    rcases RegName.isOne_cases one with plain | atRest | idle | wholly
    · rw [State.writeReg_plain taken plain]
      exact s.storeAll_rewritten r v
    · simp only [List.mem_cons, List.not_mem_nil, or_false] at atRest
      rcases atRest with e | e | e <;> simp only [State.writeReg, taken, e, Bool.not_true, Bool.false_eq_true, if_false] <;>
        exact base _
    · simp only [List.mem_cons, List.not_mem_nil, or_false] at idle
      rcases idle with e | e <;> simp only [State.writeReg, taken, e, Bool.not_true, Bool.false_eq_true, if_false] <;>
        exact .ite (.inl rfl) (s.storeAll_rewritten r v)
    · simp only [List.mem_cons, List.not_mem_nil, or_false] at wholly
      rcases wholly with e | e | e | e | e | e <;>
        simp only [State.writeReg, taken, e, Bool.not_true, Bool.false_eq_true, if_false, if_true] <;> exact .inl rfl

/-- A row that is one 64-bit field has 8 bytes, and neither half of it holds the field. -/
theorem RegName.halves_of_one {n : RegName} {acc : Access} {dflt : Nat} (one : n.info.fields = [⟨63, 0, acc, dflt⟩]) :
    n.info.bytes = 8 ∧ n.info.halfMask 0 = 0 ∧ n.info.halfMask 32 = 0 := by
  have all : allRegs.all (fun n => !n.isOne || n.info.bytes == 8) = true := by decide +kernel
  have this := List.all_eq_true.1 all n (mem_allRegs n)
  simp only [RegName.isOne_of one, Bool.not_true, Bool.false_or, beq_iff_eq] at this
  exact ⟨this, by simp [RegInfo.halfMask, one], by simp [RegInfo.halfMask, one]⟩

/-- Settles O9: a half's write reaches the register with an empty mask. -/
theorem halfWritesAreIgnored : Obligations.HalfWritesAreIgnored := by
  intro s secure r acc dflt half value inv inMap one _ atHalf hears
  obtain ⟨b8, lower, upper⟩ := r.name.halves_of_one one
  have aligned := (r.addr_aligned inMap).2
  rw [b8] at aligned
  have reach : ∃ v, s.barWrite secure (r.addr + half) 4 value none = s.writeReg r 0 v none := by
    rw [State.barWrite_of_hears hears]
    rcases atHalf with rfl | rfl
    · refine ⟨value % 2 ^ 32, ?_⟩
      simp [State.writeAt, State.write4, regAt_addr r inMap, b8, lower, show r.addr % 4 = 0 by omega]
    · refine ⟨value % 2 ^ 32 * 2 ^ 32, ?_⟩
      simp [State.writeAt, State.write4, regAt_addr_high inMap b8, b8, upper, show (r.addr + 4) % 4 = 0 by omega]
  obtain ⟨v, reach⟩ := reach
  refine ⟨_, congrArg Host.Outcome.next reach, ?_⟩
  rcases State.writeReg_nothing (s := s) (RegName.isOne_of one) v none with same | stored
  · rw [same]
    exact ⟨rfl, fun _ _ => rfl⟩
  · rw [stored]
    refine ⟨rfl, fun q hq => ?_⟩
    rw [State.rd_wr inMap hq _ inv.regs]
    split
    · rename_i e
      rw [e]
    · rfl

/-! ### Refused requests and closed registers (R500, R526, R527, R541, R542, R559) -/

theorem State.not_writable_of_lost_die {s : State} {r : Reg} (ready : s.ready = true) {d : Nat} (die : r.die? = some d) (ne : d ≠ 0)
    (out : (s.die d).inService = false) : s.writable r = false := by
  simp [State.writable, ready, die, ne, out]

theorem State.not_writable_before_ready {s : State} {r : Reg} (early : s.ready = false)
    (h : r.name ∉ [RegName.fwMailboxAddr, .fwMailboxControl, .fwMailboxLength, .resetControl, .secCmd, .secReqAddr, .secRespAddr]) :
    s.writable r = false := by
  simp only [List.mem_cons, List.not_mem_nil, or_false, not_or] at h
  unfold State.writable
  rw [early, if_neg (by decide)]
  split
  case h_8 => rfl
  all_goals
    rename_i e
    simp [e] at h

/-- Settles O11: a refused request is counted and no more, an unanswered one does nothing, and a closed register takes nothing. -/
theorem refusedAndUnwritableRequestsKeepRegisters : Obligations.RefusedAndUnwritableRequestsKeepRegisters := by
  refine ⟨fun s secure a size value => ⟨fun answers inside refused => ⟨⟨_, rfl, ?_⟩, ?_⟩, fun silent => ⟨?_, ?_⟩⟩,
    fun s secure r value inMap hears => ⟨fun ready ⟨d, die, ne, out⟩ => ?_, fun early other => ?_⟩⟩
  · have counted : s.barRead secure a size
        = { s.bump (regDie0 .ideRejects) 1 with pcie := { (s.bump (regDie0 .ideRejects) 1).pcie with lastRead := none } } := by
      unfold State.barRead
      dsimp only
      rw [answers, refused, if_neg (by simp; omega), if_pos rfl]
    rw [counted]
    exact ⟨rfl, rfl, rfl⟩
  · show Host.Outcome.next (s.barWrite secure a size value none) = _
    unfold State.barWrite
    rw [answers, refused, if_neg (by simp; omega), if_pos rfl]
  · show Host.Outcome.next (s.barRead secure a size) = _
    unfold State.barRead
    simp [silent]
  · show Host.Outcome.next (s.barWrite secure a size value none) = _
    unfold State.barWrite
    simp [silent]
  · exact congrArg _ (State.barWrite_unwritable inMap hears (State.not_writable_of_lost_die ready die ne out) value none)
  · exact congrArg _ (State.barWrite_unwritable inMap hears (State.not_writable_before_ready early other) value none)

end Sys2Proof.Machine
end

section
/-!
SUPPORT. The security mailbox: how a service ends, what each service answers, zeroisation and the error state (R490–R498, R503, R504).
-/
set_option Elab.async false
namespace Sys2Proof.Machine

/-! ### A service that runs and ends (R490) -/

section
variable {s : State} {code n : Nat} {req : List Byte} {mine : List Byte → Bool}
  {f : State → List Byte → Except Nat (List Byte) × State}

/-- A service ends with its response, or with the RESULT that refuses it. -/
@[simp] def State.answeredWith : Except Nat (List Byte) × State → State
  | (.ok p, t) => t.endService 0 p
  | (.error r, t) => t.endService r []

/-- The service that the mailbox runs does its work on the request and ends with what the work answers. -/
theorem State.Serves.service_eq (h : s.Serves code n req) (yours : mine req = true) :
    s.service code n mine f = State.answeredWith (f s req) := by
  obtain ⟨running, link, sound, alive, length, request⟩ := h
  unfold State.service
  simp only [running, link, sound, alive, length, request, yours]
  simp <;> rfl

theorem State.Serves.service_ok (h : s.Serves code n req) (yours : mine req = true) {p : List Byte} {t : State}
    (work : f s req = (.ok p, t)) : s.service code n mine f = t.endService 0 p := by
  rw [h.service_eq yours, work, State.answeredWith]

theorem State.Serves.service_error (h : s.Serves code n req) (yours : mine req = true) {r : Nat} {t : State}
    (work : f s req = (.error r, t)) : s.service code n mine f = t.endService r [] := by
  rw [h.service_eq yours, work, State.answeredWith]

end

@[simp] theorem State.endService_sec (s : State) (r : Nat) (p : List Byte) :
    (s.endService r p).sec = { s.sec with running := none, result := r } := rfl

/-- A service's response is all that it leaves in memory. -/
@[simp] theorem State.endService_mem (s : State) (r : Nat) (p : List Byte) :
    ∃ host, (s.endService r p).mem = { s.mem with host := host } := ⟨_, rfl⟩

@[simp] theorem State.endService_keySlots (s : State) (r : Nat) (p : List Byte) :
    (s.endService r p).mem.keySlots = s.mem.keySlots := rfl

@[simp] theorem State.endService_boot (s : State) (r : Nat) (p : List Byte) : (s.endService r p).boot = s.boot := rfl

/-- Settles O20: every service that reports or holds a session ends by `endService`, after its own change of the security state. -/
theorem statusAndSessionServicesRespond : Obligations.StatusAndSessionServicesRespond := by
  refine ⟨fun s result payload inv small => ⟨rfl, rfl, ?_, rfl⟩, fun s req => ⟨fun h => ?_, fun h => ?_, fun h => ?_,
    fun h open' => ?_, fun h closed => ?_, fun h owner open' => ?_, fun h owner => ?_⟩⟩
  · exact State.hostRead_hostWrite inv.mem (by simp [leBytes_length])
  · exact congrArg _ (h.service_ok rfl rfl)
  · exact congrArg _ (h.service_ok rfl rfl)
  · exact congrArg _ (h.service_ok rfl rfl)
  · exact congrArg _ (h.service_error rfl (if_pos open'))
  · refine ⟨_, congrArg Host.Outcome.next (h.service_ok rfl (if_neg (by simp [closed]))), ?_⟩
    exact ⟨rfl, rfl, rfl, rfl, rfl, rfl, rfl, rfl⟩
  · refine ⟨_, congrArg Host.Outcome.next (h.service_ok rfl (if_neg (by simp [owner, open']))), ?_⟩
    rw [State.endService_sec]
    dsimp only
    by_cases first : s.sec.ideSet = 0
    · rw [if_pos first]
      exact ⟨open', owner, rfl, rfl, fun _ => ⟨rfl, rfl, rfl⟩, fun other => absurd (first.symm.trans other) (by decide)⟩
    · rw [if_neg first]
      exact ⟨open', owner, rfl, rfl, fun other => absurd other first, fun _ => ⟨rfl, rfl, rfl⟩⟩
  · refine ⟨_, congrArg Host.Outcome.next (h.service_ok rfl (if_pos owner)), ?_⟩
    exact ⟨rfl, rfl, rfl, rfl, rfl, rfl⟩

/-! ### The owner (R492, R493) -/

/-- What OWNER_AUTH finds: a challenge that lives, a signature of it, and the key whose hash was written last. -/
theorem State.Serves.ownerAuth_eq {s : State} {req : List Byte} (h : s.Serves 8 3073 req) {c : List Byte × Nat} {k : List Byte}
    (challenge : s.sec.challenge = some c) (last : s.sec.ownerSlots.getLast? = some k) :
    exec .ownerAuth s = .next (if decide (s.now < c.2) && Config.falconVerify (req.take 1793) (c.1 ++ s.serialBytes) (req.drop 1793)
        && Config.shake256 64 (req.take 1793) == k
      then ({ s with sec := { s.sec with challenge := none, owner := true } }).endService 0 []
      else ({ s with sec := { s.sec with challenge := none } }).endService 3 []) := by
  obtain ⟨nonce, due⟩ := c
  refine congrArg Host.Outcome.next ((h.service_eq (mine := anyRequest) rfl).trans ?_)
  have lives : s.challengeDue = !decide (s.now < due) := by
    simp only [State.challengeDue, challenge, Option.any_some, ← decide_not, Nat.not_lt]
  cases live : decide (s.now < due) with
  | false => simp [lives, live]
  | true =>
    simp only [lives, live, challenge, last, Bool.not_true, Bool.false_eq_true, if_false, Bool.true_and]
    generalize (Config.falconVerify (req.take 1793) (nonce ++ s.serialBytes) (req.drop 1793)
      && Config.shake256 64 (req.take 1793) == k) = verified
    cases verified with
    | false => rfl
    | true => rfl

/-- Settles O21: each service of the owner ends with the slot, the challenge or the role that its request earns. -/
theorem ownerEnrolAndAuth : Obligations.OwnerEnrolAndAuth := by
  intro s req
  refine ⟨fun h room may => ?_, fun h full => ?_, fun h => ?_, fun h c k challenge last => ?_, fun c challenge => ?_⟩
  · have free : ¬((s.sec.ownerSlots.length ≠ 0 ∧ (!s.sec.owner) = true) ∨ s.sec.ownerSlots.length ≥ 8) := by
      rcases may with none' | owner
      · simp [none']
      · simp [owner]
        omega
    exact ⟨_, congrArg Host.Outcome.next (h.service_ok rfl (if_neg free)), rfl, rfl, rfl⟩
  · exact congrArg _ (h.service_error rfl (if_pos (.inr full)))
  · exact ⟨_, congrArg Host.Outcome.next (h.service_ok rfl rfl), rfl, rfl, rfl, rfl⟩
  · refine ⟨_, h.ownerAuth_eq challenge last, ?_⟩
    split
    · rename_i good
      rw [good]
      exact ⟨rfl, by simp, rfl, rfl, rfl⟩
    · rename_i bad
      rw [Bool.eq_false_of_not_eq_true bad]
      exact ⟨rfl, by simp, rfl, rfl, rfl⟩
  · show Host.Outcome.next (if s.challengeDue then _ else s) = _
    simp [State.challengeDue, challenge]

/-! ### CONTEXT_KEY (R495) -/

theorem State.contextKey_owned {s : State} {req : List Byte} (context : u8 req 0 < 64) (op : u8 req 1 ≤ 1)
    (held : (s.ctx (u8 req 0)).allocs ≠ []) : s.contextKey req = (.error 2, s) := by
  unfold State.contextKey
  dsimp only
  rw [if_neg (by omega), if_pos (.inr (by simpa using held))]

theorem State.contextKey_free {s : State} {req : List Byte} (context : u8 req 0 < 64) (op : u8 req 1 ≤ 1) (owner : s.sec.owner = true)
    (free : (s.ctx (u8 req 0)).allocs = []) : s.contextKey req = (.ok [], s.setKeySlot (u8 req 0) (u8 req 1 = 0)) := by
  unfold State.contextKey
  dsimp only
  rw [if_neg (by omega), if_neg (by simp [owner, free])]

theorem worst_singleton (v : Viol) : worst [v] = some v := by
  cases located : v.located with
  | false => simp [worst, firstBy, located]
  | true => simp [worst, firstBy, located]

/-- The check of an ALLOC_SET beside the key slot of its TARGET. -/
theorem State.checkAllocSet_unkeyed {s : State} {d : List Byte} (empty : s.memKey (bitsOf (u32 d 36) 5 0) = 0)
    (rest : (({ s with mem := { s.mem with keySlots := s.mem.keySlots.set (bitsOf (u32 d 36) 5 0) 1 } }).checkAllocSet d).ending = none) :
    (s.checkAllocSet d).ending = some (refusal .accessDenied noHandle 36) := by
  unfold State.checkAllocSet at rest ⊢
  rw [Verdict.of_ending] at rest
  simp only [List.append_eq_nil_iff, State.allocViols] at rest
  obtain ⟨⟨⟨fields, aligned⟩, size⟩, reach, -⟩ := rest
  rw [fields, aligned, size, State.allocViols]
  rw [show violIf (!wholly s.mem.layout (fun k => (s.die k).inService) (u64 d 40) (u64 d 48) || _) _ = [] from reach, empty]
  simp [Verdict.of, violIf, worst_singleton]
  rfl

/-- Settles O22: CONTEXT_KEY refuses while the context owns an allocation, and the empty slot is the one breach left. -/
theorem contextKeysNeedNoAllocations : Obligations.ContextKeysNeedNoAllocations := by
  refine ⟨fun s req c h here context owner => ?_, fun s d => State.checkAllocSet_unkeyed⟩
  subst here
  refine ⟨fun new free => ?_, fun erase free rising => ?_, fun held => ⟨fun new => ?_, fun erase => ?_⟩⟩
  · refine ⟨_, congrArg Host.Outcome.next (h.service_ok (by simp [new]) (State.contextKey_free context (by omega) owner free)), ?_⟩
    simp only [new, decide_true, State.setKeySlot, if_true]
    exact ⟨rfl, rfl, Tab.getD_set_same _ _ _ _, rfl, rfl⟩
  · refine ⟨_, congrArg Host.Outcome.next (h.service_ok (by simp [erase]) (State.contextKey_free context (by omega) owner free)), ?_⟩
    simp only [erase, Nat.one_ne_zero, decide_false, State.setKeySlot, Bool.false_eq_true, if_false]
    refine ⟨rfl, ?_, rfl, rfl⟩
    show (Tab.erase _ _).getD _ 0 = 0
    rw [Tab.getD, Tab.get?_erase_same _ rising]
    rfl
  · exact congrArg _ (h.service_error (by simp [new]) (State.contextKey_owned context (by omega) held))
  · exact congrArg _ (h.service_error (by simp [erase]) (State.contextKey_owned context (by omega) held))

/-! ### Zeroisation and the error state (R491, R503, R504) -/

/-- The log leaves in host memory alone. -/
def State.DeviceMem (s t : State) : Prop := ∃ host, t.mem = { s.mem with host := host }

theorem State.DeviceMem.refl (s : State) : s.DeviceMem s := ⟨_, rfl⟩

theorem State.DeviceMem.trans {s t u : State} (h : s.DeviceMem t) (k : t.DeviceMem u) : s.DeviceMem u := by
  obtain ⟨a, ha⟩ := h
  obtain ⟨b, hb⟩ := k
  exact ⟨b, by rw [hb, ha]⟩

theorem State.logPut_deviceMem (s : State) (r : List Byte) : s.DeviceMem (s.logPut r) := by
  unfold State.logPut
  dsimp only
  split
  · split
    · exact .refl s
    · exact .refl s
  · exact ⟨_, rfl⟩

theorem State.logTrace_deviceMem (s : State) (die code a b : Nat) : s.DeviceMem (s.logTrace die code a b) := by
  unfold State.logTrace
  dsimp only
  split
  · exact State.logPut_deviceMem _ _
  · exact .refl s

theorem State.portDown_deviceMem (s : State) (p r : Nat) : s.DeviceMem (s.portDown p r) := by
  unfold State.portDown State.logPort
  have logged := State.logTrace_deviceMem (s.updPort p fun x => { PortSt.init with reason := r, since := s.now, sent := x.sent, delay := x.delay })
  dsimp only
  split
  · unfold State.holdover
    exact ite_cases (P := s.DeviceMem) (logged ..) (logged ..)
  · exact logged ..

/-- Ports that go DOWN change the fabric, time, registers and the log, and of memory at most what the log writes. -/
structure State.OnlyDown (s t : State) : Prop where
  rest : s.SameButPorts t
  mem : s.DeviceMem t

theorem State.downAll_only (s : State) (r : Nat) : s.OnlyDown (s.downAll r) :=
  List.foldlRecOn (upTo 40) _ (motive := s.OnlyDown) ⟨⟨_, _, _, _, _, rfl⟩, .refl s⟩ fun t ht p _ =>
    ite_cases (P := s.OnlyDown) ⟨ht.rest.trans (t.portDown_fell p r).rest, ht.mem.trans (t.portDown_deviceMem p r)⟩ ht

theorem State.SameButPorts.sec {s t : State} (h : s.SameButPorts t) : t.sec = s.sec := by obtain ⟨_, _, _, _, _, rfl⟩ := h; rfl

theorem State.SameButPorts.die {s t : State} (h : s.SameButPorts t) (d : Nat) : t.die d = s.die d := by
  obtain ⟨_, _, _, _, _, rfl⟩ := h; rfl

/-- Every port of a die in service goes DOWN: it falls at its turn, and no later port's fall raises it. -/
theorem State.downAll_port {s : State} (r : Nat) {p : Nat} (hp : p < 40) (there : (s.die (p / 5)).inService = true) :
    ((s.downAll r).port p).Down r := by
  have fold : ∀ (ps : List Nat) (t : State), s.SameButPorts t → (p ∈ ps ∨ (t.port p).Down r) →
      ((ps.foldl (fun t p => if (t.die (p / 5)).inService then t.portDown p r else t) t).port p).Down r := by
    intro ps
    induction ps with
    | nil => exact fun t _ h => h.resolve_left List.not_mem_nil
    | cons q ps ih =>
      intro t same h
      rw [List.foldl_cons]
      by_cases here : p = q
      · subst here
        rw [if_pos ((congrArg Die.inService (same.die _)).trans there)]
        exact ih _ (same.trans (t.portDown_fell p r).rest) (.inr (t.portDown_fell p r).down)
      · have left : p ∈ ps ∨ (t.port p).Down r := h.imp_left fun m => (List.mem_cons.1 m).resolve_left here
        split
        · exact ih _ (same.trans (t.portDown_fell q r).rest) (left.imp_right fun down => by rwa [(t.portDown_fell q r).others p here])
        · exact ih t same left
  exact fold (upTo 40) s ⟨_, _, _, _, _, rfl⟩ (.inl (List.mem_range.2 hp))

/-- Keys and roles are gone, before the ports go DOWN (R491). -/
def State.secretsGone (s : State) : State :=
  { s with
    mem := { s.mem with keySlots := [], packageKey := 0 }
    sec := { s.sec with owner := false, session := false, ide0 := [], ide1 := [], ideSet := 0, challenge := none, zeroised := true } }

theorem State.zeroise_eq (s : State) : s.zeroise = s.secretsGone.downAll 4 := rfl

theorem State.zeroise_sec (s : State) : s.zeroise.sec = s.secretsGone.sec := by
  rw [s.zeroise_eq]
  exact (s.secretsGone.downAll_only 4).rest.sec

theorem State.zeroise_keys (s : State) : s.zeroise.mem.keySlots = [] ∧ s.zeroise.mem.packageKey = 0 := by
  obtain ⟨host, eq⟩ := (s.secretsGone.downAll_only 4).mem
  rw [s.zeroise_eq, eq]
  exact ⟨rfl, rfl⟩

/-- The error state entered, before the ports go DOWN (R503). -/
def State.inError (s : State) : State := { s with sec := { s.sec with errorState := true } }

theorem State.enterError_eq (s : State) : s.enterError = s.inError.downAll 4 := rfl

theorem State.enterError_sec (s : State) : s.enterError.sec = s.inError.sec := by
  rw [s.enterError_eq]
  exact (s.inError.downAll_only 4).rest.sec

theorem State.writeReg_secZeroise {s : State} (taken : s.writable (regDie0 .secZeroise) = true) (mask : Nat) (ok : Option Bool) :
    s.writeReg (regDie0 .secZeroise) mask 1 ok = s.zeroiseNow := by
  unfold regDie0 at taken ⊢
  simp only [State.writeReg, taken, Bool.not_true, Bool.false_eq_true, if_false]
  rfl

/-- Settles O23: keys go before the ports, ports go DOWN one after another, and the mailbox's services end after that. -/
theorem zeroiseNowActsAtOnce : Obligations.ZeroiseNowActsAtOnce := by
  refine ⟨fun s => ?_, fun s p hp there => ⟨?_, ?_⟩, fun s secure ready acc => ?_,
    fun s req => ⟨fun h all => ?_, fun h one owner => ?_, fun h => ⟨?_, ?_⟩, fun tested sound => ?_⟩⟩
  · obtain ⟨slots, package⟩ := s.zeroise_keys
    rw [s.zeroise_sec]
    exact ⟨slots, package, rfl, rfl, rfl, rfl, rfl, rfl, rfl, rfl⟩
  · rw [s.zeroise_eq]
    exact State.downAll_port (s := s.secretsGone) 4 hp there
  · obtain ⟨mode, reason, -⟩ := State.downAll_port (s := s.inError) 4 hp there
    rw [← s.enterError_eq] at mode reason
    exact ⟨mode, reason, congrArg SecSt.errorState s.enterError_sec⟩
  · have run : s.writeOf secure (regDie0 .secZeroise) 1 = s.zeroiseNow :=
      (acc.writeReg_eq (w := 32) rfl (by decide)).trans (State.writeReg_secZeroise acc.taken ..)
    refine congrArg Host.Outcome.next (run.trans ?_)
    unfold State.zeroiseNow
    split
    · rfl
    · rfl
  · exact congrArg Host.Outcome.next (h.service_ok (t := s.zeroise) (by simp [all]) (if_pos all))
  · refine ⟨_, congrArg Host.Outcome.next (h.service_ok (by simp [one]) (if_pos owner)), ?_⟩
    have zeroised : s.zeroise.sec.zeroised = true := by rw [s.zeroise_sec]; rfl
    have keys := s.zeroise_keys.1
    generalize s.zeroise = t at zeroised keys ⊢
    exact ⟨rfl, zeroised, keys, rfl⟩
  · exact congrArg Host.Outcome.next (h.service_ok (t := s) (mine := anyRequest) rfl (if_pos rfl))
  · exact congrArg Host.Outcome.next (h.service_error (t := s.enterError) (mine := anyRequest) rfl (if_neg Bool.false_ne_true))
  · exact congrArg Host.Outcome.next (if_pos ⟨tested, by simp [sound]⟩)

end Sys2Proof.Machine
end

section
/-!
SUPPORT. The operating point and the module's protection: requests in force, the control loops, comparators, throttle, droop, and the
faults that stop the module (R517–R523); PERST# before the first READY (R528).
-/
set_option Elab.async false
namespace Sys2Proof.Machine

/-! ### Bits of a word after a field is put into it -/

theorem bitsOf_putBits_same (v hi lo x : Nat) : bitsOf (putBits v hi lo x) hi lo = x % 2 ^ (hi + 1 - lo) := by
  refine Nat.eq_of_testBit_eq fun i => ?_
  rw [testBit_bitsOf, testBit_putBits, Nat.testBit_mod_two_pow]
  by_cases inside : i < hi + 1 - lo
  · rw [if_pos (by omega), Nat.add_sub_cancel_left]
  · simp [inside]

theorem bitsOf_putBits_other (v x : Nat) {hi lo hi' lo' : Nat} (apart : hi' < lo ∨ hi < lo') :
    bitsOf (putBits v hi lo x) hi' lo' = bitsOf v hi' lo' :=
  bitsOf_congr fun i low high => by rw [testBit_putBits, if_neg (by omega)]

theorem bitsOf_mod (v : Nat) {n hi lo : Nat} (h : hi < n) : bitsOf (v % 2 ^ n) hi lo = bitsOf v hi lo :=
  bitsOf_congr fun i _ high => by rw [Nat.testBit_mod_two_pow, decide_eq_true (by omega), Bool.true_and]

/-! ### Sorted lists -/

/-- An entry goes without hiding one below it. -/
theorem Tab.get?_erase_below {α : Type} {t : Tab α} {i j : Nat} {x : α} (lt : j < i) (h : t.get? j = some x) :
    (t.erase i).get? j = some x := by
  induction t with
  | nil => exact h
  | cons e t ih =>
    obtain ⟨k, y⟩ := e
    simp only [Tab.get?, Tab.erase] at h ⊢
    by_cases here : j = k
    · rw [if_pos here] at h
      rw [if_neg (by omega), if_neg (by omega)]
      simpa [Tab.get?, here] using h
    · rw [if_neg here] at h
      by_cases passed : j < k
      · rw [if_pos passed] at h
        cases h
      · rw [if_neg passed] at h
        split
        · exact h
        · split
          · simpa [Tab.get?, here, passed] using h
          · simpa [Tab.get?, here, passed] using ih h

/-- An entry goes and what is found above it is found still. -/
theorem Tab.get?_erase_above {α : Type} (t : Tab α) {i j : Nat} (lt : i < j) : (t.erase i).get? j = t.get? j := by
  induction t with
  | nil => rfl
  | cons e t ih =>
    obtain ⟨k, y⟩ := e
    simp only [Tab.erase]
    by_cases here : i = k
    · subst here
      simp [Tab.get?, show ¬ j = i by omega, show ¬ j < i by omega]
    · rw [if_neg here]
      split
      · rfl
      · simp only [Tab.get?]
        rw [ih]

theorem Tab.mem_vals_of_get? {α : Type} {t : Tab α} {i : Nat} {x : α} (h : t.get? i = some x) : x ∈ t.vals := by
  induction t with
  | nil => cases h
  | cons e t ih =>
    obtain ⟨k, y⟩ := e
    simp only [Tab.get?] at h
    split at h
    · cases h
      exact List.mem_cons_self
    · split at h
      · cases h
      · exact List.mem_cons_of_mem _ (ih h)

theorem mem_insertKey_self (l : List Nat) (k : Nat) : k ∈ insertKey l k := by
  induction l with
  | nil => exact List.mem_singleton_self k
  | cons x l ih =>
    simp only [insertKey]
    split
    · rename_i e
      exact e ▸ List.mem_cons_self
    · split
      · exact List.mem_cons_self
      · exact List.mem_cons_of_mem _ ih

/-- The least of a list is no more than any of it. -/
theorem leastOf_le {l : List Nat} {c : Nat} (h : c ∈ l) : ∃ m, leastOf l = some m ∧ m ≤ c := by
  have fold : ∀ (l : List Nat) (m : Option Nat), (c ∈ l ∨ ∃ y, m = some y ∧ y ≤ c) →
      ∃ y, l.foldl (fun m x => match m with | none => some x | some y => some (min x y)) m = some y ∧ y ≤ c := by
    intro l
    induction l with
    | nil => exact fun m h => h.resolve_left List.not_mem_nil
    | cons x l ih =>
      intro m h
      refine ih _ ?_
      rcases h with mem | ⟨y, rfl, le⟩
      · rcases List.mem_cons.1 mem with rfl | later
        · right
          cases m with
          | none => exact ⟨c, rfl, Nat.le_refl c⟩
          | some y => exact ⟨min c y, rfl, Nat.min_le_left c y⟩
        · exact .inl later
      · exact .inr ⟨min x y, rfl, (Nat.min_le_right x y).trans le⟩
  exact fold l none (.inl h)

/-! ### The lowest request in force (R518) -/

theorem PowerSt.lowest_throttled {p : PowerSt} (h : p.throttled = true) : p.lowest = 0 := if_pos h

theorem PowerSt.lowest_le_requests {p : PowerSt} (h : p.throttled = false) :
    p.lowest ≤ p.fwPoint ∧ ∀ k c, p.caps.get? k = some c → p.lowest ≤ c := by
  have free : p.lowest = min p.fwPoint (p.capPoint.getD 60) := if_neg (by simp [h])
  rw [free]
  refine ⟨Nat.min_le_left _ _, fun k c found => ?_⟩
  obtain ⟨m, least, le⟩ := leastOf_le (Tab.mem_vals_of_get? found)
  rw [PowerSt.capPoint, least]
  exact (Nat.min_le_right _ _).trans le

/-! ### The control loops (R519) -/

/-- What taking reports of sensors changes: DIE_TEMP and who has reported. -/
structure State.Sensed (s t : State) : Prop where
  rest : ∃ regs reports silent, t = { s with regs := regs, power := { s.power with tempReports := reports, silent := silent } }
  rising : s.regsOk → t.regsOk
  kept : s.regsOk → ∀ q : Reg, q.inMap → q.name ≠ .dieTemp → t.rd q = s.rd q

theorem State.Sensed.refl (s : State) : s.Sensed s := ⟨⟨_, _, _, rfl⟩, id, fun _ _ _ _ => rfl⟩

theorem State.Sensed.setTemp {s t : State} (h : s.Sensed t) {d : Nat} (hd : d < 8) (x : Nat) : s.Sensed (t.setTemp d x) := by
  obtain ⟨⟨regs, reports, silent, rfl⟩, rising, kept⟩ := h
  refine ⟨⟨_, _, _, rfl⟩, fun ok => State.wr_regsOk _ _ (rising ok), fun ok q hq ne => ?_⟩
  have inMap : (regDie .dieTemp d).inMap := ⟨hd, Nat.one_pos⟩
  exact (State.rd_wr_other _ (rising ok) (addr_ne_of_name hq inMap ne)).trans (kept ok q hq ne)

theorem State.Sensed.reported {s t : State} (h : s.Sensed t) (f : List Nat → List Nat) (g : Tab Nat → Tab Nat) :
    s.Sensed (t.setPower fun p => { p with tempReports := f p.tempReports, silent := g p.silent }) := by
  obtain ⟨⟨regs, reports, silent, rfl⟩, rising, kept⟩ := h
  exact ⟨⟨_, _, _, rfl⟩, rising, kept⟩

theorem State.Sensed.takeTemp {s t : State} (h : s.Sensed t) {d : Nat} (hd : d < 8) (x : Option Nat) : s.Sensed (t.takeTemp d x) := by
  cases x with
  | some x => exact (h.setTemp hd x).reported (insertKey · d) (·.erase d)
  | none =>
    have silent := h.reported id fun l => l.set d (l.getD d t.now)
    exact ite_cases (P := s.Sensed) (silent.setTemp hd _) silent

theorem State.reporting_lt {s : State} {d : Nat} (h : d ∈ s.reporting) : d < 8 := by
  unfold State.reporting at h
  split at h
  · exact List.mem_range.1 h
  · exact List.mem_range.1 (List.mem_filter.1 h).1

theorem State.sensed_reports (s : State) (temps : List (Option Nat)) :
    s.Sensed (s.reporting.foldl (fun t d => t.takeTemp d (temps.getD d none)) s) :=
  List.foldlRecOn s.reporting _ (motive := s.Sensed) (.refl s) fun _ ht _ hd => ht.takeTemp (State.reporting_lt hd) _

/-- A step toward a goal, one up at most, and up only where it may. -/
theorem raise_le (n goal : Nat) (may : Bool) : (if goal ≤ n then goal else if may then n + 1 else n) ≤ min goal (n + 1) := by
  split
  · omega
  · split <;> omega

/-- The point that the loops choose: one step up at most, down past a bound, and up no further than the estimate. -/
theorem State.loopPoint_bounds {s : State} (h : s.power.fwPoint ≤ 60) (avg estimate : Nat) :
    s.loopPoint avg estimate ≤ min 60 (s.power.fwPoint + 1) ∧ (s.powerLimit < avg → s.loopPoint avg estimate ≤ s.power.fwPoint - 1)
      ∧ s.loopPoint avg estimate ≤ max estimate s.power.fwPoint := by
  unfold State.loopPoint
  dsimp only
  generalize above : (decide (avg > s.powerLimit) || s.reporting.any fun d => decide (s.fld (regDie .dieTemp d) 11 0 > s.thermalTarget)) = hot
  have least := raise_le s.power.fwPoint (min 60 (if hot then min estimate (s.power.fwPoint - 1) else estimate))
    (s.reporting.all (fun d => s.power.tempReports.contains d) && decide (2 ≤ s.power.powerReports))
  cases hot with
  | false =>
    rw [if_neg Bool.false_ne_true] at least ⊢
    refine ⟨by omega, fun past => ?_, by omega⟩
    rw [decide_eq_true past, Bool.true_or] at above
    cases above
  | true =>
    rw [if_pos rfl] at least ⊢
    exact ⟨by omega, fun _ => by omega, by omega⟩

/-- The state in which the loops choose the point: reports taken, INPUT_POWER written. -/
def State.measuredPower (s : State) (temps : List (Option Nat)) (power mv : Nat) : State :=
  ((s.reporting.foldl (fun t d => t.takeTemp d (temps.getD d none)) s).wr (regDie0 .inputPower)
    (putBits (power % 65536) 31 16 (mv / 4))).setPower fun p => { p with powerReports := p.powerReports + 1 }

theorem exec_controlLoopTick_acts {s : State} (on : s.boot.firmwareOn = true) (supplied : s.power.supplies = true)
    (free : s.power.loopsHeld = false) (temps : List (Option Nat)) (avg power mv estimate : Nat) :
    exec (.controlLoopTick temps avg power mv estimate) s = .next ((s.measuredPower temps power mv).setPower fun p =>
      { p with fwPoint := (s.measuredPower temps power mv).loopPoint avg estimate }) :=
  congrArg Host.Outcome.next (if_neg (by simp [on, supplied, free]))

theorem exec_controlLoopTick_idle {s : State}
    (h : s.boot.firmwareOn = false ∨ s.power.supplies = false ∨ s.power.loopsHeld = true) (temps : List (Option Nat))
    (avg power mv estimate : Nat) : exec (.controlLoopTick temps avg power mv estimate) s = .next s :=
  congrArg Host.Outcome.next (if_pos (by simpa using h))

/-- What a pass of the loops leaves (R519). -/
theorem State.loops_act {s : State} (inv : s.Inv) (temps : List (Option Nat)) (avg power mv estimate : Nat) :
    let m := s.measuredPower temps power mv
    let t := m.setPower fun p => { p with fwPoint := m.loopPoint avg estimate }
    t.power.fwPoint ≤ min 60 (s.power.fwPoint + 1) ∧ (s.powerLimit < avg → t.power.fwPoint ≤ s.power.fwPoint - 1)
      ∧ t.power.fwPoint ≤ max estimate s.power.fwPoint
      ∧ bitsOf (t.rd (regDie0 .inputPower)) 15 0 = power % 65536 ∧ bitsOf (t.rd (regDie0 .inputPower)) 31 16 = mv / 4 % 65536
      ∧ t.power.point = s.power.point ∧ t.mem = s.mem := by
  have sensed := s.sensed_reports temps
  intro m t
  obtain ⟨⟨regs, reports, silent, eq⟩, rising, kept⟩ := sensed
  have inMap : (regDie0 .inputPower).inMap := regDie0_inMap rfl Nat.one_pos
  have control : (regDie0 .powerControl).inMap := regDie0_inMap rfl Nat.one_pos
  have limit : m.powerLimit = s.powerLimit := by
    have word : m.rd (regDie0 .powerControl) = s.rd (regDie0 .powerControl) :=
      (State.rd_wr_other _ (rising inv.regs) (addr_ne_of_name control inMap (by decide))).trans
        (kept inv.regs _ control (by decide))
    simp only [State.powerLimit, State.fld, word]
  have point : m.power.fwPoint = s.power.fwPoint ∧ m.power.point = s.power.point ∧ m.mem = s.mem := by
    simp only [m, State.measuredPower, eq]
    exact ⟨rfl, rfl, rfl⟩
  have word : t.rd (regDie0 .inputPower) = putBits (power % 65536) 31 16 (mv / 4) := State.rd_wr_same _ _ (rising inv.regs)
  obtain ⟨fw, now, mem⟩ := point
  obtain ⟨up, down, most⟩ := State.loopPoint_bounds (s := m) (fw.symm ▸ inv.points.2) avg estimate
  rw [fw] at up down most
  rw [limit] at down
  refine ⟨up, down, most, ?_, ?_, now, mem⟩
  · rw [word, bitsOf_putBits_other _ _ (by decide), bitsOf, Nat.shiftRight_zero]
    exact Nat.mod_mod power 65536
  · exact (congrArg (bitsOf · 31 16) word).trans (bitsOf_putBits_same _ 31 16 _)

/-! ### The comparators (R520) -/

/-- The requests of the comparators after comparator `k` has seen its input; `half` is what it would request. -/
def capsAfter (caps : Tab Nat) (half k : Nat) (above below : Bool) : Tab Nat :=
  if (caps.get? k).isSome then if below then caps.erase k else caps else if above then caps.set k half else caps

theorem State.comparator_power (s : State) (k : Nat) (above below : Bool) :
    (s.comparator k above below).power = { s.power with caps := capsAfter s.power.caps (halfPoint s.power.point) k above below } := by
  unfold State.comparator capsAfter
  split
  · split <;> rfl
  · split <;> rfl

section
variable {caps : Tab Nat} {half j k c : Nat} {above below : Bool}

/-- A comparator that holds its request keeps it until its release. -/
theorem capsAfter_held (h : caps.get? k = some c) (stays : below = false) : (capsAfter caps half k above below).get? k = some c := by
  rw [capsAfter, h, stays]
  exact h

/-- A comparator that holds nothing requests half the point. -/
theorem capsAfter_engages (h : caps.get? k = none) (past : above = true) :
    (capsAfter caps half k above below).get? k = some half := by
  rw [capsAfter, h, past]
  exact Tab.get?_set_same _ _ _

/-- A comparator's pass leaves the request of a lower one as it is. -/
theorem capsAfter_lower (lt : j < k) (h : caps.get? j = some c) : (capsAfter caps half k above below).get? j = some c := by
  unfold capsAfter
  split
  · split
    · exact Tab.get?_erase_below lt h
    · exact h
  · split
    · rw [Tab.get?_set_other _ _ (by omega)]
      exact h
    · exact h

/-- A comparator's pass leaves what a higher one requests, or does not, as it is. -/
theorem capsAfter_higher (lt : k < j) : (capsAfter caps half k above below).get? j = caps.get? j := by
  unfold capsAfter
  split
  · split
    · exact Tab.get?_erase_above _ lt
    · rfl
  · split
    · exact Tab.get?_set_other _ _ (by omega)
    · rfl

/-- A comparator that is released holds nothing, and the list stays in order. -/
theorem capsAfter_released (rising : caps.Pairwise fun a b => a.1 < b.1) :
    (capsAfter caps half k false true).get? k = none ∧ (capsAfter caps half k false true).Pairwise (fun a b => a.1 < b.1)
      ∧ ∀ j, j ≠ k → (capsAfter caps half k false true).get? j = caps.get? j := by
  unfold capsAfter
  split
  · exact ⟨Tab.get?_erase_same _ rising, Tab.erase_rising _ rising, fun j ne => Tab.get?_erase_other rising ne⟩
  · rename_i free
    exact ⟨by simpa using free, rising, fun _ _ => rfl⟩

end

/-- What a power sample leaves of the requests: each comparator's pass in turn. -/
def capsSampled (caps : Tab Nat) (half watts avg : Nat) (above : Bool) : Tab Nat :=
  capsAfter (capsAfter (capsAfter caps half 0 (watts > 6500) (watts < 6000)) half 1 above (watts < 5000)) half 2 (avg > 5000) (avg < 4900)

theorem exec_powerSample_supplied {s : State} (h : s.power.supplies = true) (watts avg : Nat) (above : Bool) :
    ∃ t, exec (.powerSample watts avg above) s = .next t
      ∧ t.power = { s.power with caps := capsSampled s.power.caps (halfPoint s.power.point) watts avg above } := by
  refine ⟨_, congrArg Host.Outcome.next (if_neg (by simp [h])), ?_⟩
  simp only [State.comparator_power]
  rfl

/-- The requests after a sample (R520). -/
theorem capsSampled_spec (caps : Tab Nat) (half watts avg : Nat) (above : Bool) :
    let t := capsSampled caps half watts avg above
    (caps.get? 0 = none → 6500 < watts → t.get? 0 = some half)
      ∧ (caps.get? 1 = none → above = true → t.get? 1 = some half)
      ∧ (caps.get? 2 = none → 5000 < avg → t.get? 2 = some half)
      ∧ (∀ c, caps.get? 0 = some c → 6000 ≤ watts → t.get? 0 = some c)
      ∧ (∀ c, caps.get? 1 = some c → 5000 ≤ watts → t.get? 1 = some c)
      ∧ (∀ c, caps.get? 2 = some c → 4900 ≤ avg → t.get? 2 = some c)
      ∧ (caps.Pairwise (fun a b => a.1 < b.1) → watts < 5000 → avg < 4900 → above = false → t.get? 0 = none
          ∧ t.get? 1 = none ∧ t.get? 2 = none) := by
  refine ⟨fun free past => ?_, fun free past => ?_, fun free past => ?_, fun c held high => ?_, fun c held high => ?_,
    fun c held high => ?_, fun rising low lowAvg noRise => ?_⟩
  · exact capsAfter_lower (by omega) (capsAfter_lower (by omega) (capsAfter_engages free (by simpa using past)))
  · exact capsAfter_lower (by omega) (capsAfter_engages ((capsAfter_higher (by omega)).trans free) past)
  · exact capsAfter_engages (((capsAfter_higher (by omega)).trans (capsAfter_higher (by omega))).trans free) (by simpa using past)
  · exact capsAfter_lower (by omega) (capsAfter_lower (by omega) (capsAfter_held held (by simpa using high)))
  · exact capsAfter_lower (by omega) (capsAfter_held ((capsAfter_higher (by omega)).trans held) (by simpa using high))
  · exact capsAfter_held (((capsAfter_higher (by omega)).trans (capsAfter_higher (by omega))).trans held) (by simpa using high)
  · unfold capsSampled
    rw [noRise, decide_eq_false (by omega : ¬ watts > 6500), decide_eq_false (by omega : ¬ avg > 5000),
      decide_eq_true (by omega : watts < 6000), decide_eq_true low, decide_eq_true lowAvg]
    obtain ⟨none0, rising0, -⟩ := capsAfter_released (half := half) (k := 0) rising
    obtain ⟨none1, rising1, same1⟩ := capsAfter_released (half := half) (k := 1) rising0
    obtain ⟨none2, -, same2⟩ := capsAfter_released (half := half) (k := 2) rising1
    exact ⟨(same2 0 (by decide)).trans ((same1 0 (by decide)).trans none0), (same2 1 (by decide)).trans none1, none2⟩

/-! ### Faults that stop the module (R466, R521, R523) -/

/-- The module has stopped with its supplies off; time runs on from what `s` had (R334). -/
structure State.StoppedFrom (s t : State) : Prop where
  stopped : t.power.stopped = true
  off : t.power.supplies = false
  pips : t.time.pips = s.time.pips
  idle : t.cmds = []
  stage : t.boot.stage ≠ .ready
  trip : t.power.thermTrip = s.power.thermTrip
  removed : t.power.removed = s.power.removed
  input : t.power.inputOk = s.power.inputOk

theorem State.stopModule_stopped (s : State) : s.StoppedFrom (s.stopModule true) :=
  ⟨rfl, Bool.and_false _, rfl, rfl, by simp [State.stopModule, State.coldClear, State.reset, BootSt.init], rfl, rfl, rfl⟩

theorem State.moduleFault_stopped (s : State) (u : UnitId) : s.StoppedFrom (s.moduleFault u true) := by
  obtain ⟨mem, faults, freeze, ctxs, pcie, eq⟩ := s.faultRecord_rest ⟨.module, 0, u, none, noWhere⟩
  have stopped := State.stopModule_stopped (s.faultRecord ⟨.module, 0, u, none, noWhere⟩)
  rw [eq] at stopped
  unfold State.moduleFault
  rw [eq]
  exact ⟨stopped.stopped, stopped.off, stopped.pips, stopped.idle, stopped.stage, stopped.trip, stopped.removed, stopped.input⟩

@[simp] theorem State.logTrace_power (s : State) (die code a b : Nat) : (s.logTrace die code a b).power = s.power := by
  obtain ⟨regs, mem, log, eq⟩ := s.logTrace_rest die code a b
  rw [eq]

@[simp] theorem State.logThrottle_power (s : State) (t e : Nat) : (s.logThrottle t e).power = s.power :=
  ite_cases (P := fun u : State => u.power = s.power) (State.logTrace_power ..) rfl

theorem State.rd_logThrottle {s : State} (ok : s.regsOk) (t e : Nat) {r : Reg} (hr : r.inMap) (other : r.name ≠ .logDrops) :
    (s.logThrottle t e).rd r = s.rd r :=
  ite_cases (P := fun u : State => u.rd r = s.rd r) (State.rd_logTrace ok _ _ _ _ hr other) rfl

/-- A change of the point is logged, and that is all that stands beside it. -/
theorem exec_operatingPointChange_steps {s : State} (supplied : s.power.supplies = true) (ne : s.power.point ≠ s.power.lowest) :
    ∃ t, exec .operatingPointChange s = .next t ∧ t.power = { s.power with point := s.power.lowest }
      ∧ { t with log := s.log, mem := s.mem, regs := s.regs, power := s.power } = s := by
  refine ⟨_, congrArg Host.Outcome.next (if_neg (by simp [supplied, ne])), ?_⟩
  dsimp only
  split
  · obtain ⟨regs, mem, log, eq⟩ := (s.setPower fun p => { p with point := p.lowest }).logTrace_rest 0 0x0101
      (cclkKHz (s.setPower fun p => { p with point := p.lowest }).power.point)
      (s.setPower fun p => { p with point := p.lowest }).power.limiter
    rw [eq]
    exact ⟨rfl, rfl⟩
  · exact ⟨rfl, rfl⟩

/-- Settles O49: each request, comparator and fault by its own row. -/
theorem powerRequestsSetThePoint : Obligations.PowerRequestsSetThePoint := by
  intro s inv p stopped
  have fault : ∀ (s' : State) (u : UnitId), s'.time.pips = s.time.pips → stopped (s'.moduleFault u true) := fun s' u same =>
    let f := s'.moduleFault_stopped u
    ⟨f.stopped, f.off, f.pips.trans same, f.idle, f.stage⟩
  refine ⟨PowerSt.lowest_throttled, PowerSt.lowest_le_requests, exec_operatingPointChange_steps, fun still => ?_,
    fun temps avg power mv estimate => ⟨fun idle => exec_controlLoopTick_idle idle temps avg power mv estimate, fun on supplied free =>
      ⟨_, exec_controlLoopTick_acts on supplied free temps avg power mv estimate, State.loops_act inv temps avg power mv estimate⟩⟩,
    fun watts avg above supplied => ?_, fun temp supplied cool => ⟨fun hot => ?_, fun low => ?_⟩,
    fun temp hot => ⟨fun cooled => ?_, fun still => ?_⟩, fun d hd supplied => ?_, fun stretching enough => ?_, fun few => ?_,
    fun temp supplied hot => ?_, fun temp low => ?_, fun d hd supplied => ?_, fun supplied => ?_⟩
  · exact congrArg Host.Outcome.next (if_pos (by simpa using still))
  · obtain ⟨t, run, power⟩ := exec_powerSample_supplied supplied watts avg above
    refine ⟨t, run, ?_⟩
    rw [power]
    exact ⟨rfl, rfl, capsSampled_spec p.caps (halfPoint p.point) watts avg above⟩
  · refine ⟨_, congrArg Host.Outcome.next (if_pos ⟨supplied, hot, by simpa using cool⟩), ?_, ?_⟩
    · rw [State.logThrottle_power]
      rfl
    · have inMap : (regDie0 .throttleEvents).inMap := regDie0_inMap rfl Nat.one_pos
      have ok : (s.setPower fun p => { p with throttled := true }).regsOk := inv.regs
      exact (State.rd_logThrottle (State.bump_regsOk _ _ ok) _ _ inMap (by decide)).trans (State.rd_bump_same _ _ ok)
  · exact congrArg Host.Outcome.next (if_neg fun h => by omega)
  · refine ⟨_, congrArg Host.Outcome.next (if_pos ⟨hot, cooled⟩), ?_⟩
    rw [State.logThrottle_power]
    rfl
  · exact congrArg Host.Outcome.next (if_neg fun h => by omega)
  · exact ⟨_, congrArg Host.Outcome.next (if_pos ⟨supplied, hd⟩), rfl, mem_insertKey_self _ _, rfl, rfl⟩
  · exact congrArg Host.Outcome.next (if_pos ⟨stretching, enough⟩)
  · exact congrArg Host.Outcome.next (if_neg fun h => Nat.not_le.2 few h.2)
  · refine ⟨_, congrArg Host.Outcome.next (if_pos ⟨supplied, hot⟩), fault _ _ rfl, ?_⟩
    exact (State.moduleFault_stopped _ _).trip
  · exact congrArg Host.Outcome.next (if_neg fun h => by omega)
  · exact ⟨_, congrArg Host.Outcome.next (if_pos ⟨supplied, hd⟩), fault _ _ rfl⟩
  · exact ⟨_, congrArg Host.Outcome.next (if_pos supplied), fault _ _ rfl⟩

/-! ### PERST# (R528) -/

/-- Settles O50: before the first READY the rows change the link and what ends with it. -/
theorem perstGatesOnlyTheLinkBeforeReady : Obligations.PerstGatesOnlyTheLinkBeforeReady := by
  intro s before
  refine ⟨⟨_, congrArg Host.Outcome.next (if_neg ?_), rfl, rfl, rfl⟩, _, rfl, rfl, ?_, rfl⟩
  · show ¬ s.boot.wasReady = true
    simp [before]
  · simp only [Bool.and_assoc]

end Sys2Proof.Machine
end

section
/-!
SUPPORT. Resets: what abandoning all work leaves alone (R531), and what each kind of reset clears and keeps (R530–R532, R546, R547,
R553, R554).
-/
set_option Elab.async false
namespace Sys2Proof.Machine

/-! ### Writes and records leave the key slots and descriptor slots alone -/

/-- The context keys are as they were. -/
def State.SameKeys (s t : State) : Prop := t.mem.keySlots = s.mem.keySlots

theorem State.writeWord_sameKeys (s : State) (a k : Nat) (bs : List Byte) : s.SameKeys (s.writeWord a k bs).1 := by
  unfold State.writeWord
  split
  · rfl
  · split
    · rfl
    · rfl

theorem State.writeBlock_sameKeys (s : State) (key a k : Nat) (bs : List Byte) : s.SameKeys (s.writeBlock key a k bs).1 := by
  unfold State.writeBlock
  dsimp only
  split
  · rfl
  · split
    · rfl
    · split
      · rfl
      · rfl

theorem State.writePiece_sameKeys (s : State) (x : Acc) (a : Nat) (bs : List Byte) : s.SameKeys (s.writePiece x a bs).1 := by
  unfold State.writePiece
  dsimp only
  split
  · rfl
  · split
    · rfl
    · split
      · exact s.writeBlock_sameKeys ..
      · split
        · exact s.writeWord_sameKeys ..
        · exact (State.writeWord_sameKeys ..).trans (s.writeWord_sameKeys ..)

theorem State.writePieces_sameKeys (s : State) (x : Acc) (ps : List (Nat × List Byte)) : s.SameKeys (s.writePieces x ps).1 := by
  induction ps generalizing s with
  | nil => rfl
  | cons p ps ih => exact (ih _).trans (s.writePiece_sameKeys ..)

theorem State.writeBytes_sameKeys (s : State) (x : Acc) (a : Nat) (bs : List Byte) : s.SameKeys (s.writeBytes x a bs).1 := by
  unfold State.writeBytes
  dsimp only
  split
  · rfl
  · exact s.writePieces_sameKeys ..

theorem State.SameKeys.foldl {α : Type} {f : State → α → State} (step : ∀ (t : State) a, t.SameKeys (f t a)) (l : List α) (s : State) :
    s.SameKeys (l.foldl f s) :=
  List.foldlRecOn l f (motive := s.SameKeys) rfl fun t ht a _ => (step t a).trans ht

theorem State.undefined_sameKeys (s : State) (x : Acc) (rs : List Rng) : s.SameKeys (s.undefined x rs) :=
  .foldl (fun (t : State) (r : Rng) =>
    State.writeBytes_sameKeys { t with freeCount := t.freeCount + r.2 } x r.1
      ((upTo r.2).map fun i => BitVec.ofNat 8 (Config.freeValue (t.freeCount + i)))) rs s

theorem State.undefineDest_sameKeys (s : State) (c : Cmd) : s.SameKeys (s.undefineDest c) := by
  unfold State.undefineDest
  refine ite_cases (P := s.SameKeys) rfl (ite_cases (P := s.SameKeys) ?product (.foldl (fun t h => ?output) _ s))
  case product =>
    split
    · exact s.undefined_sameKeys ..
    · rfl
  case output =>
    split
    · exact t.undefined_sameKeys ..
    · rfl

theorem State.requestVector_slot (s : State) (c r k i : Nat) : (s.requestVector c r).slot k i = s.slot k i := by
  have slots := congrArg Ctx.slots (s.requestVector_ctx (c := c) (r := r) k)
  exact congrArg (fun l : Tab DescSlot => l.getD i DescSlot.init) slots

/-- A fault record writes host memory alone. -/
theorem State.faultRecord_deviceMem (s : State) (f : FaultRec) : s.DeviceMem (s.faultRecord f) := by
  unfold State.faultRecord
  extract_lets seq src s1 w size phase unlocked s2
  suffices put : s.DeviceMem s2 by
    obtain ⟨host, eq⟩ := put
    exact ⟨host, (State.requestVector_mem ..).trans eq⟩
  unfold s2
  clear s2
  have start : s.DeviceMem s1 := .refl s
  clear_value s1 w size phase unlocked seq
  generalize f.logical.getD (0xFFFF, 0) = slot
  obtain ⟨lg, inc⟩ := slot
  refine ite_cases (P := s.DeviceMem) start ?_
  dsimp -zeta only
  extract_lets record t src' u
  clear_value record
  have stored : s.DeviceMem u := start.trans ⟨_, rfl⟩
  clear_value u
  exact ite_cases (P := s.DeviceMem) stored stored

theorem State.faultRecord_slot (s : State) (f : FaultRec) (c i : Nat) : (s.faultRecord f).slot c i = s.slot c i := by
  obtain ⟨t, ring, ⟨mem, faults, freeze, rfl⟩, eq⟩ := s.faultRecord_eq f
  rw [eq, State.requestVector_slot]
  rfl

theorem State.DeviceMem.sameKeys {s t : State} (h : s.DeviceMem t) : s.SameKeys t := by
  obtain ⟨host, eq⟩ := h
  rw [State.SameKeys, eq]

/-! ### Work abandoned (R531) -/

/-- No command is in flight, no write is held and no message travels. -/
def State.Idle (s : State) : Prop := s.cmds = [] ∧ s.held = [] ∧ s.msgs = []

/-- What abandoning work, draining and reversing leave alone: all that a reset does not clear of itself. -/
structure State.QuitFrom (s t : State) : Prop where
  idle : s.Idle → t.Idle
  time : t.time = s.time
  boot : t.boot = s.boot
  power : t.power = s.power
  fabric : t.fabric = s.fabric
  sec : t.sec = s.sec
  faults : t.faults.dieLost = s.faults.dieLost
  link : t.pcie.linkUp = s.pcie.linkUp
  keys : s.SameKeys t
  slots : ∀ c i, t.slot c i = s.slot c i
  rising : s.regsOk → t.regsOk
  count : s.regsOk → t.rd (regDie0 .resetsSinceCold) = s.rd (regDie0 .resetsSinceCold)

namespace State.QuitFrom

theorem refl (s : State) : s.QuitFrom s := ⟨id, rfl, rfl, rfl, rfl, rfl, rfl, rfl, rfl, fun _ _ => rfl, id, fun _ => rfl⟩

theorem trans {s t u : State} (h : s.QuitFrom t) (k : t.QuitFrom u) : s.QuitFrom u :=
  ⟨fun work => k.idle (h.idle work), k.time.trans h.time, k.boot.trans h.boot, k.power.trans h.power, k.fabric.trans h.fabric,
    k.sec.trans h.sec, k.faults.trans h.faults, k.link.trans h.link, k.keys.trans h.keys, fun c i => (k.slots c i).trans (h.slots c i),
    fun ok => k.rising (h.rising ok), fun ok => (k.count (h.rising ok)).trans (h.count ok)⟩

theorem foldl {α : Type} {f : State → α → State} (step : ∀ (t : State) a, t.QuitFrom (f t a)) (l : List α) (s : State) :
    s.QuitFrom (l.foldl f s) :=
  List.foldlRecOn l f (motive := s.QuitFrom) (.refl s) fun t ht a _ => ht.trans (step t a)

/-- A write changes memory, and draws free values, no more. -/
theorem ofMem {s t : State} (h : s.SameButMem t) (keys : s.SameKeys t) : s.QuitFrom t := by
  obtain ⟨mem, free, rfl⟩ := h
  exact ⟨id, rfl, rfl, rfl, rfl, rfl, rfl, rfl, keys, fun _ _ => rfl, id, fun _ => rfl⟩

theorem writeBytes (s : State) (x : Acc) (a : Nat) (bs : List Byte) : s.QuitFrom (s.writeBytes x a bs).1 :=
  ofMem (s.writeBytes_sameButMem ..) (s.writeBytes_sameKeys ..)

/-- A die's own register is not RESETS_SINCE_COLD, whatever number the die has. -/
theorem wrDie (s : State) {n : RegName} (block : n.info.block = .die) (low : n.info.off < 0xE0010) (d v : Nat) :
    s.QuitFrom (s.wr (regDie n d) v) := by
  refine ⟨id, rfl, rfl, rfl, rfl, rfl, rfl, rfl, rfl, fun _ _ => rfl, State.wr_regsOk _ v, fun ok => State.rd_wr_other v ok ?_⟩
  have die : (regDie n d).addr = d * 0x400000 + n.info.off := by
    simp only [Reg.addr, regDie, block, Block.base, dieStride, Nat.mul_zero, Nat.add_zero]
  have reset : (regDie0 .resetsSinceCold).addr = 0xE0010 := rfl
  rw [die, reset]
  omega

theorem bumpDie (s : State) {n : RegName} (block : n.info.block = .die) (low : n.info.off < 0xE0010) (d k : Nat) :
    s.QuitFrom (s.bump (regDie n d) k) := wrDie s block low d _

theorem logTrace (s : State) (die code a b : Nat) : s.QuitFrom (s.logTrace die code a b) := by
  have keys := (s.logTrace_deviceMem die code a b).sameKeys
  have count (ok : s.regsOk) : (s.logTrace die code a b).rd (regDie0 .resetsSinceCold) = s.rd (regDie0 .resetsSinceCold) :=
    State.rd_logTrace ok die code a b (regDie0_inMap rfl Nat.one_pos) (by decide)
  have rising := (State.logTrace_keeps (lp := false) (lq := false) s die code a b (.refl ..)).regs
  obtain ⟨regs, mem, log, eq⟩ := s.logTrace_rest die code a b
  rw [eq] at keys count rising ⊢
  exact ⟨id, rfl, rfl, rfl, rfl, rfl, rfl, rfl, keys, fun _ _ => rfl, rising, count⟩

theorem faultRecord (s : State) (f : FaultRec) : s.QuitFrom (s.faultRecord f) := by
  obtain ⟨mem, faults, freeze, ctxs, pcie, rest⟩ := s.faultRecord_rest f
  have keys := (s.faultRecord_deviceMem f).sameKeys
  obtain ⟨link, w, numbered⟩ := s.faultRecord_numbered f
  have lost : (s.faultRecord f).faults.dieLost = s.faults.dieLost := by rw [numbered]
  have slots := s.faultRecord_slot f
  rw [rest] at keys lost link slots ⊢
  exact ⟨id, rfl, rfl, rfl, rfl, rfl, lost, link, keys, slots, id, fun _ => rfl⟩

theorem ueReport (s : State) (a : Nat) : s.QuitFrom (s.ueReport a) := by
  have counted (die : Nat) : s.QuitFrom ((s.wr (regDie .memUeLast die) (a % 2 ^ 52)).bump (regDie .memUeCount die) 1) :=
    (wrDie s (n := .memUeLast) rfl (by decide) die _).trans (bumpDie _ (n := .memUeCount) rfl (by decide) die 1)
  unfold State.ueReport State.ueReportAt State.ueReportOf
  split
  · exact (counted _).trans (faultRecord ..)
  · exact (counted _).trans (faultRecord ..)
  · exact faultRecord ..
  · exact faultRecord ..
  · exact .refl s

theorem placeDone (s : State) (cell : Nat) : s.QuitFrom (s.placeDone cell) := by
  unfold State.placeDone
  dsimp only
  split
  · refine ite_cases (P := s.QuitFrom) ?_ (.refl s)
    rename_i l _
    have served : s.QuitFrom ((s.updCell cell fun c => { c with placing := false }).updLslot l fun x => { x with inService := true }) :=
      ⟨id, rfl, rfl, rfl, rfl, rfl, rfl, rfl, rfl, fun _ _ => rfl, id, fun _ => rfl⟩
    exact served.trans (logTrace ..)
  · exact .refl s

theorem scrub (s : State) (k n : Nat) : s.QuitFrom (s.scrub k n) :=
  ⟨id, rfl, rfl, rfl, rfl, rfl, rfl, rfl, rfl, fun _ _ => rfl, id, fun _ => rfl⟩

theorem updCell (s : State) (c : Nat) (f : Cell → Cell) : s.QuitFrom (s.updCell c f) :=
  ⟨id, rfl, rfl, rfl, rfl, rfl, rfl, rfl, rfl, fun _ _ => rfl, id, fun _ => rfl⟩

theorem updUpd (s : State) (d : Nat) (f : UpdDie → UpdDie) : s.QuitFrom (s.updUpd d f) :=
  ⟨id, rfl, rfl, rfl, rfl, rfl, rfl, rfl, rfl, fun _ _ => rfl, id, fun _ => rfl⟩

theorem finishPlacing (s : State) : s.QuitFrom s.finishPlacing :=
  foldl (fun t (e : Nat × Cell) =>
    ((foldl (fun u (_ : Nat × Handover) => scrub u _ _) e.2.handovers t).trans (updCell ..)).trans (placeDone ..)) _ s

theorem abandon (s : State) : s.QuitFrom s.abandon :=
  (foldl (fun t c => ofMem (t.undefineDest_sameButMem c) (t.undefineDest_sameKeys c)) s.cmds s).trans
    ⟨fun _ => ⟨rfl, rfl, rfl⟩, rfl, rfl, rfl, rfl, rfl, rfl, rfl, rfl, fun _ _ => rfl, id, fun _ => rfl⟩

theorem tally (s : State) (d tensorId plane block digest : Nat) : s.QuitFrom (s.tally d tensorId plane block digest) :=
  (updUpd s d _).trans (bumpDie _ (n := .tallyUpdates) rfl (by decide) d 1)

theorem drainCommitted (s : State) (d : Nat) : s.QuitFrom (s.drainCommitted d) := by
  unfold State.drainCommitted
  dsimp only
  refine (foldl (fun t (r : DiffRec) => ?_) _ s).trans (updUpd ..)
  refine (ite_cases (P := t.QuitFrom) ?_ (.refl t)).trans (tally ..)
  exact (writeBytes ..).trans (bumpDie _ (n := .exportHead) rfl (by decide) d 1)

theorem restoreOpen (s : State) (g : UGroup) (t : Nat) : s.QuitFrom (s.restoreOpen g t) := by
  unfold State.restoreOpen
  split
  · exact .refl s
  · exact foldl (fun u b => writeBytes ..) _ s

theorem xorBlock (s : State) (ctx a : Nat) (delta : List Byte) : s.QuitFrom (s.xorBlock ctx a delta) := by
  unfold State.xorBlock
  dsimp only
  split
  · exact writeBytes ..
  · exact ueReport ..
  · exact .refl s

theorem reverseAll (s : State) (d : Nat) : s.QuitFrom (s.reverseAll d) := by
  unfold State.reverseAll
  dsimp only
  have restored : s.QuitFrom _ := foldl (fun t (g : UGroup) => foldl (fun v (u : UStep) => restoreOpen v g u.step) g.steps t)
    (s.updDieOf d).groups.vals s
  exact (restored.trans (foldl (fun t (r : DiffRec) => xorBlock t r.ctx r.addr r.delta) _ _)).trans (updUpd ..)

/-- Steps 3 and 4 of R531, after the commands are gone. -/
theorem reversed (s : State) : s.QuitFrom ((upTo 8).foldl State.reverseAll ((upTo 8).foldl State.drainCommitted s)) :=
  (foldl drainCommitted _ s).trans (foldl reverseAll _ _)

theorem quit (s : State) : s.QuitFrom s.quit := ((finishPlacing s).trans (abandon _)).trans (reversed _)

end State.QuitFrom

theorem State.abandon_idle (s : State) : s.abandon.Idle := by
  unfold State.abandon
  exact ⟨rfl, rfl, rfl⟩

theorem State.quit_idle (s : State) : s.quit.Idle := by
  unfold State.quit
  exact (QuitFrom.reversed s.finishPlacing.abandon).idle s.finishPlacing.abandon_idle

/-! ### What is cleared after it (R547) -/

theorem Tab.get?_filter {α : Type} {t : Tab α} (rising : t.Pairwise fun a b => a.1 < b.1) {p : Nat × α → Bool} {i : Nat}
    (kept : ∀ x, p (i, x) = true) : Tab.get? (t.filter p) i = t.get? i := by
  induction t with
  | nil => rfl
  | cons e t ih =>
    obtain ⟨k, x⟩ := e
    obtain ⟨below, rest⟩ := List.pairwise_cons.1 rising
    specialize ih rest
    by_cases same : k = i
    · subst same
      rw [List.filter_cons_of_pos (kept x)]
      simp [Tab.get?]
    · by_cases taken : p (k, x) = true
      · rw [List.filter_cons_of_pos taken]
        simp only [Tab.get?, ih]
      · rw [List.filter_cons_of_neg taken, ih]
        simp only [Tab.get?, Ne.symm same, if_false]
        split
        · exact Tab.get?_below fun e he => Nat.lt_trans ‹_› (below e he)
        · rfl

/-- A register kept by its name is read as before. -/
theorem State.rd_keepRegs {s : State} (ok : s.regsOk) {p : RegName → Bool} {r : Reg} (hr : r.inMap) (kept : p r.name = true) :
    (s.keepRegs p).rd r = s.rd r := by
  rw [State.rd, State.rd, Tab.getD, Tab.getD, State.keepRegs]
  rw [Tab.get?_filter ok]
  intro x
  simp only [regAt_addr r hr, kept]

theorem State.slot_clearWork (s : State) (c i : Nat) :
    (s.clearWork.slot c i).gen = (s.slot c i).gen ∧ (s.clearWork.slot c i).valid = false := by
  have ctx : s.clearWork.ctx c = (s.ctxs.get? c).elim Ctx.init Ctx.generations :=
    Tab.getD_mapVals s.ctxs (fun _ x => x.generations) c Ctx.init
  rw [State.slot, State.slot, ctx, State.ctx, Tab.getD, Tab.getD, Tab.getD]
  cases s.ctxs.get? c with
  | none => exact ⟨rfl, rfl⟩
  | some x =>
    have slot : x.generations.slots.get? i = (x.slots.get? i).map fun d => { DescSlot.init with gen := d.gen } :=
      Tab.get?_mapVals x.slots (fun _ d => { DescSlot.init with gen := d.gen }) i
    rw [Option.elim_some, slot, Option.getD_some]
    cases x.slots.get? i with
    | none => exact ⟨rfl, rfl⟩
    | some d => exact ⟨rfl, rfl⟩

/-- What a warm and a function reset share: all work abandoned, the counter of resets raised, the rest cleared. -/
structure State.Abandoned (s t : State) : Prop where
  idle : t.Idle
  groups : t.groups = []
  step : t.step = StepSt.init
  session : t.sec.session = false
  owner : t.sec.owner = false
  keys : s.SameKeys t
  pips : t.time.pips = s.time.pips
  slots : ∀ c i, (t.slot c i).gen = (s.slot c i).gen ∧ (t.slot c i).valid = false
  count : t.rd (regDie0 .resetsSinceCold) = (s.rd (regDie0 .resetsSinceCold) + 1) % 2 ^ 64

/-- The state after R531's steps and the clearing that follows, before a reset of either kind goes its own way. -/
def State.emptied (s : State) (p : RegName → Bool) : State :=
  ((s.quit.bump (regDie0 .resetsSinceCold) 1).keepRegs p).clearWork

theorem State.emptied_abandoned {s : State} (ok : s.regsOk) {p : RegName → Bool} (kept : p .resetsSinceCold = true) :
    s.Abandoned (s.emptied p) := by
  have quit := QuitFrom.quit s
  have idle := s.quit_idle
  have inMap : (regDie0 .resetsSinceCold).inMap := regDie0_inMap rfl Nat.one_pos
  unfold State.emptied
  generalize s.quit = q at quit idle ⊢
  refine ⟨idle, rfl, rfl, rfl, rfl, quit.keys, congrArg TimeSt.pips quit.time, fun c i => ?_, ?_⟩
  · have cleared := State.slot_clearWork ((q.bump (regDie0 .resetsSinceCold) 1).keepRegs p) c i
    exact ⟨cleared.1.trans (congrArg DescSlot.gen (quit.slots c i)), cleared.2⟩
  · calc ((q.bump (regDie0 .resetsSinceCold) 1).keepRegs p).rd (regDie0 .resetsSinceCold)
        = (q.bump (regDie0 .resetsSinceCold) 1).rd (regDie0 .resetsSinceCold) :=
          State.rd_keepRegs (State.bump_regsOk _ _ (quit.rising ok)) inMap kept
      _ = (q.rd (regDie0 .resetsSinceCold) + 1) % 2 ^ 64 := State.rd_bump_same _ _ (quit.rising ok)
      _ = _ := by rw [quit.count ok]

/-! ### The resets of R530–R532 -/

section
variable {s : State} (ok : s.regsOk) (ready : s.ready = true) (cause : Nat)
include ok ready

/-- A warm reset of a ready part abandons all work. -/
theorem State.warmReset_abandoned : s.Abandoned (s.warmReset cause) := by
  have e := s.emptied_abandoned ok (p := RegName.keptByWarm) rfl
  rw [State.warmReset, if_neg (by simp [ready])]
  unfold State.emptied at e
  generalize s.quit = q at e ⊢
  exact ⟨e.idle, e.groups, e.step, e.session, e.owner, e.keys, e.pips, e.slots, e.count⟩

/-- A function reset of a ready part abandons all work. -/
theorem State.functionReset_abandoned (flr : Bool) : s.Abandoned (s.functionReset flr) := by
  have e := s.emptied_abandoned ok (p := fun n => !n.clearedByFunction) rfl
  rw [State.functionReset, if_neg (by simp [ready])]
  unfold State.emptied at e
  generalize s.quit = q at e ⊢
  exact ⟨e.idle, e.groups, e.step, e.session, e.owner, e.keys, e.pips, e.slots, e.count⟩

omit ok in
/-- A warm reset starts again from the ROM, with the dies yet to be chosen. -/
theorem State.warmReset_rom : (s.warmReset cause).boot.stage = .rom ∧ (s.warmReset cause).boot.coldSeq = false
    ∧ (s.warmReset cause).boot.resetCause = cause ∧ (s.warmReset cause).dies = [] ∧ (s.warmReset cause).time.role = .free
    ∧ (s.warmReset cause).time.locked = false ∧ (s.warmReset cause).fabric.active = none
    ∧ (s.warmReset cause).pcie.linkUp = s.pcie.linkUp := by
  have link := (QuitFrom.quit s).link
  rw [State.warmReset, if_neg (by simp [ready])]
  generalize s.quit = q at link ⊢
  exact ⟨rfl, rfl, rfl, rfl, rfl, rfl, rfl, link⟩

omit ok in
/-- A function reset leaves the part ready, its active slot table in use. -/
theorem State.functionReset_ready (flr : Bool) : (s.functionReset flr).boot.stage = .ready
    ∧ (s.functionReset flr).boot.resetCause = (if flr then 6 else 5) ∧ (s.functionReset flr).fabric.active = s.fabric.active
    ∧ (s.functionReset flr).pcie.linkUp = s.pcie.linkUp := by
  have quit := QuitFrom.quit s
  rw [State.functionReset, if_neg (by simp [ready])]
  generalize s.quit = q at quit ⊢
  have active : q.fabric.active = s.fabric.active := congrArg FabricSt.active quit.fabric
  exact ⟨(congrArg BootSt.stage quit.boot).trans (by simpa [State.ready] using ready), rfl, active, quit.link⟩

end

theorem State.writeReg_resetControl {s : State} (taken : s.writable (regDie0 .resetControl) = true) (mask v : Nat) (ok : Option Bool) :
    s.writeReg (regDie0 .resetControl) mask v ok = s.writeResetControl v := by
  unfold regDie0 at taken ⊢
  simp only [State.writeReg, taken, Bool.not_true, Bool.false_eq_true, if_false]

/-- A write of RESET_CONTROL without its key does nothing. -/
theorem State.writeResetControl_badKey (s : State) {key n : Nat} (low : n < 65536) (bad : key % 65536 ≠ 0xA5A5) :
    s.writeResetControl (key % 65536 * 65536 + n) = s := by
  refine if_pos ?_
  simp only [bitsOf]
  omega

theorem State.writeResetControl_cold (s : State) {key : Nat} (good : key % 65536 = 0xA5A5) :
    s.writeResetControl (key % 65536 * 65536 + 1) = s.coldReset 2 := by
  rw [good]
  rfl

theorem State.writeResetControl_warm (s : State) {key : Nat} (good : key % 65536 = 0xA5A5) :
    s.writeResetControl (key % 65536 * 65536 + 2) = s.warmReset 4 := by
  rw [good]
  rfl

/-- The supplies go with the input, whether or not a fault is recorded. -/
theorem State.shutDown_stopped (s : State) : s.inputLost.StoppedFrom s.shutDown :=
  ite_cases (P := s.inputLost.StoppedFrom) (s.inputLost.moduleFault_stopped _) s.inputLost.stopModule_stopped

/-- An input far outside its limits shuts the module down; one of 0 V also stands as power removed. -/
theorem exec_vinFault_hard {s : State} {mv us : Nat} (good : s.power.inputOk = true) (hard : mv < 46000 ∨ 62000 < mv) (long : 20 ≤ us) :
    ∃ u : State, exec (.vinFault mv us) s = .next u.shutDown ∧ u.power.removed = (s.power.removed || decide (mv = 0)) := by
  have outside : inputGood mv = false := decide_eq_false (by omega)
  have far : hardVin mv = true := decide_eq_true hard
  refine ⟨if mv = 0 ∧ 20 ≤ us then s.setPower fun p => { p with removed := true } else s,
    congrArg Host.Outcome.next ((if_neg ?_).trans (if_pos ⟨far, long⟩)), ?_⟩
  · have input : (if mv = 0 ∧ 20 ≤ us then s.setPower fun p => { p with removed := true } else s).power.inputOk = true :=
      ite_cases (P := fun u : State => u.power.inputOk = true) good good
    simp [outside, input]
  · by_cases zero : mv = 0
    · rw [if_pos ⟨zero, long⟩, zero]
      exact (Bool.or_true _).symm
    · rw [if_neg fun h => zero h.1, decide_eq_false zero, Bool.or_false]

/-- Settles O51: each cause by its own row. -/
theorem resetsClearWhatTheyName : Obligations.ResetsClearWhatTheyName := by
  intro s inv cold abandoned warm
  have cold_of : ∀ (f : PowerSt → PowerSt) cause soft, cold cause ((s.setPower f).coldClear cause soft) := fun f cause soft =>
    ⟨rfl, rfl, rfl, rfl, rfl, rfl, rfl, rfl, rfl, rfl, rfl, rfl, rfl, rfl, rfl, rfl, rfl⟩
  have abandoned_of : ∀ {t : State} {cause}, s.Abandoned t → t.boot.resetCause = cause → abandoned cause t := fun h given =>
    ⟨h.idle.1, h.idle.2.1, h.idle.2.2, h.groups, given, h.step, h.session, h.owner, h.keys, h.pips, h.slots, h.count⟩
  have warm_of : ∀ {u : State} (cause), s.Abandoned (u.warmReset cause) → u.ready = true → warm cause (u.warmReset cause) :=
    fun cause h ready =>
      let ⟨rom, again, given, dies, role, locked, active, _⟩ := State.warmReset_rom ready cause
      ⟨abandoned_of h given, rom, again, dies, role, locked, active⟩
  refine ⟨fun secure key acc => ?_, fun was ready => ?_, fun ready link => ?_, fun ready => ?_, fun unready link => ?_,
    fun us short => congrArg Host.Outcome.next (if_pos short), fun us long => ?_, fun low => ?_,
    fun high => congrArg Host.Outcome.next (if_pos high), fun out high off => ?_, fun good => congrArg Host.Outcome.next (if_pos good),
    fun mv us low high => ?_, fun mv us good hard long => ?_, fun mv us ready good out long => ?_⟩
  · have written (v : Nat) (fits : v < 2 ^ 32) : s.writeOf secure (regDie0 .resetControl) v = s.writeResetControl v :=
      (acc.writeReg_eq rfl fits).trans (State.writeReg_resetControl acc.taken ..)
    have coldRun : exec (.coldReset secure key) s = .next _ := congrArg Host.Outcome.next (written _ (by omega))
    have warmRun : exec (.warmReset secure key) s = .next _ := congrArg Host.Outcome.next (written _ (by omega))
    rw [coldRun, warmRun]
    refine ⟨fun bad => ?_, fun good => ?_⟩
    · rw [s.writeResetControl_badKey (by decide) bad, s.writeResetControl_badKey (by decide) bad]
      exact ⟨rfl, rfl⟩
    · rw [s.writeResetControl_cold good, s.writeResetControl_warm good]
      refine ⟨fun idle => ⟨_, congrArg Host.Outcome.next (if_neg ?_), cold_of id 2 true⟩,
        fun runs first => congrArg Host.Outcome.next (if_pos ⟨runs, first⟩),
        fun ready => ⟨_, rfl, warm_of 4 (State.warmReset_abandoned inv.regs ready 4) ready⟩,
        fun unready => congrArg Host.Outcome.next (if_pos (by simp [unready]))⟩
      rintro ⟨runs, first⟩
      obtain ready | failed | later := idle
      · simp_all [State.inSequence, State.ready]
      · simp_all [State.inSequence]
      · simp_all
  · let u := { s with pcie := { s.pcie with perstAsserted := true, linkUp := false } }.endSession
    have h := State.warmReset_abandoned (s := u) inv.regs ready 3
    obtain ⟨-, -, -, -, -, -, -, link⟩ := State.warmReset_rom (s := u) ready 3
    exact ⟨_, congrArg Host.Outcome.next (if_pos was), warm_of 3
      ⟨h.idle, h.groups, h.step, h.session, h.owner, h.keys, h.pips, h.slots, h.count⟩ ready, link⟩
  · obtain ⟨stage, cause, active, kept⟩ := State.functionReset_ready ready true
    have h := State.functionReset_abandoned inv.regs ready true
    exact ⟨_, congrArg Host.Outcome.next (if_pos link), abandoned_of h cause, stage, active, kept.trans link⟩
  · obtain ⟨stage, cause, active, -⟩ := State.functionReset_ready (s := s.endSession) ready false
    have h := State.functionReset_abandoned (s := s.endSession) inv.regs ready false
    exact ⟨_, rfl, abandoned_of (t := { s.endSession.functionReset false with pcie := _ })
      ⟨h.idle, h.groups, h.step, h.session, h.owner, h.keys, h.pips, h.slots, h.count⟩ cause, stage, active⟩
  · exact congrArg Host.Outcome.next ((if_pos link).trans (if_pos (by simp [unready])))
  · exact ⟨_, congrArg Host.Outcome.next ((if_neg (by omega)).trans (if_neg (by omega))), cold_of _ 1 false, rfl, Bool.and_false _⟩
  · exact ⟨_, congrArg Host.Outcome.next (if_neg (by simp [low])), cold_of _ 1 false, rfl, Bool.and_true _⟩
  · refine ⟨_, congrArg Host.Outcome.next ((if_neg (by simp [out])).trans ((if_neg (by simp [State.setPower, high])).trans
      (if_neg (by simp [State.setPower, off])))), cold_of _ 0 false, ?_, rfl⟩
    exact (Bool.true_and _).trans high
  · have inside : inputGood mv = true := decide_eq_true ⟨low, high⟩
    have there : ¬ (mv = 0 ∧ 20 ≤ us) := fun h => by omega
    refine ⟨congrArg Host.Outcome.next ?_, congrArg Host.Outcome.next (if_neg (by simp [inside]))⟩
    rw [if_neg there]
    exact if_pos (Or.inl inside)
  · obtain ⟨u, run, removed⟩ := exec_vinFault_hard good hard long
    have stopped := u.shutDown_stopped
    exact ⟨_, run, stopped.removed.trans removed, stopped.input, stopped.off, stopped.stopped, stopped.idle⟩
  · have outside : inputGood mv = false := decide_eq_false (by omega)
    have soft : hardVin mv = false := decide_eq_false (by omega)
    have stopped := s.shutDown_stopped
    exact ⟨_, congrArg Host.Outcome.next (if_pos (by simp [ready, good, outside, soft, long])), stopped.input, stopped.off,
      stopped.stopped⟩

end Sys2Proof.Machine
end

section
/-!
SUPPORT. Start-up: each stage and what its end leaves (R508–R510, R525–R527), the firmware mailbox (R510) and the lock (R516).
-/
set_option Elab.async false
namespace Sys2Proof.Machine

/-! ### Entering a stage and failing -/

@[simp] theorem State.logTrace_boot (s : State) (die code a b : Nat) : (s.logTrace die code a b).boot = s.boot := by
  obtain ⟨regs, mem, log, eq⟩ := s.logTrace_rest die code a b
  rw [eq]

@[simp] theorem State.enterStage_boot (s : State) (g : Stage) : (s.enterStage g).boot = { s.boot with stage := g } :=
  State.logTrace_boot ..

@[simp] theorem State.failStart_boot (s : State) (n : Nat) : (s.failStart n).boot = { s.boot with stage := .failed, failReason := n } :=
  State.logTrace_boot ..

/-- A stage entered: beside BOOT, the log and what it writes in host memory. -/
theorem State.enterStage_rest (s : State) (g : Stage) : ∃ regs host log, s.enterStage g =
    { s with boot := { s.boot with stage := g }, regs := regs, mem := { s.mem with host := host }, log := log } := by
  have staged := (({ s with boot := { s.boot with stage := g } } : State).logTrace_deviceMem 0 0x0001 g.code s.elapsedUs)
  obtain ⟨host, mem⟩ := staged
  obtain ⟨regs, mem', log, eq⟩ := ({ s with boot := { s.boot with stage := g } } : State).logTrace_rest 0 0x0001 g.code s.elapsedUs
  refine ⟨regs, host, log, ?_⟩
  unfold State.enterStage
  rw [eq] at mem ⊢
  rw [show mem' = _ from mem]

/-! ### POWER and ROM -/

theorem State.endPower_boot (s : State) : s.endPower.boot = { s.boot with stage := .rom } := State.enterStage_boot ..

theorem State.endPower_link (s : State) : s.endPower.pcie.linkUp = !s.pcie.perstAsserted := by
  obtain ⟨regs, host, log, eq⟩ := State.enterStage_rest { s with pcie := { s.pcie with linkUp := !s.pcie.perstAsserted } } .rom
  rw [State.endPower, eq]

@[simp] theorem State.startFirmware_boot (s : State) (img : List Byte) (fromHost : Bool) : (s.startFirmware img fromHost).boot =
    { (s.raiseFloor img).boot with
      running := img, fwVersion := imageVersion img, firmwareOn := true, fromHost := fromHost, recovery := false } := rfl

/-- The module as stage ROM leaves it once the self-tests have passed, before the image is judged. -/
def State.testsPassed (s : State) (fused : List Nat) : State :=
  let s := if s.boot.coldSeq then fused.foldl (fun t c => t.updCell c fun x => { x with fusedOut := true }) s else s
  { s with boot := { s.boot with selfTestsPassed := true }, sec := { s.sec with errorState := false } }

/-- R508: the image in flash starts, or the part waits in RECOVERY. -/
def State.judgeFlash (s : State) (firmware : Bool) : State :=
  if firmware ∧ !s.boot.flashTorn ∧ s.boot.fwFloor ≤ imageVersion s.boot.flash then
    (s.startFirmware s.boot.flash false).enterStage .setup
  else { s with boot := { s.boot with recovery := true } }

theorem State.testsPassed_boot (s : State) (fused : List Nat) :
    (s.testsPassed fused).boot = { s.boot with selfTestsPassed := true } := by
  have cells : (fused.foldl (fun t c => t.updCell c fun x => { x with fusedOut := true }) s).boot = s.boot :=
    List.foldlRecOn fused _ (motive := fun t : State => t.boot = s.boot) rfl fun t h _ _ => h
  have kept : (if s.boot.coldSeq then fused.foldl (fun t c => t.updCell c fun x => { x with fusedOut := true }) s else s).boot = s.boot :=
    ite_cases (P := fun t : State => t.boot = s.boot) cells rfl
  exact congrArg (fun b : BootSt => { b with selfTestsPassed := true }) kept

theorem State.endRom_failed {s : State} {r : StageReport} (off : s.boot.firmwareOn = false) (first : s.boot.recovery = false)
    (failed : r.selfTests = false) : s.endRom r = s.failStart 2 :=
  (if_neg (by simp [off])).trans ((if_neg (by simp [first])).trans (if_pos (by simp [failed])))

theorem State.endRom_passed {s : State} {r : StageReport} (off : s.boot.firmwareOn = false) (first : s.boot.recovery = false)
    (passed : r.selfTests = true) : s.endRom r = (s.testsPassed r.fused).judgeFlash r.firmware :=
  (if_neg (by simp [off])).trans ((if_neg (by simp [first])).trans (if_neg (by simp [passed])))

/-- What starting firmware leaves of BOOT, beside the image that runs. -/
theorem State.raiseFloor_kept (s : State) (img : List Byte) : (s.raiseFloor img).boot.stage = s.boot.stage
    ∧ (s.raiseFloor img).boot.flashWriting = s.boot.flashWriting :=
  ite_cases (P := fun t : State => t.boot.stage = s.boot.stage ∧ t.boot.flashWriting = s.boot.flashWriting) ⟨rfl, rfl⟩ ⟨rfl, rfl⟩

theorem State.judgeFlash_good {s : State} {firmware : Bool}
    (good : firmware ∧ !s.boot.flashTorn ∧ s.boot.fwFloor ≤ imageVersion s.boot.flash) :
    (s.judgeFlash firmware).boot.stage = .setup ∧ (s.judgeFlash firmware).boot.firmwareOn = true
      ∧ (s.judgeFlash firmware).boot.running = s.boot.flash ∧ (s.judgeFlash firmware).boot.fwVersion = imageVersion s.boot.flash := by
  rw [State.judgeFlash, if_pos good, State.enterStage_boot]
  exact ⟨rfl, rfl, rfl, rfl⟩

theorem State.judgeFlash_bad {s : State} {firmware : Bool}
    (bad : ¬ (firmware ∧ !s.boot.flashTorn ∧ s.boot.fwFloor ≤ imageVersion s.boot.flash)) :
    s.judgeFlash firmware = { s with boot := { s.boot with recovery := true } } := if_neg bad

/-! ### SELF_TEST and MEMORY -/

theorem mem_insertKey_of_mem {k d : Nat} {l : List Nat} (h : d ∈ l) : d ∈ insertKey l k := by
  induction l with
  | nil => cases h
  | cons x l ih =>
    rw [insertKey]
    refine ite_cases (P := (d ∈ ·)) h (ite_cases (P := (d ∈ ·)) (List.mem_cons_of_mem _ h) ?_)
    obtain rfl | rest := List.mem_cons.1 h
    · exact List.mem_cons_self
    · exact List.mem_cons_of_mem _ (ih rest)

/-- What the DIE records of failing dies change; no die once failed is forgotten. -/
structure State.DiesDropped (s t : State) : Prop where
  cold : t.boot.coldSeq = s.boot.coldSeq
  more : ∀ d ∈ s.boot.failedDies, d ∈ t.boot.failedDies

/-- One die that fails leaves service. -/
def State.dropDie (s : State) (d : Nat) : State :=
  if s.boot.failedDies.contains d then s
  else
    ({ s with boot := { s.boot with failedDies := insertKey s.boot.failedDies d } }).faultRecord ⟨.die, 0, ⟨13, d, 0⟩, none, noWhere⟩

theorem State.dropDie_dropped (s : State) (d : Nat) : s.DiesDropped (s.dropDie d) ∧ d ∈ (s.dropDie d).boot.failedDies := by
  unfold State.dropDie
  split
  · rename_i known
    exact ⟨⟨rfl, fun _ => id⟩, by simpa using known⟩
  · obtain ⟨mem, faults, freeze, ctxs, pcie, eq⟩ := ({ s with boot := { s.boot with
      failedDies := insertKey s.boot.failedDies d } } : State).faultRecord_rest ⟨.die, 0, ⟨13, d, 0⟩, none, noWhere⟩
    rw [eq]
    exact ⟨⟨rfl, fun _ => mem_insertKey_of_mem⟩, mem_insertKey_self _ _⟩

theorem State.dropDies_dropped (ds : List Nat) : ∀ s : State, s.DiesDropped (s.dropDies ds) ∧ ∀ d ∈ ds, d ∈ (s.dropDies ds).boot.failedDies := by
  induction ds with
  | nil => exact fun s => ⟨⟨rfl, fun _ => id⟩, fun d h => absurd h List.not_mem_nil⟩
  | cons x ds ih =>
    intro s
    obtain ⟨first, failed⟩ := s.dropDie_dropped x
    obtain ⟨later, all⟩ := ih (s.dropDie x)
    refine ⟨⟨later.cold.trans first.cold, fun d h => later.more d (first.more d h)⟩, fun d h => ?_⟩
    obtain rfl | rest := List.mem_cons.1 h
    · exact later.more d failed
    · exact all d rest

/-- Cells that fail are fenced, one after another. -/
def State.fenceAll (s : State) (cells : List Nat) : State :=
  cells.foldl (fun t c => t.updCell c fun x => { x with mode := .fenced }) s

theorem State.fenceAll_kept (s : State) (cells : List Nat) : ∃ c, s.fenceAll cells = { s with cells := c } :=
  List.foldlRecOn cells _ (motive := fun t : State => ∃ c, t = { s with cells := c }) ⟨_, rfl⟩ fun _ ⟨_, h⟩ _ _ => h ▸ ⟨_, rfl⟩

theorem State.fenceAll_fenced {k : Nat} (cells : List Nat) : ∀ s : State, k ∈ cells ∨ (s.cell k).mode = .fenced →
    ((s.fenceAll cells).cell k).mode = .fenced := by
  induction cells with
  | nil => exact fun s h => h.resolve_left List.not_mem_nil
  | cons c cells ih =>
    refine fun s h => ih _ ?_
    by_cases same : k = c
    · subst same
      exact .inr (congrArg Cell.mode (s.updCell_same k _))
    · refine h.imp (fun m => (List.mem_cons.1 m).resolve_left same) fun m => ?_
      rw [s.updCell_other _ same]
      exact m

/-- Stage SELF_TEST of a package whose die 0 passed. -/
theorem State.endSelfTest_passed {s : State} {r : StageReport} (passed : 0 ∉ r.dieFails) :
    (s.endSelfTest r).boot.stage = (if s.boot.coldSeq then .memory else .map)
      ∧ (∀ d ∈ r.dieFails, d ∈ (s.endSelfTest r).boot.failedDies) ∧ (∀ k ∈ r.cellFails, ((s.endSelfTest r).cell k).mode = .fenced)
      ∧ ∀ a, 2 ^ 43 ≤ a → a < 2 ^ 43 + 2 ^ 44 → memGet (s.endSelfTest r).mem.cells a = 0 := by
  obtain ⟨dropped, failed⟩ := State.dropDies_dropped r.dieFails s
  have fenced (k) (h : k ∈ r.cellFails) := State.fenceAll_fenced r.cellFails (s.dropDies r.dieFails).clearSram (.inl h)
  obtain ⟨cells, eq⟩ := (s.dropDies r.dieFails).clearSram.fenceAll_kept r.cellFails
  have run : s.endSelfTest r = ((s.dropDies r.dieFails).clearSram.fenceAll r.cellFails).enterStage
      (if ((s.dropDies r.dieFails).clearSram.fenceAll r.cellFails).boot.coldSeq then .memory else .map) :=
    if_neg (by simpa using passed)
  rw [run]
  obtain ⟨regs, host, log, staged⟩ := ((s.dropDies r.dieFails).clearSram.fenceAll r.cellFails).enterStage_rest
    (if ((s.dropDies r.dieFails).clearSram.fenceAll r.cellFails).boot.coldSeq then .memory else .map)
  rw [staged]
  refine ⟨?_, ?_, fenced, ?_⟩
  · rw [eq]
    exact congrArg (fun b : Bool => if b then Stage.memory else .map) dropped.cold
  · rw [eq]
    exact failed
  · rw [eq]
    exact fun a low high => memGet_memClear _ low high

theorem State.endMemory_passed {s : State} {r : StageReport} (passed : 0 ∉ r.dieFails) : (s.endMemory r).boot.stage = .map := by
  rw [State.endMemory, if_neg (by simpa using passed), State.enterStage_boot]

/-! ### MAP and READY -/

theorem State.SameButPorts.boot {s t : State} (h : s.SameButPorts t) : t.boot = s.boot := by obtain ⟨_, _, _, _, _, rfl⟩ := h; rfl

theorem State.setMode_rest (s : State) (p : Nat) (m : PortMode) : s.SameButPorts (s.setMode p m) := by
  obtain ⟨regs, mem, log, eq⟩ := State.logTrace_rest _ _ _ _ _
  exact ⟨_, _, _, _, _, eq⟩

/-- Bring-up changes ports, fabric time and the log alone. -/
theorem State.bringUp_rest (s : State) (p : Nat) : s.SameButPorts (s.bringUp p) := by
  have same : s.SameButPorts s := ⟨_, _, _, _, _, rfl⟩
  unfold State.bringUp
  split
  · exact ite_cases (P := s.SameButPorts) same (s.portDown_fell p _).rest
  · exact ite_cases (P := s.SameButPorts) (s.setMode_rest p _) same

theorem State.enterReady_boot (s : State) : s.enterReady.boot.stage = .ready ∧ s.enterReady.boot.wasReady = true
    ∧ ∀ d, s.enterReady.die d = s.die d := by
  obtain ⟨regs, host, log, eq⟩ := s.enterStage_rest .ready
  have raised (t : State) : t.SameButPorts ((upTo 40).foldl State.bringUp t) :=
    List.foldlRecOn (upTo 40) _ (motive := t.SameButPorts) ⟨_, _, _, _, _, rfl⟩ fun u h p _ => h.trans (u.bringUp_rest p)
  unfold State.enterReady
  dsimp only
  have rest := raised { s.enterStage .ready with boot := { (s.enterStage .ready).boot with elapsed := s.elapsedUs, wasReady := true } }
  rw [rest.boot]
  refine ⟨?_, rfl, fun d => (rest.die d).trans ?_⟩
  · rw [eq]
  · rw [eq]
    rfl

/-- A die whose map is made is in service, and no other die changes. -/
theorem State.mapDie_die (s : State) (d k : Nat) : ((s.mapDie d).die k).inService = (decide (k = d) || (s.die k).inService) := by
  have cells (f : Nat → Nat) (g : Nat → Cell → Cell) (t : State) (l : List Nat) :
      (l.foldl (fun u i => u.updCell (f i) (g i)) t).dies = t.dies :=
    List.foldlRecOn l _ (motive := fun u : State => u.dies = t.dies) rfl fun _ h _ _ => h
  unfold State.mapDie
  dsimp only
  rw [State.die, cells]
  by_cases same : k = d
  · subst same
    rw [Tab.getD_set_same, decide_eq_true rfl, Bool.true_or]
  · rw [Tab.getD_set_other _ _ _ same, decide_eq_false same, Bool.false_or]
    rfl

theorem State.mapDies_die (ds : List Nat) (k : Nat) : ∀ s : State,
    ((ds.foldl State.mapDie s).die k).inService = (decide (k ∈ ds) || (s.die k).inService) := by
  induction ds with
  | nil => exact fun s => by simp
  | cons d ds ih =>
    intro s
    rw [List.foldl_cons, ih, s.mapDie_die]
    by_cases same : k = d
    · simp [same]
    · simp [same]

theorem State.endMap_few {s : State} {r : StageReport} (few : (s.chooseDies r.linksDown).length < 2) : s.endMap r = s.failStart 1 :=
  if_pos few

/-- Stage MAP with dies enough: the part is ready, with the dies chosen. -/
theorem State.endMap_enough {s : State} {r : StageReport} (enough : 2 ≤ (s.chooseDies r.linksDown).length) :
    (s.endMap r).boot.stage = .ready ∧ (s.endMap r).boot.wasReady = true
      ∧ ∀ d, ((s.endMap r).die d).inService = decide (d ∈ s.chooseDies r.linksDown) := by
  have mapped := fun d => State.mapDies_die (s.chooseDies r.linksDown) d
    { s with dies := [], faults := { s.faults with linksDown := r.linksDown } }
  unfold State.endMap
  dsimp only
  rw [if_neg (by omega)]
  generalize (s.chooseDies r.linksDown).foldl State.mapDie { s with dies := [], faults := { s.faults with linksDown := r.linksDown } } = m
    at mapped ⊢
  have readied : ∀ t : State, t.dies = m.dies → t.enterReady.boot.stage = .ready ∧ t.enterReady.boot.wasReady = true
      ∧ ∀ d, (t.enterReady.die d).inService = decide (d ∈ s.chooseDies r.linksDown) := by
    intro t dies
    obtain ⟨stage, was, die⟩ := t.enterReady_boot
    refine ⟨stage, was, fun d => ?_⟩
    rw [die, State.die, dies]
    exact (mapped d).trans (Bool.or_false _)
  exact readied _ (ite_cases (P := fun t : State => t.dies = m.dies) rfl rfl)

/-! ### The firmware mailbox (R510) -/

/-- What the mailbox is asked for, once the request is stored: RESULT 2 for a bad length, 1 for a bad image, or the image runs. -/
structure State.FwAsked (s : State) (persist : Bool) (t : State) : Prop where
  boot : t.boot = s.boot
  mem : t.mem = s.mem
  rising : t.regsOk
  persists : bitsOf (t.rd (regDie0 .fwMailboxControl)) 1 1 = persist.toNat
  len : t.rd (regDie0 .fwMailboxLength) = s.rd (regDie0 .fwMailboxLength)
  addr : t.rd (regDie0 .fwMailboxAddr) = s.rd (regDie0 .fwMailboxAddr)

theorem State.writeReg_fwMailbox {s : State} (taken : s.writable (regDie0 .fwMailboxControl) = true) (mask v : Nat) (ok : Option Bool) :
    s.writeReg (regDie0 .fwMailboxControl) mask v ok = s.writeFwControl (regDie0 .fwMailboxControl) mask v ok := by
  unfold regDie0 at taken ⊢
  simp only [State.writeReg, taken, Bool.not_true, Bool.false_eq_true, if_false]

theorem State.fwAsked {s : State} (ok : s.regsOk) (persist : Bool) :
    s.FwAsked persist (s.storeAll (regDie0 .fwMailboxControl) (2 ^ 32 - 1) (1 + 2 * b2n persist)) := by
  have ctl : (regDie0 .fwMailboxControl).inMap := regDie0_inMap rfl Nat.one_pos
  have len : (regDie0 .fwMailboxLength).inMap := regDie0_inMap rfl Nat.one_pos
  have addr : (regDie0 .fwMailboxAddr).inMap := regDie0_inMap rfl Nat.one_pos
  have unlocked : s.locksOut (regDie0 .fwMailboxControl) = false := Bool.and_false _
  have run := State.storeAll_open ok unlocked (1 + 2 * b2n persist)
  rw [show (regDie0 .fwMailboxControl).name.info.whole = 2 ^ 32 - 1 from rfl] at run
  rw [run]
  refine ⟨rfl, rfl, State.wr_regsOk _ _ ok, ?_, State.rd_wr_other _ ok (addr_ne_of_name len ctl (by decide)),
    State.rd_wr_other _ ok (addr_ne_of_name addr ctl (by decide))⟩
  rw [State.rd_wr_same _ _ ok]
  calc bitsOf (RegInfo.taken (regDie0 .fwMailboxControl).name.info false (s.rd (regDie0 .fwMailboxControl)) (1 + 2 * b2n persist)) 1 1
      = bitsOf (1 + 2 * b2n persist) 1 1 := bitsOf_congr fun i low high =>
        (RegName.testBit_taken (n := .fwMailboxControl) (f := ⟨1, 1, .rw, 0⟩) (by decide) low high ..)
    _ = persist.toNat := by cases persist <;> rfl

/-- GO in RECOVERY, once the request is stored: RESULT and BOOT by R508 and R510. -/
theorem State.fwGo_recovery {s : State} (on : s.regsOk) (off : s.boot.firmwareOn = false) (waits : s.boot.recovery = true) (ok : Bool) :
    let len := s.rd (regDie0 .fwMailboxLength)
    let img := s.hostRead (s.rd (regDie0 .fwMailboxAddr)) len
    let result (t : State) := bitsOf (t.rd (regDie0 .fwMailboxControl)) 4 3
    let persist := bitsOf (s.rd (regDie0 .fwMailboxControl)) 1 1
    let t := s.fwGo (some ok)
    t.boot.stage = s.boot.stage
      ∧ ((len < 2048 ∨ 2048 + 2 ^ 24 < len) → t.boot = s.boot ∧ result t = 2)
      ∧ (2048 ≤ len → len ≤ 2048 + 2 ^ 24 → s.imageAccepted img len ok = false → t.boot = s.boot ∧ result t = 1)
      ∧ (2048 ≤ len → len ≤ 2048 + 2 ^ 24 → s.imageAccepted img len ok = true →
          t.boot.firmwareOn = true ∧ t.boot.fromHost = true ∧ t.boot.recovery = false ∧ t.boot.running = img
            ∧ t.boot.fwVersion = imageVersion img ∧ result t = 0
            ∧ t.boot.flashWriting = if persist = 1 then some img else s.boot.flashWriting) := by
  intro len img result persist t
  have answer (x : Nat) : result (s.setFld (regDie0 .fwMailboxControl) 4 3 x) = x % 4 :=
    (congrArg (bitsOf · 4 3) (State.rd_wr_same _ _ on)).trans (bitsOf_putBits_same ..)
  by_cases bad : len < 2048 ∨ 2048 + 2 ^ 24 < len
  · have run : t = s.setFld (regDie0 .fwMailboxControl) 4 3 2 := (if_neg (by simp [waits])).trans (if_pos bad)
    rw [run]
    exact ⟨rfl, fun _ => ⟨rfl, answer 2⟩, fun _ _ => by omega, fun _ _ => by omega⟩
  · have measured : t = if !s.imageAccepted img len ok then s.setFld (regDie0 .fwMailboxControl) 4 3 1 else _ :=
      (if_neg (by simp [waits])).trans (if_neg bad)
    cases accepted : s.imageAccepted img len ok with
    | false =>
      have run : t = s.setFld (regDie0 .fwMailboxControl) 4 3 1 := measured.trans (if_pos (by simp [accepted]))
      rw [run]
      exact ⟨rfl, fun h => absurd h bad, fun _ _ _ => ⟨rfl, answer 1⟩, fun _ _ h => Bool.noConfusion h⟩
    | true =>
      let u := (s.setFld (regDie0 .fwMailboxControl) 4 3 0).startFirmware img true
      have run : t = if persist = 1 then { u with boot := { u.boot with flashWriting := some img } } else u := by
        refine (measured.trans (if_neg (by simp [accepted]))).trans ?_
        have recovering : ((s.setFld (regDie0 .fwMailboxControl) 4 3 0).boot.recovery
            && !(s.setFld (regDie0 .fwMailboxControl) 4 3 0).boot.firmwareOn) = true := by
          change (s.boot.recovery && !s.boot.firmwareOn) = true
          simp [waits, off]
        dsimp only
        rw [recovering, if_pos rfl]
        simp only [Bool.not_true, Bool.false_eq_true, or_false, beq_iff_eq]
        rfl
      have started : u.boot.stage = s.boot.stage ∧ u.boot.flashWriting = s.boot.flashWriting :=
        (s.setFld (regDie0 .fwMailboxControl) 4 3 0).raiseFloor_kept img
      have zero : result u = 0 := by
        have regs : u.regs = (s.setFld (regDie0 .fwMailboxControl) 4 3 0).regs :=
          ite_cases (P := fun v : State => v.regs = (s.setFld (regDie0 .fwMailboxControl) 4 3 0).regs) rfl rfl
        exact (congrArg (fun r : Tab Nat => bitsOf (r.getD _ _) 4 3) regs).trans (answer 0)
      rw [run]
      split
      · exact ⟨started.1, fun h => absurd h bad, fun _ _ h => Bool.noConfusion h, fun _ _ _ => ⟨rfl, rfl, rfl, rfl, rfl, zero, rfl⟩⟩
      · exact ⟨started.1, fun h => absurd h bad, fun _ _ h => Bool.noConfusion h, fun _ _ _ => ⟨rfl, rfl, rfl, rfl, rfl, zero, started.2⟩⟩

/-! ### The lock (R516) -/

theorem bitsOf_bit (v i : Nat) : (bitsOf v i i == 1) = bitOf v i := by
  simp only [bitsOf, bitOf, Nat.testBit, Nat.add_sub_cancel_left, Nat.pow_one, Nat.one_and_eq_mod_two, bne]
  have two : (v >>> i) % 2 < 2 := Nat.mod_lt _ (by decide)
  interval_cases (v >>> i) % 2 <;> rfl

/-- A write of SETUP_LOCK: set once, LOCK stays. -/
theorem exec_lock {s : State} {secure : Bool} {die value : Nat} (inv : s.Inv) (fits : value < 2 ^ 32)
    (acc : s.Accepts secure (regDie .setupLock die)) : ∃ t, exec (.lock secure die value) s = .next t
      ∧ bitOf (t.rd (regDie .setupLock die)) 0 = (bitOf (s.rd (regDie .setupLock die)) 0 || bitOf value 0)
      ∧ { t with regs := s.regs } = s := by
  obtain ⟨t, run, bits, -, -, rest⟩ := plainWritesStoreFields s secure (regDie .setupLock die) value inv rfl acc fits
  have bit := bits ⟨0, 0, .rwl, 0⟩ List.mem_cons_self 0 (Nat.le_refl _) (Nat.le_refl _)
  have locked : s.lockOn (regDie .setupLock die) = bitOf (s.rd (regDie .setupLock die)) 0 := bitsOf_bit _ 0
  have row : exec (.lock secure die value) s = exec (.registerWrite secure (regDie .setupLock die).addr 4 value) s :=
    congrArg Host.Outcome.next (if_pos acc.exists')
  refine ⟨t, row.trans run, bit.trans ?_, rest⟩
  dsimp only
  rw [locked, bitOf]
  cases (s.rd (regDie .setupLock die)).testBit 0 <;> rfl

/-- GO of the firmware mailbox in RECOVERY, as the row runs it. -/
theorem exec_fwMailboxGo {s : State} {secure : Bool} (persist ok : Bool) (stores : HostStores) (inv : s.Inv)
    (acc : s.Accepts secure (regDie0 .fwMailboxControl)) : ∃ u, (s.hostStores stores).FwAsked persist u
      ∧ exec (.fwMailboxGo secure persist ok stores) s = .next (u.fwGo (some ok)) := by
  have acc := acc.hostStores stores
  have ok' := (State.hostStores_inv inv stores).regs
  have go : bitOf (1 + 2 * b2n persist) 0 = true := by cases persist <;> rfl
  have fits : 1 + 2 * b2n persist < 2 ^ 32 := by cases persist <;> decide
  refine ⟨_, State.fwAsked ok' persist, congrArg Host.Outcome.next ?_⟩
  exact ((State.barWrite_reg acc.exists' acc.hears fits (some ok)).trans (State.writeReg_fwMailbox acc.taken ..)).trans (if_pos go)

/-- Settles O52: each stage's end, the lock and the mailbox, by the lemmas above. -/
theorem startUpRunsItsStages : Obligations.StartUpRunsItsStages := by
  refine ⟨fun s r => ⟨fun held => ?_, fun supplied high going => ?_⟩, fun s secure inv => ⟨fun die value hd fits acc => exec_lock inv fits acc,
    fun persist ok stores acc => ?_, fun img writing => ?_⟩⟩
  · refine congrArg Host.Outcome.next ?_
    obtain off | low | stopped | ready | failed := held
    · exact if_pos (.inl (by simp [off]))
    · exact if_pos (.inr (.inl (by simp [low])))
    · exact if_pos (.inr (.inr stopped))
    · rw [ready]
      exact ite_self s
    · rw [failed]
      exact ite_self s
  · have runs : ¬ ((!s.power.supplies) = true ∨ (!s.power.modResetHigh) = true ∨ s.power.stopped = true) := by simp [supplied, high, going]
    have row : ∀ {g t}, s.boot.stage = g → (match g with
        | .power => s.endPower | .rom => s.endRom r | .setup => s.applySetup.enterStage .selfTest | .selfTest => s.endSelfTest r
        | .memory => s.endMemory r | .map => s.endMap r | .ready => s | .failed => s) = t → exec (.coldStageEnd r) s = .next t := by
      rintro g t rfl rfl
      exact congrArg Host.Outcome.next (if_neg runs)
    refine ⟨fun stage => ⟨_, row stage rfl, s.endPower_boot, s.endPower_link⟩, fun stage off first => ⟨_, row stage rfl, ?_⟩,
      fun stage => ⟨_, row stage rfl, ?_, fun empty => ?_⟩, fun _ stage => ⟨_, row stage rfl, fun failed => ?_, fun passed => State.endSelfTest_passed passed⟩,
      fun stage passed => ⟨_, row stage rfl, State.endMemory_passed passed⟩,
      fun stage => ⟨_, row stage rfl, fun few => ?_, fun enough => State.endMap_enough enough⟩⟩
    · refine ⟨fun failed => ?_, fun passed good => ?_, fun passed bad => ?_⟩
      · rw [State.endRom_failed off first failed, State.failStart_boot]
        exact ⟨rfl, rfl⟩
      · rw [State.endRom_passed off first passed]
        have boot := s.testsPassed_boot r.fused
        have start := State.judgeFlash_good (s := s.testsPassed r.fused) (firmware := r.firmware) (by rw [boot]; simpa [and_assoc] using good)
        rw [boot] at start
        exact start
      · have boot := s.testsPassed_boot r.fused
        rw [State.endRom_passed off first passed, State.judgeFlash_bad (by rw [boot]; simpa using bad), boot]
        exact ⟨stage, rfl, off⟩
    · exact congrArg BootSt.stage (State.enterStage_boot ..)
    · rw [State.enterStage_boot, show s.applySetup = s from if_pos (by simp [empty])]
    · rw [State.endSelfTest, if_pos (by simpa using failed), State.failStart_boot]
      exact ⟨rfl, rfl⟩
    · rw [State.endMap_few few, State.failStart_boot]
      exact ⟨rfl, rfl⟩
  · intro s0 len img waits off
    obtain ⟨u, asked, run⟩ := exec_fwMailboxGo persist ok stores inv acc
    have boot : u.boot = s.boot := by
      obtain ⟨host, eq⟩ := s.hostStores_rest stores
      rw [asked.boot, eq]
    have regs (r : Reg) : (s.hostStores stores).rd r = s.rd r := by rw [State.rd, State.rd, s.hostStores_regs]
    have len' : u.rd (regDie0 .fwMailboxLength) = len := asked.len.trans (regs _)
    have img' : u.hostRead (u.rd (regDie0 .fwMailboxAddr)) len = img := by
      rw [asked.addr, regs]
      exact congrArg (fun m : MemSt => memRead m.host _ _) asked.mem
    have accepted : u.imageAccepted img len ok = s0.imageAccepted img len ok := by rw [State.imageAccepted, State.imageAccepted, asked.boot]
    obtain ⟨stage, long, bad, good⟩ := State.fwGo_recovery asked.rising (by rw [boot]; exact off) (by rw [boot]; exact waits) ok
    rw [len', img', accepted, boot] at bad good
    rw [len', boot] at long
    refine ⟨_, run, stage.trans (congrArg BootSt.stage boot), long, bad, fun low high ok => ?_⟩
    obtain ⟨on, host, recovered, running, version, result, flash⟩ := good low high ok
    refine ⟨on, host, recovered, running, version, result, flash.trans ?_⟩
    rw [asked.persists]
    cases persist <;> rfl
  · refine congrArg Host.Outcome.next ?_
    rw [writing]

end Sys2Proof.Machine
end

section
/-!
SUPPORT. Observation: freezes and clears of the event counters (R475–R478), tensor watches (R479), snapshots (R482, R483), and the bases
of the rings of records (R458, R485).
-/
set_option Elab.async false
namespace Sys2Proof.Machine

/-! ### Accesses of a calm part (R81) -/

theorem Tab.mem_of_get? {α : Type} {t : Tab α} {i : Nat} {x : α} (h : t.get? i = some x) : (i, x) ∈ t := by
  induction t with
  | nil => cases h
  | cons e t ih =>
    obtain ⟨k, y⟩ := e
    simp only [Tab.get?] at h
    split at h
    · rename_i same
      cases h
      cases same
      exact List.mem_cons_self
    · split at h
      · cases h
      · exact List.mem_cons_of_mem _ (ih h)

theorem State.Calm.handovers {s : State} (calm : s.Calm) (c : Nat) : (s.cell c).handovers = [] := by
  rw [State.cell, Tab.getD]
  cases found : s.cells.get? c with
  | none => rfl
  | some x => exact calm _ (Tab.mem_of_get? found)

theorem State.Calm.bankJudge {s : State} (calm : s.Calm) (x : Acc) (c b : Nat) : s.bankJudge x c b ≠ some .wait := by
  unfold State.bankJudge
  rw [calm.handovers c]
  exact ite_cases (P := (· ≠ some AccErr.wait)) nofun nofun

theorem State.Calm.reach {s : State} (calm : s.Calm) (x : Acc) (a : Nat) : s.reach x a ≠ .error .wait := by
  unfold State.reach
  dsimp only
  split
  · nofun
  · nofun
  · split
    · nofun
    · split
      · nofun
      · split
        · rename_i bad
          rintro ⟨⟩
          split at bad
          · split at bad
            · exact calm.bankJudge _ _ _ bad
            · cases bad
          · split at bad
            · cases bad
            · cases bad
        · nofun

theorem State.Calm.sameButMem {s t : State} (calm : s.Calm) (h : s.SameButMem t) : t.Calm := by
  obtain ⟨mem, free, rfl⟩ := h
  exact calm

theorem State.writeWord_ne_wait (s : State) (a k : Nat) (bs : List Byte) : (s.writeWord a k bs).2 ≠ some .wait := by
  unfold State.writeWord
  repeat' split
  all_goals nofun

theorem State.writeBlock_ne_wait (s : State) (key a k : Nat) (bs : List Byte) : (s.writeBlock key a k bs).2 ≠ some .wait := by
  unfold State.writeBlock
  dsimp only
  repeat' split
  all_goals nofun

theorem State.Calm.writePiece {s : State} (calm : s.Calm) (x : Acc) (a : Nat) (bs : List Byte) : (s.writePiece x a bs).2 ≠ some .wait := by
  unfold State.writePiece
  split
  · rename_i e fails
    rintro ⟨⟩
    exact calm.reach _ _ fails
  · split
    · nofun
    · split
      · exact State.writeBlock_ne_wait _ _ _ _ _
      · dsimp only
        split
        · exact State.writeWord_ne_wait _ _ _ _
        · exact ite_cases (P := (· ≠ some AccErr.wait)) (State.writeWord_ne_wait _ _ _ _) (State.writeWord_ne_wait _ _ _ _)

theorem State.Calm.writePieces {s : State} (calm : s.Calm) (x : Acc) (ps : List (Nat × List Byte)) :
    (s.writePieces x ps).2 ≠ some .wait := by
  induction ps generalizing s with
  | nil => nofun
  | cons p ps ih =>
    exact ite_cases (P := (· ≠ some AccErr.wait)) (calm.writePiece _ _ _) (ih (calm.sameButMem (State.writePiece_sameButMem ..)))

theorem State.Calm.writeBytes {s : State} (calm : s.Calm) (x : Acc) (a : Nat) (bs : List Byte) : (s.writeBytes x a bs).2 ≠ some .wait := by
  unfold State.writeBytes
  dsimp only
  split
  · rename_i e found
    rintro ⟨⟩
    obtain ⟨p, -, eq⟩ := List.exists_of_findSome?_eq_some found
    split at eq
    · cases eq
    · rename_i e' _ reach
      cases eq
      exact calm.reach _ _ reach
    · cases eq
  · exact calm.writePieces _ _

theorem State.addrJudge_ne_wait (s : State) (c a n : Nat) (r w : Bool) : s.addrJudge c a n r w ≠ .error .wait := by
  unfold State.addrJudge State.allocJudge
  split
  · nofun
  · split
    · nofun
    · split
      · nofun
      · nofun

/-! ### COUNTER_FREEZE (R475–R478) -/

theorem State.onFreeze_of_runs {s : State} {id : CmdId} {c : Cmd} {op : Nat} (h : s.Runs id 0x90 c) (named : cfOp c.desc = op)
    (f : Cmd → State) : s.onFreeze id op f = f c := by
  obtain ⟨found, live, opcode⟩ := h
  simp [State.onFreeze, State.onCmd, isOpcode, found, live, opcode, named]

theorem State.onWatch_of_runs {s : State} {id : CmdId} {c : Cmd} {op : Nat} (h : s.Runs id 0x91 c) (named : twOp c.desc = op)
    (f : Cmd → State) : s.onWatch id op f = f c := by
  obtain ⟨found, live, opcode⟩ := h
  simp [State.onWatch, State.onCmd, isOpcode, found, live, opcode, named]

/-- The command has begun, and nothing else of it changes. -/
theorem State.cmd?_begin {s : State} {id : CmdId} {c : Cmd} (found : s.cmd? id = some c) :
    (s.updCmd id fun x => { x with begun := true }).cmd? id = some { c with begun := true } :=
  
  (State.cmd?_updCmd s id (fun x => { x with begun := true }) fun _ => rfl).trans (congrArg (Option.map _) found)

theorem exec_freezeAt_due {s : State} {id : CmdId} {c : Cmd} (h : s.Runs id 0x90 c) (named : cfOp c.desc = 0) (fresh : c.begun = false)
    (due : s.freezeDue = true) : exec (.freezeAt id) s = .next (s.finish id (formatViol 32).ending) :=
  congrArg Host.Outcome.next ((State.onFreeze_of_runs h named _).trans ((if_neg (by simp [fresh])).trans (if_pos due)))

/-- A freeze that can be armed, at its time or at the next pip. -/
theorem exec_freezeAt_armed {s : State} {id : CmdId} {c : Cmd} (h : s.Runs id 0x90 c) (named : cfOp c.desc = 0) (fresh : c.begun = false)
    (free : s.freezeDue = false) : ∃ t, exec (.freezeAt id) s = .next t
      ∧ t.freeze = { s.freeze with armedT := some (if cfTime c.desc < s.now then s.now + 1 else cfTime c.desc), armedBy := some id,
                                   late := decide (cfTime c.desc < s.now) }
      ∧ t.cmd? id = some { c with begun := true } ∧ { t with freeze := s.freeze, cmds := s.cmds } = s := by
  refine ⟨_, congrArg Host.Outcome.next ((State.onFreeze_of_runs h named _).trans ((if_neg (by simp [fresh])).trans
    (if_neg (by simp [free])))), ?_, State.cmd?_begin h.found, rfl⟩
  simp only [decide_eq_true_eq]
  rfl

/-- FREEZE_EFFECT of a freeze that a command armed, at its time. -/
theorem State.freezeCounters_armed {s : State} {id : CmdId} {c : Cmd} (ok : s.regsOk) (found : s.cmd? id = some c) (live : c.ending = none)
    (armed : s.freeze.armedBy = some id) :
    s.freezeCounters.freeze = { s.freeze with armedT := none, armedBy := none, nextAt := none, frozen := true, unlocked := !s.time.locked }
      ∧ s.freezeCounters.rd (regDie0 .freezeTime) = s.now ∧ s.freezeCounters.EndedAs id ⟨0, 0, detail64 s.now 0⟩ := by
  unfold State.freezeCounters
  dsimp only
  rw [armed]
  refine ⟨rfl, State.rd_wr_same _ _ ok, State.Unended.finish ⟨c, found, live⟩ _⟩

theorem exec_counterClear_of_runs {s : State} {id : CmdId} {c : Cmd} (h : s.Runs id 0x90 c) (named : cfOp c.desc = 2) :
    exec (.counterClear id) s = .next ((s.keepRegs fun n => n != .pmcValue).finish id Status.ok.plain) :=
  congrArg Host.Outcome.next (State.onFreeze_of_runs h named _)

/-- A register that a clear names reads its default. -/
theorem State.rd_keepRegs_dropped (s : State) {p : RegName → Bool} {r : Reg} (hr : r.inMap) (dropped : p r.name = false) :
    (s.keepRegs p).rd r = r.dflt := by
  have none' : Tab.get? (s.keepRegs p).regs r.addr = none := by
    cases found : Tab.get? (s.keepRegs p).regs r.addr with
    | none => rfl
    | some x =>
      have kept := (List.mem_filter.1 (Tab.mem_of_get? found)).2
      simp [regAt_addr r hr, dropped] at kept
  rw [State.rd, Tab.getD, none']
  rfl

/-! ### What the report of an uncorrectable word changes (R308, R561) -/

/-- The register of a die in which the last uncorrectable word, or the number of them, is kept. -/
def ueAddr (a : Nat) : Prop := a % 0x400000 = RegName.memUeLast.info.off ∨ a % 0x400000 = RegName.memUeCount.info.off

theorem regDie0_not_ueAddr {n : RegName} (ne : ¬ (n.info.off % 0x400000 = RegName.memUeLast.info.off
    ∨ n.info.off % 0x400000 = RegName.memUeCount.info.off)) (block : n.info.block = .die0) : ¬ ueAddr (regDie0 n).addr := by
  simpa [ueAddr, Reg.addr, regDie0, block, Block.base] using ne

/-- From `s` to `t` an uncorrectable word may have been reported: a fault record, and the registers of R308. -/
structure State.UeReported (s t : State) : Prop where
  rest : ∃ regs mem faults freeze ctxs pcie,
    t = { s with regs := regs, mem := mem, faults := faults, freeze := freeze, ctxs := ctxs, pcie := pcie }
  device : s.DeviceMem t
  rising : s.regsOk → t.regsOk
  kept : s.regsOk → ∀ q : Reg, ¬ ueAddr q.addr → t.rd q = s.rd q

namespace State.UeReported

theorem refl (s : State) : s.UeReported s := ⟨⟨_, _, _, _, _, _, rfl⟩, .refl s, id, fun _ _ _ => rfl⟩

theorem trans {s t u : State} (h : s.UeReported t) (k : t.UeReported u) : s.UeReported u := by
  refine ⟨?_, h.device.trans k.device, fun ok => k.rising (h.rising ok),
    fun ok q other => (k.kept (h.rising ok) q other).trans (h.kept ok q other)⟩
  obtain ⟨_, _, _, _, _, _, rfl⟩ := h.rest
  obtain ⟨regs, mem, faults, freeze, ctxs, pcie, rfl⟩ := k.rest
  exact ⟨regs, mem, faults, freeze, ctxs, pcie, rfl⟩

theorem faultRecord (s : State) (f : FaultRec) : s.UeReported (s.faultRecord f) := by
  have device := s.faultRecord_deviceMem f
  obtain ⟨mem, faults, freeze, ctxs, pcie, eq⟩ := s.faultRecord_rest f
  rw [eq] at device ⊢
  exact ⟨⟨_, _, _, _, _, _, rfl⟩, device, id, fun _ _ _ => rfl⟩

theorem wrDie (s : State) {n : RegName} (block : n.info.block = .die) (low : n.info.off < 0x400000)
    (named : ∀ a, a % 0x400000 = n.info.off → ueAddr a) (d v : Nat) : s.UeReported (s.wr (regDie n d) v) := by
  refine ⟨⟨_, _, _, _, _, _, rfl⟩, .refl s, State.wr_regsOk _ v, fun ok q other => State.rd_wr_other v ok fun same => other ?_⟩
  have addr : (regDie n d).addr = d * 0x400000 + n.info.off := by
    simp only [Reg.addr, regDie, block, Block.base, dieStride, Nat.mul_zero, Nat.add_zero]
  refine named _ ?_
  rw [same, addr]
  omega

theorem counted (s : State) (d a : Nat) : s.UeReported ((s.wr (regDie .memUeLast d) a).bump (regDie .memUeCount d) 1) :=
  (wrDie s (n := .memUeLast) rfl (by decide) (fun _ => .inl) d _).trans
    (wrDie _ (n := .memUeCount) rfl (by decide) (fun _ => .inr) d _)

theorem ueReport (s : State) (a : Nat) : s.UeReported (s.ueReport a) := by
  unfold State.ueReport State.ueReportAt State.ueReportOf
  split
  · exact (counted ..).trans (faultRecord ..)
  · exact (counted ..).trans (faultRecord ..)
  · exact faultRecord ..
  · exact faultRecord ..
  · exact refl s

end State.UeReported

/-- A failed access ends its command and reports what cannot be read; nothing else changes. -/
theorem State.failAcc_ended {s : State} {id : CmdId} {e : AccErr} (fails : e ≠ .wait) :
    ∃ t, s.UeReported t ∧ s.failAcc id e = t.finish id e.ending := by
  cases e with
  | wait => exact absurd rfl fails
  | ecc w => exact ⟨_, .ueReport s w, rfl⟩
  | range => exact ⟨_, .refl s, rfl⟩
  | denied => exact ⟨_, .refl s, rfl⟩

/-! ### Snapshots (R482, R483) -/

/-- What a snapshot leaves once its records are written: no snapshot under way, DONE set. -/
def State.captured (s : State) : State := ({ s with snap := SnapSt.init }).setFld (regDie0 .snapshotControl) 2 2 1

/-- The bytes of a snapshot written at its address. -/
def State.writeSnapshot (s : State) (addr : Nat) (bs : List Byte) : State × Option AccErr :=
  match s.addrJudge 0 addr bs.length false true with
  | .error e => (s, some e)
  | .ok x => s.writeBytes x addr bs

theorem State.Calm.writeSnapshot {s : State} (calm : s.Calm) (addr : Nat) (bs : List Byte) :
    s.SameButMem (s.writeSnapshot addr bs).1 ∧ (s.writeSnapshot addr bs).2 ≠ some .wait := by
  unfold State.writeSnapshot
  split
  · rename_i e judged
    exact ⟨.refl s, fun h => s.addrJudge_ne_wait _ _ _ _ _ (judged.trans (congrArg Except.error (Option.some.inj h)))⟩
  · exact ⟨s.writeBytes_sameButMem .., calm.writeBytes _ _ _⟩

/-- The two ways a capture ends: it is written, or the command that asked for it fails. -/
inductive State.CaptureEnds (u : State) : Option CmdId → State → Prop
  | register : u.CaptureEnds none u.captured
  | written (id : CmdId) (n : Nat) : u.CaptureEnds (some id) (u.captured.finish id (okAux n))
  | failed (id : CmdId) {e : AccErr} (fails : e ≠ .wait) : u.CaptureEnds (some id) (u.captured.failAcc id e)

/-- A capture by a calm part waits for no bank. -/
theorem State.Calm.capture {s : State} (calm : s.Calm) : ∃ u, s.SameButMem u ∧ u.CaptureEnds s.snap.by' s.capture := by
  unfold State.capture
  dsimp only
  generalize min s.snapEntries.length _ = n
  generalize List.take _ (_ ++ _) = bs
  obtain ⟨same, free⟩ := calm.writeSnapshot (s.rd (regDie0 .snapshotAddr)) bs
  change ∃ u, s.SameButMem u ∧ u.CaptureEnds s.snap.by' (match s.snap.by', (s.writeSnapshot (s.rd (regDie0 .snapshotAddr)) bs).2 with
    | _, some .wait => s
    | none, _ => (s.writeSnapshot (s.rd (regDie0 .snapshotAddr)) bs).1.captured
    | some id, none => (s.writeSnapshot (s.rd (regDie0 .snapshotAddr)) bs).1.captured.finish id (okAux n)
    | some id, some e => (s.writeSnapshot (s.rd (regDie0 .snapshotAddr)) bs).1.captured.failAcc id e)
  generalize s.writeSnapshot (s.rd (regDie0 .snapshotAddr)) bs = w at same free ⊢
  obtain ⟨u, e⟩ := w
  cases e with
  | none => cases s.snap.by' with
    | none => exact ⟨u, same, .register⟩
    | some id => exact ⟨u, same, .written id n⟩
  | some e => cases s.snap.by' with
    | none => cases e with
      | wait => exact absurd rfl free
      | range | denied | ecc => exact ⟨u, same, .register⟩
    | some id => cases e with
      | wait => exact absurd rfl free
      | range | denied | ecc => exact ⟨u, same, .failed id nofun⟩


/-- However a capture ends, no snapshot is under way and DONE is set. -/
theorem State.CaptureEnds.done {u t : State} {by' : Option CmdId} (ok : u.regsOk) (h : u.CaptureEnds by' t) :
    t.snap = SnapSt.init ∧ bitOf (t.rd (regDie0 .snapshotControl)) 2 = true := by
  have set : bitOf (u.captured.rd (regDie0 .snapshotControl)) 2 = true := by
    have ok' : ({ u with snap := SnapSt.init } : State).regsOk := ok
    rw [State.captured, State.setFld, State.rd_wr_same _ _ ok']
    exact (testBit_putBits ..).trans rfl
  cases h with
  | register => exact ⟨rfl, set⟩
  | written id n => exact ⟨rfl, set⟩
  | failed id fails =>
    obtain ⟨v, reported, eq⟩ := u.captured.failAcc_ended (id := id) fails
    have control := reported.kept (State.wr_regsOk _ _ ok) (regDie0 .snapshotControl)
      (regDie0_not_ueAddr (by decide) rfl)
    rw [eq]
    refine ⟨?_, (congrArg (bitOf · 2) control).trans set⟩
    obtain ⟨_, _, _, _, _, _, rfl⟩ := reported.rest
    rfl

theorem State.CaptureEnds.ended {u t : State} {id : CmdId} (h : u.CaptureEnds (some id) t) (live : u.Unended id) : t.Ended id := by
  cases h with
  | written _ n => exact ⟨_, State.Unended.finish (s := u.captured) live _⟩
  | failed _ fails => exact ⟨_, (State.Unended.failAcc (s := u.captured) live fails).1⟩

/-- A snapshot that a command asks for is under way, and the command waits for it. -/
theorem exec_snapshot_free {s : State} {id : CmdId} {c : Cmd} (ok : s.regsOk) (h : s.Runs id 0x92 c) (fresh : c.begun = false)
    (free : s.snap.busy = false) : ∃ t, exec (.snapshot id) s = .next t
      ∧ t.rd (regDie0 .snapshotAddr) = u64 c.desc 48 ∧ t.rd (regDie0 .snapshotLength) = u64 c.desc 56
      ∧ t.snap = ⟨true, some (if snAt c.desc = false then s.now else if u64 c.desc 40 < s.now then s.now + 1 else u64 c.desc 40), some id⟩
      ∧ t.cmd? id = some { c with begun := true } ∧ { t with regs := s.regs, snap := s.snap, cmds := s.cmds } = s := by
  have addr : (regDie0 .snapshotAddr).inMap := regDie0_inMap rfl Nat.one_pos
  have length : (regDie0 .snapshotLength).inMap := regDie0_inMap rfl Nat.one_pos
  refine ⟨_, congrArg Host.Outcome.next ((State.onCmd_of_runs h _).trans ((if_neg (by simp [fresh])).trans (if_neg (by simp [free])))),
    ?_, ?_, ?_, State.cmd?_begin h.found, rfl⟩
  · exact (State.rd_wr_other _ (State.wr_regsOk _ _ ok) (addr_ne_of_name addr length (by decide))).trans (State.rd_wr_same _ _ ok)
  · exact State.rd_wr_same _ _ (State.wr_regsOk _ _ ok)
  · cases now : snAt c.desc with
    | false => rfl
    | true => rfl

/-! ### SNAPSHOT_CONTROL and the rings' bases (R458, R482, R485) -/

section
variable {s : State} {mask v : Nat} {ok : Option Bool}

theorem State.writeReg_snapshotControl (taken : s.writable (regDie0 .snapshotControl) = true) :
    s.writeReg (regDie0 .snapshotControl) mask v ok = s.writeSnapshotControl (regDie0 .snapshotControl) mask v := by
  unfold regDie0 at taken ⊢
  simp only [State.writeReg, taken, Bool.not_true, Bool.false_eq_true, if_false]

theorem State.writeReg_faultRingBase (taken : s.writable (regDie0 .faultRingBase) = true) (whole : mask ≠ 0) :
    s.writeReg (regDie0 .faultRingBase) mask v ok = s.writeFaultRing (regDie0 .faultRingBase) mask v := by
  unfold regDie0 at taken ⊢
  simp only [State.writeReg, taken, Bool.not_true, Bool.false_eq_true, if_false, whole]

theorem State.writeReg_logRingBase (taken : s.writable (regDie0 .logRingBase) = true) (whole : mask ≠ 0) :
    s.writeReg (regDie0 .logRingBase) mask v ok = s.writeLogRing (regDie0 .logRingBase) mask v := by
  unfold regDie0 at taken ⊢
  simp only [State.writeReg, taken, Bool.not_true, Bool.false_eq_true, if_false, whole]

end

/-- A register without RWL fields, its whole written, holds the word its access types leave. -/
theorem State.storeAll_whole {s : State} {r : Reg} (ok : s.regsOk) (unlocked : (r.name.info.fields.any fun f => f.acc == .rwl) = false)
    {w : Nat} (whole : r.name.info.whole = w) (v : Nat) : s.storeAll r w v = s.wr r (r.name.info.taken false (s.rd r) v) := by
  subst whole
  exact State.storeAll_open ok (by rw [State.locksOut, unlocked, Bool.and_false]) v

/-- Where one RW field fills a register, the register reads what was written. -/
theorem RegName.taken_rw {n : RegName} (field : ⟨63, 0, .rw, 0⟩ ∈ n.info.fields) {old v : Nat} (fits : v < 2 ^ 64) :
    n.info.taken false old v % 2 ^ 64 = v := by
  refine Nat.eq_of_testBit_eq fun i => ?_
  rw [Nat.testBit_mod_two_pow]
  by_cases low : i < 64
  · rw [decide_eq_true low, Bool.true_and, RegName.testBit_taken field (Nat.zero_le i) (Nat.le_of_lt_succ low)]
    rfl
  · rw [decide_eq_false low, Bool.false_and, Nat.testBit_lt_two_pow (fits.trans_le (Nat.pow_le_pow_right (by decide) (Nat.not_lt.1 low)))]

/-- Records held until now, put one after another into a ring with a base. -/
theorem State.logPuts (l : List (List Byte)) : ∀ (s : State), s.log.base ≠ 0 →
    ∃ host, l.foldl State.logPut s = { s with mem := { s.mem with host := host }, log := { s.log with w := s.log.w + l.length } } := by
  induction l with
  | nil => exact fun s _ => ⟨s.mem.host, rfl⟩
  | cons r l ih =>
    intro s based
    have put : s.logPut r = { ringPut s s.log.base s.log.log2 s.log.w 64 16 r with log := { s.log with w := s.log.w + 1 } } := if_neg based
    obtain ⟨host, eq⟩ := ih (s.logPut r) (by rw [put]; exact based)
    refine ⟨host, ?_⟩
    rw [List.foldl_cons, eq, put, List.length_cons]
    simp only [ringPut, State.hostWrite, Nat.add_assoc, Nat.add_comm 1]

/-- Settles O25: each row by the lemma that says what it does. -/
theorem observationCommandsAct : Obligations.ObservationCommandsAct := by
  refine ⟨⟨fun s die kind inst ev n ctx frozen => ?pmc, fun s id c inv =>
    ⟨fun h op fresh => ⟨exec_freezeAt_due h op fresh, exec_freezeAt_armed h op fresh⟩,
    fun found live running none' armed T at' => ⟨fun due => ?due, fun early => ?early⟩,
    fun h op => ⟨fun armed => ?thawArmed, fun free => ?thaw⟩, fun h op => ?clear⟩⟩,
    fun s id c inv => ⟨fun h op sound => ?arm, fun h op => ⟨fun w there => ?disarm, fun none' => ?disarmNone⟩,
      fun h fresh busy => ?snapBusy, fun h fresh free => exec_snapshot_free inv.regs h fresh free, fun calm busy T at' due => ?capture⟩,
    fun s secure value inv ready fits => ⟨fun acc short trigger => ?trigger, fun acc => ?faultRing, fun acc ne sized => ?logRing⟩⟩
  case pmc => exact State.pmc_frozen frozen ..
  case due =>
    obtain ⟨freeze, time, ended⟩ := State.freezeCounters_armed inv.regs found live armed
    have run : exec .freezeEffect s = .next s.freezeCounters := congrArg Host.Outcome.next
      ((if_neg (by simp [running])).trans ((if_neg (by simp [none'])).trans (if_pos (by simp [at', due]))))
    refine ⟨_, run, ?_, ?_, ?_, ?_, time, ended⟩
    all_goals rw [freeze]
  case early =>
    exact congrArg Host.Outcome.next
      ((if_neg (by simp [running])).trans ((if_neg (by simp [none'])).trans (if_neg (by simp [at', early]))))
  case thawArmed => exact congrArg Host.Outcome.next ((State.onFreeze_of_runs h op _).trans (if_pos armed))
  case thaw => exact congrArg Host.Outcome.next ((State.onFreeze_of_runs h op _).trans (if_neg (by simp [free])))
  case clear =>
    refine ⟨_, exec_counterClear_of_runs h op, State.Unended.finish (s := s.keepRegs fun n => n != .pmcValue) ⟨c, h.found, h.live⟩ _,
      fun r hr => ?_, rfl⟩
    split
    · rename_i counter
      refine (State.rd_keepRegs_dropped s (p := fun n => n != .pmcValue) hr (by simp [counter])).trans ?_
      rw [Reg.dflt, counter]
      rfl
    · rename_i other
      exact State.rd_keepRegs inv.regs (p := fun n => n != .pmcValue) hr (by simpa using other)
  case arm =>
    intro w
    refine congrArg Host.Outcome.next ((State.onWatch_of_runs h op _).trans ?_)
    dsimp only
    rw [sound]
    rfl
  case disarm =>
    refine congrArg Host.Outcome.next ((State.onWatch_of_runs h op _).trans ?_)
    dsimp only
    rw [there]
  case disarmNone =>
    refine congrArg Host.Outcome.next ((State.onWatch_of_runs h op _).trans ?_)
    dsimp only
    rw [none']
  case snapBusy => exact congrArg Host.Outcome.next ((State.onCmd_of_runs h _).trans ((if_neg (by simp [fresh])).trans (if_pos busy)))
  case capture =>
    obtain ⟨u, same, ends⟩ := calm.capture
    have ok : u.regsOk := by
      obtain ⟨mem, free, rfl⟩ := same
      exact inv.regs
    obtain ⟨over', done⟩ := ends.done ok
    refine ⟨_, congrArg Host.Outcome.next (if_pos ⟨busy, by simp [at', due]⟩), over', done, fun by' found live => ?_⟩
    rw [by'] at ends
    refine ends.ended ?_
    obtain ⟨mem, free, rfl⟩ := same
    exact ⟨c, found, live⟩
  case trigger =>
    have control : (regDie0 .snapshotControl).inMap := acc.exists'
    have time : (regDie0 .snapshotTime).inMap := regDie0_inMap rfl Nat.one_pos
    have stored := State.storeAll_whole inv.regs (r := regDie0 .snapshotControl) rfl (w := 2 ^ 32 - 1) rfl value
    have same := State.rd_wr_other (s := s) ((regDie0 .snapshotControl).name.info.taken false (s.rd (regDie0 .snapshotControl)) value) inv.regs
      (addr_ne_of_name time control (by decide))
    have run : exec (.snapshotTrigger secure value) s = .next (s.writeSnapshotControl (regDie0 .snapshotControl) (2 ^ 32 - 1) value) :=
      congrArg Host.Outcome.next ((if_pos trigger).trans ((acc.writeReg_eq rfl short).trans (State.writeReg_snapshotControl acc.taken)))
    refine ⟨_, run, ?_⟩
    unfold State.writeSnapshotControl
    rw [stored]
    cases busy : s.snap.busy with
    | true =>
      rw [if_neg (by simp [busy])]
      exact ⟨rfl, rfl⟩
    | false =>
      rw [if_pos (by simp [trigger, busy]), same]
      refine ⟨?_, rfl⟩
      cases bitOf value 1 with
      | false => rfl
      | true => rfl
  case faultRing =>
    intro n
    have run : exec (.faultRingBase secure value) s = .next (s.writeFaultRing (regDie0 .faultRingBase) (2 ^ 64 - 1) value) :=
      congrArg Host.Outcome.next ((acc.writeReg_eq rfl fits).trans (State.writeReg_faultRingBase acc.taken (by decide)))
    refine ⟨_, run, ?_⟩
    unfold State.writeFaultRing
    rw [State.storeAll_whole inv.regs (r := regDie0 .faultRingBase) rfl (w := 2 ^ 64 - 1) rfl value]
    refine ⟨?_, rfl, rfl⟩
    exact (congrArg (· % 2 ^ 64) (State.rd_wr_same _ _ inv.regs)).trans (RegName.taken_rw (n := .faultRingBase) List.mem_cons_self fits)
  case logRing =>
    have run : exec (.logRingBase secure value) s = .next (s.writeLogRing (regDie0 .logRingBase) (2 ^ 64 - 1) value) :=
      congrArg Host.Outcome.next ((acc.writeReg_eq rfl fits).trans (State.writeReg_logRingBase acc.taken (by decide)))
    refine ⟨_, run, ?_⟩
    unfold State.writeLogRing
    dsimp only
    rw [State.storeAll_whole inv.regs (r := regDie0 .logRingBase) rfl (w := 2 ^ 64 - 1) rfl value, if_pos sized, if_neg ne]
    obtain ⟨host, eq⟩ := State.logPuts s.log.held { s.wr (regDie0 .logRingBase)
      ((regDie0 .logRingBase).name.info.taken false (s.rd (regDie0 .logRingBase)) value) with
        log := { s.log with base := value, log2 := s.fld (regDie0 .logControl) 21 18, w := 0, held := [] } } ne
    refine eq ▸ ⟨?_, rfl, rfl, rfl, Nat.zero_add _, rfl, rfl⟩
    exact (congrArg (· % 2 ^ 64) (State.rd_wr_same _ _ inv.regs)).trans (RegName.taken_rw (n := .logRingBase) List.mem_cons_self fits)

end Sys2Proof.Machine
end

section
/-!
SUPPORT. Steps and updater groups: EVALUATE (R453), GROUP_SET (R400–R405, R414), STEP_CONTROL and the stall report (R426–R428, R435, R436,
R467).
-/
set_option Elab.async false
namespace Sys2Proof.Machine

/-- A row of an opcode whose operation the descriptor names runs on its command. -/
theorem State.onCmd_of_operation {s : State} {id : CmdId} {op k : Nat} {c : Cmd} (h : s.Runs id op c) {f : List Byte → Nat}
    (named : f c.desc = k) (g : Cmd → State) : s.onCmd id (fun d => isOpcode op d && f d == k) g = g c := by
  obtain ⟨found, live, opcode⟩ := h
  simp [State.onCmd, isOpcode, found, live, opcode, named]

/-! ### EVALUATE (R453) -/

theorem exec_evaluateBegin_of_runs {s : State} {id : CmdId} {c : Cmd} (h : s.Runs id 0x82 c) (op : evOp c.desc = 0) :
    exec (.evaluateBegin id) s = .next (s.evaluateBegin c) :=
  congrArg Host.Outcome.next (State.onCmd_of_operation h op _)

/-- A BEGIN with no window open, by the decision of its step. -/
def State.beginBy (s : State) (id : CmdId) (d : List Byte) : Option (Bool × Nat) → State
  | some (false, _) => s.finish id Status.stepSkipped.plain
  | some (true, _) => if s.appliedAfter (u32 d 36) then s.finish id Status.evalOverrun.plain
    else (s.setSteps fun x => { x with window := some (u32 d 36, s.now + 1024 * u32 d 40) }).finish id Status.ok.plain
  | none => if s.decided (u32 d 36) then s.finish id Status.evalOverrun.plain else s.updCmd id fun x => { x with begun := true }

theorem exec_evaluateBegin_closed {s : State} {id : CmdId} {c : Cmd} (h : s.Runs id 0x82 c) (op : evOp c.desc = 0)
    (closed : s.openWindow = none) : exec (.evaluateBegin id) s = .next (s.beginBy id c.desc (s.decisionOf (u32 c.desc 36))) := by
  rw [exec_evaluateBegin_of_runs h op, ← h.id_eq]
  refine congrArg Host.Outcome.next ((if_neg (by simp [closed])).trans ?_)
  obtain none' | ⟨commit, reasons⟩ := s.decisionOf (u32 c.desc 36)
  · rfl
  · cases commit <;> rfl

theorem State.openWindow_of_window {s : State} {w : Nat × Nat} (there : s.step.window = some w) :
    s.openWindow = if s.now < w.2 then some w else none := by
  rw [State.openWindow, there]
  exact Option.filter_some.trans (if_congr (by simp) rfl rfl)

/-- Settles O40: BEGIN by the decision of its step, END and the expiry by the window that is open. -/
theorem evaluationWindowsOpenAndClose : Obligations.EvaluationWindowsOpenAndClose := by
  intro s id c d t
  refine ⟨fun h op isOpen => ?opened, fun h op closed => ⟨fun m skipped => ?skipped, fun m committed after => ?late,
    fun m committed fresh => ?opens, fun undecided ahead => ?waits⟩,
    fun h op => ⟨fun close there => ⟨fun early => ?closes, fun over' => ?overrun⟩,
    fun none' => ?absent⟩, fun w there => ?expiry⟩
  case opened =>
    rw [exec_evaluateBegin_of_runs h op, ← h.id_eq]
    exact congrArg Host.Outcome.next (if_pos isOpen)
  case skipped =>
    rw [exec_evaluateBegin_closed h op closed, skipped]
    rfl
  case late =>
    rw [exec_evaluateBegin_closed h op closed, committed]
    exact congrArg Host.Outcome.next (if_pos after)
  case opens =>
    rw [exec_evaluateBegin_closed h op closed, committed]
    exact congrArg Host.Outcome.next (if_neg (Bool.eq_false_iff.1 fresh))
  case waits =>
    rw [exec_evaluateBegin_closed h op closed, undecided]
    exact congrArg Host.Outcome.next (if_neg (Bool.eq_false_iff.1 ahead))
  case closes =>
    refine congrArg Host.Outcome.next ((State.onCmd_of_operation h op _).trans ?_)
    rw [State.openWindow_of_window there, if_pos early]
    exact if_pos rfl
  case overrun =>
    refine congrArg Host.Outcome.next ((State.onCmd_of_operation h op _).trans ?_)
    rw [State.openWindow_of_window there, if_neg (Nat.not_lt.2 over')]
  case absent =>
    refine congrArg Host.Outcome.next ((State.onCmd_of_operation h op _).trans ?_)
    rw [State.openWindow, none']
    rfl
  case expiry =>
    refine congrArg Host.Outcome.next ?_
    rw [there]
    rfl

/-! ### GROUP_SET (R400–R405, R414) -/

@[simp] theorem State.updUpd_same (s : State) (d : Nat) (f : UpdDie → UpdDie) : (s.updUpd d f).updDieOf d = f (s.updDieOf d) :=
  Tab.getD_upd_same s.upd d UpdDie.init f

theorem State.updUpd_other (s : State) {d k : Nat} (f : UpdDie → UpdDie) (ne : k ≠ d) : (s.updUpd d f).updDieOf k = s.updDieOf k :=
  Tab.getD_upd_other s.upd UpdDie.init f ne

theorem State.updGroup_same {s : State} {d g : Nat} {x : UGroup} (found : s.ugroup d g = some x) (f : UGroup → UGroup) :
    (s.updGroup d g f).ugroup d g = some (f x) := by
  rw [State.ugroup] at found
  rw [State.ugroup, State.updGroup, State.updUpd_same, found]
  exact Tab.get?_set_same ..

theorem State.updGroup_other (s : State) {d g k j : Nat} (f : UGroup → UGroup) (ne : k ≠ d ∨ j ≠ g) :
    (s.updGroup d g f).ugroup k j = s.ugroup k j := by
  by_cases same : k = d
  · subst same
    rw [State.ugroup, State.updGroup, State.updUpd_same, State.ugroup]
    split
    · exact Tab.get?_set_other _ _ (ne.resolve_left (not_not_intro rfl))
    · rfl
  · exact congrArg (fun u : UpdDie => u.groups.get? j) (s.updUpd_other _ same)

section
variable {s : State} {id : CmdId} {c : Cmd} {k : Nat}

/-- An operation on a group that is not defined, or in use, is refused. -/
theorem State.onFreeGroup_refused (named : c.id = id) (busy : ∀ g, s.ugroup (gsDie c.desc) (gsGroup c.desc) = some g → g.inUse = true)
    (f : UGroup → State) : s.onFreeGroup c f = s.finish id (formatViol 32).ending := by
  unfold State.onFreeGroup
  split
  · rw [named]
  · rename_i g found
    rw [if_pos (busy g found), named]

theorem State.onFreeGroup_free {g : UGroup} (found : s.ugroup (gsDie c.desc) (gsGroup c.desc) = some g) (free : g.inUse = false)
    (f : UGroup → State) : s.onFreeGroup c f = f g := by
  unfold State.onFreeGroup
  rw [found]
  exact if_neg (Bool.eq_false_iff.1 free)

/-- The state of a group at its DEFINE. -/
def UGroup.define (r e d : List Byte) (slow : Bool) : UGroup :=
  { record := r, slow := slow, collect := u32 d 48, bc := u32 d 52, position := u32 d 56, appliedGen := u16 e 8, mismatch := false,
    bcLong := false, lastStatus := 0, lastStep := 0, stepAmax := 0, normClips := 0, refreshStep := 0, refreshes := [], steps := [] }

/-- A group defined in a state. -/
def State.withGroup (s : State) (d g : Nat) (x : UGroup) : State := s.updUpd d fun u => { u with groups := u.groups.set g x }

theorem State.withGroup_same (s : State) (d g : Nat) (x : UGroup) : (s.withGroup d g x).ugroup d g = some x := by
  rw [State.ugroup, State.withGroup, State.updUpd_same]
  exact Tab.get?_set_same ..

theorem State.withGroup_other (s : State) {d g k j : Nat} (x : UGroup) (ne : k ≠ d ∨ j ≠ g) :
    (s.withGroup d g x).ugroup k j = s.ugroup k j := by
  by_cases same : k = d
  · subst same
    rw [State.ugroup, State.withGroup, State.updUpd_same]
    exact Tab.get?_set_other _ _ (ne.resolve_left (not_not_intro rfl))
  · exact congrArg (fun u : UpdDie => u.groups.get? j) (s.updUpd_other _ same)

/-- A DEFINE that nothing refuses stores the group, clears its moments where asked, and ends with OK. -/
theorem exec_groupDefine_ok (h : s.Runs id 0x80 c) (op : gsOp c.desc = 0) (there : (s.die (gsDie c.desc)).inService = true)
    (free : (s.ugroup (gsDie c.desc) (gsGroup c.desc)).any UGroup.inUse = false) {r e : List Byte} (record : c.records.getD 1 [] = r)
    (reach : s.groupReach r = []) (read : s.readBytes (s.groupAcc (gRec r).ctx (gRec r).sched 272) (gRec r).sched 272 = .ok e)
    (sound : scheduleBad e (gRec r).isPre = false) : ∃ x t, exec (.groupDefine id) s = .next (t.finish id Status.ok.plain)
      ∧ (∃ slow, x = UGroup.define r e c.desc slow) ∧ (s.withGroup (gsDie c.desc) (gsGroup c.desc) x).SameButMem t
      ∧ (gsZero c.desc = false → t = s.withGroup (gsDie c.desc) (gsGroup c.desc) x) := by
  let x := UGroup.define r e c.desc (tierOf s.mem.layout (gRec r).param == 1)
  let zero (t : State) (p : Nat × Nat × Nat × Nat) : State :=
    (t.writeBytes (t.groupAcc (gRec r).ctx p.2.1 (p.2.2.1 * (gRec r).elements)) p.2.1 (zeros (p.2.2.1 * (gRec r).elements))).1
  let base := s.withGroup (gsDie c.desc) (gsGroup c.desc) x
  let t := if gsZero c.desc then ((gRec r).planes.filter fun p => p.1 != 0).foldl zero base else base
  refine ⟨x, t, ?_, ⟨_, rfl⟩, ?_, fun keep => if_neg (Bool.eq_false_iff.1 keep)⟩
  · rw [← h.id_eq]
    refine congrArg Host.Outcome.next ((State.onCmd_of_operation (h.id_eq ▸ h) op _).trans ?_)
    refine (if_neg (by simp [there])).trans ((if_neg (Bool.eq_false_iff.1 free)).trans ?_)
    dsimp only
    rw [record, reach, show worst ([] : List Viol) = none from rfl]
    dsimp only
    rw [read]
    exact if_neg (Bool.eq_false_iff.1 sound)
  · exact ite_cases (P := base.SameButMem) (.foldl (fun t p => t.writeBytes_sameButMem ..) _ _) (.refl _)

end

theorem State.SameButMem.upd {s t : State} (h : s.SameButMem t) : t.upd = s.upd := by obtain ⟨_, _, rfl⟩ := h; rfl

theorem State.SameButMem.ugroup {s t : State} (h : s.SameButMem t) (d g : Nat) : t.ugroup d g = s.ugroup d g := by
  obtain ⟨_, _, rfl⟩ := h; rfl

/-- The group that a RETIRE names is gone, with the digests of regions that no group keeps. -/
def State.withoutGroup (s : State) (d g : Nat) : State := (s.updUpd d fun u => { u with groups := u.groups.erase g }).dropDigests d

theorem State.withoutGroup_same {s : State} {d g : Nat} (rising : (s.updDieOf d).groups.Pairwise fun a b => a.1 < b.1) :
    (s.withoutGroup d g).ugroup d g = none := by
  rw [State.ugroup, State.withoutGroup, State.dropDigests, State.updUpd_same, State.updUpd_same]
  exact Tab.get?_erase_same _ rising

theorem State.withoutGroup_other {s : State} {d g k j : Nat} (rising : (s.updDieOf d).groups.Pairwise fun a b => a.1 < b.1)
    (ne : k ≠ d ∨ j ≠ g) : (s.withoutGroup d g).ugroup k j = s.ugroup k j := by
  by_cases same : k = d
  · subst same
    rw [State.ugroup, State.withoutGroup, State.dropDigests, State.updUpd_same, State.updUpd_same]
    exact Tab.get?_erase_other rising (ne.resolve_left (not_not_intro rfl))
  · exact congrArg (fun u : UpdDie => u.groups.get? j) ((State.updUpd_other _ _ same).trans (State.updUpd_other _ _ same))

/-- Settles O34: DEFINE stores, and the other operations act on a group that is free. -/
theorem groupSetDefinesAndChangesGroups : Obligations.GroupSetDefinesAndChangesGroups := by
  intro s id c h d die gi r refused
  have live := h.unended
  refine ⟨fun op there busy => ?inUse, fun e op there free reach read sound => ?define,
    fun busy => ⟨fun op => ?_, fun op => ?_, fun op => ?_⟩,
    fun g found free => ⟨fun op rising => ?retire, fun op => ?counters, fun op other => ?notPre, fun op pre early => ?tooEarly,
      fun op pre later => ?refresh⟩, fun g x op found judged => ?query⟩
  case inUse =>
    refine congrArg Host.Outcome.next ((State.onCmd_of_operation h op _).trans ?_)
    exact (if_neg (by simp [show (s.die (gsDie c.desc)).inService = true from there])).trans ((if_pos busy).trans (by rw [h.id_eq]))
  case define =>
    obtain ⟨x, t, run, ⟨slow, rfl⟩, same, keep⟩ := exec_groupDefine_ok h op there free rfl reach read sound
    have groups : ∀ k j, t.ugroup k j = (s.withGroup die gi (UGroup.define r e d slow)).ugroup k j := same.ugroup
    have cmds : t.cmds = s.cmds := by obtain ⟨_, _, rfl⟩ := same; rfl
    refine ⟨_, run, (live.sameCmds cmds).finish _,
      ⟨_, (groups die gi).trans (s.withGroup_same die gi _), rfl, rfl, rfl, rfl, rfl, rfl, rfl, rfl⟩,
      fun k j ne => (groups k j).trans (s.withGroup_other _ ne), fun kept => ?_⟩
    rw [keep kept]
    rfl
  case query =>
    refine fun ok => congrArg Host.Outcome.next ((State.onCmd_of_operation h op _).trans ?_)
    dsimp only
    rw [found, judged]
    dsimp only
    rw [ok]
  case retire =>
    refine ⟨_, congrArg Host.Outcome.next ((State.onCmd_of_operation h op _).trans (State.onFreeGroup_free found free _)),
      State.Unended.finish (s := s.withoutGroup die gi) live _, State.withoutGroup_same rising,
      fun k j ne => State.withoutGroup_other rising ne, rfl⟩
  case counters =>
    refine ⟨_, congrArg Host.Outcome.next ((State.onCmd_of_operation h op _).trans (State.onFreeGroup_free found free _)),
      State.Unended.finish (s := s.updGroup die gi _) live _, State.updGroup_same found _, fun k j ne => s.updGroup_other _ ne, rfl⟩
  case notPre =>
    exact congrArg Host.Outcome.next ((State.onCmd_of_operation h op _).trans
      ((State.onFreeGroup_free found free _).trans (if_pos (by simp [other]))))
  case tooEarly =>
    exact congrArg Host.Outcome.next ((State.onCmd_of_operation h op _).trans ((State.onFreeGroup_free found free _).trans
      ((if_neg (by simp [pre])).trans (if_pos (by simp [d, early])))))
  case refresh =>
    refine ⟨_, congrArg Host.Outcome.next ((State.onCmd_of_operation h op _).trans ((State.onFreeGroup_free found free _).trans
      ((if_neg (by simp [pre])).trans (if_neg (by simp [d, later]))))), State.Unended.finish (s := s.updGroup die gi _) live _,
      State.updGroup_same found _, rfl⟩
  all_goals exact congrArg Host.Outcome.next ((State.onCmd_of_operation h op _).trans (State.onFreeGroup_refused h.id_eq busy _))

/-! ### STEP_CONTROL (R426–R428, R435, R436, R467) -/

/-- Each breach of an OPEN is one of its record's format, or of alignment or reach. -/
theorem State.mem_openViols {s : State} {r : List Byte} {v : Viol} (h : v ∈ s.openViols r) : v.status = .descFormat ∨ 1 ≤ v.rank := by
  have format {b : Bool} {off : Nat} (h : v ∈ violIf b (formatViol off)) : v.status = .descFormat := by
    rw [mem_violIf h]
    rfl
  have inRecord : ∀ w : Viol, (w.status = .descFormat ∨ 1 ≤ w.rank) → w.inRec 1 = v → v.status = .descFormat ∨ 1 ≤ v.rank := by
    rintro w hw rfl
    exact hw
  unfold State.openViols at h
  obtain h | h := List.mem_append.1 h
  · exact .inl (format h)
  obtain ⟨w, hw, eq⟩ := List.mem_map.1 h
  refine inRecord w ?_ eq
  have formatted {b : Bool} {off : Nat} (h : w ∈ violIf b (formatViol off)) : w.status = .descFormat := by
    rw [mem_violIf h]
    rfl
  simp only [List.mem_append, List.mem_map, List.mem_flatten] at hw
  obtain (((((⟨o, -, rfl⟩ | h) | h) | h) | ⟨_, ⟨d, -, rfl⟩, h⟩) | ⟨_, ⟨x, -, rfl⟩, h⟩) := hw
  · exact .inl rfl
  · exact .inl (formatted h)
  · exact .inl (formatted h)
  · exact .inl (formatted h)
  · exact .inl ((List.mem_append.1 h).elim formatted formatted)
  · obtain h | h := List.mem_append.1 h
    · exact .inr (by rw [mem_violIf h]; exact Nat.le_refl 1)
    · exact .inr (Nat.le_of_succ_le (reachOf_late h))

/-- An OPEN of steps that are open is refused for its format, whatever its record holds. -/
theorem State.worst_openViols_opened {s : State} (opened : s.step.opened = true) (r : List Byte) :
    ∃ v, worst (s.openViols r) = some v ∧ v.status = .descFormat :=
  worst_status (u := formatViol 32) (by simp [State.openViols, opened, violIf]) fun _ h => (State.mem_openViols h).symm

/-- The ranges that OPEN gives the journal and the rings of die `d`. -/
def UpdDie.opened (r : List Byte) (d : Nat) (u : UpdDie) : UpdDie :=
  { u with journalSize := u64 r (24 + 48 * d), ringBase := u64 r (32 + 48 * d), ringSize := u64 r (40 + 48 * d),
           foreignBase := u64 r (48 + 48 * d), foreignSize := u64 r (56 + 48 * d) }

/-- Every die in service among those listed takes its ranges, and nothing else changes. -/
theorem State.openDies (r : List Byte) (ds : List Nat) (nodup : ds.Nodup) : ∀ s : State,
    let t := ds.foldl (fun t d => if (t.die d).inService then t.updUpd d (UpdDie.opened r d) else t) s
    (∃ upd, t = { s with upd := upd })
      ∧ ∀ k, t.updDieOf k = if k ∈ ds ∧ (s.die k).inService = true then (s.updDieOf k).opened r k else s.updDieOf k := by
  induction ds with
  | nil => exact fun s => ⟨⟨_, rfl⟩, fun k => by simp⟩
  | cons d ds ih =>
    intro s
    obtain ⟨apart, rest⟩ := List.nodup_cons.1 nodup
    by_cases there : (s.die d).inService = true
    · obtain ⟨⟨upd, eq⟩, taken⟩ := ih rest (s.updUpd d (UpdDie.opened r d))
      rw [List.foldl_cons, if_pos there]
      refine ⟨⟨upd, eq⟩, fun k => (taken k).trans ?_⟩
      by_cases same : k = d
      · subst same
        simp [apart, there]
      · rw [State.updUpd_other _ _ same]
        exact if_congr (by rw [List.mem_cons, or_iff_right same]; rfl) rfl rfl
    · obtain ⟨only, taken⟩ := ih rest s
      rw [List.foldl_cons, if_neg there]
      refine ⟨only, fun k => (taken k).trans ?_⟩
      by_cases same : k = d
      · subst same
        simp [there]
      · simp [same]

theorem State.raise_open {s : State} (opened : s.step.opened = true) (t bit : Nat) : s.raise t bit = s.setSteps fun x =>
    { x with reasons := x.reasons.upd (if s.decided t then s.step.oldest else t) 0 fun m => m ||| 2 ^ bit } :=
  if_neg (by simp [opened])

/-- How WAIT reports a decision, by the reasons of a skip (R436). -/
theorem waitEnding_spec (m : Nat) : (waitEnding true m).status = 0 ∧ (waitEnding true m).aux = m % 65536
    ∧ (waitEnding false m).aux = m % 65536
    ∧ (waitEnding false m).status = (if m.testBit 2 then 0x0701 else if m.testBit 0 || m.testBit 1 then 0x0703
        else if m.testBit 7 then 0x0801 else 0x0702) := by
  refine ⟨rfl, rfl, rfl, ?_⟩
  change Status.code (if bitOf m 2 = true then .stepMismatch else if bitOf m 0 = true ∨ bitOf m 1 = true then .nonfiniteBlock
    else if bitOf m 7 = true then .eccUncorrectable else .stepSkipped) = _
  rw [apply_ite Status.code, apply_ite Status.code, apply_ite Status.code]
  simp only [bitOf, ← Bool.or_eq_true]
  rfl

/-- The report of a stall that is due (R435). -/
theorem exec_consensusStall_due {s : State} {f : Nat} (ok : s.regsOk) (votes : s.step.voteFrame = some f) (opened : s.step.opened = true)
    (fresh : s.step.reported = false) (late : f + s.step.timeout ≤ s.frame) (free : s.decisionHeld = false) :
    ∃ u, exec .consensusStall s = .next u ∧ u.step.stalled = true ∧ u.step.oldest = s.step.oldest
      ∧ u.rd (regDie0 .consensusStalls) = (s.rd (regDie0 .consensusStalls) + 1) % 2 ^ 64 := by
  let stalled := (s.setSteps fun x => { x with stalled := true, reported := true }).bump (regDie0 .consensusStalls) 1
  have run : exec .consensusStall s = .next (stalled.faultRecord ⟨.consensus, 0, ⟨13, 0, 0⟩, none, noWhere⟩) := by
    refine congrArg Host.Outcome.next ?_
    rw [votes]
    exact if_pos ⟨opened, by simp [fresh], by simp [free], late⟩
  obtain ⟨_, _, _, _, _, eq⟩ := stalled.faultRecord_rest ⟨.consensus, 0, ⟨13, 0, 0⟩, none, noWhere⟩
  refine ⟨_, run, ?_⟩
  rw [eq]
  exact ⟨rfl, rfl, State.rd_bump_same (s := s.setSteps _) _ _ ok⟩

/-- Settles O36: each operation by its own row. -/
theorem stepsOpenVoteWaitAndClose : Obligations.StepsOpenVoteWaitAndClose := by
  intro s id c
  refine ⟨fun h => ?_, waitEnding_spec, fun f inv votes opened fresh => ⟨fun held => ?held, fun early => ?early,
    fun late free => exec_consensusStall_due inv.regs votes opened fresh late free⟩⟩
  intro d t r refused
  refine ⟨fun op opened => ?opened, fun op sound => ?opens, fun op more => ?waitsToClose, fun op none' => ?closes,
    fun op noSkip opened live => ?vote, fun op skip opened => ?driver, fun op commit reasons decided => ?decided,
    fun op undecided => ?undecided, fun op => ?participants⟩
  case opened =>
    obtain ⟨v, found, status⟩ := State.worst_openViols_opened opened r
    refine ⟨v.ending, congrArg Host.Outcome.next ((State.onCmd_of_operation h op _).trans ?_), congrArg Status.code status⟩
    rw [show worst (s.openViols (c.records.getD 1 [])) = some v from found]
  case opens =>
    have run : exec (.stepOpen id) s = .next ((s.openSteps c r).finish id Status.ok.plain) := by
      refine congrArg Host.Outcome.next ((State.onCmd_of_operation h op _).trans ?_)
      rw [show s.openViols (c.records.getD 1 []) = [] from sound]
      rfl
    let base := s.setSteps fun x =>
      { x with opened := true, applyAhead := scAhead d, oldest := u32 r 0, participants := u32 r 4, newParticipants := none,
               lead := u16 r 8, timeout := u16 r 10, exportFlow := u16 r 12, votes := [], reasons := [], voteFrame := none,
               reported := false, field := ConsField.none }
    obtain ⟨⟨upd, eq⟩, taken⟩ := State.openDies r (upTo 8) List.nodup_range base
    have taken (k : Nat) (hk : k < 8) (there : (s.die k).inService = true) : (s.openSteps c r).updDieOf k = (s.updDieOf k).opened r k :=
      (taken k).trans (if_pos ⟨List.mem_range.2 hk, there⟩)
    have eq : s.openSteps c r = { base with upd := upd } := eq
    refine ⟨_, run, State.Unended.finish (by rw [eq]; exact h.unended) _, ?_⟩
    rw [eq] at taken ⊢
    refine ⟨rfl, rfl, rfl, rfl, rfl, rfl, rfl, rfl, rfl, fun k hk there => ?_, rfl⟩
    refine ⟨(congrArg UpdDie.journalSize (taken k hk there)).trans rfl, (congrArg UpdDie.ringBase (taken k hk there)).trans rfl,
      (congrArg UpdDie.ringSize (taken k hk there)).trans rfl⟩
  case waitsToClose =>
    exact ⟨_, congrArg Host.Outcome.next ((State.onCmd_of_operation h op _).trans (if_pos more)), State.cmd?_begin h.found, rfl⟩
  case closes => exact congrArg Host.Outcome.next ((State.onCmd_of_operation h op _).trans (if_neg (Bool.eq_false_iff.1 none')))
  case vote =>
    have voted : (if scSkip c.desc then s.raise (scStep c.desc) bitDriver
        else if s.step.opened ∧ !s.decided (scStep c.desc) then s.setSteps fun x =>
          { x with votes := if x.votes.contains (scStep c.desc) then x.votes else scStep c.desc :: x.votes }
        else s) = s.setSteps fun x => { x with votes := if x.votes.contains t then x.votes else t :: x.votes } :=
      (if_neg (Bool.eq_false_iff.1 noSkip)).trans (if_pos ⟨opened, by simp [show s.decided (scStep c.desc) = false from live]⟩)
    refine ⟨_, congrArg Host.Outcome.next ((State.onCmd_of_operation h op _).trans (congrArg (State.finish · id Status.ok.plain) voted)),
      State.Unended.finish (s := s.setSteps _) h.unended _, ?_, rfl, fun v ne => ?_, rfl⟩
    · change t ∈ if s.step.votes.contains t = true then s.step.votes else t :: s.step.votes
      split
      · rename_i there
        simpa using there
      · exact List.mem_cons_self
    · change v ∈ (if s.step.votes.contains t = true then s.step.votes else t :: s.step.votes) ↔ v ∈ s.step.votes
      split
      · rfl
      · rw [List.mem_cons, or_iff_right ne]
  case driver =>
    have raised : (if scSkip c.desc then s.raise (scStep c.desc) bitDriver
        else if s.step.opened ∧ !s.decided (scStep c.desc) then s.setSteps fun x =>
          { x with votes := if x.votes.contains (scStep c.desc) then x.votes else scStep c.desc :: x.votes }
        else s) = _ := (if_pos skip).trans (s.raise_open opened (scStep c.desc) bitDriver)
    have raisedReasons := Tab.getD_upd_same s.step.reasons (if s.decided t then s.step.oldest else t) 0 fun m => m ||| 2 ^ 8
    exact ⟨_, congrArg Host.Outcome.next ((State.onCmd_of_operation h op _).trans (congrArg (State.finish · id Status.ok.plain) raised)),
      State.Unended.finish (s := s.setSteps _) h.unended _, rfl, raisedReasons, rfl⟩
  case decided =>
    refine congrArg Host.Outcome.next ((State.onCmd_of_operation h op _).trans ?_)
    dsimp only
    rw [show s.decisionOf (scStep c.desc) = some (commit, reasons) from decided]
  case undecided =>
    refine congrArg Host.Outcome.next ((State.onCmd_of_operation h op _).trans ?_)
    dsimp only
    rw [show s.decisionOf (scStep c.desc) = none from undecided]
  case participants =>
    refine congrArg Host.Outcome.next ((State.onCmd_of_operation h op _).trans ?_)
    by_cases takes : s.time.role = .master ∧ s.step.opened = true
    · rw [if_pos takes]
      exact if_neg (by simp [State.isMaster, takes.1, takes.2])
    · rw [if_neg takes]
      refine if_pos ?_
      simpa [State.isMaster, imp_iff_not_or] using takes
  case held =>
    refine congrArg Host.Outcome.next ?_
    rw [votes]
    exact if_neg (by simp [held])
  case early =>
    refine congrArg Host.Outcome.next ?_
    rw [votes]
    exact if_neg fun h => Nat.not_le.2 early h.2.2.2

end Sys2Proof.Machine
end

section
/-!
SUPPORT. Decisions (R421, R433, R434, R436, R439, R440): what the decision of a step does to the journals, the counters, the votes and
the commands that wait for it.
-/
set_option Elab.async false
namespace Sys2Proof.Machine

/-! ### Memory written, and words that could not be read -/

/-- From `s` to `t` memory may have been written and uncorrectable words reported: commands, steps and updaters are as they were. -/
structure State.Touched (s t : State) : Prop where
  rest : ∃ regs mem faults freeze ctxs pcie free,
    t = { s with regs := regs, mem := mem, faults := faults, freeze := freeze, ctxs := ctxs, pcie := pcie, freeCount := free }
  rising : s.regsOk → t.regsOk
  kept : s.regsOk → ∀ q : Reg, ¬ ueAddr q.addr → t.rd q = s.rd q

namespace State.Touched

theorem refl (s : State) : s.Touched s := ⟨⟨_, _, _, _, _, _, _, rfl⟩, id, fun _ _ _ => rfl⟩

theorem trans {s t u : State} (h : s.Touched t) (k : t.Touched u) : s.Touched u := by
  refine ⟨?_, fun ok => k.rising (h.rising ok), fun ok q other => (k.kept (h.rising ok) q other).trans (h.kept ok q other)⟩
  obtain ⟨_, _, _, _, _, _, _, rfl⟩ := h.rest
  obtain ⟨regs, mem, faults, freeze, ctxs, pcie, free, rfl⟩ := k.rest
  exact ⟨regs, mem, faults, freeze, ctxs, pcie, free, rfl⟩

theorem foldl {α : Type} {f : State → α → State} (step : ∀ (t : State) a, t.Touched (f t a)) (l : List α) (s : State) :
    s.Touched (l.foldl f s) :=
  List.foldlRecOn l f (motive := s.Touched) (.refl s) fun t ht a _ => ht.trans (step t a)

theorem ofMem {s t : State} (h : s.SameButMem t) : s.Touched t := by
  obtain ⟨mem, free, rfl⟩ := h
  exact ⟨⟨_, _, _, _, _, _, _, rfl⟩, id, fun _ _ _ => rfl⟩

theorem ueReport (s : State) (a : Nat) : s.Touched (s.ueReport a) := by
  obtain ⟨⟨regs, mem, faults, freeze, ctxs, pcie, eq⟩, -, rising, kept⟩ := UeReported.ueReport s a
  exact ⟨⟨regs, mem, faults, freeze, ctxs, pcie, s.freeCount, eq⟩, rising, kept⟩

theorem restoreOpen (s : State) (g : UGroup) (t : Nat) : s.Touched (s.restoreOpen g t) := by
  unfold State.restoreOpen
  split
  · exact refl s
  · exact ofMem (.foldl (fun u b => u.writeBytes_sameButMem ..) _ s)

theorem xorBlock (s : State) (ctx a : Nat) (delta : List Byte) : s.Touched (s.xorBlock ctx a delta) := by
  unfold State.xorBlock
  dsimp only
  split
  · exact ofMem (s.writeBytes_sameButMem ..)
  · exact ueReport ..
  · exact refl s

variable {s t : State} (h : s.Touched t)
include h

theorem cmds : t.cmds = s.cmds := by obtain ⟨_, _, _, _, _, _, _, rfl⟩ := h.rest; rfl
theorem step : t.step = s.step := by obtain ⟨_, _, _, _, _, _, _, rfl⟩ := h.rest; rfl
theorem upd : t.upd = s.upd := by obtain ⟨_, _, _, _, _, _, _, rfl⟩ := h.rest; rfl
theorem updDieOf (d : Nat) : t.updDieOf d = s.updDieOf d := by rw [State.updDieOf, State.updDieOf, h.upd]

end State.Touched

/-! ### One die at a decision (R439, R440) -/

/-- The records of a journal once step `t` is decided: committed, or freed. -/
def decideJournal (t : Nat) (commit : Bool) (j : List DiffRec) : List DiffRec :=
  if commit then j.map fun r => if r.step = t then { r with committed := true } else r
  else j.filter fun r => !(r.step == t && !r.committed)

/-- No record of the decided step is left uncommitted. -/
theorem committed_of_decided {t : Nat} {commit : Bool} {j : List DiffRec} {r : DiffRec} (h : r ∈ decideJournal t commit j)
    (step : r.step = t) : r.committed = true := by
  cases commit with
  | true =>
    obtain ⟨x, -, rfl⟩ := List.mem_map.1 h
    split
    · rfl
    · rename_i other
      rw [if_neg other] at step
      exact absurd step other
  | false =>
    have kept := (List.mem_filter.1 h).2
    simpa [step] using kept

/-- Records of another step keep their marks. -/
theorem committed_kept {t u : Nat} {commit : Bool} {j : List DiffRec} (all : ∀ r ∈ j, r.step = u → r.committed = true) {r : DiffRec}
    (h : r ∈ decideJournal t commit j) (step : r.step = u) : r.committed = true := by
  cases commit with
  | true =>
    obtain ⟨x, mem, rfl⟩ := List.mem_map.1 h
    split
    · rfl
    · rename_i other
      rw [if_neg other] at step
      exact all x mem step
  | false => exact all r (List.mem_filter.1 h).1 step

/-- From `s` to `u` step `t` has been decided on the dies listed. -/
structure State.DiesDecided (t : Nat) (commit : Bool) (ds : List Nat) (s u : State) : Prop where
  cmds : u.cmds = s.cmds
  step : u.step = s.step
  rising : s.regsOk → u.regsOk
  kept : s.regsOk → ∀ q : Reg, ¬ ueAddr q.addr → u.rd q = s.rd q
  journal : ∀ k, (u.updDieOf k).journal = if k ∈ ds then decideJournal t commit (s.updDieOf k).journal else (s.updDieOf k).journal

/-- Step `t` decided on die `d`. -/
def State.decideOn (t : Nat) (commit : Bool) (u : State) (d : Nat) : State :=
  if commit then
    (u.updUpd d fun x => { x with journal := x.journal.map fun r => if r.step = t then { r with committed := true } else r }).decideDie d t true
  else (u.decideDie d t false).reverse d t

/-- A group's state changes at a decision, and a skip restores what its open blocks held; no journal changes. -/
theorem State.decideDie_touched (s : State) (d t : Nat) (commit : Bool) : ∃ u f, s.Touched u ∧ s.decideDie d t commit = u.updUpd d f
    ∧ ∀ x, (f x).journal = x.journal := by
  refine ⟨_, _, ?_, rfl, fun x => rfl⟩
  exact ite_cases (P := s.Touched) (.refl s) (.foldl (fun u g => .restoreOpen u g t) _ s)

theorem State.reverse_touched (s : State) (d t : Nat) : ∃ u, s.Touched u
    ∧ s.reverse d t = u.updUpd d fun x => { x with journal := decideJournal t false x.journal } :=
  ⟨_, .foldl (fun u (r : DiffRec) => .xorBlock u r.ctx r.addr r.delta) _ s, rfl⟩

theorem State.decideOn_decided (t : Nat) (commit : Bool) (s : State) (d : Nat) :
    State.DiesDecided t commit [d] s (State.decideOn t commit s d) := by
  cases commit with
  | true =>
    let marked := s.updUpd d fun x => { x with journal := decideJournal t true x.journal }
    obtain ⟨u, f, touched, eq, same⟩ := marked.decideDie_touched d t true
    refine ⟨?_, ?_, ?_, ?_, fun k => ?_⟩
    all_goals rw [show State.decideOn t true s d = u.updUpd d f from eq]
    · exact touched.cmds
    · exact touched.step
    · exact touched.rising
    · exact touched.kept
    · by_cases here : k = d
      · subst here
        rw [State.updUpd_same, same, touched.updDieOf, State.updUpd_same, if_pos List.mem_cons_self]
      · rw [State.updUpd_other _ _ here, touched.updDieOf, State.updUpd_other _ _ here, if_neg (by simpa using here)]
  | false =>
    obtain ⟨u, f, touched, eq, same⟩ := s.decideDie_touched d t false
    obtain ⟨v, reversed, eq'⟩ := (u.updUpd d f).reverse_touched d t
    refine ⟨?_, ?_, ?_, ?_, fun k => ?_⟩
    all_goals rw [show State.decideOn t false s d = _ from (congrArg (State.reverse · d t) eq).trans eq']
    · exact reversed.cmds.trans touched.cmds
    · exact reversed.step.trans touched.step
    · exact fun ok => reversed.rising (touched.rising ok)
    · exact fun ok q other => (reversed.kept (touched.rising ok) q other).trans (touched.kept ok q other)
    · by_cases here : k = d
      · subst here
        rw [State.updUpd_same, reversed.updDieOf, State.updUpd_same, same, touched.updDieOf, if_pos List.mem_cons_self]
      · rw [State.updUpd_other _ _ here, reversed.updDieOf, State.updUpd_other _ _ here, touched.updDieOf,
          if_neg (by simpa using here)]

theorem State.decideOn_all (t : Nat) (commit : Bool) (ds : List Nat) (nodup : ds.Nodup) : ∀ s : State,
    State.DiesDecided t commit ds s (ds.foldl (State.decideOn t commit) s) := by
  induction ds with
  | nil => exact fun s => ⟨rfl, rfl, id, fun _ _ _ => rfl, fun k => by simp⟩
  | cons d ds ih =>
    intro s
    obtain ⟨apart, rest⟩ := List.nodup_cons.1 nodup
    have first := State.decideOn_decided t commit s d
    have later := ih rest (State.decideOn t commit s d)
    refine ⟨later.cmds.trans first.cmds, later.step.trans first.step, fun ok => later.rising (first.rising ok),
      fun ok q other => (later.kept (first.rising ok) q other).trans (first.kept ok q other), fun k => ?_⟩
    rw [List.foldl_cons, later.journal, first.journal]
    by_cases here : k = d
    · subst here
      simp [apart]
    · simp [here]

/-! ### Swaps and WAITs (R436, R442) -/

theorem State.errSwap_sameButMem (s : State) (ctx h : Nat) (flip : Bool) : s.SameButMem (s.errSwap ctx h flip) := by
  unfold State.errSwap
  split
  · exact .refl s
  · dsimp only
    split
    · exact .refl s
    · exact s.writeBytes_sameButMem ..

theorem State.zeroTerms_sameButMem (s : State) (x : Acc) (base buf n : Nat) (map : List Byte) :
    s.SameButMem (s.zeroTerms x base buf n map) :=
  .foldl (fun t _ => ite_cases (P := t.SameButMem) (t.writeBytes_sameButMem ..) (.refl t)) _ s

theorem State.swapTerms_sameButMem (s : State) (w : Swap) (commit : Bool) : s.SameButMem (s.swapTerms w commit) := by
  unfold State.swapTerms
  split
  · exact .refl s
  · have swapped := s.errSwap_sameButMem w.ctx w.handle commit
    dsimp only
    split
    · split
      · exact swapped
      · split
        · exact swapped
        · split
          · exact swapped
          · exact (swapped.trans (State.zeroTerms_sameButMem ..)).trans (State.writeBytes_sameButMem ..)
    · exact swapped

/-- A command that has ended stays so when others end. -/
theorem State.EndedAs.finish {s : State} {i : CmdId} {e : Ending} (h : s.EndedAs i e) (j : CmdId) (f : Ending) :
    (s.finish j f).EndedAs i e := by
  refine (State.EndsOnly.updCmd s j (fun c => ?_) fun c e ended => ?_).stands i e h
  · split <;> rfl
  · simp [ended]

theorem State.Unended.finish_other {s : State} {i j : CmdId} (h : s.Unended i) (ne : i ≠ j) (f : Ending) : (s.finish j f).Unended i := by
  obtain ⟨c, found, live⟩ := h
  refine ⟨c, ((State.EndsOnly.updCmd s j (fun c => ?_) fun c e ended => ?_).others i ne).trans found, live⟩
  · split <;> rfl
  · simp [ended]

/-- The commands listed that wait for step `t` end as `e` says; a command that has ended stays so. -/
theorem State.finishWaits (p : Cmd → Bool) (e : Ending) (l : List Cmd) : ∀ s : State,
    let u := l.foldl (fun u c => if p c then u.finish c.id e else u) s
    (∀ i f, s.EndedAs i f → u.EndedAs i f)
      ∧ ∀ c ∈ l, p c = true → (s.Unended c.id ∨ s.EndedAs c.id e) → u.EndedAs c.id e := by
  induction l with
  | nil => exact fun s => ⟨fun _ _ h => h, fun c h => absurd h List.not_mem_nil⟩
  | cons x l ih =>
    intro s
    by_cases waits : p x = true
    · obtain ⟨stands, ends⟩ := ih (s.finish x.id e)
      rw [List.foldl_cons, if_pos waits]
      refine ⟨fun i f h => stands i f (h.finish ..), fun c mem yes open' => ?_⟩
      by_cases same : c.id = x.id
      · rw [same] at open' ⊢
        exact stands _ _ (open'.elim (fun live => live.finish e) fun ended => ended.finish ..)
      · obtain rfl | mem := List.mem_cons.1 mem
        · exact absurd rfl same
        · exact ends c mem yes (open'.imp (fun live => live.finish_other same e) fun ended => ended.finish ..)
    · obtain ⟨stands, ends⟩ := ih s
      rw [List.foldl_cons, if_neg waits]
      refine ⟨stands, fun c mem yes => ?_⟩
      obtain rfl | mem := List.mem_cons.1 mem
      · exact absurd yes waits
      · exact ends c mem yes

/-! ### One step decided (R434, R439, R440) -/

/-- The counter of the decisions of one kind. -/
def decisionCounter (commit : Bool) : RegName := if commit then .stepsCommitted else .stepsSkipped

theorem decisionCounter_inMap (commit : Bool) : (regDie0 (decisionCounter commit)).inMap := by
  cases commit <;> exact regDie0_inMap rfl Nat.one_pos

theorem decisionCounter_not_ueAddr (commit : Bool) : ¬ ueAddr (regDie0 (decisionCounter commit)).addr := by
  cases commit <;> exact regDie0_not_ueAddr (by decide) rfl

/-- A command that waits for the decision of step `t`. -/
def Cmd.waitsFor (t : Nat) (c : Cmd) : Bool := c.begun && isOpcode 0x0081 c.desc && scOp c.desc == 3 && scStep c.desc == t

/-- From `s` to `u` step `t` has been decided. -/
structure State.StepDecided (t : Nat) (commit : Bool) (reasons : Nat) (s u : State) : Prop where
  oldest : u.step.oldest = (t + 1) % 2 ^ 32
  committed : u.step.committed = if commit then some t else s.step.committed
  votes : u.step.votes = s.step.votes.filter fun v => v != t
  journal : ∀ k, k < 8 → (u.updDieOf k).journal = decideJournal t commit (s.updDieOf k).journal
  stands : ∀ i e, s.EndedAs i e → u.EndedAs i e
  ends : ∀ i c, s.cmd? i = some c → c.ending = none → c.waitsFor t = true → u.EndedAs i (waitEnding commit reasons)
  rising : s.regsOk → u.regsOk
  counted : s.regsOk → u.rd (regDie0 (decisionCounter commit)) = (s.rd (regDie0 (decisionCounter commit)) + 1) % 2 ^ 64

theorem State.endWaits_eq (s : State) (t : Nat) (commit : Bool) (reasons : Nat) :
    s.endWaits t commit reasons = s.cmds.foldl (fun u c => if c.waitsFor t then u.finish c.id (waitEnding commit reasons) else u) s := by
  unfold State.endWaits
  congr 1
  funext u c
  simp only [Cmd.waitsFor, Bool.and_eq_true, beq_iff_eq, and_assoc]

/-- The ends of WAITs change commands alone. -/
theorem State.endWaits_rest (s : State) (t : Nat) (commit : Bool) (reasons : Nat) :
    ∃ cmds, s.endWaits t commit reasons = { s with cmds := cmds } := by
  rw [State.endWaits_eq]
  refine List.foldlRecOn s.cmds _ (motive := fun u : State => ∃ cmds, u = { s with cmds := cmds }) ⟨_, rfl⟩ fun u h c _ => ?_
  obtain ⟨cmds, rfl⟩ := h
  exact ite_cases (P := fun u : State => ∃ cmds, u = { s with cmds := cmds }) ⟨_, rfl⟩ ⟨_, rfl⟩

/-- The module with step `t` decided on every die and counted, before its WAITs end. -/
def State.stepCounted (s : State) (t : Nat) (commit : Bool) : State :=
  ((((upTo 8).foldl (State.decideOn t commit) s).swapAll t commit).bump (regDie0 (decisionCounter commit)) 1).setSteps fun x =>
    { x with oldest := (t + 1) % 2 ^ 32, votes := x.votes.filter fun u => u != t, reasons := x.reasons.erase t, voteFrame := none,
             reported := false, committed := if commit then some t else x.committed }

theorem State.decideStep_eq (s : State) (t : Nat) (commit : Bool) (reasons : Nat) : s.decideStep t commit reasons =
    ((s.stepCounted t commit).endWaits t commit reasons).logTrace 0 0x0701 t (reasons + b2n commit * 65536) := rfl

theorem State.swapAll_rest (s : State) (t : Nat) (commit : Bool) : ∃ mem free swaps,
    s.swapAll t commit = { s with mem := mem, freeCount := free, step := { s.step with swaps := swaps } } := by
  obtain ⟨mem, free, eq⟩ := State.SameButMem.foldl (fun (u : State) w => u.swapTerms_sameButMem w commit)
    (s.step.swaps.filter fun w => w.step == t) s
  exact ⟨mem, free, _, congrArg (State.setSteps · _) eq⟩

theorem State.stepCounted_spec (s : State) (t : Nat) (commit : Bool) : (s.stepCounted t commit).cmds = s.cmds
    ∧ (s.stepCounted t commit).step.oldest = (t + 1) % 2 ^ 32
    ∧ (s.stepCounted t commit).step.committed = (if commit then some t else s.step.committed)
    ∧ (s.stepCounted t commit).step.votes = (s.step.votes.filter fun v => v != t)
    ∧ (∀ k, k < 8 → ((s.stepCounted t commit).updDieOf k).journal = decideJournal t commit (s.updDieOf k).journal)
    ∧ (s.regsOk → (s.stepCounted t commit).regsOk
      ∧ (s.stepCounted t commit).rd (regDie0 (decisionCounter commit)) = (s.rd (regDie0 (decisionCounter commit)) + 1) % 2 ^ 64) := by
  have dies := State.decideOn_all t commit (upTo 8) List.nodup_range s
  unfold State.stepCounted
  generalize (upTo 8).foldl (State.decideOn t commit) s = u at dies ⊢
  obtain ⟨mem, free, swaps, eq⟩ := u.swapAll_rest t commit
  rw [eq]
  refine ⟨dies.cmds, rfl, ?_, ?_, fun k hk => (dies.journal k).trans (if_pos (List.mem_range.2 hk)), fun ok => ?_⟩
  · rw [← dies.step]
    rfl
  · rw [← dies.step]
    rfl
  · refine ⟨State.bump_regsOk _ 1 (dies.rising ok), ?_⟩
    rw [← dies.kept ok _ (decisionCounter_not_ueAddr commit)]
    exact State.rd_bump_same (s := u) _ 1 (dies.rising ok)

theorem State.decideStep_decided (s : State) (t : Nat) (commit : Bool) (reasons : Nat) :
    s.StepDecided t commit reasons (s.decideStep t commit reasons) := by
  obtain ⟨cmds, oldest, committed, votes, journal, regs⟩ := s.stepCounted_spec t commit
  rw [State.decideStep_eq]
  generalize s.stepCounted t commit = u at *
  obtain ⟨stands, ends⟩ := State.finishWaits (Cmd.waitsFor t) (waitEnding commit reasons) u.cmds u
  rw [← State.endWaits_eq] at stands ends
  obtain ⟨cmds', waited⟩ := u.endWaits_rest t commit reasons
  generalize u.endWaits t commit reasons = v at *
  have counter (ok : s.regsOk) : (v.logTrace 0 0x0701 t (reasons + b2n commit * 65536)).rd (regDie0 (decisionCounter commit))
      = (s.rd (regDie0 (decisionCounter commit)) + 1) % 2 ^ 64 := by
    have vok : v.regsOk := by
      rw [waited]
      exact (regs ok).1
    rw [State.rd_logTrace vok _ _ _ _ (decisionCounter_inMap commit) (by cases commit <;> decide), waited]
    exact (regs ok).2
  have rising := (State.logTrace_keeps (lp := false) (lq := false) v 0 0x0701 t (reasons + b2n commit * 65536) (.refl ..)).regs
  obtain ⟨_, _, _, logged⟩ := v.logTrace_rest 0 0x0701 t (reasons + b2n commit * 65536)
  rw [logged] at counter rising ⊢
  subst waited
  refine ⟨oldest, committed, votes, journal, fun i e ended => stands i e (.of_cmds_eq cmds ended), fun i c found live waits => ?_,
    fun ok => rising (regs ok).1, counter⟩
  have named : c.id = i := by simpa using List.find?_some found
  subst named
  refine ends c ?_ waits (.inl ⟨c, (State.cmd?_of_cmds_eq cmds c.id).trans found, live⟩)
  rw [cmds]
  exact List.mem_of_find?_eq_some found

/-! ### A decision that is due (R433, R434, R440) -/

/-- Settles O37: the decision's step, and after a skip with SPAN2 the step that follows it. -/
theorem decisionsCommitOrReverse : Obligations.DecisionsCommitOrReverse := by
  intro s d inv due takes
  let marked := s.setSteps fun x => { x with
    last := x.last.map fun x => if x.step = d.step then { x with applied := true } else x
    prev := x.prev.map fun x => if x.step = d.step then { x with applied := true } else x }
  have row (commit : Bool) : s.stepRow commit = if d.commit = commit then s.applyDecision d else s := by
    rw [State.stepRow, due]
  have first := marked.decideStep_decided d.step d.commit d.reasons
  have took : takes (s.applyDecision d) := by
    have waits : ∀ c : Cmd, c.begun = true → isOpcode 0x0081 c.desc = true → scOp c.desc = 3 → scStep c.desc = d.step →
        c.waitsFor d.step = true := fun c begun op wait step => by simp [Cmd.waitsFor, begun, op, wait, step]
    have voted : ∀ v ∈ (marked.decideStep d.step d.commit d.reasons).step.votes, v ∈ s.step.votes ∧ v ≠ d.step := by
      intro v mem
      rw [first.votes] at mem
      obtain ⟨old, other⟩ := List.mem_filter.1 mem
      exact ⟨old, by simpa using other⟩
    cases span : d.span2 with
    | false =>
      have run : s.applyDecision d = marked.decideStep d.step d.commit d.reasons := if_neg (by simp [span])
      rw [run]
      refine ⟨first.oldest.trans (by rw [span]; rfl), first.committed, fun k hk r mem => ?_, voted, fun id c found live begun op wait step =>
        first.ends id c found live (waits c begun op wait step), fun _ => first.counted inv.regs⟩
      rw [first.journal k hk] at mem
      exact committed_of_decided mem
    | true =>
      have second := (marked.decideStep d.step d.commit d.reasons).decideStep_decided ((d.step + 1) % 2 ^ 32) false (2 ^ bitCascade)
      have run : s.applyDecision d = (marked.decideStep d.step d.commit d.reasons).decideStep ((d.step + 1) % 2 ^ 32) false
        (2 ^ bitCascade) := if_pos span
      rw [run]
      refine ⟨second.oldest.trans ?_, second.committed.trans first.committed, fun k hk r mem => ?_, fun v mem => ?_,
        fun id c found live begun op wait step => second.stands _ _ (first.ends id c found live (waits c begun op wait step)),
        fun never => Bool.noConfusion (span.symm.trans never)⟩
      · rw [span, if_pos rfl]
        omega
      · rw [second.journal k hk, first.journal k hk] at mem
        exact committed_kept (fun r mem => committed_of_decided mem) mem
      · rw [second.votes] at mem
        exact voted v (List.mem_filter.1 mem).1
  refine ⟨fun commits => ⟨_, congrArg Host.Outcome.next ((row true).trans (if_pos commits)), took⟩,
    fun commits => congrArg Host.Outcome.next ((row false).trans (if_neg (by simp [commits]))),
    fun skips => ⟨_, congrArg Host.Outcome.next ((row false).trans (if_pos skips)), took⟩,
    fun skips => congrArg Host.Outcome.next ((row true).trans (if_neg (by simp [skips])))⟩

end Sys2Proof.Machine
end

section
/-!
SUPPORT. The difference stream and replicas: records that drain, and releases (R439, R443, R444, R447); the operations of DIGEST_COMPARE
(R449–R452).
-/
set_option Elab.async false
namespace Sys2Proof.Machine

/-! ### RECORD_DRAIN (R439, R443, R447) -/

theorem State.SameButMem.regs {s t : State} (h : s.SameButMem t) : t.regs = s.regs := by obtain ⟨_, _, rfl⟩ := h; rfl

theorem State.SameButMem.rd {s t : State} (h : s.SameButMem t) (r : Reg) : t.rd r = s.rd r := by rw [State.rd, State.rd, h.regs]

theorem State.updUpd_congr {s : State} {d : Nat} {f g : UpdDie → UpdDie} (h : f (s.updDieOf d) = g (s.updDieOf d)) :
    s.updUpd d f = s.updUpd d g := by
  rw [State.updUpd, State.updUpd, Tab.upd_congr h]

/-- Tally takes a digest: registers but TALLY_UPDATES, and what each die holds beside its digests, are as they were. -/
theorem State.tally_rest (s : State) (d tensorId plane block digest : Nat) : ∃ digests, s.tally d tensorId plane block digest =
    (s.updUpd d fun u => { u with digests := digests }).bump (regDie .tallyUpdates d) 1 := by
  unfold State.tally
  dsimp only
  cases found : (s.updDieOf d).digests.get? (regionKey tensorId plane (block / 256)) with
  | none =>
    refine ⟨(s.updDieOf d).digests, congrArg (State.bump · (regDie .tallyUpdates d) 1) (State.updUpd_congr ?_)⟩
    rw [found]
  | some x =>
    refine ⟨(s.updDieOf d).digests.set (regionKey tensorId plane (block / 256)) (x ^^^ digest),
      congrArg (State.bump · (regDie .tallyUpdates d) 1) (State.updUpd_congr ?_)⟩
    rw [found]

/-- A record sent on EXPORT_FLOW changes the fabric alone. -/
theorem State.exportSend_rest (s : State) (bs : List Byte) : ∃ fabric, s.exportSend bs = { s with fabric := fabric } :=
  ite_cases (P := fun t : State => ∃ fabric, t = { s with fabric := fabric }) ⟨_, rfl⟩ ⟨_, rfl⟩

theorem State.drainRecord_idle {s : State} {d : Nat} {r : DiffRec} (oldest : (s.updDieOf d).journal.find? (fun x => x.committed) = some r)
    (idle : s.drainRoom d = false ∨ s.unitOn d 5 = false) : s.drainRecord d = s := by
  unfold State.drainRecord
  dsimp only
  rw [oldest]
  exact if_pos (by simpa [or_comm] using idle)

/-- What a drain of record `r` leaves of `w`, the state with the record in the ring. -/
def State.recordDrained (w : State) (d : Nat) (r : DiffRec) (digests : Tab Nat) (fabric : FabricSt) : State :=
  { ((w.bump (regDie .exportHead d) 1).updUpd d fun u => { u with digests := digests }).bump (regDie .tallyUpdates d) 1 with
    fabric := fabric }.updUpd d fun x => { x with journal := x.journal.filter fun y => y.seq != r.seq }

/-- The record at the front is written to the ring and leaves the journal. -/
theorem State.drainRecord_runs {s : State} {d : Nat} {r : DiffRec} (oldest : (s.updDieOf d).journal.find? (fun x => x.committed) = some r)
    (room : s.drainRoom d = true) (unit : s.unitOn d 5 = true) :
    let a := (s.updDieOf d).ringBase + s.rd (regDie .exportHead d) % ((s.updDieOf d).ringSize / 4160) * 4160
    ∃ digests fabric, s.drainRecord d = (s.writeBytes (s.groupAcc 0 a 4160) a (diffBytes s.node d r)).1.recordDrained d r digests fabric := by
  intro a
  let w := (s.writeBytes (s.groupAcc 0 a 4160) a (diffBytes s.node d r)).1
  obtain ⟨digests, tallied⟩ := (w.bump (regDie .exportHead d) 1).tally_rest d r.tensorId r.plane r.block
    (fieldN (diffBytes s.node d r) 32 16)
  obtain ⟨fabric, sent⟩ := ((w.bump (regDie .exportHead d) 1).tally d r.tensorId r.plane r.block
    (fieldN (diffBytes s.node d r) 32 16)).exportSend_rest (diffBytes s.node d r)
  refine ⟨digests, fabric, ?_⟩
  unfold State.recordDrained
  rw [← tallied, ← sent]
  unfold State.drainRecord
  dsimp only
  rw [oldest]
  exact if_neg (by simp [room, unit])

/-- The other dies keep their records, and this one's journal loses `r`. -/
theorem State.recordDrained_upd (w : State) (d : Nat) (r : DiffRec) (digests : Tab Nat) (fabric : FabricSt) :
    ((w.recordDrained d r digests fabric).updDieOf d).journal = ((w.updDieOf d).journal.filter fun x => x.seq != r.seq)
    ∧ ∀ k, k ≠ d → (w.recordDrained d r digests fabric).updDieOf k = w.updDieOf k := by
  have die (k : Nat) : (w.recordDrained d r digests fabric).updDieOf k = (((w.updUpd d fun u => { u with digests := digests }).updUpd d
    fun x => { x with journal := x.journal.filter fun y => y.seq != r.seq }).updDieOf k) := by
    unfold State.recordDrained
    simp only [State.updDieOf, State.updUpd, State.bump_upd]
  refine ⟨?_, fun k ne => ?_⟩
  · rw [die, State.updUpd_same, State.updUpd_same]
  · rw [die, State.updUpd_other _ _ ne, State.updUpd_other _ _ ne]

/-- EXPORT_HEAD and TALLY_UPDATES advance. -/
theorem State.rd_recordDrained {w : State} (ok : w.regsOk) {d : Nat} (hd : d < 8) (r : DiffRec) (digests : Tab Nat) (fabric : FabricSt) :
    (w.recordDrained d r digests fabric).rd (regDie .exportHead d) = (w.rd (regDie .exportHead d) + 1) % 2 ^ 64
    ∧ (w.recordDrained d r digests fabric).rd (regDie .tallyUpdates d) = (w.rd (regDie .tallyUpdates d) + 1) % 2 ^ 64 := by
  have apart : (regDie .exportHead d).addr ≠ (regDie .tallyUpdates d).addr := addr_ne_of_name ⟨hd, Nat.one_pos⟩ ⟨hd, Nat.one_pos⟩ nofun
  have bumped := State.bump_regsOk (regDie .exportHead d) 1 ok
  have regs (q : Reg) : (w.recordDrained d r digests fabric).rd q = ((w.bump (regDie .exportHead d) 1).bump (regDie .tallyUpdates d) 1).rd q := rfl
  refine ⟨?_, ?_⟩
  · rw [regs, State.rd_bump_other 1 bumped apart, State.rd_bump_same _ 1 ok]
  · rw [regs, State.rd_bump_same _ 1 bumped, State.rd_bump_other 1 ok apart.symm]

/-! ### Releases (R444) -/

theorem State.writeReg_exportRelease {s : State} {d mask : Nat} (taken : s.writable (regDie .exportRelease d) = true) (mask0 : mask ≠ 0)
    (v : Nat) (ok : Option Bool) : s.writeReg (regDie .exportRelease d) mask v ok = s.writeExportRelease (regDie .exportRelease d) v := by
  unfold regDie at taken ⊢
  simp only [State.writeReg, taken, Bool.not_true, Bool.false_eq_true, if_false, mask0]

theorem State.writeReg_foreignRelease {s : State} {d mask : Nat} (taken : s.writable (regDie .foreignRelease d) = true) (mask0 : mask ≠ 0)
    (v : Nat) (ok : Option Bool) : s.writeReg (regDie .foreignRelease d) mask v ok = s.writeForeignRelease (regDie .foreignRelease d) v := by
  unfold regDie at taken ⊢
  simp only [State.writeReg, taken, Bool.not_true, Bool.false_eq_true, if_false, mask0]

theorem State.releaseOk_iff (s : State) (n h : RegName) (d v : Nat) :
    s.releaseOk (regDie n d) h v = true ↔ s.rd (regDie n d) ≤ v ∧ v ≤ s.rd (regDie h d) := by
  exact (Bool.and_eq_true_iff).trans (and_congr decide_eq_true_iff decide_eq_true_iff)

/-- From `s` to `t` the register holds `v`, and no other register and nothing beside an updater's record has changed. -/
structure State.Released (r : Reg) (v : Nat) (s t : State) : Prop where
  value : t.rd r = v
  others : ∀ q : Reg, q.inMap → q ≠ r → t.rd q = s.rd q
  rest : { t with regs := s.regs, upd := s.upd } = s

theorem State.Released.wr {s : State} (ok : s.regsOk) {r : Reg} (hr : r.inMap) (v : Nat) (upd : Tab UpdDie) :
    State.Released r v s { s.wr r v with upd := upd } :=
  ⟨State.rd_wr_same r v ok, fun _ hq ne => (State.rd_wr hr hq v ok).trans (if_neg ne), rfl⟩

/-- A write to a release register: ignored outside what is appended and not released, taken within it. -/
theorem State.writeExportRelease_spec {s : State} (ok : s.regsOk) {d : Nat} (hd : d < 8) (v : Nat) :
    (¬ (s.rd (regDie .exportRelease d) ≤ v ∧ v ≤ s.rd (regDie .exportHead d)) → s.writeExportRelease (regDie .exportRelease d) v = s)
    ∧ (s.rd (regDie .exportRelease d) ≤ v ∧ v ≤ s.rd (regDie .exportHead d) →
      State.Released (regDie .exportRelease d) v s (s.writeExportRelease (regDie .exportRelease d) v)) := by
  have reading := s.releaseOk_iff .exportRelease .exportHead d v
  refine ⟨fun outside => if_pos (by simpa [← reading] using outside), fun within => ?_⟩
  unfold State.writeExportRelease
  rw [if_neg (by simp [reading.2 within])]
  split
  · rename_i same
    exact ⟨same.symm, fun _ _ _ => rfl, rfl⟩
  · exact .wr ok ⟨hd, Nat.one_pos⟩ v _

theorem State.writeForeignRelease_spec {s : State} (ok : s.regsOk) {d : Nat} (hd : d < 8) (v : Nat) :
    (¬ (s.rd (regDie .foreignRelease d) ≤ v ∧ v ≤ s.rd (regDie .foreignHead d)) → s.writeForeignRelease (regDie .foreignRelease d) v = s)
    ∧ (s.rd (regDie .foreignRelease d) ≤ v ∧ v ≤ s.rd (regDie .foreignHead d) →
      State.Released (regDie .foreignRelease d) v s (s.writeForeignRelease (regDie .foreignRelease d) v)) := by
  have reading := s.releaseOk_iff .foreignRelease .foreignHead d v
  refine ⟨fun outside => if_neg (by simpa [← reading] using outside), fun within => ?_⟩
  unfold State.writeForeignRelease
  rw [if_pos (reading.2 within)]
  exact .wr ok ⟨hd, Nat.one_pos⟩ v s.upd

/-- Settles O38: the journal's front by whether it can drain, and each release register by its range. -/
theorem committedRecordsDrainIntoTheRing : Obligations.CommittedRecordsDrainIntoTheRing := by
  intro s d r inv hd u
  refine ⟨fun oldest idle => congrArg Host.Outcome.next (State.drainRecord_idle oldest idle), fun oldest room unit => ?drain,
    fun secure v n h i ready fits mem acc => ?release⟩
  case drain =>
    intro a
    have written := s.writeBytes_sameButMem (s.groupAcc 0 a 4160) a (diffBytes s.node d r)
    obtain ⟨digests, fabric, run⟩ := State.drainRecord_runs oldest room unit
    refine ⟨_, congrArg Host.Outcome.next run, ?_⟩
    have ok := inv.regs
    have same (q : Reg) := written.rd q
    have upd := written.upd
    rw [State.regsOk, ← written.regs] at ok
    generalize (s.writeBytes (s.groupAcc 0 a 4160) a (diffBytes s.node d r)).1 = w at *
    have die (k : Nat) : w.updDieOf k = s.updDieOf k := by rw [State.updDieOf, State.updDieOf, upd]
    obtain ⟨journal, others⟩ := w.recordDrained_upd d r digests fabric
    obtain ⟨head, tally⟩ := State.rd_recordDrained ok hd r digests fabric
    exact ⟨journal.trans (by rw [die]), rfl, head.trans (by rw [same]), tally.trans (by rw [same]),
      fun k ne => (others k ne).trans (die k)⟩
  case release =>
    have all : (2 : Nat) ^ 64 - 1 ≠ 0 := by decide
    obtain ⟨rfl, rfl, rfl⟩ | ⟨rfl, rfl, rfl⟩ : (n = .exportRelease ∧ h = .exportHead ∧ i = .exportRelease secure d v)
        ∨ (n = .foreignRelease ∧ h = .foreignHead ∧ i = .foreignRelease secure d v) := by simpa using mem
    · have run : exec (.exportRelease secure d v) s = .next (s.writeExportRelease (regDie .exportRelease d) v) :=
        congrArg Host.Outcome.next ((acc.writeReg_eq rfl fits).trans (State.writeReg_exportRelease acc.taken all ..))
      obtain ⟨ignored, taken⟩ := State.writeExportRelease_spec inv.regs hd v
      refine ⟨fun outside => run.trans (congrArg _ (ignored (by omega))), fun low high => ⟨_, run, ?_⟩⟩
      obtain ⟨value, others, rest⟩ := taken ⟨low, high⟩
      exact ⟨value, others, rest⟩
    · have run : exec (.foreignRelease secure d v) s = .next (s.writeForeignRelease (regDie .foreignRelease d) v) :=
        congrArg Host.Outcome.next ((acc.writeReg_eq rfl fits).trans (State.writeReg_foreignRelease acc.taken all ..))
      obtain ⟨ignored, taken⟩ := State.writeForeignRelease_spec inv.regs hd v
      refine ⟨fun outside => run.trans (congrArg _ (ignored (by omega))), fun low high => ⟨_, run, ?_⟩⟩
      obtain ⟨value, others, rest⟩ := taken ⟨low, high⟩
      exact ⟨value, others, rest⟩

end Sys2Proof.Machine
end

section
/-! SUPPORT. Replicas: the operations of DIGEST_COMPARE (R449–R452). -/
set_option Elab.async false
namespace Sys2Proof.Machine

/-! ### Folds and readers that meet no error -/

/-- A fold that every element leaves where it is. -/
theorem foldl_ok_self {α : Type} {f : Except AccErr State → α → Except AccErr State} {s : State} {l : List α}
    (step : ∀ a ∈ l, f (.ok s) a = .ok s) : l.foldl f (.ok s) = .ok s :=
  List.foldlRecOn l f (motive := (· = .ok s)) rfl fun r h a mem => by rw [h, step a mem]

theorem mapE_ok {α β : Type} {f : α → Except AccErr β} {g : α → β} {l : List α} (reads : ∀ a ∈ l, f a = .ok (g a)) :
    mapE f l = .ok (l.map g) := by
  induction l with
  | nil => rfl
  | cons a l ih =>
    rw [mapE, reads a List.mem_cons_self, ih fun b mem => reads b (List.mem_cons_of_mem _ mem)]
    rfl

/-! ### SNAP (R449, R450) -/

/-- A scan of a die whose regions all have a digest takes nothing. -/
theorem State.scanDie_set {s : State} {d : Nat}
    (set : ∀ x ∈ s.regionsOf d, ((s.updDieOf d).digests.get? (regionKey x.1 x.2.1 x.2.2)).isSome = true) : s.scanDie d = .ok s :=
  foldl_ok_self fun x mem => if_pos (set x mem)

/-- A SNAP of a committed step, none committed after it and its records drained, once every region has a digest. -/
theorem State.snapStep_set {s : State} {c : Cmd} {reasons : Nat} (committed : s.decisionOf (dcStep c.desc) = some (true, reasons))
    (last : s.committedAfter (dcStep c.desc) = false) (drained : s.drainsLeft (dcStep c.desc) = false)
    (set : ∀ k, k < 8 → (s.die k).inService = true → ∀ x ∈ s.regionsOf k,
      ((s.updDieOf k).digests.get? (regionKey x.1 x.2.1 x.2.2)).isSome = true) : s.snapStep c = s.snapResult c := by
  unfold State.snapStep
  dsimp only
  rw [committed]
  dsimp only
  rw [if_neg (by simp [last]), if_neg (by simp [drained]), foldl_ok_self]
  intro d mem
  obtain ⟨small, serves⟩ := List.mem_filter.1 mem
  exact State.scanDie_set (set d (List.mem_range.1 small) serves)

theorem State.snapStep_skipped {s : State} {c : Cmd} {reasons : Nat} (skipped : s.decisionOf (dcStep c.desc) = some (false, reasons)) :
    s.snapStep c = s.finish c.id Status.stepSkipped.plain := by
  unfold State.snapStep
  dsimp only
  rw [skipped]

theorem State.snapStep_undecided {s : State} {c : Cmd} (undecided : s.decisionOf (dcStep c.desc) = none)
    (open' : s.decided (dcStep c.desc) = false) (last : s.committedAfter (dcStep c.desc) = false) :
    s.snapStep c = s.updCmd c.id fun x => { x with begun := true } := by
  unfold State.snapStep
  dsimp only
  rw [undecided]
  exact if_neg (by simp [open', last])

theorem State.snapStep_draining {s : State} {c : Cmd} {reasons : Nat} (committed : s.decisionOf (dcStep c.desc) = some (true, reasons))
    (last : s.committedAfter (dcStep c.desc) = false) (left : s.drainsLeft (dcStep c.desc) = true) :
    s.snapStep c = s.updCmd c.id fun x => { x with begun := true } := by
  unfold State.snapStep
  dsimp only
  rw [committed]
  exact (if_neg (by simp [last])).trans (if_pos left)

/-- The result of a SNAP, where it fits its buffer. -/
theorem State.snapResult_fits {s : State} {c : Cmd} (large : 64 + 24 * s.moduleDigests.length ≤ u64 c.desc 48)
    {w : State × Option AccErr} (wrote : s.writeBytes (s.dcAcc c.id (u64 c.desc 40) (64 + 24 * s.moduleDigests.length)) (u64 c.desc 40)
      (record 64 [(0, 4, dcStep c.desc), (8, 8, s.moduleDigests.length), (16, 16, s.moduleDigests.vals.foldl (fun a x => a ^^^ x) 0)]
        ++ (s.moduleDigests.map snapEntry).flatten) = w) (whole : w.2 = none) : s.snapResult c = w.1.finish c.id Status.ok.plain := by
  unfold State.snapResult
  dsimp only
  rw [if_neg (Nat.not_lt.2 large), wrote, whole]

/-! ### BLOCKS and REPAIR (R451) -/

/-- The digest BLOCKS writes for its `k`th block: 0 where the group does not hold it. -/
def blocksDigest (g : GRec) (d : List Byte) (b0 n : Nat) (held : Nat → List Byte) (k : Nat) : Nat :=
  if b0 ≤ 256 * dcIndex d + k ∧ 256 * dcIndex d + k < b0 + n then blockDigest g.tensorId (dcPlane d) (256 * dcIndex d + k) (held k) else 0

theorem State.blocks_ok {s : State} {c : Cmd} {g : GRec} {b0 n a : Nat} (plane : s.dcPlaneOf c.desc = .ok (g, b0, n, a))
    {held : Nat → List Byte} (reads : ∀ k, k < 256 → b0 ≤ 256 * dcIndex c.desc + k → 256 * dcIndex c.desc + k < b0 + n →
      s.readBytes (s.groupAcc g.ctx (a + 4096 * (256 * dcIndex c.desc + k - b0)) 4096) (a + 4096 * (256 * dcIndex c.desc + k - b0)) 4096
        = .ok (held k))
    (written : (s.writeBytes (s.dcAcc c.id (u64 c.desc 40) 4096) (u64 c.desc 40)
      ((upTo 256).map fun k => leBytes 16 (blocksDigest g c.desc b0 n held k)).flatten).2 = none) :
    s.blocks c = (s.writeBytes (s.dcAcc c.id (u64 c.desc 40) 4096) (u64 c.desc 40)
      ((upTo 256).map fun k => leBytes 16 (blocksDigest g c.desc b0 n held k)).flatten).1.finish c.id Status.ok.plain := by
  unfold State.blocks
  dsimp only
  rw [plane]
  dsimp only
  rw [mapE_ok (g := blocksDigest g c.desc b0 n held)]
  · dsimp only
    rw [List.map_map]
    unfold Function.comp
    rw [written]
  · intro k mem
    unfold blocksDigest
    by_cases inside : b0 ≤ 256 * dcIndex c.desc + k ∧ 256 * dcIndex c.desc + k < b0 + n
    · rw [if_neg (by omega), reads k (List.mem_range.1 mem) inside.1 inside.2, if_pos inside]
    · rw [if_pos (by omega), if_neg inside]

/-- The record a REPAIR adds to the journal. -/
def repairRec (d : List Byte) (g : GRec) (p step : Nat) (delta : List Byte) (seq : Nat) : DiffRec :=
  { seq, step, group := dcGroup d, plane := dcPlane d, repair := true, tensorId := g.tensorId, block := dcIndex d, addr := p, ctx := g.ctx,
    delta, committed := true }

/-- A REPAIR of a block of the group, whose bytes can be read, with room for its record. -/
theorem State.repairBlock_ok {s : State} {c : Cmd} {g : GRec} {b0 n a : Nat} (plane : s.dcPlaneOf c.desc = .ok (g, b0, n, a))
    (low : b0 ≤ dcIndex c.desc) (high : dcIndex c.desc < b0 + n)
    (room : (s.updDieOf (dcDie c.desc)).owed < (s.updDieOf (dcDie c.desc)).capacity) {new old : List Byte}
    (source : s.readBytes (s.dcAcc c.id (u64 c.desc 64) 4096) (u64 c.desc 64) 4096 = .ok new)
    (held : s.readBytes (s.groupAcc g.ctx (a + 4096 * (dcIndex c.desc - b0)) 4096) (a + 4096 * (dcIndex c.desc - b0)) 4096 = .ok old)
    {w : State × Option AccErr}
    (wrote : s.writeBytes (s.groupAcc g.ctx (a + 4096 * (dcIndex c.desc - b0)) 4096) (a + 4096 * (dcIndex c.desc - b0)) new = w)
    (whole : w.2 = none) : s.repairBlock c = (w.1.free.2.journalPut (dcDie c.desc) fun seq => repairRec c.desc g
      (a + 4096 * (dcIndex c.desc - b0)) (w.1.step.committed.getD (w.1.free.1 % 2 ^ 32)) (xorBytes old new) seq).finish c.id
        Status.ok.plain := by
  simp only [repairRec]
  unfold State.repairBlock
  dsimp only
  rw [plane]
  dsimp only
  rw [if_neg (by omega), if_neg (by omega)]
  generalize a + 4096 * (dcIndex c.desc - b0) = p at *
  rw [source, held]
  dsimp only
  rw [wrote, whole]
  simp only [State.free]

/-- A record appended to a journal: the record and its number. -/
theorem State.journalPut_journal (s : State) (d : Nat) (f : Nat → DiffRec) :
    ((s.journalPut d f).updDieOf d).journal = (s.updDieOf d).journal ++ [f (s.rd (regDie .journalSeq d))] := by
  unfold State.journalPut
  rw [State.updDieOf, State.bump_upd, ← State.updDieOf, State.updUpd_same]

/-- A REPAIR that has written its block ends with its record at the journal's end. -/
theorem State.repaired {s v : State} (wrote : s.SameButMem v) {id : CmdId} (live : s.Unended id) (d : Nat) (f : Nat → DiffRec) :
    ((v.free.2.journalPut d f).finish id Status.ok.plain).EndedAs id Status.ok.plain
    ∧ ((v.free.2.journalPut d f).finish id Status.ok.plain).mem = v.mem
    ∧ (((v.free.2.journalPut d f).finish id Status.ok.plain).updDieOf d).journal
      = (s.updDieOf d).journal ++ [f (s.rd (regDie .journalSeq d))] := by
  have held : v.free.2.updDieOf d = s.updDieOf d := (State.Touched.ofMem wrote).updDieOf d
  have seq : v.free.2.rd (regDie .journalSeq d) = s.rd (regDie .journalSeq d) := wrote.rd _
  refine ⟨(live.sameCmds (State.Touched.ofMem wrote).cmds).finish _, rfl, ?_⟩
  rw [← held, ← seq, State.updDieOf, State.finish_upd, ← State.updDieOf]
  exact State.journalPut_journal ..

/-! ### ROLLBACK (R452) -/

/-- Every record in the journals is uncommitted. -/
theorem State.noneCommitted {s : State} (none : ∀ u ∈ s.upd.vals, ∀ r ∈ u.journal, r.committed = false) :
    ¬ (s.upd.vals.any fun u => u.journal.any fun r => r.committed) = true := by
  simpa using none

theorem State.rollback_late {s : State} {c : Cmd} (none : ∀ u ∈ s.upd.vals, ∀ r ∈ u.journal, r.committed = false) {k u : Nat} (small : k < 8)
    (serves : (s.die k).inService = true) (released : (s.updDieOf k).releasedStep = some u) (after : stepAfter u (dcStep c.desc) = true) :
    s.rollback c = s.finish c.id (formatViol 36).ending := by
  unfold State.rollback
  dsimp only
  rw [if_neg (State.noneCommitted none)]
  refine if_pos ?_
  exact List.any_eq_true.2 ⟨k, List.mem_filter.2 ⟨List.mem_range.2 small, serves⟩, by rw [released, Option.any_some]; exact after⟩

/-- The steps after a ROLLBACK to step `t`. -/
def State.rolledBack (s : State) (t : Nat) : State :=
  s.setSteps fun x => { x with oldest := (t + 1) % 2 ^ 32, committed := some t, voteFrame := none, reported := false }

theorem State.rollback_empty {s : State} {c : Cmd} (none : ∀ u ∈ s.upd.vals, ∀ r ∈ u.journal, r.committed = false)
    (early : ∀ k u, k < 8 → (s.die k).inService = true → (s.updDieOf k).releasedStep = some u → stepAfter u (dcStep c.desc) = false)
    (empty : ∀ k, k < 8 → (s.die k).inService = true → s.ringAfter k (dcStep c.desc) = .ok []) :
    s.rollback c = (s.rolledBack (dcStep c.desc)).finish c.id Status.ok.plain := by
  have none' : ¬ (((upTo 8).filter fun d => (s.die d).inService).any fun d =>
      (s.updDieOf d).releasedStep.any fun u => stepAfter u (dcStep c.desc)) = true := by
    intro some
    obtain ⟨k, mem, late⟩ := List.any_eq_true.1 some
    obtain ⟨small, serves⟩ := List.mem_filter.1 mem
    obtain ⟨u, released, after⟩ := (Option.any_eq_true ..).1 late
    rw [early k u (List.mem_range.1 small) serves released] at after
    exact Bool.noConfusion after
  unfold State.rollback
  dsimp only
  rw [if_neg (State.noneCommitted none), if_neg none', foldl_ok_self]
  · rfl
  · intro k mem
    obtain ⟨small, serves⟩ := List.mem_filter.1 mem
    dsimp only
    rw [empty k (List.mem_range.1 small) serves]
    rfl

/-- Settles O39: the four operations, each at what it waits for, refuses and writes. -/
theorem replicasAreComparedAndRepaired : Obligations.ReplicasAreComparedAndRepaired := by
  intro s id c _ runs d t i waits
  obtain rfl : c.id = id := runs.id_eq
  have snap (op : dcOp d = 0) : exec i s = .next (s.snapStep c) := by
    have named : i = .snap c.id := by simp only [i, op]
    rw [named]
    exact congrArg Host.Outcome.next (State.onCmd_of_operation runs op _)
  have blocks (op : dcOp d = 1) : exec i s = .next (s.whenDecided c.id (s.blocks c)) := by
    have named : i = .blocks c.id := by simp only [i, op]
    rw [named]
    exact congrArg Host.Outcome.next (State.onCmd_of_operation runs op _)
  have repair (op : dcOp d = 2) : exec i s = .next (s.whenDecided c.id (s.repairBlock c)) := by
    have named : i = .repair c.id := by simp only [i, op]
    rw [named]
    exact congrArg Host.Outcome.next (State.onCmd_of_operation runs op _)
  have rollback (op : dcOp d = 3) : exec i s = .next (s.whenDecided c.id (s.rollback c)) := by
    have named : i = .rollback c.id := by simp only [i, op]
    rw [named]
    exact congrArg Host.Outcome.next (State.onCmd_of_operation runs op _)
  have settled (none : s.anyUndecided = false) (u : State) : s.whenDecided c.id u = u := if_neg (by simp [none])
  refine ⟨fun op reasons skipped => ?skipped, fun op undecided open' last => ?undecided, fun op reasons committed last => ⟨fun left => ?left,
    fun drained set => ⟨fun small => ?small, fun large => ?written⟩⟩, fun op undecided => ?waits, fun none op g b0 n a plane =>
    ⟨fun op held reads => ?blocks, fun op outside => ?outside, fun op low high room => ?repair⟩,
    fun op none uncommitted => ⟨fun late => ?late, fun early empty => ?rolled⟩⟩
  case skipped => exact (snap op).trans (congrArg _ (State.snapStep_skipped skipped))
  case undecided => exact (snap op).trans (congrArg _ (State.snapStep_undecided undecided open' last))
  case left => exact (snap op).trans (congrArg _ (State.snapStep_draining committed last left))
  case small => exact (snap op).trans (congrArg _ ((State.snapStep_set committed last drained set).trans (if_pos small)))
  case written =>
    intro head w written
    exact (snap op).trans (congrArg _ ((State.snapStep_set committed last drained set).trans (State.snapResult_fits large rfl written)))
  case waits =>
    obtain op | op | op := op
    · exact (blocks op).trans (congrArg _ (if_pos undecided))
    · exact (repair op).trans (congrArg _ (if_pos undecided))
    · exact (rollback op).trans (congrArg _ (if_pos undecided))
  case blocks =>
    intro digest w written
    exact (blocks op).trans (congrArg _ ((settled none _).trans (State.blocks_ok plane reads written)))
  case outside =>
    refine (repair op).trans (congrArg _ ((settled none _).trans ?_))
    unfold State.repairBlock
    dsimp only
    rw [plane]
    exact if_pos outside
  case repair =>
    intro p new old source held w whole
    have run := State.repairBlock_ok plane low high room source held rfl whole
    have wrote := s.writeBytes_sameButMem (s.groupAcc g.ctx p 4096) p new
    obtain ⟨ended, memory, journal⟩ := State.repaired wrote runs.unended (dcDie d) fun seq =>
      repairRec d g p (w.1.step.committed.getD (w.1.free.1 % 2 ^ 32)) (xorBytes old new) seq
    refine ⟨_, _, (repair op).trans (congrArg _ ((settled none _).trans run)), ended, memory, journal, rfl, rfl, rfl, rfl, rfl, rfl,
      rfl, rfl, fun t0 last => ?_⟩
    change w.1.step.committed.getD _ = t0
    rw [(State.Touched.ofMem wrote).step, last]
    rfl
  case late =>
    obtain ⟨k, u, small, serves, released, after⟩ := late
    exact (rollback op).trans (congrArg _ ((settled none _).trans (State.rollback_late uncommitted small serves released after)))
  case rolled =>
    refine ⟨_, (rollback op).trans (congrArg _ ((settled none _).trans (State.rollback_empty uncommitted early empty))), ?_⟩
    exact ⟨State.Unended.finish (s := s.rolledBack (dcStep c.desc)) (runs.unended.sameCmds rfl) _, rfl, rfl, rfl⟩

end Sys2Proof.Machine
end

section
/-!
SUPPORT. Staged gradient blocks (R407, R418, R422, R437, R438): what the application of a block leaves of the staging area, and a
skipped zero block.
-/
set_option Elab.async false
namespace Sys2Proof.Machine

/-! ### The staging area -/

/-- The blocks that wait in a die's staging area. -/
def State.waiting (s : State) (d : Nat) : List Staged := (s.updDieOf d).staged

theorem State.waiting_congr {s t : State} (h : t.upd = s.upd) (d : Nat) : t.waiting d = s.waiting d := by
  rw [State.waiting, State.waiting, State.updDieOf, State.updDieOf, h]

/-- A change of a die's record that keeps its staging area. -/
theorem State.updUpd_waiting (s : State) (k : Nat) {f : UpdDie → UpdDie} (same : ∀ u, (f u).staged = u.staged) (d : Nat) :
    (s.updUpd k f).waiting d = s.waiting d := by
  by_cases here : d = k
  · subst here
    rw [State.waiting, State.updUpd_same, same, ← State.waiting]
  · rw [State.waiting, State.updUpd_other s f here, ← State.waiting]

section
variable (d : Nat)

theorem State.updUStep_waiting (s : State) (k g t : Nat) (f : UStep → UStep) : (s.updUStep k g t f).waiting d = s.waiting d := by
  refine s.updUpd_waiting k (fun u => ?_) d
  split <;> rfl

theorem State.raise_upd (s : State) (t bit : Nat) : (s.raise t bit).upd = s.upd :=
  ite_cases (P := fun u : State => u.upd = s.upd) rfl rfl

theorem State.updRaise_waiting (s : State) (k g t bit : Nat) : (s.updRaise k g t bit).waiting d = s.waiting d :=
  (State.waiting_congr (State.raise_upd ..) d).trans (State.updUStep_waiting ..)

theorem State.ueReport_waiting (s : State) (a : Nat) : (s.ueReport a).waiting d = s.waiting d :=
  State.waiting_congr (State.Touched.ueReport s a).upd d

theorem State.putPlane_waiting (s : State) (ctx a : Nat) (bs : List Byte) : (s.putPlane ctx a bs).1.waiting d = s.waiting d :=
  State.waiting_congr (s.writeBytes_sameButMem ..).upd d

theorem State.journalPut_waiting (s : State) (k : Nat) (f : Nat → DiffRec) : (s.journalPut k f).waiting d = s.waiting d := by
  refine (State.waiting_congr (State.bump_upd ..) d).trans (s.updUpd_waiting k (fun u => ?_) d)
  rfl

theorem State.pmc_waiting (s : State) (die kind inst ev : Nat) (ctx : Option Nat) (n : Nat) :
    (s.pmc die kind inst ev ctx n).waiting d = s.waiting d := by
  obtain ⟨regs, eq⟩ := s.pmc_sameButRegs die kind inst ev ctx n
  exact State.waiting_congr (congrArg State.upd eq) d

/-- A fold whose steps keep the staging area keeps it. -/
theorem State.foldl_waiting {α : Type} {f : State → α → State} (step : ∀ t a, (f t a).waiting d = t.waiting d) (l : List α) (s : State) :
    (l.foldl f s).waiting d = s.waiting d :=
  List.foldlRecOn l f (motive := fun t => t.waiting d = s.waiting d) rfl fun t ht a _ => (step t a).trans ht

theorem State.foldl_waiting_fst {α β : Type} {f : State × β → α → State × β} (step : ∀ w a, (f w a).1.waiting d = w.1.waiting d)
    (l : List α) (w : State × β) : (l.foldl f w).1.waiting d = w.1.waiting d :=
  List.foldlRecOn l f (motive := fun v => v.1.waiting d = w.1.waiting d) rfl fun v hv a _ => (step v a).trans hv

theorem State.foldl_ok_waiting {ε α : Type} {f : Except ε State → α → Except ε State} {s : State}
    (step : ∀ r a, (∀ u, r = .ok u → u.waiting d = s.waiting d) → ∀ u, f r a = .ok u → u.waiting d = s.waiting d) (l : List α)
    {r : Except ε State} (start : ∀ u, r = .ok u → u.waiting d = s.waiting d) : ∀ u, l.foldl f r = .ok u → u.waiting d = s.waiting d :=
  List.foldlRecOn l f (motive := fun r => ∀ u, r = .ok u → u.waiting d = s.waiting d) start fun r hr a _ => step r a hr

variable {d}

/-! ### Stages 4 to 8 keep the staging area -/

theorem State.keepBefore_waiting {s u : State} {k gi t plane j : Nat} {g : GRec} (h : s.keepBefore k gi t g plane j = .ok u) :
    u.waiting d = s.waiting d := by
  unfold State.keepBefore at h
  split at h
  · cases h; rfl
  · split at h
    · cases h; rfl
    · dsimp only at h
      split at h
      · cases h
      · cases h; exact State.updUStep_waiting ..

theorem State.keepAll_waiting {s u : State} {k gi t lo hi : Nat} {g : GRec} (h : s.keepAll k gi t g lo hi = .ok u) :
    u.waiting d = s.waiting d := by
  refine State.foldl_ok_waiting d (fun r p hr => State.foldl_ok_waiting d (fun r j hr v hv => ?_) _ hr) _ (fun v hv => ?_) u h
  · split at hv
    · cases hv
    · exact (State.keepBefore_waiting hv).trans (hr _ rfl)
  · cases hv; rfl

theorem State.emit_waiting (s : State) (k gi t : Nat) (g : GRec) : (s.emit k gi t g).waiting d = s.waiting d := by
  unfold State.emit
  split
  · rfl
  · refine State.foldl_waiting d (fun u e => ?_) _ s
    refine ite_cases (P := fun v : State => v.waiting d = u.waiting d) rfl ?_
    dsimp only
    split
    · exact State.updUStep_waiting ..
    · exact ite_cases (P := fun v : State => v.waiting d = u.waiting d) (State.updUStep_waiting ..)
        ((State.journalPut_waiting ..).trans (State.updUStep_waiting ..))

theorem State.readSched_waiting (s : State) (k gi t : Nat) : (s.readSched k gi t).1.waiting d = s.waiting d := by
  unfold State.readSched
  split
  · rfl
  · split
    · rfl
    · split
      · rfl
      · split
        · exact (State.updRaise_waiting ..).trans (State.ueReport_waiting ..)
        · exact State.updRaise_waiting ..
        · exact State.updRaise_waiting ..
        · exact State.updUStep_waiting ..

theorem State.applyMap_waiting (s : State) (k gi t : Nat) (g : GRec) (addr : Nat) : (s.applyMap k gi t g addr).1.waiting d = s.waiting d := by
  unfold State.applyMap
  dsimp only
  split
  · rfl
  · refine State.foldl_waiting_fst d (fun w i => ?_) _ _
    split
    · rfl
    · split
      · rfl
      · rename_i v kept
        refine (State.foldl_waiting_fst d (fun w p => ?_) _ (v, none)).trans (State.keepAll_waiting kept)
        exact State.putPlane_waiting ..

theorem State.runRule_waiting (s : State) (k gi t : Nat) (g : UGroup) (u : UStep) (lo : Nat) (xs : List FVal) (idle : Nat → Bool) :
    (s.runRule k gi t g u lo xs idle).1.waiting d = s.waiting d := by
  unfold State.runRule
  dsimp only
  split
  · split
    · rfl
    · rename_i v kept
      refine Eq.trans (State.foldl_waiting_fst d (fun w p => State.foldl_waiting_fst d (fun w i => ?_) _ w) _ (v, none))
        (State.keepAll_waiting (s := { s with freeCount := s.freeCount + xs.length }) kept)
      split
      · rfl
      · exact State.putPlane_waiting ..
  all_goals rfl

theorem State.tileStats_waiting (s : State) (r : GRec) (g : UGroup) (t j : Nat) (gm : Mat) :
    (s.tileStats r g t j gm).1.waiting d = s.waiting d := by
  unfold State.tileStats
  dsimp only
  split
  · rfl
  · split
    · rw [State.putPlane_waiting, State.putPlane_waiting]
    all_goals rfl

theorem State.applyTile_waiting (s : State) (k gi t : Nat) (g : UGroup) (u : UStep) (j : Nat) (idle : Nat → Bool) :
    (s.applyTile k gi t g u j idle).1.waiting d = s.waiting d := by
  unfold State.applyTile
  dsimp only
  split
  · rfl
  · split
    · rename_i q v _ kept
      have ruled := (State.runRule_waiting v k gi t g u (4096 * j) q.flatten idle).trans (State.keepAll_waiting (d := d) kept)
      split
      · exact ruled
      · exact (State.tileStats_waiting ..).trans ruled
    all_goals rfl

theorem State.settleReady_waiting (s : State) (k gi : Nat) : (s.settleReady k gi).waiting d = s.waiting d := by
  refine s.updUpd_waiting k (fun u => ?_) d
  split <;> rfl

/-- Stages 6 to 8 of a block, whatever they meet, leave the staging area as it is. -/
theorem State.applyBlock_waiting (s : State) (k gi t lo : Nat) (bits : List Nat) (zero : Bool) :
    (s.applyBlock k gi t lo bits zero).waiting d = s.waiting d := by
  unfold State.applyBlock
  have read := s.readSched_waiting (d := d) k gi t
  generalize s.readSched k gi t = sched at read ⊢
  obtain ⟨s1, _ | _⟩ := sched
  case false => exact read
  case true =>
    dsimp -zeta only at read ⊢
    split
    · exact read
    · extract_lets r u fail m mapped n skip idleNow
      have failed : ∀ (v : State) e, v.waiting d = s.waiting d → (fail v e).waiting d = s.waiting d := fun v e hv => by
        refine (State.updRaise_waiting ..).trans ?_
        split
        · exact (State.ueReport_waiting ..).trans hv
        · exact hv
      have mapped' : mapped.1.waiting d = s.waiting d :=
        ite_cases (P := fun w : State × Option AccErr => w.1.waiting d = s.waiting d)
          ((State.updUStep_waiting ..).trans ((State.applyMap_waiting ..).trans read)) read
      clear_value mapped fail
      obtain ⟨v, _ | e⟩ := mapped
      case some => exact failed _ _ mapped'
      dsimp -zeta only at mapped' ⊢
      extract_lets w0 u2 full a res
      have done' : res.1.waiting d = s.waiting d := by
        refine Eq.trans (ite_cases (P := fun w : State × Option AccErr × List (Nat × Nat) => w.1.waiting d = v.waiting d) ?_
          (ite_cases (P := fun w : State × Option AccErr × List (Nat × Nat) => w.1.waiting d = v.waiting d) rfl
            (State.runRule_waiting ..))) mapped'
        refine (State.foldl_waiting_fst d (fun w j => ?_) _ _).trans (State.updUStep_waiting ..)
        exact ite_cases (P := fun w' : State × Option AccErr × List (Nat × Nat) => w'.1.waiting d = w.1.waiting d) rfl
          ((State.updUStep_waiting ..).trans (State.applyTile_waiting ..))
      clear_value res
      obtain ⟨w, _ | e, done⟩ := res
      case some => exact failed _ _ done'
      dsimp -zeta only at done' ⊢
      extract_lets j w1 w2 w3
      have counted : w2.waiting d = s.waiting d := (State.pmc_waiting ..).trans ((State.waiting_congr (State.bump_upd ..) d).trans
        ((State.emit_waiting ..).trans ((State.updUStep_waiting ..).trans done')))
      refine (State.settleReady_waiting ..).trans ?_
      exact ite_cases (P := fun w' : State => w'.waiting d = s.waiting d) ((State.waiting_congr (State.bump_upd ..) d).trans counted) counted

end

/-! ### A skipped zero block (R418) -/

theorem UGroup.step?_updStep {g : UGroup} {t : Nat} {u : UStep} (found : g.step? t = some u) {f : UStep → UStep}
    (same : ∀ x, (f x).step = x.step) : (g.updStep t f).step? t = some (f u) := by
  have named : u.step = t := by simpa using List.find?_some found
  have mem := List.mem_of_find?_eq_some found
  have keeps : ((fun x : UStep => x.step == t) ∘ fun x => if x.step = t then f x else x) = fun x => x.step == t := by
    funext x
    by_cases here : x.step = t <;> simp [here, same]
  have there : (g.steps.any fun x => x.step == t) = true := List.any_eq_true.2 ⟨u, mem, beq_iff_eq.2 named⟩
  rw [UGroup.updStep, if_pos there, UGroup.step?, List.find?_map, keeps, ← UGroup.step?, found,
    Option.map_some, if_pos named]

theorem State.readSched_read {s : State} {d gi t : Nat} {g : UGroup} {u : UStep} (group : s.ugroup d gi = some g) (step : g.step? t = some u)
    (read : u.sched.isSome = true) : s.readSched d gi t = (s, true) := by
  rw [State.readSched, group]
  dsimp only
  rw [step]
  exact if_pos read

/-- A step with no block changed has no record to emit. -/
theorem State.emit_nothing {s : State} {d gi t : Nat} {g : UGroup} {u : UStep} (group : s.ugroup d gi = some g) (step : g.step? t = some u)
    (unchanged : u.before = []) (r : GRec) : s.emit d gi t r = s := by
  rw [State.emit, group, Option.bind_some, step]
  dsimp only
  rw [unchanged, List.foldl_nil]

/-- The elements `[lo, lo + n)` of step `t` count as applied. -/
def State.passApplied (s : State) (d gi t lo n : Nat) : State :=
  s.updUStep d gi t fun x => { x with applied := x.applied ++ [(lo, lo + n)] }

/-- One applied block is counted. -/
def State.blockCounted (s : State) (d ctx : Nat) (slow : Bool) : State :=
  let w := (s.bump (regDie .updBlocksApplied d) 1).pmc d 4 0 2 (some ctx) 1
  if slow then w.bump (regDie .updSlowBlocks d) 1 else w

theorem State.applyBlock_skipped {s : State} {d gi t lo : Nat} {bits : List Nat} {g : UGroup} {u : UStep} (group : s.ugroup d gi = some g)
    (step : g.step? t = some u) (read : u.sched.isSome = true) (map : g.mapDue u = false) (unchanged : u.before = [])
    (plain : (gRec g.record).isPre = false) (skips : (gRec g.record).skipIdle = true) : s.applyBlock d gi t lo bits true =
      ((s.passApplied d gi t lo bits.length).blockCounted d (gRec g.record).ctx g.slow).settleReady d gi := by
  have counted : (s.passApplied d gi t lo bits.length).emit d gi t (gRec g.record) = s.passApplied d gi t lo bits.length :=
    State.emit_nothing (u := { u with applied := u.applied ++ [(lo, lo + bits.length)] }) (State.updGroup_same group _)
      (UGroup.step?_updStep step (f := fun x => { x with applied := x.applied ++ [(lo, lo + bits.length)] }) fun _ => rfl) unchanged _
  rw [State.applyBlock, State.readSched_read group step read]
  dsimp only
  rw [group]
  dsimp only
  rw [step, Option.getD_some, if_neg (by simp [map])]
  dsimp only
  rw [plain, skips]
  simp only [Bool.false_eq_true, if_false, Bool.and_true, if_true]
  rw [← State.passApplied, counted]
  rfl

/-- What a counted block leaves: one more in UPD_BLOCKS_APPLIED, and nothing changed but registers. -/
theorem State.blockCounted_spec (s : State) {d : Nat} (hd : d < 8) (ctx : Nat) (slow : Bool) :
    s.SameButRegs (s.blockCounted d ctx slow) ∧ (s.regsOk → (s.blockCounted d ctx slow).rd (regDie .updBlocksApplied d)
      = (s.rd (regDie .updBlocksApplied d) + 1) % 2 ^ 64) := by
  have applied : (regDie .updBlocksApplied d).inMap := ⟨hd, Nat.one_pos⟩
  have slowly : (regDie .updSlowBlocks d).inMap := ⟨hd, Nat.one_pos⟩
  have counted := (State.CountsFrom.refl (s.bump (regDie .updBlocksApplied d) 1)).pmc hd 4 0 2 (some ctx) 1
  have rest := (State.SameButRegs.refl s).bump (regDie .updBlocksApplied d) 1 |>.trans counted.rest
  have value (ok : s.regsOk) := (counted.kept (State.bump_regsOk _ 1 ok) _ (addr_ne_pmcReg applied nofun)).trans
    (State.rd_bump_same _ 1 ok)
  cases slow with
  | false => exact ⟨rest, value⟩
  | true =>
    refine ⟨rest.bump _ 1, fun ok => ?_⟩
    exact (State.rd_bump_other 1 (counted.rising (State.bump_regsOk _ 1 ok)) (addr_ne_of_name applied slowly nofun)).trans (value ok)

/-- COLLECT goes on once every element of its step has passed stage 8 (R408). -/
def UGroup.settle (g : UGroup) : UGroup :=
  match g.step? g.collect with
  | some u => if coveredIn u.applied 0 (gRec g.record).elements = (gRec g.record).elements then { g with collect := (g.collect + 1) % 2 ^ 32 } else g
  | none => g

theorem State.settleReady_eq (s : State) (d gi : Nat) : s.settleReady d gi = s.updGroup d gi UGroup.settle := rfl

theorem UGroup.settle_step? (g : UGroup) (t : Nat) : g.settle.step? t = g.step? t := by
  unfold UGroup.settle
  split
  · split <;> rfl
  · rfl

theorem UGroup.settle_collect {g : UGroup} {u : UStep} (found : g.step? g.collect = some u) : g.settle.collect =
    if coveredIn u.applied 0 (gRec g.record).elements = (gRec g.record).elements then (g.collect + 1) % 2 ^ 32 else g.collect := by
  rw [UGroup.settle, found]
  exact apply_ite UGroup.collect ..

theorem UGroup.updStep_collect (g : UGroup) (t : Nat) (f : UStep → UStep) : (g.updStep t f).collect = g.collect :=
  ite_cases (P := fun x : UGroup => x.collect = g.collect) rfl rfl

theorem UGroup.updStep_record (g : UGroup) (t : Nat) (f : UStep → UStep) : (g.updStep t f).record = g.record :=
  ite_cases (P := fun x : UGroup => x.record = g.record) rfl rfl

/-! ### A staged block leaves (R422, R437, R438) -/

/-- The `k`th staged block taken out of the staging area. -/
def State.unstaged (s : State) (d k : Nat) : State := s.updUpd d fun u => { u with staged := u.staged.eraseIdx k }

theorem State.unstaged_ugroup (s : State) (d k gi : Nat) : (s.unstaged d k).ugroup d gi = s.ugroup d gi := by
  rw [State.ugroup, State.unstaged, State.updUpd_same, ← State.ugroup]

theorem State.stagedApply_waits {s : State} {d k : Nat} {b : Staged} (there : (s.updDieOf d).staged[k]? = some b)
    (waits : s.behind d b.group k = true ∨ s.mayApply b.step = false ∨ s.unitOn d 4 = false) : s.stagedApply d k = s := by
  rw [State.stagedApply, there]
  refine if_pos ?_
  obtain h | h | h := waits <;> simp [h]

theorem State.stagedApply_goes {s : State} {d k : Nat} {b : Staged} {g : UGroup} (there : (s.updDieOf d).staged[k]? = some b)
    (first : s.behind d b.group k = false) (may : s.mayApply b.step = true) (unit : s.unitOn d 4 = true)
    (group : s.ugroup d b.group = some g) (early : stepAfter b.step g.collect = false)
    (room : s.journalRoom d b.group b.step b.first b.vals.length = true) :
    s.stagedApply d k = (s.unstaged d k).applyBlock d b.group b.step b.first b.vals b.zero := by
  rw [State.stagedApply, there]
  dsimp only
  rw [if_neg (by simp [first, may, unit]), group]
  exact (if_neg (by simp [early])).trans (if_neg (by simp [room]))

/-- Settles O35: a block that waits, a block that leaves, and a zero block that is skipped. -/
theorem stagedBlocksLeaveInOrder : Obligations.StagedBlocksLeaveInOrder := by
  intro s d k b inv there earlier
  refine ⟨fun waits => congrArg Host.Outcome.next (State.stagedApply_waits there waits), fun g first may unit group early room => ?_⟩
  have run := State.stagedApply_goes there first may unit group early room
  refine ⟨⟨_, congrArg Host.Outcome.next run, ?leaves⟩, fun u hd step read map unchanged plain skips zero => ?skipped⟩
  case leaves =>
    refine (State.applyBlock_waiting (d := d) (s.unstaged d k) d b.group b.step b.first b.vals b.zero).trans ?_
    exact congrArg UpdDie.staged (State.updUpd_same ..)
  case skipped =>
    intro u'
    have group' := (s.unstaged_ugroup d k b.group).trans group
    have skip := State.applyBlock_skipped (lo := b.first) (bits := b.vals) group' step read map unchanged plain skips
    rw [zero, skip] at run
    let passed := g.updStep b.step fun x => { x with applied := x.applied ++ [(b.first, b.first + b.vals.length)] }
    have passes : ((s.unstaged d k).passApplied d b.group b.step b.first b.vals.length).ugroup d b.group = some passed :=
      State.updGroup_same group' _
    have now : passed.step? b.step = some u' :=
      UGroup.step?_updStep step (f := fun x => { x with applied := x.applied ++ [(b.first, b.first + b.vals.length)] }) fun _ => rfl
    obtain ⟨⟨regs, rest⟩, value⟩ :=
      ((s.unstaged d k).passApplied d b.group b.step b.first b.vals.length).blockCounted_spec hd (gRec g.record).ctx g.slow
    rw [rest] at run value
    refine ⟨_, passed.settle, congrArg Host.Outcome.next run, rfl, State.updGroup_same passes UGroup.settle,
      (passed.settle_step? b.step).trans now, value inv.regs, fun collects => ?_⟩
    have at' : passed.collect = b.step := (UGroup.updStep_collect ..).trans collects
    rw [UGroup.settle_collect (at' ▸ now), at', UGroup.updStep_record]

end Sys2Proof.Machine
end

section
/-! SUPPORT. Sends (R358, R364, R365, R367, R370): the messages a command places at the source, and the end of their retention. -/
set_option Elab.async false
namespace Sys2Proof.Machine

/-! ### Messages at the source -/

/-- What a test of the source sees of its messages. -/
def shownOut (l : List OutMsg) : List (Option CmdId × Nat × Nat × List (List Byte) × Nat) :=
  l.map fun m => (m.id, m.flow, m.type, m.slots.map (·.2), m.next)

theorem flagged_payloads (ps : List (Nat × List Byte)) : (flagged ps).map (·.2) = ps.map fun p => padTo 512 p.2 := by
  rw [flagged, List.map_map]
  refine List.ext_getElem (by simp [upTo]) fun k left right => ?_
  have inside : k < ps.length := by simpa using right
  simp [upTo, List.getD_eq_getElem?_getD, List.getElem?_eq_getElem inside]

/-- A message of at least one payload stands last at the source. -/
theorem State.enqueue_out {s : State} {id : CmdId} {flow type : Nat} {be : Option Nat} {window : Option (Nat × Nat)} {batch : Option BatchKey}
    {ps : List (Nat × List Byte)} (some' : ps ≠ []) :
    shownOut (s.enqueue id flow type be window batch ps).fabric.out
      = shownOut s.fabric.out ++ [(some id, flow, type, ps.map fun p => padTo 512 p.2, 0)]
    ∧ ∃ m ∈ (s.enqueue id flow type be window batch ps).fabric.out, m.id = some id := by
  unfold State.enqueue
  dsimp only
  rw [if_neg (by simpa using some'), State.setFabric_fabric]
  refine ⟨?_, _, List.mem_append_right _ (List.mem_singleton_self _), rfl⟩
  simp only [shownOut, List.map_append, List.map_cons, List.map_nil, flagged_payloads]

theorem State.enqueue_rest (s : State) (id : CmdId) (flow type : Nat) (be : Option Nat) (window : Option (Nat × Nat)) (batch : Option BatchKey)
    (ps : List (Nat × List Byte)) : ∃ fabric, s.enqueue id flow type be window batch ps = { s with fabric := fabric } :=
  ite_cases (P := fun t : State => ∃ fabric, t = { s with fabric := fabric }) ⟨_, rfl⟩ ⟨_, rfl⟩

theorem State.moved_out (s : State) (id : CmdId) (t : Tens) (off rd wr : Nat) : (s.moved id t off rd wr).fabric.out = s.fabric.out :=
  (congrArg FabricSt.out ((State.moved_keeps (lp := true) (lq := false) s id t off rd wr (.refl ..)).plane rfl).fabric :)

/-- A command with a message still to send does not end. -/
theorem State.settleSend_held {s : State} {id : CmdId} (held : ∃ m ∈ s.fabric.out, m.id = some id) : s.settleSend id = s := by
  obtain ⟨m, mem, named⟩ := held
  have left : s.sendsDone id = false := by
    rw [State.sendsDone, Bool.and_eq_false_iff]
    exact .inl (by simpa using ⟨m, mem, named⟩)
  unfold State.settleSend
  split
  · rfl
  · exact if_pos (by simp [left])

/-- The command begins, its messages being at the source. -/
def State.started (s : State) (id : CmdId) : State := (s.updCmd id fun x => { x with begun := true }).settleSend id

theorem State.started_held {s : State} {id : CmdId} (held : ∃ m ∈ s.fabric.out, m.id = some id) :
    s.started id = s.updCmd id fun x => { x with begun := true } := State.settleSend_held held

theorem State.cmd?_begun {s t : State} {id : CmdId} {c : Cmd} (found : s.cmd? id = some c) (cmds : t.cmds = s.cmds) :
    (t.updCmd id fun x => { x with begun := true }).cmd? id = some { c with begun := true } := by
  rw [State.cmd?_updCmd, State.cmd?_of_cmds_eq cmds, found]
  · rfl
  · exact fun _ => rfl

/-! ### FABRIC_SEND (R358, R364) -/

/-- A message of a FABRIC_SEND. -/
def State.fsPut (s : State) (id : CmdId) (d : List Byte) (ty : Nat) (ps : List (List Byte)) : State :=
  s.enqueue id (fsFlow d) ty (fsBe d) none none (ps.map fun p => (0, p))

/-- The SIGNAL of a FABRIC_SEND, where it asks for one. -/
def State.fsSignalled (s : State) (id : CmdId) (d : List Byte) : State :=
  if fsSignal d then s.fsPut id d 3 [signalPayload (u32 d 64) (u32 d 68)] else s

theorem signalPayload_length (ref add : Nat) : (signalPayload ref add).length = 512 := record_length _ _ (by simp)

theorem State.fsSignalled_out (s : State) (id : CmdId) (d : List Byte) : shownOut (s.fsSignalled id d).fabric.out = shownOut s.fabric.out
    ++ if fsSignal d then [(some id, fsFlow d, 3, [signalPayload (u32 d 64) (u32 d 68)], 0)] else [] := by
  unfold State.fsSignalled
  split
  · refine (State.enqueue_out (by simp)).1.trans ?_
    simp only [List.map_cons, List.map_nil, padTo_self (signalPayload_length _ _)]
  · exact (List.append_nil _).symm

theorem State.fsPut_out {s : State} {id : CmdId} {d : List Byte} {ty : Nat} {ps : List (List Byte)} (some' : ps ≠ []) :
    shownOut (s.fsPut id d ty ps).fabric.out = shownOut s.fabric.out ++ [(some id, fsFlow d, ty, ps.map (padTo 512), 0)] := by
  refine (State.enqueue_out (by simpa using some')).1.trans ?_
  rw [List.map_map]
  rfl

/-- A message shown under an id is one the source holds. -/
theorem held_of_shown {l : List OutMsg} {id : CmdId} {x : Nat × Nat × List (List Byte) × Nat} (h : (some id, x) ∈ shownOut l) :
    ∃ m ∈ l, m.id = some id := by
  obtain ⟨m, mem, eq⟩ := List.mem_map.1 h
  exact ⟨m, mem, congrArg Prod.fst eq⟩

theorem State.fsPut_cmds (s : State) (id : CmdId) (d : List Byte) (ty : Nat) (ps : List (List Byte)) : (s.fsPut id d ty ps).cmds = s.cmds := by
  obtain ⟨fabric, eq⟩ := s.enqueue_rest id (fsFlow d) ty (fsBe d) none none (ps.map fun p => (0, p))
  exact (congrArg State.cmds eq :)

theorem State.fsSignalled_rest (s : State) (id : CmdId) (d : List Byte) : ∃ fabric, s.fsSignalled id d = { s with fabric := fabric } := by
  unfold State.fsSignalled
  split
  · exact State.enqueue_rest ..
  · exact ⟨_, rfl⟩

theorem State.fabricSend_signal {s : State} {c : Cmd} (fresh : c.begun = false) (turn : s.sendsBefore c = false) (type : fsType c.desc = 3) :
    s.fabricSend c = (s.fsSignalled c.id c.desc).started c.id := by
  unfold State.fabricSend
  dsimp only
  rw [if_neg (by simp [fresh, turn]), if_pos type]
  rfl

theorem State.fabricSend_data {s : State} {c : Cmd} {x : Tens} {bs : List Byte} (fresh : c.begun = false) (turn : s.sendsBefore c = false)
    (type : fsType c.desc ≠ 3) (source : s.tensRun c.id.ctx (u32 c.desc 32) = some x)
    (read : s.readBytes (s.accOf c.id x) (x.base + u64 c.desc 48) (fsLength c.desc) = .ok bs) :
    s.fabricSend c = ((((s.moved c.id x (u64 c.desc 48) bs.length 0).fsPut c.id c.desc (fsType c.desc)
      (writePayloads (u64 c.desc 40) (u8 c.desc 72) (ceilDiv bs.length 496) bs)).fsSignalled c.id c.desc).started c.id) := by
  unfold State.fabricSend
  dsimp only
  rw [if_neg (by simp [fresh, turn]), if_neg type, source]
  dsimp only
  rw [read]
  rfl

theorem writePayloads_ne_nil (dest fmt : Nat) {bs : List Byte} (some' : bs ≠ []) : writePayloads dest fmt (ceilDiv bs.length 496) bs ≠ [] := by
  have long := List.length_pos_iff.2 some'
  obtain ⟨n, eq⟩ : ∃ n, ceilDiv bs.length 496 = n + 1 := ⟨ceilDiv bs.length 496 - 1, by unfold ceilDiv; omega⟩
  rw [eq, writePayloads]
  exact List.cons_ne_nil _ _

/-! ### COLLECTIVE (R361, R365) -/

theorem State.collectiveWaits_off {s : State} {id : CmdId} {d : List Byte} (plain : cUpdate d = false) : s.collectiveWaits id d = false := by
  simp [State.collectiveWaits, plain]

/-- A contribution at the source, as one message. -/
def State.contribute (s : State) (id : CmdId) (d : List Byte) (ps : List (Nat × List Byte)) : State :=
  (s.enqueue id (cTx d) 4 none none none ps).started id

theorem State.collective_zero {s : State} {c : Cmd} (fresh : c.begun = false) (turn : s.sendsBefore c = false) (sends : cTx c.desc ≠ 0xFFFF)
    (plain : cUpdate c.desc = false) (zero : cZero c.desc = true) (few : s.resultSlots c ≤ 65536) :
    s.collective c = s.contribute c.id c.desc (zeroSlots (max 1 (s.resultSlots c))) := by
  unfold State.collective
  dsimp only
  rw [if_neg (by simp [fresh, turn, State.collectiveWaits_off plain]), if_neg sends, plain]
  simp only [Bool.false_eq_true, if_false, List.nil_append]
  have fits : (zeroSlots (max 1 (s.resultSlots c))).length ≤ 65536 := by
    simp only [zeroSlots, upTo, List.length_map, List.length_range]
    omega
  rw [if_pos zero, if_neg (Nat.not_lt.2 fits)]
  rfl

theorem State.collective_stored {s : State} {c : Cmd} {x : Tens} {bs : List GBlock} (fresh : c.begun = false) (turn : s.sendsBefore c = false)
    (sends : cTx c.desc ≠ 0xFFFF) (plain : cUpdate c.desc = false) (zero : cZero c.desc = false) (terms : cErr c.desc = noHandle)
    (source : s.tensRun c.id.ctx (cSrc c.desc) = some x) (stored : s.storedBlocks (s.accOf c.id x) x = .ok bs)
    (few : (gradSlots bs).length ≤ 65536) :
    s.collective c = (s.moved c.id x 0 (x.rowReadBytes * x.rows) 0).contribute c.id c.desc (gradSlots bs) := by
  have contribution : s.contribution c x none = .ok (bs, s) := by
    unfold State.contribution
    dsimp only
    rw [if_pos terms]
    dsimp only
    rw [stored]
  unfold State.collective
  dsimp only
  rw [if_neg (by simp [fresh, turn, State.collectiveWaits_off plain]), if_neg sends, plain]
  simp only [Bool.false_eq_true, if_false, List.nil_append]
  rw [if_neg (by simp [zero]), source]
  dsimp only
  rw [contribution]
  dsimp only
  rw [if_neg (Nat.not_lt.2 few)]
  rfl

theorem gradSlots_ne_nil {bs : List GBlock} (some' : bs ≠ []) : gradSlots bs ≠ [] := by
  rw [gradSlots, chunks, if_neg (by simpa using some')]
  exact List.cons_ne_nil _ _

theorem zeroSlots_ne_nil {n : Nat} (some' : 0 < n) : zeroSlots n ≠ [] := by
  rw [← List.length_pos_iff]
  simpa [zeroSlots, upTo] using some'

/-- A contribution placed: one message at the source, and the command has begun. -/
theorem State.contribute_spec {s t : State} {id : CmdId} {c : Cmd} (found : s.cmd? id = some c) (cmds : t.cmds = s.cmds)
    (out : t.fabric.out = s.fabric.out) (d : List Byte) {ps : List (Nat × List Byte)} (some' : ps ≠ []) :
    (t.contribute id d ps).cmd? id = some { c with begun := true } ∧ shownOut (t.contribute id d ps).fabric.out
      = shownOut s.fabric.out ++ [(some id, cTx d, 4, ps.map fun p => padTo 512 p.2, 0)] := by
  obtain ⟨shown, held⟩ := State.enqueue_out (s := t) (id := id) (flow := cTx d) (type := 4) (be := none) (window := none) (batch := none) some'
  obtain ⟨fabric, rest⟩ := t.enqueue_rest id (cTx d) 4 none none none ps
  rw [State.contribute, State.started_held held]
  exact ⟨State.cmd?_begun found ((congrArg State.cmds rest).trans cmds), shown.trans (by rw [out])⟩

/-! ### The end of retention (R370) -/

/-- How long a copy is retained (R370). -/
def Retained.late (frame : Nat) (r : Retained) : Bool :=
  decide (r.frame + 2 * r.hops + 3 < frame) || (r.frame + 2 * r.hops + 3 == frame && !r.requested)

theorem Retained.late_eq_false {frame : Nat} {r : Retained} : r.late frame = false ↔
    frame < r.frame + 2 * r.hops + 3 ∨ (frame = r.frame + 2 * r.hops + 3 ∧ r.requested = true) := by
  cases asked : r.requested <;> simp [Retained.late, asked] <;> omega

theorem State.errSwap_fabric (s : State) (ctx h : Nat) (flip : Bool) : (s.errSwap ctx h flip).fabric = s.fabric := by
  obtain ⟨_, _, eq⟩ := s.errSwap_sameButMem ctx h flip
  exact (congrArg State.fabric eq :)

/-- A send that ends changes its command, and memory where error terms are swapped. -/
theorem State.settleSend_fabric (s : State) (id : CmdId) : (s.settleSend id).fabric = s.fabric := by
  unfold State.settleSend
  split
  · rfl
  · refine ite_cases (P := fun t : State => t.fabric = s.fabric) rfl (ite_cases (P := fun t : State => t.fabric = s.fabric) ?_ ?_)
    · exact ite_cases (P := fun t : State => t.fabric = s.fabric) rfl
        (ite_cases (P := fun t : State => t.fabric = s.fabric) rfl (State.errSwap_fabric ..))
    · split
      · rfl
      · exact ite_cases (P := fun t : State => t.fabric = s.fabric) rfl rfl

theorem State.settleSend_endsOnly (s : State) (id : CmdId) : State.EndsOnly id s (s.settleSend id) := by
  unfold State.settleSend
  split
  · exact .refl ..
  · refine ite_cases (.refl ..) (ite_cases (ite_cases (.refl ..) ?_) ?_)
    · exact ite_cases (.finish ..) ((State.EndsOnly.finish ..).trans (State.errSwap_sameButMem ..).endsOnly)
    · split
      · exact .finish ..
      · exact ite_cases (.finish ..) (.refl ..)

/-- A FABRIC_SEND whose slots have left and whose copies have gone ends. -/
theorem State.settleSend_done {s : State} {k : CmdId} {b : Cmd} (runs : s.Runs k 0x70 b) (begun : b.begun = true) (plain : b.run.stop = none)
    (done : s.sendsDone k = true) : s.settleSend k = s.finish k Status.ok.plain := by
  obtain ⟨found, live, opcode⟩ := runs
  unfold State.settleSend
  rw [found]
  dsimp only
  rw [if_neg (by simp [live, begun, opcode, done]), if_neg (by simp [isCollective, isOpcode, opcode]), plain]
  exact if_pos (by simp [isOpcode, opcode])

/-- A send that is done ends once the commands listed are settled, and what has ended stays. -/
theorem State.settleSends_done {k : CmdId} {b : Cmd} (begun : b.begun = true) (plain : b.run.stop = none) (l : List Cmd) : ∀ s : State,
    (s.EndedAs k Status.ok.plain ∨ s.Runs k 0x70 b ∧ s.sendsDone k = true ∧ ∃ c ∈ l, c.id = k) →
    (l.foldl (fun t c => t.settleSend c.id) s).EndedAs k Status.ok.plain := by
  induction l with
  | nil => exact fun s h => h.elim id fun ⟨_, _, _, mem, _⟩ => absurd mem List.not_mem_nil
  | cons x l ih =>
    intro s h
    refine ih (s.settleSend x.id) ?_
    have ends := s.settleSend_endsOnly x.id
    obtain ended | ⟨runs, done, c, mem, named⟩ := h
    · exact .inl (ends.stands _ _ ended)
    · by_cases here : x.id = k
      · rw [here, State.settleSend_done runs begun plain done]
        exact .inl (runs.unended.finish _)
      · refine .inr ⟨⟨(ends.others k (Ne.symm here)).trans runs.found, runs.live, runs.opcode⟩, ?_, c, ?_, named⟩
        · rw [State.sendsDone, State.settleSend_fabric]
          exact done
        · obtain rfl | mem := List.mem_cons.1 mem
          · exact absurd named here
          · exact mem

theorem State.settleSends_fabric (s : State) : s.settleSends.fabric = s.fabric :=
  List.foldlRecOn s.cmds _ (motive := fun t : State => t.fabric = s.fabric) rfl fun _ h _ _ => (State.settleSend_fabric ..).trans h

/-- Settles O41: what each kind of send places, and the end of its retention. -/
theorem sendsPlaceTheirMessages : Obligations.SendsPlaceTheirMessages := by
  intro s id c _ fresh turn d begun shown signal
  refine ⟨fun runs type asks => ?signals, fun x bs runs type source read some' => ?sends, fun runs sends plain zero few => ?zero,
    fun x bs runs sends plain zero terms source stored some' few => ?stored, fun k b runs started plain left old => ?ends⟩
  case signals =>
    obtain rfl : c.id = id := runs.id_eq
    have out := s.fsSignalled_out c.id d
    rw [if_pos asks] at out
    have held := held_of_shown (l := (s.fsSignalled c.id d).fabric.out) (out ▸ List.mem_append_right _ (List.mem_singleton_self _))
    have run : exec (.fabricSend c.id) s = .next _ :=
      congrArg Host.Outcome.next ((State.onCmd_of_runs runs _).trans (State.fabricSend_signal fresh turn type))
    rw [State.started_held held] at run
    obtain ⟨fabric, rest⟩ := s.fsSignalled_rest c.id d
    refine ⟨_, run, out, State.cmd?_begun runs.found (congrArg State.cmds rest :), ?_⟩
    rw [rest]
    rfl
  case sends =>
    obtain rfl : c.id = id := runs.id_eq
    have run : exec (.fabricSend c.id) s = .next _ := congrArg Host.Outcome.next
      ((State.onCmd_of_runs runs _).trans (State.fabricSend_data fresh turn type source read))
    let u := (s.moved c.id x (u64 d 48) bs.length 0).fsPut c.id d (fsType d) (writePayloads (u64 d 40) (u8 d 72) (ceilDiv bs.length 496) bs)
    have put : shownOut u.fabric.out = shownOut s.fabric.out
        ++ [(some c.id, fsFlow d, fsType d, (writePayloads (u64 d 40) (u8 d 72) (ceilDiv bs.length 496) bs).map (padTo 512), 0)] := by
      rw [State.fsPut_out (writePayloads_ne_nil _ _ some'), State.moved_out]
    have out := u.fsSignalled_out c.id d
    rw [put] at out
    have held := held_of_shown (l := (u.fsSignalled c.id d).fabric.out)
      (out ▸ List.mem_append_left _ (List.mem_append_right _ (List.mem_singleton_self _)))
    rw [State.started_held held] at run
    obtain ⟨fabric, rest⟩ := u.fsSignalled_rest c.id d
    have cmds : (u.fsSignalled c.id d).cmds = s.cmds :=
      (congrArg State.cmds rest :).trans ((State.fsPut_cmds ..).trans (State.moved_cmds ..))
    exact ⟨_, run, State.cmd?_begun runs.found cmds, out⟩
  case zero =>
    obtain rfl : c.id = id := runs.id_eq
    have run : exec (.collective c.id) s = .next _ := congrArg Host.Outcome.next
      ((State.onCmd_of_runs runs _).trans (State.collective_zero fresh turn sends plain zero few))
    obtain ⟨begins, out⟩ := State.contribute_spec runs.found rfl rfl d (zeroSlots_ne_nil (n := max 1 (s.resultSlots c)) (by omega))
    exact ⟨_, run, begins, out⟩
  case stored =>
    obtain rfl : c.id = id := runs.id_eq
    have run : exec (.collective c.id) s = .next _ := congrArg Host.Outcome.next
      ((State.onCmd_of_runs runs _).trans (State.collective_stored fresh turn sends plain zero terms source stored few))
    obtain ⟨begins, out⟩ := State.contribute_spec runs.found (State.moved_cmds ..) (State.moved_out ..) d (gradSlots_ne_nil some')
    exact ⟨_, run, begins, out⟩
  case ends =>
    let kept := s.setFabric fun f => { f with retained := f.retained.filter fun r => !r.late s.frame }
    have retained (r : Retained) : r ∈ kept.fabric.retained ↔ r ∈ s.fabric.retained ∧ r.late s.frame = false := by
      rw [State.setFabric_fabric, List.mem_filter, Bool.not_eq_true']
    have done : kept.sendsDone k = true := by
      rw [State.sendsDone, Bool.and_eq_true_iff]
      refine ⟨by simpa [kept] using left, ?_⟩
      rw [Bool.not_eq_true', List.any_eq_false]
      intro r mem named
      obtain ⟨held, fresh⟩ := (retained r).1 mem
      have late := old r held (by simpa using named)
      rw [Retained.late_eq_false] at fresh
      omega
    refine ⟨_, rfl, State.settleSends_done started plain kept.cmds kept (.inr ⟨⟨runs.found, runs.live, runs.opcode⟩, done, b,
      List.mem_of_find?_eq_some runs.found, runs.id_eq⟩), fun r => ?_⟩
    refine Iff.trans (Iff.of_eq (congrArg (r ∈ FabricSt.retained ·) (State.settleSends_fabric kept))) ((retained r).trans ?_)
    rw [Retained.late_eq_false]

end Sys2Proof.Machine
end

section
/-! SUPPORT. Slot tables (R345–R351): images and their loading, the switch, the cutoff before it and the sends it ends. -/
set_option Elab.async false
namespace Sys2Proof.Machine

/-! ### An image's head (R345) -/

theorem sliceB_take (bs : List Byte) {off n m : Nat} (inside : off + n ≤ m) : sliceB (bs.take m) off n = sliceB bs off n := by
  have same : ((bs.take m).drop off).take n = (bs.drop off).take n := by
    rw [List.drop_take, List.take_take, Nat.min_eq_left (by omega)]
  simp only [sliceB, same]

theorem imgFlows_take (img : List Byte) : imgFlows (img.take 64) = imgFlows img := congrArg leValue (sliceB_take img (by decide))

theorem imgFrames_take (img : List Byte) : imgFrames (img.take 64) = imgFrames img := congrArg leValue (sliceB_take img (by decide))

theorem imgBytes_take (img : List Byte) : imgBytes (img.take 64) = imgBytes img := by
  simp only [imgBytes, imgTx, imgFlows_take, imgFrames_take]

theorem headFaults_take (img : List Byte) : headFaults (img.take 64) = headFaults img := by
  have id' : u32 (img.take 64) 0 = u32 img 0 := congrArg leValue (sliceB_take img (by decide))
  simp only [headFaults, id', imgFlows_take, imgFrames_take, List.take_take, Nat.min_self]

/-! ### SLOT_TABLE_LOAD (R345, R346) -/

/-- Traffic counted and charged leaves the fabric and the dies as they are. -/
theorem State.chargeRange_shell (s : State) (ctx part : Nat) (write : Bool) (fuel a n : Nat) :
    (s.chargeRange ctx part write fuel a n).fabric = s.fabric ∧ (s.chargeRange ctx part write fuel a n).dies = s.dies := by
  induction fuel generalizing s a n with
  | zero => exact ⟨rfl, rfl⟩
  | succ fuel ih =>
    unfold State.chargeRange
    dsimp only
    split
    · exact ⟨rfl, rfl⟩
    · obtain ⟨fabric, dies⟩ := State.charge_induct (P := fun t => t.fabric = s.fabric ∧ t.dies = s.dies) (fun _ _ _ h => h) (fun _ _ h => h)
        ⟨rfl, rfl⟩ ctx part (s.held? (placeOf s.mem.layout a)) (min n (4096 - a % 4096)) write
      obtain ⟨fabric', dies'⟩ := ih (s.charge ctx part (s.held? (placeOf s.mem.layout a)) (min n (4096 - a % 4096)) write)
        (a + min n (4096 - a % 4096)) (n - min n (4096 - a % 4096))
      exact ⟨fabric'.trans fabric, dies'.trans dies⟩

theorem State.qcount_shell (s : State) (i : CmdId) (rd wr mac stall : Nat) :
    (s.qcount i rd wr mac stall).fabric = s.fabric ∧ (s.qcount i rd wr mac stall).dies = s.dies := by
  have up (t : State) (n : RegName) (k : Nat) (h : t.fabric = s.fabric ∧ t.dies = s.dies) :
      (if k = 0 then t else t.bump ⟨n, i.ctx, i.q⟩ k).fabric = s.fabric ∧ (if k = 0 then t else t.bump ⟨n, i.ctx, i.q⟩ k).dies = s.dies :=
    ite_cases (P := fun u : State => u.fabric = s.fabric ∧ u.dies = s.dies) h h
  exact up _ _ _ (up _ _ _ (up _ _ _ (up _ _ _ ⟨rfl, rfl⟩)))

theorem State.moved_shell (s : State) (id : CmdId) (t : Tens) (off rd wr : Nat) :
    (s.moved id t off rd wr).fabric = s.fabric ∧ (s.moved id t off rd wr).dies = s.dies := by
  have counted := s.qcount_shell id rd wr 0 0
  have charged (u : State) (part fuel a n k : Nat) (write : Bool) (h : u.fabric = s.fabric ∧ u.dies = s.dies) :
      (if k = 0 then u else u.chargeRange id.ctx part write fuel a n).fabric = s.fabric
        ∧ (if k = 0 then u else u.chargeRange id.ctx part write fuel a n).dies = s.dies := by
    obtain ⟨fabric, dies⟩ := u.chargeRange_shell id.ctx part write fuel a n
    exact ite_cases (P := fun v : State => v.fabric = s.fabric ∧ v.dies = s.dies) h ⟨fabric.trans h.1, dies.trans h.2⟩
  exact charged _ _ _ _ _ _ _ (charged _ _ _ _ _ _ _ counted)

/-- An image whose head is sound, read whole. -/
theorem State.slotTableLoad_reads {s : State} {c : Cmd} {x : Tens} {img : List Byte} (source : s.tensRun c.id.ctx (u32 c.desc 32) = some x)
    (settled : s.fabric.pendingSwitch = none) (long : 64 ≤ x.ext 0) (head : s.readBytes (s.accOf c.id x) x.base 64 = .ok (img.take 64))
    (sound : headFaults img = []) (inside : imgBytes img ≤ x.ext 0) (whole : s.readBytes (s.accOf c.id x) x.base (imgBytes img) = .ok img) :
    s.slotTableLoad c = (s.moved c.id x 0 (imgBytes img) 0).loadTable c.id (u32 c.desc 32) img := by
  unfold State.slotTableLoad
  dsimp only
  rw [source]
  dsimp only
  rw [if_neg (by simp [settled]), if_neg (Nat.not_lt.2 long), head]
  dsimp only
  rw [headFaults_take, sound, List.isEmpty_nil, if_pos rfl, imgBytes_take, if_neg (Nat.not_lt.2 inside), whole]

theorem State.loadTable_faulty {s : State} {img : List Byte} {o : Nat} (fault : leastOf (imageFaults (fun d => (s.die d).inService) img) = some o)
    (id : CmdId) (h : Nat) : s.loadTable id h img = s.finish id (refusal .descFormat h o) := by
  unfold State.loadTable
  dsimp only
  rw [fault]

theorem State.loadTable_excess {s : State} {img : List Byte} {e : Nat} (sound : leastOf (imageFaults (fun d => (s.die d).inService) img) = none)
    (excess : (imgTable img).excess (fun d => (s.die d).inService) = some e) (id : CmdId) (h : Nat) :
    s.loadTable id h img = s.finish id ⟨Status.slotAdmission.code, 0, detail4 0 (imgRx img + 8 * e) 0 0⟩ := by
  unfold State.loadTable
  dsimp only
  rw [sound]
  dsimp only
  rw [excess]

theorem State.loadTable_sound {s : State} {img : List Byte} (sound : leastOf (imageFaults (fun d => (s.die d).inService) img) = none)
    (fits : (imgTable img).excess (fun d => (s.die d).inService) = none) (id : CmdId) (h : Nat) :
    s.loadTable id h img = (s.setFabric fun f => { f with standby := some (imgTable img) }).finish id Status.ok.plain := by
  unfold State.loadTable
  dsimp only
  rw [sound]
  dsimp only
  rw [fits]

/-- A SLOT_TABLE_SWITCH that meets no pending switch: too early, of another table, or taken. -/
theorem State.slotTableSwitch_fresh {s : State} {c : Cmd} {x : SlotTable} (fresh : c.begun = false) (settled : s.fabric.pendingSwitch = none)
    (standby : s.fabric.standby = some x) : s.slotTableSwitch c =
      if u64 c.desc 32 < s.frame + 24 then s.finish c.id (formatViol 32).ending
      else if x.id ≠ u32 c.desc 40 then s.finish c.id (formatViol 40).ending
      else (s.setFabric fun f => { f with pendingSwitch := some ⟨u64 c.desc 32, false, some c.id⟩ }).updCmd c.id
        fun x => { x with begun := true } := by
  unfold State.slotTableSwitch
  dsimp only
  rw [if_neg (by simp [fresh, settled]), standby]

/-! ### Sends that are stopped (R349–R351) -/

/-- From `s` to `t` messages have left the source, and commands, of those named by `p` alone, have ended. -/
structure State.Stops (p : CmdId → Prop) (s t : State) : Prop where
  rest : ∃ out cmds, t = { s with fabric := { s.fabric with out := out }, cmds := cmds }
  fewer : ∀ m ∈ t.fabric.out, m ∈ s.fabric.out
  stands : ∀ k e, s.EndedAs k e → t.EndedAs k e
  others : ∀ k, ¬ p k → t.cmd? k = s.cmd? k

namespace State.Stops

variable {p q : CmdId → Prop} {s t u : State}

theorem refl (p : CmdId → Prop) (s : State) : State.Stops p s s := ⟨⟨_, _, rfl⟩, fun _ h => h, fun _ _ h => h, fun _ _ => rfl⟩

theorem trans (h : State.Stops p s t) (k : State.Stops p t u) : State.Stops p s u := by
  refine ⟨?_, fun m mem => h.fewer m (k.fewer m mem), fun i e ended => k.stands i e (h.stands i e ended),
    fun i other => (k.others i other).trans (h.others i other)⟩
  obtain ⟨_, _, rfl⟩ := h.rest
  obtain ⟨out, cmds, rfl⟩ := k.rest
  exact ⟨out, cmds, rfl⟩

theorem mono (h : State.Stops p s t) (le : ∀ k, p k → q k) : State.Stops q s t :=
  ⟨h.rest, h.fewer, h.stands, fun k other => h.others k fun named => other (le k named)⟩

theorem stopSend (s : State) (id : CmdId) (e : Ending) : State.Stops (· = id) s (s.stopSend id e) := by
  have ends := State.EndsOnly.finish (s.setFabric fun f => { f with out := f.out.filter fun m => m.id != some id }) id e
  exact ⟨⟨_, _, rfl⟩, fun m mem => (List.mem_filter.1 mem).1, ends.stands, ends.others⟩

theorem drop (s : State) (p : CmdId → Prop) (keep : OutMsg → Bool) :
    State.Stops p s (s.setFabric fun f => { f with out := f.out.filter keep }) :=
  ⟨⟨_, _, rfl⟩, fun _ mem => (List.mem_filter.1 mem).1, fun _ _ h => h, fun _ _ => rfl⟩

theorem foldl {α : Type} {f : State → α → State} {l : List α} (step : ∀ t, ∀ a ∈ l, State.Stops p t (f t a)) (s : State) :
    State.Stops p s (l.foldl f s) :=
  List.foldlRecOn l f (motive := State.Stops p s) (.refl p s) fun t h a mem => h.trans (step t a mem)

end State.Stops

/-- A message whose flow keeps its place in table `t`: its epoch, once a slot of it has departed. -/
def OutMsg.keptBy (m : OutMsg) (t : SlotTable) : Bool := (t.flow? m.flow).any fun r => !m.begun || r.epoch == m.epoch

/-- One message at the change to table `t`; with `begun`, only where it is under way. -/
def State.dropOne (t : SlotTable) (begun : Bool) (u : State) (m : OutMsg) : State :=
  if m.be.isSome ∨ (begun ∧ !m.begun) ∨ m.keptBy t then u
  else m.id.elim (u.setFabric fun f => { f with out := f.out.filter fun x => x != m }) fun id => u.stopSend id Status.slotAdmission.plain

theorem State.dropStale_eq (s : State) (t : SlotTable) (begun : Bool) : s.dropStale t begun = s.fabric.out.foldl (State.dropOne t begun) s := by
  unfold State.dropStale
  congr 1
  funext u m
  unfold State.dropOne
  by_cases passes : m.be.isSome = true ∨ begun = true ∧ (!m.begun) = true
  · rw [if_pos passes, if_pos (passes.imp_right .inl)]
  · rw [if_neg passes]
    have kept : (m.be.isSome = true ∨ (begun = true ∧ (!m.begun) = true) ∨ m.keptBy t = true) ↔ m.keptBy t = true :=
      ⟨fun h => h.elim (fun a => absurd (.inl a) passes) fun h => h.elim (fun a => absurd (.inr a) passes) id, fun h => .inr (.inr h)⟩
    rw [if_congr kept rfl rfl]
    unfold OutMsg.keptBy
    cases t.flow? m.flow <;> cases m.id <;> simp

theorem State.dropOne_stops (t : SlotTable) (begun : Bool) (u : State) (m : OutMsg) :
    State.Stops (fun k => m.id = some k) u (u.dropOne t begun m) := by
  refine ite_cases (.refl ..) ?_
  cases named : m.id with
  | none => exact .drop ..
  | some id => exact (State.Stops.stopSend u id _).mono fun k same => congrArg some same.symm

/-- A message that the change does not keep is at the source no more. -/
theorem State.dropOne_gone {t : SlotTable} {begun : Bool} {m : OutMsg} (own : m.be = none) (under : begun = true → m.begun = true)
    (stale : m.keptBy t = false) (u : State) : m ∉ (u.dropOne t begun m).fabric.out := by
  have drops : ¬ (m.be.isSome = true ∨ (begun = true ∧ (!m.begun) = true) ∨ m.keptBy t = true) := by
    rw [own, stale]
    rintro (h | ⟨h, k⟩ | h)
    · exact Bool.noConfusion h
    · rw [under h] at k
      exact Bool.noConfusion k
    · exact Bool.noConfusion h
  rw [State.dropOne, if_neg drops]
  cases named : m.id with
  | none => exact fun mem => absurd (List.mem_filter.1 mem).2 (by simp)
  | some id => exact fun mem => absurd (List.mem_filter.1 mem).2 (by simp [named])

/-- The messages listed, at the change to table `t`. -/
theorem State.dropAll_gone (t : SlotTable) (begun : Bool) (l : List OutMsg) : ∀ (s : State),
    ∀ m ∈ l, m ∈ (l.foldl (State.dropOne t begun) s).fabric.out → m.be = none → (begun = true → m.begun = true) → m.keptBy t = true := by
  induction l with
  | nil => exact fun _ _ h => absurd h List.not_mem_nil
  | cons x l ih =>
    intro s m mem left own under
    obtain rfl | mem := List.mem_cons.1 mem
    · by_contra stale
      have later := State.Stops.foldl (l := l) (f := State.dropOne t begun) (p := fun _ => True)
        (fun u y _ => (State.dropOne_stops t begun u y).mono fun _ _ => trivial) (s.dropOne t begun m)
      exact State.dropOne_gone own under (by simpa using stale) s (later.fewer m left)
    · exact ih _ m mem left own under

theorem State.dropStale_spec (s : State) (t : SlotTable) (begun : Bool) :
    State.Stops (fun k => ∃ m ∈ s.fabric.out, m.id = some k) s (s.dropStale t begun)
    ∧ ∀ m ∈ (s.dropStale t begun).fabric.out, m.be = none → (begun = true → m.begun = true) → m.keptBy t = true := by
  rw [State.dropStale_eq]
  have stops := State.Stops.foldl (l := s.fabric.out) (f := State.dropOne t begun) (p := fun k => ∃ m ∈ s.fabric.out, m.id = some k)
    (fun u m mem => (State.dropOne_stops t begun u m).mono fun k named => ⟨m, mem, named⟩) s
  exact ⟨stops, fun m left => State.dropAll_gone t begun s.fabric.out s m (stops.fewer m left) left⟩

/-! ### A failover ends the sends (R351) -/

/-- A FABRIC_SEND or COLLECTIVE that has not ended. -/
def Cmd.sending (c : Cmd) : Prop := c.ending.isNone = true ∧ (isOpcode 0x0070 c.desc = true ∨ isOpcode 0x0071 c.desc = true)

/-- One command at a failover. -/
def State.failOne (t : State) (c : Cmd) : State :=
  if c.ending.isNone ∧ (isOpcode 0x0070 c.desc ∨ isOpcode 0x0071 c.desc) then t.stopSend c.id Status.flowLost.plain else t

theorem State.failOne_stops (s : State) (c : Cmd) : State.Stops (fun k => c.sending ∧ c.id = k) s (s.failOne c) := by
  unfold State.failOne
  split
  · rename_i sends
    exact (State.Stops.stopSend s c.id _).mono fun k same => ⟨sends, same.symm⟩
  · exact .refl ..

/-- A send among the commands listed ends with FLOW_LOST, and stays so. -/
theorem State.failAll_ends {k : CmdId} (l : List Cmd) : ∀ s : State,
    (s.EndedAs k Status.flowLost.plain ∨ s.Unended k ∧ ∃ c ∈ l, c.sending ∧ c.id = k) →
    (l.foldl State.failOne s).EndedAs k Status.flowLost.plain := by
  induction l with
  | nil => exact fun s h => h.elim id fun ⟨_, _, mem, _⟩ => absurd mem List.not_mem_nil
  | cons x l ih =>
    intro s h
    refine ih (s.failOne x) ?_
    have stops := s.failOne_stops x
    obtain ended | ⟨live, c, mem, sends, named⟩ := h
    · exact .inl (stops.stands _ _ ended)
    · by_cases here : x.sending ∧ x.id = k
      · have stopped : s.failOne x = s.stopSend x.id Status.flowLost.plain := if_pos here.1
        rw [stopped, here.2]
        exact .inl (State.Unended.finish (live.sameCmds rfl) _)
      · refine .inr ⟨?_, c, ?_, sends, named⟩
        · obtain ⟨b, found, open'⟩ := live
          exact ⟨b, (stops.others k here).trans found, open'⟩
        · obtain rfl | mem := List.mem_cons.1 mem
          · exact absurd ⟨sends, named⟩ here
          · exact mem

theorem State.failAll_stops (s : State) : State.Stops (fun k => ∃ c ∈ s.cmds, c.sending ∧ c.id = k) s (s.cmds.foldl State.failOne s) :=
  .foldl (fun t c mem => (t.failOne_stops c).mono fun _ named => ⟨c, mem, named⟩) s

/-! ### The switch (R348–R351) -/

/-- What the fabric is once table `t` is active. -/
structure State.Switched (q : PendingSwitch) (t : SlotTable) (s u : State) : Prop where
  active : u.fabric.active = some t
  standby : u.fabric.standby = none
  retired : u.fabric.retired = s.fabric.active
  frame : u.fabric.switchFrame = q.frame
  pending : u.fabric.pendingSwitch = none
  failover : u.fabric.lastFailover = q.failover
  stands : ∀ k e, s.EndedAs k e → u.EndedAs k e
  ends : ∀ k, q.by' = some k → s.Unended k → (∀ m ∈ s.fabric.out, m.id ≠ some k) → u.EndedAs k (okAux (q.frame % 2 ^ 32))

/-- The fabric with table `t` active, before the messages it does not keep are dropped. -/
def State.activated (s : State) (q : PendingSwitch) (t : SlotTable) : State :=
  s.setFabric fun f =>
    { f with active := some t, standby := none, retired := f.active, retiredFrame := f.switchFrame, switchFrame := q.frame,
             pendingSwitch := none, lastFailover := q.failover,
             out := f.out.map fun m => if !m.begun ∧ m.be.isNone then { m with epoch := (t.flow? m.flow).elim m.epoch (·.epoch) } else m }

theorem State.activated_ids {s : State} {q : PendingSwitch} {t : SlotTable} {k : CmdId} (h : ∃ m ∈ (s.activated q t).fabric.out, m.id = some k) :
    ∃ m ∈ s.fabric.out, m.id = some k := by
  obtain ⟨m, mem, named⟩ := h
  obtain ⟨x, held, rfl⟩ := List.mem_map.1 mem
  refine ⟨x, held, ?_⟩
  rw [← named]
  split <;> rfl

theorem State.switchNow_switched (s : State) (q : PendingSwitch) (t : SlotTable) : State.Switched q t s (s.switchNow q t) := by
  have stops := ((s.activated q t).dropStale_spec t false).1
  unfold State.switchNow
  dsimp only
  rw [← State.activated]
  generalize (s.activated q t).dropStale t false = u at stops ⊢
  obtain ⟨out, cmds, eq⟩ := stops.rest
  have fabric := u.logTrace_fabric 0 0x0601 t.id q.frame
  have logged : (u.logTrace 0 0x0601 t.id q.frame).cmds = u.cmds := by
    obtain ⟨_, _, _, same⟩ := u.logTrace_rest 0 0x0601 t.id q.frame
    rw [same]
  generalize u.logTrace 0 0x0601 t.id q.frame = v at fabric logged ⊢
  have now : v.fabric = { (s.activated q t).fabric with out := out } := by rw [fabric, eq]
  have stands (k : CmdId) (e : Ending) (h : s.EndedAs k e) : v.EndedAs k e := .of_cmds_eq logged (stops.stands k e h)
  cases by' : q.by' with
  | none =>
    dsimp only
    refine ⟨?_, ?_, ?_, ?_, ?_, ?_, stands, fun k named => by rw [by'] at named; cases named⟩
    all_goals rw [now]; rfl
  | some id =>
    dsimp only
    refine ⟨?_, ?_, ?_, ?_, ?_, ?_, fun k e h => (stands k e h).finish .., fun k named live none => ?_⟩
    on_goal 7 =>
      rw [by'] at named
      cases named
      obtain ⟨b, found, open'⟩ := live
      have same := stops.others id fun h => (State.activated_ids h).elim fun m held => none m held.1 held.2
      exact State.Unended.finish ⟨b, (State.cmd?_of_cmds_eq logged id).trans (same.trans found), open'⟩ _
    all_goals rw [State.finish_fabric, now]; rfl

theorem exec_failoverSwitch_due {s : State} {q : PendingSwitch} {t : SlotTable} (pending : s.fabric.pendingSwitch = some q)
    (standby : s.fabric.standby = some t) (failover : q.failover = true) (due : q.frame ≤ s.frame) :
    exec .failoverSwitch s = .next ((s.cmds.foldl State.failOne s).switchNow q t) := by
  have stops := s.failAll_stops
  have run : exec .failoverSwitch s = .next ((s.cmds.foldl State.failOne s).tableSwitch true) :=
    congrArg Host.Outcome.next (if_pos ⟨by simp [pending, failover, due], by simp [standby]⟩)
  rw [run]
  generalize s.cmds.foldl State.failOne s = u at stops ⊢
  obtain ⟨out, cmds, rfl⟩ := stops.rest
  unfold State.tableSwitch
  dsimp only
  rw [pending, standby]
  exact congrArg Host.Outcome.next (if_pos ⟨failover, due⟩)

theorem exec_failoverSwitch_early {s : State} {q : PendingSwitch} (pending : s.fabric.pendingSwitch = some q) (early : s.frame < q.frame) :
    exec .failoverSwitch s = .next s := by
  refine congrArg Host.Outcome.next (if_neg fun h => ?_)
  have due := h.1
  rw [pending, Option.any_some, Bool.and_eq_true, decide_eq_true_eq] at due
  omega

theorem exec_tableSwitch_pending {s : State} {q : PendingSwitch} {t : SlotTable} (pending : s.fabric.pendingSwitch = some q)
    (standby : s.fabric.standby = some t) :
    exec .tableSwitch s = .next (if q.failover = false ∧ q.frame ≤ s.frame then s.switchNow q t else s) := by
  refine congrArg Host.Outcome.next ?_
  rw [State.tableSwitch, pending, standby]

/-- Settles O42: loading, scheduling, the cutoff, the switch by its kind, and the retired table. -/
theorem slotTablesLoadAndSwitch : Obligations.SlotTablesLoadAndSwitch := by
  intro s id c f dies
  refine ⟨fun x img runs source settled long head sound inside whole => ?load, fun runs fresh settled x standby => ?schedule,
    fun x standby => ⟨fun early => ?early, fun late => ?cutoff⟩, fun q x pending standby => ?switch, fun x retired => ?discard⟩
  case load =>
    obtain rfl : c.id = id := runs.id_eq
    have reads := State.slotTableLoad_reads source settled long head sound inside whole
    obtain ⟨fabric, same⟩ := s.moved_shell c.id x 0 (imgBytes img) 0
    have live : (s.moved c.id x 0 (imgBytes img) 0).Unended c.id := runs.unended.moved ..
    have serve : dies = fun d => ((s.moved c.id x 0 (imgBytes img) 0).die d).inService := by
      funext d
      simp only [dies, State.die, same]
    have run : exec (.slotTableLoad c.id) s = .next _ := congrArg Host.Outcome.next ((State.onCmd_of_runs runs _).trans reads)
    rw [serve]
    generalize s.moved c.id x 0 (imgBytes img) 0 = u at *
    refine ⟨fun o fault => ?_, fun e clean excess => ?_, fun clean fits => ?_⟩
    · rw [State.loadTable_faulty fault] at run
      exact ⟨_, run, fabric, live.finish _⟩
    · rw [State.loadTable_excess clean excess] at run
      exact ⟨_, run, fabric, live.finish _⟩
    · rw [State.loadTable_sound clean fits] at run
      refine ⟨_, run, ?_, State.Unended.finish (live.sameCmds rfl) _⟩
      rw [State.finish_fabric, State.setFabric_fabric, fabric]
  case schedule =>
    obtain rfl : c.id = id := runs.id_eq
    exact congrArg Host.Outcome.next ((State.onCmd_of_runs runs _).trans (State.slotTableSwitch_fresh fresh settled standby))
  case early =>
    refine congrArg Host.Outcome.next ?_
    rw [standby]
    exact if_neg (by simp [early])
  case cutoff =>
    obtain ⟨stops, kept⟩ := s.dropStale_spec x true
    have run : exec .departureCutoff s = .next (s.dropStale x true) := by
      refine congrArg Host.Outcome.next ?_
      rw [standby]
      exact if_pos late
    refine ⟨_, run, ?_, fun m mem => ⟨stops.fewer m mem, fun own under => ?_⟩⟩
    · obtain ⟨out, cmds, eq⟩ := stops.rest
      rw [eq]
    · obtain ⟨r, found, keeps⟩ := (Option.any_eq_true ..).1 (kept m mem own fun _ => under)
      exact ⟨r, found, by simpa [under] using keeps⟩
  case switch =>
    intro row
    by_cases failover : q.failover = true
    case neg =>
      have run := exec_tableSwitch_pending pending standby
      have planned : q.failover = false := by simpa using failover
      have named : row = .tableSwitch := if_neg failover
      rw [named, run]
      refine ⟨fun early => congrArg Host.Outcome.next (if_neg fun h => absurd h.2 (Nat.not_le.2 early)), fun due => ?_⟩
      obtain ⟨active, standby, retired, frame, pending, last, -, ends⟩ := s.switchNow_switched q x
      exact ⟨_, congrArg Host.Outcome.next (if_pos ⟨planned, due⟩), active, standby, retired, frame, pending, last,
        fun k b by' runs clear _ => ends k by' runs.unended clear, fun _ _ _ _ over' => absurd over' failover⟩
    case pos =>
      have named : row = .failoverSwitch := if_pos failover
      rw [named]
      refine ⟨exec_failoverSwitch_early pending, fun due => ⟨_, exec_failoverSwitch_due pending standby failover due, ?_⟩⟩
      have stops := s.failAll_stops
      obtain ⟨out, cmds, eq⟩ := stops.rest
      obtain ⟨active, standby, retired, frame, pending, last, stands, ends⟩ := (s.cmds.foldl State.failOne s).switchNow_switched q x
      refine ⟨active, standby, retired.trans (by rw [eq]), frame, pending, last, fun k b by' runs clear alone => ?_,
        fun k b op send _ runs => ?_⟩
      · refine ends k by' ⟨b, (stops.others k ?_).trans runs.found, runs.live⟩ fun m mem => clear m (stops.fewer m mem)
        rintro ⟨c, mem, ⟨-, sends⟩, named⟩
        rw [alone failover c mem named] at sends
        simp [isOpcode, runs.opcode] at sends
      · refine stands k _ (State.failAll_ends s.cmds s (.inr ⟨runs.unended, b, List.mem_of_find?_eq_some runs.found, ⟨?_, ?_⟩, runs.id_eq⟩))
        · rw [runs.live, Option.isNone_none]
        · simpa [isOpcode, runs.opcode] using send
  case discard =>
    refine congrArg Host.Outcome.next (if_congr ?_ rfl rfl)
    rw [retired]
    exact and_iff_right rfl

end Sys2Proof.Machine
end

section
/-!
SUPPORT. Units in error (R459–R463): the counts of self-tests, what commands that are lost leave alone, a cell that gives up its slot,
and a die that is lost.
-/
set_option Elab.async false
namespace Sys2Proof.Machine

/-! ### The counts of self-tests (Table 18-3) -/

/-- Counters of the outcomes of self-tests. -/
def testCounters : List RegName := [.transientFaults, .lastingFaults]

theorem testCounter_inMap {n : RegName} (h : n ∈ testCounters) {d : Nat} (hd : d < 8) : (regDie n d).inMap := by
  have named : n = .transientFaults ∨ n = .lastingFaults := by simpa [testCounters] using h
  obtain rfl | rfl := named
  · exact ⟨hd, Nat.one_pos⟩
  · exact ⟨hd, Nat.one_pos⟩

/-- From `s` to `t` the counts of self-tests are as they were. -/
structure State.TestCounts (s t : State) : Prop where
  rising : s.regsOk → t.regsOk
  kept : s.regsOk → ∀ n ∈ testCounters, ∀ d, d < 8 → t.rd (regDie n d) = s.rd (regDie n d)

namespace State.TestCounts

variable {s t u : State}

theorem of_regs (h : t.regs = s.regs) : s.TestCounts t := by
  refine ⟨fun ok => ?_, fun _ n _ d _ => State.rd_of_regs_eq h _⟩
  rw [State.regsOk, h]
  exact ok

theorem refl (s : State) : s.TestCounts s := of_regs rfl

theorem trans (h : s.TestCounts t) (k : t.TestCounts u) : s.TestCounts u :=
  ⟨fun ok => k.rising (h.rising ok), fun ok n mem d hd => (k.kept (h.rising ok) n mem d hd).trans (h.kept ok n mem d hd)⟩

theorem foldl {α : Type} {f : State → α → State} {l : List α} (step : ∀ t, ∀ a ∈ l, State.TestCounts t (f t a)) (s : State) :
    s.TestCounts (l.foldl f s) :=
  List.foldlRecOn l f (motive := s.TestCounts) (refl s) fun t h a mem => h.trans (step t a mem)

/-- A count of lost commands or replayed tasks, on any die. -/
theorem bumpDie (s : State) {m : RegName} (named : m = .nonReplayableFaults ∨ m = .tasksReplayed) (d n : Nat) :
    s.TestCounts (s.bump (regDie m d) n) := by
  refine ⟨State.bump_regsOk _ n, fun ok q mem k _ => State.rd_bump_other n ok fun same => ?_⟩
  have other : q = .transientFaults ∨ q = .lastingFaults := by simpa [testCounters] using mem
  have addr (n : RegName) (d : Nat) (block : n.info.block = .die) : (regDie n d).addr = d * 0x400000 + n.info.off := by
    simp only [Reg.addr, regDie, block, Block.base, dieStride, Nat.mul_zero, Nat.add_zero]
  obtain rfl | rfl := named <;> obtain rfl | rfl := other
  all_goals
    rw [addr _ _ rfl, addr _ _ rfl] at same
    simp only [RegName.info] at same
    omega

/-- A register of the map that is no such count. -/
theorem wr (s : State) {r : Reg} (hr : r.inMap) (other : r.name ∉ testCounters) (v : Nat) : s.TestCounts (s.wr r v) := by
  refine ⟨State.wr_regsOk r v, fun ok n mem d hd => State.rd_wr_other v ok (addr_ne_of_name (testCounter_inMap mem hd) hr fun same => ?_)⟩
  exact other (same ▸ mem)

theorem portDown (s : State) (p n : Nat) : s.TestCounts (s.portDown p n) := by
  refine ⟨(State.portDown_keeps s p n (.refl ..)).regs, fun ok m mem d hd =>
    State.rd_portDown ok p n (testCounter_inMap mem hd) fun same => ?_⟩
  rw [show m = _ from same] at mem
  exact absurd mem (by decide)

theorem logTrace (s : State) (die code a b : Nat) : s.TestCounts (s.logTrace die code a b) := by
  refine ⟨(State.logTrace_keeps (lp := false) (lq := false) s die code a b (.refl ..)).regs, fun ok m mem d hd =>
    State.rd_logTrace ok _ _ _ _ (testCounter_inMap mem hd) fun same => ?_⟩
  rw [show m = _ from same] at mem
  exact absurd mem (by decide)

end State.TestCounts

/-! ### Commands that are lost (R463) -/

/-- From `s` to `t` commands have been lost or offered again: cells, dies and fault state are as they were, and the counts of
self-tests too. -/
structure State.Loses (s t : State) : Prop where
  rest : ∃ regs mem cmds held fabric step free,
    t = { s with regs := regs, mem := mem, cmds := cmds, held := held, fabric := fabric, step := step, freeCount := free }
  counts : s.TestCounts t

namespace State.Loses

variable {s t u : State}

theorem refl (s : State) : s.Loses s := ⟨⟨_, _, _, _, _, _, _, rfl⟩, .refl s⟩

theorem trans (h : s.Loses t) (k : t.Loses u) : s.Loses u := by
  refine ⟨?_, h.counts.trans k.counts⟩
  obtain ⟨_, _, _, _, _, _, _, rfl⟩ := h.rest
  obtain ⟨regs, mem, cmds, held, fabric, step, free, rfl⟩ := k.rest
  exact ⟨regs, mem, cmds, held, fabric, step, free, rfl⟩

theorem foldl {α : Type} {f : State → α → State} {l : List α} (step : ∀ t, ∀ a ∈ l, State.Loses t (f t a)) (s : State) :
    s.Loses (l.foldl f s) :=
  List.foldlRecOn l f (motive := s.Loses) (refl s) fun t h a mem => h.trans (step t a mem)

theorem ofMem (h : s.SameButMem t) : s.Loses t := by
  obtain ⟨mem, free, rfl⟩ := h
  exact ⟨⟨_, _, _, _, _, _, _, rfl⟩, .of_regs rfl⟩

theorem setCmds (s : State) (cmds : List Cmd) : s.Loses { s with cmds := cmds } := ⟨⟨_, _, _, _, _, _, _, rfl⟩, .of_regs rfl⟩

theorem updCmd (s : State) (id : CmdId) (f : Cmd → Cmd) : s.Loses (s.updCmd id f) := setCmds ..

theorem setHeld (s : State) (held : List HoldSet) : s.Loses { s with held := held } := ⟨⟨_, _, _, _, _, _, _, rfl⟩, .of_regs rfl⟩

theorem setFabric (s : State) (f : FabricSt → FabricSt) : s.Loses (s.setFabric f) := ⟨⟨_, _, _, _, _, _, _, rfl⟩, .of_regs rfl⟩

theorem raise (s : State) (n bit : Nat) : s.Loses (s.raise n bit) := by
  obtain ⟨step, eq⟩ := s.raise_rest n bit
  rw [eq]
  exact ⟨⟨_, _, _, _, _, _, _, rfl⟩, .of_regs rfl⟩

theorem bumpDie (s : State) {m : RegName} (named : m = .nonReplayableFaults ∨ m = .tasksReplayed) (d n : Nat) :
    s.Loses (s.bump (regDie m d) n) := ⟨⟨_, _, _, _, _, _, _, rfl⟩, .bumpDie s named d n⟩

theorem countLoss (s : State) (die : Nat) : s.Loses (s.countLoss die) := (bumpDie s (.inl rfl) die 1).trans (.raise ..)

theorem stopProduct (s : State) (c : Cmd) (g : Geo) (e : Ending) : s.Loses (s.stopProduct c g e) :=
  (ite_cases (P := s.Loses) (ofMem (s.undefined_sameButMem ..)) (.refl s)).trans (.updCmd ..)

theorem settleProduct (s : State) (id : CmdId) (g : Geo) : s.Loses (s.settleProduct id g) := by
  unfold State.settleProduct
  split
  · exact .refl s
  · split
    · exact ite_cases (P := s.Loses) (.refl s) (.stopProduct ..)
    · refine ite_cases (P := s.Loses) (.refl s) ?_
      extract_lets t u
      have dropped : s.Loses t := ite_cases (P := s.Loses) (.setHeld ..) (.refl s)
      have stored : t.Loses u := ite_cases (P := t.Loses) (.refl t) (ofMem (t.setStored_sameButMem ..))
      exact (dropped.trans stored).trans (.updCmd ..)

theorem loseProduct (s : State) (id : CmdId) (die seq : Nat) : s.Loses (s.loseProduct id die seq) := by
  unfold State.loseProduct
  split
  · exact .refl s
  · refine ite_cases (P := s.Loses) (.refl s) ?_
    extract_lets t
    have stopped : s.Loses t := ((countLoss s die).trans (.updCmd ..)).trans (.updCmd ..)
    split
    · exact stopped.trans (.settleProduct ..)
    · exact stopped.trans (.updCmd ..)

theorem loseCommand (s : State) (c : Cmd) (die seq : Nat) : s.Loses (s.loseCommand c die seq) :=
  ite_cases (P := s.Loses) (.refl s) (ite_cases (P := s.Loses) (.loseProduct ..)
    ((((countLoss s die).trans (ofMem (State.undefineDest_sameButMem ..))).trans (.setFabric ..)).trans (.updCmd ..)))

theorem reoffer (s : State) (id : CmdId) (die : Nat) (ts : List Nat) : s.Loses (s.reoffer id die ts) :=
  ite_cases (P := s.Loses) (.refl s) ((updCmd s id _).trans (.bumpDie _ (.inr rfl) ..))

theorem loseVacant (s : State) (l die seq : Nat) : s.Loses (s.loseVacant l die seq) := by
  refine foldl (fun t c _ => ite_cases (P := t.Loses) (.refl t) ?_) s
  split
  · exact .refl t
  · exact ite_cases (P := t.Loses) ((setHeld t _).trans (.loseProduct ..)) (ite_cases (P := t.Loses) (.loseProduct ..) (.refl t))

theorem reholdOn (s : State) (l die : Nat) : s.Loses (s.reholdOn l die) := by
  refine foldl (fun t c _ => ite_cases (P := t.Loses) (.refl t) ?_) s
  split
  · exact .refl t
  · exact (updCmd t _ _).trans (.reoffer ..)

theorem loseBatches (s : State) (die seq : Nat) (combiner : Bool) : s.Loses (s.loseBatches die seq combiner) :=
  foldl (fun t _ _ => ite_cases (P := t.Loses) (.refl t) (ite_cases (P := t.Loses)
    (((countLoss t die).trans (.setFabric ..)).trans (.updCmd ..)) (.loseCommand ..))) s

theorem faultUpdater (s : State) (die : Nat) : s.Loses (s.faultUpdater die) := foldl (fun t k _ => .raise t k bitFault) s

variable (h : s.Loses t)
include h

theorem cells : t.cells = s.cells := by obtain ⟨_, _, _, _, _, _, _, rfl⟩ := h.rest; rfl
theorem dies : t.dies = s.dies := by obtain ⟨_, _, _, _, _, _, _, rfl⟩ := h.rest; rfl
theorem faults : t.faults = s.faults := by obtain ⟨_, _, _, _, _, _, _, rfl⟩ := h.rest; rfl
theorem cell (k : Nat) : t.cell k = s.cell k := State.cell_of_cells_eq h.cells k
theorem lslot (l : Nat) : t.lslot l = s.lslot l := State.lslot_of_dies_eq h.dies l

end State.Loses

/-! ### The record of a self-test (R459, Table 18-3) -/

theorem State.faultRecord_faults (s : State) (f : FaultRec) : (s.faultRecord f).faults.tests = s.faults.tests
    ∧ (s.faultRecord f).faults.linksDown = s.faults.linksDown ∧ (s.faultRecord f).faults.seq = s.faults.seq + 1 := by
  obtain ⟨-, w, eq⟩ := s.faultRecord_numbered f
  rw [eq]
  exact ⟨rfl, rfl, rfl⟩

theorem State.tested_of_tests_eq {s t : State} (h : t.faults.tests = s.faults.tests) (u : UnitId) : t.tested u = s.tested u := by
  rw [State.tested, State.tested, h]

theorem State.tested_endTest (s : State) (u : UnitId) : (s.endTest u).tested u = false := by
  rw [State.tested, List.any_eq_false]
  intro x mem is
  have other := (List.mem_filter.1 mem).2
  rw [bne_iff_ne] at other
  exact other (beq_iff_eq.1 is)

/-- The count of self-tests with an outcome. -/
def testCounter (outcome : Nat) : RegName := if outcome = 1 then .transientFaults else .lastingFaults

theorem testCounter_mem (outcome : Nat) : testCounter outcome ∈ testCounters := by
  unfold testCounter
  split
  · exact List.mem_cons_self
  · exact List.mem_cons_of_mem _ List.mem_cons_self

/-- From `s` to `t` the outcome of a self-test of a unit of die `d` has been recorded. -/
structure State.TestRecorded (d outcome : Nat) (s t : State) : Prop where
  cmds : t.cmds = s.cmds
  cells : t.cells = s.cells
  dies : t.dies = s.dies
  tests : t.faults.tests = s.faults.tests
  links : t.faults.linksDown = s.faults.linksDown
  rising : s.regsOk → t.regsOk
  count : s.regsOk → d < 8 → t.rd (regDie (testCounter outcome) d) = (s.rd (regDie (testCounter outcome) d) + 1) % 2 ^ 64

theorem State.testRecord_recorded (s : State) (u : UnitId) (logical : Option (Nat × Nat)) (id : Option CmdId) (outcome : Nat) :
    State.TestRecorded u.die outcome s (s.testRecord u logical id outcome) := by
  let counted := s.bump (regDie (testCounter outcome) u.die) 1
  let noted := counted.faultRecord ⟨.unit, outcome, u, logical, whereOf id⟩
  obtain ⟨tests, links, -⟩ := counted.faultRecord_faults ⟨.unit, outcome, u, logical, whereOf id⟩
  have regs : noted.regs = counted.regs := counted.faultRecord_regs _
  have logs := State.TestCounts.logTrace noted u.die 0x0301 s.faults.seq outcome
  obtain ⟨_, _, _, eq⟩ := noted.logTrace_rest u.die 0x0301 s.faults.seq outcome
  have ok (h : s.regsOk) : noted.regsOk := (State.TestCounts.of_regs regs).rising (State.bump_regsOk _ 1 h)
  have run : s.testRecord u logical id outcome = noted.logTrace u.die 0x0301 s.faults.seq outcome := rfl
  rw [run]
  refine ⟨?_, ?_, ?_, ?_, ?_, fun h => logs.rising (ok h), fun h hd => ?_⟩
  · rw [eq]
    exact counted.faultRecord_cmds _
  · rw [eq]
    exact counted.faultRecord_cells' _
  · rw [eq]
    exact counted.faultRecord_dies _
  · rw [eq]
    exact tests
  · rw [eq]
    exact links
  · rw [logs.kept (ok h) _ (testCounter_mem outcome) _ hd, State.rd_of_regs_eq regs]
    exact State.rd_bump_same _ 1 h

/-! ### A unit that passes (R459, R462) -/

/-- What a pass leaves of the tests and of their count. -/
theorem State.testPass_spec {s : State} (ok : s.regsOk) {u : UnitId} (hd : u.die < 8) (id : Option CmdId) (seq : Nat) :
    (s.testPass u id seq).tested u = false
    ∧ (s.testPass u id seq).rd (regDie .transientFaults u.die) = (s.rd (regDie .transientFaults u.die) + 1) % 2 ^ 64 := by
  have recorded (logical : Option (Nat × Nat)) := (s.endTest u).testRecord_recorded u logical id 1
  have after {logical : Option (Nat × Nat)} {t : State} (tests : t.faults.tests = ((s.endTest u).testRecord u logical id 1).faults.tests)
      (counts : ((s.endTest u).testRecord u logical id 1).TestCounts t) : t.tested u = false
        ∧ t.rd (regDie .transientFaults u.die) = (s.rd (regDie .transientFaults u.die) + 1) % 2 ^ 64 := by
    refine ⟨(State.tested_of_tests_eq (tests.trans (recorded logical).tests) u).trans (s.tested_endTest u), ?_⟩
    exact (counts.kept ((recorded logical).rising ok) _ List.mem_cons_self _ hd).trans ((recorded logical).count ok hd)
  have lost {t : State} (loses : ((s.endTest u).testRecord u none id 1).Loses t) := after (congrArg FaultSt.tests loses.faults) loses.counts
  unfold State.testPass
  dsimp only
  split
  · exact after rfl (.of_regs rfl)
  · split
    · exact after rfl (.of_regs rfl)
    · exact after rfl (.refl _)
  · exact lost (.loseBatches ..)
  · exact lost (.loseBatches ..)
  · exact lost (.faultUpdater ..)
  · exact lost (.faultUpdater ..)
  · exact after rfl (.refl _)

/-! ### A cell that gives up its slot (R280, R281) -/

/-- A cell out of every slot and pool, fenced, without tasks. -/
def Cell.Gone (x : Cell) : Prop := x.mode = .fenced ∧ x.logical = none ∧ x.tasks = []

theorem Cell.Gone.of_bare {x y : Cell} (h : y.Gone) (e : x.bare = y.bare) : x.Gone :=
  ⟨(congrArg Cell.mode e :).trans h.1, (congrArg Cell.logical e :).trans h.2.1, (congrArg Cell.tasks e :).trans h.2.2⟩

theorem State.fenceCell_shell (s : State) (cell : Nat) : (s.fenceCell cell).regs = s.regs ∧ (s.fenceCell cell).faults = s.faults
    ∧ ((s.fenceCell cell).cell cell).Gone ∧ ((s.fenceCell cell).cell cell).inPool = false := by
  refine ⟨?_, ?_, ?_⟩
  · rw [State.fenceCell_eq]
    cases (s.cell cell).logical <;> rfl
  · rw [State.fenceCell_eq]
    cases (s.cell cell).logical <;> rfl
  · rw [State.fenceCell_cell, State.updCell_same]
    exact ⟨⟨rfl, rfl, rfl⟩, rfl⟩

theorem ownerReg_not_counter (cell bank : Nat) : (ownerReg cell bank).name ∉ testCounters := by
  unfold ownerReg
  split
  · exact (by decide : RegName.bankOwner ∉ testCounters)
  · exact (by decide : RegName.accSlotOwner ∉ testCounters)

theorem State.ownerWrite_counts (s : State) {p b : Nat} (hp : p < 832) (hb : b < 32) (v : Nat) : s.TestCounts (s.ownerWrite p b v) := by
  have written : s.TestCounts (s.wr (ownerReg p b) (v % 128)) := .wr s (ownerReg_inMap hp hb) (ownerReg_not_counter p b) _
  unfold State.ownerWrite
  dsimp only
  split
  · exact written.trans (.of_regs rfl)
  · exact written.trans (.of_regs rfl)

theorem State.spareTaken_counts (s : State) (l : Nat) {p : Nat} (hp : p < 832) : s.TestCounts (s.spareTaken l p) := by
  have taken : s.TestCounts ((s.updLslot l fun x => { x with phys := some (p % 104) }).updCell p (Cell.place l)) := .of_regs rfl
  exact taken.trans (.foldl (fun t b mem => t.ownerWrite_counts hp (List.mem_range.1 mem) _) _)

theorem State.spare_of_cells_eq {s t : State} (h : t.cells = s.cells) (die : Nat) : t.spare die = s.spare die :=
  State.spare_congr (fun k => congrArg Cell.inPool (State.cell_of_cells_eq h k)) (fun k _ => congrArg Cell.mode (State.cell_of_cells_eq h k)) die

/-- What a substitution leaves: the cell out of its slot, and the slot with the spare under its next incarnation. -/
structure State.Replaced (cell : Nat) (s t : State) : Prop where
  counts : s.TestCounts t
  faults : t.faults = s.faults
  gone : (t.cell cell).Gone

/-- The slot's tiles dropped and their tasks offered again, its cell fenced. -/
def State.slotReleased (s : State) (cell l : Nat) : State := ((s.fenceCell cell).dropHeldOn l).reholdOn l (cell / 104)

theorem State.slotReleased_loses (s : State) (cell l : Nat) : (s.fenceCell cell).Loses (s.slotReleased cell l) :=
  (State.Loses.setHeld ..).trans (.reholdOn ..)

theorem State.slotReleased_replaced (s : State) (cell l : Nat) : State.Replaced cell s (s.slotReleased cell l) := by
  obtain ⟨regs, faults, gone, -⟩ := s.fenceCell_shell cell
  have loses := s.slotReleased_loses cell l
  exact ⟨.trans (.of_regs regs) loses.counts, loses.faults.trans faults, loses.cell cell ▸ gone⟩

/-- The slot is vacant, and what needed it is lost. -/
theorem State.Replaced.vacant {cell : Nat} {s t : State} (h : State.Replaced cell s t) (l die seq : Nat) :
    State.Replaced cell s ((t.updLslot l LSlot.vacate).loseVacant l die seq) := by
  have loses := State.Loses.loseVacant (t.updLslot l LSlot.vacate) l die seq
  have vacated : t.TestCounts (t.updLslot l LSlot.vacate) := .of_regs rfl
  exact ⟨h.counts.trans (vacated.trans loses.counts), loses.faults.trans h.faults, loses.cell cell ▸ h.gone⟩

theorem State.replaceCell_replaced {s : State} {cell : Nat} (slot : ∀ l, (s.cell cell).logical = some l → l < 768) (seq : Nat) (sparing : Bool) :
    State.Replaced cell s (s.replaceCell cell seq sparing).1 := by
  cases fills : (s.cell cell).logical with
  | none =>
    obtain ⟨regs, faults, gone, -⟩ := s.fenceCell_shell cell
    rw [State.replaceCell, fills]
    exact ⟨.of_regs regs, faults, gone⟩
  | some l =>
    have released := s.slotReleased_replaced cell l
    rw [State.replaceCell, fills]
    dsimp only
    rw [← State.slotReleased]
    cases sparing with
    | false => exact released.vacant l (cell / 104) seq
    | true =>
      rw [if_pos rfl]
      cases spare : (s.slotReleased cell l).spare (l / 96) with
      | none =>
        rw [State.fillSlot_none spare]
        exact released.vacant l (cell / 104) seq
      | some p =>
        rw [State.fillSlot_some spare]
        obtain ⟨place, inPool⟩ := State.spare_place spare
        have small := slot l fills
        have moves := ((s.slotReleased cell l).updLslot l LSlot.vacate).spareTaken_moves l p
        have vacated : (s.slotReleased cell l).TestCounts ((s.slotReleased cell l).updLslot l LSlot.vacate) := .of_regs rfl
        have hp : p < 832 := by omega
        have taken := ((s.slotReleased cell l).updLslot l LSlot.vacate).spareTaken_counts l hp
        dsimp only
        refine ⟨released.counts.trans (vacated.trans taken), ?_, ?_⟩
        · obtain ⟨_, _, _, eq⟩ := moves.rest
          exact (congrArg State.faults eq :).trans released.faults
        · have apart : cell ≠ p := by
            rintro rfl
            rw [(s.slotReleased_loses cell l).cell, (s.fenceCell_shell cell).2.2.2] at inPool
            cases inPool
          exact released.gone.of_bare (State.spareTaken_cell_other _ l apart)

/-- With a spare, the slot stands under its next incarnation on the spare (R280). -/
theorem State.replaceCell_slot {s : State} {cell l p : Nat} (fills : (s.cell cell).logical = some l) (outside : (s.cell cell).inPool = false)
    (spare : s.spare (l / 96) = some p) (seq : Nat) : ((s.replaceCell cell seq true).1.lslot l).phys = some (p % 104)
      ∧ ((s.replaceCell cell seq true).1.lslot l).inc = ((s.lslot l).inc + 1) % 256 := by
  have loses := s.slotReleased_loses cell l
  have there : (s.slotReleased cell l).spare (l / 96) = some p :=
    (State.spare_of_cells_eq loses.cells _).trans ((State.fenceCell_spare outside _).trans spare)
  have slot := ((s.slotReleased cell l).updLslot l LSlot.vacate).spareTaken_lslot l p
  rw [State.lslot_updLslot, if_pos rfl, loses.lslot, State.fenceCell_lslot fills] at slot
  rw [State.replaceCell, fills]
  dsimp only
  rw [← State.slotReleased, if_pos rfl, State.fillSlot_some there]
  dsimp only
  generalize ((s.slotReleased cell l).updLslot l LSlot.vacate).spareTaken l p = t at slot ⊢
  have phys := congrArg LSlot.phys slot
  have inc := congrArg LSlot.inc slot
  simp only [LSlot.bare, LSlot.vacate] at phys inc
  exact ⟨phys, inc⟩

/-! ### A die that is lost (R465) -/

/-- From `s` to `t` dies have been lost: the counts of self-tests and the links are as they were, and no test is new. -/
structure State.DiesFell (s t : State) : Prop where
  counts : s.TestCounts t
  links : t.faults.linksDown = s.faults.linksDown
  tests : ∀ x ∈ t.faults.tests, x ∈ s.faults.tests

theorem State.DiesFell.trans {s t u : State} (h : s.DiesFell t) (k : t.DiesFell u) : s.DiesFell u :=
  ⟨h.counts.trans k.counts, k.links.trans h.links, fun x mem => h.tests x (k.tests x mem)⟩

theorem State.DiesFell.tested {s t : State} (h : s.DiesFell t) {u : UnitId} (over' : s.tested u = false) : t.tested u = false := by
  rw [State.tested, List.any_eq_false] at over' ⊢
  exact fun x mem => over' x (h.tests x mem)

theorem State.loseAll_loses (s : State) (p : Cmd → Bool) (die seq : Nat) (l : List Cmd) : s.Loses (s.loseAll p die seq l) :=
  .foldl (fun t _ _ => ite_cases (P := t.Loses) (.loseCommand ..) (.refl t)) s

theorem State.abortAll_regs (s : State) : s.abortAll.regs = s.regs := by
  unfold State.abortAll
  refine List.foldlRecOn _ _ (motive := fun t : State => t.regs = s.regs) rfl fun t ht e _ => ?_
  refine List.foldlRecOn _ _ (motive := fun t : State => t.regs = s.regs) ht fun u hu q _ => ?_
  obtain ⟨ctxs, eq⟩ := u.abortQueue_rest e.1 q.1
  rw [eq]
  exact hu

theorem State.loseOne_fell (s : State) (d : Nat) : s.DiesFell (s.loseOne d) := by
  obtain ⟨tests, links, -⟩ := s.faultRecord_faults ⟨.die, 0, ⟨13, d, 0⟩, none, noWhere⟩
  obtain ⟨_, _, _, _, _, rest⟩ := s.dieOut_rest d
  have ends := s.dieLost_endsCommands d
  have unmapped : s.TestCounts (s.dieUnmapped d) := .of_regs (s.faultRecord_regs ⟨.die, 0, ⟨13, d, 0⟩, none, noWhere⟩)
  have down : (s.dieUnmapped d).TestCounts (s.dieOut d) :=
    State.TestCounts.foldl (f := fun t p => t.portDown p 8) (l := portsOf d) (fun t p _ => .portDown t p 8) (s.dieUnmapped d)
  let v := (s.dieOut d).loseAll (fun c => (s.dieOut d).touches c d) d s.faults.seq (s.dieOut d).cmds
  have lost : (s.dieOut d).TestCounts v := (State.loseAll_loses ..).counts
  let w := v.abortAll.raiseFault
  have raised : w.regs = v.abortAll.regs := State.raise_regs v.abortAll v.abortAll.step.oldest bitFault
  have aborted : v.TestCounts w := .of_regs (raised.trans v.abortAll_regs)
  have closed : w.TestCounts (w.setSteps fun x => { x with opened := false }) := .of_regs (w.setSteps_regs _)
  have counts := unmapped.trans (down.trans (lost.trans (aborted.trans closed)))
  rw [State.loseOne_eq]
  constructor
  case counts => exact counts
  case links =>
    rw [State.setSteps_faults, ends.faults, rest]
    exact links
  case tests =>
    intro x mem
    rw [State.setSteps_faults, ends.faults, rest] at mem
    rw [← tests]
    exact (List.mem_filter.1 mem).1

theorem State.loseCutOff_fell (fuel : Nat) (s : State) : s.DiesFell (s.loseCutOff fuel) :=
  State.loseCutOff_induct (P := s.DiesFell) (fun t k h => h.trans (t.loseOne_fell k)) fuel ⟨.refl s, rfl, fun _ h => h⟩

/-! ### A unit that fails (R459) -/

/-- What a failure leaves: no test of the unit, and its count. -/
structure State.Failed (u : UnitId) (s t : State) : Prop where
  tested : t.tested u = false
  count : t.rd (regDie .lastingFaults u.die) = (s.rd (regDie .lastingFaults u.die) + 1) % 2 ^ 64

theorem State.testRecord_failed {s t : State} {u : UnitId} (ok : s.regsOk) (counts : s.TestCounts t) (hd : u.die < 8)
    (over' : t.tested u = false) (logical : Option (Nat × Nat)) (id : Option CmdId) : State.Failed u s (t.testRecord u logical id 2) := by
  have recorded := t.testRecord_recorded u logical id 2
  refine ⟨(State.tested_of_tests_eq recorded.tests u).trans over', ?_⟩
  exact (recorded.count (counts.rising ok) hd).trans (by rw [counts.kept ok _ (testCounter_mem 2) _ hd]; rfl)

theorem State.Failed.fell {s t v : State} {u : UnitId} (h : State.Failed u s t) (ok : t.regsOk) (hd : u.die < 8) (fell : t.DiesFell v) :
    State.Failed u s v :=
  ⟨fell.tested h.tested, (fell.counts.kept ok .lastingFaults (List.mem_cons_of_mem _ List.mem_cons_self) _ hd).trans h.count⟩

/-- A cell that fails, its slot not draining. -/
theorem State.testFail_cell {s : State} {u : UnitId} (kind : u.kind = 0)
    (settled : ∀ l, (s.cell (u.die * 104 + u.index)).logical = some l → (s.lslot l).draining = false) (id : Option CmdId) : ∃ logical,
    s.testFail u id = (((s.endTest u).replaceCell (u.die * 104 + u.index) s.faults.seq (s.fld (regDie0 .faultControl) 0 0 == 1)).1.testRecord
      u logical id 2) := by
  rw [State.testFail, kind]
  refine ⟨_, if_neg ?_⟩
  rw [Option.any_eq_true]
  rintro ⟨l, fills, draining⟩
  rw [settled l fills] at draining
  cases draining

/-- A link out of service. -/
def State.linkOut (s : State) (k : Nat) : State := { s with faults := { s.faults with linksDown := insertKey s.faults.linksDown k } }

theorem State.testFail_link {s : State} {u : UnitId} (kind : u.kind = 7) (id : Option CmdId) :
    s.testFail u id = (((s.endTest u).testRecord u none id 2).linkOut u.index).loseCutOff 8 := by
  rw [State.testFail, kind]
  rfl

theorem State.testFail_die {s : State} {u : UnitId} (cell : u.kind ≠ 0) (link : u.kind ≠ 7) (id : Option CmdId) :
    s.testFail u id = ((s.endTest u).testRecord u none id 2).loseDie u.die := by
  unfold State.testFail
  split
  · rename_i kind
    exact absurd kind cell
  · rename_i kind
    exact absurd kind link
  · rfl

/-! ### Descriptors beside a fault record (R457) -/

theorem State.geo_of_slot_eq {s t : State} (h : ∀ k i, t.slot k i = s.slot k i) (id : CmdId) (d : List Byte) (recs : Tab (List Byte)) :
    t.geo id d recs = s.geo id d recs := by
  have run (c k : Nat) : t.tensRun c k = s.tensRun c k := by rw [State.tensRun, State.tensRun, h]
  simp only [State.geo, run]

/-! ### A cell in error (R459–R461) -/

/-- The number `k` of a unit's cell: the unit of a cell of the die is the unit itself. -/
theorem cellUnit_of_index {u : UnitId} (kind : u.kind = 0) (small : u.index < 104) : cellUnit (u.die * 104 + u.index) = u := by
  obtain ⟨k, d, i⟩ := u
  simp only at kind small
  subst kind
  have die : (d * 104 + i) / 104 = d := by omega
  have index : (d * 104 + i) % 104 = i := by omega
  simp only [cellUnit, die, index]

/-- A cell under a self-test. -/
def Cell.underTest (x : Cell) : Cell := { x with mode := .selfTest }

/-- A cell's error without a word: its record, the quiesce, and the test. -/
theorem State.cellError_eq (s : State) (cell : Nat) (id : Option CmdId) : ∃ f work, s.cellError cell id none false =
    let t := ((s.faultRecord f).quiesce cell s.faults.seq).updCell cell Cell.underTest
    { t with faults := { t.faults with tests := t.faults.tests ++ [(cellUnit cell, work, s.faults.seq)] } } := ⟨_, _, rfl⟩

/-- What one product has after the tasks of a cell are offered again. -/
def Cmd.offered (c : Cmd) (ts : List Nat) : Cmd :=
  { c with reoffered := ts.foldl insertKey c.reoffered, taken := c.taken.filter fun k => !ts.contains k,
           done := c.done.filter fun k => !ts.contains k, replayed := true }

theorem mem_foldl_insertKey {k : Nat} (ts : List Nat) : ∀ l : List Nat, k ∈ ts ∨ k ∈ l → k ∈ ts.foldl insertKey l := by
  induction ts with
  | nil => exact fun l h => h.resolve_left List.not_mem_nil
  | cons a ts ih =>
    intro l h
    refine ih (insertKey l a) ?_
    obtain listed | held := h
    · obtain rfl | later := List.mem_cons.1 listed
      · exact .inr (mem_insertKey_self ..)
      · exact .inl later
    · exact .inr (mem_insertKey_of_mem held)

/-- A product of one segment, not done, whose tasks on a cell are offered again. -/
theorem State.replay_alone {s : State} {c : Cmd} {g : Geo} (found : s.cmd? c.id = some c) (stops : c.run.stop = none)
    (again : c.nonReplayable = false) (segs : g.b.segs = 1) (left : c.done.length < g.tasks) {ts : List Nat} (some' : ts ≠ [])
    (cell seq : Nat) : ((s.replayOn cell seq ts c g).settleProduct c.id g).cmd? c.id = some (c.offered ts) := by
  have offers : s.replayOn cell seq ts c g = (s.updCmd c.id fun x => x.offered ts).bump (regDie .tasksReplayed (cell / 104)) ts.length := by
    have there : ts.isEmpty = false := by simpa using some'
    unfold State.replayOn
    dsimp only
    rw [if_neg (by simp [there]), if_neg (by simp [again]), if_pos segs, State.reoffer, if_neg (by simp [there])]
    rfl
  have now : ((s.updCmd c.id fun x => x.offered ts).bump (regDie .tasksReplayed (cell / 104)) ts.length).cmd? c.id = some (c.offered ts) := by
    refine (State.cmd?_updCmd s c.id (fun x => x.offered ts) fun _ => rfl).trans ?_
    rw [found]
    rfl
  have fewer : (c.offered ts).done.length < g.tasks := lt_of_le_of_lt (List.length_filter_le ..) left
  rw [offers, State.settleProduct, now]
  dsimp only
  rw [show (c.offered ts).run.stop = none from stops]
  dsimp only
  rw [if_pos fewer]
  exact now

/-- The quiesce of a cell whose tasks are all of the one product in flight. -/
theorem State.quiesce_alone {s : State} {c : Cmd} {g : Geo} {cell : Nat} (alone : s.cmds = [c]) (op : isOpcode 0x20 c.desc = true)
    (live : c.ending = none) (geo : (s.updCell cell Cell.quiet).geo c.id c.desc c.records = some g)
    (mine : ∀ k ∈ (s.cell cell).tasks, k.id = c.id) (seq : Nat) : s.quiesce cell seq =
      ((s.updCell cell Cell.quiet).replayOn cell seq ((s.cell cell).tasks.map fun k => k.task) c g).settleProduct c.id g := by
  have all : (s.cell cell).tasks.filter (fun k => k.id == c.id) = (s.cell cell).tasks :=
    List.filter_eq_self.2 fun k mem => beq_iff_eq.2 (mine k mem)
  have product : hOpcode c.desc = 0x20 := by simpa [isOpcode] using op
  unfold State.quiesce
  dsimp only
  rw [show (s.updCell cell _).cmds = [c] from alone, List.foldl_cons, List.foldl_nil, if_neg (by simp [product, live])]
  change (match (s.updCell cell Cell.quiet).geo c.id c.desc c.records with | none => _ | some g => _) = _
  rw [geo]
  dsimp only
  rw [all]
  rfl

/-! ### The rows (R459–R463) -/

theorem State.tests_none {s : State} {u : UnitId} (untested : s.tested u = false) : (s.faults.tests.find? fun t => t.1 == u) = none := by
  rw [List.find?_eq_none]
  exact fun x mem => List.any_eq_false.1 untested x mem

theorem exec_unitError_ready {s : State} (ready : s.ready = true) (u : UnitId) (id : Option CmdId) (word : Option Nat) (own : Bool) :
    exec (.unitError u id word own) s = .next (s.unitError u id word own) := congrArg Host.Outcome.next (if_pos ready)

theorem State.unitError_tested {s : State} {u : UnitId} (there : s.unitThere u = true) (untested : s.tested u = false) (cell : u.kind ≠ 0)
    (die : u.kind ≠ 6) (id : Option CmdId) (word : Option Nat) (own : Bool) : ∃ f, s.unitError u id word own =
      let t := s.faultRecord f
      { t with faults := { t.faults with tests := t.faults.tests ++ [(u, id, s.faults.seq)] } } :=
  ⟨_, (if_neg (by simp [there, untested])).trans ((if_neg cell).trans (if_neg die))⟩

theorem State.unitError_cell {s : State} {u : UnitId} (there : s.unitThere u = true) (untested : s.tested u = false) (cell : u.kind = 0)
    (id : Option CmdId) (word : Option Nat) (own : Bool) : s.unitError u id word own = s.cellError (u.die * 104 + u.index) id word own :=
  (if_neg (by simp [there, untested])).trans (if_pos cell)

theorem State.index_of_there {s : State} {u : UnitId} (there : s.unitThere u = true) (cell : u.kind = 0) : u.index < 104 := by
  rw [State.unitThere, if_pos cell] at there
  simp only [Bool.and_eq_true, decide_eq_true_eq] at there
  exact there.2.1.1

/-- A cell that passes is idle again, and nothing else has changed but the records. -/
theorem State.testPass_cell {s : State} {u : UnitId} (kind : u.kind = 0) (id : Option CmdId) (seq : Nat) :
    (s.testPass u id seq).cell (u.die * 104 + u.index) = { s.cell (u.die * 104 + u.index) with mode := .idle, portsClosed := false }
    ∧ (s.testPass u id seq).cmds = s.cmds := by
  have recorded := (s.endTest u).testRecord_recorded u ((s.endTest u).cellLogical (u.die * 104 + u.index)) id 1
  have run : s.testPass u id seq = ((s.endTest u).testRecord u ((s.endTest u).cellLogical (u.die * 104 + u.index)) id 1).updCell
      (u.die * 104 + u.index) fun x => { x with mode := .idle, portsClosed := false } := by
    rw [State.testPass, kind]
    rfl
  rw [run]
  refine ⟨?_, recorded.cmds⟩
  rw [State.updCell_same, State.cell_of_cells_eq recorded.cells]
  rfl

/-- A Topiary engine that passes runs its command again (R462). -/
theorem State.testPass_engine {s : State} {u : UnitId} (kind : u.kind = 1) {i : CmdId} {c : Cmd} (found : s.cmd? i = some c)
    (live : c.ending = none) (seq : Nat) : (s.testPass u (some i) seq).cmd? i = some { c with replayed := true, begun := false } := by
  have recorded := (s.endTest u).testRecord_recorded u none (some i) 1
  have run : s.testPass u (some i) seq = ((s.endTest u).testRecord u none (some i) 1).updCmd i fun c =>
      if c.ending.isNone then { c with replayed := true, begun := false } else c := by
    rw [State.testPass, kind]
    rfl
  rw [run, State.cmd?_updCmd, State.cmd?_of_cmds_eq recorded.cmds, show (s.endTest u).cmd? i = some c from found]
  · simp [live]
  · intro x
    split <;> rfl

/-- Settles O53: errors, tests that pass and tests that fail. -/
theorem unitErrorsAreTestedAndReplayed : Obligations.UnitErrorsAreTestedAndReplayed := by
  intro s u inv ready hd cell
  refine ⟨fun id word own idle => ?idle, fun there untested => ⟨fun id word own low high => ?unit, fun kind id => ?cell⟩,
    fun untested pass => ?none, fun id seq found => ⟨?pass, fun settled die0 other => ?fail⟩⟩
  case idle =>
    refine (exec_unitError_ready ready ..).trans (congrArg _ (if_pos ?_))
    simpa using idle
  case unit =>
    obtain ⟨f, run⟩ := State.unitError_tested there untested (by omega) (by omega) id word own
    obtain ⟨tests, -, count⟩ := s.faultRecord_faults f
    refine ⟨_, (exec_unitError_ready ready ..).trans (congrArg _ run), ?_, count, s.faultRecord_cmds f⟩
    exact congrArg (· ++ _) tests
  case cell =>
    have run := (exec_unitError_ready ready u id none false).trans (congrArg _ (State.unitError_cell there untested kind id none false))
    obtain ⟨f, work, error⟩ := s.cellError_eq cell id
    rw [error, cellUnit_of_index kind (State.index_of_there there kind)] at run
    obtain ⟨-, -, count⟩ := s.faultRecord_faults f
    have noted : (s.faultRecord f).cell cell = s.cell cell := State.cell_of_cells_eq (s.faultRecord_cells' f) cell
    refine ⟨_, run, congrArg Cell.mode (State.updCell_same ..), ?_, fun idle => ?_,
      fun c g alone op live stops again geo segs left mine some' => ?_⟩
    · exact List.any_eq_true.2 ⟨_, List.mem_append_right _ (List.mem_singleton_self _), beq_iff_eq.2 rfl⟩
    · rw [State.quiesce_idle (by rw [s.faultRecord_cmds f]; exact idle)]
      refine ⟨s.faultRecord_cmds f, count, ?_⟩
      refine (State.updCell_same ((s.faultRecord f).updCell cell Cell.quiet) cell Cell.underTest).trans ?_
      rw [State.updCell_same, noted]
      rfl
    · have alone' : (s.faultRecord f).cmds = [c] := (s.faultRecord_cmds f).trans alone
      have found : ((s.faultRecord f).updCell cell Cell.quiet).cmd? c.id = some c := by
        rw [State.cmd?, State.updCell_cmds, alone']
        simp
      have geo' : ((s.faultRecord f).updCell cell Cell.quiet).geo c.id c.desc c.records = some g :=
        (State.geo_of_slot_eq (fun k i => s.faultRecord_slot f k i) c.id c.desc c.records).trans geo
      have quiet := State.quiesce_alone alone' op live geo' (noted.symm ▸ mine) s.faults.seq
      rw [noted] at quiet
      have listed : ((s.cell cell).tasks.map fun k => k.task) ≠ [] := by simpa using some'
      have offered := State.replay_alone found stops again segs left listed cell s.faults.seq
      rw [← quiet] at offered
      refine ⟨_, offered, rfl, live, fun k mem => ?_⟩
      have task : k.task ∈ (s.cell cell).tasks.map fun k => k.task := List.mem_map_of_mem mem
      exact ⟨mem_foldl_insertKey _ _ (.inl task), fun taken => by simpa [task] using (List.mem_filter.1 taken).2⟩
  case none =>
    refine congrArg Host.Outcome.next ?_
    rw [State.tests_none untested]
  case pass =>
    obtain ⟨tested, count⟩ := State.testPass_spec inv.regs hd id seq
    have run : exec (.targetedSelfTestEnd u true) s = .next (s.testPass u id seq) := by
      refine congrArg Host.Outcome.next ?_
      rw [found]
      rfl
    refine ⟨_, run, tested, count, fun kind => State.testPass_cell kind id seq, fun i c kind named held live => ?_⟩
    rw [named]
    exact State.testPass_engine kind held live seq
  case fail =>
    have run : exec (.targetedSelfTestEnd u false) s = .next (s.testFail u id) := by
      refine congrArg Host.Outcome.next ?_
      rw [found]
      rfl
    have ok : (s.endTest u).regsOk := inv.regs
    by_cases isCell : u.kind = 0
    · have settled' := settled.resolve_left (not_not_intro isCell)
      obtain ⟨logical, fails⟩ := State.testFail_cell isCell (fun l fills => (settled' l fills).2) id
      have replaced := State.replaceCell_replaced (s := s.endTest u) (cell := cell) (fun l fills => (settled' l fills).1) s.faults.seq
        (s.fld (regDie0 .faultControl) 0 0 == 1)
      have failed := State.testRecord_failed (u := u) ok replaced.counts hd
        ((State.tested_of_tests_eq (congrArg FaultSt.tests replaced.faults) u).trans (s.tested_endTest u)) logical id
      have recorded := State.testRecord_recorded ((s.endTest u).replaceCell cell s.faults.seq
        (s.fld (regDie0 .faultControl) 0 0 == 1)).1 u logical id 2
      obtain ⟨mode, slot, tasks⟩ := replaced.gone
      rw [← State.cell_of_cells_eq recorded.cells cell] at mode slot tasks
      refine ⟨_, run.trans (congrArg _ fails), failed.tested, failed.count, fun _ => ⟨mode, slot, tasks⟩,
        fun l p _ fills sparing outside spare => ?_,
        fun kind => absurd (isCell.symm.trans kind) (by decide), fun other' => absurd isCell other'⟩
      have filled := State.replaceCell_slot (s := s.endTest u) fills outside spare s.faults.seq
      rw [State.lslot_of_dies_eq recorded.dies, beq_iff_eq.2 sparing]
      exact filled
    · have recorded := (s.endTest u).testRecord_recorded u none id 2
      have failed := State.testRecord_failed (u := u) ok (.refl _) hd (s.tested_endTest u) none id
      by_cases isLink : u.kind = 7
      · have fell := State.loseCutOff_fell 8 (((s.endTest u).testRecord u none id 2).linkOut u.index)
        have out : State.Failed u s (((s.endTest u).testRecord u none id 2).linkOut u.index) := ⟨failed.tested, failed.count⟩
        have lost := out.fell (recorded.rising ok) hd fell
        refine ⟨_, run.trans (congrArg _ (State.testFail_link isLink id)), lost.tested, lost.count, fun kind => absurd kind isCell,
          fun l p kind => absurd kind isCell, fun _ => ?_, fun _ other' => absurd isLink other'⟩
        rw [fell.links]
        exact mem_insertKey_self ..
      · obtain ⟨apart, serves⟩ := other isCell isLink
        have serves' : (((s.endTest u).testRecord u none id 2).die u.die).inService = true := by
          rw [State.die, recorded.dies]
          exact serves
        have fell := (((s.endTest u).testRecord u none id 2).loseOne_fell u.die).trans (State.loseCutOff_fell 8 _)
        have lost := failed.fell (recorded.rising ok) hd fell
        have gone := State.loseCutOff_induct (P := fun t => t.DieGone u.die) (fun t k h => t.loseOne_gone (.inr h)) 8
          (((s.endTest u).testRecord u none id 2).loseOne_gone (d := u.die) (k := u.die) (.inl rfl))
        rw [State.testFail_die isCell isLink, State.loseDie_of_there apart serves'] at run
        exact ⟨_, run, lost.tested, lost.count, fun kind => absurd kind isCell, fun l p kind => absurd kind isCell,
          fun kind => absurd kind isLink, fun _ _ => gone.out⟩

end Sys2Proof.Machine
end

section
/-! SUPPORT. Expert batches (R378–R399): sending, receiving, summing, timing out and cancelling. -/
set_option Elab.async false
namespace Sys2Proof.Machine

/-! ### Reading a table, and reading beside the fabric -/

theorem words64_length (n : Nat) (bs : List Byte) : (words64 n bs).length = n := by
  induction n generalizing bs with
  | zero => rfl
  | succ n ih => exact congrArg (· + 1) (ih _)

theorem listBytes_length (ws : List Nat) : (listBytes ws).length = 8 * ws.length := by
  induction ws with
  | nil => rfl
  | cons w ws ih =>
    rw [listBytes, List.map_cons, List.flatten_cons, List.length_append, leBytes_length, List.length_cons]
    exact (congrArg (8 + ·) ih).trans (by omega)

theorem State.readByte_setFabric (s : State) (g : FabricSt → FabricSt) (x : Acc) (a : Nat) :
    (s.setFabric g).readByte x a = s.readByte x a := rfl

theorem State.readBytes_setFabric (s : State) (g : FabricSt → FabricSt) (x : Acc) (a n : Nat) :
    (s.setFabric g).readBytes x a n = s.readBytes x a n := by
  induction n generalizing a with
  | zero => rfl
  | succ n ih =>
    unfold State.readBytes
    rw [State.readByte_setFabric, ih]

theorem State.batchRowBytes_setFabric (s : State) (g : FabricSt → FabricSt) (id : CmdId) (t : Tens) (r : Nat) :
    (s.setFabric g).batchRowBytes id t r = s.batchRowBytes id t r := by
  simp only [State.batchRowBytes, State.readBytes_setFabric]
  rfl

/-! ### Rows of the batch commands -/

theorem State.onCmd_of_live {s : State} {id : CmdId} {c : Cmd} (found : s.cmd? id = some c) (live : c.ending = none) {p : List Byte → Bool}
    (yes : p c.desc = true) (f : Cmd → State) : s.onCmd id p f = f c := by
  simp [State.onCmd, found, live, yes]

theorem opcode_of_send {d : List Byte} (h : isSend d = true) : hOpcode d = 0x61 := by
  simpa [isSend, isOpcode] using (Bool.and_eq_true_iff.1 h).1

theorem opcode_of_receive {d : List Byte} (h : isReceive d = true) : hOpcode d = 0x61 := by
  simpa [isReceive, isOpcode] using (Bool.and_eq_true_iff.1 h).1

theorem opcode_of_return {d : List Byte} (h : isReturn d = true) : hOpcode d = 0x62 := by
  simpa [isReturn, isOpcode] using (Bool.and_eq_true_iff.1 h).1

theorem opcode_of_sum {d : List Byte} (h : isSum d = true) : hOpcode d = 0x62 := by
  simpa [isSum, isOpcode] using (Bool.and_eq_true_iff.1 h).1

theorem takes_of_receive {d : List Byte} (h : isReceive d = true) : (isReceive d || isSum d) = true := Bool.or_eq_true_iff.2 (.inl h)

theorem takes_of_sum {d : List Byte} (h : isSum d = true) : (isReceive d || isSum d) = true := Bool.or_eq_true_iff.2 (.inr h)

theorem isReceive_of_sum {d : List Byte} (h : isSum d = true) : isReceive d = false :=
  Bool.eq_false_iff.2 fun r => absurd ((opcode_of_receive r).symm.trans (opcode_of_sum h)) (by decide)

section
variable {s : State} {id : CmdId} {c : Cmd} (found : s.cmd? id = some c) (live : c.ending = none)
include found live

/-- A SEND under test, or one that has placed its messages, waits. -/
theorem exec_dispatchSend_waits (send : isSend c.desc = true) (waits : c.begun = true ∨ s.batchTested c = true) :
    exec (.dispatchSend id) s = .next s :=
  congrArg Host.Outcome.next ((State.onCmd_of_live found live send _).trans (if_pos waits))

theorem exec_combineReturn_waits (ret : isReturn c.desc = true) (waits : c.begun = true ∨ s.batchTested c = true) :
    exec (.combineReturn id) s = .next s :=
  congrArg Host.Outcome.next ((State.onCmd_of_live found live ret _).trans (if_pos waits))

theorem exec_dispatchReceive_tested (recv : isReceive c.desc = true) (test : s.batchTested c = true) :
    exec (.dispatchReceive id) s = .next s :=
  congrArg Host.Outcome.next ((State.onCmd_of_live found live recv _).trans (if_pos test))

theorem exec_combineSum_tested (sum : isSum c.desc = true) (test : s.batchTested c = true) : exec (.combineSum id) s = .next s :=
  congrArg Host.Outcome.next ((State.onCmd_of_live found live sum _).trans (if_pos test))

/-- A command that takes headers and has begun ends if it has everything. -/
theorem exec_dispatchReceive_begun (recv : isReceive c.desc = true) (calm : s.batchTested c = false) (begun : c.begun = true) :
    exec (.dispatchReceive id) s = .next (s.settleBatch id) :=
  congrArg Host.Outcome.next ((State.onCmd_of_live found live recv _).trans
    ((if_neg (Bool.eq_false_iff.1 calm)).trans (if_pos begun)))

theorem exec_combineSum_begun (sum : isSum c.desc = true) (calm : s.batchTested c = false) (begun : c.begun = true) :
    exec (.combineSum id) s = .next (s.settleBatch id) :=
  congrArg Host.Outcome.next ((State.onCmd_of_live found live sum _).trans
    ((if_neg (Bool.eq_false_iff.1 calm)).trans (if_pos begun)))

/-- Until every row is stored, a command that takes headers stands as it is. -/
theorem State.settleBatch_short (takes : (isReceive c.desc || isSum c.desc) = true) (short : allRows c = false) : s.settleBatch id = s :=
  (State.onCmd_of_live found live takes _).trans (if_pos (.inr (.inl (by simp [short]))))

/-- With every row stored, a command not under test ends. -/
theorem State.settleBatch_whole (takes : (isReceive c.desc || isSum c.desc) = true) (begun : c.begun = true) (whole : allRows c = true)
    (calm : s.batchTested c = false) : s.settleBatch id = if isReceive c.desc then s.endReceive c else s.endSum c :=
  (State.onCmd_of_live found live takes _).trans (if_neg (by simp [begun, whole, calm]))

end

/-! ### A command begins to take headers -/

/-- No row is stored before the header of the first peer. -/
theorem allRows_headless {c : Cmd} (heads : c.rx.heads = []) (awaited : (peers c).length ≠ 0) : allRows c = false := by
  refine Bool.and_eq_false_iff.2 (.inl (Bool.eq_false_iff.2 fun all => ?_))
  have first := List.all_eq_true.1 all 0 (by simpa [upTo] using Nat.pos_of_ne_zero awaited)
  rw [headOf, heads] at first
  exact absurd first (by decide)

theorem peers_length {c : Cmd} {ws : List Nat} (table : c.records.getD 3 [] = listBytes ws) : (peers c).length = ws.length := by
  rw [peers, List.length_map, peerTable, table, words64_length, listBytes_length, Nat.mul_div_cancel_left _ (by decide)]

theorem State.takeWaiting_calm {s : State} (calm : s.fabric.headers = []) (id : CmdId) : s.takeWaiting id = s := by
  rw [State.takeWaiting, calm]
  rfl

/-- A command that has begun with tables `recs`. -/
def Cmd.taking (recs : Tab (List Byte)) (c : Cmd) : Cmd := { c with begun := true, records := recs }

/-- With no header waiting, a command that begins keeps its table of peers and changes nothing else. -/
theorem State.beginBatch_calm {s : State} {id : CmdId} {c : Cmd} (found : s.cmd? id = some c) (live : c.ending = none)
    (takes : (isReceive c.desc || isSum c.desc) = true) (calm : s.fabric.headers = []) (heads : c.rx.heads = []) {recs : Tab (List Byte)}
    {ws : List Nat} (table : recs.getD 3 [] = listBytes ws) (some' : ws ≠ []) : s.beginBatch c recs = s.updCmd id (Cmd.taking recs) := by
  have named : c.id = id := by simpa using List.find?_some found
  have begun : (s.updCmd id (Cmd.taking recs)).cmd? id = some (c.taking recs) :=
    (s.cmd?_updCmd id (Cmd.taking recs) fun _ => rfl).trans (congrArg _ found)
  have awaited : (peers (c.taking recs)).length ≠ 0 := by simpa [peers_length (c := c.taking recs) table] using some'
  refine Eq.trans (congrArg (State.settleBatch · c.id) (State.takeWaiting_calm (s := s.updCmd c.id (Cmd.taking recs)) calm c.id)) ?_
  rw [named]
  exact State.settleBatch_short (c := c.taking recs) begun live takes (allRows_headless heads awaited)

/-! ### A batch command whose messages are placed -/

/-- A SEND or RETURN that has placed its messages ends at once where none is left of them, and changes only its own ending. -/
theorem State.settleSend_stopped {t : State} {id : CmdId} {x : Cmd} {e : Ending} (found : t.cmd? id = some x) (live : x.ending = none)
    (begun : x.begun = true) (stop : x.run.stop = some e) (op : hOpcode x.desc = 0x61 ∨ hOpcode x.desc = 0x62) :
    (∃ cmds, t.settleSend id = { t with cmds := cmds })
    ∧ (t.settleSend id).cmd? id = some { x with ending := if t.sendsDone id then some e else none } := by
  have settled : t.settleSend id = if t.sendsDone id then t.finish id e else t := by
    unfold State.settleSend
    rw [found]
    dsimp only
    cases done : t.sendsDone id with
    | false => exact if_pos (by simp)
    | true =>
      rw [if_neg (by obtain op | op := op <;> simp [live, begun, op]), if_neg (by obtain op | op := op <;> simp [isCollective, isOpcode, op]),
        stop]
      rfl
  rw [settled]
  cases t.sendsDone id with
  | false => exact ⟨⟨_, rfl⟩, found.trans (by rw [← live]; rfl)⟩
  | true =>
    refine ⟨⟨_, rfl⟩, (State.cmd?_updCmd t id _ fun c => ?_).trans ((congrArg _ found).trans ?_)⟩
    · split <;> rfl
    · simp [live]

/-! ### RETURN (R391) -/

/-- A message of a RETURN as it stands at the source. -/
structure OutMsg.Carries (m : OutMsg) (id : CmdId) (d : List Byte) (flow : Nat) (rs : List (List Byte)) : Prop where
  id : m.id = some id
  flow : m.flow = flow
  type : m.type = 7
  next : m.next = 0
  window : m.window = some (btStart d, btWindow d)
  slots : m.slots.length = 1 + (chunks 512 (rs.flatten.length / 512 + 1) rs.flatten).length

/-- The rows a RETURN sends to source `i`. -/
def State.returnRows (s : State) (c : Cmd) (p : ReturnPlan) (i : Nat) : Except AccErr (List (List Byte)) :=
  mapE (fun r => s.batchRowBytes c.id p.out r) (rowsOfSource (recCount p.record) p.srcs.length (btExperts c.desc) i)

/-- The header of its message. -/
def State.returnHead (s : State) (c : Cmd) (p : ReturnPlan) (i : Nat) : List Byte :=
  batchHeader (recField p.record i 0 2) (btTag c.desc) (s.cmdDie c.id) (recField p.record i 4 4) p.out.batchRow (btExperts c.desc)
    ((upTo (btExperts c.desc)).map fun e => recCount p.record i e)

/-- `t` with the message to source `i` placed. -/
def State.returnTo (s : State) (c : Cmd) (p : ReturnPlan) (t : State) (i : Nat) : Except Halt State := do
  let rows ← haltOf (t.returnRows c p i)
  pure (t.enqueue c.id (srcReturn (p.srcs.getD i 0)) 7 none (some (btStart c.desc, btWindow c.desc)) none
    (batchSlots (s.returnHead c p i) rows.flatten))

/-- What a RETURN leaves, its messages placed. -/
def State.returned (u : State) (id : CmdId) : State :=
  (u.updCmd id fun x => { x with begun := true, run := { x.run with stop := some Status.ok.plain } }).settleSend id

theorem State.returnRows_setFabric (s : State) (g : FabricSt → FabricSt) (c : Cmd) (p : ReturnPlan) (i : Nat) :
    (s.setFabric g).returnRows c p i = s.returnRows c p i :=
  congrArg (mapE · _) (funext fun r => s.batchRowBytes_setFabric g c.id p.out r)

/-- A placed message stands last at the source. -/
theorem State.enqueue_carries (s : State) (id : CmdId) (d : List Byte) (flow : Nat) (batch : Option BatchKey) (head : List Byte)
    (rs : List (List Byte)) :
    ∃ m, s.enqueue id flow 7 none (some (btStart d, btWindow d)) batch (batchSlots head rs.flatten)
        = s.setFabric (fun f => { f with out := f.out ++ [m] })
      ∧ m.Carries id d flow rs := by
  unfold State.enqueue
  dsimp only
  rw [if_neg (by simp [batchSlots])]
  refine ⟨_, rfl, rfl, rfl, rfl, rfl, rfl, ?_⟩
  simp [flagged, batchSlots, upTo, Nat.add_comm]

/-- The messages of the first `n` sources stand at the source in the order of the list. -/
theorem State.returnTo_all (s : State) (c : Cmd) (p : ReturnPlan) (n : Nat) (read : ∀ i, i < n → ∃ rs, s.returnRows c p i = .ok rs) :
    ∃ ms : List OutMsg, (upTo n).foldlM (s.returnTo c p) s = .ok (s.setFabric fun f => { f with out := f.out ++ ms })
      ∧ ms.length = n ∧ ∀ i rs, i < n → s.returnRows c p i = .ok rs →
        ∃ m, ms[i]? = some m ∧ m.Carries c.id c.desc (srcReturn (p.srcs.getD i 0)) rs := by
  induction n with
  | zero => exact ⟨[], congrArg Except.ok (by simp [State.setFabric]), rfl, fun i _ lt => absurd lt (Nat.not_lt_zero i)⟩
  | succ n ih =>
    obtain ⟨ms, placed, count, each⟩ := ih fun i lt => read i (Nat.lt_succ_of_lt lt)
    obtain ⟨rs, rows⟩ := read n (Nat.lt_succ_self n)
    obtain ⟨m, last, carries⟩ := (s.setFabric fun f => { f with out := f.out ++ ms }).enqueue_carries c.id c.desc
      (srcReturn (p.srcs.getD n 0)) none (s.returnHead c p n) rs
    refine ⟨ms ++ [m], ?_, by simp [count], fun i rs' lt rows' => ?_⟩
    · rw [upTo, List.range_succ, List.foldlM_append]
      refine (congrArg (· >>= fun t => [n].foldlM (s.returnTo c p) t) placed).trans ?_
      have one : s.returnTo c p (s.setFabric fun f => { f with out := f.out ++ ms }) n
          = .ok (s.setFabric fun f => { f with out := f.out ++ (ms ++ [m]) }) := by
        rw [State.returnTo, State.returnRows_setFabric, rows]
        refine congrArg Except.ok (last.trans ?_)
        rw [State.setFabric, State.setFabric, State.setFabric]
        dsimp only
        rw [List.append_assoc]
      exact (congrArg (· >>= pure) one :)
    · obtain before | rfl := Nat.lt_succ_iff_lt_or_eq.1 lt
      · obtain ⟨m', at', carries'⟩ := each i rs' before rows'
        exact ⟨m', (List.getElem?_append_left (count.symm ▸ before)).trans at', carries'⟩
      · obtain rfl : rs = rs' := Except.ok.inj (rows.symm.trans rows')
        exact ⟨m, by simp [← count], carries⟩

theorem State.combineReturn_placed {s u : State} {c : Cmd} {p : ReturnPlan} (idle : c.begun = false) (calm : s.batchTested c = false)
    (plan : s.returnPlan c.id c.desc = .ok p) (placed : (upTo p.srcs.length).foldlM (s.returnTo c p) s = .ok u) :
    s.combineReturn c = u.returned c.id := by
  unfold State.combineReturn
  dsimp only
  rw [if_neg (by simp [idle, calm]), plan]
  dsimp only
  change (match (upTo p.srcs.length).foldlM (s.returnTo c p) s with
    | .error h => s.halted c.id h
    | .ok s => s.returned c.id) = _
  rw [placed]

/-! ### SEND (R382–R386) -/

/-- What every step that succeeds keeps, the whole fold keeps. -/
theorem foldlM_ok {α β ε : Type} {P : β → Prop} {f : β → α → Except ε β} (step : ∀ b a b', P b → f b a = .ok b' → P b') (l : List α) :
    ∀ b b', P b → l.foldlM f b = .ok b' → P b' := by
  induction l with
  | nil => exact fun b b' h e => Except.ok.inj e ▸ h
  | cons a l ih =>
    intro b b' h e
    rw [List.foldlM_cons] at e
    cases one : f b a with
    | error y => rw [one] at e; cases e
    | ok v => rw [one] at e; exact ih v b' (step b a v h one) e

theorem bind_pure_ok {α β ε : Type} {P : β → Prop} {a : Except ε α} {f : α → β} {u : β} (h : ∀ x, P (f x))
    (e : (a >>= fun x => pure (f x)) = Except.ok u) : P u := by
  cases a with
  | error y => cases e
  | ok x => exact Except.ok.inj e ▸ h x

/-- The messages of a SEND change the fabric alone. -/
theorem State.sendMessages_rest {s u : State} {c : Cmd} {p : SendPlan} {die gen : Nat} (sent : s.sendMessages c p die gen = .ok u) :
    ∃ fabric, u = { s with fabric := fabric } := by
  refine foldlM_ok (P := fun u : State => ∃ fabric, u = { s with fabric := fabric }) ?_ _ s u ⟨_, rfl⟩ sent
  intro t h u ⟨fabric, eq⟩ one
  refine bind_pure_ok (P := fun u : State => ∃ fabric, u = { s with fabric := fabric }) (fun rows => ?_) one
  obtain ⟨fabric', eq'⟩ := t.enqueue_rest c.id (homeFlow (p.homes.getD h 0)) 6 none (some (btStart c.desc, btWindow c.desc))
    (some ⟨die, btTag c.desc, gen⟩) _
  exact ⟨fabric', eq'.trans (by rw [eq])⟩

/-- What a SEND adds to the three counters of its die. -/
def State.countSend (u : State) (die placed drops redirects : Nat) : State :=
  ((u.bump (regDie .dispatchPlaced die) placed).bump (regDie .dispatchDrops die) drops).bump (regDie .dispatchRedirects die) redirects

theorem State.countSend_rd {u : State} (ok : u.regsOk) {die : Nat} (lt : die < 8) (placed drops redirects : Nat) :
    (u.countSend die placed drops redirects).rd (regDie .dispatchPlaced die) = (u.rd (regDie .dispatchPlaced die) + placed) % 2 ^ 64
    ∧ (u.countSend die placed drops redirects).rd (regDie .dispatchDrops die) = (u.rd (regDie .dispatchDrops die) + drops) % 2 ^ 64
    ∧ (u.countSend die placed drops redirects).rd (regDie .dispatchRedirects die)
      = (u.rd (regDie .dispatchRedirects die) + redirects) % 2 ^ 64 := by
  have ok1 := State.bump_regsOk (regDie .dispatchPlaced die) placed ok
  have ok2 := State.bump_regsOk (regDie .dispatchDrops die) drops ok1
  have pd : (regDie .dispatchPlaced die).addr ≠ (regDie .dispatchDrops die).addr := addr_ne_of_name ⟨lt, Nat.one_pos⟩ ⟨lt, Nat.one_pos⟩ nofun
  have pr : (regDie .dispatchPlaced die).addr ≠ (regDie .dispatchRedirects die).addr :=
    addr_ne_of_name ⟨lt, Nat.one_pos⟩ ⟨lt, Nat.one_pos⟩ nofun
  have dr : (regDie .dispatchDrops die).addr ≠ (regDie .dispatchRedirects die).addr :=
    addr_ne_of_name ⟨lt, Nat.one_pos⟩ ⟨lt, Nat.one_pos⟩ nofun
  refine ⟨?_, ?_, ?_⟩
  · exact (State.rd_bump_other _ ok2 pr).trans ((State.rd_bump_other _ ok1 pd).trans (State.rd_bump_same _ _ ok))
  · refine (State.rd_bump_other _ ok2 dr).trans ((State.rd_bump_same _ _ ok1).trans ?_)
    rw [State.rd_bump_other _ ok pd.symm]
  · refine (State.rd_bump_same _ _ ok2).trans ?_
    rw [State.rd_bump_other _ ok1 dr.symm, State.rd_bump_other _ ok pr.symm]

/-- A SEND that has placed its messages knows how it will end, unless its tag was cancelled before. -/
def Cmd.sent (cancelled : Bool) (e : Ending) (x : Cmd) : Cmd :=
  { x with begun := true, run := { x.run with stop := if cancelled then x.run.stop else some e } }

/-- What a SEND leaves: its counters advanced, and its command settled. -/
def State.sent (u : State) (c : Cmd) (p : SendPlan) (die : Nat) : State :=
  let n := p.cands.length * p.k
  ((u.countSend die p.walk.placed.length (n - p.walk.placed.length) p.walk.redirected).updCmd c.id
    (Cmd.sent (isCancelled c) ⟨0, n - p.walk.placed.length, detail4 p.walk.redirected 0 0 0⟩)).settleSend c.id

theorem State.dispatchSend_placed {s u : State} {c : Cmd} {p : SendPlan} (idle : c.begun = false) (calm : s.batchTested c = false)
    (plan : s.sendPlan c.id c.desc = .ok p)
    (stored : (({ s with freeCount := s.freeCount + p.cands.length * p.k } : State).writeBytes (s.accOf c.id p.place) p.place.base
      (placement p s.freeCount)).2 = none)
    (placed : (({ s with freeCount := s.freeCount + p.cands.length * p.k } : State).writeBytes (s.accOf c.id p.place) p.place.base
      (placement p s.freeCount)).1.sendMessages c p (s.cmdDie c.id) (s.stampOf c) = .ok u) :
    s.dispatchSend c = u.sent c p (s.cmdDie c.id) := by
  unfold State.dispatchSend
  dsimp only
  rw [if_neg (by simp [idle, calm]), plan]
  dsimp only
  rw [stored]
  dsimp only
  rw [placed]
  rfl

/-- A command whose tag was cancelled has a way to end. -/
theorem Cmd.sent_stop (x : Cmd) (e : Ending) : ∃ f, (x.sent (isCancelled x) e).run.stop = some f ∧ (isCancelled x = false → f = e) := by
  cases cancelled : isCancelled x with
  | false => exact ⟨e, rfl, fun _ => rfl⟩
  | true =>
    cases stop : x.run.stop with
    | none => simp [isCancelled, stop] at cancelled
    | some f => exact ⟨f, stop, nofun⟩

theorem exec_dispatchSend_halts {s : State} {id : CmdId} {c : Cmd} {h : Halt} (found : s.cmd? id = some c) (live : c.ending = none)
    (send : isSend c.desc = true) (calm : s.batchTested c = false) (idle : c.begun = false) (halts : s.sendPlan id c.desc = .error h) :
    exec (.dispatchSend id) s = .next (s.halted id h) := by
  obtain rfl : c.id = id := by simpa using List.find?_some found
  refine congrArg Host.Outcome.next ((State.onCmd_of_live found live send _).trans ?_)
  unfold State.dispatchSend
  dsimp only
  rw [if_neg (by simp [idle, calm]), halts]

theorem exec_combineReturn_halts {s : State} {id : CmdId} {c : Cmd} {h : Halt} (found : s.cmd? id = some c) (live : c.ending = none)
    (ret : isReturn c.desc = true) (calm : s.batchTested c = false) (idle : c.begun = false) (halts : s.returnPlan id c.desc = .error h) :
    exec (.combineReturn id) s = .next (s.halted id h) := by
  obtain rfl : c.id = id := by simpa using List.find?_some found
  refine congrArg Host.Outcome.next ((State.onCmd_of_live found live ret _).trans ?_)
  unfold State.combineReturn
  dsimp only
  rw [if_neg (by simp [idle, calm]), halts]

/-- What a test sees of a SEND that has placed its messages. -/
theorem State.sent_spec {s w u : State} {c : Cmd} {p : SendPlan} {die : Nat} (found : s.cmd? c.id = some c) (live : c.ending = none)
    (send : isSend c.desc = true) (stored : s.SameButMem w) (ok : s.regsOk) (lt : die < 8)
    (rest : ∃ fabric, u = { w with fabric := fabric }) :
    let t := u.sent c p die
    let n := p.cands.length * p.k
    let placed := p.walk.placed.length
    ∃ x, t.cmd? c.id = some x ∧ x.begun = true ∧ t.fabric = u.fabric ∧ t.mem.cells = w.mem.cells
      ∧ (isCancelled c = false → x.run.stop = some ⟨0, n - placed, detail4 p.walk.redirected 0 0 0⟩)
      ∧ (u.sendsDone c.id = false → x.ending = none) ∧ (u.sendsDone c.id = true → x.ending = x.run.stop)
      ∧ t.rd (regDie .dispatchPlaced die) = (s.rd (regDie .dispatchPlaced die) + placed) % 2 ^ 64
      ∧ t.rd (regDie .dispatchDrops die) = (s.rd (regDie .dispatchDrops die) + (n - placed)) % 2 ^ 64
      ∧ t.rd (regDie .dispatchRedirects die) = (s.rd (regDie .dispatchRedirects die) + p.walk.redirected) % 2 ^ 64 := by
  intro t n placed
  obtain ⟨fabric, rfl⟩ := rest
  obtain ⟨mem, free, rfl⟩ := stored
  set u : State := { ({ s with mem := mem, freeCount := free } : State) with fabric := fabric } with hu
  obtain ⟨e, stop, plain⟩ := c.sent_stop ⟨0, n - placed, detail4 p.walk.redirected 0 0 0⟩
  have placedAt : ((u.countSend die placed (n - placed) p.walk.redirected).updCmd c.id
      (Cmd.sent (isCancelled c) ⟨0, n - placed, detail4 p.walk.redirected 0 0 0⟩)).cmd? c.id
      = some (c.sent (isCancelled c) ⟨0, n - placed, detail4 p.walk.redirected 0 0 0⟩) :=
    (State.cmd?_updCmd _ c.id (Cmd.sent (isCancelled c) _) fun _ => rfl).trans (congrArg _ found)
  obtain ⟨⟨cmds, same⟩, settled⟩ := State.settleSend_stopped placedAt live rfl stop (.inl (opcode_of_send send))
  obtain ⟨a, b, d⟩ := State.countSend_rd (u := u) ok lt placed (n - placed) p.walk.redirected
  refine ⟨_, settled, rfl, ?_, ?_, fun not' => stop.trans (congrArg _ (plain not')), fun left => if_neg (Bool.eq_false_iff.1 left),
    fun done => (if_pos done).trans stop.symm, ?_, ?_, ?_⟩
  · exact (congrArg State.fabric same :)
  · exact (congrArg (fun t : State => t.mem.cells) same :)
  · exact (congrArg (State.rd · _) same :).trans a
  · exact (congrArg (State.rd · _) same :).trans b
  · exact (congrArg (State.rd · _) same :).trans d

/-! ### RECEIVE and SUM (R387–R394) -/

section
variable {s : State} {id : CmdId} {c : Cmd} (found : s.cmd? id = some c) (live : c.ending = none)
include found live

theorem exec_dispatchReceive_halts {h : Halt} (recv : isReceive c.desc = true) (calm : s.batchTested c = false) (idle : c.begun = false)
    (halts : s.receivePlan id c.desc = .error h) : exec (.dispatchReceive id) s = .next (s.halted id h) := by
  refine congrArg Host.Outcome.next ((State.onCmd_of_live found live recv _).trans ?_)
  rw [if_neg (Bool.eq_false_iff.1 calm), if_neg (Bool.eq_false_iff.1 idle), halts]

theorem exec_combineSum_halts {h : Halt} (sum : isSum c.desc = true) (calm : s.batchTested c = false) (idle : c.begun = false)
    (halts : s.sumPlan id c.desc = .error h) : exec (.combineSum id) s = .next (s.halted id h) := by
  refine congrArg Host.Outcome.next ((State.onCmd_of_live found live sum _).trans ?_)
  rw [if_neg (Bool.eq_false_iff.1 calm), if_neg (Bool.eq_false_iff.1 idle), halts]

theorem exec_dispatchReceive_begins {srcs : List Nat} (recv : isReceive c.desc = true) (calm : s.batchTested c = false)
    (idle : c.begun = false) (plan : s.receivePlan id c.desc = .ok srcs) (none' : s.fabric.headers = []) (some' : srcs ≠ [])
    (heads : c.rx.heads = []) : exec (.dispatchReceive id) s = .next (s.updCmd id (Cmd.taking [(3, listBytes srcs)])) := by
  refine congrArg Host.Outcome.next ((State.onCmd_of_live found live recv _).trans ?_)
  rw [if_neg (Bool.eq_false_iff.1 calm), if_neg (Bool.eq_false_iff.1 idle), plan]
  exact State.beginBatch_calm found live (takes_of_receive recv) none' heads rfl some'

theorem exec_combineSum_begins {homes : List Nat} {bs : List Byte} (sum : isSum c.desc = true) (calm : s.batchTested c = false)
    (idle : c.begun = false) (plan : s.sumPlan id c.desc = .ok (homes, bs)) (none' : s.fabric.headers = []) (some' : homes ≠ [])
    (heads : c.rx.heads = []) : exec (.combineSum id) s = .next (s.updCmd id (Cmd.taking [(2, bs), (3, listBytes homes)])) := by
  refine congrArg Host.Outcome.next ((State.onCmd_of_live found live sum _).trans ?_)
  rw [if_neg (Bool.eq_false_iff.1 calm), if_neg (Bool.eq_false_iff.1 idle), plan]
  exact State.beginBatch_calm found live (takes_of_sum sum) none' heads rfl some'

/-- A command whose header or rows are late ends, and one that has them in time stands (R389, R394). -/
theorem exec_batchDeadline_of_live (takes : (isReceive c.desc || isSum c.desc) = true) :
    let late := (btStart c.desc + 22 ≤ s.frame ∧ ¬(c.begun = true ∧ allHeads c = true))
      ∨ (btEnd c.desc + 21 ≤ s.frame ∧ ¬(c.begun = true ∧ allRows c = true))
    (late → exec (.batchDeadline id) s = .next (s.finish id Status.flowLost.plain)) ∧ (¬late → exec (.batchDeadline id) s = .next s) := by
  intro late
  have test : ((decide (btStart c.desc + 22 ≤ s.frame) && !(c.begun && allHeads c))
      || (decide (btEnd c.desc + 21 ≤ s.frame) && !(c.begun && allRows c))) = true ↔ late := by
    rw [Bool.or_eq_true, Bool.and_eq_true, Bool.and_eq_true, decide_eq_true_iff, decide_eq_true_iff, Bool.not_eq_true', Bool.not_eq_true',
      ← Bool.not_eq_true, ← Bool.not_eq_true, Bool.and_eq_true, Bool.and_eq_true]
  exact ⟨fun yes => congrArg Host.Outcome.next ((State.onCmd_of_live found live takes _).trans (if_pos (test.2 yes))),
    fun no => congrArg Host.Outcome.next ((State.onCmd_of_live found live takes _).trans (if_neg fun t => no (test.1 t)))⟩

end

/-- A RECEIVE with every row stores its pointer list and records, and ends with the rows received. -/
theorem State.endReceive_stored {s : State} {c : Cmd} {inT tpl pl rc : Tens} {tb : List Byte}
    (hin : s.tensRun c.id.ctx (u32 c.desc 36) = some inT) (htpl : s.tensRun c.id.ctx (u32 c.desc 44) = some tpl)
    (hpl : s.tensRun c.id.ctx (u32 c.desc 48) = some pl) (hrc : s.tensRun c.id.ctx (u32 c.desc 52) = some rc)
    (read : s.readBytes (s.accOf c.id tpl) tpl.base (32 * btExperts c.desc) = .ok tb) :
    let n := (peers c).length
    let w := s.writeBytes (s.accOf c.id pl) pl.base (pointerList (fun i e => hdCount (headOf c i) e) n (btExperts c.desc)
      (inT.stride.getD 1 0) (u32 c.desc 60) tb)
    let v := w.1.writeBytes (s.accOf c.id rc) rc.base ((upTo n).map fun i => batchRecord (btExperts c.desc) (headOf c i)).flatten
    w.2 = none → v.2 = none →
      s.endReceive c = v.1.finish c.id (okAux (((upTo n).map fun i => hdTotal (headOf c i)).foldl (· + ·) 0)) := by
  intro n w v wrote wrote'
  unfold State.endReceive
  dsimp only
  rw [hin, htpl, hpl, hrc]
  dsimp only
  rw [read]
  dsimp only
  rw [if_neg (by rw [show _ = none from wrote]; exact Bool.false_ne_true), show _ = none from wrote']

/-- The rows of a SUM without a residual (R393). -/
def Cmd.summed (c : Cmd) (out : Tens) (rs ws : List (List FVal)) : List (List FVal) :=
  (upTo out.rows).map fun t => combineRow out.cols (sumRenorm c.desc) ((upTo (btK c.desc)).filterMap fun j =>
    let p := bitsOf (u64 (c.records.getD 2 []) (8 * (t * btK c.desc + j))) 4 0
    if p = 0x1F then none else some ((ws.getD t []).getD p .zero, rs.getD (t * btK c.desc + j) [])) none

theorem State.endSum_plain {s : State} {c : Cmd} {ret wt out : Tens} {rs ws : List (List FVal)} (plain : u32 c.desc 60 = noHandle)
    (hret : s.tensRun c.id.ctx (u32 c.desc 36) = some ret) (hwt : s.tensRun c.id.ctx (u32 c.desc 44) = some wt)
    (hout : s.tensRun c.id.ctx (u32 c.desc 52) = some out)
    (rows : s.readAll (s.accOf c.id ret) .fp32 ret (s.readScale c.id ret) 0 = .ok rs)
    (weights : s.readAll (s.accOf c.id wt) .fp32 wt (s.readScale c.id wt) 0 = .ok ws) :
    let a := (s.moved c.id ret 0 (ret.rowReadBytes * ret.rows) 0).writeAll c.id out (sumRound c.desc) (u32 c.desc 72) (c.summed out rs ws)
    s.endSum c = s.wrote a.1 c.id out (u32 c.desc 72) a.2.1 a.2.2 := by
  intro a
  unfold State.endSum
  dsimp only
  rw [hret, hwt, hout, if_pos plain]
  dsimp only
  exact (State.afterReads_of_ok rfl rows).trans ((State.afterReads_of_ok rfl weights).trans (State.afterReads_of_ok rfl rfl))

/-! ### Cancelling (R396–R398) -/

theorem State.Unended.finishAll {j : CmdId} {e : Ending} (l : List Cmd) {t : State} (live : t.Unended j) (named : ∃ x ∈ l, x.id = j) :
    (l.foldl (fun t c => t.finish c.id e) t).EndedAs j e := by
  obtain ⟨x, mem, rfl⟩ := named
  exact (State.finishWaits (fun _ => true) e l t).2 x mem rfl (.inl live)

/-- A command that none of those listed is stays in flight. -/
theorem State.Unended.finishOthers {j : CmdId} {e : Ending} (l : List Cmd) {t : State} (live : t.Unended j) (apart : ∀ x ∈ l, x.id ≠ j) :
    (l.foldl (fun t c => t.finish c.id e) t).Unended j :=
  List.foldlRecOn l _ (motive := fun t : State => t.Unended j) live fun _ h x mem => h.finish_other (apart x mem).symm e

/-- A SEND whose tag is cancelled will end as `e` says. -/
def Cmd.stopped (e : Ending) (x : Cmd) : Cmd := { x with run := { x.run with stop := some e } }

/-- The SUMs that the cancel `k` ends. -/
def State.cancelledSums (s : State) (k : Cancel) : List Cmd :=
  s.cmds.filter fun c => (c.ending.isNone && c.id.ctx == k.ctx && btTag c.desc == k.tag && s.cmdDie c.id == k.die) && isSum c.desc

/-- The SENDs stop, the SUMs end, and then the cancel itself. -/
def State.cancelTo (u : State) (e done : Ending) (sends sums : List Cmd) (id : CmdId) : State :=
  (sums.foldl (fun t c => t.finish c.id e) (sends.foldl (fun t c => t.updCmd c.id (Cmd.stopped e)) u)).finish id done

/-- The generation advances in the fabric, and the commands of the tag follow. -/
theorem State.advanceGen_eq (s : State) (k : Cancel) :
    let old := s.batchGenOf k.die k.ctx k.tag
    ∃ (sends : List Cmd) (g : FabricSt → FabricSt),
      (g s.fabric).batchGen = s.fabric.batchGen.set (genKey k.die k.ctx k.tag) ((old + 1) % 65536)
      ∧ (g s.fabric).cancels = s.fabric.cancels.erase k
      ∧ s.advanceGen k = (s.setFabric g).cancelTo (cancelledEnding k.tag old) (okAux ((old + 1) % 65536)) sends (s.cancelledSums k) k.by' :=
  ⟨_, _, rfl, rfl, rfl⟩

/-- The rest of the machine stays as it was while the commands change. -/
theorem State.cancelTo_rest (u : State) (e done : Ending) (sends sums : List Cmd) (id : CmdId) :
    ∃ cmds, u.cancelTo e done sends sums id = { u with cmds := cmds } := by
  have changed {t : State} (i : CmdId) (f : Cmd → Cmd) : (∃ cmds, t = { u with cmds := cmds }) → ∃ cmds, t.updCmd i f = { u with cmds := cmds } := by
    rintro ⟨cmds, rfl⟩
    exact ⟨_, rfl⟩
  refine changed id _ (List.foldlRecOn sums _ (motive := fun t : State => ∃ cmds, t = { u with cmds := cmds }) ?_ fun t h c _ => changed c.id _ h)
  exact List.foldlRecOn sends _ (motive := fun t : State => ∃ cmds, t = { u with cmds := cmds }) ⟨_, rfl⟩ fun t h c _ => changed c.id _ h

theorem State.Unended.stopped {j : CmdId} {e : Ending} (l : List Cmd) {t : State} (live : t.Unended j) :
    (l.foldl (fun t c => t.updCmd c.id (Cmd.stopped e)) t).Unended j := by
  refine List.foldlRecOn l _ (motive := fun t : State => t.Unended j) live fun t h x _ => ?_
  obtain ⟨c, found, live⟩ := h
  refine ⟨_, (State.cmd?_updCmd_of_id t x.id j (f := Cmd.stopped e) fun _ => rfl).trans (congrArg _ found), ?_⟩
  exact ite_cases (P := fun y : Cmd => y.ending = none) live live

/-- Every SUM named ends as the cancel says, and the cancel with the new generation. -/
theorem State.cancelTo_ends {u : State} {e done : Ending} {sends sums : List Cmd} {id : CmdId} :
    (u.Unended id → (∀ x ∈ sums, x.id ≠ id) → (u.cancelTo e done sends sums id).EndedAs id done)
    ∧ (∀ j, u.Unended j → (∃ x ∈ sums, x.id = j) → (u.cancelTo e done sends sums id).EndedAs j e) :=
  ⟨fun live apart => ((live.stopped sends).finishOthers sums apart).finish _,
    fun _ live named => ((live.stopped sends).finishAll sums named).finish ..⟩

/-- What the advance of a generation leaves. -/
theorem State.advanceGen_spec (s : State) (k : Cancel) (live : s.Unended k.by') (other : ∀ x ∈ s.cmds, x.id = k.by' → isSum x.desc = false) :
    let old := s.batchGenOf k.die k.ctx k.tag
    let t := s.advanceGen k
    t.batchGenOf k.die k.ctx k.tag = (old + 1) % 65536 ∧ t.EndedAs k.by' (okAux ((old + 1) % 65536))
      ∧ t.fabric.cancels = s.fabric.cancels.erase k ∧ { t with cmds := s.cmds, fabric := s.fabric } = s
      ∧ (∀ j x, s.cmd? j = some x → x.ending = none → j.ctx = k.ctx → btTag x.desc = k.tag → s.cmdDie j = k.die → isSum x.desc = true →
        t.EndedAs j (cancelledEnding k.tag old)) := by
  intro old t
  obtain ⟨sends, g, gen, cancels, run⟩ := s.advanceGen_eq k
  obtain ⟨cmds, rest⟩ := (s.setFabric g).cancelTo_rest (cancelledEnding k.tag old) (okAux ((old + 1) % 65536)) sends (s.cancelledSums k) k.by'
  obtain ⟨ends, each⟩ := State.cancelTo_ends (u := s.setFabric g) (e := cancelledEnding k.tag old) (done := okAux ((old + 1) % 65536))
    (sends := sends) (sums := s.cancelledSums k) (id := k.by')
  have left : t = { s.setFabric g with cmds := cmds } := run.trans rest
  have apart : ∀ x ∈ s.cancelledSums k, x.id ≠ k.by' := fun x mem same => by
    obtain ⟨mem, which⟩ := List.mem_filter.1 mem
    exact absurd (Bool.and_eq_true_iff.1 which).2 (Bool.eq_false_iff.1 (other x mem same))
  have ended {i : CmdId} {e : Ending} := State.EndedAs.of_cmds_eq (congrArg State.cmds run) (i := i) (e := e)
  refine ⟨?_, ended (ends live apart), ?_, ?_, fun j x found open' ctx tag die sum => ended (each j ⟨x, found, open'⟩ ⟨x, ?_, ?_⟩)⟩
  · rw [left, State.batchGenOf]
    exact (congrArg (Tab.getD · _ 0) gen).trans (Tab.getD_set_same ..)
  · rw [left]
    exact cancels
  · rw [left]; rfl
  · have named : x.id = j := by simpa using List.find?_some found
    refine List.mem_filter.2 ⟨List.mem_of_find?_eq_some found, ?_⟩
    simp [open', named, ctx, tag, die, sum]
  · simpa using List.find?_some found

theorem exec_batchGenerationAdvance_of_found {s : State} {die ctx tag : Nat} {k : Cancel}
    (found : (s.fabric.cancels.find? fun k => k.die == die && k.ctx == ctx && k.tag == tag) = some k) :
    (s.frame < k.frame → exec (.batchGenerationAdvance die ctx tag) s = .next s)
    ∧ (k.frame ≤ s.frame → exec (.batchGenerationAdvance die ctx tag) s = .next (s.advanceGen k)) := by
  have run : exec (.batchGenerationAdvance die ctx tag) s = .next (if k.frame ≤ s.frame then s.advanceGen k else s) := by
    change Host.Outcome.next _ = _
    rw [found]
  exact ⟨fun early => run.trans (congrArg _ (if_neg (Nat.not_le.2 early))), fun due => run.trans (congrArg _ (if_pos due))⟩

/-- A cancel that begins is listed for the next frame. -/
theorem exec_batchCancel_of_live {s : State} {id : CmdId} {c : Cmd} (found : s.cmd? id = some c) (live : c.ending = none)
    (cancel : isOpcode 0x63 c.desc = true) :
    (c.begun = true → exec (.batchCancel id) s = .next s)
    ∧ (c.begun = false → ∃ t, exec (.batchCancel id) s = .next t
      ∧ t.fabric = { s.fabric with cancels := s.fabric.cancels ++ [⟨s.cmdDie id, id.ctx, u8 c.desc 32, s.frame + 1, id⟩] }
      ∧ t.cmd? id = some { c with begun := true }) :=
  ⟨fun begun => congrArg Host.Outcome.next ((State.onCmd_of_live found live cancel _).trans (if_pos begun)),
    fun idle => ⟨_, congrArg Host.Outcome.next ((State.onCmd_of_live found live cancel _).trans (if_neg (Bool.eq_false_iff.1 idle))), rfl,
      State.cmd?_begun found rfl⟩⟩

/-- What a RETURN leaves, its messages placed. -/
theorem State.returned_spec {s : State} {c : Cmd} (found : s.cmd? c.id = some c) (live : c.ending = none) (ret : isReturn c.desc = true)
    (g : FabricSt → FabricSt) :
    ∃ x, ((s.setFabric g).returned c.id).cmd? c.id = some x ∧ x.begun = true ∧ x.run.stop = some Status.ok.plain
      ∧ ((s.setFabric g).returned c.id).mem = s.mem ∧ ((s.setFabric g).returned c.id).fabric = g s.fabric := by
  have placed := (State.cmd?_updCmd (s.setFabric g) c.id (fun x => { x with begun := true, run := { x.run with stop := some Status.ok.plain } })
    fun _ => rfl).trans (congrArg _ found)
  obtain ⟨⟨cmds, same⟩, settled⟩ := State.settleSend_stopped placed live rfl rfl (.inr (opcode_of_return ret))
  exact ⟨_, settled, rfl, rfl, (congrArg State.mem same :), (congrArg State.fabric same :)⟩

/-- Settles O60: each clause is the rule of one row of a batch command, by the lemma about the row. -/
theorem batchesAreRoutedAndCancelled : Obligations.BatchesAreRoutedAndCancelled := by
  unfold Obligations.BatchesAreRoutedAndCancelled
  intro s id c inv found live d die
  obtain rfl : c.id = id := by simpa using List.find?_some found
  refine ⟨fun test => ?tested, fun calm send => ⟨fun begun => ?_, fun idle => ⟨fun h halts => ?_, ?sends⟩⟩,
    fun calm ret => ⟨fun begun => ?_, fun idle => ⟨fun h halts => ?_, ?returns⟩⟩,
    fun calm recv => ⟨fun idle => ⟨fun h halts => ?_, fun srcs plan none' some' heads => ?_⟩, fun begun => ⟨fun short => ?_, ?received⟩⟩,
    fun calm sum => ⟨fun idle => ⟨fun h halts => ?_, fun homes bs plan none' some' heads => ?_⟩, fun begun => ⟨fun short => ?_, ?summed⟩⟩,
    fun takes => exec_batchDeadline_of_live found live (by simpa using takes), fun cancel => ?cancels⟩
  case tested =>
    exact ⟨fun send => exec_dispatchSend_waits found live send (.inr test), fun ret => exec_combineReturn_waits found live ret (.inr test),
      fun recv => exec_dispatchReceive_tested found live recv test, fun sum => exec_combineSum_tested found live sum test⟩
  · exact exec_dispatchSend_waits found live send (.inl begun)
  · exact exec_dispatchSend_halts found live send calm idle halts
  case sends =>
    intro p r plan n w placed wrote sent lt
    obtain ⟨mem, free, eq⟩ := State.writeBytes_sameButMem { s with freeCount := s.freeCount + n } (s.accOf c.id p.place) p.place.base
      (placement p s.freeCount)
    obtain ⟨x, spec⟩ := State.sent_spec found live send (w := w.1) ⟨mem, free, eq⟩ inv.regs lt (State.sendMessages_rest sent)
    exact ⟨_, x, congrArg Host.Outcome.next ((State.onCmd_of_live found live send _).trans
      (State.dispatchSend_placed idle calm plan wrote sent)), spec⟩
  · exact exec_combineReturn_waits found live ret (.inl begun)
  · exact exec_combineReturn_halts found live ret calm idle halts
  case returns =>
    intro p plan order rowsOf read
    obtain ⟨ms, placed, count, each⟩ := s.returnTo_all c p p.srcs.length read
    obtain ⟨x, there, begun, stop, mem, fabric⟩ := State.returned_spec found live ret fun f => { f with out := f.out ++ ms }
    refine ⟨_, x, congrArg Host.Outcome.next ((State.onCmd_of_live found live ret _).trans (State.combineReturn_placed idle calm plan placed)),
      there, begun, stop, mem, ?_, fun i rs lt rows => ?_⟩
    · rw [fabric, List.length_append, count]
    · obtain ⟨m, at', carries⟩ := each i rs lt rows
      refine ⟨m, ?_, carries.id, carries.flow, carries.type, carries.next, carries.window, carries.slots⟩
      rw [fabric, List.getElem?_append_right (Nat.le_add_right ..), Nat.add_sub_cancel_left]
      exact at'
  · exact exec_dispatchReceive_halts found live recv calm idle halts
  · exact exec_dispatchReceive_begins found live recv calm idle plan none' some' heads
  · exact (exec_dispatchReceive_begun found live recv calm begun).trans
      (congrArg _ (State.settleBatch_short found live (takes_of_receive recv) short))
  case received =>
    intro whole inT tpl pl rc tb hin htpl hpl hrc read n w v wrote wrote'
    exact (exec_dispatchReceive_begun found live recv calm begun).trans (congrArg _
      ((State.settleBatch_whole found live (takes_of_receive recv) begun whole calm).trans ((if_pos recv).trans
        (State.endReceive_stored hin htpl hpl hrc read wrote wrote'))))
  · exact exec_combineSum_halts found live sum calm idle halts
  · exact exec_combineSum_begins found live sum calm idle plan none' some' heads
  · exact (exec_combineSum_begun found live sum calm begun).trans (congrArg _ (State.settleBatch_short found live (takes_of_sum sum) short))
  case summed =>
    intro whole plain ret wt out rs ws hret hwt hout rows weights table a ok
    have run := (exec_combineSum_begun found live sum calm begun).trans (congrArg _
      ((State.settleBatch_whole found live (takes_of_sum sum) begun whole calm).trans
        ((if_neg (Bool.eq_false_iff.1 (isReceive_of_sum sum))).trans (State.endSum_plain plain hret hwt hout rows weights))))
    have open' : a.1.Unended c.id := State.Unended.writeAll (State.Unended.moved ⟨c, found, live⟩ ..) ..
    obtain ⟨t, run', ends, -, -⟩ := open'.ends_of_wrote run
    exact ⟨t, run', ends ok⟩
  case cancels =>
    obtain ⟨begun, idle⟩ := exec_batchCancel_of_live found live cancel
    refine ⟨begun, idle, fun k listed by' other => ?_⟩
    obtain ⟨early, due⟩ := exec_batchGenerationAdvance_of_found listed
    refine ⟨early, fun now => ?_⟩
    have which := List.find?_some listed
    obtain ⟨⟨hdie, hctx⟩, htag⟩ : (k.die = die ∧ k.ctx = c.id.ctx) ∧ k.tag = u8 c.desc 32 := by simpa using which
    obtain ⟨gen, ends, cancels, rest, sums⟩ := s.advanceGen_spec k (by' ▸ ⟨c, found, live⟩) (by' ▸ other)
    rw [by'] at ends
    rw [hdie, hctx, htag] at gen ends sums
    exact ⟨_, due now, gen, ends, cancels, rest, sums⟩

end Sys2Proof.Machine
end
